-- ==== Sys2Proof/Word.lean ====
section
/-!
DEFINITION. The word types of the Tvedune 7 (00_scope R4, 04_registers R83): bytes, 32-bit lane words, 64-bit scalars,
96-bit instruction words, and the plainest conversions between them.
-/
namespace Sys2Proof

/-- One byte of memory. -/
abbrev Byte := BitVec 8

/-- One lane of a vector register, or one 32-bit word of memory. -/
abbrev Word := BitVec 32

/-- A scalar register. -/
abbrev DWord := BitVec 64

/-- An instruction word (R50). -/
abbrev IWord := BitVec 96

/-- A lane mask, bit i for lane i. -/
abbrev Mask := BitVec 32

/-- The mask of all 32 lanes. -/
def fullMask : Mask := 0xFFFFFFFF#32

end Sys2Proof
end

