-- ==== Sys2Proof/Config.lean ====
section
/-!
DEFINITION. What the spec leaves free or to an implementation: constants without a body, so that nothing in Lean can
evaluate them and a statement holds whatever they are. Each stands in a row of the assumption log.
-/
namespace Sys2Proof

/-- A free value: by the moment (State.freeCtr), the use that draws it, and its number within the use. -/
opaque Config.freeValue : Nat → Nat → Nat → BitVec 64

/-- Which of the two FP32 neighbours of the true result FRCP, FRSQ, FEXP2, FLOG2, FSIN, FCOS and FTANH (functions 0 to 6)
return for an input: true is the one further from zero (06_vector_ops R160: a fixed function of the input bits). -/
opaque Config.approxUp : Nat → Word → Bool

/-- Whether a device of the domain stands behind a device id (17_link R428). -/
opaque Config.deviceThere : Nat → Bool

/-- Key material and salts that the security controller draws (19_reliability R474), by draw number. -/
opaque Config.keyMaterial : Nat → BitVec 256
opaque Config.salt : Nat → BitVec 32

/-- Whether an image of a digest carries a valid signature under the root key, and its security version (19_reliability R468,
R471). -/
opaque Config.imageValid : BitVec 512 → Bool
opaque Config.imageVersion : BitVec 512 → BitVec 64

/-- Whether the package carries a guest (18_guest R444). -/
opaque Config.guestThere : Bool

/-- Depth of each of the guest's submission queues, from its capability words, and its identity digest (18_guest R444,
19_reliability R469). -/
opaque Config.guestDepth : Nat → BitVec 8
opaque Config.guestDigest : BitVec 512

/-- The ML-DSA-87 signature of a report, byte by byte (19_reliability R469). -/
opaque Config.signature : List Byte → Nat → Byte

/-- The board and die sensors that the sideband reads (19_reliability R470), by sensor number and tick. -/
opaque Config.sensor : Nat → Nat → BitVec 64

/-- How many ticks the time base of a compute die stands ahead of the package's: two dies differ by at most 4 (01_device R25). -/
opaque Config.skew : Nat → Fin 5

end Sys2Proof
end

