-- ==== Sys2Proof/Syntax.lean ====
section
/-!
DEFINITION. The syntax of the Tvedune 7: operand fields, modifiers, and ONE inductive with a constructor for every
row of the opcode table: 153 instruction words and 120 indivisible device steps (03_encoding R50-R78, and the encoding
table of each chapter).
-/
namespace Sys2Proof

/-- The special registers with their operand codes 0xA0-0xB7 in order (04_registers R85). -/
inductive SReg where
  | lane | gang | block | grid | cluster | core | die | device | part | flags | fpmode | tags | budget | nanc | args
  | scratch | tcause | tpc | tval | tlane | tslot | leave | mbx | active
  deriving DecidableEq, Repr

/-- An operand field D, A, B or C: what its code names (03_encoding R55). `imm` carries the instruction's IMM value. -/
inductive Opnd where
  | v (n : Fin 64)
  | s (n : Fin 64)
  | p (n : Fin 8)
  | sr (r : SReg)
  | zero
  | imm (x : BitVec 32)
  deriving DecidableEq, Repr

/-- GUARD (R50, R51): a predicate and whether it is negated. -/
structure Guard where
  neg : Bool
  p : Fin 8
  deriving DecidableEq, Repr

/-- What every instruction word carries besides its operands: the guard and the hints (R50, R59, R60). -/
structure Head where
  guard : Guard
  la : Bool
  lb : Bool
  lc : Bool
  yld : Bool
  stall : BitVec 4
  deriving DecidableEq, Repr

/-- Rounding modes (R63, R118). -/
inductive Rm where
  | rne | rz | rup | rdn | rna | sr | dyn
  deriving DecidableEq, Repr

/-- Integer comparison conditions (R62). -/
inductive Cond where
  | eq | ne | lt | le | gt | ge
  deriving DecidableEq, Repr

/-- FP comparison conditions (R64, R168). -/
inductive FCond where
  | eq | ne | lt | le | gt | ge | num | nan | equ | neu | ltu | leu | gtu | geu
  deriving DecidableEq, Repr

/-- Format codes 0-13 (R70). -/
inductive Fmt where
  | n32 | i32 | f32 | bf16 | f16 | e4m3 | e5m2 | e2m3 | e3m2 | e2m1 | e8m0 | i8 | n8 | cb4
  deriving DecidableEq, Repr

/-- Memory access widths (R66). -/
inductive Width where
  | n8 | i8 | n16 | i16 | b32 | b32x2 | b32x4 | b64
  deriving DecidableEq, Repr

/-- Memory spaces (R66, R256). -/
inductive Space where
  | global | scratch | cscratch | const | args
  deriving DecidableEq, Repr

/-- Cache policies (R66, R264). -/
inductive Policy where
  | normal | nt | evf | keep
  deriving DecidableEq, Repr

/-- Atomic operations (R67, R271). -/
inductive AOp where
  | add | minn | mini | maxn | maxi | and | or | xor | exch | incw | decw | fadd32 | bfadd2
  deriving DecidableEq, Repr

/-- Scopes (R20). -/
inductive Scope where
  | blk | clu | die | pkg | dom | sys
  deriving DecidableEq, Repr

/-- SHFL modes (R182). -/
inductive ShflMode where
  | pick | rot | swap | rev
  deriving DecidableEq, Repr

/-- VOTE modes (R182). -/
inductive VoteMode where
  | all | any | uni | ballot
  deriving DecidableEq, Repr

/-- REDUCE and SCAN operations (R182, R189). -/
inductive RedOp where
  | add | minn | mini | maxn | maxi | and | or | xor | fadd | fmin | fmax
  deriving DecidableEq, Repr

/-- MOD of the vector integer instructions (R62). -/
structure IntMod where
  signed : Bool
  sat : Bool
  deriving DecidableEq, Repr

/-- MOD of the scalar integer instructions (R62). -/
structure ScalarMod where
  signed : Bool
  sat : Bool
  w64 : Bool
  deriving DecidableEq, Repr

/-- MOD of the unpacked floating-point instructions (R63). -/
structure FpMod where
  rm : Rm
  sat : Bool
  na : Bool
  nb : Bool
  nc : Bool
  ftz : Bool
  deriving DecidableEq, Repr

/-- MOD of the packed floating-point instructions (R63, R163): `f16` is TY. -/
structure HalfMod where
  rm : Rm
  sat : Bool
  na : Bool
  nb : Bool
  nc : Bool
  f16 : Bool
  deriving DecidableEq, Repr

/-- MOD and the B field of the conversions (R65). -/
structure CvtMod where
  dfmt : Fmt
  sfmt : Fmt
  sat : Bool
  rm : Rm
  deriving DecidableEq, Repr

/-- MOD of the memory instructions (R66). -/
structure MemMod where
  width : Width
  space : Space
  policy : Policy
  deriving DecidableEq, Repr

/-- MOD of the atomic instructions (R67). -/
structure AtomMod where
  op : AOp
  w64 : Bool
  scope : Scope
  deriving DecidableEq, Repr

/-- MOD of the matrix instructions (R69): `i32` is ACC. -/
structure MatMod where
  fmt : Fmt
  nz : Bool
  i32 : Bool
  deriving DecidableEq, Repr

/-- An A or B field of a pair slot (R74). -/
inductive SlotSrc where
  | v (n : Fin 64)
  | s (n : Fin 64)
  deriving DecidableEq, Repr

/-- The opcodes that may stand in a pair slot, each with the MOD it lays out there (R75, R76). -/
inductive SlotOp where
  | iadd (m : IntMod) | isub (m : IntMod) | imul (m : IntMod) | imulh (m : IntMod) | imad (m : IntMod)
  | idiv (m : IntMod) | irem (m : IntMod) | imin (m : IntMod) | imax (m : IntMod)
  | and | or | xor | not | shl | shr (signed : Bool)
  | fadd (m : FpMod) | fsub (m : FpMod) | fmul (m : FpMod) | ffma (m : FpMod) | fmin (m : FpMod) | fmax (m : FpMod)
  | hadd2 (m : HalfMod) | hmul2 (m : HalfMod) | hfma2 (m : HalfMod) | hmin2 (m : HalfMod) | hmax2 (m : HalfMod)
  | sel (c : Fin 8) | mov
  deriving DecidableEq, Repr

/-- One slot of a pair word (R74). `b` of a one-source opcode is `v 0` with `lb` clear. -/
structure SlotInstr where
  op : SlotOp
  guard : Fin 8
  d : Fin 64
  a : SlotSrc
  b : SlotSrc
  la : Bool
  lb : Bool
  deriving DecidableEq, Repr

/-- The place of a gang: compute die, core, scheduler and gang place (R18, R195). -/
structure GangId where
  die : Nat
  core : Nat
  sched : Nat
  place : Nat
  deriving DecidableEq, Repr

/-- The two PC slots of a gang (R199). -/
inductive PcSlot where
  | a | b
  deriving DecidableEq, Repr

/-- A copy chain: the engine (compute die and cluster) and the chain's number on it (R344). -/
structure ChainId where
  die : Nat
  cluster : Nat
  num : Nat
  deriving DecidableEq, Repr

/-- A unit that grants or holds leases (R259, R260). -/
inductive CacheUnit where
  | l1 (die core : Nat)
  | cluster (die cluster : Nat)
  | rdc (die : Nat)
  deriving DecidableEq, Repr

/-- A home line, or a storage word by the byte address it holds, that an uncorrectable error can reach (R457). -/
inductive ErrSite where
  | home (line : Nat)
  | rdc (die addr : Nat)
  | cluster (die cluster addr : Nat)
  | l1 (die core addr : Nat)
  | scratch (die core addr : Nat)
  | register (g : GangId) (reg lane : Nat)
  | shadow (ctx : Nat)
  deriving DecidableEq, Repr

/-- The two halves of a patrol scrub of a sector: the read with its version, and the write back (R321). -/
inductive ScrubPhase where
  | read
  | writeBack
  deriving DecidableEq, Repr

/-- A link of the device (R422). -/
inductive LinkId where
  | ring (j : Nat)
  | memory (k : Nat) (second : Bool)
  | guest
  | fabric (die port : Nat)
  | cxl (die : Nat)
  | host
  deriving DecidableEq, Repr

/-- The header of a guest message (R443). -/
structure GuestHeader where
  mtype : BitVec 8
  len : BitVec 8
  rtag : BitVec 16
  sq : BitVec 4
  seq : BitVec 16
  deriving DecidableEq, Repr

/-- What the management sideband reads (R470). -/
inductive SidebandItem where
  | healthLog (index : Nat)
  | bootStatus
  | sensor (n : Nat)
  deriving DecidableEq, Repr

/-- What a contribution carries of the reduction window that it goes through: its index, BASE, LIMIT and COUNT (R429). -/
structure RedWin where
  index : Nat
  base : Nat
  limit : Nat
  count : Nat
  deriving DecidableEq, Repr

/-- An access that another device of the domain makes to this one (R315, R428); a RED may be a contribution (R429). -/
inductive RemoteOp where
  | load (size : Nat)
  | store (size : Nat)
  | atomic (op : AOp) (w64 : Bool)
  | red (op : AOp) (w64 : Bool) (win : Option RedWin)
  | cas (w64 : Bool)
  deriving DecidableEq, Repr

/-- The opcode table: the instruction words, then the device's own indivisible steps. A step row carries as arguments
which instance of the step it is (which gang, line, message or command). -/
inductive Instr where
  /-- NOP (R215). Does nothing except advance the slot's PC by 12. -/
  | nop (h : Head)
  /-- BRA (R216). Conditional relative branch that divides the slot's lanes by the guard and pushes a JOIN record when they diverge. -/
  | bra (h : Head) (target join : BitVec 16)
  /-- JMP_OFFSET (R217). Whole-slot jump to a PC-relative target held in IMM. -/
  | jmpOffset (h : Head) (target : BitVec 16)
  /-- JMP_SCALAR (R217). Whole-slot jump to a byte offset from the code base held in a scalar register. -/
  | jmpScalar (h : Head) (a : Opnd)
  /-- JMPI (R218). Indexed jump through a const-space table that groups lanes by target and pushes PATH and JOIN entries. -/
  | jmpi (h : Head) (a b : Opnd) (countM1 : BitVec 8) (join : BitVec 16)
  /-- JOIN (R219). Reconverges the slot at its join record, or falls through when no record matches. -/
  | join (h : Head)
  /-- CALL_OFFSET (R220). Writes the link PC + 12 and jumps to a PC-relative target. -/
  | callOffset (h : Head) (d : Opnd) (target : BitVec 16)
  /-- CALL_SCALAR (R220). Writes the link PC + 12 and jumps to a target held in a scalar register. -/
  | callScalar (h : Head) (d a : Opnd)
  /-- RET (R220). Sets the slot's PC to the offset held in a scalar register. -/
  | ret (h : Head) (a : Opnd)
  /-- EXIT (R221). Active lanes leave the gang; in trap mode the whole gang ends with FAILED_TRAP. -/
  | exit (h : Head)
  /-- TRAP (R413). Raises SOFTWARE with sr.tval taken from A and sr.tpc set past the TRAP. -/
  | trap (h : Head) (a : Opnd)
  /-- ERET (R415). Returns the gang from trap mode to sr.tpc, restoring the entry frame and applying resumption by lane. -/
  | eret (h : Head)
  /-- YIELD (R222). Makes the issuing pair youngest for arbitration and advances the PC. -/
  | yield (h : Head)
  /-- SLEEP (R222). Holds the slot until the time base reaches an absolute deadline. -/
  | sleep (h : Head) (a : Opnd)
  /-- BRK (R414). Raises BREAK with its code in sr.tval, whatever its guard. -/
  | brk (h : Head) (code : BitVec 16)
  /-- UDF (R73). Permanently undefined word that always raises ILLEGAL_OPCODE with sr.tval 0x0D. -/
  | udf
  /-- ILLEGAL_OPCODE (R72). Issue of a word with an unassigned OPC raises ILLEGAL_OPCODE with the OPC in sr.tval. -/
  | illegalOpcode (opc : BitVec 8)
  /-- PAIR (R77). Issues two narrow slot instructions together, which commit as one instruction. -/
  | pair (x y : SlotInstr)
  /-- IADD (R150). Lane-wise integer add with optional saturation. -/
  | iadd (h : Head) (d a b : Opnd) (m : IntMod)
  /-- ISUB (R150). Lane-wise integer subtract with optional saturation. -/
  | isub (h : Head) (d a b : Opnd) (m : IntMod)
  /-- IMUL (R150). Lane-wise integer multiply with optional saturation. -/
  | imul (h : Head) (d a b : Opnd) (m : IntMod)
  /-- IMULH (R150). Lane-wise high 32 bits of the 64-bit product. -/
  | imulh (h : Head) (d a b : Opnd) (m : IntMod)
  /-- IMAD (R150). Lane-wise integer multiply-add with optional saturation. -/
  | imad (h : Head) (d a b c : Opnd) (m : IntMod)
  /-- IDIV (R151). Lane-wise truncating integer divide with defined corner cases. -/
  | idiv (h : Head) (d a b : Opnd) (m : IntMod)
  /-- IREM (R151). Lane-wise integer remainder taking the dividend's sign. -/
  | irem (h : Head) (d a b : Opnd) (m : IntMod)
  /-- IMIN (R150). Lane-wise integer minimum. -/
  | imin (h : Head) (d a b : Opnd) (m : IntMod)
  /-- IMAX (R150). Lane-wise integer maximum. -/
  | imax (h : Head) (d a b : Opnd) (m : IntMod)
  /-- IABS (R150). Lane-wise signed absolute value. -/
  | iabs (h : Head) (d a : Opnd) (sat : Bool)
  /-- INEG (R150). Lane-wise signed negation. -/
  | ineg (h : Head) (d a : Opnd) (sat : Bool)
  /-- IDOT4 (R152). Lane-wise four-byte dot product accumulated into C. -/
  | idot4 (h : Head) (d a b c : Opnd) (m : IntMod)
  /-- AND (R154). Lane-wise bitwise and. -/
  | andB (h : Head) (d a b : Opnd)
  /-- OR (R154). Lane-wise bitwise or. -/
  | orB (h : Head) (d a b : Opnd)
  /-- XOR (R154). Lane-wise bitwise exclusive or. -/
  | xorB (h : Head) (d a b : Opnd)
  /-- NOT (R154). Lane-wise bitwise complement. -/
  | notB (h : Head) (d a : Opnd)
  /-- SHL (R154). Lane-wise left shift. -/
  | shl (h : Head) (d a b : Opnd)
  /-- SHR (R154). Lane-wise logical or arithmetic right shift. -/
  | shr (h : Head) (d a b : Opnd) (signed : Bool)
  /-- ROT (R154). Lane-wise left rotation. -/
  | rot (h : Head) (d a b : Opnd)
  /-- BFE (R155). Lane-wise bit-field extract. -/
  | bfe (h : Head) (d a b : Opnd) (signed : Bool)
  /-- BFI (R155). Lane-wise bit-field insert. -/
  | bfi (h : Head) (d a b c : Opnd)
  /-- POPC (R154). Lane-wise population count. -/
  | popc (h : Head) (d a : Opnd)
  /-- CLZ (R154). Lane-wise count of leading zeros. -/
  | clz (h : Head) (d a : Opnd)
  /-- BREV (R154). Lane-wise bit reversal. -/
  | brev (h : Head) (d a : Opnd)
  /-- BMIX (R154). Lane-wise three-input bitwise function given by a truth table. -/
  | bmix (h : Head) (d a b c : Opnd) (table : BitVec 8)
  /-- BPICK (R156). Lane-wise byte selection from A and B with optional sign fill. -/
  | bpick (h : Head) (d a b c : Opnd) (fill : BitVec 4)
  /-- FADD (R158). Lane-wise FP32 addition. -/
  | fadd (h : Head) (d a b : Opnd) (m : FpMod)
  /-- FSUB (R158). Lane-wise FP32 subtraction. -/
  | fsub (h : Head) (d a b : Opnd) (m : FpMod)
  /-- FMUL (R158). Lane-wise FP32 multiplication. -/
  | fmul (h : Head) (d a b : Opnd) (m : FpMod)
  /-- FFMA (R158). Lane-wise FP32 fused multiply-add. -/
  | ffma (h : Head) (d a b c : Opnd) (m : FpMod)
  /-- FMIN (R159). Lane-wise FP32 minimum. -/
  | fmin (h : Head) (d a b : Opnd) (m : FpMod)
  /-- FMAX (R159). Lane-wise FP32 maximum. -/
  | fmax (h : Head) (d a b : Opnd) (m : FpMod)
  /-- FRCP (R160). Lane-wise FP32 reciprocal. -/
  | frcp (h : Head) (d a : Opnd) (m : FpMod)
  /-- FRSQ (R160). Lane-wise FP32 reciprocal square root. -/
  | frsq (h : Head) (d a : Opnd) (m : FpMod)
  /-- FSQRT (R158). Lane-wise correctly rounded FP32 square root. -/
  | fsqrt (h : Head) (d a : Opnd) (m : FpMod)
  /-- FDIV (R158). Lane-wise correctly rounded FP32 division. -/
  | fdiv (h : Head) (d a b : Opnd) (m : FpMod)
  /-- FEXP2 (R160). Lane-wise FP32 base-2 exponential. -/
  | fexp2 (h : Head) (d a : Opnd) (m : FpMod)
  /-- FLOG2 (R160). Lane-wise FP32 base-2 logarithm. -/
  | flog2 (h : Head) (d a : Opnd) (m : FpMod)
  /-- FSIN (R160). Lane-wise FP32 sine. -/
  | fsin (h : Head) (d a : Opnd) (m : FpMod)
  /-- FCOS (R160). Lane-wise FP32 cosine. -/
  | fcos (h : Head) (d a : Opnd) (m : FpMod)
  /-- FTANH (R160). Lane-wise FP32 hyperbolic tangent. -/
  | ftanh (h : Head) (d a : Opnd) (m : FpMod)
  /-- FCLASS (R162). Lane-wise classification of an FP32 value into a one-hot mask. -/
  | fclass (h : Head) (d a : Opnd)
  /-- HADD2 (R164). Packed BF16x2 or F16x2 addition. -/
  | hadd2 (h : Head) (d a b : Opnd) (m : HalfMod)
  /-- HMUL2 (R164). Packed BF16x2 or F16x2 multiplication. -/
  | hmul2 (h : Head) (d a b : Opnd) (m : HalfMod)
  /-- HFMA2 (R164). Packed BF16x2 or F16x2 fused multiply-add. -/
  | hfma2 (h : Head) (d a b c : Opnd) (m : HalfMod)
  /-- HMIN2 (R164). Packed half-precision minimum. -/
  | hmin2 (h : Head) (d a b : Opnd) (m : HalfMod)
  /-- HMAX2 (R164). Packed half-precision maximum. -/
  | hmax2 (h : Head) (d a b : Opnd) (m : HalfMod)
  /-- HDOT2 (R165). Packed two-element dot product accumulated to FP32. -/
  | hdot2 (h : Head) (d a b c : Opnd) (m : HalfMod)
  /-- CVT (R137). Converts the element at position 0 of each lane between format codes. -/
  | cvt (h : Head) (d a : Opnd) (m : CvtMod)
  /-- CVTPK (R138). Converts a value and inserts it at element position EL of C. -/
  | cvtpk (h : Head) (d a c : Opnd) (m : CvtMod) (el : BitVec 3)
  /-- CVTUP (R139). Extracts the element at position EL and converts it to n32, i32 or f32. -/
  | cvtup (h : Head) (d a : Opnd) (m : CvtMod) (el : BitVec 3)
  /-- MXQ (R141). Quantises 32 lanes into one MX block and writes its E8M0 scale. -/
  | mxq (h : Head) (d a c : Opnd) (m : CvtMod)
  /-- MXDQ (R142). Dequantises MX block elements to FP32 with a given scale. -/
  | mxdq (h : Head) (d a c : Opnd) (m : CvtMod)
  /-- CBLU (R140). Looks up a cb4 index in a codebook slot of the core. -/
  | cblu (h : Head) (d a : Opnd) (m : CvtMod) (el slot : BitVec 3)
  /-- SRSEED (R143). Seeds the stochastic-rounding generator of each active lane. -/
  | srseed (h : Head) (a : Opnd)
  /-- ISETP (R167). Integer compare setting active bits of a predicate. -/
  | isetp (h : Head) (d a b : Opnd) (signed : Bool) (cond : Cond)
  /-- FSETP (R168). FP32 compare setting active bits of a predicate. -/
  | fsetp (h : Head) (d a b : Opnd) (na nb : Bool) (cond : FCond)
  /-- SEL (R169). Lane-wise select between A and B by a predicate. -/
  | sel (h : Head) (d a b c : Opnd)
  /-- PMIX (R169). Three-input predicate function given by a truth table. -/
  | pmix (h : Head) (d a b c : Opnd) (table : BitVec 8)
  /-- PMOV (R170). Moves a lane mask between predicate, scalar and vector forms. -/
  | pmov (h : Head) (d a : Opnd)
  /-- MOV (R170). Copies A into the active lanes of a vector register. -/
  | mov (h : Head) (d a : Opnd)
  /-- SHFL (R186). Reads another lane of the tile by PICK, ROT, SWAP or REV. -/
  | shfl (h : Head) (d a b : Opnd) (mode : ShflMode)
  /-- NBR (R187). Takes the left or right neighbour's value within the tile, with an edge value. -/
  | nbr (h : Head) (d a b : Opnd) (right : Bool)
  /-- VOTE (R188). Per-tile predicate vote or ballot. -/
  | vote (h : Head) (d a : Opnd) (mode : VoteMode)
  /-- REDUCE (R189). Combines the active lanes of each tile and writes the result to them. -/
  | reduce (h : Head) (d a : Opnd) (op : RedOp)
  /-- SCAN (R191). Inclusive or exclusive running combination along each tile. -/
  | scan (h : Head) (d a : Opnd) (op : RedOp) (excl : Bool)
  /-- MATCH (R192). Finds lanes of the tile holding equal values. -/
  | matchLanes (h : Head) (d a : Opnd) (all : Bool)
  /-- BCAST (R193). Broadcasts one lane of each tile to the whole tile. -/
  | bcast (h : Head) (d a b : Opnd)
  /-- PART (R185). Sets the tile size code in sr.part. -/
  | part (h : Head) (code : BitVec 3)
  /-- COALESCE (R101). Copies a vector register and merges equal neighbouring runs. -/
  | coalesce (h : Head) (d a : Opnd)
  /-- RUNS (R102). Counts the runs of a vector register. -/
  | runs (h : Head) (d a : Opnd) (max : Bool)
  /-- RUNGET (R103). Reads the first lane, count and value of one run. -/
  | runget (h : Head) (d a b : Opnd)
  /-- RUNAPP (R104). Appends one run to a register being built run by run. -/
  | runapp (h : Head) (d a b : Opnd) (first last : Bool)
  /-- RBUDGET (R106). Writes a snapshot of the gang's run-slot accounts. -/
  | rbudget (h : Head) (d : Opnd)
  /-- RSPILL (R108). Writes a register's run list as a spill image to scratch. -/
  | rspill (h : Head) (a c : Opnd) (off : BitVec 32) (free : Bool)
  /-- RFILL (R109). Reads a spill image from scratch into a register. -/
  | rfill (h : Head) (d a : Opnd) (off : BitVec 32)
  /-- SADD (R172). Scalar integer add. -/
  | sadd (h : Head) (d a b : Opnd) (m : ScalarMod)
  /-- SSUB (R172). Scalar integer subtract. -/
  | ssub (h : Head) (d a b : Opnd) (m : ScalarMod)
  /-- SMUL (R172). Scalar integer multiply. -/
  | smul (h : Head) (d a b : Opnd) (m : ScalarMod)
  /-- SMULH (R172). Scalar high half of the double-width product. -/
  | smulh (h : Head) (d a b : Opnd) (m : ScalarMod)
  /-- SMIX (R172). Scalar 64-bit three-input bitwise function. -/
  | smix (h : Head) (d a b c : Opnd) (table : BitVec 8)
  /-- SSHF (R173). Scalar shift by a signed count. -/
  | sshf (h : Head) (d a b : Opnd) (m : ScalarMod)
  /-- SCMP (R174). Scalar compare writing a scalar or predicate. -/
  | scmp (h : Head) (d a b : Opnd) (m : ScalarMod) (cond : Cond)
  /-- SMOV (R172). Copies 64 bits into a scalar register. -/
  | smov (h : Head) (d a : Opnd)
  /-- SMOVH (R172). Sets the high 32 bits from IMM and the low 32 bits from A. -/
  | smovh (h : Head) (d a b : Opnd)
  /-- SRD (R175). Reads a special register into a scalar. -/
  | srd (h : Head) (d a : Opnd)
  /-- SWR (R176). Writes a writable special register. -/
  | swr (h : Head) (d a : Opnd)
  /-- DADD (R178). Scalar FP64 addition. -/
  | dadd (h : Head) (d a b : Opnd) (m : FpMod)
  /-- DMUL (R178). Scalar FP64 multiplication. -/
  | dmul (h : Head) (d a b : Opnd) (m : FpMod)
  /-- DFMA (R178). Scalar FP64 fused multiply-add. -/
  | dfma (h : Head) (d a b c : Opnd) (m : FpMod)
  /-- DCVT (R135). Scalar conversion between FP64 and one other scalar format. -/
  | dcvt (h : Head) (d a : Opnd) (m : CvtMod) (widen : Bool)
  /-- SDIV (R172). Scalar integer divide. -/
  | sdiv (h : Head) (d a b : Opnd) (m : ScalarMod)
  /-- LD (R277). Vector load from a memory space. -/
  | ld (h : Head) (d a b : Opnd) (off : BitVec 32) (m : MemMod)
  /-- ST (R278). Vector store to a memory space. -/
  | st (h : Head) (a b c : Opnd) (off : BitVec 32) (m : MemMod)
  /-- SLD (R279). Scalar load. -/
  | sld (h : Head) (d a : Opnd) (off : BitVec 32) (m : MemMod)
  /-- SST (R279). Scalar store. -/
  | sst (h : Head) (a c : Opnd) (off : BitVec 32) (m : MemMod)
  /-- PREF (R280). Prefetch hint into L1 and the cluster cache. -/
  | pref (h : Head) (a b : Opnd) (off : BitVec 32) (m : MemMod)
  /-- CFLUSH (R382). Makes written code bytes of a range visible at a scope for fetch. -/
  | cflush (h : Head) (a b : Opnd) (off : BitVec 32) (scope : Scope)
  /-- ICINV (R383). Removes a range's lines from the instruction caches in a scope. -/
  | icinv (h : Head) (a b : Opnd) (off : BitVec 32) (scope : Scope)
  /-- ATOM (R281). Atomic read-modify-write returning the old value. -/
  | atom (h : Head) (d a b c : Opnd) (off : BitVec 32) (m : AtomMod)
  /-- RED (R281). Atomic read-modify-write returning nothing. -/
  | red (h : Head) (a b c : Opnd) (off : BitVec 32) (m : AtomMod)
  /-- CAS (R281). Atomic compare-and-swap per lane. -/
  | cas (h : Head) (d a b c : Opnd) (off : BitVec 32) (m : AtomMod)
  /-- DCAS (R283). Double compare-and-swap of two global words from a descriptor. -/
  | dcas (h : Head) (d a : Opnd) (off : BitVec 32) (m : AtomMod)
  /-- AMOVE (R283). Atomic move of one global word to another, optionally clearing the source. -/
  | amove (h : Head) (d a : Opnd) (off : BitVec 32) (m : AtomMod)
  /-- ALD (R282). Atomic load at the unit of its scope. -/
  | ald (h : Head) (d a b : Opnd) (off : BitVec 32) (m : AtomMod)
  /-- AST (R282). Atomic store at the unit of its scope. -/
  | ast (h : Head) (a b c : Opnd) (off : BitVec 32) (m : AtomMod)
  /-- FENCE (R266). Orders predecessor access classes before successor classes at a scope. -/
  | fence (h : Head) (scope : Scope) (dir : Bool) (die : BitVec 5) (succ pred : BitVec 6)
  /-- DRAIN (R285). Waits until the gang's NT stores and REDs are performed and folded in. -/
  | drain (h : Head) (scope : Scope)
  /-- BARI (R236). Initialises a barrier word once or by force. -/
  | bari (h : Head) (a : Opnd) (off : BitVec 32) (n : BitVec 8) (force : Bool)
  /-- BARV (R237). Arrives at a barrier word and returns a phase token. -/
  | barv (h : Head) (d a : Opnd) (off : BitVec 32)
  /-- BARW (R238). Waits for the barrier phase named by a token. -/
  | barw (h : Head) (d a b : Opnd) (off : BitVec 32)
  /-- BARX (R239). Adds owed bytes to a barrier word's PENDING. -/
  | barx (h : Head) (a b : Opnd) (off : BitVec 32)
  /-- GBAR (R241). Grid barrier across every gang of a cooperative launch. -/
  | gbar (h : Head) (d : Opnd)
  /-- WAIT (R248). Holds the slot until the gang's counters are within their limits. -/
  | wait (h : Head) (tl cp st ld : BitVec 6)
  /-- TAGW (R244). Waits until any or all tags of a mask are set. -/
  | tagw (h : Head) (d a : Opnd) (all : Bool)
  /-- TAGF (R245). Finds the lowest ready tag of a mask and optionally clears it. -/
  | tagf (h : Head) (d a : Opnd) (clr : Bool)
  /-- TAGC (R246). Clears the tags of a mask. -/
  | tagc (h : Head) (a : Opnd)
  /-- CHOPEN (R437). Opens a block channel to a memory die. -/
  | chopen (h : Head) (a : Opnd) (ch : BitVec 3)
  /-- CHST (R438). Appends ordered stores to an open channel. -/
  | chst (h : Head) (a b c : Opnd) (off : BitVec 32) (ch : BitVec 3) (w64 : Bool)
  /-- CHCLOSE (R440). Drains and closes a channel. -/
  | chclose (h : Head) (ch : BitVec 3)
  /-- TIME (R286). Reads the time base of the issuing die. -/
  | time (h : Head) (d : Opnd)
  /-- CPY (R344). Starts a copy chain on the cluster's engine. -/
  | cpy (h : Head) (d a : Opnd) (off : BitVec 32)
  /-- CPYK (R345). Puts a walking chain of the block into drain mode. -/
  | cpyk (h : Head) (d a : Opnd)
  /-- XENC (R346). Encodes two 16-value blocks with the fixed-rate coder in the transform pipe. -/
  | xenc (h : Head) (d a : Opnd) (rate : BitVec 2)
  /-- XDEC (R346). Decodes two fixed-rate blocks in the transform pipe. -/
  | xdec (h : Head) (d a : Opnd) (rate : BitVec 2)
  /-- GSUB (R448). Submits a 64-byte job packet to a guest submission queue. -/
  | gsub (h : Head) (d a : Opnd) (off : BitVec 32) (sq : BitVec 4)
  /-- MMA (R357). Dense 32x32 matrix product of two canonical tiles into an accumulator. -/
  | mma (h : Head) (d a b c : Opnd) (m : MatMod)
  /-- MMASP (R358). 2:4 sparse matrix product of one slice accumulated in place. -/
  | mmasp (h : Head) (d a b c : Opnd) (m : MatMod) (sl : BitVec 3)
  /-- MMAX (R355). Block-scaled MX matrix product using the tiles' scale planes. -/
  | mmax (h : Head) (d a b c : Opnd) (m : MatMod)
  /-- MMACB (R357). Codebook matrix product of cb4 tiles. -/
  | mmacb (h : Head) (d a b c : Opnd) (m : MatMod) (sla slb : BitVec 3)
  /-- MCBLD (R362). Loads a codebook slot of the core from scratch. -/
  | mcbld (h : Head) (a : Opnd) (slot : BitVec 3)
  /-- MSTT (R363). Converts an accumulator and stores it into a canonical tile. -/
  | mstt (h : Head) (a c : Opnd) (m : MatMod) (ch : BitVec 3) (role : BitVec 3)
  /-- SPAWN (R223). Places a spawn request in the context's spawn queue on the die. -/
  | spawn (h : Head) (d a : Opnd) (off : BitVec 32)
  /-- MBXRD (R224). Takes the head packet of the context's mailbox into scratch. -/
  | mbxrd (h : Head) (d a : Opnd) (off : BitVec 32) (wait : Bool)
  /-- MBXFWD (R225). Posts a 64-byte packet to the context's mailbox on another die. -/
  | mbxfwd (h : Head) (d a : Opnd) (off : BitVec 32) (die : BitVec 3)
  /-- FETCHB (R384). Discards the gang's fetch buffer. -/
  | fetchb (h : Head)
  /-- LOAD_RETURN (R247). Source bytes of a load are read at the serving unit, the result is written and ld falls. -/
  | loadReturn (op : Nat)
  /-- STORE_PERFORMED (R247). A store is performed at L1 or its scratchpad and the st counter falls. -/
  | storePerformed (op : Nat)
  /-- INSTRUCTION_FETCH_FILL (R379). An instruction-cache miss fill arrives through the cluster cache. -/
  | instructionFetchFill (g : GangId) (va : Nat)
  /-- SLEEP_EXPIRY (R222). The time base reaches a sleeping slot's deadline and the slot goes on. -/
  | sleepExpiry (g : GangId) (slot : PcSlot)
  /-- BARV_ARRIVAL (R237). A held arrival is counted once the gang's earlier accesses meet R251. -/
  | barvArrival (op : Nat)
  /-- GANG_END (R201). A gang with no live slot ends once its ld and st counters reach 0. -/
  | gangEnd (g : GangId)
  /-- DIE_GROUP_DONE (R197). After its last block ends and the system-scope release completes, a die group is reported. -/
  | dieGroupDone (group : Nat)
  /-- PLACEMENT_OPPORTUNITY (R203). Dispatch hardware places cluster groups from valid bind records. -/
  | placementOpportunity (die : Nat)
  /-- SLOT_RECORD_WRITE (R205). The scheduler core turns a spawn request into a bind record or a standing record takes it. -/
  | slotRecordWrite (die ctx : Nat)
  /-- LEASE_EXPIRY (R260). A line's lease ends at its tick, making delayed writes visible and forcing refetch. -/
  | leaseExpiry (u : CacheUnit) (line : Nat)
  /-- WALK_COMPLETE (R296). A page walk finishes reading entries at their homes and caches the translation. -/
  | walkComplete (die ctx va : Nat)
  /-- RELEASE_ROUND_START (R301). A die starts a release round when requested and no other round runs. -/
  | releaseRoundStart (die : Nat)
  /-- EARLY_ROUND (R299). The die starts an early round for named sheets to free twins or precede an atomic. -/
  | earlyRound (die : Nat) (sheets : List Nat)
  /-- HOME_APPLY_BLOCK (R305). A home stamps and applies an arriving release block and forwards it to sharers. -/
  | homeApplyBlock (home src : Nat)
  /-- MARKER_ARRIVAL (R302). A marker reaches a touched home, which folds in pending writes before acknowledging. -/
  | markerArrival (home src : Nat)
  /-- STAMP_NOTICE (R310). The releasing die receives its block's stamp and releases held incoming blocks. -/
  | stampNotice (die home : Nat)
  /-- SHARER_APPLY (R309). A sharer applies a forwarded block or fold-in to its twin and working words. -/
  | sharerApply (die home : Nat)
  /-- SHARER_ACK (R311). A sharer acknowledges a block once applied and its leases on the lines have ended. -/
  | sharerAck (die home : Nat)
  /-- HOME_ROUND_ACK (R302). A home acknowledges a round to the releasing die when every sharer has acknowledged. -/
  | homeRoundAck (home die : Nat)
  /-- ROUND_COMPLETE (R302). The round completes, its sheets leave RELEASING and its fences end. -/
  | roundComplete (die : Nat)
  /-- FOLD_IN (R313). A home folds its home-performed writes into every sharer, at the latest 4 us after the write. -/
  | foldIn (home span : Nat)
  /-- ATOMIC_VALUE_RETURN (R314). A home-performed atomic's new value arrives at the issuing die and is written by sheet state. -/
  | atomicValueReturn (die home : Nat)
  /-- DROP_NOTICE (R307). A die's drop notice clears its sharer bit at the home. -/
  | dropNotice (home die : Nat)
  /-- RDC_LINE_REPLACE (R298). The RDC replaces a clean sheet's lines and sends a drop notice when the page is left. -/
  | rdcLineReplace (die sheet : Nat)
  /-- MIGRATION_LINE_COPY (R317). The migration engine copies the next line and advances the boundary register. -/
  | migrationLineCopy (page : Nat)
  /-- MIGRATION_DONE (R317). When the boundary reaches the page end, a shootdown switches the page to its new home. -/
  | migrationDone (page : Nat)
  /-- BIAS_LINE_STEP (R318). The engine advances the bias-change boundary, back-invalidating the host line for host-to-device. -/
  | biasLineStep (page : Nat)
  /-- SHOOTDOWN_DIE_ACK (R319). A die acknowledges a shootdown after waiting, flushing and running a round. -/
  | shootdownDieAck (id die : Nat)
  /-- UNCORRECTABLE_ERROR (R320). An uncorrectable error marks a line or word poisoned. -/
  | uncorrectableError (site : ErrSite)
  /-- ECC_CORRECTED (R457). A single error is corrected in place and counted in the health log. -/
  | eccCorrected (die unit : Nat)
  /-- PATROL_SCRUB (R321). The patrol scrubber reads a sector and writes back the correction under the version rule. -/
  | patrolScrub (sector : Nat) (phase : ScrubPhase)
  /-- ECS_COUNT_READ (R461). Every 10 s the controller reads each stack's ECS error counts into the health log. -/
  | ecsCountRead (counts : List Nat)
  /-- JOB_ENTRY (R326). The walk reaches a JOB entry and accepts its job or marks it CANCELLED in drain mode. -/
  | jobEntry (c : ChainId)
  /-- LOOP_ENTRY (R326). The walk reaches a LOOP entry and repeats the body or falls through. -/
  | loopEntry (c : ChainId)
  /-- COND_ENTRY (R326). After the chain's jobs end, a COND entry tests a scratch word and branches. -/
  | condEntry (c : ChainId)
  /-- SIGNAL_ENTRY (R341). After the chain's jobs end, a SIGNAL entry sets a tag or subtracts bytes from a barrier. -/
  | signalEntry (c : ChainId)
  /-- END_ENTRY (R326). After the chain's jobs end, END completes the chain and cp falls. -/
  | endEntry (c : ChainId)
  /-- MALFORMED_ENTRY (R324). The walk finds a malformed entry or runs off the allocation, records FAULT 4 and drains. -/
  | malformedEntry (c : ChainId)
  /-- JOB_START (R328). An accepted job starts once earlier conflicting jobs have ended and leave is granted. -/
  | jobStart (job : Nat)
  /-- JOB_END (R329). A job ends and the engine writes its STATUS, FAULT and FADDR. -/
  | jobEnd (job : Nat)
  /-- LEAVE_GRANT (R467). The power governor grants a unit's leave request in request order. -/
  | leaveGrant (die : Nat)
  /-- TRANSFORM_REPLY (R347). The transform pipe replies and the scoreboard releases vD. -/
  | transformReply (op : Nat)
  /-- MATRIX_OPERAND_FETCH (R354). The array reads both tiles, checks them and counts NaN-as-zero elements. -/
  | matrixOperandFetch (op : Nat)
  /-- MATRIX_RESULT (R357). The array commits the accumulated result registers. -/
  | matrixResult (op : Nat)
  /-- BELL_WRITE (R389). A write to a queue's bell publishes packets or puts the queue in ERROR. -/
  | bellWrite (queue : Nat) (widx : BitVec 32)
  /-- LOTTERY_DRAW (R397). A scheduler core with a READY queue draws a winner, which takes its head packet. -/
  | lotteryDraw (die : Nat)
  /-- LAUNCH_PACKET (R393). A taken LAUNCH is checked, split over its dies and posted to mailboxes. -/
  | launchPacket (queue pindex : Nat)
  /-- DEPEND_PACKET (R394). A DEPEND completes OK once all its references have completed. -/
  | dependPacket (queue pindex : Nat)
  /-- SIGNAL_PACKET (R395). After earlier packets complete, a SIGNAL performs AST or RED at system scope. -/
  | signalPacket (queue pindex : Nat)
  /-- CHAIN_PACKET (R396). A CHAIN packet runs one copy chain from global memory on a die's engine. -/
  | chainPacket (queue pindex : Nat)
  /-- COMPLETION_RECORD (R399). A completed packet's record is written to the event ring and WIDX advances. -/
  | completionRecord (ctx : Nat)
  /-- EVENT_RING_TIMER (R399). The oldest unannounced record reaches U us and the ring interrupt is raised. -/
  | eventRingTimer (ctx : Nat)
  /-- RIDX_POLL (R399). While records wait on a full ring, the device rereads RIDX at least every 10 us. -/
  | ridxPoll (ctx : Nat)
  /-- REPLAY_RERUN (R401). A failed REPLAY launch is split anew and rerun after its attempt has ended. -/
  | replayRerun (launch : Nat)
  /-- CREATE (R404). Admin command creating a context from its descriptor. -/
  | create (entry : BitVec 512)
  /-- ACTIVATE (R407). Admin command making a CREATED or SAVED context ACTIVE. -/
  | activate (entry : BitVec 512)
  /-- PREEMPT (R417). Admin command halting, releasing and saving a partition to the shadow store. -/
  | preempt (entry : BitVec 512)
  /-- PREEMPT_HALT_TIMEOUT (R417). A gang in TRAP that does not halt within 20 us is killed. -/
  | preemptHaltTimeout (g : GangId)
  /-- CONTEXT_SAVED (R417). When every pre-emption step has completed on every die, the context becomes SAVED. -/
  | contextSaved (ctx : Nat)
  /-- CONTEXT_RESUMED (R420). When the restore completes, the context becomes ACTIVE and gangs issue again. -/
  | contextResumed (ctx : Nat)
  /-- CONTEXT_FAULTED (R407). A dispatcher failure or unusable context region puts the context in FAULTED. -/
  | contextFaulted (ctx va : Nat)
  /-- DESTROY (R407). Admin command destroying a context and cancelling its packets. -/
  | destroy (entry : BitVec 512)
  /-- LOAD (R371). Admin command loading a kernel after the checks of R371. -/
  | load (entry : BitVec 512)
  /-- UNLOAD (R377). Admin command retiring a kernel. -/
  | unload (entry : BitVec 512)
  /-- QCREATE (R388). Admin command creating a queue. -/
  | qcreate (entry : BitVec 512)
  /-- QRESET (R391). Admin command resetting a queue in ERROR. -/
  | qreset (entry : BitVec 512)
  /-- QDESTROY (R391). Admin command destroying a queue. -/
  | qdestroy (entry : BitVec 512)
  /-- MIGRATE (R317). Admin command starting a page migration to a new home. -/
  | migrate (entry : BitVec 512)
  /-- BIAS (R318). Admin command starting a page bias change. -/
  | bias (entry : BitVec 512)
  /-- SHOOTDOWN (R319). Admin command starting a shootdown of a virtual range. -/
  | shootdown (entry : BitVec 512)
  /-- SEED (R397). Admin command setting a scheduler core's lottery state. -/
  | seed (entry : BitVec 512)
  /-- DEVSET (R474). Admin command setting the device id. -/
  | devset (entry : BitVec 512)
  /-- HEALTHRD (R474). Admin command copying health-log entries to a host buffer. -/
  | healthrd (entry : BitVec 512)
  /-- FAULTSUM (R465). Admin command returning the lost-page fault summary. -/
  | faultsum (entry : BitVec 512)
  /-- SAFETIER (R466). Admin command designating a die's checkpoint range on its CXL port. -/
  | safetier (entry : BitVec 512)
  /-- CHECKPOINT (R466). Admin command streaming all device memory encrypted to the safe tier. -/
  | checkpoint (entry : BitVec 512)
  /-- RESTORE (R466). Admin command decoding a checkpoint back into the stacks. -/
  | restore (entry : BitVec 512)
  /-- POWERCAP (R467). Admin command setting the package power cap. -/
  | powercap (entry : BitVec 512)
  /-- ATTEST (R469). Admin command returning a signed attestation report. -/
  | attest (entry : BitVec 512)
  /-- KEYBIND (R474). Admin command binding, renewing or erasing a key slot. -/
  | keybind (entry : BitVec 512)
  /-- FWUPDATE (R474). Admin command installing a firmware image. -/
  | fwupdate (entry : BitVec 512)
  /-- ADMIN_UNKNOWN_OPCODE (R473). A command with an unknown OPCODE completes with CODE 1 and does nothing. -/
  | adminUnknownOpcode (entry : BitVec 512)
  /-- AQTAIL_WRITE (R472). The host advances AQTAIL, publishing admin commands. -/
  | aqtailWrite (value : BitVec 32)
  /-- AQCTL_WRITE (R472). Writing AQCTL sets or clears ENABLE and zeroes the queue indices. -/
  | aqctlWrite (value : BitVec 64)
  /-- ACHEAD_WRITE (R472). The host advances ACHEAD, freeing room in the completion ring. -/
  | acheadWrite (value : BitVec 32)
  /-- RWIN_WRITE (R429). A reduction window write, ignored while a context is ACTIVE except the PARTIAL clear. -/
  | rwinWrite (offset : Nat) (wide : Bool) (value : BitVec 64)
  /-- REGISTER_WRITE (R471). A write to a register-page register without behaviour of its own. -/
  | registerWrite (offset : Nat) (wide : Bool) (value : BitVec 64)
  /-- LINK_TRAINED (R423). Training of a link ends with all or some units trained. -/
  | linkTrained (link : LinkId) (units : Nat)
  /-- LINK_TRAIN_TIMEOUT (R423). No unit trains within 10 ms and the link becomes FAILED. -/
  | linkTrainTimeout (link : LinkId)
  /-- FLIT_RECEIVE (R425). A receiver takes a flit, checks CRC and SEQ and passes its messages up. -/
  | flitReceive (link : LinkId) (flit : BitVec 2048)
  /-- RETRY_REQUEST (R425). A retry request makes the sender resend payload flits from the named SEQ. -/
  | retryRequest (link : LinkId) (seq : BitVec 12)
  /-- LINK_DISABLED (R423). The host disables a link, or guest isolation does. -/
  | linkDisabled (link : LinkId)
  /-- REQUEST_TIMEOUT (R426). A cross-die request finds no reply within 65,536 ticks and times out. -/
  | requestTimeout (req : Nat) (performed : Bool)
  /-- TIMEBASE_STOP (R427). The scheduler core flags a die whose time base has stopped within 1 ms. -/
  | timebaseStop (die : Nat)
  /-- HEARTBEAT_MISS (R463). A scheduler core misses its 1 ms heartbeat and its die is lost. -/
  | heartbeatMiss (die : Nat)
  /-- REDUCTION_ROUND_DELIVER (R430). A complete reduction round is delivered once and performed at the home. -/
  | reductionRoundDeliver (word : Nat)
  /-- REDUCTION_PARTIAL_TIMEOUT (R430). An incomplete round is delivered after 65,536 ticks and PARTIAL is set. -/
  | reductionPartialTimeout (word : Nat)
  /-- CHANNEL_STORE_PERFORM (R439). The channel's home performs its next store after the previous one is folded in. -/
  | channelStorePerform (block ch : Nat)
  /-- COMPLETE (R446). A guest COMPLETE makes C4 write the status word and set the return tag. -/
  | complete (msg : GuestHeader) (body : BitVec 128)
  /-- XLATE (R451). A guest translation request is checked against tables and footprints and answered. -/
  | xlate (msg : GuestHeader) (body : BitVec 64)
  /-- READ (R450). A guest read is served at the home of its address. -/
  | read (msg : GuestHeader) (body : BitVec 64)
  /-- WRITE (R450). A guest write is performed at its home as a home-performed write. -/
  | write (msg : GuestHeader) (addr bytemask : BitVec 64) (data : BitVec 512)
  /-- WRACK (R450). The home acknowledges a guest write once it is folded into every sharer. -/
  | wrack (write : Nat)
  /-- INVACK (R452). The guest's acknowledgement lets C4 revoke the pages. -/
  | invack (msg : GuestHeader) (body : BitVec 128)
  /-- PREACK (R454). The guest acknowledges pre-emption, letting the save proceed. -/
  | preack (msg : GuestHeader) (body : BitVec 64)
  /-- GUEST_DUTY_TIMEOUT (R455). An INVACK, PREACK or SUBMIT credit is overdue and the guest is isolated. -/
  | guestDutyTimeout
  /-- MEMORY_DIE_LOST (R322). A memory die is lost and every compute die poisons and fails accesses to it. -/
  | memoryDieLost (die : Nat)
  /-- COMPUTE_DIE_LOST (R323). A compute die is lost, its sharer bits cleared and its items reported DIE_LOST. -/
  | computeDieLost (die : Nat)
  /-- SUPPLY_DROOP (R467). A supply droop makes the governor stretch the arithmetic clock. -/
  | supplyDroop (die : Nat)
  /-- THERMAL_LIMIT (R467). Junction temperature above 105 C holds the clock at its lowest step. -/
  | thermalLimit (die : Nat) (above : Bool)
  /-- BOARD_POWER_FAULT (R467). A TVD7-M supply or coolant fault that cannot be ridden through loses the device. -/
  | boardPowerFault (sensor : Nat)
  /-- POWER_GOOD (R468). After power-good the package runs its boot, verification and training sequence. -/
  | powerGood (lost : BitVec 32)
  /-- STRAP_CHANGE (R27). A TVD7-D finding its straps changing after reset stops and reports the fault. -/
  | strapChange (die : Nat)
  /-- SIDEBAND_READ (R470). The I3C sideband reads the health log, boot status or sensors. -/
  | sidebandRead (item : SidebandItem)
  /-- SIDEBAND_RESET (R470). The I3C sideband requests a package reset. -/
  | sidebandReset
  /-- HOST_CXL_MEM_ACCESS (R434). A host read or write through CXL.mem is served at the page's home, a write being a home-performed write that is later folded in. -/
  | hostCxlMemAccess (addr : Nat) (data : List (BitVec 8)) (isWrite : Bool)
  /-- HOME_PERFORMED_WRITE (R313). A package-scope atomic, RED, ALD, AST or NT store arrives at its home and is performed there indivisibly, to be folded into the sharers later. -/
  | homePerformedWrite (op : Nat)
  /-- HOME_LINE_FETCH (R307). A compute die's request for a line reaches the home, which supplies it, grants its lease and sets the die's sharer bit, moving the page from MAPPED to SHARED. -/
  | homeLineFetch (die line : Nat)
  /-- REMOTE_ACCESS (R428). An access from another device of the domain arrives over the fabric and is performed at this device's home as a domain-scope home-performed access. -/
  | remoteAccess (addr : Nat) (acc : RemoteOp) (data : BitVec 128)
  deriving DecidableEq, Repr

end Sys2Proof
end

