-- ==== Sys2Proof/WellFormed.lean ====
section
/-!
DEFINITION. Well-formedness of an instruction as syntax: the operand kinds, the last-read rule, the modifier limits and
the immediate rules that 03_encoding (R51, R55-R69, R74-R76) and the encoding table of each chapter (R100, R136, R149,
R153, R157, R163, R166, R171, R178, R181, R214, R234, R275, R343, R352, R381, R412, R436, R447) give each row.
-/
namespace Sys2Proof

/-- The kinds of an operand field (R55, R144). -/
inductive Kind where
  | V | S | P | X | Z | I
  deriving DecidableEq, Repr

/-- The kind of an operand. -/
def Opnd.kind : Opnd → Kind
  | .v _ => .V
  | .s _ => .S
  | .p _ => .P
  | .sr _ => .X
  | .zero => .Z
  | .imm _ => .I

/-- "Any" of R144. -/
def anyKind : List Kind := [.V, .S, .X, .Z, .I]

/-- "Any" of R171, which excludes V. -/
def anyScalar : List Kind := [.S, .X, .Z, .I]

/-- A vector register or zero. -/
def vz : List Kind := [.V, .Z]

/-- A scalar register or zero. -/
def sz : List Kind := [.S, .Z]

/-- sr.lane, which a scalar instruction may not name (R56). -/
def Opnd.isLane : Opnd → Bool
  | .sr .lane => true
  | _ => false

/-- The operand is of one of the kinds. -/
def Opnd.isIn (o : Opnd) (k : List Kind) : Bool := k.contains o.kind

/-- The operand is of one of the kinds and is not sr.lane (R56). -/
def Opnd.isScalarIn (o : Opnd) (k : List Kind) : Bool := k.contains o.kind && !o.isLane

/-- A last-read bit may be set: the field holds a register (R59). -/
def Opnd.isReg : Opnd → Bool
  | .v _ | .s _ | .p _ => true
  | _ => false

/-- A vector group of `n` registers from this one does not pass v63 (R272, R275). -/
def Opnd.groupFits (o : Opnd) (n : Nat) : Bool :=
  match o with
  | .v r => decide (r.val + n ≤ 64)
  | _ => true

/-- The registers of an accumulator start at v0 or v32 (R351). -/
def Opnd.isAcc : Opnd → Bool
  | .v r => decide (r.val = 0) || decide (r.val = 32)
  | _ => false

/-- GUARD 0xF is reserved (R51). -/
def Guard.wf (g : Guard) : Bool := !(g.neg && decide (g.p = 7))

/-- The guard and the last-read bits: a bit only on a field that `fa`, `fb`, `fc` name and that holds a register (R59). -/
def Head.wf (h : Head) (fa fb fc : Option Opnd) : Bool :=
  h.guard.wf && (!h.la || fa.any Opnd.isReg) && (!h.lb || fb.any Opnd.isReg) && (!h.lc || fc.any Opnd.isReg)

/-- The value of an immediate operand. -/
def Opnd.immVal : Opnd → Option (BitVec 32)
  | .imm x => some x
  | _ => none

/-- Two immediate fields hold the one IMM (R35). -/
def immAgree (a b : Opnd) : Bool :=
  match a, b with
  | .imm x, .imm y => decide (x = y)
  | _, _ => true

/-- Immediate data leaves no offset (R275). -/
def offFits (c : Opnd) (off : BitVec 32) : Bool :=
  match c with
  | .imm _ => decide (off = 0#32)
  | _ => true

/-- An operation with one source A. -/
def wf1 (h : Head) (d a : Opnd) (kd ka : List Kind) : Bool :=
  h.wf (some a) none none && d.isIn kd && a.isIn ka

/-- An operation with two sources. -/
def wf2 (h : Head) (d a b : Opnd) (kd ka kb : List Kind) : Bool :=
  h.wf (some a) (some b) none && d.isIn kd && a.isIn ka && b.isIn kb && immAgree a b

/-- An operation with three sources. -/
def wf3 (h : Head) (d a b c : Opnd) (kd ka kb kc : List Kind) : Bool :=
  h.wf (some a) (some b) (some c) && d.isIn kd && a.isIn ka && b.isIn kb && c.isIn kc && immAgree a b && immAgree a c
    && immAgree b c

/-- A scalar operation with one source: sr.lane may not stand in it. -/
def wfS1 (h : Head) (d a : Opnd) (kd ka : List Kind) : Bool :=
  h.wf (some a) none none && d.isIn kd && a.isScalarIn ka

/-- A scalar operation with two sources. -/
def wfS2 (h : Head) (d a b : Opnd) (kd ka kb : List Kind) : Bool :=
  h.wf (some a) (some b) none && d.isIn kd && a.isScalarIn ka && b.isScalarIn kb && immAgree a b

/-- A scalar operation with three sources. -/
def wfS3 (h : Head) (d a b c : Opnd) (kd ka kb kc : List Kind) : Bool :=
  h.wf (some a) (some b) (some c) && d.isIn kd && a.isScalarIn ka && b.isScalarIn kb && c.isScalarIn kc
    && immAgree a b && immAgree a c && immAgree b c

/-! ## Modifiers -/

/-- SAT and S of the vector integer rows (R149): both allowed. -/
def IntMod.wf (_m : IntMod) : Bool := true

/-- SADD, SSUB and SMUL take SAT; SMULH, SSHF, SCMP and SDIV do not (R171). -/
def ScalarMod.wf (m : ScalarMod) (sat : Bool) : Bool := sat || !m.sat

/-- The FP rows (R157, R178): whether RM may be other than 0, and which negate bits the row names. -/
def FpMod.wf (m : FpMod) (rm nb nc : Bool) : Bool :=
  !(decide (m.rm = .sr)) && (rm || decide (m.rm = .rne)) && (nb || !m.nb) && (nc || !m.nc)

/-- The packed rows (R163). -/
def HalfMod.wf (m : HalfMod) (rm nc : Bool) : Bool :=
  !(decide (m.rm = .sr)) && (rm || decide (m.rm = .rne)) && (nc || !m.nc)

/-- Number of a format code (R70). -/
def Fmt.code : Fmt → Nat
  | .n32 => 0 | .i32 => 1 | .f32 => 2 | .bf16 => 3 | .f16 => 4 | .e4m3 => 5 | .e5m2 => 6 | .e2m3 => 7 | .e3m2 => 8
  | .e2m1 => 9 | .e8m0 => 10 | .i8 => 11 | .n8 => 12 | .cb4 => 13

/-- Positions of one element in a lane (R115); a 32-bit format has the one. -/
def Fmt.positions : Fmt → Nat
  | .n32 | .i32 | .f32 => 1
  | .bf16 | .f16 => 2
  | .e4m3 | .e5m2 | .e2m3 | .e3m2 | .e8m0 | .i8 | .n8 => 4
  | .e2m1 | .cb4 => 8

/-- Integer formats. -/
def Fmt.isInt : Fmt → Bool
  | .n32 | .i32 | .i8 | .n8 => true
  | _ => false

/-- The pairs of R129 that are not marked with a dash. -/
def convPair (d s : Fmt) : Bool :=
  match d, s with
  | .cb4, _ => false
  | _, .cb4 => false
  | .e8m0, .f32 | .e8m0, .bf16 | .e8m0, .f16 | .e8m0, .e8m0 => true
  | .e8m0, _ => false
  | .f32, .e8m0 | .bf16, .e8m0 | .f16, .e8m0 => true
  | _, .e8m0 => false
  | _, _ => true

/-- A 32-bit format. -/
def Fmt.wide : Fmt → Bool
  | .n32 | .i32 | .f32 => true
  | _ => false

/-- The element formats of an MX block (R116). -/
def Fmt.mx : Fmt → Bool
  | .e4m3 | .e5m2 | .e2m3 | .e3m2 | .e2m1 | .i8 => true
  | _ => false

/-- The pairs of DCVT (R135). -/
def dcvtPair (d s : Fmt) : Bool :=
  match d, s with
  | .f32, .n32 | .f32, .i32 | .n32, .f32 | .i32, .f32 | .f32, .f32 => true
  | _, _ => false

/-- Registers of a vector access of the width. -/
def Width.regs : Width → Nat
  | .b32x2 => 2
  | .b32x4 => 4
  | _ => 1

/-- WIDTH 0-6 (R275). -/
def Width.vector : Width → Bool
  | .b64 => false
  | _ => true

/-- WIDTH 0-4 or 7 (R275). -/
def Width.scalar : Width → Bool
  | .b32x2 | .b32x4 => false
  | _ => true

/-- Spaces that may be stored to (R66). -/
def Space.stores : Space → Bool
  | .const | .args => false
  | _ => true

/-- NT only with the global space (R66). -/
def MemMod.policyFits (m : MemMod) : Bool := !(decide (m.policy = .nt)) || decide (m.space = .global)

/-- fadd32 and bfadd2 are 32 bits wide (R67). -/
def AtomMod.wf (m : AtomMod) : Bool := !(m.w64 && (decide (m.op = .fadd32) || decide (m.op = .bfadd2)))

/-- Scopes 2 and 3 (R275). -/
def Scope.dieOrPkg : Scope → Bool
  | .die | .pkg => true
  | _ => false

/-- FMT, ACC and NZ of MMA and MMASP (R353). -/
def MatMod.wfDense (m : MatMod) : Bool :=
  match m.fmt with
  | .bf16 | .f16 | .e4m3 | .e5m2 | .e2m3 | .e3m2 | .e2m1 => !m.i32
  | .i8 | .n8 => m.i32 && !m.nz
  | _ => false

/-- FMT and ACC of MSTT (R353). -/
def MatMod.wfStore (m : MatMod) : Bool :=
  match m.fmt with
  | .bf16 | .f16 | .e4m3 | .e5m2 => !m.i32 && !m.nz
  | .i8 | .n8 => m.i32 && !m.nz
  | _ => false

/-- MMASP slices of a format (R349). -/
def Fmt.slices : Fmt → Nat
  | .bf16 | .f16 => 2
  | .e2m1 | .cb4 => 8
  | _ => 4

/-- Chunks of a tile of a format (R349). -/
def Fmt.chunks : Fmt → Nat
  | .bf16 | .f16 => 1
  | .e2m1 | .cb4 => 4
  | _ => 2

/-! ## Pair slots (R74-R76) -/

/-- The MOD limits of a slot opcode. -/
def SlotOp.wf : SlotOp → Bool
  | .fadd m | .fsub m | .fmul m => m.wf true true false
  | .ffma m => m.wf true true true
  | .fmin m | .fmax m => m.wf false true false
  | .hadd2 m | .hmul2 m => m.wf true false
  | .hfma2 m => m.wf true true
  | .hmin2 m | .hmax2 m => m.wf false false
  | _ => true

/-- The slot opcode reads A only. -/
def SlotOp.oneSource : SlotOp → Bool
  | .not | .mov => true
  | _ => false

/-- FFMA or HFMA2 (R75). -/
def SlotOp.isFma : SlotOp → Bool
  | .ffma _ | .hfma2 _ => true
  | _ => false

def SlotInstr.wf (x : SlotInstr) : Bool :=
  x.op.wf && (!x.op.oneSource || (decide (x.b = .v 0) && !x.lb))

/-- The sources that a slot's A and B fields name; a one-source slot has no B. -/
def SlotInstr.srcs (x : SlotInstr) : List SlotSrc := if x.op.oneSource then [x.a] else [x.a, x.b]

/-- Vector sources as register numbers. -/
def vecSrcs (l : List SlotSrc) : List Nat :=
  l.filterMap fun x => match x with
    | .v n => some n.val
    | .s _ => none

/-- Number of scalar fields. -/
def scalarCount (l : List SlotSrc) : Nat :=
  (l.filter fun x => match x with
    | .s _ => true
    | .v _ => false).length

/-- Different registers stand in different banks (restriction 5). -/
def banksDistinct (l : List Nat) : Bool :=
  l.all fun x => l.all fun y => decide (x = y) || decide (x % 4 ≠ y % 4)

/-- The first restriction of R75, from the second on, that a pair of permitted slots breaks. -/
def pairBreaks (x y : SlotInstr) : Option Nat :=
  if x.op.isFma && y.op.isFma then some 2
  else if x.d = y.d then some 3
  else if (vecSrcs y.srcs).contains x.d.val then some 4
  else if !banksDistinct (vecSrcs (x.srcs ++ y.srcs)) then some 5
  else if decide (scalarCount (x.srcs ++ y.srcs) > 1) then some 6
  else none

/-! ## Opcodes without an instruction -/

/-- The assigned primary opcodes (R71). -/
def assignedOpc (o : Nat) : Bool :=
  decide (o ≤ 0x0D) || (decide (0x10 ≤ o) && decide (o ≤ 0x1B)) || (decide (0x20 ≤ o) && decide (o ≤ 0x2D))
    || (decide (0x30 ≤ o) && decide (o ≤ 0x45)) || (decide (0x48 ≤ o) && decide (o ≤ 0x4E))
    || (decide (0x50 ≤ o) && decide (o ≤ 0x55)) || (decide (0x60 ≤ o) && decide (o ≤ 0x67))
    || (decide (0x70 ≤ o) && decide (o ≤ 0x76)) || (decide (0x80 ≤ o) && decide (o ≤ 0x96))
    || (decide (0xA0 ≤ o) && decide (o ≤ 0xA6)) || (decide (0xB0 ≤ o) && decide (o ≤ 0xBE))
    || (decide (0xC0 ≤ o) && decide (o ≤ 0xC4)) || (decide (0xD0 ≤ o) && decide (o ≤ 0xD5))
    || (decide (0xE0 ≤ o) && decide (o ≤ 0xE3)) || decide (o = 0xFF)

/-- OPCODE of an admin command entry (R473). -/
def entryOpcode (e : BitVec 512) : Nat := (e.extractLsb' 0 8).toNat

/-- The command opcodes of R474. -/
def adminOpcodes : List Nat :=
  [1, 2, 3, 4, 5, 6, 7, 8, 9, 10, 11, 12, 13, 14, 16, 17, 18, 19, 20, 21, 22, 23, 24]

/-! ## Addresses -/

/-- Base A of a vector access: S, X or Z, where sr.lane enters lane by lane (R56). -/
def baseV : List Kind := [.S, .X, .Z]

/-- Base A of an access that executes once: S or X. -/
def baseS : List Kind := [.S, .X]

/-- A vector access with data in C (R275): ST, RED, AST, CHST; `n` registers of the data. -/
def wfStoreV (h : Head) (a b c : Opnd) (off : BitVec 32) (n : Nat) : Bool :=
  h.wf (some a) (some b) (some c) && a.isIn baseV && b.isIn vz && c.isIn [.V, .S, .I, .Z] && offFits c off && c.groupFits n

/-- Well-formed: an instruction word of this content passes every decode check (R78). -/
def Instr.wf : Instr → Bool
  | .nop h => h.wf none none none
  | .bra h _ _ => h.wf none none none
  | .jmpOffset h _ => h.wf none none none
  | .jmpScalar h a => h.wf (some a) none none && a.isIn [.S]
  | .jmpi h a b _ _ => h.wf (some a) (some b) none && a.isIn [.V] && b.isIn [.S]
  | .join h => h.wf none none none && decide (h.guard = { neg := false, p := 7 })
  | .callOffset h d _ => h.wf none none none && d.isIn sz
  | .callScalar h d a => h.wf (some a) none none && d.isIn sz && a.isIn [.S]
  | .ret h a => h.wf (some a) none none && a.isIn [.S]
  | .exit h => h.wf none none none
  | .trap h a => h.wf (some a) none none && a.isIn [.S, .I, .Z]
  | .eret h => h.wf none none none
  | .yield h => h.wf none none none
  | .sleep h a => h.wf (some a) none none && a.isIn [.S, .I, .Z]
  | .brk h _ => h.wf none none none
  | .udf => true
  | .illegalOpcode o => !assignedOpc o.toNat
  | .pair x y => x.wf && y.wf && (pairBreaks x y).isNone
  | .iadd h d a b _ | .isub h d a b _ | .imul h d a b _ | .imulh h d a b _ => wf2 h d a b vz anyKind anyKind
  | .imad h d a b c _ => wf3 h d a b c vz anyKind anyKind anyKind
  | .idiv h d a b _ | .irem h d a b _ | .imin h d a b _ | .imax h d a b _ => wf2 h d a b vz anyKind anyKind
  | .iabs h d a _ | .ineg h d a _ => wf1 h d a vz anyKind
  | .idot4 h d a b c _ => wf3 h d a b c vz anyKind anyKind anyKind
  | .andB h d a b | .orB h d a b | .xorB h d a b => wf2 h d a b vz anyKind anyKind
  | .notB h d a => wf1 h d a vz anyKind
  | .shl h d a b => wf2 h d a b vz anyKind anyKind
  | .shr h d a b _ => wf2 h d a b vz anyKind anyKind
  | .rot h d a b => wf2 h d a b vz anyKind anyKind
  | .bfe h d a b _ => wf2 h d a b vz anyKind anyKind
  | .bfi h d a b c => wf3 h d a b c vz anyKind anyKind anyKind
  | .popc h d a | .clz h d a | .brev h d a => wf1 h d a vz anyKind
  | .bmix h d a b c _ => wf3 h d a b c vz anyKind anyKind anyKind
  | .bpick h d a b c _ => wf3 h d a b c vz anyKind anyKind anyKind
  | .fadd h d a b m | .fsub h d a b m | .fmul h d a b m => wf2 h d a b vz anyKind anyKind && m.wf true true false
  | .ffma h d a b c m => wf3 h d a b c vz anyKind anyKind anyKind && m.wf true true true
  | .fmin h d a b m | .fmax h d a b m => wf2 h d a b vz anyKind anyKind && m.wf false true false
  | .frcp h d a m | .frsq h d a m => wf1 h d a vz anyKind && m.wf false false false
  | .fsqrt h d a m => wf1 h d a vz anyKind && m.wf true false false
  | .fdiv h d a b m => wf2 h d a b vz anyKind anyKind && m.wf true true false
  | .fexp2 h d a m | .flog2 h d a m | .fsin h d a m | .fcos h d a m | .ftanh h d a m =>
    wf1 h d a vz anyKind && m.wf false false false
  | .fclass h d a => wf1 h d a vz anyKind
  | .hadd2 h d a b m | .hmul2 h d a b m => wf2 h d a b vz anyKind anyKind && m.wf true false
  | .hfma2 h d a b c m | .hdot2 h d a b c m => wf3 h d a b c vz anyKind anyKind anyKind && m.wf true true
  | .hmin2 h d a b m | .hmax2 h d a b m => wf2 h d a b vz anyKind anyKind && m.wf false false
  | .cvt h d a m => wf1 h d a [.V] [.V, .S, .I, .Z] && convPair m.dfmt m.sfmt
  | .cvtpk h d a c m el =>
    h.wf (some a) none (some c) && d.isIn [.V] && a.isIn [.V, .S, .Z] && c.isIn vz && m.sfmt.wide && !m.dfmt.wide
      && convPair m.dfmt m.sfmt && decide (el.toNat < m.dfmt.positions)
  | .cvtup h d a m el =>
    wf1 h d a [.V] [.V, .S] && m.dfmt.wide && !m.sfmt.wide && convPair m.dfmt m.sfmt
      && decide (el.toNat < m.sfmt.positions)
  | .mxq h d a c m =>
    h.wf (some a) none none && d.isIn [.V] && a.isIn [.V] && c.isIn sz && decide (m.sfmt = .f32) && m.dfmt.mx
      && (decide (m.rm = .rne) || decide (m.rm = .sr))
  | .mxdq h d a c m =>
    h.wf (some a) none (some c) && d.isIn [.V] && a.isIn [.V] && c.isIn [.S, .I] && m.sfmt.mx && decide (m.dfmt = .f32)
      && decide (m.rm = .rne)
  | .cblu h d a m _ _ =>
    wf1 h d a [.V] [.V, .S] && decide (m.sfmt = .cb4) && (decide (m.dfmt = .f32) || decide (m.dfmt = .bf16)) && !m.sat
      && decide (m.rm = .rne)
  | .srseed h a => h.wf (some a) none none && a.isIn [.S, .I, .Z]
  | .isetp h d a b _ _ => wf2 h d a b [.P, .Z] anyKind anyKind
  | .fsetp h d a b _ _ _ => wf2 h d a b [.P, .Z] anyKind anyKind
  | .sel h d a b c =>
    h.wf (some a) (some b) (some c) && d.isIn vz && a.isIn anyKind && b.isIn anyKind && c.isIn [.P] && immAgree a b
  | .pmix h d a b c _ => wf3 h d a b c [.P, .Z] [.P, .Z] [.P, .Z] [.P, .Z]
  | .pmov h d a =>
    h.wf (some a) none none && d.isIn [.P, .S, .V] && (if d.isIn [.P] then a.isIn [.P, .S, .I, .Z] else a.isIn [.P])
  | .mov h d a => wf1 h d a vz anyKind
  | .shfl h d a b _ => wf2 h d a b vz [.V] [.V, .S, .I, .Z]
  | .nbr h d a b _ => wf2 h d a b vz [.V] [.S, .I, .Z]
  | .vote h d a m =>
    h.wf (some a) none none && (if m = .ballot then d.isIn [.V, .S, .Z] else d.isIn [.P, .Z]) && a.isIn [.P]
  | .reduce h d a _ | .scan h d a _ _ => wf1 h d a vz anyKind
  | .matchLanes h d a all => wf1 h d a (if all then [.P, .Z] else vz) anyKind
  | .bcast h d a b => wf2 h d a b vz [.V] [.S, .I, .Z]
  | .part h c => h.wf none none none && decide (1 ≤ c.toNat) && decide (c.toNat ≤ 5)
  | .coalesce h d a => wf1 h d a [.V] [.V]
  | .runs h d a _ => wf1 h d a [.S] [.V]
  | .runget h d a b => wf2 h d a b [.S] [.V] [.S, .I]
  | .runapp h d a b _ _ => wf2 h d a b [.V] [.S, .I, .Z] [.S, .I]
  | .rbudget h d => h.wf none none none && d.isIn [.S]
  | .rspill h a c _ _ => h.wf (some a) none (some c) && a.isScalarIn baseS && c.isIn [.V]
  | .rfill h d a _ => wfS1 h d a [.V] baseS
  | .sadd h d a b m | .ssub h d a b m | .smul h d a b m => wfS2 h d a b sz anyScalar anyScalar && m.wf true
  | .smulh h d a b m => wfS2 h d a b sz anyScalar anyScalar && m.wf false
  | .smix h d a b c _ => wfS3 h d a b c sz anyScalar anyScalar anyScalar
  | .sshf h d a b m => wfS2 h d a b sz anyScalar anyScalar && m.wf false
  | .scmp h d a b m _ => wfS2 h d a b [.S, .P, .Z] anyScalar anyScalar && m.wf false
  | .smov h d a => wfS1 h d a sz anyScalar
  | .smovh h d a b => wfS2 h d a b sz sz [.I]
  | .srd h d a => wfS1 h d a sz [.X]
  | .swr h d a =>
    h.wf (some a) none none && a.isIn [.S, .I, .Z]
      && (match d with
          | .sr .flags | .sr .fpmode | .sr .nanc | .sr .tpc | .sr .tlane => true
          | _ => false)
  | .dadd h d a b m | .dmul h d a b m => wfS2 h d a b sz [.S, .I, .Z] [.S, .I, .Z] && m.wf true true false
  | .dfma h d a b c m =>
    wfS3 h d a b c sz [.S, .I, .Z] [.S, .I, .Z] [.S, .I, .Z] && m.wf true true true
  | .dcvt h d a m widen =>
    wfS1 h d a sz sz && dcvtPair m.dfmt m.sfmt && !(decide (m.rm = .sr))
      && (!widen || (decide (m.dfmt = .f32) && decide (m.sfmt = .f32)))
  | .sdiv h d a b m => wfS2 h d a b sz anyScalar anyScalar && m.wf false
  | .ld h d a b _ m =>
    wf2 h d a b vz baseV vz && m.width.vector && m.policyFits && d.groupFits m.width.regs
  | .st h a b c off m =>
    wfStoreV h a b c off m.width.regs && m.width.vector && m.space.stores && m.policyFits
      && (decide (m.width.regs = 1) || c.isIn [.V, .I])
  | .sld h d a _ m => wfS1 h d a sz baseV && m.width.scalar && m.policyFits
  | .sst h a c off m =>
    h.wf (some a) none (some c) && a.isScalarIn baseV && c.isIn [.S, .I, .Z] && offFits c off && m.width.scalar
      && m.space.stores && m.policyFits
  | .pref h a b _ m =>
    h.wf (some a) (some b) none && a.isIn baseV && b.isIn vz && decide (m.width = .n8) && m.policyFits
      && (decide (m.space = .global) || decide (m.space = .const) || decide (m.space = .args))
  | .cflush h a b _ scope =>
    h.wf (some a) (some b) none && a.isScalarIn baseS && b.isIn [.S]
      && (decide (scope = .clu) || decide (scope = .die) || decide (scope = .pkg))
  | .icinv h a b _ scope =>
    h.wf (some a) (some b) none && a.isScalarIn baseS && b.isIn [.S]
      && (decide (scope = .blk) || decide (scope = .clu) || decide (scope = .die) || decide (scope = .pkg))
  | .atom h d a b c off m =>
    wfStoreV h a b c off (if m.w64 then 2 else 1) && d.isIn vz && d.groupFits (if m.w64 then 2 else 1) && m.wf
  | .red h a b c off m => wfStoreV h a b c off (if m.w64 then 2 else 1) && m.wf
  | .cas h d a b c off m =>
    wfStoreV h a b c off (if m.w64 then 2 else 1) && d.isIn [.V] && d.groupFits (if m.w64 then 2 else 1)
      && decide (m.op = .add)
  | .dcas h d a _ m => wfS1 h d a sz baseS && decide (m.op = .add) && m.scope.dieOrPkg
  | .amove h d a _ m =>
    wfS1 h d a sz baseS && (decide (m.op = .add) || decide (m.op = .minn)) && m.scope.dieOrPkg
  | .ald h d a b _ m =>
    wf2 h d a b [.V, .S, .Z] baseV vz && d.groupFits (if m.w64 then 2 else 1) && decide (m.op = .add)
      && (!d.isIn [.S] || (decide (b = .zero) && !a.isLane))
  | .ast h a b c off m => wfStoreV h a b c off (if m.w64 then 2 else 1) && decide (m.op = .add)
  | .fence h scope dir die _ _ =>
    h.wf none none none
      && (if dir then decide (scope = .pkg) && decide (die.toNat < 24) else decide (die = 0#5))
  | .drain h scope =>
    h.wf none none none && (decide (scope = .pkg) || decide (scope = .dom) || decide (scope = .sys))
  | .bari h a _ _ _ => h.wf (some a) none none && a.isScalarIn baseS
  | .barv h d a _ => wfS1 h d a sz baseS
  | .barw h d a b _ => wfS2 h d a b sz baseS [.S]
  | .barx h a b _ => h.wf (some a) (some b) none && a.isScalarIn baseS && b.isIn [.S]
  | .gbar h d => h.wf none none none && d.isIn sz
  | .wait h _ _ _ _ => h.wf none none none
  | .tagw h d a _ | .tagf h d a _ => wfS1 h d a sz [.S, .I, .Z]
  | .tagc h a => h.wf (some a) none none && a.isIn [.S, .I, .Z]
  | .chopen h a _ => h.wf (some a) none none && a.isIn [.S, .I]
  | .chst h a b c off _ w64 => wfStoreV h a b c off (if w64 then 2 else 1)
  | .chclose h _ => h.wf none none none
  | .time h d => h.wf none none none && d.isIn sz
  | .cpy h d a _ => wfS1 h d a sz baseS
  | .cpyk h d a => wfS1 h d a sz [.S, .I]
  | .xenc h d a _ | .xdec h d a _ => wf1 h d a vz [.V]
  | .gsub h d a _ _ => wfS1 h d a sz baseS
  | .mma h d a b c m =>
    h.wf (some a) (some b) (some c) && d.isAcc && a.isIn [.S] && b.isIn [.S] && (c.isAcc || decide (c = .zero)) && m.wfDense
  | .mmasp h d a b c m sl =>
    h.wf (some a) (some b) (some c) && d.isAcc && a.isIn [.S] && b.isIn [.S] && c.isIn [.V] && c.groupFits 2 && m.wfDense
      && decide (sl.toNat < m.fmt.slices)
  | .mmax h d a b c m =>
    h.wf (some a) (some b) (some c) && d.isAcc && a.isIn [.S] && b.isIn [.S] && (c.isAcc || decide (c = .zero)) && m.fmt.mx
      && !m.i32
  | .mmacb h d a b c m _ _ =>
    h.wf (some a) (some b) (some c) && d.isAcc && a.isIn [.S] && b.isIn [.S] && (c.isAcc || decide (c = .zero))
      && decide (m.fmt = .cb4) && !m.i32
  | .mcbld h a _ => h.wf (some a) none none && a.isIn [.S]
  | .mstt h a c m ch role =>
    h.wf (some a) none (some c) && a.isIn [.S] && c.isAcc && m.wfStore && decide (ch.toNat < m.fmt.chunks)
      && decide (role.toNat < 2)
  | .spawn h d a _ => wfS1 h d a sz baseS
  | .mbxrd h d a _ _ => wfS1 h d a sz baseS
  | .mbxfwd h d a _ _ => wfS1 h d a sz baseS
  | .fetchb h => h.wf none none none
  | .create e => decide (entryOpcode e = 0x01)
  | .activate e => decide (entryOpcode e = 0x02)
  | .preempt e => decide (entryOpcode e = 0x03)
  | .destroy e => decide (entryOpcode e = 0x04)
  | .load e => decide (entryOpcode e = 0x05)
  | .unload e => decide (entryOpcode e = 0x06)
  | .qcreate e => decide (entryOpcode e = 0x07)
  | .qreset e => decide (entryOpcode e = 0x08)
  | .qdestroy e => decide (entryOpcode e = 0x09)
  | .migrate e => decide (entryOpcode e = 0x0A)
  | .bias e => decide (entryOpcode e = 0x0B)
  | .shootdown e => decide (entryOpcode e = 0x0C)
  | .seed e => decide (entryOpcode e = 0x0D)
  | .devset e => decide (entryOpcode e = 0x0E)
  | .healthrd e => decide (entryOpcode e = 0x10)
  | .faultsum e => decide (entryOpcode e = 0x11)
  | .safetier e => decide (entryOpcode e = 0x12)
  | .checkpoint e => decide (entryOpcode e = 0x13)
  | .restore e => decide (entryOpcode e = 0x14)
  | .powercap e => decide (entryOpcode e = 0x15)
  | .attest e => decide (entryOpcode e = 0x16)
  | .keybind e => decide (entryOpcode e = 0x17)
  | .fwupdate e => decide (entryOpcode e = 0x18)
  | .adminUnknownOpcode e => !adminOpcodes.contains (entryOpcode e)
  | .loadReturn _ | .storePerformed _ | .instructionFetchFill _ _ | .sleepExpiry _ _ | .barvArrival _ | .gangEnd _
  | .dieGroupDone _ | .placementOpportunity _ | .slotRecordWrite _ _ | .leaseExpiry _ _ | .walkComplete _ _ _
  | .releaseRoundStart _ | .earlyRound _ _ | .homeApplyBlock _ _ | .markerArrival _ _ | .stampNotice _ _
  | .sharerApply _ _ | .sharerAck _ _ | .homeRoundAck _ _ | .roundComplete _ | .foldIn _ _ | .atomicValueReturn _ _
  | .dropNotice _ _ | .rdcLineReplace _ _ | .migrationLineCopy _ | .migrationDone _ | .biasLineStep _
  | .shootdownDieAck _ _ | .uncorrectableError _ | .eccCorrected _ _ | .patrolScrub _ _ | .ecsCountRead _
  | .jobEntry _ | .loopEntry _ | .condEntry _ | .signalEntry _ | .endEntry _ | .malformedEntry _ | .jobStart _
  | .jobEnd _ | .leaveGrant _ | .transformReply _ | .matrixOperandFetch _ | .matrixResult _ | .bellWrite _ _
  | .lotteryDraw _ | .launchPacket _ _ | .dependPacket _ _ | .signalPacket _ _ | .chainPacket _ _
  | .completionRecord _ | .eventRingTimer _ | .ridxPoll _ | .replayRerun _ | .preemptHaltTimeout _ | .contextSaved _
  | .contextResumed _ | .contextFaulted _ _ | .aqtailWrite _ | .aqctlWrite _ | .acheadWrite _ | .rwinWrite _ _ _
  | .registerWrite _ _ _ | .linkTrained _ _ | .linkTrainTimeout _ | .flitReceive _ _ | .retryRequest _ _
  | .linkDisabled _ | .requestTimeout _ _ | .timebaseStop _ | .heartbeatMiss _ | .reductionRoundDeliver _
  | .reductionPartialTimeout _ | .channelStorePerform _ _ | .complete _ _ | .xlate _ _ | .read _ _ | .write _ _ _ _
  | .wrack _ | .invack _ _ | .preack _ _ | .guestDutyTimeout | .memoryDieLost _ | .computeDieLost _ | .supplyDroop _
  | .thermalLimit _ _ | .boardPowerFault _ | .powerGood _ | .strapChange _ | .sidebandRead _ | .sidebandReset
  | .homePerformedWrite _ | .homeLineFetch _ _ | .remoteAccess _ _ _
  | .hostCxlMemAccess _ _ _ => true

/-- A well-formed instruction. -/
abbrev WellFormed (i : Instr) : Prop := i.wf = true

end Sys2Proof
end

