-- ==== Sys2Proof/Decode.lean ====
section
/-!
DEFINITION. Decoding of the 96-bit instruction word in the four stages of R78 (03_encoding R50-R79), of the pair word
(R74-R77) and of an admin command entry (19_reliability R473, R474), and after it the encoder, written from the same
encoding tables.
-/
namespace Sys2Proof

/-- A decode trap: its cause and sr.tval (R78, R81). -/
structure Illegal where
  cause : BitVec 8
  tval : BitVec 64
  deriving DecidableEq, Repr

/-- The fields of a word other than a pair (R50). -/
structure Raw where
  opc : BitVec 8
  guard : BitVec 4
  d : BitVec 8
  a : BitVec 8
  b : BitVec 8
  c : BitVec 8
  mod : BitVec 8
  imm : BitVec 32
  la : BitVec 1
  lb : BitVec 1
  lc : BitVec 1
  yld : BitVec 1
  stall : BitVec 4
  rsv : BitVec 4
  deriving DecidableEq, Repr

/-- The fields by their places in the word (R50). -/
def rawOfWord (w : IWord) : Raw :=
  { opc := w.extractLsb' 0 8, guard := w.extractLsb' 8 4, d := w.extractLsb' 12 8, a := w.extractLsb' 20 8,
    b := w.extractLsb' 28 8, c := w.extractLsb' 36 8, mod := w.extractLsb' 44 8, imm := w.extractLsb' 52 32,
    la := w.extractLsb' 84 1, lb := w.extractLsb' 85 1, lc := w.extractLsb' 86 1, yld := w.extractLsb' 87 1,
    stall := w.extractLsb' 88 4, rsv := w.extractLsb' 92 4 }

/-- The word of the fields (R50). -/
def wordOfRaw (r : Raw) : IWord :=
  r.rsv ++ (r.stall ++ (r.yld ++ (r.lc ++ (r.lb ++ (r.la ++ (r.imm ++ (r.mod ++ (r.c ++ (r.b ++ (r.a ++ (r.d ++
    (r.guard ++ r.opc))))))))))))

/-! ## Field codes -/

/-- Kind of an operand code; none for a reserved one (R55). -/
def kindOfCode (c : BitVec 8) : Option Kind :=
  let n := c.toNat
  if n < 0x40 then some .V
  else if n < 0x80 then some .S
  else if n < 0x88 then some .P
  else if 0xA0 ≤ n ∧ n ≤ 0xB7 then some .X
  else if n = 0xE0 then some .Z
  else if n = 0xE1 then some .I
  else none

/-- The special registers in the order of their codes from 0xA0 (R85). -/
def sregOfNat : Nat → SReg
  | 0 => .lane | 1 => .gang | 2 => .block | 3 => .grid | 4 => .cluster | 5 => .core | 6 => .die | 7 => .device
  | 8 => .part | 9 => .flags | 10 => .fpmode | 11 => .tags | 12 => .budget | 13 => .nanc | 14 => .args | 15 => .scratch
  | 16 => .tcause | 17 => .tpc | 18 => .tval | 19 => .tlane | 20 => .tslot | 21 => .leave | 22 => .mbx | _ => .active

/-- The place of a special register in that order (R85). -/
def sregNum : SReg → Nat
  | .lane => 0 | .gang => 1 | .block => 2 | .grid => 3 | .cluster => 4 | .core => 5 | .die => 6 | .device => 7
  | .part => 8 | .flags => 9 | .fpmode => 10 | .tags => 11 | .budget => 12 | .nanc => 13 | .args => 14 | .scratch => 15
  | .tcause => 16 | .tpc => 17 | .tval => 18 | .tlane => 19 | .tslot => 20 | .leave => 21 | .mbx => 22 | .active => 23

/-- The operand of a code, with the word's IMM (R55). -/
def opndOfCode (imm : BitVec 32) (c : BitVec 8) : Opnd :=
  let n := c.toNat
  if n < 0x40 then .v (Fin.ofNat 64 n)
  else if n < 0x80 then .s (Fin.ofNat 64 n)
  else if n < 0x88 then .p (Fin.ofNat 8 n)
  else if n = 0xE1 then .imm imm
  else if 0xA0 ≤ n ∧ n ≤ 0xB7 then .sr (sregOfNat (n - 0xA0))
  else .zero

/-- The code of an operand (R55). -/
def opndCode : Opnd → BitVec 8
  | .v n => BitVec.ofNat 8 n.val
  | .s n => BitVec.ofNat 8 (0x40 + n.val)
  | .p n => BitVec.ofNat 8 (0x80 + n.val)
  | .sr r => BitVec.ofNat 8 (0xA0 + sregNum r)
  | .zero => 0xE0#8
  | .imm _ => 0xE1#8

/-- Rounding mode of its code (R63). -/
def rmOfNat : Nat → Rm
  | 0 => .rne | 1 => .rz | 2 => .rup | 3 => .rdn | 4 => .rna | 5 => .sr | _ => .dyn

def rmNum : Rm → Nat
  | .rne => 0 | .rz => 1 | .rup => 2 | .rdn => 3 | .rna => 4 | .sr => 5 | .dyn => 6

/-- Integer condition of its code (R62). -/
def condOfNat : Nat → Cond
  | 0 => .eq | 1 => .ne | 2 => .lt | 3 => .le | 4 => .gt | _ => .ge

def condNum : Cond → Nat
  | .eq => 0 | .ne => 1 | .lt => 2 | .le => 3 | .gt => 4 | .ge => 5

/-- FP condition of its code (R64). -/
def fcondOfNat : Nat → FCond
  | 0 => .eq | 1 => .ne | 2 => .lt | 3 => .le | 4 => .gt | 5 => .ge | 6 => .num | 7 => .nan | 8 => .equ | 9 => .neu
  | 10 => .ltu | 11 => .leu | 12 => .gtu | _ => .geu

def fcondNum : FCond → Nat
  | .eq => 0 | .ne => 1 | .lt => 2 | .le => 3 | .gt => 4 | .ge => 5 | .num => 6 | .nan => 7 | .equ => 8 | .neu => 9
  | .ltu => 10 | .leu => 11 | .gtu => 12 | .geu => 13

/-- Format of its code (R70). -/
def fmtOfNat : Nat → Fmt
  | 0 => .n32 | 1 => .i32 | 2 => .f32 | 3 => .bf16 | 4 => .f16 | 5 => .e4m3 | 6 => .e5m2 | 7 => .e2m3 | 8 => .e3m2
  | 9 => .e2m1 | 10 => .e8m0 | 11 => .i8 | 12 => .n8 | _ => .cb4

/-- Access width of its code (R66). -/
def widthOfNat : Nat → Width
  | 0 => .n8 | 1 => .i8 | 2 => .n16 | 3 => .i16 | 4 => .b32 | 5 => .b32x2 | 6 => .b32x4 | _ => .b64

def widthNum : Width → Nat
  | .n8 => 0 | .i8 => 1 | .n16 => 2 | .i16 => 3 | .b32 => 4 | .b32x2 => 5 | .b32x4 => 6 | .b64 => 7

/-- Memory space of its code (R66). -/
def spaceOfNat : Nat → Space
  | 0 => .global | 1 => .scratch | 2 => .cscratch | 3 => .const | _ => .args

def spaceNum : Space → Nat
  | .global => 0 | .scratch => 1 | .cscratch => 2 | .const => 3 | .args => 4

/-- Policy of its code (R66). -/
def policyOfNat : Nat → Policy
  | 0 => .normal | 1 => .nt | 2 => .evf | _ => .keep

def policyNum : Policy → Nat
  | .normal => 0 | .nt => 1 | .evf => 2 | .keep => 3

/-- Atomic operation of its code (R67). -/
def aopOfNat : Nat → AOp
  | 0 => .add | 1 => .minn | 2 => .mini | 3 => .maxn | 4 => .maxi | 5 => .and | 6 => .or | 7 => .xor | 8 => .exch
  | 9 => .incw | 10 => .decw | 11 => .fadd32 | _ => .bfadd2

def aopNum : AOp → Nat
  | .add => 0 | .minn => 1 | .mini => 2 | .maxn => 3 | .maxi => 4 | .and => 5 | .or => 6 | .xor => 7 | .exch => 8
  | .incw => 9 | .decw => 10 | .fadd32 => 11 | .bfadd2 => 12

/-- Scope of its code (R20). -/
def scopeOfNat : Nat → Scope
  | 0 => .blk | 1 => .clu | 2 => .die | 3 => .pkg | 4 => .dom | _ => .sys

def scopeNum : Scope → Nat
  | .blk => 0 | .clu => 1 | .die => 2 | .pkg => 3 | .dom => 4 | .sys => 5

def shflOfNat : Nat → ShflMode
  | 0 => .pick | 1 => .rot | 2 => .swap | _ => .rev

def shflNum : ShflMode → Nat
  | .pick => 0 | .rot => 1 | .swap => 2 | .rev => 3

def voteOfNat : Nat → VoteMode
  | 0 => .all | 1 => .any | 2 => .uni | _ => .ballot

def voteNum : VoteMode → Nat
  | .all => 0 | .any => 1 | .uni => 2 | .ballot => 3

/-- Operation of REDUCE and SCAN by its code (R182). -/
def redOfNat : Nat → RedOp
  | 0 => .add | 1 => .minn | 2 => .mini | 3 => .maxn | 4 => .maxi | 5 => .and | 6 => .or | 7 => .xor | 8 => .fadd
  | 9 => .fmin | _ => .fmax

def redNum : RedOp → Nat
  | .add => 0 | .minn => 1 | .mini => 2 | .maxn => 3 | .maxi => 4 | .and => 5 | .or => 6 | .xor => 7 | .fadd => 8
  | .fmin => 9 | .fmax => 10

/-! ## Modifier layouts (R61-R69) -/

/-- Bits `lo` to `lo + n - 1` of a value as a number. -/
def bitsNat {w : Nat} (x : BitVec w) (lo n : Nat) : Nat := (x.extractLsb' lo n).toNat

/-- One bit of a value. -/
def bitAt {w : Nat} (x : BitVec w) (i : Nat) : Bool := x.getLsbD i

/-- A Bool as one bit. -/
def bit1 (b : Bool) : BitVec 1 := BitVec.ofBool b

def intModOf (m : BitVec 8) : IntMod := { signed := bitAt m 0, sat := bitAt m 1 }

def intModCode (m : IntMod) : BitVec 8 := 0#6 ++ (bit1 m.sat ++ bit1 m.signed)

def scalarModOf (m : BitVec 8) : ScalarMod := { signed := bitAt m 0, sat := bitAt m 1, w64 := bitAt m 2 }

def scalarModCode (m : ScalarMod) (cond : BitVec 3) : BitVec 8 :=
  0#2 ++ (cond ++ (bit1 m.w64 ++ (bit1 m.sat ++ bit1 m.signed)))

def fpModOf (m : BitVec 8) : FpMod :=
  { rm := rmOfNat (bitsNat m 0 3), sat := bitAt m 3, na := bitAt m 4, nb := bitAt m 5, nc := bitAt m 6, ftz := bitAt m 7 }

def fpModCode (m : FpMod) : BitVec 8 :=
  bit1 m.ftz ++ (bit1 m.nc ++ (bit1 m.nb ++ (bit1 m.na ++ (bit1 m.sat ++ BitVec.ofNat 3 (rmNum m.rm)))))

def halfModOf (m : BitVec 8) : HalfMod :=
  { rm := rmOfNat (bitsNat m 0 3), sat := bitAt m 3, na := bitAt m 4, nb := bitAt m 5, nc := bitAt m 6, f16 := bitAt m 7 }

def halfModCode (m : HalfMod) : BitVec 8 :=
  bit1 m.f16 ++ (bit1 m.nc ++ (bit1 m.nb ++ (bit1 m.na ++ (bit1 m.sat ++ BitVec.ofNat 3 (rmNum m.rm)))))

def cvtModOf (r : Raw) : CvtMod :=
  { dfmt := fmtOfNat (bitsNat r.mod 4 4), sfmt := fmtOfNat r.b.toNat, sat := bitAt r.mod 3, rm := rmOfNat (bitsNat r.mod 0 3) }

def cvtModCode (m : CvtMod) : BitVec 8 :=
  BitVec.ofNat 4 m.dfmt.code ++ (bit1 m.sat ++ BitVec.ofNat 3 (rmNum m.rm))

def memModOf (m : BitVec 8) : MemMod :=
  { width := widthOfNat (bitsNat m 0 3), space := spaceOfNat (bitsNat m 3 3), policy := policyOfNat (bitsNat m 6 2) }

def memModCode (m : MemMod) : BitVec 8 :=
  BitVec.ofNat 2 (policyNum m.policy) ++ (BitVec.ofNat 3 (spaceNum m.space) ++ BitVec.ofNat 3 (widthNum m.width))

def atomModOf (m : BitVec 8) : AtomMod :=
  { op := aopOfNat (bitsNat m 0 4), w64 := bitAt m 4, scope := scopeOfNat (bitsNat m 5 3) }

def atomModCode (m : AtomMod) : BitVec 8 :=
  BitVec.ofNat 3 (scopeNum m.scope) ++ (bit1 m.w64 ++ BitVec.ofNat 4 (aopNum m.op))

def matModOf (m : BitVec 8) : MatMod := { fmt := fmtOfNat (bitsNat m 0 4), nz := bitAt m 4, i32 := bitAt m 5 }

def matModCode (m : MatMod) : BitVec 8 := 0#2 ++ (bit1 m.i32 ++ (bit1 m.nz ++ BitVec.ofNat 4 m.fmt.code))

/-! ## The encoding tables -/

/-- What a field D, A, B or C holds in a row: nothing (0xE0, R58), content of the instruction's own (R58), a source format
code with the codes the row ever accepts (R65), or an operand with its permitted codes. -/
inductive Use where
  | none
  | own
  | src (l : List Nat)
  | ops (k : List Kind) (lane : Bool) (group : Nat)
  deriving DecidableEq, Repr

/-- The uses of D, A, B and C. -/
structure Uses where
  d : Use
  a : Use
  b : Use
  c : Use
  deriving DecidableEq, Repr

/-- An operand of a vector instruction, or of any field in which sr.lane may stand. -/
def Use.v (k : List Kind) : Use := .ops k true 1

/-- An operand of an instruction that executes once: sr.lane may not stand in it (R56). -/
def Use.s (k : List Kind) : Use := .ops k false 1

/-- Data or result of a vector access: V names a group of `n` registers. -/
def Use.g (k : List Kind) (n : Nat) : Use := .ops k true n

/-- Kinds of the C field of a store (R275). -/
def dataKinds : List Kind := [.V, .S, .I, .Z]

/-- Registers of the group that a vector access of the MOD names. -/
def groupOfWidth (m : BitVec 8) : Nat := (widthOfNat (bitsNat m 0 3)).regs

/-- Registers of a W64 operand (R272). -/
def groupOfW64 (w64 : Bool) : Nat := if w64 then 2 else 1

def Uses.nothing : Uses := { d := .none, a := .none, b := .none, c := .none }

def uses1 (kd ka : List Kind) : Uses := { d := .v kd, a := .v ka, b := .none, c := .none }

def uses2 (kd ka kb : List Kind) : Uses := { d := .v kd, a := .v ka, b := .v kb, c := .none }

def uses3 (kd ka kb kc : List Kind) : Uses := { d := .v kd, a := .v ka, b := .v kb, c := .v kc }

def usesS1 (kd ka : List Kind) : Uses := { d := .s kd, a := .s ka, b := .none, c := .none }

def usesS2 (kd ka kb : List Kind) : Uses := { d := .s kd, a := .s ka, b := .s kb, c := .none }

def usesS3 (kd ka kb kc : List Kind) : Uses := { d := .s kd, a := .s ka, b := .s kb, c := .s kc }

/-- The operand table of the row of each opcode other than 0x0D and 0xFF. Where a kind depends on MOD or on D, the value
actually encoded decides (R181, R170, R275). -/
def usesOf (r : Raw) : Uses :=
  match r.opc.toNat with
  | 0x00 | 0x01 | 0x04 | 0x07 | 0x09 | 0x0A | 0x0C => .nothing
  | 0x02 => { Uses.nothing with a := .v sz }
  | 0x03 => { d := .none, a := .v [.V], b := .v [.S], c := .own }
  | 0x05 => uses1 sz sz
  | 0x06 => { Uses.nothing with a := .v [.S] }
  | 0x08 | 0x0B => { Uses.nothing with a := .v [.S, .I, .Z] }
  | 0x10 | 0x11 | 0x12 | 0x13 | 0x15 | 0x16 | 0x17 | 0x18 | 0x20 | 0x21 | 0x22 | 0x24 | 0x25 | 0x26 | 0x27
  | 0x30 | 0x31 | 0x32 | 0x34 | 0x35 | 0x39 | 0x40 | 0x41 | 0x43 | 0x44 => uses2 vz anyKind anyKind
  | 0x14 | 0x1B | 0x28 | 0x2C | 0x2D | 0x33 | 0x42 | 0x45 => uses3 vz anyKind anyKind anyKind
  | 0x19 | 0x1A | 0x23 | 0x29 | 0x2A | 0x2B | 0x36 | 0x37 | 0x38 | 0x3A | 0x3B | 0x3C | 0x3D | 0x3E | 0x3F | 0x55
  | 0x63 | 0x64 => uses1 vz anyKind
  | 0x48 => { d := .v [.V], a := .v [.V, .S, .I, .Z], b := .src [0, 1, 2, 3, 4, 5, 6, 7, 8, 9, 10, 11, 12], c := .none }
  | 0x49 => { d := .v [.V], a := .v [.V, .S, .Z], b := .src [0, 1, 2], c := .v vz }
  | 0x4A => { d := .v [.V], a := .v [.V, .S], b := .src [3, 4, 5, 6, 7, 8, 9, 10, 11, 12], c := .none }
  | 0x4B => { d := .v [.V], a := .v [.V], b := .src [2], c := .v sz }
  | 0x4C => { d := .v [.V], a := .v [.V], b := .src [5, 6, 7, 8, 9, 11], c := .v [.S, .I] }
  | 0x4D => { d := .v [.V], a := .v [.V, .S], b := .src [13], c := .none }
  | 0x4E => { Uses.nothing with a := .v [.S, .I, .Z] }
  | 0x50 | 0x51 => uses2 [.P, .Z] anyKind anyKind
  | 0x52 => uses3 vz anyKind anyKind [.P]
  | 0x53 => uses3 [.P, .Z] [.P, .Z] [.P, .Z] [.P, .Z]
  | 0x54 => uses1 [.P, .S, .V] (if kindOfCode r.d = some .P then [.P, .S, .I, .Z] else [.P])
  | 0x60 => uses2 vz [.V] [.V, .S, .I, .Z]
  | 0x61 | 0x66 => uses2 vz [.V] [.S, .I, .Z]
  | 0x62 => uses1 (if bitsNat r.mod 0 2 = 3 then [.V, .S, .Z] else [.P, .Z]) [.P]
  | 0x65 => uses1 (if bitAt r.mod 0 then [.P, .Z] else vz) anyKind
  | 0x67 => .nothing
  | 0x70 => uses1 [.V] [.V]
  | 0x71 => uses1 [.S] [.V]
  | 0x72 => uses2 [.S] [.V] [.S, .I]
  | 0x73 => uses2 [.V] [.S, .I, .Z] [.S, .I]
  | 0x74 => { Uses.nothing with d := .v [.S] }
  | 0x75 => { d := .none, a := .s baseS, b := .none, c := .v [.V] }
  | 0x76 => usesS1 [.V] baseS
  | 0x80 | 0x81 | 0x82 | 0x83 | 0x85 | 0x8F => usesS2 sz anyScalar anyScalar
  | 0x84 => usesS3 sz anyScalar anyScalar anyScalar
  | 0x86 => usesS2 [.S, .P, .Z] anyScalar anyScalar
  | 0x87 => usesS1 sz anyScalar
  | 0x88 => usesS2 sz sz [.I]
  | 0x89 => usesS1 sz [.X]
  | 0x8A => { d := .s [.X], a := .v [.S, .I, .Z], b := .none, c := .none }
  | 0x8B | 0x8C => usesS2 sz [.S, .I, .Z] [.S, .I, .Z]
  | 0x8D => usesS3 sz [.S, .I, .Z] [.S, .I, .Z] [.S, .I, .Z]
  | 0x8E => { d := .s sz, a := .s sz, b := .src [0, 1, 2], c := .none }
  | 0x90 => { d := .g vz (groupOfWidth r.mod), a := .v baseV, b := .v vz, c := .none }
  | 0x91 =>
    { d := .none, a := .v baseV, b := .v vz,
      c := .g (if groupOfWidth r.mod = 1 then dataKinds else [.V, .I]) (groupOfWidth r.mod) }
  | 0x92 => usesS1 sz baseV
  | 0x93 => { d := .none, a := .s baseV, b := .none, c := .s [.S, .I, .Z] }
  | 0x94 => { d := .none, a := .v baseV, b := .v vz, c := .none }
  | 0x95 | 0x96 => { d := .none, a := .s baseS, b := .v [.S], c := .none }
  | 0xA0 =>
    { d := .g vz (groupOfW64 (bitAt r.mod 4)), a := .v baseV, b := .v vz, c := .g dataKinds (groupOfW64 (bitAt r.mod 4)) }
  | 0xA1 | 0xA6 => { d := .none, a := .v baseV, b := .v vz, c := .g dataKinds (groupOfW64 (bitAt r.mod 4)) }
  | 0xA2 =>
    { d := .g [.V] (groupOfW64 (bitAt r.mod 4)), a := .v baseV, b := .v vz, c := .g dataKinds (groupOfW64 (bitAt r.mod 4)) }
  | 0xA3 | 0xA4 => usesS1 sz baseS
  | 0xA5 =>
    if kindOfCode r.d = some .S then { d := .v [.V, .S, .Z], a := .s baseV, b := .none, c := .none }
    else { d := .g [.V, .S, .Z] (groupOfW64 (bitAt r.mod 4)), a := .v baseV, b := .v vz, c := .none }
  | 0xB0 | 0xB1 | 0xB7 => .nothing
  | 0xB2 => { d := .none, a := .s baseS, b := .none, c := .own }
  | 0xB3 => usesS1 sz baseS
  | 0xB4 => usesS2 sz baseS [.S]
  | 0xB5 => { d := .none, a := .s baseS, b := .v [.S], c := .none }
  | 0xB6 | 0xBE => { Uses.nothing with d := .v sz }
  | 0xB8 | 0xB9 => usesS1 sz [.S, .I, .Z]
  | 0xBA => { Uses.nothing with a := .v [.S, .I, .Z] }
  | 0xBB => { Uses.nothing with a := .v [.S, .I] }
  | 0xBC => { d := .none, a := .v baseV, b := .v vz, c := .g dataKinds (groupOfW64 (bitAt r.mod 3)) }
  | 0xBD => .nothing
  | 0xC0 | 0xC4 | 0xE0 | 0xE1 | 0xE2 => usesS1 sz baseS
  | 0xC1 => usesS1 sz [.S, .I]
  | 0xC2 | 0xC3 => uses1 vz [.V]
  | 0xD0 | 0xD2 | 0xD3 => { d := .g [.V] 32, a := .v [.S], b := .v [.S], c := .g [.V, .Z] 32 }
  | 0xD1 => { d := .g [.V] 32, a := .v [.S], b := .v [.S], c := .g [.V] 2 }
  | 0xD4 => { Uses.nothing with a := .v [.S] }
  | 0xD5 => { d := .none, a := .v [.S], b := .none, c := .g [.V] 32 }
  | _ => .nothing

/-- The MOD bits that the row of each opcode assigns (R61-R69 and the chapters' tables). -/
def modMask (opc : Nat) : BitVec 8 :=
  match opc with
  | 0x10 | 0x11 | 0x12 | 0x13 | 0x14 | 0x15 | 0x16 | 0x17 | 0x18 | 0x1B | 0x60 | 0x62 | 0x73 | 0xC2 | 0xC3 => 0x03#8
  | 0x19 | 0x1A => 0x02#8
  | 0x25 | 0x27 | 0x61 | 0x65 | 0x71 | 0x75 | 0xB2 | 0xB8 | 0xB9 | 0xE1 => 0x01#8
  | 0x2C | 0x53 | 0x84 | 0x33 | 0x42 | 0x45 | 0x8D | 0x8E => 0xFF#8
  | 0x48 | 0x49 | 0x4A | 0x4B | 0x4C | 0x4D => 0xFF#8
  | 0x2D | 0x63 | 0xBC | 0xC4 => 0x0F#8
  | 0x30 | 0x31 | 0x32 | 0x39 | 0x40 | 0x41 | 0x8B | 0x8C => 0xBF#8
  | 0x34 | 0x35 | 0x43 | 0x44 => 0xB8#8
  | 0x36 | 0x37 | 0x3A | 0x3B | 0x3C | 0x3D | 0x3E => 0x98#8
  | 0x38 => 0x9F#8
  | 0x50 => 0x39#8
  | 0x51 => 0x3F#8
  | 0x64 => 0x1F#8
  | 0x67 | 0x80 | 0x81 | 0x82 | 0x95 | 0x96 | 0xB1 | 0xBB | 0xBD | 0xE2 => 0x07#8
  | 0x83 | 0x85 | 0x8F => 0x05#8
  | 0x86 => 0x3D#8
  | 0x90 | 0x91 | 0x92 | 0x93 | 0x94 => 0xFF#8
  | 0xA0 | 0xA1 | 0xA2 | 0xA3 | 0xA4 | 0xA5 | 0xA6 => 0xFF#8
  | 0xB0 => 0x1F#8
  | 0xD0 | 0xD1 | 0xD2 | 0xD3 | 0xD4 | 0xD5 => 0x3F#8
  | _ => 0x00#8

/-- RM holds a value that an FP row accepts: neither SR nor 7 (R63). -/
def rmOk (m : BitVec 8) : Bool := decide (bitsNat m 0 3 ≠ 5) && decide (bitsNat m 0 3 ≠ 7)

/-- WIDTH, SPACE and POLICY of a memory row (R66). -/
def memModOk (m : BitVec 8) (width : Width → Bool) (space : Space → Bool) : Bool :=
  decide (bitsNat m 3 3 < 5) && width (memModOf m).width && space (memModOf m).space && (memModOf m).policyFits

/-- OP and SCOPE of an atomic row (R67). -/
def atomModOk (m : BitVec 8) (op : Nat → Bool) (scope : Nat → Bool) : Bool :=
  decide (bitsNat m 0 4 < 13) && decide (bitsNat m 5 3 < 6) && (atomModOf m).wf && op (bitsNat m 0 4)
    && scope (bitsNat m 5 3)

/-- The row's limits on the values of the assigned MOD bits. -/
def modValueOk (r : Raw) : Bool :=
  let m := r.mod
  match r.opc.toNat with
  | 0x30 | 0x31 | 0x32 | 0x33 | 0x38 | 0x39 | 0x40 | 0x41 | 0x42 | 0x45 | 0x8B | 0x8C | 0x8D => rmOk m
  | 0x48 =>
    decide (bitsNat m 4 4 < 14) && decide (bitsNat m 0 3 ≠ 7) && convPair (cvtModOf r).dfmt (cvtModOf r).sfmt
  | 0x49 =>
    decide (bitsNat m 4 4 < 14) && decide (bitsNat m 0 3 ≠ 7) && !(cvtModOf r).dfmt.wide
      && convPair (cvtModOf r).dfmt (cvtModOf r).sfmt
  | 0x4A =>
    decide (bitsNat m 0 3 ≠ 7) && decide (bitsNat m 4 4 < 3) && convPair (cvtModOf r).dfmt (cvtModOf r).sfmt
  | 0x4B =>
    decide (bitsNat m 4 4 < 14) && (cvtModOf r).dfmt.mx && (decide (bitsNat m 0 3 = 0) || decide (bitsNat m 0 3 = 5))
  | 0x4C => decide (bitsNat m 4 4 = 2) && decide (bitsNat m 0 3 = 0)
  | 0x4D => (decide (bitsNat m 4 4 = 2) || decide (bitsNat m 4 4 = 3)) && decide (bitsNat m 0 4 = 0)
  | 0x8E =>
    decide (bitsNat m 4 4 < 14) && rmOk m && dcvtPair (cvtModOf r).dfmt (cvtModOf r).sfmt
  | 0x50 | 0x86 => decide (bitsNat m 3 3 < 6)
  | 0x51 => decide (bitsNat m 0 4 < 14)
  | 0x63 | 0x64 => decide (bitsNat m 0 4 < 11)
  | 0x67 => decide (1 ≤ bitsNat m 0 3) && decide (bitsNat m 0 3 ≤ 5)
  | 0x90 => memModOk m Width.vector (fun _ => true)
  | 0x91 => memModOk m Width.vector Space.stores
  | 0x92 => memModOk m Width.scalar (fun _ => true)
  | 0x93 => memModOk m Width.scalar Space.stores
  | 0x94 => memModOk m (fun w => decide (w = .n8)) (fun s => decide (s = .global) || decide (s = .const) || decide (s = .args))
  | 0x95 => decide (1 ≤ bitsNat m 0 3) && decide (bitsNat m 0 3 ≤ 3)
  | 0x96 => decide (bitsNat m 0 3 ≤ 3)
  | 0xA0 | 0xA1 => atomModOk m (fun _ => true) (fun _ => true)
  | 0xA2 | 0xA5 | 0xA6 => atomModOk m (fun o => decide (o = 0)) (fun _ => true)
  | 0xA3 => atomModOk m (fun o => decide (o = 0)) (fun s => decide (s = 2) || decide (s = 3))
  | 0xA4 => atomModOk m (fun o => decide (o ≤ 1)) (fun s => decide (s = 2) || decide (s = 3))
  | 0xB0 =>
    decide (bitsNat m 0 3 < 6) && decide (bitsNat m 3 2 < 2) && (decide (bitsNat m 3 2 = 0) || decide (bitsNat m 0 3 = 3))
  | 0xB1 => decide (3 ≤ bitsNat m 0 3) && decide (bitsNat m 0 3 ≤ 5)
  | 0xD0 | 0xD1 => decide (bitsNat m 0 4 < 14) && (matModOf m).wfDense
  | 0xD2 => decide (bitsNat m 0 4 < 14) && (matModOf m).fmt.mx && !(matModOf m).i32
  | 0xD3 => decide (bitsNat m 0 4 = 13) && !(matModOf m).i32
  | 0xD4 => decide (m = 3#8)
  | 0xD5 => decide (bitsNat m 0 4 < 14) && (matModOf m).wfStore
  | _ => true

/-- MOD breaks no rule (R61). -/
def modOk (r : Raw) : Bool := decide (r.mod &&& ~~~(modMask r.opc.toNat) = 0#8) && modValueOk r

/-- A use that is an operand field. -/
def Use.isOps : Use → Bool
  | .ops _ _ _ => true
  | _ => false

/-- The bits of a mask only. -/
def within (x m : BitVec 32) : Bool := decide (x &&& ~~~m = 0#32)

/-- IMM breaks no rule (R58, and the IMM column of each table). The spec does not say which rule holds for a JMP or CALL whose A is
neither 0xE0 nor a scalar: its IMM must be zero here (assumption log 136). -/
def immOk (r : Raw) (u : Uses) : Bool :=
  match r.opc.toNat with
  | 0x01 => true
  | 0x02 | 0x05 => if r.a = 0xE0#8 then within r.imm 0xFFFF#32 else decide (r.imm = 0#32)
  | 0x03 => within r.imm 0xFFFF0000#32
  | 0x0C => within r.imm 0xFFFF#32
  | 0x49 => within r.imm 7#32 && decide (bitsNat r.imm 0 3 < (cvtModOf r).dfmt.positions)
  | 0x4A => within r.imm 7#32 && decide (bitsNat r.imm 0 3 < (cvtModOf r).sfmt.positions)
  | 0x4D | 0xD3 => within r.imm 0x77#32
  | 0x8E => within r.imm 1#32 && (decide (r.imm = 0#32) || (decide ((cvtModOf r).dfmt = .f32) && decide ((cvtModOf r).sfmt = .f32)))
  | 0x75 | 0x76 | 0x90 | 0x91 | 0x92 | 0x93 | 0x94 | 0x95 | 0x96 | 0xA0 | 0xA1 | 0xA2 | 0xA3 | 0xA4 | 0xA5 | 0xA6
  | 0xB2 | 0xB3 | 0xB4 | 0xB5 | 0xBC | 0xC0 | 0xC4 | 0xE0 | 0xE1 | 0xE2 => true
  | 0xB0 =>
    within r.imm 0x1F3F3F#32
      && (if bitsNat r.mod 3 2 = 0 then decide (bitsNat r.imm 16 5 = 0) else decide (bitsNat r.imm 16 5 < 24))
  | 0xB7 => within r.imm 0x00FFFFFF#32
  | 0xD0 | 0xD2 => decide (r.imm = 0#32)
  | 0xD1 => within r.imm 7#32 && decide (bitsNat r.imm 0 3 < (matModOf r.mod).fmt.slices)
  | 0xD4 => within r.imm 7#32
  | 0xD5 => within r.imm 0x17#32 && decide (bitsNat r.imm 0 3 < (matModOf r.mod).fmt.chunks)
  | _ =>
    decide (r.imm = 0#32) || (u.d.isOps && decide (r.d = 0xE1#8)) || (u.a.isOps && decide (r.a = 0xE1#8))
      || (u.b.isOps && decide (r.b = 0xE1#8)) || (u.c.isOps && decide (r.c = 0xE1#8))

/-- The first check of a list that fails: its bit number. -/
def firstBad : List (Nat × Bool) → Option Nat
  | [] => none
  | (bit, ok) :: rest => if ok then firstBad rest else some bit

/-- The field-stage check of D, A, B or C: an unused field holds 0xE0, a source format is one the row accepts (R58, R65). -/
def Use.fieldOk (u : Use) (c : BitVec 8) : Bool :=
  match u with
  | .none => decide (c = 0xE0#8)
  | .own => true
  | .src l => l.contains c.toNat
  | .ops _ _ _ => true

/-- A last-read bit stands on an operand field that holds a register (R59). -/
def lastOk (bit : BitVec 1) (u : Use) (c : BitVec 8) : Bool :=
  decide (bit = 0#1) || (u.isOps && decide (c.toNat < 0x88))

/-- Stage 2 (R78): every field in ascending bit order. JOIN takes GUARD 0x7 only (R214), and MXQ no LC (R136). -/
def fieldStage (r : Raw) : Option Nat :=
  let u := usesOf r
  firstBad [(8, !(decide (r.opc = 0x04#8)) || decide (r.guard = 7#4)), (12, u.d.fieldOk r.d), (20, u.a.fieldOk r.a),
    (28, u.b.fieldOk r.b), (36, u.c.fieldOk r.c), (44, modOk r), (52, immOk r u), (84, lastOk r.la u.a r.a),
    (85, lastOk r.lb u.b r.b), (86, lastOk r.lc u.c r.c && !(decide (r.opc = 0x4B#8) && decide (r.lc = 1#1))),
    (92, decide (r.rsv = 0#4))]

/-- The operand-stage check of D, A, B or C (R55, R56, R272, R275, R351). A group of 32 is an accumulator. -/
def Use.operandOk (u : Use) (c : BitVec 8) : Bool :=
  match u with
  | .ops k lane group =>
    match kindOfCode c with
    | Option.none => false
    | some kind =>
      k.contains kind && (lane || !(decide (c = 0xA0#8)))
        && (!(decide (kind = .V))
            || (if group = 32 then decide (c = 0#8) || decide (c = 0x20#8) else decide (c.toNat + group ≤ 64)))
  | _ => true

/-- The registers that SWR may name in D (R176). -/
def swrOk (c : BitVec 8) : Bool :=
  decide (c = 0xA9#8) || decide (c = 0xAA#8) || decide (c = 0xAD#8) || decide (c = 0xB1#8) || decide (c = 0xB3#8)

/-- Stage 3 (R78): GUARD, then D, A, B and C. -/
def operandStage (r : Raw) : Option Nat :=
  let u := usesOf r
  firstBad [(8, decide (r.guard ≠ 0xF#4)), (12, u.d.operandOk r.d && (!(decide (r.opc = 0x8A#8)) || swrOk r.d)),
    (20, u.a.operandOk r.a), (28, u.b.operandOk r.b), (36, u.c.operandOk r.c)]

/-! ## The instruction of a checked word -/

def headOf (r : Raw) : Head :=
  { guard := { neg := bitAt r.guard 3, p := Fin.ofNat 8 (bitsNat r.guard 0 3) }, la := decide (r.la = 1#1),
    lb := decide (r.lb = 1#1), lc := decide (r.lc = 1#1), yld := decide (r.yld = 1#1), stall := r.stall }

def Raw.dO (r : Raw) : Opnd := opndOfCode r.imm r.d
def Raw.aO (r : Raw) : Opnd := opndOfCode r.imm r.a
def Raw.bO (r : Raw) : Opnd := opndOfCode r.imm r.b
def Raw.cO (r : Raw) : Opnd := opndOfCode r.imm r.c

/-- The address offset: IMM, or 0 where C takes IMM as its data (R275). -/
def Raw.off (r : Raw) : BitVec 32 := if r.c = 0xE1#8 then 0#32 else r.imm

/-- The instruction of a word that passed stages 1 to 3; opcodes 0x0D and 0xFF do not come here. -/
def instrOfRaw (r : Raw) : Instr :=
  let h := headOf r
  let m := r.mod
  match r.opc.toNat with
  | 0x00 => .nop h
  | 0x01 => .bra h (r.imm.extractLsb' 0 16) (r.imm.extractLsb' 16 16)
  | 0x02 => if r.a = 0xE0#8 then .jmpOffset h (r.imm.extractLsb' 0 16) else .jmpScalar h r.aO
  | 0x03 => .jmpi h r.aO r.bO r.c (r.imm.extractLsb' 16 16)
  | 0x04 => .join h
  | 0x05 => if r.a = 0xE0#8 then .callOffset h r.dO (r.imm.extractLsb' 0 16) else .callScalar h r.dO r.aO
  | 0x06 => .ret h r.aO
  | 0x07 => .exit h
  | 0x08 => .trap h r.aO
  | 0x09 => .eret h
  | 0x0A => .yield h
  | 0x0B => .sleep h r.aO
  | 0x0C => .brk h (r.imm.extractLsb' 0 16)
  | 0x10 => .iadd h r.dO r.aO r.bO (intModOf m)
  | 0x11 => .isub h r.dO r.aO r.bO (intModOf m)
  | 0x12 => .imul h r.dO r.aO r.bO (intModOf m)
  | 0x13 => .imulh h r.dO r.aO r.bO (intModOf m)
  | 0x14 => .imad h r.dO r.aO r.bO r.cO (intModOf m)
  | 0x15 => .idiv h r.dO r.aO r.bO (intModOf m)
  | 0x16 => .irem h r.dO r.aO r.bO (intModOf m)
  | 0x17 => .imin h r.dO r.aO r.bO (intModOf m)
  | 0x18 => .imax h r.dO r.aO r.bO (intModOf m)
  | 0x19 => .iabs h r.dO r.aO (bitAt m 1)
  | 0x1A => .ineg h r.dO r.aO (bitAt m 1)
  | 0x1B => .idot4 h r.dO r.aO r.bO r.cO (intModOf m)
  | 0x20 => .andB h r.dO r.aO r.bO
  | 0x21 => .orB h r.dO r.aO r.bO
  | 0x22 => .xorB h r.dO r.aO r.bO
  | 0x23 => .notB h r.dO r.aO
  | 0x24 => .shl h r.dO r.aO r.bO
  | 0x25 => .shr h r.dO r.aO r.bO (bitAt m 0)
  | 0x26 => .rot h r.dO r.aO r.bO
  | 0x27 => .bfe h r.dO r.aO r.bO (bitAt m 0)
  | 0x28 => .bfi h r.dO r.aO r.bO r.cO
  | 0x29 => .popc h r.dO r.aO
  | 0x2A => .clz h r.dO r.aO
  | 0x2B => .brev h r.dO r.aO
  | 0x2C => .bmix h r.dO r.aO r.bO r.cO m
  | 0x2D => .bpick h r.dO r.aO r.bO r.cO (m.extractLsb' 0 4)
  | 0x30 => .fadd h r.dO r.aO r.bO (fpModOf m)
  | 0x31 => .fsub h r.dO r.aO r.bO (fpModOf m)
  | 0x32 => .fmul h r.dO r.aO r.bO (fpModOf m)
  | 0x33 => .ffma h r.dO r.aO r.bO r.cO (fpModOf m)
  | 0x34 => .fmin h r.dO r.aO r.bO (fpModOf m)
  | 0x35 => .fmax h r.dO r.aO r.bO (fpModOf m)
  | 0x36 => .frcp h r.dO r.aO (fpModOf m)
  | 0x37 => .frsq h r.dO r.aO (fpModOf m)
  | 0x38 => .fsqrt h r.dO r.aO (fpModOf m)
  | 0x39 => .fdiv h r.dO r.aO r.bO (fpModOf m)
  | 0x3A => .fexp2 h r.dO r.aO (fpModOf m)
  | 0x3B => .flog2 h r.dO r.aO (fpModOf m)
  | 0x3C => .fsin h r.dO r.aO (fpModOf m)
  | 0x3D => .fcos h r.dO r.aO (fpModOf m)
  | 0x3E => .ftanh h r.dO r.aO (fpModOf m)
  | 0x3F => .fclass h r.dO r.aO
  | 0x40 => .hadd2 h r.dO r.aO r.bO (halfModOf m)
  | 0x41 => .hmul2 h r.dO r.aO r.bO (halfModOf m)
  | 0x42 => .hfma2 h r.dO r.aO r.bO r.cO (halfModOf m)
  | 0x43 => .hmin2 h r.dO r.aO r.bO (halfModOf m)
  | 0x44 => .hmax2 h r.dO r.aO r.bO (halfModOf m)
  | 0x45 => .hdot2 h r.dO r.aO r.bO r.cO (halfModOf m)
  | 0x48 => .cvt h r.dO r.aO (cvtModOf r)
  | 0x49 => .cvtpk h r.dO r.aO r.cO (cvtModOf r) (r.imm.extractLsb' 0 3)
  | 0x4A => .cvtup h r.dO r.aO (cvtModOf r) (r.imm.extractLsb' 0 3)
  | 0x4B => .mxq h r.dO r.aO r.cO (cvtModOf r)
  | 0x4C => .mxdq h r.dO r.aO r.cO (cvtModOf r)
  | 0x4D => .cblu h r.dO r.aO (cvtModOf r) (r.imm.extractLsb' 0 3) (r.imm.extractLsb' 4 3)
  | 0x4E => .srseed h r.aO
  | 0x50 => .isetp h r.dO r.aO r.bO (bitAt m 0) (condOfNat (bitsNat m 3 3))
  | 0x51 => .fsetp h r.dO r.aO r.bO (bitAt m 4) (bitAt m 5) (fcondOfNat (bitsNat m 0 4))
  | 0x52 => .sel h r.dO r.aO r.bO r.cO
  | 0x53 => .pmix h r.dO r.aO r.bO r.cO m
  | 0x54 => .pmov h r.dO r.aO
  | 0x55 => .mov h r.dO r.aO
  | 0x60 => .shfl h r.dO r.aO r.bO (shflOfNat (bitsNat m 0 2))
  | 0x61 => .nbr h r.dO r.aO r.bO (bitAt m 0)
  | 0x62 => .vote h r.dO r.aO (voteOfNat (bitsNat m 0 2))
  | 0x63 => .reduce h r.dO r.aO (redOfNat (bitsNat m 0 4))
  | 0x64 => .scan h r.dO r.aO (redOfNat (bitsNat m 0 4)) (bitAt m 4)
  | 0x65 => .matchLanes h r.dO r.aO (bitAt m 0)
  | 0x66 => .bcast h r.dO r.aO r.bO
  | 0x67 => .part h (m.extractLsb' 0 3)
  | 0x70 => .coalesce h r.dO r.aO
  | 0x71 => .runs h r.dO r.aO (bitAt m 0)
  | 0x72 => .runget h r.dO r.aO r.bO
  | 0x73 => .runapp h r.dO r.aO r.bO (bitAt m 0) (bitAt m 1)
  | 0x74 => .rbudget h r.dO
  | 0x75 => .rspill h r.aO r.cO r.imm (bitAt m 0)
  | 0x76 => .rfill h r.dO r.aO r.imm
  | 0x80 => .sadd h r.dO r.aO r.bO (scalarModOf m)
  | 0x81 => .ssub h r.dO r.aO r.bO (scalarModOf m)
  | 0x82 => .smul h r.dO r.aO r.bO (scalarModOf m)
  | 0x83 => .smulh h r.dO r.aO r.bO (scalarModOf m)
  | 0x84 => .smix h r.dO r.aO r.bO r.cO m
  | 0x85 => .sshf h r.dO r.aO r.bO (scalarModOf m)
  | 0x86 => .scmp h r.dO r.aO r.bO (scalarModOf m) (condOfNat (bitsNat m 3 3))
  | 0x87 => .smov h r.dO r.aO
  | 0x88 => .smovh h r.dO r.aO r.bO
  | 0x89 => .srd h r.dO r.aO
  | 0x8A => .swr h r.dO r.aO
  | 0x8B => .dadd h r.dO r.aO r.bO (fpModOf m)
  | 0x8C => .dmul h r.dO r.aO r.bO (fpModOf m)
  | 0x8D => .dfma h r.dO r.aO r.bO r.cO (fpModOf m)
  | 0x8E => .dcvt h r.dO r.aO (cvtModOf r) (bitAt r.imm 0)
  | 0x8F => .sdiv h r.dO r.aO r.bO (scalarModOf m)
  | 0x90 => .ld h r.dO r.aO r.bO r.imm (memModOf m)
  | 0x91 => .st h r.aO r.bO r.cO r.off (memModOf m)
  | 0x92 => .sld h r.dO r.aO r.imm (memModOf m)
  | 0x93 => .sst h r.aO r.cO r.off (memModOf m)
  | 0x94 => .pref h r.aO r.bO r.imm (memModOf m)
  | 0x95 => .cflush h r.aO r.bO r.imm (scopeOfNat (bitsNat m 0 3))
  | 0x96 => .icinv h r.aO r.bO r.imm (scopeOfNat (bitsNat m 0 3))
  | 0xA0 => .atom h r.dO r.aO r.bO r.cO r.off (atomModOf m)
  | 0xA1 => .red h r.aO r.bO r.cO r.off (atomModOf m)
  | 0xA2 => .cas h r.dO r.aO r.bO r.cO r.off (atomModOf m)
  | 0xA3 => .dcas h r.dO r.aO r.imm (atomModOf m)
  | 0xA4 => .amove h r.dO r.aO r.imm (atomModOf m)
  | 0xA5 => .ald h r.dO r.aO r.bO r.imm (atomModOf m)
  | 0xA6 => .ast h r.aO r.bO r.cO r.off (atomModOf m)
  | 0xB0 =>
    .fence h (scopeOfNat (bitsNat m 0 3)) (bitAt m 3) (r.imm.extractLsb' 16 5) (r.imm.extractLsb' 8 6) (r.imm.extractLsb' 0 6)
  | 0xB1 => .drain h (scopeOfNat (bitsNat m 0 3))
  | 0xB2 => .bari h r.aO r.imm r.c (bitAt m 0)
  | 0xB3 => .barv h r.dO r.aO r.imm
  | 0xB4 => .barw h r.dO r.aO r.bO r.imm
  | 0xB5 => .barx h r.aO r.bO r.imm
  | 0xB6 => .gbar h r.dO
  | 0xB7 =>
    .wait h (r.imm.extractLsb' 18 6) (r.imm.extractLsb' 12 6) (r.imm.extractLsb' 6 6) (r.imm.extractLsb' 0 6)
  | 0xB8 => .tagw h r.dO r.aO (bitAt m 0)
  | 0xB9 => .tagf h r.dO r.aO (bitAt m 0)
  | 0xBA => .tagc h r.aO
  | 0xBB => .chopen h r.aO (m.extractLsb' 0 3)
  | 0xBC => .chst h r.aO r.bO r.cO r.off (m.extractLsb' 0 3) (bitAt m 3)
  | 0xBD => .chclose h (m.extractLsb' 0 3)
  | 0xBE => .time h r.dO
  | 0xC0 => .cpy h r.dO r.aO r.imm
  | 0xC1 => .cpyk h r.dO r.aO
  | 0xC2 => .xenc h r.dO r.aO (m.extractLsb' 0 2)
  | 0xC3 => .xdec h r.dO r.aO (m.extractLsb' 0 2)
  | 0xC4 => .gsub h r.dO r.aO r.imm (m.extractLsb' 0 4)
  | 0xD0 => .mma h r.dO r.aO r.bO r.cO (matModOf m)
  | 0xD1 => .mmasp h r.dO r.aO r.bO r.cO (matModOf m) (r.imm.extractLsb' 0 3)
  | 0xD2 => .mmax h r.dO r.aO r.bO r.cO (matModOf m)
  | 0xD3 => .mmacb h r.dO r.aO r.bO r.cO (matModOf m) (r.imm.extractLsb' 0 3) (r.imm.extractLsb' 4 3)
  | 0xD4 => .mcbld h r.aO (r.imm.extractLsb' 0 3)
  | 0xD5 => .mstt h r.aO r.cO (matModOf m) (r.imm.extractLsb' 0 3) (r.imm.extractLsb' 4 3)
  | 0xE0 => .spawn h r.dO r.aO r.imm
  | 0xE1 => .mbxrd h r.dO r.aO r.imm (bitAt m 0)
  | 0xE2 => .mbxfwd h r.dO r.aO r.imm (m.extractLsb' 0 3)
  | 0xE3 => .fetchb h
  | _ => .illegalOpcode r.opc

/-! ## The pair word (R74-R78) -/

/-- A slot value of a pair word (R74). -/
abbrev Slot44 := BitVec 44

def slotOpc (x : Slot44) : Nat := bitsNat x 0 8
def slotMod (x : Slot44) : BitVec 8 := x.extractLsb' 31 8

/-- A slot's A or B field: bit 6 names a scalar (R74). -/
def slotSrcOf (x : BitVec 7) : SlotSrc :=
  if bitAt x 6 then .s (Fin.ofNat 64 (bitsNat x 0 6)) else .v (Fin.ofNat 64 (bitsNat x 0 6))

def slotSrcCode : SlotSrc → BitVec 7
  | .v n => BitVec.ofNat 7 n.val
  | .s n => BitVec.ofNat 7 (64 + n.val)

/-- The slot opcodes of restriction 1 of R75 with their MOD. -/
def slotOpOf (opc : Nat) (m : BitVec 8) : Option SlotOp :=
  match opc with
  | 0x10 => some (.iadd (intModOf m))
  | 0x11 => some (.isub (intModOf m))
  | 0x12 => some (.imul (intModOf m))
  | 0x13 => some (.imulh (intModOf m))
  | 0x14 => some (.imad (intModOf m))
  | 0x15 => some (.idiv (intModOf m))
  | 0x16 => some (.irem (intModOf m))
  | 0x17 => some (.imin (intModOf m))
  | 0x18 => some (.imax (intModOf m))
  | 0x20 => some .and
  | 0x21 => some .or
  | 0x22 => some .xor
  | 0x23 => some .not
  | 0x24 => some .shl
  | 0x25 => some (.shr (bitAt m 0))
  | 0x30 => some (.fadd (fpModOf m))
  | 0x31 => some (.fsub (fpModOf m))
  | 0x32 => some (.fmul (fpModOf m))
  | 0x33 => some (.ffma (fpModOf m))
  | 0x34 => some (.fmin (fpModOf m))
  | 0x35 => some (.fmax (fpModOf m))
  | 0x40 => some (.hadd2 (halfModOf m))
  | 0x41 => some (.hmul2 (halfModOf m))
  | 0x42 => some (.hfma2 (halfModOf m))
  | 0x43 => some (.hmin2 (halfModOf m))
  | 0x44 => some (.hmax2 (halfModOf m))
  | 0x52 => some (.sel (Fin.ofNat 8 (bitsNat m 0 3)))
  | 0x55 => some .mov
  | _ => none

/-- The slot opcode and MOD of an operation (R75, R76). -/
def slotOpCode : SlotOp → BitVec 8 × BitVec 8
  | .iadd m => (0x10#8, intModCode m)
  | .isub m => (0x11#8, intModCode m)
  | .imul m => (0x12#8, intModCode m)
  | .imulh m => (0x13#8, intModCode m)
  | .imad m => (0x14#8, intModCode m)
  | .idiv m => (0x15#8, intModCode m)
  | .irem m => (0x16#8, intModCode m)
  | .imin m => (0x17#8, intModCode m)
  | .imax m => (0x18#8, intModCode m)
  | .and => (0x20#8, 0#8)
  | .or => (0x21#8, 0#8)
  | .xor => (0x22#8, 0#8)
  | .not => (0x23#8, 0#8)
  | .shl => (0x24#8, 0#8)
  | .shr s => (0x25#8, 0#7 ++ bit1 s)
  | .fadd m => (0x30#8, fpModCode m)
  | .fsub m => (0x31#8, fpModCode m)
  | .fmul m => (0x32#8, fpModCode m)
  | .ffma m => (0x33#8, fpModCode m)
  | .fmin m => (0x34#8, fpModCode m)
  | .fmax m => (0x35#8, fpModCode m)
  | .hadd2 m => (0x40#8, halfModCode m)
  | .hmul2 m => (0x41#8, halfModCode m)
  | .hfma2 m => (0x42#8, halfModCode m)
  | .hmin2 m => (0x43#8, halfModCode m)
  | .hmax2 m => (0x44#8, halfModCode m)
  | .sel c => (0x52#8, BitVec.ofNat 8 c.val)
  | .mov => (0x55#8, 0#8)

/-- The slot MOD limits: those of the opcode's own row, with MOD bits 2:0 a predicate for SEL (R76). -/
def slotModOk (x : Slot44) : Bool :=
  if slotOpc x = 0x52 then decide (slotMod x &&& 0xF8#8 = 0#8)
  else decide (slotMod x &&& ~~~(modMask (slotOpc x)) = 0#8)
    && (!(decide (0x30 ≤ slotOpc x) && decide (slotOpc x ≤ 0x44)) || rmOk (slotMod x))

/-- Stage 2 of a slot; the word bit of its bit 0 is `base`. A slot whose opcode restriction 1 does not permit has only its
reserved bits checked (R78). -/
def slotFieldStage (base : Nat) (x : Slot44) : Option Nat :=
  match slotOpOf (slotOpc x) (slotMod x) with
  | none => firstBad [(base + 41, decide (bitsNat x 41 3 = 0))]
  | some op =>
    firstBad [(base + 24, !op.oneSource || decide (bitsNat x 24 7 = 0)), (base + 31, slotModOk x),
      (base + 40, !op.oneSource || !bitAt x 40), (base + 41, decide (bitsNat x 41 3 = 0))]

/-- The slot of a checked slot value. -/
def slotInstrOf (op : SlotOp) (x : Slot44) : SlotInstr :=
  { op := op, guard := Fin.ofNat 8 (bitsNat x 8 3), d := Fin.ofNat 64 (bitsNat x 11 6),
    a := slotSrcOf (x.extractLsb' 17 7), b := slotSrcOf (x.extractLsb' 24 7), la := bitAt x 39, lb := bitAt x 40 }

/-- The slot value of a slot (R74). -/
def slotWord (x : SlotInstr) : Slot44 :=
  0#3 ++ (bit1 x.lb ++ (bit1 x.la ++ ((slotOpCode x.op).2 ++ (slotSrcCode x.b ++ (slotSrcCode x.a ++
    (BitVec.ofNat 6 x.d.val ++ (BitVec.ofNat 3 x.guard.val ++ (slotOpCode x.op).1)))))))

/-- ILLEGAL_OPCODE, ILLEGAL_OPERAND, ILLEGAL_FIELD and ILLEGAL_PAIR with their sr.tval (R78, R81). -/
def illOperand (bit : Nat) : Illegal := { cause := 2#8, tval := BitVec.ofNat 64 bit }
def illField (bit : Nat) : Illegal := { cause := 3#8, tval := BitVec.ofNat 64 bit }
def illPair (k : Nat) : Illegal := { cause := 4#8, tval := BitVec.ofNat 64 k }

/-- Decoding of a pair word: the field stage of X, then of Y, and the pair stage. Its operand fields hold registers only,
so its operand stage finds nothing (R74). -/
def decodePair (w : IWord) : Except Illegal Instr :=
  let x : Slot44 := w.extractLsb' 8 44
  let y : Slot44 := w.extractLsb' 52 44
  match slotFieldStage 8 x with
  | some bit => .error (illField bit)
  | none =>
    match slotFieldStage 52 y with
    | some bit => .error (illField bit)
    | none =>
      match slotOpOf (slotOpc x) (slotMod x), slotOpOf (slotOpc y) (slotMod y) with
      | some ox, some oy =>
        match pairBreaks (slotInstrOf ox x) (slotInstrOf oy y) with
        | some k => .error (illPair k)
        | none => .ok (.pair (slotInstrOf ox x) (slotInstrOf oy y))
      | _, _ => .error (illPair 1)

/-- Decoding (R78). A word of an unassigned opcode and UDF are the instructions whose meaning is ILLEGAL_OPCODE (R72, R73). -/
def decode (w : IWord) : Except Illegal Instr :=
  let r := rawOfWord w
  if r.opc = 0x0D#8 then .ok .udf
  else if !assignedOpc r.opc.toNat then .ok (.illegalOpcode r.opc)
  else if r.opc = 0xFF#8 then decodePair w
  else
    match fieldStage r with
    | some bit => .error (illField bit)
    | none =>
      match operandStage r with
      | some bit => .error (illOperand bit)
      | none => .ok (instrOfRaw r)

/-! ## Words in bytes, and the opcode table's words -/

/-- The 12 bytes of a word as stored, lowest address first (R4, R50). -/
def wordBytes (w : IWord) : List Byte := (List.range 12).map fun k => w.extractLsb' (8 * k) 8

/-- The word that 12 bytes hold, lowest address first; missing bytes are 0. -/
def wordOfBytes : List Byte → IWord
  | [] => 0#96
  | b :: rest => (wordOfBytes rest <<< 8) ||| b.setWidth 96

/-- The instruction that the decoder reads from a word given as the opcode table numbers its bits; `nbits` bits are given
and every bit above is 0. -/
def decodeTableWord (nbits w : Nat) : Option Instr :=
  match decode (wordOfBytes (wordBytes (BitVec.ofNat 96 (w % 2 ^ nbits)))) with
  | .ok i => some i
  | .error _ => none

/-! ## Admin command entries (R473, R474) -/

/-- The command of an entry by its OPCODE. -/
def decodeAdmin (e : BitVec 512) : Instr :=
  match entryOpcode e with
  | 0x01 => .create e | 0x02 => .activate e | 0x03 => .preempt e | 0x04 => .destroy e | 0x05 => .load e | 0x06 => .unload e
  | 0x07 => .qcreate e | 0x08 => .qreset e | 0x09 => .qdestroy e | 0x0A => .migrate e | 0x0B => .bias e
  | 0x0C => .shootdown e | 0x0D => .seed e | 0x0E => .devset e | 0x10 => .healthrd e | 0x11 => .faultsum e
  | 0x12 => .safetier e | 0x13 => .checkpoint e | 0x14 => .restore e | 0x15 => .powercap e | 0x16 => .attest e
  | 0x17 => .keybind e | 0x18 => .fwupdate e | _ => .adminUnknownOpcode e

/-! ## The encoder -/

/-- IMM of an instruction whose immediate stands in operand fields: the value of the first field that holds 0xE1. -/
def immOf : List Opnd → BitVec 32
  | [] => 0#32
  | o :: rest =>
    match o with
    | .imm x => x
    | _ => immOf rest

/-- A word of the opcode with the head's fields, every operand field 0xE0, and MOD and IMM zero. -/
def headRaw (h : Head) (opc : BitVec 8) : Raw :=
  { opc := opc, guard := bit1 h.guard.neg ++ BitVec.ofNat 3 h.guard.p.val, d := 0xE0#8, a := 0xE0#8, b := 0xE0#8,
    c := 0xE0#8, mod := 0#8, imm := 0#32, la := bit1 h.la, lb := bit1 h.lb, lc := bit1 h.lc, yld := bit1 h.yld,
    stall := h.stall, rsv := 0#4 }

def raw1 (h : Head) (opc : BitVec 8) (d a : Opnd) (mod : BitVec 8) : Raw :=
  { headRaw h opc with d := opndCode d, a := opndCode a, mod := mod, imm := immOf [a] }

def raw2 (h : Head) (opc : BitVec 8) (d a b : Opnd) (mod : BitVec 8) : Raw :=
  { headRaw h opc with d := opndCode d, a := opndCode a, b := opndCode b, mod := mod, imm := immOf [a, b] }

def raw3 (h : Head) (opc : BitVec 8) (d a b c : Opnd) (mod : BitVec 8) : Raw :=
  { headRaw h opc with
      d := opndCode d, a := opndCode a, b := opndCode b, c := opndCode c, mod := mod, imm := immOf [a, b, c] }

/-- An instruction with an A operand and no D. -/
def rawA (h : Head) (opc : BitVec 8) (a : Opnd) (mod : BitVec 8) : Raw :=
  { headRaw h opc with a := opndCode a, mod := mod, imm := immOf [a] }

/-- An instruction D, [A + IMM]. -/
def rawOff (h : Head) (opc : BitVec 8) (d a : Opnd) (off : BitVec 32) (mod : BitVec 8) : Raw :=
  { headRaw h opc with d := opndCode d, a := opndCode a, mod := mod, imm := off }

/-- A conversion: B holds the source format code (R65). -/
def rawCvt (h : Head) (opc : BitVec 8) (d a c : Opnd) (m : CvtMod) (imm : BitVec 32) : Raw :=
  { headRaw h opc with
      d := opndCode d, a := opndCode a, b := BitVec.ofNat 8 m.sfmt.code, c := opndCode c, mod := cvtModCode m, imm := imm }

/-- A store [A + B + IMM], C: IMM is the offset, or the data when C is an immediate (R275). -/
def rawStore (h : Head) (opc : BitVec 8) (d a b c : Opnd) (off : BitVec 32) (mod : BitVec 8) : Raw :=
  { headRaw h opc with
      d := opndCode d, a := opndCode a, b := opndCode b, c := opndCode c, mod := mod,
      imm := match c with
        | .imm x => x
        | _ => off }

/-- A 3-bit value in the low bits of MOD. -/
def mod3 (x : BitVec 3) : BitVec 8 := 0#5 ++ x

/-- A scope in MOD bits 2:0. -/
def modScope (s : Scope) : BitVec 8 := 0#5 ++ BitVec.ofNat 3 (scopeNum s)

/-- The fields of an instruction word; none for a pair, and for a step of the device, which has no word. -/
def rawOf : Instr → Option Raw
  | .nop h => some (headRaw h 0x00#8)
  | .bra h t j => some { headRaw h 0x01#8 with imm := j ++ t }
  | .jmpOffset h t => some { headRaw h 0x02#8 with imm := 0#16 ++ t }
  | .jmpScalar h a => some { headRaw h 0x02#8 with a := opndCode a }
  | .jmpi h a b n j => some { headRaw h 0x03#8 with a := opndCode a, b := opndCode b, c := n, imm := j ++ 0#16 }
  | .join h => some (headRaw h 0x04#8)
  | .callOffset h d t => some { headRaw h 0x05#8 with d := opndCode d, imm := 0#16 ++ t }
  | .callScalar h d a => some { headRaw h 0x05#8 with d := opndCode d, a := opndCode a }
  | .ret h a => some { headRaw h 0x06#8 with a := opndCode a }
  | .exit h => some (headRaw h 0x07#8)
  | .trap h a => some (rawA h 0x08#8 a 0#8)
  | .eret h => some (headRaw h 0x09#8)
  | .yield h => some (headRaw h 0x0A#8)
  | .sleep h a => some (rawA h 0x0B#8 a 0#8)
  | .brk h code => some { headRaw h 0x0C#8 with imm := 0#16 ++ code }
  | .udf => some (headRaw { guard := { neg := false, p := 7 }, la := false, lb := false, lc := false, yld := false, stall := 0#4 } 0x0D#8)
  | .illegalOpcode o => some (headRaw { guard := { neg := false, p := 7 }, la := false, lb := false, lc := false, yld := false, stall := 0#4 } o)
  | .pair _ _ => none
  | .iadd h d a b m => some (raw2 h 0x10#8 d a b (intModCode m))
  | .isub h d a b m => some (raw2 h 0x11#8 d a b (intModCode m))
  | .imul h d a b m => some (raw2 h 0x12#8 d a b (intModCode m))
  | .imulh h d a b m => some (raw2 h 0x13#8 d a b (intModCode m))
  | .imad h d a b c m => some (raw3 h 0x14#8 d a b c (intModCode m))
  | .idiv h d a b m => some (raw2 h 0x15#8 d a b (intModCode m))
  | .irem h d a b m => some (raw2 h 0x16#8 d a b (intModCode m))
  | .imin h d a b m => some (raw2 h 0x17#8 d a b (intModCode m))
  | .imax h d a b m => some (raw2 h 0x18#8 d a b (intModCode m))
  | .iabs h d a sat => some (raw1 h 0x19#8 d a (intModCode { signed := false, sat := sat }))
  | .ineg h d a sat => some (raw1 h 0x1A#8 d a (intModCode { signed := false, sat := sat }))
  | .idot4 h d a b c m => some (raw3 h 0x1B#8 d a b c (intModCode m))
  | .andB h d a b => some (raw2 h 0x20#8 d a b 0#8)
  | .orB h d a b => some (raw2 h 0x21#8 d a b 0#8)
  | .xorB h d a b => some (raw2 h 0x22#8 d a b 0#8)
  | .notB h d a => some (raw1 h 0x23#8 d a 0#8)
  | .shl h d a b => some (raw2 h 0x24#8 d a b 0#8)
  | .shr h d a b s => some (raw2 h 0x25#8 d a b (0#7 ++ bit1 s))
  | .rot h d a b => some (raw2 h 0x26#8 d a b 0#8)
  | .bfe h d a b s => some (raw2 h 0x27#8 d a b (0#7 ++ bit1 s))
  | .bfi h d a b c => some (raw3 h 0x28#8 d a b c 0#8)
  | .popc h d a => some (raw1 h 0x29#8 d a 0#8)
  | .clz h d a => some (raw1 h 0x2A#8 d a 0#8)
  | .brev h d a => some (raw1 h 0x2B#8 d a 0#8)
  | .bmix h d a b c t => some (raw3 h 0x2C#8 d a b c t)
  | .bpick h d a b c f => some (raw3 h 0x2D#8 d a b c (0#4 ++ f))
  | .fadd h d a b m => some (raw2 h 0x30#8 d a b (fpModCode m))
  | .fsub h d a b m => some (raw2 h 0x31#8 d a b (fpModCode m))
  | .fmul h d a b m => some (raw2 h 0x32#8 d a b (fpModCode m))
  | .ffma h d a b c m => some (raw3 h 0x33#8 d a b c (fpModCode m))
  | .fmin h d a b m => some (raw2 h 0x34#8 d a b (fpModCode m))
  | .fmax h d a b m => some (raw2 h 0x35#8 d a b (fpModCode m))
  | .frcp h d a m => some (raw1 h 0x36#8 d a (fpModCode m))
  | .frsq h d a m => some (raw1 h 0x37#8 d a (fpModCode m))
  | .fsqrt h d a m => some (raw1 h 0x38#8 d a (fpModCode m))
  | .fdiv h d a b m => some (raw2 h 0x39#8 d a b (fpModCode m))
  | .fexp2 h d a m => some (raw1 h 0x3A#8 d a (fpModCode m))
  | .flog2 h d a m => some (raw1 h 0x3B#8 d a (fpModCode m))
  | .fsin h d a m => some (raw1 h 0x3C#8 d a (fpModCode m))
  | .fcos h d a m => some (raw1 h 0x3D#8 d a (fpModCode m))
  | .ftanh h d a m => some (raw1 h 0x3E#8 d a (fpModCode m))
  | .fclass h d a => some (raw1 h 0x3F#8 d a 0#8)
  | .hadd2 h d a b m => some (raw2 h 0x40#8 d a b (halfModCode m))
  | .hmul2 h d a b m => some (raw2 h 0x41#8 d a b (halfModCode m))
  | .hfma2 h d a b c m => some (raw3 h 0x42#8 d a b c (halfModCode m))
  | .hmin2 h d a b m => some (raw2 h 0x43#8 d a b (halfModCode m))
  | .hmax2 h d a b m => some (raw2 h 0x44#8 d a b (halfModCode m))
  | .hdot2 h d a b c m => some (raw3 h 0x45#8 d a b c (halfModCode m))
  | .cvt h d a m => some (rawCvt h 0x48#8 d a .zero m (immOf [a]))
  | .cvtpk h d a c m el => some (rawCvt h 0x49#8 d a c m (0#29 ++ el))
  | .cvtup h d a m el => some (rawCvt h 0x4A#8 d a .zero m (0#29 ++ el))
  | .mxq h d a c m => some (rawCvt h 0x4B#8 d a c m 0#32)
  | .mxdq h d a c m => some (rawCvt h 0x4C#8 d a c m (immOf [c]))
  | .cblu h d a m el sl => some (rawCvt h 0x4D#8 d a .zero m (0#25 ++ (sl ++ (0#1 ++ el))))
  | .srseed h a => some (rawA h 0x4E#8 a 0#8)
  | .isetp h d a b s c => some (raw2 h 0x50#8 d a b (scalarModCode { signed := s, sat := false, w64 := false } (BitVec.ofNat 3 (condNum c))))
  | .fsetp h d a b na nb c => some (raw2 h 0x51#8 d a b (0#2 ++ (bit1 nb ++ (bit1 na ++ BitVec.ofNat 4 (fcondNum c)))))
  | .sel h d a b c => some (raw3 h 0x52#8 d a b c 0#8)
  | .pmix h d a b c t => some (raw3 h 0x53#8 d a b c t)
  | .pmov h d a => some (raw1 h 0x54#8 d a 0#8)
  | .mov h d a => some (raw1 h 0x55#8 d a 0#8)
  | .shfl h d a b m => some (raw2 h 0x60#8 d a b (BitVec.ofNat 8 (shflNum m)))
  | .nbr h d a b r => some (raw2 h 0x61#8 d a b (0#7 ++ bit1 r))
  | .vote h d a m => some (raw1 h 0x62#8 d a (BitVec.ofNat 8 (voteNum m)))
  | .reduce h d a op => some (raw1 h 0x63#8 d a (BitVec.ofNat 8 (redNum op)))
  | .scan h d a op x => some (raw1 h 0x64#8 d a (0#3 ++ (bit1 x ++ BitVec.ofNat 4 (redNum op))))
  | .matchLanes h d a all => some (raw1 h 0x65#8 d a (0#7 ++ bit1 all))
  | .bcast h d a b => some (raw2 h 0x66#8 d a b 0#8)
  | .part h c => some { headRaw h 0x67#8 with mod := mod3 c }
  | .coalesce h d a => some (raw1 h 0x70#8 d a 0#8)
  | .runs h d a x => some (raw1 h 0x71#8 d a (0#7 ++ bit1 x))
  | .runget h d a b => some (raw2 h 0x72#8 d a b 0#8)
  | .runapp h d a b first last => some (raw2 h 0x73#8 d a b (0#6 ++ (bit1 last ++ bit1 first)))
  | .rbudget h d => some { headRaw h 0x74#8 with d := opndCode d }
  | .rspill h a c off free => some { headRaw h 0x75#8 with a := opndCode a, c := opndCode c, imm := off, mod := 0#7 ++ bit1 free }
  | .rfill h d a off => some (rawOff h 0x76#8 d a off 0#8)
  | .sadd h d a b m => some (raw2 h 0x80#8 d a b (scalarModCode m 0#3))
  | .ssub h d a b m => some (raw2 h 0x81#8 d a b (scalarModCode m 0#3))
  | .smul h d a b m => some (raw2 h 0x82#8 d a b (scalarModCode m 0#3))
  | .smulh h d a b m => some (raw2 h 0x83#8 d a b (scalarModCode m 0#3))
  | .smix h d a b c t => some (raw3 h 0x84#8 d a b c t)
  | .sshf h d a b m => some (raw2 h 0x85#8 d a b (scalarModCode m 0#3))
  | .scmp h d a b m c => some (raw2 h 0x86#8 d a b (scalarModCode m (BitVec.ofNat 3 (condNum c))))
  | .smov h d a => some (raw1 h 0x87#8 d a 0#8)
  | .smovh h d a b => some (raw2 h 0x88#8 d a b 0#8)
  | .srd h d a => some (raw1 h 0x89#8 d a 0#8)
  | .swr h d a => some (raw1 h 0x8A#8 d a 0#8)
  | .dadd h d a b m => some (raw2 h 0x8B#8 d a b (fpModCode m))
  | .dmul h d a b m => some (raw2 h 0x8C#8 d a b (fpModCode m))
  | .dfma h d a b c m => some (raw3 h 0x8D#8 d a b c (fpModCode m))
  | .dcvt h d a m w => some (rawCvt h 0x8E#8 d a .zero m (0#31 ++ bit1 w))
  | .sdiv h d a b m => some (raw2 h 0x8F#8 d a b (scalarModCode m 0#3))
  | .ld h d a b off m => some { rawOff h 0x90#8 d a off (memModCode m) with b := opndCode b }
  | .st h a b c off m => some (rawStore h 0x91#8 .zero a b c off (memModCode m))
  | .sld h d a off m => some (rawOff h 0x92#8 d a off (memModCode m))
  | .sst h a c off m => some (rawStore h 0x93#8 .zero a .zero c off (memModCode m))
  | .pref h a b off m => some { rawOff h 0x94#8 .zero a off (memModCode m) with b := opndCode b }
  | .cflush h a b off s => some { rawOff h 0x95#8 .zero a off (modScope s) with b := opndCode b }
  | .icinv h a b off s => some { rawOff h 0x96#8 .zero a off (modScope s) with b := opndCode b }
  | .atom h d a b c off m => some (rawStore h 0xA0#8 d a b c off (atomModCode m))
  | .red h a b c off m => some (rawStore h 0xA1#8 .zero a b c off (atomModCode m))
  | .cas h d a b c off m => some (rawStore h 0xA2#8 d a b c off (atomModCode m))
  | .dcas h d a off m => some (rawOff h 0xA3#8 d a off (atomModCode m))
  | .amove h d a off m => some (rawOff h 0xA4#8 d a off (atomModCode m))
  | .ald h d a b off m => some { rawOff h 0xA5#8 d a off (atomModCode m) with b := opndCode b }
  | .ast h a b c off m => some (rawStore h 0xA6#8 .zero a b c off (atomModCode m))
  | .fence h s dir die succ pred =>
    some { headRaw h 0xB0#8 with
      mod := 0#4 ++ (bit1 dir ++ BitVec.ofNat 3 (scopeNum s)), imm := 0#11 ++ (die ++ (0#2 ++ (succ ++ (0#2 ++ pred)))) }
  | .drain h s => some { headRaw h 0xB1#8 with mod := modScope s }
  | .bari h a off n f => some { rawOff h 0xB2#8 .zero a off (0#7 ++ bit1 f) with c := n }
  | .barv h d a off => some (rawOff h 0xB3#8 d a off 0#8)
  | .barw h d a b off => some { rawOff h 0xB4#8 d a off 0#8 with b := opndCode b }
  | .barx h a b off => some { rawOff h 0xB5#8 .zero a off 0#8 with b := opndCode b }
  | .gbar h d => some { headRaw h 0xB6#8 with d := opndCode d }
  | .wait h tl cp st ld => some { headRaw h 0xB7#8 with imm := 0#8 ++ (tl ++ (cp ++ (st ++ ld))) }
  | .tagw h d a all => some (raw1 h 0xB8#8 d a (0#7 ++ bit1 all))
  | .tagf h d a clr => some (raw1 h 0xB9#8 d a (0#7 ++ bit1 clr))
  | .tagc h a => some (rawA h 0xBA#8 a 0#8)
  | .chopen h a ch => some (rawA h 0xBB#8 a (mod3 ch))
  | .chst h a b c off ch w => some (rawStore h 0xBC#8 .zero a b c off (0#4 ++ (bit1 w ++ ch)))
  | .chclose h ch => some { headRaw h 0xBD#8 with mod := mod3 ch }
  | .time h d => some { headRaw h 0xBE#8 with d := opndCode d }
  | .cpy h d a off => some (rawOff h 0xC0#8 d a off 0#8)
  | .cpyk h d a => some (raw1 h 0xC1#8 d a 0#8)
  | .xenc h d a r => some (raw1 h 0xC2#8 d a (0#6 ++ r))
  | .xdec h d a r => some (raw1 h 0xC3#8 d a (0#6 ++ r))
  | .gsub h d a off sq => some (rawOff h 0xC4#8 d a off (0#4 ++ sq))
  | .mma h d a b c m => some (raw3 h 0xD0#8 d a b c (matModCode m))
  | .mmasp h d a b c m sl => some { raw3 h 0xD1#8 d a b c (matModCode m) with imm := 0#29 ++ sl }
  | .mmax h d a b c m => some (raw3 h 0xD2#8 d a b c (matModCode m))
  | .mmacb h d a b c m sa sb => some { raw3 h 0xD3#8 d a b c (matModCode m) with imm := 0#25 ++ (sb ++ (0#1 ++ sa)) }
  | .mcbld h a sl => some { rawA h 0xD4#8 a 3#8 with imm := 0#29 ++ sl }
  | .mstt h a c m ch role => some { headRaw h 0xD5#8 with a := opndCode a, c := opndCode c, mod := matModCode m, imm := 0#25 ++ (role ++ (0#1 ++ ch)) }
  | .spawn h d a off => some (rawOff h 0xE0#8 d a off 0#8)
  | .mbxrd h d a off w => some (rawOff h 0xE1#8 d a off (0#7 ++ bit1 w))
  | .mbxfwd h d a off die => some (rawOff h 0xE2#8 d a off (mod3 die))
  | .fetchb h => some (headRaw h 0xE3#8)
  | _ => none

/-- The word of an instruction; none for a step of the device. -/
def encode (i : Instr) : Option IWord :=
  match i with
  | .pair x y => some (slotWord y ++ (slotWord x ++ 0xFF#8))
  | _ => (rawOf i).map wordOfRaw

end Sys2Proof
end

