-- ==== Sys2Proof/Machine/State.lean ====
section
/-!
DEFINITION. The state of a TVD7-P as plain data: gangs and their registers, blocks and groups, the storage hierarchy,
copy engines, kernels, queues, contexts, links, the guest socket and the security controller, with the machine right
after package reset. Sparse parts of the device are lists of records, one per unit that holds anything; a unit that is
not listed is as it is after reset.
-/
namespace Sys2Proof.Machine

/-! ## Registers and runs (04_registers) -/

/-- A run: a value standing for `count` consecutive lanes, with its poison bit (R87). -/
structure Run where
  value : Word
  count : Nat
  poison : Bool
  deriving DecidableEq, Repr

/-- A vector register: dead (`none`, R92), or a run list; a list shorter than 32 lanes is an open register (R105). -/
abbrev VReg := Option (List Run)

/-- A scalar register, which can be dead (R83). -/
abbrev SVal := Option DWord

/-- Kinds of a divergence-stack entry (R210). -/
inductive EntryKind where
  | dead | path | join
  deriving DecidableEq, Repr

/-- One entry of the divergence stack (R210). `link` is the JOIN index of a PATH, or the outstanding count of a JOIN. -/
structure Entry where
  kind : EntryKind
  pc : BitVec 32
  mask : Mask
  link : Nat
  parent : Option Nat
  deriving DecidableEq, Repr

def Entry.dead : Entry := { kind := .dead, pc := 0, mask := 0, link := 0, parent := none }

/-- What an instruction that has to wait still owes when its wait ends: its scalar destination and the registers that
its last-read bits mark dead (R59). -/
structure Retire where
  d : Opnd
  kills : List Opnd
  deriving DecidableEq, Repr

/-- Why a live PC slot is not ready (R209): each constructor is the wait of one instruction. -/
inductive Wait where
  /-- not waiting -/
  | none
  /-- SLEEP until the tick (R222) -/
  | sleep (deadline : Nat) (r : Retire)
  /-- BARW on the word at a scratchpad position of a core, for the phase of its token (R238) -/
  | barw (die core addr : Nat) (phase : Bool) (r : Retire)
  /-- GBAR at a grid phase that its release still holds back (R253) -/
  | gbarRelease (id phase : Nat) (r : Retire)
  /-- GBAR arrived at a grid phase (R241) -/
  | gbar (phase : Nat) (r : Retire)
  /-- WAIT for counters (R248) -/
  | limits (tl cp st ld : Nat) (r : Retire)
  /-- TAGW (R244) -/
  | tagw (all : Bool) (m : DWord) (r : Retire)
  /-- MBXRD.WAIT on an empty mailbox (R224): it goes on once a packet is posted -/
  | mailbox
  /-- an instruction that goes on once its release task is done (FENCE, DRAIN, SPAWN, MBXFWD, CPY, GSUB, CFLUSH) -/
  | task (id : Nat)
  /-- a gang counter or the engine is full (R247, R344) -/
  | full
  /-- an older instruction of the gang is not performed, or may still trap (R97, R262, R479) -/
  | order
  /-- a page walk, a fetch of code or a post, asked for at a tick, cannot reach a home, or with 24 + d compute die d, or with 32 the
  fabric (R424, R426): the instruction executes again once it can -/
  | walk (since home : Nat)
  deriving DecidableEq, Repr

/-- A PC slot (R199). `stamp` is its age stamp, the tick at which it last issued or became live (R209), and `op` the number of its
last issue, by which instructions are older or younger. -/
structure Slot where
  live : Bool
  pc : BitVec 32
  mask : Mask
  join : Option Nat
  stamp : Nat
  op : Nat
  wait : Wait
  deriving DecidableEq, Repr

def Slot.free : Slot := { live := false, pc := 0, mask := 0, join := none, stamp := 0, op := 0, wait := .none }

/-- Gang states (R200): HALTED is `Gang.halted`, and a gang that has ENDED or been KILLED is not listed. -/
inductive GState where
  | running | trap
  deriving DecidableEq, Repr

/-- The entry frame that trap entry saves (R409), with the offset of the trapping instruction (R415). -/
structure Frame where
  pc : BitVec 32
  mask : Mask
  join : Option Nat
  sp : Nat
  deriving DecidableEq, Repr

/-- Everything of a gang that an instruction reads and writes and that a precise trap gives back (R91, R97): the
registers, the special registers with their own storage, the PC slots, the divergence stack and the run accounts. -/
structure Arch where
  v : Vector VReg 64
  s : Vector SVal 64
  /-- p0-p6; p7 is a constant -/
  p : Vector Mask 7
  /-- scalar and predicate registers that an uncorrectable error has reached, by index (R457, R460) -/
  sPoison : BitVec 64
  pPoison : BitVec 8
  flags : BitVec 8
  fpmode : BitVec 10
  nanc : BitVec 32
  part : BitVec 3
  /-- stochastic-rounding generator of each lane (R120) -/
  gen : Vector Word 32
  mode : GState
  slotA : Slot
  slotB : Slot
  sp : Nat
  stack : Vector Entry 64
  /-- K, the reserve excess kept at the last ERET (R95) -/
  kept : Nat
  /-- Br, the borrowed slots (R95) -/
  borrowed : Nat
  /-- slots reserved at issue by matrix instructions whose results are not written yet (R359) -/
  reserved : Nat
  /-- run slots that instructions issued behind one that may still trap have taken and released in the registers, and which the accounts
  do not count yet: they are settled in issue order (R91, R95, R96) -/
  lateTaken : Nat
  lateFreed : Nat
  tcause : BitVec 8
  tpc : BitVec 64
  tval : BitVec 64
  tlane : BitVec 5
  tslot : PcSlot
  frame : Frame
  /-- in trap mode: the gang runs in the TVEC kernel's code (R408) -/
  inTvec : Bool
  /-- set at trap entry, cleared when the handler's first instruction issues (R410) -/
  trapGate : Bool
  /-- after ERET to the trapping instruction: its PC and the lanes below sr.tlane of its first issue (R415) -/
  resume : Option (PcSlot × BitVec 32 × BitVec 5)
  /-- count of GBAR arrivals (R241) -/
  gbars : Nat
  /-- a checker error that the gang's next instruction meets: unit and checker codes (R458) -/
  pipeErr : Option (Nat × Nat)
  deriving DecidableEq, Repr

/-- What a posted write was, for the instructions that wait for it (R266, R285): a store, RED or AST of class W, an NT store, a channel's
store. -/
inductive PostClass where
  | store | red | nt | channel
  deriving DecidableEq, Repr

/-- A time-out or a lost home that a posted write of a gang has met: the operation, its class, the cause and its sr.tval (R276). -/
structure Posted where
  op : Nat
  cls : PostClass
  cause : BitVec 8
  tval : BitVec 64
  deriving DecidableEq, Repr

/-- A gang (R195, R199): its place, block, run budget, counters and architectural state. -/
structure Gang where
  id : GangId
  ctx : Nat
  block : Nat
  /-- sr.gang -/
  index : Nat
  dispatcher : Bool
  budget : Nat
  noborrow : Bool
  arch : Arch
  /-- the counters of R247 -/
  ld : Nat
  st : Nat
  cp : Nat
  tl : Nat
  leave : BitVec 64
  /-- tick before which the gang does not issue again (STALL, R60) -/
  stallEnd : Nat
  /-- the fetch buffer: up to 16 words by code offset, oldest first (R380) -/
  fetch : List (BitVec 32 × IWord)
  /-- the time-outs and lost homes that posted writes have met, raised at the next instruction that waits for the write (R276), and one
  met by a background fence (R267) -/
  posted : List Posted
  fenceFault : Option (BitVec 8 × BitVec 64)
  /-- HALTED: halted for pre-emption in the state that `arch.mode` holds (R200, R417) -/
  halted : Bool
  deriving DecidableEq, Repr

/-! ## Blocks, groups, launches (08_group) -/

/-- A failure with its rank among the failures of a launch (R198). -/
structure Failure where
  status : Nat
  cause : BitVec 8
  pc : BitVec 32
  tick : Nat
  die : Nat
  core : Nat
  /-- 0 gang, 1 copy job, 2 guest job -/
  kind : Nat
  sub : Nat
  seq : Nat
  deriving DecidableEq, Repr

inductive BlockState where
  | resident | abandoned | done | failed
  deriving DecidableEq, Repr

/-- A channel of a block (R435): closed, open to a memory die, or broken. -/
inductive Chan where
  | closed
  | opened (die : Nat)
  | broken (die : Nat)
  deriving DecidableEq, Repr

/-- A block placed on a core (R195, R196). -/
structure Block where
  uid : Nat
  ctx : Nat
  die : Nat
  core : Nat
  /-- the cluster group and the block's rank in it (sr.cluster) -/
  cgroup : Nat
  rank : Nat
  /-- the die group -/
  dgroup : Nat
  index : BitVec 32
  grid : BitVec 32
  /-- scratch allocation (R19, R372) -/
  base : Nat
  size : Nat
  /-- key of the kernel in the context -/
  kdesc : BitVec 64
  args : BitVec 64
  argLen : Nat
  state : BlockState
  fail : Option Failure
  chans : Vector Chan 8
  dispatcher : Bool
  /-- the gang places that it holds until it ends (R196) -/
  places : List GangId
  deriving DecidableEq, Repr

/-- States of a die group (R195, R197); `posted` is a share that no bind record carries yet. -/
inductive GroupState where
  | posted | bound | running | releasing | done | failed
  deriving DecidableEq, Repr

/-- A die group: the blocks of one token on one die (R195, R197). -/
structure DieGroup where
  uid : Nat
  ctx : Nat
  die : Nat
  token : BitVec 32
  launch : Option Nat
  state : GroupState
  /-- blocks of its share, or spawned into it, that no record has bound yet -/
  due : Nat
  /-- blocks bound and not ended yet -/
  left : Nat
  /-- bytes of the argument block -/
  argLen : Nat
  fail : Option Failure
  faults : Nat
  /-- the release task of its end (R197) -/
  task : Option Nat
  /-- refused as LAUNCH_TOO_LARGE (R204) -/
  tooLarge : Bool
  deriving DecidableEq, Repr

/-- A launch in progress (R393, R398, R401). -/
structure Launch where
  uid : Nat
  ctx : Nat
  queue : Nat
  pindex : BitVec 32
  packet : BitVec 512
  kdesc : BitVec 64
  grid : Nat
  argLen : Nat
  coop : Bool
  replay : Bool
  start : Nat
  /-- dies of the split whose group has not ended, and whether the launch is broken for GBAR (R242) -/
  dies : List Nat
  broken : Bool
  fail : Option Failure
  faults : Nat
  replays : Nat
  /-- the attempt failed with a status that is replayed, and waits for its rerun (R401) -/
  rerun : Bool
  deriving DecidableEq, Repr

/-- A bind record (R202). -/
structure BindRec where
  kdesc : BitVec 64
  args : BitVec 64
  next : BitVec 32
  left : Nat
  grid : BitVec 32
  token : BitVec 32
  cores : BitVec 128
  budget : Nat
  gangsM1 : Nat
  clustM1 : Nat
  scratch : Nat
  lastcl : Nat
  spread : Bool
  noborrow : Bool
  coop : Bool
  standing : Bool
  valid : Bool
  ctx : Nat
  argLen : Nat
  dgroup : Nat
  deriving DecidableEq, Repr

/-- A spawn request in a spawn queue (R223). -/
structure SpawnReq where
  kdesc : BitVec 64
  args : BitVec 64
  first : BitVec 32
  count : BitVec 32
  grid : BitVec 32
  token : BitVec 32
  argLen : Nat
  dgroup : Option Nat
  deriving DecidableEq, Repr

/-- A context's mailbox and spawn queue on one die (R206, R208). -/
structure Mailbox where
  die : Nat
  ctx : Nat
  packets : List (BitVec 32 × BitVec 512)
  /-- sequence number of the next post -/
  seq : BitVec 32
  spawnq : List SpawnReq
  deriving DecidableEq, Repr

/-! ## Storage (10_memory, 11_page) -/

/-- A cache line of 128 bytes under leases (R259, R260): `data` is what has been performed at the unit, `grantEnd` the latest lease end
that the unit has granted on the line, `seenAt` the tick at which the latest of its writes that are not visible yet becomes visible (0:
none), `leaseEnd` the end of the line's own lease, `dirty` the bytes not written outward (cluster caches), `policy` what its last access
said of its replacement (R264). -/
structure LeasedLine where
  line : Nat
  data : BitVec 1024
  grantEnd : Nat
  seenAt : Nat
  leaseEnd : Nat
  dirty : BitVec 128
  poison : BitVec 32
  policy : Policy
  deriving DecidableEq, Repr

/-- A store that is performed at its core's L1 and has not reached the cluster cache yet (R259, R261): the gang and the operation, the line,
the bytes and their values. -/
structure Through where
  gang : GangId
  op : Nat
  line : Nat
  mask : BitVec 128
  data : BitVec 1024
  policy : Policy
  deriving DecidableEq, Repr

/-- An instruction-cache line, or one whose fill is under way (R379). -/
structure ILine where
  ctx : Nat
  line : Nat
  data : BitVec 1024
  deriving DecidableEq, Repr

/-- A core's storage and shared units (R18, R117, R243, R259, R379). -/
structure CoreSt where
  die : Nat
  core : Nat
  tags : DWord
  codebooks : Vector (BitVec 256) 8
  /-- scratchpad bytes by position; unlisted positions hold 0 (R228) -/
  scratch : List Host.Cell
  /-- poisoned 4-byte words of the scratchpad -/
  scratchPoison : List Nat
  l1 : List LeasedLine
  icache : List ILine
  /-- fills under way, with what they have read so far (R383, R386) -/
  fills : List ILine
  /-- tick of the matrix array's last work, of the transform pipe's (R347, R361) -/
  matIdle : Nat
  xfIdle : Nat
  /-- PIPE_ERR ticks of the last second (R459) -/
  pipeErrs : List Nat
  deriving DecidableEq, Repr

/-- A scheduler's memory of the ticks at which it last issued a word, and one of a gang in TRAP (R209). -/
structure SchedSt where
  die : Nat
  core : Nat
  sched : Nat
  last : Nat
  prevTrap : Option Nat
  deriving DecidableEq, Repr

/-- A cluster cache and the cluster's copy engine: its next chain number, and the chain that it has walked last (R259, R342, R344). -/
structure ClusterSt where
  die : Nat
  cluster : Nat
  lines : List LeasedLine
  nextChain : BitVec 32
  lastWalk : Nat
  deriving DecidableEq, Repr

/-- RDC states of a sheet other than ABSENT (R297). -/
inductive SheetState where
  | clean | twinned | releasing
  deriving DecidableEq, Repr

/-- A sheet held in a die's RDC (R297, R298). `sheet` is its physical address divided by 256. -/
structure Sheet where
  sheet : Nat
  state : SheetState
  /-- which of the two lines are held -/
  held : BitVec 2
  work : BitVec 2048
  twin : BitVec 2048
  /-- words changed in the block in flight (R310) -/
  sent : BitVec 64
  /-- latest lease end granted to a cluster cache on each of its two lines -/
  grants : Nat × Nat
  /-- tick at which the latest of each line's writes that are not visible yet becomes visible (R260; 0: none) -/
  seen : Nat × Nat
  twinTick : Nat
  poison : BitVec 64
  deriving DecidableEq, Repr

/-- A difference block or fold-in (R303): the changed words of one span by word index 0-1023. -/
structure Diff where
  span : Nat
  source : Nat
  foldIn : Bool
  stamp : BitVec 32
  words : List (Nat × Word)
  deriving DecidableEq, Repr

/-- A message between dies that a later step takes. -/
inductive Msg where
  /-- a release block as it is sent (R303) -/
  | block (src home : Nat) (wire : List Byte)
  | marker (src home : Nat)
  | stampNotice (home die : Nat) (span : Nat) (stamp : BitVec 32)
  /-- `seq` orders it among what the home has sent to the die -/
  | atomicValue (home die core : Nat) (addr : Nat) (size : Nat) (value : DWord) (seq : Nat)
  | drop (die home page : Nat)
  deriving DecidableEq, Repr

inductive FwdStage where
  | sent | held | applied
  deriving DecidableEq, Repr

/-- A block or fold-in that a home has sent to a sharer die and that is not acknowledged (R306, R311). -/
structure Fwd where
  home : Nat
  die : Nat
  /-- the block as it is sent (R303) -/
  wire : List Byte
  /-- the releasing dies whose rounds wait for it -/
  round : List Nat
  /-- home-performed writes it folds in -/
  ops : List Nat
  stage : FwdStage
  /-- its place among what the home has sent to the die (R306) -/
  seq : Nat
  /-- once applied: the latest end of the cluster-cache leases then running on its lines, and of those leases and the L1 leases
  granted on the lines before that end (R311) -/
  until_ : Nat
  ackAt : Nat
  deriving DecidableEq, Repr

/-- A round acknowledgement that a home owes a releasing die (R302). -/
structure OwedAck where
  home : Nat
  die : Nat
  deriving DecidableEq, Repr

/-- A home-performed write not folded in yet (R313): its bytes, its tick and the operations it belongs to. -/
structure Unfolded where
  home : Nat
  addr : Nat
  size : Nat
  tick : Nat
  ops : List Nat
  deriving DecidableEq, Repr

/-- A release round of a die (R301, R302). -/
structure Round where
  full : Bool
  /-- release tasks that wait for it -/
  tasks : List Nat
  sheets : List Nat
  /-- homes whose acknowledgement is outstanding -/
  homes : List Nat
  /-- spans of its blocks with the home's stamp once known -/
  spans : List (Nat × Option (BitVec 32))
  start : Nat
  /-- first lost span of its blocks, and the lost homes that they name (R322) -/
  lostSpan : Option Nat
  lostHomes : List Nat
  timedOut : Bool
  deriving DecidableEq, Repr

/-- A translation a die has cached (R296). -/
structure TlbEntry where
  ctx : Nat
  base : Nat
  size : Nat
  entry : BitVec 64
  deriving DecidableEq, Repr

/-- States of a page at its home beside MAPPED and SHARED (R308). -/
inductive PageState where
  | normal | migrating | hostBiased
  deriving DecidableEq, Repr

/-- What a home keeps of a 64 KiB granule of a page (R307, R308). -/
structure HomePage where
  page : Nat
  sharers : BitVec 8
  state : PageState
  deriving DecidableEq, Repr

/-- A migration or bias change in progress (R317, R318). -/
structure Migration where
  ctx : Nat
  va : Nat
  size : Nat
  old : Nat
  new : Nat
  /-- some b: a bias change to b -/
  bias : Option Bool
  boundary : Nat
  shoot : Option Nat
  deriving DecidableEq, Repr

/-- A shootdown in progress (R319): its range, the dies that have not acknowledged, with the release that each waits for, whether the
guest has still to acknowledge, and whether a SHOOTDOWN command waits for it. -/
structure Shoot where
  id : Nat
  ctx : Nat
  first : Nat
  len : Nat
  tasks : List (Nat × Nat)
  guest : Option Nat
  admin : Bool
  deriving DecidableEq, Repr

/-! ## Pending accesses -/

/-- Where an access goes once translated (R256, R288, R289, R290). -/
inductive Target where
  | mem (pa : Nat) (hostBias : Bool)
  | scratch (die core pos : Nat)
  | bell (off : Nat)
  | remote (device addr : Nat)
  /-- nowhere yet: the walk needs a table at a home that no link of its route carries it to (R424, R426) -/
  | away (home : Nat)
  deriving DecidableEq, Repr

/-- One lane's access: lane number, address as computed, target, and for a write its bytes (low byte first) as a number. -/
structure LaneAcc where
  lane : Nat
  va : BitVec 64
  tgt : Target
  data : BitVec 128
  deriving DecidableEq, Repr

/-- The operation of an access performed at a home (R270, R281, R282). -/
inductive HomeOp where
  | atom (op : AOp) | red (op : AOp) | cas (cmp : List (Nat × DWord)) | ald | ast | nt (size : Nat)
  | channel (block ch : Nat)
  deriving DecidableEq, Repr

/-- A DCAS (`move` none) or AMOVE (`move` some: whether it clears the source) on its way to its homes, with its descriptor
and the descriptor's place in the scratchpad (R283). -/
structure PairOp where
  d : Opnd
  w64 : Bool
  scope : Scope
  move : Option Bool
  x : Target
  y : Target
  ex : DWord
  ey : DWord
  nx : DWord
  ny : DWord
  die : Nat
  core : Nat
  pos : Nat
  deriving DecidableEq, Repr

/-- What a load has read once its bytes are in, until every older instruction of the gang is known not to trap and it commits in
issue order (R91, R97): the lanes of LD or SLD with their poison, the runs of RFILL's image, its trap, or a consumed poison. -/
inductive Due where
  | lanes (size : Nat) (signed : Bool) (active : Mask) (l : List (Nat × Nat × Bool))
  | runs (l : List Run)
  | trap (cause : BitVec 8) (tval : BitVec 64)
  | kill
  deriving DecidableEq, Repr

/-- What an instruction that has issued behind one that may still trap does once none may (R91, R96, R97): its gang's run-slot accounts
follow, TAGC clears its tags, CPYK cuts its chain and answers. -/
inductive LateOp where
  | slots (taken freed : Nat)
  | tagc (m : DWord)
  | cpyk (d : Opnd) (token : DWord)
  deriving DecidableEq, Repr

/-- What an issued instruction still has to do (R247). -/
inductive PendKind where
  /-- LD, SLD: `size` bytes a lane; `signed` extension; `regs` destination registers for a vector load -/
  | load (d : Opnd) (size : Nat) (signed : Bool) (active : Mask) (accs : List LaneAcc) (policy : Policy)
  | rfill (d : Opnd) (die core pos : Nat)
  | due (d : Opnd) (r : Due)
  | store (size : Nat) (accs : List LaneAcc) (policy : Policy)
  /-- the spill image of RSPILL, or the tile of MSTT, written whole; poisoned words by offset -/
  | image (tile : Bool) (die core pos : Nat) (bytes : List Byte) (poison : List Nat)
  | home (h : HomeOp) (d : Opnd) (w64 : Bool) (scope : Scope) (active : Mask) (accs : List LaneAcc)
      (cuts : Mask) (counted : Bool)
  | barv (d : Opnd) (die core pos : Nat) (wait : List Nat)
  | xform (d : Opnd) (active : Mask) (lanes : List Word) (leave : Bool)
  /-- a matrix instruction: whether its tiles are read, where they lie, and its accumulator columns (first what it read at
  issue, with MMASP's two metadata registers after them, then its results) -/
  | mat (i : Instr) (fetched : Bool) (tiles : List Target) (cols : List (List Word))
  | dcas (x : PairOp)
  | late (x : LateOp)
  /-- an instruction that holds its slot in the middle of its work (FENCE, DRAIN, SPAWN, MBXRD.WAIT, MBXFWD, CPY, GSUB, CFLUSH), with the
  values that it has read, the lanes that were active at its issue, and whether it may still trap (R91-R93, R97) -/
  | begun (i : Instr) (vals : List DWord) (active : Mask) (risk : Bool)
  deriving DecidableEq, Repr

/-- An issued instruction that has not committed or performed: its gang, place, age, and the gang's state at its issue,
which a precise trap at it restores (R97). -/
structure Pend where
  op : Nat
  gang : GangId
  ctx : Nat
  slot : PcSlot
  pc : BitVec 32
  tick : Nat
  /-- the tick since which its requests are out: nothing older holds them (R426) -/
  sent : Option Nat
  kills : List Opnd
  /-- register codes its result will write: readers and writers of them wait (R60) -/
  dsts : List Nat
  ckpt : Arch
  kind : PendKind
  deriving DecidableEq, Repr

/-- 16 bytes of an operand tile that a matrix array has read early, before the rest of the tile (R366). -/
structure Sample where
  op : Nat
  tile : Nat
  unit : Nat
  value : BitVec 128
  poison : Bool
  deriving DecidableEq, Repr

/-- A home-performed write of a gang, until it is folded into every sharer (R265, R285): its bytes. -/
structure NtRec where
  op : Nat
  gang : GangId
  /-- an NT store or a RED, which DRAIN waits for -/
  drained : Bool
  accs : List (Nat × Nat)
  /-- of a channel's store: its block and channel (R439) -/
  chan : Option (Nat × Nat)
  deriving DecidableEq, Repr

/-- A sheet that a gang has written at its cluster cache or RDC and whose differences are not released yet, with the bytes
written; `sent` once they are in a round (R300, R265). -/
structure Wrote where
  gang : GangId
  op : Nat
  sheet : Nat
  bytes : BitVec 256
  sent : Bool
  deriving DecidableEq, Repr

/-- A release in progress: what it still waits for (R266, R267). Stages: 0 accesses, 1 visibility at the cluster,
2 flushed to the RDC, 3 home-performed writes, 4 round, 5 inbox, 6 done. -/
structure Task where
  id : Nat
  gang : Option GangId
  die : Nat
  clusters : List Nat
  scope : Scope
  stage : Nat
  ops : List Nat
  chains : List ChainId
  writes : Bool
  inbox : Bool
  /-- directed die of a FENCE with DIR 1 (R268) -/
  directed : Option Nat
  /-- the release does not complete before this tick (R274) -/
  notBefore : Nat
  /-- DRAIN: the operations must also be folded into every sharer (R285) -/
  folded : Bool
  /-- tick at which the writes that the present stage covers are visible (R261) -/
  seenAt : Nat
  /-- the tick since which its flush cannot fetch a line that it needs (R424, R426) -/
  stuck : Option Nat
  background : Bool
  fault : Option (BitVec 8 × BitVec 64)
  /-- only these physical ranges are flushed and released (CFLUSH, shootdown): first address and length -/
  range : Option (List (Nat × Nat))
  deriving DecidableEq, Repr

/-! ## Copy engines (12_engines) -/

/-- A chain's origin: a block, or a CHAIN packet (R344, R396). -/
inductive ChainOrigin where
  | block (uid : Nat) (gang : GangId)
  | packet (queue : Nat) (pindex : BitVec 32)
  deriving DecidableEq, Repr

/-- A LOOP that a walk is inside: its entry, passes made, body start and steps (R326). -/
structure LoopPass where
  entry : Nat
  target : Nat
  passes : Nat
  sstep : BitVec 64
  dstep : BitVec 64
  deriving DecidableEq, Repr

structure Chain where
  id : ChainId
  ctx : Nat
  origin : ChainOrigin
  /-- address of the entry that the walk has come to: a scratch address, or a virtual address in a packet's chain -/
  at_ : Nat
  drain : Bool
  last : Option Nat
  loops : List LoopPass
  /-- failed jobs and malformed entries, and the status of the first -/
  faults : Nat
  fail : Option Nat
  /-- CPYK has cut it short (R345) -/
  cut : Bool
  /-- the walk has run off its entries and waits for its jobs (R326) -/
  halted : Bool
  /-- the entry at the walk's place as it stood when its read began, and as it was read: its 64 bytes, and the next 64 if they are
  there (R326) -/
  begun : Option (BitVec 512 × Option (BitVec 512))
  seen : Option (BitVec 512 × Option (BitVec 512))
  /-- the tick at which every write of its jobs is visible at cluster scope, once they have ended (R240, R247) -/
  quietAt : Option Nat
  /-- the release at system scope that the end of a packet's chain waits for (R402) -/
  task : Option Nat
  deriving DecidableEq, Repr

inductive JobState where
  | accepted | started
  deriving DecidableEq, Repr

/-- A copy job (R327, R328): its card with shifted addresses. -/
structure Job where
  id : Nat
  chain : ChainId
  ctx : Nat
  entry : Nat
  card : BitVec 1024
  src : BitVec 64
  dst : BitVec 64
  aux : BitVec 64
  sshift : BitVec 64
  dshift : BitVec 64
  state : JobState
  /-- it has asked for leave (R342) -/
  leave : Bool
  cut : Bool
  /-- tick of its start -/
  tick : Nat
  /-- its progress (R330, R348): rows, tiles or elements done, the bytes of the next one that are read, and the pieces of it that are
  written -/
  unit : Nat
  got : List Byte
  put : Nat
  /-- domain REDs of an ALLREDUCE that wait in reduction rounds (R331) -/
  reds : List Nat
  /-- the tick since which a request of it to another die has no reply (R426) -/
  asked : Option Nat
  /-- the fault that it has met, a checker error's FAULT 4 among them (R329, R458) -/
  fault : Option (Nat × BitVec 64)
  deriving DecidableEq, Repr

/-- A request for power leave (R467): matrix array or transform pipe of a core, or a copy job. -/
inductive LeaveReq where
  | pend (op : Nat) (tick : Nat)
  | job (id : Nat) (tick : Nat)
  deriving DecidableEq, Repr

/-- A key slot of a die (R340, R474). -/
structure KeySlot where
  slot : Nat
  key : BitVec 256
  salt : BitVec 32
  ctx : Option Nat
  deriving DecidableEq, Repr

/-! ## Kernels, queues, contexts -/

inductive KernelState where
  | loaded | retiring
  deriving DecidableEq, Repr

/-- A loaded kernel with the device's own copy of its descriptor and liveness table (R370, R371, R377). -/
structure Kernel where
  ctx : Nat
  kdesc : BitVec 64
  code : BitVec 64
  const : BitVec 64
  ninstr : Nat
  constlen : Nat
  entry : BitVec 32
  trap : BitVec 32
  budget : Nat
  gangsM1 : Nat
  clustM1 : Nat
  scratch : Nat
  spread : Bool
  noborrow : Bool
  coop : Bool
  replay : Bool
  liveness : List (Nat × BitVec 64)
  state : KernelState
  deriving DecidableEq, Repr

inductive QState where
  | inactive | empty | ready | blocked | error
  deriving DecidableEq, Repr

/-- A packet taken and not complete, other than a LAUNCH's own record (R392-R396). -/
structure Taken where
  pindex : BitVec 32
  packet : BitVec 512
  start : Nat
  /-- the step that works on it has run -/
  begun : Bool
  deriving DecidableEq, Repr

/-- A queue (R388-R391). -/
structure Queue where
  num : Nat
  ctx : Nat
  ring : BitVec 64
  log2 : Nat
  tickets : Nat
  mask : BitVec 8
  status : BitVec 64
  ridx : BitVec 32
  bell : BitVec 32
  /-- DONE: lowest index not completed; completed indices at or above it -/
  done : BitVec 32
  doneSet : List (BitVec 32)
  state : QState
  err : Nat
  taken : List Taken
  destroying : Bool
  /-- its status block is to be written once its home can be reached (R16, R390) -/
  stale : Bool
  deriving DecidableEq, Repr

/-- A completion record due or written (R399, R400). -/
structure Record where
  start : Nat
  finish : Nat
  queue : Nat
  status : Nat
  pindex : BitVec 32
  pc : BitVec 32
  cause : BitVec 8
  faults : Nat
  kind : Nat
  replays : Nat
  now : Bool
  deriving DecidableEq, Repr

/-- States of a context (R407); `destroying` is one whose DESTROY still has records to write or accesses to end. -/
inductive CState where
  | created | active | preempting | saved | resuming | faulted | destroying
  deriving DecidableEq, Repr

/-- A context: the device's copy of its descriptor, its state and its event ring (R403, R407, R399). -/
structure Context where
  num : Nat
  root : BitVec 64
  dstack : BitVec 64
  tvec : BitVec 64
  dispatch : BitVec 64
  overflow : BitVec 64
  evring : BitVec 64
  clusters : BitVec 16
  diemask : BitVec 8
  evc : Nat
  evlog2 : Nat
  lease : Nat
  evu : Nat
  state : CState
  widx : BitVec 32
  ridx : BitVec 32
  /-- tick at which RIDX was last read (R399) -/
  polled : Nat
  due : List Record
  /-- write ticks of the records no interrupt covers yet -/
  unannounced : List Nat
  nowPending : Bool
  /-- pre-emption: step reached, and the tick the halt began (R417) -/
  phase : Nat
  haltTick : Nat
  task : List Nat
  shadowErr : Bool
  deriving DecidableEq, Repr

/-- What the shadow store holds of a SAVED context (R418). -/
structure Saved where
  ctx : Nat
  gangs : List Gang
  blocks : List Block
  cores : List CoreSt
  chains : List Chain
  jobs : List Job
  mailboxes : List Mailbox
  binds : List (Nat × Nat × BindRec)
  deriving DecidableEq, Repr

/-- What a checkpoint keeps of the contexts beside the bytes of the stacks (R466): the contexts, the saved ones' state, and their kernels,
queues, launches and die groups. -/
structure Image where
  contexts : List Context
  saved : List Saved
  kernels : List Kernel
  queues : List Queue
  launches : List Launch
  groups : List DieGroup
  deriving DecidableEq, Repr

/-! ## Links, domain, guest, security controller -/

inductive LinkState where
  | down | training | active | degraded | retraining | failed | disabled
  deriving DecidableEq, Repr

/-- A link (R422-R425). -/
structure Link where
  id : LinkId
  units : Nat
  trained : Nat
  state : LinkState
  since : Nat
  retrainings : List Nat
  /-- consecutive retries of one flit, and its sequence number -/
  retries : Nat
  retrySeq : BitVec 12
  nextSeq : BitVec 12
  expect : BitVec 12
  acked : BitVec 12
  /-- payload flits sent and not acknowledged, oldest first -/
  unacked : List (BitVec 12 × BitVec 1920)
  resend : List (BitVec 12)
  /-- retry requests sent to the other end, latest first -/
  asked : List (BitVec 12)
  credits : BitVec 32
  deriving DecidableEq, Repr

/-- A reduction round gathering in the fabric (R430). -/
structure RedRound where
  id : Nat
  addr : Nat
  win : RedWin
  op : AOp
  w64 : Bool
  parts : List (DWord × Option (GangId × Nat))
  first : Nat
  deriving DecidableEq, Repr

/-- A 4 KiB page granted to a guest job (R451): virtual and physical address, whether for writing, and the device that a
REMOTE page lies on. -/
structure GuestPage where
  va : Nat
  pa : Nat
  write : Bool
  device : Option Nat
  deriving DecidableEq, Repr

/-- A guest job (R445, R449). -/
structure GuestJob where
  sq : Nat
  seq : BitVec 16
  ctx : Nat
  gang : GangId
  block : Nat
  die : Nat
  core : Nat
  rindex : Nat
  /-- scratchpad position of the packet image -/
  image : Nat
  feet : List (BitVec 64)
  granted : List GuestPage
  /-- WRITEs that the guest holds no WRACK for -/
  writes : List Nat
  deriving DecidableEq, Repr

/-- The guest attachment as C4 keeps it (R444-R455). -/
structure Guest where
  /-- depths of the guest's queues (R444) -/
  depths : List Nat
  seqs : Vector (BitVec 16) 16
  jobs : List GuestJob
  /-- guest WRITEs performed and not acknowledged, with their headers -/
  writes : List (Nat × GuestHeader)
  /-- INVALs not acknowledged: body, tick, shootdown -/
  invals : List (BitVec 128 × Nat × Nat)
  /-- PREEMPTs not acknowledged: context, tick -/
  preempts : List (Nat × Nat)
  isolated : Bool
  digest : BitVec 512
  /-- bytes of the guest's payload stream that make no whole message yet, and its messages not taken, oldest first -/
  stream : List Byte
  inbox : List (GuestHeader × List Byte)
  /-- messages sent to the guest, latest first: header, poison mark, body -/
  out : List (GuestHeader × Bool × List Byte)
  /-- 64-byte units sent whose credit has not come back, oldest first: tick, and whether of a SUBMIT -/
  owed : List (Nat × Bool)
  deriving DecidableEq, Repr

/-- A health-log entry (R462). -/
structure HealthEntry where
  tick : Nat
  die : Nat
  kind : Nat
  unit : Nat
  count : Nat
  addr : Nat
  deriving DecidableEq, Repr

/-- The admin queue and the register page (R471, R472). -/
structure Admin where
  devid : BitVec 20
  bootst : Nat
  /-- the boot status with which boot ends, once its links have trained (R468) -/
  boot : Option Nat
  secver : BitVec 64
  aqbase : BitVec 64
  log2 : Nat
  enable : Bool
  aqtail : BitVec 32
  aqhead : BitVec 32
  acbase : BitVec 64
  achead : BitVec 32
  actail : BitVec 32
  /-- a long command that holds the queue: its entry (R475) -/
  busy : Option (BitVec 512)
  /-- progress of CHECKPOINT: its step -/
  step : Nat
  deriving DecidableEq, Repr

/-- A compute die's own state. -/
structure Die where
  lottery : BitVec 64
  binds : List (Nat × BindRec)
  sheets : List Sheet
  tlb : List TlbEntry
  round : Option Round
  /-- release tasks waiting for the next full round -/
  waiting : List Nat
  /-- sheets an early round is asked for (R299, R300) -/
  early : List Nat
  /-- a placement opportunity is due: a record has been written, a gang or a block has ended, or a scratchpad has shrunk (R203) -/
  chance : Bool
  /-- gangs of the die with the homes at which they have performed home writes since the last full round (R302) -/
  touched : List (GangId × Nat)
  leaves : List LeaveReq
  keys : List KeySlot
  clock : Nat
  /-- the tick at which the package time base has stopped reaching it (R427) -/
  frozen : Option Nat
  failedCores : BitVec 128
  safeTier : Option (Nat × Nat)
  deriving DecidableEq, Repr

/-- A unit whose checker reports an error (R457, R458): the one that takes a gang's next instruction, with its unit and checker codes;
a core's matrix array, at its next product, with whether the recomputed product mismatches too (R360); the engine, in a copy job. -/
inductive CheckSite where
  | gang (g : GangId) (unit code : Nat)
  | array (die core : Nat) (again : Bool)
  | job (id : Nat)
  deriving DecidableEq, Repr

/-- What moves next, as plain data: an issue opportunity of a named PC slot, one of the device's steps, time, or a part of a step that
the device makes on its own. -/
inductive Action where
  | issue (g : GangId) (slot : PcSlot)
  | event (i : Instr)
  | ticks (n : Nat)
  /-- a checker finds an error -/
  | check (site : CheckSite)
  /-- a line leaves an L1 or a cluster cache, or a CLEAN sheet an RDC (R259, R298) -/
  | evict (u : CacheUnit) (line : Nat)
  /-- a started copy job reads up to so many more words, or writes its next piece (R348) -/
  | job (id words : Nat)
  /-- the engine begins to read a chain's entry (R326) -/
  | entry (id : ChainId)
  /-- a fill of a gang's code line reads some of it early (R386) -/
  | fill (g : GangId) (va : Nat)
  /-- a matrix array reads 16 bytes of an operand tile early (R366) -/
  | sample (op tile unit : Nat)
  /-- a link that is DOWN is enabled (R423) -/
  | enable (id : LinkId)
  /-- a core's stores to a line go on from its L1 to the cluster cache (R259, R261) -/
  | through (die core line : Nat)
  /-- a word leaves a gang's fetch buffer (R380, R386) -/
  | unfetch (g : GangId) (pc : BitVec 32)
  /-- the host reads the register page: offset and bytes (R471) -/
  | pageRead (off size : Nat)
  /-- a die's power governor lowers or raises the arithmetic clock by one step (R467) -/
  | govern (die : Nat) (lower : Bool)
  deriving DecidableEq, Repr

/-- The PC slot that issues the instruction word being executed. -/
structure Cur where
  g : GangId
  slot : PcSlot
  deriving DecidableEq, Repr

/-- The whole machine. -/
structure State where
  tick : Nat
  agenda : List Action
  /-- default order: true when the next default step is an issue -/
  turn : Bool
  cur : Cur
  /-- the model's own counter of free values -/
  freeCtr : Nat
  nextOp : Nat
  nextUid : Nat
  mem : List Host.Cell
  hostMem : List Host.Cell
  poison : List Nat
  homePages : List HomePage
  stamps : Vector (BitVec 32) 24
  unfolded : List Unfolded
  msgs : List Msg
  fwds : List Fwd
  owed : List OwedAck
  dies : Vector Die 8
  cores : List CoreSt
  clusters : List ClusterSt
  scheds : List SchedSt
  gangs : List Gang
  blocks : List Block
  groups : List DieGroup
  launches : List Launch
  mailboxes : List Mailbox
  pend : List Pend
  samples : List Sample
  through : List Through
  nts : List NtRec
  wrote : List Wrote
  tasks : List Task
  chains : List Chain
  jobs : List Job
  kernels : List Kernel
  queues : List Queue
  contexts : List Context
  saved : List Saved
  nextCtx : Nat
  nextQueue : Nat
  migrations : List Migration
  shoots : List Shoot
  links : List Link
  rwins : Vector (BitVec 192) 8
  redRounds : List RedRound
  guest : Guest
  admin : Admin
  health : List HealthEntry
  healthLoss : BitVec 32
  measure : Vector (BitVec 512) 8
  fuseVer : BitVec 64
  /-- SHA3-512 digests of the installed images: the security controller's, the scheduler cores', the default dispatcher (R468) -/
  firmware : Vector (BitVec 512) 3
  lost : BitVec 32
  generation : BitVec 23
  powerCap : Nat
  hot : BitVec 8
  scrub : List (Nat × BitVec 256)
  interrupts : List Nat
  sideband : List (BitVec 256)
  /-- host reads through CXL.mem, latest first: address, the bytes of the home's copy, and their poison (R316, R434) -/
  cxlReads : List (Nat × List Byte × Bool)
  /-- host reads of the register page, latest first: offset, bytes, value (R471) -/
  pageReads : List (Nat × Nat × BitVec 64)
  /-- the contexts of the last checkpoint (R466) -/
  imaged : Image
  /-- form of the part: 0 TVD7-P, 1 package of TVD7-D dies, 2 TVD7-M (R471) -/
  form : Nat
  /-- host bus addresses at which CXL.io accesses fail, as first address and length (R475): the host's, not the device's -/
  hostHoles : List (Nat × Nat)
  deviceLost : Bool
  /-- TVD7-Ds that have found their straps changing and stopped at boot (R27) -/
  strapFault : BitVec 8
  deriving DecidableEq, Repr

/-! ## Package reset (19_reliability R468, R471; 15_queue R397; 17_link R423, R429) -/

/-- A compute die after package reset: nothing held, no key bound, lottery state of R397, arithmetic clock at
the 940 MHz of R8 (assumption log 121). -/
def Die.reset : Die :=
  { lottery := 0x9E3779B97F4A7C15#64, binds := [], sheets := [], tlb := [], round := none, waiting := [], early := [],
    chance := false, touched := [], leaves := [], keys := [], clock := 940, frozen := none, failedCores := 0#128, safeTier := none }

/-- A link after package reset: DOWN (R423). -/
def Link.reset (id : LinkId) (units : Nat) : Link :=
  { id := id, units := units, trained := 0, state := .down, since := 0, retrainings := [], retries := 0, retrySeq := 0#12,
    nextSeq := 0#12, expect := 0#12, acked := 0#12, unacked := [], resend := [], asked := [], credits := 0#32 }

/-- The links of a package with their units (R422, R423). -/
def resetLinks : List Link :=
  (List.range 8).map (fun j => Link.reset (.ring j) 4)
    ++ (List.range 16).flatMap (fun k => [Link.reset (.memory k false) 6, Link.reset (.memory k true) 6])
    ++ [Link.reset .guest 8]
    ++ (List.range 8).flatMap (fun d => (List.range 5).map (fun p => Link.reset (.fabric d p) 4))
    ++ (List.range 8).map (fun d => Link.reset (.cxl d) 16)
    ++ [Link.reset .host 16]

/-- The guest attachment with no guest (R444). -/
def Guest.reset : Guest :=
  { depths := [], seqs := Vector.replicate 16 0#16, jobs := [], writes := [], invals := [], preempts := [],
    isolated := false, digest := 0#512, stream := [], inbox := [], out := [], owed := [] }

/-- The register page after package reset (R471). -/
def Admin.reset : Admin :=
  { devid := 0#20, bootst := 1, boot := none, secver := 0#64, aqbase := 0#64, log2 := 0, enable := false, aqtail := 0#32,
    aqhead := 0#32, acbase := 0#64, achead := 0#32, actail := 0#32, busy := none, step := 0 }

/-- The machine right after package reset: no gang, no context, no queue, every link DOWN, nothing cached. -/
def State.reset : State :=
  { tick := 0, agenda := [], turn := false, cur := { g := { die := 0, core := 0, sched := 0, place := 0 }, slot := .a },
    freeCtr := 0, nextOp := 0, nextUid := 0, mem := [], hostMem := [], poison := [], homePages := [],
    stamps := Vector.replicate 24 0#32, unfolded := [], msgs := [], fwds := [], owed := [],
    dies := Vector.replicate 8 Die.reset, cores := [], clusters := [], scheds := [], gangs := [], blocks := [],
    groups := [], launches := [], mailboxes := [], pend := [], samples := [], through := [], nts := [], wrote := [], tasks := [], chains := [], jobs := [],
    kernels := [], queues := [], contexts := [], saved := [], nextCtx := 0, nextQueue := 0, migrations := [],
    shoots := [], links := resetLinks, rwins := Vector.replicate 8 0#192, redRounds := [], guest := Guest.reset,
    admin := Admin.reset, health := [], healthLoss := 0#32, measure := Vector.replicate 8 0#512, fuseVer := 0#64,
    firmware := Vector.replicate 3 0#512, lost := 0#32, generation := 0#23, powerCap := 0, hot := 0#8, scrub := [],
    interrupts := [], sideband := [], cxlReads := [], pageReads := [], imaged := { contexts := [], saved := [], kernels := [], queues := [], launches := [], groups := [] }, form := 0, hostHoles := [], deviceLost := false, strapFault := 0#8 }

/-- Why the machine stops. -/
inductive Fault where
  /-- exec of an instruction word when no live PC slot is the issuing one; step never calls it so. Safe: the machine stops. -/
  | noIssuer
  deriving DecidableEq, Repr

/-- Why an instruction has no meaning. -/
inductive Refusal where
  /-- an opcode-table row whose meaning is not written. Safe: nothing can be proved of it. -/
  | notModelled (mnemonic : String)
  deriving DecidableEq, Repr

end Sys2Proof.Machine
end

