-- ==== Sys2Proof/Machine/Ops.lean ====
section
/-!
DEFINITION. The shared operations of the machine: memory cells, runs and registers, the run-slot accounts, gangs and their
PC slots, ending a gang, taking a trap and returning from one, and issuing and committing an instruction.
-/
namespace Sys2Proof.Machine

/-- The result of a meaning. -/
abbrev Res := Host.Outcome State Fault Refusal

/-! ## Memory cells

A list of (address, byte) pairs in one canonical form. An unlisted address reads as 0 (DESIGN CHOICE, log entry 1). -/

/-- What an unlisted address reads as. -/
def unlistedByte : Byte := 0#8

/-- The byte at an address. -/
def cellGet : List Host.Cell → Nat → Byte
  | [], _ => unlistedByte
  | (k, b) :: rest, a => if a = k then b else cellGet rest a

/-- Put a byte into the list in address order; the byte that an unlisted address reads as is not listed. -/
def cellSet : List Host.Cell → Nat → Byte → List Host.Cell
  | [], a, b => if b = unlistedByte then [] else [(a, b)]
  | (k, c) :: rest, a, b =>
    if a < k then (if b = unlistedByte then (k, c) :: rest else (a, b) :: (k, c) :: rest)
    else if a = k then (if b = unlistedByte then rest else (a, b) :: rest)
    else (k, c) :: cellSet rest a b

/-- Addresses of a list are above a bound and strictly rising, and no byte is the unlisted one. -/
def cellsAbove : Nat → List Host.Cell → Bool
  | _, [] => true
  | lo, (k, b) :: rest => decide (lo ≤ k) && decide (b ≠ unlistedByte) && cellsAbove (k + 1) rest

/-- The canonical form of memory. -/
def Memory.wf (m : List Host.Cell) : Bool := cellsAbove 0 m

/-- `n` bytes from an address, lowest first. -/
def cellsRead (m : List Host.Cell) (a n : Nat) : List Byte := (List.range n).map fun k => cellGet m (a + k)

/-- Write bytes from an address up. -/
def cellsWrite (m : List Host.Cell) (a : Nat) : List Byte → List Host.Cell
  | [] => m
  | b :: rest => cellsWrite (cellSet m a b) (a + 1) rest

/-- The number that bytes hold, low byte first (R4). -/
def natOfBytes : List Byte → Nat
  | [] => 0
  | b :: rest => b.toNat + 256 * natOfBytes rest

/-- The `n` low bytes of a number, low byte first (R4). -/
def bytesOfNat (n x : Nat) : List Byte := (List.range n).map fun k => BitVec.ofNat 8 (x / 256 ^ k)

/-! ## Runs (04_registers R87-R90) -/

/-- The run that covers a lane; beyond the list's length there is none. -/
def runAt : List Run → Nat → Run
  | [], _ => { value := 0#32, count := 0, poison := false }
  | r :: rest, i => if i < r.count then r else runAt rest (i - r.count)

/-- A run begins at the lane. -/
def startsAt : List Run → Nat → Bool
  | [], _ => false
  | r :: rest, i => decide (i = 0) || (decide (r.count ≤ i) && startsAt rest (i - r.count))

/-- Lanes that a run list covers. -/
def lengthOf : List Run → Nat
  | [] => 0
  | r :: rest => r.count + lengthOf rest

/-- One lane of a register that is being written: its value, its poison bit, and whether a run must begin at it. -/
structure Lane where
  value : Word
  poison : Bool
  start : Bool
  deriving DecidableEq, Repr

/-- The runs of lanes: a run begins where one must and where value or poison differs from the lane before. -/
def packRuns : List Lane → List Run
  | [] => []
  | x :: rest =>
    match rest, packRuns rest with
    | y :: _, r :: rs =>
      if y.start || decide (y.value ≠ x.value) || decide (y.poison ≠ x.poison) then
        { value := x.value, count := 1, poison := x.poison } :: r :: rs
      else { value := x.value, count := r.count + 1, poison := x.poison } :: rs
    | _, rs => { value := x.value, count := 1, poison := x.poison } :: rs

/-- A lane's value; a dead register supplies 0 (R89). -/
def vregVal (r : VReg) (i : Nat) : Word :=
  match r with
  | none => 0#32
  | some l => (runAt l i).value

/-- A lane's poison bit. -/
def vregPoison (r : VReg) (i : Nat) : Bool :=
  match r with
  | none => false
  | some l => (runAt l i).poison

/-- A run of the register begins at the lane: its boundary set, lane 0 included (R88). -/
def vregCut (r : VReg) (i : Nat) : Bool :=
  match r with
  | none => false
  | some l => startsAt l i

/-- An open register: RUNAPP has left it shorter than 32 lanes (R105). -/
def vregOpen (r : VReg) : Bool :=
  match r with
  | none => false
  | some l => decide (lengthOf l < 32)

/-- Run slots that the register occupies (R87). -/
def vregSlots (r : VReg) : Nat :=
  match r with
  | none => 0
  | some l => l.length

/-- The bit of a mask at a lane. -/
def inMask (m : Mask) (i : Nat) : Bool := m.getLsbD i

/-- The edges of a mask (R88). -/
def edgeAt (m : Mask) (i : Nat) : Bool := decide (0 < i) && (inMask m i != inMask m (i - 1))

/-- The mask of the lanes for which a condition holds. -/
def maskOf (f : Nat → Bool) : Mask :=
  (List.range 32).foldl (fun m i => if f i then m ||| (1#32 <<< i) else m) 0#32

/-- Lane numbers of a mask, ascending. -/
def lanesIn (m : Mask) : List Nat := (List.range 32).filter (inMask m)

/-- Some lane of the mask lies in a poisoned run: a read of it consumes poison (R98). -/
def poisonIn (r : VReg) (m : Mask) : Bool := (List.range 32).any fun i => inMask m i && vregPoison r i

/-- The active lanes cut a poisoned run: some of its lanes are active and some are not (R98). -/
def poisonCut (act : Mask) : Nat → List Run → Bool
  | _, [] => false
  | lo, r :: rest =>
    (r.poison && ((List.range r.count).any fun k => inMask act (lo + k))
        && ((List.range r.count).any fun k => !inMask act (lo + k)))
      || poisonCut act (lo + r.count) rest

/-- A masked write of a vector register (R88, R89): `cut` holds the sources' boundaries and `val` the lane results. A
wholly inactive poisoned run is carried whole (R98). -/
def writeRuns (old : VReg) (act : Mask) (cut : Nat → Bool) (val : Nat → Word) : List Run :=
  packRuns ((List.range 32).map fun i =>
    if inMask act i then
      { value := val i, poison := false, start := cut i || (decide (act ≠ fullMask) && (vregCut old i || edgeAt act i)) }
    else
      { value := vregVal old i, poison := vregPoison old i,
        start := vregCut old i || (!vregPoison old i && (cut i || edgeAt act i)) })

/-- A normalising write (R90): maximal runs; a poisoned run keeps its own bounds. -/
def writeMax (old : VReg) (act : Mask) (val : Nat → Word) : List Run :=
  packRuns ((List.range 32).map fun i =>
    if inMask act i then { value := val i, poison := false, start := false }
    else { value := vregVal old i, poison := vregPoison old i, start := vregPoison old i && vregCut old i })

/-! ## Registers of a gang -/

def Arch.vreg (a : Arch) (n : Fin 64) : VReg := a.v.get n
def Arch.sreg (a : Arch) (n : Fin 64) : SVal := a.s.get n

/-- A predicate; p7 reads all ones (R83). -/
def Arch.preg (a : Arch) (n : Fin 8) : Mask :=
  if h : n.val < 7 then a.p.get ⟨n.val, h⟩ else fullMask

def Arch.setV (a : Arch) (n : Fin 64) (r : VReg) : Arch := { a with v := a.v.set n r }
/-- A scalar write; the whole register is replaced, with its poison (R460). -/
def Arch.setS (a : Arch) (n : Fin 64) (x : SVal) : Arch :=
  { a with s := a.s.set n x, sPoison := a.sPoison &&& ~~~(1#64 <<< n.val) }

/-- Write the active bits of a predicate; writes to p7 are discarded (R55, R83). -/
def Arch.setP (a : Arch) (n : Fin 8) (act bits : Mask) : Arch :=
  if h : n.val < 7 then
    { a with p := a.p.set n.val ((a.preg n &&& ~~~act) ||| (bits &&& act)) (by omega),
             pPoison := a.pPoison &&& ~~~(1#8 <<< n.val) }
  else a

/-- A register of a group: register `n + k`. -/
def groupReg (n : Fin 64) (k : Nat) : Fin 64 := Fin.ofNat 64 (n.val + k)

/-- A register operand read as a group of `n` registers is dead: the code of its lowest dead register (R92). -/
def deadIn (a : Arch) (o : Opnd) (n : Nat) : Option (BitVec 8) :=
  match o with
  | .v r => ((List.range n).find? fun k => (a.vreg (groupReg r k)).isNone).map fun k => opndCode (.v (groupReg r k))
  | .s r => if (a.sreg r).isNone then some (opndCode o) else none
  | _ => none

/-- Operands with the number of registers each names, in the order D, A, B, C. -/
abbrev Reads := List (Opnd × Nat)

/-- The first dead register among operands (R92). -/
def firstDead (a : Arch) : Reads → Option (BitVec 8)
  | [] => none
  | (o, n) :: rest =>
    match deadIn a o n with
    | some c => some c
    | none => firstDead a rest

/-- The length of the first open register among operands (R105). -/
def firstOpen (a : Arch) : Reads → Option Nat
  | [] => none
  | (o, n) :: rest =>
    match o with
    | .v r =>
      match (List.range n).find? fun k => vregOpen (a.vreg (groupReg r k)) with
      | some k => some (match a.vreg (groupReg r k) with
        | none => 0
        | some l => lengthOf l)
      | none => firstOpen a rest
    | _ => firstOpen a rest

/-- A scalar or predicate operand is poisoned (R457, R460). -/
def wordPoison (a : Arch) (o : Opnd) : Bool :=
  match o with
  | .s r => a.sPoison.getLsbD r.val
  | .p r => a.pPoison.getLsbD r.val
  | _ => false

/-- A lane of the mask is poisoned in some register operand: reading it consumes poison (R98, R460). -/
def readsPoison (a : Arch) (act : Mask) (l : Reads) : Bool :=
  l.any fun x => match x.1 with
    | .v r => (List.range x.2).any fun k => poisonIn (a.vreg (groupReg r k)) act
    | o => wordPoison a o

/-- Mark registers dead (R59). -/
def killRegs (a : Arch) : Reads → Arch
  | [] => a
  | (o, n) :: rest =>
    match o with
    | .v r => killRegs ((List.range n).foldl (fun x k => x.setV (groupReg r k) none) a) rest
    | .s r => killRegs (a.setS r none) rest
    | _ => killRegs a rest

/-- The operands that LA, LB and LC mark (R59). -/
def killsOf (h : Head) (a b c : Opnd × Nat) : Reads :=
  (if h.la then [a] else []) ++ (if h.lb then [b] else []) ++ (if h.lc then [c] else [])

/-- Run slots held (R95), with the ones that matrix instructions have reserved at issue (R359) and without what is still to be settled
behind an older instruction (R91). -/
def heldSlots (a : Arch) : Nat := (a.v.toList.map vregSlots).foldl (· + ·) 0 + a.reserved + a.lateFreed - a.lateTaken

/-- What an instruction has taken and released of run slots since a gang held `h` is left to be settled. -/
def Arch.owe (a : Arch) (h : Nat) : Arch :=
  { a with lateTaken := a.lateTaken + (heldSlots a - h), lateFreed := a.lateFreed + (h - heldSlots a) }

/-- What was left is counted now. -/
def Arch.pay (a : Arch) (taken freed : Nat) : Arch := { a with lateTaken := a.lateTaken - taken, lateFreed := a.lateFreed - freed }

/-! ## PC slots -/

def Arch.slot (a : Arch) : PcSlot → Slot
  | .a => a.slotA
  | .b => a.slotB

def Arch.setSlot (a : Arch) (x : PcSlot) (sl : Slot) : Arch :=
  match x with
  | .a => { a with slotA := sl }
  | .b => { a with slotB := sl }

def otherSlot : PcSlot → PcSlot
  | .a => .b
  | .b => .a

def slotNum : PcSlot → Nat
  | .a => 0
  | .b => 1

/-- Move the slot past its instruction (R52). -/
def Arch.advance (a : Arch) (x : PcSlot) : Arch :=
  a.setSlot x { a.slot x with pc := (a.slot x).pc + 12#32 }

/-- Put the slot into a wait. -/
def Arch.setWait (a : Arch) (x : PcSlot) (w : Wait) : Arch := a.setSlot x { a.slot x with wait := w }

/-! ## Looking up and updating the parts of the state -/

def findGang (s : State) (id : GangId) : Option Gang := s.gangs.find? fun g => decide (g.id = id)
def findBlock (s : State) (uid : Nat) : Option Block := s.blocks.find? fun b => decide (b.uid = uid)
def findGroup (s : State) (uid : Nat) : Option DieGroup := s.groups.find? fun b => decide (b.uid = uid)
def findLaunch (s : State) (uid : Nat) : Option Launch := s.launches.find? fun b => decide (b.uid = uid)
def findContext (s : State) (n : Nat) : Option Context := s.contexts.find? fun c => decide (c.num = n)
def findQueue (s : State) (n : Nat) : Option Queue := s.queues.find? fun q => decide (q.num = n)
def findChain (s : State) (id : ChainId) : Option Chain := s.chains.find? fun c => decide (c.id = id)
def findJob (s : State) (id : Nat) : Option Job := s.jobs.find? fun j => decide (j.id = id)
def findPend (s : State) (op : Nat) : Option Pend := s.pend.find? fun p => decide (p.op = op)
def findTask (s : State) (id : Nat) : Option Task := s.tasks.find? fun t => decide (t.id = id)
def findKernel (s : State) (ctx : Nat) (kdesc : BitVec 64) : Option Kernel :=
  s.kernels.find? fun k => decide (k.ctx = ctx) && decide (k.kdesc = kdesc)

def modGang (s : State) (id : GangId) (f : Gang → Gang) : State :=
  { s with gangs := s.gangs.map fun g => if g.id = id then f g else g }
def modBlock (s : State) (uid : Nat) (f : Block → Block) : State :=
  { s with blocks := s.blocks.map fun b => if b.uid = uid then f b else b }
def modGroup (s : State) (uid : Nat) (f : DieGroup → DieGroup) : State :=
  { s with groups := s.groups.map fun b => if b.uid = uid then f b else b }
def modLaunch (s : State) (uid : Nat) (f : Launch → Launch) : State :=
  { s with launches := s.launches.map fun b => if b.uid = uid then f b else b }
def modContext (s : State) (n : Nat) (f : Context → Context) : State :=
  { s with contexts := s.contexts.map fun c => if c.num = n then f c else c }
def modQueue (s : State) (n : Nat) (f : Queue → Queue) : State :=
  { s with queues := s.queues.map fun q => if q.num = n then f q else q }
def modChain (s : State) (id : ChainId) (f : Chain → Chain) : State :=
  { s with chains := s.chains.map fun c => if c.id = id then f c else c }
def modJob (s : State) (id : Nat) (f : Job → Job) : State :=
  { s with jobs := s.jobs.map fun j => if j.id = id then f j else j }
def modPend (s : State) (op : Nat) (f : Pend → Pend) : State :=
  { s with pend := s.pend.map fun p => if p.op = op then f p else p }
def modTask (s : State) (id : Nat) (f : Task → Task) : State :=
  { s with tasks := s.tasks.map fun t => if t.id = id then f t else t }

/-- A compute die's state; the number is taken modulo 8. -/
def getDie (s : State) (d : Nat) : Die := s.dies.get (Fin.ofNat 8 d)
def modDie (s : State) (d : Nat) (f : Die → Die) : State :=
  { s with dies := s.dies.set (Fin.ofNat 8 d) (f (getDie s d)) }

/-- A die's reference counter: the package time base, or where it stood when that stopped reaching the die (R25, R427). -/
def dieTick (s : State) (die : Nat) : Nat :=
  match (getDie s die).frozen with
  | some t => t
  | none => s.tick

/-- A core with nothing in it: zero tags, codebooks of +0 (R117), scratchpad zero, empty caches. -/
def CoreSt.empty (die core : Nat) : CoreSt :=
  { die := die, core := core, tags := 0#64, codebooks := Vector.replicate 8 0#256, scratch := [], scratchPoison := [],
    l1 := [], icache := [], fills := [], matIdle := 0, xfIdle := 0, pipeErrs := [] }

/-- A core; one that is not listed holds nothing. -/
def getCore (s : State) (die core : Nat) : CoreSt :=
  match s.cores.find? fun c => decide (c.die = die) && decide (c.core = core) with
  | some c => c
  | none => CoreSt.empty die core

/-- Update a core, listing it if it was not. -/
def modCore (s : State) (die core : Nat) (f : CoreSt → CoreSt) : State :=
  if s.cores.any fun c => decide (c.die = die) && decide (c.core = core) then
    { s with cores := s.cores.map fun c => if c.die = die ∧ c.core = core then f c else c }
  else { s with cores := s.cores ++ [f (CoreSt.empty die core)] }

def ClusterSt.empty (die cluster : Nat) : ClusterSt := { die := die, cluster := cluster, lines := [], nextChain := 0#32, lastWalk := 0 }

def getCluster (s : State) (die cluster : Nat) : ClusterSt :=
  match s.clusters.find? fun c => decide (c.die = die) && decide (c.cluster = cluster) with
  | some c => c
  | none => ClusterSt.empty die cluster

def modCluster (s : State) (die cluster : Nat) (f : ClusterSt → ClusterSt) : State :=
  if s.clusters.any fun c => decide (c.die = die) && decide (c.cluster = cluster) then
    { s with clusters := s.clusters.map fun c => if c.die = die ∧ c.cluster = cluster then f c else c }
  else { s with clusters := s.clusters ++ [f (ClusterSt.empty die cluster)] }

def Mailbox.empty (die ctx : Nat) : Mailbox := { die := die, ctx := ctx, packets := [], seq := 0#32, spawnq := [] }

/-- A context's mailbox and spawn queue on a die (R206). -/
def getMailbox (s : State) (die ctx : Nat) : Mailbox :=
  match s.mailboxes.find? fun m => decide (m.die = die) && decide (m.ctx = ctx) with
  | some m => m
  | none => Mailbox.empty die ctx

def modMailbox (s : State) (die ctx : Nat) (f : Mailbox → Mailbox) : State :=
  if s.mailboxes.any fun m => decide (m.die = die) && decide (m.ctx = ctx) then
    { s with mailboxes := s.mailboxes.map fun m => if m.die = die ∧ m.ctx = ctx then f m else m }
  else { s with mailboxes := s.mailboxes ++ [f (Mailbox.empty die ctx)] }

/-- Cluster of a core: eight cores each (R18). -/
def clusterOf (core : Nat) : Nat := core / 8

/-- The kernel whose code a gang runs: its block's, or the TVEC kernel's while it is in trap mode there (R408). -/
def gangKernel (s : State) (g : Gang) : Option Kernel :=
  if g.arch.inTvec then
    match findContext s g.ctx with
    | some c => findKernel s g.ctx c.tvec
    | none => none
  else
    match findBlock s g.block with
    | some b => findKernel s g.ctx b.kdesc
    | none => none

/-- The kernel of the gang's own block. -/
def ownKernel (s : State) (g : Gang) : Option Kernel :=
  match findBlock s g.block with
  | some b => findKernel s g.ctx b.kdesc
  | none => none

/-! ## Run-slot accounts (R94-R97) -/

/-- Free slots of a scheduler's pool: 16,384 less every reservation and every borrowed slot (R94). -/
def poolFree (s : State) (id : GangId) : Nat :=
  16384 - ((s.gangs.filter fun g => decide (g.id.die = id.die) && decide (g.id.core = id.core) && decide (g.id.sched = id.sched)).map
    fun g => g.budget + 16 + g.arch.borrowed).foldl (· + ·) 0

/-- F: the part of its reservation that the gang may fill (R95). -/
def fillOf (budget : Nat) (a : Arch) : Nat := budget + (if a.mode = .trap then 16 else a.kept)

/-- The gang's limit (R95). -/
def slotLimit (s : State) (g : Gang) : Nat :=
  fillOf g.budget g.arch + g.arch.borrowed + (if g.noborrow then 0 else poolFree s g.id)

/-- sr.budget: the limit minus the slots held, or 0 (R95). -/
def budgetLeft (s : State) (g : Gang) : Nat := slotLimit s g - heldSlots g.arch

/-- The account changes of R95 once `h'` slots are held. -/
def settleAccounts (budget : Nat) (a : Arch) : Arch :=
  let h := heldSlots a
  let br := if h > fillOf budget a + a.borrowed then h - fillOf budget a else a.borrowed
  if h < fillOf budget a + br then
    { a with borrowed := h - fillOf budget a, kept := if a.mode = .trap then a.kept else min a.kept (h - budget) }
  else { a with borrowed := br }

/-- By how many slots an instruction that leaves `a` exceeds the limit: none when it fits or takes no slots (R95). -/
def slotExcess (s : State) (g : Gang) (a : Arch) : Option Nat :=
  if heldSlots a > heldSlots g.arch ∧ heldSlots a > slotLimit s g then some (heldSlots a - slotLimit s g) else none

/-! ## Trap causes (R81) and completion statuses (R400) -/

def cIllegalOpcode : BitVec 8 := 0x01#8
def cDeadRead : BitVec 8 := 0x05#8
def cMisaligned : BitVec 8 := 0x06#8
def cPageFault : BitVec 8 := 0x07#8
def cProtection : BitVec 8 := 0x08#8
def cRunOverflow : BitVec 8 := 0x09#8
def cRunLength : BitVec 8 := 0x0A#8
def cJmpRange : BitVec 8 := 0x0B#8
def cDivOverflow : BitVec 8 := 0x0C#8
def cIntExc : BitVec 8 := 0x0D#8
def cFpExc : BitVec 8 := 0x0E#8
def cBarRange : BitVec 8 := 0x0F#8
def cGbarNoncoop : BitVec 8 := 0x10#8
def cChannel : BitVec 8 := 0x11#8
def cTimeout : BitVec 8 := 0x12#8
def cPipeErr : BitVec 8 := 0x13#8
def cMmaCheck : BitVec 8 := 0x14#8
def cHomeLost : BitVec 8 := 0x15#8
def cPrivilege : BitVec 8 := 0x16#8
def cBreak : BitVec 8 := 0x17#8
def cSoftware : BitVec 8 := 0x18#8

def stOk : Nat := 0
def stFailedKilled : Nat := 1
def stFailedTrap : Nat := 2
def stTooLarge : Nat := 3
def stOverlap : Nat := 4
def stHomeLost : Nat := 5
def stDieLost : Nat := 6
def stGuestAbort : Nat := 7
def stEngineFault : Nat := 8
def stTimeout : Nat := 9
def stCancelled : Nat := 10

/-! ## Failures and the end of a gang (08_group R196, R198, R201) -/

/-- The first of two failures: by tick, then by the keys of R198. -/
def firstFailure (x y : Failure) : Failure :=
  let kx := [x.tick, x.die, x.core, x.kind, x.sub, x.seq]
  let ky := [y.tick, y.die, y.core, y.kind, y.sub, y.seq]
  if decide (List.lt ky kx) then y else x

/-- The first failure of an item that may have one already. -/
def addFailure (old : Option Failure) (f : Failure) : Option Failure :=
  match old with
  | none => some f
  | some x => some (firstFailure x f)

/-- A failure of a gang at the present tick (R198). -/
def gangFailure (s : State) (g : Gang) (status : Nat) (cause : BitVec 8) (pc : BitVec 32) : Failure :=
  { status := status, cause := cause, pc := pc, tick := s.tick, die := g.id.die, core := g.id.core, kind := 0,
    sub := g.id.sched * 16 + g.id.place, seq := 0 }

/-- Add a failure to a block and to its die group: the block becomes ABANDONED (R196), its launch is broken (R242), and the launch
counts one more (R198). -/
def failBlock (s : State) (uid : Nat) (f : Failure) : State :=
  match findBlock s uid with
  | none => s
  | some b =>
    let s := modBlock s uid fun b => { b with state := .abandoned, fail := addFailure b.fail f }
    let s := match findGroup s b.dgroup with
      | some d => (match d.launch with
        | some l => modLaunch s l fun x => { x with broken := true }
        | none => s)
      | none => s
    modGroup s b.dgroup fun d => { d with fail := addFailure d.fail f, faults := d.faults + 1 }

/-- A store or an atomic with a result that has not been performed: when its gang is killed it is performed whole or not at
all (R201). -/
def PendKind.isStore : PendKind → Bool
  | .store _ _ _ | .image _ _ _ _ _ _ | .dcas _ => true
  | .home (.atom _) _ _ _ _ _ _ _ | .home (.cas _) _ _ _ _ _ _ _ => true
  | _ => false

/-- An access that has committed and acts at a home: it runs to its end though its gang is gone (R201). -/
def PendKind.runsOn : PendKind → Bool
  | .home (.red _) _ _ _ _ _ _ _ | .home .ast _ _ _ _ _ _ _ | .home (.nt _) _ _ _ _ _ _ _
  | .home (.channel _ _) _ _ _ _ _ _ _ => true
  | _ => false

/-- A committed access of a gang that is gone counts in no counter. -/
def PendKind.uncounted : PendKind → PendKind
  | .home h d w sc act accs cuts _ => .home h d w sc act accs cuts false
  | k => k

/-- Take a gang out of the machine: its registers and reservation return to the pool (R95), and its instructions that have
not committed are cancelled. What runs on keeps its order under a place that no gang has. A store that is not performed is
performed whole or not at all, each as a free value says (R201). A placement opportunity arises (R203). -/
def removeGang (s : State) (id : GangId) : State :=
  let ghost := { id with place := 1000 + s.nextOp }
  let name := fun (g : GangId) => if g = id then ghost else g
  let keep := fun (p : Pend) =>
    decide (p.gang ≠ id) || p.kind.runsOn || (p.kind.isStore && (Config.freeValue s.freeCtr 8 p.op).getLsbD 0)
  { modDie s id.die fun d => { d with chance := true } with
      gangs := s.gangs.filter fun g => decide (g.id ≠ id),
      pend := (s.pend.filter keep).map fun p => if p.gang = id then { p with gang := ghost, kind := p.kind.uncounted } else p,
      nts := s.nts.map fun n => { n with gang := name n.gang },
      wrote := s.wrote.map fun w => { w with gang := name w.gang },
      through := s.through.map fun x => { x with gang := name x.gang },
      redRounds := s.redRounds.map fun r =>
        { r with parts := r.parts.map fun x => (x.1, x.2.map fun y => (name y.1, y.2)) },
      chains := s.chains.map fun c => match c.origin with
        | .block u g => { c with origin := .block u (name g) }
        | .packet _ _ => c,
      nextOp := s.nextOp + 1 }

/-- A gang fails: it is removed, and its block is ABANDONED with the failure (R196, R198, R200). A dispatcher gang that
fails leaves its context for CONTEXT_FAULTED (R207). -/
def failGang (s : State) (g : Gang) (status : Nat) (cause : BitVec 8) (pc : BitVec 32) : State :=
  removeGang (failBlock s g.block (gangFailure s g status cause pc)) g.id

/-- A gang killed for consuming poison (R460). -/
def poisonKill (s : State) (g : Gang) : State := failGang s g stFailedKilled 0#8 0#32

/-! ## The health log (19_reliability R462) -/

/-- Add an entry; past 4,096 the oldest is overwritten and counted. -/
def logHealth (s : State) (die kind unit count addr : Nat) : State :=
  let l := s.health ++ [{ tick := s.tick, die := die, kind := kind, unit := unit, count := count, addr := addr }]
  if l.length > 4096 then { s with health := l.drop 1, healthLoss := s.healthLoss + 1#32 } else { s with health := l }

/-- A corrected error joins an entry of the same die, kind and unit that is less than a second old. -/
def logCorrected (s : State) (die unit : Nat) : State :=
  let same := fun (h : HealthEntry) => decide (h.die = die) && decide (h.kind = 1) && decide (h.unit = unit) && decide (s.tick < h.tick + 1000000000)
  if s.health.any same then { s with health := s.health.map fun h => if same h then { h with count := h.count + 1 } else h }
  else logHealth s die 1 unit 1 0

/-! ## Taking a trap and returning from one (16_context R408-R411, R415) -/

/-- Replace a gang's record. -/
def putGang (s : State) (g : Gang) : State := modGang s g.id fun _ => g

/-- The handler's entry and whether it lies in the TVEC kernel: the kernel's trap override, else the TVEC kernel (R373, R408). -/
def trapEntry (s : State) (g : Gang) : Option (BitVec 32 × Bool) :=
  match ownKernel s g with
  | none => none
  | some k =>
    if k.trap ≠ 0xFFFFFFFF#32 then some (k.trap, false)
    else
      match findContext s g.ctx with
      | none => none
      | some c =>
        if c.tvec = 0#64 then none
        else
          match findKernel s g.ctx c.tvec with
          | some t => some (t.entry, true)
          | none => none

/-- The gang's state on trap entry (R409, R97): what is saved, the mode, the handler's PC, the run-slot accounts. -/
def trapArch (budget : Nat) (a : Arch) (x : PcSlot) (cause : BitVec 8) (tval tpc : BitVec 64) (lane : BitVec 5)
    (entry : BitVec 32) (inTvec : Bool) : Arch :=
  { a.setSlot x { a.slot x with pc := entry, wait := .none } with
      tcause := cause, tval := tval, tpc := tpc, tlane := lane, tslot := x,
      frame := { pc := (a.slot x).pc, mask := (a.slot x).mask, join := (a.slot x).join, sp := a.sp },
      mode := .trap, inTvec := inTvec, trapGate := true, resume := none,
      borrowed := heldSlots a - (budget + 16) }

/-- The sr.tpc with which the gang entered trap mode, for its report (R198, R409, R413). -/
def entryPc (a : Arch) : BitVec 32 := if a.tcause = cSoftware then a.frame.pc + 12#32 else a.frame.pc

/-- Take a trap in a PC slot: entry to the handler; with no handler the gang ends as by EXIT in trap mode (R408); in trap mode
the gang is killed and reports the trap that entered trap mode (R200, R411). -/
def takeTrap (s : State) (g : Gang) (x : PcSlot) (cause : BitVec 8) (tval tpc : BitVec 64) (lane : BitVec 5) : State :=
  if g.arch.mode = .trap then failGang s g stFailedTrap g.arch.tcause (entryPc g.arch)
  else
    match trapEntry s g with
    | none => failGang s g stFailedTrap cause (tpc.setWidth 32)
    | some (entry, inTvec) =>
      putGang s { g with fetch := [], arch := trapArch g.budget g.arch x cause tval tpc lane entry inTvec }

/-- A code offset that a control transfer may name (R54): a multiple of 12 inside the code object. -/
def targetOk (t : BitVec 64) (ninstr : Nat) : Bool :=
  decide (0 ≤ t.toInt) && decide (t.toNat % 12 = 0) && decide (t.toNat < 12 * ninstr)

/-- The gang's state after ERET (R415, R97): the entry frame, the PC from sr.tpc, RUNNING, and resumption by lane. -/
def eretArch (budget : Nat) (a : Arch) : Arch :=
  let x := a.tslot
  { a.setSlot x { a.slot x with pc := a.tpc.setWidth 32, mask := a.frame.mask, join := a.frame.join, wait := .none } with
      mode := .running, inTvec := false, trapGate := false,
      kept := min 16 (heldSlots a - budget),
      resume := if a.tpc = a.frame.pc.setWidth 64 ∧ a.tlane ≠ 0#5 then some (x, a.tpc.setWidth 32, a.tlane) else none }

/-! ## Checker errors (19_reliability R458, R459) -/

/-- A core is marked failed: its gangs are killed and report PIPE_ERR (R459). -/
def failCore (s : State) (die core : Nat) : State :=
  let s := modDie s die fun d => { d with failedCores := d.failedCores ||| (1#128 <<< core) }
  let s := logHealth s die 4 core 1 0
  (s.gangs.filter fun g => decide (g.id.die = die) && decide (g.id.core = core)).foldl
    (fun s g => failGang s g stFailedKilled cPipeErr 0#32) s

/-- Count a PIPE_ERR event of a core; the sixteenth of one second fails the core (R459). The answer says whether it has failed. -/
def countPipeErr (s : State) (die core : Nat) : State × Bool :=
  let s := logHealth s die 3 core 1 0
  let s := modCore s die core fun c =>
    { c with pipeErrs := s.tick :: c.pipeErrs.filter fun t => decide (s.tick < t + 1000000000) }
  if (getCore s die core).pipeErrs.length ≥ 16 then (failCore s die core, true) else (s, false)

/-- A checker error meets the instruction that a gang issues: PIPE_ERR (R458). -/
def pipeTrap (s : State) (g : Gang) (x : PcSlot) (unit code : Nat) : State :=
  let r := countPipeErr s g.id.die g.id.core
  if r.2 then r.1
  else takeTrap r.1 { g with arch := { g.arch with pipeErr := none } } x cPipeErr
    (BitVec.ofNat 64 (unit % 256 + 256 * (code % 256))) ((g.arch.slot x).pc.setWidth 64) 0#5

/-! ## Issue and commit (03_encoding R51, R52, R59; 04_registers R91-R98) -/

/-- An issued instruction that may still trap, so that no younger instruction of the gang stores, takes or returns run slots, or
traps (R96, R97): a held BARV, which may meet a posted write's time-out, and a FENCE or DRAIN that waits, among them (R267, R276,
R278). -/
def PendKind.mayTrap : PendKind → Bool
  | .load _ _ _ _ _ _ | .rfill _ _ _ _ | .due _ _ | .xform _ _ _ _ | .mat _ false _ _ | .dcas _ | .barv _ _ _ _ _ | .late _
  | .begun _ _ _ true => true
  | .home (.atom _) _ _ _ _ _ _ _ | .home (.cas _) _ _ _ _ _ _ _ | .home .ald _ _ _ _ _ _ _ => true
  | _ => false

/-- Some older instruction of the gang may still trap. -/
def olderRisk (s : State) (id : GangId) (op : Nat) : Bool :=
  s.pend.any fun p => decide (p.gang = id) && decide (p.op < op) && p.kind.mayTrap

/-- Change an issued instruction. Registers written by an older instruction stand in what younger accesses would give back (R91). -/
def patchYounger (s : State) (id : GangId) (op : Nat) (f : Arch → Arch) : State :=
  { s with pend := s.pend.map fun p => if p.gang = id ∧ p.op > op then { p with ckpt := f p.ckpt } else p }

/-- An instruction that its PC slot has begun and holds. -/
def Pend.isBegun (p : Pend) : Bool :=
  match p.kind with
  | .begun _ _ _ _ => true
  | _ => false

/-- The instruction that a PC slot has begun and holds (R91). -/
def begunIn (s : State) (id : GangId) (x : PcSlot) : Option Pend :=
  s.pend.find? fun p => decide (p.gang = id) && decide (p.slot = x) && p.isBegun

/-- A begun instruction. -/
def Pend.instr (p : Pend) : Instr :=
  match p.kind with
  | .begun i _ _ _ => i
  | _ => .udf

/-- The lanes that were active at the issue of a begun instruction. -/
def Pend.active (p : Pend) : Mask :=
  match p.kind with
  | .begun _ _ act _ => act
  | _ => fullMask

/-- The instruction that a PC slot is issuing: the state, its gang, its slot and its active lanes. -/
structure Ctx where
  s : State
  g : Gang
  x : PcSlot
  act : Mask
  deriving DecidableEq, Repr

def Ctx.a (c : Ctx) : Arch := c.g.arch
def Ctx.slot (c : Ctx) : Slot := c.g.arch.slot c.x
def Ctx.pc (c : Ctx) : BitVec 32 := c.slot.pc

/-- The lanes for which the guard is true (R51). -/
def guardMask (a : Arch) (g : Guard) : Mask := if g.neg then ~~~(a.preg g.p) else a.preg g.p

/-- The slot's mask for this issue: after ERET to the trapping instruction the lanes below sr.tlane are inactive once (R415, R416). -/
def issueMask (a : Arch) (x : PcSlot) : Mask :=
  match a.resume with
  | some (y, pc, lane) =>
    if y = x ∧ pc = (a.slot x).pc then (a.slot x).mask &&& ~~~((1#32 <<< lane.toNat) - 1#32) else (a.slot x).mask
  | none => (a.slot x).mask

/-- The instruction that the slot of State.cur issues, if that slot is live: its gang, with the handler's gate and a resumption
ended by the issue (R410, R416), and its active lanes (R51); a begun instruction goes on with the lanes of its issue. -/
def entering (s : State) (guard : Guard) : Option Ctx :=
  match findGang s s.cur.g with
  | none => none
  | some g =>
    if (g.arch.slot s.cur.slot).live then
      some { s := s, x := s.cur.slot,
             g := { g with arch := { g.arch with
               trapGate := false,
               resume := match g.arch.resume with
                 | some (y, pc, l) => if y = s.cur.slot ∧ pc = (g.arch.slot s.cur.slot).pc then none else some (y, pc, l)
                 | none => none } },
             act := match begunIn s g.id s.cur.slot with
               | some p => p.active
               | none => guardMask g.arch guard &&& issueMask g.arch s.cur.slot }
    else none

/-- Why an instruction does not commit: a trap with its sr.tval and first unperformed lane, a checker error of a unit (R458),
poison (R460), or a walk that has to wait. -/
inductive Halt where
  | trap (cause : BitVec 8) (tval : BitVec 64) (lane : BitVec 5)
  | pipe (unit code : Nat)
  | poison
  /-- nothing yet: a page walk does not reach a home (R424, R426) -/
  | away (home : Nat)
  deriving DecidableEq, Repr

/-- The slot waits with the instruction unfinished: nothing commits and its PC stays. -/
def Ctx.hold (c : Ctx) (w : Wait) : Res :=
  match findGang c.s c.g.id with
  | some g => .next (putGang c.s { g with arch := g.arch.setWait c.x w })
  | none => .next c.s

/-- The begun instruction that the slot goes on with. -/
def Ctx.begun (c : Ctx) : Option Pend := begunIn c.s c.g.id c.x

/-- The instruction's number, by which others of its gang are older or younger. -/
def Ctx.op (c : Ctx) : Nat :=
  match c.begun with
  | some p => p.op
  | none => c.s.nextOp

/-- No older instruction of the issuing gang may still trap. -/
def Ctx.clear (c : Ctx) : Bool := !olderRisk c.s c.g.id c.op

/-- What an instruction does only once no older instruction of its gang may still trap: an effect outside the gang's registers, a
trap, or the end of the gang (R91, R97). Until then its slot waits. -/
def Ctx.afterRisk (c : Ctx) (k : Res) : Res := if c.clear then k else c.hold .order

/-- The instruction raises its trap, or its gang is killed. -/
def Ctx.halt (c : Ctx) (h : Halt) : Res :=
  c.afterRisk (match h with
    | .trap cause tval lane => .next (takeTrap c.s c.g c.x cause tval (c.pc.setWidth 64) lane)
    | .pipe unit code => .next (pipeTrap c.s c.g c.x unit code)
    | .poison => .next (poisonKill c.s c.g)
    | .away home => c.hold (.walk c.s.tick home))

/-- Reading the guard's predicate consumes poison (R457, R460). -/
def guardPoison (a : Arch) (g : Guard) : Bool := wordPoison a (.p g.p)

/-- Issue: what the instruction does in its context. -/
def issue (s : State) (guard : Guard) (k : Ctx → Res) : Res :=
  match entering s guard with
  | some c => if c.begun.isNone && guardPoison c.a guard then c.halt .poison else k c
  | none => .fault .noIssuer

/-- A trap at lane 0. -/
def Ctx.trap (c : Ctx) (cause : BitVec 8) (tval : BitVec 64) : Res := c.halt (.trap cause tval 0#5)

/-- Put the gang's new state into the machine. -/
def Ctx.put (c : Ctx) (a : Arch) : State := putGang c.s { c.g with arch := a }

/-- Run slots are taken and returned in issue order (R91, R96, R97): behind an instruction that may still trap, one that changes how many
its gang holds writes its registers at once and leaves the accounts, with the test for RUN_OVERFLOW, until none may. -/
def Ctx.owed (c : Ctx) (a : Arch) : Bool := decide (heldSlots a ≠ heldSlots c.g.arch) && !c.clear

/-- The state with registers `a` and their accounts left to be settled; `ckpt` is what a RUN_OVERFLOW then gives back. -/
def Ctx.putLate (c : Ctx) (a : Arch) : State :=
  let h := heldSlots c.g.arch
  { c.put (a.owe h) with
      pend := c.s.pend ++ [{ op := c.s.nextOp, gang := c.g.id, ctx := c.g.ctx, slot := c.x, pc := c.pc, tick := c.s.tick, sent := none,
                             kills := [], dsts := [], ckpt := c.g.arch, kind := .late (.slots (heldSlots a - h) (h - heldSlots a)) }],
      nextOp := c.s.nextOp + 1 }

/-- Put registers whose slots fit, with the accounts of R95 settled, or left where an older instruction may still trap. -/
def Ctx.putSettled (c : Ctx) (a : Arch) : State := if c.owed a then c.putLate a else c.put (settleAccounts c.g.budget a)

/-- Commit registers `a` with the state change `f`, which acts after them, and leave the slot where `a` has it (R91, R95). -/
def Ctx.commitWith (c : Ctx) (a : Arch) (f : State → State) : Res :=
  if c.owed a then .next (f (c.putLate a))
  else
    match slotExcess c.s c.g a with
    | some n => c.trap cRunOverflow (BitVec.ofNat 64 n)
    | none => .next (f (c.put (settleAccounts c.g.budget a)))

/-- Commit and move the slot to the next instruction. -/
def Ctx.commit (c : Ctx) (a : Arch) : Res := c.commitWith (a.advance c.x) id

/-- The reads of an instruction at issue: a dead register traps whether or not a lane is active (R92); then a checker error of the
unit that takes the instruction (R347, R458). -/
def deadCheck (a : Arch) (l : Reads) : Option Halt :=
  match firstDead a l with
  | some code => some (.trap cDeadRead (code.setWidth 64) 0#5)
  | none => a.pipeErr.map fun e => .pipe e.1 e.2

/-- The reads when some lane is active: open registers (R105), then poison (R98). -/
def readCheck (a : Arch) (act : Mask) (l : Reads) : Option Halt :=
  match firstOpen a l with
  | some n => some (.trap cRunLength (BitVec.ofNat 64 n) 0#5)
  | none => if readsPoison a act l then some .poison else none

/-- The masked merge with an old destination: an open one raises RUN_LENGTH (R105), a cut poisoned run is consumed (R98), and so is
a poisoned predicate of which lanes are kept (R460). -/
def mergeCheck (a : Arch) (act : Mask) (d : Opnd) : Option Halt :=
  match d with
  | .v r =>
    if act = fullMask then none
    else
      match a.vreg r with
      | none => none
      | some l =>
        if lengthOf l < 32 then some (.trap cRunLength (BitVec.ofNat 64 (lengthOf l)) 0#5)
        else if poisonCut act 0 l then some .poison
        else none
  | .p r => if act ≠ fullMask ∧ wordPoison a (.p r) then some .poison else none
  | _ => none

/-- The first of some checks that fails. -/
def firstHalt : List (Option Halt) → Option Halt
  | [] => none
  | some x :: _ => some x
  | none :: rest => firstHalt rest

end Sys2Proof.Machine
end

