-- ==== Sys2Proof/Machine/Crypto.lean ====
section
/-!
DEFINITION. Checksums and ciphers that the spec names: CRC-32C (12_engines R334), AES-256-GCM of NIST SP 800-38D (R340) and
SHA3-512 (19_reliability R468).
-/
namespace Sys2Proof.Machine

/-! ## CRC-32C (R334) -/

def crcBit (x : BitVec 32) : BitVec 32 := if x.getLsbD 0 then (x >>> 1) ^^^ 0x82F63B78#32 else x >>> 1
def crcByte (x : BitVec 32) (b : Byte) : BitVec 32 :=
  crcBit (crcBit (crcBit (crcBit (crcBit (crcBit (crcBit (crcBit (x ^^^ b.setWidth 32))))))))
/-- CRC-32C: reflected, all ones at the start and at the end. -/
def crc32c (l : List Byte) : BitVec 32 := l.foldl crcByte 0xFFFFFFFF#32 ^^^ 0xFFFFFFFF#32

/-! ## AES-256 (FIPS 197) -/

/-- Doubling in the field of 2⁸ elements. -/
def gfDouble (x : Byte) : Byte := (x <<< 1) ^^^ (if x.getLsbD 7 then 0x1B#8 else 0#8)
def gfMulFrom : Nat → Byte → Byte → Byte
  | 0, _, _ => 0#8
  | k + 1, x, y => (if y.getLsbD 0 then x else 0#8) ^^^ gfMulFrom k (gfDouble x) (y >>> 1)
def gfMul (x y : Byte) : Byte := gfMulFrom 8 x y
/-- x²⁵⁴, the inverse, 0 for 0. -/
def gfInv (x : Byte) : Byte :=
  let x2 := gfMul x x
  let x4 := gfMul x2 x2
  let x8 := gfMul x4 x4
  let x16 := gfMul x8 x8
  let x32 := gfMul x16 x16
  let x64 := gfMul x32 x32
  let x128 := gfMul x64 x64
  gfMul x2 (gfMul x4 (gfMul x8 (gfMul x16 (gfMul x32 (gfMul x64 x128)))))
def rotByte (x : Byte) (n : Nat) : Byte := (x <<< n) ||| (x >>> (8 - n))
def aesSub (x : Byte) : Byte :=
  let y := gfInv x
  y ^^^ rotByte y 1 ^^^ rotByte y 2 ^^^ rotByte y 3 ^^^ rotByte y 4 ^^^ 0x63#8

def byteOf (l : List Byte) (n : Nat) : Byte := l.getD n 0#8
def xorBytes (a b : List Byte) : List Byte := (List.range a.length).map fun k => byteOf a k ^^^ byteOf b k

/-- Words 8 to 59 of the key schedule: `done` holds the words so far, latest last, as bytes. -/
def aesExpand : Nat → Nat → Byte → List Byte → List Byte
  | 0, _, _, l => l
  | k + 1, i, rcon, l =>
    let prev := (l.drop (4 * (i - 1))).take 4
    let old := (l.drop (4 * (i - 8))).take 4
    let t :=
      if i % 8 = 0 then
        [aesSub (byteOf prev 1) ^^^ rcon, aesSub (byteOf prev 2), aesSub (byteOf prev 3), aesSub (byteOf prev 0)]
      else if i % 8 = 4 then prev.map aesSub
      else prev
    aesExpand k (i + 1) (if i % 8 = 0 then gfDouble rcon else rcon) (l ++ xorBytes old t)

/-- The 60 words of the key schedule as 240 bytes. -/
def aesKeys (key : List Byte) : List Byte := aesExpand 52 8 1#8 key

def aesShift (l : List Byte) : List Byte := (List.range 16).map fun n => byteOf l ((n + 4 * (n % 4)) % 16)
def aesMix (l : List Byte) : List Byte :=
  (List.range 16).map fun n =>
    let c := n / 4 * 4
    let x := fun k => byteOf l (c + (n + k) % 4)
    gfDouble (x 0) ^^^ (gfDouble (x 1) ^^^ x 1) ^^^ x 2 ^^^ x 3

def aesRounds (keys : List Byte) : Nat → List Byte → List Byte
  | 0, l => xorBytes (aesShift (l.map aesSub)) (keys.drop 224)
  | k + 1, l => aesRounds keys k (xorBytes (aesMix (aesShift (l.map aesSub))) ((keys.drop (16 * (13 - k))).take 16))

/-- One block of 16 bytes under a key schedule. -/
def aesBlock (keys : List Byte) (l : List Byte) : List Byte := aesRounds keys 13 (xorBytes l (keys.take 16))

/-! ## GCM (SP 800-38D) -/

/-- Bytes as a number, first byte highest. -/
def bigNat : List Byte → Nat
  | [] => 0
  | b :: rest => b.toNat * 256 ^ rest.length + bigNat rest
def bigBytes (n x : Nat) : List Byte := (bytesOfNat n x).reverse

def ghashStep : Nat → BitVec 128 → BitVec 128 → BitVec 128 → BitVec 128
  | 0, z, _, _ => z
  | k + 1, z, v, x =>
    ghashStep k (if x.getMsbD 0 then z ^^^ v else z)
      ((v >>> 1) ^^^ (if v.getLsbD 0 then 0xE1#128 <<< 120 else 0#128)) (x <<< 1)
def ghashMul (x y : BitVec 128) : BitVec 128 := ghashStep 128 0#128 y x

/-- GHASH of bytes whose number is a multiple of 16. -/
def ghashFrom (h : BitVec 128) : Nat → BitVec 128 → List Byte → BitVec 128
  | 0, y, _ => y
  | k + 1, y, l => ghashFrom h k (ghashMul (y ^^^ BitVec.ofNat 128 (bigNat (l.take 16))) h) (l.drop 16)
def ghash (h : BitVec 128) (l : List Byte) : BitVec 128 := ghashFrom h (l.length / 16) 0#128 l

def padTo16 (l : List Byte) : List Byte := l ++ List.replicate ((16 - l.length % 16) % 16) 0#8

/-- The key stream from counter `n` on, and data under it. -/
def gcmStream (keys iv : List Byte) : Nat → Nat → List Byte → List Byte
  | 0, _, _ => []
  | k + 1, n, l => xorBytes (l.take 16) (aesBlock keys (iv ++ bigBytes 4 n)) ++ gcmStream keys iv k (n + 1) (l.drop 16)
def gcmCrypt (keys iv l : List Byte) : List Byte := gcmStream keys iv ((l.length + 15) / 16) 2 l

/-- The 16-byte tag of ciphertext `c` with additional data `aad` under a 96-bit IV. -/
def gcmTag (keys iv aad c : List Byte) : List Byte :=
  let h := BitVec.ofNat 128 (bigNat (aesBlock keys (List.replicate 16 0#8)))
  let x := ghash h (padTo16 aad ++ padTo16 c ++ bigBytes 8 (8 * aad.length) ++ bigBytes 8 (8 * c.length))
  xorBytes (bigBytes 16 x.toNat) (aesBlock keys (iv ++ bigBytes 4 1))

/-! ## SHA3-512 (FIPS 202) -/

/-- Round constants by the shift register of FIPS 202: bit j of a constant stands at place 2^j − 1. -/
def keccakShift (x : Byte) : Byte := (x <<< 1) ^^^ (if x.getLsbD 7 then 0x71#8 else 0#8)
def keccakConst : Nat → Byte → BitVec 64 → Byte × BitVec 64
  | 0, r, c => (r, c)
  | k + 1, r, c => keccakConst k (keccakShift r) (if r.getLsbD 0 then c ||| (1#64 <<< (2 ^ (6 - k) - 1)) else c)

def laneOf25 (l : List (BitVec 64)) (x y : Nat) : BitVec 64 := l.getD (x % 5 + 5 * (y % 5)) 0#64

/-- Rotation of lane (x, y), by the walk of FIPS 202. -/
def rhoWalk : Nat → Nat → Nat → Nat → Nat → Nat → Nat
  | 0, _, _, _, _, _ => 0
  | k + 1, t, x, y, x', y' => if x = x' ∧ y = y' then (t + 1) * (t + 2) / 2 % 64 else rhoWalk k (t + 1) y ((2 * x + 3 * y) % 5) x' y'
def rhoOf (x y : Nat) : Nat := if x = 0 ∧ y = 0 then 0 else rhoWalk 24 0 1 0 x y

def keccakRound (l : List (BitVec 64)) (rc : BitVec 64) : List (BitVec 64) :=
  let c := fun x => (List.range 5).foldl (fun z y => z ^^^ laneOf25 l x y) 0#64
  let d := (List.range 5).map fun x => c ((x + 4) % 5) ^^^ (c ((x + 1) % 5)).rotateLeft 1
  let a := (List.range 25).map fun n => laneOf25 l n (n / 5) ^^^ d.getD (n % 5) 0#64
  let b := (List.range 25).map fun n =>
    let x := n % 5
    let y := n / 5
    -- lane (x, y) after π comes from (x + 3y, x)
    (laneOf25 a (x + 3 * y) x).rotateLeft (rhoOf ((x + 3 * y) % 5) x)
  (List.range 25).map fun n =>
    let x := n % 5
    let y := n / 5
    let z := laneOf25 b x y ^^^ (~~~(laneOf25 b (x + 1) y) &&& laneOf25 b (x + 2) y)
    if n = 0 then z ^^^ rc else z

def keccakRounds : Nat → Byte → List (BitVec 64) → List (BitVec 64)
  | 0, _, l => l
  | k + 1, r, l =>
    let c := keccakConst 7 r 0#64
    keccakRounds k c.1 (keccakRound l c.2)
def keccak (l : List (BitVec 64)) : List (BitVec 64) := keccakRounds 24 1#8 l

/-- Lanes of a block of 72 bytes, xored into a state. -/
def shaAbsorb : Nat → List (BitVec 64) → List Byte → List (BitVec 64)
  | 0, l, _ => l
  | k + 1, l, m =>
    shaAbsorb k (keccak ((List.range 25).map fun n =>
      l.getD n 0#64 ^^^ (if n < 9 then BitVec.ofNat 64 (natOfBytes ((m.drop (8 * n)).take 8)) else 0#64))) (m.drop 72)

/-- SHA3-512: 64 bytes, byte 0 in the low byte. -/
def sha3 (m : List Byte) : BitVec 512 :=
  let n := 71 - m.length % 72
  let pad := if n = 0 then [0x86#8] else [0x06#8] ++ List.replicate (n - 1) 0#8 ++ [0x80#8]
  let l := shaAbsorb ((m ++ pad).length / 72) (List.replicate 25 0#64) (m ++ pad)
  BitVec.ofNat 512 ((l.take 8).foldr (fun w x => w.toNat + 2 ^ 64 * x) 0)

end Sys2Proof.Machine
end

