-- ==== Sys2Proof/Machine/Block.lean ====
section
/-!
DEFINITION. Difference blocks and fold-ins as the dies send them (11_page R303, R304): the 16-byte header and the sheet bodies, written
and read.
-/
namespace Sys2Proof.Machine

/-- Maximal runs of changed words, each with the unchanged words before it. -/
def recordsOf : List (Option Word) → List (Nat × List Word)
  | [] => []
  | none :: rest =>
    match recordsOf rest with
    | (k, r) :: t => (k + 1, r) :: t
    | [] => []
  | some v :: rest =>
    match rest, recordsOf rest with
    | some _ :: _, (_, r) :: t => (0, v :: r) :: t
    | _, l => (0, [v]) :: l

/-- A record: SKIP, RUNM1 and the run's words. -/
def runBytes (r : Nat × List Word) : List Byte :=
  bytesOfNat 1 r.1 ++ bytesOfNat 1 (r.2.length - 1) ++ r.2.flatMap fun w => bytesOfNat 4 w.toNat

/-- The changed words of sheet j of a span, word by word. -/
def Diff.sheet (d : Diff) (j : Nat) : List (Option Word) :=
  (List.range 64).map fun w => (d.words.find? fun x => decide (x.1 = 64 * j + w)).map fun x => x.2

/-- The body of a sheet, or nothing when it has no changed word (R304). -/
def Diff.body (d : Diff) (j : Nat) : List Byte :=
  match recordsOf (d.sheet j) with
  | [] => []
  | l => l.flatMap runBytes ++ [0xFF#8]

/-- KIND: 0 release block, 1 fold-in, 2 marker. -/
def Diff.kindCode (d : Diff) : Nat := if d.words = [] then 2 else if d.foldIn then 1 else 0

/-- A block, fold-in or marker as it is sent (R303). -/
def Diff.wire (d : Diff) : List Byte :=
  let bodies := (List.range 16).map d.body
  let sheets := (List.range 16).foldl (fun x j => if d.body j = [] then x else x + 2 ^ j) 0
  let tail := bodies.flatMap id
  bytesOfNat 6 (4096 * d.span) ++ bytesOfNat 1 d.source ++ bytesOfNat 1 d.kindCode ++ bytesOfNat 4 d.stamp.toNat
    ++ bytesOfNat 2 sheets ++ bytesOfNat 2 (16 + tail.length) ++ tail

/-- The words of a run from word `w`, and the bytes after them. -/
def readRun : Nat → Nat → List Byte → List (Nat × Word) × List Byte
  | 0, _, l => ([], l)
  | n + 1, w, l =>
    let r := readRun n (w + 1) (l.drop 4)
    ((w, BitVec.ofNat 32 (natOfBytes (l.take 4))) :: r.1, r.2)

/-- A sheet body from word `w`: its words, and the bytes after its end byte. -/
def readBody : Nat → Nat → List Byte → List (Nat × Word) × List Byte
  | 0, _, l => ([], l)
  | fuel + 1, w, l =>
    match l with
    | skip :: run :: rest =>
      if skip = 0xFF#8 then ([], run :: rest)
      else
        let r := readRun (run.toNat + 1) (w + skip.toNat) rest
        let t := readBody fuel (w + skip.toNat + run.toNat + 1) r.2
        (r.1 ++ t.1, t.2)
    | _ => ([], l.drop 1)

/-- The bodies of the sheets from a list, in ascending order. -/
def readBodies (sheets : Nat) : List Nat → List Byte → List (Nat × Word)
  | [], _ => []
  | j :: rest, l =>
    if sheets.testBit j then
      let r := readBody 65 (64 * j) l
      r.1 ++ readBodies sheets rest r.2
    else readBodies sheets rest l

/-- What a block, fold-in or marker says. -/
def diffOf (l : List Byte) : Diff :=
  let f := fun (off n : Nat) => natOfBytes ((l.drop off).take n)
  { span := f 0 6 / 4096, source := f 6 1, foldIn := decide (f 7 1 = 1), stamp := BitVec.ofNat 32 (f 8 4),
    words := readBodies (f 12 2) (List.range 16) (l.drop 16) }

/-- The block that has been forwarded. -/
def Fwd.d (f : Fwd) : Diff := diffOf f.wire

end Sys2Proof.Machine
end

