-- ==== Sys2Proof/Machine/Operands.lean ====
section
/-!
DEFINITION. Operand forms (03_encoding R55-R57; 04_registers R83-R88): what a register, special register, immediate or zero
enters an instruction as, lane by lane or as a scalar, with the boundaries it gives a result; privileged reads; the last-read
marks; and writing a destination.
-/
namespace Sys2Proof.Machine

/-! ## Special registers (R85, R86, R208) -/

/-- sr.mbx of a gang (R208). -/
def mbxStatus (s : State) (g : Gang) : DWord :=
  let m := getMailbox s g.id.die g.ctx
  let next := match m.packets with
    | [] => m.seq
    | (q, _) :: _ => q
  ((BitVec.setWidth 64 next : BitVec 64) <<< (32 : Nat)) ||| (BitVec.ofNat 64 (256 - m.spawnq.length) <<< (16 : Nat)) ||| BitVec.ofNat 64 m.packets.length

/-- sr.scratch: SIZE and BASE of the block's allocation (R86). -/
def scratchReg (b : Block) : DWord := (BitVec.ofNat 64 b.size <<< (32 : Nat)) ||| BitVec.ofNat 64 b.base

/-- The value of a special register as a scalar, zero-extended (R85). -/
def srVal (s : State) (g : Gang) (x : PcSlot) (r : SReg) : DWord :=
  let a := g.arch
  let b := findBlock s g.block
  match r with
  | .lane => 0#64
  | .gang => BitVec.ofNat 64 g.index
  | .block => match b with
    | some b => b.index.setWidth 64
    | none => 0#64
  | .grid => match b with
    | some b => b.grid.setWidth 64
    | none => 0#64
  | .cluster => match b with
    | some b => BitVec.ofNat 64 b.rank
    | none => 0#64
  | .core => BitVec.ofNat 64 g.id.core
  | .die => BitVec.ofNat 64 g.id.die
  | .device => s.admin.devid.setWidth 64
  | .part => a.part.setWidth 64
  | .flags => a.flags.setWidth 64
  | .fpmode => a.fpmode.setWidth 64
  | .tags => (getCore s g.id.die g.id.core).tags
  | .budget => BitVec.ofNat 64 (budgetLeft s g)
  | .nanc => a.nanc.setWidth 64
  | .args => match b with
    | some b => b.args
    | none => 0#64
  | .scratch => match b with
    | some b => scratchReg b
    | none => 0#64
  | .tcause => a.tcause.setWidth 64
  | .tpc => a.tpc
  | .tval => a.tval
  | .tlane => a.tlane.setWidth 64
  | .tslot => BitVec.ofNat 64 (slotNum a.tslot)
  | .leave => g.leave
  | .mbx => mbxStatus s g
  | .active => (a.slot x).mask.setWidth 64

/-- A special register that may be read only in trap mode (R56). -/
def srTrapOnly : SReg → Bool
  | .tcause | .tpc | .tval | .tlane | .tslot => true
  | _ => false

/-- The gang may read the special register (R56). -/
def srReadable (g : Gang) (r : SReg) : Bool :=
  if srTrapOnly r then decide (g.arch.mode = .trap) else if r = .mbx then g.dispatcher else true

/-- A free value of this moment; sr.tval of a PRIVILEGE by a special register is one (R56 states none). -/
def freeNow (s : State) : BitVec 64 := Config.freeValue s.freeCtr 0 0

/-- PRIVILEGE of the first operand that the gang may not read (R56). -/
def privCheck (c : Ctx) : List Opnd → Option Halt
  | [] => none
  | o :: rest =>
    match o with
    | .sr r => if srReadable c.g r then privCheck c rest else some (.trap cPrivilege (freeNow c.s) 0#5)
    | _ => privCheck c rest

/-! ## Sources -/

/-- A scalar source: 64 bits of a register, a sign-extended immediate, a zero-extended special register, a mask, or zero
(R56). A dead register gives 0 here; reading one traps before (R92). -/
def scalarOf (c : Ctx) (o : Opnd) : DWord :=
  match o with
  | .v _ => 0#64
  | .s n => match c.a.sreg n with
    | some x => x
    | none => 0#64
  | .p n => (c.a.preg n).setWidth 64
  | .sr r => srVal c.s c.g c.x r
  | .zero => 0#64
  | .imm x => x.signExtend 64

/-- A source's value in a lane: the register's lane; for sr.lane the lane number; for a predicate its bit; otherwise the low
32 bits, the same in every lane (R56). -/
def laneOf (c : Ctx) (o : Opnd) (i : Nat) : Word :=
  match o with
  | .v n => vregVal (c.a.vreg n) i
  | .sr .lane => BitVec.ofNat 32 i
  | .p n => if inMask (c.a.preg n) i then 1#32 else 0#32
  | _ => (scalarOf c o).setWidth 32

/-- A run boundary that a source brings to a result (R88). -/
def cutOf (c : Ctx) (o : Opnd) (i : Nat) : Bool :=
  match o with
  | .v n => vregCut (c.a.vreg n) i
  | .sr .lane => true
  | .p n => edgeAt (c.a.preg n) i
  | _ => false

/-- The union of the sources' boundaries (R88). -/
def cutsOf (c : Ctx) (l : List Opnd) (i : Nat) : Bool := l.any fun o => cutOf c o i

/-- A mask source: a predicate, the low 32 bits of a scalar or immediate, or zero (R170). -/
def maskOfOpnd (c : Ctx) (o : Opnd) : Mask :=
  match o with
  | .p n => c.a.preg n
  | _ => (scalarOf c o).setWidth 32

/-- Operands each read as one register. -/
def single (l : List Opnd) : Reads := l.map fun o => (o, 1)

/-- The marks of LA, LB and LC on single-register fields (R59). -/
def headKills (h : Head) (a b c : Opnd) : Reads := killsOf h (a, 1) (b, 1) (c, 1)

/-! ## Destinations -/

/-- Write a scalar destination: a scalar register, or nothing for zero (R55, R57). -/
def writeScalar (a : Arch) (d : Opnd) (x : DWord) : Arch :=
  match d with
  | .s n => a.setS n (some x)
  | _ => a

/-- Write a lane-wise result (R88, R89): merged with the old destination as `old` holds it, into registers `a`. -/
def writeLanes (old a : Arch) (act : Mask) (d : Opnd) (cut : Nat → Bool) (val : Nat → Word) : Arch :=
  match d with
  | .v n => a.setV n (some (writeRuns (old.vreg n) act cut val))
  | _ => a

/-- Write a normalised result (R90). -/
def writeLanesMax (old a : Arch) (act : Mask) (d : Opnd) (val : Nat → Word) : Arch :=
  match d with
  | .v n => a.setV n (some (writeMax (old.vreg n) act val))
  | _ => a

/-- Write the active bits of a predicate destination (R55). -/
def writePred (a : Arch) (act : Mask) (d : Opnd) (bits : Mask) : Arch :=
  match d with
  | .p n => a.setP n act bits
  | _ => a

end Sys2Proof.Machine
end

