-- ==== Sys2Proof/Machine/Flags.lean ====
section
/-!
DEFINITION. The sticky flags and their traps (04_registers R86; 05_numbers R124, R125), and the shapes that the arithmetic
instructions share: a lane-wise result, a mask result and a scalar result, each checked in the order of R146 and committed
once.
-/
namespace Sys2Proof.Machine

/-! ## Flag bits of sr.flags (R86) -/

def fNV : BitVec 8 := 0x01#8
def fDZ : BitVec 8 := 0x02#8
def fOF : BitVec 8 := 0x04#8
def fUF : BitVec 8 := 0x08#8
def fNX : BitVec 8 := 0x10#8
def fIDZ : BitVec 8 := 0x20#8
def fIOV : BitVec 8 := 0x40#8
def fSATC : BitVec 8 := 0x80#8

/-- A flag that is raised when a condition holds. -/
def flagIf (b : Bool) (f : BitVec 8) : BitVec 8 := if b then f else 0#8

/-- FP_EXC when an enabled one of NV, DZ, OF, UF and NX is raised, else INT_EXC when IDZ or IOV is raised and bit 9 is set;
sr.tval holds the raised flags (R125). -/
def excCheck (fpmode : BitVec 10) (fl : BitVec 8) : Option Halt :=
  if fl &&& 0x1F#8 &&& (fpmode.extractLsb' 4 5).setWidth 8 ≠ 0#8 then some (.trap cFpExc (fl.setWidth 64) 0#5)
  else if fl &&& 0x60#8 ≠ 0#8 ∧ fpmode.getLsbD 9 then some (.trap cIntExc (fl.setWidth 64) 0#5)
  else none

/-- OR raised flags into sr.flags (R125). -/
def raiseFlags (a : Arch) (fl : BitVec 8) : Arch := { a with flags := a.flags ||| fl }

/-- The flags that the active lanes raise: those of each lane, ORed (R124). -/
def laneFlags (act : Mask) (f : Nat → BitVec 8) : BitVec 8 :=
  (List.range 32).foldl (fun x i => if inMask act i then x ||| f i else x) 0#8

/-! ## Shapes of arithmetic instructions -/

/-- The checks between issue and computation: privilege, the second cause of R146; then open registers, poison, and the
masked merge (DESIGN CHOICE: the order of these, log 24). -/
def enterCheck (c : Ctx) (d : Opnd) (srcs : List Opnd) : Option Halt :=
  firstHalt [privCheck c srcs, readCheck c.a c.act (single srcs), mergeCheck c.a c.act d]

/-- An instruction with a per-lane or once-only effect: the dead reads, then nothing but the marks when no lane is active,
then the checks, then the traps of the flags it raises, then the commit of the registers `w` (R92, R51, R146, R125). -/
def arith (c : Ctx) (d : Opnd) (srcs : List Opnd) (kills : Reads) (fl : BitVec 8) (w : Arch → Arch) : Res :=
  match deadCheck c.a (single srcs) with
  | some h => c.halt h
  | none =>
    if c.act = 0#32 then c.commit (killRegs c.a kills)
    else
      match enterCheck c d srcs with
      | some h => c.halt h
      | none =>
        match excCheck c.a.fpmode fl with
        | some h => c.halt h
        | none => c.commit (raiseFlags (w (killRegs c.a kills)) fl)

/-- A lane-wise vector instruction: `f` gives a lane's value and flags (R145). -/
def laneArith (c : Ctx) (d : Opnd) (srcs : List Opnd) (kills : Reads) (f : Nat → Word × BitVec 8) : Res :=
  arith c d srcs kills (laneFlags c.act fun i => (f i).2) fun a =>
    writeLanes c.a a c.act d (cutsOf c srcs) fun i => (f i).1

/-- Lane-wise with one source. -/
def lane1 (h : Head) (d a : Opnd) (s : State) (f : Word → Word × BitVec 8) : Res :=
  issue s h.guard fun c => laneArith c d [a] (headKills h a .zero .zero) fun i => f (laneOf c a i)

/-- Lane-wise with two sources. -/
def lane2 (h : Head) (d a b : Opnd) (s : State) (f : Word → Word → Word × BitVec 8) : Res :=
  issue s h.guard fun c => laneArith c d [a, b] (headKills h a b .zero) fun i => f (laneOf c a i) (laneOf c b i)

/-- Lane-wise with three sources. -/
def lane3 (h : Head) (d a b e : Opnd) (s : State) (f : Word → Word → Word → Word × BitVec 8) : Res :=
  issue s h.guard fun c =>
    laneArith c d [a, b, e] (headKills h a b e) fun i => f (laneOf c a i) (laneOf c b i) (laneOf c e i)

/-- A mask instruction: `f` gives a lane's bit and flags; only active bits are written (R145, R167). -/
def predArith (c : Ctx) (d : Opnd) (srcs : List Opnd) (kills : Reads) (f : Nat → Bool × BitVec 8) : Res :=
  arith c d srcs kills (laneFlags c.act fun i => (f i).2) fun a => writePred a c.act d (maskOf fun i => (f i).1)

/-- A scalar instruction: it executes once when some lane is active (R145). -/
def scalarArith (c : Ctx) (d : Opnd) (srcs : List Opnd) (kills : Reads) (r : DWord × BitVec 8) : Res :=
  arith c .zero srcs kills r.2 fun a => writeScalar a d r.1

def scalar1 (h : Head) (d a : Opnd) (s : State) (f : DWord → DWord × BitVec 8) : Res :=
  issue s h.guard fun c => scalarArith c d [a] (headKills h a .zero .zero) (f (scalarOf c a))

def scalar2 (h : Head) (d a b : Opnd) (s : State) (f : DWord → DWord → DWord × BitVec 8) : Res :=
  issue s h.guard fun c => scalarArith c d [a, b] (headKills h a b .zero) (f (scalarOf c a) (scalarOf c b))

def scalar3 (h : Head) (d a b e : Opnd) (s : State) (f : DWord → DWord → DWord → DWord × BitVec 8) : Res :=
  issue s h.guard fun c =>
    scalarArith c d [a, b, e] (headKills h a b e) (f (scalarOf c a) (scalarOf c b) (scalarOf c e))

end Sys2Proof.Machine
end

