-- ==== Sys2Proof/Machine/Float.lean ====
section
/-!
DEFINITION. Floating-point arithmetic by exact values (05_numbers R111-R119, R126, R130; 06_vector_ops R158, R159): formats,
decoding, rounding an exact value once to a format's grid, and the operations on FP32, BF16, FP16 and FP64 codes.
-/
namespace Sys2Proof.Machine

/-! ## Formats (R112) -/

/-- A floating-point format: exponent and mantissa bits, bias, code of +infinity if it has one, its canonical NaN if it has
one, and the code of its largest finite value. -/
structure FF where
  eb : Nat
  mb : Nat
  bias : Nat
  inf : Option Nat
  nan : Option Nat
  maxFin : Nat
  deriving DecidableEq, Repr

def ffF64 : FF :=
  { eb := 11, mb := 52, bias := 1023, inf := some 0x7FF0000000000000, nan := some 0x7FF8000000000000,
    maxFin := 0x7FEFFFFFFFFFFFFF }
def ffF32 : FF := { eb := 8, mb := 23, bias := 127, inf := some 0x7F800000, nan := some 0x7FC00000, maxFin := 0x7F7FFFFF }
def ffBf16 : FF := { eb := 8, mb := 7, bias := 127, inf := some 0x7F80, nan := some 0x7FC0, maxFin := 0x7F7F }
def ffF16 : FF := { eb := 5, mb := 10, bias := 15, inf := some 0x7C00, nan := some 0x7E00, maxFin := 0x7BFF }
def ffE5m2 : FF := { eb := 5, mb := 2, bias := 15, inf := some 0x7C, nan := some 0x7E, maxFin := 0x7B }
def ffE4m3 : FF := { eb := 4, mb := 3, bias := 7, inf := none, nan := some 0x7F, maxFin := 0x7E }
def ffE3m2 : FF := { eb := 3, mb := 2, bias := 3, inf := none, nan := none, maxFin := 0x1F }
def ffE2m3 : FF := { eb := 2, mb := 3, bias := 1, inf := none, nan := none, maxFin := 0x1F }
def ffE2m1 : FF := { eb := 2, mb := 1, bias := 1, inf := none, nan := none, maxFin := 0x7 }

/-- Position of the sign bit. -/
def FF.sign (f : FF) : Nat := f.eb + f.mb

/-- Exponent of the least significand bit of a subnormal. -/
def FF.qmin (f : FF) : Int := 1 - (f.bias : Int) - (f.mb : Int)

/-- Exponent of the least significand bit in the top binade of finite values. -/
def FF.qtop (f : FF) : Int := f.qmin + ((f.maxFin / 2 ^ f.mb : Nat) : Int) - 1

/-! ## Values -/

/-- What a code stands for: NaN, an infinity, or (−1)^neg · m · 2^e. -/
inductive FVal where
  | nan
  | inf (neg : Bool)
  | fin (neg : Bool) (m : Nat) (e : Int)
  deriving DecidableEq, Repr

/-- The value of a code (R112). The code is taken modulo the format's width. -/
def fdecode (f : FF) (code : Nat) : FVal :=
  let c := code % 2 ^ (f.sign + 1)
  let neg := decide (c / 2 ^ f.sign = 1)
  let mag := c % 2 ^ f.sign
  if f.inf = some mag then .inf neg
  else if f.maxFin < mag then .nan
  else if mag < 2 ^ f.mb then .fin neg mag f.qmin
  else .fin neg (2 ^ f.mb + mag % 2 ^ f.mb) (f.qmin + ((mag / 2 ^ f.mb : Nat) : Int) - 1)

/-- The sign bit of a code. -/
def fneg (f : FF) (code : Nat) : Bool := decide (code % 2 ^ (f.sign + 1) / 2 ^ f.sign = 1)

/-- A magnitude with a sign. -/
def withSign (f : FF) (neg : Bool) (mag : Nat) : Nat := if neg then mag + 2 ^ f.sign else mag

/-- The canonical NaN (R114); a format without one is not asked for it. -/
def nanCode (f : FF) : Nat := match f.nan with
  | some n => n
  | none => 0

/-- The infinity of a sign. -/
def infCode (f : FF) (neg : Bool) : Nat := withSign f neg (match f.inf with
  | some n => n
  | none => f.maxFin)

/-- Flip the sign bit, of a NaN too (R158). -/
def flipSign (f : FF) (code : Nat) (b : Bool) : Nat :=
  if b then withSign f (!fneg f code) (code % 2 ^ f.sign) else code

/-- A subnormal code. -/
def isSubnormal (f : FF) (code : Nat) : Bool :=
  decide (0 < code % 2 ^ f.sign) && decide (code % 2 ^ f.sign < 2 ^ f.mb)

/-- A subnormal read as the zero of its sign when flushing (R119). -/
def flushIn (f : FF) (ftz : Bool) (code : Nat) : Nat :=
  if ftz && isSubnormal f code then withSign f (fneg f code) 0 else code

/-! ## Rounding (R118, R121, R130) -/

/-- An exact magnitude: m · 2^e, or strictly between m · 2^e and (m + 1) · 2^e when `sticky`. -/
structure Exact where
  neg : Bool
  m : Nat
  e : Int
  sticky : Bool
  deriving DecidableEq, Repr

/-- Bits of a number. -/
def bitLen (m : Nat) : Nat := if m = 0 then 0 else Nat.log2 m + 1

/-- Whether rounding goes to the larger magnitude: `rem` of `2^d` lies below the kept bits, `odd` tells the last kept bit,
`draw` is the 24-bit draw of SR. -/
def roundsUp (rm : Rm) (draw : Nat) (neg odd : Bool) (rem d : Nat) (sticky : Bool) : Bool :=
  let half := 2 ^ d / 2
  let above := decide (half < rem) || (decide (rem = half) && sticky)
  let tie := decide (rem = half) && !sticky && decide (0 < d)
  let inexact := decide (0 < rem) || sticky
  match rm with
  | .rne | .dyn => (decide (0 < d) && above) || (tie && odd)
  | .rz => false
  | .rup => inexact && !neg
  | .rdn => inexact && neg
  | .rna => (decide (0 < d) && above) || tie
  | .sr => decide (draw < rem * 2 ^ 24 / 2 ^ d)

/-- Round a magnitude to the grid whose least exponent is `q`: the kept number of quanta, and whether it differs from the value. -/
def roundQuanta (rm : Rm) (draw : Nat) (x : Exact) (q : Int) : Nat × Bool :=
  if q ≤ x.e then (x.m * 2 ^ (x.e - q).toNat, x.sticky)
  else
    let d := (q - x.e).toNat
    let k := x.m / 2 ^ d
    let rem := x.m % 2 ^ d
    (if roundsUp rm draw x.neg (decide (k % 2 = 1)) rem d x.sticky then k + 1 else k, decide (0 < rem) || x.sticky)

/-- The quantum's exponent for a magnitude in a format: its significand grid, not below the subnormal grid; SR extends the
top binade's spacing upward (R121). -/
def quantumOf (f : FF) (rm : Rm) (x : Exact) : Int :=
  if x.m = 0 then f.qmin
  else
    let q := max (x.e + (bitLen x.m : Int) - ((f.mb : Int) + 1)) f.qmin
    if rm = .sr then min q f.qtop else q

/-- Round an exact finite value to a format, exponent unbounded above: the magnitude code, which exceeds `maxFin` where the
value does, and whether it is inexact. Above the top binade under SR the code is `maxFin + 1`. -/
def roundMag (f : FF) (rm : Rm) (draw : Nat) (x : Exact) : Nat × Bool :=
  let q := quantumOf f rm x
  let r := roundQuanta rm draw x q
  if rm = .sr ∧ 2 ^ (f.mb + 1) < r.1 then (f.maxFin + 1, r.2)
  else (r.1 + (q - f.qmin).toNat * 2 ^ f.mb, r.2)

/-- A finite exact value to a floating-point format by R130: code and flags. -/
def packFinite (f : FF) (rm : Rm) (draw : Nat) (sat : Bool) (x : Exact) : Nat × BitVec 8 :=
  let r := roundMag f rm draw x
  let fl := flagIf r.2 fNX ||| flagIf (r.2 && decide (r.1 < 2 ^ f.mb)) fUF
  if f.maxFin < r.1 then
    if sat || (f.inf.isNone && f.nan.isNone) then (withSign f x.neg f.maxFin, fl ||| fSATC)
    else if f.inf.isSome then
      if rm = .rz ∨ (rm = .rdn ∧ !x.neg) ∨ (rm = .rup ∧ x.neg) then (withSign f x.neg f.maxFin, fl ||| fOF)
      else (infCode f x.neg, fl ||| fOF)
    else (nanCode f, fl ||| fOF)
  else (withSign f x.neg r.1, fl)

/-- A value to a floating-point format (R130). -/
def packVal (f : FF) (rm : Rm) (draw : Nat) (sat : Bool) (v : FVal) : Nat × BitVec 8 :=
  match v with
  | .nan => if f.nan.isSome then (nanCode f, 0#8) else (0, fNV)
  | .inf neg =>
    if sat || (f.inf.isNone && f.nan.isNone) then (withSign f neg f.maxFin, fSATC)
    else if f.inf.isSome then (infCode f neg, 0#8)
    else (nanCode f, fNV)
  | .fin neg m e => packFinite f rm draw sat { neg := neg, m := m, e := e, sticky := false }

/-! ## Modes (R63, R118, R119) -/

/-- Rounding mode of the code in sr.fpmode bits 2:0 outside conversions: 5, 6 and 7 give RNE. -/
def modeRm (fpmode : BitVec 10) : Rm :=
  match (fpmode.extractLsb' 0 3).toNat with
  | 0 => .rne | 1 => .rz | 2 => .rup | 3 => .rdn | 4 => .rna | _ => .rne

/-- Rounding mode of the code in sr.fpmode in a conversion: 5 gives SR (R118). -/
def modeRmConv (fpmode : BitVec 10) : Rm :=
  if (fpmode.extractLsb' 0 3).toNat = 5 then .sr else modeRm fpmode

/-- DYN outside conversions. -/
def effRm (fpmode : BitVec 10) (rm : Rm) : Rm := if rm = .dyn then modeRm fpmode else rm

/-- DYN in a conversion. -/
def effRmConv (fpmode : BitVec 10) (rm : Rm) : Rm := if rm = .dyn then modeRmConv fpmode else rm

/-- Flushing: the FTZ bit, or DYN with sr.fpmode bit 3 (R119). -/
def effFtz (fpmode : BitVec 10) (rm : Rm) (ftz : Bool) : Bool := ftz || (decide (rm = .dyn) && fpmode.getLsbD 3)

/-! ## Exact results (R158) -/

/-- An operation's outcome before rounding: a NaN with its flags, an infinity with its flags, a zero of a sign, or a value. -/
inductive FRes where
  | nan (fl : BitVec 8)
  | inf (neg : Bool) (fl : BitVec 8)
  | zero (neg : Bool)
  | val (x : Exact)
  deriving DecidableEq, Repr

/-- A signed integer times a power of two as a result; an exact zero of a sum is +0, or −0 under RDN. -/
def sumRes (rm : Rm) (x : Int) (e : Int) : FRes :=
  if x = 0 then .zero (decide (rm = .rdn)) else .val { neg := decide (x < 0), m := x.natAbs, e := e, sticky := false }

/-- A magnitude with its sign. -/
def signed (neg : Bool) (m : Nat) : Int := if neg then -(m : Int) else (m : Int)

/-- The exact sum of two finite values given by sign, magnitude and exponent. -/
def addFin (rm : Rm) (n1 : Bool) (m1 : Nat) (e1 : Int) (n2 : Bool) (m2 : Nat) (e2 : Int) : FRes :=
  if m1 = 0 ∧ m2 = 0 ∧ n1 = n2 then .zero n1
  else
    let e := min e1 e2
    sumRes rm (signed n1 (m1 * 2 ^ (e1 - e).toNat) + signed n2 (m2 * 2 ^ (e2 - e).toNat)) e

/-- a + b. -/
def addRes (rm : Rm) (a b : FVal) : FRes :=
  match a, b with
  | .nan, _ => .nan 0#8
  | _, .nan => .nan 0#8
  | .inf x, .inf y => if x = y then .inf x 0#8 else .nan fNV
  | .inf x, _ => .inf x 0#8
  | _, .inf y => .inf y 0#8
  | .fin n1 m1 e1, .fin n2 m2 e2 => addFin rm n1 m1 e1 n2 m2 e2

/-- a · b. -/
def mulRes (a b : FVal) : FRes :=
  match a, b with
  | .nan, _ => .nan 0#8
  | _, .nan => .nan 0#8
  | .inf x, .inf y => .inf (x != y) 0#8
  | .inf x, .fin y m _ => if m = 0 then .nan fNV else .inf (x != y) 0#8
  | .fin x m _, .inf y => if m = 0 then .nan fNV else .inf (x != y) 0#8
  | .fin n1 m1 e1, .fin n2 m2 e2 =>
    if m1 * m2 = 0 then .zero (n1 != n2) else .val { neg := n1 != n2, m := m1 * m2, e := e1 + e2, sticky := false }

/-- a · b + c: an invalid product is invalid even when c is NaN. -/
def fmaRes (rm : Rm) (a b c : FVal) : FRes :=
  match mulRes a b with
  | .nan fl => .nan fl
  | .inf x _ =>
    match c with
    | .nan => .nan 0#8
    | .inf y => if x = y then .inf x 0#8 else .nan fNV
    | .fin _ _ _ => .inf x 0#8
  | .zero n =>
    match c with
    | .nan => .nan 0#8
    | .inf y => .inf y 0#8
    | .fin n2 m2 e2 => addFin rm n 0 0 n2 m2 e2
  | .val x =>
    match c with
    | .nan => .nan 0#8
    | .inf y => .inf y 0#8
    | .fin n2 m2 e2 => addFin rm x.neg x.m x.e n2 m2 e2

/-- a / b, to 60 bits below the ratio of the significands. -/
def divRes (a b : FVal) : FRes :=
  match a, b with
  | .nan, _ => .nan 0#8
  | _, .nan => .nan 0#8
  | .inf _, .inf _ => .nan fNV
  | .inf x, .fin y _ _ => .inf (x != y) 0#8
  | .fin x _ _, .inf y => .zero (x != y)
  | .fin n1 m1 e1, .fin n2 m2 e2 =>
    if m2 = 0 then (if m1 = 0 then .nan fNV else .inf (n1 != n2) fDZ)
    else if m1 = 0 then .zero (n1 != n2)
    else .val { neg := n1 != n2, m := m1 * 2 ^ 60 / m2, e := e1 - e2 - 60, sticky := decide (m1 * 2 ^ 60 % m2 ≠ 0) }

/-- Integer square root by bits from the top: `r` is the root of the bits above, `k` bits are left. -/
def isqrtFrom (n : Nat) : Nat → Nat → Nat
  | 0, r => r
  | k + 1, r =>
    let t := r + 2 ^ k
    isqrtFrom n k (if t * t ≤ n then t else r)

/-- The largest r with r · r ≤ n, for n below 2^(2 · 64). -/
def isqrt (n : Nat) : Nat := isqrtFrom n 64 0

/-- sqrt(a). -/
def sqrtRes (a : FVal) : FRes :=
  match a with
  | .nan => .nan 0#8
  | .inf neg => if neg then .nan fNV else .inf false 0#8
  | .fin neg m e =>
    if m = 0 then .zero neg
    else if neg then .nan fNV
    else
      let sh : Nat := if e % 2 = 0 then 60 else 61
      let x := m * 2 ^ sh
      let r := isqrt x
      .val { neg := false, m := r, e := (e - (sh : Int)) / 2, sticky := decide (r * r ≠ x) }

/-! ## Rounding a result once, flushing, saturating (R158) -/

/-- The code and flags of a result in a format. -/
def packRes (f : FF) (rm : Rm) (r : FRes) : Nat × BitVec 8 :=
  match r with
  | .nan fl => (nanCode f, fl)
  | .inf neg fl => (infCode f neg, fl)
  | .zero neg => (withSign f neg 0, 0#8)
  | .val x => packFinite f rm 0 false x

/-- A subnormal result written as zero when flushing (R119). -/
def flushOut (f : FF) (ftz : Bool) (r : Nat × BitVec 8) : Nat × BitVec 8 :=
  if ftz && isSubnormal f r.1 then (withSign f (fneg f r.1) 0, r.2 ||| fUF ||| fNX) else r

/-- The code of 1 in a format. -/
def oneCode (f : FF) : Nat := f.bias * 2 ^ f.mb

/-- SAT: min(1, max(+0, result)), NaN to +0 (R158). -/
def clamp01 (f : FF) (sat : Bool) (r : Nat × BitVec 8) : Nat × BitVec 8 :=
  if !sat then r
  else
    match fdecode f r.1 with
    | .nan => (0, r.2)
    | .inf neg => (if neg then 0 else oneCode f, r.2)
    | .fin neg _ _ => (if neg then 0 else min r.1 (oneCode f), r.2)

/-- Round, flush and saturate a result. -/
def finishRes (f : FF) (rm : Rm) (ftz sat : Bool) (r : FRes) : Nat × BitVec 8 :=
  clamp01 f sat (flushOut f ftz (packRes f rm r))

/-- Add, multiply, fused multiply-add, divide and square root of codes in a format (R158). -/
def fpAdd (f : FF) (rm : Rm) (ftz sat : Bool) (a b : Nat) : Nat × BitVec 8 :=
  finishRes f rm ftz sat (addRes rm (fdecode f (flushIn f ftz a)) (fdecode f (flushIn f ftz b)))
def fpMul (f : FF) (rm : Rm) (ftz sat : Bool) (a b : Nat) : Nat × BitVec 8 :=
  finishRes f rm ftz sat (mulRes (fdecode f (flushIn f ftz a)) (fdecode f (flushIn f ftz b)))
def fpFma (f : FF) (rm : Rm) (ftz sat : Bool) (a b c : Nat) : Nat × BitVec 8 :=
  finishRes f rm ftz sat
    (fmaRes rm (fdecode f (flushIn f ftz a)) (fdecode f (flushIn f ftz b)) (fdecode f (flushIn f ftz c)))
def fpDiv (f : FF) (rm : Rm) (ftz sat : Bool) (a b : Nat) : Nat × BitVec 8 :=
  finishRes f rm ftz sat (divRes (fdecode f (flushIn f ftz a)) (fdecode f (flushIn f ftz b)))
def fpSqrt (f : FF) (rm : Rm) (ftz sat : Bool) (a : Nat) : Nat × BitVec 8 :=
  finishRes f rm ftz sat (sqrtRes (fdecode f (flushIn f ftz a)))

/-! ## Order (R159, R168) -/

/-- The place of a non-NaN code in the order that puts −0 below +0. -/
def orderKey (f : FF) (code : Nat) : Int :=
  let mag := code % 2 ^ f.sign
  if fneg f code then -(mag : Int) - 1 else (mag : Int)

/-- A NaN code. -/
def isNan (f : FF) (code : Nat) : Bool := decide (fdecode f code = .nan)

/-- FMIN or FMAX of codes (R159). -/
def fpMinMax (f : FF) (max : Bool) (ftz sat : Bool) (a b : Nat) : Nat × BitVec 8 :=
  let a := flushIn f ftz a
  let b := flushIn f ftz b
  let r :=
    if isNan f a && isNan f b then nanCode f
    else if isNan f a then b
    else if isNan f b then a
    else if decide (orderKey f a ≤ orderKey f b) = max then b
    else a
  clamp01 f sat (flushOut f ftz (r, 0#8))

/-- The comparison of two values that are not NaN: less, equal or greater. −0 equals +0 (R168). -/
def fpCompare (f : FF) (a b : Nat) : Ordering :=
  let x := code0 a
  let y := code0 b
  if x < y then .lt else if x = y then .eq else .gt
where
  /-- Signed magnitude: both zeros are 0. -/
  code0 (c : Nat) : Int := if fneg f c then -((c % 2 ^ f.sign : Nat) : Int) else ((c % 2 ^ f.sign : Nat) : Int)

/-- FP32 addition rounded to nearest without flushing: the step of REDUCE.fadd and SCAN.fadd (R126, R127). -/
def f32AddRne (a b : Word) : Word × BitVec 8 :=
  let r := fpAdd ffF32 .rne false false a.toNat b.toNat
  (BitVec.ofNat 32 r.1, r.2)

end Sys2Proof.Machine
end

