-- ==== Sys2Proof/Machine/Approx.lean ====
section
/-!
DEFINITION. The one-source FP32 functions (06_vector_ops R160, R161): 1/a, 1/sqrt a, 2^a, log2 a, sin a, cos a and tanh a. The
true result is enclosed in fixed point with 704 fraction bits, far finer than the distance of an irrational result from
the FP32 grid; which of the two FP32 neighbours an inexact result takes is free (Config.approxUp).
-/
namespace Sys2Proof.Machine

/-- Fraction bits of the fixed-point numbers. -/
def fxP : Nat := 704

/-- One in fixed point. -/
def fxOne : Int := ((2 ^ fxP : Nat) : Int)

/-- Product of fixed-point numbers, rounded down. -/
def fxMul (x y : Int) : Int := x * y / fxOne

/-- Sum of z^(2k+1)/(2k+1) with signs alternating if `alt`: atan or atanh. `t` is z^(2k+1), `z2` is z squared. -/
def oddSeries (alt : Bool) (z2 : Int) : Nat → Nat → Int → Int → Int
  | 0, _, _, acc => acc
  | n + 1, k, t, acc =>
    let term := t / (2 * (k : Int) + 1)
    oddSeries alt z2 n (k + 1) (fxMul t z2) (if alt && decide (k % 2 = 1) then acc - term else acc + term)

/-- ln 2 = 2 atanh(1/3). -/
def fxLn2 : Int := let z := fxOne / 3; 2 * oddSeries false (fxMul z z) 240 0 z 0

/-- π = 16 atan(1/5) − 4 atan(1/239). -/
def fxPi : Int :=
  let x := fxOne / 5
  let y := fxOne / 239
  16 * oddSeries true (fxMul x x) 160 0 x 0 - 4 * oddSeries true (fxMul y y) 60 0 y 0

/-- Sum of x^k/k! from term `t` on. -/
def expSeries (x : Int) : Nat → Nat → Int → Int → Int
  | 0, _, _, acc => acc
  | n + 1, k, t, acc => expSeries x n (k + 1) (fxMul t x / ((k : Int) + 1)) (acc + t)

/-- e^x for a small fixed-point x. -/
def fxExp (x : Int) : Int := expSeries x 170 0 fxOne 0

/-- Sine or cosine of a small fixed-point x by its series: `t` is the term, `k` its power. -/
def trigSeries (x2 : Int) : Nat → Nat → Int → Int → Int
  | 0, _, _, acc => acc
  | n + 1, k, t, acc => trigSeries x2 n (k + 2) (-(fxMul t x2) / (((k : Int) + 1) * ((k : Int) + 2))) (acc + t)

def fxSin (x : Int) : Int := trigSeries (fxMul x x) 90 1 x 0
def fxCos (x : Int) : Int := trigSeries (fxMul x x) 90 0 fxOne 0

/-- m · 2^e in fixed point, rounded down. -/
def fxOf (m : Nat) (e : Int) : Int :=
  let k := e + (fxP : Int)
  if 0 ≤ k then ((m * 2 ^ k.toNat : Nat) : Int) else ((m / 2 ^ (-k).toNat : Nat) : Int)

/-- A fixed-point number as an inexact result. -/
def fxVal (x : Int) : FRes :=
  .val { neg := decide (x < 0), m := x.natAbs, e := -(fxP : Int), sticky := true }

/-- The negative of a magnitude: a fixed-point number rounded down is one quantum further out. -/
def fxNeg (b : Bool) (r : FRes) : FRes :=
  match r with
  | .val x => .val { x with neg := x.neg != b }
  | r => r

/-- 1/a of a finite non-zero value. -/
def rcpVal (neg : Bool) (m : Nat) (e : Int) : FRes :=
  .val { neg := neg, m := 2 ^ 60 / m, e := -e - 60, sticky := decide (2 ^ 60 % m ≠ 0) }

/-- 1/sqrt a of a finite positive value: the exponent is made even and the root is taken of 2^112 / m. -/
def rsqVal (m : Nat) (e : Int) : FRes :=
  let m' : Nat := if e % 2 = 0 then m else 2 * m
  let e' : Int := if e % 2 = 0 then e else e - 1
  let r := isqrt (2 ^ 112 / m')
  .val { neg := false, m := r, e := -(e' / 2) - 56, sticky := decide (r * r * m' ≠ 2 ^ 112) }

/-- 2^a of a finite value: exact for an integer, else 2^I · e^(F ln 2). -/
def exp2Val (neg : Bool) (m : Nat) (e : Int) : FRes :=
  if 0 ≤ e ∧ 64 ≤ e then (if neg then .val { neg := false, m := 0, e := -200, sticky := true } else .inf false (fOF ||| fNX))
  else
    let den : Nat := 2 ^ (-e).toNat
    let num : Int := signed neg (m * 2 ^ e.toNat)
    let i := num / (den : Int)
    let f := num % (den : Int)
    if i < -200 then .val { neg := false, m := 0, e := -200, sticky := true }
    else if 128 ≤ i then .inf false (fOF ||| fNX)
    else if f = 0 then .val { neg := false, m := 1, e := i, sticky := false }
    else
      let x := fxExp (fxMul (f * fxOne / (den : Int)) fxLn2)
      .val { neg := false, m := x.natAbs, e := i - (fxP : Int), sticky := true }

/-- log2 a of a finite positive value: exact for a power of two, else the exponent plus atanh. -/
def log2Val (m : Nat) (e : Int) : FRes :=
  let n := Nat.log2 m
  let k := e + (n : Int)
  if m = 2 ^ n then (if k = 0 then .zero false else .val { neg := decide (k < 0), m := k.natAbs, e := 0, sticky := false })
  else
    let num : Int := (((m - 2 ^ n) * 2 ^ fxP : Nat) : Int)
    let z := num / (((m + 2 ^ n : Nat)) : Int)
    let ln := 2 * oddSeries false (fxMul z z) 240 0 z 0
    fxVal (k * fxOne + ln * fxOne / fxLn2)

/-- The quadrant of a non-negative value in radians and what is left of it, between −π/4 and π/4. -/
def trigReduce (m : Nat) (e : Int) : Int × Int :=
  let x := fxOf m e
  let half := fxPi / 2
  let q := (x + half / 2) / half
  (q, x - q * half)

/-- sin a of a finite non-zero value. -/
def sinVal (neg : Bool) (m : Nat) (e : Int) : FRes :=
  let r := trigReduce m e
  let y := match (r.1 % 4).toNat with
    | 0 => fxSin r.2
    | 1 => fxCos r.2
    | 2 => -fxSin r.2
    | _ => -fxCos r.2
  fxNeg neg (fxVal y)

/-- cos a of a finite non-zero value. -/
def cosVal (m : Nat) (e : Int) : FRes :=
  let r := trigReduce m e
  fxVal (match (r.1 % 4).toNat with
    | 0 => fxCos r.2
    | 1 => -fxSin r.2
    | 2 => -fxCos r.2
    | _ => fxSin r.2)

/-- tanh a of a finite non-zero value: (e^(2a) − 1)/(e^(2a) + 1) by powers of e^(a/32); from 32 on it lies next to 1. -/
def tanhVal (neg : Bool) (m : Nat) (e : Int) : FRes :=
  if m * 2 ^ (e + 160).toNat ≥ 2 ^ 165 then .val { neg := neg, m := 2 ^ 64 - 1, e := -64, sticky := true }
  else
    let x := fxOf m e
    let sq := fun y => fxMul y y
    let y := sq (sq (sq (sq (sq (sq (fxExp (x / 32)))))))
    fxNeg neg (fxVal ((y - fxOne) * fxOne / (y + fxOne)))

/-- The result of a function in FP32: the nearer neighbours of an inexact value are its truncation and the next magnitude,
and Config.approxUp chooses; above the largest finite value it is an infinity with OF and NX (R160). -/
def approxPack (fn : Nat) (input : Word) (r : FRes) : Nat × BitVec 8 :=
  match r with
  | .val x =>
    let t := roundMag ffF32 .rz 0 x
    if ffF32.maxFin < t.1 ∨ (t.1 = ffF32.maxFin ∧ t.2) then (infCode ffF32 x.neg, fOF ||| fNX)
    else if !t.2 then (withSign ffF32 x.neg t.1, 0#8)
    else
      let mag := if Config.approxUp fn input then t.1 + 1 else t.1
      (withSign ffF32 x.neg mag, fNX ||| flagIf (decide (mag < 2 ^ 23)) fUF)
  | r => packRes ffF32 .rne r

/-- Function numbers: 0 FRCP, 1 FRSQ, 2 FEXP2, 3 FLOG2, 4 FSIN, 5 FCOS, 6 FTANH. -/
def approxRes (fn : Nat) (v : FVal) : FRes :=
  match v with
  | .nan => .nan 0#8
  | .inf neg =>
    match fn with
    | 0 => .zero neg
    | 1 => if neg then .nan fNV else .zero false
    | 2 => if neg then .zero false else .inf false 0#8
    | 3 => if neg then .nan fNV else .inf false 0#8
    | 6 => .val { neg := neg, m := 1, e := 0, sticky := false }
    | _ => .nan fNV
  | .fin neg m e =>
    if m = 0 then
      match fn with
      | 0 => .inf neg fDZ
      | 1 => .inf neg fDZ
      | 2 => .val { neg := false, m := 1, e := 0, sticky := false }
      | 3 => .inf true fDZ
      | 5 => .val { neg := false, m := 1, e := 0, sticky := false }
      | _ => .zero neg
    else
      match fn with
      | 0 => rcpVal neg m e
      | 1 => if neg then .nan fNV else rsqVal m e
      | 2 => exp2Val neg m e
      | 3 => if neg then .nan fNV else log2Val m e
      | 4 => sinVal neg m e
      | 5 => cosVal m e
      | _ => tanhVal neg m e

/-- A one-source function of an FP32 code with flushing and saturation (R160, R161, R158). -/
def fpApprox (fn : Nat) (ftz sat : Bool) (a : Nat) : Nat × BitVec 8 :=
  let a := flushIn ffF32 ftz a
  clamp01 ffF32 sat (flushOut ffF32 ftz (approxPack fn (BitVec.ofNat 32 a) (approxRes fn (fdecode ffF32 a))))

end Sys2Proof.Machine
end

