-- ==== Sys2Proof/Machine/IntVec.lean ====
section
/-!
DEFINITION. The vector integer and bit instructions (06_vector_ops R149-R156): the lane functions, which the pair word shares,
and one meaning for each instruction.
-/
namespace Sys2Proof.Machine

/-! ## Exact values and saturation (R150) -/

/-- A lane read as i32 or n32. -/
def intOf (signed : Bool) (x : Word) : Int := if signed then x.toInt else (x.toNat : Int)

/-- Ends of a w-bit range. -/
def rangeLo (w : Nat) (signed : Bool) : Int := if signed then -((2 ^ (w - 1) : Nat) : Int) else 0
def rangeHi (w : Nat) (signed : Bool) : Int := if signed then ((2 ^ (w - 1) : Nat) : Int) - 1 else ((2 ^ w : Nat) : Int) - 1

/-- An exact value as a w-bit result: with `sat` the nearer end of the range and IOV, else modulo 2^w (R150). -/
def fitInt (w : Nat) (signed sat : Bool) (v : Int) : BitVec w × BitVec 8 :=
  if sat && (decide (v < rangeLo w signed) || decide (rangeHi w signed < v)) then
    (BitVec.ofInt w (if v < rangeLo w signed then rangeLo w signed else rangeHi w signed), fIOV)
  else (BitVec.ofInt w v, 0#8)

def iaddLane (m : IntMod) (a b : Word) : Word × BitVec 8 := fitInt 32 m.signed m.sat (intOf m.signed a + intOf m.signed b)
def isubLane (m : IntMod) (a b : Word) : Word × BitVec 8 := fitInt 32 m.signed m.sat (intOf m.signed a - intOf m.signed b)
def imulLane (m : IntMod) (a b : Word) : Word × BitVec 8 := fitInt 32 m.signed m.sat (intOf m.signed a * intOf m.signed b)
def imulhLane (m : IntMod) (a b : Word) : Word × BitVec 8 :=
  (BitVec.ofInt 32 (intOf m.signed a * intOf m.signed b / ((2 ^ 32 : Nat) : Int)), 0#8)
def imadLane (m : IntMod) (a b c : Word) : Word × BitVec 8 :=
  fitInt 32 m.signed m.sat (intOf m.signed a * intOf m.signed b + intOf m.signed c)

/-- The truncated quotient and the remainder at a width, with their flags (R151, R172). -/
def divRem (w : Nat) (signed : Bool) (a b : BitVec w) : BitVec w × BitVec w × BitVec 8 :=
  if b = 0#w then (BitVec.allOnes w, a, fIDZ)
  else if signed then
    if a = BitVec.intMin w ∧ b = BitVec.allOnes w then (a, 0#w, fIOV)
    else (BitVec.ofInt w (a.toInt.tdiv b.toInt), BitVec.ofInt w (a.toInt.tmod b.toInt), 0#8)
  else (BitVec.ofNat w (a.toNat / b.toNat), BitVec.ofNat w (a.toNat % b.toNat), 0#8)

def idivLane (m : IntMod) (a b : Word) : Word × BitVec 8 := let r := divRem 32 m.signed a b; (r.1, r.2.2)
def iremLane (m : IntMod) (a b : Word) : Word × BitVec 8 := let r := divRem 32 m.signed a b; (r.2.1, r.2.2)
def iminLane (m : IntMod) (a b : Word) : Word × BitVec 8 := (if intOf m.signed a ≤ intOf m.signed b then a else b, 0#8)
def imaxLane (m : IntMod) (a b : Word) : Word × BitVec 8 := (if intOf m.signed a ≤ intOf m.signed b then b else a, 0#8)
def iabsLane (sat : Bool) (a : Word) : Word × BitVec 8 := fitInt 32 true sat (a.toInt.natAbs : Int)
def inegLane (sat : Bool) (a : Word) : Word × BitVec 8 := fitInt 32 true sat (-a.toInt)

/-- Byte j of a word as i8 or n8. -/
def byteInt (signed : Bool) (x : Word) (j : Nat) : Int :=
  let b := x.extractLsb' (8 * j) 8
  if signed then b.toInt else (b.toNat : Int)

/-- Four-byte dot product with an accumulator (R152). -/
def idot4Lane (m : IntMod) (a b c : Word) : Word × BitVec 8 :=
  fitInt 32 m.signed m.sat (intOf m.signed c + byteInt m.signed a 0 * byteInt m.signed b 0
    + byteInt m.signed a 1 * byteInt m.signed b 1 + byteInt m.signed a 2 * byteInt m.signed b 2
    + byteInt m.signed a 3 * byteInt m.signed b 3)

/-! ## Bit operations (R154-R156) -/

def shlLane (a b : Word) : Word := a <<< (b.extractLsb' 0 8).toNat
def shrLane (signed : Bool) (a b : Word) : Word :=
  let n := (b.extractLsb' 0 8).toNat
  if signed then a.sshiftRight n else a >>> n
def rotLane (a b : Word) : Word := a.rotateLeft (b.extractLsb' 0 5).toNat

/-- Field position and length of BFE and BFI (R155). -/
def fieldPos (b : Word) : Nat := (b.extractLsb' 0 8).toNat
def fieldLen (b : Word) : Nat := min (b.extractLsb' 8 8).toNat 32

/-- BFE: the field of a, extended above bit 31, then extended from its own top bit (R155). -/
def bfeLane (signed : Bool) (a b : Word) : Word :=
  let len := fieldLen b
  let x : Word := if signed then a.sshiftRight (fieldPos b) else a >>> fieldPos b
  if len = 0 then 0#32
  else
    let f := x &&& BitVec.ofNat 32 (2 ^ len - 1)
    if signed && f.getLsbD (len - 1) then f ||| ~~~(BitVec.ofNat 32 (2 ^ len - 1)) else f

/-- BFI: the low bits of a placed into c (R155). -/
def bfiLane (a b c : Word) : Word :=
  let m : Word := BitVec.ofNat 32 (2 ^ fieldLen b - 1) <<< fieldPos b
  (c &&& ~~~m) ||| ((a <<< fieldPos b) &&& m)

/-- Number of 1 bits. -/
def popCount {w : Nat} (a : BitVec w) : Nat := ((List.range w).filter fun i => a.getLsbD i).length

def popcLane (a : Word) : Word := BitVec.ofNat 32 (popCount a)
def clzLane (a : Word) : Word := if a = 0#32 then 32#32 else BitVec.ofNat 32 (31 - Nat.log2 a.toNat)
def brevLane (a : Word) : Word := maskOf fun i => a.getLsbD (31 - i)

/-- A three-input function by its truth table, bit by bit, indexed by 4c + 2b + a (R154). -/
def tableBits {w : Nat} (t : BitVec 8) (a b c : BitVec w) : BitVec w :=
  let pick (k : Nat) (x : BitVec w) : BitVec w := if t.getLsbD k then x else 0#w
  pick 0 (~~~c &&& ~~~b &&& ~~~a) ||| pick 1 (~~~c &&& ~~~b &&& a) ||| pick 2 (~~~c &&& b &&& ~~~a)
    ||| pick 3 (~~~c &&& b &&& a) ||| pick 4 (c &&& ~~~b &&& ~~~a) ||| pick 5 (c &&& ~~~b &&& a)
    ||| pick 6 (c &&& b &&& ~~~a) ||| pick 7 (c &&& b &&& a)

/-- The byte that BPICK selects by nibble j of c: a byte of a or b, or 0 (R156). -/
def bpickByte (a b c : Word) (j : Nat) : Byte :=
  let k := (c.extractLsb' (4 * j) 4).toNat
  if 8 ≤ k then 0#8 else if k < 4 then a.extractLsb' (8 * k) 8 else b.extractLsb' (8 * (k - 4)) 8

/-- A byte of copies of a bit when FILL asks for it: bit 7 of `y` itself for byte 0, else of the result byte below (R156). -/
def bpickFill (fill : Bool) (from7 y : Byte) : Byte := if fill then (if from7.getLsbD 7 then 0xFF#8 else 0x00#8) else y

def bpickLane (fill : BitVec 4) (a b c : Word) : Word :=
  let y0 := bpickByte a b c 0
  let r0 := bpickFill (fill.getLsbD 0) y0 y0
  let r1 := bpickFill (fill.getLsbD 1) r0 (bpickByte a b c 1)
  let r2 := bpickFill (fill.getLsbD 2) r1 (bpickByte a b c 2)
  let r3 := bpickFill (fill.getLsbD 3) r2 (bpickByte a b c 3)
  r3 ++ (r2 ++ (r1 ++ r0))

/-! ## Meanings -/

def execIadd (h : Head) (d a b : Opnd) (m : IntMod) (s : State) : Res := lane2 h d a b s (iaddLane m)
def execIsub (h : Head) (d a b : Opnd) (m : IntMod) (s : State) : Res := lane2 h d a b s (isubLane m)
def execImul (h : Head) (d a b : Opnd) (m : IntMod) (s : State) : Res := lane2 h d a b s (imulLane m)
def execImulh (h : Head) (d a b : Opnd) (m : IntMod) (s : State) : Res := lane2 h d a b s (imulhLane m)
def execImad (h : Head) (d a b c : Opnd) (m : IntMod) (s : State) : Res := lane3 h d a b c s (imadLane m)
def execIdiv (h : Head) (d a b : Opnd) (m : IntMod) (s : State) : Res := lane2 h d a b s (idivLane m)
def execIrem (h : Head) (d a b : Opnd) (m : IntMod) (s : State) : Res := lane2 h d a b s (iremLane m)
def execImin (h : Head) (d a b : Opnd) (m : IntMod) (s : State) : Res := lane2 h d a b s (iminLane m)
def execImax (h : Head) (d a b : Opnd) (m : IntMod) (s : State) : Res := lane2 h d a b s (imaxLane m)
def execIabs (h : Head) (d a : Opnd) (sat : Bool) (s : State) : Res := lane1 h d a s (iabsLane sat)
def execIneg (h : Head) (d a : Opnd) (sat : Bool) (s : State) : Res := lane1 h d a s (inegLane sat)
def execIdot4 (h : Head) (d a b c : Opnd) (m : IntMod) (s : State) : Res := lane3 h d a b c s (idot4Lane m)

/-- A result that raises no flag. -/
def noFlag {α : Type} (x : α) : α × BitVec 8 := (x, 0#8)

def execAnd (h : Head) (d a b : Opnd) (s : State) : Res := lane2 h d a b s fun x y => noFlag (x &&& y)
def execOr (h : Head) (d a b : Opnd) (s : State) : Res := lane2 h d a b s fun x y => noFlag (x ||| y)
def execXor (h : Head) (d a b : Opnd) (s : State) : Res := lane2 h d a b s fun x y => noFlag (x ^^^ y)
def execNot (h : Head) (d a : Opnd) (s : State) : Res := lane1 h d a s fun x => noFlag (~~~x)
def execShl (h : Head) (d a b : Opnd) (s : State) : Res := lane2 h d a b s fun x y => noFlag (shlLane x y)
def execShr (h : Head) (d a b : Opnd) (sg : Bool) (s : State) : Res := lane2 h d a b s fun x y => noFlag (shrLane sg x y)
def execRot (h : Head) (d a b : Opnd) (s : State) : Res := lane2 h d a b s fun x y => noFlag (rotLane x y)
def execBfe (h : Head) (d a b : Opnd) (sg : Bool) (s : State) : Res := lane2 h d a b s fun x y => noFlag (bfeLane sg x y)
def execBfi (h : Head) (d a b c : Opnd) (s : State) : Res := lane3 h d a b c s fun x y z => noFlag (bfiLane x y z)
def execPopc (h : Head) (d a : Opnd) (s : State) : Res := lane1 h d a s fun x => noFlag (popcLane x)
def execClz (h : Head) (d a : Opnd) (s : State) : Res := lane1 h d a s fun x => noFlag (clzLane x)
def execBrev (h : Head) (d a : Opnd) (s : State) : Res := lane1 h d a s fun x => noFlag (brevLane x)
def execBmix (h : Head) (d a b c : Opnd) (t : BitVec 8) (s : State) : Res :=
  lane3 h d a b c s fun x y z => noFlag (tableBits t x y z)
def execBpick (h : Head) (d a b c : Opnd) (fill : BitVec 4) (s : State) : Res :=
  lane3 h d a b c s fun x y z => noFlag (bpickLane fill x y z)

end Sys2Proof.Machine
end

