-- ==== Sys2Proof/Machine/FpVec.lean ====
section
/-!
DEFINITION. The FP32 and packed half instructions (06_vector_ops R157-R165): the lane functions, which the pair word shares,
and one meaning for each instruction.
-/
namespace Sys2Proof.Machine

/-- An FP32 operand with its negate bit (R158). -/
def f32In (neg : Bool) (x : Word) : Nat := flipSign ffF32 x.toNat neg

/-- A code as a lane word. -/
def toLane (r : Nat × BitVec 8) : Word × BitVec 8 := (BitVec.ofNat 32 r.1, r.2)

def faddLane (fm : BitVec 10) (m : FpMod) (a b : Word) : Word × BitVec 8 :=
  toLane (fpAdd ffF32 (effRm fm m.rm) (effFtz fm m.rm m.ftz) m.sat (f32In m.na a) (f32In m.nb b))
/-- a − b: b's sign is flipped once more, which leaves a NaN a NaN. -/
def fsubLane (fm : BitVec 10) (m : FpMod) (a b : Word) : Word × BitVec 8 :=
  toLane (fpAdd ffF32 (effRm fm m.rm) (effFtz fm m.rm m.ftz) m.sat (f32In m.na a) (f32In (!m.nb) b))
def fmulLane (fm : BitVec 10) (m : FpMod) (a b : Word) : Word × BitVec 8 :=
  toLane (fpMul ffF32 (effRm fm m.rm) (effFtz fm m.rm m.ftz) m.sat (f32In m.na a) (f32In m.nb b))
def ffmaLane (fm : BitVec 10) (m : FpMod) (a b c : Word) : Word × BitVec 8 :=
  toLane (fpFma ffF32 (effRm fm m.rm) (effFtz fm m.rm m.ftz) m.sat (f32In m.na a) (f32In m.nb b) (f32In m.nc c))
def fminmaxLane (max : Bool) (m : FpMod) (a b : Word) : Word × BitVec 8 :=
  toLane (fpMinMax ffF32 max m.ftz m.sat (f32In m.na a) (f32In m.nb b))
def fdivLane (fm : BitVec 10) (m : FpMod) (a b : Word) : Word × BitVec 8 :=
  toLane (fpDiv ffF32 (effRm fm m.rm) (effFtz fm m.rm m.ftz) m.sat (f32In m.na a) (f32In m.nb b))
def fsqrtLane (fm : BitVec 10) (m : FpMod) (a : Word) : Word × BitVec 8 :=
  toLane (fpSqrt ffF32 (effRm fm m.rm) (effFtz fm m.rm m.ftz) m.sat (f32In m.na a))
def approxLane (fn : Nat) (m : FpMod) (a : Word) : Word × BitVec 8 := toLane (fpApprox fn m.ftz m.sat (f32In m.na a))

/-- The class bit of an FP32 code (R162). -/
def fclassLane (a : Word) : Word :=
  let n := a.toNat
  let neg := fneg ffF32 n
  let bit : Nat := match fdecode ffF32 n with
    | .nan => if neg then 9 else 8
    | .inf _ => if neg then 0 else 7
    | .fin _ m _ => if m = 0 then (if neg then 3 else 4) else if isSubnormal ffF32 n then (if neg then 2 else 5)
      else (if neg then 1 else 6)
  1#32 <<< bit

/-! ## Packed halves (R163-R165) -/

/-- The format of the halves. -/
def halfFF (m : HalfMod) : FF := if m.f16 then ffF16 else ffBf16

/-- Half j of a lane with the operand's negate bit. -/
def halfIn (m : HalfMod) (neg : Bool) (x : Word) (j : Nat) : Nat := flipSign (halfFF m) (x.extractLsb' (16 * j) 16).toNat neg

/-- Two half results as a lane. -/
def halves (lo hi : Nat × BitVec 8) : Word × BitVec 8 := (BitVec.ofNat 16 hi.1 ++ BitVec.ofNat 16 lo.1, lo.2 ||| hi.2)

def hadd2Lane (fm : BitVec 10) (m : HalfMod) (a b : Word) : Word × BitVec 8 :=
  let f := fun j => fpAdd (halfFF m) (effRm fm m.rm) (effFtz fm m.rm false) m.sat (halfIn m m.na a j) (halfIn m m.nb b j)
  halves (f 0) (f 1)
def hmul2Lane (fm : BitVec 10) (m : HalfMod) (a b : Word) : Word × BitVec 8 :=
  let f := fun j => fpMul (halfFF m) (effRm fm m.rm) (effFtz fm m.rm false) m.sat (halfIn m m.na a j) (halfIn m m.nb b j)
  halves (f 0) (f 1)
def hfma2Lane (fm : BitVec 10) (m : HalfMod) (a b c : Word) : Word × BitVec 8 :=
  let f := fun j =>
    fpFma (halfFF m) (effRm fm m.rm) (effFtz fm m.rm false) m.sat (halfIn m m.na a j) (halfIn m m.nb b j) (halfIn m m.nc c j)
  halves (f 0) (f 1)
def hminmax2Lane (max : Bool) (m : HalfMod) (a b : Word) : Word × BitVec 8 :=
  let f := fun j => fpMinMax (halfFF m) max false m.sat (halfIn m m.na a j) (halfIn m m.nb b j)
  halves (f 0) (f 1)

/-- A finite result as sign, magnitude and exponent. -/
inductive Term where
  | nan (fl : BitVec 8)
  | inf (neg : Bool)
  | fin (neg : Bool) (m : Nat) (e : Int)
  deriving DecidableEq, Repr

/-- A product as a term of an exact sum. -/
def prodTerm (a b : FVal) : Term :=
  match mulRes a b with
  | .nan fl => .nan fl
  | .inf neg _ => .inf neg
  | .zero neg => .fin neg 0 0
  | .val x => .fin x.neg x.m x.e

/-- A value as a term. -/
def valTerm : FVal → Term
  | .nan => .nan 0#8
  | .inf neg => .inf neg
  | .fin neg m e => .fin neg m e

/-- The exact sum of terms: a NaN among them decides first, invalid when a product is (the order before the next case is DEDUCED,
log 149); infinities of both signs are invalid; then an infinity; an exact zero is −0 only when every term is −0 or under RDN (R158,
R165). -/
def sumTerms (rm : Rm) (l : List Term) : FRes :=
  let nanFl := l.foldl (fun x t => match t with
    | .nan fl => x ||| fl
    | _ => x) 0#8
  let anyNan := l.any fun t => match t with
    | .nan _ => true
    | _ => false
  let pos := l.any fun t => decide (t = .inf false)
  let negInf := l.any fun t => decide (t = .inf true)
  if anyNan then .nan nanFl
  else if pos && negInf then .nan fNV
  else if pos then .inf false 0#8
  else if negInf then .inf true 0#8
  else
    let e := l.foldl (fun x t => match t with
      | .fin _ m k => if m = 0 then x else min x k
      | _ => x) 4096
    let sum := l.foldl (fun (x : Int) t => match t with
      | .fin n m k => if m = 0 then x else x + signed n (m * 2 ^ (k - e).toNat)
      | _ => x) 0
    let same := fun b => l.all fun t => match t with
      | .fin n m _ => decide (m = 0) && (n == b)
      | _ => false
    if same false then .zero false
    else if same true then .zero true
    else sumRes rm sum e

/-- HDOT2: a0·b0 + a1·b1 + c exactly, rounded once to FP32 (R165). -/
def hdot2Lane (fm : BitVec 10) (m : HalfMod) (a b c : Word) : Word × BitVec 8 :=
  let rm := effRm fm m.rm
  let ftz := effFtz fm m.rm false
  let f := halfFF m
  let p := fun j => prodTerm (fdecode f (flushIn f ftz (halfIn m m.na a j))) (fdecode f (flushIn f ftz (halfIn m m.nb b j)))
  toLane (finishRes ffF32 rm ftz m.sat
    (sumTerms rm [p 0, p 1, valTerm (fdecode ffF32 (flushIn ffF32 ftz (f32In m.nc c)))]))

/-! ## Meanings -/

/-- A lane-wise FP instruction reads sr.fpmode beside its operands (R148). -/
def fp1 (h : Head) (d a : Opnd) (s : State) (f : BitVec 10 → Word → Word × BitVec 8) : Res :=
  issue s h.guard fun c => laneArith c d [a] (headKills h a .zero .zero) fun i => f c.a.fpmode (laneOf c a i)
def fp2 (h : Head) (d a b : Opnd) (s : State) (f : BitVec 10 → Word → Word → Word × BitVec 8) : Res :=
  issue s h.guard fun c =>
    laneArith c d [a, b] (headKills h a b .zero) fun i => f c.a.fpmode (laneOf c a i) (laneOf c b i)
def fp3 (h : Head) (d a b e : Opnd) (s : State) (f : BitVec 10 → Word → Word → Word → Word × BitVec 8) : Res :=
  issue s h.guard fun c =>
    laneArith c d [a, b, e] (headKills h a b e) fun i => f c.a.fpmode (laneOf c a i) (laneOf c b i) (laneOf c e i)

def execFadd (h : Head) (d a b : Opnd) (m : FpMod) (s : State) : Res := fp2 h d a b s fun fm => faddLane fm m
def execFsub (h : Head) (d a b : Opnd) (m : FpMod) (s : State) : Res := fp2 h d a b s fun fm => fsubLane fm m
def execFmul (h : Head) (d a b : Opnd) (m : FpMod) (s : State) : Res := fp2 h d a b s fun fm => fmulLane fm m
def execFfma (h : Head) (d a b c : Opnd) (m : FpMod) (s : State) : Res := fp3 h d a b c s fun fm => ffmaLane fm m
def execFmin (h : Head) (d a b : Opnd) (m : FpMod) (s : State) : Res := lane2 h d a b s (fminmaxLane false m)
def execFmax (h : Head) (d a b : Opnd) (m : FpMod) (s : State) : Res := lane2 h d a b s (fminmaxLane true m)
def execFrcp (h : Head) (d a : Opnd) (m : FpMod) (s : State) : Res := lane1 h d a s (approxLane 0 m)
def execFrsq (h : Head) (d a : Opnd) (m : FpMod) (s : State) : Res := lane1 h d a s (approxLane 1 m)
def execFsqrt (h : Head) (d a : Opnd) (m : FpMod) (s : State) : Res := fp1 h d a s fun fm => fsqrtLane fm m
def execFdiv (h : Head) (d a b : Opnd) (m : FpMod) (s : State) : Res := fp2 h d a b s fun fm => fdivLane fm m
def execFexp2 (h : Head) (d a : Opnd) (m : FpMod) (s : State) : Res := lane1 h d a s (approxLane 2 m)
def execFlog2 (h : Head) (d a : Opnd) (m : FpMod) (s : State) : Res := lane1 h d a s (approxLane 3 m)
def execFsin (h : Head) (d a : Opnd) (m : FpMod) (s : State) : Res := lane1 h d a s (approxLane 4 m)
def execFcos (h : Head) (d a : Opnd) (m : FpMod) (s : State) : Res := lane1 h d a s (approxLane 5 m)
def execFtanh (h : Head) (d a : Opnd) (m : FpMod) (s : State) : Res := lane1 h d a s (approxLane 6 m)
def execFclass (h : Head) (d a : Opnd) (s : State) : Res := lane1 h d a s fun x => noFlag (fclassLane x)
def execHadd2 (h : Head) (d a b : Opnd) (m : HalfMod) (s : State) : Res := fp2 h d a b s fun fm => hadd2Lane fm m
def execHmul2 (h : Head) (d a b : Opnd) (m : HalfMod) (s : State) : Res := fp2 h d a b s fun fm => hmul2Lane fm m
def execHfma2 (h : Head) (d a b c : Opnd) (m : HalfMod) (s : State) : Res := fp3 h d a b c s fun fm => hfma2Lane fm m
def execHmin2 (h : Head) (d a b : Opnd) (m : HalfMod) (s : State) : Res := lane2 h d a b s (hminmax2Lane false m)
def execHmax2 (h : Head) (d a b : Opnd) (m : HalfMod) (s : State) : Res := lane2 h d a b s (hminmax2Lane true m)
def execHdot2 (h : Head) (d a b c : Opnd) (m : HalfMod) (s : State) : Res := fp3 h d a b c s fun fm => hdot2Lane fm m

end Sys2Proof.Machine
end

