-- ==== Sys2Proof/Machine/Convert.lean ====
section
/-!
DEFINITION. Conversions, MX blocks, codebook lookup and the stochastic-rounding generators (05_numbers R111-R143), and DCVT
(R135).
-/
namespace Sys2Proof.Machine

/-! ## Generators (R120-R122) -/

/-- One step of the generator (R120). -/
def genStep (x : Word) : Word :=
  let x := x ^^^ (x <<< (13 : Nat))
  let x := x ^^^ (x >>> (17 : Nat))
  x ^^^ (x <<< (5 : Nat))

/-- The state that SRSEED gives a lane (R120). -/
def genSeed (seed : Word) (i : Nat) : Word :=
  let x := seed ^^^ (0x9E3779B9#32 * BitVec.ofNat 32 (i + 1))
  if x = 0#32 then 1#32 else x

/-- The generators of a gang as it starts: seed 0 (R120). -/
def genReset : Vector Word 32 := Vector.ofFn fun i => genSeed 0#32 i.val

/-- The generator of a lane. -/
def genAt (a : Arch) (i : Nat) : Word := a.gen.get (Fin.ofNat 32 i)

/-- The 24-bit draw of a lane's next element (R121). -/
def drawAt (a : Arch) (i : Nat) : Nat := (genStep (genAt a i)).toNat / 256

/-- Advance the generators of the active lanes once (R121, R122). -/
def advanceGens (act : Mask) (a : Arch) : Arch :=
  { a with gen := Vector.ofFn fun i => if inMask act i.val then genStep (a.gen.get i) else a.gen.get i }

/-! ## Elements (R113, R115, R134) -/

/-- The floating-point format of a code; the integer formats and e8m0 have none. -/
def fmtFF : Fmt → Option FF
  | .f32 => some ffF32 | .bf16 => some ffBf16 | .f16 => some ffF16 | .e4m3 => some ffE4m3 | .e5m2 => some ffE5m2
  | .e2m3 => some ffE2m3 | .e3m2 => some ffE3m2 | .e2m1 => some ffE2m1 | _ => none

/-- Width of one element (R70). -/
def fmtWidth : Fmt → Nat
  | .n32 | .i32 | .f32 => 32
  | .bf16 | .f16 => 16
  | .e4m3 | .e5m2 | .e8m0 | .i8 | .n8 => 8
  | .e2m3 | .e3m2 => 6
  | .e2m1 | .cb4 => 4

/-- Width of the slot that an element occupies in a lane (R115). -/
def fmtSlot : Fmt → Nat
  | .e2m3 | .e3m2 => 8
  | f => fmtWidth f

/-- The element at a position of a lane (R115). -/
def elemAt (f : Fmt) (x : Word) (pos : Nat) : Nat := x.toNat / 2 ^ (fmtSlot f * pos) % 2 ^ fmtWidth f

/-- Put an element code into the slot at a position (R115, R138). -/
def putElem (f : Fmt) (x : Word) (pos e : Nat) : Word :=
  let m : Word := BitVec.ofNat 32 (2 ^ fmtSlot f - 1) <<< (fmtSlot f * pos)
  (x &&& ~~~m) ||| ((BitVec.ofNat 32 (e % 2 ^ fmtWidth f) <<< (fmtSlot f * pos)) &&& m)

/-- An integer format's range (R111). -/
def intRange : Fmt → Int × Int
  | .n8 => (0, 255)
  | .i8 => (-128, 127)
  | .n32 => (0, 4294967295)
  | _ => (-2147483648, 2147483647)

/-- An element code of a signed or unsigned integer format as its value. -/
def intElem (f : Fmt) (e : Nat) : Int :=
  match f with
  | .i8 => if 128 ≤ e then (e : Int) - 256 else e
  | .i32 => if 2147483648 ≤ e then (e : Int) - 4294967296 else e
  | _ => e

/-- The exact value of an element (R112, R113, R134). -/
def elemVal (f : Fmt) (e : Nat) : FVal :=
  match fmtFF f with
  | some ff => fdecode ff e
  | none =>
    if f = .e8m0 then (if e = 0xFF then .nan else .fin false 1 ((e : Int) - 127))
    else .fin (decide (intElem f e < 0)) (intElem f e).natAbs 0

/-- A value as an integer code of a width: the low bits of its two's complement. -/
def intCode (w : Nat) (v : Int) : Nat := (BitVec.ofInt w v).toNat

/-- To an integer format from a floating-point value (R131). -/
def toInt (f : Fmt) (rm : Rm) (draw : Nat) (sat : Bool) (v : FVal) : Int × BitVec 8 :=
  let lo := (intRange f).1
  let hi := (intRange f).2
  let out := if sat then fSATC else fNV
  match v with
  | .nan => (0, fNV)
  | .inf neg => (if neg then lo else hi, out)
  | .fin neg m e =>
    let r := roundQuanta rm draw { neg := neg, m := m, e := e, sticky := false } 0
    let y := signed neg r.1
    let fl := flagIf r.2 fNX
    if y < lo then (lo, fl ||| out) else if hi < y then (hi, fl ||| out) else (y, fl)

/-- Between integer formats (R132). -/
def intToInt (d : Fmt) (sat : Bool) (v : Int) : Int × BitVec 8 :=
  let lo := (intRange d).1
  let hi := (intRange d).2
  if lo ≤ v ∧ v ≤ hi then (v, 0#8)
  else if sat then (if v < lo then lo else hi, fSATC)
  else (v, 0#8)

/-- To e8m0 (R133). -/
def toE8m0 (rm : Rm) (draw : Nat) (sat : Bool) (v : FVal) : Nat × BitVec 8 :=
  match v with
  | .nan => (0xFF, 0#8)
  | .inf neg => if neg then (0xFF, fNV) else if sat then (0xFE, fSATC) else (0xFF, fNV)
  | .fin neg m e =>
    if m = 0 then (0x00, fUF ||| fNX)
    else if neg then (0xFF, fNV)
    else
      let n := Nat.log2 m
      let k := e + (n : Int)
      let rem := m - 2 ^ n
      let up := roundsUp (if rm = .rdn then .rz else rm) draw false (decide ((k + 127) % 2 = 1)) rem n false
      let y := if up && decide (0 < rem) then k + 1 else k
      let nx := flagIf (decide (0 < rem)) fNX
      if y < -127 then (0x00, fUF ||| fNX)
      else if 127 < y then (if sat then (0xFE, fSATC ||| nx) else (0xFF, fOF ||| nx))
      else ((y + 127).toNat, nx)

/-- Convert an element code between formats: the destination's code and the flags (R129). -/
def convert (d s : Fmt) (rm : Rm) (draw : Nat) (sat : Bool) (e : Nat) : Nat × BitVec 8 :=
  match fmtFF d with
  | some ff => packVal ff rm draw sat (elemVal s e)
  | none =>
    if d = .e8m0 then (if s = .e8m0 then (e, 0#8) else toE8m0 rm draw sat (elemVal s e))
    else
      let r := if s.isInt then intToInt d sat (intElem s e) else toInt d rm draw sat (elemVal s e)
      (intCode (fmtWidth d) r.1, r.2)

/-- A destination element as a whole lane: zero-extended, but i8 sign-extended (R134). -/
def laneOfElem (d : Fmt) (e : Nat) : Word :=
  if d = .i8 then (BitVec.ofNat 8 e).signExtend 32 else BitVec.ofNat 32 (e % 2 ^ fmtWidth d)

/-! ## Lane-wise conversions -/

/-- A conversion: `f` gives a lane's result from its draw; SR advances the generators of the active lanes (R121-R123). -/
def convArith (c : Ctx) (d : Opnd) (srcs : List Opnd) (kills : Reads) (rm : Rm) (f : Nat → Nat → Word × BitVec 8) : Res :=
  arith c d srcs kills (laneFlags c.act fun i => (f i (drawAt c.a i)).2) fun a =>
    let a := writeLanes c.a a c.act d (cutsOf c srcs) fun i => (f i (drawAt c.a i)).1
    if rm = .sr then advanceGens c.act a else a

/-- CVT: the element at position 0 to a whole lane (R137). -/
def execCvt (h : Head) (d a : Opnd) (m : CvtMod) (s : State) : Res :=
  issue s h.guard fun c =>
    let rm := effRmConv c.a.fpmode m.rm
    convArith c d [a] (headKills h a .zero .zero) rm fun i draw =>
      let r := convert m.dfmt m.sfmt rm draw m.sat (elemAt m.sfmt (laneOf c a i) 0)
      (laneOfElem m.dfmt r.1, r.2)

/-- CVTPK: convert and insert into C (R138). -/
def execCvtpk (h : Head) (d a e : Opnd) (m : CvtMod) (el : BitVec 3) (s : State) : Res :=
  issue s h.guard fun c =>
    let rm := effRmConv c.a.fpmode m.rm
    convArith c d [a, e] (headKills h a .zero e) rm fun i draw =>
      let r := convert m.dfmt m.sfmt rm draw m.sat (elemAt m.sfmt (laneOf c a i) 0)
      (putElem m.dfmt (laneOf c e i) el.toNat r.1, r.2)

/-- CVTUP: extract and convert (R139). -/
def execCvtup (h : Head) (d a : Opnd) (m : CvtMod) (el : BitVec 3) (s : State) : Res :=
  issue s h.guard fun c =>
    let rm := effRmConv c.a.fpmode m.rm
    convArith c d [a] (headKills h a .zero .zero) rm fun i draw =>
      let r := convert m.dfmt m.sfmt rm draw m.sat (elemAt m.sfmt (laneOf c a i) el.toNat)
      (laneOfElem m.dfmt r.1, r.2)

/-- Entry i of a codebook slot (R117). -/
def codebookEntry (b : BitVec 256) (i : Nat) : Nat := (b.extractLsb' (16 * i) 16).toNat

/-- A codebook entry in the destination: widened exactly to FP32, or in the low half; a NaN is canonical (R140). -/
def cbluVal (f32 : Bool) (e : Nat) : Word :=
  let e := if isNan ffBf16 e then nanCode ffBf16 else e
  if f32 then BitVec.ofNat 32 (e * 65536) else BitVec.ofNat 32 e

/-- CBLU (R140). -/
def execCblu (h : Head) (d a : Opnd) (m : CvtMod) (el slot : BitVec 3) (s : State) : Res :=
  issue s h.guard fun c =>
    laneArith c d [a] (headKills h a .zero .zero) fun i =>
      noFlag (cbluVal (decide (m.dfmt = .f32))
        (codebookEntry ((getCore c.s c.g.id.die c.g.id.core).codebooks.get (Fin.ofNat 8 slot.toNat))
          (elemAt .cb4 (laneOf c a i) el.toNat)))

/-! ## MX blocks (R141, R142) -/

/-- emax and off of an element format (R141). -/
def mxEmax : Fmt → Int
  | .e4m3 => 8 | .e5m2 => 15 | .e2m3 => 2 | .e3m2 => 4 | .e2m1 => 2 | _ => 6
def mxOff (f : Fmt) : Int := if f = .i8 then 6 else 0

/-- Exponent of the leading bit of a finite value; none for zero. -/
def floorLog2 (v : FVal) : Option Int :=
  match v with
  | .fin _ m e => if m = 0 then none else some (e + (Nat.log2 m : Int))
  | _ => none

/-- The greatest of two exponents. -/
def maxLog (x y : Option Int) : Option Int :=
  match x, y with
  | none, y => y
  | x, none => x
  | some a, some b => some (max a b)

/-- S of a block from the exponent of its greatest magnitude (R141). -/
def mxScale (f : Fmt) (amax : Option Int) : Int :=
  match amax with
  | none => -127
  | some k => min 127 (max (-127) (k - mxEmax f + mxOff f))

/-- One element of a block with scale exponent X (R141). -/
def mxElem (f : Fmt) (rm : Rm) (draw : Nat) (sat : Bool) (x : Int) (v : FVal) : Word × BitVec 8 :=
  match v with
  | .fin neg m e =>
    if f = .i8 then
      let r := roundQuanta rm draw { neg := neg, m := m, e := e - x, sticky := false } 0
      (BitVec.ofInt 32 (signed neg (min r.1 127)), flagIf r.2 fNX ||| flagIf (decide (127 < r.1)) fSATC)
    else
      match fmtFF f with
      | some ff =>
        let r := packVal ff rm draw sat (.fin neg m (e - x))
        (BitVec.ofNat 32 r.1, r.2)
      | none => (0#32, 0#8)
  | _ => (0#32, 0#8)

/-- A lane of MXQ's source. -/
def mxqVal (c : Ctx) (a : Opnd) (i : Nat) : FVal := fdecode ffF32 (laneOf c a i).toNat

/-- An active lane holds a NaN or an infinity. -/
def mxqBad (c : Ctx) (a : Opnd) : Bool :=
  (lanesIn c.act).any fun i => match mxqVal c a i with
    | .fin _ _ _ => false
    | _ => true

/-- The block's S. -/
def mxqScale (c : Ctx) (a : Opnd) (m : CvtMod) : Int :=
  mxScale m.dfmt ((lanesIn c.act).foldl (fun x i => maxLog x (floorLog2 (mxqVal c a i))) none)

/-- A lane's element and flags. -/
def mxqLane (c : Ctx) (a : Opnd) (m : CvtMod) (i : Nat) : Word × BitVec 8 :=
  if mxqBad c a then (0#32, fNV)
  else mxElem m.dfmt m.rm (drawAt c.a i) m.sat (mxqScale c a m - mxOff m.dfmt) (mxqVal c a i)

/-- The E8M0 code of the block. -/
def mxqCode (c : Ctx) (a : Opnd) (m : CvtMod) : DWord := if mxqBad c a then 0xFF#64 else BitVec.ofInt 64 (mxqScale c a m + 127)

/-- MXQ: one MX block of the active lanes, with its scale to C (R141). -/
def execMxq (h : Head) (d a e : Opnd) (m : CvtMod) (s : State) : Res :=
  issue s h.guard fun c =>
    arith c d [a] (headKills h a .zero .zero) (laneFlags c.act fun i => (mxqLane c a m i).2) fun x =>
      let x := writeLanes c.a x c.act d (cutsOf c [a]) fun i => (mxqLane c a m i).1
      let x := if m.rm = .sr then advanceGens c.act x else x
      writeScalar x e (mxqCode c a m)

/-- An MX element under a scale as FP32 (R116, R142). -/
def mxdqVal (f : Fmt) (sat : Bool) (scale : Nat) (x : Word) : Word × BitVec 8 :=
  let v := elemVal f (elemAt f x 0)
  if scale = 0xFF then (BitVec.ofNat 32 (nanCode ffF32), 0#8)
  else
    match v with
    | .nan => (BitVec.ofNat 32 (nanCode ffF32), 0#8)
    | .inf neg => (BitVec.ofNat 32 (infCode ffF32 neg), 0#8)
    | .fin neg m e =>
      let r := roundMag ffF32 .rz 0
        { neg := neg, m := m, e := e + (scale : Int) - 127 - (if f = .i8 then 6 else 0), sticky := false }
      if ffF32.maxFin < r.1 then
        if sat then (BitVec.ofNat 32 (withSign ffF32 neg ffF32.maxFin), fSATC ||| fNX)
        else (BitVec.ofNat 32 (infCode ffF32 neg), fOF ||| fNX)
      else (BitVec.ofNat 32 (withSign ffF32 neg r.1), 0#8)

/-- MXDQ (R142). -/
def execMxdq (h : Head) (d a e : Opnd) (m : CvtMod) (s : State) : Res :=
  issue s h.guard fun c =>
    laneArith c d [a, e] (headKills h a .zero e) fun i =>
      mxdqVal m.sfmt m.sat ((scalarOf c e).extractLsb' 0 8).toNat (laneOf c a i)

/-- SRSEED: seed the generators of the active lanes (R143). -/
def execSrseed (h : Head) (a : Opnd) (s : State) : Res :=
  issue s h.guard fun c =>
    arith c .zero [a] (headKills h a .zero .zero) 0#8 fun x =>
      { x with gen := Vector.ofFn fun i =>
          if inMask c.act i.val then genSeed ((scalarOf c a).setWidth 32) i.val else x.gen.get i }

/-! ## DCVT (R135) -/

/-- An FP64 value to n64 or i64 (R131). -/
def toInt64 (signed64 : Bool) (rm : Rm) (sat : Bool) (v : FVal) : DWord × BitVec 8 :=
  let lo : Int := if signed64 then -9223372036854775808 else 0
  let hi : Int := if signed64 then 9223372036854775807 else 18446744073709551615
  let out := if sat then fSATC else fNV
  match v with
  | .nan => (0#64, fNV)
  | .inf neg => (BitVec.ofInt 64 (if neg then lo else hi), out)
  | .fin neg m e =>
    let r := roundQuanta rm 0 { neg := neg, m := m, e := e, sticky := false } 0
    let y := signed neg r.1
    let fl := flagIf r.2 fNX
    if y < lo then (BitVec.ofInt 64 lo, fl ||| out) else if hi < y then (BitVec.ofInt 64 hi, fl ||| out)
    else (BitVec.ofInt 64 y, fl)

/-- A DCVT conversion of a 64-bit scalar (R135): DYN never gives SR in it (R118). -/
def dcvtVal (fm : BitVec 10) (m : CvtMod) (widen : Bool) (x : DWord) : DWord × BitVec 8 :=
  let rm := effRm fm m.rm
  let to64 := fun (r : Nat × BitVec 8) => (BitVec.ofNat 64 r.1, r.2)
  match m.dfmt, m.sfmt with
  | .f32, .n32 => to64 (packVal ffF64 rm 0 m.sat (.fin false x.toNat 0))
  | .f32, .i32 => to64 (packVal ffF64 rm 0 m.sat (.fin (decide (x.toInt < 0)) x.toInt.natAbs 0))
  | .n32, _ => toInt64 false rm m.sat (fdecode ffF64 x.toNat)
  | .i32, _ => toInt64 true rm m.sat (fdecode ffF64 x.toNat)
  | _, _ =>
    if widen then to64 (packVal ffF64 rm 0 m.sat (fdecode ffF32 (x.toNat % 2 ^ 32)))
    else to64 (packVal ffF32 rm 0 m.sat (fdecode ffF64 x.toNat))

def execDcvt (h : Head) (d a : Opnd) (m : CvtMod) (widen : Bool) (s : State) : Res :=
  issue s h.guard fun c =>
    scalarArith c d [a] (headKills h a .zero .zero) (dcvtVal c.a.fpmode m widen (scalarOf c a))

end Sys2Proof.Machine
end

