-- ==== Sys2Proof/Machine/Scalar.lean ====
section
/-!
DEFINITION. Compare, select and move instructions (06_vector_ops R166-R170), the scalar integer instructions (R171-R174),
SRD and SWR (R175-R177), and the scalar FP64 instructions (R178).
-/
namespace Sys2Proof.Machine

/-! ## Compare, select, move (R166-R170) -/

/-- A relation of exact integers. -/
def condInt (c : Cond) (x y : Int) : Bool :=
  match c with
  | .eq => decide (x = y)
  | .ne => decide (x ≠ y)
  | .lt => decide (x < y)
  | .le => decide (x ≤ y)
  | .gt => decide (y < x)
  | .ge => decide (y ≤ x)

/-- ISETP (R167). -/
def execIsetp (h : Head) (d a b : Opnd) (signed : Bool) (cond : Cond) (s : State) : Res :=
  issue s h.guard fun c =>
    predArith c d [a, b] (headKills h a b .zero) fun i =>
      noFlag (condInt cond (intOf signed (laneOf c a i)) (intOf signed (laneOf c b i)))

/-- FSETP's relation of two FP32 codes and its flags (R168). -/
def fcond (cond : FCond) (a b : Nat) : Bool × BitVec 8 :=
  let un := isNan ffF32 a || isNan ffF32 b
  let o := fpCompare ffF32 a b
  let lt := decide (o = .lt)
  let eq := decide (o = .eq)
  let gt := decide (o = .gt)
  match cond with
  | .eq => (!un && eq, 0#8)
  | .ne => (!un && !eq, 0#8)
  | .lt => (!un && lt, flagIf un fNV)
  | .le => (!un && (lt || eq), flagIf un fNV)
  | .gt => (!un && gt, flagIf un fNV)
  | .ge => (!un && (gt || eq), flagIf un fNV)
  | .num => (!un, 0#8)
  | .nan => (un, 0#8)
  | .equ => (un || eq, 0#8)
  | .neu => (un || !eq, 0#8)
  | .ltu => (un || lt, 0#8)
  | .leu => (un || lt || eq, 0#8)
  | .gtu => (un || gt, 0#8)
  | .geu => (un || gt || eq, 0#8)

/-- FSETP (R168). -/
def execFsetp (h : Head) (d a b : Opnd) (na nb : Bool) (cond : FCond) (s : State) : Res :=
  issue s h.guard fun c =>
    predArith c d [a, b] (headKills h a b .zero) fun i => fcond cond (f32In na (laneOf c a i)) (f32In nb (laneOf c b i))

/-- SEL: a where the predicate's bit is 1, else b (R169). -/
def execSel (h : Head) (d a b e : Opnd) (s : State) : Res :=
  issue s h.guard fun c =>
    laneArith c d [a, b, e] (headKills h a b e) fun i =>
      noFlag (if inMask (maskOfOpnd c e) i then laneOf c a i else laneOf c b i)

/-- PMIX (R169). -/
def execPmix (h : Head) (d a b e : Opnd) (t : BitVec 8) (s : State) : Res :=
  issue s h.guard fun c =>
    predArith c d [a, b, e] (headKills h a b e) fun i =>
      noFlag (inMask (tableBits t (maskOfOpnd c a) (maskOfOpnd c b) (maskOfOpnd c e)) i)

/-- PMOV: the form is chosen by the kind of D (R170). -/
def execPmov (h : Head) (d a : Opnd) (s : State) : Res :=
  issue s h.guard fun c =>
    match d with
    | .p _ => predArith c d [a] (headKills h a .zero .zero) fun i => noFlag (inMask (maskOfOpnd c a) i)
    | .s _ => scalarArith c d [a] (headKills h a .zero .zero) (noFlag ((maskOfOpnd c a).setWidth 64))
    | _ => laneArith c d [a] (headKills h a .zero .zero) fun i => noFlag (laneOf c a i)

/-- A source whose MOV is lane-wise: a vector register or sr.lane (R170). -/
def movLaneWise (a : Opnd) : Bool := a.isIn [.V] || a.isLane

/-- MOV: lane-wise from a vector register or sr.lane, else a normalising write (R90, R170). -/
def execMov (h : Head) (d a : Opnd) (s : State) : Res :=
  issue s h.guard fun c =>
    if movLaneWise a then laneArith c d [a] (headKills h a .zero .zero) fun i => noFlag (laneOf c a i)
    else
      arith c d [a] (headKills h a .zero .zero) 0#8 fun x => writeLanesMax c.a x c.act d fun i => laneOf c a i

/-! ## Scalar integer instructions (R171-R174) -/

/-- Width of a scalar operation. -/
def scalarW (m : ScalarMod) : Nat := if m.w64 then 64 else 32

/-- A scalar at the operation's width as an exact integer. -/
def scalarInt (m : ScalarMod) (x : DWord) : Int :=
  if m.w64 then (if m.signed then x.toInt else x.toNat)
  else if m.signed then ((x.setWidth 32 : BitVec 32)).toInt else ((x.setWidth 32 : BitVec 32)).toNat

/-- An exact value as a result of the operation's width, zero-extended (R55, R172). -/
def fitScalar (m : ScalarMod) (v : Int) : DWord × BitVec 8 :=
  if m.w64 then fitInt 64 m.signed m.sat v
  else
    let r := fitInt 32 m.signed m.sat v
    (r.1.setWidth 64, r.2)

def saddVal (m : ScalarMod) (a b : DWord) : DWord × BitVec 8 := fitScalar m (scalarInt m a + scalarInt m b)
def ssubVal (m : ScalarMod) (a b : DWord) : DWord × BitVec 8 := fitScalar m (scalarInt m a - scalarInt m b)
def smulVal (m : ScalarMod) (a b : DWord) : DWord × BitVec 8 := fitScalar m (scalarInt m a * scalarInt m b)
def smulhVal (m : ScalarMod) (a b : DWord) : DWord × BitVec 8 :=
  fitScalar { m with sat := false } (scalarInt m a * scalarInt m b / ((2 ^ scalarW m : Nat) : Int))
def sdivVal (m : ScalarMod) (a b : DWord) : DWord × BitVec 8 :=
  if m.w64 then
    let r := divRem 64 m.signed a b
    (r.1, r.2.2)
  else
    let r := divRem 32 m.signed (a.setWidth 32) (b.setWidth 32)
    (r.1.setWidth 64, r.2.2)

/-- SSHF: a signed count, left when positive (R173). -/
def sshfVal (m : ScalarMod) (a b : DWord) : DWord :=
  let n := (b.extractLsb' 0 8).toInt
  let k := n.natAbs
  if m.w64 then (if 0 ≤ n then a <<< k else if m.signed then a.sshiftRight k else a >>> k)
  else
    let x : BitVec 32 := a.setWidth 32
    (if 0 ≤ n then x <<< k else if m.signed then x.sshiftRight k else x >>> k).setWidth 64

def execSadd (h : Head) (d a b : Opnd) (m : ScalarMod) (s : State) : Res := scalar2 h d a b s (saddVal m)
def execSsub (h : Head) (d a b : Opnd) (m : ScalarMod) (s : State) : Res := scalar2 h d a b s (ssubVal m)
def execSmul (h : Head) (d a b : Opnd) (m : ScalarMod) (s : State) : Res := scalar2 h d a b s (smulVal m)
def execSmulh (h : Head) (d a b : Opnd) (m : ScalarMod) (s : State) : Res := scalar2 h d a b s (smulhVal m)
def execSmix (h : Head) (d a b c : Opnd) (t : BitVec 8) (s : State) : Res :=
  scalar3 h d a b c s fun x y z => noFlag (tableBits t x y z)
def execSshf (h : Head) (d a b : Opnd) (m : ScalarMod) (s : State) : Res :=
  scalar2 h d a b s fun x y => noFlag (sshfVal m x y)

/-- SCMP: 1 or 0 to a scalar, or the result to every active bit of a predicate (R174). -/
def execScmp (h : Head) (d a b : Opnd) (m : ScalarMod) (cond : Cond) (s : State) : Res :=
  issue s h.guard fun c =>
    let r := condInt cond (scalarInt m (scalarOf c a)) (scalarInt m (scalarOf c b))
    arith c d [a, b] (headKills h a b .zero) 0#8 fun x =>
      match d with
      | .p _ => writePred x c.act d (if r then fullMask else 0#32)
      | _ => writeScalar x d (if r then 1#64 else 0#64)

def execSmov (h : Head) (d a : Opnd) (s : State) : Res := scalar1 h d a s noFlag

/-- SMOVH: the high word is IMM, the low word that of A (R172). -/
def execSmovh (h : Head) (d a b : Opnd) (s : State) : Res :=
  scalar2 h d a b s fun x y => noFlag (((y.setWidth 32 : BitVec 32)) ++ ((x.setWidth 32 : BitVec 32)))

def execSdiv (h : Head) (d a b : Opnd) (m : ScalarMod) (s : State) : Res := scalar2 h d a b s (sdivVal m)

/-! ## Special registers (R175-R177) -/

/-- SRD (R175). -/
def execSrd (h : Head) (d a : Opnd) (s : State) : Res := scalar1 h d a s noFlag

/-- The gang's state after SWR of `x` to a special register (R176). -/
def writeSr (a : Arch) (r : SReg) (x : DWord) : Arch :=
  match r with
  | .flags => { a with flags := a.flags &&& ~~~(x.setWidth 8) }
  | .fpmode => { a with fpmode := x.setWidth 10 }
  | .nanc => { a with nanc := x.setWidth 32 }
  | .tpc => { a with tpc := x }
  | .tlane => { a with tlane := x.setWidth 5 }
  | _ => a

/-- SWR: sr.tpc and sr.tlane only in trap mode (R176). -/
def execSwr (h : Head) (d a : Opnd) (s : State) : Res :=
  issue s h.guard fun c =>
    match deadCheck c.a (single [a]) with
    | some x => c.halt x
    | none =>
      if c.act = 0#32 then c.commit (killRegs c.a (headKills h a .zero .zero))
      else
        match firstHalt [privCheck c [d], readCheck c.a c.act (single [a])] with
        | some x => c.halt x
        | none =>
          match d with
          | .sr r => c.commit (writeSr (killRegs c.a (headKills h a .zero .zero)) r (scalarOf c a))
          | _ => c.commit (killRegs c.a (headKills h a .zero .zero))

/-! ## Scalar FP64 (R178) -/

/-- An FP64 source: a register, or an immediate that is FP32 bits widened exactly (R56), with its negate bit. -/
def f64In (c : Ctx) (neg : Bool) (o : Opnd) : Nat :=
  match o with
  | .imm x => flipSign ffF64 (packVal ffF64 .rne 0 false (fdecode ffF32 x.toNat)).1 neg
  | _ => flipSign ffF64 (scalarOf c o).toNat neg

/-- A code as a scalar. -/
def toScalar (r : Nat × BitVec 8) : DWord × BitVec 8 := (BitVec.ofNat 64 r.1, r.2)

def execDadd (h : Head) (d a b : Opnd) (m : FpMod) (s : State) : Res :=
  issue s h.guard fun c =>
    scalarArith c d [a, b] (headKills h a b .zero) (toScalar
      (fpAdd ffF64 (effRm c.a.fpmode m.rm) (effFtz c.a.fpmode m.rm m.ftz) m.sat (f64In c m.na a) (f64In c m.nb b)))
def execDmul (h : Head) (d a b : Opnd) (m : FpMod) (s : State) : Res :=
  issue s h.guard fun c =>
    scalarArith c d [a, b] (headKills h a b .zero) (toScalar
      (fpMul ffF64 (effRm c.a.fpmode m.rm) (effFtz c.a.fpmode m.rm m.ftz) m.sat (f64In c m.na a) (f64In c m.nb b)))
def execDfma (h : Head) (d a b e : Opnd) (m : FpMod) (s : State) : Res :=
  issue s h.guard fun c =>
    scalarArith c d [a, b, e] (headKills h a b e) (toScalar
      (fpFma ffF64 (effRm c.a.fpmode m.rm) (effFtz c.a.fpmode m.rm m.ftz) m.sat (f64In c m.na a) (f64In c m.nb b)
        (f64In c m.nc e)))

end Sys2Proof.Machine
end

