-- ==== Sys2Proof/Machine/CrossLane.lean ====
section
/-!
DEFINITION. Tiles and the cross-lane instructions (07_lane_ops R179-R194): SHFL, NBR, VOTE, REDUCE, SCAN, MATCH, BCAST and
PART.
-/
namespace Sys2Proof.Machine

/-! ## Tiles (R179, R180) -/

/-- The tile size. -/
def tileSize (a : Arch) : Nat := 2 ^ a.part.toNat

/-- First lane of a lane's tile. -/
def tileBase (n l : Nat) : Nat := l - l % n

/-- A tile border: a tile's first lane other than lane 0. -/
def tileBorder (n i : Nat) : Bool := decide (0 < i) && decide (i % n = 0)

/-- Lanes of the tile whose first lane is `b`, ascending. -/
def tileLanes (n b : Nat) : List Nat := (List.range n).map (b + ·)

/-- Active lanes of a lane's tile, ascending. -/
def tileActive (act : Mask) (n l : Nat) : List Nat := (tileLanes n (tileBase n l)).filter (inMask act)

/-! ## The shared order of causes (R183) -/

/-- A cross-lane instruction: source `a` is read in the lanes of `ra`, the other sources in the active lanes, after
privilege; then the merge with the old destination, the traps of the flags, and the commit of `w` (R183). That all of `a`, open and then
poisoned, comes before the others is the model's choice (DESIGN CHOICE, log 24). -/
def crossArith (c : Ctx) (d a : Opnd) (ra : Mask) (others : List Opnd) (kills : Reads) (fl : BitVec 8) (w : Arch → Arch) : Res :=
  match deadCheck c.a (single (a :: others)) with
  | some h => c.halt h
  | none =>
    if c.act = 0#32 then c.commit (killRegs c.a kills)
    else
      match firstHalt [privCheck c (a :: others), readCheck c.a ra (single [a]), readCheck c.a c.act (single others),
          mergeCheck c.a c.act d] with
      | some h => c.halt h
      | none =>
        match excCheck c.a.fpmode fl with
        | some h => c.halt h
        | none => c.commit (raiseFlags (w (killRegs c.a kills)) fl)

/-- The mask of the source lanes of the active lanes. -/
def sourceMask (act : Mask) (src : Nat → Nat) : Mask := maskOf fun i => (lanesIn act).any fun l => decide (src l = i)

/-! ## SHFL, NBR, BCAST (R186, R187, R193) -/

/-- SHFL's source lane for a lane and its selector (R186). -/
def shflSrc (mode : ShflMode) (n l k : Nat) : Nat :=
  let b := tileBase n l
  let j := l % n
  match mode with
  | .pick => b + k % n
  | .rot => b + (j + k % n) % n
  | .swap => b + (j ^^^ (k % n))
  | .rev => b + (n - 1 - j)

/-- Take each lane from its source lane: a normalising write (R184). -/
def moveLanes (c : Ctx) (d a b : Opnd) (kills : Reads) (src : Nat → Nat) : Res :=
  crossArith c d a (sourceMask c.act src) [b] kills 0#8 fun x =>
    writeLanesMax c.a x c.act d fun i => laneOf c a (src i)

/-- SHFL. -/
def execShfl (h : Head) (d a b : Opnd) (mode : ShflMode) (s : State) : Res :=
  issue s h.guard fun c =>
    moveLanes c d a b (headKills h a b .zero) fun i => shflSrc mode (tileSize c.a) i (laneOf c b i).toNat

/-- BCAST. -/
def execBcast (h : Head) (d a b : Opnd) (s : State) : Res :=
  issue s h.guard fun c =>
    moveLanes c d a b (headKills h a b .zero) fun i =>
      tileBase (tileSize c.a) i + ((scalarOf c b).setWidth 32 : BitVec 32).toNat % tileSize c.a

/-- A lane that takes NBR's edge value (R187). -/
def nbrEdge (right : Bool) (n i : Nat) : Bool := if right then decide (i % n = n - 1) else decide (i % n = 0)

/-- NBR's source lane. -/
def nbrSrc (right : Bool) (i : Nat) : Nat := if right then i + 1 else i - 1

/-- NBR's cuts (R184). -/
def nbrCut (c : Ctx) (a : Opnd) (right : Bool) (n i : Nat) : Bool :=
  if right then (decide (i < 31) && cutOf c a (i + 1)) || decide (i % n = n - 1) || decide (i % n = 0)
  else (decide (2 ≤ i) && cutOf c a (i - 1)) || decide (i % n = 0) || decide (i % n = 1 % n)

/-- NBR. -/
def execNbr (h : Head) (d a b : Opnd) (right : Bool) (s : State) : Res :=
  issue s h.guard fun c =>
    let n := tileSize c.a
    crossArith c d a (maskOf fun i => (lanesIn c.act).any fun l => !nbrEdge right n l && decide (nbrSrc right l = i)) [b]
      (headKills h a b .zero) 0#8 fun x =>
        writeLanes c.a x c.act d (nbrCut c a right n) fun i =>
          if nbrEdge right n i then (scalarOf c b).setWidth 32 else laneOf c a (nbrSrc right i)

/-! ## VOTE and MATCH (R188, R192) -/

/-- Vote of a tile's active lanes on the bits of a mask. -/
def voteBit (mode : VoteMode) (t : List Nat) (m : Mask) : Bool :=
  match mode with
  | .all => t.all (inMask m)
  | .any => t.any (inMask m)
  | .uni => t.all (inMask m) || t.all fun l => !inMask m l
  | .ballot => false

/-- The ballot of a tile: the bits of the active lanes at which the mask is 1. -/
def ballotOf (act : Mask) (n l : Nat) (m : Mask) : Mask :=
  maskOf fun i => decide (tileBase n i = tileBase n l) && inMask act i && inMask m i

/-- VOTE: a bit of a predicate, or the ballot into a vector or, ORed over the tiles, into a scalar. -/
def execVote (h : Head) (d a : Opnd) (mode : VoteMode) (s : State) : Res :=
  issue s h.guard fun c =>
    let n := tileSize c.a
    let m := maskOfOpnd c a
    crossArith c d a c.act [] (headKills h a .zero .zero) 0#8 fun x =>
      match d with
      | .v _ => writeLanes c.a x c.act d (tileBorder n) fun i => ballotOf c.act n i m
      | .s _ => writeScalar x d ((m &&& c.act).setWidth 64)
      | _ => writePred x c.act d (maskOf fun i => voteBit mode (tileActive c.act n i) m)

/-- MATCH: the lanes of equal value, or whether the tile's active lanes are all equal. -/
def execMatch (h : Head) (d a : Opnd) (all : Bool) (s : State) : Res :=
  issue s h.guard fun c =>
    let n := tileSize c.a
    crossArith c d a c.act [] (headKills h a .zero .zero) 0#8 fun x =>
      if all then
        writePred x c.act d (maskOf fun i =>
          (tileActive c.act n i).all fun l => (tileActive c.act n i).all fun k => decide (laneOf c a l = laneOf c a k))
      else
        writeLanes c.a x c.act d (fun i => cutOf c a i || tileBorder n i) fun i =>
          maskOf fun k => decide (k ∈ tileActive c.act n i) && decide (laneOf c a k = laneOf c a i)

/-! ## REDUCE and SCAN (R189-R191) -/

/-- One combination of two values and its flags. -/
def redStep (op : RedOp) (x y : Word) : Word × BitVec 8 :=
  match op with
  | .add => noFlag (x + y)
  | .minn => noFlag (if x.toNat ≤ y.toNat then x else y)
  | .mini => noFlag (if x.toInt ≤ y.toInt then x else y)
  | .maxn => noFlag (if x.toNat ≤ y.toNat then y else x)
  | .maxi => noFlag (if x.toInt ≤ y.toInt then y else x)
  | .and => noFlag (x &&& y)
  | .or => noFlag (x ||| y)
  | .xor => noFlag (x ^^^ y)
  | .fadd => f32AddRne x y
  | .fmin => toLane (fpMinMax ffF32 false false false x.toNat y.toNat)
  | .fmax => toLane (fpMinMax ffF32 true false false x.toNat y.toNat)

/-- The identity that SCAN.EXCL gives the first active lane of a tile. -/
def redIdentity : RedOp → Word
  | .add | .maxn | .or | .xor | .fadd => 0x00000000#32
  | .minn | .and => 0xFFFFFFFF#32
  | .mini => 0x7FFFFFFF#32
  | .maxi => 0x80000000#32
  | .fmin => 0x7F800000#32
  | .fmax => 0xFF800000#32

/-- A node of the tree of R126: an empty child passes the other on. -/
def treeNode (op : RedOp) (x y : Option Word) : Option Word × BitVec 8 :=
  match x, y with
  | some a, some b => let r := redStep op a b; (some r.1, r.2)
  | some a, none => (some a, 0#8)
  | none, y => (y, 0#8)

/-- One level of the tree: neighbouring pairs. -/
def treeLevel (op : RedOp) : List (Option Word) → List (Option Word) × BitVec 8
  | x :: y :: rest =>
    let r := treeNode op x y
    let t := treeLevel op rest
    (r.1 :: t.1, r.2 ||| t.2)
  | l => (l, 0#8)

/-- The tree over at most 32 leaves. -/
def treeReduce (op : RedOp) : Nat → List (Option Word) → Option Word × BitVec 8
  | 0, l => (match l with
    | x :: _ => x
    | [] => none, 0#8)
  | k + 1, l =>
    let r := treeLevel op l
    let t := treeReduce op k r.1
    (t.1, r.2 ||| t.2)

/-- The leaves of a tile: a NaN drops out of FMIN and FMAX, whose steps do so; an inactive lane is empty. -/
def tileLeaves (c : Ctx) (a : Opnd) (n b : Nat) : List (Option Word) :=
  (tileLanes n b).map fun l => if inMask c.act l then some (laneOf c a l) else none

/-- A single leaf of FMIN or FMAX that is a NaN gives the canonical NaN; FADD gives it when it has added. -/
def redCanon (op : RedOp) (x : Word) : Word :=
  match op with
  | .fmin | .fmax => if isNan ffF32 x.toNat then 0x7FC00000#32 else x
  | _ => x

/-- The result of a tile and its flags. -/
def tileReduce (c : Ctx) (a : Opnd) (op : RedOp) (n b : Nat) : Word × BitVec 8 :=
  let r := treeReduce op 5 (tileLeaves c a n b)
  (match r.1 with
    | some x => redCanon op x
    | none => 0#32, r.2)

/-- First lanes of the tiles. -/
def tileFirsts (n : Nat) : List Nat := (List.range 32).filter fun i => decide (i % n = 0)

/-- OR of flags. -/
def orFlags (l : List (BitVec 8)) : BitVec 8 := l.foldl (· ||| ·) 0#8

/-- REDUCE. -/
def execReduce (h : Head) (d a : Opnd) (op : RedOp) (s : State) : Res :=
  issue s h.guard fun c =>
    let n := tileSize c.a
    crossArith c d a c.act [] (headKills h a .zero .zero)
      (orFlags ((tileFirsts n).map fun b => (tileReduce c a op n b).2)) fun x =>
        writeLanes c.a x c.act d (tileBorder n) fun i => (tileReduce c a op n (tileBase n i)).1

/-- SCAN over a tile's active lanes in ascending order: the result of each lane, and the flags. -/
def scanTile (c : Ctx) (a : Opnd) (op : RedOp) (excl : Bool) : List Nat → Option Word → List (Nat × Word) × BitVec 8
  | [], _ => ([], 0#8)
  | l :: rest, acc =>
    let x := laneOf c a l
    let r : Word × BitVec 8 := match acc with
      | none => (x, 0#8)
      | some y => redStep op y x
    let out := if excl then (match acc with
      | none => redIdentity op
      | some y => y) else r.1
    let t := scanTile c a op excl rest (some r.1)
    ((l, out) :: t.1, r.2 ||| t.2)

/-- The results of a scan of every tile. -/
def scanAll (c : Ctx) (a : Opnd) (op : RedOp) (excl : Bool) : List (List (Nat × Word) × BitVec 8) :=
  let n := tileSize c.a
  (tileFirsts n).map fun b => scanTile c a op excl (tileActive c.act n b) none

/-- Look a lane up in results. -/
def lookupLane (l : List (Nat × Word)) (i : Nat) : Word :=
  match l.find? fun x => decide (x.1 = i) with
  | some x => x.2
  | none => 0#32

/-- SCAN. -/
def execScan (h : Head) (d a : Opnd) (op : RedOp) (excl : Bool) (s : State) : Res :=
  issue s h.guard fun c =>
    let n := tileSize c.a
    let r := scanAll c a op excl
    let vals := r.flatMap fun t => t.1
    crossArith c d a c.act [] (headKills h a .zero .zero) (orFlags (r.map fun t => t.2)) fun x =>
      writeLanes c.a x c.act d (fun i => cutOf c a i || tileBorder n i) fun i => lookupLane vals i

/-! ## PART (R185) -/

/-- PART. -/
def execPart (h : Head) (code : BitVec 3) (s : State) : Res :=
  issue s h.guard fun c => c.commit (if c.act = 0#32 then c.a else { c.a with part := code })

end Sys2Proof.Machine
end

