-- ==== Sys2Proof/Machine/Pair.lean ====
section
/-!
DEFINITION. The pair word (03_encoding R74-R77): two slot instructions that read their sources together and commit as one.
-/
namespace Sys2Proof.Machine

/-- A slot's source field as an operand (R74). -/
def slotSrc : SlotSrc → Opnd
  | .v n => .v n
  | .s n => .s n

/-- The sources of a slot in the order D, A, B, C (R76, R92): a three-source opcode reads its own destination. -/
def slotSources (x : SlotInstr) : List Opnd :=
  match x.op with
  | .imad _ | .ffma _ | .hfma2 _ => [.v x.d, slotSrc x.a, slotSrc x.b]
  | .not | .mov => [slotSrc x.a]
  | .sel p => [slotSrc x.a, slotSrc x.b, .p p]
  | _ => [slotSrc x.a, slotSrc x.b]

/-- A slot's result in a lane, with its flags: `va`, `vb` and `vd` are the lane's sources, `pick` SEL's predicate bit. -/
def slotLane (fm : BitVec 10) (op : SlotOp) (va vb vd : Word) (pick : Bool) : Word × BitVec 8 :=
  match op with
  | .iadd m => iaddLane m va vb
  | .isub m => isubLane m va vb
  | .imul m => imulLane m va vb
  | .imulh m => imulhLane m va vb
  | .imad m => imadLane m va vb vd
  | .idiv m => idivLane m va vb
  | .irem m => iremLane m va vb
  | .imin m => iminLane m va vb
  | .imax m => imaxLane m va vb
  | .and => noFlag (va &&& vb)
  | .or => noFlag (va ||| vb)
  | .xor => noFlag (va ^^^ vb)
  | .not => noFlag (~~~va)
  | .shl => noFlag (shlLane va vb)
  | .shr sg => noFlag (shrLane sg va vb)
  | .fadd m => faddLane fm m va vb
  | .fsub m => fsubLane fm m va vb
  | .fmul m => fmulLane fm m va vb
  | .ffma m => ffmaLane fm m va vb vd
  | .fmin m => fminmaxLane false m va vb
  | .fmax m => fminmaxLane true m va vb
  | .hadd2 m => hadd2Lane fm m va vb
  | .hmul2 m => hmul2Lane fm m va vb
  | .hfma2 m => hfma2Lane fm m va vb vd
  | .hmin2 m => hminmax2Lane false m va vb
  | .hmax2 m => hminmax2Lane true m va vb
  | .sel _ => noFlag (if pick then va else vb)
  | .mov => noFlag va

/-- SEL's predicate bit of a lane. -/
def slotPick (c : Ctx) (x : SlotInstr) (i : Nat) : Bool :=
  match x.op with
  | .sel p => inMask (c.a.preg p) i
  | _ => false

def slotResult (c : Ctx) (x : SlotInstr) (i : Nat) : Word × BitVec 8 :=
  slotLane c.a.fpmode x.op (laneOf c (slotSrc x.a) i) (laneOf c (slotSrc x.b) i) (vregVal (c.a.vreg x.d) i) (slotPick c x i)

/-- The slot's active lanes (R74, R51). -/
def slotAct (c : Ctx) (x : SlotInstr) : Mask := c.act &&& c.a.preg x.guard

def slotFlags (c : Ctx) (x : SlotInstr) : BitVec 8 := laneFlags (slotAct c x) fun i => (slotResult c x i).2

/-- The slot that raises a trap stands in bit 63 of sr.tval (R77). -/
def tagSlot (y : Bool) (h : Option Halt) : Option Halt :=
  match h with
  | some (.trap cause tval lane) => some (.trap cause (if y then tval ||| 0x8000000000000000#64 else tval) lane)
  | h => h

/-- The checks of a slot when it executes: reads, merge, then the traps of its flags. -/
def slotCheck (c : Ctx) (x : SlotInstr) : Option Halt :=
  if slotAct c x = 0#32 then none
  else
    firstHalt [readCheck c.a (slotAct c x) (single (slotSources x)), mergeCheck c.a (slotAct c x) (.v x.d),
      excCheck c.a.fpmode (slotFlags c x)]

/-- The slot's write: a MOV from a scalar normalises, the others follow the union rule (R77, R88, R90). -/
def slotWrite (c : Ctx) (x : SlotInstr) (a : Arch) : Arch :=
  if slotAct c x = 0#32 then a
  else
    match x.op, x.a with
    | .mov, .s _ => writeLanesMax c.a a (slotAct c x) (.v x.d) fun i => (slotResult c x i).1
    | _, _ => writeLanes c.a a (slotAct c x) (.v x.d) (cutsOf c (slotSources x)) fun i => (slotResult c x i).1

/-- The slot's last-read marks. -/
def slotKills (x : SlotInstr) : Reads :=
  (if x.la then [(slotSrc x.a, 1)] else []) ++ (if x.lb then [(slotSrc x.b, 1)] else [])

/-- The slot reads a poisoned predicate as its guard (R457, R460). -/
def slotGuard (c : Ctx) (x : SlotInstr) : Option Halt := if wordPoison c.a (.p x.guard) then some .poison else none

/-- PAIR (R77): what X raises, then what Y raises; then one commit. -/
def execPair (x y : SlotInstr) (s : State) : Res :=
  issue s { neg := false, p := 7 } fun c =>
    match firstHalt [slotGuard c x, tagSlot false (deadCheck c.a (single (slotSources x))), tagSlot false (slotCheck c x),
        slotGuard c y, tagSlot true (deadCheck c.a (single (slotSources y))), tagSlot true (slotCheck c y)] with
    | some h => c.halt h
    | none =>
      let fl := (if slotAct c x = 0#32 then 0#8 else slotFlags c x) ||| (if slotAct c y = 0#32 then 0#8 else slotFlags c y)
      c.commit (raiseFlags (slotWrite c y (slotWrite c x (killRegs c.a (slotKills x ++ slotKills y)))) fl)

end Sys2Proof.Machine
end

