-- ==== Sys2Proof/Machine/Runs.lean ====
section
/-!
DEFINITION. The run instructions that touch no memory (04_registers R100-R106): COALESCE, RUNS, RUNGET, RUNAPP and RBUDGET.
-/
namespace Sys2Proof.Machine

/-- The lanes of a run list that cover a register, one at a time. -/
def runLanes (l : List Run) : List (Word × Bool) := l.flatMap fun r => List.replicate r.count (r.value, r.poison)

/-- Maximal runs of a run list; a poisoned run keeps its own bounds (R90, R98). -/
def maxRuns : List Run → List Run
  | [] => []
  | r :: rest =>
    match maxRuns rest with
    | t :: ts =>
      if t.value = r.value ∧ !t.poison ∧ !r.poison then { value := r.value, count := r.count + t.count, poison := false } :: ts
      else r :: t :: ts
    | [] => [r]

/-- COALESCE of `src` into `old`: active lanes take the source with its poison, inactive lanes stay; then maximal runs
(R89, R90, R98, R101). A poisoned run keeps its bounds. -/
def coalesceRuns (old src : VReg) (act : Mask) : List Run :=
  packRuns ((List.range 32).map fun i =>
    let from_ := fun (r : VReg) =>
      { value := vregVal r i, poison := vregPoison r i, start := vregPoison r i && vregCut r i : Lane }
    let x := if inMask act i then from_ src else from_ old
    { x with start := x.start || (x.poison && edgeAt act i) })

/-- COALESCE (R101): the only run instruction that obeys the lane mask (R100). -/
def execCoalesce (h : Head) (d a : Opnd) (s : State) : Res :=
  issue s h.guard fun c =>
    match deadCheck c.a (single [a]) with
    | some x => c.halt x
    | none =>
      if c.act = 0#32 then c.commit (killRegs c.a (headKills h a .zero .zero))
      else
        match firstHalt [match firstOpen c.a (single [a]) with
            | some n => some (.trap cRunLength (BitVec.ofNat 64 n) 0#5)
            | none => none, mergeCheck c.a c.act d] with
        | some x => c.halt x
        | none =>
          match d, a with
          | .v n, .v m =>
            c.commit ((killRegs c.a (headKills h a .zero .zero)).setV n (some (coalesceRuns (c.a.vreg n) (c.a.vreg m) c.act)))
          | _, _ => c.commit (killRegs c.a (headKills h a .zero .zero))

/-- A run-list operand; a dead one has none, and reading it traps before. -/
def runList (c : Ctx) (o : Opnd) : List Run :=
  match o with
  | .v n => match c.a.vreg n with
    | some l => l
    | none => []
  | _ => []

/-- An instruction on whole registers that executes once when some lane is active: dead reads, then `f` (R100). -/
def wholeOp (h : Head) (srcs : List Opnd) (kills : Reads) (s : State) (f : Ctx → Arch → Res) : Res :=
  issue s h.guard fun c =>
    match deadCheck c.a (single srcs) with
    | some x => c.halt x
    | none =>
      if c.act = 0#32 then c.commit (killRegs c.a kills)
      else if srcs.any (wordPoison c.a) then c.halt .poison
      else f c (killRegs c.a kills)

/-- RUNS (R102). -/
def execRuns (h : Head) (d a : Opnd) (max : Bool) (s : State) : Res :=
  wholeOp h [a] (headKills h a .zero .zero) s fun c x =>
    let l := runList c a
    c.commit (writeScalar x d (BitVec.ofNat 64 (if max then maxRuns l else l).length))

/-- The answer of RUNGET for run k (R103). -/
def rungetVal (l : List Run) (k : Nat) : DWord :=
  match l[k]? with
  | none => 0#64
  | some r =>
    (BitVec.ofNat 64 (lengthOf (l.take k)) <<< (40 : Nat)) ||| (BitVec.ofNat 64 r.count <<< (32 : Nat)) ||| r.value.setWidth 64

/-- RUNGET: a poisoned run is consumed (R98, R103). -/
def execRunget (h : Head) (d a b : Opnd) (s : State) : Res :=
  wholeOp h [a, b] (headKills h a b .zero) s fun c x =>
    let l := runList c a
    let k := ((scalarOf c b).setWidth 32 : BitVec 32).toNat
    let hit := match l[k]? with
      | some r => r.poison
      | none => false
    if hit then c.halt .poison else c.commit (writeScalar x d (rungetVal l k))

/-- RUNAPP's checks and its new list (R104): the sr.tval of RUN_LENGTH, or the list. -/
def runappList (old : VReg) (first last : Bool) (v : Word) (n : Nat) : Nat ⊕ List Run :=
  let base : Nat ⊕ List Run :=
    if first then .inr []
    else match old with
      | none => .inl 0
      | some l => if lengthOf l < 32 then .inr l else .inl 32
  match base with
  | .inl t => .inl t
  | .inr l =>
    if n = 0 ∨ lengthOf l + n > 32 then .inl (lengthOf l + n)
    else if last ∧ lengthOf l + n ≠ 32 then .inl (lengthOf l + n)
    else if !last ∧ lengthOf l + n = 32 then .inl 32
    else .inr (l ++ [{ value := v, count := n, poison := false }])

/-- RUNAPP: RUN_LENGTH is checked before RUN_OVERFLOW (R104). -/
def execRunapp (h : Head) (d a b : Opnd) (first last : Bool) (s : State) : Res :=
  wholeOp h [a, b] (headKills h a b .zero) s fun c x =>
    match d with
    | .v n =>
      match runappList (c.a.vreg n) first last ((scalarOf c a).setWidth 32) ((scalarOf c b).setWidth 32 : BitVec 32).toNat with
      | .inl t => c.trap cRunLength (BitVec.ofNat 64 t)
      | .inr l => c.commit (x.setV n (some l))
    | _ => c.commit x

/-- The snapshot of RBUDGET (R106). -/
def rbudgetVal (s : State) (g : Gang) : DWord :=
  (if g.arch.mode = .trap then 0x0002000000000000#64 else 0#64) |||
    (if g.noborrow then 0x0001000000000000#64 else 0#64) |||
    (BitVec.ofNat 64 (poolFree s g.id % 65536) <<< (32 : Nat)) ||| (BitVec.ofNat 64 (g.budget % 65536) <<< (16 : Nat)) |||
    BitVec.ofNat 64 (heldSlots g.arch % 65536)

/-- RBUDGET (R106). -/
def execRbudget (h : Head) (d : Opnd) (s : State) : Res :=
  wholeOp h [] [] s fun c x => c.commit (writeScalar x d (rbudgetVal c.s c.g))

end Sys2Proof.Machine
end

