-- ==== Sys2Proof/Machine/Memory.lean ====
section
/-!
DEFINITION. The storage hierarchy (10_memory R256-R263; 11_page R287-R298): physical addresses and homes, the RDC, cluster
caches and L1s with their leases, page tables and translation, and the spaces of R256.
-/
namespace Sys2Proof.Machine

/-! ## Bytes of a line -/

/-- The bits that a byte mask selects. -/
def spread (W : Nat) {w : Nat} (m : BitVec w) : BitVec W :=
  (List.range w).foldl (fun x i => if m.getLsbD i then x ||| (BitVec.ofNat W 255 <<< (8 * i)) else x) 0#W

/-- `new` in the bytes of the mask, `old` elsewhere. -/
def overlay {W w : Nat} (m : BitVec w) (new old : BitVec W) : BitVec W :=
  (new &&& spread W m) ||| (old &&& ~~~(spread W m))

/-- The mask of `n` bytes from `off`. -/
def byteSpan (w off n : Nat) : BitVec w := (BitVec.ofNat w (2 ^ n - 1)) <<< off

/-- `n` bytes of a line from `off`, as a number. -/
def lineNat {W : Nat} (x : BitVec W) (off n : Nat) : Nat := (x >>> (8 * off)).toNat % 256 ^ n

/-- A number placed at byte `off` of a line. -/
def lineOf (W off x : Nat) : BitVec W := BitVec.ofNat W x <<< (8 * off)

/-- The words of a line or sheet that a byte mask touches, and those it covers whole. -/
def wordsTouched (n : Nat) {w : Nat} (m : BitVec w) : BitVec n :=
  (List.range n).foldl (fun x i => if m.extractLsb' (4 * i) 4 ≠ 0#4 then x ||| (1#n <<< i) else x) 0#n
def wordsWhole (n : Nat) {w : Nat} (m : BitVec w) : BitVec n :=
  (List.range n).foldl (fun x i => if m.extractLsb' (4 * i) 4 = 0xF#4 then x ||| (1#n <<< i) else x) 0#n

/-! ## Physical addresses and homes (R288) -/

def paRegion (pa : Nat) : Nat := pa / 2 ^ 44 % 4

/-- Die id of the home: the memory die of REGION 0, the proxy's compute die of REGION 1. -/
def homeOf (pa : Nat) : Nat := if paRegion pa = 0 then 8 + pa / 2 ^ 40 % 16 else pa / 2 ^ 41 % 8

/-- Bytes of a stack. -/
def stackLimit : Nat := 48000000000

/-- The address names a byte of memory. -/
def paExists (pa : Nat) : Bool :=
  (decide (paRegion pa = 0) && decide (pa % 2 ^ 40 < stackLimit)) || decide (paRegion pa = 1)

def dieLost (s : State) (die : Nat) : Bool := s.lost.getLsbD die

/-! ### Links and routes (17_link R423, R424; 01_device R15, R16) -/

def findLink (s : State) (id : LinkId) : Option Link := s.links.find? fun l => decide (l.id = id)
def modLink (s : State) (id : LinkId) (f : Link → Link) : State :=
  { s with links := s.links.map fun l => if l.id = id then f l else l }

/-- A link carries traffic. -/
def linkUp (s : State) (id : LinkId) : Bool :=
  match findLink s id with
  | some l => decide (l.state = .active) || decide (l.state = .degraded)
  | none => false

/-- A link is FAILED or DISABLED. -/
def linkBroken (s : State) (id : LinkId) : Bool :=
  match findLink s id with
  | some l => decide (l.state = .failed) || decide (l.state = .disabled)
  | none => false

/-- A home is lost: with its die, or a proxy with its CXL port (R322, R424). -/
def homeLost (s : State) (home : Nat) : Bool := dieLost s home || (decide (home < 8) && linkBroken s (.cxl home))

/-- The ring links from die `i` to die `j` in the direction of increasing ids, and against it (R15, R16). -/
def ringRoutes (i j : Nat) : List (List LinkId) :=
  [(List.range ((j + 8 - i) % 8)).map fun k => .ring ((i + k) % 8), (List.range ((i + 8 - j) % 8)).map fun k => .ring ((j + k) % 8)]

/-- The routes from a compute die to a home: to a proxy over the ring and its CXL port, to a memory die through either of its
attachments (R16). -/
def homeRoutes (die home : Nat) : List (List LinkId) :=
  if home < 8 then (ringRoutes die home).map (· ++ [.cxl home])
  else
    let k := home - 8
    (ringRoutes die (k / 2)).map (· ++ [.memory k false]) ++ (ringRoutes die ((k / 2 + 1) % 8)).map (· ++ [.memory k true])

/-- The route that a request takes: of those that cross no FAILED or DISABLED link the one with the fewest ring links, on a tie the
one in the direction of increasing ids (R16, R424). -/
def chooseRoute (s : State) : List (List LinkId) → Option (List LinkId)
  | [] => none
  | r :: rest =>
    if r.any (linkBroken s) then chooseRoute s rest
    else match chooseRoute s rest with
      | some t => if t.length < r.length then some t else some r
      | none => some r

/-- A request goes over its route now: there is one, and no link of it is held up by training (R423). -/
def routeUp (s : State) (l : List (List LinkId)) : Bool :=
  match chooseRoute s l with
  | some r => r.all (linkUp s)
  | none => false

/-- A request of a compute die reaches a home; a lost home answers at once (R322). -/
def homeReach (s : State) (die home : Nat) : Bool := homeLost s home || routeUp s (homeRoutes die home)

/-- A message of a compute die reaches another. -/
def dieReach (s : State) (i j : Nat) : Bool := routeUp s (ringRoutes i j)


/-- A fabric port of a die that is not broken, and one that carries traffic. -/
def fabricOpen (s : State) (die : Nat) : Bool := (List.range 5).any fun p => !linkBroken s (.fabric die p)
def fabricUp (s : State) (die : Nat) : Bool := (List.range 5).any fun p => linkUp s (.fabric die p)

/-- A die's domain traffic leaves through its own fabric ports, or when all five have failed through those of a die that it reaches
over the ring (R424). -/
def fabricReach (s : State) (die : Nat) : Bool :=
  if fabricOpen s die then fabricUp s die else (List.range 8).any fun d => fabricUp s d && dieReach s die d

/-- A request of a compute die reaches a home, or with 24 + d compute die d, or with 32 the fabric. -/
def placeReach (s : State) (die n : Nat) : Bool :=
  if n < 24 then homeReach s die n else if n < 32 then dieReach s die (n - 24) else fabricReach s die

/-- Where the bytes of a home address stand: while a page migrates, the part below the boundary stands at the new home (R317). -/
def standsAt (s : State) (pa : Nat) : Nat :=
  match s.migrations.find? fun m => m.bias.isNone && decide (m.old ≤ pa) && decide (pa < m.old + m.size) with
  | some m => if pa - m.old < m.boundary then m.new + (pa - m.old) else pa
  | none => pa

/-- The other address of a byte of a migrated page whose entries are switched, by which some die may still hold it (R317). -/
def aliasesOf (s : State) (pa : Nat) : List Nat :=
  s.migrations.filterMap fun m =>
    if m.bias.isSome ∨ m.shoot.isNone then none
    else if m.old ≤ pa ∧ pa < m.old + m.size then some (m.new + (pa - m.old))
    else if m.new ≤ pa ∧ pa < m.new + m.size then some (m.old + (pa - m.new))
    else none

/-- Home memory as it stands. -/
def homeNat (s : State) (pa n : Nat) : Nat := natOfBytes (cellsRead s.mem (standsAt s pa) n)

/-- Poison of the home line of an address, where its bytes stand: a marked line, or any line of a lost die (R317, R320, R322). -/
def homePoisoned (s : State) (pa : Nat) : Bool :=
  homeLost s (homeOf (standsAt s pa)) || s.poison.contains (standsAt s pa / 128)

/-- The contents of a home line. -/
def homeLine (s : State) (line : Nat) : BitVec 1024 := BitVec.ofNat 1024 (homeNat s (128 * line) 128)

/-- Write bytes at a home. A write that replaces every word of a poisoned line clears the mark (R320). -/
def homeWrite (s : State) (pa : Nat) (bytes : List Byte) : State :=
  let q := standsAt s pa
  if homeLost s (homeOf q) then s
  else
    { s with
        mem := cellsWrite s.mem q bytes,
        poison := s.poison.filter fun l => !(decide (q ≤ 128 * l) && decide (128 * l + 128 ≤ q + bytes.length)) }

/-- Granule of 64 KiB in which a home keeps its sharers. -/
def granule (pa : Nat) : Nat := pa / 65536

def findHomePage (s : State) (g : Nat) : HomePage :=
  match s.homePages.find? fun h => decide (h.page = g) with
  | some h => h
  | none => { page := g, sharers := 0#8, state := .normal }

def modHomePage (s : State) (g : Nat) (f : HomePage → HomePage) : State :=
  if s.homePages.any fun h => decide (h.page = g) then
    { s with homePages := s.homePages.map fun h => if h.page = g then f h else h }
  else { s with homePages := s.homePages ++ [f { page := g, sharers := 0#8, state := .normal }] }

/-- The die becomes a sharer; a drop notice of it that is still on its way arrives before the request (R307). -/
def setSharer (s : State) (pa die : Nat) : State :=
  modHomePage { s with msgs := s.msgs.filter fun m => decide (m ≠ .drop die (homeOf pa) (granule pa)) } (granule pa) fun h => { h with sharers := h.sharers ||| (1#8 <<< die) }

def clearSharer (s : State) (g die : Nat) : State :=
  modHomePage s g fun h => { h with sharers := h.sharers &&& ~~~(1#8 <<< die) }

/-! ## The RDC (R297, R298) -/

def findSheet (d : Die) (sh : Nat) : Option Sheet := d.sheets.find? fun x => decide (x.sheet = sh)

def putSheet (s : State) (die : Nat) (x : Sheet) : State :=
  modDie s die fun d =>
    if d.sheets.any fun y => decide (y.sheet = x.sheet) then
      { d with sheets := d.sheets.map fun y => if y.sheet = x.sheet then x else y }
    else { d with sheets := d.sheets ++ [x] }

/-- The latest lease end granted on line `h` of a sheet. -/
def Sheet.granted (x : Sheet) (h : Nat) : Nat := if h = 0 then x.grants.1 else x.grants.2

/-- A lease to `t` is granted on line `h`. -/
def Sheet.grant (x : Sheet) (h t : Nat) : Sheet :=
  { x with grants := if h = 0 then (max x.grants.1 t, x.grants.2) else (x.grants.1, max x.grants.2 t) }

/-- When the writes of a line that are not visible yet become visible, once one more is performed: at the latest lease end granted on the
line, if that is still to come (R260). -/
def delayTo (tick granted old : Nat) : Nat := if tick < granted then max old granted else old

/-- A line whose leases have ended has no delayed write. -/
def expired (tick seen : Nat) : Nat := if seen ≤ tick then 0 else seen

/-- A byte of line `h` is in the mask. -/
def inHalf (m : BitVec 256) (h : Nat) : Bool := decide (m &&& byteSpan 256 (128 * h) 128 ≠ 0#256)

/-- Bytes of a sheet are written at the RDC. -/
def Sheet.delay (x : Sheet) (tick : Nat) (m : BitVec 256) : Sheet :=
  { x with seen := (if inHalf m 0 then delayTo tick x.grants.1 x.seen.1 else x.seen.1,
                    if inHalf m 1 then delayTo tick x.grants.2 x.seen.2 else x.seen.2) }

/-- Writes under leases that have ended are visible through the unit. -/
def refreshSheet (tick : Nat) (x : Sheet) : Sheet := { x with seen := (expired tick x.seen.1, expired tick x.seen.2) }

/-- Half h of a sheet gets its line from the home. -/
def fillHalf (s : State) (x : Sheet) (h : Nat) : Sheet :=
  if x.held.getLsbD h then x
  else
    let line := 2 * x.sheet + h
    let m := byteSpan 256 (128 * h) 128
    let d : BitVec 2048 := ((homeLine s line).setWidth 2048 : BitVec 2048) <<< (1024 * h)
    { x with
        held := x.held ||| (1#2 <<< h), work := overlay m d x.work,
        poison := if homePoisoned s (128 * line) then x.poison ||| (0xFFFFFFFF#64 <<< (32 * h))
          else x.poison &&& ~~~(0xFFFFFFFF#64 <<< (32 * h)) }

def newSheet (sh : Nat) : Sheet :=
  { sheet := sh, state := .clean, held := 0#2, work := 0#2048, twin := 0#2048, sent := 0#64,
    grants := (0, 0), seen := (0, 0), twinTick := 0, poison := 0#64 }

/-- The sheet of a die, ABSENT as one that holds nothing. -/
def sheetOr (s : State) (die sh : Nat) : Sheet :=
  match findSheet (getDie s die) sh with
  | some x => x
  | none => newSheet sh

/-- Sheets that an RDC of 96 MiB holds (R18). -/
def rdcSheets : Nat := 393216

/-- The lines of a CLEAN sheet leave the RDC: what leases run on them is kept, and when the die holds no line of the page it sends a
drop notice (R260, R298, R307). -/
def replaceSheet (s : State) (die : Nat) (x : Sheet) : State :=
  let s :=
    if x.grants.1 ≤ s.tick ∧ x.grants.2 ≤ s.tick then
      modDie s die fun d => { d with sheets := d.sheets.filter fun y => decide (y.sheet ≠ x.sheet) }
    else putSheet s die { newSheet x.sheet with grants := x.grants }
  if (getDie s die).sheets.any fun y => decide (y.sheet / 256 = x.sheet / 256) && decide (y.held ≠ 0#2) then s
  else { s with msgs := s.msgs ++ [.drop die (homeOf (256 * x.sheet)) (x.sheet / 256)] }

/-- The room that an RDC's lines and twins take, in sheets (R18, R299). -/
def rdcLoad (d : Die) : Nat :=
  (d.sheets.filter fun x => decide (x.held ≠ 0#2)).length + (d.sheets.filter fun x => decide (x.state ≠ .clean)).length

/-- A full RDC replaces a CLEAN sheet other than `sh`, the one that it has held longest (R18, R298; log 139). -/
def makeRoom (s : State) (die sh : Nat) : State :=
  if rdcLoad (getDie s die) < rdcSheets then s
  else match (getDie s die).sheets.find? fun x => decide (x.state = .clean) && decide (x.held ≠ 0#2) && decide (x.sheet ≠ sh) with
    | some x => replaceSheet s die x
    | none => s

/-- The die's RDC holds the line: it is fetched from its home if need be, and the die becomes a sharer of the page (R298,
R307). -/
def supplyLine (s : State) (die line : Nat) : State :=
  if (sheetOr s die (line / 2)).held.getLsbD (line % 2) then s
  else
    let s := makeRoom s die (line / 2)
    setSharer (putSheet s die (fillHalf s (sheetOr s die (line / 2)) (line % 2))) (128 * line) die

/-- A die has a line or can fetch it. -/
def lineReach (s : State) (die pa : Nat) : Bool :=
  (sheetOr s die (pa / 256)).held.getLsbD (pa / 128 % 2) || homeReach s die (homeOf pa)

/-- An access is served where its target lies: a normal page through the die's RDC, any other at its home or another device. -/
def targetReach (s : State) (die : Nat) : Target → Bool
  | .mem pa false => lineReach s die pa
  | .mem pa true => homeReach s die (homeOf pa)
  | .remote d a => if d = s.admin.devid.toNat then homeReach s die (homeOf a) else fabricReach s die
  | .away home => homeReach s die home
  | _ => true

/-- The place that an access of a target waits for. -/
def targetPlace (s : State) : Target → Nat
  | .mem pa _ => homeOf pa
  | .remote d a => if d = s.admin.devid.toNat then homeOf a else 32
  | .away home => home
  | _ => 0

/-- An access performed at homes reaches its target's home. -/
def targetHome (s : State) (die : Nat) : Target → Bool
  | .mem pa _ => homeReach s die (homeOf pa)
  | t => targetReach s die t

/-- A line of a normal page is held under a lease at the core's L1 or its cluster cache, for a load that reads there, or in the die's RDC. -/
def lineNear (s : State) (id : GangId) (pol : Policy) (pa : Nat) : Bool :=
  let here := fun (l : List LeasedLine) => l.any fun x => decide (x.line = pa / 128) && decide (s.tick < x.leaseEnd)
  (decide (pol ≠ .nt) && (here (getCore s id.die id.core).l1 || here (getCluster s id.die (clusterOf id.core)).lines))
    || (sheetOr s id.die (pa / 256)).held.getLsbD (pa / 128 % 2)

/-- A load of a normal page finds its line on the die, or its home can be reached. -/
def loadReach (s : State) (id : GangId) (pol : Policy) (t : Target) : Bool :=
  match t with
  | .mem pa false => lineNear s id pol pa || homeReach s id.die (homeOf pa)
  | t => targetReach s id.die t

/-- Every target of some accesses can be reached from a die. -/
def accsReach (s : State) (die : Nat) (l : List LaneAcc) : Bool := l.all fun x => targetReach s die x.tgt
def accsHome (s : State) (die : Nat) (l : List LaneAcc) : Bool := l.all fun x => targetHome s die x.tgt

/-- A line of the RDC, with its poison. -/
def rdcRead (s : State) (die line : Nat) : State × BitVec 1024 × BitVec 32 :=
  let s := supplyLine s die line
  let x := sheetOr s die (line / 2)
  (s, x.work.extractLsb' (1024 * (line % 2)) 1024, x.poison.extractLsb' (32 * (line % 2)) 32)

/-- The RDC supplies a line to a cluster cache under a lease, which ends at the tick of the grant plus its length (R260): the line as
performed, its poison, and the lease's end. -/
def rdcServe (s : State) (die line len : Nat) : State × BitVec 1024 × BitVec 32 × Nat :=
  let r := rdcRead s die line
  let t := r.1.tick + len
  (putSheet r.1 die ((sheetOr r.1 die (line / 2)).grant (line % 2) t), r.2.1, r.2.2, t)

/-- Sheets with a twin. -/
def twinCount (d : Die) : Nat := (d.sheets.filter fun x => decide (x.state ≠ .clean)).length

/-- Twins that the twin store of a die holds (R18, R299). -/
def twinStore : Nat := 65536

/-- A sheet can be written: it has a twin, or the twin store has room (R299). -/
def twinRoom (s : State) (die sh : Nat) : Bool :=
  decide ((sheetOr s die sh).state ≠ .clean) || decide (twinCount (getDie s die) < twinStore)

/-- The sheet that a write needs whole is held, or its missing lines can be fetched. -/
def sheetReach (s : State) (die sh : Nat) : Bool := lineReach s die (256 * sh) && lineReach s die (256 * sh + 128)

/-- The twinned sheet whose twin was made earliest. -/
def oldestTwin (d : Die) : Option Sheet :=
  d.sheets.foldl (fun m x =>
    if x.state = .clean then m
    else match m with
      | none => some x
      | some y => if x.twinTick < y.twinTick then some x else m) none

/-- An early round is asked for some sheets of a die (R301). -/
def askEarly (s : State) (die : Nat) (l : List Nat) : State :=
  modDie s die fun d => { d with early := d.early ++ l.filter fun x => !d.early.contains x }

/-- A write reaches the RDC (R298): missing lines are fetched, the words are copied to a twin unless there is one, and the
bytes of the mask are performed. Words written whole take the poison given, others keep theirs. -/
def rdcWrite (s : State) (die sh : Nat) (m : BitVec 256) (data : BitVec 2048) (psn : BitVec 64) : State :=
  let s := makeRoom (supplyLine (supplyLine s die (2 * sh)) die (2 * sh + 1)) die sh
  let x := sheetOr s die sh
  let x := if x.state = .clean then { x with state := .twinned, twin := x.work, twinTick := s.tick } else x
  putSheet s die ({ x with work := overlay m data x.work,
                           poison := (x.poison &&& ~~~(wordsWhole 64 m)) ||| (psn &&& wordsTouched 64 m) }.delay s.tick m)

/-! ## Cluster caches (R259, R260) -/

def newLine (line : Nat) : LeasedLine :=
  { line := line, data := 0#1024, grantEnd := 0, seenAt := 0, leaseEnd := 0, dirty := 0#128, poison := 0#32, policy := .normal }

def lineOr (l : List LeasedLine) (line : Nat) : LeasedLine :=
  match l.find? fun x => decide (x.line = line) with
  | some x => x
  | none => newLine line

def putLine (l : List LeasedLine) (x : LeasedLine) : List LeasedLine :=
  if l.any fun y => decide (y.line = x.line) then l.map fun y => if y.line = x.line then x else y else l ++ [x]

def refreshLine (tick : Nat) (x : LeasedLine) : LeasedLine := { x with seenAt := expired tick x.seenAt }

/-- Flush the dirty bytes of one line to the RDC; the write waits when no twin can be made, or a line of the sheet cannot be fetched
(R299, R424). -/
def flushLine (s : State) (die cl : Nat) (x : LeasedLine) : State :=
  if x.dirty = 0#128 ∨ !twinRoom s die (x.line / 2) ∨ !sheetReach s die (x.line / 2) then s
  else
    let h := x.line % 2
    let m : BitVec 256 := (x.dirty.setWidth 256 : BitVec 256) <<< (128 * h)
    let d : BitVec 2048 := (x.data.setWidth 2048 : BitVec 2048) <<< (1024 * h)
    let p : BitVec 64 := (x.poison.setWidth 64 : BitVec 64) <<< (32 * h)
    let s := rdcWrite s die (x.line / 2) m d p
    modCluster s die cl fun c => { c with lines := putLine c.lines { x with dirty := 0#128 } }

/-- Lines that a cluster cache of 4 MiB holds (R18). -/
def clusterLines : Nat := 32768

/-- The page that a physical address lies in: first byte and size, as the die's cached translations give it, else its 64 KiB granule
(DEDUCED, log 142). -/
def pageAround (d : Die) (pa : Nat) : Nat × Nat :=
  match d.tlb.find? fun t => t.entry.getLsbD 1 && !t.entry.getLsbD 5 && decide (leafAddr t.entry ≤ pa) && decide (pa < leafAddr t.entry + t.size) with
  | some t => (leafAddr t.entry, t.size)
  | none => (65536 * granule pa, 65536)
where
  /-- ADDR of an entry (R292). -/
  leafAddr (e : BitVec 64) : Nat := (e.extractLsb' 12 34).toNat * 4096

/-- Ask for an early round of every TWINNED sheet of the page whose oldest twin was made earliest (R299). -/
def askRoom (s : State) (die : Nat) : State :=
  match oldestTwin (getDie s die) with
  | none => s
  | some y =>
    let p := pageAround (getDie s die) (256 * y.sheet)
    askEarly s die (((getDie s die).sheets.filter fun x =>
      decide (x.state = .twinned) && decide (p.1 ≤ 256 * x.sheet) && decide (256 * x.sheet < p.1 + p.2)).map fun x => x.sheet)

/-- A line leaves the cluster cache: its dirty bytes go to the RDC (R259, R298), or wait there for a twin's room (R299); leases granted on
it run on. -/
def evictLine (s : State) (die cl line : Nat) : State :=
  let x := lineOr (getCluster s die cl).lines line
  let s := if x.dirty ≠ 0#128 ∧ !twinRoom s die (line / 2) then askRoom s die else flushLine s die cl x
  modCluster s die cl fun c => { c with lines := c.lines.map fun x =>
    if x.line = line ∧ x.dirty = 0#128 then { x with leaseEnd := min x.leaseEnd s.tick } else x }

/-- The line has bytes in the cluster cache. -/
def holdsLine (tick : Nat) (x : LeasedLine) : Bool := decide (tick < x.leaseEnd) || decide (x.dirty ≠ 0#128)

/-- The line that a full cache replaces: an evict-first line before the others, a keep line only after the normal ones, of each kind the
one held longest (R264; log 139). -/
def victim (l : List LeasedLine) (ok : LeasedLine → Bool) : Option LeasedLine :=
  let of_ := fun (f : Policy → Bool) => l.find? fun x => ok x && f x.policy
  match of_ fun q => decide (q = .evf) with
  | some x => some x
  | none => match of_ fun q => decide (q ≠ .keep) with
    | some x => some x
    | none => of_ fun _ => true

/-- A full cluster cache evicts a line other than `line` (R18, R264); where only dirty lines are left and the twin store is full, room is
asked for (R299). -/
def fitCluster (s : State) (die cl line : Nat) : State :=
  let held := (getCluster s die cl).lines.filter (holdsLine s.tick)
  if held.length ≤ clusterLines then s
  else match victim held fun x => decide (x.line ≠ line)
      && (decide (x.dirty = 0#128) || (twinRoom s die (x.line / 2) && sheetReach s die (x.line / 2))) with
    | some x => evictLine s die cl x.line
    | none => askRoom s die

/-- A cluster-cache line with its clean bytes fresh: when its lease has ended they are fetched again and its dirty bytes
stay (R260). -/
def clusterFill (s : State) (die cl line len : Nat) (pol : Policy) : State :=
  let x := lineOr (getCluster s die cl).lines line
  if x.leaseEnd > s.tick then
    (if x.policy = pol then s else modCluster s die cl fun c => { c with lines := putLine c.lines { x with policy := pol } })
  else
    let r := rdcServe s die line len
    let x := { x with
      data := overlay x.dirty x.data r.2.1, policy := pol,
      poison := (x.poison &&& wordsTouched 32 x.dirty) ||| (r.2.2.1 &&& ~~~(wordsWhole 32 x.dirty)),
      leaseEnd := r.2.2.2 }
    fitCluster (modCluster r.1 die cl fun c => { c with lines := putLine c.lines x }) die cl line

/-- A line at the cluster cache, as performed. -/
def clusterRead (s : State) (die cl line len : Nat) (pol : Policy) : State × BitVec 1024 × BitVec 32 :=
  let s := clusterFill s die cl line len pol
  let x := lineOr (getCluster s die cl).lines line
  (s, x.data, x.poison)

/-- A line is among the changed lines of a block or fold-in. -/
def Diff.hasLine (d : Diff) (line : Nat) : Bool := d.words.any fun w => decide (32 * d.span + w.1 / 32 = line)

/-- An L1 lease granted now on a line holds back the acknowledgement of the blocks whose cluster leases on it still run (R311). -/
def noteL1Lease (s : State) (die line end_ : Nat) : State :=
  { s with fwds := s.fwds.map fun f =>
      if f.die = die ∧ f.stage = .applied ∧ s.tick < f.until_ ∧ f.d.hasLine line then { f with ackAt := max f.ackAt end_ } else f }

/-- The cluster cache supplies a line to an L1 under a lease, which ends at the tick of the grant plus its length (R260): the line, its
poison, and the lease's end. -/
def clusterServe (s : State) (die cl line len : Nat) (pol : Policy) : State × BitVec 1024 × BitVec 32 × Nat :=
  let r := clusterRead s die cl line len pol
  let x := lineOr (getCluster r.1 die cl).lines line
  let t := r.1.tick + len
  let s := modCluster r.1 die cl fun c => { c with lines := putLine c.lines { x with grantEnd := max x.grantEnd t } }
  (noteL1Lease s die line t, r.2.1, r.2.2, t)

/-- A write reaches the cluster cache: its bytes are performed, become dirty, and are visible once the leases granted on the line have
ended (R260). -/
def clusterWrite (s : State) (die cl line : Nat) (m : BitVec 128) (data : BitVec 1024) (pol : Policy) : State :=
  let s := modCluster s die cl fun c =>
    let x := lineOr c.lines line
    { c with lines := putLine c.lines { x with
        data := overlay m data x.data, dirty := x.dirty ||| m, seenAt := delayTo s.tick x.grantEnd x.seenAt,
        poison := x.poison &&& ~~~(wordsWhole 32 m), policy := pol } }
  fitCluster s die cl line

/-- Flush the dirty lines of a cluster cache that are selected (R266). -/
def flushCluster (s : State) (die cl : Nat) (sel : Nat → Bool) : State :=
  (getCluster s die cl).lines.foldl (fun s x => if sel x.line then flushLine s die cl x else s) s

/-- Every selected line of a cluster cache is clean. -/
def clusterClean (s : State) (die cl : Nat) (sel : Nat → Bool) : Bool :=
  (getCluster s die cl).lines.all fun x => !sel x.line || decide (x.dirty = 0#128)

/-! ## L1 (R259, R260) -/

/-- Lease length of a context (R260). -/
def leaseOf (s : State) (ctx : Nat) : Nat :=
  match findContext s ctx with
  | some c => c.lease
  | none => 128

/-- The end of the highest allocation resident on a core. -/
def scratchEnd (s : State) (die core : Nat) : Nat :=
  s.blocks.foldl (fun n b => if b.die = die ∧ b.core = core ∧ b.size > 0 ∧ (b.state = .resident ∨ b.state = .abandoned) then max n (b.base + b.size) else n) 0

/-- Lines that a core's L1 holds: what its scratchpad leaves of 512 KiB (R19). -/
def l1Lines (s : State) (die core : Nat) : Nat := (524288 - (scratchEnd s die core + 65535) / 65536 * 65536) / 128

/-- An L1 with no more lines than its room, other than `line` (R19, R264). -/
def trimL1 (room line : Nat) : Nat → List LeasedLine → List LeasedLine
  | 0, l => l
  | n + 1, l =>
    if l.length ≤ room then l
    else match victim l fun x => decide (x.line ≠ line) with
      | some x => trimL1 room line n (l.filter fun y => decide (y.line ≠ x.line))
      | none => l

/-- A core's L1 keeps to its room. -/
def fitL1 (s : State) (die core line : Nat) : State :=
  let l := (getCore s die core).l1
  if l.length ≤ l1Lines s die core then s
  else modCore s die core fun c => { c with l1 := trimL1 (l1Lines s die core) line l.length c.l1 }

/-- The stores of a core to a line that have not reached the cluster cache. -/
def throughOn (s : State) (die core line : Nat) : List Through :=
  s.through.filter fun x => decide (x.gang.die = die) && decide (x.gang.core = core) && decide (x.line = line)

/-- A line with stores laid over it, oldest first, and its poison. -/
def overThrough (l : List Through) (d : BitVec 1024) (p : BitVec 32) : BitVec 1024 × BitVec 32 :=
  l.foldl (fun r x => (overlay x.mask x.data r.1, r.2 &&& ~~~(wordsWhole 32 x.mask))) (d, p)

/-- A core reads a line through its L1: a line whose lease runs is served, any other is fetched (R260), and the core's own stores that are
on their way stand in it. -/
def l1Read (s : State) (die core line len : Nat) (pol : Policy) : State × BitVec 1024 × BitVec 32 :=
  match (getCore s die core).l1.find? fun x => decide (x.line = line) with
  | some x =>
    if x.leaseEnd > s.tick then
      (if x.policy = pol then s else modCore s die core fun c => { c with l1 := putLine c.l1 { x with policy := pol } }, x.data, x.poison)
    else fetch
  | none => fetch
where
  /-- Fetch the line from the cluster cache. -/
  fetch : State × BitVec 1024 × BitVec 32 :=
    let r := clusterServe s die (clusterOf core) line len pol
    let x := overThrough (throughOn s die core line) r.2.1 r.2.2.1
    (fitL1 (modCore r.1 die core fun c =>
      { c with l1 := putLine c.l1 { newLine line with data := x.1, poison := x.2, leaseEnd := r.2.2.2, policy := pol } }) die core line, x)

/-- A gang's store is performed at its core's L1, which does not allocate, and is on its way to the cluster cache (R259, R261). -/
def l1Write (s : State) (id : GangId) (op line : Nat) (m : BitVec 128) (data : BitVec 1024) (pol : Policy) : State :=
  let s := modCore s id.die id.core fun c =>
    { c with l1 := c.l1.map fun x =>
        if x.line = line then { x with data := overlay m data x.data, poison := x.poison &&& ~~~(wordsWhole 32 m), policy := pol } else x }
  { s with through := s.through ++ [{ gang := id, op := op, line := line, mask := m, data := data, policy := pol }] }

/-- Selected stores reach the cluster cache, oldest first; the selection takes all or none of a core's stores to a line. -/
def drainThrough (s : State) (sel : Through → Bool) : State :=
  (s.through.filter sel).foldl (fun s x => clusterWrite s x.gang.die (clusterOf x.gang.core) x.line x.mask x.data x.policy)
    { s with through := s.through.filter fun x => !sel x }

/-- A core's stores to some lines reach the cluster cache. -/
def drainLines (s : State) (die core : Nat) (sel : Nat → Bool) : State :=
  drainThrough s fun x => decide (x.gang.die = die) && decide (x.gang.core = core) && sel x.line

/-- A core drops its copies of a line that its gang's own access at a wider unit has made old: the L1 line, and the clean
bytes of the cluster cache's line, are fetched again (R262). -/
def dropCopies (s : State) (die core line : Nat) : State :=
  let s := modCore s die core fun c => { c with l1 := c.l1.filter fun x => decide (x.line ≠ line) }
  modCluster s die (clusterOf core) fun c =>
    { c with lines := c.lines.map fun x => if x.line = line then { x with leaseEnd := s.tick } else x }

/-! ## Reads and writes of a naturally aligned datum -/

/-- The poison of the words that `n` bytes at offset `off` of a line touch. -/
def poisonAt (p : BitVec 32) (off n : Nat) : Bool := p &&& wordsTouched 32 (byteSpan 128 off n) ≠ 0#32

/-- A load through L1. -/
def loadL1 (s : State) (die core pa n len : Nat) (pol : Policy) : State × Nat × Bool :=
  let r := l1Read s die core (pa / 128) len pol
  (r.1, lineNat r.2.1 (pa % 128) n, poisonAt r.2.2 (pa % 128) n)

/-- A load that allocates in neither L1 nor the cluster cache: it reads through the RDC, with the dirty bytes of its own
cluster cache and its core's stores that are on their way there (R264, R262). -/
def loadNt (s : State) (die core pa n : Nat) : State × Nat × Bool :=
  let r := rdcRead s die (pa / 128)
  let x := lineOr (getCluster r.1 die (clusterOf core)).lines (pa / 128)
  let y := overThrough (throughOn r.1 die core (pa / 128)) (overlay x.dirty x.data r.2.1) r.2.2
  (r.1, lineNat y.1 (pa % 128) n, poisonAt y.2 (pa % 128) n)

/-- A store through L1. -/
def storeL1 (s : State) (id : GangId) (op pa n x : Nat) (pol : Policy) : State :=
  l1Write s id op (pa / 128) (byteSpan 128 (pa % 128) n) (lineOf 1024 (pa % 128) x) pol

/-- A copy engine's read and write at its cluster cache. -/
def engineRead (s : State) (die cl pa n len : Nat) : State × Nat × Bool :=
  let r := clusterRead s die cl (pa / 128) len .normal
  (r.1, lineNat r.2.1 (pa % 128) n, poisonAt r.2.2 (pa % 128) n)
def engineWrite (s : State) (die cl pa n x : Nat) : State :=
  clusterWrite s die cl (pa / 128) (byteSpan 128 (pa % 128) n) (lineOf 1024 (pa % 128) x) .normal

/-! ## Scratchpads (R228, R259) -/

def scratchNat (s : State) (die core pos n : Nat) : Nat := natOfBytes (cellsRead (getCore s die core).scratch pos n)

def scratchBytes (s : State) (die core pos n : Nat) : List Byte := cellsRead (getCore s die core).scratch pos n

/-- Words of the scratchpad that a span covers whole. -/
def wholeWords (pos n w : Nat) : Bool := decide (pos ≤ 4 * w) && decide (4 * w + 4 ≤ pos + n)

/-- Write bytes of a scratchpad; a poisoned word written whole is poisoned no more. -/
def scratchWrite (s : State) (die core pos : Nat) (bytes : List Byte) : State :=
  modCore s die core fun c =>
    { c with scratch := cellsWrite c.scratch pos bytes,
             scratchPoison := c.scratchPoison.filter fun w => !wholeWords pos bytes.length w }

/-- A poisoned word lies among the bytes. -/
def scratchPoisoned (s : State) (die core pos n : Nat) : Bool :=
  (getCore s die core).scratchPoison.any fun w => decide (pos < 4 * w + 4) && decide (4 * w < pos + n)

/-! ## Page tables and translation (R291-R296) -/

/-- What an access needs of an entry (R295). -/
inductive Access where
  | read | write | rmw | fetch
  deriving DecidableEq, Repr

/-- Canonical: bits 63:57 equal bit 56 (R256). -/
def canonical (va : BitVec 64) : Bool := decide (va.extractLsb' 56 8 = 0#8) || decide (va.extractLsb' 56 8 = 0xFF#8)

/-- Index of an address at a level, and the span of one entry (R291). -/
def tableIndex (lv : Nat) (va : BitVec 64) : Nat :=
  match lv with
  | 1 => (va.extractLsb' 47 10).toNat
  | 2 => (va.extractLsb' 37 10).toNat
  | 3 => (va.extractLsb' 26 11).toNat
  | _ => (va.extractLsb' 16 10).toNat
def entrySpan (lv : Nat) : Nat :=
  match lv with
  | 1 => 2 ^ 47
  | 2 => 2 ^ 37
  | 3 => 2 ^ 26
  | _ => 2 ^ 16

/-- Page size of a leaf (R292). -/
def pageSize (e : BitVec 64) : Nat :=
  match (e.extractLsb' 6 2).toNat with
  | 0 => 2 ^ 16
  | 1 => 2 ^ 21
  | _ => 2 ^ 30

def pteV (e : BitVec 64) : Bool := e.getLsbD 0
def pteLeaf (e : BitVec 64) : Bool := e.getLsbD 1
def pteR (e : BitVec 64) : Bool := e.getLsbD 2
def pteW (e : BitVec 64) : Bool := e.getLsbD 3
def pteX (e : BitVec 64) : Bool := e.getLsbD 4
def pteRemote (e : BitVec 64) : Bool := e.getLsbD 5
def pteBias (e : BitVec 64) : Bool := e.getLsbD 8
def pteAddr (e : BitVec 64) : Nat := (e.extractLsb' 12 34).toNat * 4096

/-- ADDR names memory or a register unit: not REGION 3 and not beyond a stack (R293). -/
def pteAddrOk (e : BitVec 64) : Bool :=
  decide (paRegion (pteAddr e) ≠ 3) && (decide (paRegion (pteAddr e) ≠ 0) || decide (pteAddr e % 2 ^ 40 < stackLimit))

/-- A malformed entry of a level (R293). -/
def pteMalformed (lv : Nat) (e : BitVec 64) : Bool :=
  let size := (e.extractLsb' 6 2).toNat
  let reserved := decide (e.extractLsb' 9 3 ≠ 0#3) || (!pteRemote e && decide (e.extractLsb' 46 18 ≠ 0#18))
  if pteLeaf e then
    reserved || decide (lv ≤ 2) || decide (size = 3) || (decide (lv = 4) && decide (size = 2)) || (decide (lv = 3) && decide (size ≤ 1))
      || (if pteRemote e then
            decide ((e.extractLsb' 16 28).toNat * 65536 % pageSize e ≠ 0) || decide (e.extractLsb' 12 4 ≠ 0#4) || pteBias e
          else decide (pteAddr e % pageSize e ≠ 0) || !pteAddrOk e)
  else
    reserved || decide (lv = 4) || decide (e.extractLsb' 2 7 ≠ 0#7) || !pteAddrOk e || decide (paRegion (pteAddr e) ≠ 0)
      || decide (pteAddr e % (if lv = 2 then 16384 else 8192) ≠ 0)

/-- Which accesses an entry permits (R295). -/
def ptePermits (e : BitVec 64) : Access → Bool
  | .read => pteR e
  | .write => pteW e
  | .rmw => pteR e && pteW e
  | .fetch => pteX e

/-- A cached entry of a level that covers an address (R296). -/
def cachedEntry (d : Die) (ctx : Nat) (va : BitVec 64) (size : Nat) (leaf : Bool) : Option (BitVec 64) :=
  (d.tlb.find? fun t => decide (t.ctx = ctx) && decide (t.base = va.toNat / t.size * t.size)
    && (if leaf then pteLeaf t.entry else !pteLeaf t.entry && decide (t.size = size))).map fun t => t.entry

/-- How a walk ends: PAGE_FAULT, a leaf, or at a table whose home it does not reach (R295, R424). -/
inductive WalkEnd where
  | fault
  | leaf (e : BitVec 64)
  | away (home : Nat)
  deriving DecidableEq, Repr

/-- A walk of a die from a level with a table: the entries it caches, and its end (R295, R296). `reach` says which homes it reaches. -/
def walkFrom (s : State) (reach : Nat → Bool) (die ctx : Nat) (va : BitVec 64) : Nat → Nat → Nat → List TlbEntry × WalkEnd
  | 0, _, _ => ([], .fault)
  | fuel + 1, lv, table =>
    let span := entrySpan lv
    let cached := cachedEntry (getDie s die) ctx va span false
    if cached.isNone && !reach (homeOf table) then ([], .away (homeOf table))
    else
      let e := match cached with
        | some e => e
        | none => BitVec.ofNat 64 (homeNat s (table + 8 * tableIndex lv va) 8)
      if !pteV e || pteMalformed lv e then ([], .fault)
      else if pteLeaf e then
        ([{ ctx := ctx, base := va.toNat / pageSize e * pageSize e, size := pageSize e, entry := e }], .leaf e)
      else
        let r := walkFrom s reach die ctx va fuel (lv + 1) (pteAddr e)
        ({ ctx := ctx, base := va.toNat / span * span, size := span, entry := e } :: r.1, r.2)

/-- Add walked entries to the die's cache (R296). -/
def cacheEntries (s : State) (die : Nat) (l : List TlbEntry) : State :=
  modDie s die fun d =>
    { d with tlb := d.tlb ++ l.filter fun t => !d.tlb.any fun u => decide (u.ctx = t.ctx) && decide (u.base = t.base) && decide (u.size = t.size) }

/-- The leaf that maps an address: cached, or walked and then cached (R296). -/
def leafBy (s : State) (reach : Nat → Bool) (die ctx : Nat) (va : BitVec 64) : State × WalkEnd :=
  match cachedEntry (getDie s die) ctx va 0 true with
  | some e => (s, .leaf e)
  | none =>
    match findContext s ctx with
    | none => (s, .fault)
    | some c =>
      let r := walkFrom s reach die ctx va 4 1 c.root.toNat
      (cacheEntries s die r.1, r.2)

/-- The leaf by a walk over the routes that are open now (R424). -/
def leafOf (s : State) (die ctx : Nat) (va : BitVec 64) : State × WalkEnd := leafBy s (homeReach s die) die ctx va

/-- The target of a leaf: memory, a register of the package, or another device (R288-R290). Bytes of a mapped frame past the end of its
stack are memory too (DEDUCED, log 152). -/
def leafTarget (e : BitVec 64) (va : BitVec 64) (n : Nat) : Option Target :=
  let off := va.toNat % pageSize e
  if pteRemote e then
    some (.remote (e.extractLsb' 44 20).toNat ((e.extractLsb' 16 28).toNat * 65536 + off))
  else
    let pa := pteAddr e + off
    if paRegion pa = 2 then
      (if pa / 2 ^ 40 % 16 = 0 ∧ pa % 2 ^ 40 + n ≤ 32768 then some (.bell (pa % 2 ^ 40)) else none)
    else some (.mem pa (pteBias e))

/-- A register of the package. -/
def Target.isBell : Target → Bool
  | .bell _ => true
  | _ => false

/-- A device id of the domain that answers nothing (R428). -/
def Target.absent (s : State) : Target → Bool
  | .remote d _ => decide (d ≠ s.admin.devid.toNat) && !Config.deviceThere d
  | _ => false

/-- Translate a global address: a cause, or its target (R295). -/
def translateBy (s : State) (reach : Nat → Bool) (die ctx : Nat) (va : BitVec 64) (n : Nat) (k : Access) :
    State × (BitVec 8 ⊕ Target) :=
  if !canonical va then (s, .inl cProtection)
  else
    let r := leafBy s reach die ctx va
    match r.2 with
    | .fault => (r.1, .inl cPageFault)
    | .away home => (r.1, .inr (.away home))
    | .leaf e =>
      if !ptePermits e k then (r.1, .inl cProtection)
      else
        match leafTarget e va n with
        | none => (r.1, .inl cProtection)
        | some t =>
          if decide (k = .fetch) && t.isBell then (r.1, .inl cProtection)
          else if t.absent s then (r.1, .inl cPageFault)
          else (r.1, .inr t)

/-- The die's part of a shootdown that covers an address is not over: a walk of the address ends only after it, so that no unit of the
die meets its own bytes under the old entry and the new one at once (R262, R319; log 176). -/
def shootHolds (s : State) (die ctx : Nat) (va : BitVec 64) : Bool :=
  s.shoots.any fun x => decide (x.ctx = ctx) && x.tasks.any (fun t => decide (t.1 = die)) && decide (x.first ≤ va.toNat)
    && decide (va.toNat < x.first + x.len)

/-- The home of a context's table of the first level. -/
def rootHome (s : State) (ctx : Nat) : Nat :=
  match findContext s ctx with
  | some c => homeOf c.root.toNat
  | none => 0

/-- Translate for an access of a unit of a die. -/
def translate (s : State) (die ctx : Nat) (va : BitVec 64) (n : Nat) (k : Access) : State × (BitVec 8 ⊕ Target) :=
  if shootHolds s die ctx va then (s, .inr (.away (rootHome s ctx))) else translateBy s (homeReach s die) die ctx va n k

/-- Translate for the device's own firmware, whatever its route (DESIGN CHOICE, log 141). -/
def translateAny (s : State) (die ctx : Nat) (va : BitVec 64) (n : Nat) (k : Access) : State × (BitVec 8 ⊕ Target) :=
  translateBy s (fun _ => true) die ctx va n k

/-! ## Spaces (R256, R257) -/

/-- A computed address cut to the bits that its space uses (R256). -/
def cutAddr (sp : Space) (va : BitVec 64) : BitVec 64 :=
  match sp with
  | .global | .args => va
  | .scratch | .const => (va.extractLsb' 0 32).setWidth 64
  | .cscratch => (va.extractLsb' 0 35).setWidth 64

/-- Bytes lie inside a block's allocation. -/
def inAlloc (b : Block) (pos n : Nat) : Bool := decide (b.base ≤ pos) && decide (pos + n ≤ b.base + b.size)

/-- A block that has been placed and has not ended. -/
def residentBlock (b : Block) : Bool := decide (b.state = .resident) || decide (b.state = .abandoned)

/-- The block of a rank in a cluster group. -/
def rankBlock (s : State) (b : Block) (k : Nat) : Option Block :=
  s.blocks.find? fun x => decide (x.cgroup = b.cgroup) && decide (x.rank = k) && residentBlock x

/-- The target of `n` bytes of a gang at an address of a space, or the cause that its access raises (R256, R258). -/
def spaceTarget (s : State) (g : Gang) (sp : Space) (va : BitVec 64) (n : Nat) (k : Access) : State × (BitVec 8 ⊕ Target) :=
  match findBlock s g.block with
  | none => (s, .inl cProtection)
  | some b =>
    match sp with
    | .global => translate s g.id.die g.ctx va n k
    | .scratch =>
      if inAlloc b va.toNat n then (s, .inr (.scratch b.die b.core va.toNat)) else (s, .inl cProtection)
    | .cscratch =>
      match rankBlock s b (va.toNat / 2 ^ 32 % 8) with
      | none => (s, .inl cProtection)
      | some t =>
        if va.toNat % 2 ^ 32 + n ≤ t.size then (s, .inr (.scratch t.die t.core (t.base + va.toNat % 2 ^ 32)))
        else (s, .inl cProtection)
    | .const =>
      match gangKernel s g with
      | none => (s, .inl cProtection)
      | some kn =>
        if va.toNat + n ≤ kn.constlen then translate s g.id.die g.ctx (kn.const + va) n .read
        else (s, .inl cProtection)
    | .args =>
      if b.args.toNat ≤ va.toNat ∧ va.toNat + n ≤ b.args.toNat + b.argLen then translate s g.id.die g.ctx va n .read
      else (s, .inl cProtection)

/-- Clear the low bits of an address below a size (R257). -/
def alignTo (va : BitVec 64) (size : Nat) : BitVec 64 := va &&& ~~~(BitVec.ofNat 64 (size - 1))

/-- Bytes of a width (R257). -/
def widthBytes : Width → Nat
  | .n8 | .i8 => 1
  | .n16 | .i16 => 2
  | .b32 => 4
  | .b32x2 | .b64 => 8
  | .b32x4 => 16

def widthSigned : Width → Bool
  | .i8 | .i16 => true
  | _ => false

/-- The address of a lane: A + B + IMM, aligned and cut to its space (R256, R257); `off` is 0 beside immediate data. -/
def laneAddr (c : Ctx) (sp : Space) (a b : Opnd) (off : BitVec 32) (size i : Nat) : BitVec 64 :=
  let base := if a.isLane then BitVec.ofNat 64 i else scalarOf c a
  let idx := match b with
    | .zero => 0#64
    | _ => (laneOf c b i).signExtend 64
  cutAddr sp (alignTo (base + idx + off.signExtend 64) size)

/-- The address of a scalar access. -/
def scalarAddr (c : Ctx) (sp : Space) (a : Opnd) (off : BitVec 32) (size : Nat) : BitVec 64 :=
  cutAddr sp (alignTo (scalarOf c a + off.signExtend 64) size)

/-- A checked address of a lane: its target, or the cause it raises. -/
structure Checked where
  lane : Nat
  va : BitVec 64
  res : BitVec 8 ⊕ Target
  deriving DecidableEq, Repr

/-- Check addresses in ascending lane order, caching the translations that they need (R258). -/
def checkLanes (s : State) (g : Gang) (sp : Space) (size : Nat) (k : Access) : List (Nat × BitVec 64) → State × List Checked
  | [] => (s, [])
  | (i, va) :: rest =>
    let r := spaceTarget s g sp va size k
    let t := checkLanes r.1 g sp size k rest
    (t.1, { lane := i, va := va, res := r.2 } :: t.2)

/-- The first lane that fails: its cause, address and lane; or whose walk waits for a home. -/
def firstFail : List Checked → Option Halt
  | [] => none
  | x :: rest =>
    match x.res with
    | .inl cause => some (.trap cause x.va (BitVec.ofNat 5 x.lane))
    | .inr (.away home) => some (.away home)
    | .inr _ => firstFail rest

/-- The lanes below the first that fails. -/
def passing : List Checked → List (Nat × BitVec 64 × Target)
  | [] => []
  | x :: rest =>
    match x.res with
    | .inl _ | .inr (.away _) => []
    | .inr t => (x.lane, x.va, t) :: passing rest

/-! ## Reading what a target names -/

/-- A 32-bit word of another device, as one instruction reads it: one value for all its lanes (R263). -/
def outsideWord (s : State) (device w : Nat) : Nat := (Config.freeValue s.freeCtr 1 (device * 2 ^ 42 + w)).toNat % 2 ^ 32

/-- What another device supplies for `n` bytes at an address. -/
def outsideNat (s : State) (device a n : Nat) : Nat :=
  let x := (List.range ((n + 3) / 4)).foldl (fun x k => x + 2 ^ (32 * k) * outsideWord s device (a / 4 + k)) 0
  x / 256 ^ (a % 4) % 256 ^ n

/-- Read `n` bytes of one lane where its target lies: a normal page through L1 or, with NT, the RDC; a host-biased page at
its home (R316); the bell page reads zero (R481). Const and args words are read as any other, of the values that R378 allows for one
written during the launch the one that stands there (DESIGN CHOICE, log 160). -/
def readTarget (s : State) (id : GangId) (ctx : Nat) (pol : Policy) (t : Target) (n : Nat) : State × Nat × Bool :=
  match t with
  | .mem pa true => (s, homeNat s pa n, homePoisoned s pa)
  | .mem pa false => if pol = .nt then loadNt s id.die id.core pa n else loadL1 s id.die id.core pa n (leaseOf s ctx) pol
  | .scratch d c pos => (s, scratchNat s d c pos n, scratchPoisoned s d c pos n)
  | .bell _ => (s, 0, false)
  | .remote d a =>
    if d = s.admin.devid.toNat then (s, homeNat s a n, homePoisoned s a) else (s, outsideNat s d a n, false)
  | .away _ => (s, 0, false)

end Sys2Proof.Machine
end

