-- ==== Sys2Proof/Machine/Control.lean ====
section
/-!
DEFINITION. Control flow (08_group R210-R222) and the trap instructions (16_context R412-R416; 03_encoding R72, R73): the
divergence stack, branches, joins, calls, EXIT, YIELD, SLEEP, TRAP, BRK and ERET.
-/
namespace Sys2Proof.Machine

/-! ## The divergence stack (R210-R212) -/

/-- Push an entry at index SP. -/
def pushEntry (a : Arch) (e : Entry) : Arch := { a with stack := a.stack.set (Fin.ofNat 64 a.sp) e, sp := a.sp + 1 }

/-- An entry by index. -/
def entryAt (a : Arch) (j : Nat) : Entry := a.stack.get (Fin.ofNat 64 j)

/-- One more than the highest live entry below a height. -/
def liveHeight (a : Arch) : Nat → Nat
  | 0 => 0
  | n + 1 => if (entryAt a n).kind ≠ .dead then n + 1 else liveHeight a n

/-- Kill an entry: SP falls to one more than the highest live entry. -/
def killEntry (a : Arch) (j : Nat) : Arch :=
  let b := { a with stack := a.stack.set (Fin.ofNat 64 j) { entryAt a j with kind := .dead } }
  { b with sp := liveHeight b b.sp }

/-- The topmost live PATH entry below a height. -/
def topPath (a : Arch) : Nat → Option Nat
  | 0 => none
  | n + 1 => if (entryAt a n).kind = .path then some n else topPath a n

/-- The lowest entry that a free slot may take: in TRAP none that stood before the trap, so that the handler's slot rejoins the
groups that the handler has divided and no others (R200, R415). -/
def pathFloor (a : Arch) : Nat := if a.mode = .trap then a.frame.sp else 0

/-- The slot becomes free, and takes the topmost live PATH entry if there is one (R211). The age stamp is the issue's. -/
def freeSlot (a : Arch) (x : PcSlot) : Arch :=
  match (topPath a a.sp).filter fun n => decide (pathFloor a ≤ n) with
  | none => a.setSlot x Slot.free
  | some n =>
    let e := entryAt a n
    (killEntry a n).setSlot x
      { live := true, pc := e.pc, mask := e.mask, join := some e.link, stamp := (a.slot x).stamp, op := (a.slot x).op, wait := .none }

/-- The slot arrives at its join (R212). -/
def arrive (a : Arch) (x : PcSlot) (j : Nat) : Arch :=
  let e := entryAt a j
  let e' := { e with mask := e.mask ||| (a.slot x).mask, link := e.link - 1 }
  let b := { a with stack := a.stack.set (Fin.ofNat 64 j) e' }
  if e'.link > 0 then freeSlot b x
  else
    let c := killEntry (b.setSlot x { b.slot x with mask := e'.mask, pc := e.pc + 12#32, join := e.parent }) j
    if e'.mask = 0#32 then freeSlot c x else c

/-- The other slot is free for a divergence; in trap mode it counts as live (R200). -/
def otherFree (c : Ctx) : Bool := !(c.a.slot (otherSlot c.x)).live && decide (c.a.mode ≠ .trap)

/-- A PC-relative target (R53). -/
def relTarget (pc : BitVec 32) (o : BitVec 16) : BitVec 64 := pc.setWidth 64 + 12#64 + 12#64 * o.signExtend 64

/-- Instructions in the code object that the gang runs. -/
def codeLength (c : Ctx) : Nat :=
  match gangKernel c.s c.g with
  | some k => k.ninstr
  | none => 0

/-- MISALIGNED for a target that R54 refuses. -/
def targetCheck (c : Ctx) (t : BitVec 64) : Option Halt :=
  if targetOk t (codeLength c) then none else some (.trap cMisaligned t 0#5)

def cDivergence : BitVec 8 := cDivOverflow

/-- Set the slot's PC. -/
def setPc (a : Arch) (x : PcSlot) (t : BitVec 64) : Arch := a.setSlot x { a.slot x with pc := t.setWidth 32 }

/-! ## Branches (R215-R218) -/

/-- NOP: its guard has no effect (R215). -/
def execNop (_h : Head) (s : State) : Res :=
  issue s { neg := false, p := 7 } fun c => c.commit c.a

/-- The gang's state after a BRA that divides its lanes: T branches, N goes on (R216). -/
def braArch (c : Ctx) (tgt jpc : BitVec 64) (tk ntk : Mask) : Arch :=
  let a := c.a
  let j := a.sp
  let a1 := pushEntry a { kind := .join, pc := jpc.setWidth 32, mask := 0#32, link := 2, parent := c.slot.join }
  let a2 :=
    if otherFree c then
      a1.setSlot (otherSlot c.x)
        { live := true, pc := tgt.setWidth 32, mask := tk, join := some j, stamp := c.s.tick, op := c.slot.op, wait := .none }
    else pushEntry a1 { kind := .path, pc := tgt.setWidth 32, mask := tk, link := j, parent := none }
  a2.setSlot c.x { c.slot with pc := c.pc + 12#32, mask := ntk, join := some j }

/-- BRA (R216). -/
def execBra (h : Head) (target join : BitVec 16) (s : State) : Res :=
  issue s h.guard fun c =>
    let tk := c.act
    let ntk := c.slot.mask &&& ~~~c.act
    let tgt := relTarget c.pc target
    let jpc := relTarget c.pc join
    if tk = 0#32 then c.commit c.a
    else
      match targetCheck c tgt with
      | some x => c.halt x
      | none =>
        if ntk = 0#32 then c.commitWith (setPc c.a c.x tgt) id
        else
          match targetCheck c jpc with
          | some x => c.halt x
          | none =>
            if c.a.sp + (if otherFree c then 1 else 2) > 64 then c.trap cDivergence (BitVec.ofNat 64 c.a.sp)
            else c.commitWith (braArch c tgt jpc tk ntk) id

/-- A jump of the whole slot to a checked target, with what else the instruction writes (R217, R220). -/
def jumpTo (c : Ctx) (t : BitVec 64) (a : Arch) : Res :=
  match targetCheck c t with
  | some x => c.halt x
  | none => c.commitWith (setPc a c.x t) id

/-- JMP to a PC-relative target (R217). -/
def execJmpOffset (h : Head) (target : BitVec 16) (s : State) : Res :=
  issue s h.guard fun c => if c.act = 0#32 then c.commit c.a else jumpTo c (relTarget c.pc target) c.a

/-- JMP to the byte offset in a scalar (R214, R217). -/
def execJmpScalar (h : Head) (a : Opnd) (s : State) : Res :=
  wholeOp h [a] (headKills h a .zero .zero) s fun c x => jumpTo c (scalarOf c a) x

/-- The lanes of JMPI's groups: lanes with equal targets, ordered by their lowest lane (R218). -/
def jmpiGroups (t : Nat → BitVec 64) : List Nat → List (BitVec 64 × Mask) → List (BitVec 64 × Mask)
  | [], acc => acc
  | l :: rest, acc =>
    let bit := (1#32 <<< l : Mask)
    jmpiGroups t rest
      (if acc.any fun g => decide (g.1 = t l) then acc.map fun g => if g.1 = t l then (g.1, g.2 ||| bit) else g
       else acc ++ [(t l, bit)])

/-- Push the PATH entries of groups, the last first (R218). -/
def pushPaths (a : Arch) (j : Nat) : List (BitVec 64 × Mask) → Arch
  | [] => a
  | g :: rest => pushEntry (pushPaths a j rest) { kind := .path, pc := g.1.setWidth 32, mask := g.2, link := j, parent := none }

/-- The gang's state after JMPI has divided its lanes (R218). -/
def jmpiArch (c : Ctx) (a : Arch) (jpc : BitVec 64) (gs : List (BitVec 64 × Mask)) : Arch :=
  let j := a.sp
  let a1 := pushEntry a { kind := .join, pc := jpc.setWidth 32, mask := 0#32, link := gs.length, parent := c.slot.join }
  match gs with
  | [] => a
  | g1 :: rest =>
    let a2 := pushPaths a1 j (if otherFree c then rest.drop 1 else rest)
    let a3 := match otherFree c, rest with
      | true, g2 :: _ => a2.setSlot (otherSlot c.x)
          { live := true, pc := g2.1.setWidth 32, mask := g2.2, join := some j, stamp := c.s.tick, op := c.slot.op, wait := .none }
      | _, _ => a2
    a3.setSlot c.x { c.slot with pc := g1.1.setWidth 32, mask := g1.2, join := some j }

/-- Read the table words of lanes, ascending, each where its target lies: the state, the words, and whether a poisoned word was read. -/
def tableWords (s : State) (g : Gang) : List (Nat × BitVec 64 × Target) → State × List (Nat × Word) × Bool
  | [] => (s, [], false)
  | (l, _, t) :: rest =>
    let r := readTarget s g.id g.ctx .normal t 4
    let t := tableWords r.1 g rest
    (t.1, (l, BitVec.ofNat 32 r.2.1) :: t.2.1, r.2.2 || t.2.2)

/-- Where a lane goes: its table word's target, or past the JMPI when it is not guarded (R218). -/
def jmpiTarget (c : Ctx) (ws : List (Nat × Word)) (l : Nat) : BitVec 64 :=
  match ws.find? fun w => decide (w.1 = l) with
  | some w => w.2.signExtend 64
  | none => c.pc.setWidth 64 + 12#64

/-- JMPI once its indices are in range (R218): `ws` are the table words of the guarded lanes. -/
def jmpiGo (c : Ctx) (a : Arch) (join : BitVec 16) (ws : List (Nat × Word)) : Res :=
  match firstHalt (ws.map fun w => targetCheck c (w.2.signExtend 64)) with
  | some x => c.halt x
  | none =>
    let gs := jmpiGroups (jmpiTarget c ws) (lanesIn c.slot.mask) []
    match gs with
    | [g] => c.commitWith (setPc a c.x g.1) id
    | _ =>
      let jpc := relTarget c.pc join
      match targetCheck c jpc with
      | some x => c.halt x
      | none =>
        if a.sp + gs.length + (if otherFree c then 0 else 1) > 65 then c.trap cDivergence (BitVec.ofNat 64 a.sp)
        else c.commitWith (jmpiArch c a jpc gs) id

/-- The lowest guarded lane whose index is out of range (R218). -/
def jmpiRange (c : Ctx) (a : Opnd) (countM1 : BitVec 8) : Option Halt :=
  match (lanesIn c.act).find? fun l => decide ((laneOf c a l).toNat > countM1.toNat) with
  | some l => some (.trap cJmpRange ((BitVec.ofNat 64 l <<< (32 : Nat)) ||| (laneOf c a l).setWidth 64) 0#5)
  | none => none

/-- The addresses of the table words of the guarded lanes (R218). -/
def jmpiAddrs (c : Ctx) (a b : Opnd) : List (Nat × BitVec 64) :=
  let base := cutAddr .const (alignTo (scalarOf c b) 4)
  (lanesIn c.act).map fun l => (l, cutAddr .const (base + 4#64 * (laneOf c a l).setWidth 64))

/-- JMPI (R218). -/
def execJmpi (h : Head) (a b : Opnd) (countM1 : BitVec 8) (join : BitVec 16) (s : State) : Res :=
  wholeOp h [a, b] (killsOf h (a, 1) (b, 1) (.zero, 1)) s fun c x =>
    match firstHalt [readCheck c.a c.act (single [a]), jmpiRange c a countM1] with
    | some y => c.halt y
    | none =>
      let r := checkLanes c.s c.g .const 4 .read (jmpiAddrs c a b)
      match firstFail r.2 with
      | some (.trap cause tval _) => c.trap cause tval
      | some x => c.halt x
      | none =>
        match (passing r.2).find? fun x => !loadReach r.1 c.g.id .normal x.2.2 with
        | some x => { c with s := r.1 }.halt (.away (targetPlace r.1 x.2.2))
        | none =>
        let w := tableWords r.1 c.g (passing r.2)
        let c' := { c with s := w.1 }
        if w.2.2 then c'.halt .poison else jmpiGo c' x join w.2.1

/-- JOIN acts on the whole slot (R219). -/
def execJoin (_h : Head) (s : State) : Res :=
  issue s { neg := false, p := 7 } fun c =>
    match c.slot.join with
    | none => c.commit c.a
    | some j =>
      if (entryAt c.a j).kind = .join ∧ (entryAt c.a j).pc = c.pc then c.commitWith (arrive c.a c.x j) id else c.commit c.a

/-! ## Calls (R220) -/

/-- The link value PC + 12. -/
def linkOf (c : Ctx) : DWord := (c.pc + 12#32).setWidth 64

def execCallOffset (h : Head) (d : Opnd) (target : BitVec 16) (s : State) : Res :=
  issue s h.guard fun c =>
    if c.act = 0#32 then c.commit c.a else jumpTo c (relTarget c.pc target) (writeScalar c.a d (linkOf c))

def execCallScalar (h : Head) (d a : Opnd) (s : State) : Res :=
  wholeOp h [a] (headKills h a .zero .zero) s fun c x => jumpTo c (scalarOf c a) (writeScalar x d (linkOf c))

def execRet (h : Head) (a : Opnd) (s : State) : Res :=
  wholeOp h [a] (headKills h a .zero .zero) s fun c x => jumpTo c (scalarOf c a) x

/-! ## EXIT, YIELD, SLEEP (R221, R222) -/

/-- The gang's state after its active lanes leave outside trap mode. -/
def exitArch (c : Ctx) : Arch :=
  let m := c.slot.mask &&& ~~~c.act
  let a := c.a.setSlot c.x { c.slot with mask := m, pc := c.pc + 12#32 }
  if m ≠ 0#32 then a
  else
    match c.slot.join with
    | some j => arrive a c.x j
    | none => freeSlot a c.x

/-- EXIT: in trap mode, whatever its guard, the whole gang ends with FAILED_TRAP (R221). -/
def execExit (h : Head) (s : State) : Res :=
  issue s h.guard fun c =>
    if c.a.mode = .trap then c.afterRisk (.next (failGang c.s c.g stFailedTrap c.a.tcause (entryPc c.a)))
    else if c.act = 0#32 then c.commit c.a
    else c.commitWith (exitArch c) id

/-- YIELD: the pair's age stamp becomes the cycle of the issue plus one (R209, R222). -/
def execYield (h : Head) (s : State) : Res :=
  issue s h.guard fun c =>
    if c.act = 0#32 then c.commit c.a
    else c.commit (c.a.setSlot c.x { c.slot with stamp := c.s.tick + 1 })

/-- What an instruction that waits still owes. -/
def retireOf (d : Opnd) (kills : Reads) : Retire := { d := d, kills := kills.map fun k => k.1 }

/-- SLEEP: the slot waits until the tick of its issue plus n (R222). -/
def execSleep (h : Head) (a : Opnd) (s : State) : Res :=
  wholeOp h [a] (headKills h a .zero .zero) s fun c x =>
    let n := ((scalarOf c a).setWidth 32 : BitVec 32).toNat
    if n = 0 then c.commit x
    else .next (c.put (c.a.setWait c.x (.sleep (dieTick c.s c.g.id.die + n) (retireOf .zero (headKills h a .zero .zero)))))

/-! ## Traps (R72, R73, R413-R415) -/

/-- TRAP: SOFTWARE, with sr.tpc past the instruction (R413). It commits nothing, so its marks act only when no lane is active (R59,
R97; log 137). -/
def execTrap (h : Head) (a : Opnd) (s : State) : Res :=
  wholeOp h [a] (headKills h a .zero .zero) s fun c _ =>
    c.afterRisk (.next (takeTrap c.s c.g c.x cSoftware (scalarOf c a) (c.pc.setWidth 64 + 12#64) 0#5))

/-- BRK, whatever its guard (R414). -/
def execBrk (_h : Head) (code : BitVec 16) (s : State) : Res :=
  issue s { neg := false, p := 7 } fun c => c.trap cBreak (code.setWidth 64)

/-- UDF (R73). -/
def execUdf (s : State) : Res := issue s { neg := false, p := 7 } fun c => c.trap cIllegalOpcode 0x0D#64

/-- A word with an unassigned OPC (R72). -/
def execIllegalOpcode (opc : BitVec 8) (s : State) : Res :=
  issue s { neg := false, p := 7 } fun c => c.trap cIllegalOpcode (opc.setWidth 64)

/-- Instructions in the gang's own code object. -/
def ownLength (c : Ctx) : Nat :=
  match ownKernel c.s c.g with
  | some k => k.ninstr
  | none => 0

/-- ERET (R415). The sr.tval of its PRIVILEGE is not stated: a free value. -/
def execEret (h : Head) (s : State) : Res :=
  issue s h.guard fun c =>
    if c.act = 0#32 then c.commit c.a
    else if c.a.mode ≠ .trap ∨ c.a.sp ≠ c.a.frame.sp then c.trap cPrivilege (freeNow c.s)
    else if !targetOk c.a.tpc (ownLength c) then c.trap cMisaligned c.a.tpc
    else c.afterRisk (.next (putGang c.s { c.g with fetch := [], arch := eretArch c.g.budget c.a }))

end Sys2Proof.Machine
end

