-- ==== Sys2Proof/Machine/Access.lean ====
section
/-!
DEFINITION. Issued accesses that are not finished (03_encoding R60; 04_registers R91-R97; 09_barrier R247; 10_memory R262, R265,
R479): issuing one, what holds it back, committing its result, and the precise trap that cancels what is younger.
-/
namespace Sys2Proof.Machine

/-! ## Registers of an access -/

def groupOpnds (o : Opnd) (n : Nat) : List Opnd :=
  match o with
  | .v r => (List.range n).map fun k => .v (groupReg r k)
  | .s r => [.s r]
  | _ => []

def spreadReads (l : Reads) : List Opnd := l.flatMap fun x => groupOpnds x.1 x.2

/-- Codes of registers, as the scoreboard names them. -/
def codesOf (l : List Opnd) : List Nat :=
  l.filterMap fun o => match o with
    | .v n => some n.val
    | .s n => some (64 + n.val)
    | .p n => some (128 + n.val)
    | _ => none

/-! ## The gang's counters (R247) -/

def PendKind.countsLd : PendKind → Bool
  | .load _ _ _ _ _ _ | .rfill _ _ _ _ => true
  | _ => false

def PendKind.countsSt : PendKind → Bool
  | .store _ _ _ | .image _ _ _ _ _ _ | .dcas _ => true
  | .home _ _ _ _ _ _ _ counted => counted
  | _ => false

/-- A matrix instruction whose operand tiles are not all read; MCBLD counts in no counter. -/
def PendKind.countsTl : PendKind → Bool
  | .mat (.mcbld _ _ _) _ _ _ => false
  | .mat _ fetched _ _ => !fetched
  | _ => false

/-- Set ld, st and tl to the number of the gang's issued instructions that each still counts. -/
def recount (s : State) (id : GangId) : State :=
  let n := fun (f : PendKind → Bool) => (s.pend.filter fun p => decide (p.gang = id) && f p.kind).length
  modGang s id fun g => { g with ld := n PendKind.countsLd, st := n PendKind.countsSt, tl := n PendKind.countsTl }

/-- A slot that waits for the gang's older accesses or for room in a counter looks again. -/
def wakeSlot (sl : Slot) : Slot :=
  match sl.wait with
  | .order | .full => { sl with wait := .none }
  | _ => sl

def wakeOrder (s : State) (id : GangId) : State :=
  modGang s id fun g => { g with arch := { g.arch with slotA := wakeSlot g.arch.slotA, slotB := wakeSlot g.arch.slotB } }

/-- Add an access of the issuing instruction; `ckpt` is what a precise trap at it gives back. -/
def addPend (s : State) (c : Ctx) (kills dsts : List Opnd) (kind : PendKind) : State :=
  recount { s with
    pend := s.pend ++ [{ op := s.nextOp, gang := c.g.id, ctx := c.g.ctx, slot := c.x, pc := c.pc, tick := s.tick, kills := kills,
                         sent := none, dsts := codesOf (dsts ++ kills), ckpt := c.g.arch, kind := kind }],
    nextOp := s.nextOp + 1 } c.g.id

/-- Issue an access whose result comes later: the slot goes on, the registers it will write are held by the scoreboard. -/
def Ctx.send (c : Ctx) (dsts : List Opnd) (kills : Reads) (kind : PendKind) : Res :=
  .next (addPend (c.put (c.g.arch.advance c.x)) c (spreadReads kills) dsts kind)

/-- Issue an access that commits now and is performed later; its run-slot accounts follow issue order. -/
def Ctx.post (c : Ctx) (a : Arch) (kind : PendKind) : Res :=
  .next (addPend (c.putSettled (a.advance c.x)) c [] [] kind)

/-- Take an access out. -/
def dropPend (s : State) (p : Pend) : State :=
  wakeOrder (recount { s with pend := s.pend.filter fun q => decide (q.op ≠ p.op) } p.gang) p.gang

/-! ## What holds an access back -/

/-- Bytes of one kind of storage overlap. -/
def touches (t u : Target) (n m : Nat) : Bool :=
  match t, u with
  | .mem a _, .mem b _ => decide (a < b + m) && decide (b < a + n)
  | .scratch d c a, .scratch e k b => decide (d = e) && decide (c = k) && decide (a < b + m) && decide (b < a + n)
  | .bell a, .bell b => decide (a < b + m) && decide (b < a + n)
  | .remote d a, .remote e b => decide (d = e) && decide (a < b + m) && decide (b < a + n)
  | _, _ => false

def wordSize (w64 : Bool) : Nat := if w64 then 8 else 4

/-- The bytes that an access reads or writes. -/
def PendKind.bytes : PendKind → List (Target × Nat)
  | .load _ n _ _ accs _ => accs.map fun x => (x.tgt, n)
  | .rfill _ d c pos => [(.scratch d c pos, 8 + 8 * 32)]
  | .store n accs _ => accs.map fun x => (x.tgt, n)
  | .image tile d c pos b _ => [(.scratch d c pos, if tile then 2560 else b.length)]
  | .mat i false tiles _ => tiles.map fun t => (t, match i with
    | .mcbld _ _ _ => 32
    | _ => 2560)
  | .home (.nt n) _ _ _ _ accs _ _ => accs.map fun x => (x.tgt, n)
  | .home _ _ w64 _ _ accs _ _ => accs.map fun x => (x.tgt, wordSize w64)
  | .barv _ d c pos _ => [(.scratch d c pos, 16)]
  | .dcas x => [(x.x, wordSize x.w64), (x.y, wordSize x.w64), (.scratch x.die x.core x.pos, 64)]
  | _ => []

/-- The access writes memory. -/
def PendKind.writes : PendKind → Bool
  | .store _ _ _ | .image _ _ _ _ _ _ | .barv _ _ _ _ _ | .dcas _ => true
  | .home .ald _ _ _ _ _ _ _ => false
  | .home _ _ _ _ _ _ _ _ => true
  | _ => false

def anyTouch (l m : List (Target × Nat)) : Bool := l.any fun x => m.any fun y => touches x.1 y.1 x.2 y.2

/-- The targets by which a gang names a word at a domain address: another device's, or this device's own memory (R290). -/
def domainTargets (s : State) (a : Nat) : List Target :=
  .remote (a / 2 ^ 44) (a % 2 ^ 44) :: if a / 2 ^ 44 = s.admin.devid.toNat then [.mem (a % 2 ^ 44) false] else []

/-- A contribution of the gang that waits in a reduction round names some of the bytes (R262, R430). -/
def heldInRound (s : State) (id : GangId) (op : Nat) (l : List (Target × Nat)) : Bool :=
  s.redRounds.any fun r => (r.parts.any fun x => match x.2 with
      | some y => decide (y.1 = id) && decide (y.2 < op)
      | none => false)
    && anyTouch ((domainTargets s r.addr).map fun t => (t, if r.w64 then 8 else 4)) l

/-- An older access of the gang, a home-performed write of it that is not folded in, a contribution of it to a reduction round, or a
value on its way back to the die touches the bytes of an access (R262, R265): the access is not performed yet. -/
def heldBytes (s : State) (id : GangId) (op : Nat) (l : List (Target × Nat)) : Bool :=
  (s.pend.any fun p => decide (p.gang = id) && decide (p.op < op) && anyTouch p.kind.bytes l)
    || (s.nts.any fun n => decide (n.gang = id) && decide (n.op < op) && anyTouch (n.accs.map fun x => (.mem x.1 false, x.2)) l)
    || (s.msgs.any fun m => match m with
      | .atomicValue _ die _ a n _ _ => decide (die = id.die) && anyTouch [(.mem a false, n)] l
      | _ => false)
    || heldInRound s id op l

/-- An access waits for older ones. -/
def pendHeld (s : State) (p : Pend) : Bool := heldBytes s p.gang p.op p.kind.bytes

/-! ## Requests to other dies and devices (17_link R426) -/

/-- Ticks after which a request with no reply has timed out. -/
def requestLimit : Nat := 65536

/-- A request of a die that was sent at a tick has timed out. -/
def timedOut (s : State) (die since : Nat) : Bool := decide (since + requestLimit ≤ dieTick s die)

/-- The scopes whose unit is a home or another device. -/
def scopeAtHome : Scope → Bool
  | .pkg | .dom | .sys => true
  | _ => false

/-- The target of a load or of an access at the die is served without a request: a scratchpad, the bell page, or a line that the die
holds. -/
def servedHere (s : State) (id : GangId) (pol : Policy) (t : Target) : Bool :=
  match t with
  | .mem pa false => lineNear s id pol pa
  | .scratch _ _ _ | .bell _ => true
  | _ => false

/-- A store of a target leaves the core for a home or another device. -/
def storeLeaves : Target → Bool
  | .mem _ hb => hb
  | .remote _ _ => true
  | _ => false

/-- An access that needs a reply from another die or device. -/
def requestOut (s : State) (p : Pend) : Bool :=
  match p.kind with
  | .load _ _ _ _ accs pol => accs.any fun x => !servedHere s p.gang pol x.tgt
  | .home _ _ _ sc _ accs _ _ => accs.any fun x => match x.tgt with
      | .mem _ true | .remote _ _ => true
      | .mem _ false => scopeAtHome sc || !servedHere s p.gang .nt x.tgt
      | _ => false
  | .store _ accs _ => accs.any fun x => storeLeaves x.tgt
  | .dcas _ => true
  | _ => false

/-- The request of an access has timed out: a reply that comes now is discarded (R426). -/
def lateReply (s : State) (p : Pend) : Bool :=
  match p.sent with
  | some t => timedOut s p.gang.die t && requestOut s p
  | none => false

/-! ## Committing a result, and the precise trap -/

/-- A precise trap at an issued access (R97, R409): its gang gets back the state of its issue, what is younger is cancelled
and issues again, and the trap is taken. -/
def preciseTrap (s : State) (p : Pend) (cause : BitVec 8) (tval : BitVec 64) (lane : BitVec 5) : State :=
  match findGang s p.gang with
  | none => s
  | some g =>
    let s := recount { s with pend := s.pend.filter fun q => !(decide (q.gang = p.gang) && decide (p.op ≤ q.op)) } p.gang
    takeTrap s { g with arch := p.ckpt } p.slot cause tval (p.pc.setWidth 64) lane

/-- Kill the gang of an access that has consumed poison (R460). -/
def pendKill (s : State) (p : Pend) : State :=
  match findGang s p.gang with
  | none => dropPend s p
  | some g => poisonKill s g

/-- Commit the result of an access: its last-read marks, the run-slot test of R95, and then the access is over. `f` takes the
registers that a masked write merges with and the registers with the marks applied (R59). -/
def commitPend (s : State) (p : Pend) (f : Arch → Arch → Arch) : State :=
  match findGang s p.gang with
  | none => dropPend s p
  | some g =>
    let w := fun a => settleAccounts g.budget (f a (killRegs a (single p.kills)))
    match slotExcess s g (f g.arch (killRegs g.arch (single p.kills))) with
    | some n => preciseTrap s p cRunOverflow (BitVec.ofNat 64 n) 0#5
    | none => dropPend (patchYounger (putGang s { g with arch := w g.arch }) p.gang p.op w) p

/-! ## Begun instructions -/

/-- A slot begins an instruction and holds it: the registers that it will write and mark dead wait with it (R91-R93). -/
def Ctx.begin (c : Ctx) (i : Instr) (w : Wait) (d : Opnd) (kills : Reads) (vals : List DWord) (risk : Bool) : State :=
  addPend (c.put (c.a.setWait c.x w)) c (spreadReads kills) (groupOpnds d 1) (.begun i vals c.act risk)

/-- The values that a begun instruction has read. -/
def Pend.vals (p : Pend) : List DWord :=
  match p.kind with
  | .begun _ l _ _ => l
  | _ => []

/-- An instruction that holds its slot ends: `f` is its effect outside the registers, `v` what it writes to D. -/
def Ctx.finish (c : Ctx) (d : Opnd) (kills : Reads) (v : DWord) (f : State → State) : Res :=
  match c.begun with
  | some p => .next (commitPend (f c.s) p fun _ a => ((writeScalar a d v).setWait c.x .none).advance c.x)
  | none => c.commitWith ((writeScalar (killRegs c.a kills) d v).advance c.x) f

/-- An instruction that holds its slot raises its trap. -/
def Ctx.fail (c : Ctx) (cause : BitVec 8) (tval : BitVec 64) : Res :=
  match c.begun with
  | some p => c.afterRisk (.next (preciseTrap c.s p cause tval 0#5))
  | none => c.trap cause tval

/-- An instruction that holds its slot has consumed poison. -/
def Ctx.spoil (c : Ctx) : Res :=
  match c.begun with
  | some p => c.afterRisk (.next (pendKill c.s p))
  | none => c.halt .poison

/-! ## Leave of the power governor (12_engines R342, R347; 13_matrix R361; 19_reliability R467) -/

def isPendLeave (op : Nat) : LeaveReq → Bool
  | .pend o _ => decide (o = op)
  | .job _ _ => false
def isJobLeave (id : Nat) : LeaveReq → Bool
  | .pend _ _ => false
  | .job j _ => decide (j = id)

/-- A request waits for leave. -/
def leaveAsked (s : State) (die : Nat) (f : LeaveReq → Bool) : Bool := (getDie s die).leaves.any f

/-- A request for leave. -/
def askLeave (s : State) (die : Nat) (r : LeaveReq) : State := modDie s die fun d => { d with leaves := d.leaves ++ [r] }

/-- The gang waits for leave: it does not issue (R347). -/
def gangLeave (s : State) (id : GangId) : Bool :=
  s.pend.any fun p => decide (p.gang = id) && leaveAsked s id.die (isPendLeave p.op)

/-- Clock cycles in a number of ticks on a die. -/
def cyclesOf (s : State) (die ticks : Nat) : Nat := ticks * (getDie s die).clock / 1000

/-- A unit that has done nothing since a tick has been idle for 1,024 cycles. -/
def idleUnit (s : State) (die since : Nat) : Bool := decide (cyclesOf s die (s.tick - since) ≥ 1024)

/-- An event whose condition does not hold changes nothing. -/
def idle (s : State) : Res := .next s

/-- Scalar and predicate sources carry no poison (R460). -/
def wordCheck (a : Arch) (l : List Opnd) : Option Halt := if l.any (wordPoison a) then some .poison else none

/-- Change what is younger of a gang as an instruction that waits in its slot moves on. -/
def patchWait (s : State) (g : Gang) (x : PcSlot) (w : Wait) : State :=
  patchYounger s g.id (g.arch.slot x).op fun a => if (a.slot x).pc = (g.arch.slot x).pc ∧ (a.slot x).wait ≠ .none then a.setWait x w else a

/-- Finish an instruction that has waited: write its scalar destination and apply its last-read marks in the gang and in
what younger accesses would give back, and let its slot go on. -/
def retireSlot (s : State) (g : Gang) (x : PcSlot) (r : Retire) (v : DWord) : State :=
  let f := fun (a : Arch) => writeScalar (killRegs a (single r.kills)) r.d v
  let go := fun (a : Arch) => settleAccounts g.budget ((f a).setSlot x { (a.slot x) with pc := (a.slot x).pc + 12#32, wait := .none })
  patchYounger (putGang s { g with arch := go g.arch }) g.id (g.arch.slot x).op fun a =>
    if (a.slot x).pc = (g.arch.slot x).pc ∧ (a.slot x).wait ≠ .none then go a else f a

end Sys2Proof.Machine
end

