-- ==== Sys2Proof/Machine/LoadStore.lean ====
section
/-!
DEFINITION. Loads and stores (10_memory R277-R280; 04_registers R107-R110): LD, ST, SLD, SST, PREF, RSPILL, RFILL, and the
steps LOAD_RETURN and STORE_PERFORMED.
-/
namespace Sys2Proof.Machine

/-! ## Issue -/

/-- Counter limit of R247. -/
def counterMax : Nat := 63

/-- Registers of a vector access. -/
def dstGroup (d : Opnd) (w : Width) : Reads := [(d, w.regs)]

/-- The masked merge with each register of a destination group. -/
def groupMerge (a : Arch) (act : Mask) (d : Opnd) (n : Nat) : Option Halt :=
  firstHalt ((groupOpnds d n).map (mergeCheck a act))

/-- A bell-page store acts only with 4 or 8 bytes; other sizes raise PROTECTION (R481). -/
def bellSize (size : Nat) (x : Checked) : Checked :=
  match x.res with
  | .inr (.bell _) => if size = 4 ∨ size = 8 then x else { x with res := .inl cProtection }
  | _ => x

/-- An access record of each checked lane. -/
def accsOf (l : List (Nat × BitVec 64 × Target)) (data : Nat → BitVec 128) : List LaneAcc :=
  l.map fun x => { lane := x.1, va := x.2.1, tgt := x.2.2, data := data x.1 }

/-- LD (R277): every lane is checked before any is performed; the result comes with LOAD_RETURN. -/
def execLd (h : Head) (d a b : Opnd) (off : BitVec 32) (m : MemMod) (s : State) : Res :=
  issue s h.guard fun c =>
    if c.g.ld ≥ counterMax then c.hold .full
    else
      match deadCheck c.a (single [a, b]) with
      | some x => c.halt x
      | none =>
        let kills := headKills h a b .zero
        if c.act = 0#32 then c.commit (killRegs c.a kills)
        else
          match firstHalt [privCheck c [a], readCheck c.a c.act (single [a, b]), groupMerge c.a c.act d m.width.regs] with
          | some x => c.halt x
          | none =>
            let n := widthBytes m.width
            let r := checkLanes c.s c.g m.space n .read ((lanesIn c.act).map fun i => (i, laneAddr c m.space a b off n i))
            let c := { c with s := r.1 }
            match firstFail r.2 with
            | some x => c.halt x
            | none =>
              c.send (groupOpnds d m.width.regs) kills
                (.load d n (widthSigned m.width) c.act (accsOf (passing r.2) fun _ => 0#128) m.policy)

/-- SLD (R279). -/
def execSld (h : Head) (d a : Opnd) (off : BitVec 32) (m : MemMod) (s : State) : Res :=
  issue s h.guard fun c =>
    if c.g.ld ≥ counterMax then c.hold .full
    else
      match deadCheck c.a (single [a]) with
      | some x => c.halt x
      | none =>
        let kills := headKills h a .zero .zero
        if c.act = 0#32 then c.commit (killRegs c.a kills)
        else
          match firstHalt [privCheck c [a], wordCheck c.a [a]] with
          | some x => c.halt x
          | none =>
            let n := widthBytes m.width
            let r := checkLanes c.s c.g m.space n .read [(0, scalarAddr c m.space a off n)]
            let c := { c with s := r.1 }
            match firstFail r.2 with
            | some x => c.halt x
            | none =>
              c.send (groupOpnds d 1) kills
                (.load d n (widthSigned m.width) 1#32 (accsOf (passing r.2) fun _ => 0#128) m.policy)

/-- The data of a lane of ST: the register group, or a uniform datum; with immediate data every word of a wide access holds
IMM (R275, R278). -/
def storeData (c : Ctx) (e : Opnd) (n i : Nat) : BitVec 128 :=
  match e with
  | .v r => (List.range (max 1 (n / 4))).foldl
      (fun x k => x ||| (((vregVal (c.a.vreg (groupReg r k)) i).setWidth 128 : BitVec 128) <<< (32 * k))) 0#128
  | .imm x => (x ++ x ++ x ++ x : BitVec 128)
  | _ => (scalarOf c e).setWidth 128

/-- The offset of a store: 0 beside immediate data (R275). -/
def storeOff (e : Opnd) (off : BitVec 32) : BitVec 32 :=
  match e with
  | .imm _ => 0#32
  | _ => off

/-- The record of a store's lanes: an NT store is home-performed (R265). -/
def storeKind (n : Nat) (pol : Policy) (act : Mask) (accs : List LaneAcc) : PendKind :=
  if pol = .nt then .home (.nt n) .zero false .pkg act accs 0#32 true else .store n accs pol

/-- Issue a store whose lanes have been checked: the lanes below the first that fails are performed, then it traps (R258). -/
def postStore (c : Ctx) (kills : Reads) (l : List Checked) (kind : List (Nat × BitVec 64 × Target) → PendKind) : Res :=
  match firstFail l with
  | none => c.post (killRegs c.a kills) (kind (passing l))
  | some (.trap cause tval lane) =>
    let s := if passing l = [] then c.s else addPend c.s c [] [] (kind (passing l))
    c.afterRisk (.next (takeTrap s (match findGang s c.g.id with
      | some g => { g with arch := c.g.arch }
      | none => c.g) c.x cause tval (c.pc.setWidth 64) lane))
  | some h => c.halt h

/-- ST (R278). -/
def execSt (h : Head) (a b e : Opnd) (off : BitVec 32) (m : MemMod) (s : State) : Res :=
  issue s h.guard fun c =>
    if c.g.st ≥ counterMax then c.hold .full
    else
      match deadCheck c.a [(a, 1), (b, 1), (e, m.width.regs)] with
      | some x => c.halt x
      | none =>
        let kills := killsOf h (a, 1) (b, 1) (e, m.width.regs)
        if c.act = 0#32 then c.commit (killRegs c.a kills)
        else
          match firstHalt [privCheck c [a], readCheck c.a c.act [(a, 1), (b, 1), (e, m.width.regs)]] with
          | some x => c.halt x
          | none =>
            let n := widthBytes m.width
            let r := checkLanes c.s c.g m.space n .write
              ((lanesIn c.act).map fun i => (i, laneAddr c m.space a b (storeOff e off) n i))
            let c := { c with s := r.1 }
            postStore c kills (r.2.map (bellSize n)) fun l =>
              storeKind n m.policy c.act (accsOf l (storeData c e n))

/-- SST (R279): a 64-bit immediate datum is sign-extended (R275). -/
def execSst (h : Head) (a e : Opnd) (off : BitVec 32) (m : MemMod) (s : State) : Res :=
  issue s h.guard fun c =>
    if c.g.st ≥ counterMax then c.hold .full
    else
      match deadCheck c.a (single [a, e]) with
      | some x => c.halt x
      | none =>
        let kills := headKills h a .zero e
        if c.act = 0#32 then c.commit (killRegs c.a kills)
        else
          match firstHalt [privCheck c [a], wordCheck c.a [a, e]] with
          | some x => c.halt x
          | none =>
            let n := widthBytes m.width
            let r := checkLanes c.s c.g m.space n .write [(0, scalarAddr c m.space a (storeOff e off) n)]
            let c := { c with s := r.1 }
            postStore c kills (r.2.map (bellSize n)) fun l =>
              storeKind n m.policy 1#32 (accsOf l fun _ => (scalarOf c e).setWidth 128)

/-- Bring the lines of lanes into L1 and the cluster cache, or with NT into the RDC only (R264, R280). -/
def prefetch (s : State) (g : Gang) (pol : Policy) : List (Nat × BitVec 64 × Target) → State
  | [] => s
  | (_, _, .mem pa false) :: rest =>
    prefetch (if !lineReach s g.id.die pa then s
      else if pol = .nt then supplyLine s g.id.die (pa / 128)
      else (l1Read s g.id.die g.id.core (pa / 128) (leaseOf s g.ctx) pol).1) g pol rest
  | _ :: rest => prefetch s g pol rest

/-- The lanes that pass, whichever fail. -/
def passingAll (l : List Checked) : List (Nat × BitVec 64 × Target) :=
  l.filterMap fun x => match x.res with
    | .inl _ | .inr (.away _) => none
    | .inr t => some (x.lane, x.va, t)

/-- PREF: a lane that would fail is dropped; the hint is taken or dropped as a free value says, and it raises nothing but
DEAD_READ (R280). -/
def execPref (h : Head) (a b : Opnd) (off : BitVec 32) (m : MemMod) (s : State) : Res :=
  issue s h.guard fun c =>
    match deadCheck c.a (single [a, b]) with
    | some x => c.halt x
    | none =>
      let kills := headKills h a b .zero
      if c.act = 0#32 then c.commit (killRegs c.a kills)
      else
        if (freeNow c.s).getLsbD 0 ∧ privCheck c [a] = none ∧ readCheck c.a c.act (single [a, b]) = none then
          let n := widthBytes m.width
          let r := checkLanes c.s c.g m.space n .read ((lanesIn c.act).map fun i => (i, laneAddr c m.space a b off n i))
          { c with s := prefetch r.1 c.g m.policy (passingAll r.2) }.commit (killRegs c.a kills)
        else c.commit (killRegs c.a kills)

/-! ## Spill images (R107-R109) -/

/-- The bytes of a spill image (R107). -/
def imageBytes (l : List Run) : List Byte :=
  bytesOfNat 8 l.length ++ l.flatMap fun r =>
    bytesOfNat 8 (r.value.toNat + 2 ^ 32 * (r.count - 1) + (if r.poison then 2 ^ 63 else 0))

/-- RSPILL: DEAD_READ, then RUN_LENGTH, then PROTECTION (R108). -/
def execRspill (h : Head) (a e : Opnd) (off : BitVec 32) (free : Bool) (s : State) : Res :=
  issue s h.guard fun c =>
    if c.g.st ≥ counterMax then c.hold .full
    else
      match deadCheck c.a (single [a, e]) with
      | some x => c.halt x
      | none =>
        let kills := headKills h a .zero e
        if c.act = 0#32 then c.commit (killRegs c.a kills)
        else
          match firstHalt [privCheck c [a], wordCheck c.a [a], (firstOpen c.a (single [e])).map fun n => .trap cRunLength (BitVec.ofNat 64 n) 0#5] with
          | some x => c.halt x
          | none =>
            let img := imageBytes (runList c e)
            let va := scalarAddr c .scratch a off 8
            match (spaceTarget c.s c.g .scratch va img.length .write).2 with
            | .inr (.scratch d k pos) =>
              c.post (killRegs c.a (kills ++ (if free then [(e, 1)] else []))) (.image false d k pos img [])
            | _ => c.trap cProtection va

/-- RFILL: the header must lie in the allocation; the rest is checked when the image is read (R109). -/
def execRfill (h : Head) (d a : Opnd) (off : BitVec 32) (s : State) : Res :=
  issue s h.guard fun c =>
    if c.g.ld ≥ counterMax then c.hold .full
    else
      match deadCheck c.a (single [a]) with
      | some x => c.halt x
      | none =>
        let kills := headKills h a .zero .zero
        if c.act = 0#32 then c.commit (killRegs c.a kills)
        else
          match firstHalt [privCheck c [a], wordCheck c.a [a]] with
          | some x => c.halt x
          | none =>
            let va := scalarAddr c .scratch a off 8
            match (spaceTarget c.s c.g .scratch va 8 .read).2 with
            | .inr (.scratch k core pos) => c.send (groupOpnds d 1) kills (.rfill d k core pos)
            | _ => c.trap cProtection va

/-! ## LOAD_RETURN (R247, R277, R279) -/

/-- Read every lane in ascending order. -/
def readLanes (s : State) (g : Gang) (pol : Policy) (n : Nat) : List LaneAcc → State × List (Nat × Nat × Bool)
  | [] => (s, [])
  | x :: rest =>
    let r := readTarget s g.id g.ctx pol x.tgt n
    let t := readLanes r.1 g pol n rest
    (t.1, (x.lane, r.2) :: t.2)

/-- A value of `n` bytes, extended. -/
def extendNat (signed : Bool) (n x : Nat) : BitVec 128 :=
  let v := BitVec.ofNat 128 x
  if signed then (match n with
    | 1 => ((v.setWidth 8 : BitVec 8)).signExtend 128
    | 2 => ((v.setWidth 16 : BitVec 16)).signExtend 128
    | _ => v) else v

/-- A lane's value and poison among results; a lane that was not read gives 0. -/
def laneResult (l : List (Nat × Nat × Bool)) (i : Nat) : Nat × Bool :=
  match l.find? fun x => decide (x.1 = i) with
  | some x => x.2
  | none => (0, false)

/-- A normalising write whose lanes may be poisoned; each poisoned lane is a run of its own (R90, R98). -/
def writeMaxPoison (old : VReg) (act : Mask) (val : Nat → Word) (psn : Nat → Bool) : List Run :=
  packRuns ((List.range 32).map fun i =>
    if inMask act i then { value := val i, poison := psn i, start := psn i }
    else { value := vregVal old i, poison := vregPoison old i, start := vregPoison old i && vregCut old i })

/-- Write the results of a load: word j of a lane to register j of the group, or a scalar (R277, R279). -/
def loadWrite (d : Opnd) (n : Nat) (signed : Bool) (act : Mask) (l : List (Nat × Nat × Bool)) (old a : Arch) : Arch :=
  match d with
  | .v r => (List.range (max 1 (n / 4))).foldl (fun x k =>
      x.setV (groupReg r k) (some (writeMaxPoison (old.vreg (groupReg r k)) act
        (fun i => (extendNat signed n (laneResult l i).1).extractLsb' (32 * k) 32) (fun i => (laneResult l i).2)))) a
  | .s r => a.setS r (some ((extendNat signed n (laneResult l 0).1).setWidth 64))
  | _ => a

/-- What a spill image holds: the sr.tval of RUN_LENGTH, or its runs (R109). -/
def imageRuns (s : State) (d c pos : Nat) : Nat ⊕ List Run :=
  let n := scratchNat s d c pos 8 % 64
  if n = 0 ∨ n > 32 then .inl 0
  else
    let l := (List.range n).map fun j =>
      let w := scratchNat s d c (pos + 8 + 8 * j) 8
      { value := BitVec.ofNat 32 w, count := w / 2 ^ 32 % 32 + 1,
        poison := decide (w / 2 ^ 63 = 1) || scratchPoisoned s d c (pos + 8 + 8 * j) 8 : Run }
    if lengthOf l ≠ 32 then .inl (lengthOf l) else .inr (maxRuns l)

/-- RFILL's image is read (R109; of poison in its header or a record, log 140). -/
def rfillDue (s : State) (g : Gang) (die core pos : Nat) : Due :=
  let n := scratchNat s die core pos 8 % 64
  let fits := match findBlock s g.block with
    | some b => inAlloc b pos (8 + 8 * n)
    | none => false
  if !fits then .trap cProtection (BitVec.ofNat 64 pos)
  else if scratchPoisoned s die core pos 8 then .kill
  else
    match imageRuns s die core pos with
    | .inl t => .trap cRunLength (BitVec.ofNat 64 t)
    | .inr l => .runs l

/-- LD's or SLD's lanes are read. A scalar that a load delivers consumes the poison of its bytes (R98, R460). -/
def loadDue (d : Opnd) (n : Nat) (signed : Bool) (act : Mask) (l : List (Nat × Nat × Bool)) : Due :=
  match d with
  | .s _ => if l.any (fun x => x.2.2) then .kill else .lanes n signed act l
  | _ => .lanes n signed act l

/-- Commit what a load has read, or raise what it has met. -/
def commitDue (s : State) (p : Pend) (d : Opnd) : Due → State
  | .lanes n signed act l => commitPend s p (loadWrite d n signed act l)
  | .runs l => commitPend s p fun _ a => match d with
    | .v r => a.setV r (some l)
    | _ => a
  | .trap cause tval => preciseTrap s p cause tval 0#5
  | .kill => pendKill s p

/-- The bytes are in: the result commits now, or once no older instruction of the gang may still trap (R91, R97). -/
def settleDue (s : State) (p : Pend) (d : Opnd) (r : Due) : State :=
  if olderRisk s p.gang p.op then wakeOrder (recount (modPend s p.op fun q => { q with kind := .due d r }) p.gang) p.gang
  else commitDue s p d r

/-- LOAD_RETURN: the bytes are read and the result committed. -/
def execLoadReturn (op : Nat) (s : State) : Res :=
  match findPend s op with
  | none => idle s
  | some p =>
    match findGang s p.gang with
    | none => idle s
    | some g =>
      match p.kind with
      | .load d n signed act accs pol =>
        if pendHeld s p || !accs.all (fun x => loadReach s g.id pol x.tgt) || lateReply s p then idle s
        else
          let r := readLanes s g pol n accs
          .next (settleDue r.1 p d (loadDue d n signed act r.2))
      | .rfill d die core pos => if pendHeld s p then idle s else .next (settleDue s p d (rfillDue s g die core pos))
      | .due d r => if olderRisk s p.gang p.op then idle s else .next (commitDue s p d r)
      | _ => idle s

end Sys2Proof.Machine
end

