-- ==== Sys2Proof/Machine/Home.lean ====
section
/-!
DEFINITION. Home-performed writes (11_page R305, R313, R314), the device's own accesses to a context's memory, and queues as
their owner keeps them: bells, states and status blocks (15_queue R388-R392).
-/
namespace Sys2Proof.Machine

/-! ## Home-performed writes -/

/-- Span of 4 KiB (R287). -/
def spanOf (pa : Nat) : Nat := pa / 4096

/-- Dies of a sharer mask. -/
def sharersOf (m : BitVec 8) : List Nat := (List.range 8).filter fun j => m.getLsbD j

/-- A home has to fold a write into the sharers of its bytes (R313). -/
def noteUnfolded (s : State) (home n : Nat) (ops : List Nat) (pa : Nat) : State :=
  if (findHomePage s (granule pa)).sharers = 0#8 then s
  else { s with unfolded := s.unfolded ++ [{ home := home, addr := pa, size := n, tick := s.tick, ops := ops }] }

/-- A home performs a write: the bytes are there at once, and every sharer die gets them in a fold-in later (R313), while a migration
ends under either address (R317). -/
def performHome (s : State) (pa : Nat) (bytes : List Byte) (ops : List Nat) : State :=
  let s := homeWrite s pa bytes
  (pa :: aliasesOf s pa).foldl (fun s a => noteUnfolded s (homeOf pa) bytes.length ops a) s

/-- The gang has performed a home write at a home since its die's last full round (R302). -/
def touchHome (s : State) (id : GangId) (home : Nat) : State :=
  modDie s id.die fun d => { d with touched := if d.touched.contains (id, home) then d.touched else d.touched ++ [(id, home)] }

/-! ## The device's own accesses to a context's memory -/

/-- Memory of the package behind an address of a context, with a kind of access; a REMOTE page may name this device (R290). -/
def deviceAddr (s : State) (die ctx : Nat) (va : BitVec 64) (n : Nat) (k : Access) : State × Option Nat :=
  let r := translateAny s die ctx va n k
  let at_ := fun (pa : Nat) => if homeLost s (homeOf pa) then none else some pa
  (r.1, match r.2 with
    | .inr (.mem pa _) => at_ pa
    | .inr (.remote d a) => if d = s.admin.devid.toNat then at_ a else none
    | _ => none)

/-- The home behind an address of a context can be reached from a die now: until then an access of the device's own waits (R16, R424). What
does not translate needs no request. -/
def deviceReach (s : State) (die ctx : Nat) (va : BitVec 64) (n : Nat) (k : Access) : Bool :=
  match (translate s die ctx va n k).2 with
  | .inr t => targetHome s die t
  | .inl _ => true

/-- Write bytes with system visibility: none when the address does not translate with W. -/
def deviceWrite (s : State) (die ctx : Nat) (va : BitVec 64) (bytes : List Byte) : Option State :=
  let r := deviceAddr s die ctx va bytes.length .write
  r.2.map fun pa => performHome r.1 pa bytes []

/-- Read bytes at system scope: none when the address does not translate with R. -/
def deviceRead (s : State) (die ctx : Nat) (va : BitVec 64) (n : Nat) : State × Option Nat :=
  let r := deviceAddr s die ctx va n .read
  (r.1, r.2.map fun pa => homeNat r.1 pa n)

/-! ## Queues (R388-R392) -/

/-- The lowest die of a mask that is not lost (R397). -/
def ownerOf (s : State) (mask : BitVec 8) : Option Nat := (List.range 8).find? fun j => mask.getLsbD j && !dieLost s j

/-- a − b modulo 2³² (R388). -/
def idxDiff (a b : BitVec 32) : Nat := (a - b).toNat

/-- a precedes b in a window of 2³¹ (R388). -/
def idxBefore (a b : BitVec 32) : Bool := decide (idxDiff b a ≠ 0) && decide (idxDiff b a < 2 ^ 31)

def qStateCode : QState → Nat
  | .inactive => 0
  | .empty => 1
  | .ready => 2
  | .blocked => 3
  | .error => 4

/-- The status block (R390). -/
def statusBytes (q : Queue) : List Byte :=
  bytesOfNat 4 q.ridx.toNat ++ bytesOfNat 4 q.done.toNat ++ bytesOfNat 1 (qStateCode q.state) ++ bytesOfNat 1 q.err ++ bytesOfNat 6 0

/-- Replace a queue's record. -/
def putQueue (s : State) (q : Queue) : State := modQueue s q.num fun _ => q

/-- The die whose scheduler core serves a queue. -/
def queueDie (s : State) (q : Queue) : Nat := (ownerOf s q.mask).getD 0

/-- The address of packet `w` of a queue. -/
def slotAddr (q : Queue) (w : BitVec 32) : BitVec 64 := q.ring + BitVec.ofNat 64 (64 * (w.toNat % 2 ^ q.log2))

/-- The slot of a packet can be read now (R16). -/
def slotReach (s : State) (q : Queue) (w : BitVec 32) : Bool := deviceReach s (queueDie s q) q.ctx (slotAddr q w) 64 .read

/-- Packet `w` of a queue, read at system scope: none when its slot does not translate with R. Its words are read at one moment: of the
mixtures that R390 allows when software rewrites the slot meanwhile, the model shows the slot as it stands (DESIGN CHOICE, log 161). -/
def packetAt (s : State) (q : Queue) (w : BitVec 32) : State × Option (BitVec 512) :=
  let r := deviceRead s (queueDie s q) q.ctx (slotAddr q w) 64
  (r.1, r.2.map fun x => BitVec.ofNat 512 x)

/-- KIND of a packet, and its NOW (R392). -/
def packetKind (p : BitVec 512) : Nat := (p.extractLsb' 0 8).toNat
def packetNow (p : BitVec 512) : Bool := p.getLsbD 9

/-- Put a queue's new record and write its status block: none when it cannot be written (R390). A block whose home cannot be reached is
written once it can. -/
def tryQueue (s : State) (q : Queue) : Option State :=
  if deviceReach s (queueDie s q) q.ctx q.status 16 .write then
    deviceWrite (putQueue s { q with stale := false }) (queueDie s q) q.ctx q.status (statusBytes q)
  else some (putQueue s { q with stale := true })

/-- A packet's status for its record (R400). -/
def recordOf (s : State) (q : Queue) (w : BitVec 32) (kind start status : Nat) (now : Bool) : Record :=
  { start := start, finish := s.tick, queue := q.num, status := status, pindex := w, pc := 0#32, cause := 0#8, faults := 0,
    kind := kind, replays := 0, now := now }

/-- Insert a record in the order of END ticks, queue numbers and packet indices (R399). -/
def insertRecord (r : Record) : List Record → List Record
  | [] => [r]
  | x :: rest =>
    if r.finish < x.finish ∨ (r.finish = x.finish ∧ (r.queue < x.queue ∨ (r.queue = x.queue ∧ idxBefore r.pindex x.pindex))) then
      r :: x :: rest
    else x :: insertRecord r rest

/-- A record is due on its context's event ring. -/
def dueRecord (s : State) (ctx : Nat) (r : Record) : State := modContext s ctx fun c => { c with due := insertRecord r c.due }

/-- Move DONE past the completed indices. -/
def advanceDone : Nat → BitVec 32 → List (BitVec 32) → BitVec 32 × List (BitVec 32)
  | 0, d, l => (d, l)
  | k + 1, d, l => if l.contains d then advanceDone k (d + 1#32) (l.filter fun x => decide (x ≠ d)) else (d, l)

/-- A packet of a queue is complete: it leaves the taken ones, and DONE moves (R390). -/
def Queue.passed (q : Queue) (w : BitVec 32) : Queue :=
  let l := w :: q.doneSet
  let d := advanceDone l.length q.done l
  { q with done := d.1, doneSet := d.2, taken := q.taken.filter fun t => decide (t.pindex ≠ w) }

/-- The record of a packet that completes CANCELLED before it is taken, with its KIND and NOW where its slot can be read (R400). R400 states
no START for it: the tick of the cancellation (DESIGN CHOICE, log 162). -/
def cancelRecord (s : State) (q : Queue) (p : Option (BitVec 512)) : Record :=
  recordOf s q q.ridx (match p with
    | some x => packetKind x
    | none => 0) s.tick stCancelled (match p with
    | some x => packetNow x
    | none => false)

/-- The queue enters ERROR: its head completes CANCELLED and is passed, if there is one; BELL keeps its value. A write of its status
block that fails is lost (R389-R391). -/
def cancelHead (s : State) (q : Queue) (code : Nat) : State :=
  let put := fun (s : State) (q : Queue) => (tryQueue s q).getD (putQueue s q)
  if q.ridx = q.bell then put s { q with state := .error, err := code }
  else
    let r := packetAt s q q.ridx
    put (dueRecord r.1 q.ctx (cancelRecord r.1 q r.2))
      ({ q with state := .error, err := code, ridx := q.ridx + 1#32 }.passed q.ridx)

/-- Put a queue's new record and write its status block; a block that cannot be written puts the queue in ERROR with ERRCODE
4 (R390, R391). -/
def setQueue (s : State) (q : Queue) : State :=
  match tryQueue s q with
  | some s' => s'
  | none => if q.state = .error then putQueue s q else cancelHead s q 4

/-- A packet has completed: its record is due (R390, R399). -/
def completePacket (s : State) (qn : Nat) (r : Record) : State :=
  match findQueue s qn with
  | none => s
  | some q => setQueue (dueRecord s q.ctx r) (q.passed r.pindex)

/-- A write of WIDX to the bell of a queue (R389). -/
def ringBell (s : State) (qn : Nat) (w : BitVec 32) : State :=
  match findQueue s qn with
  | none => s
  | some q =>
    if idxDiff w q.ridx > 2 ^ q.log2 then
      (if q.state = .error then s else cancelHead s q 2)
    else putQueue s { q with bell := w }

/-- A store of a context to the bell page (R481, R406): 8 bytes, or 4 bytes at an offset 8q, act; 4 bytes at 8q + 4 change
nothing. -/
def bellStore (s : State) (ctx off n x : Nat) : State :=
  if off % 8 ≠ 0 ∨ (n ≠ 4 ∧ n ≠ 8) then s
  else
    match findQueue s (off / 8) with
    | some q => if q.ctx = ctx then ringBell s q.num (BitVec.ofNat 32 x) else s
    | none => s

end Sys2Proof.Machine
end

