-- ==== Sys2Proof/Machine/Atomic.lean ====
section
/-!
DEFINITION. The performing of stores, and the atomic instructions (10_memory R270-R274, R281-R283, R286, R300, R479; 11_page
R313, R314; 17_link R428-R430): ATOM, RED, CAS, ALD, AST, DCAS, AMOVE, TIME, and the steps STORE_PERFORMED,
HOME_PERFORMED_WRITE and ATOMIC_VALUE_RETURN.
-/
namespace Sys2Proof.Machine

/-! ## Operations (R271) -/

/-- An operand or result cut to its width. -/
def cutWord (w64 : Bool) (x : DWord) : DWord := if w64 then x else ((x.setWidth 32 : BitVec 32)).setWidth 64

/-- Signed value at a width. -/
def wordInt (w64 : Bool) (x : DWord) : Int := if w64 then x.toInt else ((x.setWidth 32 : BitVec 32)).toInt

/-- The new value of an atomic operation from the old value and the operand, both cut to the width. -/
def atomicNew (op : AOp) (w64 : Bool) (old c : DWord) : DWord :=
  let r := match op with
    | .add => old + c
    | .minn => if old.toNat ≤ c.toNat then old else c
    | .mini => if wordInt w64 old ≤ wordInt w64 c then old else c
    | .maxn => if old.toNat ≤ c.toNat then c else old
    | .maxi => if wordInt w64 old ≤ wordInt w64 c then c else old
    | .and => old &&& c
    | .or => old ||| c
    | .xor => old ^^^ c
    | .exch => c
    | .incw => if old.toNat ≥ c.toNat then 0#64 else old + 1#64
    | .decw => if old = 0#64 ∨ old.toNat > c.toNat then c else old - 1#64
    | .fadd32 => ((f32AddRne (old.setWidth 32) (c.setWidth 32)).1).setWidth 64
    | .bfadd2 =>
      let half := fun j => BitVec.ofNat 16
        (fpAdd ffBf16 .rne false false (old.extractLsb' (16 * j) 16).toNat (c.extractLsb' (16 * j) 16).toNat).1
      ((half 1 ++ half 0 : BitVec 32)).setWidth 64
  cutWord w64 r

/-- What an atomic does to a word: the operand of the lane and, for CAS, its comparand. -/
def homeOpNew (h : HomeOp) (w64 : Bool) (lane : Nat) (old c : DWord) : Option DWord :=
  match h with
  | .atom op | .red op => some (atomicNew op w64 old c)
  | .cas cmp =>
    match cmp.find? fun x => decide (x.1 = lane) with
    | some x => if cutWord w64 x.2 = old then some c else none
    | none => none
  | .ald => none
  | .ast | .nt _ | .channel _ _ => some c

/-! ## The units below the home (R270) -/

/-- Read a word at the unit of a scope. -/
def unitRead (s : State) (id : GangId) (ctx : Nat) (scope : Scope) (t : Target) (n : Nat) : State × Nat × Bool :=
  match t with
  | .scratch d c pos => (s, scratchNat s d c pos n, scratchPoisoned s d c pos n)
  | .mem pa _ =>
    if scope = .clu then
      let s := clusterFill (drainLines s id.die id.core fun k => decide (k = pa / 128)) id.die (clusterOf id.core) (pa / 128) (leaseOf s ctx) .normal
      let x := lineOr (getCluster s id.die (clusterOf id.core)).lines (pa / 128)
      (s, lineNat x.data (pa % 128) n, poisonAt x.poison (pa % 128) n)
    else
      let s := supplyLine s id.die (pa / 128)
      let x := sheetOr s id.die (pa / 256)
      (s, lineNat x.work (pa % 256) n,
        x.poison &&& wordsTouched 64 (byteSpan 256 (pa % 256) n) ≠ 0#64)
  | .remote d a => (s, outsideNat s d a n, false)
  | .bell _ | .away _ => (s, 0, false)

/-- The gang has written `n` bytes of a sheet at its cluster cache or RDC (R300). -/
def noteWrote (s : State) (id : GangId) (op pa n : Nat) : State :=
  let m : BitVec 256 := byteSpan 256 (pa % 256) n
  let same := fun (w : Wrote) => decide (w.gang = id) && decide (w.sheet = pa / 256) && !w.sent
  if s.wrote.any same then { s with wrote := s.wrote.map fun w => if same w then { w with bytes := w.bytes ||| m } else w }
  else { s with wrote := s.wrote ++ [{ gang := id, op := op, sheet := pa / 256, bytes := m, sent := false }] }

/-- Write a word at the unit of a scope; the core's copies of a line that it has made old are dropped (R262). -/
def unitWrite (s : State) (id : GangId) (op : Nat) (scope : Scope) (t : Target) (n x : Nat) (psn : Bool) : State :=
  match t with
  | .scratch d c pos => modCore s d c fun k =>
      { k with scratch := cellsWrite k.scratch pos (bytesOfNat n x),
               scratchPoison := if psn then k.scratchPoison else k.scratchPoison.filter fun w => !wholeWords pos n w }
  | .mem pa _ =>
    let s := noteWrote s id op pa n
    if scope = .clu then
      let s := clusterWrite s id.die (clusterOf id.core) (pa / 128) (byteSpan 128 (pa % 128) n) (lineOf 1024 (pa % 128) x) .normal
      modCore s id.die id.core fun c => { c with l1 := c.l1.filter fun y => decide (y.line ≠ pa / 128) }
    else
      let m := byteSpan 256 (pa % 256) n
      let s := rdcWrite s id.die (pa / 256) m (lineOf 2048 (pa % 256) x) (if psn then wordsTouched 64 m else 0#64)
      dropCopies s id.die id.core (pa / 128)
  | _ => s

/-- Perform a lane at a unit: the old value comes back (R272). -/
def unitPerform (s : State) (id : GangId) (op ctx : Nat) (h : HomeOp) (w64 : Bool) (scope : Scope) (x : LaneAcc) :
    State × Nat × Bool :=
  let n := wordSize w64
  let r := unitRead s id ctx scope x.tgt n
  match homeOpNew h w64 x.lane (BitVec.ofNat 64 r.2.1) (cutWord w64 (x.data.setWidth 64)) with
  | none => r
  | some v => (unitWrite r.1 id op scope x.tgt n v.toNat r.2.2, r.2)

/-- Perform lanes in ascending order (R272). -/
def unitPerformAll (s : State) (id : GangId) (op ctx : Nat) (h : HomeOp) (w64 : Bool) (scope : Scope) :
    List LaneAcc → State × List (Nat × Nat × Bool)
  | [] => (s, [])
  | x :: rest =>
    let r := unitPerform s id op ctx h w64 scope x
    let t := unitPerformAll r.1 id op ctx h w64 scope rest
    (t.1, (x.lane, r.2) :: t.2)

/-- The lines of a die-scope atomic are flushed from the issuing core's L1 and cluster cache first (R479). -/
def flushFor (s : State) (id : GangId) (l : List LaneAcc) : State :=
  let lines := l.filterMap fun x => match x.tgt with
    | .mem pa _ => some (pa / 128)
    | _ => none
  flushCluster (drainLines s id.die id.core fun k => lines.contains k) id.die (clusterOf id.core) fun k => lines.contains k

/-- The sheets without a twin that lanes at the RDC would write. -/
def newTwins (s : State) (die : Nat) (l : List LaneAcc) : List Nat :=
  l.foldl (fun a x => match x.tgt with
    | .mem pa false =>
      if decide ((sheetOr s die (pa / 256)).state = .clean) && !a.contains (pa / 256) then a ++ [pa / 256] else a
    | _ => a) []

/-- Room for the twins that lanes at die scope need together (R299), and the lines of the sheets that they need whole. -/
def twinsFit (s : State) (die : Nat) (l : List LaneAcc) : Bool :=
  decide (newTwins s die l = []) || (newTwins s die l).all (sheetReach s die) && decide (twinCount (getDie s die) + (newTwins s die l).length ≤ twinStore)

/-! ## Results (R272) -/

/-- Write the old values of a vector atomic: the union rule, and a cut where neighbouring results differ, in each register of
a pair on its own values. -/
def atomWrite (d : Opnd) (w64 : Bool) (act cuts : Mask) (l : List (Nat × Nat × Bool)) (before a : Arch) : Arch :=
  match d with
  | .v r => (List.range (if w64 then 2 else 1)).foldl (fun x k =>
      x.setV (groupReg r k) (some (packRuns ((List.range 32).map fun i =>
        let old := before.vreg (groupReg r k)
        if inMask act i then
          { value := BitVec.ofNat 32 ((laneResult l i).1 / 2 ^ (32 * k)), poison := (laneResult l i).2,
            start := (laneResult l i).2 || inMask cuts i || (decide (act ≠ fullMask) && (vregCut old i || edgeAt act i)) }
        else
          { value := vregVal old i, poison := vregPoison old i,
            start := vregCut old i || (!vregPoison old i && (inMask cuts i || edgeAt act i)) })))) a
  | .s r => a.setS r (some (BitVec.ofNat 64 (laneResult l 0).1))
  | _ => a

/-- The result of an atomic goes to a register. -/
def HomeOp.returns : HomeOp → Bool
  | .atom _ | .cas _ | .ald => true
  | _ => false

/-! ## Issue (R281, R282) -/

/-- A channel's store, which CHANNEL_STORE_PERFORM performs (R439). -/
def HomeOp.inChannel : HomeOp → Bool
  | .channel _ _ => true
  | _ => false

/-- What an atomic needs of a page (R295). -/
def HomeOp.access : HomeOp → Access
  | .atom _ | .cas _ => .rmw
  | .ald => .read
  | _ => .write

/-- On the bell page ATOM, RED and CAS raise PROTECTION; AST acts and ALD reads zero (R481). -/
def bellAtomic (h : HomeOp) (x : Checked) : Checked :=
  match x.res, h with
  | .inr (.bell _), .atom _ | .inr (.bell _), .red _ | .inr (.bell _), .cas _ => { x with res := .inl cProtection }
  | _, _ => x

/-- A lane is performed at a home whatever its scope: host-biased and remote pages, and the bell page (R315, R316, R289). -/
def targetAtHome : Target → Bool
  | .mem _ hb => hb
  | .scratch _ _ _ => false
  | _ => true

/-- The lane's home is lost: it raises HOME_LOST whatever its scope, but ALD reads poisoned data. R322 says 'an atomic to that die', which
the model takes for any atomic on an address of that home (DESIGN CHOICE, log 163); R276 has HOME_LOST arise at a FENCE only, and the
model follows R322 (log 164). -/
def lostLane (s : State) (h : HomeOp) (l : List (Nat × BitVec 64 × Target)) : Option Nat :=
  if h = .ald then none
  else (l.find? fun x => match x.2.2 with
    | .mem pa _ => homeLost s (homeOf pa)
    | _ => false).map fun x => x.1

/-- A datum of a lane: a register or a register pair, or a uniform datum; a 64-bit immediate is sign-extended (R272, R275). -/
def atomData (c : Ctx) (e : Opnd) (w64 : Bool) (i : Nat) : DWord :=
  match e with
  | .v r =>
    if w64 then (vregVal (c.a.vreg (groupReg r 1)) i ++ vregVal (c.a.vreg r) i : BitVec 64)
    else (vregVal (c.a.vreg r) i).setWidth 64
  | _ => cutWord w64 (scalarOf c e)

/-- The boundaries that A, B and C bring to a result (R272). -/
def atomCuts (c : Ctx) (a b e : Opnd) (w64 : Bool) : Mask :=
  maskOf fun i => cutOf c a i || cutOf c b i || cutOf c e i || (w64 && (match e with
    | .v r => vregCut (c.a.vreg (groupReg r 1)) i
    | _ => false))

/-- Perform an atomic whose lanes all have their unit on the die, now, when no older instruction may trap and the gang's earlier accesses
to the words have reached it (R479), with the run-slot test of its result before anything is performed (R97). -/
def atomNow (c : Ctx) (h : HomeOp) (d : Opnd) (m : AtomMod) (act cuts : Mask) (kills : Reads) (accs : List LaneAcc) : Res :=
  if m.scope = .die && !twinsFit c.s c.g.id.die accs then
    { c with s := askRoom c.s c.g.id.die }.hold .full
  else
    let s := if m.scope = .die then flushFor c.s c.g.id accs else c.s
    let r := unitPerformAll s c.g.id c.s.nextOp c.g.ctx h m.w64 m.scope accs
    let isScalar := match d with
      | .s _ => true
      | _ => false
    if isScalar && r.2.any (fun x => x.2.2) then c.halt .poison
    else
      let a := killRegs c.a kills
      let a := if h.returns then atomWrite d m.w64 act cuts r.2 c.a a else a
      match slotExcess c.s c.g a with
      | some n => c.trap cRunOverflow (BitVec.ofNat 64 n)
      | none => { c with s := r.1 }.commit a

/-- Send an atomic to its units: its homes, or, behind an older instruction of the gang, its unit on the die. -/
def atomSend (c : Ctx) (h : HomeOp) (d : Opnd) (m : AtomMod) (act cuts : Mask) (kills : Reads) (accs : List LaneAcc) : Res :=
  let kind := PendKind.home h d m.w64 m.scope act accs cuts false
  if h.returns then c.send (groupOpnds d (if m.w64 then 2 else 1)) kills kind else c.post (killRegs c.a kills) kind

/-- A RED or AST that a lane fails: the lanes below it have been performed or sent by `r`, and then the trap is taken (R258).
Where `r` leaves the slot at the instruction, it waits and executes again. -/
def failAfter (c : Ctx) (r : Res) (cause : BitVec 8) (tval : BitVec 64) (lane : BitVec 5) : Res :=
  c.afterRisk (match r with
    | .next s' =>
      match findGang s' c.g.id with
      | none => .next s'
      | some g =>
        if (g.arch.slot c.x).pc = c.pc then .next s'
        else .next (takeTrap s' { g with arch := c.a } c.x cause tval (c.pc.setWidth 64) lane)
    | r => r)

/-- The shape that the atomic instructions share (R276, R258): `reads` in order D, A, B, C; `addrs` the lanes' addresses. -/
def atomOp (h : Head) (mk : Ctx → HomeOp) (d a b e : Opnd) (reads : Reads) (kills : Reads) (m : AtomMod) (s : State)
    (addrs : Ctx → Space → List (Nat × BitVec 64)) : Res :=
  issue s h.guard fun c =>
    match deadCheck c.a reads with
    | some x => c.halt x
    | none =>
      if c.act = 0#32 then c.commit (killRegs c.a kills)
      else
        let op := mk c
        let n := if m.w64 then 2 else 1
        let priv := reads.map fun x => x.1
        match firstHalt [privCheck c priv, readCheck c.a c.act reads, if op.returns then groupMerge c.a c.act d n else none] with
        | some x => c.halt x
        | none =>
          let sp : Space := if m.scope = .blk then .scratch else .global
          let r := checkLanes c.s c.g sp (wordSize m.w64) op.access (addrs c sp)
          let c := { c with s := r.1 }
          let l := r.2.map (bellAtomic op)
          let data := fun i => (atomData c e m.w64 i).setWidth 128
          let go := fun (p : List (Nat × BitVec 64 × Target)) =>
            let accs := accsOf p data
            if scopeAtHome m.scope || accs.any (fun x => targetAtHome x.tgt) || !accsReach c.s c.g.id.die accs || !c.clear
                || heldBytes c.s c.g.id c.s.nextOp (accs.map fun x => (x.tgt, wordSize m.w64)) then
              atomSend c op d m c.act (atomCuts c a b e m.w64) kills accs
            else atomNow c op d m c.act (atomCuts c a b e m.w64) kills accs
          match firstFail l with
          | some (.trap cause tval lane) =>
            if op.returns || decide (passing l = []) then c.halt (.trap cause tval lane)
            else failAfter c (go (passing l)) cause tval lane
          | some x => c.halt x
          | none =>
            match lostLane c.s op (passing l) with
            | some lane => c.halt (.trap cHomeLost (freeNow c.s) (BitVec.ofNat 5 lane))
            | none => go (passing l)

/-- Addresses of the active lanes. -/
def laneAddrs (c : Ctx) (sp : Space) (a b : Opnd) (off : BitVec 32) (n : Nat) : List (Nat × BitVec 64) :=
  (lanesIn c.act).map fun i => (i, laneAddr c sp a b off n i)

def regsW (m : AtomMod) : Nat := if m.w64 then 2 else 1

/-- ATOM (R281). -/
def execAtom (h : Head) (d a b e : Opnd) (off : BitVec 32) (m : AtomMod) (s : State) : Res :=
  atomOp h (fun _ => .atom m.op) d a b e [(a, 1), (b, 1), (e, regsW m)] (killsOf h (a, 1) (b, 1) (e, regsW m)) m s fun c sp =>
    laneAddrs c sp a b (storeOff e off) (wordSize m.w64)

/-- RED (R281). -/
def execRed (h : Head) (a b e : Opnd) (off : BitVec 32) (m : AtomMod) (s : State) : Res :=
  atomOp h (fun _ => .red m.op) .zero a b e [(a, 1), (b, 1), (e, regsW m)] (killsOf h (a, 1) (b, 1) (e, regsW m)) m s fun c sp =>
    laneAddrs c sp a b (storeOff e off) (wordSize m.w64)

/-- CAS: vD is its comparand (R281). -/
def execCas (h : Head) (d a b e : Opnd) (off : BitVec 32) (m : AtomMod) (s : State) : Res :=
  atomOp h (fun c => .cas ((lanesIn c.act).map fun i => (i, atomData c d m.w64 i))) d a b e
    [(d, regsW m), (a, 1), (b, 1), (e, regsW m)] (killsOf h (a, 1) (b, 1) (e, regsW m)) m s fun c sp =>
    laneAddrs c sp a b (storeOff e off) (wordSize m.w64)

/-- ALD: with a scalar D it reads once (R282). -/
def execAld (h : Head) (d a b : Opnd) (off : BitVec 32) (m : AtomMod) (s : State) : Res :=
  atomOp h (fun _ => .ald) d a b .zero [(a, 1), (b, 1)] (killsOf h (a, 1) (b, 1) (.zero, 1)) m s fun c sp =>
    match d with
    | .s _ => [(0, scalarAddr c sp a off (wordSize m.w64))]
    | _ => laneAddrs c sp a b off (wordSize m.w64)

/-- AST (R282). -/
def execAst (h : Head) (a b e : Opnd) (off : BitVec 32) (m : AtomMod) (s : State) : Res :=
  atomOp h (fun _ => .ast) .zero a b e [(a, 1), (b, 1), (e, regsW m)] (killsOf h (a, 1) (b, 1) (e, regsW m)) m s fun c sp =>
    laneAddrs c sp a b (storeOff e off) (wordSize m.w64)

/-- The time base as TIME reads it on a die (R25, R274): the die's skew is a free constant (log 148). -/
def dieTime (s : State) (die : Nat) : BitVec 64 := BitVec.ofNat 64 (dieTick s die + (Config.skew die).val)

/-- TIME (R286). -/
def execTime (h : Head) (d : Opnd) (s : State) : Res :=
  wholeOp h [] [] s fun c x => c.commit (writeScalar x d (dieTime c.s c.g.id.die))

/-! ## DCAS and AMOVE (R273, R283) -/

/-- A 64-bit field of a descriptor in a scratchpad. -/
def descField (s : State) (x : PairOp) (off : Nat) : DWord := BitVec.ofNat 64 (scratchNat s x.die x.core (x.pos + off) 8)

/-- What the instruction reads of its descriptor is poisoned: the addresses, and of DCAS the four words; reserved fields are ignored
(R283, R460). -/
def descPoison (s : State) (move : Option Bool) (w64 : Bool) (die core pos : Nat) : Bool :=
  scratchPoisoned s die core pos 16
    || (move.isNone && [16, 24, 32, 40].any fun k => scratchPoisoned s die core (pos + k) (wordSize w64))

/-- The new values of the two words and D, from their old values. -/
def pairResult (x : PairOp) (ox oy : DWord) : DWord × DWord × DWord :=
  match x.move with
  | none =>
    if ox = cutWord x.w64 x.ex ∧ oy = cutWord x.w64 x.ey then (cutWord x.w64 x.nx, cutWord x.w64 x.ny, 1#64)
    else (ox, oy, 0#64)
  | some clr => (if clr then 0#64 else ox, ox, ox)

/-- The write-back of OX and OY, a block-scope store of the words in the low half of each field. -/
def writeBack (x : PairOp) (ox oy : DWord) : PendKind :=
  let acc := fun (off : Nat) (v : DWord) =>
    { lane := 0, va := BitVec.ofNat 64 (x.pos + off), tgt := .scratch x.die x.core (x.pos + off), data := v.setWidth 128 : LaneAcc }
  .store (wordSize x.w64) [acc 48 ox, acc 56 oy] .normal

/-- A DCAS or AMOVE whose words are both at the RDC, now: in address order, indivisible (R273). -/
def pairNow (c : Ctx) (x : PairOp) (kills : Reads) : Res :=
  let n := wordSize x.w64
  let accs := [x.x, x.y].map fun t => ({ lane := 0, va := 0#64, tgt := t, data := 0#128 } : LaneAcc)
  if !twinsFit c.s c.g.id.die accs then { c with s := askRoom c.s c.g.id.die }.hold .full
  else
    let s := flushFor c.s c.g.id accs
    let rx := unitRead s c.g.id c.g.ctx .die x.x n
    let ry := unitRead rx.1 c.g.id c.g.ctx .die x.y n
    if rx.2.2 || ry.2.2 then c.halt .poison
    else
      let ox := BitVec.ofNat 64 rx.2.1
      let oy := BitVec.ofNat 64 ry.2.1
      let r := pairResult x ox oy
      let s := unitWrite ry.1 c.g.id c.s.nextOp .die x.x n r.1.toNat false
      let s := unitWrite s c.g.id c.s.nextOp .die x.y n r.2.1.toNat false
      { c with s := s }.post (writeScalar (killRegs c.a kills) x.d r.2.2) (writeBack x ox oy)

/-- Some home of the two words is lost (R322). -/
def pairLost (s : State) (x : PairOp) : Bool :=
  [x.x, x.y].any fun t => match t with
    | .mem pa _ => homeLost s (homeOf pa)
    | _ => false

/-- DCAS or AMOVE once its words are translated. -/
def pairGo (c : Ctx) (x : PairOp) (m : AtomMod) (kills : Reads) : Res :=
  let n := wordSize x.w64
  if touches x.x x.y n n then c.commit (writeScalar (killRegs c.a kills) x.d 2#64)
  else if pairLost c.s x then c.trap cHomeLost (freeNow c.s)
  else if scopeAtHome m.scope || targetAtHome x.x || targetAtHome x.y || !targetReach c.s c.g.id.die x.x || !targetReach c.s c.g.id.die x.y
      || !c.clear || heldBytes c.s c.g.id c.s.nextOp [(x.x, n), (x.y, n)] then
    c.send (groupOpnds x.d 1) kills (.dcas x)
  else pairNow c x kills

/-- The shape of DCAS and AMOVE (R283): the descriptor, the two words, their overlap. The gang's older stores to the
descriptor are performed first (R262). -/
def pairOp (h : Head) (d a : Opnd) (off : BitVec 32) (m : AtomMod) (move : Option Bool) (s : State) : Res :=
  issue s h.guard fun c =>
    if c.g.st ≥ counterMax then c.hold .full
    else
      match deadCheck c.a (single [a]) with
      | some x => c.halt x
      | none =>
        let kills := headKills h a .zero .zero
        if c.act = 0#32 then c.commit (killRegs c.a kills)
        else
          match firstHalt [privCheck c [a], wordCheck c.a [a]] with
          | some x => c.halt x
          | none =>
            let va := scalarAddr c .scratch a off 64
            match (spaceTarget c.s c.g .scratch va 64 .rmw).2 with
            | .inr (.scratch die core pos) =>
              if heldBytes c.s c.g.id c.s.nextOp [(.scratch die core pos, 64)] then c.hold .order
              else if descPoison c.s move m.w64 die core pos then c.halt .poison
              else
                let n := wordSize m.w64
                let b : PairOp := { d := d, w64 := m.w64, scope := m.scope, move := move, x := .bell 0, y := .bell 0, ex := 0#64, ey := 0#64,
                                    nx := 0#64, ny := 0#64, die := die, core := core, pos := pos }
                let f := descField c.s b
                let ax := alignTo (f 0) n
                let ay := alignTo (f 8) n
                if ax = ay then c.commit (writeScalar (killRegs c.a kills) d 2#64)
                else
                  let r := checkLanes c.s c.g .global n .rmw [(0, ax), (0, ay)]
                  let l := r.2.map (bellAtomic (.atom .exch))
                  let c := { c with s := r.1 }
                  match firstFail l, passing l with
                  | some y, _ => c.halt y
                  | none, [tx, ty] =>
                    pairGo c { b with x := tx.2.2, y := ty.2.2, ex := f 16, ey := f 24, nx := f 32, ny := f 40 } m kills
                  | none, _ => c.trap cProtection va
            | _ => c.trap cProtection va

/-- DCAS (R283). -/
def execDcas (h : Head) (d a : Opnd) (off : BitVec 32) (m : AtomMod) (s : State) : Res := pairOp h d a off m none s

/-- AMOVE: OP 1 is MOVECLR (R283). -/
def execAmove (h : Head) (d a : Opnd) (off : BitVec 32) (m : AtomMod) (s : State) : Res :=
  pairOp h d a off m (some (decide (m.op ≠ .add))) s

/-! ## STORE_PERFORMED (R247, R278) -/

/-- Perform a store's bytes where its target lies: a normal page through L1 (R259), a host-biased page or this device's own
memory reached as a remote page at its home (R315, R316), a scratchpad, a bell (R481). -/
def writeTarget (s : State) (p : Pend) (pol : Policy) (t : Target) (n x : Nat) : State :=
  match t with
  | .mem pa true => performHome s pa (bytesOfNat n x) []
  | .mem pa false => noteWrote (storeL1 s p.gang p.op pa n x pol) p.gang p.op pa n
  | .scratch d c pos => scratchWrite s d c pos (bytesOfNat n x)
  | .bell off => bellStore s p.ctx off n x
  | .remote d a => if d = s.admin.devid.toNat then performHome s a (bytesOfNat n x) [] else s
  | .away _ => s

/-- Perform lanes in ascending order, so that the highest of several on one byte supplies it (R263). -/
def writeAll (s : State) (p : Pend) (pol : Policy) (n : Nat) : List LaneAcc → State
  | [] => s
  | x :: rest => writeAll (writeTarget s p pol x.tgt n (x.data.toNat % 256 ^ n)) p pol n rest

/-- Poisoned words of an image, by offset. -/
def poisonScratch (s : State) (die core pos : Nat) (offs : List Nat) : State :=
  modCore s die core fun c => { c with scratchPoison := c.scratchPoison ++ offs.map fun o => (pos + o) / 4 }

/-! ### The tile that MSTT updates (13_matrix R363) -/

/-- Byte b of row r of a tile lies at this place among its element bytes (R333). -/
def tilePlace (r b : Nat) : Nat := 64 * r + 16 * ((b / 16) ^^^ (r % 4)) + b % 16

/-- The header of a tile (R333). -/
def tileHeader (role sparse crcv scalesv : Bool) (fmt cb : Nat) (crc : BitVec 32) : List Byte :=
  let bit := fun (b : Bool) (k : Nat) => if b then 2 ^ k else 0
  BitVec.ofNat 8 (bit role 7 + bit sparse 6 + bit crcv 5 + bit scalesv 4 + fmt % 16) :: BitVec.ofNat 8 (cb % 8)
    :: (0#8 :: 0#8 :: bytesOfNat 4 crc.toNat) ++ List.replicate 56 0#8

/-- What MSTT hands to the scratchpad: FMT, ROLE, CH, bytes of a row's chunk, then each row's chunk. -/
def tileField (l : List Byte) (n : Nat) : Nat := (l.getD n 0#8).toNat

/-- The byte of row r, K-run byte b lies in the chunk stored, and its new value. -/
def tileNew (l : List Byte) (r b : Nat) : Option Byte :=
  let n := tileField l 3
  if b / n = tileField l 2 then l[4 + n * r + b % n]? else none

/-- The tile after MSTT's update (R363). -/
def tileUpdate (old l : List Byte) : List Byte :=
  let n := tileField l 3
  let elems := (List.range 2048).map fun k =>
    let r := k / 64
    let b := 16 * ((k % 64 / 16) ^^^ (r % 4)) + k % 16
    match tileNew l r b with
    | some x => x
    | none => old.getD (64 + k) 0#8
  let plane := fun (base : Nat) => (List.range 128).map fun k =>
    if k % 4 = tileField l 2 ∨ 64 / n ≤ k % 4 then 0x7F#8 else old.getD (base + k) 0#8
  tileHeader (decide (tileField l 1 = 1)) false true false (tileField l 0) 0 (crc32c elems) ++ elems ++ plane 2112 ++ plane 2240
    ++ List.replicate 192 0#8

/-- A word that keeps old bytes of the tile, and is read for the checksum, is poisoned (R363, R460). -/
def tilePoisoned (s : State) (die core pos : Nat) (l : List Byte) : Bool :=
  (List.range 512).any fun w =>
    let k := 4 * w
    (tileNew l (k / 64) (16 * ((k % 64 / 16) ^^^ (k / 64 % 4)) + k % 16)).isNone && scratchPoisoned s die core (pos + 64 + k) 4

/-- The stores that are performed at a home or another device reach it; a normal page's are performed at L1 (R247). -/
def accsStored (s : State) (die : Nat) (l : List LaneAcc) : Bool :=
  l.all fun x => match x.tgt with
    | .mem _ false => true
    | t => targetReach s die t

/-- STORE_PERFORMED: an older instruction of the gang can no longer trap and its older accesses to the bytes are over (R97,
R262); the store is performed and st falls. An NT store or a channel store leaves the core (R438). Of the orders that R262 allows between the
bytes of one store, the model performs all of them in one step (DESIGN CHOICE, log 165). -/
def execStorePerformed (op : Nat) (s : State) : Res :=
  match findPend s op with
  | none => idle s
  | some p =>
    if olderRisk s p.gang p.op || pendHeld s p then idle s
    else
      match p.kind with
      | .store n accs pol =>
        if accsStored s p.gang.die accs && !lateReply s p then .next (dropPend (writeAll s p pol n accs) p) else idle s
      | .image false die core pos bytes psn => .next (dropPend (poisonScratch (scratchWrite s die core pos bytes) die core pos psn) p)
      | .image true die core pos bytes _ =>
        if leaveAsked s p.gang.die (isPendLeave op) then idle s
        else if tilePoisoned s die core pos bytes then .next (pendKill s p)
        else
          let s := modCore s p.gang.die p.gang.core fun c => { c with matIdle := s.tick }
          .next (dropPend (scratchWrite s die core pos (tileUpdate (scratchBytes s die core pos 2560) bytes)) p)
      | .home h d w64 sc act accs cuts true =>
        .next (wakeOrder (recount (modPend s op fun q => { q with kind := .home h d w64 sc act accs cuts false }) p.gang) p.gang)
      | _ => idle s

/-! ## HOME_PERFORMED_WRITE (R300, R313) -/

/-- An NT store or a channel store waits for the gang's stores to its own bytes only; any other access at a home for those to its
sheet (R265, R300; log 60). -/
def HomeOp.ownBytes : HomeOp → Bool
  | .nt _ | .channel _ _ => true
  | _ => false

/-- Bytes that an access of a gang names at a home. -/
def HomeOp.size (h : HomeOp) (w64 : Bool) : Nat :=
  match h with
  | .nt n => n
  | _ => wordSize w64

/-- A store that the gang made before the access, to its sheet or to `n` bytes of its own, is not released yet (R262, R300). -/
def unreleased (s : State) (id : GangId) (op : Nat) (own : Bool) (pa n : Nat) : Bool :=
  s.wrote.any fun w => decide (w.gang = id) && decide (w.op < op) && decide (w.sheet = pa / 256)
    && (!own || decide (w.bytes &&& byteSpan 256 (pa % 256) n ≠ 0#256))

/-- An earlier store of the gang to the access's sheet is not performed, or not released (R300). -/
def sheetHeld (s : State) (id : GangId) (op : Nat) (own : Bool) (pa n : Nat) : Bool :=
  unreleased s id op own pa n
    || !own && s.pend.any fun p => decide (p.gang = id) && decide (p.op < op) && p.kind.writes && p.kind.bytes.any fun b => match b.1 with
      | .mem a false => decide (a / 256 = pa / 256)
      | _ => false

/-- Physical addresses of the lanes that a home performs. -/
def homeAddrs (sc : Scope) (accs : List LaneAcc) : List Nat :=
  accs.filterMap fun x => match x.tgt with
    | .mem pa hb => if hb || scopeAtHome sc then some pa else none
    | _ => none

/-- The access waits for the gang's earlier stores (R262, R300). -/
def homeHeld (s : State) (p : Pend) (h : HomeOp) (w64 : Bool) (sc : Scope) (accs : List LaneAcc) : Bool :=
  (homeAddrs sc accs).any fun pa => sheetHeld s p.gang p.op h.ownBytes pa (h.size w64)

/-- Before an access at a home the die flushes the sheets that its gang has written and asks for an early round of them (R300), or,
when the twin store is full, for room in it (R299). -/
def prepareSheets (s : State) (p : Pend) (h : HomeOp) (w64 : Bool) (pas : List Nat) : State :=
  let l := (pas.filter fun pa => unreleased s p.gang p.op h.ownBytes pa (h.size w64)).map fun pa => pa / 256
  if l = [] then s
  else
    let cl := clusterOf p.gang.core
    let s := flushCluster (drainLines s p.gang.die p.gang.core fun k => l.contains (k / 2)) p.gang.die cl fun k => l.contains (k / 2)
    let s := if clusterClean s p.gang.die cl (fun k => l.contains (k / 2)) then s else askRoom s p.gang.die
    askEarly s p.gang.die l

/-- NT stores and REDs, which DRAIN waits for (R285). -/
def HomeOp.drained : HomeOp → Bool
  | .red _ | .nt _ => true
  | _ => false

/-- Perform one lane at its home, which the gang has then touched, unless by ALD (R302): the new value replaces the old one there, is recorded for a DRAIN and the gang's later
accesses, and is sent to the issuing die (R265, R313, R314). The old value comes back. -/
def homePerform (s : State) (p : Pend) (h : HomeOp) (w64 : Bool) (x : LaneAcc) (pa : Nat) : State × Nat × Bool :=
  let n := h.size w64
  let old := homeNat s pa n
  let psn := homePoisoned s pa
  let data := x.data.toNat % 256 ^ n
  let new : Option Nat := match h with
    | .nt _ | .channel _ _ => some data
    | _ => (homeOpNew h w64 x.lane (BitVec.ofNat 64 old) (BitVec.ofNat 64 data)).map BitVec.toNat
  let s := if h = .ald then s else touchHome s p.gang (homeOf pa)
  match new with
  | none => (s, old, psn)
  | some v =>
    let s := performHome s pa (bytesOfNat n v) [p.op]
    let s := if s.unfolded.any (fun u => u.ops.contains p.op) then
        { s with nts := s.nts ++ [{ op := p.op, gang := p.gang, drained := h.drained, accs := [(pa, n)], chan := match h with
          | .channel b ch => some (b, ch)
          | _ => none }] }
      else s
    let s := match h with
      | .atom _ | .red _ | .cas _ =>
        { s with msgs := s.msgs ++ [.atomicValue (homeOf pa) p.gang.die p.gang.core pa n (BitVec.ofNat 64 v) s.nextUid],
                 nextUid := s.nextUid + 1 }
      | _ => s
    (s, old, psn)

/-- Perform one lane of an access that is sent: at its home, on the bell page, at another device (whose memory is outside
this state), or, for a lane of a narrower scope on a normal page, at its unit on the die. -/
def sentLane (s : State) (p : Pend) (h : HomeOp) (w64 : Bool) (sc : Scope) (x : LaneAcc) : State × Nat × Bool :=
  match x.tgt with
  | .mem pa hb => if hb || scopeAtHome sc then homePerform s p h w64 x pa else unitPerform s p.gang p.op p.ctx h w64 sc x
  | .bell off => (match h with
    | .ast => bellStore s p.ctx off (wordSize w64) (x.data.toNat % 256 ^ wordSize w64)
    | .nt n => bellStore s p.ctx off n (x.data.toNat % 256 ^ n)
    | _ => s, 0, false)
  | .remote d a => if d = s.admin.devid.toNat then homePerform s p h w64 x a else (s, outsideNat s d a (wordSize w64), false)
  | .away _ => (s, 0, false)
  | .scratch _ _ _ => unitPerform s p.gang p.op p.ctx h w64 .blk x

/-- Perform lanes in ascending order. -/
def sentAll (s : State) (p : Pend) (h : HomeOp) (w64 : Bool) (sc : Scope) : List LaneAcc → State × List (Nat × Nat × Bool)
  | [] => (s, [])
  | x :: rest =>
    let r := sentLane s p h w64 sc x
    let t := sentAll r.1 p h w64 sc rest
    (t.1, (x.lane, r.2) :: t.2)

/-! ### Reduction windows (17_link R429, R430) -/

/-- Domain address of an HBM byte of this device, or of a byte of another (R290). -/
def domainAddr (s : State) : Target → Option Nat
  | .mem pa _ => if paRegion pa = 0 then some (s.admin.devid.toNat * 2 ^ 44 + pa) else none
  | .remote d a => some (d * 2 ^ 44 + a)
  | _ => none

/-- The window registers of R429. -/
def winBase (w : BitVec 192) : Nat := (w.extractLsb' 0 64).toNat
def winLimit (w : BitVec 192) : Nat := (w.extractLsb' 64 64).toNat
def winCount (w : BitVec 192) : Nat := (w.extractLsb' 128 24).toNat
def winEnable (w : BitVec 192) : Bool := w.getLsbD 160

/-- The enabled window that a domain address lies in, as a contribution carries it (R429). -/
def windowOf (s : State) (a : Nat) : Option RedWin :=
  ((List.range 8).map fun j =>
    let w := s.rwins.get (Fin.ofNat 8 j)
    (winEnable w, ({ index := j, base := winBase w, limit := winLimit w, count := winCount w } : RedWin))).findSome? fun x =>
      if x.1 && decide (x.2.base ≤ a) && decide (a < x.2.limit) then some x.2 else none

/-- The round that a contribution to a word would join: one that carries the same four values, is not complete, and is not to be
delivered as it is, 65,536 ticks after its first contribution (R429, R430). -/
def openRound (s : State) (r : RedRound) (win : RedWin) (a : Nat) : Bool :=
  decide (r.addr = a) && decide (r.win = win) && decide (r.parts.length < win.count) && decide (s.tick < r.first + requestLimit)

/-- A contribution joins the round of its word or begins one; none when COUNT is 0, or its OP differs from the round's, so that it
is delivered on its own (R430). -/
def joinRound (s : State) (win : RedWin) (a : Nat) (op : AOp) (w64 : Bool) (v : DWord) (src : Option (GangId × Nat)) : Option State :=
  if win.count = 0 then none
  else match s.redRounds.find? fun r => openRound s r win a with
    | some r =>
      if r.op = op ∧ r.w64 = w64 then
        some { s with redRounds := s.redRounds.map fun x => if x.id = r.id then { x with parts := x.parts ++ [(v, src)] } else x }
      else none
    | none =>
      some { s with nextUid := s.nextUid + 1, redRounds := s.redRounds ++
        [{ id := s.nextUid, addr := a, win := win, op := op, w64 := w64, parts := [(v, src)], first := s.tick }] }

/-- A lane of a RED at domain scope that contributes to a round: the state once it has. -/
def redWindow (s : State) (p : Pend) (h : HomeOp) (w64 : Bool) (sc : Scope) (x : LaneAcc) : Option State :=
  match h with
  | .red op =>
    if sc ≠ .dom then none
    else
      match domainAddr s x.tgt with
      | none => none
      | some a =>
        match windowOf s a with
        | none => none
        | some win => joinRound s win a op w64 (cutWord w64 (x.data.setWidth 64)) (some (p.gang, p.op))
  | _ => none

/-- The words of a DCAS or AMOVE as accesses. -/
def PairOp.accs (x : PairOp) : List LaneAcc := [x.x, x.y].map fun t => { lane := 0, va := 0#64, tgt := t, data := 0#128 }

/-- DCAS or AMOVE that is sent: each word is held by the unit of its scope and page until both are written, so one step performs them
(R273). -/
def pairPerform (s : State) (p : Pend) (x : PairOp) : State :=
  let acc := fun (t : Target) (v : DWord) => ({ lane := 0, va := 0#64, tgt := t, data := v.setWidth 128 } : LaneAcc)
  let rx := sentLane s p .ald x.w64 x.scope (acc x.x 0#64)
  let ry := sentLane rx.1 p .ald x.w64 x.scope (acc x.y 0#64)
  if rx.2.2 || ry.2.2 then pendKill s p
  else
    let ox := BitVec.ofNat 64 rx.2.1
    let oy := BitVec.ofNat 64 ry.2.1
    let r := pairResult x ox oy
    let s := (sentLane ry.1 p (.atom .exch) x.w64 x.scope (acc x.x r.1)).1
    let s := (sentLane s p (.atom .exch) x.w64 x.scope (acc x.y r.2.1)).1
    match findGang s p.gang with
    | none => dropPend s p
    | some _ =>
      let s := commitPend s p fun _ a => writeScalar a x.d r.2.2
      recount { s with pend := s.pend ++ [{ p with kills := [], dsts := [], kind := writeBack x ox oy }] } p.gang

/-- What a posted access is for the instructions that wait for it (R266, R285). -/
def PendKind.postClass : PendKind → PostClass
  | .home (.red _) _ _ _ _ _ _ _ => .red
  | .home (.nt _) _ _ _ _ _ _ _ => .nt
  | .home (.channel _ _) _ _ _ _ _ _ _ => .channel
  | _ => .store

/-- A fault that a posted access has met: the gang's first later instruction that waits for it raises it (R276). -/
def postFault (s : State) (p : Pend) (cause : BitVec 8) (tval : BitVec 64) : State :=
  modGang s p.gang fun g => { g with posted := g.posted ++ [{ op := p.op, cls := p.kind.postClass, cause := cause, tval := tval }] }

/-- Perform one lane of an access that is sent: a RED in an enabled window as a contribution to its round (R429), any other at its
unit. -/
def roundOrSent (s : State) (p : Pend) (h : HomeOp) (w64 : Bool) (sc : Scope) (x : LaneAcc) : State :=
  match redWindow s p h w64 sc x with
  | some s' => s'
  | none => (sentLane s p h w64 sc x).1

/-- A lane's home is lost (R322). -/
def lostTarget (s : State) : Target → Bool
  | .mem pa _ => homeLost s (homeOf pa)
  | _ => false

/-- Lanes of an access that is sent reach their units: those of a scope below the home on a normal page the RDC, others their homes. -/
def sentReach (s : State) (die : Nat) (sc : Scope) (l : List LaneAcc) : Bool :=
  if scopeAtHome sc then accsHome s die l else accsReach s die l

/-- Lanes that a sent access of die scope performs at the RDC. -/
def rdcLanes (sc : Scope) (l : List LaneAcc) : List LaneAcc :=
  if sc = .die then l.filter fun x => match x.tgt with
    | .mem _ hb => !hb
    | _ => false
  else []

/-- The lanes at the RDC are performed by `k` once their lines are flushed (R479) and their twins have room (R299). -/
def withRdcLanes (s : State) (id : GangId) (sc : Scope) (l : List LaneAcc) (k : State → Res) : Res :=
  if twinsFit s id.die (rdcLanes sc l) then k (flushFor s id (rdcLanes sc l)) else .next (askRoom s id.die)

/-- HOME_PERFORMED_WRITE: an access arrives at its home once R300 lets it, and is performed there. An atomic with a result
performs its lanes and commits; RED, AST and an NT store perform their lowest lane that is left. What finds a lost home raises HOME_LOST
by R322, though R276 has it arise at a FENCE only (log 164). -/
def execHomePerformedWrite (op : Nat) (s : State) : Res :=
  match findPend s op with
  | none => idle s
  | some p =>
    if olderRisk s p.gang p.op || pendHeld s p then idle s
    else
      match p.kind with
      | .home h d w64 sc act accs cuts counted =>
        if h.inChannel || !sentReach s p.gang.die sc accs || lateReply s p then idle s
        else if homeHeld s p h w64 sc accs then .next (prepareSheets s p h w64 (homeAddrs sc accs))
        else withRdcLanes s p.gang sc accs fun s =>
        if h.returns then
          if decide (h ≠ .ald) && accs.any (fun x => lostTarget s x.tgt) then
            .next (preciseTrap s p cHomeLost (freeNow s) 0#5)
          else
          let r := sentAll s p h w64 sc accs
          let isScalar := match d with
            | .s _ => true
            | _ => false
          let w := atomWrite d w64 act cuts r.2
          match findGang s p.gang with
          | none => .next (dropPend r.1 p)
          | some g =>
            match slotExcess s g (w g.arch (killRegs g.arch (single p.kills))) with
            | some n => .next (preciseTrap s p cRunOverflow (BitVec.ofNat 64 n) 0#5)
            | none =>
              if isScalar && r.2.any (fun x => x.2.2) then .next (pendKill r.1 p) else .next (commitPend r.1 p w)
        else
          match accs with
          | [] => .next (dropPend s p)
          | x :: rest =>
            let s := if lostTarget s x.tgt then postFault s p cHomeLost (freeNow s) else roundOrSent s p h w64 sc x
            if rest = [] then .next (dropPend s p)
            else .next (modPend s op fun q => { q with kind := .home h d w64 sc act rest cuts counted })
      | .dcas x =>
        let pas := homeAddrs x.scope x.accs
        if !sentReach s p.gang.die x.scope x.accs || lateReply s p then idle s
        else if x.accs.any fun a => lostTarget s a.tgt then .next (preciseTrap s p cHomeLost (freeNow s) 0#5)
        else if homeHeld s p (.atom .exch) x.w64 x.scope x.accs then .next (prepareSheets s p (.atom .exch) x.w64 pas)
        else withRdcLanes s p.gang x.scope x.accs fun s => .next (pairPerform s p x)
      | _ => idle s

/-! ## ATOMIC_VALUE_RETURN (R314) -/

/-- Write a 32-bit word of a home's new value into the issuing die's sheet, by the sheet's state (R314). -/
def returnWord (s : State) (die core pa : Nat) (v : Word) : State :=
  match findSheet (getDie s die) (pa / 256) with
  | none => s
  | some x =>
    if !x.held.getLsbD (pa / 128 % 2) then s
    else
      let m : BitVec 256 := byteSpan 256 (pa % 256) 4
      let d := lineOf 2048 (pa % 256) v.toNat
      match x.state with
      | .clean =>
        dropCopies (putSheet s die ({ x with work := overlay m d x.work }.delay s.tick m)) die core (pa / 128)
      | .twinned =>
        let same := decide (lineNat x.work (pa % 256) 4 = lineNat x.twin (pa % 256) 4)
        let x := { x with twin := overlay m d x.twin }
        if same then
          dropCopies (putSheet s die ({ x with work := overlay m d x.work }.delay s.tick m)) die core (pa / 128)
        else putSheet s die x
      | .releasing => s

/-- The words of a value, each on its own (R309, R314). -/
def returnValue (s : State) (die core pa n : Nat) (v : DWord) : State :=
  (List.range (n / 4)).foldl (fun s k => returnWord s die core (pa + 4 * k) (v.extractLsb' (32 * k) 32)) s

/-- The first value on its way from a home to a die with its place in their order, and the other messages. -/
def takeValue (home die : Nat) : List Msg → Option ((Nat × Nat × Nat × DWord × Nat) × List Msg)
  | [] => none
  | .atomicValue h d core a n v q :: rest =>
    if h = home ∧ d = die then some ((core, a, n, v, q), rest)
    else (takeValue home die rest).map fun r => (r.1, .atomicValue h d core a n v q :: r.2)
  | m :: rest => (takeValue home die rest).map fun r => (r.1, m :: r.2)

/-- What a home sends a die arrives in the order sent: an older block or fold-in has been applied (R306, R314). -/
def valueNext (s : State) (home die q : Nat) : Bool :=
  s.fwds.all fun f => decide (f.home ≠ home) || decide (f.die ≠ die) || decide (q < f.seq) || decide (f.stage = .applied)

/-- ATOMIC_VALUE_RETURN: the oldest value that a home has sent a die arrives. -/
def execAtomicValueReturn (die home : Nat) (s : State) : Res :=
  match takeValue home die s.msgs with
  | none => idle s
  | some ((core, a, n, v, q), rest) =>
    if valueNext s home die q && homeReach s die home then .next (returnValue { s with msgs := rest } die core a n v) else idle s

end Sys2Proof.Machine
end

