-- ==== Sys2Proof/Machine/Fetch.lean ====
section
/-!
DEFINITION. The fetch path (14_kernel R379, R380, R384): the instruction caches, the fetch buffer, the step
INSTRUCTION_FETCH_FILL, and FETCHB.
-/
namespace Sys2Proof.Machine

/-- The word at a code offset: in hand, a line that the instruction cache does not hold, or the trap that the slot raises when
it would issue. -/
inductive Fetched where
  | word (w : IWord)
  | miss (va : BitVec 64)
  | trap (cause : BitVec 8) (tval : BitVec 64)
  deriving DecidableEq, Repr

/-- Lines of an instruction cache: 64 KiB (R379). -/
def icacheLines : Nat := 512

def findILine (c : CoreSt) (ctx line : Nat) : Option ILine := c.icache.find? fun l => decide (l.ctx = ctx) && decide (l.line = line)

/-- A byte of code in the instruction cache. -/
def icacheByte (c : CoreSt) (ctx va : Nat) : Option Byte :=
  (findILine c ctx (va / 128)).map fun l => l.data.extractLsb' (8 * (va % 128)) 8

/-- The address of the first byte of a word that the cache lacks. -/
def firstMiss (c : CoreSt) (ctx : Nat) (va : BitVec 64) : Option (BitVec 64) :=
  if (icacheByte c ctx va.toNat).isNone then some va
  else if (icacheByte c ctx (va + 11#64).toNat).isNone then some (va + 11#64)
  else none

/-- The 12 bytes of a word from the cache. -/
def icacheWord (c : CoreSt) (ctx : Nat) (va : BitVec 64) : IWord :=
  wordOfBytes ((List.range 12).map fun k => match icacheByte c ctx (va + BitVec.ofNat 64 k).toNat with
    | some b => b
    | none => 0#8)

/-- Fetch for a slot's PC: from the fetch buffer, else past the end of the code, else through the instruction cache (R379, R380). -/
def fetchLook (s : State) (g : Gang) (pc : BitVec 32) : Fetched :=
  match g.fetch.find? fun f => decide (f.1 = pc) with
  | some f => .word f.2
  | none =>
    match gangKernel s g with
    | none => .trap cMisaligned (pc.setWidth 64)
    | some k =>
      if pc.toNat ≥ 12 * k.ninstr then .trap cMisaligned (pc.setWidth 64)
      else
        let va := k.code + pc.setWidth 64
        let core := getCore s g.id.die g.id.core
        match firstMiss core g.ctx va with
        | none => .word (icacheWord core g.ctx va)
        | some x =>
          match (translate s g.id.die g.ctx x 1 .fetch).2 with
          | .inl cause => .trap cause va
          | .inr _ => .miss x

/-- The fetch buffer with a word: 16 words, the oldest replaced (R380). -/
def bufferWord (g : Gang) (pc : BitVec 32) (w : IWord) : Gang :=
  if g.fetch.any fun f => decide (f.1 = pc) then g else { g with fetch := (if g.fetch.length ≥ 16 then g.fetch.drop 1 else g.fetch) ++ [(pc, w)] }

/-- A line of code from where it lies: through the cluster cache, or at its home (R379). -/
def codeLine (s : State) (g : Gang) (t : Target) : State × BitVec 1024 × BitVec 32 :=
  match t with
  | .mem pa false => clusterRead s g.id.die (clusterOf g.id.core) (pa / 128) (leaseOf s g.ctx) .normal
  | .mem pa true => (s, homeLine s (pa / 128), if homePoisoned s pa then 0xFFFFFFFF#32 else 0#32)
  | .remote d a =>
    if d = s.admin.devid.toNat then (s, homeLine s (a / 128), if homePoisoned s a then 0xFFFFFFFF#32 else 0#32)
    else (s, (List.range 16).foldl (fun x k => x ||| (((Config.freeValue s.freeCtr 3 k).setWidth 1024 : BitVec 1024) <<< (64 * k))) 0#1024, 0#32)
  | _ => (s, 0#1024, 0#32)

/-- Install a line; a full cache replaces its oldest. -/
def installLine (c : CoreSt) (l : ILine) : CoreSt :=
  let keep := c.icache.filter fun x => !(decide (x.ctx = l.ctx) && decide (x.line = l.line))
  { c with icache := (if keep.length ≥ icacheLines then keep.drop 1 else keep) ++ [l] }

/-- A code line is in the cluster cache under a lease, or can be fetched (R424). -/
def codeReach (s : State) (g : Gang) (t : Target) : Bool :=
  match t with
  | .mem pa false => lineReach s g.id.die pa
      || decide (s.tick < (lineOr (getCluster s g.id.die (clusterOf g.id.core)).lines (pa / 128)).leaseEnd)
  | t => targetReach s g.id.die t

/-- A slot whose next word lies in a line that the instruction cache lacks waits for a place that the fetch cannot reach (R426). -/
def awaitCode (s : State) (g : Gang) (va place : Nat) (x : PcSlot) (a : Arch) : Arch :=
  if (g.arch.slot x).live && decide ((g.arch.slot x).wait = .none) && (match fetchLook s g (g.arch.slot x).pc with
      | .miss y => decide (y.toNat / 128 = va / 128)
      | _ => false) then a.setWait x (.walk s.tick place) else a

/-- The fill of a line that is under way at a core. -/
def findFill (s : State) (g : Gang) (va : Nat) : Option ILine :=
  (getCore s g.id.die g.id.core).fills.find? fun l => decide (l.ctx = g.ctx) && decide (l.line = va / 128)

/-- Each 32-bit part of a line as the fill read it early, or as it is now, as a free value says (R386). -/
def mixLine (s : State) (early now : BitVec 1024) : BitVec 1024 :=
  (List.range 32).foldl (fun x k =>
    if (Config.freeValue s.freeCtr 15 k).getLsbD 0 then x
    else
      let m : BitVec 1024 := BitVec.ofNat 1024 0xFFFFFFFF <<< (32 * k)
      (x &&& ~~~m) ||| (early &&& m)) now

/-- The line of an address as a fill reads it: its parts read early, or now. -/
def fillData (s : State) (g : Gang) (va : Nat) (now : BitVec 1024) : BitVec 1024 :=
  match findFill s g va with
  | some l => mixLine s l.data now
  | none => now

def dropFill (c : CoreSt) (ctx line : Nat) : CoreSt :=
  { c with fills := c.fills.filter fun l => !(decide (l.ctx = ctx) && decide (l.line = line)) }

/-- What a fill reads: the line's target is reached and its bytes carry no poison; `k` is what becomes of them (R379). -/
def fillRead (s : State) (g : Gang) (va : Nat) (k : State → BitVec 1024 → State) : Res :=
  let r := translate s g.id.die g.ctx (BitVec.ofNat 64 (va / 128 * 128)) 1 .fetch
  match r.2 with
  | .inl _ => idle s
  | .inr t =>
    if !codeReach r.1 g t then
      .next (putGang s { g with arch := awaitCode s g va (targetPlace s t) .a (awaitCode s g va (targetPlace s t) .b g.arch) })
    else
      let l := codeLine r.1 g t
      .next (if l.2.2 ≠ 0#32 then poisonKill l.1 g else k l.1 l.2.1)

/-- INSTRUCTION_FETCH_FILL: the line of an address is read and installed; poisoned bytes kill the gang (R379). -/
def execInstructionFetchFill (id : GangId) (va : Nat) (s : State) : Res :=
  match findGang s id with
  | none => idle s
  | some g => fillRead s g va fun t x =>
      modCore t id.die id.core fun c => installLine (dropFill c g.ctx (va / 128)) { ctx := g.ctx, line := va / 128, data := fillData s g va x }

/-- A fill reads a line early, and reads the rest of it when it ends: each part is then a value that it has held (R386). -/
def beginFill (id : GangId) (va : Nat) (s : State) : Res :=
  match findGang s id with
  | none => idle s
  | some g => fillRead s g va fun t x =>
      modCore t id.die id.core fun c =>
        let c := dropFill c g.ctx (va / 128)
        { c with fills := c.fills ++ [{ ctx := g.ctx, line := va / 128, data := fillData s g va x }] }

/-- A word leaves a gang's fetch buffer, and is fetched again through the instruction cache: which words the buffer keeps beside the word in
hand is not stated (R380, R386). -/
def dropWord (s : State) (id : GangId) (pc : BitVec 32) : State :=
  modGang s id fun g => { g with fetch := g.fetch.filter fun f => decide (f.1 ≠ pc) }

/-- FETCHB: the fetch buffer is discarded when some lane is active (R384, R51). -/
def execFetchb (h : Head) (s : State) : Res :=
  issue s h.guard fun c =>
    if c.act = 0#32 then c.commit c.a else { c with g := { c.g with fetch := [] } }.commit c.a

end Sys2Proof.Machine
end

