-- ==== Sys2Proof/Machine/Issue.lean ====
section
/-!
DEFINITION. Issue (08_group R209; 03_encoding R60, R78-R80; 16_context R410): which (gang, slot) pairs are ready, which of them
a scheduler takes, the scoreboard, and what an issue itself changes.
-/
namespace Sys2Proof.Machine

/-! ## Gang start (R84, R95, R120, R199) -/

/-- The architectural state of a gang as it starts at an entry offset. -/
def startArch (entry : BitVec 32) (stamp : Nat) : Arch :=
  { v := Vector.replicate 64 none, s := Vector.replicate 64 none, p := Vector.replicate 7 0#32, sPoison := 0#64, pPoison := 0#8, flags := 0#8, fpmode := 0#10,
    nanc := 0#32, part := 5#3, gen := genReset, mode := .running,
    slotA := { live := true, pc := entry, mask := fullMask, join := none, stamp := stamp, op := 0, wait := .none }, slotB := Slot.free,
    sp := 0, stack := Vector.replicate 64 Entry.dead, kept := 0, borrowed := 0, reserved := 0, lateTaken := 0, lateFreed := 0, tcause := 0#8, tpc := 0#64,
    tval := 0#64, tlane := 0#5, tslot := .a, frame := { pc := 0#32, mask := 0#32, join := none, sp := 0 }, inTvec := false,
    trapGate := false, resume := none, gbars := 0, pipeErr := none }

/-- A gang of a block as it starts. -/
def newGang (id : GangId) (ctx block index : Nat) (dispatcher : Bool) (budget : Nat) (noborrow : Bool) (entry : BitVec 32)
    (stamp : Nat) : Gang :=
  { id := id, ctx := ctx, block := block, index := index, dispatcher := dispatcher, budget := budget, noborrow := noborrow,
    arch := startArch entry stamp, ld := 0, st := 0, cp := 0, tl := 0, leave := 0#64, stallEnd := 0, fetch := [], posted := [], fenceFault := none,
    halted := false }

/-! ## Readiness -/

/-- Loads and stores of the gang that a trap handler waits for (R410). -/
def gateOpen (s : State) (g : Gang) : Bool :=
  !g.arch.trapGate || s.pend.all fun p => decide (p.gang ≠ g.id) || !(p.kind.countsLd || p.kind.countsSt || p.kind.mayTrap)

/-- The gang's state lets the slot issue: RUNNING, or the trapping slot in TRAP (R209). -/
def modeReady (a : Arch) (x : PcSlot) : Bool :=
  match a.mode with
  | .running => true
  | .trap => decide (a.tslot = x)

/-- The slot is in no wait, or the release that it waits for is done, with a fault once no older instruction of the gang may trap, or the
home of its walk can be reached. -/
def waitOver (s : State) (id : GangId) (x : PcSlot) : Wait → Bool
  | .none => true
  | .walk _ home => placeReach s id.die home
  | .task n => match findTask s n with
    | some t => decide (t.stage = 6) && (t.fault.isNone || match begunIn s id x with
      | some p => !olderRisk s id p.op
      | none => true)
    | none => true
  | _ => false

/-- A pair is ready, its word's sources aside (R209); one that has begun an instruction goes on with it as soon as its wait is over. -/
def pairReady (s : State) (g : Gang) (x : PcSlot) : Bool :=
  !g.halted && (g.arch.slot x).live && waitOver s g.id x (g.arch.slot x).wait
    && ((begunIn s g.id x).isSome || (modeReady g.arch x && decide (g.stallEnd ≤ s.tick) && gateOpen s g))

/-- Register codes of an operand field that names up to `n` registers from it. -/
def fieldCodes (c n : Nat) : List Nat :=
  if c < 64 then (List.range n).map fun k => (c + k) % 64 else if c < 128 ∧ 0 < n then [c] else []

def slotSrcCodes : SlotSrc → List Nat
  | .v n => [n.val]
  | .s n => [64 + n.val]

/-- How many registers the D and the C field of an instruction name: groups of R59, and none where the field holds a count. -/
def fieldWidths (i : Instr) : Nat × Nat :=
  match i with
  | .ld _ _ _ _ _ m => (m.width.regs, 1)
  | .st _ _ _ _ _ m => (1, m.width.regs)
  | .atom _ _ _ _ _ _ m | .cas _ _ _ _ _ _ m => (regsW m, regsW m)
  | .ald _ _ _ _ _ m => (regsW m, 1)
  | .red _ _ _ _ _ m | .ast _ _ _ _ _ m => (1, regsW m)
  | .chst _ _ _ _ _ _ w64 => (1, if w64 then 2 else 1)
  | .mma _ _ _ _ _ _ | .mmax _ _ _ _ _ _ | .mmacb _ _ _ _ _ _ _ _ => (32, 32)
  | .mmasp _ _ _ _ _ _ _ => (32, 2)
  | .mstt _ _ _ _ _ _ => (1, 32)
  | .jmpi _ _ _ _ _ | .bari _ _ _ _ _ => (1, 0)
  | _ => (1, 1)

/-- Registers that a word reads or writes. -/
def wordCodes (w : IWord) (i : Instr) : List Nat :=
  match i with
  | .pair x y => x.d.val :: y.d.val :: (slotSrcCodes x.a ++ slotSrcCodes x.b ++ slotSrcCodes y.a ++ slotSrcCodes y.b)
  | _ =>
    let r := rawOfWord w
    fieldCodes r.d.toNat (fieldWidths i).1 ++ fieldCodes r.a.toNat 1 ++ fieldCodes r.b.toNat 1 ++ fieldCodes r.c.toNat (fieldWidths i).2

/-- MCBLD holds its PC slot until the codebook slot is written (R362). -/
def holdsSlot (x : PcSlot) (p : Pend) : Bool :=
  match p.kind with
  | .mat (.mcbld _ _ _) _ _ _ => decide (p.slot = x)
  | _ => false

/-- What an instruction that waits in its slot still owes. -/
def waitOwes : Wait → List Opnd
  | .sleep _ r | .barw _ _ _ _ r | .gbarRelease _ _ r | .gbar _ r | .limits _ _ _ _ r | .tagw _ _ r => r.d :: r.kills
  | _ => []

/-- Registers that an issued instruction of the gang will still write or mark dead: of a pending access, or of an instruction that
waits in the other slot. -/
def owedCodes (s : State) (g : Gang) (x : PcSlot) : List Nat :=
  codesOf (waitOwes (g.arch.slot (otherSlot x)).wait) ++ (s.pend.filter fun p => decide (p.gang = g.id)).flatMap fun p => p.dsts

/-- SWR of sr.nanc follows in issue order the NZ counts of older matrix instructions (R177, R364). -/
def nancHeld (s : State) (id : GangId) (i : Instr) : Bool :=
  match i with
  | .swr _ (.sr .nanc) _ => s.pend.any fun p => decide (p.gang = id) && match p.kind with
    | .mat _ false _ _ => true
    | _ => false
  | _ => false

/-- An issued instruction of the gang will still write, or mark dead, a register of the word (R60, R91, R93). -/
def interlocked (s : State) (g : Gang) (x : PcSlot) (w : IWord) (i : Instr) : Bool :=
  let l := wordCodes w i
  gangLeave s g.id || nancHeld s g.id i || (owedCodes s g x).any (fun c => l.contains c)
    || s.pend.any fun p => decide (p.gang = g.id) && holdsSlot x p

/-- Ready pairs of the machine. -/
def readyPairs (s : State) : List (Gang × PcSlot) :=
  s.gangs.flatMap fun g => [(g, PcSlot.a), (g, PcSlot.b)].filter fun x => pairReady s g x.2

/-- The memory is that of the scheduler of a gang place. -/
def SchedSt.serves (c : SchedSt) (id : GangId) : Bool := decide (c.die = id.die) && decide (c.core = id.core) && decide (c.sched = id.sched)

/-- A scheduler issued a gang in TRAP in the previous cycle or in this one (R209); a cycle is taken as a tick here (log 8). -/
def prevTrap (s : State) (id : GangId) : Bool :=
  s.scheds.any fun c => c.serves id && match c.prevTrap with
    | some t => decide (s.tick ≤ t + 1)
    | none => false

/-- A scheduler has issued no word in this cycle (R209; log 8). -/
def schedFree (s : State) (id : GangId) : Bool := s.scheds.all fun c => !c.serves id || decide (c.last < s.tick)

/-- The order of R209 between two ready pairs of a scheduler. -/
def pairBefore (x y : Gang × PcSlot) : Bool :=
  let pri := fun (z : Gang × PcSlot) => if z.1.arch.mode = .trap then 0 else 1
  let key := fun (z : Gang × PcSlot) => [pri z, (z.1.arch.slot z.2).stamp, z.1.id.place, slotNum z.2]
  decide (List.lt (key x) (key y))

/-- A pair may issue by the scheduler's rule: one in TRAP not in the cycle after such a pair, even when no other is ready (R209). -/
def turnReady (s : State) (x : Gang × PcSlot) : Bool := decide (x.1.arch.mode ≠ .trap) || !prevTrap s x.1.id

def bestPair : List (Gang × PcSlot) → Option (Gang × PcSlot)
  | [] => none
  | x :: rest =>
    match bestPair rest with
    | none => some x
    | some y => if pairBefore y x then some y else some x

/-- Note when a scheduler has issued a word, and one of a gang in TRAP. -/
def noteSched (s : State) (g : Gang) : State :=
  let old := (s.scheds.find? fun c => c.serves g.id).bind fun c => c.prevTrap
  { s with scheds := s.scheds.filter (fun c => !c.serves g.id) ++
      [{ die := g.id.die, core := g.id.core, sched := g.id.sched, last := s.tick,
         prevTrap := if g.arch.mode = .trap then some s.tick else old }] }

/-- STALL and YLD of a word; a pair word has neither (R60, R74). -/
def hintsOf (w : IWord) : Nat × Bool :=
  let r := rawOfWord w
  if r.opc = 0xFF#8 then (0, false) else (r.stall.toNat, decide (r.yld = 1#1))

/-- What an issue changes whatever the instruction does: the issuing pair, its age stamp, the stall, the fetch buffer and the
operation number. -/
def beginIssue (s : State) (g : Gang) (x : PcSlot) (w : IWord) : State :=
  let h := hintsOf w
  let g := bufferWord g (g.arch.slot x).pc w
  let stamp := if h.2 then s.tick + 1 else s.tick
  let g := { g with stallEnd := s.tick + h.1, arch := g.arch.setSlot x { g.arch.slot x with stamp := stamp, op := s.nextOp } }
  putGang { noteSched s g with cur := { g := g.id, slot := x }, nextOp := s.nextOp + 1 } g

/-- What a step does: run an instruction in a state, leave a state without running one, or take what a step of the device's own
has given. -/
inductive Move where
  | run (i : Instr) (s : State)
  | done (s : State)
  | took (r : Res)

/-- A trap that a gang's word raises before it executes is taken once no older instruction of the gang may still trap (R97). -/
def wordTrap (s : State) (g : Gang) (x : PcSlot) (cause : BitVec 8) (tval : BitVec 64) (pc : BitVec 32) : Move :=
  if olderRisk s g.id s.nextOp then .done s
  else .done (takeTrap s { g with arch := { g.arch with trapGate := false } } x cause tval (pc.setWidth 64) 0#5)

/-- An issue opportunity of a pair: the word is fetched, decoded and, once nothing interlocks it, issued. A word that does not
decode traps (R78-R80); a line that is missing is filled first. A begun instruction goes on as it was issued. -/
def issueMove (s : State) (g : Gang) (x : PcSlot) : Move :=
  if !pairReady s g x then .done s
  else match begunIn s g.id x with
  | some p => .run p.instr { s with cur := { g := g.id, slot := x } }
  | none =>
    let pc := (g.arch.slot x).pc
    match fetchLook s g pc with
    | .miss va => .run (.instructionFetchFill g.id va.toNat) s
    | .trap cause tval => wordTrap s g x cause tval pc
    | .word w =>
      match decode w with
      | .error e => wordTrap (beginIssue s g x w) (match findGang (beginIssue s g x w) g.id with
          | some g => g
          | none => g) x e.cause e.tval pc
      | .ok i => if interlocked s g x w i then .done s else .run i (beginIssue s g x w)

end Sys2Proof.Machine
end

