-- ==== Sys2Proof/Machine/Release.lean ====
section
/-!
DEFINITION. Releases (10_memory R261, R266-R268, R284, R285): the release in progress that a waiting instruction, a die group or a
shootdown stands for, its stages, and the instructions FENCE and DRAIN.
-/
namespace Sys2Proof.Machine

/-! ## Classes (R266) -/

/-- Bits of the predecessor and successor sets: R, W, CR, CW, MR, MW. -/
def setR (m : BitVec 6) : Bool := m.getLsbD 0
def setW (m : BitVec 6) : Bool := m.getLsbD 1
def setCR (m : BitVec 6) : Bool := m.getLsbD 2
def setCW (m : BitVec 6) : Bool := m.getLsbD 3
def setMR (m : BitVec 6) : Bool := m.getLsbD 4
def setMW (m : BitVec 6) : Bool := m.getLsbD 5

/-- The access belongs to a class of the set. -/
def PendKind.inClass (m : BitVec 6) : PendKind → Bool
  | .load _ _ _ _ _ _ | .rfill _ _ _ _ => setR m
  | .store _ _ _ | .image false _ _ _ _ _ => setW m
  | .image true _ _ _ _ _ => setMW m
  | .home (.atom _) _ _ _ _ _ _ _ | .home (.cas _) _ _ _ _ _ _ _ | .dcas _ => setR m || setW m
  | .home .ald _ _ _ _ _ _ _ => setR m
  | .home (.red _) _ _ _ _ _ _ _ | .home .ast _ _ _ _ _ _ _ => setW m
  | .mat _ fetched _ _ => setMR m && !fetched
  | _ => false

/-- The gang's contributions that wait in reduction rounds (R430). -/
def roundOps (s : State) (id : GangId) : List Nat :=
  s.redRounds.flatMap fun r => r.parts.filterMap fun x => match x.2 with
    | some y => if y.1 = id then some y.2 else none
    | none => none

/-- The gang's operations of a set that are not finished. -/
def opsIn (s : State) (id : GangId) (m : BitVec 6) : List Nat :=
  ((s.pend.filter fun p => decide (p.gang = id) && p.kind.inClass m).map fun p => p.op)
    ++ (if setW m then roundOps s id else [])

/-- The gang's NT stores and REDs that are not folded in everywhere (R285). -/
def postedOps (s : State) (id : GangId) : List Nat :=
  ((s.pend.filter fun p => decide (p.gang = id) && (match p.kind with
      | .home (.nt _) _ _ _ _ _ _ _ | .home (.red _) _ _ _ _ _ _ _ => true
      | _ => false)).map fun p => p.op)
    ++ ((s.nts.filter fun n => decide (n.gang = id) && n.drained).map fun n => n.op) ++ roundOps s id

/-- The gang's chains that are not complete. -/
def gangChains (s : State) (id : GangId) : List ChainId :=
  s.chains.filterMap fun c => match c.origin with
    | .block _ g => if g = id then some c.id else none
    | .packet _ _ => none

/-! ## What a stage waits for -/

/-- The operation waits for its unit, or in a reduction round (R430). -/
def opPending (s : State) (op : Nat) : Bool :=
  (match findPend s op with
    | none => false
    | some p => match p.kind with
      | .mat _ true _ _ => false
      | _ => true)
    || s.redRounds.any fun r => r.parts.any fun x => match x.2 with
      | some y => decide (y.2 = op)
      | none => false

/-- It is performed and not folded into every sharer. -/
def opUnfolded (s : State) (op : Nat) : Bool :=
  (s.unfolded.any fun u => u.ops.contains op) || s.fwds.any fun f => f.ops.contains op

def inRanges (l : List (Nat × Nat)) (pa n : Nat) : Bool := l.any fun r => decide (r.1 < pa + n) && decide (pa < r.1 + r.2)

/-- Lines and sheets that a release covers. -/
def Task.coversLine (t : Task) (line : Nat) : Bool :=
  match t.range with
  | none => true
  | some l => inRanges l (128 * line) 128
def Task.coversSheet (t : Task) (sh : Nat) : Bool :=
  match t.range with
  | none => true
  | some l => inRanges l (256 * sh) 256

/-- Earlier releases of the gang that run in the background (R267). -/
def earlierBackground (s : State) (t : Task) : Bool :=
  s.tasks.any fun u => decide (u.gang = t.gang) && t.gang.isSome && u.background && decide (u.id < t.id) && decide (u.stage < 6)

/-- Stage 0: the operations and the chains are over. -/
def taskOpsDone (s : State) (t : Task) : Bool :=
  t.ops.all (fun o => !opPending s o && !(t.folded && opUnfolded s o)) && t.chains.all (fun c => (findChain s c).isNone)
    && !earlierBackground s t

/-- Stores that have to reach the cluster cache before a release goes on: those of its gang, or those of its clusters' cores, that it covers,
with their cores' other stores to the same lines (R261, R266). -/
def Task.drains (s : State) (t : Task) (x : Through) : Bool :=
  let mine := fun (y : Through) => t.coversLine y.line && (match t.gang with
    | some g => decide (y.gang = g)
    | none => decide (y.gang.die = t.die) && t.clusters.contains (clusterOf y.gang.core))
  s.through.any fun y => mine y && decide (y.gang.die = x.gang.die) && decide (y.gang.core = x.gang.core) && decide (y.line = x.line)

/-- The tick at which every write now in the clusters is visible at cluster scope: the L1 leases on the lines written have ended
(R261). -/
def clusterSeen (s : State) (t : Task) : Nat :=
  t.clusters.foldl (fun n cl => (getCluster s t.die cl).lines.foldl (fun n x => if t.coversLine x.line then max n x.seenAt else n) n) s.tick

/-- The tick at which every write now in the RDC is visible at die scope: the cluster-cache leases on the lines written have ended
(R261). -/
def rdcSeen (s : State) (t : Task) : Nat :=
  (getDie s t.die).sheets.foldl (fun n x =>
    if t.coversSheet x.sheet then max (max n x.seen.1) x.seen.2 else n) s.tick

/-- A message of the die's inbox: received and not acknowledged (R311). -/
def inboxEmpty (s : State) (die : Nat) : Bool := s.fwds.all fun f => decide (f.die ≠ die) || decide (f.stage = .sent)

/-- The round's differences have reached the directed die (R268). Where a home that they need is lost, or the round has timed out, they
have not: the fence ends with the round, and its fault (R284). -/
def directedDone (s : State) (t : Task) (d : Nat) : Bool :=
  match (getDie s t.die).round with
  | none => false
  | some r =>
    r.tasks.contains t.id && !r.timedOut && !(if d < 8 then decide (r.lostHomes ≠ []) else r.lostHomes.contains d) &&
      (if d < 8 then r.spans.all (fun x => x.2.isSome) && s.fwds.all (fun f => !(decide (f.die = d) && f.round.contains t.die))
       else r.spans.all fun x => decide (homeOf (4096 * x.1) ≠ d) || x.2.isSome)

def setStage (s : State) (id n : Nat) : State := modTask s id fun t => { t with stage := n }

/-- Enter a stage that waits for a tick. -/
def awaitSeen (s : State) (id n tick : Nat) : State := modTask s id fun t => { t with stage := n, seenAt := tick }

/-- Scopes in widening order (R20). -/
def scopeRank : Scope → Nat
  | .blk => 0
  | .clu => 1
  | .die => 2
  | .pkg => 3
  | .dom => 4
  | .sys => 5

/-- Every line that the release covers is clean in its clusters. -/
def flushed (s : State) (t : Task) : Bool := t.clusters.all fun cl => clusterClean s t.die cl t.coversLine

/-- A dirty line that the release covers needs a line of its sheet that no link carries to the die now (R424). -/
def flushStuck (s : State) (t : Task) : Bool :=
  t.clusters.any fun cl => (getCluster s t.die cl).lines.any fun x =>
    t.coversLine x.line && decide (x.dirty ≠ 0#128) && !sheetReach s t.die (x.line / 2)

/-- Flush what the release covers; where the twin store is full, ask for room (R266, R299). -/
def flushTask (s : State) (t : Task) : State :=
  let s := t.clusters.foldl (fun s cl => flushCluster s t.die cl t.coversLine) s
  if flushed s t then s else askRoom s t.die

/-- A release whose flush waits for a line of a home that cannot be reached: its request times out (R426). -/
def awaitFlush (s : State) (t : Task) : State :=
  modTask s t.id fun t => if !flushStuck s t then { t with stuck := none }
    else match t.stuck with
      | none => { t with stuck := some (dieTick s t.die) }
      | some n => if timedOut s t.die n then { t with stage := 6, fault := some (cTimeout, freeNow s) } else t

/-- The sheets of a range that hold differences which no round carries yet. -/
def rangeOpen (s : State) (t : Task) : List Nat :=
  ((getDie s t.die).sheets.filter fun x =>
    t.coversSheet x.sheet && (decide (x.state = .twinned) || (decide (x.state = .releasing) && decide (x.work ≠ x.twin)))).map fun x => x.sheet

/-- The release waits for a round: the next full one, or for a range the next that carries its sheets, or the one that runs when that
carries all their differences (R301, R319, R382). -/
def joinWaiting (s : State) (t : Task) : State :=
  let wait := fun (s : State) =>
    modDie s t.die fun d => { d with waiting := if d.waiting.contains t.id then d.waiting else d.waiting ++ [t.id] }
  match t.range with
  | none => wait s
  | some _ =>
    if rangeOpen s t = [] then
      modDie s t.die fun d => { d with round := d.round.map fun r => { r with tasks := r.tasks ++ [t.id] } }
    else askEarly (wait s) t.die (rangeOpen s t)

/-- A release of a range needs no round when no sheet of it is TWINNED or RELEASING. -/
def rangeClean (s : State) (t : Task) : Bool :=
  match t.range with
  | none => false
  | some _ => (getDie s t.die).sheets.all fun x => !t.coversSheet x.sheet || decide (x.state = .clean)

/-- A release of a range that waits for a round asks again for the sheets of it that have been written meanwhile (R319). -/
def askAgain (s : State) (t : Task) : State :=
  if !(getDie s t.die).waiting.contains t.id then s
  else if rangeOpen s t ≠ [] then askEarly s t.die (rangeOpen s t)
  else
    let s := modDie s t.die fun d => { d with waiting := d.waiting.filter fun i => decide (i ≠ t.id) }
    if rangeClean s t then setStage s t.id 5 else joinWaiting s t

/-- Advance a release by one stage if its wait is over. -/
def stepTask (s : State) (t : Task) : State :=
  match t.stage with
  | 0 =>
    if !taskOpsDone s t then s
    else if t.writes && decide (scopeRank t.scope ≥ 1) then
      let s := drainThrough s (t.drains s)
      awaitSeen s t.id 1 (clusterSeen s t)
    else setStage s t.id 5
  | 1 => if t.seenAt ≤ s.tick then setStage s t.id (if scopeRank t.scope ≥ 2 then 2 else 5) else s
  | 2 =>
    let s := flushTask s t
    if flushed s t then awaitSeen s t.id 3 (rdcSeen s t) else awaitFlush s t
  | 3 =>
    if t.seenAt ≤ s.tick then
      (if scopeRank t.scope ≥ 3 ∧ !rangeClean s t then joinWaiting (setStage s t.id 4) t else setStage s t.id 5)
    else s
  | 4 => match t.directed with
    | some d => if directedDone s t d then setStage s t.id 5 else s
    | none => if t.range.isSome then askAgain s t else s
  | 5 => if (!t.inbox || inboxEmpty s t.die) && decide (t.notBefore ≤ s.tick) then setStage s t.id 6 else s
  | _ => s

/-- Advance a release as far as it goes at this moment. -/
def runTask : Nat → State → Nat → State
  | 0, s, _ => s
  | n + 1, s, id =>
    match findTask s id with
    | some t => runTask n (stepTask s t) id
    | none => s

/-- Which of two faults is raised: TIMEOUT before HOME_LOST (R276), then the one met first. -/
def earlierFault (x y : Option (BitVec 8 × BitVec 64)) : Option (BitVec 8 × BitVec 64) :=
  match x, y with
  | some a, some b => if b.1 = cTimeout ∧ a.1 ≠ cTimeout then some b else some a
  | none, y => y
  | x, none => x

/-- A background release that is over leaves; its fault waits for an instruction that waits for it (R267). -/
def endBackground (s : State) (t : Task) : State :=
  if t.background && decide (t.stage = 6) then
    let s := { s with tasks := s.tasks.filter fun u => decide (u.id ≠ t.id) }
    match t.gang, t.fault with
    | some g, some f => modGang s g fun g => { g with fenceFault := earlierFault g.fenceFault (some f) }
    | _, _ => s
  else s

/-- Advance every release (R266). -/
def runTasks (s : State) : State :=
  let s := (s.tasks.map fun t => t.id).foldl (fun s id => runTask 6 s id) s
  s.tasks.foldl endBackground s

def dropTask (s : State) (id : Nat) : State := { s with tasks := s.tasks.filter fun t => decide (t.id ≠ id) }

/-! ## Instructions that wait for a release -/

/-- The least ticks of a release (R274). -/
def releaseFloor (sc : Scope) : Nat := if scopeRank sc ≥ 4 then 100 else if scopeRank sc = 3 then 8 else 0

/-- A release of the issuing gang, with nothing in it. -/
def baseTask (s : State) (g : Gang) (sc : Scope) : Task :=
  { id := s.nextUid, gang := some g.id, die := g.id.die, clusters := [clusterOf g.id.core], scope := sc, stage := 0, ops := [],
    chains := [], writes := false, inbox := false, directed := none, notBefore := s.tick + releaseFloor sc, folded := false, seenAt := 0,
    stuck := none, background := false, fault := none, range := none }

/-- A release of some clusters of a die, for no gang: it covers every write that stands in them. -/
def unitTask (s : State) (die : Nat) (clusters : List Nat) (sc : Scope) : Task :=
  { id := s.nextUid, gang := none, die := die, clusters := clusters, scope := sc, stage := 0, ops := [], chains := [], writes := true,
    inbox := false, directed := none, notBefore := s.tick + releaseFloor sc, folded := false, seenAt := 0, stuck := none, background := false,
    fault := none, range := none }

/-- Everything that the gang has issued, at a scope: what SPAWN, MBXFWD and GBAR release (R226, R253). -/
def fullTask (s : State) (g : Gang) (sc : Scope) : Task :=
  { baseTask s g sc with ops := opsIn s g.id 0x3F#6, chains := gangChains s g.id, writes := true }

def addTask (s : State) (t : Task) : State := { s with tasks := s.tasks ++ [t], nextUid := s.nextUid + 1 }

/-- An instruction that releases first and then acts: it begins, with the release `mk` that it needs, its scalar destination, the registers
that it marks dead, the values it has read and whether it may still trap; `finish` is its effect when the release is over, with the
release's fault. -/
def Ctx.withTask (c : Ctx) (i : Instr) (mk : Task) (d : Opnd) (kills : Reads) (vals : List DWord) (risk : Bool)
    (finish : Ctx → Option (BitVec 8 × BitVec 64) → Res) : Res :=
  if c.begun.isNone then .next (addTask (c.begin i (.task mk.id) d kills vals risk) mk)
  else match c.slot.wait with
    | .task id => finish { c with s := dropTask c.s id, g := { c.g with arch := c.a.setWait c.x .none } } ((findTask c.s id).bind fun t => t.fault)
    | _ => finish c none

/-- The first TIMEOUT of some faults, else the first of them (R276). -/
def worstFault (l : List (BitVec 8 × BitVec 64)) : Option (BitVec 8 × BitVec 64) :=
  match l.find? fun f => decide (f.1 = cTimeout) with
  | some f => some f
  | none => l.head?

/-- The fault of a release, or one that a posted access for which the instruction waits or a background release has met before it; of
several the one that R276 lists first, and the others wait for the next instruction that waits. -/
def Ctx.raisePosted (c : Ctx) (due : PostClass → Bool) (fault : Option (BitVec 8 × BitVec 64)) (k : Ctx → Res) : Res :=
  let mine := c.g.posted.filter fun x => due x.cls && decide (x.op < c.op)
  match worstFault (mine.map (fun x => (x.cause, x.tval)) ++ c.g.fenceFault.toList ++ fault.toList) with
  | none => k c
  | some f =>
    let g := match mine.find? fun x => decide ((x.cause, x.tval) = f) with
      | some x => { c.g with posted := c.g.posted.erase x, fenceFault := earlierFault c.g.fenceFault fault }
      | none => { c.g with fenceFault := if c.g.fenceFault = some f then fault else c.g.fenceFault }
    c.afterRisk ({ c with s := putGang c.s g, g := g }.fail f.1 f.2)

/-- The posted writes that a FENCE waits for: stores, RED and AST with W in its predecessor set (R266). -/
def fenceWaits (pred : BitVec 6) : PostClass → Bool
  | .store | .red => setW pred
  | .nt | .channel => false

/-- Those that a DRAIN waits for (R285). -/
def drainWaits : PostClass → Bool
  | .nt | .red => true
  | .store | .channel => false

/-- The release of a FENCE (R266-R268). -/
def fenceTask (c : Ctx) (scope : Scope) (dir : Bool) (die : BitVec 5) (succ pred : BitVec 6) : Task :=
  { baseTask c.s c.g scope with
      ops := opsIn c.s c.g.id pred,
      chains := if setCR pred || setCW pred then gangChains c.s c.g.id else [],
      writes := setW pred || setCW pred || setMW pred,
      inbox := setR succ && decide (scopeRank scope ≥ 3),
      directed := if dir then some die.toNat else none,
      background := decide (succ = 0#6) }

/-- FENCE (R284): an empty predecessor set waits for nothing but the inbox; an empty successor set lets the slot go on at once. -/
def execFence (h : Head) (scope : Scope) (dir : Bool) (die : BitVec 5) (succ pred : BitVec 6) (s : State) : Res :=
  issue s h.guard fun c =>
    if c.act = 0#32 then c.commit c.a
    else
      let t := fenceTask c scope dir die succ pred
      if succ = 0#6 then
        if pred = 0#6 then c.commit c.a else c.commitWith (c.a.advance c.x) fun s => addTask s { t with id := s.nextUid }
      else if pred = 0#6 ∧ !t.inbox then c.commit c.a
      else c.withTask (.fence h scope dir die succ pred) t .zero [] [] true fun c f =>
        c.raisePosted (fenceWaits pred) f fun c => c.finish .zero [] 0#64 id

/-- DRAIN (R285). -/
def execDrain (h : Head) (scope : Scope) (s : State) : Res :=
  issue s h.guard fun c =>
    if c.act = 0#32 then c.commit c.a
    else
      let t := { baseTask c.s c.g scope with ops := postedOps c.s c.g.id, folded := true, notBefore := c.s.tick }
      c.withTask (.drain h scope) t .zero [] [] true fun c f => c.raisePosted drainWaits f fun c => c.finish .zero [] 0#64 id

end Sys2Proof.Machine
end

