-- ==== Sys2Proof/Machine/Rounds.lean ====
section
/-!
DEFINITION. Coherence between the dies (11_page R297-R314): leases and walks that end, release rounds, blocks and fold-ins at their
homes and sharers, and lines fetched from and dropped at a home.
-/
namespace Sys2Proof.Machine

/-! ## Leases, walks, lines -/

/-- LEASE_EXPIRY: writes under leases that have ended become visible through the unit, and an L1 line whose lease has ended is
not served any more (R260). -/
def execLeaseExpiry (u : CacheUnit) (line : Nat) (s : State) : Res :=
  match u with
  | .l1 die core =>
    if (getCore s die core).l1.any fun x => decide (x.line = line) && decide (x.leaseEnd ≤ s.tick) then
      .next (modCore s die core fun c => { c with l1 := c.l1.filter fun x => !(decide (x.line = line) && decide (x.leaseEnd ≤ s.tick)) })
    else idle s
  | .cluster die cl =>
    if (getCluster s die cl).lines.any fun x => decide (x.line = line) && decide (refreshLine s.tick x ≠ x) then
      .next (modCluster s die cl fun c => { c with lines := c.lines.map fun x => if x.line = line then refreshLine s.tick x else x })
    else idle s
  | .rdc die =>
    match findSheet (getDie s die) (line / 2) with
    | some x => if refreshSheet s.tick x ≠ x then .next (putSheet s die (refreshSheet s.tick x)) else idle s
    | none => idle s

/-- WALK_COMPLETE: the entries that map an address of a context are read at their homes and cached by the die (R296). -/
def execWalkComplete (die ctx va : Nat) (s : State) : Res :=
  if canonical (BitVec.ofNat 64 va) then .next (leafOf s die ctx (BitVec.ofNat 64 va)).1 else idle s

/-- HOME_LINE_FETCH: a home supplies a line to a die, which becomes a sharer of its page (R298, R307, R308). -/
def execHomeLineFetch (die line : Nat) (s : State) : Res :=
  if die < 8 ∧ paExists (128 * line) ∧ lineReach s die (128 * line) then .next (supplyLine s die line) else idle s

/-- RDC_LINE_REPLACE: the lines of a CLEAN sheet leave the RDC, and when the die holds no line of the page it sends a drop notice; a
TWINNED or RELEASING sheet is to be freed by an early round (R298, R301, R307). -/
def execRdcLineReplace (die sheet : Nat) (s : State) : Res :=
  match findSheet (getDie s die) sheet with
  | none => idle s
  | some x =>
    if x.state ≠ .clean then .next (askEarly s die [sheet])
    else if x.held = 0#2 then idle s
    else .next (replaceSheet s die x)

/-- Take the first message for which `f` answers. -/
def takeMsg {β : Type} (f : Msg → Option β) : List Msg → Option (β × List Msg)
  | [] => none
  | m :: rest =>
    match f m with
    | some b => some (b, rest)
    | none => (takeMsg f rest).map fun r => (r.1, m :: r.2)

/-- DROP_NOTICE: the home clears the die's sharer bit (R307). -/
def execDropNotice (home die : Nat) (s : State) : Res :=
  if !homeReach s die home then idle s else
  match takeMsg (fun m => match m with
    | .drop d h g => if d = die ∧ h = home then some g else none
    | _ => none) s.msgs with
  | some (g, rest) => .next (clearSharer { s with msgs := rest } g die)
  | none => idle s

/-! ## Starting a round (R301, R302) -/

/-- Word w of a sheet image. -/
def sheetWord (x : BitVec 2048) (w : Nat) : Word := x.extractLsb' (32 * w) 32

/-- The words of a TWINNED sheet that differ from its twin. -/
def changedWords (x : Sheet) : BitVec 64 :=
  (List.range 64).foldl (fun m w => if sheetWord x.work w ≠ sheetWord x.twin w then m ||| (1#64 <<< w) else m) 0#64

/-- The changed words of a sheet by their index in its span. -/
def changedList (x : Sheet) (m : BitVec 64) : List (Nat × Word) :=
  (List.range 64).filterMap fun w => if m.getLsbD w then some (x.sheet % 16 * 64 + w, sheetWord x.work w) else none

/-- Encode one sheet: the twin takes the working words, and the sheet is RELEASING, or CLEAN when nothing changed or its home
is lost (R302, R322). -/
def encodeSheet (s : State) (x : Sheet) : Sheet :=
  let m := changedWords x
  if m = 0#64 ∨ homeLost s (homeOf (256 * x.sheet)) then { x with state := .clean, twin := 0#2048, sent := 0#64 }
  else { x with state := .releasing, twin := x.work, sent := m }

/-- Add a sheet's words to the block of its span. -/
def addToBlock (die : Nat) (l : List Diff) (x : Sheet) (words : List (Nat × Word)) : List Diff :=
  let span := x.sheet / 16
  if l.any fun d => decide (d.span = span) then l.map fun d => if d.span = span then { d with words := d.words ++ words } else d
  else l ++ [{ span := span, source := die, foldIn := false, stamp := 0#32, words := words }]

def blocksOf (die : Nat) (l : List Sheet) : List Diff :=
  l.foldl (fun b x => let m := changedWords x
    if m = 0#64 then b else addToBlock die b x (changedList x m)) []

/-- Distinct elements in order. -/
def distinct (l : List Nat) : List Nat := l.foldl (fun a x => if a.contains x then a else a ++ [x]) []

/-- The gang's stores of a sheet that are all in the RDC travel with the encoded sheet (R300). -/
def noteSent (s : State) (die : Nat) (sheets : List Nat) : State :=
  { s with wrote := s.wrote.filterMap fun w =>
      if w.gang.die = die ∧ sheets.contains w.sheet ∧ !(s.through.any fun t => decide (t.gang = w.gang) && decide (t.line / 2 = w.sheet))
          ∧ clusterClean s die (clusterOf w.gang.core) (fun k => decide (k / 2 = w.sheet)) then
        (match findSheet (getDie s die) w.sheet with
          | some x => if x.state = .releasing then some { w with sent := true } else none
          | none => none)
      else some w }

/-- A gang joins a round with a release of its own, or with one that stands for every gang of the die. -/
def joinsRound (s : State) (tasks : List Nat) (id : GangId) : Bool :=
  tasks.any fun n => match findTask s n with
    | some t => decide (t.gang = none) || decide (t.gang = some id)
    | none => false

/-- Start a round of a die for the TWINNED sheets that are selected: encode, and send blocks and markers (R302). Of several lost spans
the first in the order of the die's sheets is kept (DESIGN CHOICE, log 151). -/
def startRound (s : State) (die : Nat) (full : Bool) (sel : Nat → Bool) (tasks : List Nat) : State :=
  let d := getDie s die
  let l := d.sheets.filter fun x => decide (x.state = .twinned) && sel x.sheet
  let blocks := blocksOf die l
  let live := blocks.filter fun b => !homeLost s (homeOf (4096 * b.span))
  let dead := blocks.filter fun b => homeLost s (homeOf (4096 * b.span))
  let homes := distinct (live.map fun b => homeOf (4096 * b.span))
  let joined := (d.touched.filter fun t => joinsRound s tasks t.1).map fun t => t.2
  let marks := if full then (distinct joined).filter fun h => !homes.contains h && !homeLost s h else []
  let r : Round := { full := full, tasks := tasks, sheets := l.map fun x => x.sheet, homes := homes ++ marks,
                     spans := live.map fun b => (b.span, none), start := s.tick,
                     lostSpan := dead.head?.map fun b => b.span,
                     lostHomes := distinct (dead.map fun b => homeOf (4096 * b.span)), timedOut := false }
  let s' := modDie s die fun d =>
    { d with round := some r, sheets := d.sheets.map fun x => if x.state = .twinned ∧ sel x.sheet then encodeSheet s x else x,
             early := d.early.filter fun x => !sel x, touched := if full then [] else d.touched,
             waiting := d.waiting.filter fun t => !tasks.contains t }
  noteSent { s' with msgs := s'.msgs ++ (live.map fun b => .block die (homeOf (4096 * b.span)) b.wire) ++ marks.map fun h => .marker die h }
    die (l.map fun x => x.sheet)

/-- A release waits for a full round. -/
def wantsFull (s : State) (id : Nat) : Bool :=
  match findTask s id with
  | some t => t.range.isNone
  | none => false

/-- RELEASE_ROUND_START: every release that waits joins (R301). -/
def execReleaseRoundStart (die : Nat) (s : State) : Res :=
  let d := getDie s die
  if d.round.isNone ∧ d.waiting.any (wantsFull s) then .next (startRound s die true (fun _ => true) d.waiting) else idle s

/-- The releases of a range whose sheets are all carried, so that an early round serves them. -/
def servedBy (s : State) (d : Die) (sheets : List Nat) (id : Nat) : Bool :=
  match findTask s id with
  | some t => t.range.isSome && d.sheets.all fun x => !t.coversSheet x.sheet || decide (x.state ≠ .twinned) || sheets.contains x.sheet
  | none => false

/-- EARLY_ROUND: the round carries named sheets of those asked for (R299, R300). -/
def execEarlyRound (die : Nat) (sheets : List Nat) (s : State) : Res :=
  let d := getDie s die
  if d.round.isNone ∧ sheets ≠ [] ∧ sheets.all (fun x => d.early.contains x) then
    .next (startRound s die false (fun x => sheets.contains x) (d.waiting.filter (servedBy s d sheets)))
  else idle s

/-! ## At the home (R305, R306, R313) -/

def stampOf (s : State) (home : Nat) : BitVec 32 := s.stamps.get (Fin.ofNat 24 home)

/-- Take the next stamp of a home. -/
def nextStamp (s : State) (home : Nat) : State × BitVec 32 :=
  let v := stampOf s home + 1#32
  ({ s with stamps := s.stamps.set (Fin.ofNat 24 home) v }, v)

/-- The words of a line of a span, if a block carries them all. -/
def wholeLine (words : List (Nat × Word)) (k : Nat) : Option (List Byte) :=
  let l := (List.range 32).filterMap fun j => words.find? fun w => decide (w.1 = 32 * k + j)
  if l.length = 32 then some (l.flatMap fun w => bytesOfNat 4 w.2.toNat) else none

/-- Write a block's words at the home, line by line, so that a line replaced whole loses its mark (R320). -/
def writeWords (s : State) (span : Nat) (words : List (Nat × Word)) : State :=
  (List.range 32).foldl (fun s k =>
    match wholeLine words k with
    | some b => homeWrite s (4096 * span + 128 * k) b
    | none => (words.filter fun w => decide (w.1 / 32 = k)).foldl
        (fun s w => homeWrite s (4096 * span + 4 * w.1) (bytesOfNat 4 w.2.toNat)) s) s

/-- Send a block to the sharers of its page. -/
def forward (s : State) (home : Nat) (d : Diff) (dies round ops : List Nat) : State :=
  { s with
      fwds := s.fwds ++ dies.map fun j =>
        { home := home, die := j, wire := d.wire, round := round, ops := ops, stage := .sent, seq := s.nextUid, until_ := 0, ackAt := 0 },
      nextUid := s.nextUid + 1 }

/-- Words that the home-performed writes of a span have changed. -/
def unfoldedWords (l : List Unfolded) (span : Nat) : List Nat :=
  (List.range 1024).filter fun w => l.any fun u => decide (u.addr < 4096 * span + 4 * w + 4) && decide (4096 * span + 4 * w < u.addr + u.size)

/-- Fold the home-performed writes of a span into every sharer, for a round if one waits (R304, R313). -/
def foldSpan (s : State) (home span : Nat) (round : List Nat) : State :=
  let l := s.unfolded.filter fun u => decide (u.home = home) && decide (spanOf u.addr = span)
  if l = [] then s
  else
    let words := (unfoldedWords l span).map fun w => (w, BitVec.ofNat 32 (homeNat s (4096 * span + 4 * w) 4))
    let s := { s with unfolded := s.unfolded.filter fun u => !(decide (u.home = home) && decide (spanOf u.addr = span)) }
    let dies := sharersOf (findHomePage s (granule (4096 * span))).sharers
    if dies = [] then s
    else
      let r := nextStamp s home
      forward r.1 home { span := span, source := home, foldIn := true, stamp := r.2, words := words } dies round (distinct (l.flatMap fun u => u.ops))

/-- Ticks within which a home folds in a write that it has performed (R313). -/
def foldLimit : Nat := 4000

/-- A home folds in what it has kept for as long as it may (R313). -/
def foldOverdue (s : State) : State :=
  (s.unfolded.filter fun u => decide (u.tick + foldLimit ≤ s.tick)).foldl (fun s u => foldSpan s u.home (spanOf u.addr) []) s

/-- Before a home acknowledges a die's round it folds in every write that it has performed, and waits for the fold-ins on their
way (R302). -/
def foldAll (s : State) (home die : Nat) : State :=
  let s := { s with fwds := s.fwds.map fun f => if f.home = home ∧ f.d.foldIn ∧ !f.round.contains die then { f with round := f.round ++ [die] } else f }
  (distinct ((s.unfolded.filter fun u => decide (u.home = home)).map fun u => spanOf u.addr)).foldl (fun s sp => foldSpan s home sp [die]) s

/-- The home owes a die the acknowledgement of its round. -/
def oweAck (s : State) (home die : Nat) : State :=
  if s.owed.contains { home := home, die := die } then s else { s with owed := s.owed ++ [{ home := home, die := die }] }

/-- Send a block to every die but its own that holds lines of its page, and to those that hold them by a page's other address while its
migration ends (R306, R317). -/
def forwardBlock (s : State) (home src : Nat) (d : Diff) : State :=
  let sharers := fun (pa : Nat) => sharersOf (findHomePage s (granule pa)).sharers
  (aliasesOf s (4096 * d.span)).foldl (fun t a => forward t home { d with span := spanOf a } (sharers a) [src] [])
    (forward s home d ((sharers (4096 * d.span)).filter fun j => decide (j ≠ src)) [src] [])

/-- HOME_APPLY_BLOCK: the oldest block of a die at a home is stamped, applied and forwarded (R305, R306). -/
def execHomeApplyBlock (home src : Nat) (s : State) : Res :=
  if !homeReach s src home then idle s else
  match takeMsg (fun m => match m with
    | .block d h b => if d = src ∧ h = home then some b else none
    | _ => none) s.msgs with
  | none => idle s
  | some (b, rest) =>
    let r := nextStamp { s with msgs := rest } home
    let b := diffOf b
    let d := { b with stamp := r.2 }
    let s := writeWords r.1 b.span b.words
    let s := { s with msgs := s.msgs ++ [.stampNotice home src b.span r.2] }
    .next (oweAck (foldAll (forwardBlock s home src d) home src) home src)

/-- MARKER_ARRIVAL (R302). -/
def execMarkerArrival (home src : Nat) (s : State) : Res :=
  if !homeReach s src home then idle s else
  match takeMsg (fun m => match m with
    | .marker d h => if d = src ∧ h = home then some () else none
    | _ => none) s.msgs with
  | none => idle s
  | some (_, rest) => .next (oweAck (foldAll { s with msgs := rest } home src) home src)

/-- FOLD_IN (R313). -/
def execFoldIn (home span : Nat) (s : State) : Res :=
  if s.unfolded.any fun u => decide (u.home = home) && decide (spanOf u.addr = span) then .next (foldSpan s home span []) else idle s

/-- HOME_ROUND_ACK: every sharer has acknowledged the round's blocks and fold-ins; a write that the home has performed since it folded
the last in is folded in first (R302, R313). -/
def execHomeRoundAck (home die : Nat) (s : State) : Res :=
  let coming := s.msgs.any fun m => match m with
    | .block d h _ => decide (d = die) && decide (h = home)
    | _ => false
  if !s.owed.contains { home := home, die := die } || coming || !homeReach s die home then idle s
  else if s.unfolded.any (fun u => decide (u.home = home)) then .next (foldAll s home die)
  else if s.fwds.all (fun f => !(decide (f.home = home) && f.round.contains die)) then
    .next (modDie { s with owed := s.owed.filter fun o => decide (o ≠ { home := home, die := die }) } die fun d =>
      { d with round := d.round.map fun r => { r with homes := r.homes.filter fun h => decide (h ≠ home) } })
  else idle s

/-! ## At a sharer (R309-R311) -/

/-- a is earlier than b in a window of 2³¹ (R305). -/
def stampBefore (a b : BitVec 32) : Bool := idxBefore a b

/-- The stamp of the die's block in flight for a span: none, not known yet, or known. -/
def flightStamp (d : Die) (span : Nat) : Option (Option (BitVec 32)) :=
  match d.round with
  | none => none
  | some r => (r.spans.find? fun x => decide (x.1 = span)).map fun x => x.2

/-- Put a word into a sheet image. -/
def putWord (x : BitVec 2048) (w : Nat) (v : Word) : BitVec 2048 :=
  overlay (byteSpan 256 (4 * w) 4) (lineOf 2048 (4 * w) v.toNat) x

/-- Apply one word of a block to a sheet (R309). -/
def applyWord (x : Sheet) (own : Option (BitVec 32)) (stamp : BitVec 32) (w : Nat) (v : Word) : Sheet :=
  if !x.held.getLsbD (w / 32) then x
  else if decide (x.state = .releasing) && x.sent.getLsbD w && (match own with
      | some o => stampBefore stamp o
      | none => false) then x
  else if x.state = .clean then { x with work := putWord x.work w v, poison := x.poison &&& ~~~(1#64 <<< w) }
  else
    let same := decide (sheetWord x.work w = sheetWord x.twin w)
    { x with twin := putWord x.twin w v, work := if same then putWord x.work w v else x.work,
             poison := if same then x.poison &&& ~~~(1#64 <<< w) else x.poison }

/-- Apply a block to a die (R309); a word of the working copy that it changes is visible once the leases on its line have ended (R260). -/
def applyDiff (s : State) (die : Nat) (b : Diff) : State :=
  let own := match flightStamp (getDie s die) b.span with
    | some o => o
    | none => none
  b.words.foldl (fun s w =>
    match findSheet (getDie s die) (16 * b.span + w.1 / 64) with
    | none => s
    | some x =>
      let y := applyWord x own b.stamp (w.1 % 64) w.2
      putSheet s die (if y.work = x.work then y else y.delay s.tick (byteSpan 256 (4 * (w.1 % 64)) 4))) s

/-- Change the first forwarded block of a home to a die that meets a condition. -/
def modFwd (f : Fwd → Bool) (g : Fwd → Fwd) : List Fwd → List Fwd
  | [] => []
  | x :: rest => if f x then g x :: rest else x :: modFwd f g rest

def fwdTo (home die : Nat) (st : FwdStage) (f : Fwd) : Bool := decide (f.home = home) && decide (f.die = die) && decide (f.stage = st)

/-- The latest end of a lease that now runs on a changed line: of those granted to the die's cluster caches, and of those and the ones
granted to L1s (R311). -/
def leasesOn (s : State) (die : Nat) (b : Diff) : Nat × Nat :=
  let lines := distinct (b.words.map fun w => 32 * b.span + w.1 / 32)
  let u := lines.foldl (fun n l => max n ((sheetOr s die (l / 2)).granted (l % 2))) s.tick
  (u, s.clusters.foldl (fun n c => if c.die = die then
    c.lines.foldl (fun n x => if lines.contains x.line then max n x.grantEnd else n) n else n) u)

/-- A block that its die has applied, with the leases that its acknowledgement waits for: those on a line that the die has dropped among
them, since their copies are still read, though R307 has a dropped page's block acknowledged at once (DESIGN CHOICE, log 166). -/
def arrived (s : State) (f : Fwd) : Fwd :=
  let e := leasesOn s f.die f.d
  { f with stage := .applied, until_ := e.1, ackAt := e.2 }

/-- An atomic's value that the home has sent the die before has not arrived (R314). -/
def valueBefore (s : State) (home die seq : Nat) : Bool :=
  s.msgs.any fun m => match m with
    | .atomicValue h d _ _ _ _ q => decide (h = home) && decide (d = die) && decide (q < seq)
    | _ => false

/-- SHARER_APPLY: the next block of a home arrives at a die; while the die waits for the stamp of its own block for the span it
is held, and otherwise applied (R309, R310). -/
def execSharerApply (die home : Nat) (s : State) : Res :=
  match s.fwds.find? (fwdTo home die .sent) with
  | none => idle s
  | some f =>
    if valueBefore s home die f.seq || !homeReach s die home then idle s
    else if flightStamp (getDie s die) f.d.span = some none then
      .next { s with fwds := modFwd (fwdTo home die .sent) (fun f => { f with stage := .held }) s.fwds }
    else
      .next (applyDiff { s with fwds := modFwd (fwdTo home die .sent) (arrived s) s.fwds } die f.d)

/-- Apply the held blocks of a span in order. -/
def releaseHeld (s : State) (die home span : Nat) : State :=
  let held := s.fwds.filter fun f => fwdTo home die .held f && decide (f.d.span = span)
  let s := { s with fwds := s.fwds.map fun f => if fwdTo home die .held f && decide (f.d.span = span) then arrived s f else f }
  held.foldl (fun s f => applyDiff s die f.d) s

/-- STAMP_NOTICE: the die learns its block's stamp and applies what it has held for the span (R310). -/
def execStampNotice (die home : Nat) (s : State) : Res :=
  if !homeReach s die home then idle s else
  match takeMsg (fun m => match m with
    | .stampNotice h d sp st => if h = home ∧ d = die then some (sp, st) else none
    | _ => none) s.msgs with
  | none => idle s
  | some ((span, st), rest) =>
    let s := modDie { s with msgs := rest } die fun d =>
      { d with round := d.round.map fun r => { r with spans := r.spans.map fun x => if x.1 = span then (x.1, some st) else x } }
    .next (releaseHeld s die home span)

/-- SHARER_ACK: an applied block is acknowledged once the cluster-cache leases on its lines, and the L1 leases granted before those
ended, have ended (R311). -/
def execSharerAck (die home : Nat) (s : State) : Res :=
  let ready := fun (f : Fwd) => fwdTo home die .applied f && decide (f.ackAt ≤ s.tick)
  if s.fwds.any ready && homeReach s die home then .next { s with fwds := removeFirst ready s.fwds } else idle s
where
  /-- Take the first out. -/
  removeFirst (f : Fwd → Bool) : List Fwd → List Fwd
    | [] => []
    | x :: rest => if f x then rest else x :: removeFirst f rest

/-! ## Completion (R302, R298) -/

/-- A sheet as its round completes. -/
def endSheet (x : Sheet) : Sheet :=
  if x.state = .releasing then
    (if x.work = x.twin then { x with state := .clean, twin := 0#2048, sent := 0#64 } else { x with state := .twinned, sent := 0#64 })
  else x

/-- The fault that the fences of a round raise: TIMEOUT before HOME_LOST (R276, R322, R426). -/
def roundFault (s : State) (r : Round) : Option (BitVec 8 × BitVec 64) :=
  if r.timedOut then some (cTimeout, freeNow s) else r.lostSpan.map fun sp => (cHomeLost, BitVec.ofNat 64 (4096 * sp))

/-- A launch whose release has met a lost home fails HOME_LOST (R464); the gang's own end counts apart. -/
def lostLaunches (s : State) (r : Round) : State :=
  if r.lostSpan.isNone then s
  else r.tasks.foldl (fun s id =>
    match ((findTask s id).bind fun t => t.gang).bind (findGang s) with
    | none => s
    | some g => match findBlock s g.block with
      | none => s
      | some b => modGroup s b.dgroup fun d => { d with fail := addFailure d.fail (gangFailure s g stHomeLost 0#8 0#32) }) s

/-- End a round: its sheets leave RELEASING and its releases go on. -/
def endRound (s : State) (die : Nat) (r : Round) : State :=
  let s := modDie (lostLaunches s r) die fun d =>
    { d with round := none, sheets := d.sheets.map fun x => if r.sheets.contains x.sheet then endSheet x else x }
  { s with
      wrote := s.wrote.filter fun w => !(decide (w.gang.die = die) && w.sent && r.sheets.contains w.sheet),
      tasks := s.tasks.map fun t => if r.tasks.contains t.id ∧ t.stage = 4 then
        { t with stage := 5, fault := match t.fault with
          | none => roundFault s r
          | some f => some f } else t }

/-- A block stamped before the die's own for the span is still on its way to the die (R310). -/
def earlierComing (s : State) (die : Nat) (r : Round) : Bool :=
  s.fwds.any fun f => decide (f.die = die) && decide (f.stage ≠ .applied) && r.spans.any fun x => decide (x.1 = f.d.span) && match x.2 with
    | some own => stampBefore f.d.stamp own
    | none => false

/-- ROUND_COMPLETE: every home has acknowledged (R302, R274), and what they sent before has arrived (R310). -/
def execRoundComplete (die : Nat) (s : State) : Res :=
  match (getDie s die).round with
  | none => idle s
  | some r =>
    if r.homes = [] ∧ r.spans.all (fun x => x.2.isSome) ∧ r.start + 8 ≤ s.tick ∧ !earlierComing s die r then .next (endRound s die r) else idle s

end Sys2Proof.Machine
end

