-- ==== Sys2Proof/Machine/Barrier.lean ====
section
/-!
DEFINITION. Block barriers, grid barriers, tags and counters (09_barrier R227-R255): BARI, BARV, BARW, BARX, GBAR, WAIT, TAGW, TAGF,
TAGC, the step BARV_ARRIVAL, and the ends of their waits.
-/
namespace Sys2Proof.Machine

/-! ## Barrier words (R227, R230, R231) -/

/-- The fields of a barrier word. -/
structure BarWord where
  expect : BitVec 16
  arrived : BitVec 16
  pending : BitVec 36
  phase : Bool
  err : Bool
  rest : BitVec 58
  deriving DecidableEq, Repr

def barOfBits (w : BitVec 128) : BarWord :=
  { expect := w.extractLsb' 0 16, arrived := w.extractLsb' 16 16, pending := w.extractLsb' 32 36, phase := w.getLsbD 68,
    err := w.getLsbD 69, rest := w.extractLsb' 70 58 }

def barBits (b : BarWord) : BitVec 128 :=
  b.rest ++ (bit1 b.err ++ (bit1 b.phase ++ (b.pending ++ (b.arrived ++ b.expect))))

/-- The completion test (R231). -/
def barTest (b : BarWord) : BarWord :=
  if b.arrived = b.expect ∧ b.pending = 0#36 then { b with arrived := 0#16, phase := !b.phase } else b

def bariOnce (n : BitVec 8) (b : BarWord) : BarWord :=
  if b.expect = 0#16 then { b with expect := n.setWidth 16 } else if b.expect = n.setWidth 16 then b else { b with err := true }

def bariForce (n : BitVec 8) : BarWord :=
  { expect := n.setWidth 16, arrived := 0#16, pending := 0#36, phase := false, err := false, rest := 0#58 }

def barArrive (b : BarWord) : BarWord :=
  if b.arrived.toNat < b.expect.toNat then barTest { b with arrived := b.arrived + 1#16 } else { b with err := true }

/-- PENDING plus a number of bytes, when it is in range. -/
def barOwe (b : BarWord) (d : Int) : Option BarWord :=
  let p := b.pending.toInt + d
  if -34359738368 ≤ p ∧ p ≤ 34359738367 then some (barTest { b with pending := BitVec.ofInt 36 p }) else none

/-- The SIGNAL event: n bytes have come (R230, R240). -/
def barSignal (b : BarWord) (n : Nat) : BarWord :=
  match barOwe b (-(n : Int)) with
  | some b' => b'
  | none => { b with err := true }

def readBar (s : State) (die core pos : Nat) : BarWord := barOfBits (BitVec.ofNat 128 (scratchNat s die core pos 16))
def writeBar (s : State) (die core pos : Nat) (b : BarWord) : State := scratchWrite s die core pos (bytesOfNat 16 (barBits b).toNat)

/-! ## Instructions on barrier words -/

/-- The gang's block is abandoned (R196, R233). -/
def abandoned (s : State) (g : Gang) : Bool :=
  match findBlock s g.block with
  | some b => decide (b.state = .abandoned)
  | none => false

/-- The shape of an instruction that names a barrier word (R227, R234): the reads, the privilege check, the address. -/
def barOp (h : Head) (srcs : List Opnd) (a : Opnd) (off : BitVec 32) (s : State) (f : Ctx → Nat → Nat → Nat → Res) : Res :=
  issue s h.guard fun c =>
    match deadCheck c.a (single srcs) with
    | some x => c.halt x
    | none =>
      if c.act = 0#32 then c.commit (killRegs c.a (headKills h a (srcs.getLastD .zero) .zero))
      else
        match firstHalt [privCheck c [a], wordCheck c.a srcs] with
        | some x => c.halt x
        | none =>
          let va := scalarAddr c .scratch a off 16
          match (spaceTarget c.s c.g .scratch va 16 .rmw).2 with
          | .inr (.scratch die core pos) => f c die core pos
          | _ => c.trap cProtection va

/-- A barrier operation that acts on the word at once: the gang's earlier operations on it come first (R229, R262), and one that
reads a poisoned word consumes the poison (R460). -/
def barNow (c : Ctx) (die core pos : Nat) (reads : Bool) (k : Res) : Res :=
  if heldBytes c.s c.g.id c.s.nextOp [(.scratch die core pos, 16)] then c.hold .order
  else if reads && scratchPoisoned c.s die core pos 16 then c.halt .poison
  else c.afterRisk k

/-- BARI (R236). -/
def execBari (h : Head) (a : Opnd) (off : BitVec 32) (n : BitVec 8) (force : Bool) (s : State) : Res :=
  barOp h [a] a off s fun c die core pos =>
    barNow c die core pos (!force)
      (c.commitWith ((killRegs c.a (headKills h a .zero .zero)).advance c.x) fun s =>
        writeBar s die core pos (if force then bariForce n else bariOnce n (readBar s die core pos)))

/-- Loads, stores, spills and atomics of the gang that an arrival waits for (R251). -/
def arrivalOps (s : State) (id : GangId) : List Nat := opsIn s id 3#6

/-- The time-out of a posted write for which an arrival waits: the one fault that BARV raises beside its own (R276). -/
def postedTimeout (g : Gang) (op : Nat) : Option Posted :=
  g.posted.find? fun x => decide (x.cause = cTimeout) && decide (x.op < op) && fenceWaits 3#6 x.cls

/-- BARV (R237): the arrival is held, not the slot. -/
def execBarv (h : Head) (d a : Opnd) (off : BitVec 32) (s : State) : Res :=
  barOp h [a] a off s fun c die core pos =>
    let kills := headKills h a .zero .zero
    if abandoned c.s c.g then c.commit (writeScalar (killRegs c.a kills) d 1#64)
    else match postedTimeout c.g c.s.nextOp with
      | some f => { c with g := { c.g with posted := c.g.posted.erase f } }.trap f.cause f.tval
      | none => c.send (groupOpnds d 1) kills (.barv d die core pos (arrivalOps c.s c.g.id))

/-- BARV_ARRIVAL: the held arrival is counted once the gang's earlier accesses meet R251 (R237, R230); in a block that is abandoned
meanwhile it arrives nowhere (R233). -/
def execBarvArrival (op : Nat) (s : State) : Res :=
  match findPend s op with
  | none => idle s
  | some p =>
    match p.kind, findGang s p.gang with
    | .barv d die core pos wait, some g =>
      if olderRisk s p.gang p.op then idle s
      else if abandoned s g then .next (commitPend s p fun _ a => writeScalar a d 1#64)
      else if wait.any (opPending s) || pendHeld s p then idle s
      else if scratchPoisoned s die core pos 16 then .next (pendKill s p)
      else
        match postedTimeout g p.op with
        | some f => .next (preciseTrap (modGang s g.id fun g => { g with posted := g.posted.erase f }) p f.cause f.tval 0#5)
        | none =>
          let b := readBar s die core pos
          .next (commitPend (writeBar s die core pos (barArrive b)) p fun _ a =>
            writeScalar a d (if b.phase then 3#64 else 2#64))
    | _, _ => idle s

/-- What BARW returns when a test ends its wait (R238). -/
def barwResult (s : State) (g : Gang) (die core pos : Nat) (phase : Bool) : Option DWord :=
  let b := readBar s die core pos
  if abandoned s g then some 1#64 else if b.err then some 2#64 else if b.phase ≠ phase then some 0#64 else none

/-- BARW (R238). -/
def execBarw (h : Head) (d a b : Opnd) (off : BitVec 32) (s : State) : Res :=
  barOp h [a, b] a off s fun c die core pos =>
    let kills := headKills h a b .zero
    let token := scalarOf c b
    if abandoned c.s c.g || !token.getLsbD 1 then c.commit (writeScalar (killRegs c.a kills) d 1#64)
    else if heldBytes c.s c.g.id c.s.nextOp [(.scratch die core pos, 16)] then c.hold .order
    else if scratchPoisoned c.s die core pos 16 then c.halt .poison
    else
      match barwResult c.s c.g die core pos (token.getLsbD 0) with
      | some v => c.commit (writeScalar (killRegs c.a kills) d v)
      | none => .next (c.put (c.a.setWait c.x (.barw die core pos (token.getLsbD 0) (retireOf d kills))))

/-- BARX (R239). -/
def execBarx (h : Head) (a b : Opnd) (off : BitVec 32) (s : State) : Res :=
  barOp h [a, b] a off s fun c die core pos =>
    let x := scalarOf c b
    barNow c die core pos true
      (match barOwe (readBar c.s die core pos) x.toInt with
        | none => c.trap cBarRange x
        | some w => c.commitWith ((killRegs c.a (headKills h a b .zero)).advance c.x) fun s => writeBar s die core pos w)

/-! ## Grid barriers (R241, R242) -/

/-- The gang's launch. -/
def gangLaunch (s : State) (g : Gang) : Option Launch :=
  if g.dispatcher then none
  else
    match findBlock s g.block with
    | none => none
    | some b => match findGroup s b.dgroup with
      | none => none
      | some d => match d.launch with
        | some u => findLaunch s u
        | none => none

/-- The gang belongs to a launch. -/
def inLaunch (s : State) (l : Launch) (g : Gang) : Bool :=
  match gangLaunch s g with
  | some x => decide (x.uid = l.uid)
  | none => false

/-- A launch is broken: a block of it has failed, or a die of its split is lost (R242). -/
def launchBroken (s : State) (l : Launch) : Bool :=
  l.broken || l.dies.any (dieLost s)

/-- A slot whose GBAR is still held back at a phase up to p. -/
def heldAt (p : Nat) (sl : Slot) : Bool :=
  match sl.wait with
  | .gbarRelease _ q _ => sl.live && decide (q ≤ p)
  | _ => false

/-- A gang has arrived at a grid phase. -/
def arrivedAt (p : Nat) (g : Gang) : Bool := decide (p < g.arch.gbars) && !heldAt p g.arch.slotA && !heldAt p g.arch.slotB

/-- Some block of the launch is not placed yet: its gangs have not arrived. -/
def launchDue (s : State) (l : Launch) : Bool :=
  s.groups.any fun d => decide (d.launch = some l.uid) &&
    (decide (d.due ≠ 0) || (getDie s d.die).binds.any fun b => decide (b.2.dgroup = d.uid) && decide (b.2.left ≠ 0))

/-- What GBAR returns when its wait is over (R241). -/
def gbarResult (s : State) (g : Gang) (phase : Nat) : Option DWord :=
  match gangLaunch s g with
  | none => some 1#64
  | some l =>
    if launchBroken s l then some 1#64
    else if !launchDue s l && s.gangs.all (fun x => !inLaunch s l x || arrivedAt phase x) then some 0#64
    else none

/-- GBAR (R241): its release covers loads and stores (R253). The sr.tval of GBAR_NONCOOP is not stated: a free value (log 143). -/
def execGbar (h : Head) (d : Opnd) (s : State) : Res :=
  issue s h.guard fun c =>
    if c.act = 0#32 then c.commit c.a
    else
      match gangLaunch c.s c.g with
      | none => c.trap cGbarNoncoop (freeNow c.s)
      | some l =>
        if !l.coop then c.trap cGbarNoncoop (freeNow c.s)
        else
          let a := { c.a with gbars := c.a.gbars + 1 }
          if launchBroken c.s l then c.commit (writeScalar a d 1#64)
          else
            let t := { baseTask c.s c.g .pkg with ops := opsIn c.s c.g.id 3#6, writes := true, inbox := true }
            c.afterRisk (.next (addTask (c.put (a.setWait c.x (.gbarRelease t.id c.a.gbars (retireOf d [])))) t))

/-! ## Counters (R248) -/

def limitsMet (g : Gang) (tl cp st ld : Nat) : Bool :=
  decide (g.tl ≤ tl) && decide (g.cp ≤ cp) && decide (g.st ≤ st) && decide (g.ld ≤ ld)

/-- WAIT (R248). -/
def execWait (h : Head) (tl cp st ld : BitVec 6) (s : State) : Res :=
  issue s h.guard fun c =>
    if c.act = 0#32 ∨ limitsMet c.g tl.toNat cp.toNat st.toNat ld.toNat then c.commit c.a
    else .next (c.put (c.a.setWait c.x (.limits tl.toNat cp.toNat st.toNat ld.toNat (retireOf .zero []))))

/-! ## Tags (R243-R246) -/

def coreTags (s : State) (id : GangId) : DWord := (getCore s id.die id.core).tags

/-- Set a tag of a core (R243). -/
def setTag (s : State) (die core n : Nat) : State :=
  modCore s die core fun c => { c with tags := c.tags ||| (1#64 <<< (n % 64)) }

/-- The tags that end a TAGW's wait. -/
def tagwResult (all : Bool) (m tags : DWord) : Option DWord :=
  if all then (if tags &&& m = m then some (tags &&& m) else none)
  else if m = 0#64 then some 0#64
  else if tags &&& m ≠ 0#64 then some (tags &&& m) else none

/-- The checks of the tag instructions. -/
def tagOp (h : Head) (a : Opnd) (s : State) (f : Ctx → Reads → DWord → Res) : Res :=
  issue s h.guard fun c =>
    match deadCheck c.a (single [a]) with
    | some x => c.halt x
    | none =>
      let kills := headKills h a .zero .zero
      if c.act = 0#32 then c.commit (killRegs c.a kills)
      else match wordCheck c.a [a] with
        | some x => c.halt x
        | none => f c kills (scalarOf c a)

/-- A TAGC of the gang has not cleared its tags yet. -/
def tagcDue (s : State) (id : GangId) : Bool :=
  s.pend.any fun p => decide (p.gang = id) && match p.kind with
    | .late (.tagc _) => true
    | _ => false

/-- Clear tags of a core (R246). -/
def clearTags (s : State) (id : GangId) (m : DWord) : State := modCore s id.die id.core fun k => { k with tags := k.tags &&& ~~~m }

/-- TAGW (R244). -/
def execTagw (h : Head) (d a : Opnd) (all : Bool) (s : State) : Res :=
  tagOp h a s fun c kills m =>
    if tagcDue c.s c.g.id then c.hold .order
    else match tagwResult all m (coreTags c.s c.g.id) with
    | some v => c.commit (writeScalar (killRegs c.a kills) d v)
    | none => .next (c.put (c.a.setWait c.x (.tagw all m (retireOf d kills))))

/-- The lowest set bit. -/
def lowestBit (x : DWord) : Option Nat := (List.range 64).find? fun i => x.getLsbD i

/-- TAGF (R245). -/
def execTagf (h : Head) (d a : Opnd) (clr : Bool) (s : State) : Res :=
  tagOp h a s fun c kills m =>
    c.afterRisk
      (match lowestBit (coreTags c.s c.g.id &&& m) with
        | none => c.commit (writeScalar (killRegs c.a kills) d (-1#64))
        | some i => c.commitWith ((writeScalar (killRegs c.a kills) d (BitVec.ofNat 64 i)).advance c.x) fun s =>
            if clr then modCore s c.g.id.die c.g.id.core fun k => { k with tags := k.tags &&& ~~~(1#64 <<< i) } else s)

/-- TAGC (R246): its tags are cleared once no older instruction of the gang may trap; the slot goes on at once (R97, R477). -/
def execTagc (h : Head) (a : Opnd) (s : State) : Res :=
  tagOp h a s fun c kills m =>
    if c.clear then c.commitWith ((killRegs c.a kills).advance c.x) fun s => clearTags s c.g.id m
    else c.post (killRegs c.a kills) (.late (.tagc m))

/-! ## Ends of waits -/

/-- What ends the wait of a slot at this moment: its scalar result. -/
def waitResult (s : State) (g : Gang) (w : Wait) : Option (Retire × DWord) :=
  match w with
  | .barw die core pos phase r => (barwResult s g die core pos phase).map fun v => (r, v)
  | .tagw all m r => (tagwResult all m (coreTags s g.id)).map fun v => (r, v)
  | .limits tl cp st ld r => if limitsMet g tl cp st ld then some (r, 0#64) else none
  | .gbar phase r => (gbarResult s g phase).map fun v => (r, v)
  | _ => none

/-- A GBAR arrives when its release is over, or when its launch is broken meanwhile, and its arrival stands in what younger accesses would give
back (R241, R242, R249). A release that times out lets it arrive: R426 has the waiting instruction raise TIMEOUT, R234 gives GBAR no such
cause (DESIGN CHOICE, log 167). -/
def arriveSlot (s : State) (g : Gang) (x : PcSlot) : State :=
  match (g.arch.slot x).wait with
  | .gbarRelease id phase r =>
    let isOver := match findTask s id with
      | some t => decide (t.stage = 6)
      | none => true
    let broken := match gangLaunch s g with
      | some l => launchBroken s l
      | none => true
    if isOver || broken then patchWait (putGang (dropTask s id) { g with arch := g.arch.setWait x (.gbar phase r) }) g x (.gbar phase r) else s
  | _ => s

/-- End the wait of one slot if it is over. A slot that a trap of the other has stopped goes on waiting, and a halted gang's
instruction is executed again after restore (R249). -/
def endWait (s : State) (id : GangId) (x : PcSlot) : State :=
  match findGang s id with
  | none => s
  | some g =>
    if !g.halted && (g.arch.slot x).live && modeReady g.arch x then
      let s := arriveSlot s g x
      match findGang s id with
      | none => s
      | some g =>
        match waitResult s g (g.arch.slot x).wait with
        | some (r, v) => retireSlot s g x r v
        | none => s
    else s

/-- End every wait that is over. -/
def endWaits (s : State) : State :=
  (s.gangs.map fun g => g.id).foldl (fun s id => endWait (endWait s id .a) id .b) s

/-- SLEEP_EXPIRY: a slot's deadline is reached (R222). -/
def execSleepExpiry (id : GangId) (x : PcSlot) (s : State) : Res :=
  match findGang s id with
  | none => idle s
  | some g =>
    match (g.arch.slot x).wait with
    | .sleep deadline r =>
      if deadline ≤ dieTick s id.die ∧ !g.halted ∧ (g.arch.slot x).live ∧ modeReady g.arch x then .next (retireSlot s g x r 0#64) else idle s
    | _ => idle s

end Sys2Proof.Machine
end

