-- ==== Sys2Proof/Machine/Group.lean ====
section
/-!
DEFINITION. Groups of work (08_group R195-R208, R223-R226; 01_device R19; 04_registers R94): placement from bind records, spawn
queues and mailboxes, the instructions SPAWN, MBXRD and MBXFWD, and the ends of gangs, blocks, die groups and launches.
-/
namespace Sys2Proof.Machine

/-! ## Fitting a block on a core (R19, R94, R203) -/

/-- Bytes of scratchpad that allocations may take. -/
def scratchLimit : Nat := 458752

/-- Blocks with an allocation on a core. -/
def residents (s : State) (die core : Nat) : List Block :=
  s.blocks.filter fun b => decide (b.die = die) && decide (b.core = core) && residentBlock b && decide (b.size > 0)

/-- A range is free of every allocation. -/
def rangeFree (l : List Block) (base size : Nat) : Bool :=
  decide (base + size ≤ scratchLimit) && l.all fun b => decide (base + size ≤ b.base) || decide (b.base + b.size ≤ base)

/-- The lowest place of an allocation (R19): position 0 or the end of a resident one. -/
def freeBase (s : State) (die core size : Nat) : Option Nat :=
  if size = 0 then some 0
  else
    let l := residents s die core
    (0 :: l.map fun b => b.base + b.size).foldl (fun m x =>
      if rangeFree l x size then (match m with
        | none => some x
        | some y => some (min x y)) else m) none

/-- The gang places that resident blocks hold, and ended gangs' among them (R196). -/
def takenPlaces (s : State) : List GangId := s.blocks.flatMap fun b => b.places

/-- Slots of each gang that are not free for another: its reservation and what it has borrowed (R94). -/
def gangLoads (s : State) : List (GangId × Nat) := s.gangs.map fun g => (g.id, g.budget + 16 + g.arch.borrowed)

/-- Slots of a scheduler's pool that are not free. -/
def slotsTaken (l : List (GangId × Nat)) (die core sched : Nat) : Nat :=
  ((l.filter fun g => decide (g.1.die = die) && decide (g.1.core = core) && decide (g.1.sched = sched)).map fun g => g.2).foldl (· + ·) 0

/-- The lowest free gang place of a scheduler. -/
def freePlace (l : List GangId) (die core sched : Nat) : Option Nat :=
  (List.range 16).find? fun p => !l.contains { die := die, core := core, sched := sched, place := p }

/-- Give one gang a scheduler: the lowest with a free place and room for its reservation (R94, R203). -/
def giveOne (taken : List GangId) (l : List (GangId × Nat)) (die core budget : Nat) : Option GangId :=
  (List.range 4).foldl (fun m sched => match m with
    | some g => some g
    | none => match freePlace taken die core sched with
      | some p => if slotsTaken l die core sched + budget + 16 ≤ 16384 then some { die := die, core := core, sched := sched, place := p } else none
      | none => none) none

/-- Give `n` gangs schedulers in gang order. -/
def giveGangs : Nat → List GangId → List (GangId × Nat) → Nat → Nat → Nat → Option (List GangId)
  | 0, _, _, _, _, _ => some []
  | n + 1, taken, l, die, core, budget =>
    match giveOne taken l die core budget with
    | none => none
    | some g => (giveGangs n (taken ++ [g]) (l ++ [(g, budget + 16)]) die core budget).map fun r => g :: r

/-- R372: an allocation is rounded up to a multiple of 128. -/
def allocSize (n : Nat) : Nat := (n + 127) / 128 * 128

/-- A core can take a block of a record: its base and its gangs' places (R203). -/
def fitCore (s : State) (die core : Nat) (r : BindRec) : Option (Nat × List GangId) :=
  if !r.cores.getLsbD core || (getDie s die).failedCores.getLsbD core then none
  else
    match freeBase s die core (allocSize r.scratch) with
    | none => none
    | some b => (giveGangs (r.gangsM1 + 1) (takenPlaces s) (gangLoads s) die core r.budget).map fun g => (b, g)

/-! ## Placing (R199, R203, R228) -/

/-- Clear an allocation's bytes. -/
def zeroScratch (s : State) (die core base size : Nat) : State :=
  modCore s die core fun c =>
    { c with scratch := c.scratch.filter fun x => !(decide (base ≤ x.1) && decide (x.1 < base + size)),
             scratchPoison := c.scratchPoison.filter fun w => !(decide (base ≤ 4 * w) && decide (4 * w < base + size)) }

/-- Place one block with its gangs on a core. -/
def placeBlock (s : State) (die core : Nat) (r : BindRec) (index : BitVec 32) (cgroup rank base : Nat) (ids : List GangId)
    (dispatcher : Bool) (entry : BitVec 32) : State :=
  let size := allocSize r.scratch
  let b : Block :=
    { uid := s.nextUid, ctx := r.ctx, die := die, core := core, cgroup := cgroup, rank := rank, dgroup := r.dgroup, index := index,
      grid := r.grid, base := if size = 0 then 0 else base, size := size, kdesc := r.kdesc, args := r.args, argLen := r.argLen,
      state := .resident, fail := none, chans := Vector.replicate 8 .closed, dispatcher := dispatcher, places := ids }
  let gangs := (ids.zip (List.range ids.length)).map fun x => newGang x.1 r.ctx b.uid x.2 dispatcher r.budget r.noborrow entry s.tick
  let s := zeroScratch s die core b.base size
  { s with blocks := s.blocks ++ [b], gangs := s.gangs ++ gangs, nextUid := s.nextUid + 1 }

/-- The lowest `k` cores of a cluster that fit, with what each gives. -/
def clusterFit (s : State) (die cl k : Nat) (r : BindRec) : Option (List (Nat × Nat × List GangId)) :=
  let l := (List.range 8).filterMap fun j => (fitCore s die (8 * cl + j) r).map fun f => (8 * cl + j, f.1, f.2)
  if l.length < k then none else some (l.take k)

/-- Search order over the clusters (R203). -/
def searchOrder (r : BindRec) : List Nat :=
  (List.range 16).map fun j => if r.spread then (r.lastcl + 1 + j) % 16 else j

/-- Where the record's next cluster group goes. -/
def groupPlace (s : State) (die : Nat) (r : BindRec) (k : Nat) : List Nat → Option (Nat × List (Nat × Nat × List GangId))
  | [] => none
  | c :: rest =>
    match clusterFit s die c k r with
    | some l => some (c, l)
    | none => groupPlace s die r k rest

/-- The entry offset of a record's kernel. -/
def recEntry (s : State) (r : BindRec) : BitVec 32 :=
  match findKernel s r.ctx r.kdesc with
  | some k => k.entry
  | none => 0#32

/-- Place the record's next cluster group as one step: the state and the record afterwards. -/
def placeGroup (s : State) (die : Nat) (r : BindRec) : Option (State × BindRec) :=
  if r.left = 0 then none
  else
    let k := min (r.clustM1 + 1) r.left
    match groupPlace s die r k (searchOrder r) with
    | none => none
    | some (cl, l) =>
      let cg := s.nextUid
      let s := { s with nextUid := s.nextUid + 1 }
      let s := (l.zip (List.range k)).foldl (fun s x =>
        placeBlock s die x.1.1 r (r.next + BitVec.ofNat 32 x.2) cg x.2 x.1.2.1 x.1.2.2 false (recEntry s r)) s
      let s := modGroup s r.dgroup fun d => { d with state := match d.state with
        | .posted | .bound => .running
        | x => x }
      some (s, { r with next := r.next + BitVec.ofNat 32 k, left := r.left - k, lastcl := if r.spread then cl else r.lastcl })

/-- Place as many groups of a record as fit. -/
def placeRecord : Nat → State → Nat → BindRec → State × BindRec
  | 0, s, _, r => (s, r)
  | n + 1, s, die, r =>
    match placeGroup s die r with
    | none => (s, r)
    | some (s', r') => placeRecord n s' die r'

/-- A cooperative record is placed only in one step in which all of its blocks fit (R204). -/
def placeRec (s : State) (die : Nat) (r : BindRec) : State × BindRec :=
  let p := placeRecord (r.left + 1) s die r
  if r.coop && decide (p.2.left ≠ 0) then (s, r) else p

/-- The context of a record is ACTIVE. -/
def ctxActive (s : State) (ctx : Nat) : Bool :=
  match findContext s ctx with
  | some c => decide (c.state = .active)
  | none => false

/-- Put a record at its index; a non-standing record whose LEFT is 0 is free (R202). -/
def putBind (s : State) (die i : Nat) (r : BindRec) : State :=
  modDie s die fun d =>
    { d with binds := (d.binds.filter fun b => decide (b.1 < i)) ++ (if decide (r.left = 0) && !r.standing then [] else [(i, r)])
                        ++ d.binds.filter fun b => decide (i < b.1) }

/-- Serve the valid records of a die in ascending index (R203). -/
def placeAll (s : State) (die : Nat) : State :=
  ((getDie s die).binds.map fun b => b.1).foldl (fun s i =>
    match (getDie s die).binds.find? fun b => decide (b.1 = i) with
    | none => s
    | some (_, r) =>
      if r.valid && ctxActive s r.ctx && !dieLost s die then
        let p := placeRec s die r
        putBind p.1 die i p.2
      else s) s

/-- Some record of the die can place a group. -/
def canPlace (s : State) (die : Nat) : Bool :=
  !dieLost s die && (getDie s die).binds.any fun b => b.2.valid && ctxActive s b.2.ctx && decide ((placeRec s die b.2).2.left < b.2.left)

/-- A placement opportunity arises on a die: a record is written, a gang or a block ends, a scratchpad shrinks (R203), or a context begins
or goes on running there, for the records that it has (DESIGN CHOICE, log 170). -/
def giveChance (s : State) (die : Nat) : State := modDie s die fun d => { d with chance := true }

/-- PLACEMENT_OPPORTUNITY (R203). -/
def execPlacementOpportunity (die : Nat) (s : State) : Res :=
  if (getDie s die).chance then .next (placeAll (modDie s die fun d => { d with chance := false }) die) else idle s

/-! ## Records (R204, R205) -/

/-- The machine with nothing placed on the die; for a cooperative record the dispatchers stay (R204). -/
def emptyDie (s : State) (die : Nat) (coop : Bool) : State :=
  { s with gangs := s.gangs.filter fun g => decide (g.id.die ≠ die) || (coop && g.dispatcher),
           blocks := s.blocks.filter fun b => decide (b.die ≠ die) || (coop && b.dispatcher) }

/-- A record's blocks could fit: one of them on some core, or all together for a cooperative record (R204). -/
def couldFit (s : State) (die : Nat) (r : BindRec) : Bool :=
  let e := emptyDie s die r.coop
  if r.coop then decide ((placeRecord (r.left + 1) e die r).2.left = 0)
  else (List.range 128).any fun c => (fitCore e die c r).isSome

/-- Cores of a die that a partition holds. -/
def partCores (c : Context) (die : Nat) : BitVec 128 :=
  if c.diemask.getLsbD die then
    (List.range 128).foldl (fun m k => if c.clusters.getLsbD (k / 8) then m ||| (1#128 <<< k) else m) 0#128
  else 0#128

/-- A record for a range of a kernel's blocks (R202). -/
def recordFor (c : Context) (k : Kernel) (die : Nat) (q : SpawnReq) (dgroup : Nat) : BindRec :=
  { kdesc := q.kdesc, args := q.args, next := q.first, left := q.count.toNat, grid := q.grid, token := q.token,
    cores := partCores c die, budget := k.budget, gangsM1 := k.gangsM1, clustM1 := k.clustM1, scratch := k.scratch, lastcl := 15,
    spread := k.spread, noborrow := k.noborrow, coop := k.coop, standing := false, valid := true, ctx := c.num,
    argLen := q.argLen, dgroup := dgroup }

/-- What the device keeps of the blocks of a token on a die, before a bind record carries the token. -/
def newGroup (s : State) (ctx die : Nat) (token : BitVec 32) (launch : Option Nat) (due argLen : Nat) : DieGroup :=
  { uid := s.nextUid, ctx := ctx, die := die, token := token, launch := launch, state := .posted, due := due, left := 0,
    argLen := argLen, fail := none, faults := 0, task := none, tooLarge := false }

/-- The die group that a request's blocks belong to: named, or the one of its token (R195). -/
def groupFor (s : State) (die ctx : Nat) (q : SpawnReq) : State × Nat :=
  match q.dgroup with
  | some u => (s, u)
  | none =>
    match s.groups.find? fun d => decide (d.die = die) && decide (d.ctx = ctx) && decide (d.token = q.token) with
    | some d => (s, d.uid)
    | none =>
      ({ s with groups := s.groups ++ [newGroup s ctx die q.token none q.count.toNat q.argLen], nextUid := s.nextUid + 1 }, s.nextUid)

/-- A record carries blocks of a group, which the first such record makes BOUND (R195, R197). -/
def bindBlocks (s : State) (u n : Nat) : State :=
  modGroup s u fun d => { d with due := d.due - n, left := d.left + n, state := match d.state with
    | .posted => .bound
    | x => x }

/-- A record's blocks can never fit: its group completes LAUNCH_TOO_LARGE, and none of them starts (R204). -/
def refuseBlocks (s : State) (u n : Nat) : State := modGroup s u fun d => { d with due := d.due - n, tooLarge := true }

/-- The lowest free record. -/
def freeBind (d : Die) : Option Nat := (List.range 64).find? fun i => !d.binds.any fun b => decide (b.1 = i)

/-- The standing record that serves a request: of several that match, the one with the lowest index, and its LEFT alone tells whether the
request waits (DESIGN CHOICE, log 169). -/
def standingFor (d : Die) (ctx : Nat) (q : SpawnReq) : Option (Nat × BindRec) :=
  d.binds.find? fun b => b.2.standing && b.2.valid && decide (b.2.ctx = ctx) && decide (b.2.kdesc = q.kdesc)

/-- Turn the head of a context's spawn queue on a die into a record: none when it must wait (R205). -/
def takeSpawn (s : State) (die ctx : Nat) : Option State :=
  match (getMailbox s die ctx).spawnq, findContext s ctx with
  | q :: rest, some c =>
    let s' := modMailbox s die ctx fun m => { m with spawnq := rest }
    match standingFor (getDie s die) ctx q with
    | some (i, r) =>
      if r.left ≠ 0 then none
      else
        let g := groupFor s' die ctx q
        some (putBind (bindBlocks g.1 g.2 q.count.toNat) die i
          { r with next := q.first, left := q.count.toNat, args := q.args, grid := q.grid, token := q.token, argLen := q.argLen, dgroup := g.2 })
    | none =>
      match findKernel s ctx q.kdesc, freeBind (getDie s die) with
      | some k, some i =>
        let g := groupFor s' die ctx q
        let r := recordFor c k die q g.2
        if couldFit g.1 die r then some (putBind (bindBlocks g.1 g.2 q.count.toNat) die i r)
        else some (refuseBlocks g.1 g.2 q.count.toNat)
      | _, _ => none
  | _, _ => none

/-- A record whose blocks no longer fit, because a core of its die has failed: none of those left starts, and its group completes
LAUNCH_TOO_LARGE (R204, R459). A cooperative launch of it is broken, since its phases cannot complete (R242). -/
def refuseRecord (s : State) (die i : Nat) (r : BindRec) : State :=
  let s := match (findGroup s r.dgroup).bind fun d => d.launch with
    | some u => if r.coop then modLaunch s u fun l => { l with broken := true } else s
    | none => s
  putBind (modGroup s r.dgroup fun d => { d with left := d.left - r.left, tooLarge := true }) die i { r with left := 0 }

/-- Records that failed cores leave without room (R459). -/
def refuseUnfit (s : State) : State :=
  (List.range 8).foldl (fun s die =>
    if (getDie s die).failedCores = 0#128 then s
    else (getDie s die).binds.foldl (fun s b =>
      if b.2.left ≠ 0 ∧ !couldFit s die b.2 then refuseRecord s die b.1 b.2 else s) s) s

/-- SLOT_RECORD_WRITE (R205). -/
def execSlotRecordWrite (die ctx : Nat) (s : State) : Res :=
  if !ctxActive s ctx || dieLost s die then idle s
  else
    match takeSpawn s die ctx with
    | some s' => .next (giveChance s' die)
    | none => idle s

/-! ## Mailboxes and the dispatcher (R206, R207, R224, R225) -/

/-- Fields of a LAUNCH packet or share (R393). -/
def launchGrid (p : BitVec 512) : BitVec 32 := p.extractLsb' 32 32
def launchKdesc (p : BitVec 512) : BitVec 64 := p.extractLsb' 64 64
def launchArgs (p : BitVec 512) : BitVec 64 := p.extractLsb' 128 64
def launchArgLen (p : BitVec 512) : Nat := (p.extractLsb' 192 32).toNat
def launchFirst (p : BitVec 512) : BitVec 32 := p.extractLsb' 224 32
def launchCount (p : BitVec 512) : BitVec 32 := p.extractLsb' 256 32

/-- Post a packet to a context's mailbox. The device keeps a LAUNCH share under its sequence number, which is the token of its die
group. The group lasts until COUNT blocks of the share have been bound and have ended, though a dispatcher of software's own may spawn
fewer (DESIGN CHOICE, log 168). -/
def postPacket (s : State) (die ctx : Nat) (p : BitVec 512) (launch : Option Nat) : State :=
  let q := (getMailbox s die ctx).seq
  let s := modMailbox s die ctx fun m => { m with packets := m.packets ++ [(q, p)], seq := m.seq + 1#32 }
  if packetKind p = 1 then
    { s with groups := s.groups ++ [newGroup s ctx die q launch (launchCount p).toNat (launchArgLen p)], nextUid := s.nextUid + 1 }
  else s

/-- The request by which the Densetric dispatcher spawns a LAUNCH range (R207). -/
def shareRequest (q : BitVec 32) (p : BitVec 512) : SpawnReq :=
  { kdesc := launchKdesc p, args := launchArgs p, first := launchFirst p, count := launchCount p, grid := launchGrid p, token := q,
    argLen := launchArgLen p, dgroup := none }

/-- A loaded kernel of the context. -/
def loadedKernel (s : State) (ctx : Nat) (kdesc : BitVec 64) : Bool :=
  match findKernel s ctx kdesc with
  | some k => decide (k.state = .loaded)
  | none => false

/-- The die group of a mailbox packet's sequence number ends CANCELLED with no block of it started. -/
def cancelShare (s : State) (die ctx : Nat) (q : BitVec 32) : State :=
  { s with groups := s.groups.map fun d =>
      if d.die = die ∧ d.ctx = ctx ∧ d.token = q ∧ d.left = 0 then
        { d with due := 0, fail := addFailure d.fail { status := stCancelled, cause := 0#8, pc := 0#32, tick := s.tick, die := die,
                                                       core := 0, kind := 0, sub := 0, seq := 0 } }
      else d }

/-- The Densetric dispatcher of a context on a die takes its mailbox's head packet while its spawn queue has room (R207). A share
whose kernel is no longer LOADED is not spawned, and its die group is CANCELLED (R377). -/
def dispatchMail (s : State) (m : Mailbox) : State :=
  match m.packets with
  | [] => s
  | (q, p) :: rest =>
    if m.spawnq.length ≥ 256 then s
    else if packetKind p = 1 && !loadedKernel s m.ctx (launchKdesc p) then
      cancelShare (modMailbox s m.die m.ctx fun x => { x with packets := rest }) m.die m.ctx q
    else modMailbox s m.die m.ctx fun x =>
      { x with packets := rest, spawnq := if packetKind p = 1 then x.spawnq ++ [shareRequest q p] else x.spawnq }

/-- Contexts with the Densetric program. -/
def dispatchAll (s : State) : State :=
  s.mailboxes.foldl (fun s m => match findContext s m.ctx with
    | some c => if c.state = .active ∧ c.dispatch = 0#64 ∧ !dieLost s m.die then dispatchMail s (getMailbox s m.die m.ctx) else s
    | none => s) s

/-- A MBXRD.WAIT goes on once a packet is posted (R224). The Densetric program's gang, which the die runs itself, stays. -/
def wakeMail (s : State) : State :=
  { s with gangs := s.gangs.map fun g =>
      let wake := fun (sl : Slot) => match sl.wait with
        | .mailbox =>
          if decide ((getMailbox s g.id.die g.ctx).packets ≠ []) && (match findBlock s g.block with
            | some b => decide (b.kdesc ≠ 0#64)
            | none => true) then { sl with wait := .none } else sl
        | _ => sl
      { g with arch := { g.arch with slotA := wake g.arch.slotA, slotB := wake g.arch.slotB } } }

/-- The shape of SPAWN, MBXRD and MBXFWD: the read, PRIVILEGE, and a span of the block's own allocation (R223-R225); one that the slot has
begun goes on at its span. -/
def scratchOp (h : Head) (d a : Opnd) (off : BitVec 32) (size : Nat) (dispatcherOnly : Bool) (k : Access) (s : State)
    (f : Ctx → Reads → Nat → Nat → Nat → Res) : Res :=
  issue s h.guard fun c =>
    match c.begun with
    | some p => f c [] c.g.id.die c.g.id.core (p.vals.headD 0#64).toNat
    | none =>
    match deadCheck c.a (single [a]) with
    | some x => c.halt x
    | none =>
      let kills := headKills h a .zero .zero
      if c.act = 0#32 then c.commit (killRegs c.a kills)
      else if dispatcherOnly && !c.g.dispatcher then c.trap cPrivilege (freeNow c.s)
      else
        match firstHalt [privCheck c [a, d], wordCheck c.a [a]] with
        | some x => c.halt x
        | none =>
          let va := scalarAddr c .scratch a off size
          match (spaceTarget c.s c.g .scratch va size k).2 with
          | .inr (.scratch die core pos) => f c kills die core pos
          | _ => c.trap cProtection va

/-- The request that a SPAWN reads, for the gang's own group unless it is the dispatcher (R223). -/
def spawnRequest (s : State) (g : Gang) (x : BitVec 256) : SpawnReq :=
  let own := match findBlock s g.block with
    | some b => b.dgroup
    | none => 0
  let argLen := match findGroup s own with
    | some d => d.argLen
    | none => 0
  let token : BitVec 32 := x.extractLsb' 224 32
  { kdesc := x.extractLsb' 0 64, args := x.extractLsb' 64 64, first := x.extractLsb' 128 32, count := x.extractLsb' 160 32,
    grid := x.extractLsb' 192 32, token := token,
    argLen := if g.dispatcher then (match s.groups.find? fun d => decide (d.die = g.id.die) && decide (d.ctx = g.ctx) && decide (d.token = token) with
      | some d => d.argLen
      | none => 0) else argLen,
    dgroup := if g.dispatcher then none else some own }

/-- SPAWN's status and the state after it (R223). The order of 2 before 1 is a DESIGN CHOICE (log 144). -/
def spawnEffect (s : State) (g : Gang) (q : SpawnReq) : State × DWord :=
  if q.count = 0#32 ∨ q.first.toNat + q.count.toNat > q.grid.toNat ∨ !loadedKernel s g.ctx q.kdesc then (s, 2#64)
  else if (getMailbox s g.id.die g.ctx).spawnq.length ≥ 256 then (s, 1#64)
  else
    let s := modMailbox s g.id.die g.ctx fun m => { m with spawnq := m.spawnq ++ [q] }
    match q.dgroup with
    | some u => (modGroup s u fun d => { d with due := d.due + q.count.toNat }, 0#64)
    | none => (s, 0#64)

/-- SPAWN: a release at die scope, then the request (R223, R226). -/
def execSpawn (h : Head) (d a : Opnd) (off : BitVec 32) (s : State) : Res :=
  scratchOp h d a off 32 false .read s fun c kills die core pos =>
    c.withTask (.spawn h d a off) (fullTask c.s c.g .die) d kills [BitVec.ofNat 64 pos] false fun c _ =>
      if scratchPoisoned c.s die core pos 32 then c.spoil
      else
        let r := spawnEffect c.s c.g (spawnRequest c.s c.g (BitVec.ofNat 256 (scratchNat c.s die core pos 32)))
        c.afterRisk (c.finish d kills r.2 fun _ => r.1)

/-- MBXRD (R224). -/
def execMbxrd (h : Head) (d a : Opnd) (off : BitVec 32) (wait : Bool) (s : State) : Res :=
  scratchOp h d a off 64 true .write s fun c kills die core pos =>
    match (getMailbox c.s c.g.id.die c.g.ctx).packets with
    | [] =>
      if !wait then c.commit (writeScalar (killRegs c.a kills) d 0#64)
      else if c.begun.isSome then c.hold .mailbox
      else .next (c.begin (.mbxrd h d a off wait) .mailbox d kills [BitVec.ofNat 64 pos] false)
    | (q, p) :: rest =>
      if heldBytes c.s c.g.id c.op [(.scratch die core pos, 64)] then c.hold .order
      else
        c.afterRisk (c.finish d kills (((q.setWidth 64 : BitVec 64) <<< (32 : Nat)) ||| 1#64)
          fun s => scratchWrite (modMailbox s c.g.id.die c.g.ctx fun m => { m with packets := rest }) die core pos (bytesOfNat 64 p.toNat))

/-- MBXFWD's status and the state after it (R225). The order of 3, 2 and 1 is a DESIGN CHOICE (log 144). -/
def forwardEffect (s : State) (g : Gang) (die : Nat) (p : BitVec 512) : State × DWord :=
  match findContext s g.ctx with
  | none => (s, 3#64)
  | some c =>
    if partCores c die = 0#128 then (s, 3#64)
    else if dieLost s die then (s, 2#64)
    else if (getMailbox s die g.ctx).packets.length ≥ 256 then (s, 1#64)
    else (postPacket s die g.ctx p none, 0#64)

/-- The post of a MBXFWD waits for a route to a mailbox's die (R16, R424). -/
def postOpen (s : State) (g : Gang) (die : Nat) : Bool :=
  dieLost s die || dieReach s g.id.die die || (match findContext s g.ctx with
    | some c => decide (partCores c die = 0#128)
    | none => true)

/-- MBXFWD: a release at package scope, then the post (R225, R226). -/
def execMbxfwd (h : Head) (d a : Opnd) (off : BitVec 32) (die : BitVec 3) (s : State) : Res :=
  scratchOp h d a off 64 true .read s fun c kills k core pos =>
    c.withTask (.mbxfwd h d a off die) (fullTask c.s c.g .pkg) d kills [BitVec.ofNat 64 pos] false fun c _ =>
      if scratchPoisoned c.s k core pos 64 then c.spoil
      else if !postOpen c.s c.g die.toNat then c.hold (.walk c.s.tick (24 + die.toNat))
      else
        let r := forwardEffect c.s c.g die.toNat (BitVec.ofNat 512 (scratchNat c.s k core pos 64))
        c.afterRisk (c.finish d kills r.2 fun _ => r.1)

/-! ## Ends (R196, R197, R200, R201) -/

/-- A gang whose every lane has exited and whose accesses are over (R200, R201, R267). -/
def gangOver (s : State) (g : Gang) : Bool :=
  !g.halted && decide (g.arch.mode = .running) && !g.arch.slotA.live && !g.arch.slotB.live && decide (topPath g.arch g.arch.sp = none)
    && s.pend.all (fun p => decide (p.gang ≠ g.id) || (p.kind.runsOn && !p.kind.countsSt))
    && s.tasks.all (fun t => decide (t.gang ≠ some g.id))

/-- The dispatcher begins again at its entry (R207). -/
def restartGang (s : State) (g : Gang) : State :=
  putGang s (newGang g.id g.ctx g.block g.index true g.budget g.noborrow (match ownKernel s g with
    | some k => k.entry
    | none => 0#32) s.tick)

/-- GANG_END: the gang ends normally. A time-out or a lost home that a posted write or a background fence has met makes its block report
FAILED_KILLED, with cause 0x12 for the time-out and else 0 (R198, R201, R267, R276). -/
def execGangEnd (id : GangId) (s : State) : Res :=
  match findGang s id with
  | none => idle s
  | some g =>
    if !gangOver s g then idle s
    else
      match worstFault (g.posted.map (fun x => (x.cause, x.tval)) ++ g.fenceFault.toList) with
      | some f => .next (failGang s g stFailedKilled (if f.1 = cTimeout then cTimeout else 0#8) 0#32)
      | none => if g.dispatcher then .next (restartGang s g) else .next (removeGang s id)

/-- A chain of the block is not complete. -/
def blockChains (s : State) (uid : Nat) : Bool :=
  s.chains.any fun c => match c.origin with
    | .block u _ => decide (u = uid)
    | .packet _ _ => false

/-- The block of a dispatcher gang lasts as long as its context runs (R207, R407). -/
def dispatcherStays (s : State) (b : Block) : Bool :=
  b.dispatcher && (match findContext s b.ctx with
    | some c => decide (c.state ≠ .destroying ∧ c.state ≠ .faulted)
    | none => false)

/-- The block has ended (R196). -/
def blockOver (s : State) (b : Block) : Bool :=
  !dispatcherStays s b && residentBlock b && s.gangs.all (fun g => decide (g.block ≠ b.uid)) && !blockChains s b.uid
    && s.guest.jobs.all (fun j => decide (j.block ≠ b.uid))

/-- Blocks that are over leave their core, and their die groups count them (R196, R197). -/
def endBlocks (s : State) : State :=
  s.blocks.foldl (fun s b =>
    if blockOver s b then
      modGroup (giveChance { s with blocks := s.blocks.filter fun x => decide (x.uid ≠ b.uid) } b.die) b.dgroup fun d => { d with left := d.left - 1 }
    else s) s

/-- A group with no block left begins its release at system scope, which covers every write of its gangs: those that a gang has left
behind at its end too (R197, R201). -/
def groupRelease (s : State) (d : DieGroup) : State :=
  let t := { unitTask s d.die (List.range 16) .sys with
    ops := (s.pend.filter fun p => decide (p.gang.die = d.die) && (p.kind.runsOn || (p.kind.isStore && (findGang s p.gang).isNone))).map fun p => p.op }
  modGroup (addTask s t) d.uid fun d => { d with state := .releasing, task := some t.id }

/-- Die groups whose last block has ended. -/
def endGroups (s : State) : State :=
  s.groups.foldl (fun s d =>
    match findGroup s d.uid with
    | none => s
    | some d => if (d.state = .running ∨ d.state = .bound ∨ d.state = .posted) ∧ d.due = 0 ∧ d.left = 0 then groupRelease s d else s) s

/-- The status that a launch's first failure gives (R198, R400). -/
def launchStatus (l : Launch) : Nat :=
  match l.fail with
  | some f => f.status
  | none => stOk

/-- DIE_GROUP_DONE: the release is over and the group is reported to its launch (R197, R398). A round that met a lost home makes
it HOME_LOST. -/
def execDieGroupDone (u : Nat) (s : State) : Res :=
  match findGroup s u with
  | none => idle s
  | some d =>
    match d.task with
    | none => idle s
    | some id =>
      match findTask s id with
      | none => idle s
      | some t =>
        if t.stage ≠ 6 then idle s
        else
          let mk := fun (st : Nat) => ({ status := st, cause := 0#8, pc := 0#32, tick := s.tick, die := d.die, core := 0, kind := 0, sub := 0, seq := 0 } : Failure)
          let fail := match d.fail, t.fault, d.tooLarge with
            | some f, _, _ => some f
            | none, some f, _ => some (mk (if f.1 = cTimeout then stTimeout else stHomeLost))
            | none, none, true => some (mk stTooLarge)
            | none, none, false => none
          let s := dropTask { s with groups := s.groups.filter fun x => decide (x.uid ≠ u) } id
          match d.launch with
          | none => .next s
          | some l => .next (modLaunch s l fun x =>
              { x with dies := x.dies.filter (fun j => decide (j ≠ d.die)), faults := x.faults + d.faults,
                       fail := match fail with
                         | some f => addFailure x.fail f
                         | none => x.fail })

/-- A launch whose kernel is REPLAY runs again after these statuses, three times at most (R401). -/
def replays (l : Launch) : Bool := l.replay && decide (l.replays < 3) && (decide (launchStatus l = stFailedKilled) || decide (launchStatus l = stDieLost))

/-- The record of a launch (R400). -/
def launchRecord (s : State) (l : Launch) : Record :=
  { start := l.start, finish := s.tick, queue := l.queue, status := launchStatus l, pindex := l.pindex,
    pc := match l.fail with
      | some f => f.pc
      | none => 0#32,
    cause := match l.fail with
      | some f => f.cause
      | none => 0#8,
    faults := min 255 l.faults, kind := 1, replays := l.replays, now := l.packet.getLsbD 9 }

/-- A launch with what those of its die groups that have not ended have met so far. -/
def gathered (s : State) (l : Launch) : Launch :=
  (s.groups.filter fun d => decide (d.launch = some l.uid)).foldl (fun l d =>
    { l with faults := l.faults + d.faults, fail := match d.fail with
        | some f => addFailure l.fail f
        | none => l.fail }) l

/-- Launches whose die groups have all ended complete, or wait for their rerun (R398, R401). -/
def endLaunches (s : State) : State :=
  s.launches.foldl (fun s l =>
    if l.dies ≠ [] ∨ l.rerun then s
    else if replays l then modLaunch s l.uid fun x => { x with rerun := true }
    else completePacket { s with launches := s.launches.filter fun x => decide (x.uid ≠ l.uid) } l.queue (launchRecord s l)) s

end Sys2Proof.Machine
end

