-- ==== Sys2Proof/Machine/Coder.lean ====
section
/-!
DEFINITION. The fixed-rate block coder (12_engines R335-R337), the transform pipe with XENC and XDEC (R346, R347), and asking
the power governor for leave (R342, R347, R361; 19_reliability R467).
-/
namespace Sys2Proof.Machine

/-! ## The coder (R335-R337) -/

/-- Bits of the rate code's value (R327). -/
def rateBits (rate : Nat) : Nat :=
  match rate with
  | 0 => 4
  | 1 => 6
  | 2 => 8
  | _ => 12

def clampInt (x lo hi : Int) : Int := max lo (min x hi)

/-- Four values through one pass (R335), and back (R336). -/
def haar (x : Fin 4 → Int) : Fin 4 → Int
  | 0 => x 0 + x 1 + (x 2 + x 3)
  | 1 => x 0 + x 1 - (x 2 + x 3)
  | 2 => x 0 - x 1
  | 3 => x 2 - x 3
def unhaar (y : Fin 4 → Int) : Fin 4 → Int
  | 0 => ((y 0 + y 1) / 2 + y 2) / 2
  | 1 => ((y 0 + y 1) / 2 - y 2) / 2
  | 2 => ((y 0 - y 1) / 2 + y 3) / 2
  | 3 => ((y 0 - y 1) / 2 - y 3) / 2

/-- Value n of a list of sixteen. -/
def at16 (l : List Int) (n : Nat) : Int := l.getD n 0

/-- A pass over every row, and over every column, of a 4 × 4 array in row-major order. -/
def byRows (f : (Fin 4 → Int) → Fin 4 → Int) (l : List Int) : List Int :=
  (List.range 16).map fun n => f (fun k => at16 l (4 * (n / 4) + k.val)) (Fin.ofNat 4 n)
def byCols (f : (Fin 4 → Int) → Fin 4 → Int) (l : List Int) : List Int :=
  (List.range 16).map fun n => f (fun k => at16 l (4 * k.val + n % 4)) (Fin.ofNat 4 (n / 4))

/-- Exponent field and signed significand of an FP32 value, on the scale of 2^(exponent − 150). -/
def expField (v : Word) : Nat := (v.extractLsb' 23 8).toNat
def sigInt (v : Word) : Int :=
  let m := (v.extractLsb' 0 23).toNat + (if expField v = 0 then 0 else 2 ^ 23)
  if v.getLsbD 31 then -(m : Int) else (m : Int)

/-- The value times 2^(157 − e), rounded to an integer (R335). -/
def fixedOf (e : Nat) (v : Word) : Int :=
  let r := (roundQuanta .rne 0 { neg := false, m := (sigInt v).natAbs, e := (max 1 (expField v) : Nat) + 7 - (e : Int), sticky := false } 0).1
  clampInt (if v.getLsbD 31 then -(r : Int) else (r : Int)) (-2147483648) 2147483647

/-- Width and scale of coefficient n (R335). -/
def coefWidth (b n : Nat) : Nat := if n = 0 then b + 7 else b - 1
def coefScale (b n : Nat) : Nat := 36 - coefWidth b n

/-- The header and coefficients of a block (R335). -/
def encodeCoefs (v : List Word) (b : Nat) : Nat × List Int :=
  if v.any fun x => decide (expField x = 255) then (255, List.replicate 16 0)
  else
    let e := (v.map expField).foldl max 0
    let y := byCols haar (byRows haar (v.map (fixedOf e)))
    (e, (List.range 16).map fun n =>
      let w := coefWidth b n
      let s := coefScale b n
      clampInt ((at16 y n + 2 ^ (s - 1)) / 2 ^ s) (-(2 ^ (w - 1))) (2 ^ (w - 1) - 1))

/-- Lay coefficients into bits from `pos` up. -/
def layBits (b : Nat) : List Int → Nat → Nat → Nat
  | [], _, _ => 0
  | k :: rest, n, pos => (k % 2 ^ coefWidth b n).toNat * 2 ^ pos + layBits b rest (n + 1) (pos + coefWidth b n)

/-- The encoded block, as a number of 16·b bits (R335). -/
def encodeBlock (v : List Word) (b : Nat) : Nat :=
  let r := encodeCoefs v b
  r.1 + layBits b r.2 0 8

/-- A field of `w` bits as a signed number. -/
def signedField (x pos w : Nat) : Int :=
  let k := x / 2 ^ pos % 2 ^ w
  if k < 2 ^ (w - 1) then (k : Int) else (k : Int) - 2 ^ w

/-- The integers that a block decodes to, on the scale of 2^(e − 157) (R336). -/
def decodeInts (x b : Nat) : List Int :=
  let y := (List.range 16).map fun n =>
    signedField x (if n = 0 then 8 else 15 + b + (n - 1) * (b - 1)) (coefWidth b n) * 2 ^ coefScale b n
  byRows unhaar (byCols unhaar y)

/-- The FP32 values of an encoded block (R336). -/
def decodeBlock (x b : Nat) : List Word :=
  let e := x % 256
  if e = 255 then List.replicate 16 0x7FC00000#32
  else (decodeInts x b).map fun (k : Int) =>
    BitVec.ofNat 32 (packFinite ffF32 .rne 0 false
      { neg := decide (k < 0), m := k.natAbs, e := (e : Int) - 157, sticky := false }).1

/-- A finite FP32 value on the scale of 2^−149. -/
def onGrid (v : Word) : Int := sigInt v * 2 ^ (max 1 (expField v) - 1)

/-- The error of a block, in FP16 rounded upward (R337). -/
def blockError (v : List Word) (x b : Nat) : BitVec 16 :=
  if x % 256 = 255 then 0x7E00#16
  else
    let d := decodeBlock x b
    if d.any fun y => decide (expField y = 255) then 0x7C00#16
    else
      let m := ((v.zip d).map fun p => (onGrid p.1 - onGrid p.2).natAbs).foldl max 0
      BitVec.ofNat 16 (packFinite ffF16 .rup 0 false { neg := false, m := m, e := -149, sticky := false }).1

/-! ## Leave of the power governor (R342, R347, R361, R467) -/

/-- sr.leave saturates (R85). -/
def addLeave (x : BitVec 64) (n : Nat) : BitVec 64 := BitVec.ofNat 64 (min (x.toNat + n) (2 ^ 64 - 1))

/-- The governor grants a request at the latest so many ticks after it (R467). -/
def leaveLimit : Nat := 10000

/-- The governor grants a die's oldest request, whose list is then `rest`; a gang's wait is counted in its sr.leave (R347, R361,
R467). -/
def grantLeave (s : State) (die : Nat) (r : LeaveReq) (rest : List LeaveReq) : State :=
  let t := modDie s die fun d => { d with leaves := rest }
  match r with
  | .job _ _ => t
  | .pend op tick =>
    match findPend s op with
    | none => t
    | some p => modGang t p.gang fun g => { g with leave := addLeave g.leave (cyclesOf s die (min (s.tick - tick) leaveLimit)) }

/-- LEAVE_GRANT. -/
def execLeaveGrant (die : Nat) (s : State) : Res :=
  match (getDie s die).leaves with
  | [] => idle s
  | r :: rest => .next (grantLeave s die r rest)

def LeaveReq.tick : LeaveReq → Nat
  | .pend _ t | .job _ t => t

/-- A die's requests that can wait no longer are granted. -/
def grantDie (s : State) (die : Nat) : List LeaveReq → State
  | [] => s
  | r :: rest => if r.tick + leaveLimit ≤ s.tick then grantDie (grantLeave s die r rest) die rest else s

def grantOverdue (s : State) : State := (List.range 8).foldl (fun s j => grantDie s j (getDie s j).leaves) s

/-! ## The transform pipe (R346, R347) -/

/-- A transform of a core's pipe. -/
def isXform (die core : Nat) (p : Pend) : Bool :=
  decide (p.gang.die = die) && decide (p.gang.core = core) && (match p.kind with
    | .xform _ _ _ _ => true
    | _ => false)

/-- Blocks with an active lane, and the mask of the `n` low lanes of each. -/
def blockLanes (act : Mask) (n : Nat) : Mask :=
  maskOf fun i => decide (i % 16 < n) && (act.extractLsb' (16 * (i / 16)) 16 != 0#16)

/-- The sixteen source lanes of block h. -/
def blockIn (a : Arch) (o : Opnd) (h : Nat) : List Word :=
  match o with
  | .v n => (List.range 16).map fun k => vregVal (a.vreg n) (16 * h + k)
  | _ => List.replicate 16 0#32

/-- Lane i of XENC's result (R346). -/
def xencLane (a : Arch) (o : Opnd) (b i : Nat) : Word :=
  let v := blockIn a o (i / 16)
  let x := encodeBlock v b
  if i % 16 < b / 2 then BitVec.ofNat 32 (x / 2 ^ (32 * (i % 16)))
  else if i % 16 = 15 then (blockError v x b).setWidth 32
  else 0#32

/-- The encoded block that XDEC reads from block h. -/
def xdecIn (a : Arch) (o : Opnd) (b h : Nat) : Nat :=
  ((blockIn a o h).take (b / 2)).foldr (fun w x => w.toNat + 2 ^ 32 * x) 0

/-- Lane i of XDEC's result (R346). -/
def xdecLane (a : Arch) (o : Opnd) (b i : Nat) : Word := (decodeBlock (xdecIn a o b (i / 16)) b).getD (i % 16) 0#32

/-- Issue a transform: the sources are read; the pipe asks for leave when it has been idle (R347). -/
def xformOp (h : Head) (d a : Opnd) (n : Nat) (f : Arch → Nat → Word) (s : State) : Res :=
  issue s h.guard fun c =>
    match deadCheck c.a (single [a]) with
    | some x => c.halt x
    | none =>
      let kills := headKills h a .zero .zero
      if c.act = 0#32 then c.commit (killRegs c.a kills)
      else
        match firstHalt [readCheck c.a (blockLanes c.act n) (single [a]), mergeCheck c.a c.act d] with
        | some x => c.halt x
        | none =>
          let id := c.g.id
          let ask := idleUnit c.s id.die (getCore c.s id.die id.core).xfIdle && !c.s.pend.any (isXform id.die id.core)
          let s' := addPend (c.put (c.a.advance c.x)) c (spreadReads kills) (groupOpnds d 1)
            (.xform d c.act ((List.range 32).map (f c.a)) ask)
          .next (if ask then askLeave s' id.die (.pend c.s.nextOp c.s.tick) else s')

/-- XENC (R346). -/
def execXenc (h : Head) (d a : Opnd) (rate : BitVec 2) (s : State) : Res :=
  xformOp h d a 16 (fun x i => xencLane x a (rateBits rate.toNat) i) s

/-- XDEC (R346). -/
def execXdec (h : Head) (d a : Opnd) (rate : BitVec 2) (s : State) : Res :=
  xformOp h d a (rateBits rate.toNat / 2) (fun x i => xdecLane x a (rateBits rate.toNat) i) s

/-- TRANSFORM_REPLY: the pipe replies in issue order once it has leave (R347), and its result commits once no older instruction of the gang
may trap (R91, R97). -/
def execTransformReply (op : Nat) (s : State) : Res :=
  match findPend s op with
  | none => idle s
  | some p =>
    match p.kind with
    | .xform d act lanes _ =>
      if leaveAsked s p.gang.die (isPendLeave op) || olderRisk s p.gang op
          || (s.pend.any fun q => isXform p.gang.die p.gang.core q && decide (q.op < op)) then idle s
      else
        let s := modCore s p.gang.die p.gang.core fun c => { c with xfIdle := s.tick }
        .next (commitPend s p fun old a => writeLanesMax old a act d fun i => lanes.getD i 0#32)
    | _ => idle s

end Sys2Proof.Machine
end

