-- ==== Sys2Proof/Machine/Engine.lean ====
section
/-!
DEFINITION. Copy engines (12_engines R324-R334, R338-R345, R348; 15_queue R396): chain entries and their walk, job cards,
footprints and what the jobs do, the signals, and the instructions CPY and CPYK.
-/
namespace Sys2Proof.Machine

/-! ## Cards and entries (R324, R325, R327, R328) -/

/-- Bits of an entry: `w` bits from bit `lo` of the 32-bit word at byte `off`, longer fields running on. -/
def entryBits (e : BitVec 1024) (off lo w : Nat) : Nat := (e.extractLsb' (8 * off + lo) w).toNat

/-- A signed 32-bit field. -/
def entryInt (e : BitVec 1024) (off : Nat) : Int := (e.extractLsb' (8 * off) 32).toInt

def cardKind (e : BitVec 1024) : Nat := entryBits e 0 4 4
def cardCount (e : BitVec 1024) : Nat := entryBits e 40 0 32
def cardElem (e : BitVec 1024) : Nat := entryBits e 44 0 32
def cardTile (e : BitVec 1024) : Bool := e.getLsbD 20
def cardScales (e : BitVec 1024) : Bool := e.getLsbD 15
def cardEnc (e : BitVec 1024) : Bool := e.getLsbD 21
def cardCmode (e : BitVec 1024) : Nat := entryBits e 0 24 2
def cardRate (e : BitVec 1024) : Nat := entryBits e 0 22 2
def cardSfmt (e : BitVec 1024) : Nat := entryBits e 0 16 4

/-- Bits of an element in memory and in a tile's slot, by source format (R115, R332). -/
def sfmtBits (f : Nat) : Nat :=
  match f with
  | 3 | 4 => 16
  | 7 | 8 => 6
  | 9 | 13 => 4
  | _ => 8
def slotBits (f : Nat) : Nat := if sfmtBits f = 6 then 8 else sfmtBits f
/-- Kt (R332). -/
def tileK (f : Nat) : Nat := 512 / slotBits f
/-- A source format of R332. -/
def sfmtOk (f : Nat) : Bool := [3, 4, 5, 6, 7, 8, 9, 11, 12, 13].contains f

/-- Fields that must be zero when a kind does not use them. -/
def unused (l : List Nat) : Bool := l.all fun x => decide (x = 0)

/-- The card of a job keeps every rule of its kind (R327, R330-R332, R338). The alignment of a TILE job's DST is the card's: a LOOP step that
is no multiple of 64 moves the tiles as it stands (DESIGN CHOICE, log 172). -/
def cardKindOk (e : BitVec 1024) : Bool :=
  let op := entryBits e 0 26 4
  let cmode := cardCmode e
  let rate := cardRate e
  let enc := entryBits e 0 21 1
  let tileBits := entryBits e 0 8 8
  let sfmt := entryBits e 0 16 5
  let aux := entryBits e 24 0 64
  let ss := entryBits e 32 0 32
  let ds := entryBits e 36 0 32
  let elem := cardElem e
  let key := entryBits e 48 0 8
  let ctr := entryBits e 52 0 32
  let asp := entryBits e 48 12 2
  let dsp := entryBits e 48 10 2
  match cardKind e with
  | 0 =>
    if cardTile e then
      unused [op, cmode, rate, enc, ds, key, ctr] && sfmtOk (cardSfmt e) && decide (1 ≤ cardCount e) && decide (cardCount e ≤ 179)
        && decide (dsp ≠ 0) && decide (entryBits e 16 0 6 = 0) && (cardScales e || unused [aux, asp, elem])
    else unused [op, cmode, rate, enc, sfmt, tileBits, aux, asp, key, ctr]
  | 1 => unused [op, cmode, rate, enc, sfmt, tileBits, ds, key, ctr] && decide (elem % 4 = 0) && decide (4 ≤ elem) && decide (elem ≤ 4096)
  | 2 => unused [op, cmode, rate, enc, sfmt, tileBits, ss, key, ctr] && decide (elem % 4 = 0) && decide (4 ≤ elem) && decide (elem ≤ 4096)
  | 3 => decide (op ≤ 12) && unused [cmode, rate, enc, sfmt, tileBits, aux, asp, ss, ds, elem, key, ctr]
  | 4 =>
    decide (cmode ≠ 3) && unused [op, sfmt, entryBits e 0 8 7, ss, ds, elem]
      && (cardEnc e || unused [key])
      && (cardScales e || (match cmode with
        | 1 => decide (cardCount e % 4 = 0)
        | 2 => decide (cardCount e % 64 = 0)
        | _ => true))
      && ((decide (cmode = 2) && !cardScales e) || unused [aux, asp])
  | _ => false

/-- A footprint (R328). -/
structure Foot where
  addr : BitVec 64
  len : Nat
  wr : Bool
  sp : Nat
  deriving DecidableEq, Repr

/-- Footprint f of a card: none when it is not declared. -/
def footOf (e : BitVec 1024) (f : Nat) : Option Foot :=
  let o := 64 + 16 * f
  if entryBits e o 99 1 = 1 then
    some { addr := e.extractLsb' (8 * o) 64, len := entryBits e o 64 32, wr := decide (entryBits e o 98 1 = 1), sp := entryBits e o 96 2 }
  else none
def footsOf (e : BitVec 1024) : List Foot := (List.range 4).filterMap (footOf e)

def footRuleOk (e : BitVec 1024) (f : Nat) : Bool :=
  decide (entryBits e (64 + 16 * f) 100 28 = 0) && (match footOf e f with
    | none => true
    | some x => decide (x.len ≠ 0) && decide (x.sp ≠ 3))

/-- A well-formed job card; the chain of a packet has every space field 0 (R327, R328, R396). -/
def cardOk (packet : Bool) (e : BitVec 1024) : Bool :=
  decide (entryBits e 0 30 2 = 0) && decide (entryBits e 48 14 18 = 0)
    && decide (entryBits e 48 12 2 ≠ 3) && decide (entryBits e 48 10 2 ≠ 3) && decide (entryBits e 48 8 2 ≠ 3)
    && (List.range 4).all (footRuleOk e) && cardKindOk e
    && (!packet || (unused [entryBits e 48 8 6] && (List.range 4).all fun f => decide (entryBits e (64 + 16 * f) 96 2 = 0)))

/-! ## Where a chain's addresses lie -/

def chainBlock (s : State) (c : Chain) : Option Block :=
  match c.origin with
  | .block u _ => findBlock s u
  | .packet _ _ => none

def isPacket (c : Chain) : Bool :=
  match c.origin with
  | .block _ _ => false
  | .packet _ _ => true

/-- An address of a chain's card: scratch addresses count from the issuing block's allocation (R327), bytes as R256 states. A
fault code of R329, or the target. -/
def engineTarget (s : State) (c : Chain) (sp : Nat) (va : BitVec 64) (n : Nat) (k : Access) : State × (Nat ⊕ Target) :=
  match sp with
  | 0 =>
    let r := translate s c.id.die c.ctx va n k
    match r.2 with
    | .inl cause => (r.1, .inl (if cause = cPageFault then 1 else 2))
    | .inr (.bell _) => (r.1, .inl 2)
    | .inr t => (r.1, .inr t)
  | 1 =>
    match chainBlock s c with
    | none => (s, .inl 2)
    | some b =>
      let o := va.toNat % 2 ^ 32
      if o + n ≤ b.size then (s, .inr (.scratch b.die b.core (b.base + o))) else (s, .inl 2)
  | _ =>
    match chainBlock s c with
    | none => (s, .inl 2)
    | some b =>
      match rankBlock s b (va.toNat / 2 ^ 32 % 8) with
      | none => (s, .inl 2)
      | some t =>
        if va.toNat % 2 ^ 32 + n ≤ t.size then (s, .inr (.scratch t.die t.core (t.base + va.toNat % 2 ^ 32))) else (s, .inl 2)

/-- An address cut to the bits of its space (R256). -/
def cutSpace (sp : Nat) (va : BitVec 64) : BitVec 64 :=
  match sp with
  | 0 => va
  | 1 => (va.extractLsb' 0 32).setWidth 64
  | _ => (va.extractLsb' 0 35).setWidth 64

/-- The place that an address names, for footprints: global by virtual address, scratch by the core and its position (R328). -/
def placeOf (s : State) (c : Chain) (sp : Nat) (va : BitVec 64) : Option (Nat × Nat) :=
  match sp with
  | 0 => some (0, va.toNat)
  | 1 => (chainBlock s c).map fun b => (1 + b.core, b.base + va.toNat % 2 ^ 32)
  | _ => match chainBlock s c with
    | none => none
    | some b => (rankBlock s b (va.toNat / 2 ^ 32 % 8)).map fun t => (1 + t.core, t.base + va.toNat % 2 ^ 32)

/-- A job's footprint with the LOOP steps added (R328). -/
def shiftFoot (j : Job) (f : Foot) : Foot := { f with addr := cutSpace f.sp (f.addr + (if f.wr then j.dshift else j.sshift)) }

/-- A job's footprints as places: unit, first byte, bytes, write. -/
def jobFeet (s : State) (c : Chain) (j : Job) : List (Nat × Nat × Nat × Bool) :=
  (footsOf j.card).filterMap fun f =>
    let f := shiftFoot j f
    (placeOf s c f.sp f.addr).map fun p => (p.1, p.2, f.len, f.wr)

/-- A byte lies in a footprint; a byte to be written in a write footprint (R328). -/
def footHas (l : List (Nat × Nat × Nat × Bool)) (p : Nat × Nat) (wr : Bool) : Bool :=
  l.any fun f => decide (f.1 = p.1) && decide (f.2.1 ≤ p.2) && decide (p.2 < f.2.1 + f.2.2.1) && (f.2.2.2 || !wr)

/-- Two footprints overlap once rounded outward to 256 bytes. -/
def feetMeet (x y : Nat × Nat × Nat × Bool) : Bool :=
  decide (x.1 = y.1) && decide (x.2.1 / 256 ≤ (y.2.1 + y.2.2.1 - 1) / 256) && decide (y.2.1 / 256 ≤ (x.2.1 + x.2.2.1 - 1) / 256)

/-- Two jobs conflict (R328). -/
def feetConflict (l m : List (Nat × Nat × Nat × Bool)) : Bool :=
  l.any fun x => m.any fun y => (x.2.2.2 || y.2.2.2) && feetMeet x y

/-! ## A job's reads and writes -/

/-- A fault of R329 with its address. -/
abbrev JobFault := Nat × BitVec 64

/-- The chunks of `n` bytes from an address that stay inside aligned units of `u` bytes: offset and bytes. -/
def chunks (u : Nat) (va : BitVec 64) (n : Nat) : List (Nat × Nat) :=
  (List.range (n / u + 2)).filterMap fun k =>
    let lo := max va.toNat (u * (va.toNat / u + k))
    let hi := min (va.toNat + n) (u * (va.toNat / u + k + 1))
    if lo < hi then some (lo - va.toNat, hi - lo) else none

/-- An address of a scratch space that names no place lies in a declared footprint of that space: such an access meets the space
check of R329 and not the footprint check. -/
def declared (j : Job) (sp : Nat) (va : BitVec 64) (wr : Bool) : Bool :=
  (footsOf j.card).any fun f =>
    let f := shiftFoot j f
    decide (f.sp = sp) && decide (f.addr.toNat ≤ va.toNat) && decide (va.toNat < f.addr.toNat + f.len) && (f.wr || !wr)

/-- The first byte of a span that lies in no footprint. -/
def firstOutside (s : State) (c : Chain) (j : Job) (sp : Nat) (va : BitVec 64) (n : Nat) (wr : Bool) : Option (BitVec 64) :=
  let l := jobFeet s c j
  ((List.range n).find? fun k => match placeOf s c sp (va + BitVec.ofNat 64 k) with
    | some p => !footHas l p wr
    | none => !declared j sp (va + BitVec.ofNat 64 k) wr).map fun k => va + BitVec.ofNat 64 k

/-- The home that a target lies at is lost (R329). -/
def targetLost (s : State) : Target → Bool
  | .mem pa _ => homeLost s (homeOf pa)
  | _ => false

/-- An engine reaches a target: a write to its cluster cache, and a read of a line that it holds, need no home (R424). -/
def engineReach (s : State) (c : Chain) (t : Target) (wr : Bool) : Bool :=
  match t with
  | .mem pa false => wr || lineReach s c.id.die pa
      || decide (s.tick < (lineOr (getCluster s c.id.die c.id.cluster).lines (pa / 128)).leaseEnd)
  | t => targetReach s c.id.die t

/-- What an engine reads at a target, with its poison. -/
def engineGet (s : State) (c : Chain) (t : Target) (n : Nat) : State × Nat × Bool :=
  match t with
  | .mem pa true => (s, homeNat s pa n, homePoisoned s pa)
  | .mem pa false => engineRead s c.id.die c.id.cluster pa n (leaseOf s c.ctx)
  | .scratch d k pos => (s, scratchNat s d k pos n, scratchPoisoned s d k pos n)
  | .remote d a => if d = s.admin.devid.toNat then (s, homeNat s a n, homePoisoned s a) else (s, outsideNat s d a n, false)
  | .bell _ | .away _ => (s, 0, false)

/-- An engine's write at a target. -/
def enginePut (s : State) (c : Chain) (t : Target) (bytes : List Byte) : State :=
  match t with
  | .mem pa true => performHome s pa bytes []
  | .mem pa false => engineWrite s c.id.die c.id.cluster pa bytes.length (natOfBytes bytes)
  | .scratch d k pos => scratchWrite s d k pos bytes
  | .remote d a => if d = s.admin.devid.toNat then performHome s a bytes [] else s
  | .bell _ | .away _ => s

/-- The checks of one chunk: its footprint, its translation and space, its home, and its route, without which its request is not sent
(R328, R329, R424). -/
def chunkTarget (s : State) (c : Chain) (j : Job) (sp : Nat) (va : BitVec 64) (n : Nat) (wr : Bool) : State × (JobFault ⊕ Target) :=
  match firstOutside s c j sp va n wr with
  | some a => (s, .inl (3, a))
  | none =>
    let r := engineTarget s c sp va n (if wr then .write else .read)
    (r.1, match r.2 with
      | .inl f => .inl (f, va)
      | .inr t => if targetLost s t then .inl (8, va) else if !engineReach r.1 c t wr then .inl (7, va) else .inr t)

/-- Read one chunk. -/
def readChunk (s : State) (c : Chain) (j : Job) (sp : Nat) (va : BitVec 64) (n : Nat) : State × (JobFault ⊕ List Byte) :=
  let r := chunkTarget s c j sp va n false
  match r.2 with
  | .inl f => (r.1, .inl f)
  | .inr t =>
    let x := engineGet r.1 c t n
    (x.1, if x.2.2 then .inl (9, va) else .inr (bytesOfNat n x.2.1))

/-- Write one chunk. -/
def writeChunk (s : State) (c : Chain) (j : Job) (sp : Nat) (va : BitVec 64) (bytes : List Byte) : State × Option JobFault :=
  let r := chunkTarget s c j sp va bytes.length true
  match r.2 with
  | .inl f => (r.1, some f)
  | .inr t => (enginePut r.1 c t bytes, none)

/-- Read chunks in order. -/
def readChunks (c : Chain) (j : Job) (sp : Nat) (va : BitVec 64) : List (Nat × Nat) → State → State × (JobFault ⊕ List Byte)
  | [], s => (s, .inr [])
  | (o, n) :: rest, s =>
    let r := readChunk s c j sp (va + BitVec.ofNat 64 o) n
    match r.2 with
    | .inl f => (r.1, .inl f)
    | .inr b =>
      let t := readChunks c j sp va rest r.1
      (t.1, match t.2 with
        | .inl f => .inl f
        | .inr bs => .inr (b ++ bs))

/-- Bytes that a unit of work reads, in order. -/
structure Span where
  sp : Nat
  va : BitVec 64
  n : Nat
  deriving DecidableEq, Repr

/-- Read up to `n` bytes of spans from a position in them. -/
def readSpans (c : Chain) (j : Job) : List Span → Nat → Nat → State → State × (JobFault ⊕ List Byte)
  | [], _, _, s => (s, .inr [])
  | x :: rest, pos, n, s =>
    if x.n ≤ pos then readSpans c j rest (pos - x.n) n s
    else
      let k := min n (x.n - pos)
      let va := cutSpace x.sp x.va + BitVec.ofNat 64 pos
      let r := readChunks c j x.sp va (chunks 128 va k) s
      match r.2 with
      | .inl f => (r.1, .inl f)
      | .inr b =>
        if n ≤ k then (r.1, .inr b)
        else
          let t := readSpans c j rest 0 (n - k) r.1
          (t.1, match t.2 with
            | .inl f => .inl f
            | .inr bs => .inr (b ++ bs))

def spansLen (l : List Span) : Nat := (l.map Span.n).foldl (· + ·) 0

/-- Where the byte at a position of spans lies. -/
def spanPlace : List Span → Nat → Option (Nat × BitVec 64)
  | [], _ => none
  | x :: rest, pos => if x.n ≤ pos then spanPlace rest (pos - x.n) else some (x.sp, cutSpace x.sp x.va + BitVec.ofNat 64 pos)

/-- The bytes from a position of spans that up to `words` aligned 32-bit words hold, within one span (R330). -/
def jobPartBytes : List Span → Nat → Nat → Nat
  | [], _, _ => 0
  | x :: rest, pos, words =>
    if x.n ≤ pos then jobPartBytes rest (pos - x.n) words
    else min (x.n - pos) (4 * words - (cutSpace x.sp x.va + BitVec.ofNat 64 pos).toNat % 4)

def writeChunks (c : Chain) (j : Job) (sp : Nat) (va : BitVec 64) (bytes : List Byte) :
    List (Nat × Nat) → State → State × Option JobFault
  | [], s => (s, none)
  | (o, n) :: rest, s =>
    let r := writeChunk s c j sp (va + BitVec.ofNat 64 o) ((bytes.drop o).take n)
    match r.2 with
    | some f => (r.1, some f)
    | none => writeChunks c j sp va bytes rest r.1

/-- A write that a unit of work makes; `last` is one that follows every other write of its unit (R334). -/
structure JobWrite where
  sp : Nat
  va : BitVec 64
  bytes : List Byte
  last : Bool
  deriving DecidableEq, Repr

/-- The 256-byte pieces of writes (R345). -/
def piecesOf (l : List JobWrite) : List JobWrite :=
  l.flatMap fun w =>
    let va := cutSpace w.sp w.va
    (chunks 256 va w.bytes.length).map fun x =>
      { w with va := va + BitVec.ofNat 64 x.1, bytes := (w.bytes.drop x.1).take x.2 }

def writePiece (c : Chain) (j : Job) (w : JobWrite) (s : State) : State × Option JobFault :=
  writeChunks c j w.sp w.va w.bytes (chunks 128 w.va w.bytes.length) s

/-- Perform the pieces that `pick` takes, counting from `k`; the first fault stops it, or is passed over when `go` is set. A last write
is performed only after every earlier piece of its unit. -/
def writePieces (c : Chain) (j : Job) (pick : Nat → Bool) (go : Bool) : List JobWrite → Bool → Nat → State → State × Nat × Option JobFault
  | [], _, k, s => (s, k, none)
  | w :: rest, all, k, s =>
    if pick k && (!w.last || all) then
      let r := writePiece c j w s
      match r.2 with
      | some f => if go then writePieces c j pick go rest false (k + 1) r.1 else (r.1, k + 1, some f)
      | none => writePieces c j pick go rest all (k + 1) r.1
    else writePieces c j pick go rest false (k + 1) s

/-! ## COPY, GATHER and SCATTER (R330) -/

def cardSsp (j : Job) : Nat := entryBits j.card 48 8 2
def cardDsp (j : Job) : Nat := entryBits j.card 48 10 2
def cardAsp (j : Job) : Nat := entryBits j.card 48 12 2

/-- An address plus a signed multiple. -/
def strided (a : BitVec 64) (i : Nat) (st : Int) : BitVec 64 := a + BitVec.ofInt 64 (i * st)

/-- Rows of a COPY, GATHER or SCATTER: what row `i` reads, for the last two its index first, given the bytes read so far. -/
def rowSpans (j : Job) (i : Nat) (got : List Byte) : List Span :=
  let n := cardElem j.card
  let row := fun (a : BitVec 64) => ({ sp := cardSsp j, va := a, n := n } : Span)
  if cardKind j.card = 0 then [row (strided j.src i (entryInt j.card 32))]
  else
    ({ sp := cardAsp j, va := j.aux + BitVec.ofNat 64 (4 * i), n := 4 } : Span) ::
      (if got.length < 4 then []
       else if cardKind j.card = 1 then [row (strided j.src (natOfBytes (got.take 4)) (entryInt j.card 32))]
       else [row (j.src + BitVec.ofNat 64 (i * n))])

/-- The write of row `i`. -/
def rowWrites (j : Job) (i : Nat) (got : List Byte) : List JobWrite :=
  let n := cardElem j.card
  let w := fun (a : BitVec 64) (b : List Byte) => [({ sp := cardDsp j, va := a, bytes := b, last := false } : JobWrite)]
  match cardKind j.card with
  | 0 => w (strided j.dst i (entryInt j.card 36)) got
  | 1 => w (j.dst + BitVec.ofNat 64 (i * n)) (got.drop 4)
  | _ => w (strided j.dst (natOfBytes (got.take 4)) (entryInt j.card 36)) (got.drop 4)

/-! ## Canonical tiles (R332-R334) -/

/-- Elements `first` to `first + n` of an array at an address, each of `w` bits (R115): the bytes that hold them. -/
def elemSpan (sp : Nat) (a : BitVec 64) (first n w : Nat) : Span :=
  let lo := first * w / 8
  { sp := sp, va := a + BitVec.ofNat 64 lo, n := (first * w + n * w + 7) / 8 - lo }

/-- The elements out of those bytes. -/
def elemsOf (first n w : Nat) (b : List Byte) : List Nat :=
  (List.range n).map fun i => natOfBytes b / 2 ^ ((first + i) * w - 8 * (first * w / 8)) % 2 ^ w

/-- The bytes of consecutive spans. -/
def splitSpans : List Span → List Byte → List (List Byte)
  | [], _ => []
  | x :: rest, l => l.take x.n :: splitSpans rest (l.drop x.n)

/-- The 2,048 element bytes of a tile from its rows' K-runs. -/
def tileElems (slot : Nat) (rows : List (List Nat)) : List Byte :=
  let runs := rows.map fun row => (row.zipIdx.foldl (fun x e => x + e.1 * 2 ^ (slot * e.2)) 0)
  (List.range 2048).map fun n =>
    let r := n / 64
    let b := 16 * ((n % 64 / 16) ^^^ (r % 4)) + n % 16
    BitVec.ofNat 8 (runs.getD r 0 / 256 ^ b)

/-- A scale plane: rows of four bytes, 0x7F where there is no chunk. -/
def tilePlane (scales : List (List Byte)) : List Byte :=
  (List.range 128).map fun n => (scales.getD (n / 4) []).getD (n % 4) 0x7F#8

/-- The arrays that tile `t` is read from: address, first element, elements. -/
def tileArrays (j : Job) (t : Nat) : List (BitVec 64 × Nat × Nat) :=
  let e := j.card
  let kt := tileK (cardSfmt e)
  let ss := entryInt e 32
  if e.getLsbD 11 then (List.range kt).map fun k => (strided j.src (t * kt + k) ss, 0, 32)
  else (List.range 32).map fun r => (strided j.src r ss, t * kt, kt)

/-- What tile `t` of a COPY with TILE reads: its elements, then its rows' scale bytes. -/
def tileSpans (j : Job) (t : Nat) : List Span :=
  let e := j.card
  let fmt := cardSfmt e
  let n := tileK fmt / 32
  ((tileArrays j t).map fun x => elemSpan (cardSsp j) x.1 x.2.1 x.2.2 (sfmtBits fmt))
    ++ (if cardScales e then
          (List.range 32).map fun r => ({ sp := cardAsp j, va := j.aux + BitVec.ofNat 64 (r * cardElem e + t * n), n := n } : Span)
        else [])

/-- The writes of tile `t`; the header is last (R334). -/
def tileWrites (j : Job) (t : Nat) (got : List Byte) : List JobWrite :=
  let e := j.card
  let fmt := cardSfmt e
  let parts := splitSpans (tileSpans j t) got
  let arrays := tileArrays j t
  let l := (arrays.zip parts).map fun x => elemsOf x.1.2.1 x.1.2.2 (sfmtBits fmt) x.2
  let rows := if e.getLsbD 11 then (List.range 32).map fun r => l.map fun col => col.getD r 0 else l
  let elems := tileElems (slotBits fmt) rows
  let plane := tilePlane (parts.drop arrays.length)
  let crc := e.getLsbD 8
  let dst := j.dst + BitVec.ofNat 64 (2560 * t)
  [{ sp := cardDsp j, va := dst + 64#64, bytes := elems ++ plane ++ plane ++ List.replicate 192 0#8, last := false },
    { sp := cardDsp j, va := dst, last := true,
      bytes := tileHeader (e.getLsbD 9) (e.getLsbD 10) crc (cardScales e) fmt (entryBits e 0 12 3) (if crc then crc32c elems else 0#32) }]

/-! ## ENCODE (R338-R340) -/

/-- 32-bit words of bytes. -/
def wordsOfBytes (l : List Byte) : List Word :=
  (List.range (l.length / 4)).map fun k => BitVec.ofNat 32 (natOfBytes ((l.drop (4 * k)).take 4))
def bytesOfWords (l : List Word) : List Byte := l.flatMap fun w => bytesOfNat 4 w.toNat

/-- Maximal runs of equal kind: zero or not, with their words. -/
def zeroRuns : List Word → List (Bool × List Word)
  | [] => []
  | w :: rest =>
    let z := decide (w = 0#32)
    match zeroRuns rest with
    | (y, l) :: more => if y = z then (z, w :: l) :: more else (z, [w]) :: (y, l) :: more
    | [] => [(z, [w])]

/-- A lone zero word belongs to a literal (R339). -/
def markLits (l : List (Bool × List Word)) : List (Bool × List Word) :=
  l.map fun x => (x.1 && decide (x.2.length ≥ 2), x.2)
def joinLits : List (Bool × List Word) → List (Bool × List Word)
  | [] => []
  | x :: rest =>
    match joinLits rest with
    | y :: more => if !x.1 && !y.1 then (false, x.2 ++ y.2) :: more else x :: y :: more
    | [] => [x]

/-- Records of one run, split every 32,768 words. -/
def runRecords (zero : Bool) (l : List Word) : List Byte :=
  (List.range ((l.length + 32767) / 32768)).flatMap fun k =>
    let part := (l.drop (32768 * k)).take 32768
    bytesOfNat 2 (part.length - 1 + (if zero then 32768 else 0)) ++ (if zero then [] else bytesOfWords part)

/-- The zero-run stream (R339). -/
def zeroStream (l : List Word) : List Byte := (joinLits (markLits (zeroRuns l))).flatMap fun x => runRecords x.1 x.2

/-- Expand as much of a zero-run stream as is there, to at most `n` bytes; false when a record runs past them. -/
def zeroExpand : Nat → Nat → List Byte → List Byte × Bool
  | 0, _, _ => ([], true)
  | fuel + 1, n, l =>
    if l.length < 2 then ([], true)
    else
      let h := natOfBytes (l.take 2)
      let k := 4 * (h % 32768 + 1)
      if n < k then ([], false)
      else if h ≥ 32768 then
        let r := zeroExpand fuel (n - k) (l.drop 2)
        (List.replicate k 0#8 ++ r.1, r.2)
      else
        let part := (l.drop 2).take k
        if part.length < k then (part, true)
        else
          let r := zeroExpand fuel (n - k) (l.drop (2 + k))
          (part ++ r.1, r.2)

/-- Blocks of 64 bytes as FP32 values. -/
def block16 (l : List Byte) (n : Nat) : List Word := wordsOfBytes ((l.drop (64 * n)).take 64)

/-- The stream of an ENCODE job (R338) and its error table. -/
def encodeStream (cmode b : Nat) (l : List Byte) : List Byte × List Byte :=
  match cmode with
  | 1 => (zeroStream (wordsOfBytes l), [])
  | 2 =>
    let n := List.range (l.length / 64)
    (n.flatMap fun k => bytesOfNat (2 * b) (encodeBlock (block16 l k) b),
      n.flatMap fun k => bytesOfNat 2 (blockError (block16 l k) (encodeBlock (block16 l k) b) b).toNat)
  | _ => (l, [])

/-- Expand a stream to at most `n` bytes (R340). -/
def decodeStream (cmode b n : Nat) (l : List Byte) : List Byte × Bool :=
  match cmode with
  | 1 => zeroExpand (l.length + 1) n l
  | 2 =>
    let k := l.length / (2 * b)
    ((List.range (min k (n / 64))).flatMap fun i =>
        bytesOfWords (decodeBlock (natOfBytes ((l.drop (2 * b * i)).take (2 * b))) b), decide (64 * k ≤ n))
  | _ => (l.take n, decide (l.length ≤ n))

/-- The compression header of a block (R338). -/
def blockHeader (cmode rate valid ulen index : Nat) : List Byte :=
  bytesOfNat 1 cmode ++ bytesOfNat 1 rate ++ bytesOfNat 2 valid ++ bytesOfNat 4 ulen ++ bytesOfNat 4 index ++ bytesOfNat 4 0

/-- The IV of a block (R340). -/
def blockIv (k : KeySlot) (ctr index : Nat) : List Byte := bytesOfNat 4 k.salt.toNat ++ bytesOfNat 4 ctr ++ bytesOfNat 4 index

/-- The key slot that a job may use (R340). -/
def jobKey (s : State) (c : Chain) (j : Job) : Option KeySlot :=
  (getDie s c.id.die).keys.find? fun k => decide (k.slot = entryBits j.card 48 0 8) && decide (k.ctx = some c.ctx)

/-- A block of 288 bytes: 256 of stream, header and tag. -/
def sealBlock (key : Option KeySlot) (ctr index : Nat) (header data : List Byte) : List Byte :=
  match key with
  | none => data ++ header ++ List.replicate 16 0#8
  | some k =>
    let keys := aesKeys (bytesOfNat 32 k.key.toNat)
    let iv := blockIv k ctr index
    let x := gcmCrypt keys iv data
    x ++ header ++ gcmTag keys iv header x

/-- The stream bytes of a block, or the fault that it meets. `ulen` is the first block's. -/
def openBlock (key : Option KeySlot) (ctr index ulen : Nat) (l : List Byte) : Nat ⊕ List Byte :=
  let data := l.take 256
  let header := (l.drop 256).take 16
  let field := fun (o n : Nat) => natOfBytes ((header.drop o).take n)
  let plain := match key with
    | none => some data
    | some k =>
      let keys := aesKeys (bytesOfNat 32 k.key.toNat)
      let iv := blockIv k ctr (field 8 4)
      if gcmTag keys iv header data = (l.drop 272).take 16 then some (gcmCrypt keys iv data) else none
  match plain with
  | none => .inl 5
  | some p =>
    let valid := field 2 2
    if field 8 4 ≠ index ∨ field 4 4 ≠ ulen ∨ valid = 0 ∨ valid > 256 then .inl 4 else .inr (p.take valid)

/-- The encoded blocks of a stream. -/
def sealStream (key : Option KeySlot) (ctr cmode rate ulen : Nat) (l : List Byte) : List Byte :=
  (List.range ((l.length + 255) / 256)).flatMap fun i =>
    let part := (l.drop (256 * i)).take 256
    sealBlock key ctr i (blockHeader cmode rate part.length ulen i) (part ++ List.replicate (256 - part.length) 0#8)

/-- Open blocks in index order: the output up to the first that fails, and its fault (R340). -/
def openStream (key : Option KeySlot) (ctr cmode b : Nat) : List (List Byte) → Nat → Nat → List Byte → List Byte → List Byte × Option Nat
  | [], _, _, _, out => (out, none)
  | l :: rest, i, ulen, got, out =>
    let ulen := if i = 0 then natOfBytes ((l.drop 260).take 4) else ulen
    match openBlock key ctr i ulen l with
    | .inl f => (out, some f)
    | .inr p =>
      let r := decodeStream cmode b ulen (got ++ p)
      if r.2 then openStream key ctr cmode b rest (i + 1) ulen (got ++ p) r.1 else (out, some 4)

/-- A free address for a fault that has none. -/
def noAddress (s : State) : BitVec 64 := freeNow s

/-- The bytes of source that an ENCODE job reads. -/
def encodeSpan (j : Job) : Span :=
  { sp := cardSsp j, va := j.src, n := if cardScales j.card then 288 * cardCount j.card else cardCount j.card }

/-- The key of an ENCODE job with ENC (R340). -/
def encodeKey (s : State) (c : Chain) (j : Job) : Option KeySlot := if cardEnc j.card then jobKey s c j else none

/-- The writes of an ENCODE job, and the fault of its stream. It reads its whole source before it writes, so one whose read fails has
performed none of them (DESIGN CHOICE, log 145). -/
def encodeWrites (s : State) (c : Chain) (j : Job) (l : List Byte) : List JobWrite × Option JobFault :=
  let e := j.card
  let cmode := cardCmode e
  let rate := cardRate e
  let b := rateBits rate
  let ctr := entryBits e 52 0 32
  let n := cardCount e
  let key := encodeKey s c j
  if cardScales e then
    let o := openStream key ctr cmode b ((List.range n).map fun i => (l.drop (288 * i)).take 288) 0 0 [] []
    ([{ sp := cardDsp j, va := j.dst, bytes := o.1, last := false }], o.2.map fun f => (f, noAddress s))
  else
    let x := encodeStream cmode b l
    ([{ sp := cardDsp j, va := j.dst, bytes := sealStream key ctr cmode rate n x.1, last := false },
      { sp := cardAsp j, va := j.aux, bytes := x.2, last := false }], none)

/-! ## A job's units of work (R330, R345, R348) -/

/-- Units of a job: rows, tiles, elements, or an ENCODE job as one. -/
def unitCount (j : Job) : Nat := if cardKind j.card = 4 then 1 else cardCount j.card

/-- What unit `u` reads, given the bytes of it that are read. -/
def unitSpans (j : Job) (u : Nat) (got : List Byte) : List Span :=
  match cardKind j.card with
  | 3 => [{ sp := cardSsp j, va := alignTo (j.src + BitVec.ofNat 64 (4 * u)) 4, n := 4 }]
  | 4 => [encodeSpan j]
  | _ => if cardTile j.card then tileSpans j u else rowSpans j u got

/-- What a unit writes once it has read, and the fault that it meets. -/
def unitWrites (s : State) (c : Chain) (j : Job) (u : Nat) (got : List Byte) : List JobWrite × Option JobFault :=
  match cardKind j.card with
  | 4 => encodeWrites s c j got
  | _ => (if cardTile j.card then tileWrites j u got else rowWrites j u got, none)

/-- A key slot that is not bound to the job's context ends it before it reads (R340). -/
def unitEarly (s : State) (c : Chain) (j : Job) : Option JobFault :=
  if cardKind j.card = 4 ∧ cardEnc j.card ∧ (jobKey s c j).isNone then some (6, noAddress s) else none

/-- Read what is left of a unit: with an index first, once more for its row. -/
def readUnit (c : Chain) (j : Job) (u : Nat) : Nat → List Byte → State → State × (JobFault ⊕ List Byte)
  | 0, got, s => (s, .inr got)
  | fuel + 1, got, s =>
    let l := unitSpans j u got
    let r := readSpans c j l got.length (spansLen l - got.length) s
    match r.2 with
    | .inl f => (r.1, .inl f)
    | .inr b => readUnit c j u fuel (got ++ b) r.1

/-- Finish a unit that has read `got` and written `put` pieces: the state, the pieces counted, the fault met. -/
def runUnit (c : Chain) (j : Job) (pick : Nat → Bool) (go : Bool) (u : Nat) (got : List Byte) (put k : Nat) (s : State) :
    State × Nat × Option JobFault :=
  match unitEarly s c j with
  | some f => (s, k, some f)
  | none =>
    let r := readUnit c j u 2 got s
    match r.2 with
    | .inl f => (r.1, k, some f)
    | .inr b =>
      let w := unitWrites r.1 c j u b
      let x := writePieces c j pick go ((piecesOf w.1).drop put) true k r.1
      (x.1, x.2.1, match x.2.2 with
        | some f => some f
        | none => w.2)

/-- Run units in order, to the first fault, or past faults when `go` is set. -/
def runUnits (c : Chain) (j : Job) (pick : Nat → Bool) (go : Bool) : List Nat → List Byte → Nat → Nat → State → State × Option JobFault
  | [], _, _, _, s => (s, none)
  | u :: rest, got, put, k, s =>
    let r := runUnit c j pick go u got put k s
    match r.2.2 with
    | some f => if go then runUnits c j pick go rest [] 0 r.2.1 r.1 else (r.1, some f)
    | none => runUnits c j pick go rest [] 0 r.2.1 r.1

/-- What is left of a job from its progress on. -/
def runJob (s : State) (c : Chain) (j : Job) (pick : Nat → Bool) (go : Bool) : State × Option JobFault :=
  runUnits c j pick go ((List.range (unitCount j)).drop j.unit) j.got j.put 0 s

/-- Some of what is left of a job's writes, each as a free value says (R329, R426). -/
def performSome (s : State) (c : Chain) (j : Job) : State :=
  (runJob s c j (fun k => (Config.freeValue s.freeCtr 10 k).getLsbD 0) true).1

/-- What a job has performed when it ends: everything; when it has met a fault, some of its writes (R329); when CPYK cuts it, the pieces
before a boundary that a free value picks (R345). -/
def performJob (s : State) (c : Chain) (j : Job) : State × Option JobFault :=
  if j.fault.isSome then (performSome s c j, j.fault)
  else if j.cut then
    let stop := (freeNow s).toNat
    ((runJob s c j (fun k => decide (k < stop)) false).1, some (10, noAddress s))
  else
    let r := runJob s c j (fun _ => true) false
    match r.2 with
    | none => (r.1, none)
    | some f => (performSome s c j, some f)

/-! ## ALLREDUCE (R331) -/

/-- A RED as the engine sends it: no gang of the machine stands behind it. -/
def redPend (s : State) (c : Chain) (j : Job) (op : AOp) : Pend :=
  { op := s.nextOp, gang := { die := c.id.die, core := 8 * c.id.cluster, sched := 0, place := 1000000 + j.id }, ctx := c.ctx, slot := .a,
    pc := 0#32, tick := s.tick, sent := none, kills := [], dsts := [], ckpt := startArch 0#32 0, kind := .home (.red op) .zero false .dom 0#32 [] 0#32 false }

/-- The RED of one element: the fault it meets, or the operation number of a contribution that waits in a round (R429-R431). -/
def redElement (s : State) (c : Chain) (j : Job) (op : AOp) (v : Word) (va : BitVec 64) : State × (JobFault ⊕ Option Nat) :=
  match firstOutside s c j (cardDsp j) va 4 true with
  | some a => (s, .inl (3, a))
  | none =>
    let r := engineTarget s c (cardDsp j) va 4 .write
    match r.2 with
    | .inl f => (r.1, .inl (f, va))
    | .inr t =>
      if targetLost s t then (r.1, .inl (8, va))
      else if !targetHome s c.id.die t then (r.1, .inl (7, va))
      else
        match (domainAddr s t).bind fun a => (windowOf s a).map fun w => (a, w) with
        | none => (r.1, .inl (2, va))
        | some (a, win) =>
          let p := redPend r.1 c j op
          let s := { r.1 with nextOp := r.1.nextOp + 1 }
          match joinRound s win a op false (v.setWidth 64) (some (p.gang, p.op)) with
          | some s' => (s', .inr (some p.op))
          | none => ((sentLane s p (.red op) false .dom { lane := 0, va := va, tgt := t, data := v.setWidth 128 }).1, .inr none)

/-- The elements of an ALLREDUCE in order, from those of a list: how many are done, the REDs that wait, and the fault that ends the
walk. -/
def allReduce (c : Chain) (j : Job) (op : AOp) : List Nat → State → State × Nat × List Nat × Option JobFault
  | [], s => (s, 0, [], none)
  | i :: rest, s =>
    let r := readSpans c j (unitSpans j i []) 0 4 s
    match r.2 with
    | .inl f => (r.1, 0, [], some f)
    | .inr b =>
      let x := redElement r.1 c j op (BitVec.ofNat 32 (natOfBytes b)) (cutSpace (cardDsp j) (alignTo (j.dst + BitVec.ofNat 64 (4 * i)) 4))
      match x.2 with
      | .inl f => (x.1, 0, [], some f)
      | .inr o =>
        let t := allReduce c j op rest x.1
        (t.1, t.2.1 + 1, o.toList ++ t.2.2.1, t.2.2.2)

/-- The 256-byte piece of DST in which element `i` of an ALLREDUCE lies. -/
def redPiece (j : Job) (i : Nat) : Nat := (j.dst.toNat % 256 + 4 * i) / 256

/-- The elements that an ALLREDUCE performs yet: all that are left, or when CPYK cuts it those before a 256-byte boundary that a free
value picks, with the rest of the piece that it is in (R345). -/
def redLeft (s : State) (j : Job) : List Nat :=
  let l := (List.range (cardCount j.card)).drop j.unit
  if j.cut then
    l.takeWhile fun i => decide (redPiece j i < redPiece j j.unit + (freeNow s).toNat)
      || (decide (redPiece j i = redPiece j j.unit) && decide (0 < j.unit) && decide (redPiece j (j.unit - 1) = redPiece j j.unit))
  else l

/-- An ALLREDUCE performs elements: its progress, its REDs and its fault follow. -/
def reduceStep (s : State) (c : Chain) (j : Job) (l : List Nat) : State × Job :=
  let r := allReduce c j (aopOfNat (entryBits j.card 0 26 4)) l s
  let j := { j with unit := j.unit + r.2.1, reds := j.reds ++ r.2.2.1, fault := r.2.2.2 }
  (modJob r.1 j.id fun _ => j, j)

/-- A RED waits in a reduction round. -/
def inRound (s : State) (op : Nat) : Bool :=
  s.redRounds.any fun r => r.parts.any fun x => match x.2 with
    | some y => decide (y.2 = op)
    | none => false

/-! ## The walk (R326) -/

/-- Where `n` bytes of a chain's entries lie: none outside the issuing block's allocation, or where a packet's chain does not translate
(R326, R396). -/
def entryTarget (s : State) (c : Chain) (a n : Nat) (k : Access) : State × Option Target :=
  match c.origin with
  | .block _ _ => (s, match chainBlock s c with
    | some b => if inAlloc b a n then some (.scratch b.die b.core a) else none
    | none => none)
  | .packet _ _ =>
    let r := engineTarget s c 0 (BitVec.ofNat 64 a) n k
    (r.1, match r.2 with
      | .inl _ => none
      | .inr t => some t)

/-- Write bytes of an entry. -/
def entryWrite (s : State) (c : Chain) (a : Nat) (bytes : List Byte) : State :=
  let r := entryTarget s c a bytes.length .write
  match r.2 with
  | some t => enginePut r.1 c t bytes
  | none => r.1

/-- Read 64 bytes of an entry. -/
def entryRead (s : State) (c : Chain) (a : Nat) : State × Option (BitVec 512) :=
  let r := entryTarget s c a 64 .read
  match r.2 with
  | some t =>
    let x := engineGet r.1 c t 64
    (x.1, some (BitVec.ofNat 512 x.2.1))
  | none => (r.1, none)

/-- The 64 bytes of a chain entry exist. -/
def entryThere (s : State) (c : Chain) (a : Int) : Bool := decide (0 ≤ a) && (entryRead s c a.toNat).2.isSome

/-- An entry as it is read: its 64 bytes, and the next 64, which a JOB entry has, if they are there. -/
abbrev EntryRead := BitVec 512 × Option (BitVec 512)

/-- An entry's first 64 bytes begin a JOB, as they stand or as they stood when their read began. -/
def jobEntry (c : Chain) (lo : BitVec 512) : Bool :=
  decide (lo.extractLsb' 0 4 = 1#4) || (match c.begun with
    | some x => decide (x.1.extractLsb' 0 4 = 1#4)
    | none => false)

/-- The entry as it stands now, with the 64 bytes after it if they are there (R324). -/
def entryNow (s : State) (c : Chain) : State × Option EntryRead :=
  let r := entryRead s c c.at_
  match r.2 with
  | none => (r.1, none)
  | some lo =>
    let t := entryRead r.1 c (c.at_ + 64)
    (if jobEntry c lo then t.1 else r.1, some (lo, t.2))

/-- The entry at the walk's place can be reached, and its second half if it is a JOB (R424). -/
def entryOpen (s : State) (c : Chain) : Bool :=
  let open_ := fun (a : Nat) => match (entryTarget s c a 64 .read).2 with
    | some t => engineReach s c t false
    | none => true
  open_ c.at_ && match (entryRead s c c.at_).2 with
    | some lo => !jobEntry c lo || open_ (c.at_ + 64)
    | none => true

/-- Each aligned 32-bit word is the old or the new one, as a free value says (R326). -/
def mixWords (s : State) (tag : Nat) (old new : BitVec 512) : BitVec 512 :=
  (List.range 16).foldl (fun x k =>
    if (Config.freeValue s.freeCtr 14 (tag + k)).getLsbD 0 then x
    else (x &&& ~~~(BitVec.ofNat 512 0xFFFFFFFF <<< (32 * k))) ||| (old &&& (BitVec.ofNat 512 0xFFFFFFFF <<< (32 * k)))) new

/-- The read of an entry ends: where software has written it since the read began, words are mixed. -/
def entryMixed (s : State) (c : Chain) : State × Option EntryRead :=
  let r := entryNow s c
  (r.1, match r.2, c.begun with
    | some e, some o => some (mixWords s 0 o.1 e.1, match e.2, o.2 with
      | some n, some x => some (mixWords s 16 x n)
      | n, _ => n)
    | e, _ => e)

/-- The target of an entry's signed chain offset. -/
def chainTarget (c : Chain) (off : Int) : Int := (c.at_ : Int) + 64 * off

/-- What the walk finds at its place. -/
inductive Shape where
  | off
  | bad (job : Bool)
  | job (e : BitVec 1024)
  | loop (e : BitVec 1024)
  | cond (e : BitVec 1024)
  | tagSignal (core index : Nat)
  | barSignal (die core pos n : Nat)
  | fin
  deriving DecidableEq, Repr

/-- LOOPs in progress whose body holds an entry. -/
def enclosing (c : Chain) (a : Nat) : List LoopPass := c.loops.filter fun l => decide (l.target ≤ a) && decide (a < l.entry)

def loopOk (s : State) (c : Chain) (e : BitVec 1024) : Bool :=
  unused [entryBits e 0 4 28, entryBits e 32 0 256] && decide (entryInt e 8 < 0) && entryThere s c (chainTarget c (entryInt e 8))
    && (c.loops.any (fun l => decide (l.entry = c.at_)) || decide ((enclosing c c.at_).length < 4))

/-- The word that a COND tests, in the issuing block's allocation (R325, R327). -/
def condWord (s : State) (c : Chain) (e : BitVec 1024) : Option Nat :=
  let a := entryBits e 8 0 32
  match chainBlock s c with
  | none => none
  | some b => if a % 4 = 0 ∧ a + 4 ≤ b.size then some (scratchNat s b.die b.core (b.base + a) 4) else none

def condOk (s : State) (c : Chain) (e : BitVec 1024) : Bool :=
  unused [entryBits e 0 4 28, entryBits e 24 1 31, entryBits e 28 0 288] && entryThere s c (chainTarget c (entryInt e 20))
    && (condWord s c e).isSome

/-- The barrier word that a SIGNAL names (R227, R341). -/
def signalWord (s : State) (c : Chain) (va : BitVec 64) : Option (Nat × Nat × Nat) :=
  match (engineTarget s c 2 (alignTo (cutSpace 2 va) 16) 16 .rmw).2 with
  | .inr (.scratch d k pos) => some (d, k, pos)
  | _ => none

def signalShape (s : State) (c : Chain) (e : BitVec 1024) : Shape :=
  if isPacket c || !unused [entryBits e 0 5 27, entryBits e 10 0 48, entryBits e 28 0 288] then .bad false
  else if entryBits e 0 4 1 = 0 then
    if unused [entryBits e 16 0 64, entryBits e 24 0 32] && decide (clusterOf (entryBits e 8 0 8) = c.id.cluster) && decide (entryBits e 9 0 8 < 64) then
      .tagSignal (entryBits e 8 0 8) (entryBits e 9 0 8)
    else .bad false
  else if !unused [entryBits e 8 0 16] then .bad false
  else
    match signalWord s c (e.extractLsb' 128 64) with
    | some (d, k, pos) => .barSignal d k pos (entryBits e 24 0 32)
    | none => .bad false

/-- What an entry is (R324-R327). -/
def shapeOf (s : State) (c : Chain) (x : Option EntryRead) : Shape :=
  match x with
  | none => .off
  | some (lo, hi) =>
    let e : BitVec 1024 := lo.setWidth 1024
    match entryBits e 0 0 4 with
    | 0 => if unused [entryBits e 0 4 28, entryBits e 8 0 448] then .fin else .bad false
    | 1 => match hi with
      | none => .bad true
      | some h => if cardOk (isPacket c) (h ++ lo : BitVec 1024) then .job (h ++ lo : BitVec 1024) else .bad true
    | 2 => if loopOk s c e then .loop e else .bad false
    | 3 => if condOk s c e then .cond e else .bad false
    | 4 => signalShape s c e
    | _ => .bad false

/-- Jobs of a chain that have not ended. -/
def chainJobs (s : State) (c : ChainId) : List Job := s.jobs.filter fun j => decide (j.chain = c)

/-- Move the walk to another entry, which it has not read yet; `last` is the one it has read. -/
def walkTo (s : State) (c : Chain) (a : Int) : State :=
  modChain s c.id fun x => { x with at_ := (a % 2 ^ 64).toNat, last := some c.at_, begun := none, seen := none, quietAt := none }

/-- A failure of a chain: one more fault, and the first one's status, for its launch or its packet (R198, R329, R396). -/
def chainFails (s : State) (c : Chain) (status seq : Nat) : State :=
  let s := modChain s c.id fun x => { x with faults := x.faults + 1, fail := match x.fail with
    | none => some status
    | some y => some y }
  match c.origin with
  | .packet _ _ => s
  | .block u g => match findBlock s u with
    | none => s
    | some b => modGroup s b.dgroup fun d =>
        { d with faults := d.faults + 1,
                 fail := addFailure d.fail { status := status, cause := 0#8, pc := 0#32, tick := s.tick, die := c.id.die, core := g.core,
                                             kind := 1, sub := 0, seq := seq } }

/-- The chain turns to drain mode. -/
def drainChain (s : State) (id : ChainId) : State := modChain s id fun x => { x with drain := true }

/-- The header of a malformed entry, and of the last one before the end of the allocation (R326, R329). -/
def markMalformed (s : State) (c : Chain) (a : Nat) : State :=
  chainFails (entryWrite s c (a + 4) (bytesOfNat 2 8 ++ bytesOfNat 2 4)) c stEngineFault s.nextUid

/-- The context's chains walk and its jobs run: it is ACTIVE, or FAULTED with chains that outlast their gangs (R201, R407). -/
def ctxRuns (s : State) (ctx : Nat) : Bool :=
  match findContext s ctx with
  | some c => decide (c.state = .active) || decide (c.state = .faulted)
  | none => false

/-- The context is being pre-empted: its running jobs finish or fail, and no further one starts (R417). -/
def ctxPreempting (s : State) (ctx : Nat) : Bool :=
  match findContext s ctx with
  | some c => decide (c.state = .preempting)
  | none => false

/-- Chains that an engine walks, in acceptance order. -/
def engineChains (s : State) (die cl : Nat) : List Chain := s.chains.filter fun c => decide (c.id.die = die) && decide (c.id.cluster = cl)

/-- The tick at which every byte written at the cluster's cache, by its copy engine among them, is visible at cluster scope (R240, R261). -/
def engineSeen (s : State) (die cl : Nat) : Nat := (getCluster s die cl).lines.foldl (fun n x => max n x.seenAt) s.tick

/-- The release that a chain's end waits for is not over (R402). -/
def chainReleasing (s : State) (c : Chain) : Bool :=
  match c.task.bind (findTask s) with
  | some t => decide (t.stage ≠ 6)
  | none => false

/-- A chain whose entry waits: COND, SIGNAL and END for its jobs, the last two for its jobs' writes too (R240, R247, R326). -/
def chainWaits (s : State) (c : Chain) : Bool :=
  match c.seen with
  | none => false
  | some _ => decide (chainJobs s c.id ≠ []) || chainReleasing s c || (match c.quietAt with
    | some n => decide (s.tick < n)
    | none => false)

/-- A chain can take a turn of its engine's walk. -/
def canWalk (s : State) (c : Chain) : Bool := ctxRuns s c.ctx && !c.halted && entryOpen s c && !chainWaits s c

/-- The engine walks its chains one entry at a time in turn (R342): the next after the one walked last that can take a turn. -/
def walkTurn (s : State) (c : Chain) : Bool :=
  let l := engineChains s c.id.die c.id.cluster
  let last := (getCluster s c.id.die c.id.cluster).lastWalk
  match ((l.filter fun x => decide (last < x.id.num)) ++ l.filter fun x => decide (x.id.num ≤ last)).find? (canWalk s) with
  | some x => decide (x.id = c.id)
  | none => false

def noteWalk (s : State) (id : ChainId) : State := modCluster s id.die id.cluster fun x => { x with lastWalk := id.num }

/-- A turn of a chain: its entry is read, unless the walk has read it at this visit, and is as `f` expects (R326, R342). -/
def chainStep (id : ChainId) (s : State) (f : State → Chain → Option EntryRead → Shape → Option State) : Res :=
  match findChain s id with
  | none => idle s
  | some c =>
    if !canWalk s c || !walkTurn s c then idle s
    else
      let r := match c.seen with
        | some e => (s, some e)
        | none => entryMixed s c
      match f r.1 c r.2 (shapeOf r.1 c r.2) with
      | some s' => .next (noteWalk s' id)
      | none => idle s

/-- The entry has been read and waits. -/
def keepEntry (s : State) (c : Chain) (e : Option EntryRead) : State := modChain s c.id fun x => { x with seen := e }

/-- The chain's jobs have ended: go on at once, or once what they have written is visible at cluster scope. -/
def whenQuiet (s : State) (c : Chain) (k : Option State) (wait : State → State) : Option State :=
  match c.quietAt with
  | some _ => k
  | none =>
    let n := engineSeen s c.id.die c.id.cluster
    if n ≤ s.tick then k else some (modChain (wait s) c.id fun x => { x with quietAt := some n })

/-- The chain's jobs have ended: a block's chain ends once what they have written is visible at cluster scope, a packet's once it is at system
scope, since its record and the packets that wait for it follow it (R247, R402). -/
def whenReleased (s : State) (c : Chain) (k : Option State) (wait : State → State) : Option State :=
  if !isPacket c then whenQuiet s c k wait
  else match c.task with
    | some _ => k
    | none =>
      let t := unitTask s c.id.die [c.id.cluster] .sys
      some (modChain (addTask (wait s) t) c.id fun x => { x with task := some t.id })

/-- The engine begins to read an entry; what software writes of it before the read ends is read old or new, word by word (R326). -/
def beginEntry (s : State) (id : ChainId) : State :=
  match findChain s id with
  | none => s
  | some c =>
    if !canWalk s c || !walkTurn s c || c.seen.isSome || c.begun.isSome then s
    else
      let r := entryNow s c
      modChain r.1 id fun x => { x with begun := r.2 }

/-- MALFORMED_ENTRY: FAULT 4, drain mode, and on; past the end of the allocation the walk stops (R324, R326). -/
def execMalformedEntry (id : ChainId) (s : State) : Res :=
  chainStep id s fun s c _ x =>
    match x with
    | .bad job => some (walkTo (drainChain (markMalformed s c c.at_) id) c ((c.at_ : Int) + (if job then 128 else 64)))
    | .off => some (modChain (match c.last with
        | some a => markMalformed s c a
        | none => s) id fun x => { x with halted := true })
    | _ => none

/-- Sum of the steps of the LOOPs that enclose an entry. -/
def loopShift (l : List LoopPass) (f : LoopPass → BitVec 64) : BitVec 64 :=
  l.foldl (fun x p => x + BitVec.ofNat 64 p.passes * f p) 0#64

/-- A job as it is accepted: an index list or scale array moves with the source, an error table with the destination. -/
def newJob (s : State) (c : Chain) (e : BitVec 1024) : Job :=
  let l := enclosing c c.at_
  let ss := loopShift l LoopPass.sstep
  let ds := loopShift l LoopPass.dstep
  { id := s.nextUid, chain := c.id, ctx := c.ctx, entry := c.at_, card := e, src := e.extractLsb' 64 64 + ss, dst := e.extractLsb' 128 64 + ds,
    aux := e.extractLsb' 192 64 + (if cardKind e = 4 then ds else ss), sshift := ss, dshift := ds, state := .accepted, leave := false,
    cut := false, tick := s.tick, unit := 0, got := [], put := 0, reds := [], asked := none,
    fault := none }

/-- JOB_ENTRY: the job is accepted, or in drain mode marked CANCELLED (R326). -/
def execJobEntry (id : ChainId) (s : State) : Res :=
  chainStep id s fun s c _ x =>
    match x with
    | .job e =>
      if c.drain then some (walkTo (entryWrite s c (c.at_ + 4) (bytesOfNat 2 stCancelled)) c ((c.at_ : Int) + 128))
      else
        let s := entryWrite s c (c.at_ + 4) (bytesOfNat 2 0xFFFF)
        some (walkTo { s with jobs := s.jobs ++ [newJob s c e], nextUid := s.nextUid + 1 } c ((c.at_ : Int) + 128))
    | _ => none

/-- LOOP_ENTRY (R326). -/
def execLoopEntry (id : ChainId) (s : State) : Res :=
  chainStep id s fun s c _ x =>
    match x with
    | .loop e =>
      let n := match c.loops.find? fun l => decide (l.entry = c.at_) with
        | some l => l.passes
        | none => 0
      let rest := c.loops.filter fun l => decide (l.entry ≠ c.at_)
      let t := chainTarget c (entryInt e 8)
      if !c.drain && decide (n < entryBits e 12 0 32) then
        some (modChain (walkTo s c t) id fun x =>
          { x with loops := rest ++ [{ entry := c.at_, target := t.toNat, passes := n + 1, sstep := e.extractLsb' 128 64, dstep := e.extractLsb' 192 64 }] })
      else some (modChain (walkTo s c ((c.at_ : Int) + 64)) id fun x => { x with loops := rest })
    | _ => none

/-- COND_ENTRY (R325, R326). -/
def execCondEntry (id : ChainId) (s : State) : Res :=
  chainStep id s fun s c r x =>
    match x with
    | .cond e =>
      if chainJobs s id ≠ [] then some (keepEntry s c r)
      else
        match condWord s c e with
        | none => none
        | some w =>
          let same := decide (BitVec.ofNat 32 w &&& e.extractLsb' 96 32 = e.extractLsb' 128 32)
          let pass := if e.getLsbD 192 then !same else same
          some (walkTo s c (if !c.drain && pass then chainTarget c (entryInt e 20) else (c.at_ : Int) + 64))
    | _ => none

/-- SIGNAL_ENTRY: after the chain's jobs have ended and their writes are visible, a tag is set or bytes are subtracted from a
barrier word (R240, R341). -/
def execSignalEntry (id : ChainId) (s : State) : Res :=
  chainStep id s fun s c r x =>
    let go := fun (t : State) =>
      if chainJobs s id ≠ [] then some (keepEntry s c r)
      else whenQuiet s c (some (walkTo t c ((c.at_ : Int) + 64))) fun s => keepEntry s c r
    match x with
    | .tagSignal core n => go (setTag s c.id.die core n)
    | .barSignal d k pos n => go (writeBar s d k pos (barSignal (readBar s d k pos) n))
    | _ => none

/-- The status of a packet's chain: of its first failed job, else of its release where that has timed out or met a lost home (R396, R402; log
171). -/
def chainStatus (s : State) (c : Chain) : Nat :=
  match c.fail, (c.task.bind (findTask s)).bind fun t => t.fault with
  | some f, _ => f
  | none, some f => if f.1 = cTimeout then stTimeout else stHomeLost
  | none, none => stOk

/-- The gangs of a cluster whose slots wait for room in its engine look again. -/
def wakeEngine (s : State) (id : ChainId) : State :=
  s.gangs.foldl (fun s g => if g.id.die = id.die ∧ clusterOf g.id.core = id.cluster then wakeOrder s g.id else s) s

/-- A chain is complete: the gang's cp falls, or its packet completes (R247, R326, R396). -/
def endChain (s : State) (c : Chain) : State :=
  let status := chainStatus s c
  let s := { s with chains := s.chains.filter (fun x => decide (x.id ≠ c.id)), tasks := s.tasks.filter fun t => decide (some t.id ≠ c.task) }
  match c.origin with
  | .block _ g => wakeEngine (modGang s g fun x => { x with cp := x.cp - 1 }) c.id
  | .packet qn w =>
    let s := wakeEngine s c.id
    match findQueue s qn with
    | none => s
    | some q =>
      let taken := q.taken.find? fun t => decide (t.pindex = w)
      let start := match taken with
        | some t => t.start
        | none => s.tick
      let now := match taken with
        | some t => t.packet.getLsbD 9
        | none => false
      completePacket s qn { recordOf s q w 4 start status now with faults := min 255 c.faults }

/-- END_ENTRY: after the chain's jobs have ended and their writes are visible at cluster scope, or a packet's at system scope, the chain is
complete, at its END or where its walk has halted (R247, R326, R402). -/
def execEndEntry (id : ChainId) (s : State) : Res :=
  match findChain s id with
  | none => idle s
  | some c =>
    if c.halted then
      if !ctxRuns s c.ctx || decide (chainJobs s id ≠ []) || decide (s.tick < c.quietAt.getD 0) || chainReleasing s c then idle s
      else match whenReleased s c (some (endChain s c)) fun s => s with
        | some s' => .next s'
        | none => idle s
    else
      chainStep id s fun s c r x =>
        if x ≠ .fin then none
        else if chainJobs s id ≠ [] then some (keepEntry s c r)
        else whenReleased s c (some (endChain s c)) fun s => keepEntry s c r

/-! ## Jobs (R328, R329, R342) -/

/-- An earlier job of the same engine conflicts with a job and has not ended. -/
def jobBlocked (s : State) (c : Chain) (j : Job) : Bool :=
  let l := jobFeet s c j
  s.jobs.any fun k => decide (k.id < j.id) && decide (k.chain.die = c.id.die) && decide (k.chain.cluster = c.id.cluster)
    && (match findChain s k.chain with
      | some d => feetConflict l (jobFeet s d k)
      | none => false)

/-- A job that asks for leave before it starts (R342). -/
def needsLeave (j : Job) : Bool :=
  decide (cardKind j.card = 3)
    || decide ((((footsOf j.card).filter Foot.wr).map Foot.len).foldl (· + ·) 0 > 65536)

/-- What a job does next: the address that it reads or writes. -/
def jobNext (s : State) (c : Chain) (j : Job) : Option (Nat × BitVec 64 × Bool) :=
  let l := unitSpans j j.unit j.got
  if unitCount j ≤ j.unit ∨ j.fault.isSome then none
  else if j.got.length < spansLen l then (spanPlace l j.got.length).map fun x => (x.1, x.2, false)
  else ((piecesOf (unitWrites s c j j.unit j.got).1).drop j.put).head?.map fun w => (w.sp, w.va, true)

/-- The job's next access is a request to another die or device, whose reply it then waits for (R426). -/
def jobAsks (s : State) (c : Chain) (j : Job) : Bool :=
  match jobNext s c j with
  | none => false
  | some (sp, va, wr) =>
    decide (cardKind j.card = 3) || match (engineTarget s c sp va 1 (if wr then .write else .read)).2 with
      | .inr (.mem pa false) => !wr && !(lineNear s { die := c.id.die, core := 8 * c.id.cluster, sched := 0, place := 0 } .normal pa)
      | .inr (.mem _ true) | .inr (.remote _ _) | .inr (.away _) => true
      | _ => false

/-- A job's next request is sent. -/
def askJob (s : State) (id : Nat) : State :=
  match findJob s id with
  | none => s
  | some j =>
    match findChain s j.chain with
    | none => s
    | some c => modJob s id fun x => { x with asked := if jobAsks s c j then some (dieTick s c.id.die) else none }

/-- The job's request has timed out: a reply that comes now is discarded (R426). -/
def jobLate (s : State) (j : Job) : Bool :=
  match j.asked with
  | some t => timedOut s j.chain.die t && j.fault.isNone
  | none => false

/-- JOB_START: leave is asked for; once it is granted the job starts (R328, R342). -/
def execJobStart (id : Nat) (s : State) : Res :=
  match findJob s id with
  | none => idle s
  | some j =>
    match findChain s j.chain with
    | none => idle s
    | some c =>
      if j.state = .started ∨ c.drain ∨ !ctxRuns s c.ctx ∨ jobBlocked s c j ∨ leaveAsked s c.id.die (isJobLeave id) then idle s
      else if needsLeave j ∧ !j.leave then
        .next (askLeave (modJob s id fun x => { x with leave := true }) c.id.die (.job id s.tick))
      else .next (askJob (modJob s id fun x => { x with state := .started, tick := s.tick }) id)

/-- STATUS of a FAULT (R329). -/
def faultStatus (f : Nat) : Nat :=
  match f with
  | 0 => stOk
  | 7 => stTimeout
  | 8 => stHomeLost
  | 10 => stCancelled
  | _ => stEngineFault

/-- A job ends: STATUS, FAULT and for a fault FADDR are written, and the chain turns to drain mode on any status but OK. -/
def finishJob (s : State) (c : Chain) (j : Job) (status : Nat) (f : Option JobFault) : State :=
  let code := match f with
    | some x => x.1
    | none => 0
  let s := entryWrite { s with jobs := s.jobs.filter fun x => decide (x.id ≠ j.id) } c (j.entry + 4) (bytesOfNat 2 status ++ bytesOfNat 2 code)
  let s := match f with
    | some x => entryWrite s c (j.entry + 56) (bytesOfNat 8 x.2.toNat)
    | none => s
  if status = stOk then s
  else
    let s := drainChain s c.id
    if status = stCancelled then s else chainFails s c status j.id

/-- A job ends with the fault that it has met. -/
def endJob (s : State) (c : Chain) (j : Job) (f : Option JobFault) : State :=
  finishJob s c j (match f with
    | some x => faultStatus x.1
    | none => stOk) f

/-- An ALLREDUCE ends once every RED that it has sent is performed at its home (R331). -/
def endReduce (s : State) (c : Chain) (j : Job) : State :=
  if j.reds.any (inRound s) then s
  else endJob s c j (match j.fault with
    | some x => some x
    | none => if j.cut then some (10, noAddress s) else none)

/-- The fault of a job whose request is not sent because it has no route: the job waits, and may time out (R424, R426). -/
def noRoute (f : Option JobFault) : Bool :=
  match f with
  | some x => decide (x.1 = 7)
  | none => false

/-- An ALLREDUCE performs what is left of it, and ends. -/
def reduceEnd (s : State) (c : Chain) (j : Job) : State :=
  if j.fault.isSome || redLeft s j = [] then endReduce s c j
  else
    let r := reduceStep s c j (redLeft s j)
    if noRoute r.2.fault then
      (if r.2.unit = j.unit then s else modJob r.1 j.id fun x => { x with fault := none })
    else
      let k := { r.2 with unit := cardCount j.card }
      endReduce (modJob r.1 j.id fun _ => k) c k

/-- JOB_END (R329): a job that has not started when its chain drains is CANCELLED; a started one performs what is left of its work. -/
def execJobEnd (id : Nat) (s : State) : Res :=
  match findJob s id with
  | none => idle s
  | some j =>
    match findChain s j.chain with
    | none => idle s
    | some c =>
      if !ctxRuns s c.ctx && !(ctxPreempting s c.ctx && decide (j.state = .started)) then idle s
      else if j.state = .accepted then (if c.drain then .next (finishJob s c j stCancelled none) else idle s)
      else if jobLate s j then idle s
      else if cardKind j.card = 3 then .next (reduceEnd s c j)
      else
        let r := performJob s c j
        if noRoute r.2 then idle s else .next (endJob r.1 c j r.2)

/-- The next part of a started job: up to `words` more aligned words of its source, or its next piece, or for an ALLREDUCE so many elements
(R330, R348). -/
def jobPart (s : State) (c : Chain) (j : Job) (words : Nat) : State :=
  if cardKind j.card = 3 then
    let r := reduceStep s c j ((redLeft s j).take words)
    if noRoute r.2.fault then (if r.2.unit = j.unit then s else modJob r.1 j.id fun x => { x with fault := none }) else askJob r.1 j.id
  else
    match unitEarly s c j with
    | some f => modJob s j.id fun x => { x with fault := some f }
    | none =>
      let fail := fun (s : State) (f : JobFault) => if noRoute (some f) then s else modJob s j.id fun x => { x with fault := some f }
      let l := unitSpans j j.unit j.got
      if j.got.length < spansLen l then
        let r := readSpans c j l j.got.length (jobPartBytes l j.got.length words) s
        match r.2 with
        | .inl f => fail r.1 f
        | .inr b => askJob (modJob r.1 j.id fun x => { x with got := x.got ++ b }) j.id
      else
        let w := unitWrites s c j j.unit j.got
        match (piecesOf w.1).drop j.put with
        | x :: _ =>
          let r := writePiece c j x s
          (match r.2 with
            | some f => fail r.1 f
            | none => askJob (modJob r.1 j.id fun x => { x with put := x.put + 1 }) j.id)
        | [] => match w.2 with
          | some f => fail s f
          | none => askJob (modJob s j.id fun x => { x with unit := x.unit + 1, got := [], put := 0 }) j.id

/-- A part of a job, while it runs and CPYK has not cut it. -/
def stepJob (s : State) (id words : Nat) : State :=
  match findJob s id with
  | none => s
  | some j =>
    match findChain s j.chain with
    | none => s
    | some c =>
      if j.state ≠ .started ∨ j.fault.isSome ∨ j.cut ∨ jobLate s j ∨ unitCount j ≤ j.unit ∨ words = 0 ∨ !(ctxRuns s c.ctx || ctxPreempting s c.ctx) then s
      else jobPart s c j words

/-! ## CPY and CPYK (R344, R345) -/

/-- An engine starts to walk a chain. -/
def startChain (s : State) (die cl ctx : Nat) (origin : ChainOrigin) (head : Nat) : State :=
  let n := (getCluster s die cl).nextChain
  let s := modCluster s die cl fun c => { c with nextChain := n + 1#32 }
  { s with chains := s.chains ++ [{ id := { die := die, cluster := cl, num := n.toNat }, ctx := ctx, origin := origin, at_ := head,
                                     drain := false, last := none, loops := [], faults := 0, fail := none, cut := false, halted := false,
                                     begun := none, seen := none, quietAt := none, task := none }] }

/-- CPY once its release is over: the chain begins, or waits for room (R247, R344). -/
def cpyGo (c : Ctx) (d : Opnd) (kills : Reads) (pos : Nat) : Res :=
  let cl := clusterOf c.g.id.core
  if (engineChains c.s c.g.id.die cl).length ≥ 64 ∨ c.g.cp ≥ counterMax then c.hold .full
  else
    c.afterRisk (c.finish d kills ((getCluster c.s c.g.id.die cl).nextChain.setWidth 64) fun s =>
      modGang (startChain s c.g.id.die cl c.g.ctx (.block c.g.block c.g.id) pos) c.g.id fun g => { g with cp := g.cp + 1 })

/-- CPY (R344). -/
def execCpy (h : Head) (d a : Opnd) (off : BitVec 32) (s : State) : Res :=
  issue s h.guard fun c =>
    let go := fun (kills : Reads) (pos : Nat) =>
      c.withTask (.cpy h d a off) { baseTask c.s c.g .clu with ops := opsIn c.s c.g.id 2#6, writes := true } d kills [BitVec.ofNat 64 pos] false
        fun c _ => cpyGo c d kills pos
    match c.begun with
    | some p => go [] (p.vals.headD 0#64).toNat
    | none =>
      match deadCheck c.a (single [a]) with
      | some x => c.halt x
      | none =>
        let kills := headKills h a .zero .zero
        if c.act = 0#32 then c.commit (killRegs c.a kills)
        else
          match firstHalt [privCheck c [a], wordCheck c.a [a]] with
          | some x => c.halt x
          | none =>
            let va := scalarAddr c .scratch a off 64
            match (spaceTarget c.s c.g .scratch va 64 .read).2 with
            | .inr (.scratch _ _ pos) => go kills pos
            | _ => c.trap cProtection va

/-- What CPYK does with a token: a chain of the issuing block that still walks turns to drain mode, and its jobs are cut short (R345). -/
def cpykEffect (s : State) (g : Gang) (token : DWord) : State × DWord :=
  let id : ChainId := { die := g.id.die, cluster := clusterOf g.id.core, num := token.toNat % 2 ^ 32 }
  let hit := match findChain s id with
    | some x => (match x.origin with
      | .block u _ => decide (u = g.block)
      | .packet _ _ => false)
    | none => false
  if !hit then (s, 0#64)
  else
    let s := modChain s id fun x => { x with drain := true, cut := true }
    ({ s with jobs := s.jobs.map fun j => if j.chain = id ∧ j.state = .started then { j with cut := true } else j }, 1#64)

/-- CPYK (R345): its effect comes once no older instruction of the gang may trap; the slot goes on at once (R97, R477). -/
def execCpyk (h : Head) (d a : Opnd) (s : State) : Res :=
  issue s h.guard fun c =>
    match deadCheck c.a (single [a]) with
    | some x => c.halt x
    | none =>
      let kills := headKills h a .zero .zero
      if c.act = 0#32 then c.commit (killRegs c.a kills)
      else match wordCheck c.a [a] with
      | some x => c.halt x
      | none =>
        let token := scalarOf c a
        if c.clear then
          c.commitWith ((writeScalar (killRegs c.a kills) d (cpykEffect c.s c.g token).2).advance c.x) fun s => (cpykEffect s c.g token).1
        else c.send (groupOpnds d 1) kills (.late (.cpyk d token))

end Sys2Proof.Machine
end

