-- ==== Sys2Proof/Machine/Admin.lean ====
section
/-!
DEFINITION. The register page and the admin queue (19_reliability R467, R471-R475; 16_context R405): what the host writes, the next
command of the queue, the checks that every command meets, its completion, and the commands DEVSET and POWERCAP.
-/
namespace Sys2Proof.Machine

/-! ## Host memory (R472, R475) -/

/-- Every byte of a span of host bus addresses answers over CXL.io. -/
def hostAnswers (s : State) (a n : Nat) : Bool := s.hostHoles.all fun h => decide (a + n ≤ h.1) || decide (h.1 + h.2 ≤ a)

/-- Bytes of host memory: none where a CXL.io read fails. -/
def hostRead (s : State) (a n : Nat) : Option (List Byte) := if hostAnswers s a n then some (cellsRead s.hostMem a n) else none

/-- Write bytes of host memory: none where a CXL.io write fails. -/
def hostWrite (s : State) (a : Nat) (bytes : List Byte) : Option State :=
  if hostAnswers s a bytes.length then some { s with hostMem := cellsWrite s.hostMem a bytes } else none

/-! ## The queue (R472) -/

/-- Entries of each ring. -/
def adminSize (a : Admin) : Nat := 2 ^ a.log2

/-- The host reaches the device: it has booted and is there, and the host port carries traffic (R423, R424, R463, R468). -/
def hostOpen (s : State) : Bool := decide (s.admin.bootst ≠ 1) && !s.deviceLost && linkUp s .host

/-- The queue has a command to read, room for its completion, and no command is running. -/
def adminOpen (s : State) : Bool :=
  hostOpen s && s.admin.enable && decide (s.admin.aqhead ≠ s.admin.aqtail)
    && decide (idxDiff s.admin.actail s.admin.achead ≠ adminSize s.admin) && s.admin.busy.isNone

/-- The entry at AQHEAD. -/
def adminHead (s : State) : BitVec 512 :=
  BitVec.ofNat 512 (natOfBytes (cellsRead s.hostMem (s.admin.aqbase.toNat + 64 * (s.admin.aqhead.toNat % adminSize s.admin)) 64))

/-- The command that the device reads next. -/
def adminEntry (s : State) : Option (BitVec 512) := if adminOpen s then some (adminHead s) else none

/-- The command is read. -/
def takeCommand (s : State) : State := { s with admin := { s.admin with aqhead := s.admin.aqhead + 1#32 } }

/-- CTX and TAG of an entry, and a field of its operands (R473). -/
def entryCtx (e : BitVec 512) : Nat := (e.extractLsb' 16 16).toNat
def entryTag (e : BitVec 512) : Nat := (e.extractLsb' 32 32).toNat
def entryField (e : BitVec 512) (off lo w : Nat) : Nat := (e.extractLsb' (8 * off + lo) w).toNat
def entryWord (e : BitVec 512) (off : Nat) : BitVec 64 := e.extractLsb' (8 * off) 64

/-- A completion entry (R473, R405). -/
def completionBytes (e : BitVec 512) (code detail : Nat) (result : BitVec 64) : List Byte :=
  bytesOfNat 4 (entryTag e) ++ bytesOfNat 4 (code + 256 * detail) ++ bytesOfNat 8 (if code = 0 then result.toNat else 0)

/-- The command completes: its completion is written at ACTAIL, and MSI-X vector 0 is raised. A queue that the host has
disabled meanwhile takes none. -/
def adminDone (s : State) (e : BitVec 512) (code detail : Nat) (result : BitVec 64) : State :=
  let a := s.admin
  if a.enable then
    { s with
        hostMem := cellsWrite s.hostMem (a.acbase.toNat + 16 * (a.actail.toNat % adminSize a)) (completionBytes e code detail result),
        admin := { a with actail := a.actail + 1#32, busy := none },
        interrupts := s.interrupts ++ [0] }
  else { s with admin := { a with busy := none } }

def adminOk (s : State) (e : BitVec 512) (result : BitVec 64) : State := adminDone s e 0 0 result
def adminFail (s : State) (e : BitVec 512) (code : Nat) : State := adminDone s e code 0 0#64

/-- A read or write of host memory has failed (R475). -/
def adminIoFail (s : State) (e : BitVec 512) : State := adminDone s e 4 0xFF 0#64

/-- A long command holds the queue (R475). -/
def adminHold (s : State) (e : BitVec 512) : State := { s with admin := { s.admin with busy := some e } }

/-! ## Checks of every command (R473, R475) -/

/-- The bits that a row of R474 uses: operand fields as offset, lowest bit and width. -/
def usedBits (names : Bool) (l : List (Nat × Nat × Nat)) : BitVec 512 :=
  l.foldl (fun m f => m ||| (BitVec.ofNat 512 (2 ^ f.2.2 - 1) <<< (8 * f.1 + f.2.1)))
    (0xFFFFFFFF000000FF#512 ||| (if names then 0xFFFF0000#512 else 0#512))

/-- Commands that a device in recovery accepts. -/
def recoveryAllows (op : Nat) : Bool := decide (op = 0x10) || decide (op = 0x18)

/-- A command of the queue: taken if it is the next, then the checks of R475 and R473, then its own effect. -/
def adminRun (e : BitVec 512) (op : Nat) (names : Bool) (fields : List (Nat × Nat × Nat)) (s : State) (k : State → State) : Res :=
  if adminEntry s ≠ some e ∨ entryOpcode e ≠ BitVec.ofNat 8 op then idle s
  else
    let t := takeCommand s
    if t.admin.bootst = 2 ∧ !recoveryAllows op then .next (adminFail t e 2)
    else if e &&& ~~~(usedBits names fields) ≠ 0#512 then .next (adminFail t e 1)
    else if names ∧ (findContext t (entryCtx e)).isNone then .next (adminFail t e 2)
    else .next (k t)

/-- ADMIN_UNKNOWN_OPCODE (R473). -/
def execAdminUnknownOpcode (e : BitVec 512) (s : State) : Res :=
  match decodeAdmin e with
  | .adminUnknownOpcode _ =>
    if adminEntry s ≠ some e then idle s
    else .next (adminFail (takeCommand s) e (if s.admin.bootst = 2 then 2 else 1))
  | _ => idle s

/-- DEVSET (R474). -/
def execDevset (e : BitVec 512) (s : State) : Res :=
  adminRun e 0x0E false [(8, 0, 20)] s fun s =>
    if s.contexts ≠ [] then adminFail s e 2
    else adminOk { s with admin := { s.admin with devid := e.extractLsb' 64 20 } } e 0#64

/-- POWERCAP (R467, R474). -/
def execPowercap (e : BitVec 512) (s : State) : Res :=
  adminRun e 0x15 false [(8, 0, 16)] s fun s =>
    let w := entryField e 8 0 16
    if w < 1200 ∨ w > 3200 then adminFail s e 1 else adminOk { s with powerCap := w } e (BitVec.ofNat 64 w)

/-! ## The register page (R471, R472) -/

/-- A write of AQTAIL: one that would publish more commands than the ring holds is ignored. -/
def writeTail (a : Admin) (v : BitVec 32) : Admin := if idxDiff v a.aqhead > adminSize a then a else { a with aqtail := v }

/-- A write of AQCTL: while ENABLE is 1 only one that clears it acts; setting ENABLE zeroes the indices. -/
def writeCtl (a : Admin) (v : BitVec 64) : Admin :=
  if v.getLsbD 8 then
    (if a.enable then a
     else { a with log2 := (v.extractLsb' 0 4).toNat, enable := true, aqhead := 0#32, aqtail := 0#32, achead := 0#32, actail := 0#32 })
  else { a with log2 := (v.extractLsb' 0 4).toNat, enable := false }

/-- AQTAIL_WRITE (R472). -/
def execAqtailWrite (v : BitVec 32) (s : State) : Res := if hostOpen s then .next { s with admin := writeTail s.admin v } else idle s

/-- AQCTL_WRITE (R472). -/
def execAqctlWrite (v : BitVec 64) (s : State) : Res := if hostOpen s then .next { s with admin := writeCtl s.admin v } else idle s

/-- ACHEAD_WRITE (R472). -/
def execAcheadWrite (v : BitVec 32) (s : State) : Res :=
  if hostOpen s then .next { s with admin := { s.admin with achead := v } } else idle s

/-- BOOTST with the number of lost dies, DEVID with the form, AQCTL, and a word of a reduction window, as they read (R429, R471). -/
def bootWord (s : State) : BitVec 64 := BitVec.ofNat 64 (s.admin.bootst % 4 + 256 * ((List.range 24).filter (dieLost s)).length)
def devidWord (s : State) : BitVec 64 := BitVec.ofNat 64 (s.admin.devid.toNat + 2 ^ 32 * (s.form % 4))
def ctlWord (a : Admin) : BitVec 64 := BitVec.ofNat 64 (a.log2 + if a.enable then 256 else 0)
def rwinWord (s : State) (off : Nat) : BitVec 64 := (s.rwins.get (Fin.ofNat 8 (off / 24))).extractLsb' (64 * (off % 24 / 8)) 64

/-- What the eight aligned bytes at an offset of the register page hold: AQTAIL, and what the table does not name, read zero (R471). -/
def pageWord (s : State) (off : Nat) : BitVec 64 :=
  match off with
  | 0x000 => devidWord s
  | 0x008 => bootWord s
  | 0x010 => s.admin.secver
  | 0x100 => s.admin.aqbase
  | 0x108 => ctlWord s.admin
  | 0x110 => (s.admin.aqhead ++ 0#32 : BitVec 64)
  | 0x118 => s.admin.acbase
  | 0x120 => (s.admin.actail ++ s.admin.achead : BitVec 64)
  | n => if 0x1000 ≤ n ∧ n < 0x10C0 then rwinWord s (n - 0x1000) else 0#64

/-- What a host read of the register page gives: an access that is not one of 4 or 8 aligned bytes reads zero (R471; of halves, log 79). -/
def pageValue (s : State) (off size : Nat) : BitVec 64 :=
  if size = 8 ∧ off % 8 = 0 then pageWord s off
  else if size = 4 ∧ off % 4 = 0 then ((pageWord s (off / 8 * 8)).extractLsb' (8 * (off % 8)) 32).setWidth 64
  else 0#64

/-- The host reads the register page, once its port carries traffic. -/
def readPage (s : State) (off size : Nat) : State :=
  if s.deviceLost || !linkUp s .host then s else { s with pageReads := (off, size, pageValue s off size) :: s.pageReads }

/-- A write of a register, or of one 4-byte half of it. -/
def mergeHalf (old v : BitVec 64) (wide high : Bool) : BitVec 64 :=
  if wide then v
  else if high then (old &&& 0xFFFFFFFF#64) ||| (((v.setWidth 32 : BitVec 32).setWidth 64 : BitVec 64) <<< (32 : Nat))
  else (old &&& 0xFFFFFFFF00000000#64) ||| ((v.setWidth 32 : BitVec 32).setWidth 64 : BitVec 64)

/-- A base register holds bits 5:0 zero, and changes only while ENABLE is 0. -/
def writeBase (a : Admin) (old v : BitVec 64) (wide high : Bool) : BitVec 64 :=
  if a.enable then old else mergeHalf old v wide high &&& 0xFFFFFFFFFFFFFFC0#64

/-- The admin registers after an aligned write of 4 or 8 bytes at an offset of the page; an offset with nothing to write
changes nothing. -/
def pageWrite (a : Admin) (off : Nat) (wide : Bool) (v : BitVec 64) : Admin :=
  if off % (if wide then 8 else 4) ≠ 0 then a
  else
    let ctl := ctlWord a
    match off with
    | 0x100 => { a with aqbase := writeBase a a.aqbase v wide false }
    | 0x104 => { a with aqbase := writeBase a a.aqbase v wide true }
    | 0x108 => writeCtl a (mergeHalf ctl v wide false)
    | 0x10C => writeCtl a (mergeHalf ctl v wide true)
    | 0x110 => writeTail a (v.setWidth 32)
    | 0x118 => { a with acbase := writeBase a a.acbase v wide false }
    | 0x11C => { a with acbase := writeBase a a.acbase v wide true }
    | 0x120 => { a with achead := v.setWidth 32 }
    | _ => a

/-- REGISTER_WRITE (R471). -/
def execRegisterWrite (off : Nat) (wide : Bool) (v : BitVec 64) (s : State) : Res :=
  if hostOpen s then .next { s with admin := pageWrite s.admin off wide v } else idle s

end Sys2Proof.Machine
end

