-- ==== Sys2Proof/Machine/Code.lean ====
section
/-!
DEFINITION. Kernels and code (14_kernel R370-R377, R381-R387): loading a kernel with the checks of R371, retiring one, and the
instructions CFLUSH and ICINV.
-/
namespace Sys2Proof.Machine

/-! ## Ranges of code bytes (R381) -/

/-- The physical pieces behind a range of virtual addresses, granule by granule; what does not translate is skipped. A home that a walk
does not reach ends it. -/
def piecesFrom (die ctx stop : Nat) : Nat → State → Nat → State × (Nat ⊕ List (Nat × Nat))
  | 0, s, _ => (s, .inr [])
  | fuel + 1, s, va =>
    if va ≥ stop then (s, .inr [])
    else
      let next := min stop ((va / 65536 + 1) * 65536)
      let v := BitVec.ofNat 64 va
      let r := if canonical v then leafOf s die ctx v else (s, .fault)
      match r.2 with
      | .away home => (r.1, .inl home)
      | w =>
        let here := match w with
          | .leaf e => (match leafTarget e v 1 with
            | some (.mem pa false) => [(pa, next - va)]
            | _ => [])
          | _ => []
        let t := piecesFrom die ctx stop fuel r.1 next
        (t.1, match t.2 with
          | .inl home => .inl home
          | .inr l => .inr (here ++ l))

/-- The lines of a range: first byte and first byte after, widened to whole lines. -/
def lineRange (a n : Nat) : Nat × Nat := if n = 0 then (a, a) else (a / 128 * 128, (a + n - 1) / 128 * 128 + 128)

/-- The first address of a range's ends that is not canonical. -/
def rangeBad (a : BitVec 64) (n : Nat) : Option (BitVec 64) :=
  let e := a + BitVec.ofNat 64 (n - 1)
  if !canonical a then some a else if n > 0 ∧ !canonical e then some e else none

/-- CFLUSH and ICINV: their operands, then what each does with the range; one that the slot has begun goes on with what it has read. -/
def codeOp (h : Head) (a b : Opnd) (off : BitVec 32) (s : State) (f : Ctx → Reads → BitVec 64 → Nat → Res) : Res :=
  issue s h.guard fun c =>
    match c.begun with
    | some p => f c [] (p.vals.headD 0#64) ((p.vals.getD 1 0#64).toNat)
    | none =>
    match deadCheck c.a (single [a, b]) with
    | some x => c.halt x
    | none =>
      let kills := headKills h a b .zero
      if c.act = 0#32 then c.commit (killRegs c.a kills)
      else
        match firstHalt [privCheck c [a, b], wordCheck c.a [a, b]] with
        | some x => c.halt x
        | none =>
          let va := scalarOf c a + off.signExtend 64
          let n := (scalarOf c b).toNat % 2 ^ 32
          match rangeBad va n with
          | some x => c.trap cProtection x
          | none => f c kills va n

/-- The gang's accesses of class W whose bytes fall in physical ranges. -/
def rangeOps (s : State) (id : GangId) (l : List (Nat × Nat)) : List Nat :=
  (s.pend.filter fun p => decide (p.gang = id) && p.kind.inClass 2#6 && p.kind.bytes.any fun b => match b.1 with
    | .mem pa _ => inRanges l pa b.2
    | _ => false).map fun p => p.op

/-- The release that a CFLUSH holds its slot for (R382). -/
def cflushTask (s : State) (g : Gang) (sc : Scope) (l : List (Nat × Nat)) : Task :=
  { baseTask s g sc with ops := rangeOps s g.id l, writes := true, notBefore := s.tick, range := some l }

/-- CFLUSH once its release is over. -/
def cflushEnd (c : Ctx) (kills : Reads) (f : Option (BitVec 8 × BitVec 64)) : Res :=
  match f with
  | some x => c.fail x.1 x.2
  | none => c.finish .zero kills 0#64 id

/-- CFLUSH (R382): the walk of its range may have to wait for a home, then its release; what it has read stands meanwhile. -/
def execCflush (h : Head) (a b : Opnd) (off : BitVec 32) (scope : Scope) (s : State) : Res :=
  codeOp h a b off s fun c kills va n =>
    let i : Instr := .cflush h a b off scope
    let r := lineRange va.toNat n
    let p := piecesFrom c.g.id.die c.g.ctx r.2 (n / 65536 + 3) c.s r.1
    let w := { c with s := p.1 }
    match c.begun, p.2 with
    | none, .inl home => .next (w.begin i (.walk c.s.tick home) .zero kills [va, BitVec.ofNat 64 n] true)
    | none, .inr l => w.withTask i (cflushTask p.1 c.g scope l) .zero kills [] true fun c f => cflushEnd c kills f
    | some q, x =>
      if q.vals = [] then c.withTask i (cflushTask c.s c.g scope []) .zero kills [] true fun c f => cflushEnd c kills f
      else match x with
        | .inl home => w.hold (.walk c.s.tick home)
        | .inr l =>
          let t := cflushTask p.1 c.g scope l
          let s := modPend (addTask p.1 t) q.op fun q => { q with kind := .begun i [] q.active true }
          .next (modGang s c.g.id fun g => { g with arch := g.arch.setWait c.x (.task t.id) })

/-- Remove the lines of a range of a context from the instruction caches of some cores, and the fills of them that are under way
(R383). -/
def dropCode (s : State) (cores : Nat → Nat → Bool) (ctx a stop : Nat) : State :=
  let keep := fun (l : ILine) => !(decide (l.ctx = ctx) && decide (a < 128 * l.line + 128) && decide (128 * l.line < stop))
  { s with cores := s.cores.map fun c =>
      if cores c.die c.core then { c with icache := c.icache.filter keep, fills := c.fills.filter keep } else c }

/-- The cores in the scope of an ICINV (R383). -/
def icinvCores (s : State) (g : Gang) (sc : Scope) (die core : Nat) : Bool :=
  let part := fun (d : Nat) => match findContext s g.ctx with
    | some c => partCores c d
    | none => 0#128
  match sc with
  | .blk => decide (die = g.id.die) && decide (core = g.id.core)
  | .clu => decide (die = g.id.die) && decide (clusterOf core = clusterOf g.id.core)
  | .die => decide (die = g.id.die) && (part die).getLsbD core
  | _ => (part die).getLsbD core

/-- A die of the partition that an ICINV at package scope cannot reach (R16, R424). -/
def icinvAway (s : State) (g : Gang) (sc : Scope) : Option Nat :=
  if scopeRank sc < 3 then none
  else (List.range 8).find? fun d => decide (d ≠ g.id.die) && !dieLost s d && !dieReach s g.id.die d && (match findContext s g.ctx with
    | some c => decide (partCores c d ≠ 0#128)
    | none => false)

/-- ICINV (R383). -/
def execIcinv (h : Head) (a b : Opnd) (off : BitVec 32) (scope : Scope) (s : State) : Res :=
  codeOp h a b off s fun c kills va n =>
    let r := lineRange va.toNat n
    match icinvAway c.s c.g scope with
    | some d => c.halt (.away (24 + d))
    | none => c.afterRisk (c.commitWith ((killRegs c.a kills).advance c.x) fun s => dropCode s (icinvCores s c.g scope) c.g.ctx r.1 r.2)

/-! ## Loading (R370, R371, R374) -/

/-- Fields of a kernel descriptor. -/
def kdField (d : BitVec 512) (off lo w : Nat) : Nat := (d.extractLsb' (8 * off + lo) w).toNat
def kdAddr (d : BitVec 512) (off : Nat) : BitVec 64 := d.extractLsb' (8 * off) 64

def kdCode (d : BitVec 512) : BitVec 64 := kdAddr d 0
def kdConst (d : BitVec 512) : BitVec 64 := kdAddr d 8
def kdNinstr (d : BitVec 512) : Nat := kdField d 16 0 32
def kdConstlen (d : BitVec 512) : Nat := kdField d 20 0 32
def kdEntry (d : BitVec 512) : Nat := kdField d 24 0 32
def kdTrap (d : BitVec 512) : Nat := kdField d 28 0 32
def kdLiveoff (d : BitVec 512) : Nat := kdField d 32 0 32
def kdBudget (d : BitVec 512) : Nat := kdField d 40 8 12
def kdScratch (d : BitVec 512) : Nat := kdField d 44 0 19

/-- Check 2: the reserved fields are zero. -/
def kdReserved (d : BitVec 512) : Bool :=
  [(36, 0, 32), (40, 20, 12), (40, 6, 2), (44, 22, 10), (48, 5, 27), (48, 0, 1), (52, 0, 32), (56, 0, 64)].all fun f =>
    decide (kdField d f.1 f.2.1 f.2.2 = 0)

/-- Check 3: code base, const section and their lengths. -/
def kdRegions (d : BitVec 512) : Bool :=
  canonical (kdCode d) && decide ((kdCode d).toNat % 64 = 0) && canonical (kdConst d) && decide ((kdConst d).toNat % 64 = 0)
    && decide (1 ≤ kdNinstr d) && decide (kdNinstr d ≤ 16777216) && decide (32 ≤ kdConstlen d)
    && canonical (kdConst d + BitVec.ofNat 64 (kdConstlen d - 1))

/-- An offset of an instruction of the code object. -/
def codeOffset (ninstr o : Nat) : Bool := decide (o % 12 = 0) && decide (o < 12 * ninstr)

/-- Check 4: ENTRY and TRAP. -/
def kdEntries (d : BitVec 512) : Bool :=
  codeOffset (kdNinstr d) (kdEntry d) && (decide (kdTrap d = 0xFFFFFFFF) || codeOffset (kdNinstr d) (kdTrap d))

/-- Check 5: BUDGET and SCRATCH; every GANGSM1 is in range. -/
def kdBudgets (d : BitVec 512) : Bool := decide (32 ≤ kdBudget d) && decide (kdBudget d ≤ 2048) && decide (kdScratch d ≤ scratchLimit)

/-- Entries of a liveness table from number `e` on: none when one cannot be read or is malformed (R374). -/
def liveEntries (die ctx ninstr : Nat) (table : BitVec 64) : Nat → State → Nat → Option Nat → State × Option (List (Nat × BitVec 64))
  | 0, s, _, _ => (s, some [])
  | k + 1, s, e, prev =>
    let r := deviceRead s die ctx (table + BitVec.ofNat 64 (16 * e + 16)) 16
    match r.2 with
    | none => (r.1, none)
    | some x =>
      let start := x % 2 ^ 32
      let rising := match prev with
        | none => decide (start = 0)
        | some p => decide (p < start)
      if !rising || !codeOffset ninstr start || decide (x / 2 ^ 32 % 2 ^ 32 ≠ 0) then (r.1, none)
      else
        let t := liveEntries die ctx ninstr table k r.1 (e + 1) (some start)
        (t.1, t.2.map fun l => (start, BitVec.ofNat 64 (x / 2 ^ 64)) :: l)

/-- Check 6: the liveness table. -/
def liveTable (s : State) (die ctx : Nat) (d : BitVec 512) : State × Option (List (Nat × BitVec 64)) :=
  if kdLiveoff d % 16 ≠ 0 ∨ kdLiveoff d + 16 > kdConstlen d then (s, none)
  else
    let table := kdConst d + BitVec.ofNat 64 (kdLiveoff d)
    let r := deviceRead s die ctx table 16
    match r.2 with
    | none => (r.1, none)
    | some x =>
      let n := x % 2 ^ 32
      if x / 2 ^ 32 ≠ 0 ∨ n = 0 ∨ n > kdNinstr d ∨ kdLiveoff d + 16 + 16 * n > kdConstlen d then (r.1, none)
      else liveEntries die ctx (kdNinstr d) table n r.1 0 none

/-- Every granule of a region translates with each kind of access. -/
def regionOk (die ctx stop : Nat) (kinds : List Access) : Nat → State → Nat → State × Bool
  | 0, s, va => (s, decide (va ≥ stop))
  | fuel + 1, s, va =>
    if va ≥ stop then (s, true)
    else
      let r := kinds.foldl (fun (r : State × Bool) k =>
        let t := translateAny r.1 die ctx (BitVec.ofNat 64 va) 1 k
        (t.1, r.2 && t.2.isRight)) (s, true)
      if r.2 then regionOk die ctx stop kinds fuel r.1 ((va / 65536 + 1) * 65536) else (r.1, false)

def regionMapped (s : State) (die ctx a n : Nat) (kinds : List Access) : State × Bool :=
  regionOk die ctx (a + n) kinds (n / 65536 + 2) s a

/-- The device's own copy of a descriptor with its liveness table. -/
def kernelOf (ctx : Nat) (kdesc : BitVec 64) (d : BitVec 512) (live : List (Nat × BitVec 64)) : Kernel :=
  { ctx := ctx, kdesc := kdesc, code := kdCode d, const := kdConst d, ninstr := kdNinstr d, constlen := kdConstlen d,
    entry := BitVec.ofNat 32 (kdEntry d), trap := BitVec.ofNat 32 (kdTrap d), budget := kdBudget d, gangsM1 := kdField d 40 0 6,
    clustM1 := kdField d 44 19 3, scratch := kdScratch d, spread := decide (kdField d 48 4 1 = 1),
    noborrow := decide (kdField d 48 3 1 = 1), coop := decide (kdField d 48 2 1 = 1), replay := decide (kdField d 48 1 1 = 1),
    liveness := live, state := .loaded }

/-- Invalidate a kernel's lines on every core of its context (R377). -/
def dropKernelCode (s : State) (k : Kernel) : State :=
  dropCode s (fun _ _ => true) k.ctx k.code.toNat (k.code.toNat + 12 * k.ninstr)

/-- The die whose walker serves the device's own reads of a context. -/
def contextDie (s : State) (c : Context) : Nat :=
  match ownerOf s c.diemask with
  | some d => d
  | none => 0

/-- The checks of R371 in order: the number of the first that fails, or the kernel. -/
def loadChecks (s : State) (c : Context) (kdesc : BitVec 64) : State × (Nat ⊕ Kernel) :=
  let die := contextDie s c
  if kdesc.toNat % 64 ≠ 0 then (s, .inl 1)
  else
    let r := deviceRead s die c.num kdesc 64
    match r.2 with
    | none => (r.1, .inl 1)
    | some x =>
      let d := BitVec.ofNat 512 x
      if !kdReserved d then (r.1, .inl 2)
      else if !kdRegions d then (r.1, .inl 3)
      else if !kdEntries d then (r.1, .inl 4)
      else if !kdBudgets d then (r.1, .inl 5)
      else
        let t := liveTable r.1 die c.num d
        match t.2 with
        | none => (t.1, .inl 6)
        | some live =>
          let p := regionMapped t.1 die c.num (kdCode d).toNat (12 * kdNinstr d) [.read, .fetch]
          if !p.2 then (p.1, .inl 7)
          else
            let q := regionMapped p.1 die c.num (kdConst d).toNat (kdConstlen d) [.read]
            if !q.2 then (q.1, .inl 7) else (q.1, .inr (kernelOf c.num kdesc d live))

/-- LOAD (R371, R377). -/
def execLoad (e : BitVec 512) (s : State) : Res :=
  adminRun e 0x05 true [(8, 0, 64)] s fun s =>
    match findContext s (entryCtx e) with
    | none => adminFail s e 2
    | some c =>
      let kdesc := entryWord e 8
      if (findKernel s c.num kdesc).isSome then adminFail s e 2
      else
        let r := loadChecks s c kdesc
        match r.2 with
        | .inl n => adminDone r.1 e 4 n 0#64
        | .inr k => adminOk (dropKernelCode { r.1 with kernels := r.1.kernels ++ [k] } k) e 0#64

/-! ## Retiring (R377) -/

/-- A bind record of a kernel. -/
def BindRec.names (r : BindRec) (k : Kernel) : Bool := decide (r.ctx = k.ctx) && decide (r.kdesc = k.kdesc)

/-- The standing records of a kernel lose VALID: they are free, and the blocks they had still to place are not bound any more. -/
def clearStanding (s : State) (die : Nat) (k : Kernel) : State :=
  (getDie s die).binds.foldl (fun s b =>
    if b.2.standing && b.2.names k then
      modGroup (modDie s die fun d => { d with binds := d.binds.filter fun x => decide (x.1 ≠ b.1) }) b.2.dgroup
        fun d => { d with left := d.left - b.2.left }
    else s) s

/-- UNLOAD (R377). -/
def execUnload (e : BitVec 512) (s : State) : Res :=
  adminRun e 0x06 true [(8, 0, 64)] s fun s =>
    match findContext s (entryCtx e) with
    | none => adminFail s e 2
    | some c =>
      match findKernel s c.num (entryWord e 8) with
      | none => adminFail s e 2
      | some k =>
        if k.state = .retiring ∨ (c.dispatch = k.kdesc ∧ c.dispatch ≠ 0#64 ∧ c.state = .active) then adminFail s e 2
        else
          let s := { s with kernels := s.kernels.map fun x => if x.ctx = k.ctx ∧ x.kdesc = k.kdesc then { x with state := .retiring } else x }
          adminOk ((List.range 8).foldl (fun s j => clearStanding s j k) s) e 0#64

/-- Something still uses a kernel: a bind record, a block, or a spawn request, here or in a saved context. -/
def kernelUsed (s : State) (k : Kernel) : Bool :=
  ((List.range 8).any fun j => (getDie s j).binds.any fun b => b.2.names k)
    || (s.blocks.any fun b => decide (b.ctx = k.ctx) && decide (b.kdesc = k.kdesc))
    || (s.mailboxes.any fun m => decide (m.ctx = k.ctx) && m.spawnq.any fun q => decide (q.kdesc = k.kdesc))
    || s.saved.any fun v => decide (v.ctx = k.ctx) &&
      ((v.blocks.any fun b => decide (b.kdesc = k.kdesc)) || (v.binds.any fun b => b.2.2.names k)
        || v.mailboxes.any fun m => m.spawnq.any fun q => decide (q.kdesc = k.kdesc))

/-- Retiring kernels that nothing uses are ABSENT. -/
def endKernels (s : State) : State :=
  s.kernels.foldl (fun s k =>
    if k.state = .retiring ∧ !kernelUsed s k then
      dropKernelCode { s with kernels := s.kernels.filter fun x => !(decide (x.ctx = k.ctx) && decide (x.kdesc = k.kdesc)) } k
    else s) s

end Sys2Proof.Machine
end

