-- ==== Sys2Proof/Machine/Queue.lean ====
section
/-!
DEFINITION. Queues (15_queue R388-R402; 01_device R22, R24): bells, the lottery, the four packet kinds, completion records and the
event ring, replay, and the commands QCREATE, QRESET, QDESTROY and SEED.
-/
namespace Sys2Proof.Machine

/-! ## Packets (R392-R396) -/

def packetBits (p : BitVec 512) (off lo w : Nat) : Nat := (p.extractLsb' (8 * off + lo) w).toNat

/-- BARRIER (R392). -/
def packetBarrier (p : BitVec 512) : Bool := p.getLsbD 8

/-- Reference `r` of a DEPEND: its queue and packet index when it is valid (R394). -/
def dependRef (p : BitVec 512) (r : Nat) : Option (Nat × BitVec 32) :=
  if p.getLsbD (64 + 64 * r + 63) then some (packetBits p (8 + 8 * r) 32 16, p.extractLsb' (64 + 64 * r) 32) else none

/-- The limits of a packet's kind. -/
def packetLimits (q : Queue) (w : BitVec 32) (p : BitVec 512) : Bool :=
  let zero := fun (l : List (Nat × Nat × Nat)) => l.all fun f => decide (packetBits p f.1 f.2.1 f.2.2 = 0)
  match packetKind p with
  | 1 => zero [(2, 0, 16), (28, 0, 32), (32, 0, 32), (60, 0, 32)] && decide (launchGrid p ≠ 0#32)
  | 2 => zero [(2, 0, 48)] && (List.range 7).all fun r =>
      decide (packetBits p (8 + 8 * r) 48 15 = 0) && (match dependRef p r with
        | some (n, x) => decide (n ≠ q.num) || idxBefore x w
        | none => true)
  | 3 => zero [(3, 0, 40), (8, 0, 3), (24, 0, 320)] && decide (packetBits p 2 0 8 ≤ 1)
  | 4 => zero [(2, 8, 8), (2, 3, 1), (4, 0, 32), (8, 0, 6), (16, 0, 384)] && q.mask.getLsbD (packetBits p 2 0 3)
  | _ => false

/-- The packet is well formed (R392). -/
def packetOk (q : Queue) (w : BitVec 32) (p : BitVec 512) : Bool := decide (packetBits p 1 2 6 = 0) && packetLimits q w p

/-- A reference has completed; one to a queue of another owner only when the packet's record is written (R394). -/
def refDone (s : State) (q : Queue) (r : Nat × BitVec 32) : Bool :=
  match findQueue s r.1 with
  | none => true
  | some x =>
    idxBefore r.2 x.done && (decide (ownerOf s x.mask = ownerOf s q.mask) || (match findContext s x.ctx with
      | some c => !c.due.any fun y => decide (y.queue = r.1) && decide (y.pindex = r.2)
      | none => true))

/-- Every reference of a DEPEND has completed. -/
def refsDone (s : State) (q : Queue) (p : BitVec 512) : Bool :=
  (List.range 7).all fun r => match dependRef p r with
    | some x => refDone s q x
    | none => true

/-! ## Splitting a LAUNCH (R398) -/

/-- Dies of the mask that remain. -/
def liveDies (s : State) (mask : BitVec 8) : List Nat := (List.range 8).filter fun j => mask.getLsbD j && !dieLost s j

/-- The share of each remaining die: die, first block and count; a die with an empty range gets none. -/
def launchShares (s : State) (mask : BitVec 8) (grid : Nat) : List (Nat × Nat × Nat) :=
  let l := liveDies s mask
  ((l.zip (List.range l.length)).map fun x =>
    (x.1, x.2 * grid / l.length, (x.2 + 1) * grid / l.length - x.2 * grid / l.length)).filter fun x => decide (x.2.2 ≠ 0)

/-- A share: the packet with FIRST and COUNT filled in. -/
def sharePacket (p : BitVec 512) (first count : Nat) : BitVec 512 :=
  p ||| (BitVec.ofNat 512 first <<< 224) ||| (BitVec.ofNat 512 count <<< 256)

/-- Every mailbox of a split has room (R206). -/
def sharesFit (s : State) (ctx : Nat) (l : List (Nat × Nat × Nat)) : Bool :=
  l.all fun x => decide ((getMailbox s x.1 ctx).packets.length < 256)

/-! ## Queue states (R391, R392) -/

/-- The event ring was full at its last reading (R399). -/
def ringFull (c : Context) : Bool := decide (idxDiff c.widx c.ridx ≥ 2 ^ c.evlog2)

/-- The event ring of a queue's context is full, and the queue takes no packet (R392, R399). -/
def ringStops (s : State) (q : Queue) : Bool :=
  match findContext s q.ctx with
  | some c => ringFull c
  | none => true

/-- A head packet must wait for what its kind or its flags name (R392). -/
def headWaits (s : State) (q : Queue) (p : BitVec 512) : Bool :=
  ((packetBarrier p || decide (packetKind p = 3)) && decide (q.done ≠ q.ridx))
    || (decide (packetKind p = 2) && !refsDone s q p)
    || (decide (packetKind p = 1) && !sharesFit s q.ctx (launchShares s q.mask (launchGrid p).toNat))

/-- The state of a queue that is not in ERROR, as its packets stand; while its head's slot cannot be reached it is BLOCKED (DESIGN CHOICE, log
174). -/
def queueNow (s : State) (q : Queue) : State × QState :=
  if q.state = .error then (s, .error)
  else if !ctxActive s q.ctx then (s, .inactive)
  else if q.ridx = q.bell ∨ q.destroying then (s, .empty)
  else if !slotReach s q q.ridx then (s, .blocked)
  else
    let r := packetAt s q q.ridx
    (r.1, if ringStops r.1 q || (match r.2 with
      | none => false
      | some p => packetOk q q.ridx p && headWaits r.1 q p) then .blocked else .ready)

/-- Every queue's state is brought up to date and its status block rewritten when it has changed, or when a block that could not be
reached can be; a queue with no compute die left enters ERROR (R390, R391, R397). -/
def refreshQueues (s : State) : State :=
  (s.queues.map fun q => q.num).foldl (fun s n =>
    match findQueue s n with
    | none => s
    | some q =>
      if q.state ≠ .error ∧ (ownerOf s q.mask).isNone then cancelHead s q 3
      else
        let r := queueNow s q
        if r.2 = q.state ∧ !(q.stale && deviceReach s (queueDie s q) q.ctx q.status 16 .write) then r.1 else setQueue r.1 { q with state := r.2 }) s

/-! ## BELL_WRITE (R389) and LOTTERY_DRAW (R397) -/

/-- BELL_WRITE. -/
def execBellWrite (qn : Nat) (w : BitVec 32) (s : State) : Res := if hostOpen s then .next (ringBell s qn w) else idle s

/-- The next lottery state. -/
def lotteryNext (x : BitVec 64) : BitVec 64 :=
  let x := x ^^^ (x <<< (13 : Nat))
  let x := x ^^^ (x >>> (7 : Nat))
  x ^^^ (x <<< (17 : Nat))

/-- Insert a queue by its number. -/
def insertQueue (q : Queue) : List Queue → List Queue
  | [] => [q]
  | x :: rest => if q.num < x.num then q :: x :: rest else x :: insertQueue q rest

/-- The READY queues that a scheduler core owns, in ascending number. -/
def readyQueues (s : State) (die : Nat) : List Queue :=
  (s.queues.filter fun q => decide ((queueNow s q).2 = .ready) && decide (ownerOf s q.mask = some die)).foldl (fun l q => insertQueue q l) []

/-- The first queue whose running sum of tickets exceeds `t`. -/
def lotteryPick (t : Nat) : Nat → List Queue → Option Queue
  | _, [] => none
  | sum, q :: rest => if sum + q.tickets > t then some q else lotteryPick t (sum + q.tickets) rest

/-- The winner of a draw from a lottery state. -/
def lotteryWinner (x : BitVec 64) (l : List Queue) : Option Queue :=
  let total := (l.map fun q => q.tickets).foldl (· + ·) 0
  lotteryPick (x.toNat / 2 ^ 32 * total / 2 ^ 32) 0 l

/-- The head packet of a queue is taken; a malformed head completes CANCELLED and the queue enters ERROR (R391). -/
def takeHead (s : State) (q : Queue) : State :=
  let r := packetAt s q q.ridx
  match r.2 with
  | none => cancelHead r.1 q 1
  | some p =>
    if !packetOk q q.ridx p then cancelHead r.1 q 1
    else
      setQueue r.1 { q with ridx := q.ridx + 1#32,
                            taken := q.taken ++ [{ pindex := q.ridx, packet := p, start := s.tick, begun := false }] }

/-- LOTTERY_DRAW: a scheduler core with a READY queue draws, and the winner's head packet is taken. -/
def execLotteryDraw (die : Nat) (s : State) : Res :=
  let l := readyQueues s die
  if dieLost s die ∨ l = [] then idle s
  else
    let x := lotteryNext (getDie s die).lottery
    let s := modDie s die fun d => { d with lottery := x }
    match lotteryWinner x l with
    | none => .next s
    | some q => .next (takeHead s q)

/-! ## Taken packets -/

/-- A packet that has been taken, of a kind, whose work has not begun, in a context that is ACTIVE. -/
def takenOf (s : State) (qn w kind : Nat) : Option (Queue × Taken) :=
  match findQueue s qn with
  | none => none
  | some q =>
    if !ctxActive s q.ctx then none
    else (q.taken.find? fun t => decide (t.pindex.toNat = w) && !t.begun && decide (packetKind t.packet = kind)).map fun t => (q, t)

/-- The packet completes with a status and a fault count. -/
def finishTaken (s : State) (q : Queue) (t : Taken) (status faults : Nat) : State :=
  completePacket s q.num { recordOf s q t.pindex (packetKind t.packet) t.start status (packetNow t.packet) with faults := faults }

/-- The packet's work has begun. -/
def beginTaken (s : State) (q : Queue) (t : Taken) : State :=
  putQueue s { q with taken := q.taken.map fun x => if x.pindex = t.pindex then { x with begun := true } else x }

/-- Two ranges of virtual addresses share a byte (R393). -/
def rangesMeet (a n b m : Nat) : Bool := decide (n ≠ 0) && decide (m ≠ 0) && decide (a < b + m) && decide (b < a + n)

/-- A REPLAY launch whose footprints share a byte. -/
def launchOverlap (k : Kernel) (p : BitVec 512) : Bool :=
  k.replay && rangesMeet (packetBits p 40 0 64) (packetBits p 36 0 32) (packetBits p 48 0 64) (packetBits p 56 0 32)

/-- Some die of a split fails the test of R204 for a cooperative kernel. -/
def coopFails (s : State) (c : Context) (k : Kernel) (p : BitVec 512) (l : List (Nat × Nat × Nat)) : Bool :=
  k.coop && l.any fun x => !couldFit s x.1 (recordFor c k x.1 (shareRequest 0#32 (sharePacket p x.2.1 x.2.2)) 0)

/-- Why a LAUNCH completes without a block: its status (R24, R204, R393). -/
def launchRefused (s : State) (q : Queue) (p : BitVec 512) : Option Nat :=
  match findContext s q.ctx, findKernel s q.ctx (launchKdesc p) with
  | some c, some k =>
    if k.state ≠ .loaded then some stCancelled
    else if launchOverlap k p then some stOverlap
    else if liveDies s q.mask = [] then some stDieLost
    else if coopFails s c k p (launchShares s q.mask (launchGrid p).toNat) then some stTooLarge
    else none
  | _, _ => some stCancelled

/-- Post every share of a launch. -/
def postShares (s : State) (ctx uid : Nat) (p : BitVec 512) (l : List (Nat × Nat × Nat)) : State :=
  l.foldl (fun s x => postPacket s x.1 ctx (sharePacket p x.2.1 x.2.2) (some uid)) s

/-- Every die of a split can be reached from the queue's owner (R16). -/
def sharesReach (s : State) (q : Queue) (l : List (Nat × Nat × Nat)) : Bool := l.all fun x => dieReach s (queueDie s q) x.1

/-- A launch as it begins. -/
def newLaunch (s : State) (q : Queue) (t : Taken) (l : List (Nat × Nat × Nat)) : Launch :=
  let k := findKernel s q.ctx (launchKdesc t.packet)
  { uid := s.nextUid, ctx := q.ctx, queue := q.num, pindex := t.pindex, packet := t.packet, kdesc := launchKdesc t.packet,
    grid := (launchGrid t.packet).toNat, argLen := launchArgLen t.packet,
    coop := match k with
      | some k => k.coop
      | none => false,
    replay := match k with
      | some k => k.replay
      | none => false,
    start := t.start, dies := l.map fun x => x.1, broken := false, fail := none, faults := 0, replays := 0, rerun := false }

/-- LAUNCH_PACKET (R393). -/
def execLaunchPacket (qn w : Nat) (s : State) : Res :=
  match takenOf s qn w 1 with
  | none => idle s
  | some (q, t) =>
    match launchRefused s q t.packet with
    | some status => .next (finishTaken s q t status 0)
    | none =>
      let l := launchShares s q.mask (launchGrid t.packet).toNat
      if !sharesFit s q.ctx l || !sharesReach s q l then idle s
      else
        let n := newLaunch s q t l
        .next (postShares (beginTaken { s with launches := s.launches ++ [n], nextUid := s.nextUid + 1 } q t) q.ctx n.uid t.packet l)

/-- DEPEND_PACKET (R394). -/
def execDependPacket (qn w : Nat) (s : State) : Res :=
  match takenOf s qn w 2 with
  | none => idle s
  | some (q, t) => if refsDone s q t.packet then .next (finishTaken s q t stOk 0) else idle s

/-- The write of a SIGNAL: none when its address fails to translate or its target is refused (R395). -/
def signalWrite (s : State) (q : Queue) (p : BitVec 512) : Option State :=
  let add := decide (packetBits p 2 0 8 = 1)
  let va : BitVec 64 := p.extractLsb' 64 64
  let x : BitVec 64 := p.extractLsb' 128 64
  let r := translateAny s (queueDie s q) q.ctx va 8 .write
  let put := fun (pa : Nat) =>
    performHome r.1 pa (bytesOfNat 8 (if add then (BitVec.ofNat 64 (homeNat r.1 pa 8) + x).toNat else x.toNat)) []
  match r.2 with
  | .inr (.mem pa _) => if homeLost s (homeOf pa) then none else some (put pa)
  | .inr (.bell off) => if add then none else some (bellStore r.1 q.ctx off 8 x.toNat)
  | .inr (.remote d a) => if d = s.admin.devid.toNat then (if homeLost s (homeOf a) then none else some (put a)) else some r.1
  | _ => none

/-- SIGNAL_PACKET (R395): it waits for the packets before it, and for a route to its word (R16). -/
def execSignalPacket (qn w : Nat) (s : State) : Res :=
  match takenOf s qn w 3 with
  | none => idle s
  | some (q, t) =>
    if q.done ≠ t.pindex ∨ !deviceReach s (queueDie s q) q.ctx (t.packet.extractLsb' 64 64) 8 .write then idle s
    else
      match signalWrite s q t.packet with
      | none => .next (finishTaken s q t stEngineFault 1)
      | some s' =>
        match findQueue s' qn with
        | some q => .next (finishTaken s' q t stOk 0)
        | none => .next s'

/-- CHAIN_PACKET (R396). -/
def execChainPacket (qn w : Nat) (s : State) : Res :=
  match takenOf s qn w 4 with
  | none => idle s
  | some (q, t) =>
    let die := packetBits t.packet 2 0 3
    let cl := packetBits t.packet 2 4 4
    if dieLost s die then .next (finishTaken s q t stDieLost 0)
    else if (engineChains s die cl).length ≥ 64 ∨ !dieReach s (queueDie s q) die then idle s
    else .next (startChain (beginTaken s q t) die cl q.ctx (.packet qn t.pindex) (packetBits t.packet 8 0 64))

/-! ## The event ring (R399, R400) -/

/-- Bytes of a completion record. -/
def recordBytes (r : Record) : List Byte :=
  bytesOfNat 8 r.start ++ bytesOfNat 8 r.finish ++ bytesOfNat 2 r.queue ++ bytesOfNat 2 r.status ++ bytesOfNat 4 r.pindex.toNat
    ++ bytesOfNat 4 r.pc.toNat ++ bytesOfNat 1 r.cause.toNat ++ bytesOfNat 1 (min 255 r.faults) ++ bytesOfNat 1 r.kind
    ++ bytesOfNat 1 r.replays

/-- Address of a record, and of the control block. -/
def recordAddr (c : Context) (w : BitVec 32) : BitVec 64 := c.evring + BitVec.ofNat 64 (32 * (w.toNat % 2 ^ c.evlog2))
def controlAddr (c : Context) : BitVec 64 := c.evring + BitVec.ofNat 64 (32 * 2 ^ c.evlog2)

/-- MSI-X vector of a context's event ring (R472). -/
def ringVector (ctx : Nat) : Nat := 1 + ctx % 2047

/-- The ring's interrupt announces every record written. -/
def announce (s : State) (c : Context) : State :=
  { modContext s c.num fun x => { x with unannounced := [], nowPending := false } with interrupts := s.interrupts ++ [ringVector c.num] }

/-- The interrupt is raised at once: C records are unannounced, or one of a packet with NOW. -/
def announceDue (c : Context) : Bool := decide (c.unannounced.length ≥ c.evc) || c.nowPending

/-- RIDX as software has written it: none when it cannot be read. -/
def readRidx (s : State) (c : Context) : State × Option (BitVec 32) :=
  let r := deviceRead s (contextDie s c) c.num (controlAddr c + 4#64) 4
  (r.1, r.2.map fun x => BitVec.ofNat 32 x)

/-- The device has read RIDX as `x` at a tick. -/
def Context.readAt (c : Context) (x : BitVec 32) (tick : Nat) : Context := { c with ridx := x, polled := tick }

/-- The ring can be reached: the control block, and with `rec` the next record (R16). -/
def ringReach (s : State) (c : Context) (rec : Bool) : Bool :=
  (!rec || deviceReach s (contextDie s c) c.num (recordAddr c c.widx) 32 .write) && deviceReach s (contextDie s c) c.num (controlAddr c) 8 .write

/-- Write a record at WIDX, then WIDX: none when either cannot be written. -/
def writeRecord (s : State) (c : Context) (r : Record) : Option State :=
  match deviceWrite s (contextDie s c) c.num (recordAddr c c.widx) (recordBytes r) with
  | none => none
  | some s => deviceWrite s (contextDie s c) c.num (controlAddr c) (bytesOfNat 4 (c.widx + 1#32).toNat)

/-- A context that is FAULTED, or on its way out: what its event ring cannot take is lost (R407). -/
def losesRecords (c : Context) : Bool := decide (c.state = .faulted) || decide (c.state = .destroying)

/-- The record at the head of those due is lost. -/
def loseRecord (s : State) (c : Context) (rest : List Record) : State :=
  if losesRecords c then modContext s c.num fun x => { x with due := rest } else s

/-- The record at the head of those due is written, and the interrupt raised if it is due. A record that cannot be written waits
for its context to become FAULTED. -/
def putRecord (s : State) (c : Context) (r : Record) (rest : List Record) : State :=
  match writeRecord s c r with
  | none => loseRecord s c rest
  | some s' =>
    let c' := { c with widx := c.widx + 1#32, due := rest, unannounced := c.unannounced ++ [s.tick], nowPending := c.nowPending || r.now }
    let s' := modContext s' c.num fun _ => c'
    if announceDue c' then announce s' c' else s'

/-- COMPLETION_RECORD: RIDX is read first when the ring was full at its last reading. -/
def execCompletionRecord (ctx : Nat) (s : State) : Res :=
  match findContext s ctx with
  | none => idle s
  | some c =>
    match c.due with
    | [] => idle s
    | r :: rest =>
      if !ringReach s c true then idle s
      else if ringFull c then
        match readRidx s c with
        | (_, none) => .next (loseRecord s c rest)
        | (s', some x) =>
          let c' := c.readAt x s.tick
          let s' := modContext s' ctx fun _ => c'
          if ringFull c' then .next s' else .next (putRecord s' c' r rest)
      else .next (putRecord s c r rest)

/-- RIDX_POLL: while the ring was full at its last reading, and records or packets wait for it, RIDX is read again. -/
def execRidxPoll (ctx : Nat) (s : State) : Res :=
  match findContext s ctx with
  | none => idle s
  | some c =>
    if !ringFull c || !ringReach s c false then idle s
    else
      match readRidx s c with
      | (_, none) => idle s
      | (s', some x) => .next (modContext s' ctx fun c => c.readAt x s.tick)

/-- The reading of RIDX for records that wait is 10 microseconds old (R399). -/
def pollDue (s : State) (c : Context) : Bool := ringFull c && ringReach s c false && decide (c.due ≠ []) && decide (c.polled + 10000 ≤ s.tick)

/-- RIDX is read again at least every 10 microseconds while records wait (R399). -/
def pollRings (s : State) : State :=
  (s.contexts.filter (pollDue s)).foldl (fun s c => match readRidx s c with
    | (_, none) => s
    | (s', some x) => modContext s' c.num fun c => c.readAt x s.tick) s

/-- EVENT_RING_TIMER: the oldest unannounced record was written U µs ago. -/
def execEventRingTimer (ctx : Nat) (s : State) : Res :=
  match findContext s ctx with
  | none => idle s
  | some c =>
    match c.unannounced with
    | [] => idle s
    | t :: _ => if c.evu ≠ 0 ∧ t + 1000 * c.evu ≤ s.tick then .next (announce s c) else idle s

/-! ## Replay (R401) -/

/-- REPLAY_RERUN: the launch is split anew over the dies that remain and its shares are posted again. -/
def execReplayRerun (u : Nat) (s : State) : Res :=
  match findLaunch s u with
  | none => idle s
  | some l =>
    match findQueue s l.queue with
    | none => idle s
    | some q =>
      if !l.rerun || !ctxActive s l.ctx then idle s
      else
        match launchRefused s q l.packet with
        | some status =>
          .next (completePacket { s with launches := s.launches.filter fun x => decide (x.uid ≠ u) } l.queue
            { launchRecord s l with status := status, pc := 0#32, cause := 0#8 })
        | none =>
          let shares := launchShares s q.mask l.grid
          if !sharesFit s l.ctx shares || !sharesReach s q shares then idle s
          else
            .next (postShares (modLaunch s u fun x =>
              { x with rerun := false, replays := x.replays + 1, fail := none, broken := false, dies := shares.map fun y => y.1 })
              l.ctx u l.packet shares)

/-! ## Commands (R388, R391, R397) -/

/-- The next queue number that no queue holds. -/
def freeQueue (s : State) : Option Nat :=
  ((List.range 4096).map fun k => (s.nextQueue + k) % 4096).find? fun n => (findQueue s n).isNone

/-- A queue descriptor is malformed (R388, R22). -/
def qdBad (d : BitVec 512) : Bool :=
  [(0, 0, 6), (8, 5, 27), (12, 16, 16), (20, 0, 32), (24, 0, 4), (32, 0, 256)].any (fun f => decide (kdField d f.1 f.2.1 f.2.2 ≠ 0))
    || !canonical (kdAddr d 0) || decide (kdField d 8 0 5 < 4) || decide (kdField d 8 0 5 > 16) || decide (kdField d 12 0 16 = 0)
    || decide (kdField d 16 0 8 = 0) || decide (kdField d 16 8 24 ≠ 0)

/-- A queue as QCREATE makes it. -/
def newQueue (n ctx : Nat) (d : BitVec 512) : Queue :=
  { num := n, ctx := ctx, ring := kdAddr d 0, log2 := kdField d 8 0 5, tickets := kdField d 12 0 16,
    mask := BitVec.ofNat 8 (kdField d 16 0 8), status := kdAddr d 24, ridx := 0#32, bell := 0#32, done := 0#32, doneSet := [],
    state := .inactive, err := 0, taken := [], destroying := false, stale := false }

/-- QCREATE (R388). -/
def execQcreate (e : BitVec 512) (s : State) : Res :=
  adminRun e 0x07 true [(8, 0, 64)] s fun s =>
    match findContext s (entryCtx e) with
    | none => adminFail s e 2
    | some c =>
      match hostRead s (entryWord e 8).toNat 64 with
      | none => adminIoFail s e
      | some l =>
        let d := BitVec.ofNat 512 (natOfBytes l)
        if qdBad d then adminFail s e 1
        else if BitVec.ofNat 8 (kdField d 16 0 8) &&& ~~~c.diemask ≠ 0#8 then adminFail s e 2
        else
          match freeQueue s with
          | none => adminFail s e 3
          | some n =>
            let q := newQueue n c.num d
            let q := if c.state = .active then { q with state := .empty } else q
            adminOk (setQueue { s with queues := s.queues ++ [q], nextQueue := (n + 1) % 4096 } q) e (BitVec.ofNat 64 n)

/-- The published packets that have not been taken complete CANCELLED in index order, and RIDX becomes BELL. -/
def cancelPublished : Nat → State → Nat → State
  | 0, s, _ => s
  | k + 1, s, qn =>
    match findQueue s qn with
    | none => s
    | some q =>
      if q.ridx = q.bell then s
      else
        let r := packetAt s q q.ridx
        cancelPublished k (completePacket (putQueue r.1 { q with ridx := q.ridx + 1#32 }) qn (cancelRecord r.1 q r.2)) qn

/-- As the reset command: the queue's published packets are cancelled and it is EMPTY. -/
def resetQueue (s : State) (q : Queue) : State :=
  let s := cancelPublished (2 ^ q.log2) s q.num
  match findQueue s q.num with
  | some q => setQueue s { q with state := .empty, err := 0 }
  | none => s

/-- The queue that a command names, of the context that it names. -/
def namedQueue (s : State) (e : BitVec 512) : Option Queue :=
  match findQueue s (entryField e 8 0 16) with
  | some q => if q.ctx = entryCtx e then some q else none
  | none => none

/-- QRESET (R391). -/
def execQreset (e : BitVec 512) (s : State) : Res :=
  adminRun e 0x08 true [(8, 0, 16)] s fun s =>
    match namedQueue s e with
    | none => adminFail s e 2
    | some q => if q.state ≠ .error then adminFail s e 2 else adminOk (resetQueue s q) e 0#64

/-- QDESTROY: as a reset; the command completes once DONE = RIDX (R391). -/
def execQdestroy (e : BitVec 512) (s : State) : Res :=
  adminRun e 0x09 true [(8, 0, 16)] s fun s =>
    match namedQueue s e with
    | none => adminFail s e 2
    | some q => adminHold (modQueue (resetQueue s q) q.num fun x => { x with destroying := true }) e

/-- A queue that is being destroyed and whose taken packets are all complete is gone; a QDESTROY that waits for it completes. -/
def endQueues (s : State) : State :=
  s.queues.foldl (fun s q =>
    if q.destroying ∧ q.done = q.ridx then
      let s := { s with queues := s.queues.filter fun x => decide (x.num ≠ q.num) }
      match s.admin.busy with
      | some e => if entryOpcode e = 0x09#8 ∧ entryField e 8 0 16 = q.num then adminOk s e 0#64 else s
      | none => s
    else s) s

/-- SEED (R397, R474). -/
def execSeed (e : BitVec 512) (s : State) : Res :=
  adminRun e 0x0D false [(8, 0, 3), (16, 0, 64)] s fun s =>
    let x := entryWord e 16
    adminOk (modDie s (entryField e 8 0 3) fun d => { d with lottery := if x = 0#64 then 0x9E3779B97F4A7C15#64 else x }) e 0#64

end Sys2Proof.Machine
end

