-- ==== Sys2Proof/Machine/Guest.lean ====
section
/-!
DEFINITION. The guest socket (18_guest R442-R456): GSUB, the messages that the guest sends, its duties, and its isolation.
-/
namespace Sys2Proof.Machine

/-! ## The attachment -/

/-- The guest attachment is ACTIVE or DEGRADED. -/
def guestUp (s : State) : Bool := linkUp s .guest && !s.guest.isolated

def modGuest (s : State) (f : Guest → Guest) : State := { s with guest := f s.guest }

/-- 64-byte units that a message of `n` bytes takes. -/
def unitsOf (n : Nat) : Nat := (n + 63) / 64

/-- LEN of a message with a body of `n` bytes (R443). -/
def lenOf (n : Nat) : BitVec 8 := BitVec.ofNat 8 (1 + (n + 7) / 8)

/-- Bytes of a message: its header (R443) and its body in whole 8-byte units. -/
def messageBytes (h : GuestHeader) (psn : Bool) (body : List Byte) : List Byte :=
  [h.mtype, h.len] ++ bytesOfNat 2 h.rtag.toNat ++ [BitVec.ofNat 8 h.sq.toNat, if psn then 1#8 else 0#8] ++ bytesOfNat 2 h.seq.toNat
    ++ body ++ List.replicate ((8 - body.length % 8) % 8) 0#8

/-- Put bytes into payload flits of a link, each kept until it is acknowledged (R425). -/
def sendFlits (s : State) (id : LinkId) : Nat → List Byte → State
  | 0, _ => s
  | fuel + 1, l =>
    if l = [] then s
    else
      let s := modLink s id fun k =>
        { k with unacked := k.unacked ++ [(k.nextSeq, BitVec.ofNat 1920 (natOfBytes (l.take 240)))], nextSeq := k.nextSeq + 1#12 }
      sendFlits s id fuel (l.drop 240)

/-- Send a message to the guest. -/
def sendGuest (s : State) (mtype : Nat) (rtag : BitVec 16) (sq : BitVec 4) (seq : BitVec 16) (psn : Bool) (body : List Byte) : State :=
  let h : GuestHeader := { mtype := BitVec.ofNat 8 mtype, len := lenOf body.length, rtag := rtag, sq := sq, seq := seq }
  modGuest (sendFlits s .guest 2 (messageBytes h psn body)) fun g =>
    { g with out := (h, psn, body) :: g.out,
             owed := g.owed ++ List.replicate (unitsOf (8 + body.length)) (s.tick, decide (mtype = 1)) }

/-- Body bytes of each message that a guest sends: none for a type that it may not send (R443). -/
def guestBody (mtype : Nat) : Option Nat :=
  match mtype with
  | 2 => some 16
  | 3 => some 8
  | 5 => some 8
  | 7 => some 80
  | 10 => some 16
  | 12 => some 8
  | _ => none

/-! ## The end of a job (R446, R449) and isolation (R455) -/

def findGuestJob (s : State) (sq : BitVec 4) (seq : BitVec 16) : Option GuestJob :=
  s.guest.jobs.find? fun j => decide (j.sq = sq.toNat) && decide (j.seq = seq)
def modGuestJob (s : State) (sq : BitVec 4) (seq : BitVec 16) (f : GuestJob → GuestJob) : State :=
  modGuest s fun g => { g with jobs := g.jobs.map fun j => if j.sq = sq.toNat ∧ j.seq = seq then f j else j }

/-- A fault of a guest job counts in its launch (R198, R449). -/
def guestFails (s : State) (j : GuestJob) (status : Nat) : State :=
  match findBlock s j.block with
  | none => s
  | some b => modGroup s b.dgroup fun d =>
      { d with faults := d.faults + 1,
               fail := addFailure d.fail { status := status, cause := 0#8, pc := 0#32, tick := s.tick, die := j.die, core := j.core,
                                           kind := 2, sub := j.sq, seq := j.seq.toNat } }

/-- The status word is written over the packet image, the tag is set, and the job is outstanding no more; of a job whose issuing die is
lost nothing is left to write (R464). -/
def endGuestJob (s : State) (j : GuestJob) (word : List Byte) : State :=
  let s := modGuest s fun g => { g with jobs := g.jobs.filter fun x => !(decide (x.sq = j.sq) && decide (x.seq = j.seq)) }
  if dieLost s j.die then s else
  setTag (scratchWrite s j.die j.core j.image word) j.die j.core j.rindex

/-- The status word of a job that ends at isolation: its reserved bytes and its FADDR are zero (R6, R446), and GDETAIL, which no
completion gives, is a free value (log 93). -/
def abortBytes (s : State) (j : GuestJob) : List Byte :=
  [0x80#8, 0#8] ++ bytesOfNat 2 (Config.freeValue s.freeCtr 5 (65536 * j.sq + j.seq.toNat)).toNat ++ bytesOfNat 12 0

/-- Isolation of the guest with a cause. -/
def isolate (s : State) (cause : Nat) : State :=
  let jobs := s.guest.jobs
  let s := modLink s .guest fun l => { l with state := .disabled, since := s.tick }
  let s := jobs.foldl (fun s j => endGuestJob (guestFails s j stGuestAbort) j (abortBytes s j)) s
  let s := { s with shoots := s.shoots.map fun x => { x with guest := none } }
  logHealth (modGuest s fun g =>
    { g with isolated := true, jobs := [], writes := [], invals := [], preempts := [], stream := [], inbox := [], owed := [] }) 24 7 0 1 cause

/-- Causes of isolation, in the order of R455. -/
def gcMalformed : Nat := 1
def gcNoJob : Nat := 2
def gcEarly : Nat := 3
def gcAccess : Nat := 4
def gcInvack : Nat := 5
def gcPreack : Nat := 6
def gcStatus : Nat := 7
def gcCredit : Nat := 8

/-- A message of the guest at the head of those received is taken, also while the link trains again: what is sent to the guest is
then held (R423). It stays at the head while `k` answers none. -/
def guestTake (s : State) (msg : GuestHeader) (mtype : Nat) (body : List Byte) (k : State → Option State) : Res :=
  match s.guest.inbox with
  | [] => idle s
  | (m, b) :: rest =>
    if !s.guest.isolated ∧ m = msg ∧ m.mtype.toNat = mtype ∧ b = body then
      match k (modGuest s fun g => { g with inbox := rest }) with
      | some t => .next t
      | none => idle s
    else idle s

/-- COMPLETE (R446, R449). -/
def execComplete (msg : GuestHeader) (body : BitVec 128) (s : State) : Res :=
  guestTake s msg 2 (bytesOfNat 16 body.toNat) fun s => some <|
    let gstat := (body.extractLsb' 0 8).toNat
    if body.extractLsb' 8 8 ≠ 0#8 ∨ body.extractLsb' 32 32 ≠ 0#32 then isolate s gcMalformed
    else
      match findGuestJob s msg.sq msg.seq with
      | none => isolate s gcNoJob
      | some j =>
        if gstat ≥ 6 then isolate s gcStatus
        else if j.writes ≠ [] then isolate s gcEarly
        else endGuestJob (if gstat = 0 ∨ gstat = 5 then s else guestFails s j stEngineFault) j (bytesOfNat 16 body.toNat)

/-! ## Translation (R451) -/

/-- A 4 KiB page of a footprint: its VA is BASE shifted left by 12, with bits 63:57 copied from bit 56 (R445). -/
def footHolds (f : BitVec 64) (va : BitVec 64) : Bool :=
  let base := f.toNat / 2 ^ 19 * 4096
  let v := va.toNat % 2 ^ 57
  decide (base ≤ v) && decide (v < base + 4096 * (f.toNat % 2 ^ 19))

/-- A read needs a VA in any footprint, a write one in a write footprint. -/
def feetAllow (j : GuestJob) (write : Bool) (va : BitVec 64) : Bool := (if write then j.feet.drop 2 else j.feet).any fun f => footHolds f va

/-- VA of an XLATE: bits 56:12, extended by bit 56. -/
def xlateVa (body : BitVec 64) : BitVec 64 := ((body.extractLsb' 12 45 : BitVec 45).signExtend 52 ++ (0#12 : BitVec 12) : BitVec 64)

/-- PA and page size of a granted page as XLRESP carries them, with the page that the job then holds. -/
def xlateGrant (e : BitVec 64) (va : BitVec 64) (write : Bool) : Option (BitVec 64 × GuestPage) :=
  let size := BitVec.ofNat 64 ((e.extractLsb' 6 2).toNat * 64)
  match leafTarget e va 1 with
  | some (.mem pa _) => some (BitVec.ofNat 64 (pa / 4096 * 4096) ||| size, { va := va.toNat, pa := pa / 4096 * 4096, write := write, device := none })
  | some (.remote d a) => some (BitVec.ofNat 64 (a / 4096 * 4096) ||| size, { va := va.toNat, pa := a / 4096 * 4096, write := write, device := some d })
  | _ => none

/-- How an XLATE ends: with a result other than 0, a page, or at a table whose home C4 does not reach. -/
inductive XlateEnd where
  | refused (n : Nat)
  | granted (resp : BitVec 64) (page : GuestPage)
  | away (home : Nat)
  deriving DecidableEq, Repr

/-- What XLATE answers: the grant, with the entries that the walk caches, or a result other than 0, of which nothing is cached. -/
def xlateResult (s : State) (j : GuestJob) (write : Bool) (va : BitVec 64) : State × XlateEnd :=
  match (translateBy s (homeReach s 4) 4 j.ctx va 1 (if write then .write else .read)).2 with
  | .inl cause => (s, .refused (if cause = cPageFault then 1 else 2))
  | .inr (.away home) => (s, .away home)
  | .inr _ =>
    let l := leafOf s 4 j.ctx va
    match l.2 with
    | .leaf e =>
      match xlateGrant e va write with
      | none => (s, .refused 2)
      | some (x, page) => if feetAllow j write va then (l.1, .granted x page) else (s, .refused 3)
    | .fault => (s, .refused 1)
    | .away home => (s, .away home)

/-- Whether C4 carries out a request of the guest to a place now, or holds it while a link of its route trains (R423), or has no
route to send it on (R16, R424). -/
inductive GuestWay where
  | goes | waits | lost
  deriving DecidableEq, Repr

def guestWay (s : State) (n : Nat) : GuestWay :=
  let ring := fun (d : Nat) => (chooseRoute s (ringRoutes 4 d)).isSome
  if placeReach s 4 n then .goes
  else if (if n < 24 then (chooseRoute s (homeRoutes 4 n)).isSome else (List.range 8).any fun d => fabricOpen s d && ring d) then .waits
  else .lost

/-- A request of the guest goes through C4 to a place and does `done` there. With no route it is taken and never sent on, so that the
guest has no reply: `lost` (DESIGN CHOICE, log 146). -/
def guestSend (s : State) (place : Nat) (done lost : State) : Option State :=
  match guestWay s place with
  | .goes => some done
  | .waits => none
  | .lost => some lost

/-- XLATE. -/
def execXlate (msg : GuestHeader) (body : BitVec 64) (s : State) : Res :=
  guestTake s msg 3 (bytesOfNat 8 body.toNat) fun s =>
    let kind := (body.extractLsb' 0 2).toNat
    let reply := fun (s : State) (x : BitVec 64) => sendGuest s 4 msg.rtag msg.sq msg.seq false (bytesOfNat 8 x.toNat)
    if kind = 0 ∨ kind = 3 ∨ body.extractLsb' 2 10 ≠ 0#10 ∨ body.extractLsb' 57 7 ≠ 0#7 then some (isolate s gcMalformed)
    else
      match findGuestJob s msg.sq msg.seq with
      | none => some (reply s 3#64)
      | some j =>
        match xlateResult s j (decide (kind = 2)) (xlateVa body) with
        | (s, .away home) => guestSend s home s s
        | (s, .refused n) => some (reply s (BitVec.ofNat 64 n))
        | (s, .granted x page) => some (reply (modGuestJob s msg.sq msg.seq fun j => { j with granted := j.granted ++ [page] }) x)

/-! ## The coherent port (R450) -/

/-- The page granted to a job that holds an address. -/
def grantedPage (j : GuestJob) (pa : Nat) (write : Bool) : Option GuestPage :=
  j.granted.find? fun g => decide (g.pa = pa / 4096 * 4096) && (g.write || !write)

/-- Where the bytes of a granted page are served: at a home of this device, or over the fabric (R16). -/
def grantedTarget (g : GuestPage) (pa : Nat) : Target :=
  match g.device with
  | none => .mem pa true
  | some d => .remote d pa

/-- Bytes behind a granted address, with their poison: at their home here, or at another device, whose memory is outside this
state. -/
def guestBytes (s : State) (g : GuestPage) (pa n : Nat) : List Byte × Bool :=
  let here := match g.device with
    | none => true
    | some d => decide (d = s.admin.devid.toNat)
  if here then (bytesOfNat n (homeNat s pa n), homePoisoned s pa || homePoisoned s (pa + n - 1))
  else ((List.range n).map fun k => (Config.freeValue s.freeCtr 6 k).setWidth 8, false)

/-- READ: bits 7:0 of the address hold the length less one. -/
def execRead (msg : GuestHeader) (body : BitVec 64) (s : State) : Res :=
  guestTake s msg 5 (bytesOfNat 8 body.toNat) fun s =>
    let pa := body.toNat / 256 * 256
    let n := body.toNat % 256 + 1
    match findGuestJob s msg.sq msg.seq with
    | none => some (isolate s gcAccess)
    | some j =>
      match grantedPage j pa false with
      | none => some (isolate s gcAccess)
      | some g =>
        let r := guestBytes s g pa n
        guestSend s (targetPlace s (grantedTarget g pa)) (sendGuest s 6 msg.rtag msg.sq msg.seq r.2 r.1) s

/-- The write of the bytes of a mask at their home. -/
def guestWrite (s : State) (op pa : Nat) (mask : BitVec 64) (data : BitVec 512) : State :=
  (List.range 64).foldl (fun s k =>
    if mask.getLsbD k then performHome s (pa + k) [data.extractLsb' (8 * k) 8] [op] else s) s

/-- WRITE: performed whole for the bytes of its mask; the guest holds no WRACK for it yet. -/
def execWrite (msg : GuestHeader) (addr mask : BitVec 64) (data : BitVec 512) (s : State) : Res :=
  guestTake s msg 7 (bytesOfNat 8 addr.toNat ++ bytesOfNat 8 mask.toNat ++ bytesOfNat 64 data.toNat) fun s =>
    if addr.toNat % 64 ≠ 0 then some (isolate s gcMalformed)
    else
      match findGuestJob s msg.sq msg.seq with
      | none => some (isolate s gcAccess)
      | some j =>
        match grantedPage j addr.toNat true with
        | none => some (isolate s gcAccess)
        | some g =>
          let op := s.nextOp
          let here := match g.device with
            | none => true
            | some d => decide (d = s.admin.devid.toNat)
          let owing := modGuestJob { s with nextOp := op + 1 } msg.sq msg.seq fun j => { j with writes := j.writes ++ [op] }
          let done := if here then guestWrite owing op addr.toNat mask data else owing
          guestSend s (targetPlace s (grantedTarget g addr.toNat)) (modGuest done fun g => { g with writes := g.writes ++ [(op, msg)] }) owing

/-- WRACK: the write is folded into every sharer, and the home acknowledges it. -/
def execWrack (op : Nat) (s : State) : Res :=
  match s.guest.writes.find? fun w => decide (w.1 = op) with
  | none => idle s
  | some (_, h) =>
    if opUnfolded s op || s.guest.isolated then idle s
    else
      let s := modGuest s fun g => { g with writes := g.writes.filter fun w => decide (w.1 ≠ op) }
      let s := modGuestJob s h.sq h.seq fun j => { j with writes := j.writes.filter fun w => decide (w ≠ op) }
      .next (sendGuest s 8 h.rtag h.sq h.seq false [])

/-! ## Invalidation, pre-emption and late duties (R452, R454, R455) -/

/-- Jobs of a context are outstanding, whatever the state of the link: what is sent while it trains again is held (R423). -/
def guestHolds (s : State) (ctx : Nat) : Bool := !s.guest.isolated && s.guest.jobs.any fun j => decide (j.ctx = ctx)

/-- Body of an INVAL: context, first page and page count. -/
def invalBody (ctx va pages : Nat) : BitVec 128 := BitVec.ofNat 128 (va % 2 ^ 48 + ctx % 65536 * 2 ^ 48 + pages % 2 ^ 64 * 2 ^ 64)

/-- C4 sends INVAL for a shootdown. -/
def sendInval (s : State) (shoot ctx va len : Nat) : State :=
  let body := invalBody ctx (va / 4096 * 4096) ((va % 4096 + len + 4095) / 4096)
  modGuest (sendGuest s 9 0#16 0#4 0#16 false (bytesOfNat 16 body.toNat)) fun g => { g with invals := g.invals ++ [(body, s.tick, shoot)] }

/-- The pages of an INVAL are revoked; it names 48 bits of the first address, and the pages count on from there. -/
def revoke (s : State) (body : BitVec 128) : State :=
  let ctx := (body.extractLsb' 48 16).toNat
  let first := (body.extractLsb' 0 48).toNat
  let n := (body.extractLsb' 64 64).toNat
  modGuest s fun g => { g with jobs := g.jobs.map fun j =>
    if j.ctx = ctx then
      { j with granted := j.granted.filter fun p => decide (4096 * n ≤ (p.va % 2 ^ 48 + 2 ^ 48 - first) % 2 ^ 48) }
    else j }

/-- Ticks within which the guest acknowledges an INVAL, and a PREEMPT (R452, R454). -/
def invackLimit : Nat := 2000
def preackLimit : Nat := 50000

/-- INVACK: later than 2 µs it isolates the guest (R455). -/
def execInvack (msg : GuestHeader) (body : BitVec 128) (s : State) : Res :=
  guestTake s msg 10 (bytesOfNat 16 body.toNat) fun s => some <|
    match s.guest.invals.find? fun x => decide (x.1 = body) with
    | none => isolate s gcMalformed
    | some x =>
      if x.2.1 + invackLimit < s.tick then isolate s gcInvack else
      let s := modGuest (revoke s body) fun g => { g with invals := g.invals.filter fun y => decide (y ≠ x) }
      { s with shoots := s.shoots.map fun y => if y.id = x.2.2 then { y with guest := none } else y }

/-- C4 sends PREEMPT for a context. -/
def sendPreempt (s : State) (ctx : Nat) : State :=
  modGuest (sendGuest s 11 0#16 0#4 0#16 false (bytesOfNat 8 (ctx % 65536))) fun g => { g with preempts := g.preempts ++ [(ctx, s.tick)] }

/-- PREACK: every job of the context has ended; later than 50 µs it isolates the guest (R455). -/
def execPreack (msg : GuestHeader) (body : BitVec 64) (s : State) : Res :=
  guestTake s msg 12 (bytesOfNat 8 body.toNat) fun s => some <|
    match s.guest.preempts.find? fun x => decide (x.1 = body.toNat) with
    | none => isolate s gcMalformed
    | some x =>
      if x.2 + preackLimit < s.tick then isolate s gcPreack
      else if s.guest.jobs.any fun j => decide (j.ctx = x.1) then isolate s gcMalformed
      else modGuest s fun g => { g with preempts := g.preempts.filter fun y => decide (y ≠ x) }

/-- The cause of a duty that is overdue. -/
def overdue (s : State) : Option Nat :=
  if s.guest.invals.any fun x => decide (x.2.1 + invackLimit < s.tick) then some gcInvack
  else if s.guest.preempts.any fun x => decide (x.2 + preackLimit < s.tick) then some gcPreack
  else if s.guest.owed.any fun x => x.2 && decide (x.1 + 65536 < s.tick) then some gcCredit
  else none

/-- GUEST_DUTY_TIMEOUT, whatever the state of the link (R455). -/
def execGuestDutyTimeout (s : State) : Res :=
  match overdue s with
  | some cause => if s.guest.isolated then idle s else .next (isolate s cause)
  | none => idle s

/-! ## GSUB (R448) -/

/-- A submission queue is full (R444). -/
def guestFull (s : State) (sq : Nat) : Bool :=
  decide ((s.guest.jobs.filter fun j => decide (j.sq = sq)).length ≥ s.guest.depths.getD sq 0)

/-- The packet with the fields that the device writes (R445). -/
def guestPacket (image : BitVec 512) (ctx die core : Nat) (seq : BitVec 16) : BitVec 512 :=
  (image &&& ~~~0xFFFFFFC0FFFF0000#512) ||| (BitVec.ofNat 512 (ctx % 65536) <<< 16) ||| (BitVec.ofNat 512 (die % 8) <<< 45)
    ||| (BitVec.ofNat 512 (core % 128) <<< 38) ||| (BitVec.ofNat 512 seq.toNat <<< 48)

/-- The job of a GSUB. -/
def submit (s : State) (g : Gang) (sq pos : Nat) : State × BitVec 16 :=
  let image := BitVec.ofNat 512 (scratchNat s g.id.die g.id.core pos 64)
  let seq := s.guest.seqs.get (Fin.ofNat 16 sq)
  let p := guestPacket image g.ctx g.id.die g.id.core seq
  let j : GuestJob :=
    { sq := sq, seq := seq, ctx := g.ctx, gang := g.id, block := g.block, die := g.id.die, core := g.id.core,
      rindex := (image.extractLsb' 32 6).toNat, image := pos,
      feet := (List.range 4).map fun f => image.extractLsb' (64 + 64 * f) 64, granted := [], writes := [] }
  let s := modGuest s fun x => { x with jobs := x.jobs ++ [j], seqs := x.seqs.set (Fin.ofNat 16 sq) (seq + 1#16) }
  (sendGuest s 1 0#16 (BitVec.ofNat 4 sq) seq false (bytesOfNat 64 p.toNat), seq)

/-- GSUB once its release is over: the job is sent, unless the attachment has been lost or the queue has filled meanwhile (DESIGN CHOICE, log
175). -/
def gsubSend (c : Ctx) (d : Opnd) (kills : Reads) (sq pos : Nat) : Res :=
  if scratchPoisoned c.s c.g.id.die c.g.id.core pos 64 then c.spoil
  else if c.s.guest.isolated || linkBroken c.s .guest then c.finish d kills 2#64 id
  else if guestFull c.s sq then c.finish d kills 1#64 id
  else
    let r := submit c.s c.g sq pos
    c.afterRisk (c.finish d kills ((r.2.setWidth 64 : BitVec 64) <<< (16 : Nat)) fun _ => r.1)

/-- GSUB: a release at package scope of the gang's class-W accesses, then the job is sent. -/
def execGsub (h : Head) (d a : Opnd) (off : BitVec 32) (sq : BitVec 4) (s : State) : Res :=
  scratchOp h d a off 64 false .read s fun c kills _ _ pos =>
    let answer := fun (n : DWord) => c.commit (writeScalar (killRegs c.a kills) d n)
    if c.begun.isNone && !guestUp c.s then answer 2#64
    else if c.begun.isNone && scratchPoisoned c.s c.g.id.die c.g.id.core pos 64 then c.halt .poison
    else if c.begun.isNone && guestFull c.s sq.toNat then answer 1#64
    else
      c.withTask (.gsub h d a off sq) { baseTask c.s c.g .pkg with ops := opsIn c.s c.g.id 2#6, writes := true } d kills [BitVec.ofNat 64 pos] true
        fun c f => c.raisePosted (fenceWaits 2#6) f fun c => gsubSend c d kills sq.toNat pos

end Sys2Proof.Machine
end

