-- ==== Sys2Proof/Machine/Channel.lean ====
section
/-!
DEFINITION. Ordered channels (17_link R435-R441): CHOPEN, CHST, CHCLOSE and the step CHANNEL_STORE_PERFORM.
-/
namespace Sys2Proof.Machine

/-- A channel of the gang's block. -/
def chanOf (c : Ctx) (ch : BitVec 3) : Chan :=
  match findBlock c.s c.g.block with
  | some b => b.chans.get (Fin.ofNat 8 ch.toNat)
  | none => .closed

def setChan (s : State) (block ch : Nat) (x : Chan) : State := modBlock s block fun b => { b with chans := b.chans.set (Fin.ofNat 8 ch) x }

/-- A store of a channel that is not performed, or not folded in. -/
def Pend.ofChannel (p : Pend) (block ch : Nat) : Bool :=
  match p.kind with
  | .home (.channel b k) _ _ _ _ _ _ _ => decide (b = block) && decide (k = ch)
  | _ => false

/-- Stores of a channel that have not been performed. -/
def chanLoad (s : State) (block ch : Nat) : Nat :=
  ((s.pend.filter fun p => p.ofChannel block ch).map fun p => match p.kind with
    | .home _ _ _ _ _ accs _ _ => accs.length
    | _ => 0).foldl (· + ·) 0

/-- CHOPEN (R437). -/
def execChopen (h : Head) (a : Opnd) (ch : BitVec 3) (s : State) : Res :=
  issue s h.guard fun c =>
    match deadCheck c.a (single [a]) with
    | some x => c.halt x
    | none =>
      let kills := headKills h a .zero .zero
      if c.act = 0#32 then c.commit (killRegs c.a kills)
      else
        match firstHalt [privCheck c [a], wordCheck c.a [a]] with
        | some x => c.halt x
        | none =>
          let d := (scalarOf c a).toNat % 2 ^ 32
          if chanOf c ch ≠ .closed then c.trap cChannel (ch.setWidth 64)
          else if d < 8 ∨ d > 23 then c.trap cChannel (BitVec.ofNat 64 d)
          else
            c.afterRisk (c.commitWith ((killRegs c.a kills).advance c.x) fun s => setChan s c.g.block ch.toNat (.opened d))

/-- The checks of a lane of CHST: its address is written, and lies in REGION 0 on the channel's die. -/
def chanLane (die : Nat) (x : Checked) : Checked :=
  match x.res with
  | .inl _ | .inr (.away _) => x
  | .inr (.mem pa _) => if paRegion pa = 0 ∧ homeOf pa = die then x else { x with res := .inl cChannel }
  | .inr _ => { x with res := .inl cChannel }

/-- CHST (R438), to a lost die HOME_LOST (R322). A scalar datum with no index makes one store; a 64-bit immediate datum is
sign-extended (R275). -/
def execChst (h : Head) (a b e : Opnd) (off : BitVec 32) (ch : BitVec 3) (w64 : Bool) (s : State) : Res :=
  issue s h.guard fun c =>
    if c.g.st ≥ counterMax then c.hold .full
    else
      let n := wordSize w64
      let regs := if w64 then 2 else 1
      match deadCheck c.a [(a, 1), (b, 1), (e, regs)] with
      | some x => c.halt x
      | none =>
        let kills := killsOf h (a, 1) (b, 1) (e, regs)
        if c.act = 0#32 then c.commit (killRegs c.a kills)
        else
          match firstHalt [privCheck c [a], readCheck c.a c.act [(a, 1), (b, 1), (e, regs)]] with
          | some x => c.halt x
          | none =>
            match chanOf c ch with
            | .closed => c.trap cChannel (ch.setWidth 64)
            | .broken _ => c.trap cHomeLost (freeNow c.s)
            | .opened die =>
              if homeLost c.s die then c.trap cHomeLost (freeNow c.s) else
              let lone := (match e with
                | .v _ => false
                | _ => true) && decide (b = .zero)
              let lanes := if lone then [(0, scalarAddr c .global a (storeOff e off) n)]
                else (lanesIn c.act).map fun i => (i, laneAddr c .global a b (storeOff e off) n i)
              let r := checkLanes c.s c.g .global n .write lanes
              let c := { c with s := r.1 }
              let l := r.2.map (chanLane die)
              match firstFail l with
              | some x => c.halt x
              | none =>
                if chanLoad c.s c.g.block ch.toNat + lanes.length > 64 then c.hold .full
                else
                  c.post (killRegs c.a kills)
                    (.home (.channel c.g.block ch.toNat) .zero w64 .pkg (if lone then 1#32 else c.act)
                      (accsOf (passing l) fun i => (atomData c e w64 i).setWidth 128) 0#32 true)

/-- The stores of a channel that are performed are folded into every sharer, those of a CHST that has timed out among them (R439, R426). -/
def chanFolded (s : State) (block ch : Nat) : Bool := s.nts.all fun n => decide (n.chan ≠ some (block, ch)) || !opUnfolded s n.op

/-- CHCLOSE (R440): it holds its slot until every store of the channel is performed and folded in. -/
def execChclose (h : Head) (ch : BitVec 3) (s : State) : Res :=
  issue s h.guard fun c =>
    if c.act = 0#32 then c.commit c.a
    else
      let shut := fun (s : State) => setChan s c.g.block ch.toNat .closed
      match chanOf c ch with
      | .closed => c.trap cChannel (ch.setWidth 64)
      | .broken _ => c.afterRisk ({ c with s := shut c.s }.trap cHomeLost (freeNow c.s))
      | .opened _ =>
        if (c.s.pend.any fun p => p.ofChannel c.g.block ch.toNat) || !chanFolded c.s c.g.block ch.toNat then c.hold .order
        else c.afterRisk (c.commitWith (c.a.advance c.x) shut)

/-- The channel's stores that are left of the CHST at its head, which the home may perform now: those before them are folded into every
sharer (R439), and they have left the core. -/
def chanTurn (s : State) (p : Pend) : Bool :=
  match p.kind with
  | .home (.channel block ch) _ _ _ _ _ _ counted =>
    !counted && !opUnfolded s p.op && chanFolded s block ch && decide ((s.pend.find? fun q => q.ofChannel block ch).map (fun q => q.op) = some p.op)
  | _ => false

/-- The home performs the next store of a CHST. -/
def chanPerform (s : State) (p : Pend) : State :=
  match p.kind with
  | .home h d w64 sc act (x :: rest) cuts counted =>
    modPend (sentLane s p h w64 sc x).1 p.op fun q => { q with sent := none, kind := .home h d w64 sc act rest cuts counted }
  | _ => s

/-- CHANNEL_STORE_PERFORM: the channel's next store is performed, once the one before it is folded into every sharer (R439). -/
def execChannelStorePerform (block ch : Nat) (s : State) : Res :=
  match s.pend.find? fun p => p.ofChannel block ch with
  | none => idle s
  | some p =>
    match p.kind with
    | .home h _ w64 sc _ (x :: _) _ _ =>
      if !chanTurn s p ∨ pendHeld s p ∨ !accsHome s p.gang.die [x] then idle s
      else if homeHeld s p h w64 sc [x] then .next (prepareSheets s p h w64 (homeAddrs sc [x]))
      else .next (chanPerform s p)
    | _ => idle s

/-- A channel's accesses whose stores are all performed and folded in are over. -/
def endChannels (s : State) : State :=
  s.pend.foldl (fun s p => match p.kind with
    | .home (.channel _ _) _ _ _ _ [] _ _ => if opUnfolded s p.op then s else dropPend s p
    | _ => s) s

/-- A memory die is lost: the channels that are open to it break, those of saved blocks too, and their stores are dropped (R435). -/
def breakChannels (s : State) (die : Nat) : State :=
  let hit := fun (b : Block) (k : Nat) => decide (b.chans.get (Fin.ofNat 8 k) = .opened die)
  let gone := s.blocks.flatMap fun b => ((List.range 8).filter (hit b)).map fun k => (b.uid, k)
  let cut := fun (p : Pend) => gone.any fun x => p.ofChannel x.1 x.2
  let broken := fun (b : Block) => { b with chans := Vector.ofFn fun k => match b.chans.get k with
      | .opened d => if d = die then .broken d else .opened d
      | x => x }
  (s.pend.filter cut).foldl (fun s p => recount s p.gang)
    { s with pend := s.pend.filter fun p => !cut p,
             blocks := s.blocks.map broken,
             saved := s.saved.map fun v => { v with blocks := v.blocks.map broken } }

end Sys2Proof.Machine
end

