-- ==== Sys2Proof/Machine/Link.lean ====
section
/-!
DEFINITION. Links and the domain (17_link R422-R434): training, flits and retries, time-outs, reduction windows and their rounds, and
the accesses that a host and other devices make.
-/
namespace Sys2Proof.Machine

/-! ## Losing a home (R322, R424) -/

/-- A message to or from a lost home. -/
def msgOfHome (home : Nat) : Msg → Bool
  | .block _ h _ | .marker _ h | .stampNotice h _ _ _ | .atomicValue h _ _ _ _ _ _ | .drop _ h _ => decide (h = home)

/-- The blocks of a round that were on their way to a lost home apply nothing there, and the round completes for the others. -/
def roundWithout (home : Nat) (r : Round) : Round :=
  let gone := fun (x : Nat × Option (BitVec 32)) => decide (homeOf (4096 * x.1) = home)
  let lost := if r.homes.contains home then (r.spans.filter gone).head?.map fun x => x.1 else none
  { r with homes := r.homes.filter fun h => decide (h ≠ home), spans := r.spans.filter fun x => !gone x,
           lostSpan := match r.lostSpan with
             | some x => some x
             | none => lost,
           lostHomes := if lost.isSome then r.lostHomes ++ [home] else r.lostHomes }

/-- Every compute die poisons the RDC lines of a lost home, what the home had sent or owed is gone, and its channels break. -/
def dropHome (s : State) (home : Nat) : State :=
  let s := { s with
    msgs := s.msgs.filter fun m => !msgOfHome home m,
    fwds := s.fwds.filter fun f => decide (f.home ≠ home),
    owed := s.owed.filter fun o => decide (o.home ≠ home),
    unfolded := s.unfolded.filter fun u => decide (u.home ≠ home),
    dies := s.dies.map fun d =>
      { d with
          sheets := d.sheets.map fun x => if homeOf (256 * x.sheet) = home then { x with poison := -1#64 } else x,
          round := d.round.map (roundWithout home),
          touched := d.touched.filter fun h => decide (h.2 ≠ home) } }
  breakChannels s home

/-- The page enters a state at its home. -/
def setPage (s : State) (base size : Nat) (st : PageState) : State :=
  (List.range (size / 65536)).foldl (fun s k => modHomePage s (granule base + k) fun h => { h with state := st }) s

/-- A migration from or to a lost home ends; its command completes with CODE 4. -/
def dropMigrations (s : State) (home : Nat) : State :=
  let hit := fun (m : Migration) => decide (homeOf m.old = home) || decide (homeOf m.new = home)
  if !s.migrations.any hit then s
  else
    let s := (s.migrations.filter hit).foldl (fun s m => setPage s m.old m.size .normal) s
    let s := { s with migrations := s.migrations.filter fun m => !hit m }
    match s.admin.busy with
    | some e => if entryOpcode e = 0x0A#8 ∨ entryOpcode e = 0x0B#8 then adminFail s e 4 else s
    | none => s

/-- A home is lost: with its memory die, or a proxy with its compute die or its CXL port. -/
def loseHome (s : State) (home : Nat) : State := dropMigrations (dropHome s home) home

/-! ## Link states (R423, R424) -/

/-- Die and unit numbers of a link in the health log. -/
def linkDie : LinkId → Nat
  | .ring j => j
  | .memory k _ => 8 + k
  | .guest => 4
  | .fabric d _ => d
  | .cxl d => d
  | .host => 0
def linkUnit : LinkId → Nat
  | .ring _ => 0
  | .memory _ b => if b then 2 else 1
  | .guest => 3
  | .fabric _ p => 4 + p
  | .cxl _ => 9
  | .host => 10

/-- Ticks within which a unit trains. -/
def trainLimit : Nat := 10000000

/-- A link that trains or trains again. -/
def training (l : Link) : Bool := decide (l.state = .training) || decide (l.state = .retraining)

/-- A link ends at a die that is lost. -/
def linkGone (lost : BitVec 32) : LinkId → Bool
  | .ring j => lost.getLsbD j || lost.getLsbD ((j + 1) % 8)
  | .memory k b => lost.getLsbD (8 + k) || lost.getLsbD ((k / 2 + if b then 1 else 0) % 8)
  | .guest => lost.getLsbD 4
  | .fabric d _ | .cxl d => lost.getLsbD d
  | .host => false

/-- The guest attachment has nothing at its other end: no guest, or no die 4 (R28, R442). -/
def noGuest (lost : BitVec 32) (id : LinkId) : Bool := decide (id = .guest) && (!Config.guestThere || linkGone lost .guest)

/-- LINK_TRAINED, within 10 ms: all units or some have trained; the guest's capability words and digest come over its sideband. -/
def execLinkTrained (id : LinkId) (units : Nat) (s : State) : Res :=
  match findLink s id with
  | none => idle s
  | some l =>
    if !training l || decide (units = 0) || decide (l.units < units) || decide (l.since + trainLimit ≤ s.tick) then idle s
    else
      let s := modLink s id fun l =>
        { l with trained := units, state := if units = l.units then .active else .degraded, since := s.tick, retries := 0,
                 resend := l.unacked.map fun x => x.1 }
      let s := if units < l.units then logHealth s (linkDie id) 5 (linkUnit id) (l.units - units) 0 else s
      if id = .guest then
        .next (modGuest s fun g =>
          { g with depths := (List.range 16).map fun k => (Config.guestDepth k).toNat + 1, digest := Config.guestDigest })
      else .next s

/-- A link is enabled: one that is DOWN trains (R423), unless it ends at a lost die or at no guest (R28, R442). -/
def enableLink (s : State) (id : LinkId) : State :=
  match findLink s id with
  | some l => if l.state = .down ∧ s.admin.bootst ≠ 1 ∧ !linkGone s.lost id ∧ !noGuest s.lost id then modLink s id fun l => { l with state := .training, since := s.tick } else s
  | none => s

/-- A CXL port that carries nothing any more takes its proxy home with it (R424). -/
def portGone (s : State) : LinkId → State
  | .cxl d => loseHome s d
  | _ => s

/-- A link fails. -/
def failLink (s : State) (id : LinkId) : State :=
  portGone (logHealth (modLink s id fun l => { l with state := .failed, since := s.tick }) (linkDie id) 5 (linkUnit id) 1 0) id

/-- LINK_TRAIN_TIMEOUT. -/
def execLinkTrainTimeout (id : LinkId) (s : State) : Res :=
  match findLink s id with
  | none => idle s
  | some l => if training l && decide (l.since + trainLimit ≤ s.tick) then .next (failLink s id) else idle s

/-- A link carries nothing until package reset. The guest attachment ends as by isolation (R424, R455). -/
def disableLink (s : State) (id : LinkId) : State :=
  if id = .guest then isolate s 0 else portGone (modLink s id fun l => { l with state := .disabled, since := s.tick }) id

/-- LINK_DISABLED: the host disables the link. -/
def execLinkDisabled (id : LinkId) (s : State) : Res :=
  match findLink s id with
  | none => idle s
  | some l => if hostOpen s && decide (l.state ≠ .disabled) then .next (disableLink s id) else idle s

/-! ## Flits (R425) -/

/-- The sequence numbers of unacknowledged flits from one on. -/
def resendFrom (l : List (BitVec 12 × BitVec 1920)) (seq : BitVec 12) : List (BitVec 12) :=
  (l.map fun x => x.1).filter fun x => decide ((x - seq).toNat < 2048)

/-- Sixteen retries of one flit put a link into RETRAINING; the third retraining within a second fails it (R423). -/
def retrainLink (s : State) (id : LinkId) (l : Link) : State :=
  let recent := l.retrainings.filter fun t => decide (s.tick < t + 1000000000)
  if recent.length ≥ 2 then failLink s id
  else modLink s id fun l =>
    { l with state := .retraining, since := s.tick, retries := 0, asked := [], retrainings := recent ++ [s.tick] }

/-- A retry request: the payload flits from its SEQ are sent again. -/
def retryLink (s : State) (id : LinkId) (seq : BitVec 12) : State :=
  match findLink s id with
  | none => s
  | some l =>
    let n := if l.retrySeq = seq then l.retries + 1 else 1
    if n ≥ 16 then retrainLink s id l
    else modLink s id fun l => { l with retries := n, retrySeq := seq, resend := resendFrom l.unacked seq }

/-- RETRY_REQUEST. -/
def execRetryRequest (id : LinkId) (seq : BitVec 12) (s : State) : Res := if linkUp s id then .next (retryLink s id seq) else idle s

/-- Whole messages at the front of the guest's payload stream go to its inbox; a malformed one isolates the guest (R443). -/
def parseGuest : Nat → State → State
  | 0, s => s
  | fuel + 1, s =>
    let l := s.guest.stream
    if l.length < 8 then s
    else
      let b := fun k => (l.getD k 0#8).toNat
      match guestBody (b 0) with
      | none => isolate s gcMalformed
      | some n =>
        if lenOf n ≠ l.getD 1 0#8 ∨ b 4 / 16 ≠ 0 ∨ b 5 ≠ 0 then isolate s gcMalformed
        else if l.length < 8 + n then s
        else
          let h : GuestHeader := { mtype := l.getD 0 0#8, len := l.getD 1 0#8, rtag := BitVec.ofNat 16 (b 2 + 256 * b 3),
                                   sq := BitVec.ofNat 4 (b 4), seq := BitVec.ofNat 16 (b 6 + 256 * b 7) }
          parseGuest fuel (modGuest s fun g => { g with stream := l.drop (8 + n), inbox := g.inbox ++ [(h, (l.drop 8).take n)] })

/-- Credits that come back from the guest. -/
def guestCredits (s : State) (id : LinkId) (n : Nat) : State :=
  if id = .guest then modGuest s fun g => { g with owed := g.owed.drop n } else s

/-- The payload of a flit that is taken in order: the guest's messages go up; software cannot see any other (R425). -/
def takePayload (s : State) (id : LinkId) (payload : BitVec 1920) : State :=
  if id = .guest then parseGuest 31 (modGuest s fun g => { g with stream := g.stream ++ bytesOfNat 240 payload.toNat }) else s

/-- A receiver asks for the flit that it expects: sixteen times in a row put the link into RETRAINING (R423). -/
def askRetry (s : State) (id : LinkId) : State :=
  match findLink s id with
  | none => s
  | some l =>
    if (l.asked.takeWhile fun x => decide (x = l.expect)).length ≥ 15 then retrainLink s id l
    else modLink s id fun l => { l with asked := l.expect :: l.asked }

/-- FLIT_RECEIVE: a flit with a CRC mismatch or a SEQ out of order is discarded whole and asked for again. -/
def execFlitReceive (id : LinkId) (flit : BitVec 2048) (s : State) : Res :=
  match findLink s id with
  | none => idle s
  | some l =>
    if !linkUp s id then idle s
    else if crc32c (bytesOfNat 248 flit.toNat) ≠ flit.extractLsb' 1984 32 then .next (askRetry s id)
    else
      let ftype := (flit.extractLsb' 0 4).toNat
      let seq : BitVec 12 := flit.extractLsb' 4 12
      let ack : BitVec 12 := flit.extractLsb' 16 12
      let credits : BitVec 32 := flit.extractLsb' 32 32
      if ftype > 3 then .next s
      else if ftype = 1 ∧ seq ≠ l.expect then .next (askRetry s id)
      else
        let s := modLink s id fun l =>
          { l with unacked := l.unacked.filter (fun x => decide ((x.1 - ack - 1#12).toNat < 2048)),
                   retries := if (l.retrySeq - ack - 1#12).toNat < 2048 then l.retries else 0,
                   resend := l.resend.filter (fun x => decide ((x - ack - 1#12).toNat < 2048)), credits := l.credits + credits }
        let s := guestCredits s id credits.toNat
        match ftype with
        | 1 => .next (takePayload (modLink s id fun l => { l with expect := l.expect + 1#12, acked := seq, asked := [] }) id (flit.extractLsb' 64 1920))
        | 3 => .next (retryLink s id seq)
        | _ => .next s

/-! ## Time-outs (R426, R276) -/

/-- The requests of an access that have been performed: any of them, each whole, as free values say (R426). -/
def freeLanes (s : State) (p : Pend) (l : List LaneAcc) : List LaneAcc :=
  l.filter fun x => (Config.freeValue s.freeCtr 16 (32 * p.op + x.lane)).getLsbD 0

/-- What requests do at their targets when they were performed though no reply came. Of a channel's stores only the next one can have
been, once those before it are folded in (R439). -/
def performAnyway (s : State) (p : Pend) : State :=
  match p.kind with
  | .home (.channel _ _) _ _ _ _ _ _ _ => if chanTurn s p then chanPerform s p else s
  | .home h _ w64 sc _ accs _ _ => (freeLanes s p accs).foldl (fun s x => roundOrSent s p h w64 sc x) s
  | .store n accs pol => writeAll s p pol n (freeLanes s p (accs.filter fun x => storeLeaves x.tgt))
  | .dcas x => pairPerform s p x
  | _ => s

/-- The lanes of a store that need no request are performed at L1 or in a scratchpad whatever becomes of the others. -/
def performNear (s : State) (p : Pend) : State :=
  match p.kind with
  | .store n accs pol => writeAll s p pol n (accs.filter fun x => !storeLeaves x.tgt)
  | _ => s

/-- A write that no instruction waits for at once (R276). -/
def PendKind.posts : PendKind → Bool
  | .store _ _ _ => true
  | k => k.runsOn

/-- The access of a gang times out: one whose result is waited for raises TIMEOUT, a posted write keeps it for later. -/
def timeoutPend (s : State) (p : Pend) (performed : Bool) : State :=
  let t := performNear (if performed then performAnyway s p else s) p
  if (findGang s p.gang).isNone then dropPend t p
  else if p.kind.posts then dropPend (postFault t p cTimeout (freeNow s)) p
  else preciseTrap { t with pend := if t.pend.any (fun q => decide (q.op = p.op)) then t.pend else t.pend ++ [p] } p cTimeout (freeNow s) 0#5

/-- A copy job's request times out: the job fails with FAULT 7, with any of its writes performed (R329, R426). -/
def timeoutJob (s : State) (c : Chain) (j : Job) (performed : Bool) : State :=
  let t := if performed && decide (cardKind j.card ≠ 3) then performSome s c j else s
  finishJob t c j stTimeout (some (7, noAddress s))

/-- A round that waits for a home times out: it waits for no home any more, and its blocks still arrive or are lost (R426). -/
def timeoutRound (s : State) (die : Nat) (performed : Bool) : State :=
  let s := if performed then s else { s with msgs := s.msgs.filter fun m => match m with
    | .block d _ _ => decide (d ≠ die)
    | .marker d _ => decide (d ≠ die)
    | _ => true }
  modDie s die fun d => { d with round := d.round.map fun r =>
    { r with homes := [], spans := r.spans.filter (fun x => x.2.isSome), timedOut := true } }

/-- The gang and slot whose last issue had a number, when it waits for a walk, a fetch of code or a post, and since when. -/
def findWalk (s : State) (op : Nat) : Option (Gang × PcSlot × Nat) :=
  s.gangs.findSome? fun g => [PcSlot.a, PcSlot.b].findSome? fun x =>
    match (g.arch.slot x).wait with
    | .walk since _ => if (g.arch.slot x).op = op ∧ (g.arch.slot x).live then some (g, x, since) else none
    | _ => none

/-- The request of a slot that waits for it times out: the instruction raises TIMEOUT (R276, R426). -/
def timeoutWalk (s : State) (g : Gang) (x : PcSlot) : State :=
  match begunIn s g.id x with
  | some p => preciseTrap s p cTimeout (freeNow s) 0#5
  | none => takeTrap s g x cTimeout (freeNow s) ((g.arch.slot x).pc.setWidth 64) 0#5

/-- REQUEST_TIMEOUT: request 4n is access n, 4n + 1 copy job n, 4n + 2 the round of die n, and 4n + 3 the walk of the slot whose last
issue is n. -/
def execRequestTimeout (req : Nat) (performed : Bool) (s : State) : Res :=
  let n := req / 4
  match req % 4 with
  | 0 =>
    match findPend s n with
    | some p =>
      if lateReply s p && !olderRisk s p.gang p.op then .next (timeoutPend s p performed) else idle s
    | none => idle s
  | 1 =>
    match findJob s n with
    | none => idle s
    | some j =>
      match findChain s j.chain with
      | none => idle s
      | some c => if j.state = .started ∧ jobLate s j then .next (timeoutJob s c j performed) else idle s
  | 3 =>
    match findWalk s n with
    | none => idle s
    | some (g, x, since) =>
      if timedOut s g.id.die since && !g.halted && !olderRisk s g.id n then .next (timeoutWalk s g x) else idle s
  | _ =>
    match (getDie s n).round with
    | none => idle s
    | some r => if n < 8 ∧ r.homes ≠ [] ∧ timedOut s n r.start then .next (timeoutRound s n performed) else idle s

/-! ## Reduction windows (R429, R430) -/

/-- The bits of a window register that are written. -/
def winBits : BitVec 192 :=
  (BitVec.ofNat 192 (2 ^ 57 - 1) <<< 7) ||| (BitVec.ofNat 192 (2 ^ 57 - 1) <<< 71) ||| (BitVec.ofNat 192 (2 ^ 24 - 1) <<< 128) ||| (1#192 <<< 160)

/-- A write of a span of a window register: reserved bits stay zero, and PARTIAL is cleared by a one. -/
def winWrite (old : BitVec 192) (byte n : Nat) (v : BitVec 64) (open_ : Bool) : BitVec 192 :=
  let span := (BitVec.ofNat 192 (2 ^ (8 * n) - 1) <<< (8 * byte))
  let new := (v.setWidth 192 <<< (8 * byte)) &&& span
  let old := if new.getLsbD 184 then old &&& ~~~(1#192 <<< 184) else old
  if open_ then (old &&& ~~~(span &&& winBits)) ||| (new &&& winBits) else old

/-- RWIN_WRITE: ignored while a context is ACTIVE but for the clear of PARTIAL. -/
def execRwinWrite (off : Nat) (wide : Bool) (v : BitVec 64) (s : State) : Res :=
  let n := if wide then 8 else 4
  if !hostOpen s || decide (off < 0x1000) || decide (0x10C0 < off + n) || decide (off % n ≠ 0) then idle s
  else
    let k := (off - 0x1000) / 24
    let open_ := s.contexts.all fun c => decide (c.state ≠ .active)
    .next { s with rwins := s.rwins.set (Fin.ofNat 8 k) (winWrite (s.rwins.get (Fin.ofNat 8 k)) ((off - 0x1000) % 24) n v open_) }

/-- The exact sum of values in quanta of a format, with what makes it a NaN or an infinity. -/
def exactSum (f : FF) (l : List FVal) : FRes :=
  let pos := l.any fun x => decide (x = .inf false)
  let neg := l.any fun x => decide (x = .inf true)
  if l.any fun x => decide (x = .nan) then .nan 0#8
  else if pos && neg then .nan fNV
  else if pos || neg then .inf neg 0#8
  else if l.all fun x => match x with
    | .fin true 0 _ => true
    | _ => false then .zero true
  else sumRes .rne ((l.map fun x => match x with
    | .fin n m e => signed n (m * 2 ^ (e - f.qmin).toNat)
    | _ => 0).foldl (· + ·) 0) f.qmin

/-- Old value and contributions summed exactly and rounded once. -/
def sumRound (f : FF) (codes : List Nat) : Nat := (packRes f .rne (exactSum f (codes.map (fdecode f)))).1

/-- The word that a round makes of its old value (R430). -/
def roundNew (op : AOp) (w64 : Bool) (old : DWord) (parts : List DWord) : DWord :=
  match op with
  | .fadd32 => BitVec.ofNat 64 (sumRound ffF32 ((old :: parts).map fun x => x.toNat % 2 ^ 32))
  | .bfadd2 =>
    let half := fun j => sumRound ffBf16 ((old :: parts).map fun x => x.toNat / 2 ^ (16 * j) % 2 ^ 16)
    BitVec.ofNat 64 (half 0 + 2 ^ 16 * half 1)
  | _ => parts.foldl (fun x y => atomicNew op w64 x y) old

/-- A gang's contribution to a round that has been performed at its home, and which sharers may not hold yet (R285, R302, R313). -/
def noteRound (s : State) (pa n : Nat) (src : GangId × Nat) : State :=
  let s := touchHome s src.1 (homeOf pa)
  if opUnfolded s src.2 then { s with nts := s.nts ++ [{ op := src.2, gang := src.1, drained := true, accs := [(pa, n)], chan := none }] } else s

/-- A round is delivered once and performed at its home, which may be another device. -/
def deliverRound (s : State) (r : RedRound) : State :=
  let pa := r.addr % 2 ^ 44
  let n := wordSize r.w64
  let s := { s with redRounds := s.redRounds.filter fun x => decide (x.id ≠ r.id) }
  if r.addr / 2 ^ 44 = s.admin.devid.toNat then
    let srcs := r.parts.filterMap fun x => x.2
    srcs.foldl (fun s x => noteRound s pa n x)
      (performHome s pa (bytesOfNat n (roundNew r.op r.w64 (BitVec.ofNat 64 (homeNat s pa n)) (r.parts.map fun x => x.1)).toNat)
        (srcs.map fun x => x.2))
  else s

/-- REDUCTION_ROUND_DELIVER: a complete round of a word. -/
def execReductionRoundDeliver (word : Nat) (s : State) : Res :=
  match s.redRounds.find? fun r => decide (r.addr = word) && decide (r.parts.length ≥ r.win.count) with
  | some r => .next (deliverRound s r)
  | none => idle s

/-- PARTIAL is set in the window of a round to which this device has contributed (R430). -/
def setPartial (s : State) (r : RedRound) : State :=
  if r.parts.any fun x => x.2.isSome then
    { s with rwins := s.rwins.set (Fin.ofNat 8 r.win.index) (s.rwins.get (Fin.ofNat 8 r.win.index) ||| (1#192 <<< 184)) }
  else s

/-- REDUCTION_PARTIAL_TIMEOUT: an incomplete round 65,536 ticks after its first contribution; PARTIAL is set. -/
def execReductionPartialTimeout (word : Nat) (s : State) : Res :=
  match s.redRounds.find? fun r => decide (r.addr = word) && decide (r.parts.length < r.win.count) && decide (r.first + requestLimit ≤ s.tick) with
  | some r => .next (deliverRound (setPartial s r) r)
  | none => idle s

/-! ## The host and other devices (R315, R428, R434) -/

/-- Host accesses through CXL.mem are held while a checkpoint runs (R466). -/
def hostHeld (s : State) : Bool :=
  match s.admin.busy with
  | some e => decide (entryOpcode e = 0x13#8)
  | none => false

/-- Bytes lie in one 64-byte line of the package's memory. -/
def hostSpan (pa n : Nat) : Bool := decide (0 < n) && decide (pa / 64 = (pa + n - 1) / 64) && paExists pa && paExists (pa + n - 1)

/-- HOST_CXL_MEM_ACCESS: a read takes what stands at the home, with its poison; a write is a home-performed write. -/
def execHostCxlMemAccess (addr : Nat) (data : List Byte) (isWrite : Bool) (s : State) : Res :=
  if !hostOpen s || hostHeld s || !hostSpan addr data.length then idle s
  else if isWrite then .next (performHome s addr data [])
  else .next { s with cxlReads := (addr, bytesOfNat data.length (homeNat s addr data.length), homePoisoned s addr) :: s.cxlReads }

/-- What another device's access makes of a word: its new value, or none for a read. -/
def remoteNew (acc : RemoteOp) (old : Nat) (data : BitVec 128) : Option (Nat × Nat) :=
  match acc with
  | .load _ => none
  | .store n => some (n, data.toNat % 256 ^ n)
  | .atomic op w64 | .red op w64 _ =>
    some (wordSize w64, (atomicNew op w64 (cutWord w64 (BitVec.ofNat 64 old)) (cutWord w64 (data.setWidth 64))).toNat)
  | .cas w64 =>
    let cmp := cutWord w64 (data.extractLsb' 64 64)
    if cutWord w64 (BitVec.ofNat 64 old) = cmp then some (wordSize w64, (cutWord w64 (data.setWidth 64)).toNat) else none

/-- Bytes that an access names. -/
def remoteSize : RemoteOp → Nat
  | .load n | .store n => n
  | .atomic _ w64 | .red _ w64 _ | .cas w64 => wordSize w64

/-- An access of another device performed at this device's home. -/
def remotePerform (s : State) (pa : Nat) (acc : RemoteOp) (data : BitVec 128) : State :=
  match remoteNew acc (homeNat s pa (remoteSize acc)) data with
  | none => s
  | some (n, x) => performHome s pa (bytesOfNat n x) []

/-- The contribution that another device's RED makes to a round, with the four values of its own window that it carries (R429, R430). -/
def remoteJoins (s : State) (addr : Nat) (acc : RemoteOp) (data : BitVec 128) : Option State :=
  match acc with
  | .red op w64 (some win) =>
    if win.base ≤ addr ∧ addr < win.limit then joinRound s win addr op w64 (cutWord w64 (data.setWidth 64)) none else none
  | _ => none

/-- REMOTE_ACCESS: at a domain address, an aligned access of another device. -/
def execRemoteAccess (addr : Nat) (acc : RemoteOp) (data : BitVec 128) (s : State) : Res :=
  let n := remoteSize acc
  let pa := addr % 2 ^ 44
  if !([1, 2, 4, 8, 16].contains n) || decide (addr % n ≠ 0) || s.deviceLost then idle s
  else
    match remoteJoins s addr acc data with
    | some s' => .next s'
    | none =>
      if addr / 2 ^ 44 = s.admin.devid.toNat ∧ paExists pa then .next (remotePerform s pa acc data) else idle s

end Sys2Proof.Machine
end

