-- ==== Sys2Proof/Machine/Page.lean ====
section
/-!
DEFINITION. Page operations (11_page R308, R317-R321; 19_reliability R457, R461): shootdowns, migrations and bias changes, errors in
storage, and the scrubber.
-/
namespace Sys2Proof.Machine

/-! ## Shootdown (R319) -/

/-- Cached leaf entries of a context that map some byte of a range. -/
def TlbEntry.meets (t : TlbEntry) (ctx first len : Nat) : Bool :=
  decide (t.ctx = ctx) && decide (t.base < first + len) && decide (first < t.base + t.size)

/-- The physical pieces that a die's old entries give a range. -/
def oldPieces (d : Die) (ctx first len : Nat) : List (Nat × Nat) :=
  d.tlb.filterMap fun t =>
    if t.meets ctx first len && pteLeaf t.entry && !pteRemote t.entry then some (pteAddr t.entry, pageSize t.entry) else none

/-- Compute dies that hold a context and are not lost. -/
def contextDies (s : State) (ctx : Nat) : List Nat :=
  match findContext s ctx with
  | some c => (List.range 8).filter fun j => c.diemask.getLsbD j && !dieLost s j
  | none => []

/-- The access has been translated. -/
def PendKind.translated (k : PendKind) : Bool :=
  k.bytes.any fun b => match b.1 with
    | .mem _ _ | .remote _ _ => true
    | _ => false

/-- What a die waits for in a shootdown: every access of the context that is under way, the flush of the range, and a round for
its TWINNED sheets. -/
def shootTask (s : State) (die ctx first len : Nat) : Task :=
  { unitTask s die (List.range 16) .pkg with
      ops := (s.pend.filter fun p => decide (p.ctx = ctx) && decide (p.gang.die = die) && p.kind.translated).map fun p => p.op, notBefore := s.tick,
      range := some (oldPieces (getDie s die) ctx first len) }

/-- A die stops using cached entries of the range. -/
def forgetRange (ctx first len : Nat) (s : State) (die : Nat) : State :=
  modDie s die fun d => { d with tlb := d.tlb.filter fun x => !x.meets ctx first len }

/-- A die that holds the context begins its part. -/
def shootDie (ctx first len : Nat) (s : State) (die : Nat) : State × (Nat × Nat) :=
  let t := shootTask s die ctx first len
  (forgetRange ctx first len (addTask s t) die, (die, t.id))

/-- Every die begins. -/
def shootDies (ctx first len : Nat) : List Nat → State → State × List (Nat × Nat)
  | [], s => (s, [])
  | d :: rest, s =>
    let r := shootDie ctx first len s d
    let t := shootDies ctx first len rest r.1
    (t.1, r.2 :: t.2)

/-- A shootdown begins on the dies that hold the context, and on the guest if it has a job of it (R452); no other die keeps entries of
the range either, those that C4 has walked for the guest among them. -/
def startShoot (s : State) (ctx first len : Nat) (admin : Bool) : State × Nat :=
  let id := s.nextUid
  let r := shootDies ctx first len (contextDies s ctx) { s with nextUid := id + 1 }
  let s' := (List.range 8).foldl (forgetRange ctx first len) r.1
  let g := guestHolds s ctx
  let s' := if g then sendInval s' id ctx first len else s'
  ({ s' with shoots := s'.shoots ++
      [{ id := id, ctx := ctx, first := first, len := len, tasks := r.2, guest := if g then some ctx else none, admin := admin }] }, id)

/-- SHOOTDOWN. -/
def execShootdown (e : BitVec 512) (s : State) : Res :=
  adminRun e 0x0C true [(8, 0, 64), (16, 0, 64)] s fun s =>
    (startShoot (adminHold s e) (entryCtx e) (entryWord e 8).toNat (entryWord e 16).toNat true).1

/-- SHOOTDOWN_DIE_ACK: the die's part is over. -/
def execShootdownDieAck (id die : Nat) (s : State) : Res :=
  match s.shoots.find? fun x => decide (x.id = id) with
  | none => idle s
  | some x =>
    match x.tasks.find? fun t => decide (t.1 = die) with
    | none => idle s
    | some t =>
      let isOver := match findTask s t.2 with
        | some k => decide (k.stage = 6)
        | none => true
      if isOver then
        .next { dropTask s t.2 with shoots := s.shoots.map fun y =>
          if y.id = id then { y with tasks := y.tasks.filter fun k => decide (k.1 ≠ die) } else y }
      else idle s

/-! ## Migration and bias changes (R317, R318) -/

/-- Where the leaf that maps an address stands, and the leaf. -/
def leafPlace (s : State) (va : BitVec 64) : Nat → Nat → Nat → Option (Nat × BitVec 64)
  | 0, _, _ => none
  | fuel + 1, lv, table =>
    let a := table + 8 * tableIndex lv va
    let e := BitVec.ofNat 64 (homeNat s a 8)
    if !pteV e || pteMalformed lv e then none
    else if pteLeaf e then some (a, e)
    else leafPlace s va fuel (lv + 1) (pteAddr e)

def contextLeaf (s : State) (ctx : Nat) (va : BitVec 64) : Option (Nat × BitVec 64) :=
  match findContext s ctx with
  | some c => if canonical va then leafPlace s va 4 1 c.root.toNat else none
  | none => none

/-- Bytes of one piece lie in a page. -/
def inPage (base size a n : Nat) : Bool := decide (a < base + size) && decide (base < a + n)

/-- A page's state at its home, from its granules and its poisoned lines. -/
def pageBusy (s : State) (base size : Nat) : Bool :=
  s.homePages.any fun h => inPage base size (65536 * h.page) 65536 && decide (h.state = .migrating)
def pageHostBiased (s : State) (base size : Nat) : Bool :=
  s.homePages.any fun h => inPage base size (65536 * h.page) 65536 && decide (h.state = .hostBiased)
def pagePoisoned (s : State) (base size : Nat) : Bool := homeLost s (homeOf base) || s.poison.any fun l => inPage base size (128 * l) 128

/-- The migration or bias change that a page is in. -/
def findMigration (s : State) (page : Nat) : Option Migration := s.migrations.find? fun m => decide (m.old = page)
def modMigration (s : State) (page : Nat) (f : Migration → Migration) : State :=
  { s with migrations := s.migrations.map fun m => if m.old = page then f m else m }

/-- A page frame of a size on a memory die that no command names: a free value. -/
def freeFrame (s : State) (die size : Nat) : Nat :=
  (die - 8) * 2 ^ 40 + (Config.freeValue s.freeCtr 2 0).toNat % (stackLimit / size) * size

/-- The new home has the sharer mask of a migrated page (R308, R317). -/
def moveSharers (s : State) (m : Migration) : State :=
  if m.bias.isSome then s
  else (List.range (m.size / 65536)).foldl (fun s k =>
    let h := findHomePage s (granule m.old + k)
    if h.sharers = 0#8 then s else modHomePage s (granule m.new + k) fun x => { x with sharers := x.sharers ||| h.sharers }) s

/-- Begin a migration or bias change of the page that maps an address. -/
def startMove (s : State) (e : BitVec 512) (ctx : Nat) (va : BitVec 64) (leaf : BitVec 64) (new : Nat) (bias : Option Bool) : State :=
  let size := pageSize leaf
  let m : Migration := { ctx := ctx, va := va.toNat / size * size, size := size, old := pteAddr leaf, new := new, bias := bias, boundary := 0,
                         shoot := none }
  adminHold (moveSharers (setPage { s with migrations := s.migrations ++ [m] } m.old size .migrating) m) e

/-- The leaf of a page that a command may move: a page of this package's memory. -/
def movable (s : State) (ctx : Nat) (va : BitVec 64) : Option (BitVec 64) :=
  match contextLeaf s ctx va with
  | some (_, leaf) => if !pteRemote leaf && paExists (pteAddr leaf) then some leaf else none
  | none => none

/-- MIGRATE. -/
def execMigrate (e : BitVec 512) (s : State) : Res :=
  adminRun e 0x0A true [(8, 0, 64), (16, 0, 8)] s fun s =>
    let die := entryField e 16 0 8
    if die < 8 ∨ die > 23 then adminFail s e 1
    else if homeLost s die then adminFail s e 2
    else
      match movable s (entryCtx e) (entryWord e 8) with
      | none => adminFail s e 4
      | some leaf =>
        let base := pteAddr leaf
        if pageBusy s base (pageSize leaf) || pageHostBiased s base (pageSize leaf) || pteBias leaf || pagePoisoned s base (pageSize leaf) then
          adminFail s e 2
        else startMove s e (entryCtx e) (entryWord e 8) leaf (freeFrame s die (pageSize leaf)) none

/-- BIAS. -/
def execBias (e : BitVec 512) (s : State) : Res :=
  adminRun e 0x0B true [(8, 0, 64), (16, 0, 1)] s fun s =>
    let b := decide (entryField e 16 0 1 = 1)
    match movable s (entryCtx e) (entryWord e 8) with
    | none => adminFail s e 4
    | some leaf =>
      let base := pteAddr leaf
      if pageBusy s base (pageSize leaf) || (b && (pteBias leaf || pageHostBiased s base (pageSize leaf))) || pagePoisoned s base (pageSize leaf) then
        adminFail s e 2
      else startMove s e (entryCtx e) (entryWord e 8) leaf base (some b)

/-- MIGRATION_LINE_COPY: the line at the boundary is copied, with its poison, and the boundary moves past it. -/
def execMigrationLineCopy (page : Nat) (s : State) : Res :=
  match findMigration s page with
  | none => idle s
  | some m =>
    if m.bias.isSome ∨ m.boundary ≥ m.size then idle s
    else
      let src := m.old + m.boundary
      let dst := m.new + m.boundary
      let s := { s with mem := cellsWrite s.mem dst (cellsRead s.mem src 128) }
      let rest := s.poison.filter fun l => decide (l ≠ dst / 128)
      let s := { s with poison := if s.poison.contains (src / 128) then rest ++ [dst / 128] else rest }
      .next (modMigration s page fun m => { m with boundary := m.boundary + 128 })

/-- The entry of a moved page: its new address, or its new BIAS. -/
def movedEntry (m : Migration) (e : BitVec 64) : BitVec 64 :=
  match m.bias with
  | none => (e &&& ~~~0x00003FFFFFFFF000#64) ||| BitVec.ofNat 64 m.new
  | some b => if b then e ||| 0x100#64 else e &&& ~~~0x100#64

/-- Entries that map a page of a size (R292): 32 of 64 KiB, or 16 of 64 MiB. -/
def pageEntries (size : Nat) : Nat := if size = 2 ^ 21 then 32 else if size = 2 ^ 30 then 16 else 1

/-- Every entry that maps the page is switched (R317, R318). -/
def switchEntries (s : State) (m : Migration) : State :=
  let n := pageEntries m.size
  (List.range n).foldl (fun s k =>
    match contextLeaf s m.ctx (BitVec.ofNat 64 (m.va + m.size / n * k)) with
    | some (a, e) => if pteRemote e || decide (pteAddr e ≠ m.old) then s else performHome s a (bytesOfNat 8 (movedEntry m e).toNat) []
    | none => s) s

/-- The closing shootdown of a page begins: the entries are switched, and whatever translates from then on finds the page at its new place
(R317, R318). -/
def closeMove (s : State) (m : Migration) : State :=
  let r := startShoot (switchEntries (moveSharers s m) m) m.ctx m.va m.size false
  modMigration r.1 m.old fun m => { m with shoot := some r.2 }

/-- MIGRATION_DONE: the boundary has reached the end of the page. -/
def execMigrationDone (page : Nat) (s : State) : Res :=
  match findMigration s page with
  | none => idle s
  | some m => if m.bias.isNone ∧ m.boundary ≥ m.size ∧ m.shoot.isNone then .next (closeMove s m) else idle s

/-- BIAS_LINE_STEP: the boundary moves past one line, whose host copy has been back-invalidated; past the last line the closing
shootdown begins. -/
def execBiasLineStep (page : Nat) (s : State) : Res :=
  match findMigration s page with
  | none => idle s
  | some m =>
    if m.bias.isNone ∨ m.shoot.isSome then idle s
    else
      let m' := { m with boundary := m.boundary + 128 }
      let s := modMigration s page fun _ => m'
      .next (if m'.boundary ≥ m.size then closeMove s m' else s)

/-- The dies that hold lines of a granule. -/
def holdersOf (s : State) (g : Nat) : BitVec 8 :=
  (List.range 8).foldl (fun m j => if (getDie s j).sheets.any fun x => decide (x.sheet / 256 = g) && decide (x.held ≠ 0#2) then m ||| (1#8 <<< j) else m) 0#8

/-- The clean copies of a page leave every cache, and its home keeps no state of it but the dies that still hold lines. -/
def dropPage (s : State) (base size : Nat) : State :=
  let at_ := inPage base size
  let s := { s with
    clusters := s.clusters.map (fun c => { c with lines := c.lines.filter fun x => !at_ (128 * x.line) 128 || decide (x.dirty ≠ 0#128) }),
    cores := s.cores.map (fun c => { c with l1 := c.l1.filter fun x => !at_ (128 * x.line) 128 }) }
  let s := (List.range 8).foldl (fun s j => modDie s j fun d =>
    { d with sheets := d.sheets.filter fun x => !at_ (256 * x.sheet) 256 || decide (x.state ≠ .clean) }) s
  { s with homePages := s.homePages.filterMap fun h =>
      if !at_ (65536 * h.page) 65536 then some h
      else if holdersOf s h.page = 0#8 then none else some { h with sharers := holdersOf s h.page, state := .normal } }

/-- The shootdown of a page's move is over: nothing uses the old entries any more. -/
def endMove (s : State) (m : Migration) : State :=
  let s := dropPage s m.old m.size
  let s := { s with migrations := s.migrations.filter fun x => decide (x.old ≠ m.old) }
  let s := match m.bias with
    | some true => setPage s m.old m.size .hostBiased
    | _ => s
  match s.admin.busy with
  | some e => adminOk s e 0#64
  | none => s

/-- A shootdown is over when every die and the guest have acknowledged. -/
def Shoot.isOver (x : Shoot) : Bool := decide (x.tasks = []) && x.guest.isNone

/-- Shootdowns that are over, and the moves that they close. -/
def endShoots (s : State) : State :=
  let s := s.shoots.foldl (fun s x =>
    if x.isOver && !s.migrations.any (fun m => decide (m.shoot = some x.id)) then
      let s := { s with shoots := s.shoots.filter fun y => decide (y.id ≠ x.id) }
      match x.admin, s.admin.busy with
      | true, some e => adminOk s e 0#64
      | _, _ => s
    else s) s
  s.migrations.foldl (fun s m =>
    match m.shoot with
    | none => s
    | some id =>
      match s.shoots.find? fun x => decide (x.id = id) with
      | none => s
      | some x =>
        if x.isOver then
          endMove { s with shoots := s.shoots.filter fun y => decide (y.id ≠ id) } m
        else s) s

/-! ## Errors (R320, R457, R460) -/

/-- A home line is poisoned and logged. -/
def poisonLine (s : State) (line : Nat) : State :=
  logHealth { s with poison := if s.poison.contains line then s.poison else s.poison ++ [line] } (homeOf (128 * line)) 2 0 1 (128 * line)

/-- The run that covers a lane is poisoned. -/
def poisonRun (l : List Run) (lane : Nat) : List Run :=
  match l with
  | [] => []
  | r :: rest => if lane < r.count then { r with poison := true } :: rest else r :: poisonRun rest (lane - r.count)

/-- Mark a word of a line poisoned. -/
def poisonLeased (l : List LeasedLine) (addr : Nat) : List LeasedLine :=
  l.map fun x => if x.line = addr / 128 then { x with poison := x.poison ||| (1#32 <<< (addr % 128 / 4)) } else x

/-- The error reaches something that is there. -/
def siteThere (s : State) : ErrSite → Bool
  | .home line => paExists (128 * line)
  | .rdc die addr => decide (die < 8) && (sheetOr s die (addr / 256)).held.getLsbD (addr / 128 % 2)
  | .cluster die cl addr => (getCluster s die cl).lines.any fun x => decide (x.line = addr / 128)
  | .l1 die core addr => (getCore s die core).l1.any fun x => decide (x.line = addr / 128)
  | .scratch die core addr => decide (die < 8) && decide (core < 128) && decide (addr < 524288)
  | .register g reg _ => match findGang s g with
    | some g => if reg < 64 then (g.arch.vreg (Fin.ofNat 64 reg)).isSome
        else if reg < 128 then (g.arch.sreg (Fin.ofNat 64 (reg - 64))).isSome else decide (reg < 135)
    | none => false
  | .shadow ctx => s.saved.any fun v => decide (v.ctx = ctx)

/-- The poison that an error leaves; a register is named by its operand code: a run of v, s, or p0-p6 (R457, R460). -/
def poisonSite (s : State) : ErrSite → State
  | .home line => poisonLine s line
  | .rdc die addr =>
    let x := sheetOr s die (addr / 256)
    putSheet s die { x with poison := x.poison ||| (1#64 <<< (addr % 256 / 4)) }
  | .cluster die cl addr => modCluster s die cl fun c => { c with lines := poisonLeased c.lines addr }
  | .l1 die core addr => modCore s die core fun c => { c with l1 := poisonLeased c.l1 addr }
  | .scratch die core addr => poisonScratch s die core (addr / 4 * 4) [0]
  | .register id reg lane => modGang s id fun g =>
      let n := Fin.ofNat 64 reg
      if reg < 64 then { g with arch := g.arch.setV n ((g.arch.vreg n).map fun l => poisonRun l lane) }
      else if reg < 128 then { g with arch := { g.arch with sPoison := g.arch.sPoison ||| (1#64 <<< (reg - 64)) } }
      else { g with arch := { g.arch with pPoison := g.arch.pPoison ||| (1#8 <<< (reg - 128)) } }
  | .shadow ctx => modContext s ctx fun c => { c with shadowErr := true }

/-- UNCORRECTABLE_ERROR. -/
def execUncorrectableError (site : ErrSite) (s : State) : Res := if siteThere s site then .next (poisonSite s site) else idle s

/-- ECC_CORRECTED (R457, R462). -/
def execEccCorrected (die unit : Nat) (s : State) : Res := if die < 24 then .next (logCorrected s die unit) else idle s

/-! ## Scrubbing (R321, R461) -/

/-- A 32-byte sector as it stands. -/
def sectorNow (s : State) (sector : Nat) : BitVec 256 := BitVec.ofNat 256 (homeNat s (32 * sector) 32)

def sectorPoisoned (s : State) (sector : Nat) : Bool := s.poison.contains (sector / 4)

/-- PATROL_SCRUB: the read keeps the sector with its version; the write back puts it back only if no write has come between. A
sector that two passes find uncorrectable has its line reported. -/
def execPatrolScrub (sector : Nat) (phase : ScrubPhase) (s : State) : Res :=
  let old := s.scrub.find? fun x => decide (x.1 = sector)
  let rest := s.scrub.filter fun x => decide (x.1 ≠ sector)
  match phase, old with
  | .read, _ =>
    if !paExists (32 * sector) then idle s
    else
      let s := if old.isSome && sectorPoisoned s sector then logHealth s (homeOf (32 * sector)) 2 0 1 (32 * sector) else s
      .next { s with scrub := rest ++ [(sector, sectorNow s sector)] }
  | .writeBack, none => idle s
  | .writeBack, some x =>
    let s := if x.2 = sectorNow s sector then homeWrite s (32 * sector) (bytesOfNat 32 x.2.toNat) else s
    .next { s with scrub := if sectorPoisoned s sector then s.scrub else rest }

/-- ECS_COUNT_READ: every 10 s the error counts of each stack go to the health log. -/
def execEcsCountRead (counts : List Nat) (s : State) : Res :=
  let last := (s.health.filter fun h => decide (h.kind = 8)).foldl (fun m h => max m h.tick) 0
  if s.tick < last + 10000000000 ∨ counts.length ≠ 16 then idle s
  else .next ((List.range 16).foldl (fun s k => logHealth s (8 + k) 8 0 (counts.getD k 0) 0) s)

end Sys2Proof.Machine
end

