-- ==== Sys2Proof/Machine/Context.lean ====
section
/-!
DEFINITION. Contexts (16_context R403-R407, R417-R420; 14_kernel R375): creating, activating, pre-empting, restoring and destroying
one, and its way into FAULTED.
-/
namespace Sys2Proof.Machine

/-! ## Partitions (R403) -/

/-- Cores of a partition in its order. -/
def partList (c : Context) : List (Nat × Nat) :=
  (List.range 8).flatMap fun die => (List.range 128).filterMap fun k => if (partCores c die).getLsbD k then some (die, k) else none

/-- A core belongs to a partition. -/
def inPart (c : Context) (die core : Nat) : Bool := (partCores c die).getLsbD core

/-- Place of a core in the partition order. -/
def partIndex (c : Context) (die core : Nat) : Nat :=
  ((partList c).filter fun x => decide (x.1 < die) || (decide (x.1 = die) && decide (x.2 < core))).length

/-- Clusters of a partition on a die. -/
def partClusters (c : Context) (die : Nat) : List Nat :=
  if c.diemask.getLsbD die then (List.range 16).filter fun k => c.clusters.getLsbD k else []

/-- Two partitions share a core. -/
def partsMeet (x y : Context) : Bool := decide (x.diemask &&& y.diemask ≠ 0#8) && decide (x.clusters &&& y.clusters ≠ 0#16)

/-- Number of set bits below `n`. -/
def bitCount {w : Nat} (x : BitVec w) : Nat := ((List.range w).filter fun k => x.getLsbD k).length

/-- Cores of a partition: 8 for each cluster of each die. -/
def partSize (c : Context) : Nat := 8 * bitCount c.clusters * bitCount c.diemask

/-! ## CREATE (R403, R404) -/

/-- A reserved field is not zero, or a field is out of range. -/
def cdBad (d : BitVec 512) : Bool :=
  [(0, 0, 13), (8, 0, 10), (32, 0, 12), (40, 0, 6), (48, 8, 8), (52, 19, 5), (52, 11, 3), (56, 16, 48)].any (fun f => decide (kdField d f.1 f.2.1 f.2.2 ≠ 0))
    || decide (paRegion (kdAddr d 0).toNat ≠ 0) || !canonical (kdAddr d 8) || !canonical (kdAddr d 32) || !canonical (kdAddr d 40)
    || decide (kdField d 48 16 16 = 0) || decide (kdField d 48 0 8 = 0) || decide (kdField d 52 24 8 = 0)
    || decide (kdField d 52 14 5 < 6) || decide (kdField d 52 14 5 > 16) || decide (kdField d 52 0 11 < 32) || decide (kdField d 52 0 11 > 1024)

/-- A context as CREATE makes it. -/
def newContext (n : Nat) (d : BitVec 512) : Context :=
  { num := n, root := kdAddr d 0, dstack := kdAddr d 8, tvec := kdAddr d 16, dispatch := kdAddr d 24, overflow := kdAddr d 32,
    evring := kdAddr d 40, clusters := BitVec.ofNat 16 (kdField d 48 16 16), diemask := BitVec.ofNat 8 (kdField d 48 0 8),
    evc := kdField d 52 24 8, evlog2 := kdField d 52 14 5, lease := kdField d 52 0 11, evu := kdField d 56 0 16, state := .created,
    widx := 0#32, ridx := 0#32, polled := 0, due := [], unannounced := [], nowPending := false, phase := 0, haltTick := 0, task := [],
    shadowErr := false }

/-- The next number after the last assigned that no context holds: none when all are in use. -/
def freeContext (s : State) : Option Nat :=
  if s.contexts.length ≥ 65535 then none
  else ((List.range (s.contexts.length + 1)).map fun k => (s.nextCtx + k) % 65535).find? fun n => (findContext s n).isNone

/-- The shadow store of every die has room for the partition: 768 KiB for each of the die's 128 cores (R404, R419). -/
def shadowRoom (s : State) (c : Context) : Bool :=
  (List.range 8).all fun die => !c.diemask.getLsbD die ||
    decide (8 * bitCount c.clusters
      + ((s.contexts.filter fun x => x.diemask.getLsbD die).map fun x => 8 * bitCount x.clusters).foldl (· + ·) 0 ≤ 128)

/-- Every page of the three extents translates with R and W. -/
def extentsMapped (s : State) (c : Context) : State × Bool :=
  let die := contextDie s c
  let a := regionMapped s die c.num c.dstack.toNat (65536 * partSize c) [.read, .write]
  if !a.2 then a
  else
    let b := regionMapped a.1 die c.num c.overflow.toNat (1048576 * partSize c) [.read, .write]
    if !b.2 then b else regionMapped b.1 die c.num c.evring.toNat (32 * 2 ^ c.evlog2 + 64) [.read, .write]

/-- CREATE. -/
def execCreate (e : BitVec 512) (s : State) : Res :=
  adminRun e 0x01 false [(8, 0, 64)] s fun s =>
    match hostRead s (entryWord e 8).toNat 64 with
    | none => adminIoFail s e
    | some l =>
      let d := BitVec.ofNat 512 (natOfBytes l)
      if cdBad d then adminFail s e 1
      else if (List.range 8).any fun j => (BitVec.ofNat 8 (kdField d 48 0 8)).getLsbD j && dieLost s j then adminFail s e 2
      else
        match freeContext s with
        | none => adminFail s e 3
        | some n =>
          let c := newContext n d
          if !shadowRoom s c then adminFail s e 3
          else
            let t := { s with contexts := s.contexts ++ [c], nextCtx := (n + 1) % 65535 }
            let m := extentsMapped t c
            if !m.2 then adminFail s e 4
            else
              match deviceWrite m.1 (contextDie s c) n (controlAddr c) (bytesOfNat 64 0) with
              | none => adminFail s e 4
              | some u => adminOk u e (BitVec.ofNat 64 n)

/-! ## The caches of a partition (R407, R417) -/

/-- Every L1 and instruction cache of the partition is empty, and every line of its cluster caches that is clean is gone. -/
def emptyCaches (s : State) (c : Context) : State :=
  { s with
      cores := s.cores.map fun k => if inPart c k.die k.core then { k with l1 := [], icache := [], fills := [] } else k,
      clusters := s.clusters.map fun k =>
        if (partClusters c k.die).contains k.cluster then { k with lines := k.lines.filter fun x => decide (x.dirty ≠ 0#128) } else k }

/-- Flush the L1s and the cluster caches of a partition. -/
def flushPart (s : State) (c : Context) : State :=
  (List.range 8).foldl (fun s die => (partClusters c die).foldl (fun s cl => flushCluster s die cl fun _ => true) s)
    (drainThrough s fun x => inPart c x.gang.die x.gang.core)

/-- A placement opportunity arises on every die of a partition (R203, log 170). -/
def chancePart (s : State) (c : Context) : State :=
  (List.range 8).foldl (fun s die => if c.diemask.getLsbD die then giveChance s die else s) s

/-! ## ACTIVATE (R405, R407, R207) -/

/-- A context that holds cores of the partition. -/
def partHeld (s : State) (c : Context) : Bool :=
  s.contexts.any fun x => decide (x.num ≠ c.num) && partsMeet x c
    && (match x.state with
      | .active | .preempting | .resuming => true
      | _ => false)

/-- The record from which a dispatcher block is placed: its kernel's budget and allocation, or those of the Densetric program. -/
def dispatchRecord (s : State) (c : Context) : BindRec :=
  let k := findKernel s c.num c.dispatch
  { kdesc := c.dispatch, args := 0#64, next := 0#32, left := 0, grid := 1#32, token := 0#32, cores := 0#128,
    budget := (match k with
      | some k => k.budget
      | none => 32),
    gangsM1 := 0, clustM1 := 0,
    scratch := (match k with
      | some k => k.scratch
      | none => 256),
    lastcl := 0, spread := false,
    noborrow := (match k with
      | some k => k.noborrow
      | none => true),
    coop := false, standing := false, valid := true, ctx := c.num, argLen := 0, dgroup := s.nextUid }

/-- One dispatcher gang starts on a die: gang place 0 of scheduler 0 of the partition's lowest core there (R207). The Densetric
program, which the die runs itself, waits for its mailbox. -/
def startDispatcher (s : State) (c : Context) (die : Nat) : State :=
  match (List.range 128).find? fun k => (partCores c die).getLsbD k with
  | none => s
  | some core =>
    let r := dispatchRecord s c
    let base := match freeBase s die core (allocSize r.scratch) with
      | some b => b
      | none => 0
    let id : GangId := { die := die, core := core, sched := 0, place := 0 }
    let s := placeBlock s die core r 0#32 s.nextUid 0 base [id] true (recEntry s r)
    let s := modMailbox s die c.num fun m => m
    if c.dispatch = 0#64 then modGang s id fun g => { g with arch := g.arch.setWait .a .mailbox } else s

/-- Tags and codebooks of a partition's cores are zero when it first becomes ACTIVE. -/
def zeroCores (s : State) (c : Context) : State :=
  { s with cores := s.cores.map fun k =>
      if inPart c k.die k.core then { k with tags := 0#64, codebooks := Vector.replicate 8 0#256 } else k }

/-- CREATED to ACTIVE. -/
def activateNew (s : State) (c : Context) : State :=
  let s := zeroCores (emptyCaches (flushPart s c) c) c
  let s := modContext s c.num fun x => { x with state := .active }
  (List.range 8).foldl (fun s die => if c.diemask.getLsbD die && !dieLost s die then startDispatcher s c die else s) s

/-- ACTIVATE. -/
def execActivate (e : BitVec 512) (s : State) : Res :=
  adminRun e 0x02 true [] s fun s =>
    match findContext s (entryCtx e) with
    | none => adminFail s e 2
    | some c =>
      if partHeld s c then adminFail s e 2
      else
        match c.state with
        | .created =>
          if c.dispatch ≠ 0#64 ∧ !loadedKernel s c.num c.dispatch then adminFail s e 2 else adminOk (activateNew s c) e 0#64
        | .saved => adminHold (modContext s c.num fun x => { x with state := .resuming }) e
        | _ => adminFail s e 2

/-! ## Halting (R417, R249) -/

/-- A wait in which a gang in TRAP halts. -/
def haltsIn : Wait → Bool
  | .sleep _ _ | .barw _ _ _ _ _ | .gbar _ _ | .gbarRelease _ _ _ | .limits _ _ _ _ _ | .tagw _ _ _ | .mailbox => true
  | _ => false

/-- The gang halts now: it is RUNNING, or it waits in its handler. -/
def haltsNow (g : Gang) : Bool :=
  match g.arch.mode with
  | .running => true
  | .trap => haltsIn (g.arch.slot g.arch.tslot).wait

/-- The release that a slot waits for. -/
def waitTask : Wait → Option Nat
  | .task id | .gbarRelease id _ _ => some id
  | _ => none

/-- A halted gang's slot: a release that it waits for is dropped, and the instruction is executed again after restore; a GBAR that
has not arrived will arrive then. -/
def haltSlot (a : Arch) (x : PcSlot) : Arch :=
  match (a.slot x).wait with
  | .task _ => a.setWait x .none
  | .gbarRelease _ _ _ => { a.setWait x .none with gbars := a.gbars - 1 }
  | _ => a

/-- Both slots. -/
def haltArch (a : Arch) : Arch := haltSlot (haltSlot a .a) .b

/-- Halt a gang: an instruction that it has begun and holds is cancelled, and is executed again from its start after restore (R417, R420). -/
def haltGang (s : State) (g : Gang) : State :=
  let drop := [waitTask g.arch.slotA.wait, waitTask g.arch.slotB.wait]
  putGang { s with
      tasks := s.tasks.filter fun t => !drop.contains (some t.id),
      pend := (s.pend.filter fun p => !(decide (p.gang = g.id) && p.isBegun)).map fun p =>
        if p.gang = g.id then { p with ckpt := haltArch p.ckpt } else p }
    { g with halted := true, arch := haltArch g.arch }

/-- The gangs of a context that halt at this moment. -/
def haltGangs (s : State) (ctx : Nat) : State :=
  s.gangs.foldl (fun s g => if decide (g.ctx = ctx) && !g.halted && haltsNow g then haltGang s g else s) s

/-- The release of one die (R417, step 2): the cluster caches of the partition, then a round. -/
def preemptTask (s : State) (c : Context) (die : Nat) : Task := unitTask s die (partClusters c die) .pkg

/-- The guest is sent a PREEMPT: its link carries messages or holds them while it trains again (R423), or it has jobs of the context
(R454). -/
def guestTold (s : State) (ctx : Nat) : Bool :=
  guestHolds s ctx || (!s.guest.isolated && match findLink s .guest with
    | some l => decide (l.state = .active) || decide (l.state = .degraded) || decide (l.state = .retraining)
    | none => false)

/-- Begin the release on every die of the partition that is there, and send the guest its PREEMPT (R417, steps 2 and 5). -/
def beginRelease (s : State) (c : Context) : State :=
  let s := (List.range 8).foldl (fun s die =>
    if c.diemask.getLsbD die && !dieLost s die then
      let t := preemptTask s c die
      modContext (addTask s t) c.num fun x => { x with task := x.task ++ [t.id] }
    else s) s
  let s := if guestTold s c.num then sendPreempt s c.num else s
  modContext s c.num fun x => { x with phase := 1 }

/-- Begin a pre-emption. -/
def beginPreempt (s : State) (n : Nat) : State :=
  haltGangs (modContext s n fun x => { x with state := .preempting, phase := 0, haltTick := s.tick, task := [] }) n

/-- A contribution of the partition waits in a reduction round. -/
def partReduces (s : State) (c : Context) : Bool :=
  s.redRounds.any fun r => r.parts.any fun x => match x.2 with
    | some y => inPart c y.1.die y.1.core
    | none => false

/-- Every gang of the context has halted, and its issued instructions and running jobs are over. -/
def haltDone (s : State) (c : Context) : Bool :=
  s.gangs.all (fun g => decide (g.ctx ≠ c.num) || g.halted) && s.pend.all (fun p => decide (p.ctx ≠ c.num))
    && s.jobs.all (fun j => decide (j.ctx ≠ c.num) || decide (j.state ≠ .started)) && !partReduces s c

/-- Every release of the pre-emption is over. -/
def releasesDone (s : State) (c : Context) : Bool :=
  c.task.all (fun id => match findTask s id with
    | some t => decide (t.stage = 6)
    | none => true)
    && s.tasks.all fun t => match t.gang with
      | some g => decide (!inPart c g.die g.core)
      | none => true

/-- Advance a pre-emption to its next step when the present one is over. -/
def preemptStep (s : State) (c : Context) : State :=
  match c.phase with
  | 0 =>
    let s := haltGangs s c.num
    if haltDone s c then beginRelease s c else s
  | 1 =>
    if releasesDone s c then
      let s := { s with tasks := s.tasks.filter fun t => !c.task.contains t.id }
      emptyCaches (modContext s c.num fun x => { x with phase := 2, task := [] }) c
    else s
  | _ => s

/-- Advance every pre-emption. -/
def stepContexts (s : State) : State :=
  s.contexts.foldl (fun s c => match findContext s c.num with
    | some c => if c.state = .preempting then preemptStep s c else s
    | none => s) s

/-- PREEMPT. -/
def execPreempt (e : BitVec 512) (s : State) : Res :=
  adminRun e 0x03 true [] s fun s =>
    match findContext s (entryCtx e) with
    | none => adminFail s e 2
    | some c => if c.state ≠ .active then adminFail s e 2 else adminHold (beginPreempt s c.num) e

/-- PREEMPT_HALT_TIMEOUT (R417). -/
def execPreemptHaltTimeout (id : GangId) (s : State) : Res :=
  match findGang s id with
  | none => idle s
  | some g =>
    match findContext s g.ctx with
    | none => idle s
    | some c =>
      if c.state = .preempting ∧ c.phase = 0 ∧ !g.halted ∧ g.arch.mode = .trap ∧ c.haltTick + 20000 ≤ s.tick then
        .next (failGang s g stFailedKilled 0#8 0#32)
      else idle s

/-! ## The save (R418, R419, R210, R375) -/

/-- The liveness entry that covers an offset: the registers that may be read. None covers the code's end (R374). -/
def livenessAt (k : Kernel) (o : Nat) : BitVec 64 :=
  if 12 * k.ninstr ≤ o then 0#64 else k.liveness.foldl (fun m e => if e.1 ≤ o then e.2 else m) 0#64

/-- The points of a RUNNING gang's save (R375). -/
def savePoints (a : Arch) : List (BitVec 32) :=
  ([a.slotA, a.slotB].filterMap fun x => if x.live then some x.pc else none)
    ++ ((List.range a.sp).filterMap fun j => match (entryAt a j).kind with
      | .path => some (entryAt a j).pc
      | .join => some ((entryAt a j).pc + 12#32)
      | .dead => none)

/-- The registers that a save keeps. -/
def savedRegs (s : State) (g : Gang) : BitVec 64 :=
  match g.arch.mode, ownKernel s g with
  | .running, some k => (savePoints g.arch).foldl (fun m o => m ||| livenessAt k o.toNat) 0#64
  | _, _ => -1#64

/-- What remains of a wait across a save: a deadline, a grid arrival, and the Densetric program's own wait. -/
def savedWait (native : Bool) (w : Wait) : Wait :=
  match w with
  | .sleep d r => .sleep d r
  | .gbar p r => .gbar p r
  | .mailbox => if native then .mailbox else .none
  | _ => .none

/-- A gang as it is saved. -/
def saveGang (s : State) (g : Gang) : Gang :=
  let keep := savedRegs s g
  let native := g.dispatcher && (match findBlock s g.block with
    | some b => decide (b.kdesc = 0#64)
    | none => false)
  let slot := fun (x : Slot) => { x with wait := savedWait native x.wait }
  let a := { g.arch with v := Vector.ofFn (fun (i : Fin 64) => if keep.getLsbD i.val then g.arch.v[i] else none),
                         slotA := slot g.arch.slotA, slotB := slot g.arch.slotB }
  { g with fetch := [], arch := settleAccounts g.budget a }

def kindCode : EntryKind → Nat
  | .dead => 0
  | .path => 1
  | .join => 2

/-- An entry of the divergence stack in memory (R210). -/
def entryBytes (e : Entry) : List Byte :=
  let parent := match e.kind, e.parent with
    | .join, some p => p % 128
    | .join, none => 0x7F
    | _, _ => 0
  bytesOfNat 4 e.pc.toNat ++ bytesOfNat 4 e.mask.toNat ++ bytesOfNat 4 (parent * 256 + e.link % 64) ++ bytesOfNat 4 (kindCode e.kind * 2 ^ 30)

/-- An entry read back. -/
def entryOfNat (x : Nat) : Entry :=
  let w := BitVec.ofNat 128 x
  let parent := (w.extractLsb' 72 7).toNat
  let kind : EntryKind := if w.extractLsb' 126 2 = 1#2 then .path else if w.extractLsb' 126 2 = 2#2 then .join else .dead
  { kind := kind, pc := w.extractLsb' 0 32, mask := w.extractLsb' 32 32, link := (w.extractLsb' 64 6).toNat,
    parent := if kind = .join ∧ parent ≠ 0x7F then some parent else none }

/-- Address of a gang's stack area in DSTACK. -/
def stackAddr (c : Context) (g : GangId) : BitVec 64 :=
  c.dstack + BitVec.ofNat 64 (65536 * partIndex c g.die g.core + 1024 * (16 * g.sched + g.place))

/-- What a save writes of a gang's stack. -/
def stackPieces (c : Context) (g : Gang) : List (BitVec 64 × List Byte) :=
  if g.arch.sp = 0 then []
  else [(stackAddr c g.id, (List.range g.arch.sp).flatMap fun j => entryBytes (entryAt g.arch j))]

/-- Bytes that a core's save takes: allocations, and for each gang 1,024 bytes and 8 for each run slot. -/
def saveSize (gangs : List Gang) (blocks : List Block) (die core : Nat) : Nat :=
  ((blocks.filter fun b => decide (b.die = die) && decide (b.core = core)).map fun b => b.size).foldl (· + ·) 0
    + ((gangs.filter fun g => decide (g.id.die = die) && decide (g.id.core = core)).map fun g => 1024 + 8 * heldSlots g.arch).foldl (· + ·) 0

/-- What a core's save writes to its OVERFLOW, in pieces of 4 KiB: the excess over 768 KiB, whose layout is open. -/
def overflowPieces (ctr : Nat) (c : Context) (gangs : List Gang) (blocks : List Block) (die core : Nat) : List (BitVec 64 × List Byte) :=
  let n := min 1048576 (saveSize gangs blocks die core - 786432)
  (List.range ((n + 4095) / 4096)).map fun k =>
    (c.overflow + BitVec.ofNat 64 (1048576 * partIndex c die core + 4096 * k),
     (List.range (min 4096 (n - 4096 * k))).map fun i => (Config.freeValue ctr 4 (1048576 * (128 * die + core) + 4096 * k + i)).setWidth 8)

/-- Everything that a save writes to memory. -/
def savePieces (ctr : Nat) (c : Context) (gangs : List Gang) (blocks : List Block) : List (BitVec 64 × List Byte) :=
  gangs.flatMap (stackPieces c) ++ (partList c).flatMap fun x => overflowPieces ctr c gangs blocks x.1 x.2

/-- The first piece whose page cannot be used. -/
def badPiece (s : State) (c : Context) (k : Access) (l : List (BitVec 64 × List Byte)) : Option Nat :=
  (l.find? fun p => (deviceAddr s (contextDie s c) c.num p.1 p.2.length k).2.isNone).map fun p => p.1.toNat

/-- Gangs and blocks of a context. -/
def contextGangs (s : State) (n : Nat) : List Gang := s.gangs.filter fun g => decide (g.ctx = n)
def contextBlocks (s : State) (n : Nat) : List Block := s.blocks.filter fun b => decide (b.ctx = n)

/-- The pieces of the save of a context that has halted. -/
def pendingPieces (s : State) (c : Context) : List (BitVec 64 × List Byte) :=
  savePieces s.freeCtr c ((contextGangs s c.num).map (saveGang s)) (contextBlocks s c.num)

/-- The shadow store's image of a context. -/
def savedOf (s : State) (c : Context) : Saved :=
  { ctx := c.num, gangs := (contextGangs s c.num).map (saveGang s), blocks := contextBlocks s c.num,
    cores := (s.cores.filter fun k => inPart c k.die k.core).map fun k => { k with l1 := [], icache := [], fills := [] },
    chains := s.chains.filter fun x => decide (x.ctx = c.num), jobs := s.jobs.filter fun j => decide (j.ctx = c.num),
    mailboxes := s.mailboxes.filter fun m => decide (m.ctx = c.num),
    binds := (List.range 8).flatMap fun die => ((getDie s die).binds.filter fun b => decide (b.2.ctx = c.num)).map fun b => (die, b.1, b.2) }

/-- Take a context's gangs, blocks, chains, jobs, mailboxes and bind records out of the machine. -/
def unloadContext (s : State) (n : Nat) : State :=
  { s with
      gangs := s.gangs.filter fun g => decide (g.ctx ≠ n), blocks := s.blocks.filter fun b => decide (b.ctx ≠ n),
      chains := s.chains.filter fun x => decide (x.ctx ≠ n), jobs := s.jobs.filter fun j => decide (j.ctx ≠ n),
      mailboxes := s.mailboxes.filter fun m => decide (m.ctx ≠ n),
      dies := s.dies.map fun d => { d with binds := d.binds.filter fun b => decide (b.2.ctx ≠ n) } }

/-- Write pieces to memory. -/
def writeImage (c : Context) : List (BitVec 64 × List Byte) → State → Option State
  | [], s => some s
  | p :: rest, s =>
    match deviceWrite s (contextDie s c) c.num p.1 p.2 with
    | none => none
    | some s => writeImage c rest s

/-- The command that holds the admin queue is this context's. -/
def heldFor (s : State) (op : Nat) (n : Nat) : Option (BitVec 512) :=
  match s.admin.busy with
  | some e => if entryOpcode e = BitVec.ofNat 8 op ∧ entryCtx e = n then some e else none
  | none => none

/-- The held command of an opcode for a context completes. -/
def endHeld (s : State) (op n : Nat) : State :=
  match heldFor s op n with
  | some e => adminOk s e 0#64
  | none => s

/-- CONTEXT_SAVED (R417): the state is in the shadow store and on DSTACK, the guest has met its duty, and the context is SAVED. -/
def execContextSaved (n : Nat) (s : State) : Res :=
  match findContext s n with
  | none => idle s
  | some c =>
    if c.state ≠ .preempting ∨ c.phase ≠ 2 ∨ c.shadowErr ∨ (s.guest.preempts.any fun x => decide (x.1 = n)) then idle s
    else
      match writeImage c (pendingPieces s c) s with
      | none => idle s
      | some t =>
        let t := unloadContext { t with saved := t.saved ++ [savedOf s c] } n
        .next (endHeld (modContext t n fun x => { x with state := .saved, phase := 0 }) 0x03 n)

/-! ## The restore (R420) -/

/-- Read a gang's stack entries back. -/
def restoreStack (s : State) (c : Context) (g : Gang) : Option Gang :=
  if g.arch.sp = 0 then some g
  else
    match (deviceRead s (contextDie s c) c.num (stackAddr c g.id) (16 * g.arch.sp)).2 with
    | none => none
    | some x =>
      let stack := Vector.ofFn fun (i : Fin 64) => if i.val < g.arch.sp then entryOfNat (x / 2 ^ (128 * i.val) % 2 ^ 128) else Entry.dead
      some { g with arch := { g.arch with stack := stack } }

/-- Read every gang's stack. -/
def restoreStacks (s : State) (c : Context) : List Gang → Option (List Gang)
  | [] => some []
  | g :: rest =>
    match restoreStack s c g, restoreStacks s c rest with
    | some g, some l => some (g :: l)
    | _, _ => none

/-- The partition's cores hold nothing of another context: what an image does not list of them is zero (R117, R243, R420). -/
def clearCores (s : State) (c : Context) : State :=
  { s with cores := s.cores.map fun k =>
      if inPart c k.die k.core then
        { k with tags := 0#64, codebooks := Vector.replicate 8 0#256, scratch := [], scratchPoison := [] } else k }

/-- Put an image back into the machine with the gangs given. -/
def loadContext (s : State) (c : Context) (v : Saved) (gangs : List Gang) : State :=
  let s := clearCores s c
  let s := v.cores.foldl (fun s k => modCore s k.die k.core fun x =>
    { x with tags := k.tags, codebooks := k.codebooks, scratch := k.scratch, scratchPoison := k.scratchPoison, l1 := [], icache := [], fills := [] }) s
  let s := { s with gangs := s.gangs ++ gangs, blocks := s.blocks ++ v.blocks, chains := s.chains ++ v.chains, jobs := s.jobs ++ v.jobs,
                    mailboxes := s.mailboxes ++ v.mailboxes, saved := s.saved.filter fun x => decide (x.ctx ≠ v.ctx) }
  v.binds.foldl (fun s b => modDie s b.1 fun d =>
    { d with binds := (d.binds.filter fun x => decide (x.1 < b.2.1)) ++ [(b.2.1, b.2.2)] ++ d.binds.filter fun x => decide (b.2.1 < x.1) }) s

def findSaved (s : State) (n : Nat) : Option Saved := s.saved.find? fun v => decide (v.ctx = n)

/-- CONTEXT_RESUMED (R420). -/
def execContextResumed (n : Nat) (s : State) : Res :=
  match findContext s n, findSaved s n with
  | some c, some v =>
    if c.state ≠ .resuming ∨ c.shadowErr ∨ (badPiece s c .rmw (savePieces 0 c v.gangs v.blocks)).isSome then idle s
    else
      match restoreStacks s c v.gangs with
      | none => idle s
      | some l =>
        let s := chancePart (loadContext (emptyCaches (flushPart s c) c) c v (l.map fun g => { g with halted := false })) c
        .next (endHeld (modContext s n fun x => { x with state := .active }) 0x02 n)
  | _, _ => idle s

/-! ## FAULTED (R407, R207, R399) -/

/-- Give back what a context has not started: mailboxes, spawn queues and bind records are gone, and a die group with nothing
started ends CANCELLED. -/
def dropWork (s : State) (n : Nat) : State :=
  let unplaced := fun (u : Nat) =>
    ((List.range 8).flatMap fun die => ((getDie s die).binds.filter fun b => decide (b.2.ctx = n) && decide (b.2.dgroup = u)).map fun b => b.2.left).foldl (· + ·) 0
  let cancel := fun (d : DieGroup) =>
    if d.ctx ≠ n then d
    else
      let k := unplaced d.uid
      let fail := if d.fail.isNone && decide (d.due + k > 0) then
          some { status := stCancelled, cause := 0#8, pc := 0#32, tick := s.tick, die := d.die, core := 0, kind := 0, sub := 0, seq := 0 }
        else d.fail
      { d with due := 0, left := d.left - k, fail := fail }
  { s with
      groups := s.groups.map cancel,
      mailboxes := s.mailboxes.filter fun m => decide (m.ctx ≠ n),
      dies := s.dies.map fun d => { d with binds := d.binds.filter fun b => decide (b.2.ctx ≠ n) } }

/-- Every gang of a context is killed. -/
def killGangs (s : State) (n : Nat) : State :=
  (contextGangs s n).foldl (fun s g => failGang s g stFailedKilled 0#8 0#32) s

/-- A context with the dispatchers of its dies gone. -/
def dispatcherGone (s : State) (c : Context) : Bool :=
  (List.range 8).any fun die => decide (partCores c die ≠ 0#128) && !dieLost s die
    && !s.gangs.any fun g => g.dispatcher && decide (g.ctx = c.num) && decide (g.id.die = die)

/-- The page of the event ring that the device needs next and cannot use. -/
def ringFault (s : State) (c : Context) : Option Nat :=
  if c.due = [] then none
  else if ringFull c then (if (readRidx s c).2.isNone then some (controlAddr c).toNat else none)
  else badPiece s c .write [(recordAddr c c.widx, List.replicate 32 0#8), (controlAddr c, List.replicate 4 0#8)]

/-- Why a context goes to FAULTED: the address whose page could not be used, or 0. -/
def contextFault (s : State) (c : Context) : Option Nat :=
  let ring := ringFault s c
  match c.state with
  | .active => if c.shadowErr || dispatcherGone s c then some 0 else ring
  | .preempting =>
    if c.shadowErr || dispatcherGone s c then some 0
    else match ring with
      | some a => some a
      | none => if c.phase = 2 then badPiece s c .write (pendingPieces s c) else none
  | .resuming =>
    if c.shadowErr then some 0
    else match ring with
      | some a => some a
      | none => match findSaved s c.num with
        | some v => badPiece s c .rmw (savePieces 0 c v.gangs v.blocks)
        | none => none
  | _ => none

/-- A command that waits for a context that has become FAULTED completes with CODE 2. -/
def failHeld (s : State) (n : Nat) : State :=
  let t := match heldFor s 0x03 n with
    | some e => adminFail s e 2
    | none => s
  match heldFor t 0x02 n with
  | some e => adminFail t e 2
  | none => t

/-- A context becomes FAULTED. -/
def faultContext (s : State) (c : Context) (va : Nat) : State :=
  let s := match c.state, findSaved s c.num with
    | .resuming, some v => loadContext s c v v.gangs
    | _, _ => s
  let s := dropWork (killGangs s c.num) c.num
  let s := { s with tasks := s.tasks.filter fun t => !c.task.contains t.id }
  let s := modContext s c.num fun x => { x with state := .faulted, phase := 0, task := [] }
  failHeld (logHealth s (contextDie s c) 11 (c.num % 65536) 1 va) c.num

/-- CONTEXT_FAULTED. -/
def execContextFaulted (n va : Nat) (s : State) : Res :=
  match findContext s n with
  | none => idle s
  | some c => if contextFault s c = some va then .next (faultContext s c va) else idle s

/-! ## DESTROY (R405, R407) -/

/-- A started job of a context that is destroyed has performed some prefix of what is left of its work. -/
def cutJobs (s : State) (n : Nat) : State :=
  s.jobs.foldl (fun s j =>
    if j.ctx = n ∧ j.state = .started ∧ cardKind j.card ≠ 3 then
      match findChain s j.chain with
      | some c => (performJob s c { j with cut := true }).1
      | none => s
    else s) s

/-- Failures of the jobs of a CHAIN packet (R400). -/
def chainFaults (s : State) (q : Nat) (w : BitVec 32) : Nat :=
  match (s.chains ++ s.saved.flatMap fun v => v.chains).find? fun c => decide (c.origin = .packet q w) with
  | some c => min 255 c.faults
  | none => 0

/-- Every packet of a queue that has been taken and is not complete completes CANCELLED, with the failures that it has had in `before`, the
state before the context's gangs were killed: what a DESTROY kills is none (R198, R400). -/
def cancelTaken (before s : State) (q : Queue) : State :=
  let s := (s.launches.filter fun l => decide (l.queue = q.num)).foldl (fun s l =>
    completePacket s q.num { launchRecord s (match findLaunch before l.uid with
      | some x => gathered before x
      | none => l) with status := stCancelled }) s
  let s := { s with launches := s.launches.filter fun l => decide (l.queue ≠ q.num) }
  match findQueue s q.num with
  | none => s
  | some q => q.taken.foldl (fun s t => finishTaken s q t stCancelled (chainFaults before q.num t.pindex)) s

/-- The packets of a context's queues are cancelled, the taken ones first, and the queues are gone. -/
def cancelQueues (before s : State) (n : Nat) : State :=
  let l := s.queues.filter fun q => decide (q.ctx = n)
  let s := l.foldl (cancelTaken before) s
  let s := l.foldl (fun s q => cancelPublished (2 ^ q.log2) s q.num) s
  { s with queues := s.queues.filter fun q => decide (q.ctx ≠ n) }

/-- DESTROY's own effect, its records apart. -/
def destroyContext (s : State) (n : Nat) : State :=
  let before := s
  let s := dropWork (killGangs (cutJobs s n) n) n
  let releases := ((s.groups.filter fun d => decide (d.ctx = n)).map fun d => d.task)
    ++ ((s.chains.filter fun c => decide (c.ctx = n) && c.task.isSome).map fun c => c.task)
  let s := { s with
    tasks := s.tasks.filter fun t => !releases.contains (some t.id),
    chains := s.chains.filter fun x => decide (x.ctx ≠ n), jobs := s.jobs.filter fun j => decide (j.ctx ≠ n),
    saved := s.saved.filter fun v => decide (v.ctx ≠ n), groups := s.groups.filter fun d => decide (d.ctx ≠ n) }
  let s := cancelQueues before s n
  let s := { s with kernels := s.kernels.filter fun k => decide (k.ctx ≠ n) }
  let s := { s with
    dies := s.dies.map fun d => { d with keys := d.keys.map fun k => if k.ctx = some n then { k with ctx := none } else k },
    cores := s.cores.map fun k => { k with icache := k.icache.filter (fun l => decide (l.ctx ≠ n)),
                                           fills := k.fills.filter fun l => decide (l.ctx ≠ n) } }
  modContext s n fun x => { x with state := .destroying }

/-- DESTROY. -/
def execDestroy (e : BitVec 512) (s : State) : Res :=
  adminRun e 0x04 true [] s fun s =>
    match findContext s (entryCtx e) with
    | none => adminFail s e 2
    | some c => if c.state = .destroying then adminFail s e 2 else adminHold (destroyContext s c.num) e

/-- Nothing of a context that is being destroyed is left. -/
def destroyDone (s : State) (c : Context) : Bool :=
  decide (c.due = []) && s.blocks.all (fun b => decide (b.ctx ≠ c.num)) && s.guest.jobs.all (fun j => decide (j.ctx ≠ c.num))

/-- Contexts whose DESTROY is complete are gone, with the translations the dies hold of them. -/
def endDestroys (s : State) : State :=
  s.contexts.foldl (fun s c =>
    match findContext s c.num with
    | none => s
    | some c =>
      if c.state = .destroying ∧ destroyDone s c then
        endHeld { s with contexts := s.contexts.filter fun x => decide (x.num ≠ c.num),
                         dies := s.dies.map fun d => { d with tlb := d.tlb.filter fun t => decide (t.ctx ≠ c.num) } } 0x04 c.num
      else s) s

end Sys2Proof.Machine
end

