-- ==== Sys2Proof/Machine/Device.lean ====
section
/-!
DEFINITION. Failure, power and bring-up (19_reliability R463-R470, R474; 11_page R322, R323; 01_device R27; 17_link R427): losing a
die, the fault summary, checkpoint and restore, keys, firmware, attestation, boot, the power governor and the sideband.
-/
namespace Sys2Proof.Machine

/-! ## Losing a memory die (R322, R463) -/

/-- A memory die is lost (R322, R463). -/
def loseMemoryDie (s : State) (die : Nat) : State :=
  let s := logHealth { s with lost := s.lost ||| (1#32 <<< die) } die 6 0 1 0
  loseHome s die

/-- MEMORY_DIE_LOST. -/
def execMemoryDieLost (die : Nat) (s : State) : Res :=
  if 8 ≤ die ∧ die < 24 ∧ !dieLost s die then .next (loseMemoryDie s die) else idle s

/-! ## Losing a compute die (R323, R463, R464) -/

/-- Accesses that the die had in flight at a home have been performed, or not, each as a free value says. -/
def flightEnds (s : State) (die : Nat) : State :=
  let s := s.pend.foldl (fun s p =>
    if p.gang.die = die ∧ (p.kind.posts ∨ p.kind.isStore) ∧ !olderRisk s p.gang p.op ∧ !pendHeld s p ∧ (Config.freeValue s.freeCtr 7 p.op).getLsbD 0 then performAnyway s p else s) s
  { s with pend := s.pend.filter fun p => decide (p.gang.die ≠ die) }

/-- Gangs of a die group that its die's loss kills: those of its blocks, saved ones among them. -/
def gangsLost (s : State) (d : DieGroup) : Nat :=
  let in_ := fun (bs : List Block) (gs : List Gang) =>
    (gs.filter fun g => bs.any fun b => decide (b.uid = g.block) && decide (b.dgroup = d.uid)).length
  in_ s.blocks s.gangs + (s.saved.map fun v => in_ v.blocks v.gangs).foldl (· + ·) 0

/-- Launches with a die group on the die complete DIE_LOST, unless an earlier failure of theirs comes first, and count the gangs that
are killed with it (R198, R464). -/
def launchesLost (s : State) (die : Nat) : State :=
  { s with launches := s.launches.map fun l =>
      if l.dies.contains die then
        let lost : Failure := { status := stDieLost, cause := 0#8, pc := 0#32, tick := s.tick, die := die, core := 0, kind := 0, sub := 0, seq := 0 }
        let own := s.groups.filter fun d => decide (d.die = die) && decide (d.launch = some l.uid)
        { l with dies := l.dies.filter (fun j => decide (j ≠ die)), broken := true,
                 faults := own.foldl (fun n d => n + d.faults + gangsLost s d) l.faults,
                 fail := own.foldl (fun f d => match d.fail with
                   | some x => addFailure f x
                   | none => f) (addFailure l.fail lost) }
      else l }

/-- Chains of the die's engines are gone; those of packets complete DIE_LOST, a saved context's too (R464). -/
def chainsLost (s : State) (die : Nat) : State :=
  let s := ((s.chains ++ s.saved.flatMap fun v => v.chains).filter fun c => decide (c.id.die = die) && isPacket c).foldl
    (fun s c => endChain s { c with fail := some stDieLost }) s
  { s with chains := s.chains.filter fun c => decide (c.id.die ≠ die), jobs := s.jobs.filter fun j => decide (j.chain.die ≠ die) }

/-- What a saved context had on the die is gone. -/
def savedWithout (die : Nat) (v : Saved) : Saved :=
  { v with
      gangs := v.gangs.filter fun g => decide (g.id.die ≠ die), blocks := v.blocks.filter fun b => decide (b.die ≠ die),
      cores := v.cores.filter fun c => decide (c.die ≠ die), chains := v.chains.filter fun c => decide (c.id.die ≠ die),
      jobs := v.jobs.filter fun j => decide (j.chain.die ≠ die), mailboxes := v.mailboxes.filter fun m => decide (m.die ≠ die),
      binds := v.binds.filter fun b => decide (b.1 ≠ die) }

/-- A die that is lost holds nothing any more. -/
def lostDie (d : Die) : Die := { Die.reset with clock := d.clock, frozen := d.frozen, failedCores := d.failedCores }

/-- Homes take the die's sharer bits as clear and its acknowledgements as given. -/
def homesForget (s : State) (die : Nat) : State :=
  let s : State := { s with
    homePages := s.homePages.map fun (h : HomePage) => { h with sharers := h.sharers &&& ~~~(1#8 <<< die) },
    fwds := (s.fwds.filter fun f => decide (f.die ≠ die)).map fun (f : Fwd) => { f with round := f.round.filter fun j => decide (j ≠ die) },
    owed := s.owed.filter fun o => decide (o.die ≠ die),
    msgs := s.msgs.filter fun m => match m with
      | .block d _ _ | .marker d _ | .stampNotice _ d _ _ | .atomicValue _ d _ _ _ _ _ | .drop d _ _ => decide (d ≠ die) }
  { s with homePages := s.homePages.filter fun h => decide (h.sharers ≠ 0#8) || decide (h.state ≠ .normal) }

/-- Everything that a compute die held is gone. -/
def unitsLost (s : State) (die : Nat) : State :=
  { s with
      dies := Vector.ofFn fun (i : Fin 8) => if i.val = die then lostDie s.dies[i] else s.dies[i],
      cores := s.cores.filter fun c => decide (c.die ≠ die), clusters := s.clusters.filter fun c => decide (c.die ≠ die),
      scheds := s.scheds.filter fun c => decide (c.die ≠ die), gangs := s.gangs.filter fun g => decide (g.id.die ≠ die),
      blocks := s.blocks.filter fun b => decide (b.die ≠ die), groups := s.groups.filter fun d => decide (d.die ≠ die),
      mailboxes := s.mailboxes.filter fun m => decide (m.die ≠ die), tasks := s.tasks.filter fun t => decide (t.die ≠ die),
      nts := s.nts.filter fun n => decide (n.gang.die ≠ die), wrote := s.wrote.filter fun w => decide (w.gang.die ≠ die),
      shoots := s.shoots.map fun x => { x with tasks := x.tasks.filter fun t => decide (t.1 ≠ die) },
      through := s.through.filter fun x => decide (x.gang.die ≠ die),
      samples := s.samples.filter (fun x => (findPend s x.op).isSome), saved := s.saved.map (savedWithout die) }

/-- A compute die is lost; with C0 the whole device is (R463). -/
def loseComputeDie (s : State) (die : Nat) : State :=
  if die = 0 then { s with deviceLost := true }
  else
    let s := logHealth { s with lost := s.lost ||| (1#32 <<< die) } die 6 0 1 0
    let s := unitsLost (chainsLost (launchesLost (flightEnds s die) die) die) die
    let s := loseHome (homesForget s die) die
    if die = 4 then isolate s 0 else s

/-- A die that can still be lost. -/
def canLose (s : State) (die : Nat) : Bool := decide (die < 8) && !dieLost s die

/-- COMPUTE_DIE_LOST. -/
def execComputeDieLost (die : Nat) (s : State) : Res := if canLose s die then .next (loseComputeDie s die) else idle s

/-- TIMEBASE_STOP: the die's reference counter freezes; once it is frozen, the die's scheduler core flags it (R427). -/
def execTimebaseStop (die : Nat) (s : State) : Res :=
  if !canLose s die then idle s
  else if (getDie s die).frozen.isSome then .next (loseComputeDie s die)
  else .next (modDie s die fun d => { d with frozen := some s.tick })

/-- HEARTBEAT_MISS (R463). -/
def execHeartbeatMiss (die : Nat) (s : State) : Res := if canLose s die then .next (loseComputeDie s die) else idle s

/-! ## The fault summary (R465) -/

/-- The leaves of a context's table that a lost home holds: virtual address and size, ascending. A table that stands at a lost
home itself cannot be read. -/
def lostLeaves (s : State) : Nat → Nat → Nat → Nat → List (Nat × Nat)
  | 0, _, _, _ => []
  | fuel + 1, lv, table, va =>
    if homeLost s (homeOf table) then []
    else
      (List.range (if lv = 3 then 2048 else 1024)).flatMap fun i =>
        let e := BitVec.ofNat 64 (homeNat s (table + 8 * i) 8)
        let x := va + i * entrySpan lv
        if !pteV e || pteMalformed lv e then []
        else if pteLeaf e then
          (if !pteRemote e && decide (paRegion (pteAddr e) ≤ 1) && homeLost s (homeOf (pteAddr e)) then
            [(x / pageSize e * pageSize e, pageSize e)] else [])
        else lostLeaves s fuel (lv + 1) (pteAddr e) x

/-- Each page once: a page of several entries is listed by its first. -/
def onePages : List (Nat × Nat) → List (Nat × Nat)
  | [] => []
  | x :: rest => match onePages rest with
    | y :: l => if x = y then y :: l else x :: y :: l
    | [] => [x]

/-- Runs of consecutive pages, of 64 at most: first address, page size and count. -/
def pageRuns : List (Nat × Nat) → List (Nat × Nat × Nat)
  | [] => []
  | x :: rest => match pageRuns rest with
    | y :: l => if x.1 + x.2 = y.1 ∧ x.2 = y.2.1 ∧ y.2.2 < 64 then (x.1, x.2, y.2.2 + 1) :: l else (x.1, x.2, 1) :: y :: l
    | [] => [(x.1, x.2, 1)]

/-- A 57-bit address extended to its canonical form. -/
def canonicalNat (va : Nat) : Nat := ((BitVec.ofNat 57 va).signExtend 64).toNat

/-- The entries of a context. -/
def faultEntries (s : State) (c : Context) : List (List Byte) :=
  (pageRuns (onePages (lostLeaves s 4 1 c.root.toNat 0))).map fun r =>
    bytesOfNat 8 c.num ++ bytesOfNat 8 (canonicalNat r.1 + (r.2.2 - 1))

/-- Contexts in ascending number. -/
def insertContext (c : Context) : List Context → List Context
  | [] => [c]
  | x :: rest => if c.num < x.num then c :: x :: rest else x :: insertContext c rest

/-- The fault summary. -/
def faultSummary (s : State) : List (List Byte) := (s.contexts.foldl (fun l c => insertContext c l) []).flatMap (faultEntries s)

/-- A result written to a host buffer, then the command's RESULT. -/
def adminWrite (s : State) (e : BitVec 512) (a : Nat) (bytes : List Byte) (result : BitVec 64) : State :=
  match hostWrite s a bytes with
  | none => adminIoFail s e
  | some s => adminOk s e result

/-- FAULTSUM. -/
def execFaultsum (e : BitVec 512) (s : State) : Res :=
  adminRun e 0x11 false [(8, 0, 64), (16, 0, 16)] s fun s =>
    let l := faultSummary s
    if l.length > entryField e 16 0 16 then adminFail s e 3
    else adminWrite s e (entryWord e 8).toNat l.flatten (BitVec.ofNat 64 l.length)

/-- An entry of the health log in memory (R462). -/
def healthBytes (h : HealthEntry) : List Byte :=
  bytesOfNat 8 h.tick ++ bytesOfNat 1 h.die ++ bytesOfNat 1 h.kind ++ bytesOfNat 2 h.unit ++ bytesOfNat 4 h.count ++ bytesOfNat 8 h.addr
    ++ bytesOfNat 8 0

/-- HEALTHRD (R474). -/
def execHealthrd (e : BitVec 512) (s : State) : Res :=
  adminRun e 0x10 false [(8, 0, 64), (16, 0, 16), (16, 32, 16)] s fun s =>
    let l := (s.health.drop (entryField e 16 32 16)).take (entryField e 16 0 16)
    adminWrite s e (entryWord e 8).toNat (l.flatMap healthBytes) (BitVec.ofNat 64 (l.length + 2 ^ 32 * s.healthLoss.toNat))

/-! ## Keys (R340, R474) -/

/-- A key slot of a die. -/
def findKey (d : Die) (slot : Nat) : Option KeySlot := d.keys.find? fun k => decide (k.slot = slot)

/-- Put a slot's record, or with none erase it. -/
def putKey (s : State) (die slot : Nat) (k : Option KeySlot) : State :=
  modDie s die fun d => { d with keys := (d.keys.filter fun x => decide (x.slot ≠ slot)) ++ k.toList }

/-- A fresh key and salt for a slot. -/
def drawKey (s : State) (slot : Nat) (ctx : Option Nat) : State × KeySlot :=
  ({ s with nextUid := s.nextUid + 1 },
   { slot := slot, key := Config.keyMaterial s.nextUid, salt := BitVec.ofNat 32 (Config.salt s.nextUid).toNat, ctx := ctx })

/-- KEYBIND. -/
def execKeybind (e : BitVec 512) (s : State) : Res :=
  adminRun e 0x17 true [(8, 0, 3), (16, 0, 6), (24, 0, 2)] s fun s =>
    let die := entryField e 8 0 3
    let slot := entryField e 16 0 6
    if slot = 63 then adminFail s e 1
    else if dieLost s die then adminFail s e 2
    else if entryField e 24 1 1 = 1 then adminOk (putKey s die slot none) e 0#64
    else if entryField e 24 0 1 = 1 then
      let r := drawKey s slot (some (entryCtx e))
      adminOk (putKey r.1 die slot (some r.2)) e (r.2.salt.setWidth 64)
    else
      match findKey (getDie s die) slot with
      | none => adminFail s e 2
      | some k => adminOk (putKey s die slot (some { k with ctx := some (entryCtx e) })) e (k.salt.setWidth 64)

/-! ## The safe tier (R466) -/

/-- SAFETIER. -/
def execSafetier (e : BitVec 512) (s : State) : Res :=
  adminRun e 0x12 false [(8, 0, 3), (16, 0, 41), (24, 0, 64)] s fun s =>
    let first := entryField e 16 0 41
    let len := (entryWord e 24).toNat
    if first % 64 ≠ 0 ∨ len < 108125000000 ∨ first + len > 2 ^ 41 then adminFail s e 1
    else adminOk (modDie s (entryField e 8 0 3) fun d => { d with safeTier := some (first, len) }) e 0#64

/-- Address of a byte behind a die's CXL port (R288). -/
def cxlAddr (die off : Nat) : Nat := 2 ^ 44 + die * 2 ^ 41 + off

/-- Bytes of part p of a stack, and its address in stack k. -/
def partBytes (p : Nat) : Nat := if p = 22 then 755359744 else 2147483648
def partAddr (k p : Nat) : Nat := k * 2 ^ 40 + p * 2147483648

/-- JOBCTR of a part. -/
def partCtr (gen k p : Nat) : Nat := gen * 512 + k * 32 + p

/-- Records of a zero-run stream (R339): whether a zero run, and its words. -/
def recordList : Nat → List Byte → List (Bool × Nat)
  | 0, _ => []
  | fuel + 1, l =>
    if l.length < 2 then []
    else
      let h := natOfBytes (l.take 2)
      let n := h % 32768 + 1
      if h ≥ 32768 then (true, n) :: recordList fuel (l.drop 2) else (false, n) :: recordList fuel (l.drop (2 + 4 * n))

/-- Where in the stream a word of the input stands: its own bytes in a literal, the record of its zero run. -/
def wordPlace : List (Bool × Nat) → Nat → Nat → Nat
  | [], _, o => o
  | (z, n) :: rest, w, o =>
    if w < n then (if z then o else o + 2 + 4 * w)
    else wordPlace rest (w - n) (if z then o + 2 else o + 2 + 4 * n)

/-- The block of 256 stream bytes in which each of `n` lines begins. -/
def lineBlocks (stream : List Byte) (n : Nat) : List Nat :=
  let r := recordList stream.length stream
  (List.range n).map fun i => wordPlace r (32 * i) 0 / 256

/-- The blocks of one part, each with its trailer; the reserved word is all ones in a block where a poisoned line begins. -/
def sealPart (key : KeySlot) (ctr ulen : Nat) (poisoned : Nat → Bool) (l : List Byte) : List (List Byte) :=
  let stream := zeroStream (wordsOfBytes l)
  let bad := ((lineBlocks stream (ulen / 128)).zip (List.range (ulen / 128))).filterMap fun x => if poisoned x.2 then some x.1 else none
  (List.range ((stream.length + 255) / 256)).map fun i =>
    let part := (stream.drop (256 * i)).take 256
    let header := (blockHeader 1 0 part.length ulen i).take 12 ++ bytesOfNat 4 (if bad.contains i then 2 ^ 32 - 1 else 0)
    sealBlock (some key) ctr i header (part ++ List.replicate (256 - part.length) 0#8)

/-- The checkpoint's key on a die, drawn when there is none or the generation wraps. -/
def tierKey (s : State) (die : Nat) (fresh : Bool) : State × KeySlot :=
  match findKey (getDie s die) 63, fresh with
  | some k, false => (s, k)
  | _, _ =>
    let r := drawKey s 63 none
    (putKey r.1 die 63 (some r.2), r.2)

/-- Range of a die. -/
def tierRange (s : State) (die : Nat) : Nat × Nat :=
  match (getDie s die).safeTier with
  | some x => x
  | none => (0, 0)

/-- Every die has a range. -/
def tierReady (s : State) : Bool := (List.range 8).all fun j => (getDie s j).safeTier.isSome

/-- Stream part p of stack k: the machine, the place after it in the die's range, and its trailers. -/
def streamPart (gen : Nat) (fresh : Bool) (x : State × Nat × List Byte) (kp : Nat × Nat) : State × Nat × List Byte :=
  let die := kp.1 / 2
  let s := x.1
  let first := kp.1 % 2 = 0 ∧ kp.2 = 0
  let pos := if first then (tierRange s die).1 else x.2.1
  let r := tierKey s die (fresh && decide first)
  let s := r.1
  let base := partAddr kp.1 kp.2
  let blocks := sealPart r.2 (partCtr gen kp.1 kp.2) (partBytes kp.2) (fun i => s.poison.contains (base / 128 + i)) (cellsRead s.mem base (partBytes kp.2))
  (homeWrite s (cxlAddr die pos) blocks.flatten, pos + 288 * blocks.length, x.2.2 ++ blocks.flatMap fun b => b.drop 256)

/-- Stacks and parts in order. -/
def tierParts : List (Nat × Nat) := (List.range 16).flatMap fun k => (List.range 23).map fun p => (k, p)

/-- Address of the manifest, at the end of C0's range. -/
def manifestAddr (s : State) : Nat := let r := tierRange s 0; cxlAddr 0 (r.1 + r.2 - 128)

/-- The manifest. -/
def manifestBytes (gen flag : Nat) (digest : BitVec 512) : List Byte :=
  bytesOfNat 8 gen ++ bytesOfNat 8 flag ++ bytesOfNat 64 digest.toNat ++ List.replicate 48 0#8

/-- SHA3-512 of bytes, its first byte lowest. -/
def digestOf (l : List Byte) : BitVec 512 := sha3 l

/-- Every home that a checkpoint uses is there. -/
def tierThere (s : State) : Bool := (List.range 24).all fun h => !homeLost s h

/-- Clean RDC lines are dropped, so that every byte stands at its home. -/
def dropClean (s : State) : State := { s with dies := s.dies.map fun d => { d with sheets := d.sheets.filter fun x => decide (x.state ≠ .clean) } }

/-- The completion flag is cleared. -/
def clearFlag (s : State) : State := if homeLost s 0 then s else homeWrite s (manifestAddr s + 8) (bytesOfNat 8 0)

/-- The contexts as a checkpoint keeps them (R466; log 177). -/
def imageOf (s : State) : Image :=
  { contexts := s.contexts, saved := s.saved, kernels := s.kernels, queues := s.queues, launches := s.launches, groups := s.groups }

/-- Flush, stream and record: steps 2 to 4 of a checkpoint. -/
def writeCheckpoint (s : State) (e : BitVec 512) : State :=
  if !tierThere s then adminFail s e 4
  else
    let gen := s.generation + 1#23
    let r := tierParts.foldl (streamPart gen.toNat (decide (gen = 0#23))) (dropClean s, 0, [])
    let s := homeWrite r.1 (manifestAddr r.1) (manifestBytes gen.toNat 1 (digestOf r.2.2))
    adminOk { s with generation := gen, imaged := imageOf s } e (gen.setWidth 64)

/-- Begin a command that quiesces the contexts first. -/
def beginTier (s : State) (e : BitVec 512) : State :=
  let s := (s.contexts.filter fun c => decide (c.state = .active)).foldl (fun s c => beginPreempt s c.num) s
  adminHold s e

/-- CHECKPOINT, step 1; the rest follows once the contexts are SAVED. -/
def execCheckpoint (e : BitVec 512) (s : State) : Res :=
  adminRun e 0x13 false [] s fun s => if tierReady s then beginTier (clearFlag s) e else adminFail s e 2

/-! ### RESTORE -/

/-- Decode a part from its place: its bytes, the blocks' reserved words and the stream, the place after it and its trailers; none
where a block does not open. -/
def openPart (s : State) (key : KeySlot) (ctr ulen die : Nat) : Nat → Nat → Nat → List Byte → List Nat → List Byte →
    Option (List Byte × List Byte × List Nat × Nat × List Byte)
  | 0, _, _, _, _, _ => none
  | fuel + 1, pos, i, got, marks, trailers =>
    let block := cellsRead s.mem (cxlAddr die pos) 288
    match openBlock (some key) ctr i ulen block with
    | .inl _ => none
    | .inr p =>
      let got := got ++ p
      let marks := marks ++ [natOfBytes ((block.drop 268).take 4)]
      let trailers := trailers ++ block.drop 256
      let r := zeroExpand (got.length + 1) ulen got
      if !r.2 then none
      else if r.1.length = ulen then some (r.1, got, marks, pos + 288, trailers)
      else openPart s key ctr ulen die fuel (pos + 288) (i + 1) got marks trailers

/-- A decoded part: its stack and number, bytes, and poisoned lines. -/
structure TierPart where
  k : Nat
  p : Nat
  bytes : List Byte
  bad : List Nat
  deriving DecidableEq, Repr

/-- Decode parts in order, up to the first that does not open. -/
def openParts (s : State) (gen : Nat) : List (Nat × Nat) → Nat → List TierPart → List Byte → List TierPart × Option (List Byte)
  | [], _, l, trailers => (l, some trailers)
  | (k, p) :: rest, pos, l, trailers =>
    let die := k / 2
    let pos := if k % 2 = 0 ∧ p = 0 then (tierRange s die).1 else pos
    match findKey (getDie s die) 63 with
    | none => (l, none)
    | some key =>
      match openPart s key (partCtr gen k p) (partBytes p) die 20000000 pos 0 [] [] [] with
      | none => (l, none)
      | some (bytes, stream, marks, next, t) =>
        let lines := lineBlocks stream (partBytes p / 128)
        let bad := (List.range (partBytes p / 128)).filter fun i => decide (marks.getD (lines.getD i 0) 0 ≠ 0)
        openParts s gen rest next (l ++ [{ k := k, p := p, bytes := bytes, bad := bad }]) (trailers ++ t)

/-- Write a decoded part into its stack. -/
def writePart (s : State) (x : TierPart) : State :=
  let base := partAddr x.k x.p
  let s := homeWrite s base x.bytes
  { s with poison := s.poison ++ x.bad.map fun i => base / 128 + i }

/-- The contexts of the checkpoint take the place of the machine's own, all SAVED that were ACTIVE before it (R466; log 177). -/
def restoreContexts (s : State) : State :=
  let i := s.imaged
  { s with contexts := i.contexts, saved := i.saved, kernels := i.kernels, queues := i.queues, launches := i.launches, groups := i.groups,
           dies := s.dies.map fun d => { d with tlb := [] } }

/-- The rest of a RESTORE, with every context quiet. -/
def readCheckpoint (s : State) (e : BitVec 512) : State :=
  if !tierThere s then adminFail s e 4
  else
    let m := cellsRead s.mem (manifestAddr s) 128
    let gen := natOfBytes (m.take 8)
    let any := entryField e 8 63 1 = 1
    if natOfBytes ((m.drop 8).take 8) = 0 ∨ gen ≥ 2 ^ 23 ∨ (¬any ∧ gen ≠ entryField e 8 0 23) then adminFail s e 4
    else
      let r := openParts s gen tierParts 0 [] []
      match r.2 with
      | none => adminFail (r.1.foldl writePart (dropClean s)) e 4
      | some t =>
        if natOfBytes ((m.drop 16).take 64) ≠ (digestOf t).toNat then adminFail s e 4
        else adminOk (restoreContexts (r.1.foldl writePart (dropClean s))) e (BitVec.ofNat 64 gen)

/-- RESTORE: contexts are SAVED first; then those of the checkpoint stand SAVED. -/
def execRestore (e : BitVec 512) (s : State) : Res :=
  adminRun e 0x14 false [(8, 0, 23), (8, 63, 1)] s fun s => if tierReady s then beginTier s e else adminFail s e 2

/-- No context is being pre-empted or resumed. -/
def contextsQuiet (s : State) : Bool :=
  s.contexts.all fun c => match c.state with
    | .active | .preempting | .resuming => false
    | _ => true

/-- A CHECKPOINT or RESTORE that holds the queue goes on once every context is quiet. -/
def stepTier (s : State) : State :=
  match s.admin.busy with
  | none => s
  | some e =>
    if !contextsQuiet s then s
    else if entryOpcode e = 0x13#8 then writeCheckpoint s e
    else if entryOpcode e = 0x14#8 then readCheckpoint s e
    else s

/-! ## Boot and attestation (R468, R469) -/

/-- M_i := SHA3-512(M_i ‖ digest). -/
def extend (m d : BitVec 512) : BitVec 512 := digestOf (bytesOfNat 64 m.toNat ++ bytesOfNat 64 d.toNat)

/-- An image of a digest is accepted: its signature is valid and its version not below the fused counter. -/
def imageOk (s : State) (d : BitVec 512) : Bool := Config.imageValid d && decide (s.fuseVer.toNat ≤ (Config.imageVersion d).toNat)

/-- Load and verify the images in order: their measurements, and whether all are accepted. -/
def verifyImages (s : State) : List Nat → Vector (BitVec 512) 8 → Vector (BitVec 512) 8 × Bool
  | [], m => (m, true)
  | i :: rest, m =>
    let d := s.firmware.get (Fin.ofNat 3 i)
    if imageOk s d then verifyImages s rest (Vector.ofFn fun k => if k.val = i then extend (m.get k) d else m.get k) else (m, false)

/-- Links begin to train (R423, R468 step 4); those of lost dies fail, and a guest attachment without a guest or without die 4 stays
DOWN (R28). -/
def trainLinks (s : State) (lost : BitVec 32) : State :=
  { s with links := s.links.map fun l =>
      if noGuest lost l.id then l
      else if linkGone lost l.id then { l with state := .failed, since := s.tick }
      else { l with state := .training, since := s.tick } }

/-- POWER_GOOD (R468), steps 1 to 4: verification, the beginning of training, and the dies that are lost at this point, those that have
stopped with a strap fault among them (R27, R28). -/
def execPowerGood (lost : BitVec 32) (s : State) : Res :=
  let lost := (lost ||| s.strapFault.setWidth 32) &&& 0xFFFFFF#32
  if s.admin.bootst ≠ 1 ∨ s.admin.boot.isSome then idle s
  else if lost.getLsbD 0 then .next { s with deviceLost := true }
  else
    let v := verifyImages s [0, 1, 2] s.measure
    let a := { s.admin with boot := some (if v.2 then 0 else 2), secver := Config.imageVersion (s.firmware.get (Fin.ofNat 3 0)) }
    let s := trainLinks { s with lost := lost, measure := v.1, admin := a } lost
    .next ((List.range 24).foldl (fun s j => if lost.getLsbD j then logHealth s j 6 0 1 0 else s) s)

/-- Boot ends, and the admin queue opens, once no link trains any more (R468, step 5). -/
def endBoot (s : State) : State :=
  match s.admin.boot with
  | some v =>
    if s.links.any fun l => decide (l.state = .training) then s
    else { s with admin := { s.admin with bootst := v, boot := none } }
  | none => s

/-- FWUPDATE: the image is verified and installed; the next boot loads it. -/
def execFwupdate (e : BitVec 512) (s : State) : Res :=
  adminRun e 0x18 false [(8, 0, 64), (16, 0, 64)] s fun s =>
    match hostRead s (entryWord e 8).toNat (entryWord e 16).toNat with
    | none => adminIoFail s e
    | some l =>
      let d := digestOf l
      if imageOk s d then adminOk { s with firmware := s.firmware.set 0 d } e 0#64 else adminFail s e 4

/-- Bytes +0 to +791 of a report. -/
def reportBytes (s : State) (nonce : List Byte) : List Byte :=
  nonce ++ bytesOfNat 8 s.admin.devid.toNat ++ bytesOfNat 8 s.admin.secver.toNat
    ++ s.measure.toList.flatMap (fun m => bytesOfNat 64 m.toNat) ++ bytesOfNat 64 s.guest.digest.toNat
    ++ bytesOfNat 8 (s.lost.toNat % 2 ^ 25) ++ s.dies.toList.flatMap fun d => bytesOfNat 16 d.failedCores.toNat

/-- ATTEST. -/
def execAttest (e : BitVec 512) (s : State) : Res :=
  adminRun e 0x16 false [(8, 0, 64), (16, 0, 64), (24, 0, 64)] s fun s =>
    match hostRead s (entryWord e 8).toNat 64 with
    | none => adminIoFail s e
    | some nonce =>
      if (entryWord e 24).toNat < 5419 then adminFail s e 3
      else
        let r := reportBytes s nonce
        adminWrite s e (entryWord e 16).toNat (r ++ (List.range 4627).map (Config.signature r)) 5419#64

/-! ## Power (R467) and straps (R27) -/

/-- An event of a sensor is logged with its number and its reading (R462). -/
def sensorEvent (s : State) (die sensor : Nat) : State :=
  logHealth s die 9 (sensor % 65536) 1 (Config.sensor (sensor % 65536) s.tick).toNat

/-- A power or thermal event of a die, which of its sensors a free value says, is logged; the arithmetic clock, which changes only
timing, becomes `f` of what it was. -/
def powerEvent (s : State) (die : Nat) (f : Nat → Nat) : State :=
  sensorEvent (modDie s die fun d => { d with clock := f d.clock }) die (Config.freeValue s.freeCtr 17 die).toNat

/-- SUPPLY_DROOP: the governor stretches the clock by a step. -/
def execSupplyDroop (die : Nat) (s : State) : Res :=
  if die < 8 ∧ !dieLost s die then .next (powerEvent s die fun c => max 400 (c - 20)) else idle s

/-- THERMAL_LIMIT: above the junction limit the clock is held at its lowest step. -/
def execThermalLimit (die : Nat) (above : Bool) (s : State) : Res :=
  if die < 8 ∧ !dieLost s die then
    let hot := if above then s.hot ||| (1#8 <<< die) else s.hot &&& ~~~(1#8 <<< die)
    .next (powerEvent { s with hot := hot } die fun _ => if above then 400 else 940)
  else idle s

/-- A die's governor lowers its clock by a step of 20 MHz to hold the power cap, or raises it again; one above the junction limit stays at the
lowest step (R467; log 173). -/
def governClock (s : State) (die : Nat) (lower : Bool) : State :=
  let c := (getDie s die).clock
  let c' := if lower then max 400 (c - 20) else min 940 (c + 20)
  if die ≥ 8 ∨ dieLost s die ∨ s.hot.getLsbD die ∨ (lower ∧ s.powerCap = 0) ∨ c' = c then s else powerEvent s die fun _ => c'

/-- BOARD_POWER_FAULT: on a TVD7-M the device is lost, as with C0. -/
def execBoardPowerFault (sensor : Nat) (s : State) : Res :=
  if s.form = 2 then .next { sensorEvent s 0 sensor with deviceLost := true } else idle s

/-- STRAP_CHANGE: a TVD7-D whose straps change before it has booted stops and reports the fault; the others boot without it (R27, R28). -/
def execStrapChange (die : Nat) (s : State) : Res :=
  if s.form = 1 ∧ die < 8 ∧ s.admin.bootst = 1 ∧ s.admin.boot.isNone then
    .next { logHealth s die 10 0 1 0 with strapFault := s.strapFault ||| (1#8 <<< die) }
  else idle s

/-! ## The sideband (R470) -/

/-- BOOTST, above it which dies are lost (R28), and the strap faults (R27). -/
def bootStatus (s : State) : BitVec 256 :=
  BitVec.ofNat 256 (s.admin.bootst % 256 + 256 * s.lost.toNat + 2 ^ 64 * s.strapFault.toNat)

/-- What the sideband reads. -/
def sidebandValue (s : State) : SidebandItem → BitVec 256
  | .healthLog i => BitVec.ofNat 256 (natOfBytes (match s.health[i]? with
      | some h => healthBytes h
      | none => []))
  | .bootStatus => bootStatus s
  | .sensor n => (Config.sensor n s.tick).setWidth 256

/-- SIDEBAND_READ. -/
def execSidebandRead (item : SidebandItem) (s : State) : Res := .next { s with sideband := s.sideband ++ [sidebandValue s item] }

/-- The machine after a package reset: as State.reset, but for what lies outside the package or outlasts a reset: the environment,
the contents of memory, the installed images, the fused counter, and the checkpoint's key and generation. -/
def packageReset (s : State) : State :=
  { State.reset with
      agenda := s.agenda, turn := s.turn, freeCtr := s.freeCtr, mem := s.mem, hostMem := s.hostMem, hostHoles := s.hostHoles,
      form := s.form, firmware := s.firmware, fuseVer := s.fuseVer, generation := s.generation, sideband := s.sideband,
      nextUid := s.nextUid, imaged := s.imaged,
      dies := s.dies.map fun d => { Die.reset with keys := d.keys.filter fun k => decide (k.slot = 63) } }

/-- SIDEBAND_RESET. -/
def execSidebandReset (s : State) : Res := .next (packageReset s)

end Sys2Proof.Machine
end

