-- ==== Sys2Proof/Machine/Matrix.lean ====
section
/-!
DEFINITION. The matrix array (13_matrix R349-R366): tile addresses, operand-fetch checks, exact chunk sums, and MMA, MMASP, MMAX,
MMACB, MCBLD and MSTT with the steps MATRIX_OPERAND_FETCH and MATRIX_RESULT.
-/
namespace Sys2Proof.Machine

/-! ## Tiles (R349, R350, R333) -/

/-- Kt and its chunks (R349). -/
def fmtK (f : Fmt) : Nat := 512 / fmtSlot f
def fmtChunks (f : Fmt) : Nat := fmtK f / 32

/-- The target of `n` bytes at a tile address, its low bits below `al` cleared: none outside the allocation (R350). -/
def tileTarget (c : Ctx) (a : Opnd) (al n : Nat) : Option Target :=
  let t := scalarOf c a
  let r := if t.getLsbD 35 then spaceTarget c.s c.g .cscratch (alignTo (cutAddr .cscratch t) al) n .rmw
    else spaceTarget c.s c.g .scratch (alignTo (cutAddr .scratch t) al) n .rmw
  match r.2 with
  | .inr t => some t
  | .inl _ => none

/-- The K-run of row r as a number. -/
def rowRun (tile : List Byte) (r : Nat) : Nat :=
  natOfBytes ((List.range 64).map fun b => tile.getD (64 + tilePlace r b) 0#8)

/-- Element codes of the rows of a tile (R333, R115). -/
def tileCodes (f : Fmt) (tile : List Byte) : List (List Nat) :=
  (List.range 32).map fun r =>
    let x := rowRun tile r
    (List.range (fmtK f)).map fun k => x / 2 ^ (fmtSlot f * k) % 2 ^ fmtWidth f

/-- The scale byte of row r, chunk c. -/
def tileScale (tile : List Byte) (r c : Nat) : Nat := (tile.getD (2112 + 4 * r + c) 0#8).toNat

/-- The header check of R354: `role` 1 for B, `sparse` for A of MMASP, `cb` the slot that MMACB names. -/
def headerBad (f : Fmt) (role sparse : Bool) (cb : Option Nat) (tile : List Byte) : Bool :=
  let h := tile.getD 0 0#8
  let x := tile.getD 1 0#8
  decide ((h.extractLsb' 0 4).toNat ≠ f.code) || (h.getLsbD 7 != role) || (h.getLsbD 6 != sparse)
    || decide (x.extractLsb' 3 5 ≠ 0#5) || ((tile.drop 2).take 2 ++ (tile.drop 8).take 56).any (fun b => decide (b ≠ 0#8))
    || (match cb with
      | some n => decide ((x.extractLsb' 0 3).toNat ≠ n)
      | none => false)
def planesBad (tile : List Byte) : Bool := decide ((tile.drop 2112).take 128 ≠ (tile.drop 2240).take 128)
def crcBad (tile : List Byte) : Bool :=
  (tile.getD 0 0#8).getLsbD 5 && decide ((crc32c ((tile.drop 64).take 2048)).toNat ≠ natOfBytes ((tile.drop 4).take 4))

/-- sr.tval of MMA_CHECK: the checks that fail (R354). -/
def checkBits (f : Fmt) (sparse : Bool) (cbA cbB : Option Nat) (metaBad : Bool) (ta tb : List Byte) : BitVec 64 :=
  let b := fun (x : Bool) (k : Nat) => if x then 1#64 <<< k else 0#64
  b (headerBad f false sparse cbA ta) 0 ||| b (headerBad f true false cbB tb) 1 ||| b (planesBad ta) 2 ||| b (planesBad tb) 3
    ||| b (crcBad ta) 4 ||| b (crcBad tb) 5 ||| b metaBad 6

/-! ## Element values (R355, R356) -/

/-- A value times a power of two. -/
def scaleVal (v : FVal) (k : Int) : FVal :=
  match v with
  | .fin neg m e => .fin neg m (e + k)
  | v => v

/-- How the elements of a tile are read: in MMAX with their scale, in MMACB through a codebook. -/
inductive ElemRead where
  | plain
  | scaled
  | book (b : BitVec 256)
  deriving DecidableEq, Repr

/-- The value of an element code under a scale byte (R355, R116). -/
def readElem (f : Fmt) (m : ElemRead) (scale code : Nat) : FVal :=
  match m with
  | .plain => elemVal f code
  | .scaled => if scale = 255 then .nan else scaleVal (elemVal f code) ((scale : Int) - 127 - (if f = .i8 then 6 else 0))
  | .book b => fdecode ffBf16 (codebookEntry b code)

def isNanVal (v : FVal) : Bool := decide (v = .nan)

/-- NZ: a NaN is taken as +0 (R356). -/
def nzVal (nz : Bool) (v : FVal) : FVal := if nz && isNanVal v then .fin false 0 0 else v

/-- The values of a tile's rows. -/
def tileVals (f : Fmt) (m : ElemRead) (tile : List Byte) : List (List FVal) :=
  (tileCodes f tile).zipIdx.map fun row => row.1.zipIdx.map fun x => readElem f m (tileScale tile row.2 (x.2 / 32)) x.1

def countNans (l : List (List FVal)) : Nat := (l.map fun row => (row.filter isNanVal).length).foldl (· + ·) 0

/-! ## Chunk sums (R128, R357) -/

/-- The exact product of two elements. -/
def prodVal (x y : FVal) : FVal :=
  match x, y with
  | .nan, _ | _, .nan => .nan
  | .inf a, .inf b => .inf (a != b)
  | .inf a, .fin b m _ => if m = 0 then .nan else .inf (a != b)
  | .fin a m _, .inf b => if m = 0 then .nan else .inf (a != b)
  | .fin a m e, .fin b n g => .fin (a != b) (m * n) (e + g)

/-- Least exponent of finite values. -/
def minExp (l : List FVal) : Int :=
  l.foldl (fun k v => match v with
    | .fin _ _ e => min k e
    | _ => k) 0

/-- A finite value on the scale of 2^k. -/
def atScale (k : Int) (v : FVal) : Int :=
  match v with
  | .fin neg m e => signed neg (m * 2 ^ (e - k).toNat)
  | _ => 0

def isInf (neg : Bool) (v : FVal) : Bool := decide (v = .inf neg)
def isNegZero (v : FVal) : Bool :=
  match v with
  | .fin true 0 _ => true
  | _ => false

/-- The exact sum of products, rounded once to FP32 (R128). -/
def chunkSum (l : List FVal) : Word :=
  if l.any isNanVal || (l.any (isInf false) && l.any (isInf true)) then 0x7FC00000#32
  else if l.any (isInf false) then 0x7F800000#32
  else if l.any (isInf true) then 0xFF800000#32
  else
    let k := minExp l
    let x : Int := (l.map (atScale k)).foldl (· + ·) 0
    if x = 0 then (if l.all isNegZero then 0x80000000#32 else 0#32)
    else BitVec.ofNat 32 (packFinite ffF32 .rne 0 false { neg := decide (x < 0), m := x.natAbs, e := k, sticky := false }).1

/-- The exact integer sum of products (R357, ACC 1). -/
def chunkInt (l : List FVal) : Int := (l.map (atScale 0)).foldl (· + ·) 0

/-- One accumulation step. -/
def accStep (i32 : Bool) (acc : Word) (p : List FVal) : Word :=
  if i32 then acc + BitVec.ofInt 32 (chunkInt p) else (f32AddRne acc (chunkSum p)).1

/-- Chunk c of a row. -/
def chunkOf (row : List FVal) (c : Nat) : List FVal := (row.drop (32 * c)).take 32

/-- D[i][j] of a dense product. -/
def denseElem (i32 : Bool) (chunks : Nat) (a b : List FVal) (acc : Word) : Word :=
  (List.range chunks).foldl (fun x c => accStep i32 x ((chunkOf a c).zipWith prodVal (chunkOf b c))) acc

/-- Columns of results from columns of accumulators. -/
def denseCols (i32 : Bool) (chunks : Nat) (va vb : List (List FVal)) (acc : List (List Word)) : List (List Word) :=
  (List.range 32).map fun j => (List.range 32).map fun i =>
    denseElem i32 chunks (va.getD i []) (vb.getD j []) ((acc.getD j []).getD i 0#32)

/-- MMASP's B elements for a row of A: kept value m meets element 4·⌊m/2⌋ + idx of the chunk (R358). -/
def sparsePick (chunk : List FVal) (idx : Word) : List FVal :=
  (List.range 16).map fun m => chunk.getD (4 * (m / 2) + (idx.extractLsb' (2 * m) 2).toNat) (.fin false 0 0)

def sparseCols (i32 : Bool) (kept chunk : List (List FVal)) (idx : List Word) (acc : List (List Word)) : List (List Word) :=
  (List.range 32).map fun j => (List.range 32).map fun i =>
    accStep i32 ((acc.getD j []).getD i 0#32) ((kept.getD i []).zipWith prodVal (sparsePick (chunk.getD j []) (idx.getD i 0#32)))

/-! ## Issue (R351, R359, R361) -/

/-- The lanes of a group of registers at issue. -/
def groupWords (a : Arch) (o : Opnd) (n : Nat) : List (List Word) :=
  match o with
  | .v r => (List.range n).map fun k => (List.range 32).map fun i => vregVal (a.vreg (groupReg r k)) i
  | _ => List.replicate n (List.replicate 32 0#32)

/-- Slots that a group of registers holds. -/
def groupSlots (a : Arch) (o : Opnd) (n : Nat) : Nat :=
  match o with
  | .v r => ((List.range n).map fun k => vregSlots (a.vreg (groupReg r k))).foldl (· + ·) 0
  | _ => 0

/-- A matrix operation of the core's array. -/
def isMatrix (die core : Nat) (p : Pend) : Bool :=
  decide (p.gang.die = die) && decide (p.gang.core = core) && (match p.kind with
    | .mat _ _ _ _ | .image true _ _ _ _ _ => true
    | _ => false)

/-- The array has been idle and asks for leave (R361). -/
def matAsk (c : Ctx) : Bool :=
  idleUnit c.s c.g.id.die (getCore c.s c.g.id.die c.g.id.core).matIdle && !c.s.pend.any (isMatrix c.g.id.die c.g.id.core)

/-- Issue a matrix operation that the array performs: registers `a` after the issue, registers held, and the operation. -/
def matSend (c : Ctx) (a : Arch) (dsts : List Opnd) (kind : PendKind) : Res :=
  let ask := matAsk c
  c.commitWith (a.advance c.x) fun s =>
    let t := addPend s c [] dsts kind
    if ask then askLeave t c.g.id.die (.pend s.nextOp s.tick) else t

/-- A product form at issue: its reads, its 1,024 slots, its tile addresses. `cols` is what it reads of registers (R351, R359). -/
def productOp (h : Head) (i : Instr) (d a b e : Opnd) (reads : Reads) (eN : Nat) (cols : Arch → List (List Word)) (s : State) : Res :=
  issue s h.guard fun c =>
    match deadCheck c.a reads with
    | some x => c.halt x
    | none =>
      let kills := killsOf h (a, 1) (b, 1) (e, eN)
      if c.act = 0#32 then c.commit (killRegs c.a kills)
      else
        match readCheck c.a fullMask reads with
        | some x => c.halt x
        | none =>
          let k := killRegs c.a kills
          let r := { k with reserved := k.reserved + (1024 - groupSlots k d 32) }
          match slotExcess c.s c.g r with
          | some n => c.trap cRunOverflow (BitVec.ofNat 64 n)
          | none =>
            match tileTarget c a 64 2560, tileTarget c b 64 2560 with
            | none, _ => c.trap cProtection (scalarOf c a)
            | some _, none => c.trap cProtection (scalarOf c b)
            | some ta, some tb => matSend c r (groupOpnds d 32) (.mat i false [ta, tb] (cols c.a))

/-- Accumulators of the dense forms: the C field's, or zeros (R357). -/
def denseIn (e : Opnd) (a : Arch) : List (List Word) := groupWords a e 32

def denseReads (a b e : Opnd) : Reads := [(a, 1), (b, 1), (e, 32)]

/-- MMA (R357). -/
def execMma (h : Head) (d a b e : Opnd) (m : MatMod) (s : State) : Res :=
  productOp h (.mma h d a b e m) d a b e (denseReads a b e) 32 (denseIn e) s

/-- MMAX (R355). -/
def execMmax (h : Head) (d a b e : Opnd) (m : MatMod) (s : State) : Res :=
  productOp h (.mmax h d a b e m) d a b e (denseReads a b e) 32 (denseIn e) s

/-- MMACB (R355). -/
def execMmacb (h : Head) (d a b e : Opnd) (m : MatMod) (sla slb : BitVec 3) (s : State) : Res :=
  productOp h (.mmacb h d a b e m sla slb) d a b e (denseReads a b e) 32 (denseIn e) s

/-- MMASP: it accumulates in place, and C names the metadata pair (R352, R358). -/
def execMmasp (h : Head) (d a b e : Opnd) (m : MatMod) (sl : BitVec 3) (s : State) : Res :=
  productOp h (.mmasp h d a b e m sl) d a b e [(d, 32), (a, 1), (b, 1), (e, 2)] 2
    (fun x => groupWords x d 32 ++ groupWords x e 2) s

/-- MCBLD: DEAD_READ, then PROTECTION (R362). -/
def execMcbld (h : Head) (a : Opnd) (slot : BitVec 3) (s : State) : Res :=
  issue s h.guard fun c =>
    match deadCheck c.a (single [a]) with
    | some x => c.halt x
    | none =>
      let kills := headKills h a .zero .zero
      if c.act = 0#32 then c.commit (killRegs c.a kills)
      else
        match wordCheck c.a [a] with
        | some x => c.halt x
        | none => match tileTarget c a 32 32 with
        | none => c.trap cProtection (scalarOf c a)
        | some t => matSend c (killRegs c.a kills) [] (.mat (.mcbld h a slot) false [t] [])

/-- One element of MSTT: its code and flags (R363). -/
def msttElem (m : MatMod) (x : Word) : Nat × BitVec 8 :=
  if m.i32 then
    let r := intToInt m.fmt true x.toInt
    (intCode 8 r.1, r.2)
  else match fmtFF m.fmt with
    | some f => packVal f .rne 0 false (fdecode ffF32 x.toNat)
    | none => (0, 0#8)

/-- The update that MSTT sends: FMT, ROLE, CH, bytes of a chunk, and the chunk of each row (R363). -/
def msttBytes (m : MatMod) (ch role : Nat) (cols : List (List Word)) : List Byte :=
  let n := 4 * fmtSlot m.fmt
  BitVec.ofNat 8 m.fmt.code :: BitVec.ofNat 8 role :: BitVec.ofNat 8 ch :: BitVec.ofNat 8 n :: (List.range 32).flatMap fun i =>
    (List.range 32).flatMap fun j => bytesOfNat (fmtSlot m.fmt / 8) (msttElem m ((cols.getD j []).getD i 0#32)).1

/-- MSTT: DEAD_READ, PROTECTION, then FP_EXC; the update is performed later (R361, R363). -/
def execMstt (h : Head) (a e : Opnd) (m : MatMod) (ch role : BitVec 3) (s : State) : Res :=
  issue s h.guard fun c =>
    if c.g.st ≥ counterMax then c.hold .full
    else
      let reads : Reads := [(a, 1), (e, 32)]
      match deadCheck c.a reads with
      | some x => c.halt x
      | none =>
        let kills := killsOf h (a, 1) (.zero, 1) (e, 32)
        if c.act = 0#32 then c.commit (killRegs c.a kills)
        else
          match readCheck c.a fullMask reads, tileTarget c a 64 2560 with
          | some x, _ => c.halt x
          | none, some (.scratch die core pos) =>
            let cols := groupWords c.a e 32
            let fl := (cols.flatMap fun l => l.map fun x => (msttElem m x).2).foldl (· ||| ·) 0#8
            match excCheck c.a.fpmode fl with
            | some x => c.halt x
            | none =>
              matSend c (raiseFlags (killRegs c.a kills) fl) []
                (.image true die core pos (msttBytes m ch.toNat role.toNat cols) [])
          | none, _ => c.trap cProtection (scalarOf c a)

/-! ## MATRIX_OPERAND_FETCH and MATRIX_RESULT (R354, R356, R357, R360) -/

/-- The bytes of a tile target, and whether one is poisoned. -/
def tileBytes (s : State) (n : Nat) : Target → List Byte × Bool
  | .scratch d k pos => (scratchBytes s d k pos n, scratchPoisoned s d k pos n)
  | _ => ([], false)

/-- A 16-byte unit that the array has read early (R366). -/
def findSample (s : State) (op tile unit : Nat) : Option Sample :=
  s.samples.find? fun x => decide (x.op = op) && decide (x.tile = tile) && decide (x.unit = unit)

/-- The bytes of operand tile `k` as the array has them: each 16-byte unit as it was read, early or now (R366). -/
def operandBytes (s : State) (op k : Nat) (t : Target) : List Byte × Bool :=
  if s.samples.all fun x => decide (x.op ≠ op) then tileBytes s 2560 t
  else
    let l := (List.range 160).map fun u => match t, findSample s op k u with
      | _, some x => (bytesOfNat 16 x.value.toNat, x.poison)
      | .scratch d c pos, none => tileBytes s 16 (.scratch d c (pos + 16 * u))
      | _, none => ([], false)
    (l.flatMap fun x => x.1, l.any fun x => x.2)

/-- What a product form finds at its operand fetch: the failed checks, NaN elements taken as zero, and its result columns. -/
def productFetch (book : Nat → BitVec 256) (i : Instr) (ta tb : List Byte) (cols : List (List Word)) :
    BitVec 64 × Nat × List (List Word) :=
  let dense := fun (m : MatMod) (ra rb : ElemRead) =>
    let va := tileVals m.fmt ra ta
    let vb := tileVals m.fmt rb tb
    let nz := fun (l : List (List FVal)) => l.map fun row => row.map (nzVal m.nz)
    (if m.nz then countNans va + countNans vb else 0, denseCols m.i32 (fmtChunks m.fmt) (nz va) (nz vb) cols)
  match i with
  | .mma _ _ _ _ _ m => (checkBits m.fmt false none none false ta tb, dense m .plain .plain)
  | .mmax _ _ _ _ _ m => (checkBits m.fmt false none none false ta tb, dense m .scaled .scaled)
  | .mmacb _ _ _ _ _ m sla slb =>
    (checkBits m.fmt false (some sla.toNat) (some slb.toNat) false ta tb, dense m (.book (book sla.toNat)) (.book (book slb.toNat)))
  | .mmasp _ _ _ _ _ m sl =>
    let kept := (tileVals m.fmt .plain ta).map fun row => (row.drop (16 * sl.toNat)).take 16
    let chunk := (tileVals m.fmt .plain tb).map fun row => chunkOf row (sl.toNat % fmtChunks m.fmt)
    let nz := fun (l : List (List FVal)) => l.map fun row => row.map (nzVal m.nz)
    (checkBits m.fmt true none none (decide (cols.getD 32 [] ≠ cols.getD 33 [])) ta tb,
      if m.nz then countNans kept + countNans chunk else 0,
      sparseCols m.i32 (nz kept) (nz chunk) (cols.getD 32 []) cols)
  | _ => (0#64, 0, cols)

/-- sr.nanc gains elements and saturates (R356). -/
def addNanc (x : BitVec 32) (n : Nat) : BitVec 32 := BitVec.ofNat 32 (min (x.toNat + n) (2 ^ 32 - 1))

/-- An older operation of the core's array has not read its operands. -/
def arrayBusy (s : State) (p : Pend) : Bool :=
  s.pend.any fun q => isMatrix p.gang.die p.gang.core q && decide (q.op < p.op) && (match q.kind with
    | .mat _ false _ _ => true
    | _ => false)

/-- The array does not read the operands of an operation yet: an access of the gang to them is under way, leave is asked for, or an
older operation comes first. -/
def fetchHeld (s : State) (p : Pend) : Bool := pendHeld s p || leaveAsked s p.gang.die (isPendLeave p.op) || arrayBusy s p

/-- The array reads one 16-byte unit of an operand tile before the others (R366). -/
def sampleTile (s : State) (op k u : Nat) : State :=
  match findPend s op with
  | none => s
  | some p =>
    match p.kind with
    | .mat _ false [t1, t2] _ =>
      match (if k = 0 then t1 else t2) with
      | .scratch d c pos =>
        if fetchHeld s p || decide (160 ≤ u) || decide (2 ≤ k) || (findSample s op k u).isSome then s
        else
          let x : Sample := { op := op, tile := k, unit := u, value := BitVec.ofNat 128 (scratchNat s d c (pos + 16 * u) 16),
                              poison := scratchPoisoned s d c (pos + 16 * u) 16 }
          { s with samples := s.samples ++ [x] }
      | _ => s
    | _ => s

/-- What an operation's early reads leave behind is gone with it. -/
def dropSamples (s : State) (op : Nat) : State :=
  { s with samples := s.samples.filter fun x => decide (x.op ≠ op) && s.pend.any fun p => decide (p.op = x.op) }

/-- A mismatch in a core's array: the product is computed again, and where that mismatches too its gang is killed with cause PIPE_ERR
(R360, R457, R459). -/
def arrayError (s : State) (die core : Nat) (again : Bool) : State :=
  match s.pend.find? fun q => isMatrix die core q && (match q.kind with
      | .mat _ true _ _ => true
      | _ => false) with
  | none => s
  | some p =>
    match again, findGang s p.gang with
    | true, some g =>
      let r := countPipeErr s die core
      if r.2 then r.1 else failGang r.1 g stFailedKilled cPipeErr 0#32
    | _, _ => s

/-- MATRIX_OPERAND_FETCH: the tiles are read, checked, and their NaNs counted; tl falls. MCBLD writes its codebook slot
(R354, R356, R362). A trap or a kill comes once no older instruction of the gang may trap (R97). -/
def execMatrixOperandFetch (op : Nat) (s : State) : Res :=
  match findPend s op with
  | none => idle s
  | some p =>
    if fetchHeld s p then idle s
    else
      match p.kind with
      | .mat (.mcbld _ _ slot) false [t] _ =>
        if olderRisk s p.gang op then idle s
        else
          let x := tileBytes s 32 t
          if x.2 then .next (pendKill s p)
          else
            .next (dropPend (modCore s p.gang.die p.gang.core fun c =>
              { c with codebooks := c.codebooks.set (slot.toNat % 8) (BitVec.ofNat 256 (natOfBytes x.1)) (Nat.mod_lt _ (by decide)),
                       matIdle := s.tick }) p)
      | .mat i false [t, u] cols =>
        let ta := operandBytes s op 0 t
        let tb := operandBytes s op 1 u
        if ta.2 || tb.2 then (if olderRisk s p.gang op then idle s else .next (pendKill (dropSamples s op) p))
        else
          let k := (getCore s p.gang.die p.gang.core).codebooks
          let r := productFetch (fun n => k.get (Fin.ofNat 8 n)) i ta.1 tb.1 cols
          if r.1 ≠ 0#64 then (if olderRisk s p.gang op then idle s else .next (preciseTrap (dropSamples s op) p cMmaCheck r.1 0#5))
          else
            let s := dropSamples s op
            let f := fun (a : Arch) => { a with nanc := addNanc a.nanc r.2.1 }
            let s := modGang s p.gang fun g => { g with arch := f g.arch }
            let s := patchYounger s p.gang op f
            .next (wakeOrder (recount (modPend s op fun q => { q with kind := .mat i true [t, u] r.2.2 }) p.gang) p.gang)
      | _ => idle s

/-- The destination of a product form. -/
def productDst : Instr → Opnd
  | .mma _ d _ _ _ _ | .mmax _ d _ _ _ _ | .mmacb _ d _ _ _ _ _ _ | .mmasp _ d _ _ _ _ _ => d
  | _ => .zero

/-- Write the result columns, each register maximal on its own, and give back the slots reserved at issue (R359). -/
def writeCols (d : Opnd) (cols : List (List Word)) (a : Arch) : Arch :=
  match d with
  | .v r =>
    let b := { a with reserved := a.reserved - (1024 - groupSlots a d 32) }
    (List.range 32).foldl (fun x k => x.setV (groupReg r k) (some (writeMax none fullMask fun i => (cols.getD k []).getD i 0#32))) b
  | _ => a

/-- MATRIX_RESULT: the array commits the result registers, in issue order (R91, R357, R359). -/
def execMatrixResult (op : Nat) (s : State) : Res :=
  match findPend s op with
  | none => idle s
  | some p =>
    match p.kind with
    | .mat i true _ cols =>
      if olderRisk s p.gang op || (s.pend.any fun q => isMatrix p.gang.die p.gang.core q && decide (q.op < op) && (match q.kind with
        | .mat _ _ _ _ => true
        | _ => false)) then idle s
      else
        let s := modCore s p.gang.die p.gang.core fun c => { c with matIdle := s.tick }
        match findGang s p.gang with
        | none => .next (dropPend s p)
        | some g =>
          let w := fun (a : Arch) => settleAccounts g.budget (writeCols (productDst i) cols a)
          .next (dropPend (patchYounger (putGang s { g with arch := w g.arch }) p.gang op w) p)
    | _ => idle s

end Sys2Proof.Machine
end

