-- ==== Sys2Proof/Machine/Dispatch.lean ====
section
/-!
DEFINITION. The dispatch of every row of the opcode table to its meaning: one arm per constructor.
-/
namespace Sys2Proof.Machine

def exec (i : Instr) (s : State) : Host.Outcome State Fault Refusal :=
  match i with
  | .nop h => Sys2Proof.Machine.execNop h s
  | .bra h target join => Sys2Proof.Machine.execBra h target join s
  | .jmpOffset h target => Sys2Proof.Machine.execJmpOffset h target s
  | .jmpScalar h a => Sys2Proof.Machine.execJmpScalar h a s
  | .jmpi h a b countM1 join => Sys2Proof.Machine.execJmpi h a b countM1 join s
  | .join h => Sys2Proof.Machine.execJoin h s
  | .callOffset h d target => Sys2Proof.Machine.execCallOffset h d target s
  | .callScalar h d a => Sys2Proof.Machine.execCallScalar h d a s
  | .ret h a => Sys2Proof.Machine.execRet h a s
  | .exit h => Sys2Proof.Machine.execExit h s
  | .trap h a => Sys2Proof.Machine.execTrap h a s
  | .eret h => Sys2Proof.Machine.execEret h s
  | .yield h => Sys2Proof.Machine.execYield h s
  | .sleep h a => Sys2Proof.Machine.execSleep h a s
  | .brk h code => Sys2Proof.Machine.execBrk h code s
  | .udf => Sys2Proof.Machine.execUdf s
  | .illegalOpcode opc => Sys2Proof.Machine.execIllegalOpcode opc s
  | .pair x y => Sys2Proof.Machine.execPair x y s
  | .iadd h d a b m => Sys2Proof.Machine.execIadd h d a b m s
  | .isub h d a b m => Sys2Proof.Machine.execIsub h d a b m s
  | .imul h d a b m => Sys2Proof.Machine.execImul h d a b m s
  | .imulh h d a b m => Sys2Proof.Machine.execImulh h d a b m s
  | .imad h d a b c m => Sys2Proof.Machine.execImad h d a b c m s
  | .idiv h d a b m => Sys2Proof.Machine.execIdiv h d a b m s
  | .irem h d a b m => Sys2Proof.Machine.execIrem h d a b m s
  | .imin h d a b m => Sys2Proof.Machine.execImin h d a b m s
  | .imax h d a b m => Sys2Proof.Machine.execImax h d a b m s
  | .iabs h d a sat => Sys2Proof.Machine.execIabs h d a sat s
  | .ineg h d a sat => Sys2Proof.Machine.execIneg h d a sat s
  | .idot4 h d a b c m => Sys2Proof.Machine.execIdot4 h d a b c m s
  | .andB h d a b => Sys2Proof.Machine.execAnd h d a b s
  | .orB h d a b => Sys2Proof.Machine.execOr h d a b s
  | .xorB h d a b => Sys2Proof.Machine.execXor h d a b s
  | .notB h d a => Sys2Proof.Machine.execNot h d a s
  | .shl h d a b => Sys2Proof.Machine.execShl h d a b s
  | .shr h d a b signed => Sys2Proof.Machine.execShr h d a b signed s
  | .rot h d a b => Sys2Proof.Machine.execRot h d a b s
  | .bfe h d a b signed => Sys2Proof.Machine.execBfe h d a b signed s
  | .bfi h d a b c => Sys2Proof.Machine.execBfi h d a b c s
  | .popc h d a => Sys2Proof.Machine.execPopc h d a s
  | .clz h d a => Sys2Proof.Machine.execClz h d a s
  | .brev h d a => Sys2Proof.Machine.execBrev h d a s
  | .bmix h d a b c table => Sys2Proof.Machine.execBmix h d a b c table s
  | .bpick h d a b c fill => Sys2Proof.Machine.execBpick h d a b c fill s
  | .fadd h d a b m => Sys2Proof.Machine.execFadd h d a b m s
  | .fsub h d a b m => Sys2Proof.Machine.execFsub h d a b m s
  | .fmul h d a b m => Sys2Proof.Machine.execFmul h d a b m s
  | .ffma h d a b c m => Sys2Proof.Machine.execFfma h d a b c m s
  | .fmin h d a b m => Sys2Proof.Machine.execFmin h d a b m s
  | .fmax h d a b m => Sys2Proof.Machine.execFmax h d a b m s
  | .frcp h d a m => Sys2Proof.Machine.execFrcp h d a m s
  | .frsq h d a m => Sys2Proof.Machine.execFrsq h d a m s
  | .fsqrt h d a m => Sys2Proof.Machine.execFsqrt h d a m s
  | .fdiv h d a b m => Sys2Proof.Machine.execFdiv h d a b m s
  | .fexp2 h d a m => Sys2Proof.Machine.execFexp2 h d a m s
  | .flog2 h d a m => Sys2Proof.Machine.execFlog2 h d a m s
  | .fsin h d a m => Sys2Proof.Machine.execFsin h d a m s
  | .fcos h d a m => Sys2Proof.Machine.execFcos h d a m s
  | .ftanh h d a m => Sys2Proof.Machine.execFtanh h d a m s
  | .fclass h d a => Sys2Proof.Machine.execFclass h d a s
  | .hadd2 h d a b m => Sys2Proof.Machine.execHadd2 h d a b m s
  | .hmul2 h d a b m => Sys2Proof.Machine.execHmul2 h d a b m s
  | .hfma2 h d a b c m => Sys2Proof.Machine.execHfma2 h d a b c m s
  | .hmin2 h d a b m => Sys2Proof.Machine.execHmin2 h d a b m s
  | .hmax2 h d a b m => Sys2Proof.Machine.execHmax2 h d a b m s
  | .hdot2 h d a b c m => Sys2Proof.Machine.execHdot2 h d a b c m s
  | .cvt h d a m => Sys2Proof.Machine.execCvt h d a m s
  | .cvtpk h d a c m el => Sys2Proof.Machine.execCvtpk h d a c m el s
  | .cvtup h d a m el => Sys2Proof.Machine.execCvtup h d a m el s
  | .mxq h d a c m => Sys2Proof.Machine.execMxq h d a c m s
  | .mxdq h d a c m => Sys2Proof.Machine.execMxdq h d a c m s
  | .cblu h d a m el slot => Sys2Proof.Machine.execCblu h d a m el slot s
  | .srseed h a => Sys2Proof.Machine.execSrseed h a s
  | .isetp h d a b signed cond => Sys2Proof.Machine.execIsetp h d a b signed cond s
  | .fsetp h d a b na nb cond => Sys2Proof.Machine.execFsetp h d a b na nb cond s
  | .sel h d a b c => Sys2Proof.Machine.execSel h d a b c s
  | .pmix h d a b c table => Sys2Proof.Machine.execPmix h d a b c table s
  | .pmov h d a => Sys2Proof.Machine.execPmov h d a s
  | .mov h d a => Sys2Proof.Machine.execMov h d a s
  | .shfl h d a b mode => Sys2Proof.Machine.execShfl h d a b mode s
  | .nbr h d a b right => Sys2Proof.Machine.execNbr h d a b right s
  | .vote h d a mode => Sys2Proof.Machine.execVote h d a mode s
  | .reduce h d a op => Sys2Proof.Machine.execReduce h d a op s
  | .scan h d a op excl => Sys2Proof.Machine.execScan h d a op excl s
  | .matchLanes h d a all => Sys2Proof.Machine.execMatch h d a all s
  | .bcast h d a b => Sys2Proof.Machine.execBcast h d a b s
  | .part h code => Sys2Proof.Machine.execPart h code s
  | .coalesce h d a => Sys2Proof.Machine.execCoalesce h d a s
  | .runs h d a max => Sys2Proof.Machine.execRuns h d a max s
  | .runget h d a b => Sys2Proof.Machine.execRunget h d a b s
  | .runapp h d a b first last => Sys2Proof.Machine.execRunapp h d a b first last s
  | .rbudget h d => Sys2Proof.Machine.execRbudget h d s
  | .rspill h a c off free => Sys2Proof.Machine.execRspill h a c off free s
  | .rfill h d a off => Sys2Proof.Machine.execRfill h d a off s
  | .sadd h d a b m => Sys2Proof.Machine.execSadd h d a b m s
  | .ssub h d a b m => Sys2Proof.Machine.execSsub h d a b m s
  | .smul h d a b m => Sys2Proof.Machine.execSmul h d a b m s
  | .smulh h d a b m => Sys2Proof.Machine.execSmulh h d a b m s
  | .smix h d a b c table => Sys2Proof.Machine.execSmix h d a b c table s
  | .sshf h d a b m => Sys2Proof.Machine.execSshf h d a b m s
  | .scmp h d a b m cond => Sys2Proof.Machine.execScmp h d a b m cond s
  | .smov h d a => Sys2Proof.Machine.execSmov h d a s
  | .smovh h d a b => Sys2Proof.Machine.execSmovh h d a b s
  | .srd h d a => Sys2Proof.Machine.execSrd h d a s
  | .swr h d a => Sys2Proof.Machine.execSwr h d a s
  | .dadd h d a b m => Sys2Proof.Machine.execDadd h d a b m s
  | .dmul h d a b m => Sys2Proof.Machine.execDmul h d a b m s
  | .dfma h d a b c m => Sys2Proof.Machine.execDfma h d a b c m s
  | .dcvt h d a m widen => Sys2Proof.Machine.execDcvt h d a m widen s
  | .sdiv h d a b m => Sys2Proof.Machine.execSdiv h d a b m s
  | .ld h d a b off m => Sys2Proof.Machine.execLd h d a b off m s
  | .st h a b c off m => Sys2Proof.Machine.execSt h a b c off m s
  | .sld h d a off m => Sys2Proof.Machine.execSld h d a off m s
  | .sst h a c off m => Sys2Proof.Machine.execSst h a c off m s
  | .pref h a b off m => Sys2Proof.Machine.execPref h a b off m s
  | .cflush h a b off scope => Sys2Proof.Machine.execCflush h a b off scope s
  | .icinv h a b off scope => Sys2Proof.Machine.execIcinv h a b off scope s
  | .atom h d a b c off m => Sys2Proof.Machine.execAtom h d a b c off m s
  | .red h a b c off m => Sys2Proof.Machine.execRed h a b c off m s
  | .cas h d a b c off m => Sys2Proof.Machine.execCas h d a b c off m s
  | .dcas h d a off m => Sys2Proof.Machine.execDcas h d a off m s
  | .amove h d a off m => Sys2Proof.Machine.execAmove h d a off m s
  | .ald h d a b off m => Sys2Proof.Machine.execAld h d a b off m s
  | .ast h a b c off m => Sys2Proof.Machine.execAst h a b c off m s
  | .fence h scope dir die succ pred => Sys2Proof.Machine.execFence h scope dir die succ pred s
  | .drain h scope => Sys2Proof.Machine.execDrain h scope s
  | .bari h a off n force => Sys2Proof.Machine.execBari h a off n force s
  | .barv h d a off => Sys2Proof.Machine.execBarv h d a off s
  | .barw h d a b off => Sys2Proof.Machine.execBarw h d a b off s
  | .barx h a b off => Sys2Proof.Machine.execBarx h a b off s
  | .gbar h d => Sys2Proof.Machine.execGbar h d s
  | .wait h tl cp st ld => Sys2Proof.Machine.execWait h tl cp st ld s
  | .tagw h d a all => Sys2Proof.Machine.execTagw h d a all s
  | .tagf h d a clr => Sys2Proof.Machine.execTagf h d a clr s
  | .tagc h a => Sys2Proof.Machine.execTagc h a s
  | .chopen h a ch => Sys2Proof.Machine.execChopen h a ch s
  | .chst h a b c off ch w64 => Sys2Proof.Machine.execChst h a b c off ch w64 s
  | .chclose h ch => Sys2Proof.Machine.execChclose h ch s
  | .time h d => Sys2Proof.Machine.execTime h d s
  | .cpy h d a off => Sys2Proof.Machine.execCpy h d a off s
  | .cpyk h d a => Sys2Proof.Machine.execCpyk h d a s
  | .xenc h d a rate => Sys2Proof.Machine.execXenc h d a rate s
  | .xdec h d a rate => Sys2Proof.Machine.execXdec h d a rate s
  | .gsub h d a off sq => Sys2Proof.Machine.execGsub h d a off sq s
  | .mma h d a b c m => Sys2Proof.Machine.execMma h d a b c m s
  | .mmasp h d a b c m sl => Sys2Proof.Machine.execMmasp h d a b c m sl s
  | .mmax h d a b c m => Sys2Proof.Machine.execMmax h d a b c m s
  | .mmacb h d a b c m sla slb => Sys2Proof.Machine.execMmacb h d a b c m sla slb s
  | .mcbld h a slot => Sys2Proof.Machine.execMcbld h a slot s
  | .mstt h a c m ch role => Sys2Proof.Machine.execMstt h a c m ch role s
  | .spawn h d a off => Sys2Proof.Machine.execSpawn h d a off s
  | .mbxrd h d a off wait => Sys2Proof.Machine.execMbxrd h d a off wait s
  | .mbxfwd h d a off die => Sys2Proof.Machine.execMbxfwd h d a off die s
  | .fetchb h => Sys2Proof.Machine.execFetchb h s
  | .loadReturn op => Sys2Proof.Machine.execLoadReturn op s
  | .storePerformed op => Sys2Proof.Machine.execStorePerformed op s
  | .instructionFetchFill g va => Sys2Proof.Machine.execInstructionFetchFill g va s
  | .sleepExpiry g slot => Sys2Proof.Machine.execSleepExpiry g slot s
  | .barvArrival op => Sys2Proof.Machine.execBarvArrival op s
  | .gangEnd g => Sys2Proof.Machine.execGangEnd g s
  | .dieGroupDone group => Sys2Proof.Machine.execDieGroupDone group s
  | .placementOpportunity die => Sys2Proof.Machine.execPlacementOpportunity die s
  | .slotRecordWrite die ctx => Sys2Proof.Machine.execSlotRecordWrite die ctx s
  | .leaseExpiry u line => Sys2Proof.Machine.execLeaseExpiry u line s
  | .walkComplete die ctx va => Sys2Proof.Machine.execWalkComplete die ctx va s
  | .releaseRoundStart die => Sys2Proof.Machine.execReleaseRoundStart die s
  | .earlyRound die sheets => Sys2Proof.Machine.execEarlyRound die sheets s
  | .homeApplyBlock home src => Sys2Proof.Machine.execHomeApplyBlock home src s
  | .markerArrival home src => Sys2Proof.Machine.execMarkerArrival home src s
  | .stampNotice die home => Sys2Proof.Machine.execStampNotice die home s
  | .sharerApply die home => Sys2Proof.Machine.execSharerApply die home s
  | .sharerAck die home => Sys2Proof.Machine.execSharerAck die home s
  | .homeRoundAck home die => Sys2Proof.Machine.execHomeRoundAck home die s
  | .roundComplete die => Sys2Proof.Machine.execRoundComplete die s
  | .foldIn home span => Sys2Proof.Machine.execFoldIn home span s
  | .atomicValueReturn die home => Sys2Proof.Machine.execAtomicValueReturn die home s
  | .dropNotice home die => Sys2Proof.Machine.execDropNotice home die s
  | .rdcLineReplace die sheet => Sys2Proof.Machine.execRdcLineReplace die sheet s
  | .migrationLineCopy page => Sys2Proof.Machine.execMigrationLineCopy page s
  | .migrationDone page => Sys2Proof.Machine.execMigrationDone page s
  | .biasLineStep page => Sys2Proof.Machine.execBiasLineStep page s
  | .shootdownDieAck id die => Sys2Proof.Machine.execShootdownDieAck id die s
  | .uncorrectableError site => Sys2Proof.Machine.execUncorrectableError site s
  | .eccCorrected die unit => Sys2Proof.Machine.execEccCorrected die unit s
  | .patrolScrub sector phase => Sys2Proof.Machine.execPatrolScrub sector phase s
  | .ecsCountRead counts => Sys2Proof.Machine.execEcsCountRead counts s
  | .jobEntry c => Sys2Proof.Machine.execJobEntry c s
  | .loopEntry c => Sys2Proof.Machine.execLoopEntry c s
  | .condEntry c => Sys2Proof.Machine.execCondEntry c s
  | .signalEntry c => Sys2Proof.Machine.execSignalEntry c s
  | .endEntry c => Sys2Proof.Machine.execEndEntry c s
  | .malformedEntry c => Sys2Proof.Machine.execMalformedEntry c s
  | .jobStart job => Sys2Proof.Machine.execJobStart job s
  | .jobEnd job => Sys2Proof.Machine.execJobEnd job s
  | .leaveGrant die => Sys2Proof.Machine.execLeaveGrant die s
  | .transformReply op => Sys2Proof.Machine.execTransformReply op s
  | .matrixOperandFetch op => Sys2Proof.Machine.execMatrixOperandFetch op s
  | .matrixResult op => Sys2Proof.Machine.execMatrixResult op s
  | .bellWrite queue widx => Sys2Proof.Machine.execBellWrite queue widx s
  | .lotteryDraw die => Sys2Proof.Machine.execLotteryDraw die s
  | .launchPacket queue pindex => Sys2Proof.Machine.execLaunchPacket queue pindex s
  | .dependPacket queue pindex => Sys2Proof.Machine.execDependPacket queue pindex s
  | .signalPacket queue pindex => Sys2Proof.Machine.execSignalPacket queue pindex s
  | .chainPacket queue pindex => Sys2Proof.Machine.execChainPacket queue pindex s
  | .completionRecord ctx => Sys2Proof.Machine.execCompletionRecord ctx s
  | .eventRingTimer ctx => Sys2Proof.Machine.execEventRingTimer ctx s
  | .ridxPoll ctx => Sys2Proof.Machine.execRidxPoll ctx s
  | .replayRerun launch => Sys2Proof.Machine.execReplayRerun launch s
  | .create entry => Sys2Proof.Machine.execCreate entry s
  | .activate entry => Sys2Proof.Machine.execActivate entry s
  | .preempt entry => Sys2Proof.Machine.execPreempt entry s
  | .preemptHaltTimeout g => Sys2Proof.Machine.execPreemptHaltTimeout g s
  | .contextSaved ctx => Sys2Proof.Machine.execContextSaved ctx s
  | .contextResumed ctx => Sys2Proof.Machine.execContextResumed ctx s
  | .contextFaulted ctx va => Sys2Proof.Machine.execContextFaulted ctx va s
  | .destroy entry => Sys2Proof.Machine.execDestroy entry s
  | .load entry => Sys2Proof.Machine.execLoad entry s
  | .unload entry => Sys2Proof.Machine.execUnload entry s
  | .qcreate entry => Sys2Proof.Machine.execQcreate entry s
  | .qreset entry => Sys2Proof.Machine.execQreset entry s
  | .qdestroy entry => Sys2Proof.Machine.execQdestroy entry s
  | .migrate entry => Sys2Proof.Machine.execMigrate entry s
  | .bias entry => Sys2Proof.Machine.execBias entry s
  | .shootdown entry => Sys2Proof.Machine.execShootdown entry s
  | .seed entry => Sys2Proof.Machine.execSeed entry s
  | .devset entry => Sys2Proof.Machine.execDevset entry s
  | .healthrd entry => Sys2Proof.Machine.execHealthrd entry s
  | .faultsum entry => Sys2Proof.Machine.execFaultsum entry s
  | .safetier entry => Sys2Proof.Machine.execSafetier entry s
  | .checkpoint entry => Sys2Proof.Machine.execCheckpoint entry s
  | .restore entry => Sys2Proof.Machine.execRestore entry s
  | .powercap entry => Sys2Proof.Machine.execPowercap entry s
  | .attest entry => Sys2Proof.Machine.execAttest entry s
  | .keybind entry => Sys2Proof.Machine.execKeybind entry s
  | .fwupdate entry => Sys2Proof.Machine.execFwupdate entry s
  | .adminUnknownOpcode entry => Sys2Proof.Machine.execAdminUnknownOpcode entry s
  | .aqtailWrite value => Sys2Proof.Machine.execAqtailWrite value s
  | .aqctlWrite value => Sys2Proof.Machine.execAqctlWrite value s
  | .acheadWrite value => Sys2Proof.Machine.execAcheadWrite value s
  | .rwinWrite offset wide value => Sys2Proof.Machine.execRwinWrite offset wide value s
  | .registerWrite offset wide value => Sys2Proof.Machine.execRegisterWrite offset wide value s
  | .linkTrained link units => Sys2Proof.Machine.execLinkTrained link units s
  | .linkTrainTimeout link => Sys2Proof.Machine.execLinkTrainTimeout link s
  | .flitReceive link flit => Sys2Proof.Machine.execFlitReceive link flit s
  | .retryRequest link seq => Sys2Proof.Machine.execRetryRequest link seq s
  | .linkDisabled link => Sys2Proof.Machine.execLinkDisabled link s
  | .requestTimeout req performed => Sys2Proof.Machine.execRequestTimeout req performed s
  | .timebaseStop die => Sys2Proof.Machine.execTimebaseStop die s
  | .heartbeatMiss die => Sys2Proof.Machine.execHeartbeatMiss die s
  | .reductionRoundDeliver word => Sys2Proof.Machine.execReductionRoundDeliver word s
  | .reductionPartialTimeout word => Sys2Proof.Machine.execReductionPartialTimeout word s
  | .channelStorePerform block ch => Sys2Proof.Machine.execChannelStorePerform block ch s
  | .complete msg body => Sys2Proof.Machine.execComplete msg body s
  | .xlate msg body => Sys2Proof.Machine.execXlate msg body s
  | .read msg body => Sys2Proof.Machine.execRead msg body s
  | .write msg addr bytemask data => Sys2Proof.Machine.execWrite msg addr bytemask data s
  | .wrack write => Sys2Proof.Machine.execWrack write s
  | .invack msg body => Sys2Proof.Machine.execInvack msg body s
  | .preack msg body => Sys2Proof.Machine.execPreack msg body s
  | .guestDutyTimeout => Sys2Proof.Machine.execGuestDutyTimeout s
  | .memoryDieLost die => Sys2Proof.Machine.execMemoryDieLost die s
  | .computeDieLost die => Sys2Proof.Machine.execComputeDieLost die s
  | .supplyDroop die => Sys2Proof.Machine.execSupplyDroop die s
  | .thermalLimit die above => Sys2Proof.Machine.execThermalLimit die above s
  | .boardPowerFault sensor => Sys2Proof.Machine.execBoardPowerFault sensor s
  | .powerGood lost => Sys2Proof.Machine.execPowerGood lost s
  | .strapChange die => Sys2Proof.Machine.execStrapChange die s
  | .sidebandRead item => Sys2Proof.Machine.execSidebandRead item s
  | .sidebandReset => Sys2Proof.Machine.execSidebandReset s
  | .hostCxlMemAccess addr data isWrite => Sys2Proof.Machine.execHostCxlMemAccess addr data isWrite s
  | .homePerformedWrite op => Sys2Proof.Machine.execHomePerformedWrite op s
  | .homeLineFetch die line => Sys2Proof.Machine.execHomeLineFetch die line s
  | .remoteAccess addr acc data => Sys2Proof.Machine.execRemoteAccess addr acc data s

end Sys2Proof.Machine
end

