-- ==== Sys2Proof/Machine/Progress.lean ====
section
/-!
DEFINITION. What every step brings up to date after its own effect: what the rules let happen at once when its conditions hold, and
no event of the opcode table stands for.
-/
namespace Sys2Proof.Machine

/-- A RUNNING gang's free slot takes the topmost live PATH entry (R211). -/
def settleSlot (a : Arch) (x : PcSlot) : Arch :=
  if (a.slot x).live then a else freeSlot a x

/-- Both slots. -/
def settleGang (g : Gang) : Gang :=
  if g.arch.mode = .running then { g with arch := settleSlot (settleSlot g.arch .a) .b } else g

/-- Every gang's slots. -/
def settleSlots (s : State) : State := { s with gangs := s.gangs.map settleGang }

/-- A slot waits for a release. -/
def slotWaits (g : Gang) (id : Nat) : Bool :=
  decide (waitTask g.arch.slotA.wait = some id) || decide (waitTask g.arch.slotB.wait = some id)

/-- A release that an instruction was waiting for which waits no more: its gang is gone, or a trap has taken its slot (R200). -/
def orphan (s : State) (t : Task) : Bool :=
  match t.gang with
  | none => false
  | some id => !t.background && (match findGang s id with
    | some g => !slotWaits g t.id
    | none => true)

/-- Releases that nothing waits for are dropped. -/
def dropOrphans (s : State) : State := { s with tasks := s.tasks.filter fun t => !orphan s t }

/-- A home-performed write that is folded into every sharer is forgotten (R285). -/
def dropFolded (s : State) : State :=
  { s with nts := s.nts.filter fun n => opPending s n.op || opUnfolded s n.op }

/-- What an instruction has left to do behind one that may still trap is done: its run-slot accounts follow, with the test of R95; its tags
are cleared; its chain is cut (R91, R96, R97). -/
def commitOne (s : State) (p : Pend) (x : LateOp) : State :=
  match x with
  | .slots taken freed => commitPend s p fun _ a => a.pay taken freed
  | .tagc m => dropPend (clearTags s p.gang m) p
  | .cpyk d token => match findGang s p.gang with
    | none => dropPend s p
    | some g =>
      let r := cpykEffect s g token
      commitPend r.1 p fun _ a => writeScalar a d r.2

/-- Everything that instructions have left to do and that no older one holds back, in issue order. -/
def commitLate (s : State) : State :=
  s.pend.foldl (fun s p => match p.kind, findPend s p.op with
    | .late x, some q => if olderRisk s q.gang q.op then s else commitOne s q x
    | _, _ => s) s

/-- The requests of an access are out: nothing of its gang holds them back. -/
def requestSent (s : State) (p : Pend) : Bool :=
  !pendHeld s p && match p.kind with
    | .load _ _ _ _ _ _ => true
    | .store _ _ _ => !olderRisk s p.gang p.op
    | .home (.channel _ _) _ _ _ _ _ _ _ => chanTurn s p
    | .home h _ w64 sc _ accs _ _ =>
      !olderRisk s p.gang p.op && !homeHeld s p h w64 sc accs && twinsFit s p.gang.die (rdcLanes sc accs)
    | .dcas x => !olderRisk s p.gang p.op && !homeHeld s p (.atom .exch) x.w64 x.scope x.accs && twinsFit s p.gang.die (rdcLanes x.scope x.accs)
    | _ => false

/-- The ticks count from the moment at which an access's requests are out (R426). -/
def markSent (s : State) : State :=
  { s with pend := s.pend.map fun p =>
      if p.sent.isNone && requestOut s p && requestSent s p then { p with sent := some (dieTick s p.gang.die) } else p }

/-- Gangs: what is left to do, releases, waits, halts, mailboxes; before them the leave and the fold-ins that can wait no longer (R313, R467). -/
def settleGangs (s : State) : State := wakeMail (dispatchAll (stepContexts (endWaits (runTasks (dropOrphans (dropFolded (foldOverdue (grantOverdue (commitLate s)))))))))

/-- The die's scheduler core has flagged that its counter stands: within 1 ms of the stop (R427). -/
def flagged (s : State) (die : Nat) : Bool :=
  match (getDie s die).frozen with
  | some t => decide (t + 1000000 ≤ s.tick)
  | none => false

/-- A die that its links, its core 0 or its time base show to be lost (R424, R427, R459, R463). -/
def dieGone (s : State) (die : Nat) : Bool :=
  canLose s die && ((getDie s die).failedCores.getLsbD 0 || flagged s die
    || (decide (die ≠ 0) && linkBroken s (.ring die) && linkBroken s (.ring ((die + 7) % 8))))
def stackGone (s : State) (k : Nat) : Bool :=
  !dieLost s (8 + k) && linkBroken s (.memory k false) && linkBroken s (.memory k true)

/-- Nothing shows a loss: no link is broken, no core 0 has failed and no time base has stopped. -/
def noLoss (s : State) : Bool :=
  (s.links.all fun l => decide (l.state ≠ .failed) && decide (l.state ≠ .disabled)) && s.dies.all fun d => !d.failedCores.getLsbD 0 && d.frozen.isNone

/-- Dies are lost as soon as that shows. -/
def settleLoss (s : State) : State :=
  if noLoss s then s
  else
    let s := (List.range 16).foldl (fun s k => if stackGone s k then loseMemoryDie s (8 + k) else s) s
    (List.range 8).foldl (fun s j => if dieGone s j then loseComputeDie s j else s) s

/-- Work: blocks, die groups, launches, channels, kernels. -/
def settleWork (s : State) : State := endKernels (endChannels (endLaunches (endGroups (endBlocks (refuseUnfit s)))))

/-- Commands and queues. -/
def settleQueues (s : State) : State := refreshQueues (endDestroys (stepTier (endShoots (endQueues (pollRings (endBoot s))))))

/-- Bring everything up to date. -/
def settle (s : State) : State :=
  markSent (settleSlots (let s := settleQueues (settleWork (settleGangs (settleLoss s)))
    { s with freeCtr := s.freeCtr + 1 }))

end Sys2Proof.Machine
end

