-- ==== Sys2Proof/Machine/Pick.lean ====
section
/-!
DEFINITION. What moves next: the agenda, or with an empty one the default order, and the place where a word is put for the next
step to fetch.
-/
namespace Sys2Proof.Machine

/-! ## The device's own steps in the default order -/

/-- Boot and links (19_reliability R468, 17_link R423). -/
def bootSteps (s : State) : List (State → Res) :=
  execPowerGood 0#32 :: (s.links.filter training).flatMap fun l => [execLinkTrained l.id l.units, execLinkTrainTimeout l.id]

/-- Contexts and the admin queue. -/
def contextSteps (s : State) : List (State → Res) :=
  (s.contexts.flatMap fun c =>
      (match contextFault s c with
        | some va => [execContextFaulted c.num va]
        | none => []) ++ [execContextSaved c.num, execContextResumed c.num])
    ++ ((s.gangs.filter fun g => ctxPreempting s g.ctx).map fun g => execPreemptHaltTimeout g.id)
    ++ match adminEntry s with
      | some e => [exec (decodeAdmin e)]
      | none => []

/-- Stores that go on from their L1s. -/
def throughSteps (s : State) : List (State → Res) :=
  s.through.map fun x s => .next (drainLines s x.gang.die x.gang.core fun k => decide (k = x.line))

/-- Issued instructions, in order of age. -/
def pendSteps (s : State) : List (State → Res) :=
  s.pend.flatMap fun p => match p.kind with
    | .load _ _ _ _ _ _ | .rfill _ _ _ _ | .due _ _ => [execLoadReturn p.op]
    | .store _ _ _ | .image _ _ _ _ _ _ => [execStorePerformed p.op]
    | .home (.channel b c) _ _ _ _ _ _ _ => [execStorePerformed p.op, execChannelStorePerform b c]
    | .home _ _ _ _ _ _ _ _ => [execStorePerformed p.op, execHomePerformedWrite p.op]
    | .dcas _ => [execHomePerformedWrite p.op]
    | .barv _ _ _ _ _ => [execBarvArrival p.op]
    | .xform _ _ _ _ => [execTransformReply p.op]
    | .mat _ _ _ _ => [execMatrixOperandFetch p.op, execMatrixResult p.op]
    | .late _ | .begun _ _ _ _ => []

/-- Messages of the rounds. -/
def msgSteps (s : State) : List (State → Res) :=
  s.msgs.map (fun m => match m with
      | .block src home _ => execHomeApplyBlock home src
      | .marker src home => execMarkerArrival home src
      | .stampNotice home die _ _ => execStampNotice die home
      | .atomicValue home die _ _ _ _ _ => execAtomicValueReturn die home
      | .drop die home _ => execDropNotice home die)
    ++ (s.fwds.flatMap fun f => [execSharerApply f.die f.home, execSharerAck f.die f.home])
    ++ s.owed.map fun o => execHomeRoundAck o.home o.die

/-- Release rounds and leave. -/
def roundSteps (s : State) : List (State → Res) :=
  ((List.range 8).flatMap fun j => [execEarlyRound j (getDie s j).early, execReleaseRoundStart j, execRoundComplete j, execLeaveGrant j])
    ++ (s.unfolded.map fun u => execFoldIn u.home (spanOf u.addr))
    ++ s.redRounds.flatMap fun r => [execReductionRoundDeliver r.addr, execReductionPartialTimeout r.addr]

/-- Gangs, groups and bind records. -/
def groupSteps (s : State) : List (State → Res) :=
  (s.gangs.flatMap fun g => [execSleepExpiry g.id .a, execSleepExpiry g.id .b, execGangEnd g.id])
    ++ (s.groups.map fun d => execDieGroupDone d.uid) ++ (s.mailboxes.map fun m => execSlotRecordWrite m.die m.ctx)
    ++ (List.range 8).map execPlacementOpportunity

/-- Copy engines. -/
def engineSteps (s : State) : List (State → Res) :=
  (s.jobs.flatMap fun j => [execJobEnd j.id, execJobStart j.id])
    ++ s.chains.flatMap fun c => [execJobEntry c.id, execLoopEntry c.id, execCondEntry c.id, execSignalEntry c.id, execEndEntry c.id, execMalformedEntry c.id]

/-- Queues, packets, records. -/
def queueSteps (s : State) : List (State → Res) :=
  (s.queues.flatMap fun q => q.taken.flatMap fun t =>
      [execLaunchPacket q.num t.pindex.toNat, execDependPacket q.num t.pindex.toNat, execSignalPacket q.num t.pindex.toNat,
       execChainPacket q.num t.pindex.toNat])
    ++ (s.contexts.flatMap fun c => [execCompletionRecord c.num, execEventRingTimer c.num, execRidxPoll c.num])
    ++ (s.launches.map fun l => execReplayRerun l.uid) ++ (List.range 8).map execLotteryDraw

/-- The step that takes a message of the guest. -/
def guestStep (h : GuestHeader) (l : List Byte) : List (State → Res) :=
  let w := fun (off n : Nat) => natOfBytes ((l.drop off).take n)
  match h.mtype.toNat with
  | 2 => [execComplete h (BitVec.ofNat 128 (w 0 16))]
  | 3 => [execXlate h (BitVec.ofNat 64 (w 0 8))]
  | 5 => [execRead h (BitVec.ofNat 64 (w 0 8))]
  | 7 => [execWrite h (BitVec.ofNat 64 (w 0 8)) (BitVec.ofNat 64 (w 8 8)) (BitVec.ofNat 512 (w 16 64))]
  | 10 => [execInvack h (BitVec.ofNat 128 (w 0 16))]
  | 12 => [execPreack h (BitVec.ofNat 64 (w 0 8))]
  | _ => []

/-- The guest and the page operations. -/
def pageSteps (s : State) : List (State → Res) :=
  (match s.guest.inbox with
      | [] => []
      | (h, l) :: _ => guestStep h l)
    ++ (s.guest.writes.map fun w => execWrack w.1) ++ [execGuestDutyTimeout]
    ++ (s.shoots.flatMap fun x => x.tasks.map fun t => execShootdownDieAck x.id t.1)
    ++ s.migrations.flatMap fun m => [execMigrationLineCopy m.old, execMigrationDone m.old, execBiasLineStep m.old]

/-- Time-outs (R426). -/
def timeoutSteps (s : State) : List (State → Res) :=
  (s.pend.map fun p => execRequestTimeout (4 * p.op) false) ++ (s.jobs.map fun j => execRequestTimeout (4 * j.id + 1) false)
    ++ ((List.range 8).map fun j => execRequestTimeout (4 * j + 2) false)
    ++ s.gangs.flatMap fun g => [g.arch.slotA, g.arch.slotB].map fun x => execRequestTimeout (4 * x.op + 3) false

/-- The steps that the default order tries, in order. -/
def deviceSteps (s : State) : List (State → Res) :=
  bootSteps s ++ contextSteps s ++ pendSteps s ++ throughSteps s ++ msgSteps s ++ roundSteps s ++ groupSteps s ++ engineSteps s
    ++ queueSteps s ++ pageSteps s ++ timeoutSteps s

/-- A step changes the machine. -/
def acts (s : State) (f : State → Res) : Bool :=
  match f s with
  | .next t => decide (t ≠ s)
  | _ => true

/-- The first of the device's own steps that can run. -/
def defaultEvent (s : State) : Option (State → Res) := (deviceSteps s).find? (acts s)

/-- A pair could issue now: it goes on with an instruction that it has begun, its word traps, must be filled, or nothing interlocks it. -/
def canIssue (s : State) (x : Gang × PcSlot) : Bool :=
  (begunIn s x.1.id x.2).isSome || match fetchLook s x.1 (x.1.arch.slot x.2).pc with
  | .word w => match decode w with
    | .ok i => !interlocked s x.1 x.2 w i
    | .error _ => true
  | _ => true

/-- The issue that the schedulers choose: the best pair whose turn it is (R209). -/
def defaultIssue (s : State) : Option (Gang × PcSlot) := bestPair ((readyPairs s).filter fun x => turnReady s x && canIssue s x)

/-- The word of a ready pair is at hand: nothing interlocks it, or it traps. -/
def wordReady (s : State) (x : Gang × PcSlot) : Bool :=
  (begunIn s x.1.id x.2).isSome || match fetchLook s x.1 (x.1.arch.slot x.2).pc with
  | .miss _ => false
  | _ => canIssue s x

/-- Two gang places have one scheduler. -/
def sameSched (x y : GangId) : Bool := decide (x.die = y.die) && decide (x.core = y.core) && decide (x.sched = y.sched)

/-- A pair is the one that its scheduler issues in this cycle: it has issued none, and no ready pair of its gangs comes before (R209). -/
def issueTurn (s : State) (g : Gang) (x : PcSlot) : Bool :=
  schedFree s g.id && turnReady s (g, x) && (readyPairs s).all fun y =>
    !sameSched y.1.id g.id || !turnReady s y || !wordReady s y || !pairBefore y (g, x)

/-- The slots that wait for older accesses or for room look again. -/
def wakeAll (s : State) : State :=
  { s with gangs := s.gangs.map fun g =>
      { g with arch := { g.arch with slotA := wakeSlot g.arch.slotA, slotB := wakeSlot g.arch.slotB } } }

/-- An instruction word, not a step of the device. -/
def isWord (i : Instr) : Bool :=
  match i with
  | .udf | .illegalOpcode _ => true
  | i => (rawOf i).isSome || (match i with
    | .pair _ _ => true
    | _ => false)

/-- The default order: the device's steps and the gangs' issues in turn; an issue takes a tick, of whose ready pairs it is the best (R209),
and with neither, time passes. -/
def defaultMove (s : State) : Move :=
  let t := { s with turn := !s.turn }
  let u := { t with tick := s.tick + 1 }
  match s.turn, defaultEvent s, defaultIssue u with
  | true, _, some x => issueMove u x.1 x.2
  | _, some f, _ => .took (f (wakeAll t))
  | _, none, some x => issueMove u x.1 x.2
  | _, none, none => .done (wakeAll u)

/-- The machine takes an event: instruction words are none. -/
def takesEvent (i : Instr) : Bool := !isWord i

/-- A checker finds an error (R457, R458): a gang's next instruction meets it, the array computes its product again (R360), or a started
job fails with FAULT 4. -/
def checkFound (s : State) : CheckSite → State
  | .gang id unit code =>
    if 1 ≤ unit ∧ unit ≤ 5 ∧ 1 ≤ code ∧ code ≤ 2 then modGang s id fun g => { g with arch := { g.arch with pipeErr := some (unit, code) } } else s
  | .array die core again => arrayError s die core again
  | .job id => modJob s id fun j =>
      if j.state = .started ∧ j.fault.isNone then { j with fault := some (4, noAddress s) } else j

/-- What an outcome leaves, or the state as it was. -/
def resOr (s : State) : Res → State
  | .next t => t
  | _ => s

/-- A line leaves an L1 or a cluster cache, or a CLEAN sheet an RDC, to make room (R259, R298). -/
def evictUnit (s : State) (u : CacheUnit) (line : Nat) : State :=
  match u with
  | .l1 die core => modCore s die core fun c => { c with l1 := c.l1.filter fun x => decide (x.line ≠ line) }
  | .cluster die cl => evictLine s die cl line
  | .rdc die => resOr s (execRdcLineReplace die (line / 2) s)

/-- A part of a step that the device makes on its own. -/
def partStep (s : State) : Action → State
  | .check site => checkFound s site
  | .evict u line => evictUnit s u line
  | .job id words => stepJob s id words
  | .entry id => beginEntry s id
  | .fill g va => resOr s (beginFill g va s)
  | .sample op tile unit => sampleTile s op tile unit
  | .enable id => enableLink s id
  | .through die core line => drainLines s die core fun k => decide (k = line)
  | .unfetch g pc => dropWord s g pc
  | .pageRead off size => readPage s off size
  | .govern die lower => governClock s die lower
  | .issue _ _ | .event _ | .ticks _ => s

/-- What the next step does. A lost device does nothing any more (R463). -/
def nextMove (s : State) : Move :=
  match s.agenda with
  | [] => if s.deviceLost then .done { s with tick := s.tick + 1 } else defaultMove s
  | a :: rest =>
    let t := { s with agenda := rest }
    if s.deviceLost then .done t
    else
      match a with
      | .issue id x =>
        match findGang s id with
        | some g => if wordReady s (g, x) && !issueTurn s g x then .done t else issueMove t g x
        | none => .done t
      | .event i => if takesEvent i then .run i (wakeAll t) else .done t
      | .ticks n => .done (wakeAll { t with tick := s.tick + n })
      | a => .done (wakeAll (partStep t a))

/-! ## A word for the next step -/

/-- The word that the opcode table's bits give, as its bytes lie in memory (R4, R50). -/
def tableWord (nbits w : Nat) : IWord := wordOfBytes (wordBytes (BitVec.ofNat 96 (w % 2 ^ nbits)))

/-- Kernel and block of the gang that a lone word runs in: a code object of 1,024 instructions with no trap override. -/
def loneKernel : Kernel :=
  { ctx := 0, kdesc := 0#64, code := 0#64, const := 0#64, ninstr := 1024, constlen := 0, entry := 0#32, trap := 0xFFFFFFFF#32,
    budget := 2048, gangsM1 := 0, clustM1 := 0, scratch := 1024, spread := false, noborrow := false, coop := false,
    replay := false, liveness := [], state := .loaded }

def loneBlock (uid : Nat) (id : GangId) : Block :=
  { uid := uid, ctx := 0, die := id.die, core := id.core, cgroup := uid, rank := 0, dgroup := uid, index := 0#32, grid := 1#32,
    base := 0, size := 1024, kdesc := 0#64, args := 0#64, argLen := 0, state := .resident, fail := none,
    chans := Vector.replicate 8 .closed, dispatcher := false, places := [id] }

def loneGang (uid : Nat) (id : GangId) : Gang := newGang id 0 uid 0 false 2048 false 0#32 0

/-- The gang fetches the word at its slot's PC at the next step. -/
def feedGang (g : Gang) (x : PcSlot) (w : IWord) (tick : Nat) : Gang :=
  let sl := { g.arch.slot x with live := true, wait := .none, stamp := 0 }
  { g with fetch := [(sl.pc, w)], stallEnd := min g.stallEnd tick,
           arch := { g.arch.setSlot x sl with trapGate := false, pipeErr := none } }

/-- The state in which the next step issues the word in the slot that State.cur names, in a gang of its own where there is none. -/
def placeWord (s : State) (w : IWord) : State :=
  let s := { s with agenda := [.issue s.cur.g s.cur.slot], scheds := s.scheds.filter fun c => !c.serves s.cur.g }
  match findGang s s.cur.g with
  | some g => putGang s (feedGang g s.cur.slot w s.tick)
  | none =>
    { s with gangs := s.gangs ++ [feedGang (loneGang s.nextUid s.cur.g) s.cur.slot w s.tick],
             blocks := s.blocks ++ [loneBlock s.nextUid s.cur.g], kernels := s.kernels ++ [loneKernel], nextUid := s.nextUid + 1 }

end Sys2Proof.Machine
end

