-- ==== Sys2Proof/Machine/Step.lean ====
section
/-!
DEFINITION. The step of the machine: what moves next, the meaning of its instruction, and what every step brings up to date
afterwards.
-/
namespace Sys2Proof.Machine

/-- Bring the state after an effect up to date. -/
def settled (r : Host.Outcome State Fault Refusal) : Host.Outcome State Fault Refusal :=
  match r with
  | .next t => .next (settle t)
  | .fault f => .fault f
  | .refused r => .refused r

/-- One step. -/
def step (s : State) : Host.Outcome State Fault Refusal :=
  match nextMove s with
  | .done t => .next (settle t)
  | .run i t => settled (exec i t)
  | .took r => settled r

/-- The state whose next step issues the word of the opcode table's bits. -/
def State.withFetchWord (s : State) (nbits w : Nat) : State := placeWord s (tableWord nbits w)

end Sys2Proof.Machine
end

