-- ==== Sys2Proof/Safety.lean ====
section
/-!
DEFINITION. What counts as a safe run: what a step answers, and the invariants that statements name.
-/
namespace Sys2Proof

/-- The step answers a next state. -/
def Runs (s : Machine.State) : Prop := ∃ t, Machine.step s = .next t

/-- Memory stands in its canonical form. -/
abbrev MemoryCanonical (s : Machine.State) : Prop := Machine.Memory.wf s.mem = true

/-- No RUNNING gang has a free PC slot beside a live PATH entry (08_group R211). -/
def SlotsTaken (s : Machine.State) : Prop :=
  ∀ g ∈ s.gangs, g.arch.mode = .running →
    ∀ x, (g.arch.slot x).live = false → Machine.topPath g.arch g.arch.sp = none

/-! ## Instructions on registers alone

`RegOp` is what the rules give of an instruction that touches nothing but its gang's registers: what it reads, what can stop it,
what it raises and what it writes. `regInt`, `regFp`, `regConvert`, `regSelect`, `regCross` and `regScalar` give it for each
instruction of a family, with the lane functions of the instruction's own rule. -/

open Machine

/-- What an instruction writes to a destination, from its operands as it entered. -/
inductive Written where
  | lanes (d : Opnd) (f : Ctx → Nat → Word)
  | bits (d : Opnd) (f : Ctx → Nat → Bool)
  | scalar (d : Opnd) (f : Ctx → DWord)

/-- An instruction on registers alone. -/
structure RegOp where
  head : Head
  /-- registers read at issue (R92) -/
  reads : Reads
  /-- what stops it once a lane is active, other than a flag's trap or the run slots (R146, R183) -/
  check : Ctx → Option Halt
  /-- flags raised (R124) -/
  flags : Ctx → BitVec 8
  /-- registers that last-read bits mark (R59) -/
  marks : Reads
  written : Ctx → List Written
  /-- the rounding generators afterwards (R121) -/
  gens : Ctx → Vector Word 32

/-- The vector register that a write names. -/
def Written.vdest : Written → Option (Fin 64)
  | .lanes (.v n) _ => some n
  | _ => none

/-- The scalar register that a write names. -/
def Written.sdest : Written → Option (Fin 64)
  | .scalar (.s n) _ => some n
  | _ => none

/-- The predicate that a write names. -/
def Written.pdest : Written → Option (Fin 8)
  | .bits (.p n) _ => some n
  | _ => none

/-- A write stands in the registers `a`: every active lane holds its result and every other lane its old value (R89, R145); an
active bit of a predicate is written and p7 never (R55, R83); a scalar holds its value. -/
def Written.Holds (w : Written) (c : Ctx) (a : Arch) : Prop :=
  match w with
  | .lanes (.v n) f => ∀ i < 32, vregVal (a.vreg n) i = if inMask c.act i then f c i else vregVal (c.a.vreg n) i
  | .bits (.p n) f => ∀ i < 32, inMask (a.preg n) i = if inMask c.act i && decide (n ≠ 7) then f c i else inMask (c.a.preg n) i
  | .scalar (.s n) f => a.sreg n = some (f c)
  | _ => True

/-- A vector register that last-read bits mark. -/
def MarksV (l : Reads) (n : Fin 64) : Prop := ∃ x ∈ l, ∃ r, x.1 = .v r ∧ ∃ k < x.2, n = groupReg r k

/-- A scalar register that last-read bits mark. -/
def MarksS (l : Reads) (n : Fin 64) : Prop := ∃ x ∈ l, x.1 = .s n

/-- The registers after a register instruction: its writes, its flags, its marks, its generators, the slot past it, and every other
register as it was. -/
structure RegOp.Done (op : RegOp) (c : Ctx) (a : Arch) : Prop where
  writes : ∀ w ∈ op.written c, w.Holds c a
  flags : a.flags = c.a.flags ||| op.flags c
  gens : a.gen = op.gens c
  markV : ∀ n, MarksV op.marks n → (∀ w ∈ op.written c, w.vdest ≠ some n) → a.vreg n = none
  keepV : ∀ n, ¬ MarksV op.marks n → (∀ w ∈ op.written c, w.vdest ≠ some n) → a.vreg n = c.a.vreg n
  markS : ∀ n, MarksS op.marks n → (∀ w ∈ op.written c, w.sdest ≠ some n) → a.sreg n = none
  keepS : ∀ n, ¬ MarksS op.marks n → (∀ w ∈ op.written c, w.sdest ≠ some n) →
    a.sreg n = c.a.sreg n ∧ wordPoison a (.s n) = wordPoison c.a (.s n)
  keepP : ∀ n, (∀ w ∈ op.written c, w.pdest ≠ some n) → a.preg n = c.a.preg n ∧ wordPoison a (.p n) = wordPoison c.a (.p n)
  slot : a.slot c.x = { c.slot with pc := c.pc + 12#32 }
  other : a.slot (otherSlot c.x) = c.a.slot (otherSlot c.x)
  control : a.sp = c.a.sp ∧ a.stack = c.a.stack ∧ a.mode = c.a.mode ∧ a.frame = c.a.frame ∧ a.inTvec = c.a.inTvec
    ∧ a.gbars = c.a.gbars ∧ a.reserved = c.a.reserved ∧ a.lateTaken = c.a.lateTaken ∧ a.lateFreed = c.a.lateFreed ∧ a.trapGate = c.a.trapGate ∧ a.resume = c.a.resume ∧ a.pipeErr = c.a.pipeErr
  special : a.fpmode = c.a.fpmode ∧ a.nanc = c.a.nanc ∧ a.part = c.a.part ∧ a.tcause = c.a.tcause ∧ a.tpc = c.a.tpc
    ∧ a.tval = c.a.tval ∧ a.tlane = c.a.tlane ∧ a.tslot = c.a.tslot

/-- The machine after an instruction that changes only its gang's registers, to `a`: that gang holds them, and every other gang and
all else is as it was. -/
def OnlyRegisters (c : Ctx) (a : Arch) (t : State) : Prop :=
  findGang t c.g.id = some { c.g with arch := a } ∧ (∀ id, id ≠ c.g.id → findGang t id = findGang c.s id)
    ∧ { t with gangs := c.s.gangs } = c.s

/-- The issuing slot is live, holds no instruction that it has begun, and starts one with this guard, whose predicate is not poisoned (R51,
R457). -/
structure Enters (s : State) (guard : Guard) (c : Ctx) : Prop where
  here : entering s guard = some c
  fresh : c.begun = none
  clean : guardPoison c.a guard = false

/-- The issuing slot goes on with the instruction `p` that it has begun. -/
structure Resumes (s : State) (guard : Guard) (c : Ctx) (p : Pend) : Prop where
  here : entering s guard = some c
  begun : c.begun = some p

/-- The begun instruction `p` is over: its slot has gone past it and waits no more, its last-read marks are taken, D holds `v`, and no other
register of its gang has changed. -/
structure Ended (c : Ctx) (p : Pend) (d : Opnd) (v : DWord) (t : State) : Prop where
  gone : findPend t p.op = none
  gang : ∃ g, findGang t c.g.id = some g ∧ (g.arch.slot c.x).pc = c.pc + 12#32 ∧ (g.arch.slot c.x).wait = .none
    ∧ (g.arch.slot c.x).mask = c.slot.mask ∧ g.arch.slot (otherSlot c.x) = wakeSlot (c.a.slot (otherSlot c.x))
    ∧ g.arch.v = (killRegs c.a (single p.kills)).v ∧ g.arch.s = (writeScalar (killRegs c.a (single p.kills)) d v).s
    ∧ g.arch.p = c.a.p ∧ g.arch.flags = c.a.flags ∧ g.arch.mode = c.a.mode

/-- The begun instruction `p` has trapped: its gang stands as it was at its issue, but for the trap's entry, and what it had issued since
is cancelled (R97, R409). -/
structure Trapped (c : Ctx) (p : Pend) (cause : BitVec 8) (tval : BitVec 64) (t : State) : Prop where
  younger : ∀ q ∈ t.pend, q.gang = p.gang → q.op < p.op
  gang : ∃ g, findGang t c.g.id = some g ∧ g.arch.mode = .trap ∧ g.arch.tcause = cause ∧ g.arch.tval = tval
    ∧ g.arch.tpc = p.pc.setWidth 64 ∧ g.arch.tslot = p.slot ∧ g.arch.v = p.ckpt.v ∧ g.arch.s = p.ckpt.s ∧ g.arch.p = p.ckpt.p

/-- A begun instruction's gang may take a trap where it was issued. -/
def MayTrap (s : State) (c : Ctx) (p : Pend) : Prop :=
  c.clear = true ∧ p.ckpt.mode = .running ∧ ∃ x, trapEntry s { c.g with arch := p.ckpt } = some x

/-- The instruction may commit the registers `a` now: its gang holds as many run slots as before, or no older instruction of the gang
may still trap (R91, R96, R97). -/
def MayCommit (c : Ctx) (a : Arch) : Prop := heldSlots a = heldSlots c.a ∨ c.clear = true

/-- The instruction executes: a lane is active, no source is dead, nothing of its checks stops it, no enabled exception is raised, the
runs of whole destinations fit beside what the gang holds, and no older instruction of the gang may still trap where it writes or marks
a vector register (R51, R92, R95-R97, R125). -/
structure RegOp.Runs (op : RegOp) (c : Ctx) : Prop where
  order : c.clear = true ∨ (∀ w ∈ op.written c, w.vdest = none) ∧ ∀ n, ¬ MarksV op.marks n
  active : c.act ≠ 0#32
  live : deadCheck c.a op.reads = none
  clear : op.check c = none
  noTrap : excCheck c.a.fpmode (op.flags c) = none
  room : heldSlots c.a + 32 * ((op.written c).filter fun w => w.vdest.isSome).length ≤ slotLimit c.s c.g

/-- What a statement of results says of the instructions that a table lists: each that executes answers the next state with its
writes, its flags, its marks and nothing else. -/
def Completes (table : Instr → Option RegOp) : Prop :=
  ∀ (i : Instr) (op : RegOp) (s : State) (c : Ctx), table i = some op → Enters s op.head.guard c → op.Runs c →
    ∃ t a, exec i s = .next t ∧ op.Done c a ∧ ∃ b, OnlyRegisters c b t ∧ b = { a with borrowed := b.borrowed, kept := b.kept }

/-- A row of a lane-wise instruction. -/
def laneRow (h : Head) (d : Opnd) (srcs : List Opnd) (marks : Reads) (f : Ctx → Nat → Word × BitVec 8) : RegOp :=
  { head := h, reads := single srcs, check := fun c => enterCheck c d srcs, flags := fun c => laneFlags c.act fun i => (f c i).2,
    marks := marks, written := fun _ => [.lanes d fun c i => (f c i).1], gens := fun c => c.a.gen }

def laneRow1 (h : Head) (d a : Opnd) (f : BitVec 10 → Word → Word × BitVec 8) : RegOp :=
  laneRow h d [a] (headKills h a .zero .zero) fun c i => f c.a.fpmode (laneOf c a i)
def laneRow2 (h : Head) (d a b : Opnd) (f : BitVec 10 → Word → Word → Word × BitVec 8) : RegOp :=
  laneRow h d [a, b] (headKills h a b .zero) fun c i => f c.a.fpmode (laneOf c a i) (laneOf c b i)
def laneRow3 (h : Head) (d a b e : Opnd) (f : BitVec 10 → Word → Word → Word → Word × BitVec 8) : RegOp :=
  laneRow h d [a, b, e] (headKills h a b e) fun c i => f c.a.fpmode (laneOf c a i) (laneOf c b i) (laneOf c e i)

/-- A row of an instruction that writes predicate bits. -/
def bitRow (h : Head) (d : Opnd) (srcs : List Opnd) (marks : Reads) (f : Ctx → Nat → Bool × BitVec 8) : RegOp :=
  { head := h, reads := single srcs, check := fun c => enterCheck c d srcs,
    flags := fun c => laneFlags c.act fun i => (f c i).2, marks := marks, written := fun _ => [.bits d fun c i => (f c i).1],
    gens := fun c => c.a.gen }

/-- A row of a scalar instruction. -/
def scalarRow (h : Head) (d : Opnd) (srcs : List Opnd) (marks : Reads) (f : Ctx → DWord × BitVec 8) : RegOp :=
  { head := h, reads := single srcs, check := fun c => enterCheck c .zero srcs, flags := fun c => (f c).2, marks := marks,
    written := fun _ => [.scalar d fun c => (f c).1], gens := fun c => c.a.gen }

def scalarRow1 (h : Head) (d a : Opnd) (f : DWord → DWord × BitVec 8) : RegOp :=
  scalarRow h d [a] (headKills h a .zero .zero) fun c => f (scalarOf c a)
def scalarRow2 (h : Head) (d a b : Opnd) (f : DWord → DWord → DWord × BitVec 8) : RegOp :=
  scalarRow h d [a, b] (headKills h a b .zero) fun c => f (scalarOf c a) (scalarOf c b)
def scalarRow3 (h : Head) (d a b e : Opnd) (f : DWord → DWord → DWord → DWord × BitVec 8) : RegOp :=
  scalarRow h d [a, b, e] (headKills h a b e) fun c => f (scalarOf c a) (scalarOf c b) (scalarOf c e)

/-- The vector integer and bit instructions (R149-R156). -/
def regInt : Instr → Option RegOp
  | .iadd h d a b m => some (laneRow2 h d a b fun _ => iaddLane m)
  | .isub h d a b m => some (laneRow2 h d a b fun _ => isubLane m)
  | .imul h d a b m => some (laneRow2 h d a b fun _ => imulLane m)
  | .imulh h d a b m => some (laneRow2 h d a b fun _ => imulhLane m)
  | .imad h d a b e m => some (laneRow3 h d a b e fun _ => imadLane m)
  | .idiv h d a b m => some (laneRow2 h d a b fun _ => idivLane m)
  | .irem h d a b m => some (laneRow2 h d a b fun _ => iremLane m)
  | .imin h d a b m => some (laneRow2 h d a b fun _ => iminLane m)
  | .imax h d a b m => some (laneRow2 h d a b fun _ => imaxLane m)
  | .iabs h d a sat => some (laneRow1 h d a fun _ => iabsLane sat)
  | .ineg h d a sat => some (laneRow1 h d a fun _ => inegLane sat)
  | .idot4 h d a b e m => some (laneRow3 h d a b e fun _ => idot4Lane m)
  | .andB h d a b => some (laneRow2 h d a b fun _ x y => noFlag (x &&& y))
  | .orB h d a b => some (laneRow2 h d a b fun _ x y => noFlag (x ||| y))
  | .xorB h d a b => some (laneRow2 h d a b fun _ x y => noFlag (x ^^^ y))
  | .notB h d a => some (laneRow1 h d a fun _ x => noFlag (~~~x))
  | .shl h d a b => some (laneRow2 h d a b fun _ x y => noFlag (shlLane x y))
  | .shr h d a b sg => some (laneRow2 h d a b fun _ x y => noFlag (shrLane sg x y))
  | .rot h d a b => some (laneRow2 h d a b fun _ x y => noFlag (rotLane x y))
  | .bfe h d a b sg => some (laneRow2 h d a b fun _ x y => noFlag (bfeLane sg x y))
  | .bfi h d a b e => some (laneRow3 h d a b e fun _ x y z => noFlag (bfiLane x y z))
  | .popc h d a => some (laneRow1 h d a fun _ x => noFlag (popcLane x))
  | .clz h d a => some (laneRow1 h d a fun _ x => noFlag (clzLane x))
  | .brev h d a => some (laneRow1 h d a fun _ x => noFlag (brevLane x))
  | .bmix h d a b e t => some (laneRow3 h d a b e fun _ x y z => noFlag (tableBits t x y z))
  | .bpick h d a b e fill => some (laneRow3 h d a b e fun _ x y z => noFlag (bpickLane fill x y z))
  | _ => none

/-- The FP32 and packed vector instructions (R157-R165). -/
def regFp : Instr → Option RegOp
  | .fadd h d a b m => some (laneRow2 h d a b fun fm => faddLane fm m)
  | .fsub h d a b m => some (laneRow2 h d a b fun fm => fsubLane fm m)
  | .fmul h d a b m => some (laneRow2 h d a b fun fm => fmulLane fm m)
  | .ffma h d a b e m => some (laneRow3 h d a b e fun fm => ffmaLane fm m)
  | .fmin h d a b m => some (laneRow2 h d a b fun _ => fminmaxLane false m)
  | .fmax h d a b m => some (laneRow2 h d a b fun _ => fminmaxLane true m)
  | .frcp h d a m => some (laneRow1 h d a fun _ => approxLane 0 m)
  | .frsq h d a m => some (laneRow1 h d a fun _ => approxLane 1 m)
  | .fsqrt h d a m => some (laneRow1 h d a fun fm => fsqrtLane fm m)
  | .fdiv h d a b m => some (laneRow2 h d a b fun fm => fdivLane fm m)
  | .fexp2 h d a m => some (laneRow1 h d a fun _ => approxLane 2 m)
  | .flog2 h d a m => some (laneRow1 h d a fun _ => approxLane 3 m)
  | .fsin h d a m => some (laneRow1 h d a fun _ => approxLane 4 m)
  | .fcos h d a m => some (laneRow1 h d a fun _ => approxLane 5 m)
  | .ftanh h d a m => some (laneRow1 h d a fun _ => approxLane 6 m)
  | .fclass h d a => some (laneRow1 h d a fun _ x => noFlag (fclassLane x))
  | .hadd2 h d a b m => some (laneRow2 h d a b fun fm => hadd2Lane fm m)
  | .hmul2 h d a b m => some (laneRow2 h d a b fun fm => hmul2Lane fm m)
  | .hfma2 h d a b e m => some (laneRow3 h d a b e fun fm => hfma2Lane fm m)
  | .hmin2 h d a b m => some (laneRow2 h d a b fun _ => hminmax2Lane false m)
  | .hmax2 h d a b m => some (laneRow2 h d a b fun _ => hminmax2Lane true m)
  | .hdot2 h d a b e m => some (laneRow3 h d a b e fun fm => hdot2Lane fm m)
  | _ => none

/-- A row of a conversion, whose generators advance when it rounds by SR (R121). -/
def convRow (h : Head) (d : Opnd) (srcs : List Opnd) (marks : Reads) (rm : Rm) (f : Ctx → Rm → Nat → Word × BitVec 8) : RegOp :=
  let mode := fun (c : Ctx) => effRmConv c.a.fpmode rm
  { laneRow h d srcs marks fun c i => f c (mode c) i with
      gens := fun c => if mode c = .sr then (advanceGens c.act c.a).gen else c.a.gen }

/-- The conversions and the generators' seed (R136-R143), with the scalar conversion DCVT (R135). -/
def regConvert : Instr → Option RegOp
  | .cvt h d a m => some (convRow h d [a] (headKills h a .zero .zero) m.rm fun c rm i =>
      let r := convert m.dfmt m.sfmt rm (drawAt c.a i) m.sat (elemAt m.sfmt (laneOf c a i) 0)
      (laneOfElem m.dfmt r.1, r.2))
  | .cvtpk h d a e m el => some (convRow h d [a, e] (headKills h a .zero e) m.rm fun c rm i =>
      let r := convert m.dfmt m.sfmt rm (drawAt c.a i) m.sat (elemAt m.sfmt (laneOf c a i) 0)
      (putElem m.dfmt (laneOf c e i) el.toNat r.1, r.2))
  | .cvtup h d a m el => some (convRow h d [a] (headKills h a .zero .zero) m.rm fun c rm i =>
      let r := convert m.dfmt m.sfmt rm (drawAt c.a i) m.sat (elemAt m.sfmt (laneOf c a i) el.toNat)
      (laneOfElem m.dfmt r.1, r.2))
  | .mxq h d a e m => some
      { laneRow h d [a] (headKills h a .zero .zero) (fun c i => mxqLane c a m i) with
          written := fun _ => [.lanes d fun c i => (mxqLane c a m i).1, .scalar e fun c => mxqCode c a m],
          gens := fun c => if m.rm = .sr then (advanceGens c.act c.a).gen else c.a.gen }
  | .mxdq h d a e m => some (laneRow h d [a, e] (headKills h a .zero e) fun c i =>
      mxdqVal m.sfmt m.sat ((scalarOf c e).extractLsb' 0 8).toNat (laneOf c a i))
  | .cblu h d a m el slot => some (laneRow h d [a] (headKills h a .zero .zero) fun c i =>
      noFlag (cbluVal (decide (m.dfmt = .f32))
        (codebookEntry ((getCore c.s c.g.id.die c.g.id.core).codebooks.get (Fin.ofNat 8 slot.toNat))
          (elemAt .cb4 (laneOf c a i) el.toNat))))
  | .srseed h a => some { laneRow h .zero [a] (headKills h a .zero .zero) fun _ _ => noFlag 0#32 with
      gens := fun c => Vector.ofFn fun i =>
        if inMask c.act i.val then genSeed ((scalarOf c a).setWidth 32) i.val else c.a.gen.get i }
  | .dcvt h d a m widen => some (scalarRow h d [a] (headKills h a .zero .zero) fun c => dcvtVal c.a.fpmode m widen (scalarOf c a))
  | _ => none

/-- The compare, select, move and predicate instructions (R166-R170). -/
def regSelect : Instr → Option RegOp
  | .isetp h d a b sg cond => some (bitRow h d [a, b] (headKills h a b .zero) fun c i =>
      noFlag (condInt cond (intOf sg (laneOf c a i)) (intOf sg (laneOf c b i))))
  | .fsetp h d a b na nb cond => some (bitRow h d [a, b] (headKills h a b .zero) fun c i =>
      fcond cond (f32In na (laneOf c a i)) (f32In nb (laneOf c b i)))
  | .sel h d a b e => some (laneRow h d [a, b, e] (headKills h a b e) fun c i =>
      noFlag (if inMask (maskOfOpnd c e) i then laneOf c a i else laneOf c b i))
  | .pmix h d a b e t => some (bitRow h d [a, b, e] (headKills h a b e) fun c i =>
      noFlag (inMask (tableBits t (maskOfOpnd c a) (maskOfOpnd c b) (maskOfOpnd c e)) i))
  | .pmov h (.p n) a => some (bitRow h (.p n) [a] (headKills h a .zero .zero) fun c i => noFlag (inMask (maskOfOpnd c a) i))
  | .pmov h (.s n) a => some (scalarRow h (.s n) [a] (headKills h a .zero .zero) fun c => noFlag ((maskOfOpnd c a).setWidth 64))
  | .pmov h d a => some (laneRow h d [a] (headKills h a .zero .zero) fun c i => noFlag (laneOf c a i))
  | .mov h d a => some (laneRow h d [a] (headKills h a .zero .zero) fun c i => noFlag (laneOf c a i))
  | _ => none

/-- A row of a cross-lane instruction: source `a` is read in the lanes of `ra`, the others in the active lanes (R183). -/
def crossRow (h : Head) (d a : Opnd) (others : List Opnd) (marks : Reads) (ra : Ctx → Mask) (flags : Ctx → BitVec 8)
    (w : Written) : RegOp :=
  { head := h, reads := single (a :: others),
    check := fun c => firstHalt [privCheck c (a :: others), readCheck c.a (ra c) (single [a]),
      readCheck c.a c.act (single others), mergeCheck c.a c.act d],
    flags := flags, marks := marks, written := fun _ => [w], gens := fun c => c.a.gen }

/-- The cross-lane instructions (R180-R193). -/
def regCross : Instr → Option RegOp
  | .shfl h d a b mode =>
      let src := fun (c : Ctx) i => shflSrc mode (tileSize c.a) i (laneOf c b i).toNat
      some (crossRow h d a [b] (headKills h a b .zero) (fun c => sourceMask c.act (src c)) (fun _ => 0#8)
        (.lanes d fun c i => laneOf c a (src c i)))
  | .bcast h d a b =>
      let src := fun (c : Ctx) i => tileBase (tileSize c.a) i + ((scalarOf c b).setWidth 32 : BitVec 32).toNat % tileSize c.a
      some (crossRow h d a [b] (headKills h a b .zero) (fun c => sourceMask c.act (src c)) (fun _ => 0#8)
        (.lanes d fun c i => laneOf c a (src c i)))
  | .nbr h d a b right =>
      some (crossRow h d a [b] (headKills h a b .zero)
        (fun c => maskOf fun i => (lanesIn c.act).any fun l => !nbrEdge right (tileSize c.a) l && decide (nbrSrc right l = i))
        (fun _ => 0#8)
        (.lanes d fun c i => if nbrEdge right (tileSize c.a) i then (scalarOf c b).setWidth 32 else laneOf c a (nbrSrc right i)))
  | .vote h (.v n) a _ => some (crossRow h (.v n) a [] (headKills h a .zero .zero) (fun c => c.act) (fun _ => 0#8)
      (.lanes (.v n) fun c i => ballotOf c.act (tileSize c.a) i (maskOfOpnd c a)))
  | .vote h (.s n) a _ => some (crossRow h (.s n) a [] (headKills h a .zero .zero) (fun c => c.act) (fun _ => 0#8)
      (.scalar (.s n) fun c => (maskOfOpnd c a &&& c.act).setWidth 64))
  | .vote h d a mode => some (crossRow h d a [] (headKills h a .zero .zero) (fun c => c.act) (fun _ => 0#8)
      (.bits d fun c i => voteBit mode (tileActive c.act (tileSize c.a) i) (maskOfOpnd c a)))
  | .matchLanes h d a false => some (crossRow h d a [] (headKills h a .zero .zero) (fun c => c.act) (fun _ => 0#8)
      (.lanes d fun c i => maskOf fun k => decide (k ∈ tileActive c.act (tileSize c.a) i) && decide (laneOf c a k = laneOf c a i)))
  | .matchLanes h d a true => some (crossRow h d a [] (headKills h a .zero .zero) (fun c => c.act) (fun _ => 0#8)
      (.bits d fun c i => (tileActive c.act (tileSize c.a) i).all fun l =>
        (tileActive c.act (tileSize c.a) i).all fun k => decide (laneOf c a l = laneOf c a k)))
  | .reduce h d a op => some (crossRow h d a [] (headKills h a .zero .zero) (fun c => c.act)
      (fun c => orFlags ((tileFirsts (tileSize c.a)).map fun b => (tileReduce c a op (tileSize c.a) b).2))
      (.lanes d fun c i => (tileReduce c a op (tileSize c.a) (tileBase (tileSize c.a) i)).1))
  | .scan h d a op excl => some (crossRow h d a [] (headKills h a .zero .zero) (fun c => c.act)
      (fun c => orFlags ((scanAll c a op excl).map fun t => t.2))
      (.lanes d fun c i => lookupLane ((scanAll c a op excl).flatMap fun t => t.1) i))
  | _ => none

/-- The scalar instructions that read no special register but by SRD (R171-R178). -/
def regScalar : Instr → Option RegOp
  | .sadd h d a b m => some (scalarRow2 h d a b (saddVal m))
  | .ssub h d a b m => some (scalarRow2 h d a b (ssubVal m))
  | .smul h d a b m => some (scalarRow2 h d a b (smulVal m))
  | .smulh h d a b m => some (scalarRow2 h d a b (smulhVal m))
  | .sdiv h d a b m => some (scalarRow2 h d a b (sdivVal m))
  | .smix h d a b e t => some (scalarRow3 h d a b e fun x y z => noFlag (tableBits t x y z))
  | .sshf h d a b m => some (scalarRow2 h d a b fun x y => noFlag (sshfVal m x y))
  | .scmp h (.p n) a b m cond => some (bitRow h (.p n) [a, b] (headKills h a b .zero) fun c _ =>
      noFlag (condInt cond (scalarInt m (scalarOf c a)) (scalarInt m (scalarOf c b))))
  | .scmp h d a b m cond => some (scalarRow h d [a, b] (headKills h a b .zero) fun c =>
      noFlag (if condInt cond (scalarInt m (scalarOf c a)) (scalarInt m (scalarOf c b)) then 1#64 else 0#64))
  | .smov h d a => some (scalarRow1 h d a noFlag)
  | .smovh h d a b => some (scalarRow2 h d a b fun x y => noFlag ((y.setWidth 32 : BitVec 32) ++ (x.setWidth 32 : BitVec 32)))
  | .srd h d a => some (scalarRow1 h d a noFlag)
  | .dadd h d a b m => some (scalarRow h d [a, b] (headKills h a b .zero) fun c => toScalar
      (fpAdd ffF64 (effRm c.a.fpmode m.rm) (effFtz c.a.fpmode m.rm m.ftz) m.sat (f64In c m.na a) (f64In c m.nb b)))
  | .dmul h d a b m => some (scalarRow h d [a, b] (headKills h a b .zero) fun c => toScalar
      (fpMul ffF64 (effRm c.a.fpmode m.rm) (effFtz c.a.fpmode m.rm m.ftz) m.sat (f64In c m.na a) (f64In c m.nb b)))
  | .dfma h d a b e m => some (scalarRow h d [a, b, e] (headKills h a b e) fun c => toScalar
      (fpFma ffF64 (effRm c.a.fpmode m.rm) (effFtz c.a.fpmode m.rm m.ftz) m.sat (f64In c m.na a) (f64In c m.nb b)
        (f64In c m.nc e)))
  | _ => none

/-- The register instructions of the six tables. -/
def registerOp (i : Instr) : Option RegOp :=
  regInt i <|> regFp i <|> regConvert i <|> regSelect i <|> regCross i <|> regScalar i

/-- The guard of an instruction that obeys none: p7. -/
def alwaysGuard : Guard := { neg := false, p := 7 }

/-- A slot's write of a pair word (R77). -/
def slotWritten (x : SlotInstr) : Written :=
  .lanes (.v x.d) fun c i => if inMask (slotAct c x) i then (slotResult c x i).1 else vregVal (c.a.vreg x.d) i

/-- The pair word (R74-R77); a word whose slots write one register does not decode (R76). -/
def regPair : Instr → Option RegOp
  | .pair x y => if x.d = y.d then none else some
      { head := { guard := alwaysGuard, la := false, lb := false, lc := false, yld := false, stall := 0#4 },
        reads := single (slotSources x ++ slotSources y), check := fun c => firstHalt [slotGuard c x, slotCheck c x, slotGuard c y, slotCheck c y],
        flags := fun c => slotFlags c x ||| slotFlags c y, marks := slotKills x ++ slotKills y,
        written := fun c => (if slotAct c x = 0#32 then [] else [slotWritten x])
          ++ (if slotAct c y = 0#32 then [] else [slotWritten y]), gens := fun c => c.a.gen }
  | _ => none

/-- The machine after an instruction that changes only its gang, to the registers `a`. -/
def afterCommit (c : Ctx) (a : Arch) : State := c.put (settleAccounts c.g.budget a)

/-- The table words that JMPI reads when no lane's address fails and each is reached now: the state with what the reads have cached, the
words by lane, and whether one was poisoned (R218). -/
def JmpiReads (c : Ctx) (a b : Opnd) (r : State × List (Nat × Word) × Bool) : Prop :=
  let k := checkLanes c.s c.g .const 4 .read (jmpiAddrs c a b)
  firstFail k.2 = none ∧ (∀ x ∈ passing k.2, loadReach k.1 c.g.id .normal x.2.2 = true) ∧ r = tableWords k.1 c.g (passing k.2)

/-! ## Instructions that act outside the registers -/

/-- An instruction starts: it enters, a lane is active, the registers it reads are live, and the gang may read its special
registers (R51, R56, R92). -/
structure Starts (s : State) (h : Head) (reads : Reads) (priv : List Opnd) (c : Ctx) : Prop where
  enter : Enters s h.guard c
  active : c.act ≠ 0#32
  live : deadCheck c.a reads = none
  priv : privCheck c priv = none

/-- No older instruction of the gang may still trap, and none of its unfinished accesses touches the bytes (R97, R262). -/
structure Clear (c : Ctx) (bytes : List (Target × Nat)) : Prop where
  risk : olderRisk c.s c.g.id c.s.nextOp = false
  held : heldBytes c.s c.g.id c.s.nextOp bytes = false

/-- The issuing gang holds the registers `a`, with the run-slot accounts settled, and no other gang has changed. -/
def GangHolds (c : Ctx) (a : Arch) (t : State) : Prop :=
  findGang t c.g.id = some { c.g with arch := settleAccounts c.g.budget a } ∧ ∀ id, id ≠ c.g.id → findGang t id = findGang c.s id

/-- The instructions of a gang that a counter of R247 still counts. -/
def countOf (s : State) (id : GangId) (f : PendKind → Bool) : Nat := (s.pend.filter fun p => decide (p.gang = id) && f p.kind).length

/-- The instruction has issued an access: the gang holds registers `a`, with its counters recounted, the access is the youngest of
the machine, and all else is as it was. -/
structure Issued (c : Ctx) (a : Arch) (kind : PendKind) (kills dsts : List Opnd) (t : State) : Prop where
  pend : t.pend = c.s.pend ++
    [{ op := c.s.nextOp, gang := c.g.id, ctx := c.g.ctx, slot := c.x, pc := c.pc, tick := c.s.tick, sent := none, kills := kills,
       dsts := codesOf (dsts ++ kills), ckpt := c.g.arch, kind := kind }]
  nextOp : t.nextOp = c.s.nextOp + 1
  gang : findGang t c.g.id = some { c.g with
    arch := a, ld := countOf t c.g.id PendKind.countsLd, st := countOf t c.g.id PendKind.countsSt,
    tl := countOf t c.g.id PendKind.countsTl }
  other : ∀ id, id ≠ c.g.id → findGang t id = findGang c.s id
  rest : { t with gangs := c.s.gangs, pend := c.s.pend, nextOp := c.s.nextOp } = c.s

/-- An instruction of the atomic family by its parts (R281, R282). -/
structure AtomForm where
  head : Head
  op : Ctx → HomeOp
  d : Opnd
  a : Opnd
  b : Opnd
  e : Opnd
  reads : Reads
  kills : Reads
  m : AtomMod
  addrs : Ctx → Space → List (Nat × BitVec 64)

/-- The parts of ATOM, RED, CAS, ALD and AST. -/
def atomForm : Instr → Option AtomForm
  | .atom h d a b e off m => some
      { head := h, op := fun _ => .atom m.op, d := d, a := a, b := b, e := e, reads := [(a, 1), (b, 1), (e, regsW m)],
        kills := killsOf h (a, 1) (b, 1) (e, regsW m), m := m,
        addrs := fun c sp => laneAddrs c sp a b (storeOff e off) (wordSize m.w64) }
  | .red h a b e off m => some
      { head := h, op := fun _ => .red m.op, d := .zero, a := a, b := b, e := e, reads := [(a, 1), (b, 1), (e, regsW m)],
        kills := killsOf h (a, 1) (b, 1) (e, regsW m), m := m,
        addrs := fun c sp => laneAddrs c sp a b (storeOff e off) (wordSize m.w64) }
  | .cas h d a b e off m => some
      { head := h, op := fun c => .cas ((lanesIn c.act).map fun i => (i, atomData c d m.w64 i)), d := d, a := a, b := b, e := e,
        reads := [(d, regsW m), (a, 1), (b, 1), (e, regsW m)], kills := killsOf h (a, 1) (b, 1) (e, regsW m), m := m,
        addrs := fun c sp => laneAddrs c sp a b (storeOff e off) (wordSize m.w64) }
  | .ald h (.s n) a b off m => some
      { head := h, op := fun _ => .ald, d := .s n, a := a, b := b, e := .zero, reads := [(a, 1), (b, 1)],
        kills := killsOf h (a, 1) (b, 1) (.zero, 1), m := m, addrs := fun c sp => [(0, scalarAddr c sp a off (wordSize m.w64))] }
  | .ald h d a b off m => some
      { head := h, op := fun _ => .ald, d := d, a := a, b := b, e := .zero, reads := [(a, 1), (b, 1)],
        kills := killsOf h (a, 1) (b, 1) (.zero, 1), m := m, addrs := fun c sp => laneAddrs c sp a b off (wordSize m.w64) }
  | .ast h a b e off m => some
      { head := h, op := fun _ => .ast, d := .zero, a := a, b := b, e := e, reads := [(a, 1), (b, 1), (e, regsW m)],
        kills := killsOf h (a, 1) (b, 1) (e, regsW m), m := m,
        addrs := fun c sp => laneAddrs c sp a b (storeOff e off) (wordSize m.w64) }
  | _ => none

/-- The space that an atomic addresses (R275). -/
def AtomForm.space (f : AtomForm) : Space := if f.m.scope = .blk then .scratch else .global

/-- The lanes' accesses of an atomic whose lanes all pass. -/
def AtomForm.accs (f : AtomForm) (c : Ctx) (l : List Checked) : List LaneAcc :=
  accsOf (passing (l.map (bellAtomic (f.op c)))) fun i => (atomData c f.e f.m.w64 i).setWidth 128

/-- Some lane of the atomic is performed at a home or by another device, or does not reach its unit now, or an older instruction of the
gang may still trap or touches its words (R97, R262, R270, R316, R424): the atomic is sent. -/
def AtomForm.goesHome (f : AtomForm) (c : Ctx) (r : State × List Checked) : Bool :=
  scopeAtHome f.m.scope || (f.accs c r.2).any (fun x => targetAtHome x.tgt) || !accsReach r.1 c.g.id.die (f.accs c r.2)
    || !{ c with s := r.1 }.clear || heldBytes r.1 c.g.id r.1.nextOp ((f.accs c r.2).map fun x => (x.tgt, wordSize f.m.w64))

/-- An atomic's checks pass: the words of `r` (R258, R276). -/
structure AtomForm.Passes (f : AtomForm) (s : State) (c : Ctx) (r : State × List Checked) : Prop where
  starts : Starts s f.head f.reads (f.reads.map fun x => x.1) c
  clean : readCheck c.a c.act f.reads = none
  merge : (f.op c).returns = true → groupMerge c.a c.act f.d (if f.m.w64 then 2 else 1) = none
  checked : r = checkLanes c.s c.g f.space (wordSize f.m.w64) (f.op c).access (f.addrs c f.space)
  pass : firstFail (r.2.map (bellAtomic (f.op c))) = none
  there : lostLane r.1 (f.op c) (passing (r.2.map (bellAtomic (f.op c)))) = none

/-- Where a target lies in a scratchpad, and on a normal page. -/
def scratchPos (die core : Nat) : Target → Option Nat
  | .scratch d k q => if d = die ∧ k = core then some q else none
  | _ => none
def normalPos : Target → Option Nat
  | .mem pa false => some pa
  | _ => none

/-- The byte that a store of `n` bytes a lane gives an address of one storage: of several lanes on it the highest supplies it (R263). -/
def storedByte (n : Nat) (place : Target → Option Nat) : List LaneAcc → Nat → Option Byte
  | [], _ => none
  | x :: rest, a => match storedByte n place rest a with
    | some b => some b
    | none => (place x.tgt).bind fun q => if q ≤ a ∧ a < q + n then some (x.data.extractLsb' (8 * (a - q)) 8) else none

/-- Lanes act on words at homes in ascending order: `f` gives the new value from a lane and its old value. The old values, and memory
after. -/
def homeSeq (n : Nat) (f : LaneAcc → DWord → Option DWord) : List Host.Cell → List (LaneAcc × Nat) → List (Nat × Nat) × List Host.Cell
  | m, [] => ([], m)
  | m, (x, pa) :: rest =>
    let old := natOfBytes (cellsRead m pa n)
    let m := match f x (BitVec.ofNat 64 old) with
      | some v => cellsWrite m pa (bytesOfNat n v.toNat)
      | none => m
    let t := homeSeq n f m rest
    ((x.lane, old) :: t.1, t.2)

/-- An access is performed at its home now: nothing older of its gang may trap or touches its bytes, its request is in time, its homes are
reached and hold, the gang's own stores to its sheets are released, and no page migrates (R97, R262, R300, R426). -/
structure AtHomeNow (s : State) (p : Pend) (h : HomeOp) (w64 : Bool) (sc : Scope) (accs : List LaneAcc) : Prop where
  scope : scopeAtHome sc = true
  risk : olderRisk s p.gang p.op = false
  held : pendHeld s p = false
  intime : lateReply s p = false
  reach : accsHome s p.gang.die accs = true
  released : homeHeld s p h w64 sc accs = false
  there : ∀ x ∈ accs, lostTarget s x.tgt = false
  canonical : MemoryCanonical s
  still : s.migrations = []

/-- A span of the block's scratch allocation that an instruction names (R256). -/
abbrev ScratchSpan (c : Ctx) (a : Opnd) (off : BitVec 32) (n : Nat) (k : Access) (die core pos : Nat) : Prop :=
  (spaceTarget c.s c.g .scratch (scalarAddr c .scratch a off n) n k).2 = .inr (.scratch die core pos)

/-- The bytes of every scratchpad outside a span of one are as they were, and so is memory. -/
def OnlySpan (s t : State) (die core pos n : Nat) : Prop :=
  t.mem = s.mem
    ∧ ∀ d k q, (d, k) ≠ (die, core) ∨ q < pos ∨ pos + n ≤ q →
        cellGet (getCore t d k).scratch q = cellGet (getCore s d k).scratch q

/-- A matrix product by its parts (R350, R352). -/
structure ProductForm where
  head : Head
  d : Opnd
  a : Opnd
  b : Opnd
  reads : Reads
  kills : Reads
  cols : Arch → List (List Word)

/-- The parts of MMA, MMAX, MMACB and MMASP. -/
def productForm : Instr → Option ProductForm
  | .mma h d a b e _ | .mmax h d a b e _ | .mmacb h d a b e _ _ _ => some
      { head := h, d := d, a := a, b := b, reads := denseReads a b e, kills := killsOf h (a, 1) (b, 1) (e, 32), cols := denseIn e }
  | .mmasp h d a b e _ _ => some
      { head := h, d := d, a := a, b := b, reads := [(d, 32), (a, 1), (b, 1), (e, 2)], kills := killsOf h (a, 1) (b, 1) (e, 2),
        cols := fun x => groupWords x d 32 ++ groupWords x e 2 }
  | _ => none

/-- A chain takes its turn of its engine's walk: the machine `q` has read its entry, unless it had been read at this visit, `x` is what
was read, and `sh` what it is (R326, R342). -/
structure WalksOn (s : State) (c : Chain) (q : State) (x : Option EntryRead) (sh : Shape) : Prop where
  here : findChain s c.id = some c
  can : canWalk s c = true
  turn : walkTurn s c = true
  read : (q, x) = match c.seen with
    | some e => (s, some e)
    | none => entryMixed s c
  shape : sh = shapeOf q c x

/-- A chain whose walk has moved on to the entry at `a`. -/
def walkedTo (c : Chain) (a : Nat) : Chain := { c with at_ := a, last := some c.at_, begun := none, seen := none, quietAt := none }

/-! ## Rounds between the dies -/

/-- Every write that the home has performed in a selected span and not folded in is on its way to every sharer of its page: a fold-in with
the home's values of the words it touched, its operations, and the rounds that wait for it (R304, R306, R313). -/
def FoldedIn (s t : State) (home : Nat) (sel : Nat → Prop) (rounds : List Nat) : Prop :=
  ∀ u ∈ s.unfolded, u.home = home → sel (spanOf u.addr) → ∀ j < 8,
    (findHomePage s (granule (4096 * spanOf u.addr))).sharers.getLsbD j = true →
      ∃ f ∈ t.fwds, ∃ b : Diff, f.home = home ∧ f.die = j ∧ f.stage = .sent ∧ f.wire = b.wire ∧ b.span = spanOf u.addr ∧ b.foldIn = true
        ∧ (∀ o ∈ u.ops, o ∈ f.ops) ∧ (∀ d ∈ rounds, d ∈ f.round)
        ∧ ∀ w < 1024, u.addr < 4096 * b.span + 4 * w + 4 → 4096 * b.span + 4 * w < u.addr + u.size →
            (w, BitVec.ofNat 32 (homeNat s (4096 * b.span + 4 * w) 4)) ∈ b.words

/-- A TWINNED sheet joins a round of its die: where a word has changed it is RELEASING with its working words kept and taken as its
twin, it stands among the round's sheets, and a block on its way to its home holds each changed word; where none has it is CLEAN
(R298, R302). -/
def JoinsRound (t : State) (die : Nat) (r : Round) (x : Sheet) : Prop :=
  ∃ y ∈ (getDie t die).sheets, y.sheet = x.sheet ∧ y.work = x.work
    ∧ (x.work = x.twin → y.state = .clean)
    ∧ (x.work ≠ x.twin → y.state = .releasing ∧ y.twin = x.work ∧ x.sheet ∈ r.sheets
      ∧ ∃ b : Diff, .block die (homeOf (256 * x.sheet)) b.wire ∈ t.msgs ∧ b.span = x.sheet / 16 ∧ b.source = die
        ∧ ∀ w < 64, sheetWord x.work w ≠ sheetWord x.twin w → (x.sheet % 16 * 64 + w, sheetWord x.work w) ∈ b.words)

/-! ## Links and windows -/

/-- The proxy home of a die is lost: nothing reaches it, and every line of it that a compute die holds is poisoned (R322, R424). -/
def ProxyGone (t : State) (die : Nat) : Prop :=
  (die < 8 → homeLost t die = true)
    ∧ ∀ d ∈ t.dies, ∀ x ∈ d.sheets, homeOf (256 * x.sheet) = die → x.poison = -1#64

/-- A link trains again, or fails when it does so for the third time within a second (R423). -/
def Retrains (s t : State) (id : LinkId) (l : Link) : Prop :=
  (∃ l', findLink t id = some l' ∧ l'.since = s.tick
    ∧ l'.state = if (l.retrainings.filter fun x => decide (s.tick < x + 1000000000)).length ≥ 2 then .failed else .retraining)
  ∧ ((∀ d, id ≠ .cxl d) → t.mem = s.mem ∧ t.gangs = s.gangs)

/-- A reduction round has gone, performed once at its home where that is this device's, and nowhere else (R430). -/
def RoundDelivered (s t : State) (r : RedRound) (pa : Nat) : Prop :=
  r ∉ t.redRounds
  ∧ (r.addr / 2 ^ 44 ≠ s.admin.devid.toNat → t.mem = s.mem)
  ∧ (r.addr / 2 ^ 44 = s.admin.devid.toNat →
    homeNat t pa (wordSize r.w64) = (roundNew r.op r.w64 (BitVec.ofNat 64 (homeNat s pa (wordSize r.w64)))
      (r.parts.map fun x => x.1)).toNat % 256 ^ wordSize r.w64
    ∧ ∀ a, a < pa ∨ pa + wordSize r.w64 ≤ a → cellGet t.mem a = cellGet s.mem a)

/-! ## Commands of the admin queue -/

/-- A command by its row of R474: its entry, its OPCODE, whether it names a context, and its operand fields. -/
structure AdminForm where
  entry : BitVec 512
  op : Nat
  names : Bool
  fields : List (Nat × Nat × Nat)

/-- The rows of R474. -/
def adminForm : Instr → Option AdminForm
  | .create e => some ⟨e, 0x01, false, [(8, 0, 64)]⟩
  | .activate e => some ⟨e, 0x02, true, []⟩
  | .preempt e => some ⟨e, 0x03, true, []⟩
  | .destroy e => some ⟨e, 0x04, true, []⟩
  | .load e => some ⟨e, 0x05, true, [(8, 0, 64)]⟩
  | .unload e => some ⟨e, 0x06, true, [(8, 0, 64)]⟩
  | .qcreate e => some ⟨e, 0x07, true, [(8, 0, 64)]⟩
  | .qreset e => some ⟨e, 0x08, true, [(8, 0, 16)]⟩
  | .qdestroy e => some ⟨e, 0x09, true, [(8, 0, 16)]⟩
  | .migrate e => some ⟨e, 0x0A, true, [(8, 0, 64), (16, 0, 8)]⟩
  | .bias e => some ⟨e, 0x0B, true, [(8, 0, 64), (16, 0, 1)]⟩
  | .shootdown e => some ⟨e, 0x0C, true, [(8, 0, 64), (16, 0, 64)]⟩
  | .seed e => some ⟨e, 0x0D, false, [(8, 0, 3), (16, 0, 64)]⟩
  | .devset e => some ⟨e, 0x0E, false, [(8, 0, 20)]⟩
  | .healthrd e => some ⟨e, 0x10, false, [(8, 0, 64), (16, 0, 16), (16, 32, 16)]⟩
  | .faultsum e => some ⟨e, 0x11, false, [(8, 0, 64), (16, 0, 16)]⟩
  | .safetier e => some ⟨e, 0x12, false, [(8, 0, 3), (16, 0, 41), (24, 0, 64)]⟩
  | .checkpoint e => some ⟨e, 0x13, false, []⟩
  | .restore e => some ⟨e, 0x14, false, [(8, 0, 23), (8, 63, 1)]⟩
  | .powercap e => some ⟨e, 0x15, false, [(8, 0, 16)]⟩
  | .attest e => some ⟨e, 0x16, false, [(8, 0, 64), (16, 0, 64), (24, 0, 64)]⟩
  | .keybind e => some ⟨e, 0x17, true, [(8, 0, 3), (16, 0, 6), (24, 0, 2)]⟩
  | .fwupdate e => some ⟨e, 0x18, false, [(8, 0, 64), (16, 0, 64)]⟩
  | _ => none

/-- The command is the next of the queue, passes the checks of every command, and acts on the machine `t`, which has taken it (R472,
R473, R475). -/
structure AdminActs (i : Instr) (e : BitVec 512) (s t : State) : Prop where
  next : adminEntry s = some e
  taken : t = takeCommand s
  accepted : ∃ f, adminForm i = some f ∧ f.entry = e ∧ entryOpcode e = BitVec.ofNat 8 f.op
    ∧ (s.admin.bootst = 2 → recoveryAllows f.op = true) ∧ e &&& ~~~(usedBits f.names f.fields) = 0#512
    ∧ (f.names = true → (findContext s (entryCtx e)).isSome = true)

/-! ## Messages of the guest -/

/-- The message is the oldest that the guest has sent and is taken, leaving the machine `t` (R442, R443). -/
structure GuestSends (s t : State) (msg : GuestHeader) (mtype : BitVec 8) (body : List Byte) : Prop where
  up : s.guest.isolated = false
  kind : msg.mtype = mtype
  head : s.guest.inbox = (msg, body) :: t.guest.inbox
  rest : t = modGuest s fun g => { g with inbox := t.guest.inbox }

end Sys2Proof
end

