-- ==== Sys2Proof/Certificates/Slice0/Obligations.lean ====
section
/-!
DEFINITION. The statements about the machine that are to be proved.
-/
open Sys2Proof Sys2Proof.Machine

/-! ## The machine as a whole -/

/-- The words that the spec writes out for some instructions, each laid out by its encoding, decode to them: a vector operation, a
shuffle, a jump table, a barrier wait, a load, a reduction at its home, a matrix product, a copy command, a patched code word
and a pair. -/
def Obligations.DecodeWords : Prop :=
  ∀ h : Head, h = { guard := alwaysGuard, la := false, lb := false, lc := false, yld := false, stall := 0#4 } →
    decodeTableWord 96 0x00000000_00001E00_20103715 = some (.idiv h (.v 3) (.v 1) (.v 2) { signed := true, sat := false })
    ∧ decodeTableWord 96 0x00000000_00102E0E_10102760 = some (.shfl h (.v 2) (.v 1) (.imm 1#32) .swap)
    ∧ decodeTableWord 96 0x003000A0_00000044_601E0703 = some (.jmpi { h with la := true, lb := true } (.v 1) (.s 6) 4#8 10#16)
    ∧ decodeTableWord 96 0x00200000_00000E05_149527B4 = some (.barw { h with lb := true } (.s 18) (.s 9) (.s 17) 0#32)
    ∧ decodeTableWord 96 0x0F000000_0000CE00_5AF06790 = some (.ld { h with stall := 15#4 } (.v 6) (.sr .scratch) (.v 5) 0#32
        { width := .b32, space := .scratch, policy := .normal })
    ∧ decodeTableWord 96 0x00700000_00060060_541E07A1 = some (.red { h with la := true, lb := true, lc := true } (.s 1) (.v 5) (.v 6) 0#32
        { op := .add, w64 := false, scope := .pkg })
    ∧ decodeTableWord 96 0x00000000_00009E04_B4A007D2
        = some (.mmax h (.v 0) (.s 10) (.s 11) .zero { fmt := .e2m1, nz := false, i32 := false })
    ∧ decodeTableWord 96 0x00000000_00000E0E_048457C0 = some (.cpy h (.s 5) (.s 8) 0#32)
    ∧ decodeTableWord 96 0x00000000_00300E0E_10101712 = some (.imul h (.v 1) (.v 1) (.imm 3#32) { signed := false, sat := false })
    ∧ decodeTableWord 96 0x000080A2_71200003_040F30FF = some (.pair
        { op := .fadd { rm := .rne, sat := false, na := false, nb := false, nc := false, ftz := false }, guard := 7, d := 1, a := .v 2,
          b := .v 3, la := false, lb := false }
        { op := .imul { signed := false, sat := false }, guard := 7, d := 4, a := .v 5, b := .v 8, la := false, lb := false })

/-- Decoding the word of a well-formed instruction gives the instruction back, with every operand, modifier, offset and hint (R50,
R55-R77). -/
def Obligations.DecodeOfEncode : Prop :=
  ∀ (i : Instr) (w : IWord), WellFormed i → encode i = some w → decode w = .ok i

/-- A word that decodes to an instruction other than UDF or a word of an unassigned opcode decodes to a well-formed one, and is the
one word of that instruction: every bit of a word has a meaning or must be zero (R50, R58, R61, R78). -/
def Obligations.EncodeOfDecode : Prop :=
  ∀ (w : IWord) (i : Instr), decode w = .ok i → i ≠ .udf → (∀ opc, i ≠ .illegalOpcode opc) → WellFormed i ∧ encode i = some w

/-- A step runs the decoded instruction. An issue of a ready pair whose turn it is (R209) and that holds no instruction it has begun
and whose fetched word decodes to an instruction that nothing interlocks is exec of that instruction in the state that
beginIssue prepares: the issuing pair named in State.cur, its age stamp, stall and fetch buffer noted, the operation number
moved on; what exec answers is brought up to date by settle. A word that does not decode, or that cannot be fetched, traps with
its cause once no older instruction of the gang may still trap, and a line that the instruction cache lacks is filled; a pair
that holds an instruction it has begun goes on with it. An event is exec of its instruction, and a lost device moves no more.
The pair is the one that the agenda names, or in the default order the one that defaultIssue chooses in the next tick. Of what
this rests on, the model chose what assumption log 5, 6, 7, 8, 11, 132 and 133 names. -/
def Obligations.StepRunsDecoded : Prop :=
  (∀ (s t : State) (g : Gang) (x : PcSlot),
    ((∃ id rest, s.agenda = .issue id x :: rest ∧ findGang s id = some g ∧ issueTurn s g x = true ∧ t = { s with agenda := rest })
      ∨ (s.agenda = [] ∧ defaultIssue t = some (g, x) ∧ (s.turn = true ∨ defaultEvent s = none)
          ∧ t = { s with turn := !s.turn, tick := s.tick + 1 })) →
    s.deviceLost = false → pairReady t g x = true →
    (∀ p, begunIn t g.id x = some p → step s = settled (exec p.instr { t with cur := { g := g.id, slot := x } }))
    ∧ (begunIn t g.id x = none →
      (∀ w, fetchLook t g (g.arch.slot x).pc = .word w →
        (∀ i, decode w = .ok i → interlocked t g x w i = false → step s = settled (exec i (beginIssue t g x w)))
        ∧ ∀ e g', decode w = .error e → findGang (beginIssue t g x w) g.id = some g' →
            olderRisk (beginIssue t g x w) g.id (beginIssue t g x w).nextOp = false →
            step s = .next (settle (takeTrap (beginIssue t g x w) { g' with arch := { g'.arch with trapGate := false } } x e.cause
              e.tval ((g.arch.slot x).pc.setWidth 64) 0#5)))
      ∧ (∀ va, fetchLook t g (g.arch.slot x).pc = .miss va → step s = settled (exec (.instructionFetchFill g.id va.toNat) t))
      ∧ ∀ cause tval, fetchLook t g (g.arch.slot x).pc = .trap cause tval → olderRisk t g.id t.nextOp = false →
          step s = .next (settle (takeTrap t { g with arch := { g.arch with trapGate := false } } x cause tval
            ((g.arch.slot x).pc.setWidth 64) 0#5))))
  ∧ (∀ (s t : State) (i : Instr) (rest : List Action), s.agenda = .event i :: rest → t = { s with agenda := rest } →
      s.deviceLost = false → takesEvent i = true → step s = settled (exec i (wakeAll t)))
  ∧ ∀ s : State, s.agenda = [] → s.deviceLost = true → step s = .next (settle { s with tick := s.tick + 1 })

/-- Reset leaves memory in its canonical form and the registers of the register page at their reset values: DEVID 0, BOOTST booting
with no die lost, the command and completion rings at 0 and disabled, every reduction window 0; no gang, context, queue, kernel
or access exists (R471). Of what this rests on, the model chose what assumption log 1 names. -/
def Obligations.ResetLeaves : Prop :=
  MemoryCanonical State.reset ∧ SlotsTaken State.reset
    ∧ State.reset.admin.devid = 0#20 ∧ State.reset.admin.bootst = 1 ∧ State.reset.lost = 0#32 ∧ State.reset.admin.aqbase = 0#64
    ∧ State.reset.admin.enable = false ∧ State.reset.admin.aqtail = 0#32 ∧ State.reset.admin.aqhead = 0#32
    ∧ State.reset.admin.acbase = 0#64 ∧ State.reset.admin.achead = 0#32 ∧ State.reset.admin.actail = 0#32
    ∧ State.reset.rwins = Vector.replicate 8 0#192 ∧ State.reset.gangs = [] ∧ State.reset.contexts = [] ∧ State.reset.queues = []
    ∧ State.reset.kernels = [] ∧ State.reset.pend = []

/-- After every step no RUNNING gang has a free PC slot beside a live PATH entry of its stack (R211), from any state. Of what this
rests on, the model chose what assumption log 37 and 133 names. -/
def Obligations.SlotsKept : Prop :=
  ∀ s t : State, step s = .next t → SlotsTaken t

/-! ## Register instructions -/

/-- Every vector integer and bit instruction that executes writes each active lane the value of its rule and keeps every inactive
lane, raises its flags, takes its marks, moves its slot on by 12 and changes nothing else (R51, R89, R145, R150-R156). Of what
this rests on, the model chose what assumption log 24, 26, 29 and 32 names. -/
def Obligations.VectorIntegerResults : Prop :=
  Completes regInt

/-- Every FP32 and packed instruction (R157-R165) that executes writes each active lane the value of its rule and keeps every
inactive lane, raises its flags, takes its marks, moves its slot on by 12 and changes nothing else. Of what this rests on, the
model chose what assumption log 23, 24, 26, 32 and 149 names. -/
def Obligations.VectorFloatResults : Prop :=
  Completes regFp

/-- Every conversion, MXQ, MXDQ, CBLU, SRSEED and DCVT that executes (R135-R143) writes each active lane the value of its rule and
keeps every inactive lane, raises its flags, advances the generators that SR advances and no others (R121), takes its marks,
moves its slot on by 12 and changes nothing else. Of what this rests on, the model chose what assumption log 30, 31 and 32
names. -/
def Obligations.ConversionResults : Prop :=
  Completes regConvert

/-- Every compare, select, move and predicate instruction (R166-R170) and every cross-lane instruction (R183-R193) that executes
writes the value of its rule to its active lanes, active predicate bits or scalar, keeps the rest, raises its flags, takes its
marks, moves its slot on by 12 and changes nothing else. Of what this rests on, the model chose what assumption log 24, 26 and
32 names. -/
def Obligations.SelectAndCrossLaneResults : Prop :=
  (Completes regSelect)
  ∧ (Completes regCross)

/-- Every scalar instruction of R171-R178 that executes writes its result to its destination, raises its flags, takes its marks,
moves on and changes nothing else. A pair word whose slots do not stop writes both destinations from the registers as they stood
before either slot, raises the flags of both and moves on (R74-R77). Of what this rests on, the model chose what assumption log
35 names. -/
def Obligations.ScalarAndPairResults : Prop :=
  (Completes regScalar)
  ∧ (Completes regPair)

/-- With no active lane a register instruction whose sources are live takes its marks, moves on and writes nothing (R51); the run
slots that its marks return are settled later when an older instruction of the gang may still trap (R91, R96). A register
instruction that reads a dead register raises DEAD_READ at issue, whatever its lanes, with the operand code of the first dead
register in sr.tval (R92); it waits while an older instruction of its gang may still trap (R97). An enabled exception traps and
commits nothing: FP_EXC before INT_EXC, sr.tval the flags that would have been raised, and every register, flag and generator of
the gang as it was (R125). A register instruction that nothing else stops commits when its gang then holds no more run slots
than its limit, or no more than before; otherwise it raises RUN_OVERFLOW with the number of slots by which it exceeds the limit
(R95). While an older instruction of its gang may still trap, one that takes or returns slots writes its registers and leaves
the accounts and the test to be settled in issue order (R91, R96, R97). Of what this rests on, the model chose what assumption
log 24, 25 and 29 names. -/
def Obligations.RegisterStops : Prop :=
  (∀ (i : Instr) (op : RegOp) (s : State) (c : Ctx), registerOp i = some op → Enters s op.head.guard c → c.act = 0#32 →
     deadCheck c.a op.reads = none →
       ∃ a, { op with written := fun _ => [], flags := fun _ => 0#8, gens := fun c => c.a.gen }.Done c a
         ∧ (MayCommit c a → ∃ t b, exec i s = .next t ∧ OnlyRegisters c b t ∧ b = { a with borrowed := b.borrowed, kept := b.kept })
         ∧ (¬ MayCommit c a → exec i s = .next (c.putLate a)))
  ∧ (∀ (i : Instr) (op : RegOp) (s : State) (c : Ctx) (code : BitVec 8), registerOp i = some op →
       Enters s op.head.guard c → firstDead c.a op.reads = some code →
         (c.clear = true → exec i s = .next (takeTrap s c.g c.x 0x05#8 (code.setWidth 64) (c.pc.setWidth 64) 0#5))
         ∧ (c.clear = false → exec i s = c.hold .order))
  ∧ (∀ (i : Instr) (op : RegOp) (s : State) (c : Ctx) (entry : BitVec 32) (tvec : Bool), registerOp i = some op →
       Enters s op.head.guard c → c.act ≠ 0#32 → deadCheck c.a op.reads = none → op.check c = none →
       c.clear = true → c.a.mode = .running → trapEntry s c.g = some (entry, tvec) → (excCheck c.a.fpmode (op.flags c)).isSome →
         ∃ t g, exec i s = .next t ∧ findGang t c.g.id = some g ∧ g.arch.mode = .trap
           ∧ g.arch.tcause = (if op.flags c &&& 0x1F#8 &&& (c.a.fpmode.extractLsb' 4 5).setWidth 8 ≠ 0#8 then 0x0E#8 else 0x0D#8)
           ∧ g.arch.tval = (op.flags c).setWidth 64
           ∧ g.arch.v = c.a.v ∧ g.arch.s = c.a.s ∧ g.arch.p = c.a.p ∧ g.arch.flags = c.a.flags ∧ g.arch.gen = c.a.gen)
  ∧ (∀ (i : Instr) (op : RegOp) (s : State) (c : Ctx), registerOp i = some op → Enters s op.head.guard c → c.act ≠ 0#32 →
       deadCheck c.a op.reads = none → op.check c = none → excCheck c.a.fpmode (op.flags c) = none →
         ∃ a, op.Done c a
           ∧ (MayCommit c a → (heldSlots a ≤ heldSlots c.a ∨ heldSlots a ≤ slotLimit c.s c.g) →
               ∃ t b, exec i s = .next t ∧ OnlyRegisters c b t ∧ b = { a with borrowed := b.borrowed, kept := b.kept })
           ∧ (c.clear = true → heldSlots c.a < heldSlots a → slotLimit c.s c.g < heldSlots a →
               exec i s = .next (takeTrap s c.g c.x 0x09#8 (BitVec.ofNat 64 (heldSlots a - slotLimit c.s c.g)) (c.pc.setWidth 64) 0#5))
           ∧ (¬ MayCommit c a → exec i s = .next (c.putLate a)))

/-- Without SAT, IADD, ISUB, IMUL and IMAD give the sum, difference, product and product plus addend modulo 2^32, signed or not, and
raise no flag (R150). With SAT, IADD, ISUB, IMUL and IMAD give the exact sum, difference, product and product plus addend,
clamped to the range of n32, or of i32 with S, and raise IOV exactly when it lies outside that range (R150). IDIV truncates
toward zero and IREM takes the dividend's sign; the corner cases of a zero divisor and of the most negative value divided by -1
(R151). A shift by 32 or more: SHL gives 0, SHR 0, or with S copies of the sign (R154). -/
def Obligations.IntegerArithmetic : Prop :=
  (∀ (sg : Bool) (a b x : Word),
     iaddLane ⟨sg, false⟩ a b = (a + b, 0#8) ∧ isubLane ⟨sg, false⟩ a b = (a - b, 0#8)
       ∧ imulLane ⟨sg, false⟩ a b = (a * b, 0#8) ∧ imadLane ⟨sg, false⟩ a b x = (a * b + x, 0#8))
  ∧ (∀ (sg : Bool) (a b x : Word) (v : Int),
       (intOf sg (fitInt 32 sg true v).1
           = max (if sg then -2147483648 else 0) (min (if sg then 2147483647 else 4294967295) v)
         ∧ (fitInt 32 sg true v).2
           = if (if sg then -2147483648 else 0) ≤ v ∧ v ≤ (if sg then 2147483647 else 4294967295) then 0#8 else 0x40#8)
       ∧ iaddLane ⟨sg, true⟩ a b = fitInt 32 sg true (intOf sg a + intOf sg b)
       ∧ isubLane ⟨sg, true⟩ a b = fitInt 32 sg true (intOf sg a - intOf sg b)
       ∧ imulLane ⟨sg, true⟩ a b = fitInt 32 sg true (intOf sg a * intOf sg b)
       ∧ imadLane ⟨sg, true⟩ a b x = fitInt 32 sg true (intOf sg a * intOf sg b + intOf sg x))
  ∧ (∀ (a b : Word),
       (idivLane ⟨false, false⟩ a 0#32 = (0xFFFFFFFF#32, 0x20#8) ∧ iremLane ⟨false, false⟩ a 0#32 = (a, 0x20#8)
         ∧ idivLane ⟨true, false⟩ a 0#32 = (0xFFFFFFFF#32, 0x20#8) ∧ iremLane ⟨true, false⟩ a 0#32 = (a, 0x20#8)
         ∧ idivLane ⟨true, false⟩ 0x80000000#32 0xFFFFFFFF#32 = (0x80000000#32, 0x40#8)
         ∧ iremLane ⟨true, false⟩ 0x80000000#32 0xFFFFFFFF#32 = (0#32, 0x40#8))
       ∧ (b ≠ 0#32 →
           (idivLane ⟨false, false⟩ a b).1.toNat = a.toNat / b.toNat ∧ (idivLane ⟨false, false⟩ a b).2 = 0#8
             ∧ (iremLane ⟨false, false⟩ a b).1.toNat = a.toNat % b.toNat ∧ (iremLane ⟨false, false⟩ a b).2 = 0#8)
       ∧ (b ≠ 0#32 → ¬(a = 0x80000000#32 ∧ b = 0xFFFFFFFF#32) →
           (idivLane ⟨true, false⟩ a b).1.toInt = a.toInt.tdiv b.toInt ∧ (idivLane ⟨true, false⟩ a b).2 = 0#8
             ∧ (iremLane ⟨true, false⟩ a b).1.toInt = a.toInt - b.toInt * a.toInt.tdiv b.toInt
             ∧ (iremLane ⟨true, false⟩ a b).2 = 0#8))
  ∧ (∀ (a b : Word), 32 ≤ (b.extractLsb' 0 8).toNat →
       shlLane a b = 0#32 ∧ shrLane false a b = 0#32 ∧ shrLane true a b = (if a.getLsbD 31 then 0xFFFFFFFF#32 else 0#32))

/-- A NaN operand of FADD, FMUL or FDIV without SAT gives the canonical NaN and raises no flag, whatever the other operand and the
rounding mode (R114, R158). -/
def Obligations.NaNOperandCanonical : Prop :=
  ∀ (fm : BitVec 10) (m : FpMod) (a b : Word), m.sat = false → isNan ffF32 a.toNat = true →
    faddLane fm m a b = (0x7FC00000#32, 0#8) ∧ faddLane fm m b a = (0x7FC00000#32, 0#8)
      ∧ fmulLane fm m a b = (0x7FC00000#32, 0#8) ∧ fmulLane fm m b a = (0x7FC00000#32, 0#8)
      ∧ fdivLane fm m a b = (0x7FC00000#32, 0#8) ∧ fdivLane fm m b a = (0x7FC00000#32, 0#8)

/-- COALESCE, RUNS, RUNGET, RUNAPP and RBUDGET complete with a lane active and their sources live: COALESCE into its destination's
maximal runs, RUNS with the count, RUNGET with first lane, count and value of an unpoisoned run or 0, RUNAPP with the list that
its checks allow, RBUDGET with its snapshot (R100-R106). PART sets sr.part, and SWR writes sr.flags by clearing the bits given,
and sr.fpmode and sr.nanc by replacing them (R176, R185). TIME writes the time base to its destination and moves on (R274,
R286). Of what this rests on, the model chose what assumption log 27 and 148 names. -/
def Obligations.RunAndSpecialRegisters : Prop :=
  (∀ (h : Head) (s : State) (c : Ctx), Enters s h.guard c → c.act ≠ 0#32 → c.clear = true → c.a.pipeErr = none →
     heldSlots c.a + 32 ≤ slotLimit c.s c.g →
     (∀ (n m : Fin 64), (∃ l, c.a.vreg m = some l ∧ lengthOf l = 32) → mergeCheck c.a c.act (.v n) = none →
         exec (.coalesce h (.v n) (.v m)) s = .next (c.put (settleAccounts c.g.budget
           (((killRegs c.a (headKills h (.v m) .zero .zero)).setV n (some (coalesceRuns (c.a.vreg n) (c.a.vreg m) c.act))).advance c.x))))
     ∧ (∀ (d n : Fin 64) (max : Bool) (l : List Run), c.a.vreg n = some l →
         exec (.runs h (.s d) (.v n) max) s = .next (c.put (settleAccounts c.g.budget
           (((killRegs c.a (headKills h (.v n) .zero .zero)).setS d
             (some (BitVec.ofNat 64 (if max then maxRuns l else l).length))).advance c.x))))
     ∧ (∀ (d n : Fin 64) (k : BitVec 32) (l : List Run), c.a.vreg n = some l → (∀ r, l[k.toNat]? = some r → r.poison = false) →
         exec (.runget h (.s d) (.v n) (.imm k)) s = .next (c.put (settleAccounts c.g.budget
           (((killRegs c.a (headKills h (.v n) (.imm k) .zero)).setS d (some (rungetVal l k.toNat))).advance c.x))))
     ∧ (∀ (n : Fin 64) (v k : BitVec 32) (first last : Bool) (l : List Run),
         runappList (c.a.vreg n) first last v k.toNat = .inr l → l.length ≤ 32 →
         exec (.runapp h (.v n) (.imm v) (.imm k) first last) s = .next (c.put (settleAccounts c.g.budget
           (((killRegs c.a (headKills h (.imm v) (.imm k) .zero)).setV n (some l)).advance c.x))))
     ∧ (∀ d : Fin 64, exec (.rbudget h (.s d)) s = .next (c.put (settleAccounts c.g.budget
         ((c.a.setS d (some (rbudgetVal c.s c.g))).advance c.x)))))
  ∧ (∀ (h : Head) (s : State) (c : Ctx), Enters s h.guard c → c.act ≠ 0#32 →
       (∀ code : BitVec 3, exec (.part h code) s = .next (c.put (settleAccounts c.g.budget ({ c.a with part := code }.advance c.x))))
       ∧ (∀ (n : Fin 64) (x : DWord), c.a.sreg n = some x → wordPoison c.a (.s n) = false → c.a.pipeErr = none → h.la = false →
           exec (.swr h (.sr .flags) (.s n)) s = .next (c.put (settleAccounts c.g.budget
               ({ c.a with flags := c.a.flags &&& ~~~(x.setWidth 8) }.advance c.x)))
           ∧ exec (.swr h (.sr .fpmode) (.s n)) s = .next (c.put (settleAccounts c.g.budget
               ({ c.a with fpmode := x.setWidth 10 }.advance c.x)))
           ∧ exec (.swr h (.sr .nanc) (.s n)) s = .next (c.put (settleAccounts c.g.budget
               ({ c.a with nanc := x.setWidth 32 }.advance c.x)))
           ∧ (c.a.mode = .trap →
               exec (.swr h (.sr .tpc) (.s n)) s = .next (c.put (settleAccounts c.g.budget ({ c.a with tpc := x }.advance c.x)))
               ∧ exec (.swr h (.sr .tlane) (.s n)) s = .next (c.put (settleAccounts c.g.budget
                   ({ c.a with tlane := x.setWidth 5 }.advance c.x))))))
  ∧ (∀ (h : Head) (d : Opnd) (s : State) (c : Ctx), Enters s h.guard c → c.act ≠ 0#32 → c.a.pipeErr = none →
       exec (.time h d) s = .next (afterCommit c ((writeScalar c.a d (dieTime s c.g.id.die)).advance c.x)))

/-! ## Control flow and traps -/

/-- NOP moves its slot on by 12 and changes nothing else, whatever its guard (R215). JMP, CALL and RET set the slot's PC to their
target when a lane is active, and otherwise move on; they change neither mask nor join reference, and CALL writes PC + 12; a
target that R54 refuses raises MISALIGNED with the target, and CALL then writes no link (R217, R220). A BRA that takes no lane
moves on, one that takes all of its slot's lanes goes to its target (R216). BRA's causes in their order: MISALIGNED for the
target, MISALIGNED for the join, DIVERGENCE_OVERFLOW with SP. A BRA that divides its slot's lanes: its own slot goes on with the
lanes N whose guard is false; the lanes T go to the other slot when it is free, else onto the stack as a PATH entry; both refer
to the JOIN entry pushed at SP, which expects two arrivals and has the slot's old join as its parent (R216). -/
def Obligations.WholeSlotTransfers : Prop :=
  ((∀ (h : Head) (s : State) (c : Ctx), Enters s alwaysGuard c → exec (.nop h) s = .next (afterCommit c (c.a.advance c.x)))
   ∧ ∀ (h : Head) (s : State) (c : Ctx), Enters s h.guard c →
     (∀ target join : BitVec 16, c.act = 0#32 → exec (.bra h target join) s = .next (afterCommit c (c.a.advance c.x)))
     ∧ (∀ target join : BitVec 16, c.act ≠ 0#32 → c.act = c.slot.mask →
         targetOk (relTarget c.pc target) (codeLength c) = true →
         exec (.bra h target join) s = .next (afterCommit c (setPc c.a c.x (relTarget c.pc target))))
     ∧ (∀ (target : BitVec 16) (d : Opnd), c.act = 0#32 →
         exec (.jmpOffset h target) s = .next (afterCommit c (c.a.advance c.x))
         ∧ exec (.callOffset h d target) s = .next (afterCommit c (c.a.advance c.x)))
     ∧ (∀ (target : BitVec 16) (d : Opnd) (t : BitVec 64), c.act ≠ 0#32 → t = relTarget c.pc target →
         (targetOk t (codeLength c) = true →
           exec (.jmpOffset h target) s = .next (afterCommit c (setPc c.a c.x t))
           ∧ exec (.callOffset h d target) s
               = .next (afterCommit c (setPc (writeScalar c.a d ((c.pc + 12#32).setWidth 64)) c.x t)))
         ∧ (targetOk t (codeLength c) = false → c.clear = true →
           exec (.jmpOffset h target) s = .next (takeTrap s c.g c.x 0x06#8 t (c.pc.setWidth 64) 0#5)
           ∧ exec (.callOffset h d target) s = .next (takeTrap s c.g c.x 0x06#8 t (c.pc.setWidth 64) 0#5)))
     ∧ ∀ (n : Fin 64) (d : Opnd) (t : DWord) (b : Arch), c.a.sreg n = some t → wordPoison c.a (.s n) = false →
         c.a.pipeErr = none → b = killRegs c.a (headKills h (.s n) .zero .zero) →
         (c.act = 0#32 → ∀ i ∈ [Instr.jmpScalar h (.s n), .ret h (.s n), .callScalar h d (.s n)],
           exec i s = .next (afterCommit c (b.advance c.x)))
         ∧ (c.act ≠ 0#32 → targetOk t (codeLength c) = true →
           exec (.jmpScalar h (.s n)) s = .next (afterCommit c (setPc b c.x t))
           ∧ exec (.ret h (.s n)) s = .next (afterCommit c (setPc b c.x t))
           ∧ exec (.callScalar h d (.s n)) s
               = .next (afterCommit c (setPc (writeScalar b d ((c.pc + 12#32).setWidth 64)) c.x t)))
         ∧ (c.act ≠ 0#32 → targetOk t (codeLength c) = false → c.clear = true →
           ∀ i ∈ [Instr.jmpScalar h (.s n), .ret h (.s n), .callScalar h d (.s n)],
             exec i s = .next (takeTrap s c.g c.x 0x06#8 t (c.pc.setWidth 64) 0#5)))
  ∧ ((∀ (h : Head) (target join : BitVec 16) (s : State) (c : Ctx), Enters s h.guard c → c.act ≠ 0#32 → c.clear = true →
       (targetOk (relTarget c.pc target) (codeLength c) = false →
         exec (.bra h target join) s = .next (takeTrap s c.g c.x 0x06#8 (relTarget c.pc target) (c.pc.setWidth 64) 0#5))
       ∧ (targetOk (relTarget c.pc target) (codeLength c) = true → c.slot.mask &&& ~~~c.act ≠ 0#32 →
         (targetOk (relTarget c.pc join) (codeLength c) = false →
           exec (.bra h target join) s = .next (takeTrap s c.g c.x 0x06#8 (relTarget c.pc join) (c.pc.setWidth 64) 0#5))
         ∧ (targetOk (relTarget c.pc join) (codeLength c) = true → 64 < c.a.sp + (if otherFree c then 1 else 2) →
           exec (.bra h target join) s
             = .next (takeTrap s c.g c.x 0x0C#8 (BitVec.ofNat 64 c.a.sp) (c.pc.setWidth 64) 0#5))))
     ∧ ∀ (h : Head) (target join : BitVec 16) (s : State) (c : Ctx), Enters s h.guard c →
       c.act ≠ 0#32 → c.slot.mask &&& ~~~c.act ≠ 0#32 → c.act &&& ~~~c.slot.mask = 0#32 →
       targetOk (relTarget c.pc target) (codeLength c) = true → targetOk (relTarget c.pc join) (codeLength c) = true →
       c.a.sp + (if otherFree c then 1 else 2) ≤ 64 →
         ∃ t a, exec (.bra h target join) s = .next t ∧ OnlyRegisters c a t
           ∧ (a.slot c.x).mask = c.slot.mask &&& ~~~c.act ∧ (a.slot c.x).pc = c.pc + 12#32 ∧ (a.slot c.x).join = some c.a.sp
           ∧ entryAt a c.a.sp
               = { kind := .join, pc := (relTarget c.pc join).setWidth 32, mask := 0#32, link := 2, parent := c.slot.join }
           ∧ (if otherFree c then
               (a.slot (otherSlot c.x)).live = true ∧ (a.slot (otherSlot c.x)).pc = (relTarget c.pc target).setWidth 32
                 ∧ (a.slot (otherSlot c.x)).mask = c.act ∧ (a.slot (otherSlot c.x)).join = some c.a.sp ∧ a.sp = c.a.sp + 1
             else
               entryAt a (c.a.sp + 1)
                   = { kind := .path, pc := (relTarget c.pc target).setWidth 32, mask := c.act, link := c.a.sp, parent := none }
                 ∧ a.slot (otherSlot c.x) = c.a.slot (otherSlot c.x) ∧ a.sp = c.a.sp + 2)
           ∧ a.v = c.a.v ∧ a.s = c.a.s ∧ a.p = c.a.p ∧ a.flags = c.a.flags ∧ a.mode = c.a.mode)

/-- JMPI: an index beyond the table traps before any lane moves, with the lowest such lane and its index in sr.tval; with every
index in range, its table words read and their targets allowed, the slot goes to the one target of all its lanes, or divides
into the groups of equal targets (R218). Of what this rests on, the model chose what assumption log 36 names. -/
def Obligations.IndexedJump : Prop :=
  ∀ (h : Head) (n : Fin 64) (b : Opnd) (countM1 : BitVec 8) (join : BitVec 16) (s : State) (c : Ctx),
    Enters s h.guard c → c.act ≠ 0#32 → deadCheck c.a (single [.v n, b]) = none → wordPoison c.a b = false →
    c.clear = true → readCheck c.a c.act (single [.v n]) = none →
      (∀ l, (lanesIn c.act).find? (fun l => decide ((laneOf c (.v n) l).toNat > countM1.toNat)) = some l →
        exec (.jmpi h (.v n) b countM1 join) s = .next (takeTrap s c.g c.x 0x0B#8
          ((BitVec.ofNat 64 l <<< (32 : Nat)) ||| (laneOf c (.v n) l).setWidth 64) (c.pc.setWidth 64) 0#5))
      ∧ ∀ r, (∀ l ∈ lanesIn c.act, (laneOf c (.v n) l).toNat ≤ countM1.toNat) → JmpiReads c (.v n) b r → r.2.2 = false →
          (∀ w ∈ r.2.1, targetOk (w.2.signExtend 64) (codeLength { c with s := r.1 }) = true) →
          ∀ gs, gs = jmpiGroups (jmpiTarget c r.2.1) (lanesIn c.slot.mask) [] →
            (∀ g, gs = [g] → exec (.jmpi h (.v n) b countM1 join) s
                = .next (afterCommit { c with s := r.1 } (setPc (killRegs c.a (headKills h (.v n) b .zero)) c.x g.1)))
            ∧ (2 ≤ gs.length → targetOk (relTarget c.pc join) (codeLength { c with s := r.1 }) = true →
                c.a.sp + gs.length + (if otherFree c then 0 else 1) ≤ 65 →
                exec (.jmpi h (.v n) b countM1 join) s = .next (afterCommit { c with s := r.1 }
                  (jmpiArch { c with s := r.1 } (killRegs c.a (headKills h (.v n) b .zero)) (relTarget c.pc join) gs)))

/-- A JOIN whose slot has no join reference, or one to a record at another offset, moves the slot on and does nothing else (R219). A
slot that arrives at its join before the last frees itself: its lanes are added to the JOIN entry's mask, the outstanding count
falls by one, and the slot takes the topmost live PATH entry where there is one (R211); the last arrival takes the union of the
lanes, goes on past the JOIN with its parent's reference, and kills the entry (R212, R219). EXIT outside trap mode takes its
active lanes out of the slot, which goes on with the others, arrives at its join when none is left, or without a join becomes
free; with no lane active it only moves on. In trap mode, whatever its guard, it ends the whole gang with FAILED_TRAP and
reports the trap that entered trap mode, once no older instruction of the gang may still trap (R198, R221). Of what this rests
on, the model chose what assumption log 38 names. -/
def Obligations.JoinAndExit : Prop :=
  (∀ (h : Head) (s : State) (c : Ctx), Enters s alwaysGuard c →
     (c.slot.join = none → exec (.join h) s = .next (afterCommit c (c.a.advance c.x)))
     ∧ ∀ j, c.slot.join = some j → j < 64 →
       ((entryAt c.a j).kind ≠ .join ∨ (entryAt c.a j).pc ≠ c.pc → exec (.join h) s = .next (afterCommit c (c.a.advance c.x)))
       ∧ ((entryAt c.a j).kind = .join → (entryAt c.a j).pc = c.pc →
         exec (.join h) s = .next (afterCommit c (arrive c.a c.x j))
         ∧ (1 < (entryAt c.a j).link →
             (entryAt (arrive c.a c.x j) j).mask = (entryAt c.a j).mask ||| c.slot.mask
             ∧ (entryAt (arrive c.a c.x j) j).link = (entryAt c.a j).link - 1
             ∧ (topPath c.a c.a.sp = none → ((arrive c.a c.x j).slot c.x).live = false)
             ∧ (∀ n, c.a.mode = .running → topPath c.a c.a.sp = some n → n < 64 →
                 ((arrive c.a c.x j).slot c.x).live = true ∧ ((arrive c.a c.x j).slot c.x).pc = (entryAt c.a n).pc
                 ∧ ((arrive c.a c.x j).slot c.x).mask = (entryAt c.a n).mask
                 ∧ ((arrive c.a c.x j).slot c.x).join = some (entryAt c.a n).link))
         ∧ ((entryAt c.a j).link = 1 → (entryAt c.a j).mask ||| c.slot.mask ≠ 0#32 →
             (arrive c.a c.x j).slot c.x
                 = { c.slot with mask := (entryAt c.a j).mask ||| c.slot.mask, pc := (entryAt c.a j).pc + 12#32,
                                 join := (entryAt c.a j).parent }
             ∧ (entryAt (arrive c.a c.x j) j).kind = .dead)))
  ∧ (∀ (h : Head) (s : State) (c : Ctx), Enters s h.guard c →
       (c.a.mode = .running →
         (c.act = 0#32 → exec (.exit h) s = .next (afterCommit c (c.a.advance c.x)))
         ∧ (c.act ≠ 0#32 → exec (.exit h) s = .next (afterCommit c (exitArch c)))
         ∧ (c.slot.mask &&& ~~~c.act ≠ 0#32 →
           (exitArch c).slot c.x = { c.slot with mask := c.slot.mask &&& ~~~c.act, pc := c.pc + 12#32 })
         ∧ (c.slot.mask &&& ~~~c.act = 0#32 → c.slot.join = none → topPath c.a c.a.sp = none → ((exitArch c).slot c.x).live = false)
         ∧ (∀ j, c.slot.mask &&& ~~~c.act = 0#32 → c.slot.join = some j →
           exitArch c = arrive (c.a.setSlot c.x { c.slot with mask := 0#32, pc := c.pc + 12#32 }) c.x j))
       ∧ (c.a.mode = .trap → c.clear = true →
         exec (.exit h) s = .next (failGang s c.g 2 c.a.tcause (entryPc c.a))
         ∧ findGang (failGang s c.g 2 c.a.tcause (entryPc c.a)) c.g.id = none
         ∧ ∀ b, findBlock s c.g.block = some b → ∃ b', findBlock (failGang s c.g 2 c.a.tcause (entryPc c.a)) c.g.block = some b'
             ∧ b'.state = .abandoned))

/-- YIELD gives the pair an age stamp one past the tick of its issue; SLEEP of 0 only moves on; SLEEP of n makes the slot wait until
the tick of its issue plus n, as its die counts, its PC staying (R222). SLEEP_EXPIRY: when a slot's deadline is reached the slot
moves past its SLEEP and waits no more; before, nothing changes (R222). Of what this rests on, the model chose what assumption
log 14 and 46 names. -/
def Obligations.YieldAndSleep : Prop :=
  (∀ (h : Head) (s : State) (c : Ctx), Enters s h.guard c → c.act ≠ 0#32 →
     exec (.yield h) s = .next (afterCommit c ((c.a.setSlot c.x { c.slot with stamp := s.tick + 1 }).advance c.x))
     ∧ (c.a.pipeErr = none →
       exec (.sleep h .zero) s = .next (afterCommit c ((killRegs c.a (headKills h .zero .zero .zero)).advance c.x))
       ∧ ∀ (n : Fin 64) (x : DWord), c.a.sreg n = some x → wordPoison c.a (.s n) = false → (x.setWidth 32 : BitVec 32) ≠ 0#32 →
           exec (.sleep h (.s n)) s = .next (c.put (c.a.setWait c.x
             (.sleep (dieTick s c.g.id.die + (x.setWidth 32 : BitVec 32).toNat) (retireOf .zero (headKills h (.s n) .zero .zero)))))))
  ∧ (∀ (s : State) (g : Gang) (x : PcSlot) (n : Nat) (r : Retire), findGang s g.id = some g → (g.arch.slot x).wait = .sleep n r →
       (dieTick s g.id.die < n → exec (.sleepExpiry g.id x) s = .next s)
       ∧ (n ≤ dieTick s g.id.die → g.halted = false → (g.arch.slot x).live = true → modeReady g.arch x = true →
           ∃ t g', exec (.sleepExpiry g.id x) s = .next t ∧ findGang t g.id = some g'
             ∧ (g'.arch.slot x).pc = (g.arch.slot x).pc + 12#32 ∧ (g'.arch.slot x).wait = .none ∧ (g'.arch.slot x).mask = (g.arch.slot x).mask
             ∧ g'.arch.slot (otherSlot x) = g.arch.slot (otherSlot x) ∧ t.mem = s.mem))

/-- TRAP with a lane active raises SOFTWARE with its operand in sr.tval and its own offset plus 12 in sr.tpc, and with none only
takes its marks and moves on (R59, R413). BRK raises BREAK with its code and its own offset, whatever its guard (R414). UDF
raises ILLEGAL_OPCODE with 0x0D, whatever its other bits, and a word of an unassigned opcode raises it with the opcode (R72,
R73). Each waits first while an older instruction of its gang may still trap (R97). -/
def Obligations.TrapInstructions : Prop :=
  (∀ (h : Head) (a : Opnd) (s : State) (c : Ctx), Enters s h.guard c → deadCheck c.a (single [a]) = none →
      (c.act ≠ 0#32 → wordPoison c.a a = false → c.clear = true → exec (.trap h a) s
        = .next (takeTrap s c.g c.x 0x18#8 (scalarOf c a) (c.pc.setWidth 64 + 12#64) 0#5))
      ∧ (c.act = 0#32 → MayCommit c (killRegs c.a (headKills h a .zero .zero)) → exec (.trap h a) s
        = .next (afterCommit c ((killRegs c.a (headKills h a .zero .zero)).advance c.x))))
  ∧ (∀ (s : State) (c : Ctx), Enters s alwaysGuard c →
      (c.clear = true →
        (∀ (h : Head) (code : BitVec 16), exec (.brk h code) s
            = .next (takeTrap s c.g c.x 0x17#8 (code.setWidth 64) (c.pc.setWidth 64) 0#5))
        ∧ exec .udf s = .next (takeTrap s c.g c.x 0x01#8 0x0D#64 (c.pc.setWidth 64) 0#5)
        ∧ ∀ opc : BitVec 8, exec (.illegalOpcode opc) s
            = .next (takeTrap s c.g c.x 0x01#8 (opc.setWidth 64) (c.pc.setWidth 64) 0#5))
      ∧ (c.clear = false → (∀ (h : Head) (code : BitVec 16), exec (.brk h code) s = c.hold .order) ∧ exec .udf s = c.hold .order
        ∧ ∀ opc : BitVec 8, exec (.illegalOpcode opc) s = c.hold .order))
  ∧ ∀ w : IWord, (w.extractLsb' 0 8 = 0x0D#8 → decode w = .ok .udf)
      ∧ (w.extractLsb' 0 8 ≠ 0x0D#8 → assignedOpc (w.extractLsb' 0 8).toNat = false →
          decode w = .ok (.illegalOpcode (w.extractLsb' 0 8)))

/-- Trap entry, in one step: sr.tcause, sr.tval, sr.tpc, sr.tlane and sr.tslot take what the trap gives; the slot's mask, join
reference and SP are saved as the entry frame; the gang is in TRAP; its fetch buffer is discarded; the slot's PC is the
handler's entry and its mask stays; no other register of the gang and no other gang changes (R408, R409). A trap that a gang
raises in trap mode kills it: the gang is gone, and its block is ABANDONED (R196, R200, R411). Of what this rests on, the model
chose what assumption log 10, 137 and 155 names. -/
def Obligations.TrapEntry : Prop :=
  (∀ (s : State) (g : Gang) (x : PcSlot) (cause : BitVec 8) (tval tpc : BitVec 64) (lane : BitVec 5) (entry : BitVec 32) (tvec : Bool),
     findGang s g.id = some g → g.arch.mode = .running → trapEntry s g = some (entry, tvec) →
       ∃ a, findGang (takeTrap s g x cause tval tpc lane) g.id = some { g with arch := a, fetch := [] }
         ∧ a.tcause = cause ∧ a.tval = tval ∧ a.tpc = tpc ∧ a.tlane = lane ∧ a.tslot = x
         ∧ a.frame = { pc := (g.arch.slot x).pc, mask := (g.arch.slot x).mask, join := (g.arch.slot x).join, sp := g.arch.sp }
         ∧ a.mode = .trap ∧ (a.slot x).pc = entry ∧ (a.slot x).mask = (g.arch.slot x).mask ∧ (a.slot x).live = (g.arch.slot x).live
         ∧ a.slot (otherSlot x) = g.arch.slot (otherSlot x)
         ∧ a.v = g.arch.v ∧ a.s = g.arch.s ∧ a.p = g.arch.p ∧ a.flags = g.arch.flags ∧ a.fpmode = g.arch.fpmode
         ∧ a.nanc = g.arch.nanc ∧ a.part = g.arch.part ∧ a.gen = g.arch.gen ∧ a.stack = g.arch.stack ∧ a.sp = g.arch.sp
         ∧ (∀ id, id ≠ g.id → findGang (takeTrap s g x cause tval tpc lane) id = findGang s id)
         ∧ (takeTrap s g x cause tval tpc lane).mem = s.mem)
  ∧ (∀ (s : State) (g : Gang) (b : Block) (x : PcSlot) (cause : BitVec 8) (tval tpc : BitVec 64) (lane : BitVec 5),
       findGang s g.id = some g → g.arch.mode = .trap → findBlock s g.block = some b →
         findGang (takeTrap s g x cause tval tpc lane) g.id = none
         ∧ ∃ b', findBlock (takeTrap s g x cause tval tpc lane) g.block = some b' ∧ b'.state = .abandoned)

/-- ERET in trap mode with the stack at the entry frame's height and an allowed sr.tpc: the gang is RUNNING, the slot has the
frame's mask and join reference and its PC from sr.tpc, the fetch buffer is discarded, and when sr.tpc is the trapping
instruction's offset and sr.tlane is not 0, that instruction's next issue leaves out the lanes below sr.tlane (R415, R416).
While an older instruction of the gang may still trap the slot waits (R97). -/
def Obligations.EretReturns : Prop :=
  ∀ (h : Head) (s : State) (c : Ctx), Enters s h.guard c → c.act ≠ 0#32 → c.a.mode = .trap → c.a.sp = c.a.frame.sp →
    targetOk c.a.tpc (ownLength c) = true →
      (c.clear = false → exec (.eret h) s = c.hold .order)
      ∧ (c.clear = true → ∃ t a, exec (.eret h) s = .next t ∧ findGang t c.g.id = some { c.g with arch := a, fetch := [] }
        ∧ a.mode = .running
        ∧ (a.slot c.a.tslot).pc = c.a.tpc.setWidth 32 ∧ (a.slot c.a.tslot).mask = c.a.frame.mask
        ∧ (a.slot c.a.tslot).join = c.a.frame.join
        ∧ a.slot (otherSlot c.a.tslot) = c.a.slot (otherSlot c.a.tslot)
        ∧ a.v = c.a.v ∧ a.s = c.a.s ∧ a.p = c.a.p ∧ a.flags = c.a.flags ∧ a.stack = c.a.stack
        ∧ (c.a.tpc = c.a.frame.pc.setWidth 64 → c.a.tlane ≠ 0#5 →
            a.resume = some (c.a.tslot, c.a.tpc.setWidth 32, c.a.tlane)
            ∧ issueMask a c.a.tslot = c.a.frame.mask &&& ~~~((1#32 <<< c.a.tlane.toNat) - 1#32))
        ∧ ∀ id, id ≠ c.g.id → findGang t id = findGang s id)

/-! ## Loads, stores and atomics -/

/-- LD, SLD and RFILL whose addresses pass issue an access that the ld counter counts and move on; the registers and memory stay as
they are until it returns, and its last-read marks and destinations are held by it (R97, R109, R247, R277, R279). LOAD_RETURN of
a load whose bytes are not poisoned commits it: word j of each active lane stands in register j of the group and every other
lane keeps its value, or the scalar holds the extended datum; the access is over and memory is unchanged (R89, R277, R279). PREF
with its registers live moves on with its last-read marks, taken or dropped: no register, no memory byte, no access and no
counter of the machine changes (R280). Of what this rests on, the model chose what assumption log 40, 42, 43, 44, 140, 160 and
165 names. -/
def Obligations.LoadsComplete : Prop :=
  (∀ (h : Head) (off : BitVec 32) (s : State) (c : Ctx), c.g.ld < 63 →
     (∀ (d a b : Opnd) (m : MemMod) (r : State × List Checked), Starts s h (single [a, b]) [a] c →
       readCheck c.a c.act (single [a, b]) = none → groupMerge c.a c.act d m.width.regs = none →
       r = checkLanes c.s c.g m.space (widthBytes m.width) .read
         ((lanesIn c.act).map fun i => (i, laneAddr c m.space a b off (widthBytes m.width) i)) → firstFail r.2 = none →
         ∃ t, exec (.ld h d a b off m) s = .next t
           ∧ Issued { c with s := r.1 } (c.a.advance c.x)
               (.load d (widthBytes m.width) (widthSigned m.width) c.act (accsOf (passing r.2) fun _ => 0#128) m.policy)
               (spreadReads (headKills h a b .zero)) (groupOpnds d m.width.regs) t)
     ∧ (∀ (d a : Opnd) (m : MemMod) (r : State × List Checked), Starts s h (single [a]) [a] c → wordPoison c.a a = false →
       r = checkLanes c.s c.g m.space (widthBytes m.width) .read [(0, scalarAddr c m.space a off (widthBytes m.width))] →
       firstFail r.2 = none →
         ∃ t, exec (.sld h d a off m) s = .next t
           ∧ Issued { c with s := r.1 } (c.a.advance c.x)
               (.load d (widthBytes m.width) (widthSigned m.width) 1#32 (accsOf (passing r.2) fun _ => 0#128) m.policy)
               (spreadReads (headKills h a .zero .zero)) (groupOpnds d 1) t)
     ∧ (∀ (d a : Opnd) (die core pos : Nat), Starts s h (single [a]) [a] c → wordPoison c.a a = false →
       ScratchSpan c a off 8 .read die core pos →
         ∃ t, exec (.rfill h d a off) s = .next t
           ∧ Issued c (c.a.advance c.x) (.rfill d die core pos) (spreadReads (headKills h a .zero .zero)) (groupOpnds d 1) t))
  ∧ (∀ (s : State) (p : Pend) (g : Gang) (op : Nat) (d : Opnd) (n : Nat) (sg : Bool) (act : Mask) (accs : List LaneAcc)
       (pol : Policy) (r : State × List (Nat × Nat × Bool)), findPend s op = some p → p.kind = .load d n sg act accs pol → pendHeld s p = false →
       olderRisk s p.gang op = false → lateReply s p = false → findGang s p.gang = some g → (∀ x ∈ accs, loadReach s g.id pol x.tgt = true) →
       n ≤ 16 → r = readLanes s g pol n accs →
       (∀ x ∈ r.2, x.2.2 = false) → heldSlots g.arch + 32 * max 1 (n / 4) ≤ slotLimit s g →
         ∃ t g', exec (.loadReturn op) s = .next t ∧ findGang t p.gang = some g' ∧ findPend t op = none ∧ t.mem = s.mem
           ∧ (∀ v, d = .v v → ∀ k < max 1 (n / 4), ∀ i < 32,
               vregVal (g'.arch.vreg (groupReg v k)) i
                 = if inMask act i then (extendNat sg n (laneResult r.2 i).1).extractLsb' (32 * k) 32
                   else vregVal (g.arch.vreg (groupReg v k)) i)
           ∧ (∀ x, d = .s x → g'.arch.sreg x = some ((extendNat sg n (laneResult r.2 0).1).setWidth 64)))
  ∧ (∀ (h : Head) (a b : Opnd) (off : BitVec 32) (m : MemMod) (s : State) (c : Ctx), Enters s h.guard c → c.act ≠ 0#32 →
       deadCheck c.a (single [a, b]) = none → MayCommit c (killRegs c.a (headKills h a b .zero)) →
         ∃ t, exec (.pref h a b off m) s = .next t ∧ GangHolds c ((killRegs c.a (headKills h a b .zero)).advance c.x) t
           ∧ t.mem = s.mem ∧ t.pend = s.pend)

/-- ST, SST and RSPILL whose lanes all pass commit with their last-read marks, and what they write is an access that the st counter
counts, the youngest of the machine; memory is as it was until it is performed (R108, R247, R278, R279). The store's address is
the one that its meaning computes for each lane. A store of which a lane fails is performed below that lane and no further, and
then traps with the failing lane's cause, address and number (R258). Of what this rests on, the model chose what assumption log
9 and 39 names. -/
def Obligations.StoresIssue : Prop :=
  (∀ (h : Head) (off : BitVec 32) (s : State) (c : Ctx), c.g.st < 63 →
     (∀ (a b e : Opnd) (m : MemMod) (r : State × List Checked) (l : List Checked),
       Starts s h [(a, 1), (b, 1), (e, m.width.regs)] [a] c → readCheck c.a c.act [(a, 1), (b, 1), (e, m.width.regs)] = none →
       MayCommit c (killRegs c.a (killsOf h (a, 1) (b, 1) (e, m.width.regs))) →
       r = checkLanes c.s c.g m.space (widthBytes m.width) .write
         ((lanesIn c.act).map fun i => (i, laneAddr c m.space a b (storeOff e off) (widthBytes m.width) i)) →
       l = r.2.map (bellSize (widthBytes m.width)) → firstFail l = none →
         ∃ t, exec (.st h a b e off m) s = .next t
           ∧ Issued { c with s := r.1 }
               (settleAccounts c.g.budget ((killRegs c.a (killsOf h (a, 1) (b, 1) (e, m.width.regs))).advance c.x))
               (storeKind (widthBytes m.width) m.policy c.act
                 (accsOf (passing l) (storeData c e (widthBytes m.width)))) [] [] t ∧ t.mem = s.mem)
     ∧ (∀ (a e : Opnd) (m : MemMod) (r : State × List Checked) (l : List Checked), Starts s h (single [a, e]) [a] c →
       wordCheck c.a [a, e] = none → MayCommit c (killRegs c.a (headKills h a .zero e)) →
       r = checkLanes c.s c.g m.space (widthBytes m.width) .write
         [(0, scalarAddr c m.space a (storeOff e off) (widthBytes m.width))] →
       l = r.2.map (bellSize (widthBytes m.width)) → firstFail l = none →
         ∃ t, exec (.sst h a e off m) s = .next t
           ∧ Issued { c with s := r.1 } (settleAccounts c.g.budget ((killRegs c.a (headKills h a .zero e)).advance c.x))
               (storeKind (widthBytes m.width) m.policy 1#32
                 (accsOf (passing l) fun _ => (scalarOf c e).setWidth 128)) [] [] t ∧ t.mem = s.mem)
     ∧ (∀ (a : Opnd) (n : Fin 64) (l : List Run) (free : Bool) (die core pos : Nat), Starts s h (single [a, .v n]) [a] c →
       wordPoison c.a a = false → c.a.vreg n = some l → lengthOf l = 32 →
       MayCommit c (killRegs c.a (headKills h a .zero (.v n) ++ (if free then [(.v n, 1)] else []))) →
       (spaceTarget c.s c.g .scratch (scalarAddr c .scratch a off 8) (imageBytes l).length .write).2 = .inr (.scratch die core pos) →
         ∃ t, exec (.rspill h a (.v n) off free) s = .next t
           ∧ Issued c (settleAccounts c.g.budget
                 ((killRegs c.a (headKills h a .zero (.v n) ++ (if free then [(.v n, 1)] else []))).advance c.x))
               (.image false die core pos (imageBytes l) []) [] [] t ∧ t.mem = s.mem))
  ∧ (∀ (h : Head) (off : BitVec 32) (s : State) (c : Ctx) (a b e : Opnd) (m : MemMod) (r : State × List Checked) (l : List Checked)
       (cause : BitVec 8) (va : BitVec 64) (lane : BitVec 5), c.g.st < 63 →
       Starts s h [(a, 1), (b, 1), (e, m.width.regs)] [a] c → readCheck c.a c.act [(a, 1), (b, 1), (e, m.width.regs)] = none →
       c.clear = true → r = checkLanes c.s c.g m.space (widthBytes m.width) .write
         ((lanesIn c.act).map fun i => (i, laneAddr c m.space a b (storeOff e off) (widthBytes m.width) i)) →
       l = r.2.map (bellSize (widthBytes m.width)) → firstFail l = some (.trap cause va lane) → c.a.mode = .running →
       (∃ x, trapEntry r.1 c.g = some x) →
         ∃ t g, exec (.st h a b e off m) s = .next t ∧ findGang t c.g.id = some g ∧ g.arch.mode = .trap ∧ g.arch.tcause = cause
           ∧ g.arch.tval = va ∧ g.arch.tlane = lane ∧ g.arch.tpc = c.pc.setWidth 64 ∧ g.arch.v = c.a.v ∧ g.arch.s = c.a.s
           ∧ t.mem = s.mem
           ∧ (passing l ≠ [] → ∃ p, t.pend = s.pend ++ [p] ∧ p.kind = storeKind (widthBytes m.width) m.policy c.act
               (accsOf (passing l) (storeData c e (widthBytes m.width))))
           ∧ (passing l = [] → t.pend = s.pend))

/-- STORE_PERFORMED of a store of any number of lanes ends the access and gives each byte that a lane covers the highest such lane's
data, and no other byte anything: in scratchpads at once; on normal pages in the lines of its core's L1, which keeps its leases
and allocates none, each lane going on to the cluster cache on its own; a lane on a host-biased page at its home (R4, R247,
R259, R261, R263, R278, R316). The images of RSPILL and MSTT stand in the scratchpad whole (R107, R108, R363). Stores are
performed only once no older instruction of the gang can trap and no older access of it touches their bytes: until then
STORE_PERFORMED changes nothing (R97, R262). Of what this rests on, the model chose what assumption log 9, 16 and 165 names. -/
def Obligations.StoresPerformed : Prop :=
  (∀ (s : State) (p : Pend) (op n : Nat), findPend s op = some p → olderRisk s p.gang op = false → pendHeld s p = false →
     (∀ (accs : List LaneAcc) (pol : Policy), p.kind = .store n accs pol →
       ((∀ x ∈ accs, ∃ d k q, x.tgt = .scratch d k q) → (∀ d k, Memory.wf (getCore s d k).scratch = true) →
         ∃ t, exec (.storePerformed op) s = .next t ∧ findPend t op = none ∧ t.mem = s.mem
           ∧ ∀ d k a, cellGet (getCore t d k).scratch a
               = (storedByte n (scratchPos d k) accs a).getD (cellGet (getCore s d k).scratch a))
       ∧ ((∀ x ∈ accs, ∃ pa, x.tgt = .mem pa false ∧ pa % 128 + n ≤ 128) →
         ∃ t, exec (.storePerformed op) s = .next t ∧ findPend t op = none ∧ t.mem = s.mem ∧ t.clusters = s.clusters
           ∧ t.through = s.through ++ accs.filterMap (fun x => (normalPos x.tgt).map fun pa =>
               { gang := p.gang, op := op, line := pa / 128, mask := byteSpan 128 (pa % 128) n,
                 data := lineOf 1024 (pa % 128) (x.data.toNat % 256 ^ n), policy := pol })
           ∧ ∀ y ∈ (getCore s p.gang.die p.gang.core).l1, ∃ z ∈ (getCore t p.gang.die p.gang.core).l1,
               z.line = y.line ∧ z.leaseEnd = y.leaseEnd ∧ ∀ b < 128, lineNat z.data b 1
                 = ((storedByte n normalPos accs (128 * y.line + b)).map BitVec.toNat).getD (lineNat y.data b 1))
       ∧ ∀ (x : LaneAcc) (pa : Nat), accs = [x] → x.tgt = .mem pa true → homeReach s p.gang.die (homeOf pa) = true →
           homeLost s (homeOf pa) = false → lateReply s p = false → MemoryCanonical s → s.migrations = [] →
         ∃ t, exec (.storePerformed op) s = .next t ∧ findPend t op = none ∧ homeNat t pa n = x.data.toNat % 256 ^ n
           ∧ ∀ a, a < pa ∨ pa + n ≤ a → cellGet t.mem a = cellGet s.mem a)
     ∧ ∀ (die core pos : Nat) (l : List Byte) (psn : List Nat), Memory.wf (getCore s die core).scratch = true →
       (p.kind = .image false die core pos l psn →
         ∃ t, exec (.storePerformed op) s = .next t ∧ findPend t op = none ∧ scratchBytes t die core pos l.length = l
           ∧ OnlySpan s t die core pos l.length)
       ∧ (p.kind = .image true die core pos l psn → leaveAsked s p.gang.die (isPendLeave op) = false →
         tilePoisoned s die core pos l = false →
         ∃ t, exec (.storePerformed op) s = .next t ∧ findPend t op = none
           ∧ scratchBytes t die core pos 2560 = tileUpdate (scratchBytes s die core pos 2560) l ∧ OnlySpan s t die core pos 2560))
  ∧ (∀ (s : State) (p : Pend) (op : Nat), findPend s op = some p → (olderRisk s p.gang op = true ∨ pendHeld s p = true) →
       exec (.storePerformed op) s = .next s)

/-- A load through L1 of bytes that a gang of the core has just stored through it gives the stored bytes, whatever leases run,
though they have not reached the cluster cache (R260-R262). Memory keeps its canonical form under a write at a home; the bytes
written read back, every other byte reads as before, and at a lost home nothing is written (R322). Of what this rests on, the
model chose what assumption log 15 and 16 names. -/
def Obligations.MemoryReadsBack : Prop :=
  (∀ (s : State) (id : GangId) (op pa n len x : Nat) (pol pol' : Policy), 0 < n → n ≤ 16 → pa % 128 + n ≤ 128 →
     (loadL1 (storeL1 s id op pa n x pol) id.die id.core pa n len pol').2.1 = x % 256 ^ n)
  ∧ (∀ (s : State) (pa : Nat) (l : List Byte), MemoryCanonical s → s.migrations = [] →
       MemoryCanonical (homeWrite s pa l)
         ∧ (homeLost s (homeOf pa) = false → cellsRead (homeWrite s pa l).mem pa l.length = l)
         ∧ (∀ a, a < pa ∨ pa + l.length ≤ a → cellGet (homeWrite s pa l).mem a = cellGet s.mem a)
         ∧ (homeLost s (homeOf pa) = true → (homeWrite s pa l).mem = s.mem))

/-- The operations of R271 on words of 32 and of 64 bits. HOME_PERFORMED_WRITE of RED, AST or an NT store performs its lowest lane
that is left: RED replaces the word at its home by the operation's new value, AST and an NT store by their data; no other byte
of memory changes; the access is over with its last lane; the home sends the bytes to its sharers, and a RED's new value to the
issuing die (R265, R270, R281, R282, R285, R313, R314). HOME_PERFORMED_WRITE of ATOM, CAS or ALD performs its lanes in ascending
order at their homes, each on the word as the lane before left it: ATOM writes the operation's new value, CAS its datum where
the old value equals the lane's comparand, ALD nothing. Each active lane of D takes its old value, in a register or a pair, the
others keep theirs; a scalar D takes the word that ALD reads; no other byte of memory changes and the access is over (R270,
R272, R281, R282). ATOMIC_VALUE_RETURN writes the home's new value into the issuing die's sheet by its state, each 32-bit word
of it on its own: a CLEAN sheet's working word takes it, a TWINNED sheet's twin takes it and its working word only if it
equalled the twin, a RELEASING sheet stays (R309, R314). Of what this rests on, the model chose what assumption log 41, 163 and
164 names. -/
def Obligations.AtomicEffects : Prop :=
  ((∀ a b : Word,
     atomicNew .add false (a.setWidth 64) (b.setWidth 64) = (a + b).setWidth 64
       ∧ atomicNew .and false (a.setWidth 64) (b.setWidth 64) = (a &&& b).setWidth 64
       ∧ atomicNew .or false (a.setWidth 64) (b.setWidth 64) = (a ||| b).setWidth 64
       ∧ atomicNew .xor false (a.setWidth 64) (b.setWidth 64) = (a ^^^ b).setWidth 64
       ∧ atomicNew .exch false (a.setWidth 64) (b.setWidth 64) = b.setWidth 64
       ∧ atomicNew .minn false (a.setWidth 64) (b.setWidth 64) = (if a.toNat ≤ b.toNat then a else b).setWidth 64
       ∧ atomicNew .mini false (a.setWidth 64) (b.setWidth 64) = (if a.toInt ≤ b.toInt then a else b).setWidth 64
       ∧ atomicNew .maxn false (a.setWidth 64) (b.setWidth 64) = (if a.toNat ≤ b.toNat then b else a).setWidth 64
       ∧ atomicNew .maxi false (a.setWidth 64) (b.setWidth 64) = (if a.toInt ≤ b.toInt then b else a).setWidth 64
       ∧ atomicNew .incw false (a.setWidth 64) (b.setWidth 64) = (if b.toNat ≤ a.toNat then 0#32 else a + 1#32).setWidth 64
       ∧ atomicNew .decw false (a.setWidth 64) (b.setWidth 64) = (if a = 0#32 ∨ b.toNat < a.toNat then b else a - 1#32).setWidth 64)
   ∧ (∀ a b : DWord, atomicNew .add true a b = a + b ∧ atomicNew .and true a b = a &&& b ∧ atomicNew .or true a b = a ||| b
       ∧ atomicNew .xor true a b = a ^^^ b ∧ atomicNew .exch true a b = b
       ∧ atomicNew .minn true a b = (if a.toNat ≤ b.toNat then a else b) ∧ atomicNew .mini true a b = (if a.toInt ≤ b.toInt then a else b)
       ∧ atomicNew .maxn true a b = (if a.toNat ≤ b.toNat then b else a) ∧ atomicNew .maxi true a b = (if a.toInt ≤ b.toInt then b else a)
       ∧ atomicNew .incw true a b = (if b.toNat ≤ a.toNat then 0#64 else a + 1#64)
       ∧ atomicNew .decw true a b = (if a = 0#64 ∨ b.toNat < a.toNat then b else a - 1#64))
   ∧ ∀ (a b : Word) (fl : BitVec 10),
       atomicNew .fadd32 false (a.setWidth 64) (b.setWidth 64)
         = ((faddLane fl { rm := .rne, sat := false, na := false, nb := false, nc := false, ftz := false } a b).1).setWidth 64
       ∧ (isNan ffF32 a.toNat = true ∨ isNan ffF32 b.toNat = true →
           atomicNew .fadd32 false (a.setWidth 64) (b.setWidth 64) = 0x7FC00000#64)
       ∧ ∀ j < 2, (atomicNew .bfadd2 false (a.setWidth 64) (b.setWidth 64)).extractLsb' (16 * j) 16
           = BitVec.ofNat 16 (fpAdd ffBf16 .rne false false (a.extractLsb' (16 * j) 16).toNat (b.extractLsb' (16 * j) 16).toNat).1)
  ∧ (∀ (s : State) (p : Pend) (op : Nat) (h : HomeOp) (d : Opnd) (w64 : Bool) (sc : Scope) (act cuts : Mask) (x : LaneAcc)
       (rest : List LaneAcc) (pa n data new : Nat) (hb counted : Bool),
       findPend s op = some p → p.kind = .home h d w64 sc act (x :: rest) cuts counted → AtHomeNow s p h w64 sc (x :: rest) →
       x.tgt = .mem pa hb → redWindow s p h w64 sc x = none → n = h.size w64 → data = x.data.toNat % 256 ^ n →
       ((∃ o, h = .red o ∧ new = (atomicNew o w64 (BitVec.ofNat 64 (homeNat s pa n)) (BitVec.ofNat 64 data)).toNat)
         ∨ h = .ast ∧ new = data ∨ (∃ k, h = .nt k ∧ k ≤ 16) ∧ new = data) →
         ∃ t, exec (.homePerformedWrite op) s = .next t ∧ homeNat t pa n = new
           ∧ (∀ a, a < pa ∨ pa + n ≤ a → cellGet t.mem a = cellGet s.mem a)
           ∧ (rest = [] → findPend t op = none)
           ∧ (rest ≠ [] → ∃ q, findPend t op = some q ∧ q.kind = .home h d w64 sc act rest cuts counted)
           ∧ ((findHomePage s (granule pa)).sharers ≠ 0#8 →
               ∃ u ∈ t.unfolded, u.home = homeOf pa ∧ u.addr = pa ∧ u.size = n ∧ op ∈ u.ops)
           ∧ (∀ o, h = .red o → ∃ q, .atomicValue (homeOf pa) p.gang.die p.gang.core pa n (BitVec.ofNat 64 new) q ∈ t.msgs))
  ∧ (∀ (s : State) (p : Pend) (g : Gang) (op : Nat) (h : HomeOp) (d : Opnd) (w64 : Bool) (sc : Scope) (act cuts : Mask)
       (l : List (LaneAcc × Nat)) (n : Nat) (counted : Bool) (f : LaneAcc → DWord → Option DWord) (cmp : LaneAcc → DWord)
       (r : List (Nat × Nat) × List Host.Cell),
       findPend s op = some p → p.kind = .home h d w64 sc act (l.map fun x => x.1) cuts counted →
       AtHomeNow s p h w64 sc (l.map fun x => x.1) → findGang s p.gang = some g → n = wordSize w64 →
       (∀ x ∈ l, ∃ hb, x.1.tgt = .mem x.2 hb) → (∀ x ∈ l, homePoisoned s x.2 = false) →
       heldSlots g.arch + 64 ≤ slotLimit s g → r = homeSeq n f s.mem l →
       ((∃ o, h = .atom o ∧ f = fun x old => some (atomicNew o w64 old (cutWord w64 (x.data.setWidth 64))))
         ∨ (h = .cas (l.map fun x => (x.1.lane, cmp x.1)) ∧ (l.map fun x => x.1.lane).Nodup
             ∧ f = fun x old => if cutWord w64 (cmp x) = old then some (cutWord w64 (x.data.setWidth 64)) else none)
         ∨ h = .ald ∧ f = fun _ _ => none) →
         ∃ t g', exec (.homePerformedWrite op) s = .next t ∧ findPend t op = none ∧ t.mem = r.2 ∧ findGang t p.gang = some g'
           ∧ (∀ v, d = .v v → lanesIn act = l.map (fun x => x.1.lane) → ∀ k < (if w64 then 2 else 1),
               (∀ x ∈ r.1, vregVal (g'.arch.vreg (groupReg v k)) x.1 = BitVec.ofNat 32 (x.2 / 2 ^ (32 * k)))
               ∧ ∀ i < 32, inMask act i = false → vregVal (g'.arch.vreg (groupReg v k)) i = vregVal (g.arch.vreg (groupReg v k)) i)
           ∧ (∀ v x, d = .s v → l = [x] → x.1.lane = 0 → g'.arch.sreg v = some (BitVec.ofNat 64 (homeNat s x.2 n))))
  ∧ (∀ (s : State) (die home core pa n q : Nat) (v : DWord) (rest : List Msg) (x : Sheet),
       takeValue home die s.msgs = some ((core, pa, n, v, q), rest) → valueNext s home die q = true →
       findSheet (getDie s die) (pa / 256) = some x → x.held.getLsbD (pa / 128 % 2) = true → (n = 4 ∨ n = 8) → pa % n = 0 →
         ∃ t y, exec (.atomicValueReturn die home) s = .next t ∧ t.msgs = rest ∧ t.mem = s.mem
           ∧ findSheet (getDie t die) (pa / 256) = some y ∧ y.state = x.state
           ∧ (∀ k < n / 4,
             (x.state = .clean → lineNat y.work (pa % 256 + 4 * k) 4 = (v.extractLsb' (32 * k) 32).toNat)
             ∧ (x.state = .twinned → lineNat y.twin (pa % 256 + 4 * k) 4 = (v.extractLsb' (32 * k) 32).toNat
                 ∧ lineNat y.work (pa % 256 + 4 * k) 4
                   = if lineNat x.work (pa % 256 + 4 * k) 4 = lineNat x.twin (pa % 256 + 4 * k) 4
                     then (v.extractLsb' (32 * k) 32).toNat else lineNat x.work (pa % 256 + 4 * k) 4))
           ∧ (x.state = .releasing → y = x))

/-- ATOM, RED, CAS, ALD and AST with a lane at a home issue an access there: one with a result waits for its old values and moves
on, one without commits its last-read marks and moves on (R270, R281, R282, R300). The same instructions with every lane at a
unit of their die are performed at once, lanes in ascending order, after the gang's earlier accesses to their words, and commit
their old values (R270, R272, R479). Of what this rests on, the model chose what assumption log 18 and 41 names. -/
def Obligations.AtomicsComplete : Prop :=
  (∀ (i : Instr) (f : AtomForm) (s : State) (c : Ctx) (r : State × List Checked), atomForm i = some f → f.Passes s c r →
     f.goesHome c r = true → ((f.op c).returns = false → MayCommit c (killRegs c.a f.kills)) →
       ∃ t, exec i s = .next t ∧ t.mem = s.mem
         ∧ ((f.op c).returns = true → Issued { c with s := r.1 } (c.a.advance c.x)
             (.home (f.op c) f.d f.m.w64 f.m.scope c.act (f.accs c r.2) (atomCuts c f.a f.b f.e f.m.w64) false)
             (spreadReads f.kills) (groupOpnds f.d (if f.m.w64 then 2 else 1)) t)
         ∧ ((f.op c).returns = false → Issued { c with s := r.1 } (settleAccounts c.g.budget ((killRegs c.a f.kills).advance c.x))
             (.home (f.op c) f.d f.m.w64 f.m.scope c.act (f.accs c r.2) (atomCuts c f.a f.b f.e f.m.w64) false) [] [] t))
  ∧ (∀ (i : Instr) (f : AtomForm) (s : State) (c : Ctx) (r : State × List Checked) (q : State × List (Nat × Nat × Bool)),
       atomForm i = some f → f.Passes s c r → f.goesHome c r = false →
       Clear { c with s := r.1 } ((f.accs c r.2).map fun x => (x.tgt, wordSize f.m.w64)) →
       (f.m.scope = .die → twinsFit r.1 c.g.id.die (f.accs c r.2) = true) →
       q = unitPerformAll (if f.m.scope = .die then flushFor r.1 c.g.id (f.accs c r.2) else r.1) c.g.id s.nextOp c.g.ctx (f.op c)
         f.m.w64 f.m.scope (f.accs c r.2) →
       (∀ x ∈ q.2, x.2.2 = false) → heldSlots c.a + 64 ≤ slotLimit s c.g →
         exec i s = .next (afterCommit { c with s := q.1 }
           ((if (f.op c).returns then atomWrite f.d f.m.w64 c.act (atomCuts c f.a f.b f.e f.m.w64) q.2 c.a (killRegs c.a f.kills)
             else killRegs c.a f.kills).advance c.x)))

/-- DCAS and AMOVE: two words at one address, or that overlap once translated, give 2 and touch nothing; words whose checks pass and
of which one is performed at a home, or does not reach the RDC, or that an older instruction of the gang holds back, issue the
pair with the descriptor's fields; words at the RDC are replaced at once, once the cluster's dirty bytes of them are there, and
read there as replaced. Performed there by HOME_PERFORMED_WRITE, DCAS replaces both words when both equal their comparands and
AMOVE copies the first to the second, with MOVECLR leaving 0 in the first; D gets the answer, OX and OY are written back, and no
other byte changes (R273, R283). Of what this rests on, the model chose what assumption log 47 names. -/
def Obligations.PairAtomics : Prop :=
  (∀ (h : Head) (d a : Opnd) (off : BitVec 32) (m : AtomMod) (s : State) (c : Ctx) (die core pos : Nat),
    Starts s h (single [a]) [a] c → wordPoison c.a a = false → c.g.st < 63 → ScratchSpan c a off 64 .rmw die core pos →
    heldBytes s c.g.id s.nextOp [(.scratch die core pos, 64)] = false → MayCommit c (killRegs c.a (headKills h a .zero .zero)) →
      (alignTo (BitVec.ofNat 64 (scratchNat s die core pos 8)) (wordSize m.w64)
          = alignTo (BitVec.ofNat 64 (scratchNat s die core (pos + 8) 8)) (wordSize m.w64) →
        (descPoison s none m.w64 die core pos = false → exec (.dcas h d a off m) s
          = .next (afterCommit c ((writeScalar (killRegs c.a (headKills h a .zero .zero)) d 2#64).advance c.x)))
        ∧ (descPoison s (some (decide (m.op ≠ .add))) m.w64 die core pos = false → exec (.amove h d a off m) s
          = .next (afterCommit c ((writeScalar (killRegs c.a (headKills h a .zero .zero)) d 2#64).advance c.x))))
      ∧ ∀ (r : State × List Checked) (tx ty : Nat × BitVec 64 × Target) (f : Nat → DWord) (b : Option Bool → PairOp),
        (∀ k, f k = BitVec.ofNat 64 (scratchNat s die core (pos + k) 8)) →
        (∀ move, b move = { d := d, w64 := m.w64, scope := m.scope, move := move, x := tx.2.2, y := ty.2.2, ex := f 16, ey := f 24,
                            nx := f 32, ny := f 40, die := die, core := core, pos := pos }) →
        r = checkLanes c.s c.g .global (wordSize m.w64) .rmw
          [(0, alignTo (f 0) (wordSize m.w64)), (0, alignTo (f 8) (wordSize m.w64))] →
        alignTo (f 0) (wordSize m.w64) ≠ alignTo (f 8) (wordSize m.w64) →
        firstFail (r.2.map (bellAtomic (.atom .exch))) = none → passing (r.2.map (bellAtomic (.atom .exch))) = [tx, ty] →
          (touches tx.2.2 ty.2.2 (wordSize m.w64) (wordSize m.w64) = true →
            (descPoison s none m.w64 die core pos = false → exec (.dcas h d a off m) s = .next (afterCommit { c with s := r.1 }
              ((writeScalar (killRegs c.a (headKills h a .zero .zero)) d 2#64).advance c.x)))
            ∧ (descPoison s (some (decide (m.op ≠ .add))) m.w64 die core pos = false →
              exec (.amove h d a off m) s = .next (afterCommit { c with s := r.1 }
                ((writeScalar (killRegs c.a (headKills h a .zero .zero)) d 2#64).advance c.x))))
          ∧ (touches tx.2.2 ty.2.2 (wordSize m.w64) (wordSize m.w64) = false →
            scopeAtHome m.scope || targetAtHome tx.2.2 || targetAtHome ty.2.2 || !targetReach r.1 c.g.id.die tx.2.2
              || !targetReach r.1 c.g.id.die ty.2.2 || !{ c with s := r.1 }.clear
              || heldBytes r.1 c.g.id r.1.nextOp [(tx.2.2, wordSize m.w64), (ty.2.2, wordSize m.w64)] →
            (pairLost r.1 (b none) = false → descPoison s none m.w64 die core pos = false →
              ∃ t, exec (.dcas h d a off m) s = .next t ∧ Issued { c with s := r.1 } (c.a.advance c.x) (.dcas (b none))
                (spreadReads (headKills h a .zero .zero)) (groupOpnds d 1) t)
            ∧ (pairLost r.1 (b (some (decide (m.op ≠ .add)))) = false →
              descPoison s (some (decide (m.op ≠ .add))) m.w64 die core pos = false →
              ∃ t, exec (.amove h d a off m) s = .next t
                ∧ Issued { c with s := r.1 } (c.a.advance c.x) (.dcas (b (some (decide (m.op ≠ .add)))))
                  (spreadReads (headKills h a .zero .zero)) (groupOpnds d 1) t))
          ∧ (touches tx.2.2 ty.2.2 (wordSize m.w64) (wordSize m.w64) = false → scopeAtHome m.scope = false →
            ∀ (px py : Nat) (accs : List LaneAcc) (vx vy : State × Nat × Bool) (ox oy : DWord), tx.2.2 = .mem px false →
            ty.2.2 = .mem py false → px % wordSize m.w64 = 0 → py % wordSize m.w64 = 0 → { c with s := r.1 }.clear = true → targetReach r.1 c.g.id.die tx.2.2 = true → targetReach r.1 c.g.id.die ty.2.2 = true →
            accs = [tx.2.2, ty.2.2].map (fun t => { lane := 0, va := 0#64, tgt := t, data := 0#128 }) →
            heldBytes r.1 c.g.id r.1.nextOp (accs.map fun y => (y.tgt, wordSize m.w64)) = false →
            twinsFit r.1 c.g.id.die accs = true →
            vx = unitRead (flushFor r.1 c.g.id accs) c.g.id c.g.ctx .die tx.2.2 (wordSize m.w64) →
            vy = unitRead vx.1 c.g.id c.g.ctx .die ty.2.2 (wordSize m.w64) → vx.2.2 = false → vy.2.2 = false →
            ox = BitVec.ofNat 64 vx.2.1 → oy = BitVec.ofNat 64 vy.2.1 →
            ∀ (i : Instr) (move : Option Bool),
              i = .dcas h d a off m ∧ move = none ∨ i = .amove h d a off m ∧ move = some (decide (m.op ≠ .add)) →
              pairLost r.1 (b move) = false → descPoison s move m.w64 die core pos = false →
              ∃ t g', exec i s = .next t ∧ findGang t c.g.id = some g' ∧ t.mem = s.mem
                ∧ (∀ k, d = .s k → g'.arch.sreg k = some (pairResult (b move) ox oy).2.2)
                ∧ (unitRead t c.g.id c.g.ctx .die (.mem px false) (wordSize m.w64)).2.1 = (pairResult (b move) ox oy).1.toNat
                ∧ (unitRead t c.g.id c.g.ctx .die (.mem py false) (wordSize m.w64)).2.1 = (pairResult (b move) ox oy).2.1.toNat
                ∧ ∃ q ∈ t.pend, q.op = s.nextOp ∧ q.kind = writeBack (b move) ox oy))
  ∧ (∀ (s : State) (p : Pend) (g : Gang) (op px py n : Nat) (x : PairOp) (ox oy : DWord), findPend s op = some p → p.kind = .dcas x →
    findGang s p.gang = some g → AtHomeNow s p (.atom .exch) x.w64 x.scope x.accs → x.x = .mem px false → x.y = .mem py false →
    n = wordSize x.w64 → (px + n ≤ py ∨ py + n ≤ px) → homePoisoned s px = false → homePoisoned s py = false →
    ox = BitVec.ofNat 64 (homeNat s px n) → oy = BitVec.ofNat 64 (homeNat s py n) →
      ∃ t g', exec (.homePerformedWrite op) s = .next t ∧ findGang t p.gang = some g'
        ∧ homeNat t px n = (pairResult x ox oy).1.toNat ∧ homeNat t py n = (pairResult x ox oy).2.1.toNat
        ∧ (∀ k, x.d = .s k → g'.arch.sreg k = some (pairResult x ox oy).2.2)
        ∧ (∃ q ∈ t.pend, q.op = op ∧ q.kind = writeBack x ox oy)
        ∧ ∀ a, (a < px ∨ px + n ≤ a) → (a < py ∨ py + n ≤ a) → cellGet t.mem a = cellGet s.mem a)
  ∧ ∀ (x : PairOp) (ox oy : DWord),
      (x.move = none → ox = cutWord x.w64 x.ex → oy = cutWord x.w64 x.ey →
        pairResult x ox oy = (cutWord x.w64 x.nx, cutWord x.w64 x.ny, 1#64))
      ∧ (x.move = none → ¬(ox = cutWord x.w64 x.ex ∧ oy = cutWord x.w64 x.ey) → pairResult x ox oy = (ox, oy, 0#64))
      ∧ (x.move = some false → pairResult x ox oy = (ox, ox, ox)) ∧ (x.move = some true → pairResult x ox oy = (0#64, ox, ox))

/-! ## Releases, barriers, counters and tags -/

/-- FENCE and DRAIN: with nothing to wait for a FENCE only moves on; with an empty successor set it starts a background release and
moves on; any other FENCE, and a DRAIN, begins with its release and holds its slot. When the release is over and nothing that it
waits for has met a fault it moves on; the release's fault, or that of a posted write that it waits for, is its trap, and a
fault of a posted write that it does not wait for stays (R97, R266, R267, R276, R284, R285). Of what this rests on, the model
chose what assumption log 49 and 54 names. -/
def Obligations.FencesWaitForReleases : Prop :=
  (∀ (h : Head) (scope : Scope) (dir : Bool) (die : BitVec 5) (succ pred : BitVec 6) (s : State) (c : Ctx),
    Enters s h.guard c → c.act ≠ 0#32 →
    ((succ = 0#6 ∧ pred = 0#6) ∨ (pred = 0#6 ∧ (succ.getLsbD 0 = false ∨ scopeRank scope < 3)) →
      exec (.fence h scope dir die succ pred) s = .next (afterCommit c (c.a.advance c.x)))
    ∧ (succ = 0#6 → pred ≠ 0#6 →
      exec (.fence h scope dir die succ pred) s
        = .next (addTask (afterCommit c (c.a.advance c.x)) (fenceTask c scope dir die succ pred)))
    ∧ (succ ≠ 0#6 → (pred ≠ 0#6 ∨ succ.getLsbD 0 = true ∧ 3 ≤ scopeRank scope) →
      exec (.fence h scope dir die succ pred) s = .next (addTask
        (c.begin (.fence h scope dir die succ pred) (.task s.nextUid) .zero [] [] true) (fenceTask c scope dir die succ pred))))
  ∧ (∀ (h : Head) (scope : Scope) (s : State) (c : Ctx), Enters s h.guard c → c.act ≠ 0#32 →
    ∃ t, exec (.drain h scope) s = .next (addTask (c.begin (.drain h scope) (.task s.nextUid) .zero [] [] true) t)
      ∧ t.ops = postedOps s c.g.id ∧ t.folded = true ∧ t.scope = scope ∧ t.stage = 0)
  ∧ ∀ (i : Instr) (h : Head) (due : PostClass → Bool) (s : State) (c : Ctx) (p : Pend) (k : Task),
    ((∃ scope dir die succ pred, i = .fence h scope dir die succ pred ∧ due = fenceWaits pred
        ∧ succ ≠ 0#6 ∧ (pred ≠ 0#6 ∨ succ.getLsbD 0 = true ∧ 3 ≤ scopeRank scope))
      ∨ (∃ scope, i = .drain h scope ∧ due = drainWaits)) →
    Resumes s h.guard c p → c.act ≠ 0#32 → c.slot.wait = .task k.id → findTask s k.id = some k → c.g.fenceFault = none →
    ((∀ x ∈ c.g.posted, due x.cls = true → p.op ≤ x.op) →
      (k.fault = none → ∃ t, exec i s = .next t ∧ Ended c p .zero 0#64 t ∧ t.mem = s.mem
        ∧ (findGang t c.g.id).map (fun g => g.posted) = some c.g.posted)
      ∧ (∀ f, k.fault = some f → MayTrap s c p → ∃ t, exec i s = .next t ∧ Trapped c p f.1 f.2 t
        ∧ (findGang t c.g.id).map (fun g => g.posted) = some c.g.posted))
    ∧ (∀ x, c.g.posted = [x] → due x.cls = true → x.op < p.op → k.fault = none → MayTrap s c p →
      ∃ t, exec i s = .next t ∧ Trapped c p x.cause x.tval t ∧ (findGang t c.g.id).map (fun g => g.posted) = some [])

/-- BARI, BARX and a BARW that a test ends act on a barrier word of the block's scratchpad: BARI initialises it, or finds it as it
would leave it, or marks ERR; BARX adds to PENDING and tests; BARW answers 1 in an abandoned block or without a token, 2 on ERR,
0 when the phase has gone by, and waits otherwise. No byte outside the word changes (R227, R231, R236, R238, R239). -/
def Obligations.BarrierWords : Prop :=
  ∀ (h : Head) (a : Opnd) (off : BitVec 32) (s : State) (c : Ctx) (die core pos : Nat),
    ScratchSpan c a off 16 .rmw die core pos → Clear c [(.scratch die core pos, 16)] →
    Memory.wf (getCore s die core).scratch = true → scratchPoisoned s die core pos 16 = false →
    (∀ (n : BitVec 8) (force : Bool), Starts s h (single [a]) [a] c → wordCheck c.a [a] = none →
      ∃ t, exec (.bari h a off n force) s = .next t ∧ GangHolds c ((killRegs c.a (headKills h a .zero .zero)).advance c.x) t
        ∧ OnlySpan s t die core pos 16
        ∧ readBar t die core pos = (if force then bariForce n else bariOnce n (readBar s die core pos)))
    ∧ (∀ (b : Opnd) (w : BarWord), Starts s h (single [a, b]) [a] c → wordCheck c.a [a, b] = none →
      barOwe (readBar s die core pos) (scalarOf c b).toInt = some w →
      ∃ t, exec (.barx h a b off) s = .next t ∧ GangHolds c ((killRegs c.a (headKills h a b .zero)).advance c.x) t
        ∧ OnlySpan s t die core pos 16 ∧ readBar t die core pos = w)
    ∧ (∀ (b : Opnd), Starts s h (single [a, b]) [a] c → wordCheck c.a [a, b] = none →
      barOwe (readBar s die core pos) (scalarOf c b).toInt = none →
      exec (.barx h a b off) s = .next (takeTrap s c.g c.x 0x0F#8 (scalarOf c b) (c.pc.setWidth 64) 0#5))
    ∧ (∀ (d b : Opnd) (v : DWord), Starts s h (single [a, b]) [a] c → wordCheck c.a [a, b] = none →
      (abandoned s c.g = true ∨ (scalarOf c b).getLsbD 1 = false) ∧ v = 1#64
        ∨ abandoned s c.g = false ∧ (scalarOf c b).getLsbD 1 = true ∧
          ((readBar s die core pos).err = true ∧ v = 2#64
            ∨ (readBar s die core pos).err = false ∧ (readBar s die core pos).phase ≠ (scalarOf c b).getLsbD 0 ∧ v = 0#64) →
      exec (.barw h d a b off) s
        = .next (afterCommit c ((writeScalar (killRegs c.a (headKills h a b .zero)) d v).advance c.x)))
    ∧ (∀ (d b : Opnd), Starts s h (single [a, b]) [a] c → wordCheck c.a [a, b] = none → abandoned s c.g = false →
      (scalarOf c b).getLsbD 1 = true →
      (readBar s die core pos).err = false → (readBar s die core pos).phase = (scalarOf c b).getLsbD 0 →
      exec (.barw h d a b off) s = .next (c.put (c.a.setWait c.x
        (.barw die core pos ((scalarOf c b).getLsbD 0) (retireOf d (headKills h a b .zero))))))

/-- A barrier word's completion test: with ARRIVED equal to EXPECT and nothing pending the phase turns and ARRIVED becomes 0, in the
same operation, whatever ERR holds; EXPECT, PENDING and ERR stay (R231). It runs after an arrival below EXPECT, a BARX and a
SIGNAL in range, and after no other event; an arrival past EXPECT and a SIGNAL out of range set ERR, a BARX out of range is
refused (R230). A barrier word reads back as written, so that its fields do not disturb one another (R227). -/
def Obligations.BarrierArithmetic : Prop :=
  (∀ b : BarWord,
     (b.arrived = b.expect → b.pending = 0#36 → barTest b = { b with arrived := 0#16, phase := !b.phase })
     ∧ (b.arrived ≠ b.expect ∨ b.pending ≠ 0#36 → barTest b = b)
     ∧ (∀ n : BitVec 8,
       (b.expect = 0#16 → bariOnce n b = { b with expect := n.setWidth 16 })
       ∧ (b.expect ≠ 0#16 → b.expect = n.setWidth 16 → bariOnce n b = b)
       ∧ (b.expect ≠ 0#16 → b.expect ≠ n.setWidth 16 → bariOnce n b = { b with err := true })
       ∧ bariForce n = { expect := n.setWidth 16, arrived := 0#16, pending := 0#36, phase := false, err := false, rest := 0#58 })
     ∧ (b.arrived.toNat < b.expect.toNat → barArrive b = barTest { b with arrived := b.arrived + 1#16 })
     ∧ (b.expect.toNat ≤ b.arrived.toNat → barArrive b = { b with err := true })
     ∧ (∀ n : Int, (b.pending.toInt + n < -(2 ^ 35) ∨ 2 ^ 35 ≤ b.pending.toInt + n) → barOwe b n = none)
     ∧ (∀ n : Int, -(2 ^ 35) ≤ b.pending.toInt + n → b.pending.toInt + n < 2 ^ 35 →
         ∃ p : BitVec 36, p.toInt = b.pending.toInt + n ∧ barOwe b n = some (barTest { b with pending := p }))
     ∧ ∀ n : Nat,
       (b.pending.toInt - n < -(2 ^ 35) → barSignal b n = { b with err := true })
       ∧ (-(2 ^ 35) ≤ b.pending.toInt - n →
           ∃ p : BitVec 36, p.toInt = b.pending.toInt - n ∧ barSignal b n = barTest { b with pending := p }))
  ∧ (∀ b : BarWord, barOfBits (barBits b) = b)

/-- BARV issues its arrival and moves on; in an abandoned block it answers 1 at once, and a time-out of a posted write that it waits
for is its trap (R276). BARV_ARRIVAL, once the gang's accesses before it are over and none of them may still trap, counts the
arrival in the word and gives the token 2 or 3 by the phase it arrived in; in a block abandoned meanwhile it gives 1 and arrives
nowhere (R230, R233, R237, R251). GBAR of a cooperative launch counts an arrival and waits with a release at package scope; of a
broken launch it answers 1; of a gang of no cooperative launch it traps, with an sr.tval that the spec does not state (R241,
R242, R253). Of what this rests on, the model chose what assumption log 50, 51, 143, 156 and 167 names. -/
def Obligations.Arrivals : Prop :=
  ((∀ (h : Head) (d a : Opnd) (off : BitVec 32) (s : State) (c : Ctx) (die core pos : Nat), Starts s h (single [a]) [a] c →
     wordCheck c.a [a] = none → ScratchSpan c a off 16 .rmw die core pos →
     (abandoned s c.g = true → MayCommit c (killRegs c.a (headKills h a .zero .zero)) →
       exec (.barv h d a off) s
         = .next (afterCommit c ((writeScalar (killRegs c.a (headKills h a .zero .zero)) d 1#64).advance c.x)))
     ∧ (abandoned s c.g = false → postedTimeout c.g s.nextOp = none →
       ∃ t, exec (.barv h d a off) s = .next t ∧ Issued c (c.a.advance c.x) (.barv d die core pos (arrivalOps s c.g.id))
         (spreadReads (headKills h a .zero .zero)) (groupOpnds d 1) t)
     ∧ (∀ f, abandoned s c.g = false → postedTimeout c.g s.nextOp = some f → c.clear = true →
       f.cause = 0x12#8 ∧ exec (.barv h d a off) s
         = .next (takeTrap s { c.g with posted := c.g.posted.erase f } c.x 0x12#8 f.tval (c.pc.setWidth 64) 0#5)))
   ∧ ∀ (s : State) (p : Pend) (g : Gang) (op : Nat) (n : Fin 64) (die core pos : Nat) (wait : List Nat), findPend s op = some p →
     p.kind = .barv (.s n) die core pos wait → findGang s p.gang = some g → olderRisk s p.gang p.op = false →
       (abandoned s g = true → ∃ t g', exec (.barvArrival op) s = .next t ∧ findPend t op = none ∧ findGang t p.gang = some g'
         ∧ g'.arch.sreg n = some 1#64 ∧ t.cores = s.cores ∧ t.mem = s.mem)
       ∧ (abandoned s g = false → wait.any (opPending s) = false → pendHeld s p = false → scratchPoisoned s die core pos 16 = false →
         postedTimeout g p.op = none → Memory.wf (getCore s die core).scratch = true →
         ∃ t g', exec (.barvArrival op) s = .next t ∧ findPend t op = none ∧ findGang t p.gang = some g'
           ∧ g'.arch.sreg n = some (if (readBar s die core pos).phase then 3#64 else 2#64)
           ∧ readBar t die core pos = barArrive (readBar s die core pos) ∧ OnlySpan s t die core pos 16))
  ∧ (∀ (h : Head) (d : Opnd) (s : State) (c : Ctx), Enters s h.guard c → c.act ≠ 0#32 →
       (gangLaunch s c.g = none → c.clear = true →
         exec (.gbar h d) s = .next (takeTrap s c.g c.x 0x10#8 (freeNow s) (c.pc.setWidth 64) 0#5))
       ∧ ∀ l, gangLaunch s c.g = some l →
         (l.coop = false → c.clear = true →
           exec (.gbar h d) s = .next (takeTrap s c.g c.x 0x10#8 (freeNow s) (c.pc.setWidth 64) 0#5))
         ∧ (l.coop = true → launchBroken s l = true →
           exec (.gbar h d) s
             = .next (afterCommit c ((writeScalar { c.a with gbars := c.a.gbars + 1 } d 1#64).advance c.x)))
         ∧ (l.coop = true → launchBroken s l = false → c.clear = true →
           ∃ t g' k, exec (.gbar h d) s = .next t ∧ findGang t c.g.id = some g' ∧ g'.arch.gbars = c.a.gbars + 1
             ∧ (g'.arch.slot c.x).wait = .gbarRelease s.nextUid c.a.gbars (retireOf d []) ∧ (g'.arch.slot c.x).pc = c.pc
             ∧ t.tasks = s.tasks ++ [k] ∧ k.id = s.nextUid ∧ k.scope = .pkg ∧ k.writes = true ∧ k.inbox = true
             ∧ k.ops = opsIn s c.g.id 3#6 ∧ t.mem = s.mem))

/-- WAIT moves on when every counter is at or below its limit, and waits otherwise (R248); TAGW gives the tags that end its wait, or
waits; TAGF gives the lowest set tag, clearing it with CLR, or all ones; TAGC clears the tags of its operand, at once or, while
an older instruction of its gang may still trap, once none may, its slot going on (R97, R244-R246). -/
def Obligations.CountersAndTags : Prop :=
  (∀ (h : Head) (tl cp st ld : BitVec 6) (s : State) (c : Ctx), Enters s h.guard c → c.act ≠ 0#32 →
    (c.g.tl ≤ tl.toNat ∧ c.g.cp ≤ cp.toNat ∧ c.g.st ≤ st.toNat ∧ c.g.ld ≤ ld.toNat →
      exec (.wait h tl cp st ld) s = .next (afterCommit c (c.a.advance c.x)))
    ∧ (¬(c.g.tl ≤ tl.toNat ∧ c.g.cp ≤ cp.toNat ∧ c.g.st ≤ st.toNat ∧ c.g.ld ≤ ld.toNat) →
      exec (.wait h tl cp st ld) s
        = .next (c.put (c.a.setWait c.x (.limits tl.toNat cp.toNat st.toNat ld.toNat (retireOf .zero []))))))
  ∧ ∀ (h : Head) (a : Opnd) (s : State) (c : Ctx), Enters s h.guard c → c.act ≠ 0#32 →
    deadCheck c.a (single [a]) = none → wordCheck c.a [a] = none →
    (∀ (d : Opnd) (all : Bool) (v : DWord), v = coreTags s c.g.id &&& scalarOf c a →
      tagcDue s c.g.id = false →
      (all = true ∧ v = scalarOf c a ∨ all = false ∧ (v ≠ 0#64 ∨ scalarOf c a = 0#64) →
        MayCommit c (killRegs c.a (headKills h a .zero .zero)) →
        exec (.tagw h d a all) s
          = .next (afterCommit c ((writeScalar (killRegs c.a (headKills h a .zero .zero)) d v).advance c.x)))
      ∧ (all = true ∧ v ≠ scalarOf c a ∨ all = false ∧ v = 0#64 ∧ scalarOf c a ≠ 0#64 →
        exec (.tagw h d a all) s
          = .next (c.put (c.a.setWait c.x (.tagw all (scalarOf c a) (retireOf d (headKills h a .zero .zero)))))))
    ∧ (c.clear = false → MayCommit c (killRegs c.a (headKills h a .zero .zero)) → ∃ t, exec (.tagc h a) s = .next t
      ∧ Issued c (settleAccounts c.g.budget ((killRegs c.a (headKills h a .zero .zero)).advance c.x)) (.late (.tagc (scalarOf c a)))
          [] [] t)
    ∧ (c.clear = true →
      (∀ (d : Opnd) (clr : Bool), coreTags s c.g.id &&& scalarOf c a = 0#64 →
        exec (.tagf h d a clr) s
          = .next (afterCommit c ((writeScalar (killRegs c.a (headKills h a .zero .zero)) d (-1#64)).advance c.x)))
      ∧ (∀ (d : Opnd) (clr : Bool) (i : Nat), lowestBit (coreTags s c.g.id &&& scalarOf c a) = some i →
        ∃ t, exec (.tagf h d a clr) s = .next t
          ∧ GangHolds c ((writeScalar (killRegs c.a (headKills h a .zero .zero)) d (BitVec.ofNat 64 i)).advance c.x) t
          ∧ coreTags t c.g.id = (if clr then coreTags s c.g.id &&& ~~~(1#64 <<< i) else coreTags s c.g.id) ∧ t.mem = s.mem)
      ∧ ∃ t, exec (.tagc h a) s = .next t ∧ GangHolds c ((killRegs c.a (headKills h a .zero .zero)).advance c.x) t
          ∧ coreTags t c.g.id = coreTags s c.g.id &&& ~~~(scalarOf c a) ∧ t.mem = s.mem)

/-! ## Storage between the dies -/

/-- LEASE_EXPIRY, WALK_COMPLETE, HOME_LINE_FETCH, RDC_LINE_REPLACE and DROP_NOTICE when their conditions hold: an L1 line whose
lease has ended is served no more, and a written line whose delay has ended waits for nothing; the walked entries are cached, so
that the die then finds the leaf of a walk that ended at one without another; the die holds the line and is a sharer of its
page; the lines of a CLEAN sheet are gone and a drop notice follows the last line of its page, while an early round is asked for
any other sheet; the home clears the sharer's bit. Memory stays (R260, R296, R298, R301, R307). Of what this rests on, the model
chose what assumption log 15, 17, 19, 138 and 139 names. -/
def Obligations.StorageEvents : Prop :=
  (∀ (s : State) (die core line : Nat) (x : LeasedLine), x ∈ (getCore s die core).l1 → x.line = line → x.leaseEnd ≤ s.tick →
      ∃ t, exec (.leaseExpiry (.l1 die core) line) s = .next t ∧ t.mem = s.mem
        ∧ ∀ y ∈ (getCore t die core).l1, ¬(y.line = line ∧ y.leaseEnd ≤ s.tick))
  ∧ (∀ (s : State) (die cl line : Nat) (x : LeasedLine), x ∈ (getCluster s die cl).lines → x.line = line → x.seenAt ≠ 0 →
      x.seenAt ≤ s.tick →
      ∃ t, exec (.leaseExpiry (.cluster die cl) line) s = .next t ∧ t.mem = s.mem
        ∧ (getCluster t die cl).lines
          = (getCluster s die cl).lines.map fun y => if y.line = line ∧ y.seenAt ≤ s.tick then { y with seenAt := 0 } else y)
  ∧ (∀ (s : State) (die line : Nat) (x : Sheet), findSheet (getDie s die) (line / 2) = some x →
      (x.seen.1 ≠ 0 ∧ x.seen.1 ≤ s.tick ∨ x.seen.2 ≠ 0 ∧ x.seen.2 ≤ s.tick) →
      ∃ t, exec (.leaseExpiry (.rdc die) line) s = .next t ∧ t.mem = s.mem ∧ findSheet (getDie t die) (line / 2)
        = some { x with seen := (if x.seen.1 ≤ s.tick then 0 else x.seen.1, if x.seen.2 ≤ s.tick then 0 else x.seen.2) })
  ∧ (∀ (s : State) (die ctx va : Nat), canonical (BitVec.ofNat 64 va) = true →
      ∃ t, exec (.walkComplete die ctx va) s = .next t ∧ t = (leafOf s die ctx (BitVec.ofNat 64 va)).1 ∧ t.mem = s.mem
        ∧ ∀ e, (leafOf s die ctx (BitVec.ofNat 64 va)).2 = .leaf e →
          (∀ x ∈ (getDie s die).tlb, pteLeaf x.entry = true ∨ x.size ≠ pageSize e) →
          cachedEntry (getDie t die) ctx (BitVec.ofNat 64 va) 0 true = some e)
  ∧ (∀ (s : State) (die line : Nat), die < 8 → paExists (128 * line) = true → lineReach s die (128 * line) = true →
      ∃ t x, exec (.homeLineFetch die line) s = .next t ∧ t.mem = s.mem ∧ findSheet (getDie t die) (line / 2) = some x
        ∧ x.held.getLsbD (line % 2) = true
        ∧ ((sheetOr s die (line / 2)).held.getLsbD (line % 2) = false →
            (findHomePage t (granule (128 * line))).sharers.getLsbD die = true))
  ∧ (∀ (s : State) (die sheet : Nat) (x : Sheet), findSheet (getDie s die) sheet = some x →
      (x.state = .clean → x.held ≠ 0#2 →
        ∃ t, exec (.rdcLineReplace die sheet) s = .next t ∧ t.mem = s.mem
          ∧ (∀ y, findSheet (getDie t die) sheet = some y → y.held = 0#2)
          ∧ ((∀ y ∈ (getDie t die).sheets, y.sheet / 256 = sheet / 256 → y.held = 0#2) →
              t.msgs = s.msgs ++ [.drop die (homeOf (256 * sheet)) (sheet / 256)]))
      ∧ (x.state ≠ .clean →
        ∃ t, exec (.rdcLineReplace die sheet) s = .next t ∧ t.mem = s.mem ∧ sheet ∈ (getDie t die).early
          ∧ (getDie t die).sheets = (getDie s die).sheets))
  ∧ ∀ (s : State) (home die g : Nat) (rest : List Msg), s.msgs = .drop die home g :: rest → die < 8 → homeReach s die home = true →
      ∃ t, exec (.dropNotice home die) s = .next t ∧ t.msgs = rest ∧ t.mem = s.mem
        ∧ (findHomePage t g).sharers.getLsbD die = false

/-- RELEASE_ROUND_START and EARLY_ROUND begin a die's one round: the waiting releases that it serves have joined it, and of the
TWINNED sheets that it carries one with changed words is RELEASING, its working words kept and its changed words in a block on
its way to its home, and one with none is CLEAN; a full round carries every TWINNED sheet, and no other sheet changes
(R298-R302). At most one round of a die runs at a time: while one runs neither event starts another (R301). -/
def Obligations.RoundsStart : Prop :=
  (∀ (s : State) (die : Nat), (getDie s die).round = none → ((getDie s die).sheets.map fun x => x.sheet).Nodup →
     ((getDie s die).waiting.any (wantsFull s) = true →
       ∃ t r, exec (.releaseRoundStart die) s = .next t ∧ (getDie t die).round = some r ∧ r.full = true
         ∧ r.tasks = (getDie s die).waiting ∧ r.start = s.tick ∧ t.mem = s.mem ∧ (getDie t die).waiting = []
         ∧ (getDie t die).touched = []
         ∧ (∀ home ∈ r.homes, (∃ wire, .block die home wire ∈ t.msgs) ∨ .marker die home ∈ t.msgs)
         ∧ (∀ x ∈ (getDie s die).sheets, x.state = .twinned → homeLost s (homeOf (256 * x.sheet)) = false → JoinsRound t die r x)
         ∧ ∀ x ∈ (getDie s die).sheets, x.state ≠ .twinned → x ∈ (getDie t die).sheets)
     ∧ ∀ sheets, sheets ≠ [] → sheets.all (fun x => (getDie s die).early.contains x) = true →
         ∃ t r, exec (.earlyRound die sheets) s = .next t ∧ (getDie t die).round = some r ∧ r.full = false ∧ t.mem = s.mem
           ∧ (∀ x ∈ (getDie t die).early, x ∉ sheets)
           ∧ (∀ x ∈ (getDie s die).sheets, x.state = .twinned → x.sheet ∈ sheets → homeLost s (homeOf (256 * x.sheet)) = false →
               JoinsRound t die r x)
           ∧ ∀ x ∈ (getDie s die).sheets, x.state ≠ .twinned ∨ x.sheet ∉ sheets → x ∈ (getDie t die).sheets)
  ∧ (∀ (s : State) (die : Nat), (getDie s die).round ≠ none →
       exec (.releaseRoundStart die) s = .next s ∧ ∀ sheets, exec (.earlyRound die sheets) s = .next s)

/-- HOME_APPLY_BLOCK of a block that is the oldest message: its words stand at the home, the releasing die gets the home's next
stamp for its span, every sharer of the page but the releasing die is sent the block with that stamp, and the home owes the
releasing die an acknowledgement (R303, R305, R306). MARKER_ARRIVAL, FOLD_IN and HOME_ROUND_ACK: a marker obliges the home to
acknowledge; after a marker or a fold-in no write that the home performed in the span waits to be folded in, and every sharer of
its page is sent the home's values of its words; a home that owes an acknowledgement folds in what it has performed meanwhile,
and once its blocks and fold-ins for the die are all acknowledged, with no block of it on its way, acknowledges the round (R302,
R313). Of what this rests on, the model chose what assumption log 46 names. -/
def Obligations.HomesApply : Prop :=
  (∀ (s : State) (home src : Nat) (wire : List Byte) (b : Diff) (rest : List Msg), s.msgs = .block src home wire :: rest →
     b = diffOf wire → homeReach s src home = true → homeLost s (homeOf (4096 * b.span)) = false → MemoryCanonical s →
     s.migrations = [] → (b.words.map fun w => w.1).Nodup → (∀ w ∈ b.words, w.1 < 1024) →
       ∃ t, exec (.homeApplyBlock home src) s = .next t
         ∧ .stampNotice home src b.span (stampOf s home + 1#32) ∈ t.msgs ∧ ({ home := home, die := src } : OwedAck) ∈ t.owed
         ∧ (∀ w ∈ b.words, natOfBytes (cellsRead t.mem (4096 * b.span + 4 * w.1) 4) = w.2.toNat)
         ∧ ∀ j < 8, j ≠ src → (findHomePage s (granule (4096 * b.span))).sharers.getLsbD j = true →
             ∃ f ∈ t.fwds, f.home = home ∧ f.die = j ∧ src ∈ f.round ∧ f.wire = { b with stamp := stampOf s home + 1#32 }.wire)
  ∧ ((∀ (s : State) (home src : Nat) (rest : List Msg), s.msgs = .marker src home :: rest → homeReach s src home = true →
         ∃ t, exec (.markerArrival home src) s = .next t ∧ ({ home := home, die := src } : OwedAck) ∈ t.owed ∧ t.mem = s.mem
           ∧ (∀ u ∈ t.unfolded, u.home ≠ home) ∧ FoldedIn s t home (fun _ => True) [src])
     ∧ (∀ (s : State) (home span : Nat) (u : Unfolded), u ∈ s.unfolded → u.home = home → spanOf u.addr = span →
         ∃ t, exec (.foldIn home span) s = .next t ∧ t.mem = s.mem
           ∧ (∀ v ∈ t.unfolded, ¬(v.home = home ∧ spanOf v.addr = span)) ∧ FoldedIn s t home (fun x => x = span) [])
     ∧ ∀ (s : State) (home die : Nat) (r : Round), ({ home := home, die := die } : OwedAck) ∈ s.owed → (getDie s die).round = some r →
         (∀ b, .block die home b ∉ s.msgs) → homeReach s die home = true →
         ((∃ u ∈ s.unfolded, u.home = home) →
           ∃ t, exec (.homeRoundAck home die) s = .next t ∧ t.mem = s.mem ∧ t.owed = s.owed
             ∧ (∀ u ∈ t.unfolded, u.home ≠ home) ∧ FoldedIn s t home (fun _ => True) [die])
         ∧ ((∀ u ∈ s.unfolded, u.home ≠ home) → (∀ f ∈ s.fwds, f.home = home → die ∉ f.round) →
           ∃ t r', exec (.homeRoundAck home die) s = .next t ∧ ({ home := home, die := die } : OwedAck) ∉ t.owed
             ∧ (getDie t die).round = some r' ∧ home ∉ r'.homes ∧ t.mem = s.mem))

/-- SHARER_APPLY, STAMP_NOTICE and SHARER_ACK: a forwarded block is held while the die waits for the stamp of its own block of the
span, and applied otherwise, once every atomic's value that the home sent before it has arrived: each of its words stands in the
die's sheet as the rule of one word gives it; the notice records the stamp, and no block of the span is held any more; an
applied block is acknowledged and leaves once the leases that it waits for have ended (R309-R311, R314). How a sharer applies
one word: a CLEAN sheet takes it; under a twin the twin takes it and the working word only if it equalled the twin; a word that
the die's own block in flight carries with a later stamp stays (R309, R310). Of what this rests on, the model chose what
assumption log 15 and 166 names. -/
def Obligations.SharersApply : Prop :=
  ((∀ (s : State) (die home : Nat) (f : Fwd) (rest : List Fwd), s.fwds = f :: rest → f.home = home → f.die = die → f.stage = .sent →
       valueBefore s home die f.seq = false → homeReach s die home = true →
       (flightStamp (getDie s die) f.d.span = some none →
         exec (.sharerApply die home) s = .next { s with fwds := { f with stage := .held } :: rest })
       ∧ (flightStamp (getDie s die) f.d.span ≠ some none →
         ∃ t n k, exec (.sharerApply die home) s = .next t ∧ t.fwds = { f with stage := .applied, until_ := n, ackAt := k } :: rest
           ∧ s.tick ≤ n ∧ n ≤ k ∧ t.mem = s.mem
           ∧ ((f.d.words.map fun w => w.1).Nodup → ∀ w ∈ f.d.words, w.1 < 1024 →
             ∀ x, findSheet (getDie s die) (16 * f.d.span + w.1 / 64) = some x →
               ∃ y, findSheet (getDie t die) (16 * f.d.span + w.1 / 64) = some y ∧ y.state = x.state ∧ y.held = x.held
                 ∧ sheetWord y.work (w.1 % 64)
                   = sheetWord (applyWord x (flightStamp (getDie s die) f.d.span).join f.d.stamp (w.1 % 64) w.2).work (w.1 % 64)
                 ∧ sheetWord y.twin (w.1 % 64)
                   = sheetWord (applyWord x (flightStamp (getDie s die) f.d.span).join f.d.stamp (w.1 % 64) w.2).twin (w.1 % 64))))
   ∧ (∀ (s : State) (die home span : Nat) (st : BitVec 32) (rest : List Msg) (r : Round),
       s.msgs = .stampNotice home die span st :: rest → (getDie s die).round = some r →
       homeReach s die home = true → ∃ t r', exec (.stampNotice die home) s = .next t ∧ t.msgs = rest ∧ (getDie t die).round = some r'
         ∧ r'.spans = (r.spans.map fun x => if x.1 = span then (x.1, some st) else x)
         ∧ ∀ f ∈ t.fwds, ¬(f.home = home ∧ f.die = die ∧ f.stage = .held ∧ f.d.span = span))
   ∧ ∀ (s : State) (die home : Nat) (f : Fwd) (rest : List Fwd), s.fwds = f :: rest → f.home = home → f.die = die →
       f.stage = .applied → f.ackAt ≤ s.tick → homeReach s die home = true → exec (.sharerAck die home) s = .next { s with fwds := rest })
  ∧ (∀ (x : Sheet) (own : Option (BitVec 32)) (stamp : BitVec 32) (w : Nat) (v : Word), w < 64 → x.held.getLsbD (w / 32) = true →
       (x.state = .clean → sheetWord (applyWord x own stamp w v).work w = v)
       ∧ (x.state = .twinned → sheetWord (applyWord x own stamp w v).twin w = v
           ∧ sheetWord (applyWord x own stamp w v).work w = if sheetWord x.work w = sheetWord x.twin w then v else sheetWord x.work w)
       ∧ (∀ o, x.state = .releasing → x.sent.getLsbD w = true → own = some o → stampBefore stamp o = true →
           applyWord x own stamp w v = x)
       ∧ ∀ k < 64, k ≠ w → sheetWord (applyWord x own stamp w v).work k = sheetWord x.work k
           ∧ sheetWord (applyWord x own stamp w v).twin k = sheetWord x.twin k)

/-- ROUND_COMPLETE: once every home has acknowledged, every stamp is known, 8 ticks have passed and every block that its home
stamped before the die's own has arrived, the round is over: each of its sheets that is RELEASING is CLEAN when it equals its
twin and TWINNED with that twin otherwise, its working words kept, no other sheet changes, and the releases that waited for it
are past it, with TIMEOUT where it timed out and else HOME_LOST where it met a lost home (R274, R276, R302, R310, R322). Of what
this rests on, the model chose what assumption log 54, 151 and 153 names. -/
def Obligations.RoundEnds : Prop :=
  ∀ (s : State) (die : Nat) (r : Round), (getDie s die).round = some r → r.homes = [] → (∀ x ∈ r.spans, x.2.isSome = true) →
    r.start + 8 ≤ s.tick → earlierComing s die r = false →
      ∃ t, exec (.roundComplete die) s = .next t ∧ (getDie t die).round = none ∧ t.mem = s.mem
        ∧ (∀ x ∈ (getDie s die).sheets, x.state = .releasing → x.sheet ∈ r.sheets →
            ∃ y ∈ (getDie t die).sheets, y.sheet = x.sheet ∧ y.held = x.held ∧ y.work = x.work ∧ (y.state = .clean ↔ x.work = x.twin)
              ∧ (x.work ≠ x.twin → y.state = .twinned ∧ y.twin = x.twin))
        ∧ (∀ x ∈ (getDie s die).sheets, x.state ≠ .releasing ∨ x.sheet ∉ r.sheets → x ∈ (getDie t die).sheets)
        ∧ ∀ k ∈ s.tasks, k.id ∈ r.tasks → k.stage = 4 →
            ∃ k' ∈ t.tasks, k'.id = k.id ∧ k'.stage = 5
              ∧ (k.fault = none → r.timedOut = true → ∃ v, k'.fault = some (0x12#8, v))
              ∧ (∀ sp, k.fault = none → r.timedOut = false → r.lostSpan = some sp →
                  k'.fault = some (0x15#8, BitVec.ofNat 64 (4096 * sp)))
              ∧ (k.fault = none → r.timedOut = false → r.lostSpan = none → k'.fault = none)

/-! ## Groups of work -/

/-- SPAWN, MBXRD and MBXFWD: SPAWN and MBXFWD begin with a release of what the gang has issued and hold their slot; once that is
over SPAWN queues its request and answers 0, or answers 1 where the queue is full or 2 where the request is malformed, and
MBXFWD posts its packet and answers its status; MBXRD takes the oldest packet into the scratchpad and answers its number with
VALID, or answers 0, or begins and waits, and takes the packet when one is there. Outside a dispatcher gang MBXRD and MBXFWD
trap, with an sr.tval that the spec does not state (R223-R226). A spawn request is queued for its blocks exactly when its range
lies in its grid, is not empty, its kernel is LOADED and the queue of 256 has room; a malformed one changes nothing (R223). Of
what this rests on, the model chose what assumption log 52, 53, 144, 168 and 169 names. -/
def Obligations.DispatcherInstructions : Prop :=
  ((∀ (h : Head) (d a : Opnd) (off : BitVec 32) (dst : BitVec 3) (s : State) (c : Ctx) (die core pos : Nat), Starts s h (single [a]) [a, d] c →
     wordCheck c.a [a] = none →
     (ScratchSpan c a off 32 .read die core pos →
       exec (.spawn h d a off) s = .next (addTask (c.begin (.spawn h d a off) (.task s.nextUid) d (headKills h a .zero .zero)
         [BitVec.ofNat 64 pos] false) (fullTask s c.g .die)))
     ∧ (c.g.dispatcher = true → ScratchSpan c a off 64 .read die core pos →
       exec (.mbxfwd h d a off dst) s = .next (addTask (c.begin (.mbxfwd h d a off dst) (.task s.nextUid) d (headKills h a .zero .zero)
         [BitVec.ofNat 64 pos] false) (fullTask s c.g .pkg)))
     ∧ (c.g.dispatcher = true → ScratchSpan c a off 64 .write die core pos → (getMailbox s c.g.id.die c.g.ctx).packets = [] →
       (MayCommit c (killRegs c.a (headKills h a .zero .zero)) → exec (.mbxrd h d a off false) s
           = .next (afterCommit c ((writeScalar (killRegs c.a (headKills h a .zero .zero)) d 0#64).advance c.x)))
       ∧ exec (.mbxrd h d a off true) s
           = .next (c.begin (.mbxrd h d a off true) .mailbox d (headKills h a .zero .zero) [BitVec.ofNat 64 pos] false))
     ∧ (∀ (q : BitVec 32) (p : BitVec 512) (rest : List (BitVec 32 × BitVec 512)) (wait : Bool),
       c.g.dispatcher = true → ScratchSpan c a off 64 .write die core pos →
       (getMailbox s c.g.id.die c.g.ctx).packets = (q, p) :: rest → Clear c [(.scratch die core pos, 64)] →
       Memory.wf (getCore s die core).scratch = true →
         ∃ t, exec (.mbxrd h d a off wait) s = .next t ∧ OnlySpan s t die core pos 64 ∧ scratchNat t die core pos 64 = p.toNat
           ∧ (getMailbox t c.g.id.die c.g.ctx).packets = rest
           ∧ GangHolds c ((writeScalar (killRegs c.a (headKills h a .zero .zero)) d
               (((q.setWidth 64 : BitVec 64) <<< (32 : Nat)) ||| 1#64)).advance c.x) t)
     ∧ (c.g.dispatcher = false → c.clear = true → ∃ v, ∀ wait : Bool,
         exec (.mbxrd h d a off wait) s = .next (takeTrap s c.g c.x 0x16#8 v (c.pc.setWidth 64) 0#5)
         ∧ exec (.mbxfwd h d a off dst) s = .next (takeTrap s c.g c.x 0x16#8 v (c.pc.setWidth 64) 0#5)))
   ∧ ∀ (h : Head) (d a : Opnd) (off : BitVec 32) (dst : BitVec 3) (s : State) (c : Ctx) (b : Pend) (pos : Nat), Resumes s h.guard c b →
     c.clear = true → (b.vals.headD 0#64).toNat = pos →
     (∀ (k : Task) (e : State × DWord), c.slot.wait = .task k.id → findTask s k.id = some k →
       (scratchPoisoned s c.g.id.die c.g.id.core pos 32 = false →
         e = spawnEffect (dropTask s k.id) c.g (spawnRequest s c.g (BitVec.ofNat 256 (scratchNat s c.g.id.die c.g.id.core pos 32))) →
           ∃ t, exec (.spawn h d a off) s = .next t ∧ Ended c b d e.2 t ∧ t.mem = s.mem ∧ t.mailboxes = e.1.mailboxes ∧ t.groups = e.1.groups)
       ∧ (scratchPoisoned s c.g.id.die c.g.id.core pos 64 = false → postOpen s c.g dst.toNat = true →
         e = forwardEffect (dropTask s k.id) c.g dst.toNat (BitVec.ofNat 512 (scratchNat s c.g.id.die c.g.id.core pos 64)) →
           ∃ t, exec (.mbxfwd h d a off dst) s = .next t ∧ Ended c b d e.2 t ∧ t.mem = s.mem ∧ t.mailboxes = e.1.mailboxes
             ∧ t.groups = e.1.groups))
     ∧ ∀ (q : BitVec 32) (p : BitVec 512) (rest : List (BitVec 32 × BitVec 512)),
       (getMailbox s c.g.id.die c.g.ctx).packets = (q, p) :: rest →
       heldBytes s c.g.id b.op [(.scratch c.g.id.die c.g.id.core pos, 64)] = false →
       Memory.wf (getCore s c.g.id.die c.g.id.core).scratch = true →
         ∃ t, exec (.mbxrd h d a off true) s = .next t ∧ Ended c b d (((q.setWidth 64 : BitVec 64) <<< (32 : Nat)) ||| 1#64) t
           ∧ OnlySpan s t c.g.id.die c.g.id.core pos 64 ∧ scratchNat t c.g.id.die c.g.id.core pos 64 = p.toNat
           ∧ (getMailbox t c.g.id.die c.g.ctx).packets = rest)
  ∧ (∀ (s : State) (g : Gang) (q : SpawnReq),
       (q.count = 0#32 ∨ q.grid.toNat < q.first.toNat + q.count.toNat ∨ loadedKernel s g.ctx q.kdesc = false →
         spawnEffect s g q = (s, 2#64))
       ∧ (q.count ≠ 0#32 → q.first.toNat + q.count.toNat ≤ q.grid.toNat → loadedKernel s g.ctx q.kdesc = true →
         (256 ≤ (getMailbox s g.id.die g.ctx).spawnq.length → spawnEffect s g q = (s, 1#64))
         ∧ ((getMailbox s g.id.die g.ctx).spawnq.length < 256 →
             (spawnEffect s g q).2 = 0#64
               ∧ (getMailbox (spawnEffect s g q).1 g.id.die g.ctx).spawnq = (getMailbox s g.id.die g.ctx).spawnq ++ [q])))

/-- SLOT_RECORD_WRITE takes the head of the spawn queue: into a standing record of its kernel that is empty, else, where a block of
it could fit on an empty die, into a free record of its kernel; where none could, its group completes LAUNCH_TOO_LARGE and no
record is written. Writing a record is a placement opportunity. At one, PLACEMENT_OPPORTUNITY places the first record in
ascending index of which a group fits: a whole number of its groups, one at least, as new RESIDENT blocks of the die with
consecutive indices, their channels closed and no failure, and the record's NEXT and LEFT move by them; every new block has a
new RUNNING gang in each of its places, at its kernel's entry with dead registers, the special registers at their values of gang
start and the counters 0; no byte of the device's memory changes (R84, R196, R199, R202-R205). Of what this rests on, the model
chose what assumption log 168, 169 and 170 names. -/
def Obligations.PlacementSteps : Prop :=
  (∀ (s : State) (die ctx : Nat) (q : SpawnReq) (rest : List SpawnReq) (c : Context), ctxActive s ctx = true → dieLost s die = false →
      (getMailbox s die ctx).spawnq = q :: rest → findContext s ctx = some c → q.count ≠ 0#32 →
      (∀ i r, standingFor (getDie s die) ctx q = some (i, r) → r.left = 0 →
        ∃ t r', exec (.slotRecordWrite die ctx) s = .next t ∧ (getMailbox t die ctx).spawnq = rest ∧ (i, r') ∈ (getDie t die).binds
          ∧ (getDie t die).chance = true
          ∧ r'.next = q.first ∧ r'.left = q.count.toNat ∧ r'.args = q.args ∧ r'.grid = q.grid ∧ r'.token = q.token
          ∧ r'.kdesc = r.kdesc ∧ r'.cores = r.cores ∧ t.mem = s.mem)
      ∧ ∀ k i g r, standingFor (getDie s die) ctx q = none → findKernel s ctx q.kdesc = some k → freeBind (getDie s die) = some i →
        g = groupFor (modMailbox s die ctx fun m => { m with spawnq := rest }) die ctx q → r = recordFor c k die q g.2 →
        (couldFit g.1 die r = true →
          ∃ t, exec (.slotRecordWrite die ctx) s = .next t ∧ (getMailbox t die ctx).spawnq = rest ∧ (i, r) ∈ (getDie t die).binds
            ∧ (getDie t die).chance = true ∧ t.mem = s.mem)
        ∧ (couldFit g.1 die r = false →
          ∃ t, exec (.slotRecordWrite die ctx) s = .next t ∧ (getMailbox t die ctx).spawnq = rest
            ∧ (getDie t die).binds = (getDie s die).binds ∧ (∀ d ∈ t.groups, d.uid = g.2 → d.tooLarge = true) ∧ t.mem = s.mem))
  ∧ ∀ (s : State) (die i : Nat) (r : BindRec) (pre post : List (Nat × BindRec)), (getDie s die).chance = true → dieLost s die = false →
      (getDie s die).binds = pre ++ (i, r) :: post → (∀ b ∈ pre ++ post, b.1 ≠ i) →
      (∀ b ∈ pre, b.2.valid = true → ctxActive s b.2.ctx = true → (placeRec s die b.2).2.left = b.2.left) →
      r.valid = true → ctxActive s r.ctx = true → (placeRec s die r).2.left < r.left →
      ∃ t n new gs, exec (.placementOpportunity die) s = .next t ∧ t.mem = s.mem
        ∧ 0 < n ∧ n ≤ r.left ∧ (n % (r.clustM1 + 1) = 0 ∨ n = r.left) ∧ (r.coop = true → n = r.left)
        ∧ (n = r.left → r.standing = false → ∀ b ∈ (getDie t die).binds, b.1 ≠ i)
        ∧ (n < r.left ∨ r.standing = true → ∃ cl,
            (i, { r with next := r.next + BitVec.ofNat 32 n, left := r.left - n, lastcl := cl }) ∈ (getDie t die).binds)
        ∧ t.blocks = s.blocks ++ new
        ∧ (∀ j < n, ∃ b, new[j]? = some b ∧ b.index = r.next + BitVec.ofNat 32 j ∧ b.ctx = r.ctx ∧ b.kdesc = r.kdesc ∧ b.args = r.args
            ∧ b.grid = r.grid ∧ b.dgroup = r.dgroup ∧ b.places.length = r.gangsM1 + 1 ∧ r.cores.getLsbD b.core = true)
        ∧ (∀ b ∈ new, b.die = die ∧ b.state = .resident ∧ b.fail = none ∧ b.chans = Vector.replicate 8 .closed
            ∧ (∀ id ∈ b.places, id.die = die ∧ id.core = b.core))
        ∧ t.gangs = s.gangs ++ gs
        ∧ gs.map (fun g => (g.block, g.id)) = new.flatMap (fun b => b.places.map fun id => (b.uid, id))
        ∧ ∀ g ∈ gs, g.arch.mode = .running ∧ (g.arch.slot .a).live = true ∧ (g.arch.slot .b).live = false
            ∧ (∀ k, findKernel s r.ctx r.kdesc = some k → (∃ b ∈ new, b.uid = g.block ∧ b.ctx = r.ctx ∧ b.kdesc = r.kdesc) →
                (g.arch.slot .a).pc = k.entry)
            ∧ (∀ n, g.arch.vreg n = none) ∧ (∀ n, g.arch.sreg n = none) ∧ g.arch.flags = 0#8 ∧ g.arch.fpmode = 0#10
            ∧ g.arch.nanc = 0#32 ∧ g.arch.part = 5#3 ∧ g.ld = 0 ∧ g.st = 0 ∧ g.cp = 0 ∧ g.tl = 0

/-- GANG_END removes a gang whose lanes have all exited and whose accesses are over, and starts a dispatcher's gang again at its
kernel's entry; one in which a posted write or a background fence has met a time-out or a lost home is killed: its block is
ABANDONED with FAILED_KILLED, PC 0, and cause 0x12 for the time-out or else 0. DIE_GROUP_DONE, when the group's release is over,
takes the group out and reports its die and its failures to its launch: with the group's first failure, or with HOME_LOST or
TIMEOUT where its release met one, or with LAUNCH_TOO_LARGE (R197, R198, R201, R204, R207, R276, R464). Of what this rests on,
the model chose what assumption log 45, 54, 153, 158 and 168 names. -/
def Obligations.EndsOfWork : Prop :=
  (∀ (s : State) (g : Gang), findGang s g.id = some g → gangOver s g = true →
      (g.posted = [] → g.fenceFault = none → g.dispatcher = false →
        ∃ t, exec (.gangEnd g.id) s = .next t ∧ findGang t g.id = none ∧ t.mem = s.mem ∧ ∀ id, id ≠ g.id → findGang t id = findGang s id)
      ∧ (∀ k, g.posted = [] → g.fenceFault = none → g.dispatcher = true → ownKernel s g = some k →
        ∃ t g', exec (.gangEnd g.id) s = .next t ∧ findGang t g.id = some g' ∧ t.mem = s.mem ∧ g'.arch.mode = .running
          ∧ (g'.arch.slot .a).live = true ∧ (g'.arch.slot .a).pc = k.entry ∧ (g'.arch.slot .b).live = false
          ∧ ∀ id, id ≠ g.id → findGang t id = findGang s id)
      ∧ (∀ f b, worstFault (g.posted.map (fun x => (x.cause, x.tval)) ++ g.fenceFault.toList) = some f → findBlock s g.block = some b →
        ∃ t b', exec (.gangEnd g.id) s = .next t ∧ findGang t g.id = none ∧ findBlock t g.block = some b' ∧ b'.state = .abandoned
          ∧ (b.fail = none → ∃ y, b'.fail = some y ∧ y.status = 1 ∧ y.pc = 0#32 ∧ y.cause = if f.1 = 0x12#8 then 0x12#8 else 0#8)))
  ∧ ∀ (s : State) (d : DieGroup) (k : Task), findGroup s d.uid = some d → d.task = some k.id → findTask s k.id = some k → k.stage = 6 →
      (d.launch = none → ∃ t, exec (.dieGroupDone d.uid) s = .next t ∧ findGroup t d.uid = none ∧ findTask t k.id = none
        ∧ t.launches = s.launches)
      ∧ ∀ u l, d.launch = some u → findLaunch s u = some l →
        ∃ t l', exec (.dieGroupDone d.uid) s = .next t ∧ findGroup t d.uid = none ∧ findTask t k.id = none ∧ findLaunch t u = some l'
          ∧ d.die ∉ l'.dies ∧ l'.faults = l.faults + d.faults
          ∧ (∀ f, d.fail = some f → l.fail = none → l'.fail = some f)
          ∧ (d.fail = none → k.fault = none → d.tooLarge = false → l'.fail = l.fail)
          ∧ (∀ v, d.fail = none → k.fault = some (0x15#8, v) → l.fail = none → ∃ f, l'.fail = some f ∧ f.status = 5)
          ∧ (∀ v, d.fail = none → k.fault = some (0x12#8, v) → l.fail = none → ∃ f, l'.fail = some f ∧ f.status = 9)
          ∧ (d.fail = none → k.fault = none → d.tooLarge = true → l.fail = none → ∃ f, l'.fail = some f ∧ f.status = 3)

/-! ## Code, channels, copy engines and the matrix unit -/

/-- CFLUSH, ICINV and FETCHB: a range whose end is not canonical traps; CFLUSH begins with the release of the range's lines and
holds its slot, after a wait where the walk of the range does not reach a home, and once the release is over moves on, or raises
what it has met; ICINV leaves no line of the range of its context in the instruction caches of its scope and every other core's
cache as it was; FETCHB discards the gang's fetch buffer. INSTRUCTION_FETCH_FILL installs the line that it reads (R379,
R381-R384). Of what this rests on, the model chose what assumption log 55 and 82 names. -/
def Obligations.CodeMaintenance : Prop :=
  (∀ (h : Head) (a b : Opnd) (off : BitVec 32) (scope : Scope) (s : State) (c : Ctx) (va : BitVec 64) (n : Nat),
    Starts s h (single [a, b]) [a, b] c → wordCheck c.a [a, b] = none → va = scalarOf c a + off.signExtend 64 →
    n = (scalarOf c b).toNat % 2 ^ 32 →
    (∀ x, rangeBad va n = some x → c.clear = true →
      exec (.cflush h a b off scope) s = .next (takeTrap s c.g c.x 0x08#8 x (c.pc.setWidth 64) 0#5)
      ∧ exec (.icinv h a b off scope) s = .next (takeTrap s c.g c.x 0x08#8 x (c.pc.setWidth 64) 0#5))
    ∧ (rangeBad va n = none →
      (∀ q l, piecesFrom c.g.id.die c.g.ctx (lineRange va.toNat n).2 (n / 65536 + 3) s (lineRange va.toNat n).1 = (q, .inr l) →
        exec (.cflush h a b off scope) s = .next (addTask ({ c with s := q }.begin (.cflush h a b off scope) (.task q.nextUid) .zero
          (headKills h a b .zero) [] true) (cflushTask q c.g scope l)))
      ∧ (∀ q home, piecesFrom c.g.id.die c.g.ctx (lineRange va.toNat n).2 (n / 65536 + 3) s (lineRange va.toNat n).1 = (q, .inl home) →
        exec (.cflush h a b off scope) s = .next ({ c with s := q }.begin (.cflush h a b off scope) (.walk s.tick home) .zero
          (headKills h a b .zero) [va, BitVec.ofNat 64 n] true))
      ∧ (icinvAway s c.g scope = none → c.clear = true →
        ∃ t, exec (.icinv h a b off scope) s = .next t ∧ GangHolds c ((killRegs c.a (headKills h a b .zero)).advance c.x) t
          ∧ t.mem = s.mem
          ∧ (∀ die core, icinvCores s c.g scope die core = false → (getCore t die core).icache = (getCore s die core).icache)
          ∧ ∀ die core, icinvCores s c.g scope die core = true → ∀ l, l ∈ (getCore t die core).icache ↔
              l ∈ (getCore s die core).icache
                ∧ ¬(l.ctx = c.g.ctx ∧ (lineRange va.toNat n).1 < 128 * l.line + 128 ∧ 128 * l.line < (lineRange va.toNat n).2))))
  ∧ (∀ (h : Head) (a b : Opnd) (off : BitVec 32) (scope : Scope) (s : State) (c : Ctx) (p : Pend), Resumes s h.guard c p →
    (∀ k, p.vals = [] → c.slot.wait = .task k.id → findTask s k.id = some k →
      (k.fault = none → ∃ t, exec (.cflush h a b off scope) s = .next t ∧ Ended c p .zero 0#64 t ∧ t.mem = s.mem)
      ∧ ∀ f, k.fault = some f → MayTrap s c p → ∃ t, exec (.cflush h a b off scope) s = .next t ∧ Trapped c p f.1 f.2 t)
    ∧ ∀ (va : BitVec 64) (n : Nat) (q : State) (l : List (Nat × Nat)), n < 2 ^ 32 → p.vals = [va, BitVec.ofNat 64 n] →
      piecesFrom c.g.id.die c.g.ctx (lineRange va.toNat n).2 (n / 65536 + 3) s (lineRange va.toNat n).1 = (q, .inr l) →
      ∃ t g, exec (.cflush h a b off scope) s = .next t ∧ t.tasks = q.tasks ++ [cflushTask q c.g scope l] ∧ findGang t c.g.id = some g
        ∧ (g.arch.slot c.x).wait = .task q.nextUid ∧ (g.arch.slot c.x).pc = c.pc)
  ∧ (∀ (h : Head) (s : State) (c : Ctx), Enters s h.guard c → c.act ≠ 0#32 →
      exec (.fetchb h) s
        = .next (putGang s { c.g with fetch := [], arch := settleAccounts c.g.budget (c.a.advance c.x) }))
  ∧ ∀ (s q : State) (g : Gang) (va : Nat) (tgt : Target) (l : State × BitVec 1024 × BitVec 32), findGang s g.id = some g →
      translate s g.id.die g.ctx (BitVec.ofNat 64 (va / 128 * 128)) 1 .fetch = (q, .inr tgt) → codeReach q g tgt = true →
      findFill s g va = none → l = codeLine q g tgt → l.2.2 = 0#32 →
        ∃ t, exec (.instructionFetchFill g.id va) s = .next t ∧ t.gangs = s.gangs ∧ t.mem = s.mem
          ∧ findILine (getCore t g.id.die g.id.core) g.ctx (va / 128) = some { ctx := g.ctx, line := va / 128, data := l.2.1 }

/-- Ordered channels: CHOPEN opens a closed channel to a memory die of 8 to 23 and traps otherwise; CHST of an open channel issues
its stores, with a datum and no index one store, and traps on a closed or broken one and on one to a lost die; CHCLOSE of an
open channel with no store left and every performed one folded in closes it, and traps on a closed one; CHANNEL_STORE_PERFORM,
once the channel's earlier stores are folded in, writes the bytes of the next one at its home and no other byte (R322,
R435-R440). Of what this rests on, the model chose what assumption log 60, 95, 147 and 164 names. -/
def Obligations.ChannelsKeepOrder : Prop :=
  (∀ (h : Head) (a : Opnd) (ch : BitVec 3) (s : State) (c : Ctx) (d : Nat), Starts s h (single [a]) [a] c →
    wordCheck c.a [a] = none → c.clear = true → d = (scalarOf c a).toNat % 2 ^ 32 →
    (chanOf c ch = .closed → 8 ≤ d → d ≤ 23 →
      ∃ t, exec (.chopen h a ch) s = .next t ∧ GangHolds c ((killRegs c.a (headKills h a .zero .zero)).advance c.x) t ∧ t.mem = s.mem
        ∧ ∀ u, findBlock t u = (findBlock s u).map fun b =>
            if u = c.g.block then { b with chans := b.chans.set (Fin.ofNat 8 ch.toNat) (.opened d) } else b)
    ∧ (chanOf c ch ≠ .closed →
      exec (.chopen h a ch) s = .next (takeTrap s c.g c.x 0x11#8 (ch.setWidth 64) (c.pc.setWidth 64) 0#5))
    ∧ (chanOf c ch = .closed → (d < 8 ∨ 23 < d) →
      exec (.chopen h a ch) s = .next (takeTrap s c.g c.x 0x11#8 (BitVec.ofNat 64 d) (c.pc.setWidth 64) 0#5)))
  ∧ (∀ (h : Head) (a b e : Opnd) (off : BitVec 32) (ch : BitVec 3) (w64 : Bool) (s : State) (c : Ctx), c.g.st < 63 →
    Starts s h [(a, 1), (b, 1), (e, if w64 then 2 else 1)] [a] c →
    readCheck c.a c.act [(a, 1), (b, 1), (e, if w64 then 2 else 1)] = none →
    (chanOf c ch = .closed → c.clear = true →
      exec (.chst h a b e off ch w64) s = .next (takeTrap s c.g c.x 0x11#8 (ch.setWidth 64) (c.pc.setWidth 64) 0#5))
    ∧ (∀ die, (chanOf c ch = .broken die ∨ chanOf c ch = .opened die ∧ homeLost s die = true) → c.clear = true →
      exec (.chst h a b e off ch w64) s = .next (takeTrap s c.g c.x 0x15#8 (freeNow s) (c.pc.setWidth 64) 0#5))
    ∧ ∀ (die : Nat) (lanes : List (Nat × BitVec 64)) (act : Mask) (r : State × List Checked) (l : List Checked),
      chanOf c ch = .opened die → homeLost s die = false →
      ((∀ n, e ≠ .v n) ∧ b = .zero ∧ act = 1#32 ∧ lanes = [(0, scalarAddr c .global a (storeOff e off) (wordSize w64))]
        ∨ ((∃ n, e = .v n) ∨ b ≠ .zero) ∧ act = c.act
          ∧ lanes = (lanesIn c.act).map fun i => (i, laneAddr c .global a b (storeOff e off) (wordSize w64) i)) →
      r = checkLanes s c.g .global (wordSize w64) .write lanes → l = r.2.map (chanLane die) → firstFail l = none →
      chanLoad r.1 c.g.block ch.toNat + lanes.length ≤ 64 →
      MayCommit c (killRegs c.a (killsOf h (a, 1) (b, 1) (e, if w64 then 2 else 1))) →
        ∃ t, exec (.chst h a b e off ch w64) s = .next t
          ∧ Issued { c with s := r.1 }
              (settleAccounts c.g.budget ((killRegs c.a (killsOf h (a, 1) (b, 1) (e, if w64 then 2 else 1))).advance c.x))
              (.home (.channel c.g.block ch.toNat) .zero w64 .pkg act
                (accsOf (passing l) fun i => (atomData c e w64 i).setWidth 128) 0#32 true)
              [] [] t)
  ∧ (∀ (h : Head) (ch : BitVec 3) (s : State) (c : Ctx), Enters s h.guard c → c.act ≠ 0#32 → c.clear = true →
    (∀ die, chanOf c ch = .opened die → (s.pend.any fun p => p.ofChannel c.g.block ch.toNat) = false →
      chanFolded s c.g.block ch.toNat = true →
      ∃ t, exec (.chclose h ch) s = .next t ∧ GangHolds c (c.a.advance c.x) t ∧ t.mem = s.mem
        ∧ ∀ u, findBlock t u = (findBlock s u).map fun b =>
            if u = c.g.block then { b with chans := b.chans.set (Fin.ofNat 8 ch.toNat) .closed } else b)
    ∧ (chanOf c ch = .closed →
      exec (.chclose h ch) s = .next (takeTrap s c.g c.x 0x11#8 (ch.setWidth 64) (c.pc.setWidth 64) 0#5)))
  ∧ ∀ (s : State) (p : Pend) (block ch pa : Nat) (d : Opnd) (w64 : Bool) (act cuts : Mask) (x : LaneAcc) (rest : List LaneAcc),
      (s.pend.find? fun p => p.ofChannel block ch) = some p →
      p.kind = .home (.channel block ch) d w64 .pkg act (x :: rest) cuts false → x.tgt = .mem pa false → opUnfolded s p.op = false →
      chanFolded s block ch = true →
      pendHeld s p = false → accsHome s p.gang.die [x] = true → homeHeld s p (.channel block ch) w64 .pkg [x] = false →
      homeLost s (homeOf pa) = false → MemoryCanonical s → s.migrations = [] →
        ∃ t, exec (.channelStorePerform block ch) s = .next t
          ∧ homeNat t pa (wordSize w64) = x.data.toNat % 256 ^ wordSize w64
          ∧ ∀ a, a < pa ∨ pa + wordSize w64 ≤ a → cellGet t.mem a = cellGet s.mem a

/-- CPY begins with a release at cluster scope of the gang's stores and holds its slot; once that is over and the engine walks fewer
than 64 chains it starts its chain, counts it in cp and answers its number. CPYK of a chain of its block that still walks turns
it to drain mode, cuts its running jobs short and answers 1, and of any other answers 0; while an older instruction of its gang
may still trap it is issued and acts once none may (R97, R344, R345). JOB_START asks for leave for a job that needs it and
starts a job that no earlier conflicting job blocks. JOB_END cancels a job that has not started when its chain drains, and ends
a started one with its work performed, an ALLREDUCE once its REDs are performed at their homes; a job whose request has no
route, or is past its time-out, waits. The job's STATUS, FAULT and, with a fault, FADDR stand in its entry, the chain turns to
drain mode on any status but OK, and the job is gone (R328, R329, R331, R342, R424). Of what this rests on, the model chose what
assumption log 56, 57, 66, 67, 68, 145 and 172 names. -/
def Obligations.EngineInstructions : Prop :=
  ((∀ (h : Head) (d a : Opnd) (off : BitVec 32) (s : State) (c : Ctx) (die core pos : Nat), Starts s h (single [a]) [a] c →
     wordCheck c.a [a] = none → ScratchSpan c a off 64 .read die core pos →
     exec (.cpy h d a off) s = .next (addTask
       (c.begin (.cpy h d a off) (.task s.nextUid) d (headKills h a .zero .zero) [BitVec.ofNat 64 pos] false)
       { baseTask s c.g .clu with ops := opsIn s c.g.id 2#6, writes := true }))
   ∧ (∀ (h : Head) (d a : Opnd) (off : BitVec 32) (s : State) (c : Ctx) (b : Pend) (k : Task) (n : BitVec 32), Resumes s h.guard c b →
       c.clear = true → c.slot.wait = .task k.id → findTask s k.id = some k → c.g.cp < 63 →
       (engineChains s c.g.id.die (clusterOf c.g.id.core)).length < 64 →
       n = (getCluster s c.g.id.die (clusterOf c.g.id.core)).nextChain →
         ∃ t, exec (.cpy h d a off) s = .next t ∧ Ended c b d (n.setWidth 64) t ∧ t.mem = s.mem
           ∧ (findGang t c.g.id).map (fun g => g.cp) = some (c.g.cp + 1) ∧ findTask t k.id = none
           ∧ t.chains = s.chains ++ [{ id := { die := c.g.id.die, cluster := clusterOf c.g.id.core, num := n.toNat }, ctx := c.g.ctx,
                                       origin := .block c.g.block c.g.id, at_ := (b.vals.headD 0#64).toNat, drain := false, last := none,
                                       loops := [], faults := 0, fail := none, cut := false, halted := false, begun := none,
                                       seen := none, quietAt := none, task := none }]
           ∧ (getCluster t c.g.id.die (clusterOf c.g.id.core)).nextChain = n + 1#32)
   ∧ ∀ (h : Head) (d a : Opnd) (s : State) (c : Ctx) (id : ChainId), Starts s h (single [a]) [] c → wordCheck c.a [a] = none →
     (c.clear = false → ∃ t, exec (.cpyk h d a) s = .next t
       ∧ Issued c (c.a.advance c.x) (.late (.cpyk d (scalarOf c a))) (spreadReads (headKills h a .zero .zero)) (groupOpnds d 1) t)
     ∧ (c.clear = true →
       id = { die := c.g.id.die, cluster := clusterOf c.g.id.core, num := (scalarOf c a).toNat % 2 ^ 32 } →
       (∀ x g, findChain s id = some x → x.origin = .block c.g.block g →
         ∃ t, exec (.cpyk h d a) s = .next t
           ∧ GangHolds c ((writeScalar (killRegs c.a (headKills h a .zero .zero)) d 1#64).advance c.x) t ∧ t.mem = s.mem
           ∧ findChain t id = some { x with drain := true, cut := true }
           ∧ t.jobs = s.jobs.map fun j => if j.chain = id ∧ j.state = .started then { j with cut := true } else j)
       ∧ ((∀ x g, findChain s id = some x → x.origin ≠ .block c.g.block g) →
         exec (.cpyk h d a) s
           = .next (afterCommit c ((writeScalar (killRegs c.a (headKills h a .zero .zero)) d 0#64).advance c.x)))))
  ∧ ((∀ (s : State) (j : Job) (c : Chain), findJob s j.id = some j → findChain s j.chain = some c → j.state = .accepted → c.drain = false →
       ctxRuns s c.ctx = true → jobBlocked s c j = false → leaveAsked s c.id.die (isJobLeave j.id) = false →
       (needsLeave j = true → j.leave = false → exec (.jobStart j.id) s
         = .next (askLeave (modJob s j.id fun x => { x with leave := true }) c.id.die (.job j.id s.tick)))
       ∧ (needsLeave j = false ∨ j.leave = true →
         exec (.jobStart j.id) s = .next (askJob (modJob s j.id fun x => { x with state := .started, tick := s.tick }) j.id)))
     ∧ (∀ (s : State) (j : Job) (c : Chain), findJob s j.id = some j → findChain s j.chain = some c → ctxRuns s c.ctx = true →
       (j.state = .accepted → c.drain = true → exec (.jobEnd j.id) s = .next (finishJob s c j 10 none))
       ∧ (j.state = .started → jobLate s j = true → exec (.jobEnd j.id) s = .next s)
       ∧ (j.state = .started → jobLate s j = false → cardKind j.card ≠ 3 → ∀ r, r = performJob s c j →
         (r.2 = none → exec (.jobEnd j.id) s = .next (finishJob r.1 c j 0 none))
         ∧ ∀ f, r.2 = some f →
           exec (.jobEnd j.id) s = .next (if f.1 = 7 then s else finishJob r.1 c j (faultStatus f.1) (some f)))
       ∧ (j.state = .started → jobLate s j = false → cardKind j.card = 3 →
         (j.reds.any (inRound s) = false →
           (∀ f, j.fault = some f → exec (.jobEnd j.id) s = .next (finishJob s c j (faultStatus f.1) (some f)))
           ∧ (j.fault = none → redLeft s j = [] → j.cut = false → exec (.jobEnd j.id) s = .next (finishJob s c j 0 none))
           ∧ (j.fault = none → redLeft s j = [] → j.cut = true →
             exec (.jobEnd j.id) s = .next (finishJob s c j 10 (some (10, noAddress s)))))
         ∧ ∀ (r : State × Job) (k : Job), j.fault = none → redLeft s j ≠ [] → r = reduceStep s c j (redLeft s j) → r.2.fault = none →
           k = { r.2 with unit := cardCount j.card } → k.reds.any (inRound r.1) = false → k.cut = false →
             exec (.jobEnd j.id) s = .next (finishJob (modJob r.1 j.id fun _ => k) c k 0 none)))
     ∧ ∀ (s : State) (j : Job) (c : Chain) (b : Block) (g : GangId) (status : Nat) (f : Option JobFault), findChain s c.id = some c →
       c.origin = .block b.uid g → findBlock s b.uid = some b → Memory.wf (getCore s b.die b.core).scratch = true → status < 65536 →
       inAlloc b j.entry 64 = true →
         findJob (finishJob s c j status f) j.id = none ∧ (finishJob s c j status f).mem = s.mem
         ∧ scratchNat (finishJob s c j status f) b.die b.core (j.entry + 4) 2 = status
         ∧ (f = none → scratchNat (finishJob s c j status f) b.die b.core (j.entry + 6) 2 = 0)
         ∧ (∀ x, f = some x → x.1 < 65536 → scratchNat (finishJob s c j status f) b.die b.core (j.entry + 6) 2 = x.1
             ∧ scratchNat (finishJob s c j status f) b.die b.core (j.entry + 56) 8 = x.2.toNat)
         ∧ (status = 0 → findChain (finishJob s c j status f) c.id = some c)
         ∧ (status ≠ 0 → ∃ d, findChain (finishJob s c j status f) c.id = some d ∧ d.drain = true ∧ d.at_ = c.at_
             ∧ d.faults = if status = 10 then c.faults else c.faults + 1))

/-- The walk of a chain that takes its turn: JOB accepts its job, marked in the entry, or in drain mode marks it CANCELLED; LOOP
goes back while passes are left and on otherwise; COND, SIGNAL and END wait until the chain's jobs have ended, the last two
until what these wrote is visible at cluster scope too, and the END of a packet's chain for a release of it at system scope;
then COND branches on its test, and on only in drain mode, SIGNAL sets its tag or subtracts from its barrier word and END takes
the chain out, and cp falls; a malformed entry counts a fault, turns the chain to drain mode and is passed, and past the end of
the allocation the walk stops and its chain ends (R324-R326, R341, R342, R344). Of what this rests on, the model chose what
assumption log 58, 59, 69, 70 and 171 names. -/
def Obligations.ChainEntries : Prop :=
  (∀ (s q : State) (c : Chain) (x : Option EntryRead) (sh : Shape), WalksOn s c q x sh →
    (∀ e, sh = .job e →
      (c.drain = false → ∃ t j, exec (.jobEntry c.id) s = .next t ∧ t.jobs = q.jobs ++ [j] ∧ j.id = q.nextUid ∧ j.chain = c.id
        ∧ j.card = e ∧ j.state = .accepted ∧ j.entry = c.at_
        ∧ j.src = e.extractLsb' 64 64 + loopShift (enclosing c c.at_) LoopPass.sstep
        ∧ j.dst = e.extractLsb' 128 64 + loopShift (enclosing c c.at_) LoopPass.dstep
        ∧ findChain t c.id = some (walkedTo c ((c.at_ + 128) % 2 ^ 64)))
      ∧ (c.drain = true → ∃ t, exec (.jobEntry c.id) s = .next t ∧ t.jobs = q.jobs
        ∧ findChain t c.id = some (walkedTo c ((c.at_ + 128) % 2 ^ 64)))
      ∧ ∀ b g, c.origin = .block b.uid g → findBlock s b.uid = some b → inAlloc b c.at_ 64 = true →
        Memory.wf (getCore s b.die b.core).scratch = true → ∀ t, exec (.jobEntry c.id) s = .next t →
          scratchNat t b.die b.core (c.at_ + 4) 2 = (if c.drain then 10 else 0xFFFF) ∧ OnlySpan s t b.die b.core (c.at_ + 4) 2)
    ∧ (∀ e n rest, sh = .loop e → rest = (c.loops.filter fun l => decide (l.entry ≠ c.at_)) →
        n = (match c.loops.find? fun l => decide (l.entry = c.at_) with
          | some l => l.passes
          | none => 0) →
        ∃ t, exec (.loopEntry c.id) s = .next t ∧ t.jobs = q.jobs ∧ t.mem = q.mem
          ∧ (c.drain = false ∧ n < entryBits e 12 0 32 → findChain t c.id = some
              { walkedTo c (chainTarget c (entryInt e 8) % 2 ^ 64).toNat with
                  loops := rest ++ [{ entry := c.at_, target := (chainTarget c (entryInt e 8)).toNat, passes := n + 1,
                                      sstep := e.extractLsb' 128 64, dstep := e.extractLsb' 192 64 }] })
          ∧ (c.drain = true ∨ entryBits e 12 0 32 ≤ n → findChain t c.id = some
              { walkedTo c ((c.at_ + 64) % 2 ^ 64) with loops := rest }))
    ∧ (∀ e, sh = .cond e →
        (chainJobs q c.id ≠ [] → ∃ t, exec (.condEntry c.id) s = .next t ∧ t.mem = q.mem ∧ findChain t c.id = some { c with seen := x })
        ∧ ∀ w, chainJobs q c.id = [] → condWord q c e = some w →
          ∃ t, exec (.condEntry c.id) s = .next t ∧ t.mem = q.mem
            ∧ findChain t c.id = some (walkedTo c
              (if c.drain = false ∧ (BitVec.ofNat 32 w &&& e.extractLsb' 96 32 = e.extractLsb' 128 32 ↔ e.getLsbD 192 = false)
                then (chainTarget c (entryInt e 20) % 2 ^ 64).toNat else (c.at_ + 64) % 2 ^ 64)))
    ∧ (∀ n, c.quietAt = none → n = engineSeen q c.id.die c.id.cluster →
        chainJobs q c.id ≠ [] ∨ q.tick < n →
        ∀ d, d = (if chainJobs q c.id ≠ [] then { c with seen := x } else { c with seen := x, quietAt := some n }) →
        ((∃ core k, sh = .tagSignal core k) ∨ (∃ die core pos k, sh = .barSignal die core pos k) →
          ∃ t, exec (.signalEntry c.id) s = .next t ∧ t.mem = q.mem ∧ findChain t c.id = some d)
        ∧ (sh = .fin → chainJobs q c.id ≠ [] ∨ isPacket c = false →
          ∃ t, exec (.endEntry c.id) s = .next t ∧ t.mem = q.mem ∧ findChain t c.id = some d))
    ∧ (sh = .fin → chainJobs q c.id = [] → isPacket c = true →
      (c.task = none → ∃ t, exec (.endEntry c.id) s = .next t ∧ t.mem = q.mem ∧ t.jobs = q.jobs
        ∧ t.tasks = q.tasks ++ [unitTask q c.id.die [c.id.cluster] .sys]
        ∧ findChain t c.id = some { c with seen := x, task := some q.nextUid })
      ∧ ∀ k, c.task = some k → ∃ t, exec (.endEntry c.id) s = .next t ∧ findChain t c.id = none ∧ t.jobs = q.jobs)
    ∧ (chainJobs q c.id = [] → c.quietAt ≠ none ∨ engineSeen q c.id.die c.id.cluster ≤ q.tick →
      (∀ core n, sh = .tagSignal core n → ∃ t, exec (.signalEntry c.id) s = .next t ∧ t.mem = q.mem
        ∧ (getCore t c.id.die core).tags = (getCore q c.id.die core).tags ||| (1#64 <<< (n % 64))
        ∧ findChain t c.id = some (walkedTo c ((c.at_ + 64) % 2 ^ 64)))
      ∧ (∀ die core pos n, sh = .barSignal die core pos n → Memory.wf (getCore q die core).scratch = true →
        ∃ t, exec (.signalEntry c.id) s = .next t ∧ readBar t die core pos = barSignal (readBar q die core pos) n
          ∧ OnlySpan q t die core pos 16 ∧ findChain t c.id = some (walkedTo c ((c.at_ + 64) % 2 ^ 64)))
      ∧ (sh = .fin → isPacket c = false → ∃ t, exec (.endEntry c.id) s = .next t ∧ findChain t c.id = none ∧ t.jobs = q.jobs
        ∧ t.mem = q.mem ∧ ∀ u g y, c.origin = .block u g → findGang q g = some y →
          ∃ z, findGang t g = some z ∧ z.cp = y.cp - 1 ∧ z.arch.v = y.arch.v ∧ z.arch.s = y.arch.s))
    ∧ (∀ job, sh = .bad job → ∃ t, exec (.malformedEntry c.id) s = .next t ∧ t.jobs = q.jobs
        ∧ findChain t c.id = some { walkedTo c ((c.at_ + (if job then 128 else 64)) % 2 ^ 64) with
            drain := true, faults := c.faults + 1, fail := some (c.fail.getD 8) }
        ∧ ∀ b g, c.origin = .block b.uid g → findBlock s b.uid = some b → inAlloc b c.at_ 64 = true →
          Memory.wf (getCore s b.die b.core).scratch = true →
            scratchNat t b.die b.core (c.at_ + 4) 4 = 0x00040008 ∧ OnlySpan s t b.die b.core (c.at_ + 4) 4)
    ∧ (sh = .off → ∃ t, exec (.malformedEntry c.id) s = .next t ∧ t.jobs = q.jobs
        ∧ (c.last = none → findChain t c.id = some { c with halted := true })
        ∧ ∀ a, c.last = some a → findChain t c.id = some
            { c with halted := true, faults := c.faults + 1, fail := some (c.fail.getD 8) }))
  ∧ ∀ (s : State) (c : Chain), findChain s c.id = some c → c.halted = true → ctxRuns s c.ctx = true → chainJobs s c.id = [] →
      c.quietAt.getD 0 ≤ s.tick → chainReleasing s c = false →
      (isPacket c = false ∧ (c.quietAt ≠ none ∨ engineSeen s c.id.die c.id.cluster ≤ s.tick) ∨ isPacket c = true ∧ c.task ≠ none →
        ∃ t, exec (.endEntry c.id) s = .next t ∧ findChain t c.id = none)
      ∧ (isPacket c = true → c.task = none → ∃ t, exec (.endEntry c.id) s = .next t
        ∧ t.tasks = s.tasks ++ [unitTask s c.id.die [c.id.cluster] .sys] ∧ findChain t c.id = some { c with task := some s.nextUid })

/-- XENC and XDEC issue with their operands read, the pipe asking for leave when it has been idle; TRANSFORM_REPLY, with leave, no
older transform of the core and no older instruction of the gang that may still trap, writes the results to the active lanes and
keeps the others. LEAVE_GRANT grants the oldest request and adds the wait to its gang's sr.leave (R346, R347, R467). Of what
this rests on, the model chose what assumption log 73 names. -/
def Obligations.CoderResults : Prop :=
  (∀ (h : Head) (d a : Opnd) (rate : BitVec 2) (s : State) (c : Ctx) (ask : Bool), Starts s h (single [a]) [] c →
    mergeCheck c.a c.act d = none →
    ask = (idleUnit s c.g.id.die (getCore s c.g.id.die c.g.id.core).xfIdle && !s.pend.any (isXform c.g.id.die c.g.id.core)) →
    (readCheck c.a (blockLanes c.act 16) (single [a]) = none →
      ∃ t, Issued c (c.a.advance c.x)
          (.xform d c.act ((List.range 32).map fun i => xencLane c.a a (rateBits rate.toNat) i) ask)
          (spreadReads (headKills h a .zero .zero)) (groupOpnds d 1) t
        ∧ exec (.xenc h d a rate) s = .next (if ask then askLeave t c.g.id.die (.pend s.nextOp s.tick) else t))
    ∧ (readCheck c.a (blockLanes c.act (rateBits rate.toNat / 2)) (single [a]) = none →
      ∃ t, Issued c (c.a.advance c.x)
          (.xform d c.act ((List.range 32).map fun i => xdecLane c.a a (rateBits rate.toNat) i) ask)
          (spreadReads (headKills h a .zero .zero)) (groupOpnds d 1) t
        ∧ exec (.xdec h d a rate) s = .next (if ask then askLeave t c.g.id.die (.pend s.nextOp s.tick) else t)))
  ∧ (∀ (s : State) (p : Pend) (g : Gang) (op : Nat) (n : Fin 64) (act : Mask) (lanes : List Word) (leave : Bool),
      findPend s op = some p → p.kind = .xform (.v n) act lanes leave → leaveAsked s p.gang.die (isPendLeave op) = false →
      (s.pend.any fun q => isXform p.gang.die p.gang.core q && decide (q.op < op)) = false → findGang s p.gang = some g →
      olderRisk s p.gang op = false → heldSlots g.arch + 32 ≤ slotLimit s g →
        ∃ t g', exec (.transformReply op) s = .next t ∧ findPend t op = none ∧ findGang t p.gang = some g' ∧ t.mem = s.mem
          ∧ (∀ i < 32, vregVal (g'.arch.vreg n) i = if inMask act i then lanes.getD i 0#32 else vregVal (g.arch.vreg n) i)
          ∧ (∀ m, m ≠ n → .v m ∉ p.kills → g'.arch.vreg m = g.arch.vreg m))
  ∧ ∀ (s : State) (die : Nat) (r : LeaveReq) (rest : List LeaveReq), (getDie s die).leaves = r :: rest →
      ∃ t, exec (.leaveGrant die) s = .next t ∧ (getDie t die).leaves = rest ∧ t.mem = s.mem ∧ t.pend = s.pend
        ∧ (∀ id tick, r = .job id tick → t.gangs = s.gangs)
        ∧ ∀ op tick p g, r = .pend op tick → findPend s op = some p → findGang s p.gang = some g →
            findGang t p.gang = some { g with leave := addLeave g.leave (cyclesOf s die (min (s.tick - tick) leaveLimit)) }

/-- MMA, MMASP, MMAX and MMACB issue with their 1,024 run slots reserved and their tiles named; MCBLD and MSTT issue with theirs;
the array asks for leave when it has been idle. MATRIX_OPERAND_FETCH reads the tiles: one that fails a check traps with
MMA_CHECK, else the results are formed and sr.nanc counts the NaNs taken as zero; MCBLD's codebook slot is written.
MATRIX_RESULT writes the 32 result registers and no other (R351-R363). Of what this rests on, the model chose what assumption
log 71 and 72 names. -/
def Obligations.MatrixOperations : Prop :=
  (∀ (i : Instr) (f : ProductForm) (s : State) (c : Ctx) (ta tb : Target) (k : Arch), productForm i = some f →
    Starts s f.head f.reads [] c → readCheck c.a fullMask f.reads = none → k = killRegs c.a f.kills →
    slotExcess s c.g { k with reserved := k.reserved + (1024 - groupSlots k f.d 32) } = none →
    tileTarget c f.a 64 2560 = some ta → tileTarget c f.b 64 2560 = some tb → c.clear = true →
      ∃ t, Issued c (settleAccounts c.g.budget ({ k with reserved := k.reserved + (1024 - groupSlots k f.d 32) }.advance c.x))
          (.mat i false [ta, tb] (f.cols c.a)) [] (groupOpnds f.d 32) t
        ∧ exec i s = .next (if matAsk c then askLeave t c.g.id.die (.pend s.nextOp s.tick) else t))
  ∧ (∀ (h : Head) (a : Opnd) (slot : BitVec 3) (s : State) (c : Ctx) (tgt : Target), Starts s h (single [a]) [] c →
    wordCheck c.a [a] = none →
    (tileTarget c a 32 32 = some tgt → MayCommit c (killRegs c.a (headKills h a .zero .zero)) →
      ∃ t, Issued c (settleAccounts c.g.budget ((killRegs c.a (headKills h a .zero .zero)).advance c.x))
          (.mat (.mcbld h a slot) false [tgt] []) [] [] t
        ∧ exec (.mcbld h a slot) s = .next (if matAsk c then askLeave t c.g.id.die (.pend s.nextOp s.tick) else t))
    ∧ (tileTarget c a 32 32 = none → c.clear = true →
      exec (.mcbld h a slot) s = .next (takeTrap s c.g c.x 0x08#8 (scalarOf c a) (c.pc.setWidth 64) 0#5)))
  ∧ (∀ (h : Head) (a e : Opnd) (m : MatMod) (ch role : BitVec 3) (s : State) (c : Ctx) (die core pos : Nat) (fl : BitVec 8), c.g.st < 63 →
    Starts s h [(a, 1), (e, 32)] [] c → readCheck c.a fullMask [(a, 1), (e, 32)] = none →
    tileTarget c a 64 2560 = some (.scratch die core pos) →
    fl = ((groupWords c.a e 32).flatMap fun l => l.map fun x => (msttElem m x).2).foldl (· ||| ·) 0#8 →
    excCheck c.a.fpmode fl = none → MayCommit c (raiseFlags (killRegs c.a (killsOf h (a, 1) (.zero, 1) (e, 32))) fl) →
      ∃ t, Issued c (settleAccounts c.g.budget ((raiseFlags (killRegs c.a (killsOf h (a, 1) (.zero, 1) (e, 32))) fl).advance c.x))
          (.image true die core pos (msttBytes m ch.toNat role.toNat (groupWords c.a e 32)) []) [] [] t
        ∧ exec (.mstt h a e m ch role) s = .next (if matAsk c then askLeave t c.g.id.die (.pend s.nextOp s.tick) else t))
  ∧ (∀ (s : State) (p : Pend) (op : Nat), findPend s op = some p → fetchHeld s p = false →
    (∀ i ta tb cols x y r, p.kind = .mat i false [ta, tb] cols → x = operandBytes s op 0 ta → y = operandBytes s op 1 tb →
      x.2 = false → y.2 = false →
      r = productFetch (fun n => (getCore s p.gang.die p.gang.core).codebooks.get (Fin.ofNat 8 n)) i x.1 y.1 cols →
      (r.1 = 0#64 → ∃ t, exec (.matrixOperandFetch op) s = .next t ∧ t.mem = s.mem ∧ t.cores = s.cores
        ∧ findPend t op = some { p with kind := .mat i true [ta, tb] r.2.2 }
        ∧ ∀ g, findGang s p.gang = some g → ∃ g', findGang t p.gang = some g' ∧ g'.arch.v = g.arch.v ∧ g'.arch.s = g.arch.s
            ∧ g'.arch.nanc = addNanc g.arch.nanc r.2.1)
      ∧ (r.1 ≠ 0#64 → olderRisk s p.gang op = false → exec (.matrixOperandFetch op) s = .next (preciseTrap (dropSamples s op) p 0x14#8 r.1 0#5)))
    ∧ ∀ h a slot tgt cols, p.kind = .mat (.mcbld h a slot) false [tgt] cols → olderRisk s p.gang op = false →
      (tileBytes s 32 tgt).2 = false →
      ∃ t, exec (.matrixOperandFetch op) s = .next t ∧ findPend t op = none ∧ t.mem = s.mem
        ∧ (getCore t p.gang.die p.gang.core).codebooks = (getCore s p.gang.die p.gang.core).codebooks.set slot.toNat
            (BitVec.ofNat 256 (natOfBytes (tileBytes s 32 tgt).1)) slot.isLt)
  ∧ ∀ (s : State) (p : Pend) (g : Gang) (op : Nat) (i : Instr) (tiles : List Target) (cols : List (List Word)) (n : Fin 64),
      findPend s op = some p → p.kind = .mat i true tiles cols → productDst i = .v n → findGang s p.gang = some g →
      olderRisk s p.gang op = false →
      (s.pend.any fun q => isMatrix p.gang.die p.gang.core q && decide (q.op < op) && (match q.kind with
        | .mat _ _ _ _ => true
        | _ => false)) = false →
        ∃ t g', exec (.matrixResult op) s = .next t ∧ findPend t op = none ∧ findGang t p.gang = some g' ∧ t.mem = s.mem
          ∧ (∀ k < 32, ∀ l < 32, vregVal (g'.arch.vreg (groupReg n k)) l = (cols.getD k []).getD l 0#32)
          ∧ (∀ m, (∀ k < 32, groupReg n k ≠ m) → g'.arch.vreg m = g.arch.vreg m) ∧ g'.arch.s = g.arch.s

/-! ## Other accesses, pages, errors and links -/

/-- HOST_CXL_MEM_ACCESS and REMOTE_ACCESS: a read takes what stands at the home, the host's with its poison, and changes nothing
there; a write, and what another device's atomic makes of its word, stands at the home and touches no other byte; another
device's RED into a window of its own joins that window's round (R315, R428-R430, R434). MIGRATION_LINE_COPY copies the line at
the boundary and moves the boundary past it; MIGRATION_DONE at the end of the page switches its entries to the new place and
begins the closing shootdown, after which no die holds an entry of the range; BIAS_LINE_STEP moves its boundary, and past the
last line switches the entries' BIAS and begins the closing shootdown; SHOOTDOWN_DIE_ACK takes a die whose part is over out of
the shootdown (R317-R319). Of what this rests on, the model chose what assumption log 20, 98, 99, 100, 123, 152 and 176 names. -/
def Obligations.OutsideAndPages : Prop :=
  ((∀ (s : State) (addr : Nat) (data : List Byte), hostOpen s = true → hostHeld s = false → hostSpan addr data.length = true →
     exec (.hostCxlMemAccess addr data false) s = .next
       { s with cxlReads := (addr, bytesOfNat data.length (homeNat s addr data.length), homePoisoned s addr) :: s.cxlReads }
     ∧ (MemoryCanonical s → s.migrations = [] → homeLost s (homeOf addr) = false →
       ∃ t, exec (.hostCxlMemAccess addr data true) s = .next t ∧ cellsRead t.mem addr data.length = data ∧ t.gangs = s.gangs
         ∧ ∀ a, a < addr ∨ addr + data.length ≤ a → cellGet t.mem a = cellGet s.mem a))
   ∧ ∀ (s : State) (addr pa : Nat) (acc : RemoteOp) (data : BitVec 128), [1, 2, 4, 8, 16].contains (remoteSize acc) = true →
     addr % remoteSize acc = 0 → s.deviceLost = false → pa = addr % 2 ^ 44 →
     (∀ x, remoteJoins s addr acc data = some x → exec (.remoteAccess addr acc data) s = .next x)
     ∧ (remoteJoins s addr acc data = none → addr / 2 ^ 44 = s.admin.devid.toNat → paExists pa = true →
       (remoteNew acc (homeNat s pa (remoteSize acc)) data = none → exec (.remoteAccess addr acc data) s = .next s)
       ∧ ∀ n x, remoteNew acc (homeNat s pa (remoteSize acc)) data = some (n, x) → MemoryCanonical s → s.migrations = [] →
         homeLost s (homeOf pa) = false →
         ∃ t, exec (.remoteAccess addr acc data) s = .next t ∧ homeNat t pa n = x % 256 ^ n ∧ t.gangs = s.gangs
           ∧ ∀ a, a < pa ∨ pa + n ≤ a → cellGet t.mem a = cellGet s.mem a))
  ∧ ((∀ (s : State) (page : Nat) (m : Migration), findMigration s page = some m → m.bias = none → m.boundary < m.size →
       MemoryCanonical s →
         ∃ t, exec (.migrationLineCopy page) s = .next t ∧ findMigration t page = some { m with boundary := m.boundary + 128 }
           ∧ cellsRead t.mem (m.new + m.boundary) 128 = cellsRead s.mem (m.old + m.boundary) 128
           ∧ (∀ a, a < m.new + m.boundary ∨ m.new + m.boundary + 128 ≤ a → cellGet t.mem a = cellGet s.mem a)
           ∧ ((m.new + m.boundary) / 128 ∈ t.poison ↔ (m.old + m.boundary) / 128 ∈ s.poison)
           ∧ ∀ l, l ≠ (m.new + m.boundary) / 128 → (l ∈ t.poison ↔ l ∈ s.poison))
     ∧ (∀ (s : State) (page : Nat) (m : Migration), findMigration s page = some m → m.bias = none → m.size ≤ m.boundary → m.shoot = none →
         ∃ t n, exec (.migrationDone page) s = .next t ∧ t.mem = (switchEntries (moveSharers s m) m).mem
           ∧ findMigration t page = some { m with shoot := some n }
           ∧ (∃ x ∈ t.shoots, x.id = n ∧ x.ctx = m.ctx ∧ x.first = m.va ∧ x.len = m.size ∧ x.admin = false
               ∧ x.tasks.map (fun k => k.1) = contextDies s m.ctx)
           ∧ ∀ j < 8, ∀ x ∈ (getDie t j).tlb, x.meets m.ctx m.va m.size = false)
     ∧ (∀ (s : State) (page : Nat) (m : Migration), findMigration s page = some m → m.bias ≠ none → m.shoot = none →
         (∀ x ∈ s.migrations, x.old = page → x = m) →
         ∃ t n, exec (.biasLineStep page) s = .next t ∧ findMigration t page = some n ∧ n.boundary = m.boundary + 128
           ∧ (n.shoot = none ↔ m.boundary + 128 < m.size) ∧ n.bias = m.bias ∧ n.old = m.old ∧ n.size = m.size
           ∧ (m.boundary + 128 < m.size → t.mem = s.mem)
           ∧ (m.size ≤ m.boundary + 128 → t.mem = (switchEntries s m).mem ∧ ∀ j < 8, ∀ x ∈ (getDie t j).tlb, x.meets m.ctx m.va m.size = false))
     ∧ (∀ (s : State) (m : Migration) (a : Nat) (e : BitVec 64), pageEntries m.size = 1 →
         contextLeaf s m.ctx (BitVec.ofNat 64 m.va) = some (a, e) → pteRemote e = false → pteAddr e = m.old → MemoryCanonical s →
         s.migrations.all (fun x => !inPage x.old x.size a 8) = true → homeLost s (homeOf a) = false →
           homeNat (switchEntries s m) a 8 = (movedEntry m e).toNat
             ∧ ∀ x, x < a ∨ a + 8 ≤ x → cellGet (switchEntries s m).mem x = cellGet s.mem x)
     ∧ ∀ (s : State) (id die : Nat) (x : Shoot) (k : Nat × Nat), (s.shoots.find? fun x => decide (x.id = id)) = some x →
         (x.tasks.find? fun t => decide (t.1 = die)) = some k → (∀ t, findTask s k.2 = some t → t.stage = 6) →
         ∃ t, exec (.shootdownDieAck id die) s = .next t ∧ findTask t k.2 = none ∧ t.mem = s.mem ∧ t.gangs = s.gangs
           ∧ (t.shoots.find? fun x => decide (x.id = id)) = some { x with tasks := x.tasks.filter fun k => decide (k.1 ≠ die) })

/-- UNCORRECTABLE_ERROR poisons what it reaches - a home line, a word of a cached line, a word of a scratchpad, a register, a saved
context - and changes no value; ECC_CORRECTED adds 1 to the COUNT of the entry of its unit that is less than a second old, or
makes a new entry of COUNT 1; PATROL_SCRUB keeps a sector and changes no byte; ECS_COUNT_READ logs each stack's count (R320,
R321, R457, R461, R462). Of what this rests on, the model chose what assumption log 101 names. -/
def Obligations.StorageErrors : Prop :=
  (∀ (s : State) (line : Nat), paExists (128 * line) = true →
      ∃ t, exec (.uncorrectableError (.home line)) s = .next t ∧ line ∈ t.poison ∧ t.mem = s.mem ∧ t.gangs = s.gangs
        ∧ ∃ h ∈ t.health, h.kind = 2 ∧ h.tick = s.tick ∧ h.die = homeOf (128 * line))
  ∧ (∀ (s : State) (g : Gang) (n : Fin 64) (l : List Run) (lane : Nat), findGang s g.id = some g → g.arch.vreg n = some l →
      lane < lengthOf l →
      ∃ t g', exec (.uncorrectableError (.register g.id n.val lane)) s = .next t ∧ findGang t g.id = some g' ∧ t.mem = s.mem
        ∧ vregPoison (g'.arch.vreg n) lane = true ∧ (∀ i, vregVal (g'.arch.vreg n) i = vregVal (g.arch.vreg n) i)
        ∧ ∀ m, m ≠ n → g'.arch.vreg m = g.arch.vreg m)
  ∧ (∀ (s : State) (g : Gang) (lane : Nat), findGang s g.id = some g →
      (∀ n : Fin 64, (g.arch.sreg n).isSome = true →
        ∃ t, exec (.uncorrectableError (.register g.id (64 + n.val) lane)) s = .next t
          ∧ findGang t g.id = some { g with arch := { g.arch with sPoison := g.arch.sPoison ||| (1#64 <<< n.val) } }
          ∧ { t with gangs := s.gangs } = s)
      ∧ ∀ n < 7, ∃ t, exec (.uncorrectableError (.register g.id (128 + n) lane)) s = .next t
          ∧ findGang t g.id = some { g with arch := { g.arch with pPoison := g.arch.pPoison ||| (1#8 <<< n) } }
          ∧ { t with gangs := s.gangs } = s)
  ∧ (∀ (s : State) (die cl core addr ctx : Nat),
      (die < 8 → (sheetOr s die (addr / 256)).held.getLsbD (addr / 128 % 2) = true →
        ∃ t, exec (.uncorrectableError (.rdc die addr)) s = .next t ∧ t.mem = s.mem ∧ t.gangs = s.gangs
          ∧ sheetOr t die (addr / 256) = { sheetOr s die (addr / 256) with
              poison := (sheetOr s die (addr / 256)).poison ||| (1#64 <<< (addr % 256 / 4)) })
      ∧ (((getCluster s die cl).lines.any fun x => decide (x.line = addr / 128)) = true →
        ∃ t, exec (.uncorrectableError (.cluster die cl addr)) s = .next t ∧ t.mem = s.mem ∧ t.gangs = s.gangs
          ∧ (getCluster t die cl).lines = poisonLeased (getCluster s die cl).lines addr)
      ∧ (((getCore s die core).l1.any fun x => decide (x.line = addr / 128)) = true →
        ∃ t, exec (.uncorrectableError (.l1 die core addr)) s = .next t ∧ t.mem = s.mem ∧ t.gangs = s.gangs
          ∧ (getCore t die core).l1 = poisonLeased (getCore s die core).l1 addr)
      ∧ ((s.saved.any fun v => decide (v.ctx = ctx)) = true → ∀ x, findContext s ctx = some x →
        ∃ t, exec (.uncorrectableError (.shadow ctx)) s = .next t ∧ findContext t ctx = some { x with shadowErr := true }
          ∧ t.mem = s.mem ∧ t.gangs = s.gangs))
  ∧ (∀ (s : State) (die core pos : Nat), die < 8 → core < 128 → pos < 524288 →
      ∃ t, exec (.uncorrectableError (.scratch die core pos)) s = .next t ∧ scratchPoisoned t die core pos 1 = true
        ∧ t.mem = s.mem ∧ t.gangs = s.gangs ∧ ∀ d k, (getCore t d k).scratch = (getCore s d k).scratch)
  ∧ (∀ (s : State) (die unit : Nat), die < 24 →
      ∃ t, exec (.eccCorrected die unit) s = .next t ∧ t.mem = s.mem ∧ t.gangs = s.gangs
        ∧ ∀ same, same = (fun h : HealthEntry => decide (h.die = die) && decide (h.kind = 1) && decide (h.unit = unit)
            && decide (s.tick < h.tick + 1000000000)) →
          (s.health.any same = true → t.health = s.health.map fun h => if same h then { h with count := h.count + 1 } else h)
          ∧ (s.health.any same = false → ∃ h ∈ t.health, h.kind = 1 ∧ h.die = die ∧ h.unit = unit ∧ h.tick = s.tick ∧ h.count = 1))
  ∧ (∀ (s : State) (sector : Nat), MemoryCanonical s → s.migrations = [] →
      (paExists (32 * sector) = true → ∃ t, exec (.patrolScrub sector .read) s = .next t ∧ t.mem = s.mem ∧ t.gangs = s.gangs
        ∧ (t.scrub.find? fun x => decide (x.1 = sector)) = some (sector, sectorNow s sector))
      ∧ ∀ x, (s.scrub.find? fun x => decide (x.1 = sector)) = some x →
        ∃ t, exec (.patrolScrub sector .writeBack) s = .next t ∧ t.gangs = s.gangs ∧ ∀ a, cellGet t.mem a = cellGet s.mem a)
  ∧ ∀ (s : State) (counts : List Nat), counts.length = 16 →
      ((s.health.filter fun h => decide (h.kind = 8)).foldl (fun m h => max m h.tick) 0) + 10000000000 ≤ s.tick →
      ∃ t, exec (.ecsCountRead counts) s = .next t ∧ t.mem = s.mem ∧ t.gangs = s.gangs
        ∧ ∀ k < 16, ∃ h ∈ t.health, h.kind = 8 ∧ h.die = 8 + k ∧ h.tick = s.tick ∧ h.count = counts.getD k 0

/-- The states of a link: training ends ACTIVE or DEGRADED within 10 ms, and after 10 ms FAILED; the host may disable it; with a CXL
port its proxy home is lost. A retry request sends the unacknowledged flits from its SEQ again, and the sixteenth in a row for
one flit retrains the link, or fails it when it is the third within a second; a flit with a CRC error, and a payload flit out of
order, is discarded whole and asked for again, the sixteenth time in a row retraining the link too, and one in order is taken
and ends the row; an acknowledgement drops what it names (R423-R425). Of what this rests on, the model chose what assumption log
127 names. -/
def Obligations.LinkStates : Prop :=
  ∀ (s : State) (id : LinkId) (l : Link), findLink s id = some l →
    (∀ units, training l = true → 0 < units → units ≤ l.units → s.tick < l.since + 10000000 →
      ∃ t l', exec (.linkTrained id units) s = .next t ∧ findLink t id = some l' ∧ t.mem = s.mem ∧ t.gangs = s.gangs
        ∧ l'.state = (if units = l.units then .active else .degraded) ∧ l'.trained = units ∧ l'.since = s.tick
        ∧ l'.resend = l.unacked.map fun x => x.1)
    ∧ (training l = true → l.since + 10000000 ≤ s.tick →
      (∀ units, exec (.linkTrained id units) s = .next s) ∧ ∃ t, exec (.linkTrainTimeout id) s = .next t ∧ findLink t id = some { l with state := .failed, since := s.tick }
        ∧ ((∀ d, id ≠ .cxl d) → t.mem = s.mem ∧ t.gangs = s.gangs) ∧ ∀ d, id = .cxl d → ProxyGone t d)
    ∧ (hostOpen s = true → l.state ≠ .disabled →
      ∃ t l', exec (.linkDisabled id) s = .next t ∧ findLink t id = some l' ∧ l'.state = .disabled
        ∧ ((∀ d, id ≠ .cxl d) → id ≠ .guest → t.mem = s.mem ∧ t.gangs = s.gangs) ∧ ∀ d, id = .cxl d → ProxyGone t d)
    ∧ (linkUp s id = true →
      (∀ seq n, n = (if l.retrySeq = seq then l.retries + 1 else 1) →
        (n < 16 → ∃ t, exec (.retryRequest id seq) s = .next t ∧ t.mem = s.mem ∧ t.gangs = s.gangs
          ∧ findLink t id = some { l with retries := n, retrySeq := seq, resend := resendFrom l.unacked seq })
        ∧ (16 ≤ n → ∃ t, exec (.retryRequest id seq) s = .next t ∧ Retrains s t id l))
      ∧ ∀ flit : BitVec 2048,
        (crc32c (bytesOfNat 248 flit.toNat) ≠ flit.extractLsb' 1984 32
            ∨ flit.extractLsb' 0 4 = 1#4 ∧ flit.extractLsb' 4 12 ≠ l.expect →
          ((l.asked.takeWhile fun x => decide (x = l.expect)).length < 15 →
            exec (.flitReceive id flit) s = .next (modLink s id fun l => { l with asked := l.expect :: l.asked }))
          ∧ (15 ≤ (l.asked.takeWhile fun x => decide (x = l.expect)).length →
            ∃ t, exec (.flitReceive id flit) s = .next t ∧ Retrains s t id l))
        ∧ (crc32c (bytesOfNat 248 flit.toNat) = flit.extractLsb' 1984 32 → 3 < (flit.extractLsb' 0 4).toNat →
          exec (.flitReceive id flit) s = .next s)
        ∧ (crc32c (bytesOfNat 248 flit.toNat) = flit.extractLsb' 1984 32 → (flit.extractLsb' 0 4).toNat ≤ 3 →
          (flit.extractLsb' 0 4 = 1#4 → flit.extractLsb' 4 12 = l.expect) →
          ∃ t, exec (.flitReceive id flit) s = .next t
            ∧ ∀ l', id ≠ .guest → findLink t id = some l' → ((∀ d, id ≠ .cxl d) → t.mem = s.mem ∧ t.gangs = s.gangs)
              ∧ (flit.extractLsb' 0 4 ≠ 3#4 → l'.credits = l.credits + flit.extractLsb' 32 32
                ∧ ∀ x ∈ l'.unacked, x ∈ l.unacked ∧ (x.1 - flit.extractLsb' 16 12 - 1#12).toNat < 2048)
              ∧ (flit.extractLsb' 0 4 = 1#4 → l'.expect = l.expect + 1#12 ∧ l'.acked = l.expect ∧ l'.asked = [])))

/-- REQUEST_TIMEOUT, 65,536 ticks after a request that has had no reply: an access whose result is waited for raises TIMEOUT, a
posted one is over and keeps TIMEOUT for its gang's next instruction that waits for it, each once no older instruction of its
gang may still trap; a copy job that waits for a reply fails with FAULT 7, a round waits for no home any more, and a slot that
waits for a walk or a fetch of code, or its begun instruction, traps. A reduction round that is complete, or 65,536 ticks old,
is delivered once, performed at its home, and marks PARTIAL when incomplete (R97, R276, R329, R426, R430). Of what this rests
on, the model chose what assumption log 28, 48 and 96 names. -/
def Obligations.TimeoutsAndReductions : Prop :=
  (∀ (s : State) (p : Pend) (g : Gang) (performed : Bool), findPend s p.op = some p → findGang s p.gang = some g →
    lateReply s p = true → olderRisk s p.gang p.op = false →
    (p.kind.posts = false → ∃ q v, exec (.requestTimeout (4 * p.op) performed) s = .next (preciseTrap q p 0x12#8 v 0#5)
        ∧ (performed = false → q = s))
    ∧ (p.kind.posts = true →
      ∃ t g' v, exec (.requestTimeout (4 * p.op) performed) s = .next t ∧ findPend t p.op = none ∧ findGang t p.gang = some g'
        ∧ (performed = false → g'.posted = g.posted ++ [{ op := p.op, cls := p.kind.postClass, cause := 0x12#8, tval := v }]
          ∧ ((∀ n accs pol, p.kind ≠ .store n accs pol) → t.mem = s.mem))))
  ∧ (∀ (s : State) (j : Job) (c : Chain), findJob s j.id = some j → findChain s j.chain = some c → j.state = .started →
    jobLate s j = true →
      ∃ a, exec (.requestTimeout (4 * j.id + 1) false) s = .next (finishJob s c j 9 (some (7, a)))
        ∧ exec (.requestTimeout (4 * j.id + 1) true) s
            = .next (finishJob (if cardKind j.card = 3 then s else performSome s c j) c j 9 (some (7, a))))
  ∧ (∀ (s : State) (die : Nat) (r : Round) (performed : Bool), die < 8 → (getDie s die).round = some r → r.homes ≠ [] →
    timedOut s die r.start = true →
      ∃ t r', exec (.requestTimeout (4 * die + 2) performed) s = .next t ∧ (getDie t die).round = some r' ∧ r'.homes = []
        ∧ r'.timedOut = true ∧ r'.sheets = r.sheets ∧ r'.tasks = r.tasks ∧ t.mem = s.mem)
  ∧ (∀ (s : State) (g : Gang) (x : PcSlot) (op since : Nat) (performed : Bool), findWalk s op = some (g, x, since) →
    timedOut s g.id.die since = true → g.halted = false → olderRisk s g.id op = false →
      ∃ v, (begunIn s g.id x = none → exec (.requestTimeout (4 * op + 3) performed) s
          = .next (takeTrap s g x 0x12#8 v ((g.arch.slot x).pc.setWidth 64) 0#5))
        ∧ ∀ p, begunIn s g.id x = some p → exec (.requestTimeout (4 * op + 3) performed) s = .next (preciseTrap s p 0x12#8 v 0#5))
  ∧ ∀ (s : State) (word pa : Nat) (r : RedRound), pa = r.addr % 2 ^ 44 → MemoryCanonical s → s.migrations = [] →
    homeLost s (homeOf pa) = false →
    ((s.redRounds.find? fun r => decide (r.addr = word) && decide (r.parts.length ≥ r.win.count)) = some r →
      ∃ t, exec (.reductionRoundDeliver word) s = .next t ∧ RoundDelivered s t r pa ∧ t.rwins = s.rwins)
    ∧ ((s.redRounds.find? fun r => decide (r.addr = word) && decide (r.parts.length < r.win.count)
          && decide (r.first + requestLimit ≤ s.tick)) = some r →
      ∃ t, exec (.reductionPartialTimeout word) s = .next t ∧ RoundDelivered s t r pa
        ∧ ((r.parts.any fun x => x.2.isSome) = true → (t.rwins.get (Fin.ofNat 8 r.win.index)).getLsbD 184 = true)
        ∧ ((r.parts.any fun x => x.2.isSome) = false → t.rwins = s.rwins))

/-! ## Queues, the host and the guest -/

/-- A bell in range publishes its packets; one past the ring puts the queue in ERROR with ERRCODE 2 and passes its head, if it has
one. A draw steps its die's lottery and takes the winner's head packet, or passes a malformed one and puts its queue in ERROR
with ERRCODE 1; where the status block cannot be written the queue enters ERROR with ERRCODE 4, and one whose home is not
reached is written once it is, which is the model's reading of R16 (log 174) (R389-R391, R397). Taken packets, once what they
send has a route, for which the model has them wait (log 174): a LAUNCH that may not run completes with its status and otherwise
posts a share to the mailbox of each die of its split; a DEPEND completes when its references have; a SIGNAL at its turn writes
its word and completes; a CHAIN starts its chain (R393-R396, R398). Of what this rests on, the model chose what assumption log
86, 88, 89, 161, 162 and 174 names. -/
def Obligations.QueuesRun : Prop :=
  ((∀ (s : State) (q : Queue) (w : BitVec 32), findQueue s q.num = some q → hostOpen s = true →
     (idxDiff w q.ridx ≤ 2 ^ q.log2 → exec (.bellWrite q.num w) s = .next (modQueue s q.num fun _ => { q with bell := w }))
     ∧ (2 ^ q.log2 < idxDiff w q.ridx → q.state = .error → exec (.bellWrite q.num w) s = .next s)
     ∧ (2 ^ q.log2 < idxDiff w q.ridx → q.state ≠ .error →
       ∃ t q', exec (.bellWrite q.num w) s = .next t ∧ findQueue t q.num = some q' ∧ q'.state = .error ∧ q'.err = 2
         ∧ q'.bell = q.bell ∧ q'.ridx = if q.ridx = q.bell then q.ridx else q.ridx + 1#32))
   ∧ ∀ (s t : State) (die : Nat) (q : Queue), die < 8 → dieLost s die = false → readyQueues s die ≠ [] →
     lotteryWinner (lotteryNext (getDie s die).lottery) (readyQueues s die) = some q → findQueue s q.num = some q →
     t = (modDie s die fun d => { d with lottery := lotteryNext d.lottery }) →
     (∀ p x, (packetAt t q q.ridx).2 = some p → packetOk q q.ridx p = true →
       x = { q with ridx := q.ridx + 1#32, taken := q.taken ++ [{ pindex := q.ridx, packet := p, start := s.tick, begun := false }] } →
       ∃ u q', exec (.lotteryDraw die) s = .next u ∧ (getDie u die).lottery = lotteryNext (getDie s die).lottery
         ∧ findQueue u q.num = some q' ∧ u.gangs = s.gangs
         ∧ ((tryQueue (packetAt t q q.ridx).1 x).isSome = true → q' = { x with stale := q'.stale })
         ∧ ((tryQueue (packetAt t q q.ridx).1 x).isSome = false → q'.state = .error ∧ q'.err = 4))
     ∧ ((∀ p, (packetAt t q q.ridx).2 = some p → packetOk q q.ridx p = false) → q.ridx ≠ q.bell →
       ∃ u q', exec (.lotteryDraw die) s = .next u ∧ findQueue u q.num = some q' ∧ q'.state = .error ∧ q'.err = 1
         ∧ q'.ridx = q.ridx + 1#32))
  ∧ (∀ (s : State) (w : Nat) (q : Queue) (k : Taken),
       (takenOf s q.num w 1 = some (q, k) →
         (∀ status, launchRefused s q k.packet = some status →
           exec (.launchPacket q.num w) s = .next (finishTaken s q k status 0))
         ∧ (launchRefused s q k.packet = none → sharesFit s q.ctx (launchShares s q.mask (launchGrid k.packet).toNat) = true →
           sharesReach s q (launchShares s q.mask (launchGrid k.packet).toNat) = true →
           ∃ t, exec (.launchPacket q.num w) s = .next t ∧ t.mem = s.mem ∧ t.gangs = s.gangs
             ∧ t.launches = s.launches ++ [newLaunch s q k (launchShares s q.mask (launchGrid k.packet).toNat)]
             ∧ ∀ x ∈ launchShares s q.mask (launchGrid k.packet).toNat, (getMailbox t x.1 q.ctx).packets
                 = (getMailbox s x.1 q.ctx).packets ++ [((getMailbox s x.1 q.ctx).seq, sharePacket k.packet x.2.1 x.2.2)]))
       ∧ (takenOf s q.num w 2 = some (q, k) → refsDone s q k.packet = true →
         exec (.dependPacket q.num w) s = .next (finishTaken s q k 0 0))
       ∧ (takenOf s q.num w 3 = some (q, k) → q.done = k.pindex →
         deviceReach s (queueDie s q) q.ctx (k.packet.extractLsb' 64 64) 8 .write = true →
         (signalWrite s q k.packet = none → exec (.signalPacket q.num w) s = .next (finishTaken s q k 8 1))
         ∧ ∀ t q', signalWrite s q k.packet = some t → findQueue t q.num = some q' →
             exec (.signalPacket q.num w) s = .next (finishTaken t q' k 0 0))
       ∧ (takenOf s q.num w 4 = some (q, k) →
         (dieLost s (packetBits k.packet 2 0 3) = true → exec (.chainPacket q.num w) s = .next (finishTaken s q k 6 0))
         ∧ (dieLost s (packetBits k.packet 2 0 3) = false →
           (engineChains s (packetBits k.packet 2 0 3) (packetBits k.packet 2 4 4)).length < 64 →
           dieReach s (queueDie s q) (packetBits k.packet 2 0 3) = true →
           ∃ t c, exec (.chainPacket q.num w) s = .next t ∧ t.chains = s.chains ++ [c] ∧ t.mem = s.mem ∧ t.gangs = s.gangs
             ∧ c.id.die = packetBits k.packet 2 0 3 ∧ c.id.cluster = packetBits k.packet 2 4 4 ∧ c.ctx = q.ctx
             ∧ c.origin = .packet q.num k.pindex ∧ c.at_ = packetBits k.packet 8 0 64 ∧ c.drain = false))
       ∧ ∀ (t : State) (pa : Nat) (hb : Bool),
           translateAny s (queueDie s q) q.ctx (k.packet.extractLsb' 64 64) 8 .write = (t, .inr (.mem pa hb)) →
           homeLost t (homeOf pa) = false → MemoryCanonical t → t.migrations = [] →
           ∃ u, signalWrite s q k.packet = some u ∧ homeNat u pa 8 = (if packetBits k.packet 2 0 8 = 1
               then (BitVec.ofNat 64 (homeNat t pa 8) + k.packet.extractLsb' 128 64 : BitVec 64) else k.packet.extractLsb' 128 64).toNat
             ∧ ∀ a, a < pa ∨ pa + 8 ≤ a → cellGet u.mem a = cellGet t.mem a)

/-- While the ring is reached, for which the model has the device wait (log 174), COMPLETION_RECORD, which reads RIDX first when the
ring was full at its last reading, writes the oldest record that is due at WIDX and moves WIDX, raising the interrupt when the
rule asks for it; RIDX_POLL reads RIDX while the ring was full; EVENT_RING_TIMER raises the interrupt; REPLAY_RERUN posts the
shares of a new attempt, counted (R399-R401). Of what this rests on, the model chose what assumption log 129, 134, 157 and 174
names. -/
def Obligations.EventRing : Prop :=
  (∀ (s : State) (c : Context), findContext s c.num = some c →
    (∀ q e r rest, c.due = r :: rest → ringReach s c true = true →
      (ringFull c = false ∧ q = s ∧ e = c ∨ ringFull c = true ∧ ringFull e = false ∧
        ∃ p x, readRidx s c = (p, some x) ∧ e = c.readAt x s.tick ∧ q = modContext p c.num fun _ => e) →
      (writeRecord q e r = none → exec (.completionRecord c.num) s = .next (loseRecord q e rest))
      ∧ ∀ t, writeRecord q e r = some t →
        ∃ u d, exec (.completionRecord c.num) s = .next u ∧ findContext u c.num = some d ∧ d.widx = c.widx + 1#32 ∧ d.due = rest
          ∧ d.ridx = e.ridx ∧ u.mem = t.mem ∧ u.gangs = s.gangs
          ∧ ((c.unannounced.length + 1 ≥ c.evc ∨ c.nowPending = true ∨ r.now = true) →
              u.interrupts = s.interrupts ++ [ringVector c.num] ∧ d.unannounced = [])
          ∧ (c.unannounced.length + 1 < c.evc → c.nowPending = false → r.now = false →
              u.interrupts = s.interrupts ∧ d.unannounced = c.unannounced ++ [s.tick]))
    ∧ (∀ t x, ringFull c = true → readRidx s c = (t, some x) →
      (ringReach s c false = true → ∃ u, exec (.ridxPoll c.num) s = .next u ∧ findContext u c.num = some (c.readAt x s.tick) ∧ u.mem = s.mem ∧ u.gangs = s.gangs)
      ∧ (c.due ≠ [] → ringReach s c true = true → ringFull (c.readAt x s.tick) = true →
        ∃ u, exec (.completionRecord c.num) s = .next u ∧ findContext u c.num = some (c.readAt x s.tick) ∧ u.mem = s.mem
          ∧ u.interrupts = s.interrupts))
    ∧ (∀ k rest, c.unannounced = k :: rest → c.evu ≠ 0 → k + 1000 * c.evu ≤ s.tick →
      ∃ u, exec (.eventRingTimer c.num) s = .next u ∧ u.interrupts = s.interrupts ++ [ringVector c.num] ∧ u.mem = s.mem
        ∧ findContext u c.num = some { c with unannounced := [], nowPending := false }))
  ∧ ∀ (s : State) (l : Launch) (q : Queue), findLaunch s l.uid = some l → findQueue s l.queue = some q → l.rerun = true →
    ctxActive s l.ctx = true →
    (launchRefused s q l.packet = none → sharesFit s l.ctx (launchShares s q.mask l.grid) = true →
      sharesReach s q (launchShares s q.mask l.grid) = true →
      ∃ t l', exec (.replayRerun l.uid) s = .next t ∧ findLaunch t l.uid = some l' ∧ t.mem = s.mem ∧ t.gangs = s.gangs
        ∧ l'.replays = l.replays + 1 ∧ l'.rerun = false ∧ l'.fail = none
        ∧ l'.dies = (launchShares s q.mask l.grid).map (fun y => y.1)
        ∧ ∀ x ∈ launchShares s q.mask l.grid, (getMailbox t x.1 l.ctx).packets
            = (getMailbox s x.1 l.ctx).packets ++ [((getMailbox s x.1 l.ctx).seq, sharePacket l.packet x.2.1 x.2.2)])
    ∧ ∀ status, launchRefused s q l.packet = some status →
        ∃ t, exec (.replayRerun l.uid) s = .next t ∧ findLaunch t l.uid = none ∧ t.gangs = s.gangs

/-- Every command: one that is not the next of the queue changes nothing; a device in recovery answers CODE 2 to all but HEALTHRD
and FWUPDATE; a non-zero reserved bit answers CODE 1, an absent context CODE 2, an unknown OPCODE CODE 1. A completion writes
TAG, CODE, DETAIL and RESULT at ACTAIL, moves ACTAIL and raises vector 0 (R472, R473, R475). The register page: AQTAIL publishes
commands unless it would overrun the ring, AQCTL enables with zero indices or disables, ACHEAD frees completions, a base
register changes only while the queue is disabled, and a window register only while no context is ACTIVE, but for the clear of
PARTIAL. A read gives DEVID and the form, BOOTST and the number of lost dies, SECVER and the indices, and zero for AQTAIL and
for an access that is not of 4 or 8 aligned bytes (R429, R471, R472). Of what this rests on, the model chose what assumption log
74, 75, 76, 77, 78 and 79 names. -/
def Obligations.AdminQueue : Prop :=
  ((∀ (i : Instr) (f : AdminForm) (s : State), adminForm i = some f →
     (adminEntry s ≠ some f.entry → exec i s = .next s)
     ∧ (adminEntry s = some f.entry → entryOpcode f.entry = BitVec.ofNat 8 f.op →
       (s.admin.bootst = 2 → f.op ≠ 0x10 → f.op ≠ 0x18 → exec i s = .next (adminFail (takeCommand s) f.entry 2))
       ∧ (s.admin.bootst ≠ 2 → f.entry &&& ~~~(usedBits f.names f.fields) ≠ 0#512 →
         exec i s = .next (adminFail (takeCommand s) f.entry 1))
       ∧ (s.admin.bootst ≠ 2 → f.entry &&& ~~~(usedBits f.names f.fields) = 0#512 → f.names = true →
         findContext s (entryCtx f.entry) = none → exec i s = .next (adminFail (takeCommand s) f.entry 2))))
   ∧ (∀ (s : State) (e : BitVec 512), adminEntry s = some e → decodeAdmin e = .adminUnknownOpcode e → s.admin.bootst ≠ 2 →
       exec (.adminUnknownOpcode e) s = .next (adminFail (takeCommand s) e 1))
   ∧ ∀ (s : State) (e : BitVec 512) (code detail : Nat) (result : BitVec 64) (at_ : Nat), s.admin.enable = true →
       Memory.wf s.hostMem = true → code < 256 → detail < 256 →
       at_ = s.admin.acbase.toNat + 16 * (s.admin.actail.toNat % 2 ^ s.admin.log2) →
       cellsRead (adminDone s e code detail result).hostMem at_ 4 = bytesOfNat 4 (e.extractLsb' 32 32).toNat
       ∧ cellsRead (adminDone s e code detail result).hostMem (at_ + 4) 2 = [BitVec.ofNat 8 code, BitVec.ofNat 8 detail]
       ∧ (code = 0 → cellsRead (adminDone s e code detail result).hostMem (at_ + 8) 8 = bytesOfNat 8 result.toNat)
       ∧ (adminDone s e code detail result).admin = { s.admin with actail := s.admin.actail + 1#32, busy := none }
       ∧ (adminDone s e code detail result).interrupts = s.interrupts ++ [0]
       ∧ (adminDone s e code detail result).mem = s.mem ∧ (adminDone s e code detail result).gangs = s.gangs)
  ∧ ((∀ s : State,
       (pageValue s 0x000 8).extractLsb' 0 20 = s.admin.devid ∧ (pageValue s 0x000 8).extractLsb' 32 2 = BitVec.ofNat 2 s.form
       ∧ (pageValue s 0x008 8).extractLsb' 0 2 = BitVec.ofNat 2 s.admin.bootst
       ∧ (pageValue s 0x008 8).extractLsb' 8 8 = BitVec.ofNat 8 ((List.range 24).filter fun j => s.lost.getLsbD j).length
       ∧ pageValue s 0x010 8 = s.admin.secver ∧ pageValue s 0x100 8 = s.admin.aqbase ∧ pageValue s 0x118 8 = s.admin.acbase
       ∧ pageValue s 0x110 4 = 0#64 ∧ pageValue s 0x114 4 = s.admin.aqhead.setWidth 64 ∧ pageValue s 0x120 4 = s.admin.achead.setWidth 64
       ∧ pageValue s 0x124 4 = s.admin.actail.setWidth 64
       ∧ (∀ k : Fin 8, ∀ j < 3, pageValue s (0x1000 + 24 * k.val + 8 * j) 8 = (s.rwins.get k).extractLsb' (64 * j) 64)
       ∧ ∀ off size, (size ≠ 4 ∧ size ≠ 8) ∨ off % size ≠ 0 → pageValue s off size = 0#64)
     ∧ ∀ s : State, hostOpen s = true →
       (∀ v : BitVec 32,
         (idxDiff v s.admin.aqhead ≤ 2 ^ s.admin.log2 → exec (.aqtailWrite v) s = .next { s with admin := { s.admin with aqtail := v } })
         ∧ (2 ^ s.admin.log2 < idxDiff v s.admin.aqhead → exec (.aqtailWrite v) s = .next s))
       ∧ (∀ v : BitVec 64,
         (v.getLsbD 8 = true → s.admin.enable = false → exec (.aqctlWrite v) s = .next { s with admin := { s.admin with
             log2 := (v.extractLsb' 0 4).toNat, enable := true, aqhead := 0#32, aqtail := 0#32, achead := 0#32, actail := 0#32 } })
         ∧ (v.getLsbD 8 = true → s.admin.enable = true → exec (.aqctlWrite v) s = .next s)
         ∧ (v.getLsbD 8 = false →
           exec (.aqctlWrite v) s = .next { s with admin := { s.admin with log2 := (v.extractLsb' 0 4).toNat, enable := false } }))
       ∧ (∀ v : BitVec 32, exec (.acheadWrite v) s = .next { s with admin := { s.admin with achead := v } })
       ∧ (∀ v : BitVec 64,
         (s.admin.enable = false → exec (.registerWrite 0x100 true v) s
             = .next { s with admin := { s.admin with aqbase := v &&& 0xFFFFFFFFFFFFFFC0#64 } }
           ∧ exec (.registerWrite 0x118 true v) s
             = .next { s with admin := { s.admin with acbase := v &&& 0xFFFFFFFFFFFFFFC0#64 } })
         ∧ (s.admin.enable = true → exec (.registerWrite 0x100 true v) s = .next s ∧ exec (.registerWrite 0x118 true v) s = .next s)
         ∧ (∀ (off : Nat) (wide : Bool), ∃ t, exec (.registerWrite off wide v) s = .next t ∧ { t with admin := s.admin } = s
             ∧ t.admin.devid = s.admin.devid ∧ t.admin.bootst = s.admin.bootst ∧ t.admin.secver = s.admin.secver))
       ∧ ∀ (k : Fin 8) (v : BitVec 64) (x : BitVec 192), x = s.rwins.get k →
         ((∀ c ∈ s.contexts, c.state ≠ .active) →
           ∃ t, exec (.rwinWrite (0x1000 + 24 * k.val) true v) s = .next t ∧ { t with rwins := s.rwins } = s
             ∧ winBase (t.rwins.get k) / 128 = v.toNat / 128 ∧ winLimit (t.rwins.get k) = winLimit x
             ∧ winCount (t.rwins.get k) = winCount x)
         ∧ (∀ c ∈ s.contexts, c.state = .active → ∃ t, exec (.rwinWrite (0x1000 + 24 * k.val + 16) true v) s = .next t
             ∧ { t with rwins := s.rwins } = s
             ∧ t.rwins.get k = if v.getLsbD 56 then x &&& ~~~(1#192 <<< 184) else x))

/-- The admin commands on contexts, kernels and queues, once they act. CREATE of a good descriptor makes a CREATED context of the
next free number. ACTIVATE places a CREATED context, resumes a SAVED one, and answers CODE 2 while another context holds the
cores. PREEMPT begins the pre-emption of an ACTIVE context and answers CODE 2 of another. DESTROY takes the gangs, queues and
kernels of its context out. LOAD of a kernel that passes the checks adds it, and of one that fails answers CODE 4 with the
check. UNLOAD makes a kernel RETIRING. QCREATE makes a queue with both indices 0; QRESET answers CODE 2 of a queue that is not
in ERROR and keeps BELL; QDESTROY marks the queue and holds the admin queue. SEED sets the lottery state, 0 becoming its reset
value (R371, R377, R388, R391, R397, R404, R407, R417). Of what this rests on, the model chose what assumption log 80, 81, 84,
85, 102 and 106 names. -/
def Obligations.ContextCommands : Prop :=
  ∀ (e : BitVec 512) (s t : State) (c : Context),
    (∀ l d n m u, AdminActs (.create e) e s t → hostRead t (entryWord e 8).toNat 64 = some l → d = BitVec.ofNat 512 (natOfBytes l) →
      cdBad d = false → (∀ j < 8, (BitVec.ofNat 8 (kdField d 48 0 8)).getLsbD j = true → dieLost t j = false) →
      freeContext t = some n → shadowRoom t (newContext n d) = true →
      extentsMapped { t with contexts := t.contexts ++ [newContext n d], nextCtx := (n + 1) % 65535 } (newContext n d) = (m, true) →
      deviceWrite m (contextDie t (newContext n d)) n (controlAddr (newContext n d)) (bytesOfNat 64 0) = some u →
        exec (.create e) s = .next (adminOk u e (BitVec.ofNat 64 n)) ∧ u.contexts = s.contexts ++ [newContext n d])
    ∧ (findContext t (entryCtx e) = some c →
      (AdminActs (.activate e) e s t → partHeld t c = false →
        (c.state = .created → (c.dispatch = 0#64 ∨ loadedKernel t c.num c.dispatch = true) →
          exec (.activate e) s = .next (adminOk (activateNew t c) e 0#64))
        ∧ (c.state = .saved →
          exec (.activate e) s = .next (adminHold (modContext t c.num fun x => { x with state := .resuming }) e)))
      ∧ (AdminActs (.activate e) e s t → partHeld t c = true → exec (.activate e) s = .next (adminFail t e 2))
      ∧ (AdminActs (.preempt e) e s t → c.state = .active →
        exec (.preempt e) s = .next (adminHold (beginPreempt t c.num) e))
      ∧ (AdminActs (.preempt e) e s t → c.state ≠ .active → exec (.preempt e) s = .next (adminFail t e 2))
      ∧ (AdminActs (.destroy e) e s t → c.state ≠ .destroying →
        ∃ u, exec (.destroy e) s = .next u ∧ u.admin.busy = some e ∧ (∀ g ∈ u.gangs, g.ctx ≠ c.num)
          ∧ (∀ q ∈ u.queues, q.ctx ≠ c.num) ∧ (∀ k ∈ u.kernels, k.ctx ≠ c.num)
          ∧ ∀ d, findContext u c.num = some d → d.state = .destroying)
      ∧ (AdminActs (.load e) e s t → findKernel t c.num (entryWord e 8) = none →
        (∀ n u, loadChecks t c (entryWord e 8) = (u, .inl n) → exec (.load e) s = .next (adminDone u e 4 n 0#64))
        ∧ (∀ k u, loadChecks t c (entryWord e 8) = (u, .inr k) →
          ∃ v, exec (.load e) s = .next (adminOk v e 0#64) ∧ v.kernels = s.kernels ++ [k] ∧ v.mem = s.mem))
      ∧ (∀ k, AdminActs (.unload e) e s t → findKernel t c.num (entryWord e 8) = some k → k.state = .loaded →
        (c.dispatch ≠ k.kdesc ∨ c.state ≠ .active) →
          ∃ u, exec (.unload e) s = .next (adminOk u e 0#64) ∧ u.mem = s.mem ∧ u.gangs = s.gangs
            ∧ findKernel u c.num (entryWord e 8) = some { k with state := .retiring })
      ∧ (∀ l d n, AdminActs (.qcreate e) e s t → hostRead t (entryWord e 8).toNat 64 = some l →
        d = BitVec.ofNat 512 (natOfBytes l) → qdBad d = false → BitVec.ofNat 8 (kdField d 16 0 8) &&& ~~~c.diemask = 0#8 →
        freeQueue t = some n →
          ∃ u q, exec (.qcreate e) s = .next (adminOk u e (BitVec.ofNat 64 n)) ∧ findQueue u n = some q ∧ q.ctx = c.num
            ∧ q.ring = kdAddr d 0 ∧ q.log2 = kdField d 8 0 5 ∧ q.tickets = kdField d 12 0 16 ∧ q.ridx = 0#32 ∧ q.bell = 0#32))
    ∧ (∀ q, namedQueue t e = some q →
      (AdminActs (.qreset e) e s t →
        (q.state ≠ .error → exec (.qreset e) s = .next (adminFail t e 2))
        ∧ (q.state = .error → ∃ u q', exec (.qreset e) s = .next (adminOk u e 0#64) ∧ findQueue u q.num = some q' ∧ q'.bell = q.bell
            ∧ u.gangs = s.gangs))
      ∧ (AdminActs (.qdestroy e) e s t → ∃ u q', exec (.qdestroy e) s = .next (adminHold u e) ∧ findQueue u q.num = some q'
          ∧ q'.destroying = true ∧ u.gangs = s.gangs))
    ∧ (AdminActs (.seed e) e s t → ∃ u, exec (.seed e) s = .next (adminOk u e 0#64) ∧ u.mem = s.mem ∧ u.gangs = s.gangs
        ∧ (getDie u (entryField e 8 0 3)).lottery = if entryWord e 16 = 0#64 then 0x9E3779B97F4A7C15#64 else entryWord e 16)

/-- The admin commands on the device, once they act. MIGRATE and BIAS of a quiet page begin at boundary 0; SHOOTDOWN names every die
of the context; DEVSET sets the device id or, while a context exists, answers CODE 2; POWERCAP takes 1,200 to 3,200 W and
answers CODE 1 beyond; HEALTHRD and FAULTSUM write their entries to the host buffer, FAULTSUM with CODE 3 when they do not fit;
SAFETIER sets the die's range; CHECKPOINT and RESTORE begin, or answer CODE 2 without eight ranges; ATTEST writes the signed
report; KEYBIND binds, draws or erases the key; FWUPDATE installs a valid image and answers CODE 4 of another (R317-R319,
R465-R469, R474). Of what this rests on, the model chose what assumption log 98, 99, 100, 111, 112, 113, 114, 115, 116, 117, 124
and 177 names. -/
def Obligations.DeviceCommands : Prop :=
  ∀ (e : BitVec 512) (s t : State),
    (∀ leaf, movable t (entryCtx e) (entryWord e 8) = some leaf → pageBusy t (pteAddr leaf) (pageSize leaf) = false →
      pagePoisoned t (pteAddr leaf) (pageSize leaf) = false →
      (pteBias leaf = false → pageHostBiased t (pteAddr leaf) (pageSize leaf) = false →
        AdminActs (.migrate e) e s t → 8 ≤ entryField e 16 0 8 → entryField e 16 0 8 ≤ 23 → homeLost t (entryField e 16 0 8) = false →
        ∃ u m, exec (.migrate e) s = .next (adminHold u e) ∧ u.migrations = s.migrations ++ [m] ∧ m.old = pteAddr leaf
          ∧ m.size = pageSize leaf ∧ m.bias = none ∧ m.boundary = 0 ∧ homeOf m.new = entryField e 16 0 8 ∧ u.mem = s.mem
          ∧ u.gangs = s.gangs)
      ∧ (AdminActs (.bias e) e s t →
        entryField e 16 0 1 = 0 ∨ pteBias leaf = false ∧ pageHostBiased t (pteAddr leaf) (pageSize leaf) = false →
        ∃ u m, exec (.bias e) s = .next (adminHold u e) ∧ u.migrations = s.migrations ++ [m] ∧ m.old = pteAddr leaf
          ∧ m.size = pageSize leaf ∧ m.bias = some (decide (entryField e 16 0 1 = 1)) ∧ m.boundary = 0 ∧ u.mem = s.mem
          ∧ u.gangs = s.gangs))
    ∧ (AdminActs (.shootdown e) e s t → ∃ u x, exec (.shootdown e) s = .next u ∧ u.shoots = s.shoots ++ [x] ∧ x.ctx = entryCtx e
        ∧ x.first = (entryWord e 8).toNat ∧ x.len = (entryWord e 16).toNat ∧ x.admin = true ∧ x.tasks.map (fun k => k.1) = contextDies s (entryCtx e) ∧ u.admin.busy = some e ∧ u.mem = s.mem)
    ∧ (AdminActs (.devset e) e s t →
      (s.contexts = [] → exec (.devset e) s
        = .next (adminOk { t with admin := { t.admin with devid := e.extractLsb' 64 20 } } e 0#64))
      ∧ (s.contexts ≠ [] → exec (.devset e) s = .next (adminFail t e 2)))
    ∧ (AdminActs (.powercap e) e s t →
      (1200 ≤ entryField e 8 0 16 ∧ entryField e 8 0 16 ≤ 3200 → exec (.powercap e) s
        = .next (adminOk { t with powerCap := entryField e 8 0 16 } e (BitVec.ofNat 64 (entryField e 8 0 16))))
      ∧ (entryField e 8 0 16 < 1200 ∨ 3200 < entryField e 8 0 16 → exec (.powercap e) s = .next (adminFail t e 1)))
    ∧ (∀ l, AdminActs (.healthrd e) e s t → l = (s.health.drop (entryField e 16 32 16)).take (entryField e 16 0 16) →
      hostAnswers t (entryWord e 8).toNat (l.flatMap healthBytes).length = true →
      exec (.healthrd e) s = .next (adminOk { t with hostMem := cellsWrite t.hostMem (entryWord e 8).toNat (l.flatMap healthBytes) } e
        (BitVec.ofNat 64 (l.length + 2 ^ 32 * s.healthLoss.toNat))))
    ∧ (∀ l, AdminActs (.faultsum e) e s t → l = faultSummary t →
      (entryField e 16 0 16 < l.length → exec (.faultsum e) s = .next (adminFail t e 3))
      ∧ (l.length ≤ entryField e 16 0 16 → hostAnswers t (entryWord e 8).toNat l.flatten.length = true →
        exec (.faultsum e) s = .next (adminOk { t with hostMem := cellsWrite t.hostMem (entryWord e 8).toNat l.flatten } e
          (BitVec.ofNat 64 l.length))))
    ∧ (AdminActs (.safetier e) e s t → entryField e 16 0 41 % 64 = 0 → 108125000000 ≤ (entryWord e 24).toNat →
      entryField e 16 0 41 + (entryWord e 24).toNat ≤ 2 ^ 41 →
      ∃ u, exec (.safetier e) s = .next (adminOk u e 0#64) ∧ u.mem = s.mem ∧ u.gangs = s.gangs
        ∧ (getDie u (entryField e 8 0 3)).safeTier = some (entryField e 16 0 41, (entryWord e 24).toNat))
    ∧ (AdminActs (.checkpoint e) e s t →
      (tierReady t = true → exec (.checkpoint e) s = .next (beginTier (clearFlag t) e))
      ∧ (tierReady t = false → exec (.checkpoint e) s = .next (adminFail t e 2)))
    ∧ (AdminActs (.restore e) e s t →
      (tierReady t = true → exec (.restore e) s = .next (beginTier t e))
      ∧ (tierReady t = false → exec (.restore e) s = .next (adminFail t e 2)))
    ∧ (∀ nonce r l, AdminActs (.attest e) e s t → hostRead t (entryWord e 8).toNat 64 = some nonce → r = reportBytes t nonce →
      l = r ++ (List.range 4627).map (Config.signature r) → 5419 ≤ (entryWord e 24).toNat →
      hostAnswers t (entryWord e 16).toNat l.length = true →
      exec (.attest e) s = .next (adminOk { t with hostMem := cellsWrite t.hostMem (entryWord e 16).toNat l } e 5419#64))
    ∧ (∀ die slot, AdminActs (.keybind e) e s t → die = entryField e 8 0 3 → slot = entryField e 16 0 6 → slot ≠ 63 →
      dieLost t die = false →
      (entryField e 24 1 1 = 1 → ∃ u, exec (.keybind e) s = .next (adminOk u e 0#64) ∧ findKey (getDie u die) slot = none)
      ∧ (entryField e 24 1 1 = 0 → entryField e 24 0 1 = 1 →
        ∃ u k, exec (.keybind e) s = .next (adminOk u e (k.salt.setWidth 64)) ∧ findKey (getDie u die) slot = some k
          ∧ k.ctx = some (entryCtx e))
      ∧ (∀ k, entryField e 24 1 1 = 0 → entryField e 24 0 1 = 0 → findKey (getDie t die) slot = some k →
        ∃ u, exec (.keybind e) s = .next (adminOk u e (k.salt.setWidth 64))
          ∧ findKey (getDie u die) slot = some { k with ctx := some (entryCtx e) })
      ∧ (entryField e 24 1 1 = 0 → entryField e 24 0 1 = 0 → findKey (getDie t die) slot = none →
        exec (.keybind e) s = .next (adminFail t e 2)))
    ∧ (∀ l, AdminActs (.fwupdate e) e s t → hostRead t (entryWord e 8).toNat (entryWord e 16).toNat = some l →
      (imageOk t (digestOf l) = true →
        exec (.fwupdate e) s = .next (adminOk { t with firmware := t.firmware.set 0 (digestOf l) } e 0#64))
      ∧ (imageOk t (digestOf l) = false → exec (.fwupdate e) s = .next (adminFail t e 4)))

/-- The ends of a context's changes: a gang in TRAP that has not halted within 20 us is killed; a context whose pre-emption is over
is SAVED, out of the machine and in the shadow store; one whose image can be read is ACTIVE again with its gangs; one with a
reason to fault is FAULTED with its gangs killed and the reason logged (R407, R417, R420). Of what this rests on, the model
chose what assumption log 22, 103, 104, 105 and 177 names. -/
def Obligations.ContextChanges : Prop :=
  (∀ (s : State) (g : Gang) (c : Context), findGang s g.id = some g → findContext s g.ctx = some c → c.state = .preempting →
    c.phase = 0 → g.halted = false → g.arch.mode = .trap → c.haltTick + 20000 ≤ s.tick →
      exec (.preemptHaltTimeout g.id) s = .next (failGang s g 1 0#8 0#32))
  ∧ ∀ (s : State) (c : Context), findContext s c.num = some c →
    (∀ t, c.state = .preempting → c.phase = 2 → c.shadowErr = false → (∀ x ∈ s.guest.preempts, x.1 ≠ c.num) →
      writeImage c (pendingPieces s c) s = some t →
        ∃ u, exec (.contextSaved c.num) s = .next u ∧ u.mem = t.mem ∧ savedOf s c ∈ u.saved
          ∧ findContext u c.num = some { c with state := .saved, phase := 0 }
          ∧ (∀ g ∈ u.gangs, g.ctx ≠ c.num) ∧ (∀ b ∈ u.blocks, b.ctx ≠ c.num))
    ∧ (∀ v l, c.state = .resuming → c.shadowErr = false → findSaved s c.num = some v →
      badPiece s c .rmw (savePieces 0 c v.gangs v.blocks) = none → restoreStacks s c v.gangs = some l →
        ∃ u, exec (.contextResumed c.num) s = .next u ∧ findContext u c.num = some { c with state := .active }
          ∧ u.gangs = s.gangs ++ l.map (fun g => { g with halted := false }) ∧ u.blocks = s.blocks ++ v.blocks
          ∧ findSaved u v.ctx = none)
    ∧ ∀ va, contextFault s c = some va →
        ∃ u, exec (.contextFaulted c.num va) s = .next u ∧ (∀ g ∈ u.gangs, g.ctx ≠ c.num)
          ∧ (∃ d, findContext u c.num = some d ∧ d.state = .faulted)
          ∧ ∃ h ∈ u.health, h.kind = 11 ∧ h.addr = va ∧ h.tick = s.tick

/-- GSUB: a guest that is down answers 2 and a full submission queue 1; otherwise it begins with a release of the gang's stores and
holds its slot, and after it the job is outstanding and its number is answered, or a fault of the release, or of a posted store
or RED before it, is raised. An attachment that has gone down meanwhile answers 2 then, and a queue that has filled 1, which is
the model's choice (log 175) (R276, R442, R444, R448). The guest's messages: COMPLETE writes its status word over the packet
image, sets the job's tag and ends it; XLATE is answered with a grant or with its refusal; READ is answered with the bytes;
WRITE puts the bytes of its mask at their home; WRACK answers once the write is folded in; INVACK revokes the pages of its
INVAL; PREACK meets its PREEMPT. What has no route waits, or is taken without an answer. A message that is malformed, names no
job, reaches for a page that is not granted or comes too late isolates the guest, and so does an overdue duty (R424, R446,
R449-R455). Of what this rests on, the model chose what assumption log 90, 91, 92, 94, 146 and 175 names. -/
def Obligations.GuestProtocol : Prop :=
  ((∀ (h : Head) (d a : Opnd) (off : BitVec 32) (sq : BitVec 4) (s : State) (c : Ctx) (die core pos : Nat), Starts s h (single [a]) [a, d] c →
     wordCheck c.a [a] = none → ScratchSpan c a off 64 .read die core pos →
     (guestUp s = false → MayCommit c (killRegs c.a (headKills h a .zero .zero)) → exec (.gsub h d a off sq) s
       = .next (afterCommit c ((writeScalar (killRegs c.a (headKills h a .zero .zero)) d 2#64).advance c.x)))
     ∧ (guestUp s = true → scratchPoisoned s die core pos 64 = false →
       (guestFull s sq.toNat = true → MayCommit c (killRegs c.a (headKills h a .zero .zero)) → exec (.gsub h d a off sq) s
         = .next (afterCommit c ((writeScalar (killRegs c.a (headKills h a .zero .zero)) d 1#64).advance c.x)))
       ∧ (guestFull s sq.toNat = false → exec (.gsub h d a off sq) s = .next (addTask
         (c.begin (.gsub h d a off sq) (.task s.nextUid) d (headKills h a .zero .zero) [BitVec.ofNat 64 pos] true)
         { baseTask s c.g .pkg with ops := opsIn s c.g.id 2#6, writes := true }))))
   ∧ ∀ (h : Head) (d a : Opnd) (off : BitVec 32) (sq : BitVec 4) (s : State) (c : Ctx) (p : Pend) (k : Task) (pos : Nat), Resumes s h.guard c p →
     c.slot.wait = .task k.id → findTask s k.id = some k → c.g.fenceFault = none → pos = (p.vals.headD 0#64).toNat →
     ((∀ x ∈ c.g.posted, fenceWaits 2#6 x.cls = true → p.op ≤ x.op) →
       (∀ f, k.fault = some f → MayTrap s c p → ∃ t, exec (.gsub h d a off sq) s = .next t ∧ Trapped c p f.1 f.2 t)
       ∧ (k.fault = none → scratchPoisoned s c.g.id.die c.g.id.core pos 64 = false →
         ((s.guest.isolated || linkBroken s .guest) = true →
           ∃ t, exec (.gsub h d a off sq) s = .next t ∧ Ended c p d 2#64 t ∧ t.guest = s.guest ∧ t.mem = s.mem)
         ∧ ((s.guest.isolated || linkBroken s .guest) = false → guestFull s sq.toNat = true →
           ∃ t, exec (.gsub h d a off sq) s = .next t ∧ Ended c p d 1#64 t ∧ t.guest = s.guest ∧ t.mem = s.mem)
         ∧ ∀ n, (s.guest.isolated || linkBroken s .guest) = false → guestFull s sq.toNat = false → c.clear = true →
           n = s.guest.seqs.get (Fin.ofNat 16 sq.toNat) →
             ∃ t j, exec (.gsub h d a off sq) s = .next t ∧ Ended c p d ((n.setWidth 64 : BitVec 64) <<< (16 : Nat)) t
               ∧ t.mem = s.mem ∧ findTask t k.id = none ∧ t.guest.jobs = s.guest.jobs ++ [j] ∧ j.sq = sq.toNat ∧ j.seq = n
               ∧ j.ctx = c.g.ctx ∧ j.die = c.g.id.die ∧ j.core = c.g.id.core ∧ j.image = pos ∧ j.granted = [] ∧ j.writes = []
               ∧ t.guest.seqs.get (Fin.ofNat 16 sq.toNat) = n + 1#16
               ∧ ∃ hd body rest, t.guest.out = (hd, false, body) :: rest ∧ hd.mtype = 1#8 ∧ hd.sq = sq ∧ hd.seq = n
                 ∧ body = bytesOfNat 64 (guestPacket (BitVec.ofNat 512 (scratchNat s c.g.id.die c.g.id.core pos 64)) c.g.ctx
                     c.g.id.die c.g.id.core n).toNat))
     ∧ ∀ x, c.g.posted = [x] → fenceWaits 2#6 x.cls = true → x.op < p.op → k.fault = none → MayTrap s c p →
       ∃ t, exec (.gsub h d a off sq) s = .next t ∧ Trapped c p x.cause x.tval t)
  ∧ ((∀ (s t : State) (msg : GuestHeader) (body : BitVec 128), GuestSends s t msg 2#8 (bytesOfNat 16 body.toNat) →
       (body.extractLsb' 8 8 ≠ 0#8 ∨ body.extractLsb' 32 32 ≠ 0#32 → exec (.complete msg body) s = .next (isolate t 1))
       ∧ (body.extractLsb' 8 8 = 0#8 → body.extractLsb' 32 32 = 0#32 →
         (findGuestJob s msg.sq msg.seq = none → exec (.complete msg body) s = .next (isolate t 2))
         ∧ ∀ j, findGuestJob s msg.sq msg.seq = some j →
           (6 ≤ (body.extractLsb' 0 8).toNat → exec (.complete msg body) s = .next (isolate t 7))
           ∧ ((body.extractLsb' 0 8).toNat < 6 → j.writes ≠ [] → exec (.complete msg body) s = .next (isolate t 3))
           ∧ ((body.extractLsb' 0 8).toNat < 6 → j.writes = [] →
             ∃ u, exec (.complete msg body) s = .next u ∧ findGuestJob u msg.sq msg.seq = none ∧ u.gangs = s.gangs ∧ u.mem = s.mem
               ∧ (dieLost s j.die = false → Memory.wf (getCore s j.die j.core).scratch = true →
                 OnlySpan s u j.die j.core j.image 16 ∧ scratchNat u j.die j.core j.image 16 = body.toNat
                 ∧ (getCore u j.die j.core).tags = (getCore s j.die j.core).tags ||| (1#64 <<< (j.rindex % 64)))
               ∧ (dieLost s j.die = true → u.cores = s.cores))))
     ∧ (∀ (s t : State) (msg : GuestHeader) (body : BitVec 64), GuestSends s t msg 3#8 (bytesOfNat 8 body.toNat) →
       (¬(body.extractLsb' 0 2 = 1#2 ∨ body.extractLsb' 0 2 = 2#2) ∨ body.extractLsb' 2 10 ≠ 0#10 ∨ body.extractLsb' 57 7 ≠ 0#7 →
         exec (.xlate msg body) s = .next (isolate t 1))
       ∧ ((body.extractLsb' 0 2 = 1#2 ∨ body.extractLsb' 0 2 = 2#2) → body.extractLsb' 2 10 = 0#10 → body.extractLsb' 57 7 = 0#7 →
         (findGuestJob s msg.sq msg.seq = none →
           exec (.xlate msg body) s = .next (sendGuest t 4 msg.rtag msg.sq msg.seq false (bytesOfNat 8 3)))
         ∧ ∀ j u, findGuestJob s msg.sq msg.seq = some j →
           (∀ n, xlateResult t j (decide (body.extractLsb' 0 2 = 2#2)) (xlateVa body) = (u, .refused n) → n < 4 →
             exec (.xlate msg body) s = .next (sendGuest u 4 msg.rtag msg.sq msg.seq false (bytesOfNat 8 n)))
           ∧ (∀ x page, xlateResult t j (decide (body.extractLsb' 0 2 = 2#2)) (xlateVa body) = (u, .granted x page) →
             exec (.xlate msg body) s = .next (sendGuest
                 (modGuestJob u msg.sq msg.seq fun j => { j with granted := j.granted ++ [page] }) 4 msg.rtag msg.sq msg.seq false
                 (bytesOfNat 8 x.toNat))
               ∧ ∃ v j', exec (.xlate msg body) s = .next v ∧ v.mem = s.mem ∧ v.gangs = s.gangs
                 ∧ findGuestJob v msg.sq msg.seq = some j' ∧ j'.granted = j.granted ++ [page])
           ∧ ∀ home, xlateResult t j (decide (body.extractLsb' 0 2 = 2#2)) (xlateVa body) = (u, .away home) →
             exec (.xlate msg body) s = .next (if guestWay u home = .waits then s else u)))
     ∧ (∀ (s t : State) (msg : GuestHeader) (body : BitVec 64), GuestSends s t msg 5#8 (bytesOfNat 8 body.toNat) →
       ((∀ j, findGuestJob s msg.sq msg.seq = some j → grantedPage j (body.toNat / 256 * 256) false = none) →
         exec (.read msg body) s = .next (isolate t 4))
       ∧ ∀ (j : GuestJob) (p : GuestPage) (way : GuestWay), findGuestJob s msg.sq msg.seq = some j →
         grantedPage j (body.toNat / 256 * 256) false = some p →
         way = guestWay t (targetPlace t (grantedTarget p (body.toNat / 256 * 256))) →
         (way = .waits → exec (.read msg body) s = .next s)
         ∧ (way = .lost → exec (.read msg body) s = .next t)
         ∧ (way = .goes → p.device = none ∨ p.device = some s.admin.devid.toNat → exec (.read msg body) s
           = .next (sendGuest t 6 msg.rtag msg.sq msg.seq
             (homePoisoned s (body.toNat / 256 * 256) || homePoisoned s (body.toNat / 256 * 256 + (body.toNat % 256 + 1) - 1))
             (bytesOfNat (body.toNat % 256 + 1) (homeNat s (body.toNat / 256 * 256) (body.toNat % 256 + 1)))))
         ∧ (way = .goes → (∀ d, p.device = some d → d ≠ s.admin.devid.toNat) → p.device ≠ none →
           ∃ l : List Byte, l.length = body.toNat % 256 + 1
             ∧ exec (.read msg body) s = .next (sendGuest t 6 msg.rtag msg.sq msg.seq false l)))
     ∧ (∀ (s t : State) (msg : GuestHeader) (addr mask : BitVec 64) (data : BitVec 512),
       GuestSends s t msg 7#8 (bytesOfNat 8 addr.toNat ++ bytesOfNat 8 mask.toNat ++ bytesOfNat 64 data.toNat) →
       (addr.toNat % 64 ≠ 0 → exec (.write msg addr mask data) s = .next (isolate t 1))
       ∧ (addr.toNat % 64 = 0 →
         ((∀ j, findGuestJob s msg.sq msg.seq = some j → grantedPage j addr.toNat true = none) →
           exec (.write msg addr mask data) s = .next (isolate t 4))
         ∧ ∀ (j : GuestJob) (p : GuestPage) (way : GuestWay), findGuestJob s msg.sq msg.seq = some j →
           grantedPage j addr.toNat true = some p → way = guestWay t (targetPlace t (grantedTarget p addr.toNat)) →
           (way = .waits → exec (.write msg addr mask data) s = .next s)
           ∧ (way ≠ .waits →
             ∃ u j', exec (.write msg addr mask data) s = .next u ∧ u.gangs = s.gangs ∧ u.nextOp = s.nextOp + 1
               ∧ findGuestJob u msg.sq msg.seq = some j' ∧ j'.writes = j.writes ++ [s.nextOp]
               ∧ u.guest.writes = (if way = .goes then s.guest.writes ++ [(s.nextOp, msg)] else s.guest.writes)
               ∧ ((way = .lost ∨ ∃ d, p.device = some d ∧ d ≠ s.admin.devid.toNat) → u.mem = s.mem)
               ∧ (way = .goes → p.device = none ∨ p.device = some s.admin.devid.toNat → MemoryCanonical s → s.migrations = [] →
                 (∀ k < 64, homeLost s (homeOf (addr.toNat + k)) = false) →
                 (∀ k < 64, cellGet u.mem (addr.toNat + k)
                   = if mask.getLsbD k then data.extractLsb' (8 * k) 8 else cellGet s.mem (addr.toNat + k))
                 ∧ ∀ b, b < addr.toNat ∨ addr.toNat + 64 ≤ b → cellGet u.mem b = cellGet s.mem b))))
     ∧ (∀ (s : State) (op : Nat) (w : Nat × GuestHeader), (s.guest.writes.find? fun w => decide (w.1 = op)) = some w →
         opUnfolded s op = false → s.guest.isolated = false →
           ∃ u, exec (.wrack op) s = .next u ∧ u.mem = s.mem ∧ u.gangs = s.gangs ∧ (∀ x ∈ u.guest.writes, x.1 ≠ op)
             ∧ (∀ j ∈ u.guest.jobs, j.sq = w.2.sq.toNat → j.seq = w.2.seq → op ∉ j.writes)
             ∧ ∃ hd rest, u.guest.out = (hd, false, []) :: rest ∧ hd.mtype = 8#8 ∧ hd.rtag = w.2.rtag ∧ hd.seq = w.2.seq)
     ∧ (∀ (s t : State) (msg : GuestHeader) (body : BitVec 128), GuestSends s t msg 10#8 (bytesOfNat 16 body.toNat) →
         ((∀ x ∈ s.guest.invals, x.1 ≠ body) → exec (.invack msg body) s = .next (isolate t 1))
         ∧ ∀ x, (s.guest.invals.find? fun x => decide (x.1 = body)) = some x →
           (x.2.1 + 2000 < s.tick → exec (.invack msg body) s = .next (isolate t 5))
           ∧ (s.tick ≤ x.2.1 + 2000 →
             ∃ u, exec (.invack msg body) s = .next u ∧ u.mem = s.mem ∧ u.gangs = s.gangs ∧ x ∉ u.guest.invals
               ∧ u.guest.jobs = (revoke s body).guest.jobs ∧ ∀ y ∈ u.shoots, y.id = x.2.2 → y.guest = none))
     ∧ (∀ (s t : State) (msg : GuestHeader) (body : BitVec 64), GuestSends s t msg 12#8 (bytesOfNat 8 body.toNat) →
         ((∀ x ∈ s.guest.preempts, x.1 ≠ body.toNat) → exec (.preack msg body) s = .next (isolate t 1))
         ∧ ∀ x, (s.guest.preempts.find? fun x => decide (x.1 = body.toNat)) = some x →
           (x.2 + 50000 < s.tick → exec (.preack msg body) s = .next (isolate t 6))
           ∧ (s.tick ≤ x.2 + 50000 → (∃ j ∈ s.guest.jobs, j.ctx = x.1) → exec (.preack msg body) s = .next (isolate t 1))
           ∧ (s.tick ≤ x.2 + 50000 → (∀ j ∈ s.guest.jobs, j.ctx ≠ x.1) →
             exec (.preack msg body) s = .next (modGuest t fun g => { g with preempts := g.preempts.filter fun y => decide (y ≠ x) })))
     ∧ (∀ (s : State) (cause : Nat), s.guest.isolated = false → overdue s = some cause →
         exec .guestDutyTimeout s = .next (isolate s cause))
     ∧ ∀ (s : State) (cause : Nat), guestUp (isolate s cause) = false ∧ (isolate s cause).guest.jobs = []
         ∧ (isolate s cause).mem = s.mem ∧ (isolate s cause).gangs = s.gangs)

/-- A memory die that is lost is marked, and no message of its home and no wait for it is left; a compute die whose time base stops
counts no further and times nothing out; a compute die that is lost, by its heartbeat, its stopped time base or a failure, is
marked, has no gang and no sharer bit any more, and breaks its launches, each of which completes DIE_LOST unless it had failed
before; with C0 the device is lost (R322, R323, R427, R463, R464). Power, form-factor and sideband events, and bring-up: a droop
stretches the clock by a step and the thermal limit holds it at the lowest; a power fault loses a TVD7-M; a TVD7-D whose straps
change before it has booted stops, and is lost to the others at POWER_GOOD, and later such a change does nothing; POWER_GOOD
begins to train the links, but those of lost dies and a guest attachment without a guest or without die 4, or loses the device
with C0, and the boot ends, in operation or in recovery, once no link is in training; a sideband read changes nothing of the
machine but its answer, and a sideband reset leaves memory and resets the device (R27, R28, R423, R467, R468, R470). Of what
this rests on, the model chose what assumption log 109, 118, 119, 120, 121, 126, 154, 159 and 173 names. -/
def Obligations.LossesAndPower : Prop :=
  ((∀ (s : State) (die : Nat), 8 ≤ die → die < 24 → dieLost s die = false →
       ∃ t, exec (.memoryDieLost die) s = .next t ∧ dieLost t die = true ∧ t.mem = s.mem
         ∧ (∀ id, (findGang t id).map (fun g => g.arch) = (findGang s id).map fun g => g.arch)
         ∧ (∀ m ∈ t.msgs, msgOfHome die m = false) ∧ (∀ f ∈ t.fwds, f.home ≠ die)
         ∧ ∀ j < 8, ∀ r, (getDie t j).round = some r → die ∉ r.homes)
   ∧ ∀ (s : State) (die : Nat), die < 8 → dieLost s die = false →
       (die = 0 → exec (.computeDieLost die) s = .next { s with deviceLost := true }
         ∧ exec (.heartbeatMiss die) s = .next { s with deviceLost := true })
       ∧ ((getDie s die).frozen = none →
         exec (.timebaseStop die) s = .next (modDie s die fun d => { d with frozen := some s.tick })
         ∧ ∀ n : Nat, dieTick { modDie s die (fun d => { d with frozen := some s.tick }) with tick := n } die = s.tick
           ∧ ∀ k, timedOut { modDie s die (fun d => { d with frozen := some s.tick }) with tick := n } die k = false)
       ∧ ∀ i, i = .computeDieLost die ∨ i = .heartbeatMiss die ∨ (i = .timebaseStop die ∧ (getDie s die).frozen ≠ none) → die ≠ 0 →
         ∃ t, exec i s = .next t ∧ dieLost t die = true ∧ (∀ g ∈ t.gangs, g.id.die ≠ die) ∧ (∀ b ∈ t.blocks, b.die ≠ die)
           ∧ (∀ h ∈ t.homePages, h.sharers.getLsbD die = false)
           ∧ (∀ l ∈ t.launches, die ∉ l.dies)
           ∧ ∀ l ∈ s.launches, die ∈ l.dies → ∃ l' ∈ t.launches, l'.uid = l.uid ∧ l'.broken = true
             ∧ l'.dies = l.dies.filter (fun j => decide (j ≠ die))
             ∧ (l.fail = none → (∀ d ∈ s.groups, d.die = die → d.launch = some l.uid → d.fail = none) →
               ∃ f, l'.fail = some f ∧ f.status = 6 ∧ f.die = die))
  ∧ ((∀ (s : State) (die : Nat), die < 8 → dieLost s die = false →
         (∃ t, exec (.supplyDroop die) s = .next t ∧ (getDie t die).clock = max 400 ((getDie s die).clock - 20) ∧ t.mem = s.mem
           ∧ t.gangs = s.gangs ∧ ∃ h ∈ t.health, h.kind = 9 ∧ h.die = die ∧ h.tick = s.tick
             ∧ h.addr = (Config.sensor h.unit s.tick).toNat)
         ∧ ∀ above : Bool, ∃ t, exec (.thermalLimit die above) s = .next t ∧ t.mem = s.mem ∧ t.gangs = s.gangs
           ∧ t.hot.getLsbD die = above ∧ (above = true → (getDie t die).clock = 400))
     ∧ (∀ (s : State) (n : Nat), s.form = 2 → ∃ t, exec (.boardPowerFault n) s = .next t ∧ t.deviceLost = true ∧ t.mem = s.mem
         ∧ t.gangs = s.gangs)
     ∧ (∀ (s : State) (die : Nat),
         (s.form = 1 → die < 8 → s.admin.bootst = 1 → s.admin.boot = none → ∃ t, exec (.strapChange die) s = .next t
           ∧ t.strapFault = s.strapFault ||| (1#8 <<< die) ∧ t.mem = s.mem ∧ t.gangs = s.gangs
           ∧ ∃ h ∈ t.health, h.kind = 10 ∧ h.die = die ∧ h.tick = s.tick)
         ∧ (s.form ≠ 1 ∨ s.admin.bootst ≠ 1 → exec (.strapChange die) s = .next s))
     ∧ (∀ (s : State) (answer lost : BitVec 32), s.admin.bootst = 1 → s.admin.boot = none →
         lost = (answer ||| s.strapFault.setWidth 32) &&& 0xFFFFFF#32 →
         (lost.getLsbD 0 = true → exec (.powerGood answer) s = .next { s with deviceLost := true })
         ∧ (lost.getLsbD 0 = false → ∃ t, exec (.powerGood answer) s = .next t ∧ t.lost = lost ∧ t.mem = s.mem ∧ t.gangs = s.gangs
           ∧ t.admin.bootst = 1 ∧ t.admin.boot = some (if (verifyImages s [0, 1, 2] s.measure).2 then 0 else 2)
           ∧ (Config.guestThere = false ∨ lost.getLsbD 4 = true → findLink t .guest = findLink s .guest)
           ∧ (Config.guestThere = true → lost.getLsbD 4 = false → ∀ l ∈ t.links, l.id = .guest → l.state = .training)
           ∧ ∀ l ∈ t.links, l.id ≠ .guest → l.state = if linkGone lost l.id then .failed else .training))
     ∧ (∀ (s : State) (v : Nat), s.admin.boot = some v →
         ((∃ l ∈ s.links, l.state = .training) → endBoot s = s)
         ∧ ((∀ l ∈ s.links, l.state ≠ .training) → endBoot s = { s with admin := { s.admin with bootst := v, boot := none } }))
     ∧ ∀ s : State,
         (∀ item, exec (.sidebandRead item) s = .next { s with sideband := s.sideband ++ [sidebandValue s item] })
         ∧ ∃ t, exec .sidebandReset s = .next t ∧ t.mem = s.mem ∧ t.gangs = [] ∧ t.contexts = [] ∧ t.queues = []
             ∧ t.admin = State.reset.admin ∧ t.lost = 0#32 ∧ t.deviceLost = false ∧ t.strapFault = 0#8)
end

