-- ==== Sys2Proof/Laws/Runs.lean ====
section
/-!
SUPPORT. Run lists: what a packed list holds lane by lane, how many slots it takes, and what a masked write leaves.
-/
namespace Sys2Proof.Machine

theorem packRuns_two {x y : Lane} {t : List Lane} {r : Run} {rs : List Run} (h : packRuns (y :: t) = r :: rs) :
    packRuns (x :: y :: t)
      = if y.start || decide (y.value ≠ x.value) || decide (y.poison ≠ x.poison) then
          { value := x.value, count := 1, poison := x.poison } :: r :: rs
        else { value := x.value, count := r.count + 1, poison := x.poison } :: rs := by
  rw [packRuns.eq_def]
  simp only [h]

/-- The first run of a packed list has the first lane's value and poison. -/
theorem packRuns_cons (x : Lane) (rest : List Lane) :
    ∃ n rs, packRuns (x :: rest) = { value := x.value, count := n + 1, poison := x.poison } :: rs := by
  induction rest generalizing x with
  | nil => exact ⟨0, [], rfl⟩
  | cons y t ih =>
    obtain ⟨n, rs, h⟩ := ih y
    rw [packRuns_two h]
    · split
      · exact ⟨0, _, rfl⟩
      · exact ⟨n + 1, rs, rfl⟩

/-- A packed list holds every lane's value and poison. -/
theorem runAt_packRuns (l : List Lane) (i : Nat) (h : i < l.length) :
    (runAt (packRuns l) i).value = l[i].value ∧ (runAt (packRuns l) i).poison = l[i].poison := by
  induction l generalizing i with
  | nil => simp at h
  | cons x rest ih =>
    cases rest with
    | nil =>
      obtain rfl : i = 0 := by simp at h; omega
      simp [packRuns, runAt]
    | cons y t =>
      obtain ⟨n, rs, hp⟩ := packRuns_cons y t
      have ih' := ih
      rw [hp] at ih'
      rw [packRuns_two hp]
      split
      · cases i with
        | zero => simp [runAt]
        | succ j =>
          have := ih' j (by simpa using h)
          simpa [runAt] using this
      · rename_i hc
        simp only [Bool.or_eq_true, decide_eq_true_eq, not_or, ne_eq, Classical.not_not] at hc
        cases i with
        | zero => simp [runAt]
        | succ j =>
          have hj := ih' j (by simpa using h)
          rw [runAt] at hj ⊢
          by_cases hlt : j < n + 1
          · rw [if_pos hlt] at hj
            rw [if_pos (by simp; omega)]
            simpa [← hc.1.2, ← hc.2] using hj
          · rw [if_neg hlt] at hj
            rw [if_neg (by simp; omega)]
            have e : j + 1 - (n + 1 + 1) = j - (n + 1) := by omega
            simpa [e] using hj

/-- A packed list takes no more slots than it has lanes. -/
theorem length_packRuns_le (l : List Lane) : (packRuns l).length ≤ l.length := by
  induction l with
  | nil => simp [packRuns]
  | cons x rest ih =>
    cases rest with
    | nil => simp [packRuns]
    | cons y t =>
      obtain ⟨n, rs, hp⟩ := packRuns_cons y t
      rw [hp] at ih
      rw [packRuns_two hp]
      split <;> simp at ih ⊢ <;> omega

theorem vregVal_packRuns (f : Nat → Lane) (i : Nat) (h : i < 32) : vregVal (some (packRuns ((List.range 32).map f))) i = (f i).value := by
  have := (runAt_packRuns ((List.range 32).map f) i (by simpa using h)).1
  simpa [vregVal] using this

theorem vregPoison_packRuns (f : Nat → Lane) (i : Nat) (h : i < 32) :
    vregPoison (some (packRuns ((List.range 32).map f))) i = (f i).poison := by
  have := (runAt_packRuns ((List.range 32).map f) i (by simpa using h)).2
  simpa [vregPoison] using this

/-- A masked write gives every active lane its result and keeps every other lane (R89). -/
theorem vregVal_writeRuns (old : VReg) (act : Mask) (cut : Nat → Bool) (val : Nat → Word) (i : Nat) (h : i < 32) :
    vregVal (some (writeRuns old act cut val)) i = if inMask act i then val i else vregVal old i := by
  rw [writeRuns, vregVal_packRuns _ i h]; split <;> rfl

theorem vregVal_writeMax (old : VReg) (act : Mask) (val : Nat → Word) (i : Nat) (h : i < 32) :
    vregVal (some (writeMax old act val)) i = if inMask act i then val i else vregVal old i := by
  rw [writeMax, vregVal_packRuns _ i h]; split <;> rfl

theorem length_writeRuns_le (old : VReg) (act : Mask) (cut : Nat → Bool) (val : Nat → Word) :
    (writeRuns old act cut val).length ≤ 32 := by
  unfold writeRuns
  simpa using length_packRuns_le ((List.range 32).map _)

theorem length_writeMax_le (old : VReg) (act : Mask) (val : Nat → Word) : (writeMax old act val).length ≤ 32 := by
  unfold writeMax
  simpa using length_packRuns_le ((List.range 32).map _)

/-! ## Masks -/

/-- A mask built from a condition has exactly the bits of the condition. -/
theorem inMask_maskOf (f : Nat → Bool) (i : Nat) (h : i < 32) : inMask (maskOf f) i = f i := by
  have key : ∀ n ≤ 32, ∀ k < 32, inMask ((List.range n).foldl (fun m i => if f i then m ||| (1#32 <<< i) else m) 0#32) k
      = (decide (k < n) && f k) := by
    intro n
    induction n with
    | zero => intro _ k _; simp [inMask]
    | succ n ih =>
      intro hn k hk
      rw [List.range_succ, List.foldl_append]
      simp only [List.foldl_cons, List.foldl_nil]
      by_cases hf : f n
      · rw [if_pos hf]
        have := ih (by omega) k hk
        simp only [inMask] at this ⊢
        rw [BitVec.getLsbD_or, this, BitVec.getLsbD_shiftLeft]
        by_cases e : k = n
        · subst e; simp [hf, hk]
        · by_cases l : k < n
          · have : k < n + 1 := by omega
            simp [l, this]
          · have h1 : ¬ k < n + 1 := by omega
            have h2 : k - n ≠ 0 := by omega
            simp [l, h1, hk, h2, BitVec.getLsbD_one]
      · rw [if_neg hf, ih (by omega) k hk]
        by_cases e : k = n
        · subst e; simp [hf]
        · have : (k < n + 1) ↔ (k < n) := by omega
          simp [this]
  have := key 32 (Nat.le_refl _) i h
  simpa [maskOf, h] using this

end Sys2Proof.Machine
end

