-- ==== Sys2Proof/Laws/State.lean ====
section
/-!
SUPPORT. What an update of the registers or of the state leaves: one lemma for each field and update.
-/
namespace Sys2Proof.Machine

/-! ## Registers -/

@[simp] theorem Arch.setV_s (a : Arch) (n : Fin 64) (r : VReg) : (a.setV n r).s = a.s := rfl
@[simp] theorem Arch.setV_p (a : Arch) (n : Fin 64) (r : VReg) : (a.setV n r).p = a.p := rfl
@[simp] theorem Arch.setV_sPoison (a : Arch) (n : Fin 64) (r : VReg) : (a.setV n r).sPoison = a.sPoison := rfl
@[simp] theorem Arch.setV_pPoison (a : Arch) (n : Fin 64) (r : VReg) : (a.setV n r).pPoison = a.pPoison := rfl
@[simp] theorem Arch.setV_flags (a : Arch) (n : Fin 64) (r : VReg) : (a.setV n r).flags = a.flags := rfl
@[simp] theorem Arch.setV_fpmode (a : Arch) (n : Fin 64) (r : VReg) : (a.setV n r).fpmode = a.fpmode := rfl
@[simp] theorem Arch.setV_nanc (a : Arch) (n : Fin 64) (r : VReg) : (a.setV n r).nanc = a.nanc := rfl
@[simp] theorem Arch.setV_part (a : Arch) (n : Fin 64) (r : VReg) : (a.setV n r).part = a.part := rfl
@[simp] theorem Arch.setV_gen (a : Arch) (n : Fin 64) (r : VReg) : (a.setV n r).gen = a.gen := rfl
@[simp] theorem Arch.setV_mode (a : Arch) (n : Fin 64) (r : VReg) : (a.setV n r).mode = a.mode := rfl
@[simp] theorem Arch.setV_slotA (a : Arch) (n : Fin 64) (r : VReg) : (a.setV n r).slotA = a.slotA := rfl
@[simp] theorem Arch.setV_slotB (a : Arch) (n : Fin 64) (r : VReg) : (a.setV n r).slotB = a.slotB := rfl
@[simp] theorem Arch.setV_sp (a : Arch) (n : Fin 64) (r : VReg) : (a.setV n r).sp = a.sp := rfl
@[simp] theorem Arch.setV_stack (a : Arch) (n : Fin 64) (r : VReg) : (a.setV n r).stack = a.stack := rfl
@[simp] theorem Arch.setV_kept (a : Arch) (n : Fin 64) (r : VReg) : (a.setV n r).kept = a.kept := rfl
@[simp] theorem Arch.setV_borrowed (a : Arch) (n : Fin 64) (r : VReg) : (a.setV n r).borrowed = a.borrowed := rfl
@[simp] theorem Arch.setV_reserved (a : Arch) (n : Fin 64) (r : VReg) : (a.setV n r).reserved = a.reserved := rfl
@[simp] theorem Arch.setV_lateTaken (a : Arch) (n : Fin 64) (r : VReg) : (a.setV n r).lateTaken = a.lateTaken := rfl
@[simp] theorem Arch.setV_lateFreed (a : Arch) (n : Fin 64) (r : VReg) : (a.setV n r).lateFreed = a.lateFreed := rfl
@[simp] theorem Arch.setV_tcause (a : Arch) (n : Fin 64) (r : VReg) : (a.setV n r).tcause = a.tcause := rfl
@[simp] theorem Arch.setV_tpc (a : Arch) (n : Fin 64) (r : VReg) : (a.setV n r).tpc = a.tpc := rfl
@[simp] theorem Arch.setV_tval (a : Arch) (n : Fin 64) (r : VReg) : (a.setV n r).tval = a.tval := rfl
@[simp] theorem Arch.setV_tlane (a : Arch) (n : Fin 64) (r : VReg) : (a.setV n r).tlane = a.tlane := rfl
@[simp] theorem Arch.setV_tslot (a : Arch) (n : Fin 64) (r : VReg) : (a.setV n r).tslot = a.tslot := rfl
@[simp] theorem Arch.setV_frame (a : Arch) (n : Fin 64) (r : VReg) : (a.setV n r).frame = a.frame := rfl
@[simp] theorem Arch.setV_inTvec (a : Arch) (n : Fin 64) (r : VReg) : (a.setV n r).inTvec = a.inTvec := rfl
@[simp] theorem Arch.setV_trapGate (a : Arch) (n : Fin 64) (r : VReg) : (a.setV n r).trapGate = a.trapGate := rfl
@[simp] theorem Arch.setV_resume (a : Arch) (n : Fin 64) (r : VReg) : (a.setV n r).resume = a.resume := rfl
@[simp] theorem Arch.setV_gbars (a : Arch) (n : Fin 64) (r : VReg) : (a.setV n r).gbars = a.gbars := rfl
@[simp] theorem Arch.setV_pipeErr (a : Arch) (n : Fin 64) (r : VReg) : (a.setV n r).pipeErr = a.pipeErr := rfl

@[simp] theorem Arch.setS_v (a : Arch) (n : Fin 64) (x : SVal) : (a.setS n x).v = a.v := rfl
@[simp] theorem Arch.setS_p (a : Arch) (n : Fin 64) (x : SVal) : (a.setS n x).p = a.p := rfl
@[simp] theorem Arch.setS_pPoison (a : Arch) (n : Fin 64) (x : SVal) : (a.setS n x).pPoison = a.pPoison := rfl
@[simp] theorem Arch.setS_flags (a : Arch) (n : Fin 64) (x : SVal) : (a.setS n x).flags = a.flags := rfl
@[simp] theorem Arch.setS_fpmode (a : Arch) (n : Fin 64) (x : SVal) : (a.setS n x).fpmode = a.fpmode := rfl
@[simp] theorem Arch.setS_nanc (a : Arch) (n : Fin 64) (x : SVal) : (a.setS n x).nanc = a.nanc := rfl
@[simp] theorem Arch.setS_part (a : Arch) (n : Fin 64) (x : SVal) : (a.setS n x).part = a.part := rfl
@[simp] theorem Arch.setS_gen (a : Arch) (n : Fin 64) (x : SVal) : (a.setS n x).gen = a.gen := rfl
@[simp] theorem Arch.setS_mode (a : Arch) (n : Fin 64) (x : SVal) : (a.setS n x).mode = a.mode := rfl
@[simp] theorem Arch.setS_slotA (a : Arch) (n : Fin 64) (x : SVal) : (a.setS n x).slotA = a.slotA := rfl
@[simp] theorem Arch.setS_slotB (a : Arch) (n : Fin 64) (x : SVal) : (a.setS n x).slotB = a.slotB := rfl
@[simp] theorem Arch.setS_sp (a : Arch) (n : Fin 64) (x : SVal) : (a.setS n x).sp = a.sp := rfl
@[simp] theorem Arch.setS_stack (a : Arch) (n : Fin 64) (x : SVal) : (a.setS n x).stack = a.stack := rfl
@[simp] theorem Arch.setS_kept (a : Arch) (n : Fin 64) (x : SVal) : (a.setS n x).kept = a.kept := rfl
@[simp] theorem Arch.setS_borrowed (a : Arch) (n : Fin 64) (x : SVal) : (a.setS n x).borrowed = a.borrowed := rfl
@[simp] theorem Arch.setS_reserved (a : Arch) (n : Fin 64) (x : SVal) : (a.setS n x).reserved = a.reserved := rfl
@[simp] theorem Arch.setS_lateTaken (a : Arch) (n : Fin 64) (x : SVal) : (a.setS n x).lateTaken = a.lateTaken := rfl
@[simp] theorem Arch.setS_lateFreed (a : Arch) (n : Fin 64) (x : SVal) : (a.setS n x).lateFreed = a.lateFreed := rfl
@[simp] theorem Arch.setS_tcause (a : Arch) (n : Fin 64) (x : SVal) : (a.setS n x).tcause = a.tcause := rfl
@[simp] theorem Arch.setS_tpc (a : Arch) (n : Fin 64) (x : SVal) : (a.setS n x).tpc = a.tpc := rfl
@[simp] theorem Arch.setS_tval (a : Arch) (n : Fin 64) (x : SVal) : (a.setS n x).tval = a.tval := rfl
@[simp] theorem Arch.setS_tlane (a : Arch) (n : Fin 64) (x : SVal) : (a.setS n x).tlane = a.tlane := rfl
@[simp] theorem Arch.setS_tslot (a : Arch) (n : Fin 64) (x : SVal) : (a.setS n x).tslot = a.tslot := rfl
@[simp] theorem Arch.setS_frame (a : Arch) (n : Fin 64) (x : SVal) : (a.setS n x).frame = a.frame := rfl
@[simp] theorem Arch.setS_inTvec (a : Arch) (n : Fin 64) (x : SVal) : (a.setS n x).inTvec = a.inTvec := rfl
@[simp] theorem Arch.setS_trapGate (a : Arch) (n : Fin 64) (x : SVal) : (a.setS n x).trapGate = a.trapGate := rfl
@[simp] theorem Arch.setS_resume (a : Arch) (n : Fin 64) (x : SVal) : (a.setS n x).resume = a.resume := rfl
@[simp] theorem Arch.setS_gbars (a : Arch) (n : Fin 64) (x : SVal) : (a.setS n x).gbars = a.gbars := rfl
@[simp] theorem Arch.setS_pipeErr (a : Arch) (n : Fin 64) (x : SVal) : (a.setS n x).pipeErr = a.pipeErr := rfl

@[simp] theorem Arch.setSlot_v (a : Arch) (x : PcSlot) (sl : Slot) : (a.setSlot x sl).v = a.v := by cases x <;> rfl
@[simp] theorem Arch.setSlot_s (a : Arch) (x : PcSlot) (sl : Slot) : (a.setSlot x sl).s = a.s := by cases x <;> rfl
@[simp] theorem Arch.setSlot_p (a : Arch) (x : PcSlot) (sl : Slot) : (a.setSlot x sl).p = a.p := by cases x <;> rfl
@[simp] theorem Arch.setSlot_sPoison (a : Arch) (x : PcSlot) (sl : Slot) : (a.setSlot x sl).sPoison = a.sPoison := by cases x <;> rfl
@[simp] theorem Arch.setSlot_pPoison (a : Arch) (x : PcSlot) (sl : Slot) : (a.setSlot x sl).pPoison = a.pPoison := by cases x <;> rfl
@[simp] theorem Arch.setSlot_flags (a : Arch) (x : PcSlot) (sl : Slot) : (a.setSlot x sl).flags = a.flags := by cases x <;> rfl
@[simp] theorem Arch.setSlot_fpmode (a : Arch) (x : PcSlot) (sl : Slot) : (a.setSlot x sl).fpmode = a.fpmode := by cases x <;> rfl
@[simp] theorem Arch.setSlot_nanc (a : Arch) (x : PcSlot) (sl : Slot) : (a.setSlot x sl).nanc = a.nanc := by cases x <;> rfl
@[simp] theorem Arch.setSlot_part (a : Arch) (x : PcSlot) (sl : Slot) : (a.setSlot x sl).part = a.part := by cases x <;> rfl
@[simp] theorem Arch.setSlot_gen (a : Arch) (x : PcSlot) (sl : Slot) : (a.setSlot x sl).gen = a.gen := by cases x <;> rfl
@[simp] theorem Arch.setSlot_mode (a : Arch) (x : PcSlot) (sl : Slot) : (a.setSlot x sl).mode = a.mode := by cases x <;> rfl
@[simp] theorem Arch.setSlot_sp (a : Arch) (x : PcSlot) (sl : Slot) : (a.setSlot x sl).sp = a.sp := by cases x <;> rfl
@[simp] theorem Arch.setSlot_stack (a : Arch) (x : PcSlot) (sl : Slot) : (a.setSlot x sl).stack = a.stack := by cases x <;> rfl
@[simp] theorem Arch.setSlot_kept (a : Arch) (x : PcSlot) (sl : Slot) : (a.setSlot x sl).kept = a.kept := by cases x <;> rfl
@[simp] theorem Arch.setSlot_borrowed (a : Arch) (x : PcSlot) (sl : Slot) : (a.setSlot x sl).borrowed = a.borrowed := by cases x <;> rfl
@[simp] theorem Arch.setSlot_reserved (a : Arch) (x : PcSlot) (sl : Slot) : (a.setSlot x sl).reserved = a.reserved := by cases x <;> rfl
@[simp] theorem Arch.setSlot_lateTaken (a : Arch) (x : PcSlot) (sl : Slot) : (a.setSlot x sl).lateTaken = a.lateTaken := by cases x <;> rfl
@[simp] theorem Arch.setSlot_lateFreed (a : Arch) (x : PcSlot) (sl : Slot) : (a.setSlot x sl).lateFreed = a.lateFreed := by cases x <;> rfl
@[simp] theorem Arch.setSlot_tcause (a : Arch) (x : PcSlot) (sl : Slot) : (a.setSlot x sl).tcause = a.tcause := by cases x <;> rfl
@[simp] theorem Arch.setSlot_tpc (a : Arch) (x : PcSlot) (sl : Slot) : (a.setSlot x sl).tpc = a.tpc := by cases x <;> rfl
@[simp] theorem Arch.setSlot_tval (a : Arch) (x : PcSlot) (sl : Slot) : (a.setSlot x sl).tval = a.tval := by cases x <;> rfl
@[simp] theorem Arch.setSlot_tlane (a : Arch) (x : PcSlot) (sl : Slot) : (a.setSlot x sl).tlane = a.tlane := by cases x <;> rfl
@[simp] theorem Arch.setSlot_tslot (a : Arch) (x : PcSlot) (sl : Slot) : (a.setSlot x sl).tslot = a.tslot := by cases x <;> rfl
@[simp] theorem Arch.setSlot_frame (a : Arch) (x : PcSlot) (sl : Slot) : (a.setSlot x sl).frame = a.frame := by cases x <;> rfl
@[simp] theorem Arch.setSlot_inTvec (a : Arch) (x : PcSlot) (sl : Slot) : (a.setSlot x sl).inTvec = a.inTvec := by cases x <;> rfl
@[simp] theorem Arch.setSlot_trapGate (a : Arch) (x : PcSlot) (sl : Slot) : (a.setSlot x sl).trapGate = a.trapGate := by cases x <;> rfl
@[simp] theorem Arch.setSlot_resume (a : Arch) (x : PcSlot) (sl : Slot) : (a.setSlot x sl).resume = a.resume := by cases x <;> rfl
@[simp] theorem Arch.setSlot_gbars (a : Arch) (x : PcSlot) (sl : Slot) : (a.setSlot x sl).gbars = a.gbars := by cases x <;> rfl
@[simp] theorem Arch.setSlot_pipeErr (a : Arch) (x : PcSlot) (sl : Slot) : (a.setSlot x sl).pipeErr = a.pipeErr := by cases x <;> rfl

@[simp] theorem Arch.advance_v (a : Arch) (x : PcSlot) : (a.advance x).v = a.v := by cases x <;> rfl
@[simp] theorem Arch.advance_s (a : Arch) (x : PcSlot) : (a.advance x).s = a.s := by cases x <;> rfl
@[simp] theorem Arch.advance_p (a : Arch) (x : PcSlot) : (a.advance x).p = a.p := by cases x <;> rfl
@[simp] theorem Arch.advance_sPoison (a : Arch) (x : PcSlot) : (a.advance x).sPoison = a.sPoison := by cases x <;> rfl
@[simp] theorem Arch.advance_pPoison (a : Arch) (x : PcSlot) : (a.advance x).pPoison = a.pPoison := by cases x <;> rfl
@[simp] theorem Arch.advance_flags (a : Arch) (x : PcSlot) : (a.advance x).flags = a.flags := by cases x <;> rfl
@[simp] theorem Arch.advance_fpmode (a : Arch) (x : PcSlot) : (a.advance x).fpmode = a.fpmode := by cases x <;> rfl
@[simp] theorem Arch.advance_nanc (a : Arch) (x : PcSlot) : (a.advance x).nanc = a.nanc := by cases x <;> rfl
@[simp] theorem Arch.advance_part (a : Arch) (x : PcSlot) : (a.advance x).part = a.part := by cases x <;> rfl
@[simp] theorem Arch.advance_gen (a : Arch) (x : PcSlot) : (a.advance x).gen = a.gen := by cases x <;> rfl
@[simp] theorem Arch.advance_mode (a : Arch) (x : PcSlot) : (a.advance x).mode = a.mode := by cases x <;> rfl
@[simp] theorem Arch.advance_sp (a : Arch) (x : PcSlot) : (a.advance x).sp = a.sp := by cases x <;> rfl
@[simp] theorem Arch.advance_stack (a : Arch) (x : PcSlot) : (a.advance x).stack = a.stack := by cases x <;> rfl
@[simp] theorem Arch.advance_kept (a : Arch) (x : PcSlot) : (a.advance x).kept = a.kept := by cases x <;> rfl
@[simp] theorem Arch.advance_borrowed (a : Arch) (x : PcSlot) : (a.advance x).borrowed = a.borrowed := by cases x <;> rfl
@[simp] theorem Arch.advance_reserved (a : Arch) (x : PcSlot) : (a.advance x).reserved = a.reserved := by cases x <;> rfl
@[simp] theorem Arch.advance_lateTaken (a : Arch) (x : PcSlot) : (a.advance x).lateTaken = a.lateTaken := by cases x <;> rfl
@[simp] theorem Arch.advance_lateFreed (a : Arch) (x : PcSlot) : (a.advance x).lateFreed = a.lateFreed := by cases x <;> rfl
@[simp] theorem Arch.advance_tcause (a : Arch) (x : PcSlot) : (a.advance x).tcause = a.tcause := by cases x <;> rfl
@[simp] theorem Arch.advance_tpc (a : Arch) (x : PcSlot) : (a.advance x).tpc = a.tpc := by cases x <;> rfl
@[simp] theorem Arch.advance_tval (a : Arch) (x : PcSlot) : (a.advance x).tval = a.tval := by cases x <;> rfl
@[simp] theorem Arch.advance_tlane (a : Arch) (x : PcSlot) : (a.advance x).tlane = a.tlane := by cases x <;> rfl
@[simp] theorem Arch.advance_tslot (a : Arch) (x : PcSlot) : (a.advance x).tslot = a.tslot := by cases x <;> rfl
@[simp] theorem Arch.advance_frame (a : Arch) (x : PcSlot) : (a.advance x).frame = a.frame := by cases x <;> rfl
@[simp] theorem Arch.advance_inTvec (a : Arch) (x : PcSlot) : (a.advance x).inTvec = a.inTvec := by cases x <;> rfl
@[simp] theorem Arch.advance_trapGate (a : Arch) (x : PcSlot) : (a.advance x).trapGate = a.trapGate := by cases x <;> rfl
@[simp] theorem Arch.advance_resume (a : Arch) (x : PcSlot) : (a.advance x).resume = a.resume := by cases x <;> rfl
@[simp] theorem Arch.advance_gbars (a : Arch) (x : PcSlot) : (a.advance x).gbars = a.gbars := by cases x <;> rfl
@[simp] theorem Arch.advance_pipeErr (a : Arch) (x : PcSlot) : (a.advance x).pipeErr = a.pipeErr := by cases x <;> rfl

@[simp] theorem Arch.setWait_v (a : Arch) (x : PcSlot) (w : Wait) : (a.setWait x w).v = a.v := by cases x <;> rfl
@[simp] theorem Arch.setWait_s (a : Arch) (x : PcSlot) (w : Wait) : (a.setWait x w).s = a.s := by cases x <;> rfl
@[simp] theorem Arch.setWait_p (a : Arch) (x : PcSlot) (w : Wait) : (a.setWait x w).p = a.p := by cases x <;> rfl
@[simp] theorem Arch.setWait_sPoison (a : Arch) (x : PcSlot) (w : Wait) : (a.setWait x w).sPoison = a.sPoison := by cases x <;> rfl
@[simp] theorem Arch.setWait_pPoison (a : Arch) (x : PcSlot) (w : Wait) : (a.setWait x w).pPoison = a.pPoison := by cases x <;> rfl
@[simp] theorem Arch.setWait_flags (a : Arch) (x : PcSlot) (w : Wait) : (a.setWait x w).flags = a.flags := by cases x <;> rfl
@[simp] theorem Arch.setWait_fpmode (a : Arch) (x : PcSlot) (w : Wait) : (a.setWait x w).fpmode = a.fpmode := by cases x <;> rfl
@[simp] theorem Arch.setWait_nanc (a : Arch) (x : PcSlot) (w : Wait) : (a.setWait x w).nanc = a.nanc := by cases x <;> rfl
@[simp] theorem Arch.setWait_part (a : Arch) (x : PcSlot) (w : Wait) : (a.setWait x w).part = a.part := by cases x <;> rfl
@[simp] theorem Arch.setWait_gen (a : Arch) (x : PcSlot) (w : Wait) : (a.setWait x w).gen = a.gen := by cases x <;> rfl
@[simp] theorem Arch.setWait_mode (a : Arch) (x : PcSlot) (w : Wait) : (a.setWait x w).mode = a.mode := by cases x <;> rfl
@[simp] theorem Arch.setWait_sp (a : Arch) (x : PcSlot) (w : Wait) : (a.setWait x w).sp = a.sp := by cases x <;> rfl
@[simp] theorem Arch.setWait_stack (a : Arch) (x : PcSlot) (w : Wait) : (a.setWait x w).stack = a.stack := by cases x <;> rfl
@[simp] theorem Arch.setWait_kept (a : Arch) (x : PcSlot) (w : Wait) : (a.setWait x w).kept = a.kept := by cases x <;> rfl
@[simp] theorem Arch.setWait_borrowed (a : Arch) (x : PcSlot) (w : Wait) : (a.setWait x w).borrowed = a.borrowed := by cases x <;> rfl
@[simp] theorem Arch.setWait_reserved (a : Arch) (x : PcSlot) (w : Wait) : (a.setWait x w).reserved = a.reserved := by cases x <;> rfl
@[simp] theorem Arch.setWait_lateTaken (a : Arch) (x : PcSlot) (w : Wait) : (a.setWait x w).lateTaken = a.lateTaken := by cases x <;> rfl
@[simp] theorem Arch.setWait_lateFreed (a : Arch) (x : PcSlot) (w : Wait) : (a.setWait x w).lateFreed = a.lateFreed := by cases x <;> rfl
@[simp] theorem Arch.setWait_tcause (a : Arch) (x : PcSlot) (w : Wait) : (a.setWait x w).tcause = a.tcause := by cases x <;> rfl
@[simp] theorem Arch.setWait_tpc (a : Arch) (x : PcSlot) (w : Wait) : (a.setWait x w).tpc = a.tpc := by cases x <;> rfl
@[simp] theorem Arch.setWait_tval (a : Arch) (x : PcSlot) (w : Wait) : (a.setWait x w).tval = a.tval := by cases x <;> rfl
@[simp] theorem Arch.setWait_tlane (a : Arch) (x : PcSlot) (w : Wait) : (a.setWait x w).tlane = a.tlane := by cases x <;> rfl
@[simp] theorem Arch.setWait_tslot (a : Arch) (x : PcSlot) (w : Wait) : (a.setWait x w).tslot = a.tslot := by cases x <;> rfl
@[simp] theorem Arch.setWait_frame (a : Arch) (x : PcSlot) (w : Wait) : (a.setWait x w).frame = a.frame := by cases x <;> rfl
@[simp] theorem Arch.setWait_inTvec (a : Arch) (x : PcSlot) (w : Wait) : (a.setWait x w).inTvec = a.inTvec := by cases x <;> rfl
@[simp] theorem Arch.setWait_trapGate (a : Arch) (x : PcSlot) (w : Wait) : (a.setWait x w).trapGate = a.trapGate := by cases x <;> rfl
@[simp] theorem Arch.setWait_resume (a : Arch) (x : PcSlot) (w : Wait) : (a.setWait x w).resume = a.resume := by cases x <;> rfl
@[simp] theorem Arch.setWait_gbars (a : Arch) (x : PcSlot) (w : Wait) : (a.setWait x w).gbars = a.gbars := by cases x <;> rfl
@[simp] theorem Arch.setWait_pipeErr (a : Arch) (x : PcSlot) (w : Wait) : (a.setWait x w).pipeErr = a.pipeErr := by cases x <;> rfl

@[simp] theorem Arch.setP_v (a : Arch) (n : Fin 8) (act bits : Mask) : (a.setP n act bits).v = a.v := by unfold Arch.setP; split <;> rfl
@[simp] theorem Arch.setP_s (a : Arch) (n : Fin 8) (act bits : Mask) : (a.setP n act bits).s = a.s := by unfold Arch.setP; split <;> rfl
@[simp] theorem Arch.setP_sPoison (a : Arch) (n : Fin 8) (act bits : Mask) : (a.setP n act bits).sPoison = a.sPoison := by unfold Arch.setP; split <;> rfl
@[simp] theorem Arch.setP_flags (a : Arch) (n : Fin 8) (act bits : Mask) : (a.setP n act bits).flags = a.flags := by unfold Arch.setP; split <;> rfl
@[simp] theorem Arch.setP_fpmode (a : Arch) (n : Fin 8) (act bits : Mask) : (a.setP n act bits).fpmode = a.fpmode := by unfold Arch.setP; split <;> rfl
@[simp] theorem Arch.setP_nanc (a : Arch) (n : Fin 8) (act bits : Mask) : (a.setP n act bits).nanc = a.nanc := by unfold Arch.setP; split <;> rfl
@[simp] theorem Arch.setP_part (a : Arch) (n : Fin 8) (act bits : Mask) : (a.setP n act bits).part = a.part := by unfold Arch.setP; split <;> rfl
@[simp] theorem Arch.setP_gen (a : Arch) (n : Fin 8) (act bits : Mask) : (a.setP n act bits).gen = a.gen := by unfold Arch.setP; split <;> rfl
@[simp] theorem Arch.setP_mode (a : Arch) (n : Fin 8) (act bits : Mask) : (a.setP n act bits).mode = a.mode := by unfold Arch.setP; split <;> rfl
@[simp] theorem Arch.setP_slotA (a : Arch) (n : Fin 8) (act bits : Mask) : (a.setP n act bits).slotA = a.slotA := by unfold Arch.setP; split <;> rfl
@[simp] theorem Arch.setP_slotB (a : Arch) (n : Fin 8) (act bits : Mask) : (a.setP n act bits).slotB = a.slotB := by unfold Arch.setP; split <;> rfl
@[simp] theorem Arch.setP_sp (a : Arch) (n : Fin 8) (act bits : Mask) : (a.setP n act bits).sp = a.sp := by unfold Arch.setP; split <;> rfl
@[simp] theorem Arch.setP_stack (a : Arch) (n : Fin 8) (act bits : Mask) : (a.setP n act bits).stack = a.stack := by unfold Arch.setP; split <;> rfl
@[simp] theorem Arch.setP_kept (a : Arch) (n : Fin 8) (act bits : Mask) : (a.setP n act bits).kept = a.kept := by unfold Arch.setP; split <;> rfl
@[simp] theorem Arch.setP_borrowed (a : Arch) (n : Fin 8) (act bits : Mask) : (a.setP n act bits).borrowed = a.borrowed := by unfold Arch.setP; split <;> rfl
@[simp] theorem Arch.setP_reserved (a : Arch) (n : Fin 8) (act bits : Mask) : (a.setP n act bits).reserved = a.reserved := by unfold Arch.setP; split <;> rfl
@[simp] theorem Arch.setP_lateTaken (a : Arch) (n : Fin 8) (act bits : Mask) : (a.setP n act bits).lateTaken = a.lateTaken := by unfold Arch.setP; split <;> rfl
@[simp] theorem Arch.setP_lateFreed (a : Arch) (n : Fin 8) (act bits : Mask) : (a.setP n act bits).lateFreed = a.lateFreed := by unfold Arch.setP; split <;> rfl
@[simp] theorem Arch.setP_tcause (a : Arch) (n : Fin 8) (act bits : Mask) : (a.setP n act bits).tcause = a.tcause := by unfold Arch.setP; split <;> rfl
@[simp] theorem Arch.setP_tpc (a : Arch) (n : Fin 8) (act bits : Mask) : (a.setP n act bits).tpc = a.tpc := by unfold Arch.setP; split <;> rfl
@[simp] theorem Arch.setP_tval (a : Arch) (n : Fin 8) (act bits : Mask) : (a.setP n act bits).tval = a.tval := by unfold Arch.setP; split <;> rfl
@[simp] theorem Arch.setP_tlane (a : Arch) (n : Fin 8) (act bits : Mask) : (a.setP n act bits).tlane = a.tlane := by unfold Arch.setP; split <;> rfl
@[simp] theorem Arch.setP_tslot (a : Arch) (n : Fin 8) (act bits : Mask) : (a.setP n act bits).tslot = a.tslot := by unfold Arch.setP; split <;> rfl
@[simp] theorem Arch.setP_frame (a : Arch) (n : Fin 8) (act bits : Mask) : (a.setP n act bits).frame = a.frame := by unfold Arch.setP; split <;> rfl
@[simp] theorem Arch.setP_inTvec (a : Arch) (n : Fin 8) (act bits : Mask) : (a.setP n act bits).inTvec = a.inTvec := by unfold Arch.setP; split <;> rfl
@[simp] theorem Arch.setP_trapGate (a : Arch) (n : Fin 8) (act bits : Mask) : (a.setP n act bits).trapGate = a.trapGate := by unfold Arch.setP; split <;> rfl
@[simp] theorem Arch.setP_resume (a : Arch) (n : Fin 8) (act bits : Mask) : (a.setP n act bits).resume = a.resume := by unfold Arch.setP; split <;> rfl
@[simp] theorem Arch.setP_gbars (a : Arch) (n : Fin 8) (act bits : Mask) : (a.setP n act bits).gbars = a.gbars := by unfold Arch.setP; split <;> rfl
@[simp] theorem Arch.setP_pipeErr (a : Arch) (n : Fin 8) (act bits : Mask) : (a.setP n act bits).pipeErr = a.pipeErr := by unfold Arch.setP; split <;> rfl

/-! ## State -/

@[simp] theorem modGang_tick (s : State) (id : GangId) (f : Gang → Gang) : (modGang s id f).tick = s.tick := rfl
@[simp] theorem modGang_agenda (s : State) (id : GangId) (f : Gang → Gang) : (modGang s id f).agenda = s.agenda := rfl
@[simp] theorem modGang_turn (s : State) (id : GangId) (f : Gang → Gang) : (modGang s id f).turn = s.turn := rfl
@[simp] theorem modGang_cur (s : State) (id : GangId) (f : Gang → Gang) : (modGang s id f).cur = s.cur := rfl
@[simp] theorem modGang_freeCtr (s : State) (id : GangId) (f : Gang → Gang) : (modGang s id f).freeCtr = s.freeCtr := rfl
@[simp] theorem modGang_nextOp (s : State) (id : GangId) (f : Gang → Gang) : (modGang s id f).nextOp = s.nextOp := rfl
@[simp] theorem modGang_nextUid (s : State) (id : GangId) (f : Gang → Gang) : (modGang s id f).nextUid = s.nextUid := rfl
@[simp] theorem modGang_mem (s : State) (id : GangId) (f : Gang → Gang) : (modGang s id f).mem = s.mem := rfl
@[simp] theorem modGang_hostMem (s : State) (id : GangId) (f : Gang → Gang) : (modGang s id f).hostMem = s.hostMem := rfl
@[simp] theorem modGang_poison (s : State) (id : GangId) (f : Gang → Gang) : (modGang s id f).poison = s.poison := rfl
@[simp] theorem modGang_homePages (s : State) (id : GangId) (f : Gang → Gang) : (modGang s id f).homePages = s.homePages := rfl
@[simp] theorem modGang_stamps (s : State) (id : GangId) (f : Gang → Gang) : (modGang s id f).stamps = s.stamps := rfl
@[simp] theorem modGang_unfolded (s : State) (id : GangId) (f : Gang → Gang) : (modGang s id f).unfolded = s.unfolded := rfl
@[simp] theorem modGang_msgs (s : State) (id : GangId) (f : Gang → Gang) : (modGang s id f).msgs = s.msgs := rfl
@[simp] theorem modGang_fwds (s : State) (id : GangId) (f : Gang → Gang) : (modGang s id f).fwds = s.fwds := rfl
@[simp] theorem modGang_owed (s : State) (id : GangId) (f : Gang → Gang) : (modGang s id f).owed = s.owed := rfl
@[simp] theorem modGang_dies (s : State) (id : GangId) (f : Gang → Gang) : (modGang s id f).dies = s.dies := rfl
@[simp] theorem modGang_cores (s : State) (id : GangId) (f : Gang → Gang) : (modGang s id f).cores = s.cores := rfl
@[simp] theorem modGang_clusters (s : State) (id : GangId) (f : Gang → Gang) : (modGang s id f).clusters = s.clusters := rfl
@[simp] theorem modGang_scheds (s : State) (id : GangId) (f : Gang → Gang) : (modGang s id f).scheds = s.scheds := rfl
@[simp] theorem modGang_blocks (s : State) (id : GangId) (f : Gang → Gang) : (modGang s id f).blocks = s.blocks := rfl
@[simp] theorem modGang_groups (s : State) (id : GangId) (f : Gang → Gang) : (modGang s id f).groups = s.groups := rfl
@[simp] theorem modGang_launches (s : State) (id : GangId) (f : Gang → Gang) : (modGang s id f).launches = s.launches := rfl
@[simp] theorem modGang_mailboxes (s : State) (id : GangId) (f : Gang → Gang) : (modGang s id f).mailboxes = s.mailboxes := rfl
@[simp] theorem modGang_pend (s : State) (id : GangId) (f : Gang → Gang) : (modGang s id f).pend = s.pend := rfl
@[simp] theorem modGang_samples (s : State) (id : GangId) (f : Gang → Gang) : (modGang s id f).samples = s.samples := rfl
@[simp] theorem modGang_through (s : State) (id : GangId) (f : Gang → Gang) : (modGang s id f).through = s.through := rfl
@[simp] theorem modGang_nts (s : State) (id : GangId) (f : Gang → Gang) : (modGang s id f).nts = s.nts := rfl
@[simp] theorem modGang_wrote (s : State) (id : GangId) (f : Gang → Gang) : (modGang s id f).wrote = s.wrote := rfl
@[simp] theorem modGang_tasks (s : State) (id : GangId) (f : Gang → Gang) : (modGang s id f).tasks = s.tasks := rfl
@[simp] theorem modGang_chains (s : State) (id : GangId) (f : Gang → Gang) : (modGang s id f).chains = s.chains := rfl
@[simp] theorem modGang_jobs (s : State) (id : GangId) (f : Gang → Gang) : (modGang s id f).jobs = s.jobs := rfl
@[simp] theorem modGang_kernels (s : State) (id : GangId) (f : Gang → Gang) : (modGang s id f).kernels = s.kernels := rfl
@[simp] theorem modGang_queues (s : State) (id : GangId) (f : Gang → Gang) : (modGang s id f).queues = s.queues := rfl
@[simp] theorem modGang_contexts (s : State) (id : GangId) (f : Gang → Gang) : (modGang s id f).contexts = s.contexts := rfl
@[simp] theorem modGang_saved (s : State) (id : GangId) (f : Gang → Gang) : (modGang s id f).saved = s.saved := rfl
@[simp] theorem modGang_nextCtx (s : State) (id : GangId) (f : Gang → Gang) : (modGang s id f).nextCtx = s.nextCtx := rfl
@[simp] theorem modGang_nextQueue (s : State) (id : GangId) (f : Gang → Gang) : (modGang s id f).nextQueue = s.nextQueue := rfl
@[simp] theorem modGang_migrations (s : State) (id : GangId) (f : Gang → Gang) : (modGang s id f).migrations = s.migrations := rfl
@[simp] theorem modGang_shoots (s : State) (id : GangId) (f : Gang → Gang) : (modGang s id f).shoots = s.shoots := rfl
@[simp] theorem modGang_links (s : State) (id : GangId) (f : Gang → Gang) : (modGang s id f).links = s.links := rfl
@[simp] theorem modGang_rwins (s : State) (id : GangId) (f : Gang → Gang) : (modGang s id f).rwins = s.rwins := rfl
@[simp] theorem modGang_redRounds (s : State) (id : GangId) (f : Gang → Gang) : (modGang s id f).redRounds = s.redRounds := rfl
@[simp] theorem modGang_guest (s : State) (id : GangId) (f : Gang → Gang) : (modGang s id f).guest = s.guest := rfl
@[simp] theorem modGang_admin (s : State) (id : GangId) (f : Gang → Gang) : (modGang s id f).admin = s.admin := rfl
@[simp] theorem modGang_health (s : State) (id : GangId) (f : Gang → Gang) : (modGang s id f).health = s.health := rfl
@[simp] theorem modGang_healthLoss (s : State) (id : GangId) (f : Gang → Gang) : (modGang s id f).healthLoss = s.healthLoss := rfl
@[simp] theorem modGang_measure (s : State) (id : GangId) (f : Gang → Gang) : (modGang s id f).measure = s.measure := rfl
@[simp] theorem modGang_fuseVer (s : State) (id : GangId) (f : Gang → Gang) : (modGang s id f).fuseVer = s.fuseVer := rfl
@[simp] theorem modGang_firmware (s : State) (id : GangId) (f : Gang → Gang) : (modGang s id f).firmware = s.firmware := rfl
@[simp] theorem modGang_lost (s : State) (id : GangId) (f : Gang → Gang) : (modGang s id f).lost = s.lost := rfl
@[simp] theorem modGang_generation (s : State) (id : GangId) (f : Gang → Gang) : (modGang s id f).generation = s.generation := rfl
@[simp] theorem modGang_powerCap (s : State) (id : GangId) (f : Gang → Gang) : (modGang s id f).powerCap = s.powerCap := rfl
@[simp] theorem modGang_hot (s : State) (id : GangId) (f : Gang → Gang) : (modGang s id f).hot = s.hot := rfl
@[simp] theorem modGang_scrub (s : State) (id : GangId) (f : Gang → Gang) : (modGang s id f).scrub = s.scrub := rfl
@[simp] theorem modGang_interrupts (s : State) (id : GangId) (f : Gang → Gang) : (modGang s id f).interrupts = s.interrupts := rfl
@[simp] theorem modGang_sideband (s : State) (id : GangId) (f : Gang → Gang) : (modGang s id f).sideband = s.sideband := rfl
@[simp] theorem modGang_cxlReads (s : State) (id : GangId) (f : Gang → Gang) : (modGang s id f).cxlReads = s.cxlReads := rfl
@[simp] theorem modGang_pageReads (s : State) (id : GangId) (f : Gang → Gang) : (modGang s id f).pageReads = s.pageReads := rfl
@[simp] theorem modGang_imaged (s : State) (id : GangId) (f : Gang → Gang) : (modGang s id f).imaged = s.imaged := rfl
@[simp] theorem modGang_form (s : State) (id : GangId) (f : Gang → Gang) : (modGang s id f).form = s.form := rfl
@[simp] theorem modGang_hostHoles (s : State) (id : GangId) (f : Gang → Gang) : (modGang s id f).hostHoles = s.hostHoles := rfl
@[simp] theorem modGang_deviceLost (s : State) (id : GangId) (f : Gang → Gang) : (modGang s id f).deviceLost = s.deviceLost := rfl
@[simp] theorem modGang_strapFault (s : State) (id : GangId) (f : Gang → Gang) : (modGang s id f).strapFault = s.strapFault := rfl

@[simp] theorem putGang_tick (s : State) (g : Gang) : (putGang s g).tick = s.tick := rfl
@[simp] theorem putGang_agenda (s : State) (g : Gang) : (putGang s g).agenda = s.agenda := rfl
@[simp] theorem putGang_turn (s : State) (g : Gang) : (putGang s g).turn = s.turn := rfl
@[simp] theorem putGang_cur (s : State) (g : Gang) : (putGang s g).cur = s.cur := rfl
@[simp] theorem putGang_freeCtr (s : State) (g : Gang) : (putGang s g).freeCtr = s.freeCtr := rfl
@[simp] theorem putGang_nextOp (s : State) (g : Gang) : (putGang s g).nextOp = s.nextOp := rfl
@[simp] theorem putGang_nextUid (s : State) (g : Gang) : (putGang s g).nextUid = s.nextUid := rfl
@[simp] theorem putGang_mem (s : State) (g : Gang) : (putGang s g).mem = s.mem := rfl
@[simp] theorem putGang_hostMem (s : State) (g : Gang) : (putGang s g).hostMem = s.hostMem := rfl
@[simp] theorem putGang_poison (s : State) (g : Gang) : (putGang s g).poison = s.poison := rfl
@[simp] theorem putGang_homePages (s : State) (g : Gang) : (putGang s g).homePages = s.homePages := rfl
@[simp] theorem putGang_stamps (s : State) (g : Gang) : (putGang s g).stamps = s.stamps := rfl
@[simp] theorem putGang_unfolded (s : State) (g : Gang) : (putGang s g).unfolded = s.unfolded := rfl
@[simp] theorem putGang_msgs (s : State) (g : Gang) : (putGang s g).msgs = s.msgs := rfl
@[simp] theorem putGang_fwds (s : State) (g : Gang) : (putGang s g).fwds = s.fwds := rfl
@[simp] theorem putGang_owed (s : State) (g : Gang) : (putGang s g).owed = s.owed := rfl
@[simp] theorem putGang_dies (s : State) (g : Gang) : (putGang s g).dies = s.dies := rfl
@[simp] theorem putGang_cores (s : State) (g : Gang) : (putGang s g).cores = s.cores := rfl
@[simp] theorem putGang_clusters (s : State) (g : Gang) : (putGang s g).clusters = s.clusters := rfl
@[simp] theorem putGang_scheds (s : State) (g : Gang) : (putGang s g).scheds = s.scheds := rfl
@[simp] theorem putGang_blocks (s : State) (g : Gang) : (putGang s g).blocks = s.blocks := rfl
@[simp] theorem putGang_groups (s : State) (g : Gang) : (putGang s g).groups = s.groups := rfl
@[simp] theorem putGang_launches (s : State) (g : Gang) : (putGang s g).launches = s.launches := rfl
@[simp] theorem putGang_mailboxes (s : State) (g : Gang) : (putGang s g).mailboxes = s.mailboxes := rfl
@[simp] theorem putGang_pend (s : State) (g : Gang) : (putGang s g).pend = s.pend := rfl
@[simp] theorem putGang_samples (s : State) (g : Gang) : (putGang s g).samples = s.samples := rfl
@[simp] theorem putGang_through (s : State) (g : Gang) : (putGang s g).through = s.through := rfl
@[simp] theorem putGang_nts (s : State) (g : Gang) : (putGang s g).nts = s.nts := rfl
@[simp] theorem putGang_wrote (s : State) (g : Gang) : (putGang s g).wrote = s.wrote := rfl
@[simp] theorem putGang_tasks (s : State) (g : Gang) : (putGang s g).tasks = s.tasks := rfl
@[simp] theorem putGang_chains (s : State) (g : Gang) : (putGang s g).chains = s.chains := rfl
@[simp] theorem putGang_jobs (s : State) (g : Gang) : (putGang s g).jobs = s.jobs := rfl
@[simp] theorem putGang_kernels (s : State) (g : Gang) : (putGang s g).kernels = s.kernels := rfl
@[simp] theorem putGang_queues (s : State) (g : Gang) : (putGang s g).queues = s.queues := rfl
@[simp] theorem putGang_contexts (s : State) (g : Gang) : (putGang s g).contexts = s.contexts := rfl
@[simp] theorem putGang_saved (s : State) (g : Gang) : (putGang s g).saved = s.saved := rfl
@[simp] theorem putGang_nextCtx (s : State) (g : Gang) : (putGang s g).nextCtx = s.nextCtx := rfl
@[simp] theorem putGang_nextQueue (s : State) (g : Gang) : (putGang s g).nextQueue = s.nextQueue := rfl
@[simp] theorem putGang_migrations (s : State) (g : Gang) : (putGang s g).migrations = s.migrations := rfl
@[simp] theorem putGang_shoots (s : State) (g : Gang) : (putGang s g).shoots = s.shoots := rfl
@[simp] theorem putGang_links (s : State) (g : Gang) : (putGang s g).links = s.links := rfl
@[simp] theorem putGang_rwins (s : State) (g : Gang) : (putGang s g).rwins = s.rwins := rfl
@[simp] theorem putGang_redRounds (s : State) (g : Gang) : (putGang s g).redRounds = s.redRounds := rfl
@[simp] theorem putGang_guest (s : State) (g : Gang) : (putGang s g).guest = s.guest := rfl
@[simp] theorem putGang_admin (s : State) (g : Gang) : (putGang s g).admin = s.admin := rfl
@[simp] theorem putGang_health (s : State) (g : Gang) : (putGang s g).health = s.health := rfl
@[simp] theorem putGang_healthLoss (s : State) (g : Gang) : (putGang s g).healthLoss = s.healthLoss := rfl
@[simp] theorem putGang_measure (s : State) (g : Gang) : (putGang s g).measure = s.measure := rfl
@[simp] theorem putGang_fuseVer (s : State) (g : Gang) : (putGang s g).fuseVer = s.fuseVer := rfl
@[simp] theorem putGang_firmware (s : State) (g : Gang) : (putGang s g).firmware = s.firmware := rfl
@[simp] theorem putGang_lost (s : State) (g : Gang) : (putGang s g).lost = s.lost := rfl
@[simp] theorem putGang_generation (s : State) (g : Gang) : (putGang s g).generation = s.generation := rfl
@[simp] theorem putGang_powerCap (s : State) (g : Gang) : (putGang s g).powerCap = s.powerCap := rfl
@[simp] theorem putGang_hot (s : State) (g : Gang) : (putGang s g).hot = s.hot := rfl
@[simp] theorem putGang_scrub (s : State) (g : Gang) : (putGang s g).scrub = s.scrub := rfl
@[simp] theorem putGang_interrupts (s : State) (g : Gang) : (putGang s g).interrupts = s.interrupts := rfl
@[simp] theorem putGang_sideband (s : State) (g : Gang) : (putGang s g).sideband = s.sideband := rfl
@[simp] theorem putGang_cxlReads (s : State) (g : Gang) : (putGang s g).cxlReads = s.cxlReads := rfl
@[simp] theorem putGang_pageReads (s : State) (g : Gang) : (putGang s g).pageReads = s.pageReads := rfl
@[simp] theorem putGang_imaged (s : State) (g : Gang) : (putGang s g).imaged = s.imaged := rfl
@[simp] theorem putGang_form (s : State) (g : Gang) : (putGang s g).form = s.form := rfl
@[simp] theorem putGang_hostHoles (s : State) (g : Gang) : (putGang s g).hostHoles = s.hostHoles := rfl
@[simp] theorem putGang_deviceLost (s : State) (g : Gang) : (putGang s g).deviceLost = s.deviceLost := rfl
@[simp] theorem putGang_strapFault (s : State) (g : Gang) : (putGang s g).strapFault = s.strapFault := rfl

@[simp] theorem modBlock_tick (s : State) (u : Nat) (f : Block → Block) : (modBlock s u f).tick = s.tick := rfl
@[simp] theorem modBlock_agenda (s : State) (u : Nat) (f : Block → Block) : (modBlock s u f).agenda = s.agenda := rfl
@[simp] theorem modBlock_turn (s : State) (u : Nat) (f : Block → Block) : (modBlock s u f).turn = s.turn := rfl
@[simp] theorem modBlock_cur (s : State) (u : Nat) (f : Block → Block) : (modBlock s u f).cur = s.cur := rfl
@[simp] theorem modBlock_freeCtr (s : State) (u : Nat) (f : Block → Block) : (modBlock s u f).freeCtr = s.freeCtr := rfl
@[simp] theorem modBlock_nextOp (s : State) (u : Nat) (f : Block → Block) : (modBlock s u f).nextOp = s.nextOp := rfl
@[simp] theorem modBlock_nextUid (s : State) (u : Nat) (f : Block → Block) : (modBlock s u f).nextUid = s.nextUid := rfl
@[simp] theorem modBlock_mem (s : State) (u : Nat) (f : Block → Block) : (modBlock s u f).mem = s.mem := rfl
@[simp] theorem modBlock_hostMem (s : State) (u : Nat) (f : Block → Block) : (modBlock s u f).hostMem = s.hostMem := rfl
@[simp] theorem modBlock_poison (s : State) (u : Nat) (f : Block → Block) : (modBlock s u f).poison = s.poison := rfl
@[simp] theorem modBlock_homePages (s : State) (u : Nat) (f : Block → Block) : (modBlock s u f).homePages = s.homePages := rfl
@[simp] theorem modBlock_stamps (s : State) (u : Nat) (f : Block → Block) : (modBlock s u f).stamps = s.stamps := rfl
@[simp] theorem modBlock_unfolded (s : State) (u : Nat) (f : Block → Block) : (modBlock s u f).unfolded = s.unfolded := rfl
@[simp] theorem modBlock_msgs (s : State) (u : Nat) (f : Block → Block) : (modBlock s u f).msgs = s.msgs := rfl
@[simp] theorem modBlock_fwds (s : State) (u : Nat) (f : Block → Block) : (modBlock s u f).fwds = s.fwds := rfl
@[simp] theorem modBlock_owed (s : State) (u : Nat) (f : Block → Block) : (modBlock s u f).owed = s.owed := rfl
@[simp] theorem modBlock_dies (s : State) (u : Nat) (f : Block → Block) : (modBlock s u f).dies = s.dies := rfl
@[simp] theorem modBlock_cores (s : State) (u : Nat) (f : Block → Block) : (modBlock s u f).cores = s.cores := rfl
@[simp] theorem modBlock_clusters (s : State) (u : Nat) (f : Block → Block) : (modBlock s u f).clusters = s.clusters := rfl
@[simp] theorem modBlock_scheds (s : State) (u : Nat) (f : Block → Block) : (modBlock s u f).scheds = s.scheds := rfl
@[simp] theorem modBlock_gangs (s : State) (u : Nat) (f : Block → Block) : (modBlock s u f).gangs = s.gangs := rfl
@[simp] theorem modBlock_groups (s : State) (u : Nat) (f : Block → Block) : (modBlock s u f).groups = s.groups := rfl
@[simp] theorem modBlock_launches (s : State) (u : Nat) (f : Block → Block) : (modBlock s u f).launches = s.launches := rfl
@[simp] theorem modBlock_mailboxes (s : State) (u : Nat) (f : Block → Block) : (modBlock s u f).mailboxes = s.mailboxes := rfl
@[simp] theorem modBlock_pend (s : State) (u : Nat) (f : Block → Block) : (modBlock s u f).pend = s.pend := rfl
@[simp] theorem modBlock_samples (s : State) (u : Nat) (f : Block → Block) : (modBlock s u f).samples = s.samples := rfl
@[simp] theorem modBlock_through (s : State) (u : Nat) (f : Block → Block) : (modBlock s u f).through = s.through := rfl
@[simp] theorem modBlock_nts (s : State) (u : Nat) (f : Block → Block) : (modBlock s u f).nts = s.nts := rfl
@[simp] theorem modBlock_wrote (s : State) (u : Nat) (f : Block → Block) : (modBlock s u f).wrote = s.wrote := rfl
@[simp] theorem modBlock_tasks (s : State) (u : Nat) (f : Block → Block) : (modBlock s u f).tasks = s.tasks := rfl
@[simp] theorem modBlock_chains (s : State) (u : Nat) (f : Block → Block) : (modBlock s u f).chains = s.chains := rfl
@[simp] theorem modBlock_jobs (s : State) (u : Nat) (f : Block → Block) : (modBlock s u f).jobs = s.jobs := rfl
@[simp] theorem modBlock_kernels (s : State) (u : Nat) (f : Block → Block) : (modBlock s u f).kernels = s.kernels := rfl
@[simp] theorem modBlock_queues (s : State) (u : Nat) (f : Block → Block) : (modBlock s u f).queues = s.queues := rfl
@[simp] theorem modBlock_contexts (s : State) (u : Nat) (f : Block → Block) : (modBlock s u f).contexts = s.contexts := rfl
@[simp] theorem modBlock_saved (s : State) (u : Nat) (f : Block → Block) : (modBlock s u f).saved = s.saved := rfl
@[simp] theorem modBlock_nextCtx (s : State) (u : Nat) (f : Block → Block) : (modBlock s u f).nextCtx = s.nextCtx := rfl
@[simp] theorem modBlock_nextQueue (s : State) (u : Nat) (f : Block → Block) : (modBlock s u f).nextQueue = s.nextQueue := rfl
@[simp] theorem modBlock_migrations (s : State) (u : Nat) (f : Block → Block) : (modBlock s u f).migrations = s.migrations := rfl
@[simp] theorem modBlock_shoots (s : State) (u : Nat) (f : Block → Block) : (modBlock s u f).shoots = s.shoots := rfl
@[simp] theorem modBlock_links (s : State) (u : Nat) (f : Block → Block) : (modBlock s u f).links = s.links := rfl
@[simp] theorem modBlock_rwins (s : State) (u : Nat) (f : Block → Block) : (modBlock s u f).rwins = s.rwins := rfl
@[simp] theorem modBlock_redRounds (s : State) (u : Nat) (f : Block → Block) : (modBlock s u f).redRounds = s.redRounds := rfl
@[simp] theorem modBlock_guest (s : State) (u : Nat) (f : Block → Block) : (modBlock s u f).guest = s.guest := rfl
@[simp] theorem modBlock_admin (s : State) (u : Nat) (f : Block → Block) : (modBlock s u f).admin = s.admin := rfl
@[simp] theorem modBlock_health (s : State) (u : Nat) (f : Block → Block) : (modBlock s u f).health = s.health := rfl
@[simp] theorem modBlock_healthLoss (s : State) (u : Nat) (f : Block → Block) : (modBlock s u f).healthLoss = s.healthLoss := rfl
@[simp] theorem modBlock_measure (s : State) (u : Nat) (f : Block → Block) : (modBlock s u f).measure = s.measure := rfl
@[simp] theorem modBlock_fuseVer (s : State) (u : Nat) (f : Block → Block) : (modBlock s u f).fuseVer = s.fuseVer := rfl
@[simp] theorem modBlock_firmware (s : State) (u : Nat) (f : Block → Block) : (modBlock s u f).firmware = s.firmware := rfl
@[simp] theorem modBlock_lost (s : State) (u : Nat) (f : Block → Block) : (modBlock s u f).lost = s.lost := rfl
@[simp] theorem modBlock_generation (s : State) (u : Nat) (f : Block → Block) : (modBlock s u f).generation = s.generation := rfl
@[simp] theorem modBlock_powerCap (s : State) (u : Nat) (f : Block → Block) : (modBlock s u f).powerCap = s.powerCap := rfl
@[simp] theorem modBlock_hot (s : State) (u : Nat) (f : Block → Block) : (modBlock s u f).hot = s.hot := rfl
@[simp] theorem modBlock_scrub (s : State) (u : Nat) (f : Block → Block) : (modBlock s u f).scrub = s.scrub := rfl
@[simp] theorem modBlock_interrupts (s : State) (u : Nat) (f : Block → Block) : (modBlock s u f).interrupts = s.interrupts := rfl
@[simp] theorem modBlock_sideband (s : State) (u : Nat) (f : Block → Block) : (modBlock s u f).sideband = s.sideband := rfl
@[simp] theorem modBlock_cxlReads (s : State) (u : Nat) (f : Block → Block) : (modBlock s u f).cxlReads = s.cxlReads := rfl
@[simp] theorem modBlock_pageReads (s : State) (u : Nat) (f : Block → Block) : (modBlock s u f).pageReads = s.pageReads := rfl
@[simp] theorem modBlock_imaged (s : State) (u : Nat) (f : Block → Block) : (modBlock s u f).imaged = s.imaged := rfl
@[simp] theorem modBlock_form (s : State) (u : Nat) (f : Block → Block) : (modBlock s u f).form = s.form := rfl
@[simp] theorem modBlock_hostHoles (s : State) (u : Nat) (f : Block → Block) : (modBlock s u f).hostHoles = s.hostHoles := rfl
@[simp] theorem modBlock_deviceLost (s : State) (u : Nat) (f : Block → Block) : (modBlock s u f).deviceLost = s.deviceLost := rfl
@[simp] theorem modBlock_strapFault (s : State) (u : Nat) (f : Block → Block) : (modBlock s u f).strapFault = s.strapFault := rfl

@[simp] theorem modGroup_tick (s : State) (u : Nat) (f : DieGroup → DieGroup) : (modGroup s u f).tick = s.tick := rfl
@[simp] theorem modGroup_agenda (s : State) (u : Nat) (f : DieGroup → DieGroup) : (modGroup s u f).agenda = s.agenda := rfl
@[simp] theorem modGroup_turn (s : State) (u : Nat) (f : DieGroup → DieGroup) : (modGroup s u f).turn = s.turn := rfl
@[simp] theorem modGroup_cur (s : State) (u : Nat) (f : DieGroup → DieGroup) : (modGroup s u f).cur = s.cur := rfl
@[simp] theorem modGroup_freeCtr (s : State) (u : Nat) (f : DieGroup → DieGroup) : (modGroup s u f).freeCtr = s.freeCtr := rfl
@[simp] theorem modGroup_nextOp (s : State) (u : Nat) (f : DieGroup → DieGroup) : (modGroup s u f).nextOp = s.nextOp := rfl
@[simp] theorem modGroup_nextUid (s : State) (u : Nat) (f : DieGroup → DieGroup) : (modGroup s u f).nextUid = s.nextUid := rfl
@[simp] theorem modGroup_mem (s : State) (u : Nat) (f : DieGroup → DieGroup) : (modGroup s u f).mem = s.mem := rfl
@[simp] theorem modGroup_hostMem (s : State) (u : Nat) (f : DieGroup → DieGroup) : (modGroup s u f).hostMem = s.hostMem := rfl
@[simp] theorem modGroup_poison (s : State) (u : Nat) (f : DieGroup → DieGroup) : (modGroup s u f).poison = s.poison := rfl
@[simp] theorem modGroup_homePages (s : State) (u : Nat) (f : DieGroup → DieGroup) : (modGroup s u f).homePages = s.homePages := rfl
@[simp] theorem modGroup_stamps (s : State) (u : Nat) (f : DieGroup → DieGroup) : (modGroup s u f).stamps = s.stamps := rfl
@[simp] theorem modGroup_unfolded (s : State) (u : Nat) (f : DieGroup → DieGroup) : (modGroup s u f).unfolded = s.unfolded := rfl
@[simp] theorem modGroup_msgs (s : State) (u : Nat) (f : DieGroup → DieGroup) : (modGroup s u f).msgs = s.msgs := rfl
@[simp] theorem modGroup_fwds (s : State) (u : Nat) (f : DieGroup → DieGroup) : (modGroup s u f).fwds = s.fwds := rfl
@[simp] theorem modGroup_owed (s : State) (u : Nat) (f : DieGroup → DieGroup) : (modGroup s u f).owed = s.owed := rfl
@[simp] theorem modGroup_dies (s : State) (u : Nat) (f : DieGroup → DieGroup) : (modGroup s u f).dies = s.dies := rfl
@[simp] theorem modGroup_cores (s : State) (u : Nat) (f : DieGroup → DieGroup) : (modGroup s u f).cores = s.cores := rfl
@[simp] theorem modGroup_clusters (s : State) (u : Nat) (f : DieGroup → DieGroup) : (modGroup s u f).clusters = s.clusters := rfl
@[simp] theorem modGroup_scheds (s : State) (u : Nat) (f : DieGroup → DieGroup) : (modGroup s u f).scheds = s.scheds := rfl
@[simp] theorem modGroup_gangs (s : State) (u : Nat) (f : DieGroup → DieGroup) : (modGroup s u f).gangs = s.gangs := rfl
@[simp] theorem modGroup_blocks (s : State) (u : Nat) (f : DieGroup → DieGroup) : (modGroup s u f).blocks = s.blocks := rfl
@[simp] theorem modGroup_launches (s : State) (u : Nat) (f : DieGroup → DieGroup) : (modGroup s u f).launches = s.launches := rfl
@[simp] theorem modGroup_mailboxes (s : State) (u : Nat) (f : DieGroup → DieGroup) : (modGroup s u f).mailboxes = s.mailboxes := rfl
@[simp] theorem modGroup_pend (s : State) (u : Nat) (f : DieGroup → DieGroup) : (modGroup s u f).pend = s.pend := rfl
@[simp] theorem modGroup_samples (s : State) (u : Nat) (f : DieGroup → DieGroup) : (modGroup s u f).samples = s.samples := rfl
@[simp] theorem modGroup_through (s : State) (u : Nat) (f : DieGroup → DieGroup) : (modGroup s u f).through = s.through := rfl
@[simp] theorem modGroup_nts (s : State) (u : Nat) (f : DieGroup → DieGroup) : (modGroup s u f).nts = s.nts := rfl
@[simp] theorem modGroup_wrote (s : State) (u : Nat) (f : DieGroup → DieGroup) : (modGroup s u f).wrote = s.wrote := rfl
@[simp] theorem modGroup_tasks (s : State) (u : Nat) (f : DieGroup → DieGroup) : (modGroup s u f).tasks = s.tasks := rfl
@[simp] theorem modGroup_chains (s : State) (u : Nat) (f : DieGroup → DieGroup) : (modGroup s u f).chains = s.chains := rfl
@[simp] theorem modGroup_jobs (s : State) (u : Nat) (f : DieGroup → DieGroup) : (modGroup s u f).jobs = s.jobs := rfl
@[simp] theorem modGroup_kernels (s : State) (u : Nat) (f : DieGroup → DieGroup) : (modGroup s u f).kernels = s.kernels := rfl
@[simp] theorem modGroup_queues (s : State) (u : Nat) (f : DieGroup → DieGroup) : (modGroup s u f).queues = s.queues := rfl
@[simp] theorem modGroup_contexts (s : State) (u : Nat) (f : DieGroup → DieGroup) : (modGroup s u f).contexts = s.contexts := rfl
@[simp] theorem modGroup_saved (s : State) (u : Nat) (f : DieGroup → DieGroup) : (modGroup s u f).saved = s.saved := rfl
@[simp] theorem modGroup_nextCtx (s : State) (u : Nat) (f : DieGroup → DieGroup) : (modGroup s u f).nextCtx = s.nextCtx := rfl
@[simp] theorem modGroup_nextQueue (s : State) (u : Nat) (f : DieGroup → DieGroup) : (modGroup s u f).nextQueue = s.nextQueue := rfl
@[simp] theorem modGroup_migrations (s : State) (u : Nat) (f : DieGroup → DieGroup) : (modGroup s u f).migrations = s.migrations := rfl
@[simp] theorem modGroup_shoots (s : State) (u : Nat) (f : DieGroup → DieGroup) : (modGroup s u f).shoots = s.shoots := rfl
@[simp] theorem modGroup_links (s : State) (u : Nat) (f : DieGroup → DieGroup) : (modGroup s u f).links = s.links := rfl
@[simp] theorem modGroup_rwins (s : State) (u : Nat) (f : DieGroup → DieGroup) : (modGroup s u f).rwins = s.rwins := rfl
@[simp] theorem modGroup_redRounds (s : State) (u : Nat) (f : DieGroup → DieGroup) : (modGroup s u f).redRounds = s.redRounds := rfl
@[simp] theorem modGroup_guest (s : State) (u : Nat) (f : DieGroup → DieGroup) : (modGroup s u f).guest = s.guest := rfl
@[simp] theorem modGroup_admin (s : State) (u : Nat) (f : DieGroup → DieGroup) : (modGroup s u f).admin = s.admin := rfl
@[simp] theorem modGroup_health (s : State) (u : Nat) (f : DieGroup → DieGroup) : (modGroup s u f).health = s.health := rfl
@[simp] theorem modGroup_healthLoss (s : State) (u : Nat) (f : DieGroup → DieGroup) : (modGroup s u f).healthLoss = s.healthLoss := rfl
@[simp] theorem modGroup_measure (s : State) (u : Nat) (f : DieGroup → DieGroup) : (modGroup s u f).measure = s.measure := rfl
@[simp] theorem modGroup_fuseVer (s : State) (u : Nat) (f : DieGroup → DieGroup) : (modGroup s u f).fuseVer = s.fuseVer := rfl
@[simp] theorem modGroup_firmware (s : State) (u : Nat) (f : DieGroup → DieGroup) : (modGroup s u f).firmware = s.firmware := rfl
@[simp] theorem modGroup_lost (s : State) (u : Nat) (f : DieGroup → DieGroup) : (modGroup s u f).lost = s.lost := rfl
@[simp] theorem modGroup_generation (s : State) (u : Nat) (f : DieGroup → DieGroup) : (modGroup s u f).generation = s.generation := rfl
@[simp] theorem modGroup_powerCap (s : State) (u : Nat) (f : DieGroup → DieGroup) : (modGroup s u f).powerCap = s.powerCap := rfl
@[simp] theorem modGroup_hot (s : State) (u : Nat) (f : DieGroup → DieGroup) : (modGroup s u f).hot = s.hot := rfl
@[simp] theorem modGroup_scrub (s : State) (u : Nat) (f : DieGroup → DieGroup) : (modGroup s u f).scrub = s.scrub := rfl
@[simp] theorem modGroup_interrupts (s : State) (u : Nat) (f : DieGroup → DieGroup) : (modGroup s u f).interrupts = s.interrupts := rfl
@[simp] theorem modGroup_sideband (s : State) (u : Nat) (f : DieGroup → DieGroup) : (modGroup s u f).sideband = s.sideband := rfl
@[simp] theorem modGroup_cxlReads (s : State) (u : Nat) (f : DieGroup → DieGroup) : (modGroup s u f).cxlReads = s.cxlReads := rfl
@[simp] theorem modGroup_pageReads (s : State) (u : Nat) (f : DieGroup → DieGroup) : (modGroup s u f).pageReads = s.pageReads := rfl
@[simp] theorem modGroup_imaged (s : State) (u : Nat) (f : DieGroup → DieGroup) : (modGroup s u f).imaged = s.imaged := rfl
@[simp] theorem modGroup_form (s : State) (u : Nat) (f : DieGroup → DieGroup) : (modGroup s u f).form = s.form := rfl
@[simp] theorem modGroup_hostHoles (s : State) (u : Nat) (f : DieGroup → DieGroup) : (modGroup s u f).hostHoles = s.hostHoles := rfl
@[simp] theorem modGroup_deviceLost (s : State) (u : Nat) (f : DieGroup → DieGroup) : (modGroup s u f).deviceLost = s.deviceLost := rfl
@[simp] theorem modGroup_strapFault (s : State) (u : Nat) (f : DieGroup → DieGroup) : (modGroup s u f).strapFault = s.strapFault := rfl

@[simp] theorem modLaunch_tick (s : State) (u : Nat) (f : Launch → Launch) : (modLaunch s u f).tick = s.tick := rfl
@[simp] theorem modLaunch_agenda (s : State) (u : Nat) (f : Launch → Launch) : (modLaunch s u f).agenda = s.agenda := rfl
@[simp] theorem modLaunch_turn (s : State) (u : Nat) (f : Launch → Launch) : (modLaunch s u f).turn = s.turn := rfl
@[simp] theorem modLaunch_cur (s : State) (u : Nat) (f : Launch → Launch) : (modLaunch s u f).cur = s.cur := rfl
@[simp] theorem modLaunch_freeCtr (s : State) (u : Nat) (f : Launch → Launch) : (modLaunch s u f).freeCtr = s.freeCtr := rfl
@[simp] theorem modLaunch_nextOp (s : State) (u : Nat) (f : Launch → Launch) : (modLaunch s u f).nextOp = s.nextOp := rfl
@[simp] theorem modLaunch_nextUid (s : State) (u : Nat) (f : Launch → Launch) : (modLaunch s u f).nextUid = s.nextUid := rfl
@[simp] theorem modLaunch_mem (s : State) (u : Nat) (f : Launch → Launch) : (modLaunch s u f).mem = s.mem := rfl
@[simp] theorem modLaunch_hostMem (s : State) (u : Nat) (f : Launch → Launch) : (modLaunch s u f).hostMem = s.hostMem := rfl
@[simp] theorem modLaunch_poison (s : State) (u : Nat) (f : Launch → Launch) : (modLaunch s u f).poison = s.poison := rfl
@[simp] theorem modLaunch_homePages (s : State) (u : Nat) (f : Launch → Launch) : (modLaunch s u f).homePages = s.homePages := rfl
@[simp] theorem modLaunch_stamps (s : State) (u : Nat) (f : Launch → Launch) : (modLaunch s u f).stamps = s.stamps := rfl
@[simp] theorem modLaunch_unfolded (s : State) (u : Nat) (f : Launch → Launch) : (modLaunch s u f).unfolded = s.unfolded := rfl
@[simp] theorem modLaunch_msgs (s : State) (u : Nat) (f : Launch → Launch) : (modLaunch s u f).msgs = s.msgs := rfl
@[simp] theorem modLaunch_fwds (s : State) (u : Nat) (f : Launch → Launch) : (modLaunch s u f).fwds = s.fwds := rfl
@[simp] theorem modLaunch_owed (s : State) (u : Nat) (f : Launch → Launch) : (modLaunch s u f).owed = s.owed := rfl
@[simp] theorem modLaunch_dies (s : State) (u : Nat) (f : Launch → Launch) : (modLaunch s u f).dies = s.dies := rfl
@[simp] theorem modLaunch_cores (s : State) (u : Nat) (f : Launch → Launch) : (modLaunch s u f).cores = s.cores := rfl
@[simp] theorem modLaunch_clusters (s : State) (u : Nat) (f : Launch → Launch) : (modLaunch s u f).clusters = s.clusters := rfl
@[simp] theorem modLaunch_scheds (s : State) (u : Nat) (f : Launch → Launch) : (modLaunch s u f).scheds = s.scheds := rfl
@[simp] theorem modLaunch_gangs (s : State) (u : Nat) (f : Launch → Launch) : (modLaunch s u f).gangs = s.gangs := rfl
@[simp] theorem modLaunch_blocks (s : State) (u : Nat) (f : Launch → Launch) : (modLaunch s u f).blocks = s.blocks := rfl
@[simp] theorem modLaunch_groups (s : State) (u : Nat) (f : Launch → Launch) : (modLaunch s u f).groups = s.groups := rfl
@[simp] theorem modLaunch_mailboxes (s : State) (u : Nat) (f : Launch → Launch) : (modLaunch s u f).mailboxes = s.mailboxes := rfl
@[simp] theorem modLaunch_pend (s : State) (u : Nat) (f : Launch → Launch) : (modLaunch s u f).pend = s.pend := rfl
@[simp] theorem modLaunch_samples (s : State) (u : Nat) (f : Launch → Launch) : (modLaunch s u f).samples = s.samples := rfl
@[simp] theorem modLaunch_through (s : State) (u : Nat) (f : Launch → Launch) : (modLaunch s u f).through = s.through := rfl
@[simp] theorem modLaunch_nts (s : State) (u : Nat) (f : Launch → Launch) : (modLaunch s u f).nts = s.nts := rfl
@[simp] theorem modLaunch_wrote (s : State) (u : Nat) (f : Launch → Launch) : (modLaunch s u f).wrote = s.wrote := rfl
@[simp] theorem modLaunch_tasks (s : State) (u : Nat) (f : Launch → Launch) : (modLaunch s u f).tasks = s.tasks := rfl
@[simp] theorem modLaunch_chains (s : State) (u : Nat) (f : Launch → Launch) : (modLaunch s u f).chains = s.chains := rfl
@[simp] theorem modLaunch_jobs (s : State) (u : Nat) (f : Launch → Launch) : (modLaunch s u f).jobs = s.jobs := rfl
@[simp] theorem modLaunch_kernels (s : State) (u : Nat) (f : Launch → Launch) : (modLaunch s u f).kernels = s.kernels := rfl
@[simp] theorem modLaunch_queues (s : State) (u : Nat) (f : Launch → Launch) : (modLaunch s u f).queues = s.queues := rfl
@[simp] theorem modLaunch_contexts (s : State) (u : Nat) (f : Launch → Launch) : (modLaunch s u f).contexts = s.contexts := rfl
@[simp] theorem modLaunch_saved (s : State) (u : Nat) (f : Launch → Launch) : (modLaunch s u f).saved = s.saved := rfl
@[simp] theorem modLaunch_nextCtx (s : State) (u : Nat) (f : Launch → Launch) : (modLaunch s u f).nextCtx = s.nextCtx := rfl
@[simp] theorem modLaunch_nextQueue (s : State) (u : Nat) (f : Launch → Launch) : (modLaunch s u f).nextQueue = s.nextQueue := rfl
@[simp] theorem modLaunch_migrations (s : State) (u : Nat) (f : Launch → Launch) : (modLaunch s u f).migrations = s.migrations := rfl
@[simp] theorem modLaunch_shoots (s : State) (u : Nat) (f : Launch → Launch) : (modLaunch s u f).shoots = s.shoots := rfl
@[simp] theorem modLaunch_links (s : State) (u : Nat) (f : Launch → Launch) : (modLaunch s u f).links = s.links := rfl
@[simp] theorem modLaunch_rwins (s : State) (u : Nat) (f : Launch → Launch) : (modLaunch s u f).rwins = s.rwins := rfl
@[simp] theorem modLaunch_redRounds (s : State) (u : Nat) (f : Launch → Launch) : (modLaunch s u f).redRounds = s.redRounds := rfl
@[simp] theorem modLaunch_guest (s : State) (u : Nat) (f : Launch → Launch) : (modLaunch s u f).guest = s.guest := rfl
@[simp] theorem modLaunch_admin (s : State) (u : Nat) (f : Launch → Launch) : (modLaunch s u f).admin = s.admin := rfl
@[simp] theorem modLaunch_health (s : State) (u : Nat) (f : Launch → Launch) : (modLaunch s u f).health = s.health := rfl
@[simp] theorem modLaunch_healthLoss (s : State) (u : Nat) (f : Launch → Launch) : (modLaunch s u f).healthLoss = s.healthLoss := rfl
@[simp] theorem modLaunch_measure (s : State) (u : Nat) (f : Launch → Launch) : (modLaunch s u f).measure = s.measure := rfl
@[simp] theorem modLaunch_fuseVer (s : State) (u : Nat) (f : Launch → Launch) : (modLaunch s u f).fuseVer = s.fuseVer := rfl
@[simp] theorem modLaunch_firmware (s : State) (u : Nat) (f : Launch → Launch) : (modLaunch s u f).firmware = s.firmware := rfl
@[simp] theorem modLaunch_lost (s : State) (u : Nat) (f : Launch → Launch) : (modLaunch s u f).lost = s.lost := rfl
@[simp] theorem modLaunch_generation (s : State) (u : Nat) (f : Launch → Launch) : (modLaunch s u f).generation = s.generation := rfl
@[simp] theorem modLaunch_powerCap (s : State) (u : Nat) (f : Launch → Launch) : (modLaunch s u f).powerCap = s.powerCap := rfl
@[simp] theorem modLaunch_hot (s : State) (u : Nat) (f : Launch → Launch) : (modLaunch s u f).hot = s.hot := rfl
@[simp] theorem modLaunch_scrub (s : State) (u : Nat) (f : Launch → Launch) : (modLaunch s u f).scrub = s.scrub := rfl
@[simp] theorem modLaunch_interrupts (s : State) (u : Nat) (f : Launch → Launch) : (modLaunch s u f).interrupts = s.interrupts := rfl
@[simp] theorem modLaunch_sideband (s : State) (u : Nat) (f : Launch → Launch) : (modLaunch s u f).sideband = s.sideband := rfl
@[simp] theorem modLaunch_cxlReads (s : State) (u : Nat) (f : Launch → Launch) : (modLaunch s u f).cxlReads = s.cxlReads := rfl
@[simp] theorem modLaunch_pageReads (s : State) (u : Nat) (f : Launch → Launch) : (modLaunch s u f).pageReads = s.pageReads := rfl
@[simp] theorem modLaunch_imaged (s : State) (u : Nat) (f : Launch → Launch) : (modLaunch s u f).imaged = s.imaged := rfl
@[simp] theorem modLaunch_form (s : State) (u : Nat) (f : Launch → Launch) : (modLaunch s u f).form = s.form := rfl
@[simp] theorem modLaunch_hostHoles (s : State) (u : Nat) (f : Launch → Launch) : (modLaunch s u f).hostHoles = s.hostHoles := rfl
@[simp] theorem modLaunch_deviceLost (s : State) (u : Nat) (f : Launch → Launch) : (modLaunch s u f).deviceLost = s.deviceLost := rfl
@[simp] theorem modLaunch_strapFault (s : State) (u : Nat) (f : Launch → Launch) : (modLaunch s u f).strapFault = s.strapFault := rfl

@[simp] theorem modContext_tick (s : State) (n : Nat) (f : Context → Context) : (modContext s n f).tick = s.tick := rfl
@[simp] theorem modContext_agenda (s : State) (n : Nat) (f : Context → Context) : (modContext s n f).agenda = s.agenda := rfl
@[simp] theorem modContext_turn (s : State) (n : Nat) (f : Context → Context) : (modContext s n f).turn = s.turn := rfl
@[simp] theorem modContext_cur (s : State) (n : Nat) (f : Context → Context) : (modContext s n f).cur = s.cur := rfl
@[simp] theorem modContext_freeCtr (s : State) (n : Nat) (f : Context → Context) : (modContext s n f).freeCtr = s.freeCtr := rfl
@[simp] theorem modContext_nextOp (s : State) (n : Nat) (f : Context → Context) : (modContext s n f).nextOp = s.nextOp := rfl
@[simp] theorem modContext_nextUid (s : State) (n : Nat) (f : Context → Context) : (modContext s n f).nextUid = s.nextUid := rfl
@[simp] theorem modContext_mem (s : State) (n : Nat) (f : Context → Context) : (modContext s n f).mem = s.mem := rfl
@[simp] theorem modContext_hostMem (s : State) (n : Nat) (f : Context → Context) : (modContext s n f).hostMem = s.hostMem := rfl
@[simp] theorem modContext_poison (s : State) (n : Nat) (f : Context → Context) : (modContext s n f).poison = s.poison := rfl
@[simp] theorem modContext_homePages (s : State) (n : Nat) (f : Context → Context) : (modContext s n f).homePages = s.homePages := rfl
@[simp] theorem modContext_stamps (s : State) (n : Nat) (f : Context → Context) : (modContext s n f).stamps = s.stamps := rfl
@[simp] theorem modContext_unfolded (s : State) (n : Nat) (f : Context → Context) : (modContext s n f).unfolded = s.unfolded := rfl
@[simp] theorem modContext_msgs (s : State) (n : Nat) (f : Context → Context) : (modContext s n f).msgs = s.msgs := rfl
@[simp] theorem modContext_fwds (s : State) (n : Nat) (f : Context → Context) : (modContext s n f).fwds = s.fwds := rfl
@[simp] theorem modContext_owed (s : State) (n : Nat) (f : Context → Context) : (modContext s n f).owed = s.owed := rfl
@[simp] theorem modContext_dies (s : State) (n : Nat) (f : Context → Context) : (modContext s n f).dies = s.dies := rfl
@[simp] theorem modContext_cores (s : State) (n : Nat) (f : Context → Context) : (modContext s n f).cores = s.cores := rfl
@[simp] theorem modContext_clusters (s : State) (n : Nat) (f : Context → Context) : (modContext s n f).clusters = s.clusters := rfl
@[simp] theorem modContext_scheds (s : State) (n : Nat) (f : Context → Context) : (modContext s n f).scheds = s.scheds := rfl
@[simp] theorem modContext_gangs (s : State) (n : Nat) (f : Context → Context) : (modContext s n f).gangs = s.gangs := rfl
@[simp] theorem modContext_blocks (s : State) (n : Nat) (f : Context → Context) : (modContext s n f).blocks = s.blocks := rfl
@[simp] theorem modContext_groups (s : State) (n : Nat) (f : Context → Context) : (modContext s n f).groups = s.groups := rfl
@[simp] theorem modContext_launches (s : State) (n : Nat) (f : Context → Context) : (modContext s n f).launches = s.launches := rfl
@[simp] theorem modContext_mailboxes (s : State) (n : Nat) (f : Context → Context) : (modContext s n f).mailboxes = s.mailboxes := rfl
@[simp] theorem modContext_pend (s : State) (n : Nat) (f : Context → Context) : (modContext s n f).pend = s.pend := rfl
@[simp] theorem modContext_samples (s : State) (n : Nat) (f : Context → Context) : (modContext s n f).samples = s.samples := rfl
@[simp] theorem modContext_through (s : State) (n : Nat) (f : Context → Context) : (modContext s n f).through = s.through := rfl
@[simp] theorem modContext_nts (s : State) (n : Nat) (f : Context → Context) : (modContext s n f).nts = s.nts := rfl
@[simp] theorem modContext_wrote (s : State) (n : Nat) (f : Context → Context) : (modContext s n f).wrote = s.wrote := rfl
@[simp] theorem modContext_tasks (s : State) (n : Nat) (f : Context → Context) : (modContext s n f).tasks = s.tasks := rfl
@[simp] theorem modContext_chains (s : State) (n : Nat) (f : Context → Context) : (modContext s n f).chains = s.chains := rfl
@[simp] theorem modContext_jobs (s : State) (n : Nat) (f : Context → Context) : (modContext s n f).jobs = s.jobs := rfl
@[simp] theorem modContext_kernels (s : State) (n : Nat) (f : Context → Context) : (modContext s n f).kernels = s.kernels := rfl
@[simp] theorem modContext_queues (s : State) (n : Nat) (f : Context → Context) : (modContext s n f).queues = s.queues := rfl
@[simp] theorem modContext_saved (s : State) (n : Nat) (f : Context → Context) : (modContext s n f).saved = s.saved := rfl
@[simp] theorem modContext_nextCtx (s : State) (n : Nat) (f : Context → Context) : (modContext s n f).nextCtx = s.nextCtx := rfl
@[simp] theorem modContext_nextQueue (s : State) (n : Nat) (f : Context → Context) : (modContext s n f).nextQueue = s.nextQueue := rfl
@[simp] theorem modContext_migrations (s : State) (n : Nat) (f : Context → Context) : (modContext s n f).migrations = s.migrations := rfl
@[simp] theorem modContext_shoots (s : State) (n : Nat) (f : Context → Context) : (modContext s n f).shoots = s.shoots := rfl
@[simp] theorem modContext_links (s : State) (n : Nat) (f : Context → Context) : (modContext s n f).links = s.links := rfl
@[simp] theorem modContext_rwins (s : State) (n : Nat) (f : Context → Context) : (modContext s n f).rwins = s.rwins := rfl
@[simp] theorem modContext_redRounds (s : State) (n : Nat) (f : Context → Context) : (modContext s n f).redRounds = s.redRounds := rfl
@[simp] theorem modContext_guest (s : State) (n : Nat) (f : Context → Context) : (modContext s n f).guest = s.guest := rfl
@[simp] theorem modContext_admin (s : State) (n : Nat) (f : Context → Context) : (modContext s n f).admin = s.admin := rfl
@[simp] theorem modContext_health (s : State) (n : Nat) (f : Context → Context) : (modContext s n f).health = s.health := rfl
@[simp] theorem modContext_healthLoss (s : State) (n : Nat) (f : Context → Context) : (modContext s n f).healthLoss = s.healthLoss := rfl
@[simp] theorem modContext_measure (s : State) (n : Nat) (f : Context → Context) : (modContext s n f).measure = s.measure := rfl
@[simp] theorem modContext_fuseVer (s : State) (n : Nat) (f : Context → Context) : (modContext s n f).fuseVer = s.fuseVer := rfl
@[simp] theorem modContext_firmware (s : State) (n : Nat) (f : Context → Context) : (modContext s n f).firmware = s.firmware := rfl
@[simp] theorem modContext_lost (s : State) (n : Nat) (f : Context → Context) : (modContext s n f).lost = s.lost := rfl
@[simp] theorem modContext_generation (s : State) (n : Nat) (f : Context → Context) : (modContext s n f).generation = s.generation := rfl
@[simp] theorem modContext_powerCap (s : State) (n : Nat) (f : Context → Context) : (modContext s n f).powerCap = s.powerCap := rfl
@[simp] theorem modContext_hot (s : State) (n : Nat) (f : Context → Context) : (modContext s n f).hot = s.hot := rfl
@[simp] theorem modContext_scrub (s : State) (n : Nat) (f : Context → Context) : (modContext s n f).scrub = s.scrub := rfl
@[simp] theorem modContext_interrupts (s : State) (n : Nat) (f : Context → Context) : (modContext s n f).interrupts = s.interrupts := rfl
@[simp] theorem modContext_sideband (s : State) (n : Nat) (f : Context → Context) : (modContext s n f).sideband = s.sideband := rfl
@[simp] theorem modContext_cxlReads (s : State) (n : Nat) (f : Context → Context) : (modContext s n f).cxlReads = s.cxlReads := rfl
@[simp] theorem modContext_pageReads (s : State) (n : Nat) (f : Context → Context) : (modContext s n f).pageReads = s.pageReads := rfl
@[simp] theorem modContext_imaged (s : State) (n : Nat) (f : Context → Context) : (modContext s n f).imaged = s.imaged := rfl
@[simp] theorem modContext_form (s : State) (n : Nat) (f : Context → Context) : (modContext s n f).form = s.form := rfl
@[simp] theorem modContext_hostHoles (s : State) (n : Nat) (f : Context → Context) : (modContext s n f).hostHoles = s.hostHoles := rfl
@[simp] theorem modContext_deviceLost (s : State) (n : Nat) (f : Context → Context) : (modContext s n f).deviceLost = s.deviceLost := rfl
@[simp] theorem modContext_strapFault (s : State) (n : Nat) (f : Context → Context) : (modContext s n f).strapFault = s.strapFault := rfl

@[simp] theorem modQueue_tick (s : State) (n : Nat) (f : Queue → Queue) : (modQueue s n f).tick = s.tick := rfl
@[simp] theorem modQueue_agenda (s : State) (n : Nat) (f : Queue → Queue) : (modQueue s n f).agenda = s.agenda := rfl
@[simp] theorem modQueue_turn (s : State) (n : Nat) (f : Queue → Queue) : (modQueue s n f).turn = s.turn := rfl
@[simp] theorem modQueue_cur (s : State) (n : Nat) (f : Queue → Queue) : (modQueue s n f).cur = s.cur := rfl
@[simp] theorem modQueue_freeCtr (s : State) (n : Nat) (f : Queue → Queue) : (modQueue s n f).freeCtr = s.freeCtr := rfl
@[simp] theorem modQueue_nextOp (s : State) (n : Nat) (f : Queue → Queue) : (modQueue s n f).nextOp = s.nextOp := rfl
@[simp] theorem modQueue_nextUid (s : State) (n : Nat) (f : Queue → Queue) : (modQueue s n f).nextUid = s.nextUid := rfl
@[simp] theorem modQueue_mem (s : State) (n : Nat) (f : Queue → Queue) : (modQueue s n f).mem = s.mem := rfl
@[simp] theorem modQueue_hostMem (s : State) (n : Nat) (f : Queue → Queue) : (modQueue s n f).hostMem = s.hostMem := rfl
@[simp] theorem modQueue_poison (s : State) (n : Nat) (f : Queue → Queue) : (modQueue s n f).poison = s.poison := rfl
@[simp] theorem modQueue_homePages (s : State) (n : Nat) (f : Queue → Queue) : (modQueue s n f).homePages = s.homePages := rfl
@[simp] theorem modQueue_stamps (s : State) (n : Nat) (f : Queue → Queue) : (modQueue s n f).stamps = s.stamps := rfl
@[simp] theorem modQueue_unfolded (s : State) (n : Nat) (f : Queue → Queue) : (modQueue s n f).unfolded = s.unfolded := rfl
@[simp] theorem modQueue_msgs (s : State) (n : Nat) (f : Queue → Queue) : (modQueue s n f).msgs = s.msgs := rfl
@[simp] theorem modQueue_fwds (s : State) (n : Nat) (f : Queue → Queue) : (modQueue s n f).fwds = s.fwds := rfl
@[simp] theorem modQueue_owed (s : State) (n : Nat) (f : Queue → Queue) : (modQueue s n f).owed = s.owed := rfl
@[simp] theorem modQueue_dies (s : State) (n : Nat) (f : Queue → Queue) : (modQueue s n f).dies = s.dies := rfl
@[simp] theorem modQueue_cores (s : State) (n : Nat) (f : Queue → Queue) : (modQueue s n f).cores = s.cores := rfl
@[simp] theorem modQueue_clusters (s : State) (n : Nat) (f : Queue → Queue) : (modQueue s n f).clusters = s.clusters := rfl
@[simp] theorem modQueue_scheds (s : State) (n : Nat) (f : Queue → Queue) : (modQueue s n f).scheds = s.scheds := rfl
@[simp] theorem modQueue_gangs (s : State) (n : Nat) (f : Queue → Queue) : (modQueue s n f).gangs = s.gangs := rfl
@[simp] theorem modQueue_blocks (s : State) (n : Nat) (f : Queue → Queue) : (modQueue s n f).blocks = s.blocks := rfl
@[simp] theorem modQueue_groups (s : State) (n : Nat) (f : Queue → Queue) : (modQueue s n f).groups = s.groups := rfl
@[simp] theorem modQueue_launches (s : State) (n : Nat) (f : Queue → Queue) : (modQueue s n f).launches = s.launches := rfl
@[simp] theorem modQueue_mailboxes (s : State) (n : Nat) (f : Queue → Queue) : (modQueue s n f).mailboxes = s.mailboxes := rfl
@[simp] theorem modQueue_pend (s : State) (n : Nat) (f : Queue → Queue) : (modQueue s n f).pend = s.pend := rfl
@[simp] theorem modQueue_samples (s : State) (n : Nat) (f : Queue → Queue) : (modQueue s n f).samples = s.samples := rfl
@[simp] theorem modQueue_through (s : State) (n : Nat) (f : Queue → Queue) : (modQueue s n f).through = s.through := rfl
@[simp] theorem modQueue_nts (s : State) (n : Nat) (f : Queue → Queue) : (modQueue s n f).nts = s.nts := rfl
@[simp] theorem modQueue_wrote (s : State) (n : Nat) (f : Queue → Queue) : (modQueue s n f).wrote = s.wrote := rfl
@[simp] theorem modQueue_tasks (s : State) (n : Nat) (f : Queue → Queue) : (modQueue s n f).tasks = s.tasks := rfl
@[simp] theorem modQueue_chains (s : State) (n : Nat) (f : Queue → Queue) : (modQueue s n f).chains = s.chains := rfl
@[simp] theorem modQueue_jobs (s : State) (n : Nat) (f : Queue → Queue) : (modQueue s n f).jobs = s.jobs := rfl
@[simp] theorem modQueue_kernels (s : State) (n : Nat) (f : Queue → Queue) : (modQueue s n f).kernels = s.kernels := rfl
@[simp] theorem modQueue_contexts (s : State) (n : Nat) (f : Queue → Queue) : (modQueue s n f).contexts = s.contexts := rfl
@[simp] theorem modQueue_saved (s : State) (n : Nat) (f : Queue → Queue) : (modQueue s n f).saved = s.saved := rfl
@[simp] theorem modQueue_nextCtx (s : State) (n : Nat) (f : Queue → Queue) : (modQueue s n f).nextCtx = s.nextCtx := rfl
@[simp] theorem modQueue_nextQueue (s : State) (n : Nat) (f : Queue → Queue) : (modQueue s n f).nextQueue = s.nextQueue := rfl
@[simp] theorem modQueue_migrations (s : State) (n : Nat) (f : Queue → Queue) : (modQueue s n f).migrations = s.migrations := rfl
@[simp] theorem modQueue_shoots (s : State) (n : Nat) (f : Queue → Queue) : (modQueue s n f).shoots = s.shoots := rfl
@[simp] theorem modQueue_links (s : State) (n : Nat) (f : Queue → Queue) : (modQueue s n f).links = s.links := rfl
@[simp] theorem modQueue_rwins (s : State) (n : Nat) (f : Queue → Queue) : (modQueue s n f).rwins = s.rwins := rfl
@[simp] theorem modQueue_redRounds (s : State) (n : Nat) (f : Queue → Queue) : (modQueue s n f).redRounds = s.redRounds := rfl
@[simp] theorem modQueue_guest (s : State) (n : Nat) (f : Queue → Queue) : (modQueue s n f).guest = s.guest := rfl
@[simp] theorem modQueue_admin (s : State) (n : Nat) (f : Queue → Queue) : (modQueue s n f).admin = s.admin := rfl
@[simp] theorem modQueue_health (s : State) (n : Nat) (f : Queue → Queue) : (modQueue s n f).health = s.health := rfl
@[simp] theorem modQueue_healthLoss (s : State) (n : Nat) (f : Queue → Queue) : (modQueue s n f).healthLoss = s.healthLoss := rfl
@[simp] theorem modQueue_measure (s : State) (n : Nat) (f : Queue → Queue) : (modQueue s n f).measure = s.measure := rfl
@[simp] theorem modQueue_fuseVer (s : State) (n : Nat) (f : Queue → Queue) : (modQueue s n f).fuseVer = s.fuseVer := rfl
@[simp] theorem modQueue_firmware (s : State) (n : Nat) (f : Queue → Queue) : (modQueue s n f).firmware = s.firmware := rfl
@[simp] theorem modQueue_lost (s : State) (n : Nat) (f : Queue → Queue) : (modQueue s n f).lost = s.lost := rfl
@[simp] theorem modQueue_generation (s : State) (n : Nat) (f : Queue → Queue) : (modQueue s n f).generation = s.generation := rfl
@[simp] theorem modQueue_powerCap (s : State) (n : Nat) (f : Queue → Queue) : (modQueue s n f).powerCap = s.powerCap := rfl
@[simp] theorem modQueue_hot (s : State) (n : Nat) (f : Queue → Queue) : (modQueue s n f).hot = s.hot := rfl
@[simp] theorem modQueue_scrub (s : State) (n : Nat) (f : Queue → Queue) : (modQueue s n f).scrub = s.scrub := rfl
@[simp] theorem modQueue_interrupts (s : State) (n : Nat) (f : Queue → Queue) : (modQueue s n f).interrupts = s.interrupts := rfl
@[simp] theorem modQueue_sideband (s : State) (n : Nat) (f : Queue → Queue) : (modQueue s n f).sideband = s.sideband := rfl
@[simp] theorem modQueue_cxlReads (s : State) (n : Nat) (f : Queue → Queue) : (modQueue s n f).cxlReads = s.cxlReads := rfl
@[simp] theorem modQueue_pageReads (s : State) (n : Nat) (f : Queue → Queue) : (modQueue s n f).pageReads = s.pageReads := rfl
@[simp] theorem modQueue_imaged (s : State) (n : Nat) (f : Queue → Queue) : (modQueue s n f).imaged = s.imaged := rfl
@[simp] theorem modQueue_form (s : State) (n : Nat) (f : Queue → Queue) : (modQueue s n f).form = s.form := rfl
@[simp] theorem modQueue_hostHoles (s : State) (n : Nat) (f : Queue → Queue) : (modQueue s n f).hostHoles = s.hostHoles := rfl
@[simp] theorem modQueue_deviceLost (s : State) (n : Nat) (f : Queue → Queue) : (modQueue s n f).deviceLost = s.deviceLost := rfl
@[simp] theorem modQueue_strapFault (s : State) (n : Nat) (f : Queue → Queue) : (modQueue s n f).strapFault = s.strapFault := rfl

@[simp] theorem modPend_tick (s : State) (n : Nat) (f : Pend → Pend) : (modPend s n f).tick = s.tick := rfl
@[simp] theorem modPend_agenda (s : State) (n : Nat) (f : Pend → Pend) : (modPend s n f).agenda = s.agenda := rfl
@[simp] theorem modPend_turn (s : State) (n : Nat) (f : Pend → Pend) : (modPend s n f).turn = s.turn := rfl
@[simp] theorem modPend_cur (s : State) (n : Nat) (f : Pend → Pend) : (modPend s n f).cur = s.cur := rfl
@[simp] theorem modPend_freeCtr (s : State) (n : Nat) (f : Pend → Pend) : (modPend s n f).freeCtr = s.freeCtr := rfl
@[simp] theorem modPend_nextOp (s : State) (n : Nat) (f : Pend → Pend) : (modPend s n f).nextOp = s.nextOp := rfl
@[simp] theorem modPend_nextUid (s : State) (n : Nat) (f : Pend → Pend) : (modPend s n f).nextUid = s.nextUid := rfl
@[simp] theorem modPend_mem (s : State) (n : Nat) (f : Pend → Pend) : (modPend s n f).mem = s.mem := rfl
@[simp] theorem modPend_hostMem (s : State) (n : Nat) (f : Pend → Pend) : (modPend s n f).hostMem = s.hostMem := rfl
@[simp] theorem modPend_poison (s : State) (n : Nat) (f : Pend → Pend) : (modPend s n f).poison = s.poison := rfl
@[simp] theorem modPend_homePages (s : State) (n : Nat) (f : Pend → Pend) : (modPend s n f).homePages = s.homePages := rfl
@[simp] theorem modPend_stamps (s : State) (n : Nat) (f : Pend → Pend) : (modPend s n f).stamps = s.stamps := rfl
@[simp] theorem modPend_unfolded (s : State) (n : Nat) (f : Pend → Pend) : (modPend s n f).unfolded = s.unfolded := rfl
@[simp] theorem modPend_msgs (s : State) (n : Nat) (f : Pend → Pend) : (modPend s n f).msgs = s.msgs := rfl
@[simp] theorem modPend_fwds (s : State) (n : Nat) (f : Pend → Pend) : (modPend s n f).fwds = s.fwds := rfl
@[simp] theorem modPend_owed (s : State) (n : Nat) (f : Pend → Pend) : (modPend s n f).owed = s.owed := rfl
@[simp] theorem modPend_dies (s : State) (n : Nat) (f : Pend → Pend) : (modPend s n f).dies = s.dies := rfl
@[simp] theorem modPend_cores (s : State) (n : Nat) (f : Pend → Pend) : (modPend s n f).cores = s.cores := rfl
@[simp] theorem modPend_clusters (s : State) (n : Nat) (f : Pend → Pend) : (modPend s n f).clusters = s.clusters := rfl
@[simp] theorem modPend_scheds (s : State) (n : Nat) (f : Pend → Pend) : (modPend s n f).scheds = s.scheds := rfl
@[simp] theorem modPend_gangs (s : State) (n : Nat) (f : Pend → Pend) : (modPend s n f).gangs = s.gangs := rfl
@[simp] theorem modPend_blocks (s : State) (n : Nat) (f : Pend → Pend) : (modPend s n f).blocks = s.blocks := rfl
@[simp] theorem modPend_groups (s : State) (n : Nat) (f : Pend → Pend) : (modPend s n f).groups = s.groups := rfl
@[simp] theorem modPend_launches (s : State) (n : Nat) (f : Pend → Pend) : (modPend s n f).launches = s.launches := rfl
@[simp] theorem modPend_mailboxes (s : State) (n : Nat) (f : Pend → Pend) : (modPend s n f).mailboxes = s.mailboxes := rfl
@[simp] theorem modPend_samples (s : State) (n : Nat) (f : Pend → Pend) : (modPend s n f).samples = s.samples := rfl
@[simp] theorem modPend_through (s : State) (n : Nat) (f : Pend → Pend) : (modPend s n f).through = s.through := rfl
@[simp] theorem modPend_nts (s : State) (n : Nat) (f : Pend → Pend) : (modPend s n f).nts = s.nts := rfl
@[simp] theorem modPend_wrote (s : State) (n : Nat) (f : Pend → Pend) : (modPend s n f).wrote = s.wrote := rfl
@[simp] theorem modPend_tasks (s : State) (n : Nat) (f : Pend → Pend) : (modPend s n f).tasks = s.tasks := rfl
@[simp] theorem modPend_chains (s : State) (n : Nat) (f : Pend → Pend) : (modPend s n f).chains = s.chains := rfl
@[simp] theorem modPend_jobs (s : State) (n : Nat) (f : Pend → Pend) : (modPend s n f).jobs = s.jobs := rfl
@[simp] theorem modPend_kernels (s : State) (n : Nat) (f : Pend → Pend) : (modPend s n f).kernels = s.kernels := rfl
@[simp] theorem modPend_queues (s : State) (n : Nat) (f : Pend → Pend) : (modPend s n f).queues = s.queues := rfl
@[simp] theorem modPend_contexts (s : State) (n : Nat) (f : Pend → Pend) : (modPend s n f).contexts = s.contexts := rfl
@[simp] theorem modPend_saved (s : State) (n : Nat) (f : Pend → Pend) : (modPend s n f).saved = s.saved := rfl
@[simp] theorem modPend_nextCtx (s : State) (n : Nat) (f : Pend → Pend) : (modPend s n f).nextCtx = s.nextCtx := rfl
@[simp] theorem modPend_nextQueue (s : State) (n : Nat) (f : Pend → Pend) : (modPend s n f).nextQueue = s.nextQueue := rfl
@[simp] theorem modPend_migrations (s : State) (n : Nat) (f : Pend → Pend) : (modPend s n f).migrations = s.migrations := rfl
@[simp] theorem modPend_shoots (s : State) (n : Nat) (f : Pend → Pend) : (modPend s n f).shoots = s.shoots := rfl
@[simp] theorem modPend_links (s : State) (n : Nat) (f : Pend → Pend) : (modPend s n f).links = s.links := rfl
@[simp] theorem modPend_rwins (s : State) (n : Nat) (f : Pend → Pend) : (modPend s n f).rwins = s.rwins := rfl
@[simp] theorem modPend_redRounds (s : State) (n : Nat) (f : Pend → Pend) : (modPend s n f).redRounds = s.redRounds := rfl
@[simp] theorem modPend_guest (s : State) (n : Nat) (f : Pend → Pend) : (modPend s n f).guest = s.guest := rfl
@[simp] theorem modPend_admin (s : State) (n : Nat) (f : Pend → Pend) : (modPend s n f).admin = s.admin := rfl
@[simp] theorem modPend_health (s : State) (n : Nat) (f : Pend → Pend) : (modPend s n f).health = s.health := rfl
@[simp] theorem modPend_healthLoss (s : State) (n : Nat) (f : Pend → Pend) : (modPend s n f).healthLoss = s.healthLoss := rfl
@[simp] theorem modPend_measure (s : State) (n : Nat) (f : Pend → Pend) : (modPend s n f).measure = s.measure := rfl
@[simp] theorem modPend_fuseVer (s : State) (n : Nat) (f : Pend → Pend) : (modPend s n f).fuseVer = s.fuseVer := rfl
@[simp] theorem modPend_firmware (s : State) (n : Nat) (f : Pend → Pend) : (modPend s n f).firmware = s.firmware := rfl
@[simp] theorem modPend_lost (s : State) (n : Nat) (f : Pend → Pend) : (modPend s n f).lost = s.lost := rfl
@[simp] theorem modPend_generation (s : State) (n : Nat) (f : Pend → Pend) : (modPend s n f).generation = s.generation := rfl
@[simp] theorem modPend_powerCap (s : State) (n : Nat) (f : Pend → Pend) : (modPend s n f).powerCap = s.powerCap := rfl
@[simp] theorem modPend_hot (s : State) (n : Nat) (f : Pend → Pend) : (modPend s n f).hot = s.hot := rfl
@[simp] theorem modPend_scrub (s : State) (n : Nat) (f : Pend → Pend) : (modPend s n f).scrub = s.scrub := rfl
@[simp] theorem modPend_interrupts (s : State) (n : Nat) (f : Pend → Pend) : (modPend s n f).interrupts = s.interrupts := rfl
@[simp] theorem modPend_sideband (s : State) (n : Nat) (f : Pend → Pend) : (modPend s n f).sideband = s.sideband := rfl
@[simp] theorem modPend_cxlReads (s : State) (n : Nat) (f : Pend → Pend) : (modPend s n f).cxlReads = s.cxlReads := rfl
@[simp] theorem modPend_pageReads (s : State) (n : Nat) (f : Pend → Pend) : (modPend s n f).pageReads = s.pageReads := rfl
@[simp] theorem modPend_imaged (s : State) (n : Nat) (f : Pend → Pend) : (modPend s n f).imaged = s.imaged := rfl
@[simp] theorem modPend_form (s : State) (n : Nat) (f : Pend → Pend) : (modPend s n f).form = s.form := rfl
@[simp] theorem modPend_hostHoles (s : State) (n : Nat) (f : Pend → Pend) : (modPend s n f).hostHoles = s.hostHoles := rfl
@[simp] theorem modPend_deviceLost (s : State) (n : Nat) (f : Pend → Pend) : (modPend s n f).deviceLost = s.deviceLost := rfl
@[simp] theorem modPend_strapFault (s : State) (n : Nat) (f : Pend → Pend) : (modPend s n f).strapFault = s.strapFault := rfl

@[simp] theorem modTask_tick (s : State) (n : Nat) (f : Task → Task) : (modTask s n f).tick = s.tick := rfl
@[simp] theorem modTask_agenda (s : State) (n : Nat) (f : Task → Task) : (modTask s n f).agenda = s.agenda := rfl
@[simp] theorem modTask_turn (s : State) (n : Nat) (f : Task → Task) : (modTask s n f).turn = s.turn := rfl
@[simp] theorem modTask_cur (s : State) (n : Nat) (f : Task → Task) : (modTask s n f).cur = s.cur := rfl
@[simp] theorem modTask_freeCtr (s : State) (n : Nat) (f : Task → Task) : (modTask s n f).freeCtr = s.freeCtr := rfl
@[simp] theorem modTask_nextOp (s : State) (n : Nat) (f : Task → Task) : (modTask s n f).nextOp = s.nextOp := rfl
@[simp] theorem modTask_nextUid (s : State) (n : Nat) (f : Task → Task) : (modTask s n f).nextUid = s.nextUid := rfl
@[simp] theorem modTask_mem (s : State) (n : Nat) (f : Task → Task) : (modTask s n f).mem = s.mem := rfl
@[simp] theorem modTask_hostMem (s : State) (n : Nat) (f : Task → Task) : (modTask s n f).hostMem = s.hostMem := rfl
@[simp] theorem modTask_poison (s : State) (n : Nat) (f : Task → Task) : (modTask s n f).poison = s.poison := rfl
@[simp] theorem modTask_homePages (s : State) (n : Nat) (f : Task → Task) : (modTask s n f).homePages = s.homePages := rfl
@[simp] theorem modTask_stamps (s : State) (n : Nat) (f : Task → Task) : (modTask s n f).stamps = s.stamps := rfl
@[simp] theorem modTask_unfolded (s : State) (n : Nat) (f : Task → Task) : (modTask s n f).unfolded = s.unfolded := rfl
@[simp] theorem modTask_msgs (s : State) (n : Nat) (f : Task → Task) : (modTask s n f).msgs = s.msgs := rfl
@[simp] theorem modTask_fwds (s : State) (n : Nat) (f : Task → Task) : (modTask s n f).fwds = s.fwds := rfl
@[simp] theorem modTask_owed (s : State) (n : Nat) (f : Task → Task) : (modTask s n f).owed = s.owed := rfl
@[simp] theorem modTask_dies (s : State) (n : Nat) (f : Task → Task) : (modTask s n f).dies = s.dies := rfl
@[simp] theorem modTask_cores (s : State) (n : Nat) (f : Task → Task) : (modTask s n f).cores = s.cores := rfl
@[simp] theorem modTask_clusters (s : State) (n : Nat) (f : Task → Task) : (modTask s n f).clusters = s.clusters := rfl
@[simp] theorem modTask_scheds (s : State) (n : Nat) (f : Task → Task) : (modTask s n f).scheds = s.scheds := rfl
@[simp] theorem modTask_gangs (s : State) (n : Nat) (f : Task → Task) : (modTask s n f).gangs = s.gangs := rfl
@[simp] theorem modTask_blocks (s : State) (n : Nat) (f : Task → Task) : (modTask s n f).blocks = s.blocks := rfl
@[simp] theorem modTask_groups (s : State) (n : Nat) (f : Task → Task) : (modTask s n f).groups = s.groups := rfl
@[simp] theorem modTask_launches (s : State) (n : Nat) (f : Task → Task) : (modTask s n f).launches = s.launches := rfl
@[simp] theorem modTask_mailboxes (s : State) (n : Nat) (f : Task → Task) : (modTask s n f).mailboxes = s.mailboxes := rfl
@[simp] theorem modTask_pend (s : State) (n : Nat) (f : Task → Task) : (modTask s n f).pend = s.pend := rfl
@[simp] theorem modTask_samples (s : State) (n : Nat) (f : Task → Task) : (modTask s n f).samples = s.samples := rfl
@[simp] theorem modTask_through (s : State) (n : Nat) (f : Task → Task) : (modTask s n f).through = s.through := rfl
@[simp] theorem modTask_nts (s : State) (n : Nat) (f : Task → Task) : (modTask s n f).nts = s.nts := rfl
@[simp] theorem modTask_wrote (s : State) (n : Nat) (f : Task → Task) : (modTask s n f).wrote = s.wrote := rfl
@[simp] theorem modTask_chains (s : State) (n : Nat) (f : Task → Task) : (modTask s n f).chains = s.chains := rfl
@[simp] theorem modTask_jobs (s : State) (n : Nat) (f : Task → Task) : (modTask s n f).jobs = s.jobs := rfl
@[simp] theorem modTask_kernels (s : State) (n : Nat) (f : Task → Task) : (modTask s n f).kernels = s.kernels := rfl
@[simp] theorem modTask_queues (s : State) (n : Nat) (f : Task → Task) : (modTask s n f).queues = s.queues := rfl
@[simp] theorem modTask_contexts (s : State) (n : Nat) (f : Task → Task) : (modTask s n f).contexts = s.contexts := rfl
@[simp] theorem modTask_saved (s : State) (n : Nat) (f : Task → Task) : (modTask s n f).saved = s.saved := rfl
@[simp] theorem modTask_nextCtx (s : State) (n : Nat) (f : Task → Task) : (modTask s n f).nextCtx = s.nextCtx := rfl
@[simp] theorem modTask_nextQueue (s : State) (n : Nat) (f : Task → Task) : (modTask s n f).nextQueue = s.nextQueue := rfl
@[simp] theorem modTask_migrations (s : State) (n : Nat) (f : Task → Task) : (modTask s n f).migrations = s.migrations := rfl
@[simp] theorem modTask_shoots (s : State) (n : Nat) (f : Task → Task) : (modTask s n f).shoots = s.shoots := rfl
@[simp] theorem modTask_links (s : State) (n : Nat) (f : Task → Task) : (modTask s n f).links = s.links := rfl
@[simp] theorem modTask_rwins (s : State) (n : Nat) (f : Task → Task) : (modTask s n f).rwins = s.rwins := rfl
@[simp] theorem modTask_redRounds (s : State) (n : Nat) (f : Task → Task) : (modTask s n f).redRounds = s.redRounds := rfl
@[simp] theorem modTask_guest (s : State) (n : Nat) (f : Task → Task) : (modTask s n f).guest = s.guest := rfl
@[simp] theorem modTask_admin (s : State) (n : Nat) (f : Task → Task) : (modTask s n f).admin = s.admin := rfl
@[simp] theorem modTask_health (s : State) (n : Nat) (f : Task → Task) : (modTask s n f).health = s.health := rfl
@[simp] theorem modTask_healthLoss (s : State) (n : Nat) (f : Task → Task) : (modTask s n f).healthLoss = s.healthLoss := rfl
@[simp] theorem modTask_measure (s : State) (n : Nat) (f : Task → Task) : (modTask s n f).measure = s.measure := rfl
@[simp] theorem modTask_fuseVer (s : State) (n : Nat) (f : Task → Task) : (modTask s n f).fuseVer = s.fuseVer := rfl
@[simp] theorem modTask_firmware (s : State) (n : Nat) (f : Task → Task) : (modTask s n f).firmware = s.firmware := rfl
@[simp] theorem modTask_lost (s : State) (n : Nat) (f : Task → Task) : (modTask s n f).lost = s.lost := rfl
@[simp] theorem modTask_generation (s : State) (n : Nat) (f : Task → Task) : (modTask s n f).generation = s.generation := rfl
@[simp] theorem modTask_powerCap (s : State) (n : Nat) (f : Task → Task) : (modTask s n f).powerCap = s.powerCap := rfl
@[simp] theorem modTask_hot (s : State) (n : Nat) (f : Task → Task) : (modTask s n f).hot = s.hot := rfl
@[simp] theorem modTask_scrub (s : State) (n : Nat) (f : Task → Task) : (modTask s n f).scrub = s.scrub := rfl
@[simp] theorem modTask_interrupts (s : State) (n : Nat) (f : Task → Task) : (modTask s n f).interrupts = s.interrupts := rfl
@[simp] theorem modTask_sideband (s : State) (n : Nat) (f : Task → Task) : (modTask s n f).sideband = s.sideband := rfl
@[simp] theorem modTask_cxlReads (s : State) (n : Nat) (f : Task → Task) : (modTask s n f).cxlReads = s.cxlReads := rfl
@[simp] theorem modTask_pageReads (s : State) (n : Nat) (f : Task → Task) : (modTask s n f).pageReads = s.pageReads := rfl
@[simp] theorem modTask_imaged (s : State) (n : Nat) (f : Task → Task) : (modTask s n f).imaged = s.imaged := rfl
@[simp] theorem modTask_form (s : State) (n : Nat) (f : Task → Task) : (modTask s n f).form = s.form := rfl
@[simp] theorem modTask_hostHoles (s : State) (n : Nat) (f : Task → Task) : (modTask s n f).hostHoles = s.hostHoles := rfl
@[simp] theorem modTask_deviceLost (s : State) (n : Nat) (f : Task → Task) : (modTask s n f).deviceLost = s.deviceLost := rfl
@[simp] theorem modTask_strapFault (s : State) (n : Nat) (f : Task → Task) : (modTask s n f).strapFault = s.strapFault := rfl

@[simp] theorem modDie_tick (s : State) (d : Nat) (f : Die → Die) : (modDie s d f).tick = s.tick := rfl
@[simp] theorem modDie_agenda (s : State) (d : Nat) (f : Die → Die) : (modDie s d f).agenda = s.agenda := rfl
@[simp] theorem modDie_turn (s : State) (d : Nat) (f : Die → Die) : (modDie s d f).turn = s.turn := rfl
@[simp] theorem modDie_cur (s : State) (d : Nat) (f : Die → Die) : (modDie s d f).cur = s.cur := rfl
@[simp] theorem modDie_freeCtr (s : State) (d : Nat) (f : Die → Die) : (modDie s d f).freeCtr = s.freeCtr := rfl
@[simp] theorem modDie_nextOp (s : State) (d : Nat) (f : Die → Die) : (modDie s d f).nextOp = s.nextOp := rfl
@[simp] theorem modDie_nextUid (s : State) (d : Nat) (f : Die → Die) : (modDie s d f).nextUid = s.nextUid := rfl
@[simp] theorem modDie_mem (s : State) (d : Nat) (f : Die → Die) : (modDie s d f).mem = s.mem := rfl
@[simp] theorem modDie_hostMem (s : State) (d : Nat) (f : Die → Die) : (modDie s d f).hostMem = s.hostMem := rfl
@[simp] theorem modDie_poison (s : State) (d : Nat) (f : Die → Die) : (modDie s d f).poison = s.poison := rfl
@[simp] theorem modDie_homePages (s : State) (d : Nat) (f : Die → Die) : (modDie s d f).homePages = s.homePages := rfl
@[simp] theorem modDie_stamps (s : State) (d : Nat) (f : Die → Die) : (modDie s d f).stamps = s.stamps := rfl
@[simp] theorem modDie_unfolded (s : State) (d : Nat) (f : Die → Die) : (modDie s d f).unfolded = s.unfolded := rfl
@[simp] theorem modDie_msgs (s : State) (d : Nat) (f : Die → Die) : (modDie s d f).msgs = s.msgs := rfl
@[simp] theorem modDie_fwds (s : State) (d : Nat) (f : Die → Die) : (modDie s d f).fwds = s.fwds := rfl
@[simp] theorem modDie_owed (s : State) (d : Nat) (f : Die → Die) : (modDie s d f).owed = s.owed := rfl
@[simp] theorem modDie_cores (s : State) (d : Nat) (f : Die → Die) : (modDie s d f).cores = s.cores := rfl
@[simp] theorem modDie_clusters (s : State) (d : Nat) (f : Die → Die) : (modDie s d f).clusters = s.clusters := rfl
@[simp] theorem modDie_scheds (s : State) (d : Nat) (f : Die → Die) : (modDie s d f).scheds = s.scheds := rfl
@[simp] theorem modDie_gangs (s : State) (d : Nat) (f : Die → Die) : (modDie s d f).gangs = s.gangs := rfl
@[simp] theorem modDie_blocks (s : State) (d : Nat) (f : Die → Die) : (modDie s d f).blocks = s.blocks := rfl
@[simp] theorem modDie_groups (s : State) (d : Nat) (f : Die → Die) : (modDie s d f).groups = s.groups := rfl
@[simp] theorem modDie_launches (s : State) (d : Nat) (f : Die → Die) : (modDie s d f).launches = s.launches := rfl
@[simp] theorem modDie_mailboxes (s : State) (d : Nat) (f : Die → Die) : (modDie s d f).mailboxes = s.mailboxes := rfl
@[simp] theorem modDie_pend (s : State) (d : Nat) (f : Die → Die) : (modDie s d f).pend = s.pend := rfl
@[simp] theorem modDie_samples (s : State) (d : Nat) (f : Die → Die) : (modDie s d f).samples = s.samples := rfl
@[simp] theorem modDie_through (s : State) (d : Nat) (f : Die → Die) : (modDie s d f).through = s.through := rfl
@[simp] theorem modDie_nts (s : State) (d : Nat) (f : Die → Die) : (modDie s d f).nts = s.nts := rfl
@[simp] theorem modDie_wrote (s : State) (d : Nat) (f : Die → Die) : (modDie s d f).wrote = s.wrote := rfl
@[simp] theorem modDie_tasks (s : State) (d : Nat) (f : Die → Die) : (modDie s d f).tasks = s.tasks := rfl
@[simp] theorem modDie_chains (s : State) (d : Nat) (f : Die → Die) : (modDie s d f).chains = s.chains := rfl
@[simp] theorem modDie_jobs (s : State) (d : Nat) (f : Die → Die) : (modDie s d f).jobs = s.jobs := rfl
@[simp] theorem modDie_kernels (s : State) (d : Nat) (f : Die → Die) : (modDie s d f).kernels = s.kernels := rfl
@[simp] theorem modDie_queues (s : State) (d : Nat) (f : Die → Die) : (modDie s d f).queues = s.queues := rfl
@[simp] theorem modDie_contexts (s : State) (d : Nat) (f : Die → Die) : (modDie s d f).contexts = s.contexts := rfl
@[simp] theorem modDie_saved (s : State) (d : Nat) (f : Die → Die) : (modDie s d f).saved = s.saved := rfl
@[simp] theorem modDie_nextCtx (s : State) (d : Nat) (f : Die → Die) : (modDie s d f).nextCtx = s.nextCtx := rfl
@[simp] theorem modDie_nextQueue (s : State) (d : Nat) (f : Die → Die) : (modDie s d f).nextQueue = s.nextQueue := rfl
@[simp] theorem modDie_migrations (s : State) (d : Nat) (f : Die → Die) : (modDie s d f).migrations = s.migrations := rfl
@[simp] theorem modDie_shoots (s : State) (d : Nat) (f : Die → Die) : (modDie s d f).shoots = s.shoots := rfl
@[simp] theorem modDie_links (s : State) (d : Nat) (f : Die → Die) : (modDie s d f).links = s.links := rfl
@[simp] theorem modDie_rwins (s : State) (d : Nat) (f : Die → Die) : (modDie s d f).rwins = s.rwins := rfl
@[simp] theorem modDie_redRounds (s : State) (d : Nat) (f : Die → Die) : (modDie s d f).redRounds = s.redRounds := rfl
@[simp] theorem modDie_guest (s : State) (d : Nat) (f : Die → Die) : (modDie s d f).guest = s.guest := rfl
@[simp] theorem modDie_admin (s : State) (d : Nat) (f : Die → Die) : (modDie s d f).admin = s.admin := rfl
@[simp] theorem modDie_health (s : State) (d : Nat) (f : Die → Die) : (modDie s d f).health = s.health := rfl
@[simp] theorem modDie_healthLoss (s : State) (d : Nat) (f : Die → Die) : (modDie s d f).healthLoss = s.healthLoss := rfl
@[simp] theorem modDie_measure (s : State) (d : Nat) (f : Die → Die) : (modDie s d f).measure = s.measure := rfl
@[simp] theorem modDie_fuseVer (s : State) (d : Nat) (f : Die → Die) : (modDie s d f).fuseVer = s.fuseVer := rfl
@[simp] theorem modDie_firmware (s : State) (d : Nat) (f : Die → Die) : (modDie s d f).firmware = s.firmware := rfl
@[simp] theorem modDie_lost (s : State) (d : Nat) (f : Die → Die) : (modDie s d f).lost = s.lost := rfl
@[simp] theorem modDie_generation (s : State) (d : Nat) (f : Die → Die) : (modDie s d f).generation = s.generation := rfl
@[simp] theorem modDie_powerCap (s : State) (d : Nat) (f : Die → Die) : (modDie s d f).powerCap = s.powerCap := rfl
@[simp] theorem modDie_hot (s : State) (d : Nat) (f : Die → Die) : (modDie s d f).hot = s.hot := rfl
@[simp] theorem modDie_scrub (s : State) (d : Nat) (f : Die → Die) : (modDie s d f).scrub = s.scrub := rfl
@[simp] theorem modDie_interrupts (s : State) (d : Nat) (f : Die → Die) : (modDie s d f).interrupts = s.interrupts := rfl
@[simp] theorem modDie_sideband (s : State) (d : Nat) (f : Die → Die) : (modDie s d f).sideband = s.sideband := rfl
@[simp] theorem modDie_cxlReads (s : State) (d : Nat) (f : Die → Die) : (modDie s d f).cxlReads = s.cxlReads := rfl
@[simp] theorem modDie_pageReads (s : State) (d : Nat) (f : Die → Die) : (modDie s d f).pageReads = s.pageReads := rfl
@[simp] theorem modDie_imaged (s : State) (d : Nat) (f : Die → Die) : (modDie s d f).imaged = s.imaged := rfl
@[simp] theorem modDie_form (s : State) (d : Nat) (f : Die → Die) : (modDie s d f).form = s.form := rfl
@[simp] theorem modDie_hostHoles (s : State) (d : Nat) (f : Die → Die) : (modDie s d f).hostHoles = s.hostHoles := rfl
@[simp] theorem modDie_deviceLost (s : State) (d : Nat) (f : Die → Die) : (modDie s d f).deviceLost = s.deviceLost := rfl
@[simp] theorem modDie_strapFault (s : State) (d : Nat) (f : Die → Die) : (modDie s d f).strapFault = s.strapFault := rfl

@[simp] theorem modCore_tick (s : State) (d k : Nat) (f : CoreSt → CoreSt) : (modCore s d k f).tick = s.tick := by unfold modCore; split <;> rfl
@[simp] theorem modCore_agenda (s : State) (d k : Nat) (f : CoreSt → CoreSt) : (modCore s d k f).agenda = s.agenda := by unfold modCore; split <;> rfl
@[simp] theorem modCore_turn (s : State) (d k : Nat) (f : CoreSt → CoreSt) : (modCore s d k f).turn = s.turn := by unfold modCore; split <;> rfl
@[simp] theorem modCore_cur (s : State) (d k : Nat) (f : CoreSt → CoreSt) : (modCore s d k f).cur = s.cur := by unfold modCore; split <;> rfl
@[simp] theorem modCore_freeCtr (s : State) (d k : Nat) (f : CoreSt → CoreSt) : (modCore s d k f).freeCtr = s.freeCtr := by unfold modCore; split <;> rfl
@[simp] theorem modCore_nextOp (s : State) (d k : Nat) (f : CoreSt → CoreSt) : (modCore s d k f).nextOp = s.nextOp := by unfold modCore; split <;> rfl
@[simp] theorem modCore_nextUid (s : State) (d k : Nat) (f : CoreSt → CoreSt) : (modCore s d k f).nextUid = s.nextUid := by unfold modCore; split <;> rfl
@[simp] theorem modCore_mem (s : State) (d k : Nat) (f : CoreSt → CoreSt) : (modCore s d k f).mem = s.mem := by unfold modCore; split <;> rfl
@[simp] theorem modCore_hostMem (s : State) (d k : Nat) (f : CoreSt → CoreSt) : (modCore s d k f).hostMem = s.hostMem := by unfold modCore; split <;> rfl
@[simp] theorem modCore_poison (s : State) (d k : Nat) (f : CoreSt → CoreSt) : (modCore s d k f).poison = s.poison := by unfold modCore; split <;> rfl
@[simp] theorem modCore_homePages (s : State) (d k : Nat) (f : CoreSt → CoreSt) : (modCore s d k f).homePages = s.homePages := by unfold modCore; split <;> rfl
@[simp] theorem modCore_stamps (s : State) (d k : Nat) (f : CoreSt → CoreSt) : (modCore s d k f).stamps = s.stamps := by unfold modCore; split <;> rfl
@[simp] theorem modCore_unfolded (s : State) (d k : Nat) (f : CoreSt → CoreSt) : (modCore s d k f).unfolded = s.unfolded := by unfold modCore; split <;> rfl
@[simp] theorem modCore_msgs (s : State) (d k : Nat) (f : CoreSt → CoreSt) : (modCore s d k f).msgs = s.msgs := by unfold modCore; split <;> rfl
@[simp] theorem modCore_fwds (s : State) (d k : Nat) (f : CoreSt → CoreSt) : (modCore s d k f).fwds = s.fwds := by unfold modCore; split <;> rfl
@[simp] theorem modCore_owed (s : State) (d k : Nat) (f : CoreSt → CoreSt) : (modCore s d k f).owed = s.owed := by unfold modCore; split <;> rfl
@[simp] theorem modCore_dies (s : State) (d k : Nat) (f : CoreSt → CoreSt) : (modCore s d k f).dies = s.dies := by unfold modCore; split <;> rfl
@[simp] theorem modCore_clusters (s : State) (d k : Nat) (f : CoreSt → CoreSt) : (modCore s d k f).clusters = s.clusters := by unfold modCore; split <;> rfl
@[simp] theorem modCore_scheds (s : State) (d k : Nat) (f : CoreSt → CoreSt) : (modCore s d k f).scheds = s.scheds := by unfold modCore; split <;> rfl
@[simp] theorem modCore_gangs (s : State) (d k : Nat) (f : CoreSt → CoreSt) : (modCore s d k f).gangs = s.gangs := by unfold modCore; split <;> rfl
@[simp] theorem modCore_blocks (s : State) (d k : Nat) (f : CoreSt → CoreSt) : (modCore s d k f).blocks = s.blocks := by unfold modCore; split <;> rfl
@[simp] theorem modCore_groups (s : State) (d k : Nat) (f : CoreSt → CoreSt) : (modCore s d k f).groups = s.groups := by unfold modCore; split <;> rfl
@[simp] theorem modCore_launches (s : State) (d k : Nat) (f : CoreSt → CoreSt) : (modCore s d k f).launches = s.launches := by unfold modCore; split <;> rfl
@[simp] theorem modCore_mailboxes (s : State) (d k : Nat) (f : CoreSt → CoreSt) : (modCore s d k f).mailboxes = s.mailboxes := by unfold modCore; split <;> rfl
@[simp] theorem modCore_pend (s : State) (d k : Nat) (f : CoreSt → CoreSt) : (modCore s d k f).pend = s.pend := by unfold modCore; split <;> rfl
@[simp] theorem modCore_samples (s : State) (d k : Nat) (f : CoreSt → CoreSt) : (modCore s d k f).samples = s.samples := by unfold modCore; split <;> rfl
@[simp] theorem modCore_through (s : State) (d k : Nat) (f : CoreSt → CoreSt) : (modCore s d k f).through = s.through := by unfold modCore; split <;> rfl
@[simp] theorem modCore_nts (s : State) (d k : Nat) (f : CoreSt → CoreSt) : (modCore s d k f).nts = s.nts := by unfold modCore; split <;> rfl
@[simp] theorem modCore_wrote (s : State) (d k : Nat) (f : CoreSt → CoreSt) : (modCore s d k f).wrote = s.wrote := by unfold modCore; split <;> rfl
@[simp] theorem modCore_tasks (s : State) (d k : Nat) (f : CoreSt → CoreSt) : (modCore s d k f).tasks = s.tasks := by unfold modCore; split <;> rfl
@[simp] theorem modCore_chains (s : State) (d k : Nat) (f : CoreSt → CoreSt) : (modCore s d k f).chains = s.chains := by unfold modCore; split <;> rfl
@[simp] theorem modCore_jobs (s : State) (d k : Nat) (f : CoreSt → CoreSt) : (modCore s d k f).jobs = s.jobs := by unfold modCore; split <;> rfl
@[simp] theorem modCore_kernels (s : State) (d k : Nat) (f : CoreSt → CoreSt) : (modCore s d k f).kernels = s.kernels := by unfold modCore; split <;> rfl
@[simp] theorem modCore_queues (s : State) (d k : Nat) (f : CoreSt → CoreSt) : (modCore s d k f).queues = s.queues := by unfold modCore; split <;> rfl
@[simp] theorem modCore_contexts (s : State) (d k : Nat) (f : CoreSt → CoreSt) : (modCore s d k f).contexts = s.contexts := by unfold modCore; split <;> rfl
@[simp] theorem modCore_saved (s : State) (d k : Nat) (f : CoreSt → CoreSt) : (modCore s d k f).saved = s.saved := by unfold modCore; split <;> rfl
@[simp] theorem modCore_nextCtx (s : State) (d k : Nat) (f : CoreSt → CoreSt) : (modCore s d k f).nextCtx = s.nextCtx := by unfold modCore; split <;> rfl
@[simp] theorem modCore_nextQueue (s : State) (d k : Nat) (f : CoreSt → CoreSt) : (modCore s d k f).nextQueue = s.nextQueue := by unfold modCore; split <;> rfl
@[simp] theorem modCore_migrations (s : State) (d k : Nat) (f : CoreSt → CoreSt) : (modCore s d k f).migrations = s.migrations := by unfold modCore; split <;> rfl
@[simp] theorem modCore_shoots (s : State) (d k : Nat) (f : CoreSt → CoreSt) : (modCore s d k f).shoots = s.shoots := by unfold modCore; split <;> rfl
@[simp] theorem modCore_links (s : State) (d k : Nat) (f : CoreSt → CoreSt) : (modCore s d k f).links = s.links := by unfold modCore; split <;> rfl
@[simp] theorem modCore_rwins (s : State) (d k : Nat) (f : CoreSt → CoreSt) : (modCore s d k f).rwins = s.rwins := by unfold modCore; split <;> rfl
@[simp] theorem modCore_redRounds (s : State) (d k : Nat) (f : CoreSt → CoreSt) : (modCore s d k f).redRounds = s.redRounds := by unfold modCore; split <;> rfl
@[simp] theorem modCore_guest (s : State) (d k : Nat) (f : CoreSt → CoreSt) : (modCore s d k f).guest = s.guest := by unfold modCore; split <;> rfl
@[simp] theorem modCore_admin (s : State) (d k : Nat) (f : CoreSt → CoreSt) : (modCore s d k f).admin = s.admin := by unfold modCore; split <;> rfl
@[simp] theorem modCore_health (s : State) (d k : Nat) (f : CoreSt → CoreSt) : (modCore s d k f).health = s.health := by unfold modCore; split <;> rfl
@[simp] theorem modCore_healthLoss (s : State) (d k : Nat) (f : CoreSt → CoreSt) : (modCore s d k f).healthLoss = s.healthLoss := by unfold modCore; split <;> rfl
@[simp] theorem modCore_measure (s : State) (d k : Nat) (f : CoreSt → CoreSt) : (modCore s d k f).measure = s.measure := by unfold modCore; split <;> rfl
@[simp] theorem modCore_fuseVer (s : State) (d k : Nat) (f : CoreSt → CoreSt) : (modCore s d k f).fuseVer = s.fuseVer := by unfold modCore; split <;> rfl
@[simp] theorem modCore_firmware (s : State) (d k : Nat) (f : CoreSt → CoreSt) : (modCore s d k f).firmware = s.firmware := by unfold modCore; split <;> rfl
@[simp] theorem modCore_lost (s : State) (d k : Nat) (f : CoreSt → CoreSt) : (modCore s d k f).lost = s.lost := by unfold modCore; split <;> rfl
@[simp] theorem modCore_generation (s : State) (d k : Nat) (f : CoreSt → CoreSt) : (modCore s d k f).generation = s.generation := by unfold modCore; split <;> rfl
@[simp] theorem modCore_powerCap (s : State) (d k : Nat) (f : CoreSt → CoreSt) : (modCore s d k f).powerCap = s.powerCap := by unfold modCore; split <;> rfl
@[simp] theorem modCore_hot (s : State) (d k : Nat) (f : CoreSt → CoreSt) : (modCore s d k f).hot = s.hot := by unfold modCore; split <;> rfl
@[simp] theorem modCore_scrub (s : State) (d k : Nat) (f : CoreSt → CoreSt) : (modCore s d k f).scrub = s.scrub := by unfold modCore; split <;> rfl
@[simp] theorem modCore_interrupts (s : State) (d k : Nat) (f : CoreSt → CoreSt) : (modCore s d k f).interrupts = s.interrupts := by unfold modCore; split <;> rfl
@[simp] theorem modCore_sideband (s : State) (d k : Nat) (f : CoreSt → CoreSt) : (modCore s d k f).sideband = s.sideband := by unfold modCore; split <;> rfl
@[simp] theorem modCore_cxlReads (s : State) (d k : Nat) (f : CoreSt → CoreSt) : (modCore s d k f).cxlReads = s.cxlReads := by unfold modCore; split <;> rfl
@[simp] theorem modCore_pageReads (s : State) (d k : Nat) (f : CoreSt → CoreSt) : (modCore s d k f).pageReads = s.pageReads := by unfold modCore; split <;> rfl
@[simp] theorem modCore_imaged (s : State) (d k : Nat) (f : CoreSt → CoreSt) : (modCore s d k f).imaged = s.imaged := by unfold modCore; split <;> rfl
@[simp] theorem modCore_form (s : State) (d k : Nat) (f : CoreSt → CoreSt) : (modCore s d k f).form = s.form := by unfold modCore; split <;> rfl
@[simp] theorem modCore_hostHoles (s : State) (d k : Nat) (f : CoreSt → CoreSt) : (modCore s d k f).hostHoles = s.hostHoles := by unfold modCore; split <;> rfl
@[simp] theorem modCore_deviceLost (s : State) (d k : Nat) (f : CoreSt → CoreSt) : (modCore s d k f).deviceLost = s.deviceLost := by unfold modCore; split <;> rfl
@[simp] theorem modCore_strapFault (s : State) (d k : Nat) (f : CoreSt → CoreSt) : (modCore s d k f).strapFault = s.strapFault := by unfold modCore; split <;> rfl

@[simp] theorem modCluster_tick (s : State) (d k : Nat) (f : ClusterSt → ClusterSt) : (modCluster s d k f).tick = s.tick := by unfold modCluster; split <;> rfl
@[simp] theorem modCluster_agenda (s : State) (d k : Nat) (f : ClusterSt → ClusterSt) : (modCluster s d k f).agenda = s.agenda := by unfold modCluster; split <;> rfl
@[simp] theorem modCluster_turn (s : State) (d k : Nat) (f : ClusterSt → ClusterSt) : (modCluster s d k f).turn = s.turn := by unfold modCluster; split <;> rfl
@[simp] theorem modCluster_cur (s : State) (d k : Nat) (f : ClusterSt → ClusterSt) : (modCluster s d k f).cur = s.cur := by unfold modCluster; split <;> rfl
@[simp] theorem modCluster_freeCtr (s : State) (d k : Nat) (f : ClusterSt → ClusterSt) : (modCluster s d k f).freeCtr = s.freeCtr := by unfold modCluster; split <;> rfl
@[simp] theorem modCluster_nextOp (s : State) (d k : Nat) (f : ClusterSt → ClusterSt) : (modCluster s d k f).nextOp = s.nextOp := by unfold modCluster; split <;> rfl
@[simp] theorem modCluster_nextUid (s : State) (d k : Nat) (f : ClusterSt → ClusterSt) : (modCluster s d k f).nextUid = s.nextUid := by unfold modCluster; split <;> rfl
@[simp] theorem modCluster_mem (s : State) (d k : Nat) (f : ClusterSt → ClusterSt) : (modCluster s d k f).mem = s.mem := by unfold modCluster; split <;> rfl
@[simp] theorem modCluster_hostMem (s : State) (d k : Nat) (f : ClusterSt → ClusterSt) : (modCluster s d k f).hostMem = s.hostMem := by unfold modCluster; split <;> rfl
@[simp] theorem modCluster_poison (s : State) (d k : Nat) (f : ClusterSt → ClusterSt) : (modCluster s d k f).poison = s.poison := by unfold modCluster; split <;> rfl
@[simp] theorem modCluster_homePages (s : State) (d k : Nat) (f : ClusterSt → ClusterSt) : (modCluster s d k f).homePages = s.homePages := by unfold modCluster; split <;> rfl
@[simp] theorem modCluster_stamps (s : State) (d k : Nat) (f : ClusterSt → ClusterSt) : (modCluster s d k f).stamps = s.stamps := by unfold modCluster; split <;> rfl
@[simp] theorem modCluster_unfolded (s : State) (d k : Nat) (f : ClusterSt → ClusterSt) : (modCluster s d k f).unfolded = s.unfolded := by unfold modCluster; split <;> rfl
@[simp] theorem modCluster_msgs (s : State) (d k : Nat) (f : ClusterSt → ClusterSt) : (modCluster s d k f).msgs = s.msgs := by unfold modCluster; split <;> rfl
@[simp] theorem modCluster_fwds (s : State) (d k : Nat) (f : ClusterSt → ClusterSt) : (modCluster s d k f).fwds = s.fwds := by unfold modCluster; split <;> rfl
@[simp] theorem modCluster_owed (s : State) (d k : Nat) (f : ClusterSt → ClusterSt) : (modCluster s d k f).owed = s.owed := by unfold modCluster; split <;> rfl
@[simp] theorem modCluster_dies (s : State) (d k : Nat) (f : ClusterSt → ClusterSt) : (modCluster s d k f).dies = s.dies := by unfold modCluster; split <;> rfl
@[simp] theorem modCluster_cores (s : State) (d k : Nat) (f : ClusterSt → ClusterSt) : (modCluster s d k f).cores = s.cores := by unfold modCluster; split <;> rfl
@[simp] theorem modCluster_scheds (s : State) (d k : Nat) (f : ClusterSt → ClusterSt) : (modCluster s d k f).scheds = s.scheds := by unfold modCluster; split <;> rfl
@[simp] theorem modCluster_gangs (s : State) (d k : Nat) (f : ClusterSt → ClusterSt) : (modCluster s d k f).gangs = s.gangs := by unfold modCluster; split <;> rfl
@[simp] theorem modCluster_blocks (s : State) (d k : Nat) (f : ClusterSt → ClusterSt) : (modCluster s d k f).blocks = s.blocks := by unfold modCluster; split <;> rfl
@[simp] theorem modCluster_groups (s : State) (d k : Nat) (f : ClusterSt → ClusterSt) : (modCluster s d k f).groups = s.groups := by unfold modCluster; split <;> rfl
@[simp] theorem modCluster_launches (s : State) (d k : Nat) (f : ClusterSt → ClusterSt) : (modCluster s d k f).launches = s.launches := by unfold modCluster; split <;> rfl
@[simp] theorem modCluster_mailboxes (s : State) (d k : Nat) (f : ClusterSt → ClusterSt) : (modCluster s d k f).mailboxes = s.mailboxes := by unfold modCluster; split <;> rfl
@[simp] theorem modCluster_pend (s : State) (d k : Nat) (f : ClusterSt → ClusterSt) : (modCluster s d k f).pend = s.pend := by unfold modCluster; split <;> rfl
@[simp] theorem modCluster_samples (s : State) (d k : Nat) (f : ClusterSt → ClusterSt) : (modCluster s d k f).samples = s.samples := by unfold modCluster; split <;> rfl
@[simp] theorem modCluster_through (s : State) (d k : Nat) (f : ClusterSt → ClusterSt) : (modCluster s d k f).through = s.through := by unfold modCluster; split <;> rfl
@[simp] theorem modCluster_nts (s : State) (d k : Nat) (f : ClusterSt → ClusterSt) : (modCluster s d k f).nts = s.nts := by unfold modCluster; split <;> rfl
@[simp] theorem modCluster_wrote (s : State) (d k : Nat) (f : ClusterSt → ClusterSt) : (modCluster s d k f).wrote = s.wrote := by unfold modCluster; split <;> rfl
@[simp] theorem modCluster_tasks (s : State) (d k : Nat) (f : ClusterSt → ClusterSt) : (modCluster s d k f).tasks = s.tasks := by unfold modCluster; split <;> rfl
@[simp] theorem modCluster_chains (s : State) (d k : Nat) (f : ClusterSt → ClusterSt) : (modCluster s d k f).chains = s.chains := by unfold modCluster; split <;> rfl
@[simp] theorem modCluster_jobs (s : State) (d k : Nat) (f : ClusterSt → ClusterSt) : (modCluster s d k f).jobs = s.jobs := by unfold modCluster; split <;> rfl
@[simp] theorem modCluster_kernels (s : State) (d k : Nat) (f : ClusterSt → ClusterSt) : (modCluster s d k f).kernels = s.kernels := by unfold modCluster; split <;> rfl
@[simp] theorem modCluster_queues (s : State) (d k : Nat) (f : ClusterSt → ClusterSt) : (modCluster s d k f).queues = s.queues := by unfold modCluster; split <;> rfl
@[simp] theorem modCluster_contexts (s : State) (d k : Nat) (f : ClusterSt → ClusterSt) : (modCluster s d k f).contexts = s.contexts := by unfold modCluster; split <;> rfl
@[simp] theorem modCluster_saved (s : State) (d k : Nat) (f : ClusterSt → ClusterSt) : (modCluster s d k f).saved = s.saved := by unfold modCluster; split <;> rfl
@[simp] theorem modCluster_nextCtx (s : State) (d k : Nat) (f : ClusterSt → ClusterSt) : (modCluster s d k f).nextCtx = s.nextCtx := by unfold modCluster; split <;> rfl
@[simp] theorem modCluster_nextQueue (s : State) (d k : Nat) (f : ClusterSt → ClusterSt) : (modCluster s d k f).nextQueue = s.nextQueue := by unfold modCluster; split <;> rfl
@[simp] theorem modCluster_migrations (s : State) (d k : Nat) (f : ClusterSt → ClusterSt) : (modCluster s d k f).migrations = s.migrations := by unfold modCluster; split <;> rfl
@[simp] theorem modCluster_shoots (s : State) (d k : Nat) (f : ClusterSt → ClusterSt) : (modCluster s d k f).shoots = s.shoots := by unfold modCluster; split <;> rfl
@[simp] theorem modCluster_links (s : State) (d k : Nat) (f : ClusterSt → ClusterSt) : (modCluster s d k f).links = s.links := by unfold modCluster; split <;> rfl
@[simp] theorem modCluster_rwins (s : State) (d k : Nat) (f : ClusterSt → ClusterSt) : (modCluster s d k f).rwins = s.rwins := by unfold modCluster; split <;> rfl
@[simp] theorem modCluster_redRounds (s : State) (d k : Nat) (f : ClusterSt → ClusterSt) : (modCluster s d k f).redRounds = s.redRounds := by unfold modCluster; split <;> rfl
@[simp] theorem modCluster_guest (s : State) (d k : Nat) (f : ClusterSt → ClusterSt) : (modCluster s d k f).guest = s.guest := by unfold modCluster; split <;> rfl
@[simp] theorem modCluster_admin (s : State) (d k : Nat) (f : ClusterSt → ClusterSt) : (modCluster s d k f).admin = s.admin := by unfold modCluster; split <;> rfl
@[simp] theorem modCluster_health (s : State) (d k : Nat) (f : ClusterSt → ClusterSt) : (modCluster s d k f).health = s.health := by unfold modCluster; split <;> rfl
@[simp] theorem modCluster_healthLoss (s : State) (d k : Nat) (f : ClusterSt → ClusterSt) : (modCluster s d k f).healthLoss = s.healthLoss := by unfold modCluster; split <;> rfl
@[simp] theorem modCluster_measure (s : State) (d k : Nat) (f : ClusterSt → ClusterSt) : (modCluster s d k f).measure = s.measure := by unfold modCluster; split <;> rfl
@[simp] theorem modCluster_fuseVer (s : State) (d k : Nat) (f : ClusterSt → ClusterSt) : (modCluster s d k f).fuseVer = s.fuseVer := by unfold modCluster; split <;> rfl
@[simp] theorem modCluster_firmware (s : State) (d k : Nat) (f : ClusterSt → ClusterSt) : (modCluster s d k f).firmware = s.firmware := by unfold modCluster; split <;> rfl
@[simp] theorem modCluster_lost (s : State) (d k : Nat) (f : ClusterSt → ClusterSt) : (modCluster s d k f).lost = s.lost := by unfold modCluster; split <;> rfl
@[simp] theorem modCluster_generation (s : State) (d k : Nat) (f : ClusterSt → ClusterSt) : (modCluster s d k f).generation = s.generation := by unfold modCluster; split <;> rfl
@[simp] theorem modCluster_powerCap (s : State) (d k : Nat) (f : ClusterSt → ClusterSt) : (modCluster s d k f).powerCap = s.powerCap := by unfold modCluster; split <;> rfl
@[simp] theorem modCluster_hot (s : State) (d k : Nat) (f : ClusterSt → ClusterSt) : (modCluster s d k f).hot = s.hot := by unfold modCluster; split <;> rfl
@[simp] theorem modCluster_scrub (s : State) (d k : Nat) (f : ClusterSt → ClusterSt) : (modCluster s d k f).scrub = s.scrub := by unfold modCluster; split <;> rfl
@[simp] theorem modCluster_interrupts (s : State) (d k : Nat) (f : ClusterSt → ClusterSt) : (modCluster s d k f).interrupts = s.interrupts := by unfold modCluster; split <;> rfl
@[simp] theorem modCluster_sideband (s : State) (d k : Nat) (f : ClusterSt → ClusterSt) : (modCluster s d k f).sideband = s.sideband := by unfold modCluster; split <;> rfl
@[simp] theorem modCluster_cxlReads (s : State) (d k : Nat) (f : ClusterSt → ClusterSt) : (modCluster s d k f).cxlReads = s.cxlReads := by unfold modCluster; split <;> rfl
@[simp] theorem modCluster_pageReads (s : State) (d k : Nat) (f : ClusterSt → ClusterSt) : (modCluster s d k f).pageReads = s.pageReads := by unfold modCluster; split <;> rfl
@[simp] theorem modCluster_imaged (s : State) (d k : Nat) (f : ClusterSt → ClusterSt) : (modCluster s d k f).imaged = s.imaged := by unfold modCluster; split <;> rfl
@[simp] theorem modCluster_form (s : State) (d k : Nat) (f : ClusterSt → ClusterSt) : (modCluster s d k f).form = s.form := by unfold modCluster; split <;> rfl
@[simp] theorem modCluster_hostHoles (s : State) (d k : Nat) (f : ClusterSt → ClusterSt) : (modCluster s d k f).hostHoles = s.hostHoles := by unfold modCluster; split <;> rfl
@[simp] theorem modCluster_deviceLost (s : State) (d k : Nat) (f : ClusterSt → ClusterSt) : (modCluster s d k f).deviceLost = s.deviceLost := by unfold modCluster; split <;> rfl
@[simp] theorem modCluster_strapFault (s : State) (d k : Nat) (f : ClusterSt → ClusterSt) : (modCluster s d k f).strapFault = s.strapFault := by unfold modCluster; split <;> rfl

/-! ## The issuing context -/

@[simp] theorem Ctx.put_tick (c : Ctx) (a : Arch) : (c.put a).tick = c.s.tick := rfl
@[simp] theorem Ctx.put_agenda (c : Ctx) (a : Arch) : (c.put a).agenda = c.s.agenda := rfl
@[simp] theorem Ctx.put_turn (c : Ctx) (a : Arch) : (c.put a).turn = c.s.turn := rfl
@[simp] theorem Ctx.put_cur (c : Ctx) (a : Arch) : (c.put a).cur = c.s.cur := rfl
@[simp] theorem Ctx.put_freeCtr (c : Ctx) (a : Arch) : (c.put a).freeCtr = c.s.freeCtr := rfl
@[simp] theorem Ctx.put_nextOp (c : Ctx) (a : Arch) : (c.put a).nextOp = c.s.nextOp := rfl
@[simp] theorem Ctx.put_nextUid (c : Ctx) (a : Arch) : (c.put a).nextUid = c.s.nextUid := rfl
@[simp] theorem Ctx.put_mem (c : Ctx) (a : Arch) : (c.put a).mem = c.s.mem := rfl
@[simp] theorem Ctx.put_hostMem (c : Ctx) (a : Arch) : (c.put a).hostMem = c.s.hostMem := rfl
@[simp] theorem Ctx.put_poison (c : Ctx) (a : Arch) : (c.put a).poison = c.s.poison := rfl
@[simp] theorem Ctx.put_homePages (c : Ctx) (a : Arch) : (c.put a).homePages = c.s.homePages := rfl
@[simp] theorem Ctx.put_stamps (c : Ctx) (a : Arch) : (c.put a).stamps = c.s.stamps := rfl
@[simp] theorem Ctx.put_unfolded (c : Ctx) (a : Arch) : (c.put a).unfolded = c.s.unfolded := rfl
@[simp] theorem Ctx.put_msgs (c : Ctx) (a : Arch) : (c.put a).msgs = c.s.msgs := rfl
@[simp] theorem Ctx.put_fwds (c : Ctx) (a : Arch) : (c.put a).fwds = c.s.fwds := rfl
@[simp] theorem Ctx.put_owed (c : Ctx) (a : Arch) : (c.put a).owed = c.s.owed := rfl
@[simp] theorem Ctx.put_dies (c : Ctx) (a : Arch) : (c.put a).dies = c.s.dies := rfl
@[simp] theorem Ctx.put_cores (c : Ctx) (a : Arch) : (c.put a).cores = c.s.cores := rfl
@[simp] theorem Ctx.put_clusters (c : Ctx) (a : Arch) : (c.put a).clusters = c.s.clusters := rfl
@[simp] theorem Ctx.put_scheds (c : Ctx) (a : Arch) : (c.put a).scheds = c.s.scheds := rfl
@[simp] theorem Ctx.put_blocks (c : Ctx) (a : Arch) : (c.put a).blocks = c.s.blocks := rfl
@[simp] theorem Ctx.put_groups (c : Ctx) (a : Arch) : (c.put a).groups = c.s.groups := rfl
@[simp] theorem Ctx.put_launches (c : Ctx) (a : Arch) : (c.put a).launches = c.s.launches := rfl
@[simp] theorem Ctx.put_mailboxes (c : Ctx) (a : Arch) : (c.put a).mailboxes = c.s.mailboxes := rfl
@[simp] theorem Ctx.put_pend (c : Ctx) (a : Arch) : (c.put a).pend = c.s.pend := rfl
@[simp] theorem Ctx.put_samples (c : Ctx) (a : Arch) : (c.put a).samples = c.s.samples := rfl
@[simp] theorem Ctx.put_through (c : Ctx) (a : Arch) : (c.put a).through = c.s.through := rfl
@[simp] theorem Ctx.put_nts (c : Ctx) (a : Arch) : (c.put a).nts = c.s.nts := rfl
@[simp] theorem Ctx.put_wrote (c : Ctx) (a : Arch) : (c.put a).wrote = c.s.wrote := rfl
@[simp] theorem Ctx.put_tasks (c : Ctx) (a : Arch) : (c.put a).tasks = c.s.tasks := rfl
@[simp] theorem Ctx.put_chains (c : Ctx) (a : Arch) : (c.put a).chains = c.s.chains := rfl
@[simp] theorem Ctx.put_jobs (c : Ctx) (a : Arch) : (c.put a).jobs = c.s.jobs := rfl
@[simp] theorem Ctx.put_kernels (c : Ctx) (a : Arch) : (c.put a).kernels = c.s.kernels := rfl
@[simp] theorem Ctx.put_queues (c : Ctx) (a : Arch) : (c.put a).queues = c.s.queues := rfl
@[simp] theorem Ctx.put_contexts (c : Ctx) (a : Arch) : (c.put a).contexts = c.s.contexts := rfl
@[simp] theorem Ctx.put_saved (c : Ctx) (a : Arch) : (c.put a).saved = c.s.saved := rfl
@[simp] theorem Ctx.put_nextCtx (c : Ctx) (a : Arch) : (c.put a).nextCtx = c.s.nextCtx := rfl
@[simp] theorem Ctx.put_nextQueue (c : Ctx) (a : Arch) : (c.put a).nextQueue = c.s.nextQueue := rfl
@[simp] theorem Ctx.put_migrations (c : Ctx) (a : Arch) : (c.put a).migrations = c.s.migrations := rfl
@[simp] theorem Ctx.put_shoots (c : Ctx) (a : Arch) : (c.put a).shoots = c.s.shoots := rfl
@[simp] theorem Ctx.put_links (c : Ctx) (a : Arch) : (c.put a).links = c.s.links := rfl
@[simp] theorem Ctx.put_rwins (c : Ctx) (a : Arch) : (c.put a).rwins = c.s.rwins := rfl
@[simp] theorem Ctx.put_redRounds (c : Ctx) (a : Arch) : (c.put a).redRounds = c.s.redRounds := rfl
@[simp] theorem Ctx.put_guest (c : Ctx) (a : Arch) : (c.put a).guest = c.s.guest := rfl
@[simp] theorem Ctx.put_admin (c : Ctx) (a : Arch) : (c.put a).admin = c.s.admin := rfl
@[simp] theorem Ctx.put_health (c : Ctx) (a : Arch) : (c.put a).health = c.s.health := rfl
@[simp] theorem Ctx.put_healthLoss (c : Ctx) (a : Arch) : (c.put a).healthLoss = c.s.healthLoss := rfl
@[simp] theorem Ctx.put_measure (c : Ctx) (a : Arch) : (c.put a).measure = c.s.measure := rfl
@[simp] theorem Ctx.put_fuseVer (c : Ctx) (a : Arch) : (c.put a).fuseVer = c.s.fuseVer := rfl
@[simp] theorem Ctx.put_firmware (c : Ctx) (a : Arch) : (c.put a).firmware = c.s.firmware := rfl
@[simp] theorem Ctx.put_lost (c : Ctx) (a : Arch) : (c.put a).lost = c.s.lost := rfl
@[simp] theorem Ctx.put_generation (c : Ctx) (a : Arch) : (c.put a).generation = c.s.generation := rfl
@[simp] theorem Ctx.put_powerCap (c : Ctx) (a : Arch) : (c.put a).powerCap = c.s.powerCap := rfl
@[simp] theorem Ctx.put_hot (c : Ctx) (a : Arch) : (c.put a).hot = c.s.hot := rfl
@[simp] theorem Ctx.put_scrub (c : Ctx) (a : Arch) : (c.put a).scrub = c.s.scrub := rfl
@[simp] theorem Ctx.put_interrupts (c : Ctx) (a : Arch) : (c.put a).interrupts = c.s.interrupts := rfl
@[simp] theorem Ctx.put_sideband (c : Ctx) (a : Arch) : (c.put a).sideband = c.s.sideband := rfl
@[simp] theorem Ctx.put_cxlReads (c : Ctx) (a : Arch) : (c.put a).cxlReads = c.s.cxlReads := rfl
@[simp] theorem Ctx.put_pageReads (c : Ctx) (a : Arch) : (c.put a).pageReads = c.s.pageReads := rfl
@[simp] theorem Ctx.put_imaged (c : Ctx) (a : Arch) : (c.put a).imaged = c.s.imaged := rfl
@[simp] theorem Ctx.put_form (c : Ctx) (a : Arch) : (c.put a).form = c.s.form := rfl
@[simp] theorem Ctx.put_hostHoles (c : Ctx) (a : Arch) : (c.put a).hostHoles = c.s.hostHoles := rfl
@[simp] theorem Ctx.put_deviceLost (c : Ctx) (a : Arch) : (c.put a).deviceLost = c.s.deviceLost := rfl
@[simp] theorem Ctx.put_strapFault (c : Ctx) (a : Arch) : (c.put a).strapFault = c.s.strapFault := rfl

end Sys2Proof.Machine
end

