-- ==== Sys2Proof/Laws/Issue.lean ====
section
/-!
SUPPORT. Issue and commit: what an instruction finds when it enters, when the run-slot test passes, what a commit leaves, and what
a trap leaves.
-/
namespace Sys2Proof.Machine

/-! ## Gangs of a state -/

/-- A replaced gang is found; every other gang is as it was. -/
theorem findGang_putGang (s : State) (g g' : Gang) (h : findGang s g'.id = some g) (id : GangId) :
    findGang (putGang s g') id = if id = g'.id then some g' else findGang s id := by
  unfold findGang at h ⊢
  simp only [putGang, modGang]
  generalize s.gangs = l at h ⊢
  induction l with
  | nil => simp at h
  | cons x rest ih =>
    simp only [List.map_cons, List.find?_cons] at h ⊢
    by_cases hx : x.id = g'.id
    · rw [if_pos hx]
      by_cases he : id = g'.id
      · simp [he]
      · rw [if_neg he]
        have h1 : ¬ g'.id = id := fun e => he e.symm
        have h2 : ¬ x.id = id := fun e => he (by rw [← e, hx])
        simp only [h1, h2, decide_false]
        have : ∀ l : List Gang, (l.map fun g => if g.id = g'.id then g' else g).find? (fun g => decide (g.id = id))
            = l.find? fun g => decide (g.id = id) := by
          intro l
          induction l with
          | nil => rfl
          | cons y t iht =>
            simp only [List.map_cons, List.find?_cons]
            by_cases hy : y.id = g'.id
            · have h3 : ¬ y.id = id := fun e => he (by rw [← e, hy])
              simp [hy, h1, iht]
            · simp [hy, iht]
        exact this rest
    · rw [if_neg hx]
      simp only [hx, decide_false] at h
      by_cases he : x.id = id
      · have : ¬ id = g'.id := fun e => hx (by rw [he, e])
        simp [he, this]
      · simp only [he, decide_false]
        exact ih h

/-- An instruction that enters: its gang is the issuing one, its slot is live. -/
theorem entering_spec {s : State} {guard : Guard} {c : Ctx} (h : entering s guard = some c) :
    ∃ g, findGang s s.cur.g = some g ∧ (g.arch.slot s.cur.slot).live = true ∧ c.s = s ∧ c.x = s.cur.slot ∧ c.g.id = s.cur.g
      ∧ (c.begun = none → c.act = guardMask g.arch guard &&& issueMask g.arch s.cur.slot) ∧ c.g.block = g.block ∧ c.g.ctx = g.ctx
      ∧ c.g.arch.v = g.arch.v ∧ c.g.arch.s = g.arch.s ∧ c.g.arch.p = g.arch.p ∧ c.g.arch.mode = g.arch.mode
      ∧ c.g.arch.slotA = g.arch.slotA ∧ c.g.arch.slotB = g.arch.slotB := by
  unfold entering at h
  split at h
  · cases h
  · rename_i g hg
    split at h
    · rename_i hl
      have hid : g.id = s.cur.g := by
        have := List.find?_some hg
        simpa using this
      cases h
      refine ⟨g, hg, hl, rfl, rfl, hid, fun hb => ?_, rfl, rfl, rfl, rfl, rfl, rfl, rfl, rfl⟩
      have hb : begunIn s g.id s.cur.slot = none := hb
      simp [hb]
    · cases h

theorem issue_eq {s : State} {guard : Guard} {c : Ctx} (h : entering s guard = some c) (hp : guardPoison c.a guard = false)
    (k : Ctx → Res) : issue s guard k = k c := by
  simp [issue, h, hp]

/-- An instruction that is not begun has the next number, and is clear exactly when no older one may trap. -/
theorem op_eq {c : Ctx} (h : c.begun = none) : c.op = c.s.nextOp := by simp [Ctx.op, h]
theorem clear_eq {c : Ctx} (h : c.begun = none) : c.clear = !olderRisk c.s c.g.id c.s.nextOp := by simp [Ctx.clear, op_eq h]

/-- The issuing gang is found with what a commit puts into it, and every other gang is as it was. -/
theorem findGang_put {s : State} {guard : Guard} {c : Ctx} (h : entering s guard = some c) (a : Arch) (id : GangId) :
    findGang (c.put a) id = if id = c.g.id then some { c.g with arch := a } else findGang c.s id := by
  obtain ⟨g, hg, _, hs, _, hid, _⟩ := entering_spec h
  exact findGang_putGang c.s g { c.g with arch := a } (by rw [hs]; simpa [hid] using hg) id

/-! ## Run slots -/

theorem foldl_add_eq_sum (l : List Nat) (k : Nat) : l.foldl (· + ·) k = k + l.sum := by
  induction l generalizing k with
  | nil => simp
  | cons x rest ih => simp [ih]; omega

theorem sum_map_set_le {α : Type} (f : α → Nat) (l : List α) (i : Nat) (x : α) (n : Nat) (hx : f x ≤ n) :
    ((l.set i x).map f).sum ≤ (l.map f).sum + n := by
  induction l generalizing i with
  | nil => simp
  | cons y rest ih =>
    cases i with
    | zero => simp only [List.set_cons_zero, List.map_cons, List.sum_cons]; omega
    | succ j =>
      simp only [List.set_cons_succ, List.map_cons, List.sum_cons]
      have := ih j
      omega

/-- A register written with `r` holds at most its runs more. -/
theorem heldSlots_setV_le (a : Arch) (n : Fin 64) (r : VReg) : heldSlots (a.setV n r) ≤ heldSlots a + vregSlots r := by
  have h : (a.setV n r).v.toList = a.v.toList.set n r := by simp [Arch.setV, Vector.set, Vector.toList]
  simp only [heldSlots, h, foldl_add_eq_sum, Arch.setV_reserved, Arch.setV_lateTaken, Arch.setV_lateFreed]
  have := sum_map_set_le vregSlots a.v.toList n r (vregSlots r) (Nat.le_refl _)
  omega

@[simp] theorem heldSlots_setS (a : Arch) (n : Fin 64) (x : SVal) : heldSlots (a.setS n x) = heldSlots a := rfl
@[simp] theorem heldSlots_setP (a : Arch) (n : Fin 8) (act bits : Mask) : heldSlots (a.setP n act bits) = heldSlots a := by
  simp [heldSlots]
@[simp] theorem heldSlots_setSlot (a : Arch) (x : PcSlot) (sl : Slot) : heldSlots (a.setSlot x sl) = heldSlots a := by
  simp [heldSlots]
@[simp] theorem heldSlots_advance (a : Arch) (x : PcSlot) : heldSlots (a.advance x) = heldSlots a := by simp [heldSlots]
@[simp] theorem heldSlots_setWait (a : Arch) (x : PcSlot) (w : Wait) : heldSlots (a.setWait x w) = heldSlots a := by simp [heldSlots]
@[simp] theorem heldSlots_raiseFlags (a : Arch) (fl : BitVec 8) : heldSlots (raiseFlags a fl) = heldSlots a := rfl
@[simp] theorem heldSlots_writeScalar (a : Arch) (d : Opnd) (x : DWord) : heldSlots (writeScalar a d x) = heldSlots a := by
  cases d <;> simp [writeScalar]
@[simp] theorem heldSlots_writePred (a : Arch) (act : Mask) (d : Opnd) (bits : Mask) : heldSlots (writePred a act d bits) = heldSlots a := by
  cases d <;> simp [writePred]

/-- A register that dies gives its slots back. -/
theorem heldSlots_setV_none (a : Arch) (n : Fin 64) : heldSlots (a.setV n none) ≤ heldSlots a := by
  simpa [vregSlots] using heldSlots_setV_le a n none

/-- Last-read marks take no slots. -/
theorem heldSlots_killRegs (a : Arch) (l : Reads) : heldSlots (killRegs a l) ≤ heldSlots a := by
  induction l generalizing a with
  | nil => exact Nat.le_refl _
  | cons x rest ih =>
    obtain ⟨o, n⟩ := x
    have fold : ∀ (r : Fin 64) (ks : List Nat) (b : Arch), heldSlots (ks.foldl (fun x k => x.setV (groupReg r k) none) b) ≤ heldSlots b := by
      intro r ks
      induction ks with
      | nil => intro b; exact Nat.le_refl _
      | cons k t iht => intro b; exact Nat.le_trans (iht _) (heldSlots_setV_none b _)
    cases o with
    | v r => rw [killRegs]; exact Nat.le_trans (ih _) (fold r _ a)
    | s r => rw [killRegs]; simpa using ih (a.setS r none)
    | _ => simpa [killRegs] using ih a

/-! ## Commit -/

/-- A commit that keeps the gang's slot count, or that no older instruction can still stop, settles its accounts at once (R91, R96, R97). -/
theorem owed_eq {c : Ctx} {a : Arch} (ho : heldSlots a = heldSlots c.a ∨ c.clear = true) : c.owed a = false := by
  unfold Ctx.owed
  rcases ho with h | h
  · simp [show heldSlots a = heldSlots c.g.arch from h]
  · simp [h]

/-- A commit that takes no slots passes the run-slot test (R95). -/
theorem commitWith_of_le {c : Ctx} {a : Arch} (ho : heldSlots a = heldSlots c.a ∨ c.clear = true)
    (h : heldSlots a ≤ heldSlots c.a) (f : State → State) :
    c.commitWith a f = .next (f (c.put (settleAccounts c.g.budget a))) := by
  have : slotExcess c.s c.g a = none := by
    unfold slotExcess; rw [if_neg]; intro hh
    have h' : heldSlots a ≤ heldSlots c.g.arch := h
    exact absurd hh.1 (Nat.not_lt.mpr h')
  simp [Ctx.commitWith, this, owed_eq ho]

/-- A commit within the gang's limit passes the run-slot test (R95). -/
theorem commitWith_of_limit {c : Ctx} {a : Arch} (ho : heldSlots a = heldSlots c.a ∨ c.clear = true) (h : heldSlots a ≤ slotLimit c.s c.g) (f : State → State) :
    c.commitWith a f = .next (f (c.put (settleAccounts c.g.budget a))) := by
  have : slotExcess c.s c.g a = none := by
    unfold slotExcess; rw [if_neg]; intro hh; exact absurd hh.2 (Nat.not_lt.mpr h)
  simp [Ctx.commitWith, this, owed_eq ho]

theorem commit_of_le {c : Ctx} {a : Arch} (ho : heldSlots a = heldSlots c.a ∨ c.clear = true) (h : heldSlots a ≤ heldSlots c.a) :
    c.commit a = .next (c.put (settleAccounts c.g.budget (a.advance c.x))) := by
  simp [Ctx.commit, commitWith_of_le (a := a.advance c.x) (by simpa using ho) (by simpa using h)]

/-- A commit beyond the gang's limit raises RUN_OVERFLOW with the excess, and nothing of it commits (R95). -/
theorem commitWith_overflow {c : Ctx} {a : Arch} (hc : c.clear = true) (h1 : heldSlots a > heldSlots c.a)
    (h2 : heldSlots a > slotLimit c.s c.g) (f : State → State) : c.commitWith a f = c.trap cRunOverflow (BitVec.ofNat 64 (heldSlots a - slotLimit c.s c.g)) := by
  have : slotExcess c.s c.g a = some (heldSlots a - slotLimit c.s c.g) := by
    unfold slotExcess; rw [if_pos ⟨h1, h2⟩]
  simp [Ctx.commitWith, this, owed_eq (.inr hc)]

/-! ## The accounts change two fields only -/

theorem settleAccounts_eq (n : Nat) (a : Arch) :
    settleAccounts n a = { a with borrowed := (settleAccounts n a).borrowed, kept := (settleAccounts n a).kept } := by
  unfold settleAccounts
  dsimp only
  split <;> split <;> rfl

/-! ## Taking a trap (R408-R411) -/

/-- A trap outside trap mode whose handler is there: the gang holds the trap's registers and its other registers as they were. -/
theorem takeTrap_running {s : State} {g : Gang} {x : PcSlot} {cause : BitVec 8} {tval tpc : BitVec 64} {lane : BitVec 5}
    {entry : BitVec 32} {tvec : Bool} (hm : g.arch.mode = .running) (he : trapEntry s g = some (entry, tvec)) :
    takeTrap s g x cause tval tpc lane
      = putGang s { g with fetch := [], arch := trapArch g.budget g.arch x cause tval tpc lane entry tvec } := by
  simp [takeTrap, hm, he]

/-- A trap in trap mode ends the gang with the trap that entered trap mode. -/
theorem takeTrap_trap {s : State} {g : Gang} {x : PcSlot} {cause : BitVec 8} {tval tpc : BitVec 64} {lane : BitVec 5}
    (hm : g.arch.mode = .trap) :
    takeTrap s g x cause tval tpc lane = failGang s g stFailedTrap g.arch.tcause (entryPc g.arch) := by
  simp [takeTrap, hm]

end Sys2Proof.Machine
end

