-- ==== Sys2Proof/Laws/Memory.lean ====
section
/-!
SUPPORT. Memory cells: reading after writing, and the canonical form, which every write keeps.
-/
namespace Sys2Proof.Machine

theorem cellsAbove_mono {lo lo' : Nat} (h : lo' ≤ lo) (m : List Host.Cell) (w : cellsAbove lo m = true) : cellsAbove lo' m = true := by
  cases m with
  | nil => rfl
  | cons x rest => simp [cellsAbove] at w ⊢; exact ⟨⟨by omega, w.1.2⟩, w.2⟩

/-- An address below every listed one reads as unlisted. -/
theorem cellGet_below {lo a : Nat} (h : a < lo) (m : List Host.Cell) (w : cellsAbove lo m = true) : cellGet m a = unlistedByte := by
  induction m generalizing lo with
  | nil => rfl
  | cons x rest ih =>
    simp [cellsAbove] at w
    rw [cellGet, if_neg (by omega), ih (by omega) w.2]

/-- A byte that has been written reads back, and no other byte has changed. -/
theorem cellGet_cellSet (m : List Host.Cell) (lo : Nat) (w : cellsAbove lo m = true) (a k : Nat) (b : Byte) :
    cellGet (cellSet m a b) k = if k = a then b else cellGet m k := by
  induction m generalizing lo with
  | nil =>
    by_cases hb : b = unlistedByte <;> simp [cellSet, hb, cellGet]
  | cons x rest ih =>
    obtain ⟨y, c⟩ := x
    have w' := w
    simp [cellsAbove] at w'
    rw [cellSet]
    split
    · by_cases hb : b = unlistedByte
      · simp only [hb, if_true, cellGet]
        by_cases hk : k = a
        · subst hk; rw [if_neg (by omega), if_pos rfl, cellGet_below (lo := y + 1) (by omega) rest w'.2]
        · simp [hk]
      · simp only [hb, if_false, cellGet]
    · split
      · rename_i h1 h2; subst h2
        by_cases hb : b = unlistedByte
        · simp only [hb, if_true, cellGet]
          by_cases hk : k = a
          · subst hk; rw [cellGet_below (lo := k + 1) (by omega) rest w'.2]; simp
          · simp [hk]
        · simp only [hb, if_false, cellGet]
          by_cases hk : k = a <;> simp [hk]
      · rename_i h1 h2
        rw [cellGet, cellGet, ih (y + 1) w'.2]
        by_cases hk : k = y
        · subst hk; simp [Ne.symm h2]
        · simp [hk]

/-- A write keeps the canonical form. -/
theorem cellsAbove_cellSet (m : List Host.Cell) (lo : Nat) (w : cellsAbove lo m = true) (a : Nat) (h : lo ≤ a) (b : Byte) :
    cellsAbove lo (cellSet m a b) = true := by
  induction m generalizing lo with
  | nil =>
    by_cases hb : b = unlistedByte <;> simp [cellSet, hb, cellsAbove, h]
  | cons x rest ih =>
    obtain ⟨y, c⟩ := x
    have w' := w
    simp [cellsAbove] at w'
    rw [cellSet]
    split
    · by_cases hb : b = unlistedByte
      · simp [hb, w]
      · simp only [hb, if_false, cellsAbove, h, ne_eq, not_false_eq_true, decide_true, Bool.and_self, Bool.true_and]
        simp [w'.1.2, w'.2]; omega
    · split
      · rename_i h1 h2; subst h2
        by_cases hb : b = unlistedByte
        · simp only [hb, if_true]; exact cellsAbove_mono (by omega) rest w'.2
        · simp [hb, cellsAbove, h, w'.2]
      · simp [cellsAbove, w'.1, ih (y + 1) w'.2 (by omega)]

theorem Memory.wf_cellSet {m : List Host.Cell} (w : Memory.wf m = true) (a : Nat) (b : Byte) : Memory.wf (cellSet m a b) = true :=
  cellsAbove_cellSet m 0 w a (Nat.zero_le a) b

theorem Memory.wf_cellsWrite {m : List Host.Cell} (w : Memory.wf m = true) (a : Nat) (l : List Byte) :
    Memory.wf (cellsWrite m a l) = true := by
  induction l generalizing m a with
  | nil => exact w
  | cons b rest ih => exact ih (Memory.wf_cellSet w a b) (a + 1)

/-- A run of bytes that has been written reads back, and no other byte has changed. -/
theorem cellGet_cellsWrite {m : List Host.Cell} (w : Memory.wf m = true) (a k : Nat) (l : List Byte) :
    cellGet (cellsWrite m a l) k = if a ≤ k ∧ k < a + l.length then l.getD (k - a) unlistedByte else cellGet m k := by
  induction l generalizing m a with
  | nil => simp [cellsWrite]
  | cons b rest ih =>
    rw [cellsWrite, ih (Memory.wf_cellSet w a b) (a + 1), cellGet_cellSet m 0 w a k b]
    by_cases h1 : a + 1 ≤ k ∧ k < a + 1 + rest.length
    · have h2 : a ≤ k ∧ k < a + (b :: rest).length := by simp; omega
      rw [if_pos h1, if_pos h2]
      obtain ⟨j, rfl⟩ : ∃ j, k = a + 1 + j := ⟨k - (a + 1), by omega⟩
      have : a + 1 + j - a = j + 1 := by omega
      simp [this]
    · rw [if_neg h1]
      by_cases h3 : k = a
      · subst h3; simp
      · rw [if_neg h3, if_neg (by simp; omega)]

/-- Addresses outside a written span read as before. -/
theorem cellGet_cellsWrite_outside {m : List Host.Cell} (w : Memory.wf m = true) (a k : Nat) (l : List Byte)
    (h : k < a ∨ a + l.length ≤ k) : cellGet (cellsWrite m a l) k = cellGet m k := by
  rw [cellGet_cellsWrite w, if_neg (by omega)]

theorem length_bytesOfNat (n x : Nat) : (bytesOfNat n x).length = n := by simp [bytesOfNat]

theorem bytesOfNat_succ (n x : Nat) : bytesOfNat (n + 1) x = BitVec.ofNat 8 x :: bytesOfNat n (x / 256) := by
  simp only [bytesOfNat, List.range_succ_eq_map, List.map_cons, List.map_map]
  congr 1
  · simp
  · apply List.map_congr_left
    intro k _
    simp [Function.comp, Nat.pow_succ, Nat.div_div_eq_div_mul, Nat.mul_comm]

/-- The bytes of a number give the number back, cut to them (R4). -/
theorem bytesOfNat_congr {n x y : Nat} (h : x % 256 ^ n = y % 256 ^ n) : bytesOfNat n x = bytesOfNat n y := by
  induction n generalizing x y with
  | zero => rfl
  | succ n ih =>
    rw [bytesOfNat_succ, bytesOfNat_succ]
    rw [Nat.pow_succ, Nat.mul_comm, Nat.mod_mul, Nat.mod_mul] at h
    have a : x % 256 = y % 256 := by omega
    have b : x / 256 % 256 ^ n = y / 256 % 256 ^ n := by omega
    rw [ih b, show BitVec.ofNat 8 x = BitVec.ofNat 8 y from BitVec.eq_of_toNat_eq (by simpa using a)]

theorem natOfBytes_bytesOfNat (n x : Nat) : natOfBytes (bytesOfNat n x) = x % 256 ^ n := by
  induction n generalizing x with
  | zero => simp [bytesOfNat, natOfBytes, Nat.mod_one]
  | succ n ih =>
    rw [bytesOfNat_succ, natOfBytes, ih, Nat.pow_succ, Nat.mul_comm (256 ^ n), Nat.mod_mul]
    simp

theorem cellsRead_cellsWrite {m : List Host.Cell} (w : Memory.wf m = true) (a : Nat) (l : List Byte) :
    cellsRead (cellsWrite m a l) a l.length = l := by
  apply List.ext_getElem
  · simp [cellsRead]
  · intro i h1 h2
    simp only [cellsRead, List.getElem_map, List.getElem_range]
    rw [cellGet_cellsWrite w, if_pos (by omega)]
    simp [List.getD, h2]

/-- A number that has been written reads back. -/
theorem natOfBytes_cellsWrite {m : List Host.Cell} (w : Memory.wf m = true) (a n x : Nat) :
    natOfBytes (cellsRead (cellsWrite m a (bytesOfNat n x)) a n) = x % 256 ^ n := by
  have h := cellsRead_cellsWrite w a (bytesOfNat n x)
  rw [length_bytesOfNat] at h
  rw [h, natOfBytes_bytesOfNat]

end Sys2Proof.Machine
end

