-- ==== Sys2Proof/Laws/Queue.lean ====
section
/-!
SUPPORT. What the shared operations over time bounds do: the reference counter of a die (R25, R427), a reading of RIDX (R399), and a
grant of leave (R467).
-/
namespace Sys2Proof.Machine

theorem dieTick_counting {s : State} {die : Nat} (h : (getDie s die).frozen = none) : dieTick s die = s.tick := by
  simp [dieTick, h]

theorem dieTick_frozen {s : State} {die t : Nat} (h : (getDie s die).frozen = some t) : dieTick s die = t := by
  simp [dieTick, h]

@[simp] theorem Context.readAt_num (c : Context) (x : BitVec 32) (t : Nat) : (c.readAt x t).num = c.num := rfl
@[simp] theorem Context.readAt_widx (c : Context) (x : BitVec 32) (t : Nat) : (c.readAt x t).widx = c.widx := rfl
@[simp] theorem Context.readAt_ridx (c : Context) (x : BitVec 32) (t : Nat) : (c.readAt x t).ridx = x := rfl
@[simp] theorem Context.readAt_polled (c : Context) (x : BitVec 32) (t : Nat) : (c.readAt x t).polled = t := rfl
@[simp] theorem Context.readAt_due (c : Context) (x : BitVec 32) (t : Nat) : (c.readAt x t).due = c.due := rfl
@[simp] theorem Context.readAt_evlog2 (c : Context) (x : BitVec 32) (t : Nat) : (c.readAt x t).evlog2 = c.evlog2 := rfl
@[simp] theorem Context.readAt_unannounced (c : Context) (x : BitVec 32) (t : Nat) : (c.readAt x t).unannounced = c.unannounced := rfl
@[simp] theorem Context.readAt_nowPending (c : Context) (x : BitVec 32) (t : Nat) : (c.readAt x t).nowPending = c.nowPending := rfl

/-- A grant takes the request from its die's list and changes, beside it, the sr.leave of one gang at most. -/
theorem grantLeave_cases (s : State) (die : Nat) (r : LeaveReq) (rest : List LeaveReq) :
    grantLeave s die r rest = modDie s die (fun d => { d with leaves := rest })
      ∨ ∃ op tick p, r = .pend op tick ∧ findPend s op = some p
        ∧ grantLeave s die r rest = modGang (modDie s die fun d => { d with leaves := rest }) p.gang fun g =>
            { g with leave := addLeave g.leave (cyclesOf s die (min (s.tick - tick) leaveLimit)) } := by
  cases r with
  | job id tick => exact .inl rfl
  | pend op tick =>
    cases h : findPend s op with
    | none => exact .inl (by simp [grantLeave, h])
    | some p => exact .inr ⟨op, tick, p, rfl, h, by simp [grantLeave, h]⟩

end Sys2Proof.Machine
end

