-- ==== Sys2Proof/Tests/Slice0.lean ====
section
/-!
SUPPORT. Tests: words of the spec and what they decode to, terms that well-formedness refuses, and for each obligation with
hypotheses a state and operands that meet them.
-/
namespace Sys2Proof.Tests
set_option Elab.async false
open Sys2Proof Sys2Proof.Machine

/-! ## Decoding: words that the spec writes out -/

/-- No guard, no last-read bit, no hint. -/
def hd : Head := { guard := alwaysGuard, la := false, lb := false, lc := false, yld := false, stall := 0#4 }
def intN : IntMod := { signed := false, sat := false }
def intS : IntMod := { signed := true, sat := false }
def fpN : FpMod := { rm := .rne, sat := false, na := false, nb := false, nc := false, ftz := false }

-- 04_registers, worked example
theorem test_word_imax : decodeTableWord 96 0x04100000_00001E0E_10001718
    = some (.imax { hd with la := true, stall := 4#4 } (.v 1) (.v 0) (.imm 0#32) intS) := by decide +kernel
theorem test_word_iadd_lane : decodeTableWord 96 0x04000000_00000E0A_00102710
    = some (.iadd { hd with stall := 4#4 } (.v 2) (.v 1) (.sr .lane) intN) := by decide +kernel
theorem test_word_coalesce : decodeTableWord 96 0x00000000_00000E0E_00101770 = some (.coalesce hd (.v 1) (.v 1)) := by decide +kernel
-- 05_numbers, worked example
theorem test_word_mxq : decodeTableWord 96 0x00000000_00095420_2000174B
    = some (.mxq hd (.v 1) (.v 0) (.s 2) { dfmt := .e2m1, sfmt := .f32, sat := false, rm := .sr }) := by decide +kernel
-- 06_vector_ops R152, R156
theorem test_word_irem : decodeTableWord 96 0x00000000_00001E00_20104716 = some (.irem hd (.v 4) (.v 1) (.v 2) intS) := by decide +kernel
theorem test_word_bmix : decodeTableWord 96 0x00000000_000E8030_2010472C
    = some (.bmix hd (.v 4) (.v 1) (.v 2) (.v 3) 0xE8#8) := by decide +kernel
-- 07_lane_ops, worked example
theorem test_word_reduce : decodeTableWord 96 0x00100000_00000E0E_00406763
    = some (.reduce { hd with la := true } (.v 6) (.v 4) .add) := by decide +kernel
theorem test_word_part : decodeTableWord 96 0x00000000_00003E0E_0E0E0767 = some (.part hd 3#3) := by decide +kernel
-- 08_group, worked example
theorem test_word_jmp : decodeTableWord 96 0x00000000_00800E0E_0E0E0702 = some (.jmpOffset hd 8#16) := by decide +kernel
theorem test_word_join : decodeTableWord 96 0x00000000_00000E0E_0E0E0704 = some (.join hd) := by decide +kernel
-- 09_barrier R248 and worked example
theorem test_word_wait : decodeTableWord 96 0x00000FFF_FC000E0E_0E0E07B7 = some (.wait hd 63#6 63#6 63#6 0#6) := by decide +kernel
theorem test_word_bari : decodeTableWord 96 0x00000000_0000002E_049E07B2 = some (.bari hd (.s 9) 0#32 2#8 false) := by decide +kernel
theorem test_word_barv : decodeTableWord 96 0x0F000000_00000E0E_049517B3
    = some (.barv { hd with stall := 15#4 } (.s 17) (.s 9) 0#32) := by decide +kernel
-- 10_memory, worked example
theorem test_word_fence : decodeTableWord 96 0x00000000_20302E0E_0E0E07B0 = some (.fence hd .die false 0#5 2#6 3#6) := by decide +kernel
theorem test_word_atom : decodeTableWord 96 0x00300000_00120E10_341E07A0
    = some (.atom { hd with la := true, lb := true } .zero (.s 1) (.v 3) (.imm 1#32) 0#32
        { op := .add, w64 := false, scope := .clu }) := by decide +kernel
-- 11_page, worked example
theorem test_word_pmix : decodeTableWord 96 0x00000000_00008E08_28181753
    = some (.pmix hd (.p 1) (.p 1) (.p 2) .zero 0x08#8) := by decide +kernel
-- 12_engines R346
theorem test_word_xenc : decodeTableWord 96 0x00000000_00002E0E_001027C2 = some (.xenc hd (.v 2) (.v 1) 2#2) := by decide +kernel
-- 13_matrix, worked example
theorem test_word_mmax_nz : decodeTableWord 96 0x0F300000_00019E04_B4A207D2
    = some (.mmax { hd with la := true, lb := true, stall := 15#4 } (.v 32) (.s 10) (.s 11) .zero
        { fmt := .e2m1, nz := true, i32 := false }) := by decide +kernel
theorem test_word_mstt : decodeTableWord 96 0x00100000_0000320E_04CE07D5
    = some (.mstt { hd with la := true } (.s 12) (.v 32) { fmt := .bf16, nz := false, i32 := false } 0#3 0#3) := by decide +kernel
-- 14_kernel, worked example
theorem test_word_ret : decodeTableWord 96 0x00000000_00000E0E_07FE0706 = some (.ret hd (.s 63)) := by decide +kernel
theorem test_word_cflush : decodeTableWord 96 0x00000000_00002E04_742E0795 = some (.cflush hd (.s 2) (.s 7) 0#32 .die) := by decide +kernel
theorem test_word_icinv : decodeTableWord 96 0x00000000_00002E04_742E0796 = some (.icinv hd (.s 2) (.s 7) 0#32 .die) := by decide +kernel
theorem test_word_fetchb : decodeTableWord 96 0x00000000_00000E0E_0E0E07E3 = some (.fetchb hd) := by decide +kernel
theorem test_word_call : decodeTableWord 96 0x00000000_00300E0E_0E07F705 = some (.callOffset hd (.s 63) 3#16) := by decide +kernel
-- 16_context R412
theorem test_word_trap : decodeTableWord 96 0x00000000_00500E0E_0E1E0708 = some (.trap hd (.imm 5#32)) := by decide +kernel
theorem test_word_brk : decodeTableWord 96 0x00000000_03100E0E_0E0E070C = some (.brk hd 0x31#16) := by decide +kernel
-- 17_link R435
theorem test_word_chopen : decodeTableWord 96 0x00000000_00B02E0E_0E1E07BB = some (.chopen hd (.imm 11#32) 2#3) := by decide +kernel
theorem test_word_chst : decodeTableWord 96 0x00000000_00002050_341E07BC
    = some (.chst hd (.s 1) (.v 3) (.v 5) 0#32 2#3 false) := by decide +kernel
-- 18_guest R447
theorem test_word_gsub : decodeTableWord 96 0x00000000_00003E0E_048457C4 = some (.gsub hd (.s 5) (.s 8) 0#32 3#4) := by decide +kernel

/-- Decode failures: a reserved modifier bit of IADD (R61), a last-read bit without a register (R59), a predicate as a source of IMUL (R55), the
pair of 03_encoding's example with v6 in place of v8 (R75). -/
theorem test_illegal_field : decode (0x00000000_00040E00_2010_3710#96) = .error { cause := 3#8, tval := 44#64 } := by decide +kernel
theorem test_illegal_last_read : decode (0x00200000_00000E0E_0E0E0700#96) = .error { cause := 3#8, tval := 85#64 } := by decide +kernel
theorem test_illegal_operand : decode (0x00000000_00300E0E_18101712#96) = .error { cause := 2#8, tval := 20#64 } := by decide +kernel
theorem test_illegal_pair : decode (0x000060A2_71200003_040F30FF#96) = .error { cause := 4#8, tval := 5#64 } := by decide +kernel

/-! ## Well-formedness: each check refuses an ill-formed term -/

theorem test_wf_good : WellFormed (.iadd hd (.v 1) (.v 2) (.s 3) intN) := by decide
theorem test_wf_guard : ¬ WellFormed (.nop { hd with guard := { neg := true, p := 7 } }) := by decide
theorem test_wf_last_read : ¬ WellFormed (.iadd { hd with lb := true } (.v 1) (.v 2) (.imm 3#32) intN) := by decide
theorem test_wf_dest_kind : ¬ WellFormed (.iadd hd (.s 1) (.v 2) (.v 3) intN) := by decide
theorem test_wf_source_kind : ¬ WellFormed (.sadd hd (.s 1) (.v 2) (.s 3) { signed := false, sat := false, w64 := false }) := by decide
theorem test_wf_lane_in_scalar : ¬ WellFormed (.smov hd (.s 1) (.sr .lane)) := by decide
theorem test_wf_one_imm : ¬ WellFormed (.iadd hd (.v 1) (.imm 1#32) (.imm 2#32) intN) := by decide
theorem test_wf_scalar_sat : ¬ WellFormed (.smulh hd (.s 1) (.s 2) (.s 3) { signed := false, sat := true, w64 := false }) := by decide
theorem test_wf_fp_rm : ¬ WellFormed (.fmin hd (.v 1) (.v 2) (.v 3) { fpN with rm := .rz }) := by decide
theorem test_wf_fp_negate : ¬ WellFormed (.fadd hd (.v 1) (.v 2) (.v 3) { fpN with nc := true }) := by decide
theorem test_wf_half : ¬ WellFormed (.hmin2 hd (.v 1) (.v 2) (.v 3)
    { rm := .rz, sat := false, na := false, nb := false, nc := false, f16 := true }) := by decide
theorem test_wf_conversion : ¬ WellFormed (.cvt hd (.v 1) (.v 2) { dfmt := .e8m0, sfmt := .i32, sat := false, rm := .rne }) := by decide
theorem test_wf_element : ¬ WellFormed (.cvtpk hd (.v 1) (.v 2) (.v 3)
    { dfmt := .e4m3, sfmt := .f32, sat := false, rm := .rne } 4#3) := by decide
theorem test_wf_dcvt : ¬ WellFormed (.dcvt hd (.s 1) (.s 2) { dfmt := .bf16, sfmt := .f32, sat := false, rm := .rne } false) := by decide
theorem test_wf_part : ¬ WellFormed (.part hd 6#3) := by decide
theorem test_wf_join_guard : ¬ WellFormed (.join { hd with guard := { neg := false, p := 0 } }) := by decide
theorem test_wf_group : ¬ WellFormed (.ld hd (.v 62) (.s 1) .zero 0#32 { width := .b32x4, space := .global, policy := .normal }) := by decide
theorem test_wf_width : ¬ WellFormed (.ld hd (.v 1) (.s 1) .zero 0#32 { width := .b64, space := .global, policy := .normal }) := by decide
theorem test_wf_scalar_width : ¬ WellFormed (.sld hd (.s 1) (.s 2) 0#32 { width := .b32x2, space := .global, policy := .normal }) := by decide
theorem test_wf_const_store : ¬ WellFormed (.sst hd (.s 1) (.s 2) 0#32 { width := .b32, space := .const, policy := .normal }) := by decide
theorem test_wf_policy : ¬ WellFormed (.sld hd (.s 1) (.s 2) 0#32 { width := .b32, space := .scratch, policy := .nt }) := by decide
theorem test_wf_offset : ¬ WellFormed (.st hd (.s 1) (.v 2) (.imm 1#32) 4#32 { width := .b32, space := .global, policy := .normal }) := by decide
theorem test_wf_atomic_width : ¬ WellFormed (.red hd (.s 1) (.v 2) (.v 3) 0#32 { op := .fadd32, w64 := true, scope := .pkg }) := by decide
theorem test_wf_atomic_scope : ¬ WellFormed (.dcas hd (.s 1) (.s 2) 0#32 { op := .add, w64 := true, scope := .clu }) := by decide
theorem test_wf_directed_fence : ¬ WellFormed (.fence hd .pkg true 24#5 0#6 1#6) := by decide
theorem test_wf_accumulator : ¬ WellFormed (.mma hd (.v 1) (.s 1) (.s 2) .zero { fmt := .bf16, nz := false, i32 := false }) := by decide
theorem test_wf_matrix_format : ¬ WellFormed (.mma hd (.v 0) (.s 1) (.s 2) .zero { fmt := .i8, nz := false, i32 := false }) := by decide
theorem test_wf_slice : ¬ WellFormed (.mmasp hd (.v 0) (.s 1) (.s 2) (.v 32) { fmt := .bf16, nz := false, i32 := false } 2#3) := by decide
theorem test_wf_tile_store : ¬ WellFormed (.mstt hd (.s 1) (.v 0) { fmt := .e2m1, nz := false, i32 := false } 0#3 0#3) := by decide
theorem test_wf_chunk : ¬ WellFormed (.mstt hd (.s 1) (.v 0) { fmt := .bf16, nz := false, i32 := false } 1#3 0#3) := by decide
theorem test_wf_pair_banks : ¬ WellFormed (.pair
    { op := .fadd fpN, guard := 7, d := 1, a := .v 2, b := .v 3, la := false, lb := false }
    { op := .imul intN, guard := 7, d := 4, a := .v 5, b := .v 6, la := false, lb := false }) := by decide
theorem test_wf_pair_source : ¬ WellFormed (.pair
    { op := .mov, guard := 7, d := 1, a := .v 2, b := .v 1, la := false, lb := false }
    { op := .imul intN, guard := 7, d := 4, a := .v 5, b := .v 8, la := false, lb := false }) := by decide
theorem test_wf_unassigned : ¬ WellFormed (.illegalOpcode 0x10#8) := by decide
theorem test_wf_command : ¬ WellFormed (.create 0x02#512) := by decide +kernel

/-! ## Hypotheses that something meets

A lone gang on core 0 of C0 with every register live, in a kernel whose handler stands at its start. -/

def place0 : GangId := { die := 0, core := 0, sched := 0, place := 0 }
def arch0 : Arch :=
  { startArch 0#32 0 with v := Vector.replicate 64 (some [{ count := 32, value := 0#32, poison := false }]),
                          s := Vector.replicate 64 (some 0#64), p := Vector.replicate 7 fullMask }
def gang0 : Gang := { loneGang 0 place0 with arch := arch0 }
def kern0 : Kernel := { loneKernel with trap := 0#32 }
def st0 : State :=
  { State.reset with gangs := [gang0], blocks := [loneBlock 0 place0], kernels := [kern0], nextUid := 1, nextOp := 1 }
/-- The machine with registers `a` in the gang. -/
def stA (a : Arch) : State := { st0 with gangs := [{ gang0 with arch := a }] }
def ctxA (a : Arch) : Ctx := { s := stA a, x := .a, g := { gang0 with arch := a }, act := fullMask }
def ctx0 : Ctx := ctxA arch0
def entryT : Option (BitVec 32 × Bool) := some (0#32, false)

theorem enter0 : Enters (stA arch0) alwaysGuard ctx0 := ⟨by rfl, by decide +kernel, by decide +kernel⟩

/-- A register instruction that `table` lists runs in the lone gang. -/
theorem wit_VectorIntegerResults : ∃ i op s c, regInt i = some op ∧ Enters s op.head.guard c ∧ op.Runs c :=
  ⟨.iadd hd (.v 1) (.v 2) (.v 3) intN, _, _, ctx0, rfl, enter0,
    ⟨.inl (by decide +kernel), by decide, by decide +kernel, by decide +kernel, by decide +kernel, by decide +kernel⟩⟩

theorem wit_VectorFloatResults : ∃ i op s c, regFp i = some op ∧ Enters s op.head.guard c ∧ op.Runs c :=
  ⟨.fadd hd (.v 1) (.v 2) (.v 3) fpN, _, _, ctx0, rfl, enter0,
    ⟨.inl (by decide +kernel), by decide, by decide +kernel, by decide +kernel, by decide +kernel, by decide +kernel⟩⟩

theorem wit_ConversionResults : ∃ i op s c, regConvert i = some op ∧ Enters s op.head.guard c ∧ op.Runs c :=
  ⟨.cvt hd (.v 1) (.v 2) { dfmt := .f32, sfmt := .i32, sat := false, rm := .rne }, _, _, ctx0, rfl, enter0,
    ⟨.inl (by decide +kernel), by decide, by decide +kernel, by decide +kernel, by decide +kernel, by decide +kernel⟩⟩

theorem wit_SelectAndCrossLaneResults :
    (∃ i op s c, regSelect i = some op ∧ Enters s op.head.guard c ∧ op.Runs c)
    ∧ ∃ i op s c, regCross i = some op ∧ Enters s op.head.guard c ∧ op.Runs c :=
  ⟨⟨.sel hd (.v 1) (.v 2) (.v 3) (.p 0), _, _, ctx0, rfl, enter0,
      ⟨.inl (by decide +kernel), by decide, by decide +kernel, by decide +kernel, by decide +kernel, by decide +kernel⟩⟩,
    ⟨.reduce hd (.v 1) (.v 2) .add, _, _, ctx0, rfl, enter0,
      ⟨.inl (by decide +kernel), by decide, by decide +kernel, by decide +kernel, by decide +kernel, by decide +kernel⟩⟩⟩

theorem wit_ScalarAndPairResults :
    (∃ i op s c, regScalar i = some op ∧ Enters s op.head.guard c ∧ op.Runs c)
    ∧ ∃ i op s c, regPair i = some op ∧ Enters s op.head.guard c ∧ op.Runs c :=
  ⟨⟨.smov hd (.s 1) (.s 2), _, _, ctx0, rfl, enter0,
      ⟨.inl (by decide +kernel), by decide, by decide +kernel, by decide +kernel, by decide +kernel, by decide +kernel⟩⟩,
    ⟨.pair { op := .fadd fpN, guard := 7, d := 1, a := .v 2, b := .v 3, la := false, lb := false }
        { op := .imul intN, guard := 7, d := 4, a := .v 5, b := .v 8, la := false, lb := false }, _, _, ctx0, rfl, enter0,
      ⟨.inl (by decide +kernel), by decide, by decide +kernel, by decide +kernel, by decide +kernel, by decide +kernel⟩⟩⟩

def hp0 : Head := { hd with guard := { neg := false, p := 0 } }
/-- No lane is active. -/
def archN : Arch := { arch0 with p := Vector.replicate 7 0#32 }
def ctxN : Ctx := { ctxA archN with act := 0#32 }
/-- A load that may still trap is under way. -/
def stR (a : Arch) : State :=
  { stA a with pend := [{ op := 0, gang := place0, ctx := 0, slot := .b, pc := 0#32, tick := 0, sent := none, kills := [], dsts := [],
                          ckpt := a, kind := .load (.v 9) 4 false fullMask [] .normal }] }
/-- v2 is dead. -/
def archD : Arch := { arch0 with v := arch0.v.set 2 none }
/-- The trap of an integer flag is enabled (R85). -/
def archE : Arch := { arch0 with fpmode := 0x200#10 }

theorem wit_RegisterStops_none : ∃ i op s c, registerOp i = some op ∧ Enters s op.head.guard c ∧ c.act = 0#32
    ∧ deadCheck c.a op.reads = none ∧ MayCommit c (killRegs c.a op.marks) :=
  ⟨.iadd hp0 (.v 1) (.v 2) (.v 3) intN, _, stA archN, ctxN, rfl, ⟨rfl, by decide +kernel, by decide +kernel⟩, rfl, by decide +kernel, .inr (by decide +kernel)⟩
theorem wit_RegisterStops_dead : ∃ i op s c code, registerOp i = some op ∧ Enters s op.head.guard c
    ∧ firstDead c.a op.reads = some code ∧ c.clear = true :=
  ⟨.iadd hd (.v 1) (.v 2) (.v 3) intN, _, stA archD, ctxA archD, 2#8, rfl, ⟨rfl, by decide +kernel, by decide +kernel⟩, by decide +kernel, by decide +kernel⟩
/-- An older load may still trap. -/
theorem wit_RegisterStops_waits : ∃ i op s c code, registerOp i = some op ∧ Enters s op.head.guard c
    ∧ firstDead c.a op.reads = some code ∧ c.clear = false :=
  ⟨.iadd hd (.v 1) (.v 2) (.v 3) intN, _, stR archD, { ctxA archD with s := stR archD }, 2#8, rfl, ⟨rfl, by decide +kernel, by decide +kernel⟩, by decide +kernel,
    by decide +kernel⟩
theorem wit_RegisterStops_exception : ∃ i op s c entry tvec, registerOp i = some op ∧ Enters s op.head.guard c
    ∧ c.act ≠ 0#32 ∧ deadCheck c.a op.reads = none ∧ op.check c = none ∧ c.clear = true ∧ c.a.mode = .running
    ∧ trapEntry s c.g = some (entry, tvec) ∧ (excCheck c.a.fpmode (op.flags c)).isSome = true :=
  ⟨.idiv hd (.v 1) (.v 2) (.v 3) intN, _, stA archE, ctxA archE, 0#32, false, rfl, ⟨rfl, by decide +kernel, by decide +kernel⟩, by decide, by decide +kernel,
    by decide +kernel, by decide +kernel, rfl, by decide +kernel, by decide +kernel⟩

/-- With that load, an instruction that takes or returns run slots is settled later, with and without a lane active. -/
theorem wit_RegisterStops_late : ∃ i op s c, registerOp i = some op ∧ Enters s op.head.guard c ∧ c.act ≠ 0#32
    ∧ deadCheck c.a op.reads = none ∧ op.check c = none ∧ excCheck c.a.fpmode (op.flags c) = none
    ∧ ¬ MayCommit c { c.a with v := c.a.v.set 1 none } :=
  ⟨.iadd hd (.v 1) (.v 2) (.v 3) intN, _, stR arch0, { ctx0 with s := stR arch0 }, rfl, ⟨rfl, by decide +kernel, by decide +kernel⟩,
    by decide, by decide +kernel, by decide +kernel, by decide +kernel,
    fun h => h.elim (fun x => absurd x (by decide +kernel)) (fun x => absurd x (by decide +kernel))⟩
theorem wit_RegisterStops_late_none : ∃ i op s c, registerOp i = some op ∧ Enters s op.head.guard c ∧ c.act = 0#32
    ∧ deadCheck c.a op.reads = none ∧ ¬ MayCommit c (killRegs c.a op.marks) :=
  ⟨.iadd { hp0 with la := true } (.v 1) (.v 2) (.v 3) intN, _, stR archN, { ctxN with s := stR archN }, rfl,
    ⟨rfl, by decide +kernel, by decide +kernel⟩, rfl, by decide +kernel,
    fun h => h.elim (fun x => absurd x (by decide +kernel)) (fun x => absurd x (by decide +kernel))⟩

theorem wit_IntegerArithmetic : ∃ a b : Word, b ≠ 0#32 ∧ ¬(a = 0x80000000#32 ∧ b = 0xFFFFFFFF#32)
    ∧ 32 ≤ ((0x20#32).extractLsb' 0 8).toNat := ⟨7#32, 2#32, by decide, by decide, by decide⟩

theorem wit_NaNOperandCanonical : ∃ (m : FpMod) (a : Word), m.sat = false ∧ isNan ffF32 a.toNat = true :=
  ⟨fpN, 0x7F800001#32, rfl, by decide +kernel⟩

/-- In trap mode, entered from slot a. -/
def archT : Arch := { arch0 with mode := .trap, tslot := .a, frame := { pc := 0#32, mask := fullMask, join := none, sp := 0 } }

theorem wit_RunAndSpecialRegisters : ∃ (s : State) (c : Ctx), Enters s hd.guard c ∧ c.act ≠ 0#32
    ∧ heldSlots c.a + 32 ≤ slotLimit c.s c.g ∧ c.a.vreg 2 = some [{ count := 32, value := 0#32, poison := false }]
    ∧ mergeCheck c.a c.act (.v 1) = none
    ∧ runappList (c.a.vreg 3) true true 5#32 32 = .inr [{ count := 32, value := 5#32, poison := false }]
    ∧ c.a.sreg 4 = some 0#64 ∧ c.a.mode = .trap ∧ c.clear = true ∧ c.a.pipeErr = none :=
  ⟨stA archT, ctxA archT, ⟨rfl, by decide +kernel, by decide +kernel⟩, by decide, by decide +kernel, by decide +kernel, by decide +kernel, by decide +kernel,
    by decide +kernel, rfl, by decide +kernel, rfl⟩

/-! ### Control flow -/

theorem wit_WholeSlotTransfers : ∃ (s : State) (c : Ctx), Enters s alwaysGuard c ∧ c.act ≠ 0#32 ∧ c.act = c.slot.mask
    ∧ targetOk (relTarget c.pc 5#16) (codeLength c) = true ∧ targetOk (relTarget c.pc 0x8000#16) (codeLength c) = false
    ∧ c.a.sreg 1 = some 0#64 ∧ targetOk 0#64 (codeLength c) = true :=
  ⟨_, ctx0, enter0, by decide, by decide, by decide +kernel, by decide +kernel, by decide +kernel, by decide +kernel⟩
theorem wit_WholeSlotTransfers_none : ∃ (s : State) (c : Ctx), Enters s hp0.guard c ∧ c.act = 0#32 :=
  ⟨stA archN, ctxN, ⟨rfl, by decide +kernel, by decide +kernel⟩, rfl⟩

/-- Half of the lanes satisfy p0. -/
def archH : Arch := { arch0 with p := Vector.replicate 7 0xFFFF#32 }
def ctxH : Ctx := { ctxA archH with act := 0xFFFF#32 }
/-- Both PC slots live, the stack full but for one entry. -/
def archF : Arch := { archH with sp := 63, slotB := { archH.slotA with mask := 1#32 } }

theorem wit_WholeSlotTransfers_divide : ∃ (s : State) (c : Ctx), Enters s hp0.guard c ∧ c.act ≠ 0#32
    ∧ c.slot.mask &&& ~~~c.act ≠ 0#32 ∧ c.act &&& ~~~c.slot.mask = 0#32
    ∧ targetOk (relTarget c.pc 5#16) (codeLength c) = true ∧ c.a.sp + (if otherFree c then 1 else 2) ≤ 64 :=
  ⟨stA archH, ctxH, ⟨rfl, by decide +kernel, by decide +kernel⟩, by decide, by decide, by decide, by decide +kernel, by decide +kernel⟩
theorem wit_WholeSlotTransfers_overflow : ∃ (s : State) (c : Ctx), Enters s hp0.guard c
    ∧ targetOk (relTarget c.pc 5#16) (codeLength c) = true ∧ c.slot.mask &&& ~~~c.act ≠ 0#32
    ∧ 64 < c.a.sp + (if otherFree c then 1 else 2) :=
  ⟨stA archF, { ctxA archF with act := 0xFFFF#32 }, ⟨rfl, by decide +kernel, by decide +kernel⟩, by decide +kernel, by decide, by decide +kernel⟩

/-- v1 holds an index past a table of one word. -/
def archJ : Arch := { arch0 with v := arch0.v.set 1 (some [{ count := 32, value := 9#32, poison := false }]) }
theorem wit_IndexedJump_range : ∃ (s : State) (c : Ctx) (l : Nat), Enters s hd.guard c ∧ c.act ≠ 0#32
    ∧ deadCheck c.a (single [.v 1, .s 2]) = none ∧ readCheck c.a c.act (single [.v 1]) = none
    ∧ (lanesIn c.act).find? (fun l => decide ((laneOf c (.v 1) l).toNat > (0#8).toNat)) = some l :=
  ⟨stA archJ, ctxA archJ, 0, ⟨rfl, by decide +kernel, by decide +kernel⟩, by decide, by decide +kernel, by decide +kernel, by decide +kernel⟩

/-- The gang stands at its join, the first of two paths to arrive. -/
def joinEntry (n : Nat) : Entry := { kind := .join, pc := 0#32, mask := 0#32, link := n, parent := none }
def archW (n : Nat) : Arch :=
  { arch0 with sp := 1, stack := arch0.stack.set 0 (joinEntry n), slotA := { arch0.slotA with join := some 0 } }
theorem wit_JoinAndExit_first : ∃ (s : State) (c : Ctx), Enters s alwaysGuard c ∧ c.slot.join = some 0
    ∧ (entryAt c.a 0).kind = .join ∧ (entryAt c.a 0).pc = c.pc ∧ 1 < (entryAt c.a 0).link ∧ topPath c.a c.a.sp = none :=
  ⟨stA (archW 2), ctxA (archW 2), ⟨by rfl, by decide +kernel, by decide +kernel⟩, rfl, rfl, rfl, by decide, by decide +kernel⟩
theorem wit_JoinAndExit_last : ∃ (s : State) (c : Ctx), Enters s alwaysGuard c ∧ c.slot.join = some 0
    ∧ (entryAt c.a 0).kind = .join ∧ (entryAt c.a 0).pc = c.pc ∧ (entryAt c.a 0).link = 1
    ∧ (entryAt c.a 0).mask ||| c.slot.mask ≠ 0#32 :=
  ⟨stA (archW 1), ctxA (archW 1), ⟨by rfl, by decide +kernel, by decide +kernel⟩, rfl, rfl, rfl, rfl, by decide⟩
theorem wit_JoinAndExit_exit : ∃ (s : State) (c : Ctx), Enters s hp0.guard c ∧ c.a.mode = .running ∧ c.act ≠ 0#32
    ∧ c.slot.mask &&& ~~~c.act ≠ 0#32 := ⟨stA archH, ctxH, ⟨rfl, by decide +kernel, by decide +kernel⟩, rfl, by decide, by decide⟩
theorem wit_JoinAndExit_trap : ∃ (s : State) (c : Ctx), Enters s hd.guard c ∧ c.a.mode = .trap ∧ c.clear = true
    ∧ (findBlock s c.g.block).isSome = true :=
  ⟨stA archT, ctxA archT, ⟨rfl, by decide +kernel, by decide +kernel⟩, rfl, by decide +kernel, by decide +kernel⟩

/-- Asleep until tick 3. -/
def archS : Arch := { arch0 with slotA := { arch0.slotA with wait := .sleep 3 { kills := [], d := .zero } },
                                 s := Vector.replicate 64 (some 5#64) }
theorem wit_YieldAndSleep : ∃ (s : State) (c : Ctx), Enters s hd.guard c ∧ c.act ≠ 0#32 ∧ c.a.sreg 1 = some 5#64
    ∧ ((5#64).setWidth 32 : BitVec 32) ≠ 0#32 := ⟨stA archS, ctxA archS, ⟨rfl, by decide +kernel, by decide +kernel⟩, by decide, by decide +kernel, by decide⟩
theorem wit_YieldAndSleep_expiry : ∀ t ∈ [2, 3], ∃ (s : State) (g : Gang) (r : Retire), s.tick = t ∧ findGang s g.id = some g
    ∧ (g.arch.slot .a).wait = .sleep 3 r ∧ g.halted = false ∧ (g.arch.slot .a).live = true ∧ modeReady g.arch .a = true := by
  intro t _
  exact ⟨{ stA archS with tick := t }, { gang0 with arch := archS }, _, rfl, rfl, rfl, rfl, rfl, rfl⟩

theorem wit_TrapInstructions : ∃ (s : State) (c : Ctx), Enters s hd.guard c ∧ deadCheck c.a (single [.s 1]) = none
    ∧ c.act ≠ 0#32 ∧ c.clear = true ∧ wordPoison c.a (.s 1) = false ∧ assignedOpc (0xF0#8).toNat = false :=
  ⟨_, ctx0, enter0, by decide +kernel, by decide, by decide +kernel, by decide +kernel, by decide⟩
theorem wit_TrapInstructions_none : ∃ (s : State) (c : Ctx), Enters s hp0.guard c ∧ deadCheck c.a (single [.s 1]) = none
    ∧ c.act = 0#32 ∧ MayCommit c (killRegs c.a (headKills hp0 (.s 1) .zero .zero)) :=
  ⟨stA archN, ctxN, ⟨rfl, by decide +kernel, by decide +kernel⟩, by decide +kernel, rfl, .inr (by decide +kernel)⟩
theorem wit_TrapInstructions_waits : ∃ (s : State) (c : Ctx), Enters s alwaysGuard c ∧ c.clear = false :=
  ⟨stR arch0, { ctx0 with s := stR arch0 }, ⟨by rfl, by decide +kernel, by decide +kernel⟩, by decide +kernel⟩

theorem wit_TrapEntry : ∃ (s : State) (g : Gang), findGang s g.id = some g ∧ g.arch.mode = .running
    ∧ trapEntry s g = some (0#32, false) := ⟨st0, gang0, rfl, rfl, by decide +kernel⟩
theorem wit_TrapEntry_again : ∃ (s : State) (g : Gang) (b : Block), findGang s g.id = some g ∧ g.arch.mode = .trap
    ∧ findBlock s g.block = some b := ⟨stA archT, { gang0 with arch := archT }, loneBlock 0 place0, rfl, rfl, rfl⟩

/-- A handler that returns to lane 4 of the trapping instruction. -/
def archR : Arch := { archT with tpc := 0#64, tlane := 4#5 }
theorem wit_EretReturns : ∃ (s : State) (c : Ctx), Enters s hd.guard c ∧ c.act ≠ 0#32 ∧ c.a.mode = .trap
    ∧ c.a.sp = c.a.frame.sp ∧ targetOk c.a.tpc (ownLength c) = true ∧ c.a.tpc = c.a.frame.pc.setWidth 64 ∧ c.a.tlane ≠ 0#5
    ∧ c.clear = true :=
  ⟨stA archR, ctxA archR, ⟨rfl, by decide +kernel, by decide +kernel⟩, by decide, rfl, rfl, by decide +kernel, by decide, by decide, by decide +kernel⟩
theorem wit_EretReturns_waits : ∃ (s : State) (c : Ctx), Enters s hd.guard c ∧ c.act ≠ 0#32 ∧ c.a.mode = .trap
    ∧ c.a.sp = c.a.frame.sp ∧ targetOk c.a.tpc (ownLength c) = true ∧ c.clear = false :=
  ⟨stR archR, { ctxA archR with s := stR archR }, ⟨rfl, by decide +kernel, by decide +kernel⟩, by decide, rfl, rfl, by decide +kernel,
    by decide +kernel⟩

/-! ### Loads, stores and atomics -/

def pend0 (k : PendKind) : Pend :=
  { op := 0, gang := place0, ctx := 0, slot := .a, pc := 0#32, tick := 0, sent := none, kills := [], dsts := [], ckpt := arch0, kind := k }
/-- Every link carries traffic. -/
def linksUp : List Link := st0.links.map fun l => { l with state := .active }
def stP (k : PendKind) : State := { st0 with pend := [pend0 k], links := linksUp }
def acc0 : LaneAcc := { lane := 0, va := 0#64, tgt := .scratch 0 0 8, data := 0x12345678#128 }
def scr32 : MemMod := { width := .b32, space := .scratch, policy := .normal }
def lanes32 (f : Nat → BitVec 64) : List (Nat × BitVec 64) := (lanesIn fullMask).map fun i => (i, f i)

theorem starts0 : Starts (stA arch0) hd (single [.s 1, .v 2]) [.s 1] ctx0 :=
  ⟨enter0, by decide, by decide +kernel, by decide +kernel⟩
theorem starts1 : Starts (stA arch0) hd (single [.s 1]) [.s 1] ctx0 := ⟨enter0, by decide, by decide +kernel, by decide +kernel⟩
theorem span0 : ScratchSpan ctx0 (.s 1) 0#32 64 .rmw 0 0 0 := by decide +kernel

def tlb0 : TlbEntry := { ctx := 0, base := 0, size := 65536, entry := 0x1F#64 }
def cont0 : Context := { newContext 0 0#512 with state := .active }
/-- The lone gang with a page of memory mapped, every link up and its context active. -/
def stM : State :=
  { st0 with dies := st0.dies.set 0 { Die.reset with tlb := [tlb0] }, contexts := [cont0], links := linksUp }
def ctxM : Ctx := { ctx0 with s := stM }
theorem enterM : Enters stM alwaysGuard ctxM := ⟨by rfl, by decide +kernel, by decide +kernel⟩
theorem startsM : Starts stM hd (single [.s 1, .s 2]) [.s 1, .s 2] ctxM :=
  ⟨enterM, by decide, by decide +kernel, by decide +kernel⟩

/-- A jump table of one word, 0, in the constants. -/
def stJ : State := { stM with kernels := [{ kern0 with constlen := 4 }] }
def ctxJ : Ctx := { ctx0 with s := stJ }
def jmpiRead : State × List (Nat × Word) × Bool :=
  tableWords (checkLanes stJ gang0 .const 4 .read (jmpiAddrs ctxJ (.v 1) (.s 2))).1 gang0
    (passing (checkLanes stJ gang0 .const 4 .read (jmpiAddrs ctxJ (.v 1) (.s 2))).2)
theorem wit_IndexedJump_goes : Enters stJ hd.guard ctxJ ∧ ctxJ.act ≠ 0#32 ∧ deadCheck ctxJ.a (single [.v 1, .s 2]) = none
    ∧ wordPoison ctxJ.a (.s 2) = false ∧ ctxJ.clear = true ∧ readCheck ctxJ.a ctxJ.act (single [.v 1]) = none
    ∧ (∀ l ∈ lanesIn ctxJ.act, (laneOf ctxJ (.v 1) l).toNat ≤ (0#8).toNat) ∧ JmpiReads ctxJ (.v 1) (.s 2) jmpiRead ∧ jmpiRead.2.2 = false
    ∧ (∀ w ∈ jmpiRead.2.1, targetOk (w.2.signExtend 64) (codeLength { ctxJ with s := jmpiRead.1 }) = true)
    ∧ (jmpiGroups (jmpiTarget ctxJ jmpiRead.2.1) (lanesIn ctxJ.slot.mask) []).length = 1 :=
  ⟨⟨by rfl, by decide +kernel, by decide +kernel⟩, by decide, by decide +kernel, by decide +kernel, by decide +kernel, by decide +kernel,
    by decide +kernel, ⟨by decide +kernel, by decide +kernel, rfl⟩, by decide +kernel, by decide +kernel, by decide +kernel⟩

theorem wit_LoadsComplete_lanes : ctx0.g.ld < 63 ∧ Starts (stA arch0) hd (single [.s 1, .v 2]) [.s 1] ctx0
    ∧ readCheck ctx0.a ctx0.act (single [.s 1, .v 2]) = none ∧ groupMerge ctx0.a ctx0.act (.v 3) 1 = none
    ∧ firstFail (checkLanes ctx0.s ctx0.g .scratch 4 .read
        ((lanesIn ctx0.act).map fun i => (i, laneAddr ctx0 .scratch (.s 1) (.v 2) 0#32 4 i))).2 = none :=
  ⟨by decide, starts0, by decide +kernel, by decide +kernel, by decide +kernel⟩
theorem wit_LoadsComplete_scalar : Starts (stA arch0) hd (single [.s 1]) [.s 1] ctx0 ∧ wordPoison ctx0.a (.s 1) = false
    ∧ firstFail (checkLanes ctx0.s ctx0.g .scratch 4 .read [(0, scalarAddr ctx0 .scratch (.s 1) 0#32 4)]).2 = none
    ∧ ScratchSpan ctx0 (.s 1) 0#32 8 .read 0 0 0 := ⟨starts1, by decide +kernel, by decide +kernel, by decide +kernel⟩
theorem wit_LoadsComplete_return : ∃ (s : State) (p : Pend) (g : Gang) (r : State × List (Nat × Nat × Bool)), findPend s 0 = some p
    ∧ p.kind = .load (.v 3) 4 false fullMask [acc0] .normal ∧ pendHeld s p = false ∧ olderRisk s p.gang 0 = false
    ∧ findGang s p.gang = some g ∧ lateReply s p = false
    ∧ (∀ x ∈ [acc0], loadReach s g.id .normal x.tgt = true) ∧ 4 ≤ 16 ∧ r = readLanes s g .normal 4 [acc0]
    ∧ (∀ x ∈ r.2, x.2.2 = false) ∧ heldSlots g.arch + 32 * max 1 (4 / 4) ≤ slotLimit s g :=
  ⟨stP (.load (.v 3) 4 false fullMask [acc0] .normal), _, gang0, _, rfl, rfl, by decide +kernel, by decide +kernel, rfl,
    by decide +kernel, by decide +kernel, by decide, rfl, by decide +kernel, by decide +kernel⟩
theorem wit_LoadsComplete_prefetch : Enters (stA arch0) hd.guard ctx0 ∧ ctx0.act ≠ 0#32 ∧ deadCheck ctx0.a (single [.s 1, .v 2]) = none
    ∧ MayCommit ctx0 (killRegs ctx0.a (headKills hd (.s 1) (.v 2) .zero)) :=
  ⟨enter0, by decide, by decide +kernel, .inr (by decide +kernel)⟩

theorem wit_StoresIssue : ctx0.g.st < 63 ∧ Starts (stA arch0) hd [(.s 1, 1), (.v 2, 1), (.v 3, 1)] [.s 1] ctx0
    ∧ readCheck ctx0.a ctx0.act [(.s 1, 1), (.v 2, 1), (.v 3, 1)] = none
    ∧ MayCommit ctx0 (killRegs ctx0.a (killsOf hd (.s 1, 1) (.v 2, 1) (.v 3, 1))) ∧ ctx0.clear = true
    ∧ firstFail ((checkLanes ctx0.s ctx0.g .scratch 4 .write
        ((lanesIn ctx0.act).map fun i => (i, laneAddr ctx0 .scratch (.s 1) (.v 2) (storeOff (.v 3) 0#32) 4 i))).2.map (bellSize 4)) = none :=
  ⟨by decide, ⟨enter0, by decide, by decide +kernel, by decide +kernel⟩, by decide +kernel, .inr (by decide +kernel), by decide +kernel,
    by decide +kernel⟩
theorem wit_StoresIssue_scalar : Starts (stA arch0) hd (single [.s 1, .s 2]) [.s 1] ctx0 ∧ wordCheck ctx0.a [.s 1, .s 2] = none
    ∧ MayCommit ctx0 (killRegs ctx0.a (headKills hd (.s 1) .zero (.s 2)))
    ∧ firstFail ((checkLanes ctx0.s ctx0.g .scratch 4 .write [(0, scalarAddr ctx0 .scratch (.s 1) (storeOff (.s 2) 0#32) 4)]).2.map
        (bellSize 4)) = none :=
  ⟨⟨enter0, by decide, by decide +kernel, by decide +kernel⟩, by decide +kernel, .inr (by decide +kernel), by decide +kernel⟩
theorem wit_StoresIssue_spill : Starts (stA arch0) hd (single [.s 1, .v 2]) [.s 1] ctx0 ∧ wordPoison ctx0.a (.s 1) = false
    ∧ ctx0.a.vreg 2 = some [{ count := 32, value := 0#32, poison := false }]
    ∧ lengthOf [{ count := 32, value := 0#32, poison := false }] = 32
    ∧ MayCommit ctx0 (killRegs ctx0.a (headKills hd (.s 1) .zero (.v 2) ++ [(.v 2, 1)]))
    ∧ (spaceTarget ctx0.s ctx0.g .scratch (scalarAddr ctx0 .scratch (.s 1) 0#32 8)
        (imageBytes [{ count := 32, value := 0#32, poison := false }]).length .write).2 = .inr (.scratch 0 0 0) :=
  ⟨starts0, by decide +kernel, by decide +kernel, by decide, .inr (by decide +kernel), by decide +kernel⟩
/-- An offset past the block's allocation. -/
theorem wit_StoresIssue_trap : firstFail ((checkLanes ctx0.s ctx0.g .scratch 4 .write
      ((lanesIn ctx0.act).map fun i => (i, laneAddr ctx0 .scratch (.s 1) (.v 2) (storeOff (.v 3) 0x800#32) 4 i))).2.map (bellSize 4))
      = some (.trap 0x08#8 0x800#64 0#5) ∧ ctx0.a.mode = .running ∧ ∃ x, trapEntry st0 ctx0.g = some x :=
  ⟨by decide +kernel, rfl, _, rfl⟩

def accM : LaneAcc := { lane := 0, va := 0#64, tgt := .mem 0x100 false, data := 3#128 }
/-- The store of a lane to a scratchpad, a normal page and a host-biased page; the image of an RSPILL and of an MSTT. -/
theorem wit_StoresPerformed : ∀ k ∈ [PendKind.store 4 [acc0] .normal, .store 4 [accM] .normal, .store 4 [{ accM with tgt := .mem 0x100 true }] .normal,
      .image false 0 0 0 [1#8] [], .image true 0 0 0 [1#8] []], ∃ (s : State) (p : Pend), findPend s 0 = some p ∧ p.kind = k
    ∧ olderRisk s p.gang 0 = false ∧ pendHeld s p = false ∧ lateReply s p = false ∧ homeReach s p.gang.die (homeOf 0x100) = true
    ∧ homeLost s (homeOf 0x100) = false ∧ MemoryCanonical s ∧ leaveAsked s p.gang.die (isPendLeave 0) = false
    ∧ tilePoisoned s 0 0 0 [1#8] = false ∧ ∀ d c, Memory.wf (getCore s d c).scratch = true := by
  intro k hk
  refine ⟨stP k, pend0 k, rfl, rfl, ?_, ?_, ?_, ?_, ?_, ?_, ?_, ?_, fun d c => rfl⟩
  all_goals (fin_cases hk <;> decide +kernel)
/-- A younger store behind an unfinished store of the same bytes. -/
theorem wit_StoresPerformed_wait : ∃ (s : State) (p : Pend), findPend s 1 = some p ∧ pendHeld s p = true :=
  ⟨{ st0 with pend := [pend0 (.store 4 [acc0] .normal), { pend0 (.store 4 [acc0] .normal) with op := 1 }] }, _, rfl, by decide +kernel⟩

theorem wit_MemoryReadsBack : 0 < 4 ∧ 4 ≤ 16 ∧ 256 % 128 + 4 ≤ 128 ∧ MemoryCanonical st0 ∧ st0.migrations = []
    ∧ homeLost st0 (homeOf 0) = false := ⟨by decide, by decide, by decide, by decide +kernel, rfl, by decide +kernel⟩
theorem wit_MemoryReadsBack_lost : ∃ s : State, MemoryCanonical s ∧ s.migrations = [] ∧ homeLost s (homeOf 0) = true :=
  ⟨{ st0 with lost := 0xFFFF00#32 }, by decide +kernel, rfl, by decide +kernel⟩

/-- An access of one lane or two at a home. -/
def accN : LaneAcc := { lane := 1, va := 0#64, tgt := .mem 0x104 false, data := 3#128 }
theorem atHome (h : HomeOp) (hh : h ∈ [HomeOp.red .add, .ast, .nt 4, .atom .add, .cas [(0, 0#64), (1, 0#64)], .ald]) (counted : Bool) :
    AtHomeNow (stP (.home h (.v 3) false .pkg 3#32 [accM, accN] 0#32 counted))
      (pend0 (.home h (.v 3) false .pkg 3#32 [accM, accN] 0#32 counted)) h false .pkg [accM, accN] := by
  refine ⟨?_, ?_, ?_, ?_, ?_, ?_, ?_, ?_, ?_⟩ <;> fin_cases hh <;> cases counted <;> decide +kernel
theorem wit_AtomicEffects_home : ∀ h ∈ [HomeOp.red .add, .ast, .nt 4], ∃ (s : State) (p : Pend), findPend s 0 = some p
    ∧ p.kind = .home h (.v 3) false .pkg 3#32 [accM, accN] 0#32 true ∧ AtHomeNow s p h false .pkg [accM, accN]
    ∧ accM.tgt = .mem 0x100 false ∧ redWindow s p h false .pkg accM = none := by
  intro h hh
  exact ⟨_, _, rfl, rfl, atHome h (by fin_cases hh <;> decide) true, rfl, by fin_cases hh <;> decide +kernel⟩
theorem wit_AtomicEffects_returns : ∀ h ∈ [HomeOp.atom .add, .cas [(0, 0#64), (1, 0#64)], .ald], ∃ (s : State) (p : Pend) (g : Gang),
    findPend s 0 = some p ∧ p.kind = .home h (.v 3) false .pkg 3#32 ([(accM, 0x100), (accN, 0x104)].map fun x => x.1) 0#32 false
    ∧ AtHomeNow s p h false .pkg ([(accM, 0x100), (accN, 0x104)].map fun x => x.1) ∧ findGang s p.gang = some g
    ∧ (∀ x ∈ [(accM, 0x100), (accN, 0x104)], ∃ hb, x.1.tgt = .mem x.2 hb)
    ∧ (∀ x ∈ [(accM, 0x100), (accN, 0x104)], homePoisoned s x.2 = false) ∧ heldSlots g.arch + 64 ≤ slotLimit s g
    ∧ lanesIn 3#32 = [(accM, 0x100), (accN, 0x104)].map (fun x => x.1.lane) := by
  intro h hh
  refine ⟨_, _, gang0, rfl, rfl, atHome h (by fin_cases hh <;> decide) false, rfl, ?_, ?_, ?_, ?_⟩
  · intro x hx; fin_cases hx <;> exact ⟨false, rfl⟩
  · intro x hx; fin_cases hx <;> fin_cases hh <;> decide +kernel
  · fin_cases hh <;> decide +kernel
  · decide +kernel

def sheet0 (st : SheetState) : Sheet :=
  { sheet := 1, state := st, held := 3#2, work := 0#2048, twin := 0#2048, sent := 0#64, grants := (0, 0), seen := (0, 0),
    twinTick := 0, poison := 0#64 }
def die0 (st : SheetState) : Die := { Die.reset with sheets := [sheet0 st] }
theorem wit_AtomicEffects_value : ∀ st ∈ [SheetState.clean, .twinned, .releasing], ∀ n ∈ [4, 8], ∃ (s : State) (x : Sheet),
    takeValue 8 0 s.msgs = some ((0, 0x100, n, 5#64, 0), []) ∧ valueNext s 8 0 0 = true ∧ findSheet (getDie s 0) (0x100 / 256) = some x
    ∧ x.held.getLsbD (0x100 / 128 % 2) = true ∧ x.state = st ∧ 0x100 % n = 0 := by
  intro st _ n hn
  exact ⟨{ st0 with msgs := [.atomicValue 8 0 0 0x100 n 5#64 0], dies := st0.dies.set 0 (die0 st) }, sheet0 st, rfl, rfl, rfl,
    (by show (3#2 : BitVec 2).getLsbD _ = true; decide), rfl, by fin_cases hn <;> decide⟩

def atomClu : AtomMod := { op := .add, w64 := false, scope := .blk }
theorem wit_AtomicsComplete_unit : ∃ (f : AtomForm) (r : State × List Checked) (q : State × List (Nat × Nat × Bool)),
    atomForm (.red hd (.s 1) (.v 2) (.v 3) 0#32 atomClu) = some f
    ∧ f.Passes (stA arch0) ctx0 r ∧ f.goesHome ctx0 r = false
    ∧ Clear { ctx0 with s := r.1 } ((f.accs ctx0 r.2).map fun x => (x.tgt, wordSize f.m.w64)) ∧ f.m.scope ≠ .die
    ∧ q = unitPerformAll r.1 ctx0.g.id (stA arch0).nextOp ctx0.g.ctx (f.op ctx0) f.m.w64 f.m.scope (f.accs ctx0 r.2)
    ∧ (∀ x ∈ q.2, x.2.2 = false) ∧ heldSlots ctx0.a + 64 ≤ slotLimit (stA arch0) ctx0.g :=
  ⟨_, _, _, rfl, ⟨⟨enter0, by decide, by decide +kernel, by decide +kernel⟩, by decide +kernel, by decide +kernel, rfl, by decide +kernel,
    by decide +kernel⟩, by decide +kernel, ⟨by decide +kernel, by decide +kernel⟩, by decide, rfl, by decide +kernel, by decide +kernel⟩

def redIn (sc : Scope) : AtomMod := { op := .add, w64 := false, scope := sc }
theorem wit_AtomicsComplete_home : ∃ (f : AtomForm) (r : State × List Checked),
    atomForm (.red hd (.s 1) (.v 2) (.v 3) 0#32 (redIn .pkg)) = some f ∧ f.Passes stM ctxM r ∧ f.goesHome ctxM r = true
    ∧ MayCommit ctxM (killRegs ctxM.a f.kills) :=
  ⟨_, _, rfl, ⟨⟨enterM, by decide, by decide +kernel, by decide +kernel⟩, by decide +kernel, by decide +kernel, rfl, by decide +kernel,
    by decide +kernel⟩, by decide +kernel, .inr (by decide +kernel)⟩
/-- A die-scope RED on normal memory. -/
theorem wit_AtomicsComplete_die : ∃ (f : AtomForm) (r : State × List Checked),
    atomForm (.red hd (.s 1) (.v 2) (.v 3) 0#32 (redIn .die)) = some f ∧ f.Passes stM ctxM r ∧ f.goesHome ctxM r = false
    ∧ f.m.scope = .die ∧ twinsFit r.1 ctxM.g.id.die (f.accs ctxM r.2) = true :=
  ⟨_, _, rfl, ⟨⟨enterM, by decide, by decide +kernel, by decide +kernel⟩, by decide +kernel, by decide +kernel, rfl, by decide +kernel,
    by decide +kernel⟩, by decide +kernel, rfl, by decide +kernel⟩

/-- Both addresses of the descriptor are 0. -/
theorem wit_PairAtomics : Starts (stA arch0) hd (single [.s 1]) [.s 1] ctx0 ∧ wordPoison ctx0.a (.s 1) = false ∧ ctx0.g.st < 63
    ∧ ScratchSpan ctx0 (.s 1) 0#32 64 .rmw 0 0 0 ∧ heldBytes (stA arch0) place0 (stA arch0).nextOp [(.scratch 0 0 0, 64)] = false
    ∧ MayCommit ctx0 (killRegs ctx0.a (headKills hd (.s 1) .zero .zero)) ∧ descPoison (stA arch0) none true 0 0 0 = false
    ∧ descPoison (stA arch0) (some false) true 0 0 0 = false
    ∧ alignTo (BitVec.ofNat 64 (scratchNat (stA arch0) 0 0 0 8)) (wordSize true)
      = alignTo (BitVec.ofNat 64 (scratchNat (stA arch0) 0 0 8 8)) (wordSize true) :=
  ⟨starts1, by decide +kernel, by decide, span0, by decide +kernel, .inr (by decide +kernel), by decide +kernel, by decide +kernel, by decide +kernel⟩
/-- The second address of the descriptor is 16: the words do not touch. With the page mapped twice, at 0 and at 65536, they overlap. -/
def stPair (y : BitVec 8) : State :=
  scratchWrite { stM with dies := st0.dies.set 0 { Die.reset with tlb := [tlb0, { tlb0 with base := 65536 }] } } 0 0 8 [y, 0#8, (if y = 0#8 then 1#8 else 0#8)]
def ctxP (y : BitVec 8) : Ctx := { ctx0 with s := stPair y }
def pairWords (y : BitVec 8) : State × List Checked :=
  checkLanes (stPair y) ctx0.g .global 8 .rmw [(0, alignTo (BitVec.ofNat 64 (scratchNat (stPair y) 0 0 0 8)) 8),
    (0, alignTo (BitVec.ofNat 64 (scratchNat (stPair y) 0 0 8 8)) 8)]
theorem wit_PairAtomics_words : ∀ y ∈ [0#8, 16#8], ∃ tx ty : Nat × BitVec 64 × Target,
    Starts (stPair y) hd (single [.s 1]) [.s 1] (ctxP y) ∧ ScratchSpan (ctxP y) (.s 1) 0#32 64 .rmw 0 0 0
    ∧ heldBytes (stPair y) place0 (stPair y).nextOp [(.scratch 0 0 0, 64)] = false
    ∧ MayCommit (ctxP y) (killRegs (ctxP y).a (headKills hd (.s 1) .zero .zero)) ∧ firstFail ((pairWords y).2.map (bellAtomic (.atom .exch))) = none
    ∧ passing ((pairWords y).2.map (bellAtomic (.atom .exch))) = [tx, ty] ∧ tx.2.1 ≠ ty.2.1
    ∧ touches tx.2.2 ty.2.2 8 8 = decide (y = 0#8) ∧ tx.2.2 = .mem 0 false ∧ ty.2.2 = .mem y.toNat false
    ∧ targetReach (pairWords y).1 0 tx.2.2 = true ∧ targetReach (pairWords y).1 0 ty.2.2 = true
    ∧ descPoison (stPair y) none true 0 0 0 = false := by
  intro y hy
  fin_cases hy
  · exact ⟨(0, 0#64, .mem 0 false), (0, 65536#64, .mem 0 false), ⟨⟨by rfl, by decide +kernel, by decide +kernel⟩, by decide, by decide +kernel, by decide +kernel⟩,
      by decide +kernel, by decide +kernel, .inr (by decide +kernel), by decide +kernel, by decide +kernel, by decide, by decide +kernel, rfl, rfl,
      by decide +kernel, by decide +kernel, by decide +kernel⟩
  · exact ⟨(0, 0#64, .mem 0 false), (0, 16#64, .mem 16 false), ⟨⟨by rfl, by decide +kernel, by decide +kernel⟩, by decide, by decide +kernel, by decide +kernel⟩,
      by decide +kernel, by decide +kernel, .inr (by decide +kernel), by decide +kernel, by decide +kernel, by decide, by decide +kernel, rfl, rfl,
      by decide +kernel, by decide +kernel, by decide +kernel⟩

def pairOp0 : PairOp :=
  { d := .s 2, w64 := true, scope := .pkg, move := none, x := .mem 0 false, y := .mem 16 false, ex := 0#64, ey := 0#64, nx := 0#64,
    ny := 0#64, die := 0, core := 0, pos := 0 }
def accsP : List LaneAcc := [Target.mem 0 false, .mem 16 false].map fun t => { lane := 0, va := 0#64, tgt := t, data := 0#128 }
theorem wit_PairAtomics_rdc : pairLost (pairWords 16#8).1 pairOp0 = false
    ∧ { ctxP 16#8 with s := (pairWords 16#8).1 }.clear = true
    ∧ heldBytes (pairWords 16#8).1 place0 (pairWords 16#8).1.nextOp (accsP.map fun y => (y.tgt, 8)) = false
    ∧ twinsFit (pairWords 16#8).1 0 accsP = true
    ∧ (unitRead (flushFor (pairWords 16#8).1 place0 accsP) place0 0 .die (.mem 0 false) 8).2.2 = false
    ∧ (unitRead (unitRead (flushFor (pairWords 16#8).1 place0 accsP) place0 0 .die (.mem 0 false) 8).1 place0 0 .die (.mem 16 false) 8).2.2
      = false := by decide +kernel
theorem wit_PairAtomics_home : ∃ (s : State) (p : Pend) (g : Gang), findPend s 0 = some p ∧ p.kind = .dcas pairOp0
    ∧ findGang s p.gang = some g ∧ AtHomeNow s p (.atom .exch) true .pkg pairOp0.accs ∧ 0 + 8 ≤ 16 ∧ homePoisoned s 0 = false
    ∧ homePoisoned s 16 = false :=
  ⟨stP (.dcas pairOp0), pend0 (.dcas pairOp0), gang0, rfl, rfl, rfl, by constructor <;> decide +kernel, by decide, by decide +kernel, by decide +kernel⟩
/-- What the words may answer: both comparands equal, and not. -/
theorem wit_PairAtomics_results : (0#64 = cutWord true pairOp0.ex ∧ 0#64 = cutWord true pairOp0.ey) ∧ pairOp0.move = none
    ∧ ¬(1#64 = cutWord true pairOp0.ex ∧ 0#64 = cutWord true pairOp0.ey) := by decide

/-! ### Releases, barriers, counters and tags -/

def task7 : Task :=
  { id := 7, gang := some place0, die := 0, clusters := [0], scope := .pkg, stage := 6, ops := [], chains := [], writes := true,
    inbox := false, directed := none, notBefore := 0, folded := false, seenAt := 0, stuck := none, background := false, fault := none,
    range := none }
/-- The slot waits for release 7, with an instruction that it has begun. -/
def archQ : Arch := { arch0 with slotA := { arch0.slotA with wait := .task 7 } }
def begun0 (i : Instr) (vals : List DWord) (risk : Bool) : Pend := { pend0 (.begun i vals fullMask risk) with op := 1 }
def gangQ (l : List Posted) : Gang := { gang0 with arch := archQ, posted := l }
def stQ (p : Pend) (l : List Posted) (f : Option (BitVec 8 × BitVec 64)) : State :=
  { st0 with gangs := [gangQ l], tasks := [{ task7 with fault := f }], pend := [p] }
def ctxQ (p : Pend) (l : List Posted) (f : Option (BitVec 8 × BitVec 64)) : Ctx := { s := stQ p l f, x := .a, g := gangQ l, act := fullMask }
theorem resQ (i : Instr) (vals : List DWord) (risk : Bool) (l : List Posted) (f : Option (BitVec 8 × BitVec 64)) :
    Resumes (stQ (begun0 i vals risk) l f) alwaysGuard (ctxQ (begun0 i vals risk) l f) (begun0 i vals risk) := ⟨by rfl, by rfl⟩

theorem wit_FencesWaitForReleases : ∃ (s : State) (c : Ctx), Enters s hd.guard c ∧ c.act ≠ 0#32 := ⟨_, ctx0, enter0, by decide⟩
/-- A posted store that has met a time-out: older than the fence, and younger. -/
def posted0 (op : Nat) : Posted := { op := op, cls := .store, cause := 0x12#8, tval := 64#64 }
def fence0 : Instr := .fence hd .pkg false 0#5 1#6 2#6
theorem wit_FencesWaitForReleases_over : ∀ i ∈ [fence0, .drain hd .pkg], ∀ l ∈ [[], [posted0 2]], ∀ f ∈ [none, some (0x12#8, 0#64)],
    ∃ (s : State) (c : Ctx) (p : Pend) (k : Task), Resumes s hd.guard c p ∧ p.instr = i ∧ c.act ≠ 0#32 ∧ c.slot.wait = .task k.id
      ∧ findTask s k.id = some k ∧ c.g.fenceFault = none ∧ (∀ x ∈ c.g.posted, fenceWaits 2#6 x.cls = true → p.op ≤ x.op) ∧ k.fault = f
      ∧ MayTrap s c p := by
  intro i hi l hl f hf
  exact ⟨_, _, _, { task7 with fault := f }, resQ i [] true l f, rfl, by show fullMask ≠ 0#32; decide, rfl, rfl, rfl, by
      show ∀ x ∈ l, fenceWaits 2#6 x.cls = true → 1 ≤ x.op
      fin_cases hl <;> decide, rfl, by fin_cases hi <;> fin_cases hl <;> fin_cases hf <;> exact ⟨by decide +kernel, rfl, _, rfl⟩⟩
theorem wit_FencesWaitForReleases_posted : ∃ (s : State) (c : Ctx) (p : Pend) (k : Task), Resumes s hd.guard c p ∧ c.act ≠ 0#32
    ∧ c.slot.wait = .task k.id ∧ findTask s k.id = some k ∧ c.g.fenceFault = none ∧ c.g.posted = [posted0 0]
    ∧ fenceWaits 2#6 (posted0 0).cls = true ∧ (posted0 0).op < p.op ∧ k.fault = none ∧ MayTrap s c p :=
  ⟨_, _, _, task7, resQ fence0 [] true [posted0 0] none, by decide, rfl, rfl, rfl, rfl, rfl, by decide, rfl, by decide +kernel, rfl, _, rfl⟩

theorem bar16 : ScratchSpan ctx0 (.s 1) 0#32 16 .rmw 0 0 0 := by decide +kernel
theorem clear16 : Clear ctx0 [(.scratch 0 0 0, 16)] := ⟨by decide +kernel, by decide +kernel⟩
theorem wit_BarrierWords : ScratchSpan ctx0 (.s 1) 0#32 16 .rmw 0 0 0 ∧ Clear ctx0 [(.scratch 0 0 0, 16)]
    ∧ Memory.wf (getCore (stA arch0) 0 0).scratch = true ∧ scratchPoisoned (stA arch0) 0 0 0 16 = false
    ∧ Starts (stA arch0) hd (single [.s 1]) [.s 1] ctx0 ∧ wordCheck ctx0.a [.s 1] = none ∧ wordCheck ctx0.a [.s 1, .s 2] = none
    ∧ Starts (stA arch0) hd (single [.s 1, .s 2]) [.s 1] ctx0 ∧ (∃ w, barOwe (readBar (stA arch0) 0 0 0) 5 = some w)
    ∧ barOwe (readBar (stA arch0) 0 0 0) (2 ^ 35) = none :=
  ⟨bar16, clear16, by decide +kernel, by decide +kernel, starts1, by decide +kernel, by decide +kernel, ⟨enter0, by decide, by decide +kernel, by decide +kernel⟩, ⟨_, rfl⟩, by decide +kernel⟩
/-- BARW with a token of phase 0 and of phase 1 at a word in phase 0, without a token, at an ERR word, and in an abandoned block. -/
def archK (x : DWord) : Arch := { arch0 with s := (Vector.replicate 64 (some 0#64)).set 2 (some x) }
theorem wit_BarrierWords_wait : ∃ (s : State) (c : Ctx), Starts s hd (single [.s 1, .s 2]) [.s 1] c ∧ abandoned s c.g = false
    ∧ (scalarOf c (.s 2)).getLsbD 1 = true ∧ (readBar s 0 0 0).err = false
    ∧ (readBar s 0 0 0).phase = (scalarOf c (.s 2)).getLsbD 0 :=
  ⟨stA (archK 2#64), ctxA (archK 2#64), ⟨⟨by rfl, by decide +kernel, by decide +kernel⟩, by decide, by decide +kernel, by decide +kernel⟩, by decide +kernel, by decide +kernel,
    by decide +kernel, by decide +kernel⟩
theorem wit_BarrierWords_past : ∃ (s : State) (c : Ctx), Starts s hd (single [.s 1, .s 2]) [.s 1] c ∧ abandoned s c.g = false
    ∧ (scalarOf c (.s 2)).getLsbD 1 = true ∧ (readBar s 0 0 0).err = false
    ∧ (readBar s 0 0 0).phase ≠ (scalarOf c (.s 2)).getLsbD 0 :=
  ⟨stA (archK 3#64), ctxA (archK 3#64), ⟨⟨by rfl, by decide +kernel, by decide +kernel⟩, by decide, by decide +kernel, by decide +kernel⟩, by decide +kernel, by decide +kernel,
    by decide +kernel, by decide +kernel⟩
theorem wit_BarrierWords_err : ∃ (s : State), abandoned s gang0 = false ∧ (readBar s 0 0 0).err = true :=
  ⟨writeBar st0 0 0 0 { expect := 1#16, arrived := 0#16, pending := 0#36, phase := false, err := true, rest := 0#58 },
    by decide +kernel, by decide +kernel⟩
def stAb : State := { st0 with blocks := [{ loneBlock 0 place0 with state := .abandoned }] }
theorem wit_BarrierWords_abandoned : abandoned stAb gang0 = true := by decide +kernel

theorem wit_BarrierArithmetic : ∃ b : BarWord, b.arrived = b.expect ∧ b.pending = 0#36 ∧ b.expect ≠ 0#16
    ∧ b.pending.toInt + 2 ^ 35 ≥ 2 ^ 35 ∧ b.pending.toInt - (2 ^ 35 + 1) < -(2 ^ 35) :=
  ⟨{ expect := 1#16, arrived := 1#16, pending := 0#36, phase := false, err := false, rest := 0#58 }, rfl, rfl, by decide, by decide,
    by decide⟩

theorem wit_Arrivals : Starts (stA arch0) hd (single [.s 1]) [.s 1] ctx0 ∧ wordCheck ctx0.a [.s 1] = none
    ∧ abandoned (stA arch0) ctx0.g = false ∧ postedTimeout ctx0.g 1 = none :=
  ⟨starts1, by decide +kernel, by decide +kernel, rfl⟩
/-- In an abandoned block, and with a posted write's time-out. -/
def stQa : State := { stA arch0 with blocks := [{ loneBlock 0 place0 with state := .abandoned }] }
theorem wit_Arrivals_abandoned : Starts stQa hd (single [.s 1]) [.s 1] { ctx0 with s := stQa }
    ∧ ScratchSpan { ctx0 with s := stQa } (.s 1) 0#32 16 .rmw 0 0 0 ∧ abandoned stQa ctx0.g = true
    ∧ MayCommit { ctx0 with s := stQa } (killRegs ctx0.a (headKills hd (.s 1) .zero .zero)) :=
  ⟨⟨⟨by rfl, by decide +kernel, by decide +kernel⟩, by decide, by decide +kernel, by decide +kernel⟩, by decide +kernel, by decide +kernel, .inr (by decide +kernel)⟩
def gangTO : Gang := { gang0 with posted := [posted0 0] }
def stBt : State := { st0 with gangs := [gangTO] }
theorem wit_Arrivals_timeout : Starts stBt hd (single [.s 1]) [.s 1] { s := stBt, x := .a, g := gangTO, act := fullMask }
    ∧ abandoned stBt gangTO = false ∧ postedTimeout gangTO stBt.nextOp = some (posted0 0)
    ∧ Ctx.clear { s := stBt, x := .a, g := gangTO, act := fullMask } = true
    ∧ ScratchSpan { s := stBt, x := .a, g := gangTO, act := fullMask } (.s 1) 0#32 16 .rmw 0 0 0 :=
  ⟨⟨⟨by rfl, by decide +kernel, by decide +kernel⟩, by decide, by decide +kernel, by decide +kernel⟩, by decide +kernel, rfl, by decide +kernel, by decide +kernel⟩
theorem wit_Arrivals_arrive : ∃ (s : State) (p : Pend) (g : Gang), findPend s 0 = some p ∧ p.kind = .barv (.s 3) 0 0 0 []
    ∧ findGang s p.gang = some g ∧ olderRisk s p.gang p.op = false ∧ abandoned s g = false ∧ ([] : List Nat).any (opPending s) = false
    ∧ pendHeld s p = false ∧ scratchPoisoned s 0 0 0 16 = false ∧ postedTimeout g p.op = none ∧ Memory.wf (getCore s 0 0).scratch = true :=
  ⟨stP (.barv (.s 3) 0 0 0 []), _, gang0, rfl, rfl, rfl, by decide +kernel, by decide +kernel, rfl, by decide +kernel, by decide +kernel, rfl,
    by decide +kernel⟩
theorem wit_Arrivals_abandoned_meanwhile : ∃ (s : State) (p : Pend) (g : Gang), findPend s 0 = some p ∧ p.kind = .barv (.s 3) 0 0 0 []
    ∧ findGang s p.gang = some g ∧ olderRisk s p.gang p.op = false ∧ abandoned s g = true :=
  ⟨{ stQa with pend := [pend0 (.barv (.s 3) 0 0 0 [])] }, _, gang0, rfl, rfl, rfl, by decide +kernel, by decide +kernel⟩

def launch0 (coop broken : Bool) : Launch :=
  { uid := 5, ctx := 0, queue := 0, pindex := 0#32, packet := 0#512, kdesc := 0#64, grid := 1, argLen := 0, coop := coop,
    replay := false, start := 0, dies := [0], broken := broken, fail := none, faults := 0, replays := 0, rerun := false }
def group0 : DieGroup :=
  { uid := 0, ctx := 0, die := 0, token := 0#32, launch := some 5, state := .running, due := 0, left := 1, argLen := 0, fail := none,
    faults := 0, task := none, tooLarge := false }
def stL (coop broken : Bool) : State := { st0 with launches := [launch0 coop broken], groups := [group0] }
theorem wit_Arrivals_grid : gangLaunch st0 gang0 = none ∧ gangLaunch (stL false false) gang0 = some (launch0 false false)
    ∧ gangLaunch (stL true true) gang0 = some (launch0 true true) ∧ launchBroken (stL true true) (launch0 true true) = true
    ∧ launchBroken (stL true false) (launch0 true false) = false ∧ gangLaunch (stL true false) gang0 = some (launch0 true false)
    ∧ Enters (stL true false) hd.guard { ctx0 with s := stL true false } ∧ Ctx.clear { ctx0 with s := stL true false } = true :=
  ⟨by decide +kernel, by decide +kernel, by decide +kernel, by decide +kernel, by decide +kernel, by decide +kernel,
    ⟨by rfl, by decide +kernel, by decide +kernel⟩, by decide +kernel⟩

/-- Tags 1 and 2 of core 0 are set. -/
def stTag : State := modCore st0 0 0 fun c => { c with tags := 6#64 }
def ctxTag : Ctx := { ctx0 with s := stTag }
/-- The operand names tag 1, which is set, or tag 3, which is not. -/
theorem wit_CountersAndTags : ∀ n ∈ [2#32, 8#32], Enters stTag hd.guard ctxTag ∧ ctxTag.act ≠ 0#32
    ∧ deadCheck ctxTag.a (single [.imm n]) = none ∧ wordCheck ctxTag.a [.imm n] = none
    ∧ MayCommit ctxTag (killRegs ctxTag.a (headKills hd (.imm n) .zero .zero)) ∧ ctxTag.clear = true
    ∧ coreTags stTag ctxTag.g.id &&& scalarOf ctxTag (.imm n) = (if n = 2#32 then 2#64 else 0#64) ∧ ctxTag.g.ld = 0
    ∧ tagcDue stTag ctxTag.g.id = false := by
  intro n hn
  fin_cases hn <;> exact ⟨⟨by rfl, by decide +kernel, by decide +kernel⟩, by decide, by decide +kernel, by decide +kernel, .inr (by decide +kernel),
    by decide +kernel, by decide +kernel, rfl, by decide +kernel⟩
/-- TAGC behind a load that may still trap. -/
theorem wit_CountersAndTags_late : ∃ (s : State) (c : Ctx), Enters s hd.guard c ∧ c.act ≠ 0#32 ∧ deadCheck c.a (single [.imm 2#32]) = none
    ∧ wordCheck c.a [.imm 2#32] = none ∧ c.clear = false ∧ MayCommit c (killRegs c.a (headKills hd (.imm 2#32) .zero .zero)) :=
  ⟨stR arch0, { ctx0 with s := stR arch0 }, ⟨by rfl, by decide +kernel, by decide +kernel⟩, by decide, by decide +kernel, by decide +kernel,
    by decide +kernel, .inl (by decide +kernel)⟩
/-- A counter above its limit. -/
theorem wit_CountersAndTags_waits : ∃ (s : State) (c : Ctx), Enters s hd.guard c ∧ c.act ≠ 0#32 ∧ ¬ c.g.st ≤ (0#6 : BitVec 6).toNat :=
  ⟨{ st0 with gangs := [{ gang0 with st := 1 }] }, { s := { st0 with gangs := [{ gang0 with st := 1 }] }, x := .a, g := { gang0 with st := 1 }, act := fullMask },
    ⟨by rfl, by decide +kernel, by decide +kernel⟩, by decide, by decide⟩

/-! ### Storage between the dies -/

def stD (d : Die) : State := { st0 with dies := st0.dies.set 0 d, links := linksUp }
def line0 : LeasedLine :=
  { line := 2, data := 1#1024, grantEnd := 0, seenAt := 1, leaseEnd := 0, dirty := 0#128, poison := 0#32, policy := .normal }
theorem wit_StorageEvents_l1 : ∃ (s : State), line0 ∈ (getCore s 0 0).l1 ∧ line0.line = 2 ∧ line0.leaseEnd ≤ s.tick :=
  ⟨modCore st0 0 0 fun c => { c with l1 := [line0] }, by decide +kernel, rfl, by decide +kernel⟩
theorem wit_StorageEvents_cluster : ∃ (s : State), line0 ∈ (getCluster s 0 0).lines ∧ line0.seenAt ≠ 0 ∧ line0.seenAt ≤ s.tick :=
  ⟨{ st0 with tick := 1, clusters := [{ die := 0, cluster := 0, lines := [line0], nextChain := 0#32, lastWalk := 0 }] }, by decide +kernel,
    by decide, by decide +kernel⟩
theorem wit_StorageEvents_rdc : ∀ seen ∈ [(1, 0), (0, 1), (1, 9)], ∃ (s : State) (x : Sheet), findSheet (getDie s 0) (2 / 2) = some x
    ∧ (x.seen.1 ≠ 0 ∧ x.seen.1 ≤ s.tick ∨ x.seen.2 ≠ 0 ∧ x.seen.2 ≤ s.tick) := by
  intro seen h
  fin_cases h
  · exact ⟨{ stD { Die.reset with sheets := [{ sheet0 .twinned with seen := (1, 0) }] } with tick := 1 },
      { sheet0 .twinned with seen := (1, 0) }, rfl, .inl (by decide)⟩
  · exact ⟨{ stD { Die.reset with sheets := [{ sheet0 .twinned with seen := (0, 1) }] } with tick := 1 },
      { sheet0 .twinned with seen := (0, 1) }, rfl, .inr (by decide)⟩
  · exact ⟨{ stD { Die.reset with sheets := [{ sheet0 .twinned with seen := (1, 9) }] } with tick := 1 },
      { sheet0 .twinned with seen := (1, 9) }, rfl, .inl (by decide)⟩
theorem wit_StorageEvents_fetch : canonical (BitVec.ofNat 64 0x1000) = true ∧ paExists (128 * 2) = true
    ∧ lineReach (stD Die.reset) 0 (128 * 2) = true := ⟨by decide +kernel, by decide +kernel, by decide +kernel⟩
theorem wit_StorageEvents_walk : (leafOf stM 0 0 (BitVec.ofNat 64 0x1000)).2 = .leaf 0x1F#64
    ∧ ∀ x ∈ (getDie stM 0).tlb, pteLeaf x.entry = true ∨ x.size ≠ pageSize 0x1F#64 := by decide +kernel
theorem wit_StorageEvents_replace : ∀ st ∈ [SheetState.clean, .twinned, .releasing], ∃ (s : State) (x : Sheet),
    findSheet (getDie s 0) 1 = some x ∧ x.state = st ∧ x.held ≠ 0#2 := by
  intro st _
  exact ⟨stD (die0 st), sheet0 st, rfl, rfl, by show (3#2 : BitVec 2) ≠ _; decide⟩
theorem wit_StorageEvents_drop : ∃ s : State, s.msgs = .drop 0 8 0 :: [] ∧ homeReach s 0 8 = true :=
  ⟨{ stD Die.reset with msgs := [.drop 0 8 0] }, rfl, by decide +kernel⟩

/-- Release 9 waits for a round of a die whose sheet 1 is TWINNED, and an early round is asked for that sheet. -/
def task9 : Task := { task7 with id := 9, stage := 4 }
def stW : State := { stD { die0 .twinned with waiting := [9], early := [1] } with tasks := [task9] }
def round0 : Round :=
  { full := true, tasks := [9], sheets := [1], homes := [], spans := [], start := 0, lostSpan := none, lostHomes := [], timedOut := false }
theorem wit_RoundsStart : (getDie stW 0).round = none ∧ ((getDie stW 0).sheets.map fun x => x.sheet).Nodup
    ∧ (getDie stW 0).waiting.any (wantsFull stW) = true ∧ [1] ≠ ([] : List Nat) ∧ [1].all (fun x => (getDie stW 0).early.contains x) = true
    ∧ (getDie (stD { die0 .releasing with round := some round0 }) 0).round ≠ none :=
  ⟨by decide +kernel, by decide +kernel, by decide +kernel, by decide, by decide +kernel, by decide +kernel⟩

/-- A TWINNED sheet with a changed word, and one with none. -/
theorem wit_RoundsStart_sheets : ∀ b : Bool, ∃ (s : State) (x : Sheet), x ∈ (getDie s 0).sheets ∧ x.state = .twinned
    ∧ homeLost s (homeOf (256 * x.sheet)) = false ∧ decide (x.work = x.twin) = b := by
  intro b
  cases b
  · exact ⟨stD { Die.reset with sheets := [{ sheet0 .twinned with work := 1#2048 }] }, { sheet0 .twinned with work := 1#2048 },
      List.mem_singleton.2 rfl, rfl, by decide +kernel, by decide +kernel⟩
  · exact ⟨stD (die0 .twinned), sheet0 .twinned, List.mem_singleton.2 rfl, rfl, by decide +kernel, by decide +kernel⟩

/-- Words 0 and 1023 of span 3. -/
def diff0 : Diff := { span := 3, source := 0, foldIn := false, stamp := 1#32, words := [(0, 5#32), (1023, 6#32)] }
/-- A block reads back as it was written (R303, R304). -/
theorem test_block_bytes : diffOf diff0.wire = diff0 := by decide +kernel
theorem wit_HomesApply_block : ∃ (s : State) (b : Diff), s.msgs = .block 0 (homeOf (4096 * 3)) diff0.wire :: [] ∧ b = diffOf diff0.wire
    ∧ homeReach s 0 (homeOf (4096 * 3)) = true
    ∧ homeLost s (homeOf (4096 * b.span)) = false ∧ MemoryCanonical s ∧ s.migrations = [] ∧ (b.words.map fun w => w.1).Nodup
    ∧ ∀ w ∈ b.words, w.1 < 1024 :=
  ⟨{ stD Die.reset with msgs := [.block 0 (homeOf (4096 * 3)) diff0.wire] }, _, rfl, rfl, by decide +kernel, by decide +kernel,
    by decide +kernel, rfl, by decide +kernel, by decide +kernel⟩
theorem wit_HomesApply_marker : ∃ s : State, s.msgs = .marker 0 8 :: [] ∧ homeReach s 0 8 = true :=
  ⟨{ stD Die.reset with msgs := [.marker 0 8] }, rfl, by decide +kernel⟩
def unf0 : Unfolded := { home := 8, addr := 0x3004, size := 4, tick := 0, ops := [4] }
theorem wit_HomesApply_fold : ∃ s : State, unf0 ∈ s.unfolded ∧ spanOf unf0.addr = 3 :=
  ⟨{ st0 with unfolded := [unf0] }, by decide +kernel, by decide +kernel⟩
/-- Dies 0 and 3 share the page of that write. -/
theorem wit_HomesApply_sharers : ∃ s : State, unf0 ∈ s.unfolded ∧ unf0.home = 8 ∧ ∀ j ∈ [0, 3],
    (findHomePage s (granule (4096 * spanOf unf0.addr))).sharers.getLsbD j = true :=
  ⟨{ modHomePage st0 (granule 0x3004) fun x => { x with sharers := 9#8 } with unfolded := [unf0] }, by decide +kernel, rfl, by decide +kernel⟩
def stRel : State := stD { die0 .releasing with round := some { round0 with homes := [8], spans := [(3, none)] } }
theorem noMsg (m : Msg) : m ∉ stRel.msgs := fun h => nomatch (show m ∈ ([] : List Msg) by exact h)
theorem noFwd (f : Fwd) : f ∉ stRel.fwds := fun h => nomatch (show f ∈ ([] : List Fwd) by exact h)
theorem wit_HomesApply_ack : ∃ (s : State) (r : Round), ({ home := 8, die := 0 } : OwedAck) ∈ s.owed ∧ (getDie s 0).round = some r
    ∧ (∀ b, .block 0 8 b ∉ s.msgs) ∧ homeReach s 0 8 = true ∧ (∀ u ∈ s.unfolded, u.home ≠ 8) ∧ ∀ f ∈ s.fwds, f.home = 8 → 0 ∉ f.round :=
  ⟨{ stRel with owed := [{ home := 8, die := 0 }] }, _, by decide +kernel, rfl, fun b => noMsg (.block 0 8 b), by decide +kernel,
    (by show ∀ u ∈ ([] : List Unfolded), u.home ≠ 8; decide), fun f h => absurd h (noFwd f)⟩
theorem wit_HomesApply_late : ∃ (s : State) (r : Round), ({ home := 8, die := 0 } : OwedAck) ∈ s.owed ∧ (getDie s 0).round = some r
    ∧ (∀ b, .block 0 8 b ∉ s.msgs) ∧ homeReach s 0 8 = true ∧ ∃ u ∈ s.unfolded, u.home = 8 :=
  ⟨{ stRel with owed := [{ home := 8, die := 0 }], unfolded := [unf0] }, _, by decide +kernel, rfl, fun b => noMsg (.block 0 8 b),
    by decide +kernel, unf0, by decide +kernel, rfl⟩

def fwd0 (st : FwdStage) : Fwd :=
  { home := 8, die := 0, wire := diff0.wire, round := [], ops := [], stage := st, seq := 1, until_ := 0, ackAt := 0 }
/-- The die's own block of span 3 has no stamp yet; and a die without a round. -/
theorem wit_SharersApply_block : flightStamp (getDie stRel 0) (fwd0 .sent).d.span = some none
    ∧ flightStamp (getDie (stD Die.reset) 0) (fwd0 .sent).d.span ≠ some none ∧ homeReach stRel 0 8 = true ∧ valueBefore stRel 0 8 1 = false
    ∧ { stRel with fwds := [fwd0 .sent] }.fwds = fwd0 .sent :: [] :=
  ⟨by decide +kernel, by decide +kernel, by decide +kernel, by decide +kernel, rfl⟩
/-- The die holds the sheets of the first and the last word of the span. -/
theorem wit_SharersApply_sheets : ∀ w ∈ (fwd0 .sent).d.words, w.1 < 1024
    ∧ (findSheet { Die.reset with sheets := [{ sheet0 .clean with sheet := 48 }, { sheet0 .clean with sheet := 63 }] }
        (16 * (fwd0 .sent).d.span + w.1 / 64)).isSome = true := by decide +kernel
theorem wit_SharersApply_nodup : ((fwd0 .sent).d.words.map fun w => w.1).Nodup := by decide +kernel
theorem wit_SharersApply_notice : ∃ (s : State) (r : Round), s.msgs = .stampNotice 8 0 3 1#32 :: [] ∧ (getDie s 0).round = some r
    ∧ homeReach s 0 8 = true :=
  ⟨{ stRel with msgs := [.stampNotice 8 0 3 1#32] }, _, rfl, rfl, by decide +kernel⟩
theorem wit_SharersApply_ack : ∃ s : State, s.fwds = fwd0 .applied :: [] ∧ (fwd0 .applied).ackAt ≤ s.tick ∧ homeReach s 0 8 = true :=
  ⟨{ stD Die.reset with fwds := [fwd0 .applied] }, rfl, by decide +kernel, by decide +kernel⟩
/-- Words 0 and 63 of a held sheet; a releasing one has sent word 0 with a later stamp. -/
theorem wit_SharersApply_word : (0 < 64 ∧ (sheet0 .clean).held.getLsbD (0 / 32) = true) ∧ (63 < 64 ∧ (sheet0 .clean).held.getLsbD (63 / 32) = true)
    ∧ ({ sheet0 .releasing with sent := 1#64 } : Sheet).sent.getLsbD 0 = true ∧ stampBefore 1#32 2#32 = true := by decide +kernel

/-- A round all of whose acknowledgements are in, for release 9: plain, one that met a lost home, one that timed out. -/
def stEnd (lost : Option Nat) (late : Bool) : State :=
  { stD { die0 .releasing with round := some { round0 with spans := [(3, some 1#32)], lostSpan := lost, timedOut := late } } with
    tick := 8, tasks := [task9] }
theorem wit_RoundEnds : ∀ lost ∈ [none, some 3], ∀ late : Bool, ∃ r : Round, (getDie (stEnd lost late) 0).round = some r ∧ r.homes = []
    ∧ (∀ x ∈ r.spans, x.2.isSome = true) ∧ r.start + 8 ≤ (stEnd lost late).tick ∧ earlierComing (stEnd lost late) 0 r = false
    ∧ r.lostSpan = lost ∧ r.timedOut = late ∧ (∃ x ∈ (getDie (stEnd lost late) 0).sheets, x.state = .releasing ∧ x.sheet ∈ r.sheets) ∧ ∃ k ∈ (stEnd lost late).tasks, k.id ∈ r.tasks ∧ k.stage = 4 ∧ k.fault = none := by
  intro lost _ late
  exact ⟨_, rfl, rfl, (by show ∀ x ∈ [(3, some 1#32)], x.2.isSome = true; decide), (by show 0 + 8 ≤ 8; decide), rfl, rfl, rfl,
    ⟨sheet0 .releasing, List.mem_singleton.2 rfl, rfl, (by show 1 ∈ [1]; decide)⟩, task9,
    List.mem_singleton.2 rfl, (by show 9 ∈ [9]; decide), rfl, rfl⟩

/-! ### Groups of work -/

theorem starts3 : Starts (stA arch0) hd (single [.s 1]) [.s 1, .s 3] ctx0 := ⟨enter0, by decide, by decide +kernel, by decide +kernel⟩
theorem wit_DispatcherInstructions_spawn : Starts (stA arch0) hd (single [.s 1]) [.s 1, .s 3] ctx0 ∧ wordCheck ctx0.a [.s 1] = none
    ∧ ScratchSpan ctx0 (.s 1) 0#32 32 .read 0 0 0 ∧ ctx0.g.dispatcher = false ∧ ctx0.clear = true :=
  ⟨starts3, by decide +kernel, by decide +kernel, rfl, by decide +kernel⟩
/-- A dispatcher with one packet in its mailbox or none. -/
def mail0 : Mailbox := { die := 0, ctx := 0, packets := [(4#32, 1#512)], seq := 5#32, spawnq := [] }
def gangD (a : Arch) : Gang := { gang0 with arch := a, dispatcher := true }
def stDis (a : Arch) (l : List Mailbox) : State := { stA a with gangs := [gangD a], mailboxes := l, tasks := [task7] }
def ctxDis (a : Arch) (l : List Mailbox) : Ctx := { s := stDis a l, x := .a, g := gangD a, act := fullMask }
theorem wit_DispatcherInstructions_mailbox : ∀ l ∈ [[], [mail0]], Starts (stDis arch0 l) hd (single [.s 1]) [.s 1, .s 3] (ctxDis arch0 l)
    ∧ (ctxDis arch0 l).g.dispatcher = true ∧ ScratchSpan (ctxDis arch0 l) (.s 1) 0#32 64 .write 0 0 0
    ∧ ScratchSpan (ctxDis arch0 l) (.s 1) 0#32 64 .read 0 0 0
    ∧ (getMailbox (stDis arch0 l) 0 0).packets = (if l = [] then [] else [(4#32, 1#512)])
    ∧ Clear (ctxDis arch0 l) [(.scratch 0 0 0, 64)] ∧ Memory.wf (getCore (stDis arch0 l) 0 0).scratch = true
    ∧ MayCommit (ctxDis arch0 l) (killRegs (ctxDis arch0 l).a (headKills hd (.s 1) .zero .zero)) := by
  intro l h
  fin_cases h <;> exact ⟨⟨⟨by rfl, by decide +kernel, by decide +kernel⟩, by decide, by decide +kernel, by decide +kernel⟩, rfl, by decide +kernel,
    by decide +kernel, by decide +kernel, ⟨by decide +kernel, by decide +kernel⟩, by decide +kernel, .inr (by decide +kernel)⟩
/-- The begun SPAWN and MBXFWD wait for release 7, which is over; the begun MBXRD.WAIT finds a packet. -/
def stBe (w : Wait) (i : Instr) : State :=
  { stDis { arch0 with slotA := { arch0.slotA with wait := w } } [mail0] with pend := [begun0 i [0#64] false] }
def ctxBe (w : Wait) (i : Instr) : Ctx :=
  { s := stBe w i, x := .a, g := gangD { arch0 with slotA := { arch0.slotA with wait := w } }, act := fullMask }
theorem wit_DispatcherInstructions_begun : ∀ x ∈ [(Wait.task 7, Instr.spawn hd (.s 3) (.s 1) 0#32), (.task 7, .mbxfwd hd (.s 3) (.s 1) 0#32 0#3),
      (.mailbox, .mbxrd hd (.s 3) (.s 1) 0#32 true)], Resumes (stBe x.1 x.2) hd.guard (ctxBe x.1 x.2) (begun0 x.2 [0#64] false)
    ∧ (ctxBe x.1 x.2).slot.wait = x.1 ∧ findTask (stBe x.1 x.2) task7.id = some task7 ∧ (ctxBe x.1 x.2).clear = true
    ∧ ((begun0 x.2 [0#64] false).vals.headD 0#64).toNat = 0 ∧ scratchPoisoned (stBe x.1 x.2) 0 0 0 64 = false
    ∧ scratchPoisoned (stBe x.1 x.2) 0 0 0 32 = false ∧ postOpen (stBe x.1 x.2) (ctxBe x.1 x.2).g 0 = true
    ∧ (getMailbox (stBe x.1 x.2) 0 0).packets = [(4#32, 1#512)] ∧ heldBytes (stBe x.1 x.2) place0 1 [(.scratch 0 0 0, 64)] = false
    ∧ Memory.wf (getCore (stBe x.1 x.2) 0 0).scratch = true := by
  intro x h
  fin_cases h <;> exact ⟨⟨by rfl, by rfl⟩, rfl, rfl, by decide +kernel, rfl, by decide +kernel, by decide +kernel, by decide +kernel, rfl,
    by decide +kernel, by decide +kernel⟩
/-- Blocks 2 and 3 of a grid of 4, of a kernel that is loaded; blocks 3 and 4 of it; and a queue with room and without. -/
def req0 : SpawnReq :=
  { kdesc := 0#64, args := 0#64, first := 2#32, count := 2#32, grid := 4#32, token := 4#32, argLen := 0, dgroup := none }
def stSp (n : Nat) : State := { st0 with mailboxes := [{ mail0 with packets := [], spawnq := List.replicate n req0 }], contexts := [cont0] }
theorem wit_DispatcherInstructions_request : req0.count ≠ 0#32 ∧ req0.first.toNat + req0.count.toNat ≤ req0.grid.toNat
    ∧ loadedKernel (stSp 255) gang0.ctx req0.kdesc = true ∧ (getMailbox (stSp 255) 0 0).spawnq.length < 256
    ∧ loadedKernel (stSp 256) gang0.ctx req0.kdesc = true ∧ 256 ≤ (getMailbox (stSp 256) 0 0).spawnq.length
    ∧ ({ req0 with first := 3#32 } : SpawnReq).grid.toNat < 3 + req0.count.toNat := by decide +kernel

def bind0 : BindRec :=
  { kdesc := 0#64, args := 0#64, next := 2#32, left := 2, grid := 4#32, token := 4#32, cores := 1#128, budget := 256, gangsM1 := 0,
    clustM1 := 0, scratch := 0, lastcl := 15, spread := false, noborrow := false, coop := false, standing := false, valid := true,
    ctx := 0, argLen := 0, dgroup := 0 }
/-- A record, standing or not, for the head of the queue; and a partition with every cluster of die 0 and with none. -/
def contF : Context := { cont0 with diemask := 1#8, clusters := 0xFFFF#16 }
def stRec (l : List (Nat × BindRec)) (c : Context) : State :=
  { stSp 1 with dies := st0.dies.set 0 { Die.reset with binds := l }, contexts := [c] }
theorem wit_PlacementSteps_record : ctxActive (stSp 1) 0 = true ∧ dieLost (stSp 1) 0 = false ∧ (getMailbox (stSp 1) 0 0).spawnq = req0 :: []
    ∧ findContext (stSp 1) 0 = some cont0 ∧ req0.count ≠ 0#32 := by decide +kernel
theorem wit_PlacementSteps_standing :
    standingFor (getDie (stRec [(7, { bind0 with standing := true, left := 0 })] cont0) 0) 0 req0 = some (7, { bind0 with standing := true, left := 0 })
    := by decide +kernel
theorem wit_PlacementSteps_fresh : ∀ x ∈ [(contF, true), (cont0, false)], standingFor (getDie (stRec [] x.1) 0) 0 req0 = none
    ∧ findContext (stRec [] x.1) 0 = some x.1
    ∧ findKernel (stRec [] x.1) 0 req0.kdesc = some kern0 ∧ freeBind (getDie (stRec [] x.1) 0) = some 0
    ∧ couldFit (groupFor (modMailbox (stRec [] x.1) 0 0 fun m => { m with spawnq := [] }) 0 0 req0).1 0
        (recordFor x.1 kern0 0 req0 (groupFor (modMailbox (stRec [] x.1) 0 0 fun m => { m with spawnq := [] }) 0 0 req0).2) = x.2 := by
  decide +kernel
/-- Record 0 places nothing, and record 3 can: a group of one block, of two blocks of which one group fits, and both blocks of a record. -/
def stPlace (r : BindRec) : State :=
  { stSp 0 with dies := st0.dies.set 0 { Die.reset with binds := [(0, { bind0 with left := 0, standing := true }), (3, r)], chance := true },
                gangs := [], blocks := [] }
theorem wit_PlacementSteps : ∀ r ∈ [bind0, { bind0 with clustM1 := 1, cores := 3#128 }, { bind0 with coop := true }, { bind0 with standing := true }],
    (getDie (stPlace r) 0).chance = true ∧ dieLost (stPlace r) 0 = false
    ∧ (getDie (stPlace r) 0).binds = [(0, { bind0 with left := 0, standing := true })] ++ (3, r) :: []
    ∧ (∀ b ∈ [(0, { bind0 with left := 0, standing := true })] ++ ([] : List (Nat × BindRec)), b.1 ≠ 3)
    ∧ (∀ b ∈ [(0, { bind0 with left := 0, standing := true })], b.2.valid = true → ctxActive (stPlace r) b.2.ctx = true →
        (placeRec (stPlace r) 0 b.2).2.left = b.2.left)
    ∧ r.valid = true ∧ ctxActive (stPlace r) r.ctx = true ∧ (placeRec (stPlace r) 0 r).2.left < r.left := by decide +kernel

/-- A gang none of whose slots is live; the same as a dispatcher's; and one of whose posted writes has met a lost home. -/
def archX : Arch := { arch0 with slotA := Slot.free }
def gangX (disp : Bool) (f : List Posted) : Gang := { gang0 with arch := archX, dispatcher := disp, posted := f }
def stX (disp : Bool) (f : List Posted) : State := { st0 with gangs := [gangX disp f] }
theorem wit_EndsOfWork_gang : ∀ disp : Bool, findGang (stX disp []) place0 = some (gangX disp []) ∧ gangOver (stX disp []) (gangX disp []) = true
    ∧ (gangX disp []).posted = [] ∧ (gangX disp []).fenceFault = none ∧ (gangX disp []).dispatcher = disp
    ∧ (ownKernel (stX disp []) (gangX disp [])).isSome = true := by decide +kernel
theorem wit_EndsOfWork_posted : ∀ c ∈ [0x12#8, 0x15#8], ∃ (s : State) (g : Gang) (b : Block), findGang s g.id = some g ∧ gangOver s g = true
    ∧ worstFault (g.posted.map (fun x => (x.cause, x.tval)) ++ g.fenceFault.toList) = some (c, 64#64) ∧ findBlock s g.block = some b
    ∧ b.fail = none := by
  intro c h
  refine ⟨stX false [{ posted0 0 with cause := c }], gangX false [{ posted0 0 with cause := c }], loneBlock 0 place0, rfl, ?_, ?_, rfl, rfl⟩
  all_goals (fin_cases h <;> decide +kernel)
def groupE (big : Bool) : DieGroup := { group0 with state := .releasing, left := 0, task := some 7, tooLarge := big }
def stE (big : Bool) : State := { stL false false with groups := [groupE big], tasks := [task7] }
/-- The group's release is over, plain or with a fault. -/
def stEf (f : Option (BitVec 8 × BitVec 64)) : State := { stE false with tasks := [{ task7 with fault := f }] }
theorem wit_EndsOfWork_group : ∀ big : Bool, findGroup (stE big) 0 = some (groupE big) ∧ (groupE big).task = some task7.id
    ∧ findTask (stE big) task7.id = some task7 ∧ task7.stage = 6 ∧ (groupE big).launch = some 5
    ∧ findLaunch (stE big) 5 = some (launch0 false false) ∧ (groupE big).fail = none ∧ task7.fault = none ∧ (groupE big).tooLarge = big
    ∧ (launch0 false false).fail = none := by decide +kernel
theorem wit_EndsOfWork_release : ∀ f ∈ [(0x15#8, 0#64), (0x12#8, 0#64)], findTask (stEf (some f)) 7 = some { task7 with fault := some f }
    ∧ findGroup (stEf (some f)) 0 = some (groupE false) := fun _ _ => ⟨rfl, rfl⟩

/-! ### Code, channels, copy engines and the matrix unit -/

/-- The lone gang's block with 8,192 bytes of scratchpad, of which core 0 holds `l`. -/
def stS (l : List Host.Cell) : State :=
  modCore { stM with blocks := [{ loneBlock 0 place0 with size := 8192 }] } 0 0 fun c => { c with scratch := l }
def ctxS (l : List Host.Cell) : Ctx := { ctx0 with s := stS l }
theorem startsS : Starts (stS []) hd (single [.s 1]) [.s 1] (ctxS []) :=
  ⟨⟨by rfl, by decide +kernel, by decide +kernel⟩, by decide, by decide +kernel, by decide +kernel⟩

/-- A range whose end is not canonical, and one of no bytes at 0. -/
theorem wit_CodeMaintenance : Starts (stA arch0) hd (single [.s 1, .s 2]) [.s 1, .s 2] ctx0 ∧ wordCheck ctx0.a [.s 1, .s 2] = none
    ∧ rangeBad (0#64 + (0#32).signExtend 64) 0 = none
    ∧ (∃ x, rangeBad ((BitVec.ofNat 64 (2 ^ 63)) + (0#32).signExtend 64) 0 = some x) ∧ ctx0.clear = true
    ∧ ctx0.act ≠ 0#32 ∧ icinvAway (stA arch0) ctx0.g .blk = none ∧ icinvAway stM ctxM.g .pkg = none
    ∧ (∃ q l, piecesFrom 0 0 (lineRange 0 0).2 (0 / 65536 + 3) (stA arch0) (lineRange 0 0).1 = (q, .inr l)) :=
  ⟨⟨enter0, by decide, by decide +kernel, by decide +kernel⟩, by decide +kernel, by decide +kernel, ⟨_, rfl⟩, by decide +kernel,
    by decide, by decide +kernel, by decide +kernel, _, _, rfl⟩
/-- The walk of 128 bytes at 0x100000 does not reach the home of its table: no link carries traffic. -/
def stAw : State := { st0 with contexts := [{ cont0 with root := BitVec.ofNat 64 (2 ^ 40) }] }
theorem wit_CodeMaintenance_away : ∃ q home, piecesFrom 0 0 (lineRange 0x100000 128).2 (128 / 65536 + 3) stAw (lineRange 0x100000 128).1
    = (q, .inl home) := by
  have h : (match (piecesFrom 0 0 (lineRange 0x100000 128).2 (128 / 65536 + 3) stAw (lineRange 0x100000 128).1).2 with
      | .inl _ => true
      | .inr _ => false) = true := by decide +kernel
  cases e : piecesFrom 0 0 (lineRange 0x100000 128).2 (128 / 65536 + 3) stAw (lineRange 0x100000 128).1 with
  | mk q y =>
    cases y with
    | inl n => exact ⟨q, n, rfl⟩
    | inr l => rw [e] at h; simp at h
/-- The begun CFLUSH: its release is over, plain or with a fault; and it waits for its walk. -/
def cflush0 : Instr := .cflush hd (.s 1) (.s 2) 0#32 .pkg
theorem wit_CodeMaintenance_over : ∀ f ∈ [none, some (0x12#8, 0#64)], ∃ (s : State) (c : Ctx) (p : Pend) (k : Task), Resumes s hd.guard c p
    ∧ p.vals = [] ∧ c.slot.wait = .task k.id ∧ findTask s k.id = some k ∧ k.fault = f ∧ MayTrap s c p := by
  intro f h
  exact ⟨_, _, _, { task7 with fault := f }, resQ cflush0 [] true [] f, rfl, rfl, rfl, rfl, by
    fin_cases h <;> exact ⟨by decide +kernel, rfl, _, rfl⟩⟩
theorem wit_CodeMaintenance_walks : ∃ (s : State) (c : Ctx) (p : Pend) (q : State) (l : List (Nat × Nat)), Resumes s hd.guard c p
    ∧ p.vals = [0#64, BitVec.ofNat 64 0] ∧ piecesFrom 0 0 (lineRange 0 0).2 (0 / 65536 + 3) s (lineRange 0 0).1 = (q, .inr l) :=
  ⟨_, _, _, _, _, resQ cflush0 [0#64, 0#64] true [] none, rfl, rfl⟩
theorem wit_CodeMaintenance_fill : ∃ (s q : State) (tgt : Target), findGang s gang0.id = some gang0
    ∧ translate s 0 0 (BitVec.ofNat 64 (0 / 128 * 128)) 1 .fetch = (q, .inr tgt) ∧ codeReach q gang0 tgt = true ∧ findFill s gang0 0 = none
    ∧ (codeLine q gang0 tgt).2.2 = 0#32 := by
  have h : (translate stM 0 0 (BitVec.ofNat 64 (0 / 128 * 128)) 1 .fetch).2 = .inr (.mem 0 false) := by decide +kernel
  exact ⟨stM, _, _, by decide +kernel, Prod.ext rfl h, by decide +kernel, by decide +kernel, by decide +kernel⟩

def archS1 (x : DWord) : Arch := { arch0 with s := (Vector.replicate 64 (some 0#64)).set 1 (some x) }
theorem wit_ChannelsKeepOrder_open : ∀ d ∈ [8, 23, 7, 24], Starts (stA (archS1 (BitVec.ofNat 64 d))) hd (single [.s 1]) [.s 1] (ctxA (archS1 (BitVec.ofNat 64 d)))
    ∧ d = (scalarOf (ctxA (archS1 (BitVec.ofNat 64 d))) (.s 1)).toNat % 2 ^ 32 ∧ chanOf (ctxA (archS1 (BitVec.ofNat 64 d))) 0#3 = .closed
    ∧ wordCheck (ctxA (archS1 (BitVec.ofNat 64 d))).a [.s 1] = none ∧ (ctxA (archS1 (BitVec.ofNat 64 d))).clear = true := by
  intro d h
  fin_cases h <;> exact ⟨⟨⟨by rfl, by decide +kernel, by decide +kernel⟩, by decide, by decide +kernel, by decide +kernel⟩, by decide +kernel, by decide +kernel, by decide +kernel, by decide +kernel⟩
/-- Channel 0 is open to the home of physical address 0. -/
def stC : State :=
  { stM with blocks := [{ loneBlock 0 place0 with chans := (Vector.replicate 8 .closed).set 0 (.opened (homeOf 0)) }] }
def ctxC : Ctx := { ctx0 with s := stC }
theorem startsC : Starts stC hd [(.s 1, 1), (.v 2, 1), (.v 3, 1)] [.s 1] ctxC :=
  ⟨⟨by rfl, by decide +kernel, by decide +kernel⟩, by decide, by decide +kernel, by decide +kernel⟩
theorem wit_ChannelsKeepOrder_opened : Starts stC hd (single [.s 1]) [.s 1] ctxC ∧ chanOf ctxC 0#3 ≠ .closed :=
  ⟨⟨⟨by rfl, by decide +kernel, by decide +kernel⟩, by decide, by decide +kernel, by decide +kernel⟩, by decide +kernel⟩
theorem wit_ChannelsKeepOrder_store : ctxC.g.st < 63 ∧ Starts stC hd [(.s 1, 1), (.v 2, 1), (.v 3, 1)] [.s 1] ctxC
    ∧ readCheck ctxC.a ctxC.act [(.s 1, 1), (.v 2, 1), (.v 3, 1)] = none ∧ chanOf ctxC 0#3 = .opened (homeOf 0)
    ∧ homeLost stC (homeOf 0) = false ∧ MayCommit ctxC (killRegs ctxC.a (killsOf hd (.s 1, 1) (.v 2, 1) (.v 3, 1)))
    ∧ (∃ r, r = checkLanes stC ctxC.g .global (wordSize false) .write
          ((lanesIn ctxC.act).map fun i => (i, laneAddr ctxC .global (.s 1) (.v 2) (storeOff (.v 3) 0#32) (wordSize false) i))
        ∧ firstFail (r.2.map (chanLane (homeOf 0))) = none ∧ chanLoad r.1 ctxC.g.block 0 + (lanesIn ctxC.act).length ≤ 64)
    ∧ chanOf ctxM 0#3 = .closed ∧ ctxM.clear = true :=
  ⟨by decide, startsC, by decide +kernel, by decide +kernel, by decide +kernel, .inr (by decide +kernel),
    ⟨_, rfl, by decide +kernel, by decide +kernel⟩, by decide +kernel, by decide +kernel⟩
/-- A scalar datum without an index: one store. -/
theorem wit_ChannelsKeepOrder_one : Starts stC hd [(.s 1, 1), (.zero, 1), (.s 3, 1)] [.s 1] ctxC
    ∧ readCheck ctxC.a ctxC.act [(.s 1, 1), (.zero, 1), (.s 3, 1)] = none
    ∧ (∃ r, r = checkLanes stC ctxC.g .global (wordSize false) .write
          [(0, scalarAddr ctxC .global (.s 1) (storeOff (.s 3) 0#32) (wordSize false))]
        ∧ firstFail (r.2.map (chanLane (homeOf 0))) = none ∧ chanLoad r.1 ctxC.g.block 0 + 1 ≤ 64) :=
  ⟨⟨⟨by rfl, by decide +kernel, by decide +kernel⟩, by decide, by decide +kernel, by decide +kernel⟩, by decide +kernel,
    ⟨_, rfl, by decide +kernel, by decide +kernel⟩⟩
/-- A BROKEN channel, and an open one whose home is lost. -/
def stBr (x : Chan) : State :=
  { stM with blocks := [{ loneBlock 0 place0 with chans := (Vector.replicate 8 .closed).set 0 x }], lost := 1#32 <<< 9 }
theorem wit_ChannelsKeepOrder_broken : ∀ x ∈ [Chan.broken 8, .opened 9],
    Starts (stBr x) hd [(.s 1, 1), (.v 2, 1), (.v 3, 1)] [.s 1] { ctx0 with s := stBr x }
    ∧ (chanOf { ctx0 with s := stBr x } 0#3 = .broken 8 ∨ chanOf { ctx0 with s := stBr x } 0#3 = .opened 9 ∧ homeLost (stBr x) 9 = true)
    ∧ Ctx.clear { ctx0 with s := stBr x } = true := by
  intro x h
  fin_cases h <;> exact ⟨⟨⟨by rfl, by decide +kernel, by decide +kernel⟩, by decide, by decide +kernel, by decide +kernel⟩, by decide +kernel, by decide +kernel⟩
theorem wit_ChannelsKeepOrder_close : Enters stC hd.guard ctxC ∧ ctxC.act ≠ 0#32 ∧ chanOf ctxC 0#3 = .opened (homeOf 0)
    ∧ (stC.pend.any fun p => p.ofChannel ctxC.g.block 0) = false ∧ chanFolded stC ctxC.g.block 0 = true ∧ ctxC.clear = true :=
  ⟨⟨by rfl, by decide +kernel, by decide +kernel⟩, by decide, by decide +kernel, by decide +kernel, by decide +kernel, by decide +kernel⟩
theorem wit_ChannelsKeepOrder_perform : ∃ (s : State) (p : Pend), (s.pend.find? fun p => p.ofChannel 0 0) = some p
    ∧ p.kind = .home (.channel 0 0) .zero false .pkg 1#32 [accM] 0#32 false ∧ accM.tgt = .mem 0x100 false ∧ opUnfolded s p.op = false
    ∧ chanFolded s 0 0 = true ∧ pendHeld s p = false ∧ accsHome s p.gang.die [accM] = true ∧ homeHeld s p (.channel 0 0) false .pkg [accM] = false
    ∧ homeLost s (homeOf 0x100) = false ∧ MemoryCanonical s ∧ s.migrations = [] :=
  ⟨{ stC with pend := [pend0 (.home (.channel 0 0) .zero false .pkg 1#32 [accM] 0#32 false)] },
    pend0 (.home (.channel 0 0) .zero false .pkg 1#32 [accM] 0#32 false), by decide +kernel, rfl, rfl, by decide +kernel, by decide +kernel,
    by decide +kernel, by decide +kernel, by decide +kernel, by decide +kernel, by decide +kernel, rfl⟩

def chain0 (pos : Nat) (drain : Bool) : Chain :=
  { id := { die := 0, cluster := 0, num := 0 }, ctx := 0, origin := .block 0 place0, at_ := pos, drain := drain, last := none, loops := [],
    faults := 0, fail := none, cut := false, halted := false, begun := none, seen := none, quietAt := none, task := none }
/-- One chain of the lone block at an entry whose bytes are `l`, with jobs `j`. -/
def stCh (l : List Host.Cell) (c : Chain) (j : List Job) : State := { stS l with chains := [c], jobs := j }
theorem wit_EngineInstructions_cpy : Starts (stS []) hd (single [.s 1]) [.s 1] (ctxS []) ∧ ScratchSpan (ctxS []) (.s 1) 0#32 64 .read 0 0 0
    ∧ wordCheck (ctxS []).a [.s 1] = none := ⟨startsS, by decide +kernel, by decide +kernel⟩
theorem wit_EngineInstructions_begun : ∃ (s : State) (c : Ctx) (b : Pend) (k : Task), Resumes s hd.guard c b
    ∧ b.instr = .cpy hd (.s 3) (.s 1) 0#32 ∧ c.clear = true ∧ c.slot.wait = .task k.id ∧ findTask s k.id = some k ∧ c.g.cp < 63
    ∧ (engineChains s c.g.id.die (clusterOf c.g.id.core)).length < 64 :=
  ⟨_, _, _, task7, resQ (.cpy hd (.s 3) (.s 1) 0#32) [0#64] false [] none, rfl, by decide +kernel, rfl, rfl, by decide, by decide +kernel⟩
theorem wit_EngineInstructions_cut : Starts (stCh [] (chain0 0 false) []) hd (single [.s 1]) [] { ctx0 with s := stCh [] (chain0 0 false) [] }
    ∧ Ctx.clear { ctx0 with s := stCh [] (chain0 0 false) [] } = true ∧ wordCheck ctx0.a [.s 1] = none
    ∧ findChain (stCh [] (chain0 0 false) []) { die := 0, cluster := clusterOf 0, num := (scalarOf ctx0 (.s 1)).toNat % 2 ^ 32 }
        = some (chain0 0 false) ∧ (chain0 0 false).origin = .block ctx0.g.block place0
    ∧ findChain (stS []) { die := 0, cluster := clusterOf 0, num := 0 } = none :=
  ⟨⟨⟨by rfl, by decide +kernel, by decide +kernel⟩, by decide, by decide +kernel, by decide +kernel⟩, by decide +kernel, by decide +kernel, rfl, rfl, rfl⟩

theorem wit_EngineInstructions_late : ∃ (s : State) (c : Ctx), Starts s hd (single [.s 1]) [] c ∧ wordCheck c.a [.s 1] = none ∧ c.clear = false :=
  ⟨stR arch0, { ctx0 with s := stR arch0 }, ⟨⟨by rfl, by decide +kernel, by decide +kernel⟩, by decide, by decide +kernel, by decide +kernel⟩,
    by decide +kernel, by decide +kernel⟩

/-- A job with card `card`: kind 0 copies, kind 3 is ALLREDUCE. -/
def job0 (card : BitVec 1024) (st : JobState) (leave : Bool) (f : Option (Nat × BitVec 64)) : Job :=
  { id := 3, chain := (chain0 0 false).id, ctx := 0, entry := 0, card := card, src := 0#64, dst := 0#64, aux := 0#64, sshift := 0#64,
    dshift := 0#64, state := st, leave := leave, cut := false, tick := 0, unit := 0, got := [], put := 0, reds := [], asked := none, fault := f }
def stJb (drain : Bool) (j : Job) : State := stCh [] (chain0 128 drain) [j]
theorem wit_EngineInstructions_start (card : BitVec 1024) (l : Bool) :
    findJob (stJb false (job0 card .accepted l none)) 3 = some (job0 card .accepted l none)
    ∧ findChain (stJb false (job0 card .accepted l none)) (chain0 128 false).id = some (chain0 128 false)
    ∧ ctxRuns (stJb false (job0 card .accepted l none)) 0 = true
    ∧ leaveAsked (stJb false (job0 card .accepted l none)) 0 (isJobLeave 3) = false := ⟨rfl, rfl, rfl, rfl⟩
theorem wit_EngineInstructions_ready :
    (jobBlocked (stJb false (job0 0x01#1024 .accepted false none)) (chain0 128 false) (job0 0x01#1024 .accepted false none) = false
      ∧ needsLeave (job0 0x01#1024 .accepted false none) = false ∧ cardKind 0x01#1024 ≠ 3)
    ∧ ∀ l : Bool, jobBlocked (stJb false (job0 0x31#1024 .accepted l none)) (chain0 128 false) (job0 0x31#1024 .accepted l none) = false
      ∧ needsLeave (job0 0x31#1024 .accepted l none) = true ∧ cardKind 0x31#1024 = 3 := by decide +kernel
/-- Jobs that end: one of a draining chain, a copy of nothing, a copy whose byte lies in no footprint, and an ALLREDUCE with and
without a fault. -/
def copy1 : BitVec 1024 := 0x01#1024 ||| (1#1024 <<< 320) ||| (4#1024 <<< 352)
theorem wit_EngineInstructions_end : (job0 0x01#1024 .accepted false none).state = .accepted ∧ (chain0 128 true).drain = true
    ∧ (performJob (stJb false (job0 0x01#1024 .started false none)) (chain0 128 false) (job0 0x01#1024 .started false none)).2 = none
    ∧ (∃ f, (performJob (stJb false (job0 copy1 .started false none)) (chain0 128 false) (job0 copy1 .started false none)).2 = some f)
    ∧ cardKind 0x31#1024 = 3 ∧ (job0 0x31#1024 .started true (some (1, 0#64))).fault = some (1, 0#64)
    ∧ jobLate (stJb false (job0 0x01#1024 .started false none)) (job0 0x01#1024 .started false none) = false := by
  have h : (performJob (stJb false (job0 copy1 .started false none)) (chain0 128 false) (job0 copy1 .started false none)).2.isSome = true := by
    decide +kernel
  exact ⟨rfl, rfl, by decide +kernel, Option.isSome_iff_exists.1 h, by decide +kernel, rfl, by decide +kernel⟩
/-- An ALLREDUCE of no elements; one that CPYK has cut; and one of one element, at address 0 in a window of COUNT 0. -/
def red1 : BitVec 1024 := 0x31#1024 ||| (1#1024 <<< 320) ||| (4#1024 <<< 576) ||| (3#1024 <<< 610)
def stRed : State :=
  { stJb false (job0 red1 .started true none) with
    rwins := st0.rwins.set 0 ((65536#192 <<< 64) ||| (1#192 <<< 160)) }
theorem wit_EngineInstructions_reduce (cut : Bool) : ({ job0 0x31#1024 .started true none with cut := cut } : Job).reds.any (inRound stRed) = false
    ∧ redLeft stRed { job0 0x31#1024 .started true none with cut := cut } = [] := by
  cases cut <;> exact ⟨rfl, by decide +kernel⟩
theorem wit_EngineInstructions_element : redLeft stRed (job0 red1 .started true none) ≠ []
    ∧ ∃ r, r = reduceStep stRed (chain0 128 false) (job0 red1 .started true none) (redLeft stRed (job0 red1 .started true none))
      ∧ r.2.fault = none ∧ r.2.reds.any (inRound r.1) = false ∧ r.2.cut = false :=
  ⟨by decide +kernel, _, rfl, by decide +kernel, by decide +kernel, by decide +kernel⟩
theorem wit_EngineInstructions_finish : findChain (stJb false (job0 0x01#1024 .started false none)) (chain0 128 false).id = some (chain0 128 false)
    ∧ (∃ b : Block, b.uid = 0 ∧ findBlock (stJb false (job0 0x01#1024 .started false none)) b.uid = some b ∧ inAlloc b 0 64 = true)
    ∧ Memory.wf (getCore (stJb false (job0 0x01#1024 .started false none)) 0 0).scratch = true :=
  ⟨by decide +kernel, ⟨{ loneBlock 0 place0 with size := 8192 }, rfl, by decide +kernel, by decide +kernel⟩, by decide +kernel⟩

/-- The lone chain takes its turn at an entry of whose bytes `l` are not 0: it has read the entry, which reads `e`. -/
def chainAt (pos : Nat) (d : Bool) (e : Option EntryRead) : Chain := { chain0 pos d with seen := e }
theorem walks (l : List Host.Cell) (j : List Job) (c : Chain) (e : EntryRead) (h : c.seen = some e)
    (hf : findChain (stCh l c j) c.id = some c) (hw : canWalk (stCh l c j) c = true) (ht : walkTurn (stCh l c j) c = true) :
    WalksOn (stCh l c j) c (stCh l c j) (some e) (shapeOf (stCh l c j) c (some e)) :=
  ⟨hf, hw, ht, by rw [h], rfl⟩
/-- Entries of each type, and what the walk finds: a JOB, a LOOP back by one entry, a COND on scratch word 0, a SIGNAL of tag 0 and of
the barrier word at 0, a reserved type, and END. -/
def job1 : EntryRead := (1#512, some 0#512)
def loop1 : EntryRead := (0xFFFFFFFF0000000000000002#512, none)
theorem wit_ChainEntries_shapes : ∀ d : Bool,
    (∃ e, shapeOf (stCh [] (chainAt 64 d (some job1)) []) (chainAt 64 d (some job1)) (some job1) = .job e)
    ∧ (∃ e, shapeOf (stCh [] (chainAt 64 d (some loop1)) []) (chainAt 64 d (some loop1)) (some loop1) = .loop e)
    ∧ (∃ e w, shapeOf (stCh [] (chainAt 64 d (some (3#512, none))) []) (chainAt 64 d (some (3#512, none))) (some (3#512, none)) = .cond e
        ∧ condWord (stCh [] (chainAt 64 d (some (3#512, none))) []) (chainAt 64 d (some (3#512, none))) e = some w)
    ∧ shapeOf (stCh [] (chainAt 64 d (some (4#512, none))) []) (chainAt 64 d (some (4#512, none))) (some (4#512, none)) = .tagSignal 0 0
    ∧ shapeOf (stCh [] (chainAt 64 d (some (0x14#512, none))) []) (chainAt 64 d (some (0x14#512, none))) (some (0x14#512, none))
        = .barSignal 0 0 0 0
    ∧ shapeOf (stCh [] (chainAt 64 d (some (5#512, none))) []) (chainAt 64 d (some (5#512, none))) (some (5#512, none)) = .bad false
    ∧ shapeOf (stCh [] (chainAt 64 d (some (0#512, none))) []) (chainAt 64 d (some (0#512, none))) (some (0#512, none)) = .fin
    ∧ shapeOf (stCh [] (chainAt 8192 d none) []) (chainAt 8192 d none) none = .off := by
  intro d
  cases d <;> exact ⟨⟨1#1024, by decide +kernel⟩, ⟨0xFFFFFFFF0000000000000002#1024, by decide +kernel⟩, ⟨3#1024, 0, by decide +kernel, by decide +kernel⟩,
    by decide +kernel, by decide +kernel, by decide +kernel, by decide +kernel, by decide +kernel⟩
theorem wit_ChainEntries : ∀ d : Bool, ∀ e ∈ [job1, loop1, (3#512, none), (4#512, none), (0x14#512, none), (5#512, none), (0#512, none)],
    WalksOn (stCh [] (chainAt 64 d (some e)) []) (chainAt 64 d (some e)) (stCh [] (chainAt 64 d (some e)) []) (some e)
      (shapeOf (stCh [] (chainAt 64 d (some e)) []) (chainAt 64 d (some e)) (some e))
    ∧ chainJobs (stCh [] (chainAt 64 d (some e)) []) (chainAt 64 d (some e)).id = []
    ∧ engineSeen (stCh [] (chainAt 64 d (some e)) []) 0 0 ≤ (stCh [] (chainAt 64 d (some e)) []).tick := by
  intro d e h
  simp only [List.mem_cons, List.not_mem_nil, or_false] at h
  cases d <;> rcases h with rfl | rfl | rfl | rfl | rfl | rfl | rfl <;>
    exact ⟨walks _ _ _ _ rfl (by decide +kernel) (by decide +kernel) (by decide +kernel), by decide +kernel, by decide +kernel⟩
/-- The walk has run past the allocation; a COND whose chain has a job left is seen for the first time. -/
theorem wit_ChainEntries_off : ∃ q, WalksOn (stCh [] (chainAt 8192 false none) []) (chainAt 8192 false none) q none .off :=
  have h : (entryMixed (stCh [] (chainAt 8192 false none) []) (chainAt 8192 false none)).2 = none := by decide +kernel
  ⟨(entryMixed (stCh [] (chainAt 8192 false none) []) (chainAt 8192 false none)).1, by decide +kernel, by decide +kernel, by decide +kernel,
    Prod.ext rfl h.symm, rfl⟩
theorem wit_ChainEntries_waits : ∃ q x, WalksOn (stCh [(64, 3#8)] (chainAt 64 false none) [job0 0x01#1024 .started false none])
      (chainAt 64 false none) q x (shapeOf q (chainAt 64 false none) x)
    ∧ chainJobs (stCh [(64, 3#8)] (chainAt 64 false none) [job0 0x01#1024 .started false none]) (chainAt 64 false none).id ≠ [] :=
  ⟨_, _, ⟨by decide +kernel, by decide +kernel, by decide +kernel, rfl, rfl⟩, by decide +kernel⟩
theorem wit_ChainEntries_halted : ∃ (s : State) (c : Chain), findChain s c.id = some c ∧ c.halted = true ∧ ctxRuns s c.ctx = true
    ∧ chainJobs s c.id = [] ∧ c.quietAt.getD 0 ≤ s.tick ∧ engineSeen s c.id.die c.id.cluster ≤ s.tick ∧ chainReleasing s c = false
    ∧ isPacket c = false :=
  ⟨stCh [] { chain0 64 true with halted := true } [], { chain0 64 true with halted := true }, by decide +kernel, rfl, by decide +kernel,
    by decide +kernel, by decide +kernel, by decide +kernel, by decide +kernel, rfl⟩
/-- A packet's chain at its END, before its release and after it; and halted. -/
def chainP (t : Option Nat) (h : Bool) : Chain := { chain0 64 false with origin := .packet 2 0#32, seen := some (0#512, none), task := t, halted := h }
theorem wit_ChainEntries_packet : ∀ t ∈ [none, some 7], WalksOn { stCh [] (chainP t false) [] with tasks := [task7] } (chainP t false)
      { stCh [] (chainP t false) [] with tasks := [task7] } (some (0#512, none)) .fin
    ∧ chainJobs { stCh [] (chainP t false) [] with tasks := [task7] } (chainP t false).id = [] ∧ isPacket (chainP t false) = true := by
  intro t h
  fin_cases h <;> exact ⟨⟨by decide +kernel, by decide +kernel, by decide +kernel, rfl, by decide +kernel⟩, by decide +kernel, rfl⟩
theorem wit_ChainEntries_packet_halted : ∀ t ∈ [none, some 7], findChain { stCh [] (chainP t true) [] with tasks := [task7] } (chainP t true).id
      = some (chainP t true) ∧ ctxRuns { stCh [] (chainP t true) [] with tasks := [task7] } 0 = true
    ∧ chainJobs { stCh [] (chainP t true) [] with tasks := [task7] } (chainP t true).id = []
    ∧ chainReleasing { stCh [] (chainP t true) [] with tasks := [task7] } (chainP t true) = false := by
  intro t h
  fin_cases h <;> exact ⟨by decide +kernel, by decide +kernel, by decide +kernel, by decide +kernel⟩

theorem wit_CoderResults : Starts (stA arch0) hd (single [.v 1]) [] ctx0 ∧ mergeCheck ctx0.a ctx0.act (.v 3) = none
    ∧ readCheck ctx0.a (blockLanes ctx0.act 16) (single [.v 1]) = none
    ∧ readCheck ctx0.a (blockLanes ctx0.act (rateBits 0 / 2)) (single [.v 1]) = none :=
  ⟨⟨enter0, by decide, by decide +kernel, by decide +kernel⟩, by decide +kernel, by decide +kernel, by decide +kernel⟩
theorem wit_CoderResults_reply : ∃ (s : State) (p : Pend), findPend s 0 = some p ∧ p.kind = .xform (.v 3) fullMask [] false
    ∧ leaveAsked s p.gang.die (isPendLeave 0) = false ∧ (s.pend.any fun q => isXform p.gang.die p.gang.core q && decide (q.op < 0)) = false
    ∧ findGang s p.gang = some gang0 ∧ olderRisk s p.gang 0 = false ∧ heldSlots gang0.arch + 32 ≤ slotLimit s gang0 :=
  ⟨stP (.xform (.v 3) fullMask [] false), _, rfl, rfl, by decide +kernel, by decide +kernel, rfl, by decide +kernel, by decide +kernel⟩
theorem wit_CoderResults_leave : ∀ r ∈ [LeaveReq.job 3 0, .pend 0 0], ∃ s : State, (getDie s 0).leaves = r :: []
    ∧ ∃ p, findPend s 0 = some p ∧ findGang s p.gang = some gang0 := by
  intro r _
  exact ⟨{ stP (.xform (.v 3) fullMask [] false) with dies := st0.dies.set 0 { Die.reset with leaves := [r] } }, rfl, _, rfl, rfl⟩

def matF : MatMod := { fmt := .e4m3, nz := false, i32 := false }
def mma0 : Instr := .mma hd (.v 32) (.s 1) (.s 2) (.v 0) matF
def mmasp0 : Instr := .mmasp hd (.v 32) (.s 1) (.s 2) (.v 0) matF 0#3
theorem wit_MatrixOperations_issue : ∀ i ∈ [mma0, mmasp0], ∃ f, productForm i = some f ∧ Starts (stS []) f.head f.reads [] (ctxS [])
    ∧ readCheck (ctxS []).a fullMask f.reads = none ∧ (∃ k, k = killRegs (ctxS []).a f.kills
      ∧ slotExcess (stS []) (ctxS []).g { k with reserved := k.reserved + (1024 - groupSlots k f.d 32) } = none)
    ∧ tileTarget (ctxS []) f.a 64 2560 = some (.scratch 0 0 0) ∧ tileTarget (ctxS []) f.b 64 2560 = some (.scratch 0 0 0)
    ∧ (ctxS []).clear = true := by
  intro i h
  fin_cases h <;> exact ⟨_, rfl, ⟨⟨by rfl, by decide +kernel, by decide +kernel⟩, by decide, by decide +kernel, by decide +kernel⟩, by decide +kernel, ⟨_, rfl, by decide +kernel⟩,
    by decide +kernel, by decide +kernel, by decide +kernel⟩
theorem wit_MatrixOperations_book : Starts (stS []) hd (single [.s 1]) [] (ctxS []) ∧ tileTarget (ctxS []) (.s 1) 32 32 = some (.scratch 0 0 0)
    ∧ wordCheck (ctxS []).a [.s 1] = none ∧ MayCommit (ctxS []) (killRegs (ctxS []).a (headKills hd (.s 1) .zero .zero))
    ∧ tileTarget (ctxA (archS1 0x10000#64)) (.s 1) 32 32 = none ∧ (ctxA (archS1 0x10000#64)).clear = true :=
  ⟨⟨⟨by rfl, by decide +kernel, by decide +kernel⟩, by decide, by decide +kernel, by decide +kernel⟩, by decide +kernel, by decide +kernel, .inr (by decide +kernel), by decide +kernel,
    by decide +kernel⟩
theorem wit_MatrixOperations_store : (ctxS []).g.st < 63 ∧ Starts (stS []) hd [(.s 1, 1), (.v 0, 32)] [] (ctxS [])
    ∧ readCheck (ctxS []).a fullMask [(.s 1, 1), (.v 0, 32)] = none ∧ tileTarget (ctxS []) (.s 1) 64 2560 = some (.scratch 0 0 0)
    ∧ excCheck (ctxS []).a.fpmode
        (((groupWords (ctxS []).a (.v 0) 32).flatMap fun l => l.map fun x => (msttElem matF x).2).foldl (· ||| ·) 0#8) = none
    ∧ (ctxS []).clear = true :=
  ⟨by decide, ⟨⟨by rfl, by decide +kernel, by decide +kernel⟩, by decide, by decide +kernel, by decide +kernel⟩, by decide +kernel, by decide +kernel, by decide +kernel, by decide +kernel⟩
/-- Tile A at 0 and tile B at 2,560 with headers that MMA's checks pass, and the same tile as both. -/
def tiles0 : List Host.Cell := [(0, BitVec.ofNat 8 Fmt.e4m3.code), (2560, BitVec.ofNat 8 (128 + Fmt.e4m3.code))]
def stT (k : PendKind) : State := { stS tiles0 with pend := [pend0 k] }
theorem wit_MatrixOperations_fetch : ∀ x ∈ [(2560, true), (0, false)], ∃ p,
    findPend (stT (.mat mma0 false [.scratch 0 0 0, .scratch 0 0 x.1] [])) 0 = some p
    ∧ fetchHeld (stT (.mat mma0 false [.scratch 0 0 0, .scratch 0 0 x.1] [])) p = false
    ∧ p.kind = .mat mma0 false [.scratch 0 0 0, .scratch 0 0 x.1] []
    ∧ (operandBytes (stT (.mat mma0 false [.scratch 0 0 0, .scratch 0 0 x.1] [])) 0 0 (.scratch 0 0 0)).2 = false
    ∧ (operandBytes (stT (.mat mma0 false [.scratch 0 0 0, .scratch 0 0 x.1] [])) 0 1 (.scratch 0 0 x.1)).2 = false
    ∧ decide ((productFetch (fun n => (getCore (stT (.mat mma0 false [.scratch 0 0 0, .scratch 0 0 x.1] [])) 0 0).codebooks.get (Fin.ofNat 8 n)) mma0
        (operandBytes (stT (.mat mma0 false [.scratch 0 0 0, .scratch 0 0 x.1] [])) 0 0 (.scratch 0 0 0)).1
        (operandBytes (stT (.mat mma0 false [.scratch 0 0 0, .scratch 0 0 x.1] [])) 0 1 (.scratch 0 0 x.1)).1 []).1 = 0#64) = x.2 := by
  intro x h
  fin_cases h <;> exact ⟨_, rfl, by decide +kernel, rfl, by decide +kernel, by decide +kernel, by decide +kernel⟩
theorem wit_MatrixOperations_bookFetch : ∃ (s : State) (p : Pend), findPend s 0 = some p
    ∧ p.kind = .mat (.mcbld hd (.s 1) 0#3) false [.scratch 0 0 0] [] ∧ fetchHeld s p = false ∧ olderRisk s p.gang 0 = false
    ∧ (tileBytes s 32 (.scratch 0 0 0)).2 = false :=
  ⟨stT (.mat (.mcbld hd (.s 1) 0#3) false [.scratch 0 0 0] []), _, rfl, rfl, by decide +kernel, by decide +kernel, by decide +kernel⟩
theorem wit_MatrixOperations_result : ∃ (s : State) (p : Pend), findPend s 0 = some p ∧ p.kind = .mat mma0 true [.scratch 0 0 0, .scratch 0 0 0] []
    ∧ productDst mma0 = .v 32 ∧ findGang s p.gang = some gang0 ∧ olderRisk s p.gang 0 = false ∧ (s.pend.any fun q => isMatrix p.gang.die p.gang.core q && decide (q.op < 0)
      && (match q.kind with
        | .mat _ _ _ _ => true
        | _ => false)) = false :=
  ⟨stT (.mat mma0 true [.scratch 0 0 0, .scratch 0 0 0] []), _, rfl, rfl, rfl, rfl, by decide +kernel, by decide +kernel⟩

/-- A pair by its second part. -/
theorem snd_at {α β : Type} {x : α × β} {b : β} (h : x.2 = b) : x = (x.1, b) := Prod.ext rfl h

/-! ### Outside accesses, pages, errors, links, queues and the host -/

/-- The booted device with its admin queue enabled. -/
def stH : State := { stM with admin := { Admin.reset with bootst := 0, enable := true, log2 := 4, acbase := 0x1000#64 } }
theorem open_stH : hostOpen stH = true := by decide +kernel

theorem wit_OutsideAndPages_host : hostOpen stH = true ∧ hostHeld stH = false ∧ hostSpan 0x100 4 = true ∧ MemoryCanonical stH
    ∧ stH.migrations = [] ∧ homeLost stH (homeOf 0x100) = false :=
  ⟨open_stH, by decide +kernel, by decide +kernel, by decide +kernel, rfl, by decide +kernel⟩
theorem wit_OutsideAndPages_remote : ∀ acc ∈ [RemoteOp.load 4, .store 16, .cas false], [1, 2, 4, 8, 16].contains (remoteSize acc) = true
    ∧ 0x100 % remoteSize acc = 0 ∧ stH.deviceLost = false ∧ remoteJoins stH 0x100 acc 5#128 = none ∧ paExists (0x100 % 2 ^ 44) = true
    ∧ 0x100 / 2 ^ 44 = stH.admin.devid.toNat
    ∧ (remoteNew acc (homeNat stH (0x100 % 2 ^ 44) (remoteSize acc)) 5#128).isSome = (acc != .load 4) := by
  intro acc h
  fin_cases h <;> exact ⟨by decide, by decide, rfl, rfl, by decide +kernel, by decide +kernel, by decide +kernel⟩
/-- A RED of another device that carries a window of its own around its address, and one whose window is empty. -/
def win0 (n limit : Nat) : RedWin := { index := 1, base := 0, limit := limit, count := n }
theorem wit_OutsideAndPages_joins : (remoteJoins stH 0x100 (.red .add false (some (win0 2 0x200))) 5#128).isSome = true
    ∧ remoteJoins stH 0x100 (.red .add false (some (win0 2 0x100))) 5#128 = none
    ∧ remoteJoins stH 0x100 (.red .add false (some (win0 0 0x200))) 5#128 = none := ⟨by decide +kernel, rfl, rfl⟩
def migr0 (bias : Option Bool) (boundary : Nat) : Migration :=
  { ctx := 0, va := 0, size := 65536, old := 0, new := 0x10000, bias := bias, boundary := boundary, shoot := none }
theorem wit_OutsideAndPages_move : ∀ m ∈ [migr0 none 0, migr0 none 65408, migr0 none 65536, migr0 (some true) 65408],
    findMigration { stM with migrations := [m] } 0 = some m ∧ m.shoot = none ∧ MemoryCanonical { stM with migrations := [m] } := by
  intro m h
  fin_cases h <;> exact ⟨rfl, rfl, by decide +kernel⟩
def shoot4 : Shoot := { id := 4, ctx := 0, first := 0, len := 65536, tasks := [(0, 7)], guest := none, admin := false }
def stT7 : State := { stM with tasks := [task7] }
theorem wit_OutsideAndPages_bias : ∀ m ∈ [migr0 (some true) 0, migr0 (some false) 65408], ∀ x ∈ ({ stM with migrations := [m] } : State).migrations,
    x.old = 0 → x = m := by
  intro m _ x h _
  exact List.mem_singleton.1 h
theorem wit_OutsideAndPages_shoot : ∃ (s : State) (x : Shoot), (s.shoots.find? fun x => decide (x.id = 4)) = some x
    ∧ (x.tasks.find? fun t => decide (t.1 = 0)) = some (0, 7) ∧ ∀ t, findTask s 7 = some t → t.stage = 6 := by
  have h : findTask { stT7 with shoots := [shoot4] } 7 = some task7 := rfl
  refine ⟨{ stT7 with shoots := [shoot4] }, shoot4, rfl, rfl, fun t e => ?_⟩
  rw [h] at e
  cases e
  rfl

theorem wit_StorageErrors : paExists (128 * 2) = true ∧ findGang st0 gang0.id = some gang0
    ∧ gang0.arch.vreg 0 = some [{ count := 32, value := 0#32, poison := false }] ∧ 31 < lengthOf [({ count := 32, value := 0#32, poison := false } : Run)]
    ∧ (7 < 8 ∧ 127 < 128 ∧ 524287 < 524288) ∧ 23 < 24 ∧ MemoryCanonical st0 ∧ st0.migrations = [] ∧ paExists (32 * 2) = true
    ∧ (List.replicate 16 1).length = 16 :=
  ⟨by decide +kernel, rfl, by decide +kernel, by decide, by decide, by decide, by decide +kernel, rfl, by decide +kernel, by decide⟩
/-- A scalar and a predicate register, and a word of each cache, and the shadow store of a saved context. -/
theorem wit_StorageErrors_registers : (gang0.arch.sreg 63).isSome = true ∧ 6 < 7 := by decide +kernel
theorem wit_StorageErrors_caches : (sheetOr (stD (die0 .clean)) 0 (0x100 / 256)).held.getLsbD (0x100 / 128 % 2) = true
    ∧ ((getCluster { st0 with clusters := [{ die := 0, cluster := 0, lines := [line0], nextChain := 0#32, lastWalk := 0 }] } 0 0).lines.any
        fun x => decide (x.line = 0x100 / 128)) = true
    ∧ ((getCore (modCore st0 0 0 fun c => { c with l1 := [line0] }) 0 0).l1.any fun x => decide (x.line = 0x100 / 128)) = true := by
  decide +kernel
theorem wit_StorageErrors_shadow : ∃ (s : State) (x : Context), (s.saved.any fun v => decide (v.ctx = 0)) = true ∧ findContext s 0 = some x :=
  ⟨{ stM with saved := [savedOf stM cont0] }, cont0, by decide +kernel, rfl⟩
theorem wit_StorageErrors_back : ∃ s : State, MemoryCanonical s ∧ s.migrations = [] ∧ (s.scrub.find? fun x => decide (x.1 = 2)) = some (2, 0#256) :=
  ⟨{ st0 with scrub := [(2, 0#256)] }, by decide +kernel, rfl, rfl⟩
/-- An error of a unit whose last entry is less than a second old, and one of a unit with none. -/
theorem wit_StorageErrors_merge : ∃ (s : State) (same : HealthEntry → Bool),
    same = (fun h : HealthEntry => decide (h.die = 9) && decide (h.kind = 1) && decide (h.unit = 2) && decide (s.tick < h.tick + 1000000000))
    ∧ s.health.any same = true ∧ { s with health := [] }.health.any same = false :=
  ⟨{ st0 with tick := 999999999, health := [{ tick := 0, die := 9, kind := 1, unit := 2, addr := 0, count := 3 }] }, _, rfl,
    by decide +kernel, rfl⟩
theorem wit_StorageErrors_count : ∃ s : State, ((s.health.filter fun h => decide (h.kind = 8)).foldl (fun m h => max m h.tick) 0)
    + 10000000000 ≤ s.tick := ⟨{ st0 with tick := 10000000000 }, by decide +kernel⟩

def linkT (st : LinkState) : Link := { Link.reset .host 16 with state := st, retries := 14, retrySeq := 3#12 }
def stK (st : LinkState) : State := { stH with tick := 10000000, links := [linkT st] }
theorem wit_LinkStates_training : findLink (stK .training) .host = some (linkT .training) ∧ training (linkT .training) = true
    ∧ (0 < 16 ∧ 16 ≤ (linkT .training).units) ∧ 1 ≤ (linkT .training).units ∧ (linkT .training).since + 10000000 ≤ (stK .training).tick
    ∧ ({ stK .training with tick := 9999999 } : State).tick < (linkT .training).since + 10000000 := by
  decide +kernel
/-- A link up, with retry requests for the same flit and another, and a flit that is in order, one that is not, and one in error. -/
def flitOf (x : Nat) : BitVec 2048 := BitVec.ofNat 2048 (x + 256 ^ 248 * (crc32c (bytesOfNat 248 x)).toNat)
theorem flitOf_toNat {x : Nat} (h : x < 65536) : (flitOf x).toNat = x + 256 ^ 248 * (crc32c (bytesOfNat 248 x)).toNat := by
  rw [flitOf, BitVec.toNat_ofNat, Nat.mod_eq_of_lt]
  have := (crc32c (bytesOfNat 248 x)).isLt
  generalize (crc32c (bytesOfNat 248 x)).toNat = c at *
  omega
/-- Its CRC, TYPE and number. -/
theorem flitOf_fields {x : Nat} (h : x < 65536) : crc32c (bytesOfNat 248 (flitOf x).toNat) = (flitOf x).extractLsb' 1984 32
    ∧ (flitOf x).extractLsb' 0 4 = BitVec.ofNat 4 x ∧ (flitOf x).extractLsb' 4 12 = BitVec.ofNat 12 (x / 16) := by
  have e := flitOf_toNat h
  have c := (crc32c (bytesOfNat 248 x)).isLt
  refine ⟨?_, ?_, ?_⟩
  · rw [bytesOfNat_congr (y := x) (by rw [e, Nat.add_mul_mod_self_left])]
    apply BitVec.eq_of_toNat_eq
    rw [BitVec.extractLsb'_toNat, e, Nat.shiftRight_eq_div_pow]
    generalize (crc32c (bytesOfNat 248 x)).toNat = c at *
    omega
  · apply BitVec.eq_of_toNat_eq
    rw [BitVec.extractLsb'_toNat, e]
    simp only [Nat.shiftRight_zero, BitVec.toNat_ofNat]
    generalize (crc32c (bytesOfNat 248 x)).toNat = c at *
    omega
  · apply BitVec.eq_of_toNat_eq
    rw [BitVec.extractLsb'_toNat, e, Nat.shiftRight_eq_div_pow]
    simp only [BitVec.toNat_ofNat]
    generalize (crc32c (bytesOfNat 248 x)).toNat = c at *
    omega
/-- The awaited flit, of sequence number 0, one that is not, of number 5, and one of no TYPE. -/
theorem wit_LinkStates_flit : (linkT .active).expect = 0#12
    ∧ (∀ q ∈ [0, 5], crc32c (bytesOfNat 248 (flitOf (1 + 16 * q)).toNat) = (flitOf (1 + 16 * q)).extractLsb' 1984 32
      ∧ (flitOf (1 + 16 * q)).extractLsb' 0 4 = 1#4 ∧ (flitOf (1 + 16 * q)).extractLsb' 4 12 = BitVec.ofNat 12 q)
    ∧ (BitVec.ofNat 12 5 ≠ (linkT .active).expect)
    ∧ crc32c (bytesOfNat 248 (flitOf 4).toNat) = (flitOf 4).extractLsb' 1984 32 ∧ 3 < ((flitOf 4).extractLsb' 0 4).toNat := by
  refine ⟨rfl, fun q h => ?_, by decide +kernel, (flitOf_fields (by decide)).1, by rw [(flitOf_fields (by decide)).2.1]; decide⟩
  fin_cases h <;> exact flitOf_fields (by decide)
/-- A flit with the CRC of another: one of the two is in error, since they differ in their CRC alone. -/
theorem wit_LinkStates_error : ∃ flit : BitVec 2048, crc32c (bytesOfNat 248 flit.toNat) ≠ flit.extractLsb' 1984 32 := by
  by_contra n
  have n : ∀ flit : BitVec 2048, crc32c (bytesOfNat 248 flit.toNat) = flit.extractLsb' 1984 32 := fun f => not_not.1 fun h => n ⟨f, h⟩
  have a := n 0#2048
  have b := n (BitVec.ofNat 2048 (256 ^ 248))
  rw [bytesOfNat_congr (y := 0) (by decide +kernel)] at b
  rw [BitVec.toNat_zero] at a
  exact absurd (a.symm.trans b) (by decide +kernel)
theorem wit_LinkStates_up : findLink (stK .active) .host = some (linkT .active) ∧ linkUp (stK .active) .host = true
    ∧ hostOpen (stK .active) = true ∧ (linkT .active).state ≠ .disabled
    ∧ (if (linkT .active).retrySeq = 4#12 then (linkT .active).retries + 1 else 1) < 16
    ∧ 16 ≤ (if ({ linkT .active with retries := 15 } : Link).retrySeq = 3#12 then ({ linkT .active with retries := 15 } : Link).retries + 1 else 1) := by
  decide +kernel

/-- A RED that waits for its home, and a load of a remote line, both sent 65,536 ticks ago. -/
def stTO (k : PendKind) : State := { stM with tick := 65536, pend := [{ pend0 k with sent := some 0 }] }
def loadK : PendKind := .load (.v 3) 4 false fullMask [{ accM with tgt := .remote 1 0x1000 }] .normal
theorem wit_TimeoutsAndReductions_access : ∀ k ∈ [loadK, .home (.red .add) .zero false .pkg 1#32 [accM] 0#32 true], ∃ p,
    findPend (stTO k) 0 = some p ∧ findGang (stTO k) p.gang = some gang0 ∧ lateReply (stTO k) p = true
    ∧ olderRisk (stTO k) p.gang p.op = false ∧ p.kind.posts = (match k with | .load .. => false | _ => true) := by
  intro k h
  fin_cases h <;> exact ⟨_, rfl, rfl, by decide +kernel, by decide +kernel, rfl⟩
theorem wit_TimeoutsAndReductions_job : ∃ (s : State) (j : Job) (c : Chain), findJob s j.id = some j ∧ findChain s j.chain = some c
    ∧ j.state = .started ∧ jobLate s j = true :=
  ⟨{ stJb false { job0 1#1024 .started false none with asked := some 0 } with tick := 65536 },
    { job0 1#1024 .started false none with asked := some 0 }, chain0 128 false, rfl, rfl, rfl, by decide +kernel⟩
theorem wit_TimeoutsAndReductions_round : ∃ (s : State) (r : Round), (getDie s 0).round = some r ∧ r.homes ≠ []
    ∧ timedOut s 0 r.start = true :=
  ⟨{ stRel with tick := 65536 }, { round0 with homes := [8], spans := [(3, none)] }, rfl, by decide, by decide +kernel⟩
/-- A slot that waits for a table of a home it does not reach. -/
def archWk : Arch := { arch0 with slotA := { arch0.slotA with wait := .walk 0 8, op := 5 } }
theorem wit_TimeoutsAndReductions_walk : ∃ (s : State) (g : Gang), findWalk s 5 = some (g, .a, 0) ∧ timedOut s g.id.die 0 = true
    ∧ g.halted = false ∧ olderRisk s g.id 5 = false ∧ begunIn s g.id .a = none :=
  ⟨{ stA archWk with tick := 65536 }, { gang0 with arch := archWk }, by decide +kernel, by decide +kernel, rfl, by decide +kernel, rfl⟩
/-- The same of an instruction that has begun. -/
theorem wit_TimeoutsAndReductions_begun : ∃ (s : State) (g : Gang) (p : Pend), findWalk s 5 = some (g, .a, 0) ∧ timedOut s g.id.die 0 = true
    ∧ g.halted = false ∧ olderRisk s g.id 5 = false ∧ begunIn s g.id .a = some p :=
  ⟨{ stA archWk with tick := 65536, pend := [{ begun0 (.cpy hd (.s 3) (.s 1) 0#32) [] true with op := 5 }] }, { gang0 with arch := archWk },
    { begun0 (.cpy hd (.s 3) (.s 1) 0#32) [] true with op := 5 }, by decide +kernel, by decide +kernel, rfl, by decide +kernel, rfl⟩
def redr0 (n : Nat) (src : Option (GangId × Nat)) : RedRound :=
  { id := 1, addr := 0x100, win := win0 2 0x200, op := .add, w64 := false, parts := List.replicate n (3#64, src), first := 0 }
theorem wit_TimeoutsAndReductions_whole : ∃ s : State, MemoryCanonical s ∧ s.migrations = [] ∧ homeLost s (homeOf (0x100 % 2 ^ 44)) = false
    ∧ (redr0 2 none).addr / 2 ^ 44 = s.admin.devid.toNat
    ∧ (s.redRounds.find? fun r => decide (r.addr = 0x100) && decide (r.parts.length ≥ r.win.count)) = some (redr0 2 none) :=
  ⟨{ stM with redRounds := [redr0 2 none] }, by decide +kernel, rfl, by decide +kernel, by decide +kernel, by decide +kernel⟩
theorem wit_TimeoutsAndReductions_part : ∀ src ∈ [none, some (place0, 7)], ∃ s : State, MemoryCanonical s ∧ s.migrations = []
    ∧ homeLost s (homeOf (0x100 % 2 ^ 44)) = false
    ∧ (s.redRounds.find? fun r => decide (r.addr = 0x100) && decide (r.parts.length < r.win.count) && decide (r.first + requestLimit ≤ s.tick))
      = some (redr0 1 src)
    ∧ ((redr0 1 src).parts.any fun x => x.2.isSome) = src.isSome := by
  intro src h
  fin_cases h
  · exact ⟨{ stM with redRounds := [redr0 1 none], tick := 65536 }, by decide +kernel, rfl, by decide +kernel, by decide +kernel, rfl⟩
  · exact ⟨{ stM with redRounds := [redr0 1 (some (place0, 7))], tick := 65536 }, by decide +kernel, rfl, by decide +kernel,
      by decide +kernel, rfl⟩

/-- A queue of 16 packets at virtual address 0, of context 0 and die 0. -/
def queue0 (st : QState) (l : List Taken) : Queue :=
  { num := 2, ctx := 0, ring := 0#64, log2 := 4, tickets := 1, mask := 1#8, status := 0x2000#64, ridx := 0#32, bell := 1#32, done := 0#32,
    doneSet := [], state := st, err := 0, taken := l, destroying := false, stale := false }
/-- The head packet's KIND byte stands at physical address 0. -/
def stU (kind : Byte) (q : Queue) : State := { stH with queues := [q], mem := if kind = 0#8 then [] else [(0, kind)] }
theorem wit_QueuesRun_bell : (∃ q : Queue, findQueue (stU 0#8 q) q.num = some q ∧ q.state = .error) ∧ hostOpen (stU 0#8 (queue0 .ready [])) = true
    ∧ findQueue (stU 0#8 (queue0 .ready [])) 2 = some (queue0 .ready []) ∧ idxDiff 16#32 (queue0 .ready []).ridx ≤ 2 ^ (queue0 .ready []).log2
    ∧ 2 ^ (queue0 .ready []).log2 < idxDiff 17#32 (queue0 .ready []).ridx ∧ (queue0 .ready []).state ≠ .error :=
  ⟨⟨queue0 .error [], rfl, rfl⟩, by decide +kernel, rfl, by decide +kernel, by decide +kernel, by decide⟩
/-- A CHAIN packet at the head, and a packet of no kind. -/
theorem wit_QueuesRun_draw : ∀ x ∈ [(4#8, true), (0#8, false)], ∃ t : State, t = (modDie (stU x.1 (queue0 .ready [])) 0 fun d => { d with lottery := lotteryNext d.lottery })
    ∧ dieLost (stU x.1 (queue0 .ready [])) 0 = false ∧ readyQueues (stU x.1 (queue0 .ready [])) 0 ≠ []
    ∧ lotteryWinner (lotteryNext (getDie (stU x.1 (queue0 .ready [])) 0).lottery) (readyQueues (stU x.1 (queue0 .ready [])) 0) = some (queue0 .ready [])
    ∧ (packetAt t (queue0 .ready []) 0#32).2 = some (x.1.setWidth 512)
    ∧ packetOk (queue0 .ready []) 0#32 (x.1.setWidth 512) = x.2 ∧ (queue0 .ready []).ridx ≠ (queue0 .ready []).bell := by
  intro x h
  fin_cases h <;> exact ⟨_, rfl, by decide +kernel, by decide +kernel, by decide +kernel, by decide +kernel, by decide +kernel, by decide⟩
/-- The status block can be written, at 0x2000 of the mapped page, and cannot, past it. -/
theorem wit_QueuesRun_status : (tryQueue (stU 4#8 (queue0 .ready [])) (queue0 .ready [])).isSome = true
    ∧ (tryQueue (stU 4#8 (queue0 .ready [])) { queue0 .ready [] with status := 0x20000#64 }).isSome = false := by decide +kernel
def taken0 (p : BitVec 512) : Taken := { pindex := 0#32, packet := p, start := 0, begun := false }
/-- A LAUNCH of one block, one of a kernel that is not there, a DEPEND, a SIGNAL at address 0, and a CHAIN. -/
def launchP (kdesc : Nat) : BitVec 512 := BitVec.ofNat 512 (1 + 2 ^ 32 + 2 ^ 64 * kdesc)
def stV (p : BitVec 512) : State := stU 0#8 (queue0 .ready [taken0 p])
theorem wit_QueuesRun_launch : takenOf (stV (launchP 0)) 2 0 1 = some (queue0 .ready [taken0 (launchP 0)], taken0 (launchP 0))
    ∧ launchRefused (stV (launchP 0)) (queue0 .ready [taken0 (launchP 0)]) (launchP 0) = none
    ∧ sharesFit (stV (launchP 0)) 0 (launchShares (stV (launchP 0)) 1#8 (launchGrid (launchP 0)).toNat) = true
    ∧ sharesReach (stV (launchP 0)) (queue0 .ready [taken0 (launchP 0)]) (launchShares (stV (launchP 0)) 1#8 (launchGrid (launchP 0)).toNat) = true
    ∧ takenOf (stV (launchP 64)) 2 0 1 = some (queue0 .ready [taken0 (launchP 64)], taken0 (launchP 64))
    ∧ launchRefused (stV (launchP 64)) (queue0 .ready [taken0 (launchP 64)]) (launchP 64) = some stCancelled :=
  ⟨by decide +kernel, by decide +kernel, by decide +kernel, by decide +kernel, by decide +kernel, by decide +kernel⟩
theorem wit_QueuesRun_depend : takenOf (stV 2#512) 2 0 2 = some (queue0 .ready [taken0 2#512], taken0 2#512)
    ∧ refsDone (stV 2#512) (queue0 .ready [taken0 2#512]) 2#512 = true := ⟨by decide +kernel, by decide +kernel⟩
theorem wit_QueuesRun_signal : takenOf (stV 3#512) 2 0 3 = some (queue0 .ready [taken0 3#512], taken0 3#512)
    ∧ (queue0 .ready [taken0 3#512]).done = (taken0 3#512).pindex
    ∧ deviceReach (stV 3#512) (queueDie (stV 3#512) (queue0 .ready [taken0 3#512])) 0 ((3#512).extractLsb' 64 64) 8 .write = true
    ∧ (let p := 3#512 ||| (0x20000#512 <<< (64 : Nat));
        deviceReach (stV p) (queueDie (stV p) (queue0 .ready [taken0 p])) 0 (p.extractLsb' 64 64) 8 .write = true)
    ∧ (∃ t, signalWrite (stV 3#512) (queue0 .ready [taken0 3#512]) 3#512 = some t ∧ (findQueue t 2).isSome = true)
    ∧ (let p := 3#512 ||| (0x20000#512 <<< (64 : Nat)); signalWrite (stV p) (queue0 .ready [taken0 p]) p = none)
    ∧ (∃ t, translateAny (stV 3#512) (queueDie (stV 3#512) (queue0 .ready [])) 0 ((3#512).extractLsb' 64 64) 8 .write = (t, .inr (.mem 0 false))
        ∧ t.migrations = [] ∧ homeLost t (homeOf 0) = false ∧ MemoryCanonical t) := by
  have h : (signalWrite (stV 3#512) (queue0 .ready [taken0 3#512]) 3#512).map (fun t => (findQueue t 2).isSome) = some true := by
    decide +kernel
  have k : (translateAny (stV 3#512) (queueDie (stV 3#512) (queue0 .ready [])) 0 ((3#512).extractLsb' 64 64) 8 .write).2 = .inr (.mem 0 false) := by
    decide +kernel
  have n : (signalWrite (stV (3#512 ||| (0x20000#512 <<< (64 : Nat)))) (queue0 .ready [taken0 (3#512 ||| (0x20000#512 <<< (64 : Nat)))])
      (3#512 ||| (0x20000#512 <<< (64 : Nat)))).isNone = true := by decide +kernel
  exact ⟨by decide +kernel, rfl, by decide +kernel, by decide +kernel, Option.map_eq_some_iff.1 h, Option.isNone_iff_eq_none.1 n,
    ⟨_, snd_at k, by decide +kernel, by decide +kernel, by decide +kernel⟩⟩
theorem wit_QueuesRun_chain : takenOf (stV 4#512) 2 0 4 = some (queue0 .ready [taken0 4#512], taken0 4#512)
    ∧ dieLost (stV 4#512) (packetBits 4#512 2 0 3) = false ∧ (engineChains (stV 4#512) (packetBits 4#512 2 0 3) (packetBits 4#512 2 4 4)).length < 64
    ∧ dieReach (stV 4#512) (queueDie (stV 4#512) (queue0 .ready [taken0 4#512])) (packetBits 4#512 2 0 3) = true
    ∧ dieLost { stV 4#512 with lost := 1#32 } (packetBits 4#512 2 0 3) = true :=
  ⟨by decide +kernel, by decide +kernel, by decide +kernel, by decide +kernel, by decide +kernel⟩

/-- A record that is due, in a ring that is empty and in one that is full. -/
def rec0 : Record :=
  { start := 0, finish := 0, queue := 2, status := 0, pindex := 0#32, pc := 0#32, cause := 0#8, faults := 0, kind := 1, replays := 0,
    now := false }
def contR (widx evc : Nat) : Context := { cont0 with due := [rec0], widx := BitVec.ofNat 32 widx, evc := evc, evlog2 := 4, evu := 1, unannounced := [0] }
def stEv (widx evc : Nat) : State := { stH with contexts := [contR widx evc], tick := 1000 }
theorem wit_EventRing_write : ∀ evc ∈ [2, 3], findContext (stEv 0 evc) 0 = some (contR 0 evc) ∧ ringFull (contR 0 evc) = false
    ∧ ringReach (stEv 0 evc) (contR 0 evc) true = true
    ∧ (∃ t, writeRecord (stEv 0 evc) (contR 0 evc) rec0 = some t) ∧ (contR 0 evc).nowPending = false ∧ rec0.now = false
    ∧ decide ((contR 0 evc).unannounced.length + 1 ≥ (contR 0 evc).evc) = (evc == 2) := by
  intro evc h
  fin_cases h
  · have h : (writeRecord (stEv 0 2) (contR 0 2) rec0).isSome = true := by decide +kernel
    exact ⟨rfl, by decide +kernel, by decide +kernel, ⟨_, (Option.some_get h).symm⟩, rfl, rfl, by decide⟩
  · have h : (writeRecord (stEv 0 3) (contR 0 3) rec0).isSome = true := by decide +kernel
    exact ⟨rfl, by decide +kernel, by decide +kernel, ⟨_, (Option.some_get h).symm⟩, rfl, rfl, by decide⟩
theorem wit_EventRing_poll : ringFull (contR 16 2) = true ∧ ringReach (stEv 16 2) (contR 16 2) false = true
    ∧ ringReach (stEv 16 2) (contR 16 2) true = true ∧ ringFull ((contR 16 2).readAt 0#32 (stEv 16 2).tick) = true ∧ (contR 16 2).due ≠ []
    ∧ ∃ t, readRidx (stEv 16 2) (contR 16 2) = (t, some 0#32) := by
  have h : (readRidx (stEv 16 2) (contR 16 2)).2 = some 0#32 := by decide +kernel
  exact ⟨by decide +kernel, by decide +kernel, by decide +kernel, by decide +kernel, List.cons_ne_nil _ _, _, snd_at h⟩
theorem wit_EventRing_timer : (contR 0 2).unannounced = 0 :: [] ∧ (contR 0 2).evu ≠ 0 ∧ 0 + 1000 * (contR 0 2).evu ≤ (stEv 0 2).tick := by
  decide +kernel
def launchR (kdesc : Nat) : Launch := { launch0 false false with queue := 2, packet := launchP kdesc, rerun := true }
def stRe (kdesc : Nat) : State := { stV 4#512 with launches := [launchR kdesc] }
theorem wit_EventRing_rerun : ∀ k ∈ [0, 64], findLaunch (stRe k) 5 = some (launchR k) ∧ findQueue (stRe k) (launchR k).queue = some (queue0 .ready [taken0 4#512])
    ∧ (launchR k).rerun = true ∧ ctxActive (stRe k) 0 = true
    ∧ launchRefused (stRe k) (queue0 .ready [taken0 4#512]) (launchR k).packet = (if k = 0 then none else some stCancelled)
    ∧ sharesFit (stRe k) 0 (launchShares (stRe k) 1#8 (launchR k).grid) = true
    ∧ sharesReach (stRe k) (queue0 .ready [taken0 4#512]) (launchShares (stRe k) 1#8 (launchR k).grid) = true := by
  intro k h
  fin_cases h <;> exact ⟨rfl, rfl, rfl, by decide +kernel, by decide +kernel, by decide +kernel, by decide +kernel⟩

/-- The booted device with `e` as the next command, which fills `cells` of the ring. -/
def stA1 (cells : List Host.Cell) (boot : Nat) : State :=
  { stH with hostMem := cells, admin := { stH.admin with aqtail := 1#32, bootst := boot } }
theorem next_of {s : State} {e : BitVec 512} (h : adminOpen s = true) (k : adminHead s = e) : adminEntry s = some e := by
  simp [adminEntry, h, k]
/-- PREEMPT of context 0 and of context 9, and PREEMPT with a reserved bit set. -/
theorem wit_AdminQueue_command : adminEntry (stA1 [(0, 3#8)] 0) = some 3#512 ∧ entryOpcode 3#512 = 0x03#8
    ∧ adminEntry (stA1 [(0, 3#8)] 2) = some 3#512 ∧ 3#512 &&& ~~~(usedBits true []) = 0#512
    ∧ adminEntry (stA1 [(0, 3#8), (2, 9#8)] 0) = some 0x90003#512 ∧ findContext (stA1 [(0, 3#8), (2, 9#8)] 0) (entryCtx 0x90003#512) = none
    ∧ 0x90003#512 &&& ~~~(usedBits true []) = 0#512 ∧ adminEntry (stA1 [(0, 3#8), (1, 1#8)] 0) = some 0x103#512
    ∧ 0x103#512 &&& ~~~(usedBits true []) ≠ 0#512 ∧ adminEntry stH = none :=
  ⟨next_of (by decide +kernel) (by decide +kernel), by decide +kernel, next_of (by decide +kernel) (by decide +kernel), by decide +kernel,
    next_of (by decide +kernel) (by decide +kernel), by decide +kernel, by decide +kernel, next_of (by decide +kernel) (by decide +kernel),
    by decide +kernel, by decide +kernel⟩
theorem wit_AdminQueue_unknown : adminEntry (stA1 [(0, 0x7F#8)] 0) = some 0x7F#512 ∧ decodeAdmin 0x7F#512 = .adminUnknownOpcode 0x7F#512 :=
  ⟨next_of (by decide +kernel) (by decide +kernel), by decide +kernel⟩
theorem wit_AdminQueue_done : stH.admin.enable = true ∧ Memory.wf stH.hostMem = true ∧ 255 < 256 := by decide +kernel
/-- Tails that the ring of 16 holds and does not, AQCTL with ENABLE 1 and 0, and a device with and without an ACTIVE context. -/
theorem wit_AdminQueue_registers : hostOpen stH = true ∧ idxDiff 16#32 stH.admin.aqhead ≤ 2 ^ stH.admin.log2
    ∧ 2 ^ stH.admin.log2 < idxDiff 17#32 stH.admin.aqhead ∧ (0x100#64).getLsbD 8 = true ∧ (0#64).getLsbD 8 = false
    ∧ hostOpen { stH with admin := { stH.admin with enable := false } } = true ∧ (∀ c ∈ { stH with contexts := [] }.contexts, c.state ≠ .active)
    ∧ cont0 ∈ stH.contexts ∧ cont0.state = .active ∧ (0x100000000000000#64).getLsbD 56 = true :=
  ⟨open_stH, by decide +kernel, by decide +kernel, by decide, by decide, by decide +kernel, (fun _ h => nomatch h),
    List.mem_cons_self, rfl, by decide⟩

/-- The sixteenth request in a row for the awaited flit, and the first. -/
theorem wit_LinkStates_asked : ((linkT .active).asked.takeWhile fun x => decide (x = (linkT .active).expect)).length < 15
    ∧ 15 ≤ (({ linkT .active with asked := List.replicate 15 0#12 } : Link).asked.takeWhile fun x => decide (x = (linkT .active).expect)).length := by
  decide +kernel
/-- The ring was full at its last reading, and RIDX has moved to 1 since. -/
theorem wit_EventRing_moved : ringFull (contR 16 2) = true ∧ ringFull ((contR 16 2).readAt 1#32 1000) = false
    ∧ ∃ p, readRidx { stEv 16 2 with mem := [((controlAddr (contR 16 2) + 4#64).toNat, 1#8)] } (contR 16 2) = (p, some 1#32) := by
  have h : (readRidx { stEv 16 2 with mem := [((controlAddr (contR 16 2) + 4#64).toNat, 1#8)] } (contR 16 2)).2 = some 1#32 := by decide +kernel
  exact ⟨by decide +kernel, by decide +kernel, _, snd_at h⟩

/-! ### Commands, contexts, the guest, losses -/

/-- The cells of an admin entry. -/
def entryCells (e : BitVec 512) : List Host.Cell :=
  (List.range 64).filterMap fun k => if e.extractLsb' (8 * k) 8 = 0#8 then none else some (k, e.extractLsb' (8 * k) 8)
/-- A page of 1 GiB at virtual and physical address 0, cached on die 0. -/
def tlbG : TlbEntry := { ctx := 0, base := 0, size := 2 ^ 30, entry := 0x9F#64 }
/-- The booted device with command `e` next, the further cells `l` of host memory, and contexts `c`. -/
def stCmd (e : BitVec 512) (l : List Host.Cell) (c : List Context) : State :=
  { stH with hostMem := entryCells e ++ l, admin := { stH.admin with aqtail := 1#32 }, contexts := c,
             dies := st0.dies.set 0 { Die.reset with tlb := [tlbG] } }
theorem acts {i : Instr} {e : BitVec 512} {s : State} {f : AdminForm} (h : adminOpen s = true) (k : adminHead s = e) (a : adminForm i = some f)
    (b : f.entry = e ∧ entryOpcode e = BitVec.ofNat 8 f.op ∧ e &&& ~~~(usedBits f.names f.fields) = 0#512)
    (c : s.admin.bootst = 0) (d : f.names = true → (findContext s (entryCtx e)).isSome = true) : AdminActs i e s (takeCommand s) :=
  ⟨next_of h k, rfl, f, a, b.1, b.2.1, fun n => absurd (c.symm.trans n) (by decide), b.2.2, d⟩

/-- CREATE of a descriptor at host address 0x2000: one die, one cluster, lease 32, a ring of 64 records. -/
def eCreate : BitVec 512 := 1#512 ||| (0x2000#512 <<< 64)
def cdCells : List Host.Cell := [(0x2030, 1#8), (0x2032, 1#8), (0x2034, 0x20#8), (0x2035, 0x80#8), (0x2036, 1#8), (0x2037, 1#8)]
def sCreate : State := stCmd eCreate cdCells []
def cdOf : BitVec 512 := BitVec.ofNat 512 (natOfBytes (cellsRead cdCells 0x2000 64))
theorem wit_ContextCommands_create : AdminActs (.create eCreate) eCreate sCreate (takeCommand sCreate)
    ∧ (∃ l, hostRead (takeCommand sCreate) (entryWord eCreate 8).toNat 64 = some l ∧ BitVec.ofNat 512 (natOfBytes l) = cdOf)
    ∧ cdBad cdOf = false ∧ (∀ j < 8, (BitVec.ofNat 8 (kdField cdOf 48 0 8)).getLsbD j = true → dieLost (takeCommand sCreate) j = false)
    ∧ freeContext (takeCommand sCreate) = some 0 ∧ shadowRoom (takeCommand sCreate) (newContext 0 cdOf) = true
    ∧ ∃ m u, extentsMapped { takeCommand sCreate with contexts := (takeCommand sCreate).contexts ++ [newContext 0 cdOf], nextCtx := (0 + 1) % 65535 }
          (newContext 0 cdOf) = (m, true)
        ∧ deviceWrite m (contextDie (takeCommand sCreate) (newContext 0 cdOf)) 0 (controlAddr (newContext 0 cdOf)) (bytesOfNat 64 0) = some u := by
  have a : (extentsMapped { takeCommand sCreate with contexts := (takeCommand sCreate).contexts ++ [newContext 0 cdOf], nextCtx := (0 + 1) % 65535 }
      (newContext 0 cdOf)).2 = true := by decide +kernel
  have b : (deviceWrite (extentsMapped { takeCommand sCreate with contexts := (takeCommand sCreate).contexts ++ [newContext 0 cdOf], nextCtx := (0 + 1) % 65535 }
      (newContext 0 cdOf)).1 (contextDie (takeCommand sCreate) (newContext 0 cdOf)) 0 (controlAddr (newContext 0 cdOf)) (bytesOfNat 64 0)).isSome = true := by
    decide +kernel
  exact ⟨acts (f := ⟨eCreate, 0x01, false, [(8, 0, 64)]⟩) (by decide +kernel) (by decide +kernel) rfl (by decide +kernel) rfl (fun h => nomatch h),
    ⟨cellsRead sCreate.hostMem 0x2000 64, by decide +kernel, by decide +kernel⟩, by decide +kernel, by decide +kernel, by decide +kernel,
    by decide +kernel, _, _, snd_at a, (Option.some_get b).symm⟩

/-- Context 0 in a state, on cluster 0 of die 0; and another that holds the cluster. -/
def contP (st : CState) : Context := { cont0 with state := st, clusters := 1#16, diemask := 1#8 }
def contO : Context := { contP .active with num := 1 }
theorem wit_ContextCommands_activate : (∀ st ∈ [CState.created, .saved], AdminActs (.activate 2#512) 2#512 (stCmd 2#512 [] [contP st])
      (takeCommand (stCmd 2#512 [] [contP st])) ∧ findContext (takeCommand (stCmd 2#512 [] [contP st])) (entryCtx 2#512) = some (contP st)
      ∧ partHeld (takeCommand (stCmd 2#512 [] [contP st])) (contP st) = false ∧ (contP st).dispatch = 0#64)
    ∧ AdminActs (.activate 2#512) 2#512 (stCmd 2#512 [] [contP .created, contO]) (takeCommand (stCmd 2#512 [] [contP .created, contO]))
    ∧ findContext (takeCommand (stCmd 2#512 [] [contP .created, contO])) (entryCtx 2#512) = some (contP .created)
    ∧ partHeld (takeCommand (stCmd 2#512 [] [contP .created, contO])) (contP .created) = true := by
  refine ⟨fun st h => ?_, acts (f := ⟨2#512, 0x02, true, []⟩) (by decide +kernel) (by decide +kernel) rfl (by decide +kernel) rfl
    (by decide +kernel), by decide +kernel, by decide +kernel⟩
  fin_cases h <;> exact ⟨acts (f := ⟨2#512, 0x02, true, []⟩) (by decide +kernel) (by decide +kernel) rfl (by decide +kernel) rfl
    (by decide +kernel), by decide +kernel, by decide +kernel, by decide +kernel⟩
theorem wit_ContextCommands_preempt : ∀ st ∈ [CState.active, .created], AdminActs (.preempt 3#512) 3#512 (stCmd 3#512 [] [contP st])
    (takeCommand (stCmd 3#512 [] [contP st])) ∧ findContext (takeCommand (stCmd 3#512 [] [contP st])) (entryCtx 3#512) = some (contP st) := by
  intro st h
  fin_cases h <;> exact ⟨acts (f := ⟨3#512, 0x03, true, []⟩) (by decide +kernel) (by decide +kernel) rfl (by decide +kernel) rfl
    (by decide +kernel), by decide +kernel⟩
theorem wit_ContextCommands_destroy : AdminActs (.destroy 4#512) 4#512 (stCmd 4#512 [] [contP .active]) (takeCommand (stCmd 4#512 [] [contP .active]))
    ∧ findContext (takeCommand (stCmd 4#512 [] [contP .active])) (entryCtx 4#512) = some (contP .active) ∧ (contP .active).state ≠ .destroying :=
  ⟨acts (f := ⟨4#512, 0x04, true, []⟩) (by decide +kernel) (by decide +kernel) rfl (by decide +kernel) rfl (by decide +kernel),
    by decide +kernel, by decide⟩

/-- LOAD of the descriptor at virtual address 64, in memory that holds one and in memory that holds zeros. -/
def eLoad : BitVec 512 := 5#512 ||| (64#512 <<< 64)
def kdCells : List Host.Cell := [(73, 0x10#8), (80, 1#8), (84, 32#8), (105, 32#8), (0x1000, 1#8)]
def sLoad (l : List Host.Cell) : State := { stCmd eLoad [] [contP .active] with mem := l }
theorem actsLoad (l : List Host.Cell) (h : adminOpen (sLoad l) = true) (k : adminHead (sLoad l) = eLoad) :
    AdminActs (.load eLoad) eLoad (sLoad l) (takeCommand (sLoad l)) :=
  acts (f := ⟨eLoad, 0x05, true, [(8, 0, 64)]⟩) h k rfl (by decide +kernel) rfl (fun _ => by
    show (findContext (sLoad []) (entryCtx eLoad)).isSome = true
    decide +kernel)
theorem wit_ContextCommands_load : AdminActs (.load eLoad) eLoad (sLoad kdCells) (takeCommand (sLoad kdCells))
    ∧ findContext (takeCommand (sLoad kdCells)) (entryCtx eLoad) = some (contP .active)
    ∧ findKernel (takeCommand (sLoad kdCells)) 0 (entryWord eLoad 8) = none
    ∧ (∃ k u, loadChecks (takeCommand (sLoad kdCells)) (contP .active) (entryWord eLoad 8) = (u, .inr k))
    ∧ AdminActs (.load eLoad) eLoad (sLoad []) (takeCommand (sLoad []))
    ∧ ∃ n u, loadChecks (takeCommand (sLoad [])) (contP .active) (entryWord eLoad 8) = (u, .inl n) := by
  have a : (loadChecks (takeCommand (sLoad kdCells)) (contP .active) (entryWord eLoad 8)).2
      = .inr { kern0 with kdesc := 64#64, const := 0x1000#64, ninstr := 1, constlen := 32, trap := 0#32, budget := 32, scratch := 0,
                          liveness := [(0, 0#64)] } := by decide +kernel
  have b : (loadChecks (takeCommand (sLoad [])) (contP .active) (entryWord eLoad 8)).2 = .inl 3 := by decide +kernel
  exact ⟨actsLoad kdCells (by decide +kernel) (by decide +kernel), by decide +kernel, by decide +kernel, ⟨_, _, snd_at a⟩,
    actsLoad [] (by decide +kernel) (by decide +kernel), _, _, snd_at b⟩
theorem wit_ContextCommands_unload : AdminActs (.unload 6#512) 6#512 (stCmd 6#512 [] [contP .created]) (takeCommand (stCmd 6#512 [] [contP .created]))
    ∧ findContext (takeCommand (stCmd 6#512 [] [contP .created])) (entryCtx 6#512) = some (contP .created)
    ∧ findKernel (takeCommand (stCmd 6#512 [] [contP .created])) 0 (entryWord 6#512 8) = some kern0 ∧ kern0.state = .loaded
    ∧ (contP .created).state ≠ .active :=
  ⟨acts (f := ⟨6#512, 0x06, true, [(8, 0, 64)]⟩) (by decide +kernel) (by decide +kernel) rfl (by decide +kernel) rfl (by decide +kernel),
    by decide +kernel, by decide +kernel, rfl, by decide⟩
def eQ : BitVec 512 := 7#512 ||| (0x2000#512 <<< 64)
def qdCells : List Host.Cell := [(0x2008, 4#8), (0x200C, 1#8), (0x2010, 1#8)]
def sQ : State := stCmd eQ qdCells [contP .active]
theorem wit_ContextCommands_queue : AdminActs (.qcreate eQ) eQ sQ (takeCommand sQ)
    ∧ findContext (takeCommand sQ) (entryCtx eQ) = some (contP .active)
    ∧ ∃ l d, hostRead (takeCommand sQ) (entryWord eQ 8).toNat 64 = some l ∧ d = BitVec.ofNat 512 (natOfBytes l) ∧ qdBad d = false
        ∧ BitVec.ofNat 8 (kdField d 16 0 8) &&& ~~~(contP .active).diemask = 0#8 ∧ freeQueue (takeCommand sQ) = some 0 :=
  ⟨acts (f := ⟨eQ, 0x07, true, [(8, 0, 64)]⟩) (by decide +kernel) (by decide +kernel) rfl (by decide +kernel) rfl (by decide +kernel),
    by decide +kernel, cellsRead qdCells 0x2000 64, BitVec.ofNat 512 (natOfBytes (cellsRead qdCells 0x2000 64)), by decide +kernel,
    by decide +kernel, by decide +kernel, by decide +kernel, by decide +kernel⟩
def eReset : BitVec 512 := 8#512 ||| (2#512 <<< 64)
def eDestroy : BitVec 512 := 9#512 ||| (2#512 <<< 64)
def sQu (e : BitVec 512) (st : QState) : State := { stCmd e [] [contP .active] with queues := [queue0 st []] }
theorem wit_ContextCommands_reset : (∀ st ∈ [QState.ready, .error], AdminActs (.qreset eReset) eReset (sQu eReset st) (takeCommand (sQu eReset st))
      ∧ namedQueue (takeCommand (sQu eReset st)) eReset = some (queue0 st []))
    ∧ AdminActs (.qdestroy eDestroy) eDestroy (sQu eDestroy .ready) (takeCommand (sQu eDestroy .ready))
    ∧ namedQueue (takeCommand (sQu eDestroy .ready)) eDestroy = some (queue0 .ready []) := by
  refine ⟨fun st h => ?_, acts (f := ⟨eDestroy, 0x09, true, [(8, 0, 16)]⟩) (by decide +kernel) (by decide +kernel) rfl (by decide +kernel) rfl
    (by decide +kernel), by decide +kernel⟩
  fin_cases h <;> exact ⟨acts (f := ⟨eReset, 0x08, true, [(8, 0, 16)]⟩) (by decide +kernel) (by decide +kernel) rfl (by decide +kernel) rfl
    (by decide +kernel), by decide +kernel⟩
theorem wit_ContextCommands_seed : AdminActs (.seed 0x0D#512) 0x0D#512 (stCmd 0x0D#512 [] []) (takeCommand (stCmd 0x0D#512 [] [])) :=
  acts (f := ⟨0x0D#512, 0x0D, false, [(8, 0, 3), (16, 0, 64)]⟩) (by decide +kernel) (by decide +kernel) rfl (by decide +kernel) rfl
    (fun h => nomatch h)

/-- Tables of context 0 at 0x100000, 0x104000 and 0x108000 that map the 1 GiB page at 0. -/
def tables : List Host.Cell := [(0x100000, 1#8), (0x100001, 0x40#8), (0x100002, 0x10#8), (0x104000, 1#8), (0x104001, 0x80#8), (0x104002, 0x10#8),
  (0x108000, 0x9F#8)]
def sPage (e : BitVec 512) : State := { stCmd e [] [{ contP .active with root := 0x100000#64 }] with mem := tables }
def eMigrate : BitVec 512 := 0x0A#512 ||| (9#512 <<< 128)
def eBias : BitVec 512 := 0x0B#512 ||| (1#512 <<< 128)
theorem wit_DeviceCommands_page : AdminActs (.migrate eMigrate) eMigrate (sPage eMigrate) (takeCommand (sPage eMigrate))
    ∧ AdminActs (.bias eBias) eBias (sPage eBias) (takeCommand (sPage eBias))
    ∧ (∀ e ∈ [eMigrate, eBias], movable (takeCommand (sPage e)) (entryCtx e) (entryWord e 8) = some 0x9F#64
      ∧ pageBusy (takeCommand (sPage e)) (pteAddr 0x9F#64) (pageSize 0x9F#64) = false ∧ pteBias 0x9F#64 = false
      ∧ pageHostBiased (takeCommand (sPage e)) (pteAddr 0x9F#64) (pageSize 0x9F#64) = false
      ∧ pagePoisoned (takeCommand (sPage e)) (pteAddr 0x9F#64) (pageSize 0x9F#64) = false)
    ∧ 8 ≤ entryField eMigrate 16 0 8 ∧ entryField eMigrate 16 0 8 ≤ 23 ∧ homeLost (takeCommand (sPage eMigrate)) (entryField eMigrate 16 0 8) = false
    ∧ entryField eBias 16 0 1 = 1 :=
  ⟨acts (f := ⟨eMigrate, 0x0A, true, [(8, 0, 64), (16, 0, 8)]⟩) (by decide +kernel) (by decide +kernel) rfl (by decide +kernel) rfl
      (by decide +kernel),
    acts (f := ⟨eBias, 0x0B, true, [(8, 0, 64), (16, 0, 1)]⟩) (by decide +kernel) (by decide +kernel) rfl (by decide +kernel) rfl (by decide +kernel),
    fun e h => by fin_cases h <;> exact ⟨by decide +kernel, by decide +kernel, by decide +kernel, by decide +kernel, by decide +kernel⟩,
    by decide +kernel, by decide +kernel, by decide +kernel, by decide +kernel⟩
theorem wit_DeviceCommands_shootdown : AdminActs (.shootdown 0x0C#512) 0x0C#512 (stCmd 0x0C#512 [] [contP .active])
    (takeCommand (stCmd 0x0C#512 [] [contP .active])) :=
  acts (f := ⟨0x0C#512, 0x0C, true, [(8, 0, 64), (16, 0, 64)]⟩) (by decide +kernel) (by decide +kernel) rfl (by decide +kernel) rfl
    (by decide +kernel)
theorem wit_DeviceCommands_devset : ∀ l ∈ [[], [contP .active]], AdminActs (.devset 0x0E#512) 0x0E#512 (stCmd 0x0E#512 [] l)
    (takeCommand (stCmd 0x0E#512 [] l)) ∧ (stCmd 0x0E#512 [] l).contexts = l := by
  intro l h
  fin_cases h <;> exact ⟨acts (f := ⟨0x0E#512, 0x0E, false, [(8, 0, 20)]⟩) (by decide +kernel) (by decide +kernel) rfl (by decide +kernel) rfl
    (fun h => nomatch h), rfl⟩
def eCap (w : Nat) : BitVec 512 := 0x15#512 ||| BitVec.ofNat 512 (2 ^ 64 * w)
theorem wit_DeviceCommands_cap : ∀ w ∈ [1199, 1200, 3200, 3201], AdminActs (.powercap (eCap w)) (eCap w) (stCmd (eCap w) [] [])
    (takeCommand (stCmd (eCap w) [] [])) ∧ entryField (eCap w) 8 0 16 = w := by
  intro w h
  fin_cases h <;> exact ⟨acts (f := ⟨_, 0x15, false, [(8, 0, 16)]⟩) (by decide +kernel) (by decide +kernel) rfl (by decide +kernel) rfl
    (fun h => nomatch h), by decide +kernel⟩
/-- HEALTHRD and FAULTSUM that read no entry, the latter of a context with nothing to report. -/
theorem wit_DeviceCommands_health : AdminActs (.healthrd 0x10#512) 0x10#512 (stCmd 0x10#512 [] []) (takeCommand (stCmd 0x10#512 [] []))
    ∧ hostAnswers (takeCommand (stCmd 0x10#512 [] [])) (entryWord 0x10#512 8).toNat 0 = true
    ∧ (((stCmd 0x10#512 [] []).health.drop (entryField 0x10#512 16 32 16)).take (entryField 0x10#512 16 0 16)).flatMap healthBytes = [] :=
  ⟨acts (f := ⟨0x10#512, 0x10, false, [(8, 0, 64), (16, 0, 16), (16, 32, 16)]⟩) (by decide +kernel) (by decide +kernel) rfl (by decide +kernel) rfl
    (fun h => nomatch h), by decide +kernel, by decide +kernel⟩
/-- The page of context 0 lies at a lost home, its tables do not. -/
def sFault : State := { sPage 0x11#512 with mem := tables ++ [(0x108005, 1#8)], lost := 1#32 <<< homeOf (2 ^ 40) }
theorem flat_ne_nil {α : Type} {f : Nat → List α} {n : Nat} (h : 0 < n) (k : f 0 ≠ []) : (List.range n).flatMap f ≠ [] := by
  obtain ⟨x, hx⟩ := List.exists_mem_of_ne_nil _ k
  exact List.ne_nil_of_mem (List.mem_flatMap.2 ⟨0, List.mem_range.2 h, hx⟩)
theorem lost_table {s : State} {n lv table va : Nat} {e : BitVec 64} (a : homeLost s (homeOf table) = false)
    (b : BitVec.ofNat 64 (homeNat s (table + 8 * 0) 8) = e) (c : (!pteV e || pteMalformed lv e) = false) (d : pteLeaf e = false)
    (k : lostLeaves s n (lv + 1) (pteAddr e) (va + 0 * entrySpan lv) ≠ []) : lostLeaves s (n + 1) lv table va ≠ [] := by
  rw [lostLeaves, a, if_neg (by decide)]
  refine flat_ne_nil (by split <;> decide) ?_
  simp only [b, c, d, if_neg (by decide : ¬ (false = true))]
  exact k
theorem lost_leaf {s : State} {n lv table va : Nat} {e : BitVec 64} (a : homeLost s (homeOf table) = false)
    (b : BitVec.ofNat 64 (homeNat s (table + 8 * 0) 8) = e) (c : (!pteV e || pteMalformed lv e) = false) (d : pteLeaf e = true)
    (k : (!pteRemote e && decide (paRegion (pteAddr e) ≤ 1) && homeLost s (homeOf (pteAddr e))) = true) :
    lostLeaves s (n + 1) lv table va ≠ [] := by
  rw [lostLeaves, a, if_neg (by decide)]
  refine flat_ne_nil (by split <;> decide) ?_
  simp only [b, c, d, k, if_neg (by decide : ¬ (false = true)), if_true]
  exact List.cons_ne_nil _ _
theorem onePages_ne_nil {l : List (Nat × Nat)} (h : l ≠ []) : onePages l ≠ [] := by
  cases l with
  | nil => exact absurd rfl h
  | cons x rest => rw [onePages]; split <;> [split; skip] <;> exact List.cons_ne_nil _ _
theorem pageRuns_ne_nil {l : List (Nat × Nat)} (h : l ≠ []) : pageRuns l ≠ [] := by
  cases l with
  | nil => exact absurd rfl h
  | cons x rest => rw [pageRuns]; split <;> [split; skip] <;> exact List.cons_ne_nil _ _
theorem faults_sFault : faultSummary (takeCommand sFault) ≠ [] := by
  have h : lostLeaves (takeCommand sFault) 4 1 0x100000 0 ≠ [] :=
    lost_table (e := 0x104001#64) (by decide +kernel) (by decide +kernel) (by decide +kernel) (by decide +kernel)
      (lost_table (e := 0x108001#64) (by decide +kernel) (by decide +kernel) (by decide +kernel) (by decide +kernel)
        (lost_leaf (e := 0x1000000009F#64) (by decide +kernel) (by decide +kernel) (by decide +kernel) (by decide +kernel) (by decide +kernel)))
  obtain ⟨y, hy⟩ := List.exists_mem_of_ne_nil _ (pageRuns_ne_nil (onePages_ne_nil h))
  exact List.ne_nil_of_mem (List.mem_flatMap.2 ⟨{ contP .active with root := 0x100000#64 }, List.mem_cons_self, List.mem_map.2 ⟨y, hy, rfl⟩⟩)
theorem wit_DeviceCommands_faults : AdminActs (.faultsum 0x11#512) 0x11#512 (stCmd 0x11#512 [] []) (takeCommand (stCmd 0x11#512 [] []))
    ∧ faultSummary (takeCommand (stCmd 0x11#512 [] [])) = [] ∧ AdminActs (.faultsum 0x11#512) 0x11#512 sFault (takeCommand sFault)
    ∧ entryField 0x11#512 16 0 16 < (faultSummary (takeCommand sFault)).length :=
  ⟨acts (f := ⟨0x11#512, 0x11, false, [(8, 0, 64), (16, 0, 16)]⟩) (by decide +kernel) (by decide +kernel) rfl (by decide +kernel) rfl
    (fun h => nomatch h), by decide +kernel,
    acts (f := ⟨0x11#512, 0x11, false, [(8, 0, 64), (16, 0, 16)]⟩) (by decide +kernel) (by decide +kernel) rfl (by decide +kernel) rfl
    (fun h => nomatch h), by
      rw [show entryField 0x11#512 16 0 16 = 0 by decide +kernel]
      exact List.length_pos_iff.2 faults_sFault⟩
def eTier : BitVec 512 := 0x12#512 ||| BitVec.ofNat 512 (2 ^ 192 * 108125000000)
def sTier (e : BitVec 512) (b : Bool) : State :=
  { stCmd e [] [] with dies := if b then Vector.replicate 8 { Die.reset with safeTier := some (0, 108125000000) } else st0.dies }
theorem wit_DeviceCommands_tier : AdminActs (.safetier eTier) eTier (stCmd eTier [] []) (takeCommand (stCmd eTier [] []))
    ∧ entryField eTier 16 0 41 % 64 = 0 ∧ 108125000000 ≤ (entryWord eTier 24).toNat
    ∧ entryField eTier 16 0 41 + (entryWord eTier 24).toNat ≤ 2 ^ 41
    ∧ ∀ b : Bool, AdminActs (.checkpoint 0x13#512) 0x13#512 (sTier 0x13#512 b) (takeCommand (sTier 0x13#512 b))
      ∧ AdminActs (.restore 0x14#512) 0x14#512 (sTier 0x14#512 b) (takeCommand (sTier 0x14#512 b))
      ∧ tierReady (takeCommand (sTier 0x13#512 b)) = b ∧ tierReady (takeCommand (sTier 0x14#512 b)) = b := by
  refine ⟨acts (f := ⟨eTier, 0x12, false, [(8, 0, 3), (16, 0, 41), (24, 0, 64)]⟩) (by decide +kernel) (by decide +kernel) rfl (by decide +kernel) rfl
    (fun h => nomatch h), by decide +kernel, by decide +kernel, by decide +kernel, fun b => ?_⟩
  cases b <;> exact ⟨acts (f := ⟨0x13#512, 0x13, false, []⟩) (by decide +kernel) (by decide +kernel) rfl (by decide +kernel) rfl (fun h => nomatch h),
    acts (f := ⟨0x14#512, 0x14, false, [(8, 0, 23), (8, 63, 1)]⟩) (by decide +kernel) (by decide +kernel) rfl (by decide +kernel) rfl
      (fun h => nomatch h), by decide +kernel, by decide +kernel⟩
def eAttest : BitVec 512 := 0x16#512 ||| BitVec.ofNat 512 (2 ^ 192 * 5419)
theorem wit_DeviceCommands_attest : AdminActs (.attest eAttest) eAttest (stCmd eAttest [] []) (takeCommand (stCmd eAttest [] []))
    ∧ (∃ nonce, hostRead (takeCommand (stCmd eAttest [] [])) (entryWord eAttest 8).toNat 64 = some nonce)
    ∧ 5419 ≤ (entryWord eAttest 24).toNat ∧ ∀ n, hostAnswers (takeCommand (stCmd eAttest [] [])) (entryWord eAttest 16).toNat n = true :=
  ⟨acts (f := ⟨eAttest, 0x16, false, [(8, 0, 64), (16, 0, 64), (24, 0, 64)]⟩) (by decide +kernel) (by decide +kernel) rfl (by decide +kernel) rfl
    (fun h => nomatch h), ⟨cellsRead (entryCells eAttest) 0 64, by decide +kernel⟩, by decide +kernel, fun _ => rfl⟩
/-- KEYBIND of slot 2: UNBIND, NEW, and neither, with and without a key in the slot. -/
def eKey (fl : Nat) : BitVec 512 := 0x17#512 ||| BitVec.ofNat 512 (2 ^ 128 * 2 + 2 ^ 192 * fl)
def sKey (fl : Nat) (l : List KeySlot) : State :=
  { stCmd (eKey fl) [] [contP .active] with dies := st0.dies.set 0 { Die.reset with keys := l } }
def key2 : KeySlot := { slot := 2, key := 5#256, salt := 6#32, ctx := none }
theorem wit_DeviceCommands_key : ∀ x ∈ [(2, []), (1, []), (0, [key2]), (0, [])], AdminActs (.keybind (eKey x.1)) (eKey x.1) (sKey x.1 x.2)
      (takeCommand (sKey x.1 x.2)) ∧ entryField (eKey x.1) 8 0 3 = 0 ∧ entryField (eKey x.1) 16 0 6 = 2
    ∧ dieLost (takeCommand (sKey x.1 x.2)) 0 = false ∧ entryField (eKey x.1) 24 1 1 = x.1 / 2 ∧ entryField (eKey x.1) 24 0 1 = x.1 % 2
    ∧ findKey (getDie (takeCommand (sKey x.1 x.2)) 0) 2 = x.2.head? := by
  intro x h
  fin_cases h <;> exact ⟨acts (f := ⟨_, 0x17, true, [(8, 0, 3), (16, 0, 6), (24, 0, 2)]⟩) (by decide +kernel) (by decide +kernel) rfl
    (by decide +kernel) rfl (by decide +kernel), by decide +kernel, by decide +kernel, by decide +kernel, by decide +kernel, by decide +kernel, rfl⟩
theorem wit_DeviceCommands_firmware : AdminActs (.fwupdate 0x18#512) 0x18#512 (stCmd 0x18#512 [] []) (takeCommand (stCmd 0x18#512 [] []))
    ∧ hostRead (takeCommand (stCmd 0x18#512 [] [])) (entryWord 0x18#512 8).toNat (entryWord 0x18#512 16).toNat = some [] :=
  ⟨acts (f := ⟨0x18#512, 0x18, false, [(8, 0, 64), (16, 0, 64)]⟩) (by decide +kernel) (by decide +kernel) rfl (by decide +kernel) rfl
    (fun h => nomatch h), by decide +kernel⟩

def contH : Context := { cont0 with state := .preempting }
theorem wit_ContextChanges_timeout : ∃ (s : State) (g : Gang), findGang s g.id = some g ∧ findContext s g.ctx = some contH ∧ contH.state = .preempting
    ∧ contH.phase = 0 ∧ g.halted = false ∧ g.arch.mode = .trap ∧ contH.haltTick + 20000 ≤ s.tick :=
  ⟨{ stA { arch0 with mode := .trap } with contexts := [contH], tick := 20000 }, { gang0 with arch := { arch0 with mode := .trap } }, rfl, rfl, rfl,
    rfl, rfl, rfl, by decide +kernel⟩
/-- A context with no gang and no block, saved. -/
def contS (st : CState) (ph : Nat) : Context := { cont0 with state := st, phase := ph }
def saved0 : Saved := { ctx := 0, gangs := [], blocks := [], cores := [], chains := [], jobs := [], mailboxes := [], binds := [] }
def stSv (c : Context) : State := { stM with contexts := [c], gangs := [], blocks := [], saved := [saved0] }
theorem wit_ContextChanges_saved : findContext (stSv (contS .preempting 2)) 0 = some (contS .preempting 2)
    ∧ (contS .preempting 2).shadowErr = false ∧ (∀ x ∈ (stSv (contS .preempting 2)).guest.preempts, x.1 ≠ 0)
    ∧ ∃ t, writeImage (contS .preempting 2) (pendingPieces (stSv (contS .preempting 2)) (contS .preempting 2)) (stSv (contS .preempting 2)) = some t := by
  have h : (writeImage (contS .preempting 2) (pendingPieces (stSv (contS .preempting 2)) (contS .preempting 2))
      (stSv (contS .preempting 2))).isSome = true := by decide +kernel
  exact ⟨rfl, rfl, (fun _ h => nomatch h), _, (Option.some_get h).symm⟩
theorem wit_ContextChanges_resumed : findContext (stSv (contS .resuming 0)) 0 = some (contS .resuming 0)
    ∧ findSaved (stSv (contS .resuming 0)) 0 = some saved0
    ∧ badPiece (stSv (contS .resuming 0)) (contS .resuming 0) .rmw (savePieces 0 (contS .resuming 0) saved0.gangs saved0.blocks) = none
    ∧ restoreStacks (stSv (contS .resuming 0)) (contS .resuming 0) saved0.gangs = some [] :=
  ⟨rfl, rfl, by decide +kernel, rfl⟩
theorem wit_ContextChanges_faulted : contextFault (stSv { cont0 with shadowErr := true }) { cont0 with shadowErr := true } = some 0 := by
  decide +kernel

/-! ### The guest -/

/-- Job 3 of queue 1 with footprint 0 from 0, its result in the scratchpad of core 0; a page of it granted at 0. -/
def page0 : GuestPage := { va := 0, pa := 0, write := true, device := none }
def gjob0 (l : List GuestPage) : GuestJob :=
  { sq := 1, seq := 3#16, ctx := 0, gang := place0, block := 0, die := 0, core := 0, rindex := 4, image := 0,
    feet := [1#64, 1#64, 1#64, 1#64], granted := l, writes := [] }
def head0 (t : BitVec 8) : GuestHeader := { mtype := t, len := 0#8, rtag := 9#16, sq := 1#4, seq := 3#16 }
def stGu (l : List (GuestHeader × List Byte)) (p : List GuestPage) : State :=
  { stM with guest := { Guest.reset with depths := [1, 1], jobs := [gjob0 p], inbox := l, invals := [(0#128, 0, 4)], preempts := [(9, 0)] },
             dies := (st0.dies.set 0 { Die.reset with tlb := [tlb0] }).set 4 { Die.reset with tlb := [tlb0] } }
theorem sends (t : BitVec 8) (b : List Byte) (p : List GuestPage) : GuestSends (stGu [(head0 t, b)] p) (stGu [] p) (head0 t) t b :=
  ⟨rfl, rfl, rfl, rfl⟩
theorem wit_GuestProtocol_submit : Starts (stGu [] []) hd (single [.s 1]) [.s 1, .s 3] { ctx0 with s := stGu [] [] }
    ∧ wordCheck ctx0.a [.s 1] = none
    ∧ ScratchSpan { ctx0 with s := stGu [] [] } (.s 1) 0#32 64 .read 0 0 0 ∧ scratchPoisoned (stGu [] []) 0 0 0 64 = false
    ∧ guestUp (stGu [] []) = true ∧ guestFull (stGu [] []) 0 = false ∧ guestFull (stGu [] []) 1 = true
    ∧ Ctx.clear { ctx0 with s := stGu [] [] } = true ∧ guestUp st0 = false :=
  ⟨⟨⟨by rfl, by decide +kernel, by decide +kernel⟩, by decide, by decide +kernel, by decide +kernel⟩, by decide +kernel, by decide +kernel, by decide +kernel,
    by decide +kernel, by decide +kernel, by decide +kernel, by decide +kernel, by decide +kernel⟩
theorem wit_GuestProtocol_commit : MayCommit { ctx0 with s := stGu [] [] } (killRegs ctx0.a (headKills hd (.s 1) .zero .zero))
    ∧ MayCommit ctx0 (killRegs ctx0.a (headKills hd (.s 1) .zero .zero)) := ⟨.inr (by decide +kernel), .inr (by decide +kernel)⟩
/-- A GSUB to queue `sq` that has begun with its image at 0, its release over, and the attachment up or isolated. -/
def gsub0 (sq : BitVec 4) : Instr := .gsub hd (.s 3) (.s 1) 0#32 sq
def stGq (sq : BitVec 4) (l : List Posted) (f : Option (BitVec 8 × BitVec 64)) (out : Bool) : State :=
  { stGu [] [] with gangs := [gangQ l], tasks := [{ task7 with fault := f }], pend := [begun0 (gsub0 sq) [0#64] true],
                    guest := { (stGu [] []).guest with isolated := out } }
def ctxG (sq : BitVec 4) (l : List Posted) (f : Option (BitVec 8 × BitVec 64)) (out : Bool) : Ctx :=
  { s := stGq sq l f out, x := .a, g := gangQ l, act := fullMask }
theorem wit_GuestProtocol_released : ∀ f ∈ [none, some (0x12#8, 0#64)], ∀ out : Bool, ∀ sq ∈ [0#4, 1#4], ∃ p k,
    Resumes (stGq sq [] f out) hd.guard (ctxG sq [] f out) p ∧ (ctxG sq [] f out).slot.wait = .task k.id ∧ findTask (stGq sq [] f out) k.id = some k
    ∧ (ctxG sq [] f out).g.fenceFault = none ∧ 0 = (p.vals.headD 0#64).toNat
    ∧ (∀ x ∈ (ctxG sq [] f out).g.posted, fenceWaits 2#6 x.cls = true → p.op ≤ x.op) ∧ k.fault = f ∧ MayTrap (stGq sq [] f out) (ctxG sq [] f out) p
    ∧ scratchPoisoned (stGq sq [] f out) (ctxG sq [] f out).g.id.die (ctxG sq [] f out).g.id.core 0 64 = false
    ∧ ((stGq sq [] f out).guest.isolated || linkBroken (stGq sq [] f out) .guest) = out
    ∧ guestFull (stGq sq [] f out) sq.toNat = (sq == 1#4) ∧ (ctxG sq [] f out).clear = true := by
  intro f hf out sq hs
  refine ⟨begun0 (gsub0 sq) [0#64] true, { task7 with fault := f }, ⟨by rfl, by rfl⟩, rfl, rfl, rfl, rfl, (fun x h => nomatch h), rfl,
    ⟨by fin_cases hf <;> fin_cases hs <;> cases out <;> decide +kernel, rfl, _, rfl⟩, ?_, ?_, ?_, ?_⟩
  all_goals fin_cases hf <;> fin_cases hs <;> cases out <;> decide +kernel
/-- A store before the GSUB has met a time-out. -/
theorem wit_GuestProtocol_posted : ∃ p k, Resumes (stGq 0#4 [posted0 0] none false) hd.guard (ctxG 0#4 [posted0 0] none false) p
    ∧ findTask (stGq 0#4 [posted0 0] none false) k.id = some k ∧ k.fault = none ∧ (ctxG 0#4 [posted0 0] none false).g.posted = [posted0 0]
    ∧ fenceWaits 2#6 (posted0 0).cls = true ∧ (posted0 0).op < p.op
    ∧ MayTrap (stGq 0#4 [posted0 0] none false) (ctxG 0#4 [posted0 0] none false) p :=
  ⟨begun0 (gsub0 0#4) [0#64] true, task7, ⟨by rfl, by rfl⟩, rfl, rfl, rfl, by decide, by decide, by decide +kernel, rfl, _, rfl⟩
theorem wit_GuestProtocol_complete : (∀ body : BitVec 128, ∃ s t, GuestSends s t (head0 2#8) 2#8 (bytesOfNat 16 body.toNat)
      ∧ findGuestJob s 1#4 3#16 = some (gjob0 []) ∧ Memory.wf (getCore s 0 0).scratch = true)
    ∧ (5#128).extractLsb' 8 8 = 0#8 ∧ (5#128).extractLsb' 32 32 = 0#32 ∧ ((5#128).extractLsb' 0 8).toNat < 6 ∧ (0x100#128).extractLsb' 8 8 ≠ 0#8
    ∧ (gjob0 []).writes = [] :=
  ⟨fun body => ⟨_, _, sends 2#8 (bytesOfNat 16 body.toNat) [], rfl, rfl⟩, by decide, by decide, by decide, by decide, rfl⟩
/-- No link carries traffic, and the tables of context 0 stand at home 8. -/
def stGa : State := { stGu [] [] with links := st0.links }
theorem wit_GuestProtocol_translate : (∀ body : BitVec 64, ∃ s, GuestSends s (stGu [] []) (head0 3#8) 3#8 (bytesOfNat 8 body.toNat)
      ∧ findGuestJob s 1#4 3#16 = some (gjob0 []) ∧ findGuestJob { s with guest := { s.guest with jobs := [] } } 1#4 3#16 = none)
    ∧ (1#64).extractLsb' 0 2 = 1#2 ∧ (1#64).extractLsb' 2 10 = 0#10 ∧ (1#64).extractLsb' 57 7 = 0#7
    ∧ (∃ u, xlateResult (stGu [] []) (gjob0 []) false (xlateVa 0x10001#64) = (u, .refused 1))
    ∧ (∃ u x page, xlateResult (stGu [] []) (gjob0 []) false (xlateVa 1#64) = (u, .granted x page))
    ∧ ∃ u home, xlateResult stGa (gjob0 []) false (xlateVa 0x10001#64) = (u, .away home) := by
  have a : (xlateResult (stGu [] []) (gjob0 []) false (xlateVa 0x10001#64)).2 = .refused 1 := by decide +kernel
  have b : (xlateResult (stGu [] []) (gjob0 []) false (xlateVa 1#64)).2 = .granted 0#64 { page0 with write := false } := by decide +kernel
  have c : (xlateResult stGa (gjob0 []) false (xlateVa 0x10001#64)).2 = .away 8 := by decide +kernel
  exact ⟨fun body => ⟨_, sends 3#8 (bytesOfNat 8 body.toNat) [], rfl, rfl⟩, by decide, by decide, by decide, ⟨_, snd_at a⟩, ⟨_, _, _, snd_at b⟩, _, _, snd_at c⟩
/-- Every link has failed. -/
def stGl : State := { stGu [] [] with links := st0.links.map fun l => { l with state := .failed } }
theorem wit_GuestProtocol_data : (∀ body : BitVec 64, ∃ s, GuestSends s (stGu [] [page0]) (head0 5#8) 5#8 (bytesOfNat 8 body.toNat)
      ∧ findGuestJob s 1#4 3#16 = some (gjob0 [page0]))
    ∧ (∀ (addr mask : BitVec 64) (data : BitVec 512), ∃ s, GuestSends s (stGu [] [page0]) (head0 7#8) 7#8
          (bytesOfNat 8 addr.toNat ++ bytesOfNat 8 mask.toNat ++ bytesOfNat 64 data.toNat)
        ∧ findGuestJob s 1#4 3#16 = some (gjob0 [page0]) ∧ s.migrations = [] ∧ Memory.wf s.mem = true)
    ∧ (∀ wr : Bool, grantedPage (gjob0 [page0]) 0x100 wr = some page0) ∧ page0.device = none ∧ 0x100 % 64 = 0
    ∧ guestWay (stGu [] []) (targetPlace (stGu [] []) (grantedTarget page0 0x100)) = .goes
    ∧ guestWay stGa (targetPlace stGa (grantedTarget page0 0x100)) = .waits
    ∧ guestWay stGl (targetPlace stGl (grantedTarget page0 0x100)) = .lost
    ∧ MemoryCanonical (stGu [] [page0]) ∧ ∀ k < 64, homeLost (stGu [] [page0]) (homeOf (0x100 + k)) = false :=
  ⟨fun body => ⟨_, sends 5#8 (bytesOfNat 8 body.toNat) [page0], rfl⟩, fun _ _ _ => ⟨_, sends 7#8 _ [page0], rfl, rfl, rfl⟩, by decide +kernel, rfl,
    by decide, by decide +kernel, by decide +kernel, by decide +kernel, by decide +kernel, by decide +kernel⟩
theorem wit_GuestProtocol_written : ∃ (s : State) (w : Nat × GuestHeader), (s.guest.writes.find? fun w => decide (w.1 = 6)) = some w
    ∧ opUnfolded s 6 = false ∧ s.guest.isolated = false :=
  ⟨{ stGu [] [] with guest := { (stGu [] []).guest with writes := [(6, head0 7#8)] } }, (6, head0 7#8), rfl, by decide +kernel, rfl⟩
theorem wit_GuestProtocol_acks : (∀ body : BitVec 128, ∃ s, GuestSends s (stGu [] []) (head0 10#8) 10#8 (bytesOfNat 16 body.toNat)
      ∧ s.guest.invals = [(0#128, 0, 4)])
    ∧ (∀ body : BitVec 64, ∃ s, GuestSends s (stGu [] []) (head0 12#8) 12#8 (bytesOfNat 8 body.toNat) ∧ s.guest.preempts = [(9, 0)]
      ∧ ∀ j ∈ s.guest.jobs, j.ctx ≠ 9)
    ∧ (∀ x ∈ [((0#128 : BitVec 128), 0, 4)], x.1 ≠ 1#128) ∧ ([((0#128 : BitVec 128), 0, 4)].find? fun x => decide (x.1 = 0#128)) = some (0#128, 0, 4)
    ∧ (∀ x ∈ [(9, 0)], x.1 ≠ (8#64).toNat) ∧ ([(9, 0)].find? fun x => decide (x.1 = (9#64).toNat)) = some (9, 0) :=
  ⟨fun body => ⟨_, sends 10#8 (bytesOfNat 16 body.toNat) [], rfl⟩,
    fun body => ⟨_, sends 12#8 (bytesOfNat 8 body.toNat) [], rfl, by show ∀ j ∈ [gjob0 []], j.ctx ≠ 9; decide⟩, by decide, by decide, by decide, by decide⟩
theorem wit_GuestProtocol_overdue : ∃ s : State, s.guest.isolated = false ∧ overdue s = some 5 :=
  ⟨{ stGu [] [] with tick := 2001 }, rfl, by decide +kernel⟩
/-- An INVACK at the last tick and past it, a PREACK likewise, and one of a context that has a job yet. -/
theorem wit_GuestProtocol_late : ¬ 0 + 2000 < 2000 ∧ 0 + 2000 < 2001 ∧ ¬ 0 + 50000 < 50000 ∧ 0 + 50000 < 50001
    ∧ ∃ j ∈ (stGu [] []).guest.jobs, j.ctx = 0 := ⟨by decide, by decide, by decide, by decide, gjob0 [], List.mem_singleton.2 rfl, rfl⟩

theorem wit_LossesAndPower : (∀ die ∈ [0, 7, 8, 23], dieLost stM die = false) ∧ ({ stM with form := 2 } : State).form = 2
    ∧ ({ stM with form := 1 } : State).form = 1 ∧ State.reset.admin.bootst = 1 ∧ State.reset.admin.boot = none
    ∧ stH.admin.bootst ≠ 1 ∧ ((1#32 ||| (0#8).setWidth 32) &&& 0xFFFFFF#32).getLsbD 0 = true
    ∧ ((2#32 ||| (16#8).setWidth 32) &&& 0xFFFFFF#32).getLsbD 0 = false ∧ ((2#32 ||| (16#8).setWidth 32) &&& 0xFFFFFF#32).getLsbD 4 = true :=
  ⟨by decide +kernel, rfl, rfl, rfl, rfl, by decide, by decide, by decide, by decide⟩
/-- A launch with a share on a die that is lost, and a boot with a link in training and with none. -/
theorem wit_LossesAndPower_breaks : ∃ l ∈ ({ stM with launches := [{ launch0 true false with dies := [0, 7] }] } : State).launches, 7 ∈ l.dies
    ∧ l.fail = none ∧ ∀ d ∈ stM.groups, d.die = 7 → d.launch = some l.uid → d.fail = none :=
  ⟨_, List.mem_singleton.2 rfl, by decide, rfl, fun _ h => nomatch h⟩
theorem wit_LossesAndPower_boot : ∃ s : State, s.admin.boot = some 0 ∧ (∃ l ∈ s.links, l.state = .training)
    ∧ ∀ l ∈ ({ s with links := linksUp } : State).links, l.state ≠ .training :=
  ⟨{ st0 with admin := { Admin.reset with boot := some 0 }, links := st0.links.map fun l => { l with state := .training } }, rfl,
    ⟨_, List.mem_cons_self, rfl⟩, by decide +kernel⟩

theorem wit_LossesAndPower_time : (getDie stM 7).frozen = none
    ∧ (getDie (modDie stM 7 fun d => { d with frozen := some 5 }) 7).frozen ≠ none ∧ dieLost stM 7 = false := by
  decide +kernel

/-! ### The machine as a whole -/

/-- ADD of V1 and V2 to V3, its word by R76 and R77, and the lone gang with that word next in its fetch buffer. -/
def add0 : Instr := .iadd hd (.v 3) (.v 1) (.v 2) intN
theorem wit_DecodeOfEncode : WellFormed add0 ∧ ∃ w, encode add0 = some w ∧ decode w = .ok add0 := by
  have h : ((encode add0).map fun w => decide (decode w = .ok add0)) = some true := by decide +kernel
  obtain ⟨w, a, b⟩ := Option.map_eq_some_iff.1 h
  exact ⟨by decide +kernel, w, a, of_decide_eq_true b⟩
def wAdd : IWord := (encode add0).getD 0#96
theorem wit_EncodeOfDecode : decode wAdd = .ok add0 ∧ add0 ≠ .udf ∧ ∀ opc, add0 ≠ .illegalOpcode opc :=
  ⟨by decide +kernel, (fun h => nomatch h), fun _ h => nomatch h⟩
def gangF : Gang := feedGang gang0 .a wAdd 0
def stF : State := { st0 with gangs := [gangF], agenda := [.issue place0 .a] }
theorem wit_StepRunsDecoded : stF.agenda = .issue place0 .a :: [] ∧ findGang stF place0 = some gangF ∧ stF.deviceLost = false
    ∧ begunIn { stF with agenda := [] } gangF.id .a = none ∧ pairReady { stF with agenda := [] } gangF .a = true
    ∧ fetchLook { stF with agenda := [] } gangF (gangF.arch.slot .a).pc = .word wAdd ∧ decode wAdd = .ok add0
    ∧ issueTurn stF gangF .a = true ∧ interlocked { stF with agenda := [] } gangF .a wAdd add0 = false :=
  ⟨rfl, rfl, rfl, rfl, by decide +kernel, by decide +kernel, by decide +kernel, by decide +kernel, by decide +kernel⟩
/-- A word that does not decode. -/
theorem wit_StepRunsDecoded_illegal : ∃ e, decode 0xFFFFFFFFFFFFFFFFFFFFFFFF#96 = .error e := by
  have h : (match decode 0xFFFFFFFFFFFFFFFFFFFFFFFF#96 with | .error _ => true | .ok _ => false) = true := by decide +kernel
  match k : decode 0xFFFFFFFFFFFFFFFFFFFFFFFF#96 with
  | .error e => exact ⟨e, rfl⟩
  | .ok i => simp [k] at h
/-- The default order, the issue of an instruction that has begun, and words that cannot be fetched yet or at all. -/
theorem wit_StepRunsDecoded_default : ∃ (s t : State) (g : Gang), s.agenda = [] ∧ defaultIssue t = some (g, .a) ∧ s.turn = true
    ∧ t = { s with turn := !s.turn, tick := s.tick + 1 } :=
  ⟨{ stF with agenda := [], turn := true }, _, gangF, rfl, by decide +kernel, rfl, rfl⟩
theorem wit_StepRunsDecoded_begun : ∃ (s : State) (g : Gang) (p : Pend), s.agenda = [] ∧ s.deviceLost = false ∧ pairReady s g .a = true
    ∧ begunIn s g.id .a = some p :=
  ⟨{ stQ (begun0 fence0 [] true) [] none with agenda := [] }, gangQ [], begun0 fence0 [] true, rfl, rfl, by decide +kernel, rfl⟩
theorem wit_StepRunsDecoded_fetch : (∃ va, fetchLook stM gang0 0#32 = .miss va) ∧ (∃ cause tval, fetchLook st0 gang0 0x100#32 = .trap cause tval)
    ∧ olderRisk st0 place0 st0.nextOp = false := by
  have h : (match fetchLook stM gang0 0#32 with | .miss _ => true | _ => false) = true := by decide +kernel
  have k : (match fetchLook st0 gang0 0x100#32 with | .trap _ _ => true | _ => false) = true := by decide +kernel
  refine ⟨?_, ?_, by decide +kernel⟩
  · match e : fetchLook stM gang0 0#32 with
    | .miss va => exact ⟨va, rfl⟩
    | .word _ | .trap _ _ => simp [e] at h
  · match e : fetchLook st0 gang0 0x100#32 with
    | .trap c v => exact ⟨c, v, rfl⟩
    | .word _ | .miss _ => simp [e] at k
theorem wit_StepRunsDecoded_event : ∃ s : State, s.agenda = .event .guestDutyTimeout :: [] ∧ s.deviceLost = false
    ∧ takesEvent .guestDutyTimeout = true ∧ takesEvent add0 = false :=
  ⟨{ stF with agenda := [.event .guestDutyTimeout] }, rfl, rfl, by decide, by decide⟩
/-- A device that is lost steps, and every step of it answers a next state. -/
theorem wit_SlotsKept : ∃ s t : State, step s = .next t := by
  have h : (match step { st0 with deviceLost := true } with | .next _ => true | _ => false) = true := by decide +kernel
  match k : step { st0 with deviceLost := true } with
  | .next t => exact ⟨_, t, k⟩
  | .fault _ => simp [k] at h
  | .refused _ => simp [k] at h

theorem wit_DecodeWords : hd = { guard := alwaysGuard, la := false, lb := false, lc := false, yld := false, stall := 0#4 } := rfl

/-- BIAS towards the device. -/
theorem wit_DeviceCommands_unbias : AdminActs (.bias 0x0B#512) 0x0B#512 (sPage 0x0B#512) (takeCommand (sPage 0x0B#512))
    ∧ entryField 0x0B#512 16 0 1 = 0 ∧ movable (takeCommand (sPage 0x0B#512)) (entryCtx 0x0B#512) (entryWord 0x0B#512 8) = some 0x9F#64
    ∧ pageBusy (takeCommand (sPage 0x0B#512)) (pteAddr 0x9F#64) (pageSize 0x9F#64) = false
    ∧ pagePoisoned (takeCommand (sPage 0x0B#512)) (pteAddr 0x9F#64) (pageSize 0x9F#64) = false :=
  ⟨acts (f := ⟨0x0B#512, 0x0B, true, [(8, 0, 64), (16, 0, 1)]⟩) (by decide +kernel) (by decide +kernel) rfl (by decide +kernel) rfl
      (by decide +kernel), by decide +kernel, by decide +kernel, by decide +kernel, by decide +kernel⟩

/-- Tables of context 0 whose fourth level at 0x10C000 maps the 64 KiB page at 0. -/
def tables4 : List Host.Cell := [(0x100000, 1#8), (0x100001, 0x40#8), (0x100002, 0x10#8), (0x104000, 1#8), (0x104001, 0x80#8), (0x104002, 0x10#8),
  (0x108000, 1#8), (0x108001, 0xC0#8), (0x108002, 0x10#8), (0x10C000, 0x1F#8)]
theorem wit_OutsideAndPages_switch : ∃ (s : State) (m : Migration), pageEntries m.size = 1
    ∧ contextLeaf s m.ctx (BitVec.ofNat 64 m.va) = some (0x10C000, 0x1F#64) ∧ pteRemote 0x1F#64 = false ∧ pteAddr 0x1F#64 = m.old
    ∧ MemoryCanonical s ∧ s.migrations.all (fun x => !inPage x.old x.size 0x10C000 8) = true ∧ homeLost s (homeOf 0x10C000) = false :=
  ⟨{ stM with contexts := [{ contP .active with root := 0x100000#64 }], mem := tables4, migrations := [migr0 none 65536] }, migr0 none 65536,
    by decide, by decide +kernel, by decide, by decide, by decide +kernel, by decide +kernel, by decide +kernel⟩

end Sys2Proof.Tests
end

/-!
The decoder on words of the opcode table: a word's bytes are read back whole, and what a word decodes to once its fields, or the
slots of a pair, pass the stages of R78.
-/
namespace Sys2Proof

/-! ## Words in bytes -/

theorem getLsbD_wordOfBytes (l : List Byte) (i : Nat) (hi : i < 96) :
    (wordOfBytes l).getLsbD i = (l.getD (i / 8) 0#8).getLsbD (i % 8) := by
  induction l generalizing i with
  | nil => simp [wordOfBytes]
  | cons b rest ih =>
    by_cases h8 : i < 8
    · simp [wordOfBytes, h8, hi, Nat.div_eq_of_lt h8, Nat.mod_eq_of_lt h8]
    · obtain ⟨j, rfl⟩ := Nat.exists_eq_add_of_le' (Nat.le_of_not_lt h8)
      simpa [wordOfBytes, hi, show j < 96 by omega] using ih j (by omega)

/-- A word stored byte by byte is read back whole (R4, R50). -/
@[simp] theorem wordOfBytes_wordBytes (w : IWord) : wordOfBytes (wordBytes w) = w := by
  apply BitVec.eq_of_getLsbD_eq
  intro i hi
  have hbyte : (wordBytes w).getD (i / 8) 0#8 = w.extractLsb' (8 * (i / 8)) 8 := by
    simp [wordBytes, List.getD, show i / 8 < 12 by omega]
  rw [getLsbD_wordOfBytes _ _ hi, hbyte, BitVec.getLsbD_extractLsb', Nat.div_add_mod]
  simp [Nat.mod_lt]

/-- Bits given to a table word above bit 95 do not count, and the bytes hold the word that `decode` reads. -/
theorem decodeTableWord_of_decode {w : Nat} {i : Instr} (h : decode (BitVec.ofNat 96 w) = .ok i) :
    decodeTableWord 96 w = some i := by
  have hmod : BitVec.ofNat 96 (w % 2 ^ 96) = BitVec.ofNat 96 w := BitVec.eq_of_toNat_eq (by simp)
  simp only [decodeTableWord, wordOfBytes_wordBytes, hmod, h]

/-! ## Words other than a pair -/

/-- The fields are those of an assigned opcode other than UDF and the pair, and pass the field and operand stages (R78). -/
abbrev Raw.Passes (r : Raw) : Prop :=
  (assignedOpc r.opc.toNat = true ∧ r.opc ≠ 0x0D#8 ∧ r.opc ≠ 0xFF#8) ∧ fieldStage r = none ∧ operandStage r = none

theorem decode_of_passes {w : IWord} (h : (rawOfWord w).Passes) : decode w = .ok (instrOfRaw (rawOfWord w)) := by
  obtain ⟨⟨hassigned, hudf, hpair⟩, hfield, hoperand⟩ := h
  simp [decode, hassigned, hudf, hpair, hfield, hoperand]

theorem decodeTableWord_of_passes {w : Nat} {i : Instr} (hpasses : (rawOfWord (BitVec.ofNat 96 w)).Passes)
    (hinstr : instrOfRaw (rawOfWord (BitVec.ofNat 96 w)) = i) : decodeTableWord 96 w = some i :=
  decodeTableWord_of_decode (hinstr ▸ decode_of_passes hpasses)

/-! ## Pair words -/

/-- The 44 bits of `w` from bit `base` on pass the field stage and are read as the slot `x` (R74-R76). -/
structure HoldsSlot (w : IWord) (base : Nat) (x : SlotInstr) : Prop where
  fields : slotFieldStage base (w.extractLsb' base 44) = none
  op : slotOpOf (slotOpc (w.extractLsb' base 44)) (slotMod (w.extractLsb' base 44)) = some x.op
  read : slotInstrOf x.op (w.extractLsb' base 44) = x

theorem decode_pairWord {w : IWord} (h : (rawOfWord w).opc = 0xFF#8) : decode w = decodePair w := by
  simp [decode, h, show assignedOpc 255 = true from rfl]

theorem decodePair_of_slots {w : IWord} {x y : SlotInstr} (hx : HoldsSlot w 8 x) (hy : HoldsSlot w 52 y)
    (hpair : pairBreaks x y = none) : decodePair w = .ok (.pair x y) := by
  simp [decodePair, hx.fields, hy.fields, hx.op, hy.op, hx.read, hy.read, hpair]

theorem decodeTableWord_of_slots {w : Nat} {x y : SlotInstr} (hopc : (rawOfWord (BitVec.ofNat 96 w)).opc = 0xFF#8)
    (hx : HoldsSlot (BitVec.ofNat 96 w) 8 x) (hy : HoldsSlot (BitVec.ofNat 96 w) 52 y) (hpair : pairBreaks x y = none) :
    decodeTableWord 96 w = some (.pair x y) :=
  decodeTableWord_of_decode ((decode_pairWord hopc).trans (decodePair_of_slots hx hy hpair))

/-- Settles O1: the pair word holds two slots that may stand together, and every other word passes the stages of R78 and is read
field by field. -/
theorem decodeWords : Obligations.DecodeWords := by
  rintro _ rfl
  refine ⟨?_, ?_, ?_, ?_, ?_, ?_, ?_, ?_, ?_, ?pair⟩
  case pair => exact decodeTableWord_of_slots rfl ⟨rfl, rfl, rfl⟩ ⟨rfl, rfl, rfl⟩ rfl
  all_goals exact decodeTableWord_of_passes (by decide +kernel) (by decide +kernel)

end Sys2Proof

/-!
Instructions on whole registers (R100-R106), PART, SWR and TIME: what each answers once a lane is active and its sources are live.
-/
namespace Sys2Proof.Machine

@[simp] theorem groupReg_zero (n : Fin 64) : groupReg n 0 = n := by simp [groupReg]

/-! ## Sources that stop nothing -/

/-- The operand is no dead register (R92). -/
def liveIn (a : Arch) : Opnd → Prop
  | .v n => a.vreg n ≠ none
  | .s n => a.sreg n ≠ none
  | _ => True

theorem firstDead_single_of_live {a : Arch} {l : List Opnd} (h : ∀ o ∈ l, liveIn a o) : firstDead a (single l) = none := by
  induction l with
  | nil => rfl
  | cons o rest ih =>
    have hrest : firstDead a (single rest) = none := ih fun x hx => h x (List.mem_cons_of_mem o hx)
    have ho : deadIn a o 1 = none := by
      have := h o List.mem_cons_self
      cases o <;> simp_all [liveIn, deadIn, List.range_succ, Option.ne_none_iff_isSome]
    simp only [single, List.map_cons, firstDead, ho]
    exact hrest

theorem deadCheck_of_live {a : Arch} {l : List Opnd} (hpipe : a.pipeErr = none) (h : ∀ o ∈ l, liveIn a o) :
    deadCheck a (single l) = none := by
  simp [deadCheck, firstDead_single_of_live h, hpipe]

/-! ## Commits -/

theorem commit_of_limit {c : Ctx} {a : Arch} (hclear : c.clear = true) (h : heldSlots a ≤ slotLimit c.s c.g) :
    c.commit a = .next (c.put (settleAccounts c.g.budget (a.advance c.x))) := by
  simp [Ctx.commit, commitWith_of_limit (a := a.advance c.x) (.inr hclear) (by simpa using h)]

/-- A commit of marks and of one vector register of at most 32 runs fits where 32 slots are free (R95). -/
theorem commit_setV_of_room {c : Ctx} {n : Fin 64} {l : List Run} (kills : Reads) (hclear : c.clear = true)
    (hroom : heldSlots c.a + 32 ≤ slotLimit c.s c.g) (hl : l.length ≤ 32) :
    c.commit ((killRegs c.a kills).setV n (some l))
      = .next (c.put (settleAccounts c.g.budget (((killRegs c.a kills).setV n (some l)).advance c.x))) := by
  have hkills := heldSlots_killRegs c.a kills
  have hset := heldSlots_setV_le (killRegs c.a kills) n (some l)
  have hslots : vregSlots (some l) = l.length := rfl
  exact commit_of_limit hclear (by omega)

/-- A commit that leaves the gang the run slots that it holds settles its accounts at once, whatever older instruction may still trap (R91). -/
theorem commit_of_heldSlots_eq {c : Ctx} {a : Arch} (h : heldSlots a = heldSlots c.a) :
    c.commit a = .next (c.put (settleAccounts c.g.budget (a.advance c.x))) :=
  commit_of_le (.inl h) h.le

/-- A commit of marks and of one scalar register takes no run slots (R95). -/
theorem commit_writeScalar {c : Ctx} {d : Opnd} {x : DWord} (kills : Reads) (hclear : c.clear = true) :
    c.commit (writeScalar (killRegs c.a kills) d x)
      = .next (c.put (settleAccounts c.g.budget ((writeScalar (killRegs c.a kills) d x).advance c.x))) :=
  commit_of_le (.inr hclear) (by simpa using heldSlots_killRegs c.a kills)

/-- Nothing is marked when the field of the only register has no mark (R59). -/
theorem killRegs_headKills_of_not_la {h : Head} {o : Opnd} (a : Arch) (hla : h.la = false) :
    killRegs a (headKills h o .zero .zero) = a := by
  cases hlb : h.lb <;> cases hlc : h.lc <;> simp [headKills, killsOf, hla, hlb, hlc, killRegs]

/-! ## Instructions on whole registers (R100) -/

theorem wholeOp_of_runs {h : Head} {srcs : List Opnd} {s : State} {c : Ctx} (kills : Reads) (f : Ctx → Arch → Res)
    (henters : Enters s h.guard c) (hact : c.act ≠ 0#32) (hpipe : c.a.pipeErr = none) (hlive : ∀ o ∈ srcs, liveIn c.a o)
    (hpoison : srcs.any (wordPoison c.a) = false) : wholeOp h srcs kills s f = f c (killRegs c.a kills) := by
  rw [wholeOp, issue_eq henters.here henters.clean]
  simp [deadCheck_of_live hpipe hlive, hact, hpoison]

theorem length_coalesceRuns_le (old src : VReg) (act : Mask) : (coalesceRuns old src act).length ≤ 32 := by
  unfold coalesceRuns
  simpa using length_packRuns_le ((List.range 32).map _)

theorem firstOpen_of_length {a : Arch} {n : Fin 64} {l : List Run} (h : a.vreg n = some l) (hl : lengthOf l = 32) :
    firstOpen a (single [.v n]) = none := by
  simp [single, firstOpen, List.range_succ, h, vregOpen, hl]

theorem setWidth_scalarOf_imm (c : Ctx) (k : BitVec 32) : (scalarOf c (.imm k)).setWidth 32 = k := by
  ext i hi
  have hi64 : i < 64 := by omega
  simp [scalarOf, BitVec.getElem_signExtend, hi, hi64]

section
variable {h : Head} {s : State} {c : Ctx} (henters : Enters s h.guard c) (hact : c.act ≠ 0#32)
  (hpipe : c.a.pipeErr = none)
include henters hact hpipe

section
variable (hclear : c.clear = true)
include hclear

theorem exec_coalesce {n m : Fin 64} (hroom : heldSlots c.a + 32 ≤ slotLimit c.s c.g)
    (hfull : ∃ l, c.a.vreg m = some l ∧ lengthOf l = 32) (hmerge : mergeCheck c.a c.act (.v n) = none) :
    exec (.coalesce h (.v n) (.v m)) s = .next (c.put (settleAccounts c.g.budget
      (((killRegs c.a (headKills h (.v m) .zero .zero)).setV n (some (coalesceRuns (c.a.vreg n) (c.a.vreg m) c.act))).advance c.x))) := by
  obtain ⟨l, hl, hlength⟩ := hfull
  have hdead : deadCheck c.a (single [.v m]) = none := deadCheck_of_live hpipe (by simp [liveIn, hl])
  calc exec (.coalesce h (.v n) (.v m)) s
      = c.commit ((killRegs c.a (headKills h (.v m) .zero .zero)).setV n (some (coalesceRuns (c.a.vreg n) (c.a.vreg m) c.act))) := by
        change execCoalesce h (.v n) (.v m) s = _
        rw [execCoalesce, issue_eq henters.here henters.clean]
        simp [hdead, hact, firstOpen_of_length hl hlength, hmerge, firstHalt]
    _ = _ := commit_setV_of_room _ hclear hroom (length_coalesceRuns_le _ _ _)

theorem exec_runs {d n : Fin 64} {max : Bool} {l : List Run} (hl : c.a.vreg n = some l) :
    exec (.runs h (.s d) (.v n) max) s = .next (c.put (settleAccounts c.g.budget
      (((killRegs c.a (headKills h (.v n) .zero .zero)).setS d
        (some (BitVec.ofNat 64 (if max then maxRuns l else l).length))).advance c.x))) := by
  have hlist : runList c (.v n) = l := by simp [runList, hl]
  change execRuns h (.s d) (.v n) max s = _
  rw [execRuns, wholeOp_of_runs _ _ henters hact hpipe (by simp [liveIn, hl]) rfl]
  simp only [hlist]
  exact commit_writeScalar _ hclear

theorem exec_runget {d n : Fin 64} {k : BitVec 32} {l : List Run} (hl : c.a.vreg n = some l)
    (hclean : ∀ r, l[k.toNat]? = some r → r.poison = false) :
    exec (.runget h (.s d) (.v n) (.imm k)) s = .next (c.put (settleAccounts c.g.budget
      (((killRegs c.a (headKills h (.v n) (.imm k) .zero)).setS d (some (rungetVal l k.toNat))).advance c.x))) := by
  have hlist : runList c (.v n) = l := by simp [runList, hl]
  change execRunget h (.s d) (.v n) (.imm k) s = _
  rw [execRunget, wholeOp_of_runs _ _ henters hact hpipe (by simp [liveIn, hl]) rfl]
  simp only [hlist, setWidth_scalarOf_imm]
  cases hrun : l[k.toNat]? with
  | none => exact commit_writeScalar _ hclear
  | some r =>
    rw [if_neg (by simp [hclean r hrun])]
    exact commit_writeScalar _ hclear

theorem exec_runapp {n : Fin 64} {v k : BitVec 32} {first last : Bool} {l : List Run}
    (hroom : heldSlots c.a + 32 ≤ slotLimit c.s c.g) (hlist : runappList (c.a.vreg n) first last v k.toNat = .inr l)
    (hlength : l.length ≤ 32) :
    exec (.runapp h (.v n) (.imm v) (.imm k) first last) s = .next (c.put (settleAccounts c.g.budget
      (((killRegs c.a (headKills h (.imm v) (.imm k) .zero)).setV n (some l)).advance c.x))) := by
  change execRunapp h (.v n) (.imm v) (.imm k) first last s = _
  rw [execRunapp, wholeOp_of_runs _ _ henters hact hpipe (by simp [liveIn]) rfl]
  simp only [setWidth_scalarOf_imm, hlist]
  exact commit_setV_of_room _ hclear hroom hlength

end

theorem exec_rbudget (d : Fin 64) :
    exec (.rbudget h (.s d)) s
      = .next (c.put (settleAccounts c.g.budget ((c.a.setS d (some (rbudgetVal c.s c.g))).advance c.x))) := by
  change execRbudget h (.s d) s = _
  rw [execRbudget, wholeOp_of_runs _ _ henters hact hpipe (by simp) rfl]
  exact commit_of_heldSlots_eq (heldSlots_setS c.a d _)

theorem exec_time (d : Opnd) :
    exec (.time h d) s = .next (afterCommit c ((writeScalar c.a d (dieTime s c.g.id.die)).advance c.x)) := by
  obtain ⟨-, -, -, hstate, -⟩ := entering_spec henters.here
  change execTime h d s = _
  rw [execTime, wholeOp_of_runs _ _ henters hact hpipe (by simp) rfl, hstate]
  exact commit_of_heldSlots_eq (heldSlots_writeScalar c.a d _)

/-- SWR of a live, unpoisoned and unmarked scalar register to a special register that its gang may name leaves what `writeSr` says. -/
theorem exec_swr {r : SReg} {n : Fin 64} {x : DWord} (hx : c.a.sreg n = some x) (hpoison : wordPoison c.a (.s n) = false)
    (hla : h.la = false) (hreadable : srReadable c.g r = true) (hslots : heldSlots (writeSr c.a r x) = heldSlots c.a) :
    exec (.swr h (.sr r) (.s n)) s = .next (c.put (settleAccounts c.g.budget ((writeSr c.a r x).advance c.x))) := by
  have hdead : deadCheck c.a (single [.s n]) = none := deadCheck_of_live hpipe (by simp [liveIn, hx])
  have hread : readCheck c.a c.act (single [.s n]) = none := by
    simp [readCheck, single, firstOpen, readsPoison, hpoison]
  have hval : scalarOf c (.s n) = x := by simp [scalarOf, hx]
  calc exec (.swr h (.sr r) (.s n)) s = c.commit (writeSr c.a r x) := by
        change execSwr h (.sr r) (.s n) s = _
        rw [execSwr, issue_eq henters.here henters.clean]
        simp [hdead, hact, privCheck, hreadable, hread, firstHalt, killRegs_headKills_of_not_la c.a hla, hval]
    _ = _ := commit_of_heldSlots_eq hslots

omit hpipe in
theorem exec_part (code : BitVec 3) :
    exec (.part h code) s = .next (c.put (settleAccounts c.g.budget ({ c.a with part := code }.advance c.x))) := by
  change execPart h code s = _
  rw [execPart, issue_eq henters.here henters.clean, if_neg hact]
  exact commit_of_heldSlots_eq rfl

end

end Sys2Proof.Machine

namespace Sys2Proof
open Machine

theorem srReadable_of_not_trapOnly {g : Gang} {r : SReg} (htrap : srTrapOnly r = false) (hmbx : r ≠ .mbx) :
    srReadable g r = true := by
  simp [srReadable, htrap, hmbx]

theorem srReadable_of_trapMode {g : Gang} {r : SReg} (htrap : srTrapOnly r = true) (hmode : g.arch.mode = .trap) :
    srReadable g r = true := by
  simp [srReadable, htrap, hmode]

/-- Settles O15: each clause is the lemma of its instruction. -/
theorem runAndSpecialRegisters : Obligations.RunAndSpecialRegisters := by
  refine ⟨?runs, ?special, ?time⟩
  case runs =>
    intro h s c henters hact hclear hpipe hroom
    refine ⟨?_, ?_, ?_, ?_, ?_⟩
    · intro n m hfull hmerge
      exact exec_coalesce henters hact hpipe hclear hroom hfull hmerge
    · intro d n max l hl
      exact exec_runs henters hact hpipe hclear hl
    · intro d n k l hl hclean
      exact exec_runget henters hact hpipe hclear hl hclean
    · intro n v k first last l hlist hlength
      exact exec_runapp henters hact hpipe hclear hroom hlist hlength
    · exact exec_rbudget henters hact hpipe
  case special =>
    intro h s c henters hact
    refine ⟨exec_part henters hact, ?_⟩
    intro n x hx hpoison hpipe hla
    have hswr {r : SReg} := exec_swr (r := r) henters hact hpipe hx hpoison hla
    refine ⟨hswr (srReadable_of_not_trapOnly rfl (by decide)) rfl, hswr (srReadable_of_not_trapOnly rfl (by decide)) rfl,
      hswr (srReadable_of_not_trapOnly rfl (by decide)) rfl, ?_⟩
    intro hmode
    exact ⟨hswr (srReadable_of_trapMode rfl hmode) rfl, hswr (srReadable_of_trapMode rfl hmode) rfl⟩
  case time =>
    intro h d s c henters hact hpipe
    exact exec_time henters hact hpipe d

end Sys2Proof

/-!
Register instructions: each but an SCMP into a vector register is executed as its row of `registerOp` says; what its commit leaves, and
what stops it.
-/
namespace Sys2Proof.Machine

/-! ## Registers after a write, a mark or an advance -/

theorem Arch.setV_vreg (a : Arch) (n k : Fin 64) (r : VReg) : (a.setV n r).vreg k = if k = n then r else a.vreg k := by
  simp only [Arch.setV, Arch.vreg, Vector.get_eq_getElem, Vector.getElem_set, Fin.ext_iff, eq_comm]

theorem Arch.setS_sreg (a : Arch) (n k : Fin 64) (x : SVal) : (a.setS n x).sreg k = if k = n then x else a.sreg k := by
  simp only [Arch.setS, Arch.sreg, Vector.get_eq_getElem, Vector.getElem_set, Fin.ext_iff, eq_comm]

/-- Clearing another register's bit of the poisoned ones leaves a register's own. -/
theorem getLsbD_clearBit_of_ne {w : Nat} (x : BitVec w) {n k : Nat} (hk : k < w) (h : k ≠ n) :
    (x &&& ~~~(1#w <<< n)).getLsbD k = x.getLsbD k := by
  have hbit : (1#w <<< n).getLsbD k = false := by
    rw [← BitVec.twoPow_eq, BitVec.getLsbD_twoPow]
    simp [h.symm]
  rw [BitVec.getLsbD_and, BitVec.getLsbD_not, hbit]
  simp [hk]

theorem wordPoison_setS_of_ne {a : Arch} {n k : Fin 64} (x : SVal) (h : k ≠ n) :
    wordPoison (a.setS n x) (.s k) = wordPoison a (.s k) :=
  getLsbD_clearBit_of_ne a.sPoison k.isLt (Fin.val_ne_of_ne h)

theorem wordPoison_setP_of_ne {a : Arch} {n k : Fin 8} (act bits : Mask) (h : k ≠ n) :
    wordPoison (a.setP n act bits) (.p k) = wordPoison a (.p k) := by
  unfold Arch.setP
  split
  · exact getLsbD_clearBit_of_ne a.pPoison k.isLt (Fin.val_ne_of_ne h)
  · rfl

theorem Arch.setP_preg_of_ne {a : Arch} {n k : Fin 8} (act bits : Mask) (h : k ≠ n) : (a.setP n act bits).preg k = a.preg k := by
  have hk : n.val ≠ k.val := fun e => h (Fin.ext e.symm)
  unfold Arch.setP
  split
  · simp only [Arch.preg, Vector.get_eq_getElem, Vector.getElem_set, hk, if_false]
  · rfl

/-- A write of p7 is discarded; any other predicate takes its active bits (R55, R83). -/
theorem inMask_setP_preg (a : Arch) (n : Fin 8) (act bits : Mask) (i : Nat) :
    inMask ((a.setP n act bits).preg n) i = if inMask act i && decide (n ≠ 7) then inMask bits i else inMask (a.preg n) i := by
  by_cases h7 : n.val < 7
  · have hne : n ≠ 7 := by rintro rfl; exact absurd h7 (by decide)
    have hset : (a.setP n act bits).preg n = (a.preg n &&& ~~~act) ||| (bits &&& act) := by
      simp [Arch.setP, h7, Arch.preg, Vector.get_eq_getElem]
    rw [hset]
    by_cases hi : i < 32
    · cases hact : act[i] <;> simp [inMask, hne, hi, hact]
    · simp [inMask, BitVec.getLsbD_of_ge _ _ (Nat.le_of_not_lt hi)]
  · obtain rfl : n = 7 := by omega
    simp [Arch.setP]

theorem inMask_fullMask {k : Nat} (hk : k < 32) : inMask fullMask k = true := by
  rw [inMask, show fullMask = BitVec.allOnes 32 from rfl, BitVec.getLsbD_allOnes]
  simpa using hk

theorem Arch.advance_slot_same (a : Arch) (x : PcSlot) : (a.advance x).slot x = { a.slot x with pc := (a.slot x).pc + 12#32 } := by
  cases x <;> rfl

theorem Arch.advance_slot_other (a : Arch) (x : PcSlot) : (a.advance x).slot (otherSlot x) = a.slot (otherSlot x) := by
  cases x <;> rfl

theorem foldl_setV_none_frame (r : Fin 64) (ks : List Nat) (a : Arch) :
    ks.foldl (fun x k => x.setV (groupReg r k) none) a
      = { a with v := (ks.foldl (fun x k => x.setV (groupReg r k) none) a).v } := by
  induction ks generalizing a with
  | nil => rfl
  | cons k rest ih => exact ih (a.setV (groupReg r k) none)

theorem foldl_setV_none_vreg (r m : Fin 64) (ks : List Nat) (a : Arch) :
    (ks.foldl (fun x k => x.setV (groupReg r k) none) a).vreg m = if ∃ k ∈ ks, m = groupReg r k then none else a.vreg m := by
  induction ks generalizing a with
  | nil => simp
  | cons k rest ih =>
    rw [List.foldl_cons, ih, Arch.setV_vreg]
    by_cases hk : m = groupReg r k <;> simp [hk]

/-- Marks change vector registers and scalar registers with their poison, and nothing else. -/
theorem killRegs_frame (a : Arch) (l : Reads) :
    killRegs a l = { a with v := (killRegs a l).v, s := (killRegs a l).s, sPoison := (killRegs a l).sPoison } := by
  induction l generalizing a with
  | nil => rfl
  | cons x rest ih =>
    obtain ⟨o, n⟩ := x
    cases o with
    | v r =>
      have hrest := ih ((List.range n).foldl (fun x k => x.setV (groupReg r k) none) a)
      rw [foldl_setV_none_frame r (List.range n) a] at hrest
      rw [killRegs, foldl_setV_none_frame r (List.range n) a]
      exact hrest
    | s r => exact ih (a.setS r none)
    | _ => exact ih a

/-! ## Flags and traps -/

theorem laneFlags_zero (act : Mask) : laneFlags act (fun _ => 0#8) = 0#8 := by
  have h : ∀ l : List Nat, l.foldl (fun x i => if inMask act i then x ||| 0#8 else x) 0#8 = 0#8 := by
    intro l
    induction l with
    | nil => rfl
    | cons i rest ih => simp
  exact h _

theorem excCheck_of_isSome {fpmode : BitVec 10} {fl : BitVec 8} (h : (excCheck fpmode fl).isSome) :
    excCheck fpmode fl
      = some (.trap (if fl &&& 0x1F#8 &&& (fpmode.extractLsb' 4 5).setWidth 8 ≠ 0#8 then cFpExc else cIntExc) (fl.setWidth 64) 0#5) := by
  unfold excCheck at h ⊢
  split_ifs at h ⊢
  · rfl
  · rfl
  · cases h

theorem halt_trap_of_clear {c : Ctx} (hclear : c.clear = true) (cause : BitVec 8) (tval : BitVec 64) (lane : BitVec 5) :
    c.halt (.trap cause tval lane) = .next (takeTrap c.s c.g c.x cause tval (c.pc.setWidth 64) lane) := by
  simp [Ctx.halt, Ctx.afterRisk, hclear]

theorem halt_of_not_clear {c : Ctx} (hclear : c.clear = false) (h : Halt) : c.halt h = c.hold .order := by
  simp [Ctx.halt, Ctx.afterRisk, hclear]

end Sys2Proof.Machine

namespace Sys2Proof
open Machine

/-! ## What the writes of a register instruction leave -/

/-- Registers `y` are registers `x` with the writes of `l` and the generators `gen`; every other register is as in `x`. -/
structure Wrote (l : List Written) (gen : Vector Word 32) (c : Ctx) (x y : Arch) : Prop where
  holds : ∀ w ∈ l, w.Holds c y
  gens : y.gen = gen
  keepV : ∀ n, (∀ w ∈ l, w.vdest ≠ some n) → y.vreg n = x.vreg n
  keepS : ∀ n, (∀ w ∈ l, w.sdest ≠ some n) → y.sreg n = x.sreg n ∧ wordPoison y (.s n) = wordPoison x (.s n)
  keepP : ∀ n, (∀ w ∈ l, w.pdest ≠ some n) → y.preg n = x.preg n ∧ wordPoison y (.p n) = wordPoison x (.p n)
  frame : y = { x with v := y.v, s := y.s, p := y.p, sPoison := y.sPoison, pPoison := y.pPoison, gen := y.gen }

theorem Wrote.lanes_of_runs {c : Ctx} {x : Arch} {f : Ctx → Nat → Word} {gen : Vector Word 32} {l : List Run} {n : Fin 64}
    (hgen : x.gen = gen)
    (hl : ∀ i < 32, vregVal (some l) i = if inMask c.act i then f c i else vregVal (c.a.vreg n) i) :
    Wrote [.lanes (.v n) f] gen c x (x.setV n (some l)) where
  holds w hw := by
    obtain rfl := List.mem_singleton.mp hw
    intro i hi
    rw [Arch.setV_vreg, if_pos rfl, hl i hi]
  gens := hgen
  keepV k hk := by
    have hne : k ≠ n := fun e => hk _ List.mem_cons_self (by rw [e]; rfl)
    rw [Arch.setV_vreg, if_neg hne]
  keepS _ _ := ⟨rfl, rfl⟩
  keepP _ _ := ⟨rfl, rfl⟩
  frame := rfl

/-- A write whose destination takes nothing leaves the registers. -/
theorem Wrote.discarded {c : Ctx} {x : Arch} {w : Written} {gen : Vector Word 32} (hgen : x.gen = gen) (hw : w.Holds c x) :
    Wrote [w] gen c x x where
  holds w' h := by obtain rfl := List.mem_singleton.mp h; exact hw
  gens := hgen
  keepV _ _ := rfl
  keepS _ _ := ⟨rfl, rfl⟩
  keepP _ _ := ⟨rfl, rfl⟩
  frame := rfl

theorem wrote_writeLanes {c : Ctx} {x : Arch} {gen : Vector Word 32} (hgen : x.gen = gen) (d : Opnd) (cut : Nat → Bool)
    (f : Ctx → Nat → Word) : Wrote [.lanes d f] gen c x (writeLanes c.a x c.act d cut (f c)) := by
  cases d with
  | v n => exact .lanes_of_runs hgen fun i hi => vregVal_writeRuns _ _ _ _ i hi
  | _ => exact .discarded hgen trivial

theorem wrote_writeLanesMax {c : Ctx} {x : Arch} {gen : Vector Word 32} (hgen : x.gen = gen) (d : Opnd) (f : Ctx → Nat → Word) :
    Wrote [.lanes d f] gen c x (writeLanesMax c.a x c.act d (f c)) := by
  cases d with
  | v n => exact .lanes_of_runs hgen fun i hi => vregVal_writeMax _ _ _ i hi
  | _ => exact .discarded hgen trivial

theorem wrote_writePred {c : Ctx} {x : Arch} {gen : Vector Word 32} (hgen : x.gen = gen) (hp : x.p = c.a.p) (d : Opnd) {bits : Mask}
    {f : Ctx → Nat → Bool} (hbits : ∀ i < 32, inMask bits i = f c i) : Wrote [.bits d f] gen c x (writePred x c.act d bits) := by
  cases d with
  | p n =>
    refine ⟨?_, ?_, ?_, ?_, ?_, ?_⟩
    · intro w hw
      obtain rfl := List.mem_singleton.mp hw
      intro i hi
      have hold : x.preg n = c.a.preg n := by simp [Arch.preg, hp]
      rw [← hbits i hi, ← hold]
      exact inMask_setP_preg x n c.act bits i
    · simpa [writePred] using hgen
    · intro k _; simp [writePred, Arch.vreg]
    · intro k _; simp [writePred, Arch.sreg, wordPoison]
    · intro k hk
      have hne : k ≠ n := fun e => hk _ List.mem_cons_self (by rw [e]; rfl)
      exact ⟨Arch.setP_preg_of_ne _ _ hne, wordPoison_setP_of_ne _ _ hne⟩
    · simp only [writePred, Arch.setP]; split <;> rfl
  | _ => exact .discarded hgen trivial

/-- Whether a write stands is a matter of the registers of its destination's kind. -/
theorem Written.Holds.congr {w : Written} {c : Ctx} {a b : Arch} (h : w.Holds c a) (hs : w.sdest = none ∨ b.s = a.s) (hv : b.v = a.v)
    (hp : b.p = a.p) : w.Holds c b := by
  rcases w with ⟨d, f⟩ | ⟨d, f⟩ | ⟨d, f⟩ <;> cases d
  case lanes.v n => simpa only [Holds, Arch.vreg, hv] using h
  case bits.p n => simpa only [Holds, Arch.preg, hp] using h
  case scalar.s n => simpa only [Holds, Arch.sreg, hs.resolve_left (by simp [sdest])] using h
  all_goals trivial

/-- A scalar write after other writes, none of which names a scalar register. -/
theorem Wrote.writeScalar {c : Ctx} {x y : Arch} {gen : Vector Word 32} {l : List Written} (h : Wrote l gen c x y)
    (hl : ∀ w ∈ l, w.sdest = none) (d : Opnd) (f : Ctx → DWord) :
    Wrote (l ++ [.scalar d f]) gen c x (writeScalar y d (f c)) := by
  have hleft {p : Written → Prop} (hp : ∀ w ∈ l ++ [.scalar d f], p w) : ∀ w ∈ l, p w :=
    fun w hw => hp w (List.mem_append_left _ hw)
  have hholds {b : Arch} (hv : b.v = y.v) (hp : b.p = y.p) (hd : (Written.scalar d f).Holds c b) :
      ∀ w ∈ l ++ [.scalar d f], w.Holds c b := by
    intro w hw
    rcases List.mem_append.mp hw with hw | hw
    · exact (h.holds w hw).congr (.inl (hl w hw)) hv hp
    · obtain rfl := List.mem_singleton.mp hw; exact hd
  cases d with
  | s n =>
    refine ⟨hholds rfl rfl ?_, h.gens, fun k hk => h.keepV k (hleft hk), ?_, fun k hk => h.keepP k (hleft hk), ?_⟩
    · exact (Arch.setS_sreg y n n _).trans (if_pos rfl)
    · intro k hk
      have hne : k ≠ n := fun e => hk _ (List.mem_append_right _ List.mem_cons_self) (by rw [e]; rfl)
      obtain ⟨hs, hpoison⟩ := h.keepS k (hleft hk)
      exact ⟨((Arch.setS_sreg y n k _).trans (if_neg hne)).trans hs, (wordPoison_setS_of_ne _ hne).trans hpoison⟩
    · have hframe := congrArg (fun z : Arch => z.setS n (some (f c))) h.frame
      exact hframe
  | _ =>
    exact ⟨hholds rfl rfl trivial, h.gens, fun k hk => h.keepV k (hleft hk), fun k hk => h.keepS k (hleft hk),
      fun k hk => h.keepP k (hleft hk), h.frame⟩

theorem wrote_nil {c : Ctx} {x : Arch} {gen : Vector Word 32} (hgen : x.gen = gen) : Wrote [] gen c x x :=
  ⟨fun _ h => (List.not_mem_nil h).elim, hgen, fun _ _ => rfl, fun _ _ => ⟨rfl, rfl⟩, fun _ _ => ⟨rfl, rfl⟩, rfl⟩

theorem wrote_writeScalar {c : Ctx} {x : Arch} {gen : Vector Word 32} (hgen : x.gen = gen) (d : Opnd) (f : Ctx → DWord) :
    Wrote [.scalar d f] gen c x (writeScalar x d (f c)) :=
  (wrote_nil hgen).writeScalar (fun _ h => (List.not_mem_nil h).elim) d f

/-- New generators after the writes. -/
theorem Wrote.withGens {c : Ctx} {x y : Arch} {gen : Vector Word 32} {l : List Written} (h : Wrote l gen c x y) (gen' : Vector Word 32)
    (hl : ∀ w ∈ l, w.sdest = none) :
    Wrote l gen' c x { y with gen := gen' } :=
  have hframe := congrArg (fun z : Arch => { z with gen := gen' }) h.frame
  ⟨fun w hw => (h.holds w hw).congr (.inl (hl w hw)) rfl rfl, rfl, h.keepV, h.keepS, h.keepP, hframe⟩

/-- The generators of the active lanes advance after the writes, or do not (R121, R122). -/
theorem Wrote.advanceGens_if {c : Ctx} {x y : Arch} {l : List Written} (h : Wrote l c.a.gen c x y) (hl : ∀ w ∈ l, w.sdest = none)
    (p : Prop) [Decidable p] :
    Wrote l (if p then (advanceGens c.act c.a).gen else c.a.gen) c x (if p then advanceGens c.act y else y) := by
  have hgen : (advanceGens c.act y).gen = (advanceGens c.act c.a).gen := by simp only [advanceGens, h.gens]
  split
  · rw [← hgen]; exact h.withGens _ hl
  · exact h

/-! ## Last-read marks (R59) -/

theorem marksV_cons_v {r n : Fin 64} {k : Nat} {l : Reads} :
    MarksV ((.v r, k) :: l) n ↔ (∃ j ∈ List.range k, n = groupReg r j) ∨ MarksV l n := by
  simp [MarksV]

theorem marksV_cons_other {o : Opnd} (ho : ∀ r, o ≠ .v r) {n : Fin 64} {k : Nat} {l : Reads} :
    MarksV ((o, k) :: l) n ↔ MarksV l n := by
  simp [MarksV, ho]

open Classical in
theorem killRegs_vreg (a : Arch) (l : Reads) (n : Fin 64) :
    (killRegs a l).vreg n = if MarksV l n then none else a.vreg n := by
  induction l generalizing a with
  | nil => simp [killRegs, MarksV]
  | cons x rest ih =>
    obtain ⟨o, k⟩ := x
    cases o with
    | v r =>
      rw [killRegs, ih, foldl_setV_none_vreg]
      by_cases hrest : MarksV rest n <;> simp [hrest, marksV_cons_v]
    | s r => rw [killRegs, ih, marksV_cons_other (by simp)]; rfl
    | _ => rw [killRegs, ih, marksV_cons_other (by simp)]; all_goals simp

theorem marksS_cons {o : Opnd} {n : Fin 64} {k : Nat} {l : Reads} : MarksS ((o, k) :: l) n ↔ o = .s n ∨ MarksS l n := by
  simp [MarksS]

open Classical in
theorem killRegs_sreg (a : Arch) (l : Reads) (n : Fin 64) :
    (killRegs a l).sreg n = if MarksS l n then none else a.sreg n := by
  induction l generalizing a with
  | nil => simp [killRegs, MarksS]
  | cons x rest ih =>
    obtain ⟨o, k⟩ := x
    cases o with
    | v r =>
      rw [killRegs, ih, foldl_setV_none_frame]
      simp [marksS_cons, Arch.sreg]
    | s r =>
      rw [killRegs, ih, Arch.setS_sreg]
      by_cases hrest : MarksS rest n <;> simp [hrest, marksS_cons, eq_comm]
    | _ => rw [killRegs, ih]; all_goals simp [marksS_cons]

theorem killRegs_wordPoison_s {a : Arch} {l : Reads} {n : Fin 64} (h : ¬ MarksS l n) :
    wordPoison (killRegs a l) (.s n) = wordPoison a (.s n) := by
  induction l generalizing a with
  | nil => rfl
  | cons x rest ih =>
    obtain ⟨o, k⟩ := x
    rw [marksS_cons, not_or] at h
    obtain ⟨ho, hrest⟩ := h
    cases o with
    | v r =>
      rw [killRegs, ih hrest, foldl_setV_none_frame]
      rfl
    | s r => exact (ih hrest).trans (wordPoison_setS_of_ne none fun e => ho (by rw [e]))
    | _ => exact ih hrest

/-! ## The registers that a register instruction commits -/

/-- After the writes, the flags and the advance the registers are those that the operation's row gives. -/
theorem RegOp.done_of_wrote {op : RegOp} {c : Ctx} {y : Arch}
    (h : Wrote (op.written c) (op.gens c) c (killRegs c.a op.marks) y) :
    op.Done c ((raiseFlags y (op.flags c)).advance c.x) := by
  have hy : y = { c.a with v := y.v, s := y.s, p := y.p, sPoison := y.sPoison, pPoison := y.pPoison, gen := y.gen } := by
    have hframe := h.frame
    rw [killRegs_frame] at hframe
    exact hframe
  have hpreds : (killRegs c.a op.marks).p = c.a.p ∧ (killRegs c.a op.marks).pPoison = c.a.pPoison := by
    rw [killRegs_frame]; exact ⟨rfl, rfl⟩
  have hv (n : Fin 64) : ((raiseFlags y (op.flags c)).advance c.x).vreg n = y.vreg n := by simp [Arch.vreg, raiseFlags]
  have hs (n : Fin 64) : ((raiseFlags y (op.flags c)).advance c.x).sreg n = y.sreg n
      ∧ wordPoison ((raiseFlags y (op.flags c)).advance c.x) (.s n) = wordPoison y (.s n) := by
    simp [Arch.sreg, wordPoison, raiseFlags]
  have hp (n : Fin 8) : ((raiseFlags y (op.flags c)).advance c.x).preg n = y.preg n
      ∧ wordPoison ((raiseFlags y (op.flags c)).advance c.x) (.p n) = wordPoison y (.p n) := by
    simp [Arch.preg, wordPoison, raiseFlags]
  have hslot (k : PcSlot) : (raiseFlags y (op.flags c)).slot k = c.a.slot k := by rw [hy]; cases k <;> rfl
  constructor
  case writes => exact fun w hw => (h.holds w hw).congr (.inr (by simp [raiseFlags])) (by simp [raiseFlags]) (by simp [raiseFlags])
  case flags => rw [hy]; simp [raiseFlags]
  case gens => simpa [raiseFlags] using h.gens
  case markV => intro n hm hw; rw [hv, h.keepV n hw, killRegs_vreg, if_pos hm]
  case keepV => intro n hm hw; rw [hv, h.keepV n hw, killRegs_vreg, if_neg hm]
  case markS =>
    intro n hm hw
    rw [(hs n).1, (h.keepS n hw).1, killRegs_sreg, if_pos hm]
  case keepS =>
    intro n hm hw
    rw [(hs n).1, (hs n).2, (h.keepS n hw).1, (h.keepS n hw).2, killRegs_sreg, if_neg hm, killRegs_wordPoison_s hm]
    exact ⟨rfl, rfl⟩
  case keepP =>
    intro n hw
    rw [(hp n).1, (hp n).2, (h.keepP n hw).1, (h.keepP n hw).2]
    simp [Arch.preg, wordPoison, hpreds]
  case slot => rw [Arch.advance_slot_same, hslot]; rfl
  case other => rw [Arch.advance_slot_other, hslot]
  case control => rw [hy]; simp [raiseFlags]
  case special => rw [hy]; simp [raiseFlags]

/-! ## What a register instruction answers (R92, R51, R146, R125) -/

/-- The answer of a register instruction whose row is `op` and whose writes are `w`. -/
def RegOp.answer (op : RegOp) (w : Ctx → Arch → Arch) (c : Ctx) : Res :=
  match deadCheck c.a op.reads with
  | some h => c.halt h
  | none =>
    if c.act = 0#32 then c.commit (killRegs c.a op.marks)
    else
      match op.check c with
      | some h => c.halt h
      | none =>
        match excCheck c.a.fpmode (op.flags c) with
        | some h => c.halt h
        | none => c.commit (raiseFlags (w c (killRegs c.a op.marks)) (op.flags c))

/-- The instruction `i` is executed as the row `op` says, with the writes `w`. -/
structure Computes (op : RegOp) (w : Ctx → Arch → Arch) (i : Instr) : Prop where
  exec_eq : ∀ s, exec i s = issue s op.head.guard (op.answer w)
  wrote : ∀ c x, x.p = c.a.p → x.gen = c.a.gen → Wrote (op.written c) (op.gens c) c x (w c x)

/-- An instruction whose meaning raises no flag, where its row takes the flags of its lanes, none of which raises one. -/
theorem computes_of_noFlags {i : Instr} {op : RegOp} {d : Opnd} {srcs : List Opnd} {w : Ctx → Arch → Arch}
    (hreads : op.reads = single srcs) (hcheck : op.check = fun c => enterCheck c d srcs)
    (hflags : op.flags = fun c => laneFlags c.act fun _ => 0#8)
    (hexec : ∀ s, exec i s = issue s op.head.guard fun c => arith c d srcs op.marks 0#8 (w c))
    (hwrote : ∀ c x, x.p = c.a.p → x.gen = c.a.gen → Wrote (op.written c) (op.gens c) c x (w c x)) : Computes op w i := by
  refine ⟨fun s => ?_, hwrote⟩
  have hanswer : op.answer w = fun c => arith c d srcs op.marks 0#8 (w c) := by
    funext c
    simp only [RegOp.answer, hreads, hcheck, hflags, laneFlags_zero]
    rfl
  rw [hexec, hanswer]

theorem computes_laneRow {i : Instr} {h : Head} {d : Opnd} {srcs : List Opnd} {marks : Reads} {f : Ctx → Nat → Word × BitVec 8}
    (hexec : ∀ s, exec i s = issue s h.guard fun c => laneArith c d srcs marks (f c)) :
    ∃ w, Computes (laneRow h d srcs marks f) w i :=
  ⟨fun c x => writeLanes c.a x c.act d (cutsOf c srcs) fun k => (f c k).1, hexec,
    fun _ _ _ hgen => wrote_writeLanes hgen d _ fun c k => (f c k).1⟩

theorem computes_bitRow {i : Instr} {h : Head} {d : Opnd} {srcs : List Opnd} {marks : Reads} {f : Ctx → Nat → Bool × BitVec 8}
    (hexec : ∀ s, exec i s = issue s h.guard fun c => predArith c d srcs marks (f c)) :
    ∃ w, Computes (bitRow h d srcs marks f) w i :=
  ⟨fun c x => writePred x c.act d (maskOf fun k => (f c k).1), hexec,
    fun _ _ hp hgen => wrote_writePred hgen hp d fun k hk => inMask_maskOf _ k hk⟩

theorem computes_scalarRow {i : Instr} {h : Head} {d : Opnd} {srcs : List Opnd} {marks : Reads} {f : Ctx → DWord × BitVec 8}
    (hexec : ∀ s, exec i s = issue s h.guard fun c => scalarArith c d srcs marks (f c)) :
    ∃ w, Computes (scalarRow h d srcs marks f) w i :=
  ⟨fun c x => writeScalar x d (f c).1, hexec, fun _ _ _ hgen => wrote_writeScalar hgen d fun c => (f c).1⟩

theorem regInt_computes {i : Instr} {op : RegOp} (h : regInt i = some op) : ∃ w, Computes op w i := by
  unfold regInt at h
  split at h <;> cases h <;> exact computes_laneRow fun _ => rfl

theorem regFp_computes {i : Instr} {op : RegOp} (h : regFp i = some op) : ∃ w, Computes op w i := by
  unfold regFp at h
  split at h <;> cases h <;> exact computes_laneRow fun _ => rfl

theorem sdest_lanes (d : Opnd) (f : Ctx → Nat → Word) : ∀ w ∈ [Written.lanes d f], w.sdest = none := by
  simp [Written.sdest]

/-- A conversion whose row takes each lane's draw from the registers as they entered (R121). -/
theorem computes_convRow {i : Instr} {h : Head} {d : Opnd} {srcs : List Opnd} {marks : Reads} {rm : Rm}
    {f : Ctx → Rm → Nat → Word × BitVec 8} {g : Ctx → Nat → Nat → Word × BitVec 8}
    (hexec : ∀ s, exec i s = issue s h.guard fun c => convArith c d srcs marks (effRmConv c.a.fpmode rm) (g c))
    (hdraw : ∀ c k, g c k (drawAt c.a k) = f c (effRmConv c.a.fpmode rm) k) :
    ∃ w, Computes (convRow h d srcs marks rm f) w i := by
  refine ⟨fun c x =>
    let y := writeLanes c.a x c.act d (cutsOf c srcs) fun k => (f c (effRmConv c.a.fpmode rm) k).1
    if effRmConv c.a.fpmode rm = .sr then advanceGens c.act y else y, fun s => ?_, fun c x _ hgen => ?_⟩
  · rw [hexec s]
    simp only [convArith, hdraw]
    rfl
  · exact (wrote_writeLanes hgen d (cutsOf c srcs) fun c k => (f c (effRmConv c.a.fpmode rm) k).1).advanceGens_if
      (sdest_lanes d _) _

theorem computes_mxq {h : Head} {d a e : Opnd} {m : CvtMod} {op : RegOp} (hop : regConvert (.mxq h d a e m) = some op) :
    ∃ w, Computes op w (.mxq h d a e m) := by
  cases hop
  exact ⟨fun c x =>
    let y := writeLanes c.a x c.act d (cutsOf c [a]) fun k => (mxqLane c a m k).1
    writeScalar (if m.rm = .sr then advanceGens c.act y else y) e (mxqCode c a m), fun _ => rfl, fun c _ _ hgen =>
    ((wrote_writeLanes hgen d (cutsOf c [a]) fun c k => (mxqLane c a m k).1).advanceGens_if (sdest_lanes d _) _).writeScalar
      (sdest_lanes d _) e fun c => mxqCode c a m⟩

theorem computes_srseed {h : Head} {a : Opnd} {op : RegOp} (hop : regConvert (.srseed h a) = some op) :
    ∃ w, Computes op w (.srseed h a) := by
  cases hop
  refine ⟨fun c x =>
    { x with
        gen := Vector.ofFn fun i => if inMask c.act i.val then genSeed ((scalarOf c a).setWidth 32) i.val else x.gen.get i },
    computes_of_noFlags (d := .zero) rfl rfl rfl (fun _ => rfl) fun c x _ hgen => ?_⟩
  dsimp only
  rw [hgen]
  have hkept : Wrote [.lanes .zero fun _ _ => 0#32] x.gen c x x := .discarded rfl trivial
  exact hkept.withGens _ (sdest_lanes .zero _)

theorem regConvert_computes {i : Instr} {op : RegOp} (h : regConvert i = some op) : ∃ w, Computes op w i := by
  have hop := h
  unfold regConvert at h
  split at h <;> cases h
  case h_1 | h_2 | h_3 => exact computes_convRow (fun _ => rfl) fun _ _ => rfl
  case h_4 => exact computes_mxq hop
  case h_5 | h_6 => exact computes_laneRow fun _ => rfl
  case h_7 => exact computes_srseed hop
  case h_8 => exact computes_scalarRow fun _ => rfl

theorem computes_pmov_lanes {h : Head} {d a : Opnd} (hp : ∀ n, d ≠ .p n) (hs : ∀ n, d ≠ .s n) :
    ∃ w, Computes (laneRow h d [a] (headKills h a .zero .zero) fun c k => noFlag (laneOf c a k)) w (.pmov h d a) := by
  cases d with
  | p n => exact absurd rfl (hp n)
  | s n => exact absurd rfl (hs n)
  | _ => exact computes_laneRow fun _ => rfl

/-- MOV is lane-wise or a normalising write (R90, R170). -/
theorem computes_mov (h : Head) (d a : Opnd) :
    ∃ w, Computes (laneRow h d [a] (headKills h a .zero .zero) fun c k => noFlag (laneOf c a k)) w (.mov h d a) := by
  cases hmov : movLaneWise a with
  | true =>
    exact computes_laneRow fun s => by
      change execMov h d a s = _
      simp only [execMov, hmov, if_true]
  | false =>
    refine ⟨fun c x => writeLanesMax c.a x c.act d fun k => laneOf c a k, computes_of_noFlags (d := d) rfl rfl rfl (fun s => ?_)
      fun c _ _ hgen => wrote_writeLanesMax hgen d fun c k => laneOf c a k⟩
    change execMov h d a s = _
    simp only [execMov, hmov]
    rfl

theorem regSelect_computes {i : Instr} {op : RegOp} (h : regSelect i = some op) : ∃ w, Computes op w i := by
  unfold regSelect at h
  split at h <;> cases h
  case h_1 | h_2 | h_4 | h_5 => exact computes_bitRow fun _ => rfl
  case h_3 => exact computes_laneRow fun _ => rfl
  case h_6 => exact computes_scalarRow fun _ => rfl
  case h_7 hp hs => exact computes_pmov_lanes hp hs
  case h_8 => exact computes_mov _ _ _

/-- A cross-lane instruction (R183). -/
theorem computes_crossRow {i : Instr} {h : Head} {d a : Opnd} {others : List Opnd} {marks : Reads} {ra : Ctx → Mask}
    {flags : Ctx → BitVec 8} {written : Written} {w : Ctx → Arch → Arch}
    (hwrote : ∀ c x, x.p = c.a.p → x.gen = c.a.gen → Wrote [written] c.a.gen c x (w c x))
    (hexec : ∀ s, exec i s = issue s h.guard fun c => crossArith c d a (ra c) others marks (flags c) (w c)) :
    ∃ w, Computes (crossRow h d a others marks ra flags written) w i :=
  ⟨w, hexec, hwrote⟩

theorem computes_vote_bits {h : Head} {d a : Opnd} {mode : VoteMode} (hv : ∀ n, d ≠ .v n) (hs : ∀ n, d ≠ .s n) :
    ∃ w, Computes (crossRow h d a [] (headKills h a .zero .zero) (fun c => c.act) (fun _ => 0#8)
      (.bits d fun c k => voteBit mode (tileActive c.act (tileSize c.a) k) (maskOfOpnd c a))) w (.vote h d a mode) := by
  cases d with
  | v n => exact absurd rfl (hv n)
  | s n => exact absurd rfl (hs n)
  | _ => exact computes_crossRow (fun _ _ hp hgen => wrote_writePred hgen hp _ fun k hk => inMask_maskOf _ k hk) fun _ => rfl

theorem regCross_computes {i : Instr} {op : RegOp} (h : regCross i = some op) : ∃ w, Computes op w i := by
  unfold regCross at h
  split at h <;> cases h
  case h_1 | h_2 => exact computes_crossRow (fun _ _ _ hgen => wrote_writeLanesMax hgen _ _) fun _ => rfl
  case h_5 => exact computes_crossRow (fun _ _ _ hgen => wrote_writeScalar hgen _ _) fun _ => rfl
  case h_6 hv hs => exact computes_vote_bits hv hs
  case h_8 => exact computes_crossRow (fun _ _ hp hgen => wrote_writePred hgen hp _ fun k hk => inMask_maskOf _ k hk) fun _ => rfl
  all_goals exact computes_crossRow (fun _ _ _ hgen => wrote_writeLanes hgen _ _ _) fun _ => rfl

/-- SCMP writes its one result to every active bit of a predicate (R174). -/
theorem computes_scmp_pred (h : Head) (n : Fin 8) (a b : Opnd) (m : ScalarMod) (cond : Cond) :
    ∃ w, Computes (bitRow h (.p n) [a, b] (headKills h a b .zero) fun c _ =>
      noFlag (condInt cond (scalarInt m (scalarOf c a)) (scalarInt m (scalarOf c b)))) w (.scmp h (.p n) a b m cond) := by
  refine ⟨fun c x => writePred x c.act (.p n)
      (if condInt cond (scalarInt m (scalarOf c a)) (scalarInt m (scalarOf c b)) then fullMask else 0#32),
    computes_of_noFlags (d := .p n) rfl rfl rfl (fun _ => rfl) fun c x hp hgen => ?_⟩
  refine wrote_writePred hgen hp (.p n) fun k hk => ?_
  cases hcond : condInt cond (scalarInt m (scalarOf c a)) (scalarInt m (scalarOf c b))
  · simp [inMask, noFlag, hcond]
  · simpa [noFlag, hcond] using inMask_fullMask hk

theorem computes_scmp_scalar {h : Head} {d : Opnd} (hp : ∀ n, d ≠ .p n) (hv : ∀ n, d ≠ .v n) (a b : Opnd) (m : ScalarMod)
    (cond : Cond) :
    ∃ w, Computes (scalarRow h d [a, b] (headKills h a b .zero) fun c =>
      noFlag (if condInt cond (scalarInt m (scalarOf c a)) (scalarInt m (scalarOf c b)) then 1#64 else 0#64)) w
      (.scmp h d a b m cond) := by
  cases d with
  | v n => exact absurd rfl (hv n)
  | p n => exact absurd rfl (hp n)
  | _ => exact computes_scalarRow fun _ => rfl

theorem regScalar_computes {i : Instr} {op : RegOp} (h : regScalar i = some op)
    (hscmp : ∀ h n a b m cond, i ≠ .scmp h (.v n) a b m cond) : ∃ w, Computes op w i := by
  unfold regScalar at h
  split at h <;> cases h
  case h_8 => exact computes_scmp_pred _ _ _ _ _ _
  case h_9 hp => exact computes_scmp_scalar hp (fun n hn => hscmp _ n _ _ _ _ (by rw [hn])) _ _ _ _
  all_goals exact computes_scalarRow fun _ => rfl

theorem registerOp_cases {i : Instr} {op : RegOp} (h : registerOp i = some op) :
    regInt i = some op ∨ regFp i = some op ∨ regConvert i = some op ∨ regSelect i = some op ∨ regCross i = some op
      ∨ regScalar i = some op := by
  simp only [registerOp, Option.orElse_eq_some] at h
  tauto

/-- Every register instruction but an SCMP into a vector register is executed as its row says. -/
theorem registerOp_computes {i : Instr} {op : RegOp} (h : registerOp i = some op)
    (hscmp : ∀ h n a b m cond, i ≠ .scmp h (.v n) a b m cond) : ∃ w, Computes op w i := by
  rcases registerOp_cases h with h | h | h | h | h | h
  · exact regInt_computes h
  · exact regFp_computes h
  · exact regConvert_computes h
  · exact regSelect_computes h
  · exact regCross_computes h
  · exact regScalar_computes h hscmp

/-! ## Traps and commits of an instruction that enters -/

theorem commit_of_not_mayCommit {c : Ctx} {y : Arch} (h : ¬ MayCommit c (y.advance c.x)) :
    c.commit y = .next (c.putLate (y.advance c.x)) := by
  obtain ⟨hslots, hclear⟩ := not_or.mp h
  have howed : c.owed (y.advance c.x) = true := by
    rw [Ctx.owed, decide_eq_true (show heldSlots (y.advance c.x) ≠ heldSlots c.g.arch from hslots)]
    simpa using hclear
  simp [Ctx.commit, Ctx.commitWith, howed]

theorem commit_of_overflow {c : Ctx} {y : Arch} (hclear : c.clear = true) (hmore : heldSlots c.a < heldSlots (y.advance c.x))
    (hlimit : slotLimit c.s c.g < heldSlots (y.advance c.x)) :
    c.commit y = .next (takeTrap c.s c.g c.x cRunOverflow (BitVec.ofNat 64 (heldSlots (y.advance c.x) - slotLimit c.s c.g))
      (c.pc.setWidth 64) 0#5) := by
  rw [Ctx.commit, commitWith_overflow hclear hmore hlimit]
  exact halt_trap_of_clear hclear _ _ _

section
variable {s : State} {guard : Guard} {c : Ctx} (henters : Enters s guard c)
include henters

theorem Enters.state_eq : c.s = s := by
  obtain ⟨-, -, -, hs, -⟩ := entering_spec henters.here
  exact hs

theorem Enters.onlyRegisters_put (a : Arch) : OnlyRegisters c a (c.put a) := by
  refine ⟨?_, fun id hid => ?_, rfl⟩
  · rw [findGang_put henters.here, if_pos rfl]
  · rw [findGang_put henters.here, if_neg hid]

theorem Enters.commit_onlyRegisters {y : Arch} (hmay : MayCommit c (y.advance c.x))
    (hfits : heldSlots (y.advance c.x) ≤ heldSlots c.a ∨ heldSlots (y.advance c.x) ≤ slotLimit c.s c.g) :
    ∃ t b, c.commit y = .next t ∧ OnlyRegisters c b t
      ∧ b = { y.advance c.x with borrowed := b.borrowed, kept := b.kept } := by
  refine ⟨c.put (settleAccounts c.g.budget (y.advance c.x)), settleAccounts c.g.budget (y.advance c.x), ?_,
    henters.onlyRegisters_put _, settleAccounts_eq _ _⟩
  rcases hfits with hle | hlimit
  · exact commitWith_of_le hmay hle id
  · exact commitWith_of_limit hmay hlimit id

/-- A trap taken outside trap mode leaves its gang in the handler with the registers as they were (R97, R409). -/
theorem Enters.findGang_takeTrap {entry : BitVec 32} {tvec : Bool} (hmode : c.a.mode = .running)
    (hentry : trapEntry s c.g = some (entry, tvec)) (cause : BitVec 8) (tval tpc : BitVec 64) (lane : BitVec 5) :
    findGang (takeTrap s c.g c.x cause tval tpc lane) c.g.id
      = some { c.g with fetch := [], arch := trapArch c.g.budget c.a c.x cause tval tpc lane entry tvec } := by
  obtain ⟨g, hg, -, -, -, hid, -⟩ := entering_spec henters.here
  rw [takeTrap_running hmode hentry, findGang_putGang s g _ (by rw [← hid] at hg; exact hg)]
  exact if_pos rfl
end

/-! ## What stops a register instruction -/

/-- What O12 says of one register instruction: no lane active (R51), a dead source (R92, R97), an enabled exception (R125), and the
run-slot test of its commit (R91, R95-R97). -/
structure RegOp.Stops (op : RegOp) (i : Instr) (s : State) (c : Ctx) : Prop where
  noLane : c.act = 0#32 → deadCheck c.a op.reads = none →
    ∃ a, { op with written := fun _ => [], flags := fun _ => 0#8, gens := fun c => c.a.gen }.Done c a
      ∧ (MayCommit c a → ∃ t b, exec i s = .next t ∧ OnlyRegisters c b t ∧ b = { a with borrowed := b.borrowed, kept := b.kept })
      ∧ (¬ MayCommit c a → exec i s = .next (c.putLate a))
  deadRead : ∀ code, firstDead c.a op.reads = some code →
    (c.clear = true → exec i s = .next (takeTrap s c.g c.x cDeadRead (code.setWidth 64) (c.pc.setWidth 64) 0#5))
      ∧ (c.clear = false → exec i s = c.hold .order)
  exception : c.act ≠ 0#32 → deadCheck c.a op.reads = none → op.check c = none → c.clear = true → c.a.mode = .running →
    ∀ entry tvec, trapEntry s c.g = some (entry, tvec) → (excCheck c.a.fpmode (op.flags c)).isSome →
      ∃ t g, exec i s = .next t ∧ findGang t c.g.id = some g ∧ g.arch.mode = .trap
        ∧ g.arch.tcause = (if op.flags c &&& 0x1F#8 &&& (c.a.fpmode.extractLsb' 4 5).setWidth 8 ≠ 0#8 then cFpExc else cIntExc)
        ∧ g.arch.tval = (op.flags c).setWidth 64
        ∧ g.arch.v = c.a.v ∧ g.arch.s = c.a.s ∧ g.arch.p = c.a.p ∧ g.arch.flags = c.a.flags ∧ g.arch.gen = c.a.gen
  commits : c.act ≠ 0#32 → deadCheck c.a op.reads = none → op.check c = none → excCheck c.a.fpmode (op.flags c) = none →
    ∃ a, op.Done c a
      ∧ (MayCommit c a → (heldSlots a ≤ heldSlots c.a ∨ heldSlots a ≤ slotLimit c.s c.g) →
          ∃ t b, exec i s = .next t ∧ OnlyRegisters c b t ∧ b = { a with borrowed := b.borrowed, kept := b.kept })
      ∧ (c.clear = true → heldSlots c.a < heldSlots a → slotLimit c.s c.g < heldSlots a →
          exec i s = .next (takeTrap s c.g c.x cRunOverflow (BitVec.ofNat 64 (heldSlots a - slotLimit c.s c.g)) (c.pc.setWidth 64) 0#5))
      ∧ (¬ MayCommit c a → exec i s = .next (c.putLate a))

section
variable {i : Instr} {op : RegOp} {w : Ctx → Arch → Arch} {s : State} {c : Ctx} (hop : Computes op w i)
  (henters : Enters s op.head.guard c)
include hop henters

theorem Computes.exec_eq_answer : exec i s = op.answer w c := by
  rw [hop.exec_eq, issue_eq henters.here henters.clean]

theorem Computes.exec_of_noLane (hact : c.act = 0#32) (hlive : deadCheck c.a op.reads = none) :
    exec i s = c.commit (killRegs c.a op.marks) := by
  rw [hop.exec_eq_answer henters]
  simp [RegOp.answer, hlive, hact]

theorem Computes.exec_of_deadRead {code : BitVec 8} (hcode : firstDead c.a op.reads = some code) :
    exec i s = c.halt (.trap cDeadRead (code.setWidth 64) 0#5) := by
  rw [hop.exec_eq_answer henters]
  simp [RegOp.answer, deadCheck, hcode]

section
variable (hact : c.act ≠ 0#32) (hlive : deadCheck c.a op.reads = none) (hcheck : op.check c = none)
include hact hlive hcheck

theorem Computes.exec_of_exception {h : Halt} (hexc : excCheck c.a.fpmode (op.flags c) = some h) : exec i s = c.halt h := by
  rw [hop.exec_eq_answer henters]
  simp [RegOp.answer, hlive, hact, hcheck, hexc]

theorem Computes.exec_of_noException (hexc : excCheck c.a.fpmode (op.flags c) = none) :
    exec i s = c.commit (raiseFlags (w c (killRegs c.a op.marks)) (op.flags c)) := by
  rw [hop.exec_eq_answer henters]
  simp [RegOp.answer, hlive, hact, hcheck, hexc]

end

theorem Computes.stops : op.Stops i s c where
  noLane hact hlive := by
    have hgen : (killRegs c.a op.marks).gen = c.a.gen := by rw [killRegs_frame]
    have hflags : raiseFlags (killRegs c.a op.marks) 0#8 = killRegs c.a op.marks := by simp [raiseFlags]
    have hdone := RegOp.done_of_wrote (op := { op with written := fun _ => [], flags := fun _ => 0#8, gens := fun c => c.a.gen })
      (wrote_nil hgen)
    rw [hflags] at hdone
    rw [hop.exec_of_noLane henters hact hlive]
    exact ⟨_, hdone, fun hmay => henters.commit_onlyRegisters hmay (.inl (by simpa using heldSlots_killRegs c.a op.marks)),
      commit_of_not_mayCommit⟩
  deadRead code hcode := by
    rw [hop.exec_of_deadRead henters hcode, ← henters.state_eq]
    exact ⟨fun hclear => halt_trap_of_clear hclear _ _ _, fun hclear => halt_of_not_clear hclear _⟩
  exception hact hlive hcheck hclear hmode entry tvec hentry hexc := by
    rw [hop.exec_of_exception henters hact hlive hcheck (excCheck_of_isSome hexc), halt_trap_of_clear hclear, henters.state_eq]
    refine ⟨_, _, rfl, henters.findGang_takeTrap hmode hentry _ _ _ _, rfl, rfl, rfl, ?_⟩
    simp [trapArch]
  commits hact hlive hcheck hexc := by
    have hframe := killRegs_frame c.a op.marks
    have hwrote := hop.wrote c (killRegs c.a op.marks) (by rw [hframe]) (by rw [hframe])
    rw [hop.exec_of_noException henters hact hlive hcheck hexc, ← henters.state_eq]
    exact ⟨_, RegOp.done_of_wrote hwrote, fun hmay hfits => henters.commit_onlyRegisters hmay hfits,
      fun hclear hmore hlimit => commit_of_overflow hclear hmore hlimit, commit_of_not_mayCommit⟩

end

/-- No well-formed SCMP has a vector register as its destination (R174). -/
theorem not_wellFormed_scmp_vector (h : Head) (n : Fin 64) (a b : Opnd) (m : ScalarMod) (cond : Cond) :
    ¬ WellFormed (.scmp h (.v n) a b m cond) := by
  simp [WellFormed, Instr.wf, wfS2, Opnd.isIn, Opnd.kind]

/-- What O12 says holds of every well-formed register instruction: only an SCMP into a vector register, which none is, escapes it. -/
theorem registerOp_stops {i : Instr} {op : RegOp} {s : State} {c : Ctx} (h : registerOp i = some op) (hwf : WellFormed i)
    (henters : Enters s op.head.guard c) : op.Stops i s c := by
  obtain ⟨w, hop⟩ := registerOp_computes h (by rintro _ _ _ _ _ _ rfl; exact not_wellFormed_scmp_vector _ _ _ _ _ _ hwf)
  exact hop.stops henters

/-- A register instruction without a vector destination and without marks leaves its gang the run slots that it holds. -/
theorem RegOp.Done.heldSlots_eq {op : RegOp} {c : Ctx} {a : Arch} (h : op.Done c a) (hmarks : ∀ n, ¬ MarksV op.marks n)
    (hdest : ∀ w ∈ op.written c, w.vdest = none) : heldSlots a = heldSlots c.a := by
  have hv : a.v = c.a.v := by
    refine Vector.ext fun k hk => ?_
    exact h.keepV ⟨k, hk⟩ (hmarks _) fun w hw => by simp [hdest w hw]
  obtain ⟨-, -, -, -, -, -, hreserved, htaken, hfreed, -⟩ := h.control
  simp [heldSlots, hv, hreserved, htaken, hfreed]

/-- SCMP checks the destination that the term names, whatever its kind. -/
theorem exec_scmp_of_enterCheck {h : Head} {d a b : Opnd} {m : ScalarMod} {cond : Cond} {s : State} {c : Ctx} {x : Halt}
    (henters : Enters s h.guard c) (hact : c.act ≠ 0#32) (hlive : deadCheck c.a (single [a, b]) = none)
    (hcheck : enterCheck c d [a, b] = some x) : exec (.scmp h d a b m cond) s = c.halt x := by
  change execScmp h d a b m cond s = _
  rw [execScmp, issue_eq henters.here henters.clean]
  simp [arith, hlive, hact, hcheck]

/-! ## An SCMP whose destination field names an open vector register -/

/-- Every register live but v1 open; lanes 0 to 15 satisfy p0. -/
def openDestArch : Arch :=
  { startArch 0#32 0 with
      v := (Vector.replicate 64 (some [{ value := 0#32, count := 32, poison := false }])).set 1
        (some [{ value := 0#32, count := 1, poison := false }]),
      s := Vector.replicate 64 (some 0#64), p := Vector.replicate 7 0xFFFF#32 }

/-- A lone gang with these registers, in a kernel with a trap handler. -/
def openDestGang : Gang := { loneGang 0 State.reset.cur.g with arch := openDestArch }
def openDestState : State :=
  { State.reset with gangs := [openDestGang], blocks := [loneBlock 0 State.reset.cur.g], kernels := [{ loneKernel with trap := 0#32 }] }
def openDestCtx : Ctx := { s := openDestState, g := openDestGang, x := .a, act := 0xFFFF#32 }

/-- An SCMP of s2 and s3 under p0, with v1 as its destination; its encoding admits a scalar, a predicate or zero there (R174). -/
def scmpIntoVector : Instr :=
  .scmp { guard := { neg := false, p := 0 }, la := false, lb := false, lc := false, yld := false, stall := 0#4 } (.v 1) (.s 2) (.s 3)
    { signed := false, sat := false, w64 := false } .eq

/-- The mode of a gang after an answer. -/
def gangModeAfter (r : Res) (id : GangId) : Option GState :=
  match r with
  | .next t => (findGang t id).map fun g => g.arch.mode
  | _ => none

theorem enters_openDest : Enters openDestState { neg := false, p := 0 } openDestCtx := ⟨by rfl, by decide +kernel, by decide +kernel⟩

/-- Its merge with the open v1, of one lane, raises RUN_LENGTH (R105). -/
theorem exec_scmpIntoVector : exec scmpIntoVector openDestState = openDestCtx.trap cRunLength 1#64 :=
  exec_scmp_of_enterCheck enters_openDest (by decide) (by decide +kernel) (by decide +kernel)

theorem gangModeAfter_scmpIntoVector : gangModeAfter (exec scmpIntoVector openDestState) openDestGang.id = some .trap := by
  rw [exec_scmpIntoVector]; decide +kernel

/-- Refutes O12, in its last clause, which asks it of terms that are not well formed too: the row that `regScalar` gives an SCMP without
a predicate destination checks no old destination, while `execScmp` checks the destination that the term names. With an open v1
there and lanes 16 to 31 inactive the row's checks all pass, but the instruction raises RUN_LENGTH, so that it is not next with its
gang's mode unchanged. `registerOp_stops` has all four clauses for every well-formed instruction. -/
theorem not_registerStops : ¬ Obligations.RegisterStops := by
  rintro ⟨-, -, -, hcommits⟩
  obtain ⟨a, hdone, hnext, -, -⟩ := hcommits scmpIntoVector _ openDestState openDestCtx rfl enters_openDest (by decide)
    (by decide +kernel) (by decide +kernel) (by decide +kernel)
  have hslots : heldSlots a = heldSlots openDestCtx.a := by
    refine hdone.heldSlots_eq ?_ ?_
    · rintro n ⟨x, hx, -⟩
      exact List.not_mem_nil hx
    · intro w hw
      obtain rfl := List.mem_singleton.mp hw
      rfl
  obtain ⟨t, b, hexec, ⟨hgang, -, -⟩, hb⟩ := hnext (.inl hslots) (.inl hslots.le)
  have hrunning : gangModeAfter (exec scmpIntoVector openDestState) openDestGang.id = some b.mode := by
    rw [hexec]; exact congrArg (Option.map fun g => g.arch.mode) hgang
  have hmode : b.mode = .running := by
    obtain ⟨-, -, hmode, -⟩ := hdone.control
    rw [hb]; exact hmode
  rw [gangModeAfter_scmpIntoVector, hmode] at hrunning
  cases hrunning
end Sys2Proof

/-!
FP32 arithmetic on a NaN operand: the negate bit and flushing leave a NaN code a NaN (R114, R119, R158), and an operation that meets one
packs the canonical NaN.
-/
namespace Sys2Proof.Machine

/-! ## NaN codes -/

/-- A code is a NaN when its magnitude lies above the finite ones and is not the infinity (R112). -/
theorem fdecode_eq_nan_iff {f : FF} {code : Nat} :
    fdecode f code = .nan ↔ f.inf ≠ some (code % 2 ^ f.sign) ∧ f.maxFin < code % 2 ^ f.sign := by
  have hmag : code % 2 ^ (f.sign + 1) % 2 ^ f.sign = code % 2 ^ f.sign := Nat.mod_mod_of_dvd _ (pow_dvd_pow 2 f.sign.le_succ)
  simp only [fdecode, hmag]
  split_ifs <;> simp_all

theorem isNan_iff {f : FF} {code : Nat} : isNan f code = true ↔ fdecode f code = .nan := decide_eq_true_iff

theorem withSign_mod (f : FF) (neg : Bool) (mag : Nat) : withSign f neg mag % 2 ^ f.sign = mag % 2 ^ f.sign := by
  cases neg <;> simp [withSign]

theorem flipSign_mod (f : FF) (code : Nat) (b : Bool) : flipSign f code b % 2 ^ f.sign = code % 2 ^ f.sign := by
  cases b <;> simp [flipSign, withSign_mod]

/-- A flipped sign leaves a NaN a NaN, and makes none (R158). -/
theorem fdecode_flipSign_eq_nan_iff {f : FF} {code : Nat} {b : Bool} : fdecode f (flipSign f code b) = .nan ↔ fdecode f code = .nan := by
  rw [fdecode_eq_nan_iff, fdecode_eq_nan_iff, flipSign_mod]

/-- In a format whose largest finite value is normal, no NaN is flushed (R119). -/
theorem flushIn_of_nan {f : FF} {ftz : Bool} {code : Nat} (hnormal : 2 ^ f.mb ≤ f.maxFin) (h : fdecode f code = .nan) :
    flushIn f ftz code = code := by
  obtain ⟨-, habove⟩ := fdecode_eq_nan_iff.mp h
  have hsub : isSubnormal f code = false := by simp [isSubnormal]; omega
  simp [flushIn, hsub]

/-- A NaN operand is still one where an FP32 operation decodes it. -/
theorem fdecode_operand_of_isNan {a : Word} (ftz neg : Bool) (h : isNan ffF32 a.toNat = true) :
    fdecode ffF32 (flushIn ffF32 ftz (f32In neg a)) = .nan := by
  have hflipped : fdecode ffF32 (f32In neg a) = .nan := fdecode_flipSign_eq_nan_iff.mpr (isNan_iff.mp h)
  rw [flushIn_of_nan (by decide) hflipped, hflipped]

/-! ## Results of a NaN operand -/

@[simp] theorem addRes_nan_left (rm : Rm) (b : FVal) : addRes rm .nan b = .nan 0#8 := rfl

@[simp] theorem addRes_nan_right (rm : Rm) (a : FVal) : addRes rm a .nan = .nan 0#8 := by cases a <;> rfl

@[simp] theorem mulRes_nan_left (b : FVal) : mulRes .nan b = .nan 0#8 := rfl

@[simp] theorem mulRes_nan_right (a : FVal) : mulRes a .nan = .nan 0#8 := by cases a <;> rfl

@[simp] theorem divRes_nan_left (b : FVal) : divRes .nan b = .nan 0#8 := rfl

@[simp] theorem divRes_nan_right (a : FVal) : divRes a .nan = .nan 0#8 := by cases a <;> rfl

/-- Without SAT a NaN result is the canonical NaN with the flags it came with, which flushing does not change (R114, R119). -/
theorem toLane_finishRes_nan (rm : Rm) (ftz : Bool) (fl : BitVec 8) :
    toLane (finishRes ffF32 rm ftz false (.nan fl)) = (0x7FC00000#32, fl) := by
  have hsub : isSubnormal ffF32 (nanCode ffF32) = false := by decide
  simp only [finishRes, packRes, flushOut, hsub, clamp01, Bool.and_false]
  rfl

end Sys2Proof.Machine

namespace Sys2Proof
open Machine

/-- Settles O14: the operand is a NaN when decoded, so the exact result is a NaN without flags, whatever the other operand. -/
theorem nanOperandCanonical : Obligations.NaNOperandCanonical := by
  intro fm m a b hsat ha
  have hnan (neg : Bool) : fdecode ffF32 (flushIn ffF32 (effFtz fm m.rm m.ftz) (f32In neg a)) = .nan :=
    fdecode_operand_of_isNan _ neg ha
  refine ⟨?faddLeft, ?faddRight, ?fmulLeft, ?fmulRight, ?fdivLeft, ?fdivRight⟩
  case faddLeft | faddRight => simp only [faddLane, fpAdd, hsat, hnan, addRes_nan_left, addRes_nan_right, toLane_finishRes_nan]
  case fmulLeft | fmulRight => simp only [fmulLane, fpMul, hsat, hnan, mulRes_nan_left, mulRes_nan_right, toLane_finishRes_nan]
  case fdivLeft | fdivRight => simp only [fdivLane, fpDiv, hsat, hnan, divRes_nan_left, divRes_nan_right, toLane_finishRes_nan]

end Sys2Proof

/-!
Integer results (R150, R151, R154): wrapping and clamping of an exact value, the quotient and remainder with their corner cases, and
shifts by at least the width.
-/
namespace Sys2Proof.Machine

/-! ## Wrapping (R150) -/

/-- A result without SAT keeps the exact value modulo 2^w. -/
@[simp] theorem fitInt_wrap (w : Nat) (sg : Bool) (v : Int) : fitInt w sg false v = (BitVec.ofInt w v, 0#8) := rfl

/-- A word read as an integer and reduced modulo 2^32 is the word again, whichever way its sign bit was read. -/
@[simp] theorem ofInt_intOf (sg : Bool) (a : Word) : BitVec.ofInt 32 (intOf sg a) = a := by
  cases sg
  case true => exact BitVec.ofInt_toInt
  case false => simp [intOf]

/-! ## Saturation (R150) -/

theorem rangeLo_le_rangeHi (w : Nat) (sg : Bool) : rangeLo w sg ≤ rangeHi w sg := by
  cases sg
  case true =>
    have hpos : 0 < 2 ^ (w - 1) := Nat.two_pow_pos (w - 1)
    simp only [rangeLo, rangeHi, if_true]
    omega
  case false =>
    have hpos : 0 < 2 ^ w := Nat.two_pow_pos w
    simp only [rangeLo, rangeHi, Bool.false_eq_true, if_false]
    omega

/-- With SAT the exact value is clamped to the range, and the overflow flag says whether that moved it. -/
theorem fitInt_saturate (w : Nat) (sg : Bool) (v : Int) :
    fitInt w sg true v
      = (BitVec.ofInt w (max (rangeLo w sg) (min (rangeHi w sg) v)), if rangeLo w sg ≤ v ∧ v ≤ rangeHi w sg then 0#8 else fIOV) := by
  have hrange : rangeLo w sg ≤ rangeHi w sg := rangeLo_le_rangeHi w sg
  rcases lt_or_ge v (rangeLo w sg) with hbelow | hlo
  · have hhi : v ≤ rangeHi w sg := hbelow.le.trans hrange
    simp [fitInt, hbelow, hbelow.not_ge, hbelow.le, hhi]
  rcases lt_or_ge (rangeHi w sg) v with habove | hhi
  · simp [fitInt, habove, habove.not_ge, habove.le, hlo.not_gt, hrange]
  · simp [fitInt, hlo, hhi, hlo.not_gt, hhi.not_gt]

/-- A value within the range of 32 bits is read back from its word. -/
theorem intOf_ofInt {sg : Bool} {v : Int} (hlo : rangeLo 32 sg ≤ v) (hhi : v ≤ rangeHi 32 sg) :
    intOf sg (BitVec.ofInt 32 v) = v := by
  cases sg
  case true =>
    simp only [rangeLo, rangeHi, if_true] at hlo hhi
    exact BitVec.toInt_ofInt_eq_self (by decide) (by omega) (by omega)
  case false =>
    simp only [rangeLo, rangeHi, Bool.false_eq_true, if_false] at hlo hhi
    simp only [intOf, BitVec.toNat_ofInt, Bool.false_eq_true, if_false]
    omega

/-- A saturated result, read as its operands are, is the exact value clamped to the range. -/
theorem intOf_fitInt_saturate (sg : Bool) (v : Int) :
    intOf sg (fitInt 32 sg true v).1 = max (rangeLo 32 sg) (min (rangeHi 32 sg) v) := by
  rw [fitInt_saturate]
  exact intOf_ofInt (le_max_left _ _) (max_le (rangeLo_le_rangeHi 32 sg) (min_le_left _ _))

theorem rangeLo_word (sg : Bool) : rangeLo 32 sg = if sg then -2147483648 else 0 := rfl

theorem rangeHi_word (sg : Bool) : rangeHi 32 sg = if sg then 2147483647 else 4294967295 := rfl

/-! ## Division (R151, R172) -/

@[simp] theorem divRem_zero (w : Nat) (sg : Bool) (a : BitVec w) : divRem w sg a 0#w = (BitVec.allOnes w, a, fIDZ) := by
  simp [divRem]

theorem divRem_overflow {w : Nat} (hw : 0 < w) :
    divRem w true (BitVec.intMin w) (BitVec.allOnes w) = (BitVec.intMin w, 0#w, fIOV) := by
  have hnonzero : BitVec.allOnes w ≠ 0#w := by simpa using hw.ne'
  simp [divRem, hnonzero]

theorem divRem_unsigned {w : Nat} {a b : BitVec w} (hb : b ≠ 0#w) : divRem w false a b = (a / b, a % b, 0#8) := by
  simp [divRem, hb, BitVec.udiv_def, BitVec.umod_def]

/-- The truncated quotient modulo 2^w is the signed division of bit vectors. -/
theorem ofInt_tdiv_toInt {w : Nat} (a b : BitVec w) : BitVec.ofInt w (a.toInt.tdiv b.toInt) = a.sdiv b :=
  BitVec.eq_of_toInt_eq (by rw [BitVec.toInt_ofInt, BitVec.toInt_sdiv])

/-- The remainder of the truncated quotient is the signed remainder of bit vectors. -/
theorem ofInt_tmod_toInt {w : Nat} (a b : BitVec w) : BitVec.ofInt w (a.toInt.tmod b.toInt) = a.srem b := by
  rw [← BitVec.toInt_srem, BitVec.ofInt_toInt]

theorem divRem_signed {w : Nat} {a b : BitVec w} (hb : b ≠ 0#w) (hfits : ¬(a = BitVec.intMin w ∧ b = BitVec.allOnes w)) :
    divRem w true a b = (a.sdiv b, a.srem b, 0#8) := by
  simp [divRem, hb, hfits, ofInt_tdiv_toInt, ofInt_tmod_toInt]

/-- Away from the overflow the signed quotient is exact. -/
theorem toInt_sdiv_of_fits {w : Nat} {a b : BitVec w} (hfits : ¬(a = BitVec.intMin w ∧ b = BitVec.allOnes w)) :
    (a.sdiv b).toInt = a.toInt.tdiv b.toInt :=
  BitVec.toInt_sdiv_of_ne_or_ne a b (by rwa [BitVec.neg_one_eq_allOnes, ← not_and_or])

/-! ## Shifts by at least the width (R154) -/

/-- An arithmetic shift by the width or more leaves copies of the sign. -/
theorem sshiftRight_of_width_le {w n : Nat} (a : BitVec w) (h : w ≤ n) :
    a.sshiftRight n = if a.msb then BitVec.allOnes w else 0#w := by
  cases hsign : a.msb
  case true => simp [BitVec.sshiftRight_eq_of_msb_true hsign, BitVec.ushiftRight_eq_zero h]
  case false => simp [BitVec.sshiftRight_eq_of_msb_false hsign, BitVec.ushiftRight_eq_zero h]

theorem shlLane_of_width_le {a b : Word} (h : 32 ≤ (b.extractLsb' 0 8).toNat) : shlLane a b = 0#32 :=
  BitVec.shiftLeft_eq_zero h

theorem shrLane_logical_of_width_le {a b : Word} (h : 32 ≤ (b.extractLsb' 0 8).toNat) : shrLane false a b = 0#32 :=
  BitVec.ushiftRight_eq_zero h

theorem shrLane_arithmetic_of_width_le {a b : Word} (h : 32 ≤ (b.extractLsb' 0 8).toNat) :
    shrLane true a b = if a.getLsbD 31 then 0xFFFFFFFF#32 else 0#32 := by
  rw [show a.getLsbD 31 = a.msb from (BitVec.msb_eq_getLsbD_last a).symm]
  exact sshiftRight_of_width_le a h

end Sys2Proof.Machine

namespace Sys2Proof
open Machine

/-- Without SAT each operation of R150 is the operation on words: reduction modulo 2^32 commutes with the exact one. -/
theorem integerLanes_wrap (sg : Bool) (a b x : Word) :
    iaddLane ⟨sg, false⟩ a b = (a + b, 0#8) ∧ isubLane ⟨sg, false⟩ a b = (a - b, 0#8)
      ∧ imulLane ⟨sg, false⟩ a b = (a * b, 0#8) ∧ imadLane ⟨sg, false⟩ a b x = (a * b + x, 0#8) := by
  refine ⟨?add, ?sub, ?mul, ?mad⟩
  case add => simp [iaddLane, BitVec.ofInt_add]
  case sub => simp [isubLane, Int.sub_eq_add_neg, BitVec.ofInt_add, BitVec.ofInt_neg, BitVec.sub_eq_add_neg]
  case mul => simp [imulLane, BitVec.ofInt_mul]
  case mad => simp [imadLane, BitVec.ofInt_add, BitVec.ofInt_mul]

/-- Settles O13: wrapping is arithmetic on words, saturation a clamp, the quotients and remainders are those of bit vectors, and a
shift by the width or more keeps at most the sign. -/
theorem integerArithmetic : Obligations.IntegerArithmetic := by
  refine ⟨integerLanes_wrap, ?saturate, ?divide, ?shift⟩
  case saturate =>
    intro sg a b x v
    refine ⟨⟨?_, ?_⟩, rfl, rfl, rfl, rfl⟩
    · rw [intOf_fitInt_saturate, rangeLo_word, rangeHi_word]
    · rw [fitInt_saturate, rangeLo_word, rangeHi_word, fIOV]
  case divide =>
    intro a b
    refine ⟨?corners, fun hb => ?unsigned, fun hb hcorner => ?signed⟩
    case corners =>
      have hoverflow : divRem 32 true 0x80000000#32 0xFFFFFFFF#32 = (0x80000000#32, 0#32, fIOV) := divRem_overflow (by decide)
      simp only [idivLane, iremLane, divRem_zero, hoverflow]
      exact ⟨rfl, rfl, rfl, rfl, rfl, rfl⟩
    case unsigned =>
      simp only [idivLane, iremLane, divRem_unsigned hb]
      exact ⟨BitVec.toNat_udiv, trivial, BitVec.toNat_umod, trivial⟩
    case signed =>
      simp only [idivLane, iremLane, divRem_signed hb hcorner]
      exact ⟨toInt_sdiv_of_fits hcorner, trivial, (BitVec.toInt_srem a b).trans (Int.tmod_def _ _), trivial⟩
  case shift =>
    intro a b h
    exact ⟨shlLane_of_width_le h, shrLane_logical_of_width_le h, shrLane_arithmetic_of_width_le h⟩

end Sys2Proof

/-!
The divergence stack and the PC slots (R210-R212): what an update of one leaves of the other, where a free slot goes, and that every
step leaves no free slot of a RUNNING gang beside a live PATH entry.
-/
namespace Sys2Proof.Machine

/-! ## PC slots -/

@[simp] theorem Arch.slot_setSlot_same (a : Arch) (x : PcSlot) (sl : Slot) : (a.setSlot x sl).slot x = sl := by
  cases x <;> rfl

@[simp] theorem Arch.slot_setSlot_other (a : Arch) (x : PcSlot) (sl : Slot) :
    (a.setSlot x sl).slot (otherSlot x) = a.slot (otherSlot x) := by
  cases x <;> rfl

@[simp] theorem Arch.slot_otherSlot_setSlot (a : Arch) (x : PcSlot) (sl : Slot) :
    (a.setSlot (otherSlot x) sl).slot x = a.slot x := by
  cases x <;> rfl

/-! ## Entries -/

@[simp] theorem entryAt_setSlot (a : Arch) (x : PcSlot) (sl : Slot) (j : Nat) : entryAt (a.setSlot x sl) j = entryAt a j := by
  simp [entryAt]

/-- An entry that has been written is read back, and no other entry has changed. -/
theorem get_set_stack (v : Vector Entry 64) (i k : Fin 64) (e : Entry) : (v.set i e).get k = if k = i then e else v.get k := by
  simp only [Vector.get_eq_getElem, Vector.getElem_set, Fin.ext_iff, eq_comm]

theorem entryAt_set (a : Arch) (j k : Nat) (e : Entry) :
    entryAt { a with stack := a.stack.set (Fin.ofNat 64 j) e } k = if k % 64 = j % 64 then e else entryAt a k := by
  rw [entryAt, get_set_stack]
  simp only [Fin.ext_iff, Fin.val_ofNat, entryAt]

@[simp] theorem killEntry_slot (a : Arch) (j : Nat) (x : PcSlot) : (killEntry a j).slot x = a.slot x := by
  cases x <;> rfl

/-- A killed entry is dead, and no other entry has changed. -/
theorem entryAt_killEntry (a : Arch) (j k : Nat) :
    entryAt (killEntry a j) k = if k % 64 = j % 64 then { entryAt a j with kind := .dead } else entryAt a k :=
  entryAt_set a j k _

/-! ## The topmost live PATH entry -/

theorem topPath_congr {a b : Arch} (h : ∀ k, (entryAt a k).kind = (entryAt b k).kind) (n : Nat) : topPath a n = topPath b n := by
  induction n with
  | zero => rfl
  | succ n ih => simp only [topPath, h, ih]

@[simp] theorem topPath_setSlot (a : Arch) (x : PcSlot) (sl : Slot) (n : Nat) : topPath (a.setSlot x sl) n = topPath a n :=
  topPath_congr (fun k => by rw [entryAt_setSlot]) n

theorem kind_of_topPath {a : Arch} {n m : Nat} (h : topPath a n = some m) : (entryAt a m).kind = .path := by
  induction n with
  | zero => cases h
  | succ n ih =>
    rw [topPath] at h
    split at h
    · cases h; assumption
    · exact ih h

/-! ## A slot that becomes free (R211) -/

theorem freeSlot_of_noPath {a : Arch} (x : PcSlot) (h : topPath a a.sp = none) : freeSlot a x = a.setSlot x Slot.free := by
  simp [freeSlot, h]

/-- In a RUNNING gang a slot that becomes free takes the topmost live PATH entry. -/
theorem freeSlot_of_path {a : Arch} (x : PcSlot) {n : Nat} (hmode : a.mode = .running) (h : topPath a a.sp = some n) :
    freeSlot a x = (killEntry a n).setSlot x
      { live := true, pc := (entryAt a n).pc, mask := (entryAt a n).mask, join := some (entryAt a n).link, stamp := (a.slot x).stamp,
        op := (a.slot x).op, wait := .none } := by
  have hfloor : decide (pathFloor a ≤ n) = true := by simp [pathFloor, hmode]
  simp only [freeSlot, h, Option.filter_some, hfloor, if_true]

/-- No slot is free beside a live PATH entry (R211). -/
def SlotsBusy (a : Arch) : Prop := ∀ x, (a.slot x).live = false → topPath a a.sp = none

/-- Settling one slot of a RUNNING gang leaves it live or no PATH entry, and keeps every live slot. -/
theorem settleSlot_cases {a : Arch} (x : PcSlot) (hmode : a.mode = .running) :
    (((settleSlot a x).slot x).live = true ∨ topPath (settleSlot a x) (settleSlot a x).sp = none)
      ∧ (settleSlot a x).slot (otherSlot x) = a.slot (otherSlot x) ∧ (settleSlot a x).mode = .running
      ∧ (topPath a a.sp = none → topPath (settleSlot a x) (settleSlot a x).sp = none) := by
  unfold settleSlot
  split
  case isTrue hlive => exact ⟨.inl hlive, rfl, hmode, id⟩
  case isFalse =>
    cases htop : topPath a a.sp with
    | none => simp [freeSlot_of_noPath x htop, htop, hmode]
    | some n =>
      have hkill : (killEntry a n).mode = .running := hmode
      simp [freeSlot_of_path x hmode htop, hkill]

theorem slotsBusy_settleGang {a : Arch} (hmode : a.mode = .running) : SlotsBusy (settleSlot (settleSlot a .a) .b) := by
  obtain ⟨hA, -, hmodeA, -⟩ := settleSlot_cases .a hmode
  obtain ⟨hB, hother, -, hkeep⟩ := settleSlot_cases .b hmodeA
  have hA' : ((settleSlot (settleSlot a .a) .b).slot .a).live = ((settleSlot a .a).slot .a).live := congrArg Slot.live hother
  intro x hfree
  cases x with
  | a => exact hkeep (hA.resolve_left (by simp [← hA', hfree]))
  | b => exact hB.resolve_left (by simp [hfree])

end Sys2Proof.Machine

namespace Sys2Proof
open Machine

theorem slotsTaken_settleSlots (s : State) : SlotsTaken (settleSlots s) := by
  intro g hg hmode
  obtain ⟨g', -, rfl⟩ := List.mem_map.mp hg
  by_cases hmode' : g'.arch.mode = .running
  · rw [settleGang, if_pos hmode'] at hmode ⊢
    exact slotsBusy_settleGang hmode'
  · rw [settleGang, if_neg hmode'] at hmode
    exact absurd hmode hmode'

/-- Marking the requests that are out changes no gang. -/
theorem slotsTaken_markSent {s : State} (h : SlotsTaken s) : SlotsTaken (markSent s) := h

/-- Of what every step brings up to date the free slots come last but for marking requests. -/
theorem slotsTaken_settle (s : State) : SlotsTaken (settle s) := by
  unfold settle
  exact slotsTaken_markSent (slotsTaken_settleSlots _)

theorem settled_next {r : Res} {t : State} (h : settled r = .next t) : ∃ u, t = settle u := by
  cases r with
  | next u =>
    simp only [settled, Host.Outcome.next.injEq] at h
    exact ⟨u, h.symm⟩
  | fault => cases h
  | refused => cases h

/-- A step that answers a next state has settled it. -/
theorem step_next {s t : State} (h : step s = .next t) : ∃ u, t = settle u := by
  unfold step at h
  cases hmove : nextMove s with
  | done u =>
    simp only [hmove, Host.Outcome.next.injEq] at h
    exact ⟨u, h.symm⟩
  | run i u =>
    simp only [hmove] at h
    exact settled_next h
  | took r =>
    simp only [hmove] at h
    exact settled_next h

/-- Settles O6: every step ends by settling the slots of every gang, from whatever state. -/
theorem slotsKept : Obligations.SlotsKept := by
  intro s t h
  obtain ⟨u, rfl⟩ := step_next h
  exact slotsTaken_settle u

end Sys2Proof

/-!
Transfers of a whole slot and divided branches (R215-R217, R220).
-/
namespace Sys2Proof.Machine

@[simp] theorem heldSlots_setPc (a : Arch) (x : PcSlot) (t : BitVec 64) : heldSlots (setPc a x t) = heldSlots a := by
  simp [setPc]

@[simp] theorem heldSlots_killRegs_scalar (a : Arch) (h : Head) (n : Fin 64) :
    heldSlots (killRegs a (headKills h (.s n) .zero .zero)) = heldSlots a := by
  cases hla : h.la <;> cases hlb : h.lb <;> cases hlc : h.lc <;> simp [headKills, killsOf, hla, hlb, hlc, killRegs]

/-- Zero fields have no register to mark. -/
@[simp] theorem killRegs_headKills_zero (a : Arch) (h : Head) : killRegs a (headKills h .zero .zero .zero) = a := by
  cases hla : h.la <;> cases hlb : h.lb <;> cases hlc : h.lc <;> simp [headKills, killsOf, hla, hlb, hlc, killRegs]

theorem trap_of_clear {c : Ctx} (hclear : c.clear = true) (cause : BitVec 8) (tval : BitVec 64) :
    c.trap cause tval = .next (takeTrap c.s c.g c.x cause tval (c.pc.setWidth 64) 0#5) :=
  halt_trap_of_clear hclear cause tval 0#5

theorem targetCheck_of_ok {c : Ctx} {t : BitVec 64} (h : targetOk t (codeLength c) = true) : targetCheck c t = none := by
  simp [targetCheck, h]

theorem targetCheck_of_refused {c : Ctx} {t : BitVec 64} (h : targetOk t (codeLength c) = false) :
    targetCheck c t = some (.trap cMisaligned t 0#5) := by
  simp [targetCheck, h]

/-- An instruction whose sources are live and that has no active lane takes its marks and moves on (R51, R59). -/
theorem wholeOp_of_noLane {h : Head} {srcs : List Opnd} {s : State} {c : Ctx} (kills : Reads) (f : Ctx → Arch → Res)
    (henters : Enters s h.guard c) (hact : c.act = 0#32) (hpipe : c.a.pipeErr = none) (hlive : ∀ o ∈ srcs, liveIn c.a o) :
    wholeOp h srcs kills s f = c.commit (killRegs c.a kills) := by
  rw [wholeOp, issue_eq henters.here henters.clean]
  simp [deadCheck_of_live hpipe hlive, hact]

end Sys2Proof.Machine

namespace Sys2Proof
open Machine

/-- A commit that leaves the gang the run slots that it holds settles its accounts at once (R91). -/
theorem commitWith_afterCommit {c : Ctx} {a : Arch} (h : heldSlots a = heldSlots c.a) : c.commitWith a id = .next (afterCommit c a) :=
  commitWith_of_le (.inl h) h.le id

theorem commit_afterCommit {c : Ctx} {a : Arch} (h : heldSlots a = heldSlots c.a) : c.commit a = .next (afterCommit c (a.advance c.x)) :=
  commit_of_heldSlots_eq h

/-- A jump to a target that R54 allows sets the PC and nothing else (R217). -/
theorem jumpTo_of_ok {c : Ctx} {t : BitVec 64} {a : Arch} (hok : targetOk t (codeLength c) = true) (h : heldSlots a = heldSlots c.a) :
    jumpTo c t a = .next (afterCommit c (setPc a c.x t)) := by
  rw [jumpTo, targetCheck_of_ok hok]
  exact commitWith_afterCommit (by simpa using h)

theorem jumpTo_of_refused {s : State} {c : Ctx} {t : BitVec 64} (a : Arch) (hs : c.s = s) (hbad : targetOk t (codeLength c) = false) (hclear : c.clear = true) :
    jumpTo c t a = .next (takeTrap s c.g c.x 0x06#8 t (c.pc.setWidth 64) 0#5) := by
  rw [jumpTo, targetCheck_of_refused hbad, ← hs]
  exact halt_trap_of_clear hclear _ _ _

section
variable {h : Head} {s : State} {c : Ctx}

theorem exec_nop (henters : Enters s alwaysGuard c) : exec (.nop h) s = .next (afterCommit c (c.a.advance c.x)) := by
  change execNop h s = _
  rw [execNop, show ({ neg := false, p := 7 } : Guard) = alwaysGuard from rfl, issue_eq henters.here henters.clean]
  exact commit_afterCommit rfl

variable (henters : Enters s h.guard c)
include henters

/-! ## BRA (R216) -/

section
variable {target join : BitVec 16}

theorem exec_bra_of_noLane (hact : c.act = 0#32) : exec (.bra h target join) s = .next (afterCommit c (c.a.advance c.x)) := by
  change execBra h target join s = _
  rw [execBra, issue_eq henters.here henters.clean]
  simp only [hact, if_true]
  exact commit_afterCommit rfl

variable (hact : c.act ≠ 0#32)
include hact

theorem exec_bra_of_targetRefused (hclear : c.clear = true) (hbad : targetOk (relTarget c.pc target) (codeLength c) = false) :
    exec (.bra h target join) s = .next (takeTrap s c.g c.x 0x06#8 (relTarget c.pc target) (c.pc.setWidth 64) 0#5) := by
  change execBra h target join s = _
  rw [execBra, issue_eq henters.here henters.clean]
  simp only [hact, if_false, targetCheck_of_refused hbad]
  rw [← henters.state_eq]
  exact halt_trap_of_clear hclear _ _ _

variable (htarget : targetOk (relTarget c.pc target) (codeLength c) = true)
include htarget

theorem exec_bra_of_allLanes (hall : c.act = c.slot.mask) :
    exec (.bra h target join) s = .next (afterCommit c (setPc c.a c.x (relTarget c.pc target))) := by
  have hnone : c.slot.mask &&& ~~~c.act = 0#32 := by simp [hall]
  change execBra h target join s = _
  rw [execBra, issue_eq henters.here henters.clean]
  simp only [hact, if_false, targetCheck_of_ok htarget, hnone, if_true]
  exact commitWith_afterCommit (by simp)

variable (hdivides : c.slot.mask &&& ~~~c.act ≠ 0#32)
include hdivides

theorem exec_bra_of_joinRefused (hclear : c.clear = true) (hbad : targetOk (relTarget c.pc join) (codeLength c) = false) :
    exec (.bra h target join) s = .next (takeTrap s c.g c.x 0x06#8 (relTarget c.pc join) (c.pc.setWidth 64) 0#5) := by
  change execBra h target join s = _
  rw [execBra, issue_eq henters.here henters.clean]
  simp only [hact, if_false, targetCheck_of_ok htarget, hdivides, targetCheck_of_refused hbad]
  rw [← henters.state_eq]
  exact halt_trap_of_clear hclear _ _ _

variable (hjoin : targetOk (relTarget c.pc join) (codeLength c) = true)
include hjoin

theorem exec_bra_of_overflow (hclear : c.clear = true) (hfull : 64 < c.a.sp + (if otherFree c then 1 else 2)) :
    exec (.bra h target join) s = .next (takeTrap s c.g c.x 0x0C#8 (BitVec.ofNat 64 c.a.sp) (c.pc.setWidth 64) 0#5) := by
  change execBra h target join s = _
  rw [execBra, issue_eq henters.here henters.clean]
  simp only [hact, if_false, targetCheck_of_ok htarget, hdivides, targetCheck_of_ok hjoin, gt_iff_lt, hfull, if_true]
  rw [← henters.state_eq]
  exact trap_of_clear hclear _ _

theorem exec_bra_of_divides (hroom : c.a.sp + (if otherFree c then 1 else 2) ≤ 64) :
    exec (.bra h target join) s = .next (afterCommit c
      (braArch c (relTarget c.pc target) (relTarget c.pc join) c.act (c.slot.mask &&& ~~~c.act))) := by
  have hslots : heldSlots (braArch c (relTarget c.pc target) (relTarget c.pc join) c.act (c.slot.mask &&& ~~~c.act)) = heldSlots c.a := by
    unfold braArch
    split <;> simp [heldSlots, pushEntry]
  change execBra h target join s = _
  rw [execBra, issue_eq henters.here henters.clean]
  simp only [hact, if_false, targetCheck_of_ok htarget, hdivides, targetCheck_of_ok hjoin, gt_iff_lt, Nat.not_lt.mpr hroom]
  exact commitWith_afterCommit hslots

end

/-! ## JMP, CALL and RET (R217, R220) -/

section
variable {target : BitVec 16} {d : Opnd}

theorem exec_jmpOffset (hact : c.act ≠ 0#32) : exec (.jmpOffset h target) s = jumpTo c (relTarget c.pc target) c.a := by
  change execJmpOffset h target s = _
  rw [execJmpOffset, issue_eq henters.here henters.clean, if_neg hact]

theorem exec_callOffset (hact : c.act ≠ 0#32) :
    exec (.callOffset h d target) s = jumpTo c (relTarget c.pc target) (writeScalar c.a d ((c.pc + 12#32).setWidth 64)) := by
  change execCallOffset h d target s = _
  rw [execCallOffset, issue_eq henters.here henters.clean, if_neg hact]
  rfl

theorem exec_jumpOffset_of_noLane (hact : c.act = 0#32) :
    exec (.jmpOffset h target) s = .next (afterCommit c (c.a.advance c.x))
      ∧ exec (.callOffset h d target) s = .next (afterCommit c (c.a.advance c.x)) := by
  refine ⟨?jump, ?call⟩
  case jump =>
    change execJmpOffset h target s = _
    rw [execJmpOffset, issue_eq henters.here henters.clean, if_pos hact]
    exact commit_afterCommit rfl
  case call =>
    change execCallOffset h d target s = _
    rw [execCallOffset, issue_eq henters.here henters.clean, if_pos hact]
    exact commit_afterCommit rfl

end

section
variable {n : Fin 64} {d : Opnd} (hlive : ∀ o ∈ [Opnd.s n], liveIn c.a o) (hpipe : c.a.pipeErr = none)
include hlive hpipe

/-- A jump to a scalar with no active lane takes its mark and moves on. -/
theorem exec_jumpScalar_of_noLane (hact : c.act = 0#32) :
    ∀ i ∈ [Instr.jmpScalar h (.s n), .ret h (.s n), .callScalar h d (.s n)],
      exec i s = .next (afterCommit c ((killRegs c.a (headKills h (.s n) .zero .zero)).advance c.x)) := by
  have hwhole : ∀ f, wholeOp h [.s n] (headKills h (.s n) .zero .zero) s f
      = .next (afterCommit c ((killRegs c.a (headKills h (.s n) .zero .zero)).advance c.x)) := fun f =>
    (wholeOp_of_noLane _ f henters hact hpipe hlive).trans (commit_afterCommit (heldSlots_killRegs_scalar _ _ _))
  rw [List.forall_mem_cons, List.forall_mem_cons, List.forall_mem_singleton]
  exact ⟨hwhole fun c x => jumpTo c (scalarOf c (.s n)) x, hwhole fun c x => jumpTo c (scalarOf c (.s n)) x,
    hwhole fun c x => jumpTo c (scalarOf c (.s n)) (writeScalar x d (linkOf c))⟩

/-- With a lane active JMP and RET jump, and CALL besides writes its link (R217, R220). -/
theorem exec_jumpScalar (hact : c.act ≠ 0#32) (hpoison : wordPoison c.a (.s n) = false) :
    exec (.jmpScalar h (.s n)) s = jumpTo c (scalarOf c (.s n)) (killRegs c.a (headKills h (.s n) .zero .zero))
      ∧ exec (.ret h (.s n)) s = jumpTo c (scalarOf c (.s n)) (killRegs c.a (headKills h (.s n) .zero .zero))
      ∧ exec (.callScalar h d (.s n)) s = jumpTo c (scalarOf c (.s n))
          (writeScalar (killRegs c.a (headKills h (.s n) .zero .zero)) d ((c.pc + 12#32).setWidth 64)) := by
  have hwhole : ∀ f : Ctx → Arch → Res, wholeOp h [.s n] (headKills h (.s n) .zero .zero) s f
      = f c (killRegs c.a (headKills h (.s n) .zero .zero)) :=
    fun f => wholeOp_of_runs _ f henters hact hpipe hlive (by simp [hpoison])
  exact ⟨hwhole fun c x => jumpTo c (scalarOf c (.s n)) x, hwhole fun c x => jumpTo c (scalarOf c (.s n)) x,
    hwhole fun c x => jumpTo c (scalarOf c (.s n)) (writeScalar x d (linkOf c))⟩

end
end

/-! ## The registers after a divided branch (R216) -/

section
variable (c : Ctx) (tgt jpc : BitVec 64) (tk ntk : Mask)

theorem braArch_slot :
    (braArch c tgt jpc tk ntk).slot c.x = { c.slot with pc := c.pc + 12#32, mask := ntk, join := some c.a.sp } := by
  simp [braArch]

theorem braArch_other : (braArch c tgt jpc tk ntk).slot (otherSlot c.x)
    = if otherFree c then
        { live := true, pc := tgt.setWidth 32, mask := tk, join := some c.a.sp, stamp := c.s.tick, op := c.slot.op, wait := .none }
      else c.a.slot (otherSlot c.x) := by
  cases hfree : otherFree c
  · have hpush : ∀ (a : Arch) (e : Entry) (x : PcSlot), (pushEntry a e).slot x = a.slot x := by intro a e x; cases x <;> rfl
    simp [braArch, hfree, hpush]
  · simp [braArch, hfree]

theorem braArch_sp : (braArch c tgt jpc tk ntk).sp = c.a.sp + (if otherFree c then 1 else 2) := by
  cases hfree : otherFree c <;> simp [braArch, hfree, pushEntry]

/-- An entry that has been pushed stands at the old SP; every other entry is as it was. -/
theorem entryAt_pushEntry (a : Arch) (e : Entry) (k : Nat) :
    entryAt (pushEntry a e) k = if k % 64 = a.sp % 64 then e else entryAt a k := entryAt_set a a.sp k e

theorem braArch_join : entryAt (braArch c tgt jpc tk ntk) c.a.sp
      = { kind := .join, pc := jpc.setWidth 32, mask := 0#32, link := 2, parent := c.slot.join } := by
  cases hfree : otherFree c
  · have hne : c.a.sp % 64 ≠ (c.a.sp + 1) % 64 := by omega
    have hsp : ∀ e, (pushEntry c.a e).sp = c.a.sp + 1 := fun _ => rfl
    simp [braArch, hfree, entryAt_pushEntry, hsp, hne]
  · simp [braArch, hfree, entryAt_pushEntry]

theorem braArch_path (hfree : otherFree c = false) :
    entryAt (braArch c tgt jpc tk ntk) (c.a.sp + 1)
      = { kind := .path, pc := tgt.setWidth 32, mask := tk, link := c.a.sp, parent := none } := by
  have hsp : ∀ e, (pushEntry c.a e).sp = c.a.sp + 1 := fun _ => rfl
  simp [braArch, hfree, entryAt_pushEntry, hsp]

@[simp] theorem braArch_v : (braArch c tgt jpc tk ntk).v = c.a.v := by
  cases hfree : otherFree c <;> simp [braArch, hfree, pushEntry]
@[simp] theorem braArch_s : (braArch c tgt jpc tk ntk).s = c.a.s := by
  cases hfree : otherFree c <;> simp [braArch, hfree, pushEntry]
@[simp] theorem braArch_p : (braArch c tgt jpc tk ntk).p = c.a.p := by
  cases hfree : otherFree c <;> simp [braArch, hfree, pushEntry]
@[simp] theorem braArch_flags : (braArch c tgt jpc tk ntk).flags = c.a.flags := by
  cases hfree : otherFree c <;> simp [braArch, hfree, pushEntry]
@[simp] theorem braArch_mode : (braArch c tgt jpc tk ntk).mode = c.a.mode := by
  cases hfree : otherFree c <;> simp [braArch, hfree, pushEntry]

end

/-! ## Settled accounts -/

@[simp] theorem settleAccounts_slot (n : Nat) (a : Arch) (x : PcSlot) : (settleAccounts n a).slot x = a.slot x := by
  rw [settleAccounts_eq]; cases x <;> rfl
@[simp] theorem settleAccounts_v (n : Nat) (a : Arch) : (settleAccounts n a).v = a.v := by rw [settleAccounts_eq]
@[simp] theorem settleAccounts_s (n : Nat) (a : Arch) : (settleAccounts n a).s = a.s := by rw [settleAccounts_eq]
@[simp] theorem settleAccounts_p (n : Nat) (a : Arch) : (settleAccounts n a).p = a.p := by rw [settleAccounts_eq]
@[simp] theorem settleAccounts_flags (n : Nat) (a : Arch) : (settleAccounts n a).flags = a.flags := by rw [settleAccounts_eq]
@[simp] theorem settleAccounts_mode (n : Nat) (a : Arch) : (settleAccounts n a).mode = a.mode := by rw [settleAccounts_eq]
@[simp] theorem settleAccounts_sp (n : Nat) (a : Arch) : (settleAccounts n a).sp = a.sp := by rw [settleAccounts_eq]
@[simp] theorem entryAt_settleAccounts (n : Nat) (a : Arch) (k : Nat) : entryAt (settleAccounts n a) k = entryAt a k := by
  rw [settleAccounts_eq]; rfl

/-- Settles O16: each transfer is a commit of the PC that the rule gives, or the trap of its first cause; a BRA that divides commits
`braArch`, whose slots and entries the lemmas above read. -/
theorem wholeSlotTransfers : Obligations.WholeSlotTransfers := by
  refine ⟨⟨fun h s c henters => exec_nop henters, fun h s c henters => ⟨?braNone, ?braAll, ?offsetNone, ?offset, ?scalar⟩⟩, ?stops, ?divides⟩
  case braNone => exact fun target join hact => exec_bra_of_noLane henters hact
  case braAll => exact fun target join hact hall hok => exec_bra_of_allLanes henters hact hok hall
  case offsetNone => exact fun target d hact => exec_jumpOffset_of_noLane henters hact
  case offset =>
    rintro target d t hact rfl
    rw [exec_jmpOffset henters hact, exec_callOffset henters hact]
    exact ⟨fun hok => ⟨jumpTo_of_ok hok rfl, jumpTo_of_ok hok (heldSlots_writeScalar _ _ _)⟩,
      fun hbad hclear => ⟨jumpTo_of_refused _ henters.state_eq hbad hclear, jumpTo_of_refused _ henters.state_eq hbad hclear⟩⟩
  case scalar =>
    rintro n d t b hsreg hpoison hpipe rfl
    have hlive : ∀ o ∈ [Opnd.s n], liveIn c.a o := by simp [liveIn, hsreg]
    have ht : scalarOf c (.s n) = t := by simp [scalarOf, hsreg]
    refine ⟨exec_jumpScalar_of_noLane henters hlive hpipe, fun hact hok => ?_, fun hact hbad hclear => ?_⟩
    all_goals obtain ⟨hjmp, hret, hcall⟩ := exec_jumpScalar (d := d) henters hlive hpipe hact hpoison
    all_goals rw [ht] at hjmp hret hcall
    · rw [hjmp, hret, hcall]
      exact ⟨jumpTo_of_ok hok (by simp), jumpTo_of_ok hok (by simp), jumpTo_of_ok hok (by simp)⟩
    · rw [List.forall_mem_cons, List.forall_mem_cons, List.forall_mem_singleton, hjmp, hret, hcall]
      exact ⟨jumpTo_of_refused _ henters.state_eq hbad hclear, jumpTo_of_refused _ henters.state_eq hbad hclear,
        jumpTo_of_refused _ henters.state_eq hbad hclear⟩
  case stops =>
    intro h target join s c henters hact hclear
    exact ⟨exec_bra_of_targetRefused henters hact hclear, fun hok hdivides =>
      ⟨exec_bra_of_joinRefused henters hact hok hdivides hclear,
        fun hjoin hfull => exec_bra_of_overflow henters hact hok hdivides hjoin hclear hfull⟩⟩
  case divides =>
    intro h target join s c henters hact hdivides _ hok hjoin hroom
    refine ⟨_, _, exec_bra_of_divides henters hact hok hdivides hjoin hroom, henters.onlyRegisters_put _, ?_⟩
    simp only [settleAccounts_slot, settleAccounts_v, settleAccounts_s, settleAccounts_p, settleAccounts_flags, settleAccounts_mode,
      settleAccounts_sp, entryAt_settleAccounts, braArch_slot, braArch_other, braArch_sp, braArch_join, braArch_v, braArch_s, braArch_p,
      braArch_flags, braArch_mode, true_and, and_true]
    cases hfree : otherFree c
    · exact ⟨braArch_path _ _ _ _ _ hfree, rfl, rfl⟩
    · exact ⟨rfl, rfl, rfl, rfl, rfl⟩

end Sys2Proof

/-!
JOIN, EXIT, YIELD, SLEEP and the end of a gang (R212, R219, R221, R222).
-/
namespace Sys2Proof.Machine

/-! ## Arriving at a join (R212) -/

/-- The entry of a join once the slot has arrived. -/
def arrivedEntry (a : Arch) (x : PcSlot) (j : Nat) : Entry :=
  { entryAt a j with mask := (entryAt a j).mask ||| (a.slot x).mask, link := (entryAt a j).link - 1 }

/-- The registers with a join's entry replaced. -/
def withEntry (a : Arch) (j : Nat) (e : Entry) : Arch := { a with stack := a.stack.set (Fin.ofNat 64 j) e }

@[simp] theorem withEntry_slot (a : Arch) (j : Nat) (e : Entry) (x : PcSlot) : (withEntry a j e).slot x = a.slot x := by
  cases x <;> rfl

theorem entryAt_withEntry (a : Arch) (j k : Nat) (e : Entry) :
    entryAt (withEntry a j e) k = if k % 64 = j % 64 then e else entryAt a k := entryAt_set a j k e

/-- Entries that differ in no kind have the same topmost PATH entry. -/
theorem topPath_withEntry {a : Arch} {j : Nat} {e : Entry} (h : e.kind = (entryAt a j).kind) (n : Nat) :
    topPath (withEntry a j e) n = topPath a n := by
  refine topPath_congr (fun k => ?_) n
  rw [entryAt_withEntry]
  split
  case isTrue hk =>
    have : entryAt a k = entryAt a j := by rw [entryAt, entryAt, show Fin.ofNat 64 k = Fin.ofNat 64 j from Fin.ext hk]
    rw [h, this]
  case isFalse => rfl

/-- Before the last lane has come the slot frees itself. -/
theorem arrive_of_more {a : Arch} (x : PcSlot) {j : Nat} (h : 1 < (entryAt a j).link) :
    arrive a x j = freeSlot (withEntry a j (arrivedEntry a x j)) x := by
  have hlink : (entryAt a j).link - 1 > 0 := by omega
  simp only [arrive, hlink, if_true]
  rfl

/-- With the last lanes the slot goes on past the join, whose entry is killed. -/
theorem arrive_of_last {a : Arch} (x : PcSlot) {j : Nat} (hlink : (entryAt a j).link = 1)
    (hmask : (entryAt a j).mask ||| (a.slot x).mask ≠ 0#32) :
    arrive a x j = killEntry ((withEntry a j (arrivedEntry a x j)).setSlot x
      { a.slot x with mask := (entryAt a j).mask ||| (a.slot x).mask, pc := (entryAt a j).pc + 12#32, join := (entryAt a j).parent }) j := by
  have hslot : (withEntry a j (arrivedEntry a x j)).slot x = a.slot x := withEntry_slot _ _ _ _
  rw [← hslot]
  simp only [arrive, hlink, Nat.sub_self, gt_iff_lt, Nat.lt_irrefl, if_false, hmask]
  rw [arrivedEntry, hlink]
  rfl

@[simp] theorem heldSlots_freeSlot (a : Arch) (x : PcSlot) : heldSlots (freeSlot a x) = heldSlots a := by
  unfold freeSlot
  split
  · simp
  · simp [heldSlots, killEntry]

@[simp] theorem heldSlots_arrive (a : Arch) (x : PcSlot) (j : Nat) : heldSlots (arrive a x j) = heldSlots a := by
  have hkill : ∀ b k, heldSlots (killEntry b k) = heldSlots b := fun _ _ => rfl
  have hset : ∀ e, heldSlots (withEntry a j e) = heldSlots a := fun _ => rfl
  unfold arrive
  dsimp only
  split
  · exact (heldSlots_freeSlot _ _).trans (hset _)
  · split
    · rw [heldSlots_freeSlot, hkill, heldSlots_setSlot]; exact hset _
    · rw [hkill, heldSlots_setSlot]; exact hset _

@[simp] theorem heldSlots_exitArch (c : Ctx) : heldSlots (exitArch c) = heldSlots c.a := by
  unfold exitArch
  dsimp only
  split
  · simp
  · split <;> simp

/-! ## The end of a gang (R196, R200, R201) -/

theorem findGang_removeGang (s : State) (id other : GangId) :
    findGang (removeGang s id) other = if other = id then none else findGang s other := by
  unfold findGang
  change (s.gangs.filter fun g => decide (g.id ≠ id)).find? _ = _
  rw [List.find?_filter]
  split
  case isTrue h =>
    subst h
    simp
  case isFalse h =>
    congr 1
    funext g
    by_cases hg : g.id = other
    · simp [hg, h]
    · simp [hg]


/-! ## Looking up what has been updated -/

/-- The first element with a key, after an update of the elements with a key that keeps it. -/
theorem find?_map_update {α κ : Type} [DecidableEq κ] (key : α → κ) (l : List α) (k k' : κ) (f : α → α) (hf : ∀ x, key x = k → key (f x) = k) :
    (l.map fun x => if key x = k then f x else x).find? (fun x => decide (key x = k'))
      = if k' = k then (l.find? fun x => decide (key x = k)).map f else l.find? fun x => decide (key x = k') := by
  induction l with
  | nil => simp
  | cons y rest ih =>
    by_cases hy : key y = k <;> by_cases hk : k' = k
    · subst hk; simp [hy, hf y hy]
    · have hne : ¬ k = k' := fun e => hk e.symm
      simpa [hy, hf y hy, hk, hne] using ih
    · subst hk; simpa [hy] using ih
    · simp only [List.map_cons, hy, if_false, List.find?_cons, hk] at ih ⊢
      rw [ih]

theorem findBlock_modBlock (s : State) (uid : Nat) (f : Block → Block) (hf : ∀ b, (f b).uid = b.uid) :
    findBlock (modBlock s uid f) uid = (findBlock s uid).map f := by
  have h := find?_map_update (fun b : Block => b.uid) s.blocks uid uid f (fun b hb => (hf b).trans hb)
  rwa [if_pos rfl] at h

/-- A block that a failure has reached (R196). -/
def abandon (f : Failure) (b : Block) : Block := { b with state := .abandoned, fail := addFailure b.fail f }

theorem findBlock_failBlock {s : State} {uid : Nat} {b : Block} (f : Failure) (h : findBlock s uid = some b) :
    findBlock (failBlock s uid f) uid = some (abandon f b) := by
  have hblocks : (failBlock s uid f).blocks = (modBlock s uid (abandon f)).blocks := by
    rw [failBlock, h]
    dsimp only
    split
    · split <;> rfl
    · rfl
  have hfind : findBlock (modBlock s uid (abandon f)) uid = some (abandon f b) := by
    rw [findBlock_modBlock s uid (abandon f) fun _ => rfl, h]
    rfl
  unfold findBlock at hfind ⊢
  rw [hblocks, hfind]

theorem failBlock_gangs (s : State) (uid : Nat) (f : Failure) : (failBlock s uid f).gangs = s.gangs := by
  unfold failBlock
  split
  · rfl
  · dsimp only
    split
    · split <;> rfl
    · rfl

theorem findGang_failGang (s : State) (g : Gang) (status : Nat) (cause : BitVec 8) (pc : BitVec 32) (id : GangId) :
    findGang (failGang s g status cause pc) id = if id = g.id then none else findGang s id := by
  rw [failGang, findGang_removeGang, findGang, failBlock_gangs]
  rfl

theorem findBlock_failGang {s : State} {g : Gang} {b : Block} (status : Nat) (cause : BitVec 8) (pc : BitVec 32)
    (h : findBlock s g.block = some b) :
    findBlock (failGang s g status cause pc) g.block = some (abandon (gangFailure s g status cause pc) b) :=
  findBlock_failBlock (gangFailure s g status cause pc) h

/-! ## Waits -/

theorem wholeOp_zero_live (a : Arch) : ∀ o ∈ [Opnd.zero], liveIn a o := by simp [liveIn]

/-- The registers once the instruction that has waited in a slot is finished. -/
def retiredArch (budget : Nat) (a : Arch) (x : PcSlot) (r : Retire) (v : DWord) : Arch :=
  settleAccounts budget ((writeScalar (killRegs a (single r.kills)) r.d v).setSlot x
    { a.slot x with pc := (a.slot x).pc + 12#32, wait := .none })

theorem findGang_retireSlot {s : State} {g : Gang} (h : findGang s g.id = some g) (x : PcSlot) (r : Retire) (v : DWord) :
    findGang (retireSlot s g x r v) g.id = some { g with arch := retiredArch g.budget g.arch x r v } :=
  (findGang_putGang s g { g with arch := retiredArch g.budget g.arch x r v } h g.id).trans (if_pos rfl)

theorem retiredArch_slot (budget : Nat) (a : Arch) (x : PcSlot) (r : Retire) (v : DWord) :
    (retiredArch budget a x r v).slot x = { a.slot x with pc := (a.slot x).pc + 12#32, wait := .none } := by
  simp [retiredArch]

/-- Marks and a scalar result change no slot. -/
theorem writeScalar_killRegs_slot (a : Arch) (kills : Reads) (d : Opnd) (v : DWord) (y : PcSlot) :
    (writeScalar (killRegs a kills) d v).slot y = a.slot y := by
  rw [killRegs_frame]
  cases d <;> cases y <;> rfl

theorem retiredArch_other (budget : Nat) (a : Arch) (x : PcSlot) (r : Retire) (v : DWord) :
    (retiredArch budget a x r v).slot (otherSlot x) = a.slot (otherSlot x) := by
  simp [retiredArch, writeScalar_killRegs_slot]

theorem retireSlot_mem (s : State) (g : Gang) (x : PcSlot) (r : Retire) (v : DWord) : (retireSlot s g x r v).mem = s.mem := rfl

end Sys2Proof.Machine

namespace Sys2Proof
open Machine

section
variable {h : Head} {s : State} {c : Ctx}

/-! ## JOIN (R219) -/

section
variable (henters : Enters s alwaysGuard c)
include henters

theorem exec_join_of_none (hnone : c.slot.join = none) : exec (.join h) s = .next (afterCommit c (c.a.advance c.x)) := by
  change execJoin h s = _
  rw [execJoin, show ({ neg := false, p := 7 } : Guard) = alwaysGuard from rfl, issue_eq henters.here henters.clean]
  simp only [hnone]
  exact commit_afterCommit rfl

theorem exec_join {j : Nat} (hjoin : c.slot.join = some j) :
    exec (.join h) s = if (entryAt c.a j).kind = .join ∧ (entryAt c.a j).pc = c.pc then .next (afterCommit c (arrive c.a c.x j))
      else .next (afterCommit c (c.a.advance c.x)) := by
  change execJoin h s = _
  rw [execJoin, show ({ neg := false, p := 7 } : Guard) = alwaysGuard from rfl, issue_eq henters.here henters.clean]
  simp only [hjoin]
  rw [commitWith_afterCommit (heldSlots_arrive _ _ _), commit_afterCommit rfl]

end

/-! ## The registers after an arrival (R211, R212) -/

section
variable {a : Arch} {x : PcSlot} {j : Nat}

theorem topPath_arrived (n : Nat) : topPath (withEntry a j (arrivedEntry a x j)) n = topPath a n :=
  topPath_withEntry (e := arrivedEntry a x j) rfl n

/-- An arrival before the last leaves its lanes and one arrival fewer in the join's entry. -/
theorem entryAt_arrive_of_more (hkind : (entryAt a j).kind = .join) (hmore : 1 < (entryAt a j).link) :
    entryAt (arrive a x j) j = arrivedEntry a x j := by
  have hentry : entryAt (withEntry a j (arrivedEntry a x j)) j = arrivedEntry a x j := by rw [entryAt_withEntry, if_pos rfl]
  rw [arrive_of_more x hmore]
  unfold freeSlot
  split
  case h_1 => rw [entryAt_setSlot, hentry]
  case h_2 n hn =>
    have hpath := kind_of_topPath (Option.filter_eq_some_iff.mp hn).1
    have hne : j % 64 ≠ n % 64 := by
      intro e
      have : entryAt (withEntry a j (arrivedEntry a x j)) n = arrivedEntry a x j := by rw [entryAt_withEntry, if_pos e.symm]
      rw [this] at hpath
      exact absurd (hkind.symm.trans hpath) (by decide)
    rw [entryAt_setSlot, entryAt_killEntry, if_neg hne, hentry]

theorem arrive_of_more_noPath (hmore : 1 < (entryAt a j).link) (hnone : topPath a a.sp = none) :
    ((arrive a x j).slot x).live = false := by
  rw [arrive_of_more x hmore, freeSlot_of_noPath x ((topPath_arrived a.sp).trans hnone)]
  simp [Slot.free]

/-- The slot that frees itself at its join takes the topmost PATH entry. -/
theorem arrive_of_more_path {n : Nat} (hkind : (entryAt a j).kind = .join) (hmore : 1 < (entryAt a j).link) (hmode : a.mode = .running)
    (htop : topPath a a.sp = some n) :
    ((arrive a x j).slot x).live = true ∧ ((arrive a x j).slot x).pc = (entryAt a n).pc
      ∧ ((arrive a x j).slot x).mask = (entryAt a n).mask ∧ ((arrive a x j).slot x).join = some (entryAt a n).link := by
  have hne : n % 64 ≠ j % 64 := by
    intro e
    have : entryAt a n = entryAt a j := by rw [entryAt, entryAt, show Fin.ofNat 64 n = Fin.ofNat 64 j from Fin.ext e]
    rw [← this, kind_of_topPath htop] at hkind
    cases hkind
  have hentry : entryAt (withEntry a j (arrivedEntry a x j)) n = entryAt a n := by rw [entryAt_withEntry, if_neg hne]
  rw [arrive_of_more x hmore, freeSlot_of_path x (show (withEntry a j (arrivedEntry a x j)).mode = .running from hmode)
    ((topPath_arrived a.sp).trans htop), hentry]
  simp

theorem arrive_of_last_slot (hlink : (entryAt a j).link = 1) (hmask : (entryAt a j).mask ||| (a.slot x).mask ≠ 0#32) :
    (arrive a x j).slot x = { a.slot x with mask := (entryAt a j).mask ||| (a.slot x).mask, pc := (entryAt a j).pc + 12#32,
                                            join := (entryAt a j).parent }
      ∧ (entryAt (arrive a x j) j).kind = .dead := by
  rw [arrive_of_last x hlink hmask]
  simp [entryAt_killEntry]

end

/-! ## EXIT (R221) -/

section
variable (henters : Enters s h.guard c)
include henters

theorem exec_exit_of_trap (hmode : c.a.mode = .trap) (hclear : c.clear = true) :
    exec (.exit h) s = .next (failGang s c.g 2 c.a.tcause (entryPc c.a)) := by
  change execExit h s = _
  rw [execExit, issue_eq henters.here henters.clean, ← henters.state_eq]
  simp only [hmode, if_true, Ctx.afterRisk, hclear]
  rfl

theorem exec_exit_of_running (hmode : c.a.mode = .running) :
    exec (.exit h) s = if c.act = 0#32 then .next (afterCommit c (c.a.advance c.x)) else .next (afterCommit c (exitArch c)) := by
  have hne : c.a.mode ≠ .trap := by simp [hmode]
  change execExit h s = _
  rw [execExit, issue_eq henters.here henters.clean]
  simp only [hne, if_false]
  rw [commitWith_afterCommit (heldSlots_exitArch _), commit_afterCommit rfl]

/-! ## YIELD and SLEEP (R222) -/

theorem exec_yield (hact : c.act ≠ 0#32) :
    exec (.yield h) s = .next (afterCommit c ((c.a.setSlot c.x { c.slot with stamp := s.tick + 1 }).advance c.x)) := by
  change execYield h s = _
  rw [execYield, issue_eq henters.here henters.clean, if_neg hact, henters.state_eq]
  exact commit_afterCommit (heldSlots_setSlot _ _ _)

variable (hact : c.act ≠ 0#32) (hpipe : c.a.pipeErr = none)
include hact hpipe

theorem exec_sleep_zero :
    exec (.sleep h .zero) s = .next (afterCommit c ((killRegs c.a (headKills h .zero .zero .zero)).advance c.x)) := by
  change execSleep h .zero s = _
  rw [execSleep, wholeOp_of_runs _ _ henters hact hpipe (wholeOp_zero_live c.a) (by rfl)]
  exact commit_afterCommit (by rw [killRegs_headKills_zero])

theorem exec_sleep {n : Fin 64} {x : DWord} (hsreg : c.a.sreg n = some x) (hpoison : wordPoison c.a (.s n) = false)
    (hx : (x.setWidth 32 : BitVec 32) ≠ 0#32) :
    exec (.sleep h (.s n)) s = .next (c.put (c.a.setWait c.x
      (.sleep (dieTick s c.g.id.die + (x.setWidth 32 : BitVec 32).toNat) (retireOf .zero (headKills h (.s n) .zero .zero))))) := by
  have hvalue : scalarOf c (.s n) = x := by simp [scalarOf, hsreg]
  have hne : (x.setWidth 32 : BitVec 32).toNat ≠ 0 := fun e => hx (BitVec.eq_of_toNat_eq e)
  change execSleep h (.s n) s = _
  rw [execSleep, wholeOp_of_runs _ _ henters hact hpipe (by simp [liveIn, hsreg]) (by simp [hpoison])]
  simp only [hvalue, hne, if_false, henters.state_eq]

end

/-! ## SLEEP_EXPIRY (R222) -/

variable {g : Gang} {x : PcSlot} {n : Nat} {r : Retire} (hg : findGang s g.id = some g) (hwait : (g.arch.slot x).wait = .sleep n r)
include hg hwait

theorem exec_sleepExpiry_early (hearly : dieTick s g.id.die < n) : exec (.sleepExpiry g.id x) s = .next s := by
  change execSleepExpiry g.id x s = _
  simp [execSleepExpiry, hg, hwait, Nat.not_le.mpr hearly, idle]

theorem exec_sleepExpiry_due (hdue : n ≤ dieTick s g.id.die) (hhalted : g.halted = false) (hlive : (g.arch.slot x).live = true)
    (hready : modeReady g.arch x = true) : exec (.sleepExpiry g.id x) s = .next (retireSlot s g x r 0#64) := by
  change execSleepExpiry g.id x s = _
  simp [execSleepExpiry, hg, hwait, hdue, hhalted, hlive, hready]

end

/-- Settles O18: a JOIN commits `arrive` or moves on, an EXIT commits `exitArch` or ends its gang; an arrival is the last or one of
more, and one of more frees the slot. -/
theorem joinAndExit : Obligations.JoinAndExit := by
  refine ⟨fun h s c henters => ⟨exec_join_of_none henters, fun j hjoin _ => ⟨?away, fun hkind hpc => ⟨?arrives, ?more, ?last⟩⟩⟩,
    fun h s c henters => ⟨fun hmode => ⟨?exitNone, ?exits, ?stays, ?frees, ?joins⟩, ?ends⟩⟩
  case away =>
    intro haway
    rw [exec_join henters hjoin, if_neg (by tauto)]
  case arrives => rw [exec_join henters hjoin, if_pos ⟨hkind, hpc⟩]
  case more =>
    intro hmore
    rw [entryAt_arrive_of_more hkind hmore]
    exact ⟨rfl, rfl, arrive_of_more_noPath hmore, fun n hmode htop _ => arrive_of_more_path hkind hmore hmode htop⟩
  case last => exact arrive_of_last_slot
  case exitNone =>
    intro hact
    rw [exec_exit_of_running henters hmode, if_pos hact]
  case exits =>
    intro hact
    rw [exec_exit_of_running henters hmode, if_neg hact]
  case stays =>
    intro hrest
    simp [exitArch, hrest]
  case frees =>
    intro hall hnone htop
    have htop' : topPath (c.a.setSlot c.x { c.slot with mask := 0#32, pc := c.pc + 12#32 }) c.a.sp = none := by
      rw [topPath_setSlot]; exact htop
    simp only [exitArch, hall, ne_eq, not_true_eq_false, if_false, hnone]
    rw [freeSlot_of_noPath c.x (by simpa using htop'), Arch.slot_setSlot_same]
    rfl
  case joins =>
    intro j hall hjoin
    simp [exitArch, hall, hjoin]
  case ends =>
    intro hmode hclear
    refine ⟨exec_exit_of_trap henters hmode hclear, ?_, fun b hb => ⟨_, findBlock_failGang _ _ _ hb, rfl⟩⟩
    rw [findGang_failGang, if_pos rfl]

/-- Settles O19: YIELD and SLEEP commit or wait as their rule says, and SLEEP_EXPIRY retires the SLEEP once its deadline is reached. -/
theorem yieldAndSleep : Obligations.YieldAndSleep := by
  refine ⟨fun h s c henters hact => ⟨exec_yield henters hact, fun hpipe => ⟨exec_sleep_zero henters hact hpipe, ?sleeps⟩⟩,
    fun s g x n r hg hwait => ⟨exec_sleepExpiry_early hg hwait, fun hdue hhalted hlive hready => ?expires⟩⟩
  case sleeps => exact fun n x hsreg hpoison hx => exec_sleep henters hact hpipe hsreg hpoison hx
  case expires =>
    refine ⟨_, _, exec_sleepExpiry_due hg hwait hdue hhalted hlive hready, findGang_retireSlot hg x r 0#64, ?_⟩
    rw [retiredArch_slot, retiredArch_other]
    exact ⟨rfl, rfl, rfl, rfl, retireSlot_mem s g x r 0#64⟩

end Sys2Proof

/-!
JMPI (R218), and what the reads of its table leave: caches and page state change, issued instructions do not.
-/
namespace Sys2Proof.Machine

/-! ## Reads leave the issued instructions as they are -/

/-- The issued instructions and the number of the next. -/
def issuedOf (s : State) : List Pend × Nat := (s.pend, s.nextOp)

@[simp] theorem modDie_issued (s : State) (d : Nat) (f : Die → Die) : issuedOf (modDie s d f) = issuedOf s := rfl
@[simp] theorem modCore_issued (s : State) (d k : Nat) (f : CoreSt → CoreSt) : issuedOf (modCore s d k f) = issuedOf s := by
  simp [issuedOf]
@[simp] theorem modCluster_issued (s : State) (d k : Nat) (f : ClusterSt → ClusterSt) : issuedOf (modCluster s d k f) = issuedOf s := by
  simp [issuedOf]
@[simp] theorem noteL1Lease_issued (s : State) (die line end_ : Nat) : issuedOf (noteL1Lease s die line end_) = issuedOf s := rfl

@[simp] theorem putSheet_issued (s : State) (die : Nat) (x : Sheet) : issuedOf (putSheet s die x) = issuedOf s := rfl

@[simp] theorem setSharer_issued (s : State) (pa die : Nat) : issuedOf (setSharer s pa die) = issuedOf s := by
  unfold setSharer modHomePage
  split <;> rfl

@[simp] theorem replaceSheet_issued (s : State) (die : Nat) (x : Sheet) : issuedOf (replaceSheet s die x) = issuedOf s := by
  have hnotice : ∀ (u : State) (b : Bool) (m : Msg), issuedOf (if b then u else { u with msgs := u.msgs ++ [m] }) = issuedOf u := by
    intro u b m
    cases b <;> rfl
  unfold replaceSheet
  dsimp only
  rw [hnotice]
  split <;> rfl

@[simp] theorem makeRoom_issued (s : State) (die sh : Nat) : issuedOf (makeRoom s die sh) = issuedOf s := by
  unfold makeRoom
  split
  · rfl
  · split <;> simp

@[simp] theorem supplyLine_issued (s : State) (die line : Nat) : issuedOf (supplyLine s die line) = issuedOf s := by
  unfold supplyLine
  split <;> simp

@[simp] theorem askRoom_issued (s : State) (die : Nat) : issuedOf (askRoom s die) = issuedOf s := by
  unfold askRoom
  split <;> rfl

@[simp] theorem rdcWrite_issued (s : State) (die sh : Nat) (m : BitVec 256) (data : BitVec 2048) (psn : BitVec 64) : issuedOf (rdcWrite s die sh m data psn) = issuedOf s := by
  simp [rdcWrite]

@[simp] theorem flushLine_issued (s : State) (die cl : Nat) (x : LeasedLine) : issuedOf (flushLine s die cl x) = issuedOf s := by
  unfold flushLine
  split <;> simp

@[simp] theorem evictLine_issued (s : State) (die cl line : Nat) : issuedOf (evictLine s die cl line) = issuedOf s := by
  unfold evictLine
  dsimp only
  split <;> simp

@[simp] theorem fitCluster_issued (s : State) (die cl line : Nat) : issuedOf (fitCluster s die cl line) = issuedOf s := by
  unfold fitCluster
  dsimp only
  split
  · rfl
  · split <;> simp

@[simp] theorem clusterFill_issued (s : State) (die cl line len : Nat) (pol : Policy) : issuedOf (clusterFill s die cl line len pol) = issuedOf s := by
  unfold clusterFill
  dsimp only
  split
  · split <;> simp
  · simp [rdcServe, rdcRead]

@[simp] theorem clusterServe_issued (s : State) (die cl line len : Nat) (pol : Policy) :
    issuedOf (clusterServe s die cl line len pol).1 = issuedOf s := by
  simp [clusterServe, clusterRead]

@[simp] theorem fitL1_issued (s : State) (die core line : Nat) : issuedOf (fitL1 s die core line) = issuedOf s := by
  unfold fitL1
  dsimp only
  split <;> simp

@[simp] theorem l1Read_fetch_issued (s : State) (die core line len : Nat) (pol : Policy) :
    issuedOf (l1Read.fetch s die core line len pol).1 = issuedOf s := by
  simp [l1Read.fetch]

@[simp] theorem l1Read_issued (s : State) (die core line len : Nat) (pol : Policy) : issuedOf (l1Read s die core line len pol).1 = issuedOf s := by
  unfold l1Read
  split
  · split
    · dsimp only; split <;> simp
    · simp
  · simp

@[simp] theorem readTarget_issued (s : State) (id : GangId) (ctx : Nat) (pol : Policy) (t : Target) (n : Nat) :
    issuedOf (readTarget s id ctx pol t n).1 = issuedOf s := by
  unfold readTarget
  split
  · rfl
  · split <;> simp [loadNt, loadL1, rdcRead]
  · rfl
  · rfl
  · split <;> rfl
  · rfl

@[simp] theorem translate_issued (s : State) (die ctx : Nat) (va : BitVec 64) (n : Nat) (k : Access) :
    issuedOf (translate s die ctx va n k).1 = issuedOf s := by
  have hleaf : ∀ reach, issuedOf (leafBy s reach die ctx va).1 = issuedOf s := by
    intro reach
    unfold leafBy
    split
    · rfl
    · split <;> rfl
  unfold translate translateBy
  split
  · rfl
  · split
    · rfl
    · dsimp only
      split
      · exact hleaf _
      · exact hleaf _
      · split
        · exact hleaf _
        · split
          · exact hleaf _
          · split
            · exact hleaf _
            · split <;> exact hleaf _

@[simp] theorem spaceTarget_issued (s : State) (g : Gang) (sp : Space) (va : BitVec 64) (n : Nat) (k : Access) :
    issuedOf (spaceTarget s g sp va n k).1 = issuedOf s := by
  unfold spaceTarget
  split
  · rfl
  · cases sp <;> dsimp only
    · simp
    · split <;> rfl
    · split
      · rfl
      · split <;> rfl
    · split
      · rfl
      · split <;> simp
    · split <;> simp

@[simp] theorem checkLanes_issued (s : State) (g : Gang) (sp : Space) (size : Nat) (k : Access) (l : List (Nat × BitVec 64)) :
    issuedOf (checkLanes s g sp size k l).1 = issuedOf s := by
  induction l generalizing s with
  | nil => rfl
  | cons x rest ih => simp [checkLanes, ih]

@[simp] theorem tableWords_issued (s : State) (g : Gang) (l : List (Nat × BitVec 64 × Target)) :
    issuedOf (tableWords s g l).1 = issuedOf s := by
  induction l generalizing s with
  | nil => rfl
  | cons x rest ih => simp [tableWords, ih]

/-- Whether an older instruction may still trap depends on the issued instructions alone. -/
theorem clear_withState {c : Ctx} {t : State} (h : issuedOf t = issuedOf c.s) : ({ c with s := t } : Ctx).clear = c.clear := by
  obtain ⟨hpend, hnext⟩ := Prod.mk.inj h
  simp only [Ctx.clear, olderRisk, Ctx.op, Ctx.begun, begunIn, hpend, hnext]
  rfl

/-! ## JMPI (R218) -/

@[simp] theorem heldSlots_pushEntry (a : Arch) (e : Entry) : heldSlots (pushEntry a e) = heldSlots a := rfl

@[simp] theorem heldSlots_pushPaths (a : Arch) (j : Nat) (gs : List (BitVec 64 × Mask)) : heldSlots (pushPaths a j gs) = heldSlots a := by
  induction gs with
  | nil => rfl
  | cons g rest ih => simpa [pushPaths] using ih

@[simp] theorem heldSlots_jmpiArch (c : Ctx) (a : Arch) (jpc : BitVec 64) (gs : List (BitVec 64 × Mask)) :
    heldSlots (jmpiArch c a jpc gs) = heldSlots a := by
  unfold jmpiArch
  cases gs with
  | nil => rfl
  | cons g1 rest =>
    dsimp only
    rw [heldSlots_setSlot]
    split <;> simp

end Sys2Proof.Machine

namespace Sys2Proof
open Machine

section
variable {h : Head} {n : Fin 64} {b : Opnd} {countM1 : BitVec 8} {join : BitVec 16} {s : State} {c : Ctx}
  (henters : Enters s h.guard c) (hact : c.act ≠ 0#32) (hlive : deadCheck c.a (single [.v n, b]) = none)
  (hclean : wordPoison c.a b = false) (hclear : c.clear = true) (hread : readCheck c.a c.act (single [.v n]) = none)
include henters hact hlive hclean hread

/-- JMPI with its sources checked: the indices' range comes first. -/
theorem exec_jmpi_of_range {y : Halt} (hrange : jmpiRange c (.v n) countM1 = some y) :
    exec (.jmpi h (.v n) b countM1 join) s = c.halt y := by
  change execJmpi h (.v n) b countM1 join s = _
  have hv : wordPoison c.a (.v n) = false := rfl
  have hpoison : [Opnd.v n, b].any (wordPoison c.a) = false := by simp [hclean, hv]
  rw [execJmpi, wholeOp, issue_eq henters.here henters.clean]
  simp only [hlive, hact, if_false, hpoison, hread, hrange, firstHalt]
  rfl

/-- With every index in range and its table words read, the targets decide where the lanes go. -/
theorem exec_jmpi_of_reads {r : State × List (Nat × Word) × Bool} (hrange : jmpiRange c (.v n) countM1 = none)
    (hreads : JmpiReads c (.v n) b r) (hwords : r.2.2 = false) :
    exec (.jmpi h (.v n) b countM1 join) s
      = jmpiGo { c with s := r.1 } (killRegs c.a (headKills h (.v n) b .zero)) join r.2.1 := by
  obtain ⟨hpass, hreach, rfl⟩ := hreads
  have hv : wordPoison c.a (.v n) = false := rfl
  have hpoison : [Opnd.v n, b].any (wordPoison c.a) = false := by simp [hclean, hv]
  have hfind : (passing (checkLanes c.s c.g .const 4 .read (jmpiAddrs c (.v n) b)).2).find?
      (fun x => !loadReach (checkLanes c.s c.g .const 4 .read (jmpiAddrs c (.v n) b)).1 c.g.id .normal x.2.2) = none := by
    rw [List.find?_eq_none]
    intro x hx
    simp [hreach x hx]
  change execJmpi h (.v n) b countM1 join s = _
  rw [execJmpi, wholeOp, issue_eq henters.here henters.clean]
  simp only [hlive, hact, if_false, hpoison, hread, hrange, firstHalt, hpass, hfind, hwords]
  rfl

end

/-! ## Where the lanes go -/

theorem firstHalt_targets {c : Ctx} {ws : List (Nat × Word)} (hok : ∀ w ∈ ws, targetOk (w.2.signExtend 64) (codeLength c) = true) :
    firstHalt (ws.map fun w => targetCheck c (w.2.signExtend 64)) = none := by
  induction ws with
  | nil => rfl
  | cons w rest ih =>
    rw [List.map_cons, targetCheck_of_ok (hok w List.mem_cons_self)]
    exact ih fun x hx => hok x (List.mem_cons_of_mem w hx)

section
variable {c : Ctx} {a : Arch} {join : BitVec 16} {ws : List (Nat × Word)} {gs : List (BitVec 64 × Mask)}
  (hclear : c.clear = true) (hslots : heldSlots a ≤ heldSlots c.a)
  (hok : ∀ w ∈ ws, targetOk (w.2.signExtend 64) (codeLength c) = true) (hgs : gs = jmpiGroups (jmpiTarget c ws) (lanesIn c.slot.mask) [])
include hclear hslots hok hgs

theorem jmpiGo_of_one {g : BitVec 64 × Mask} (hone : gs = [g]) : jmpiGo c a join ws = .next (afterCommit c (setPc a c.x g.1)) := by
  rw [jmpiGo, firstHalt_targets hok]
  simp only [← hgs, hone]
  exact commitWith_of_le (.inr hclear) (by simpa using hslots) id

theorem jmpiGo_of_more (hmore : 2 ≤ gs.length) (hjoin : targetOk (relTarget c.pc join) (codeLength c) = true)
    (hroom : a.sp + gs.length + (if otherFree c then 0 else 1) ≤ 65) :
    jmpiGo c a join ws = .next (afterCommit c (jmpiArch c a (relTarget c.pc join) gs)) := by
  rw [jmpiGo, firstHalt_targets hok]
  simp only [← hgs]
  split
  case h_1 g => simp at hmore
  case h_2 =>
    simp only [targetCheck_of_ok hjoin, gt_iff_lt, Nat.not_lt.mpr hroom, if_false]
    exact commitWith_of_le (.inr hclear) (by simpa using hslots) id

end

/-- Settles O17: an index out of range stops JMPI before any lane moves; otherwise the groups of equal targets decide, and what the
reads of the table have cached leaves open no trap of an older instruction. -/
theorem indexedJump : Obligations.IndexedJump := by
  intro h n b countM1 join s c henters hact hlive hclean hclear hread
  refine ⟨fun l hl => ?range, fun r hin hreads hwords hok gs hgs => ?goes⟩
  case range =>
    have hrange : jmpiRange c (.v n) countM1
        = some (.trap cJmpRange ((BitVec.ofNat 64 l <<< (32 : Nat)) ||| (laneOf c (.v n) l).setWidth 64) 0#5) := by
      simp only [jmpiRange, hl]
    rw [exec_jmpi_of_range henters hact hlive hclean hread hrange, ← henters.state_eq]
    exact halt_trap_of_clear hclear _ _ _
  case goes =>
    have hrange : jmpiRange c (.v n) countM1 = none := by
      have hfind : (lanesIn c.act).find? (fun l => decide ((laneOf c (.v n) l).toNat > countM1.toNat)) = none := by
        rw [List.find?_eq_none]
        intro l hl
        simpa using hin l hl
      simp only [jmpiRange, hfind]
    have hissued : issuedOf r.1 = issuedOf c.s := by
      obtain ⟨-, -, rfl⟩ := hreads
      rw [tableWords_issued, checkLanes_issued]
    have hclear' : ({ c with s := r.1 } : Ctx).clear = true := (clear_withState hissued).trans hclear
    have hslots : heldSlots (killRegs c.a (headKills h (.v n) b .zero)) ≤ heldSlots ({ c with s := r.1 } : Ctx).a := heldSlots_killRegs _ _
    have hsp : (killRegs c.a (headKills h (.v n) b .zero)).sp = c.a.sp := by rw [killRegs_frame]
    rw [exec_jmpi_of_reads henters hact hlive hclean hread hrange hreads hwords]
    refine ⟨fun g hone => jmpiGo_of_one hclear' hslots hok hgs hone, fun hmore hjoin hroom => ?_⟩
    exact jmpiGo_of_more hclear' hslots hok hgs hmore hjoin (by rw [hsp]; exact hroom)

end Sys2Proof

/-!
The ends of gangs and of die groups (R196-R201, R207, R276).
-/
namespace Sys2Proof.Machine

section
variable {s : State} {g : Gang} (hg : findGang s g.id = some g) (hover : gangOver s g = true)
include hg hover

/-- A gang that is over and whose posted writes have met nothing ends, or begins again where it is a dispatcher's. -/
theorem exec_gangEnd_of_clean (hposted : g.posted = []) (hfence : g.fenceFault = none) :
    exec (.gangEnd g.id) s = .next (if g.dispatcher then restartGang s g else removeGang s g.id) := by
  change execGangEnd g.id s = _
  simp only [execGangEnd, hg, hover, hposted, hfence]
  cases g.dispatcher <;> rfl

theorem exec_gangEnd_of_fault {f : BitVec 8 × BitVec 64}
    (hfault : worstFault (g.posted.map (fun x => (x.cause, x.tval)) ++ g.fenceFault.toList) = some f) :
    exec (.gangEnd g.id) s = .next (failGang s g stFailedKilled (if f.1 = cTimeout then cTimeout else 0#8) 0#32) := by
  change execGangEnd g.id s = _
  simp only [execGangEnd, hg, hover, hfault]
  rfl

end

/-- A dispatcher's gang that begins again stands at its kernel's entry (R207). -/
theorem findGang_restartGang {s : State} {g : Gang} {k : Kernel} (hg : findGang s g.id = some g) (hk : ownKernel s g = some k) (id : GangId) :
    findGang (restartGang s g) id
      = if id = g.id then some (newGang g.id g.ctx g.block g.index true g.budget g.noborrow k.entry s.tick) else findGang s id := by
  rw [restartGang, hk]
  exact findGang_putGang s g (newGang g.id g.ctx g.block g.index true g.budget g.noborrow k.entry s.tick) hg id

/-! ## Die groups (R197, R198) -/

/-- The failure of a group's end that no gang of it has met: its release's, or that it could not be placed (R197, R204). -/
def groupFailure (s : State) (d : DieGroup) (status : Nat) : Failure :=
  { status := status, cause := 0#8, pc := 0#32, tick := s.tick, die := d.die, core := 0, kind := 0, sub := 0, seq := 0 }

/-- The failure that a die group reports. -/
def reportedFailure (s : State) (d : DieGroup) (t : Task) : Option Failure :=
  match d.fail, t.fault, d.tooLarge with
  | some f, _, _ => some f
  | none, some f, _ => some (groupFailure s d (if f.1 = cTimeout then stTimeout else stHomeLost))
  | none, none, true => some (groupFailure s d stTooLarge)
  | none, none, false => none

/-- What a launch takes from a die group that has ended (R198). -/
def Launch.report (l : Launch) (d : DieGroup) (fail : Option Failure) : Launch :=
  { l with dies := l.dies.filter (fun j => decide (j ≠ d.die)), faults := l.faults + d.faults,
           fail := match fail with
             | some f => addFailure l.fail f
             | none => l.fail }

/-- The machine without a die group and without the release of its end. -/
def dropGroup (s : State) (u id : Nat) : State := dropTask { s with groups := s.groups.filter fun x => decide (x.uid ≠ u) } id

theorem findGroup_dropGroup (s : State) (u id : Nat) : findGroup (dropGroup s u id) u = none := by
  simp [findGroup, dropGroup, dropTask]

theorem findTask_dropGroup (s : State) (u id : Nat) : findTask (dropGroup s u id) id = none := by
  simp [findTask, dropGroup, dropTask]

theorem findLaunch_modLaunch {s : State} {u : Nat} {l : Launch} (f : Launch → Launch) (hf : ∀ l, (f l).uid = l.uid)
    (hl : findLaunch s u = some l) : findLaunch (modLaunch s u f) u = some (f l) := by
  have h := find?_map_update (fun l : Launch => l.uid) s.launches u u f (fun l hl => (hf l).trans hl)
  rw [if_pos rfl] at h
  exact h.trans (congrArg (Option.map f) hl)

section
variable {s : State} {d : DieGroup} {k : Task} (hd : findGroup s d.uid = some d) (htask : d.task = some k.id)
  (hk : findTask s k.id = some k) (hstage : k.stage = 6)
include hd htask hk hstage

theorem exec_dieGroupDone_eq : exec (.dieGroupDone d.uid) s = .next (match d.launch with
    | none => dropGroup s d.uid k.id
    | some u => modLaunch (dropGroup s d.uid k.id) u fun l => l.report d (reportedFailure s d k)) := by
  change execDieGroupDone d.uid s = _
  simp only [execDieGroupDone, hd, htask, hk, hstage, ne_eq, not_true_eq_false, if_false]
  cases d.launch <;> rfl

end

end Sys2Proof.Machine

namespace Sys2Proof
open Machine

/-- Settles O42: a gang that is over is removed, begun again or fails; a die group whose release is over reports to its launch. -/
theorem endsOfWork : Obligations.EndsOfWork := by
  refine ⟨fun s g hg hover => ⟨?ends, ?again, ?killed⟩, fun s d k hd htask hk hstage => ⟨?alone, ?launched⟩⟩
  case ends =>
    intro hposted hfence hplain
    refine ⟨removeGang s g.id, ?_, ?_, rfl, fun id hid => ?_⟩
    · rw [exec_gangEnd_of_clean hg hover hposted hfence, hplain]; rfl
    · rw [findGang_removeGang, if_pos rfl]
    · rw [findGang_removeGang, if_neg hid]
  case again =>
    intro k hposted hfence hdispatcher hkernel
    refine ⟨restartGang s g, newGang g.id g.ctx g.block g.index true g.budget g.noborrow k.entry s.tick, ?_, ?_, rfl, rfl, rfl, rfl, rfl,
      fun id hid => ?_⟩
    · rw [exec_gangEnd_of_clean hg hover hposted hfence, hdispatcher]; rfl
    · rw [findGang_restartGang hg hkernel, if_pos rfl]
    · rw [findGang_restartGang hg hkernel, if_neg hid]
  case killed =>
    intro f b hfault hb
    refine ⟨_, _, exec_gangEnd_of_fault hg hover hfault, ?_, findBlock_failGang _ _ _ hb, rfl, fun hnone => ?_⟩
    · rw [findGang_failGang, if_pos rfl]
    · exact ⟨_, by rw [abandon, hnone]; rfl, rfl, rfl, rfl⟩
  case alone =>
    intro hlaunch
    refine ⟨dropGroup s d.uid k.id, ?_, findGroup_dropGroup s d.uid k.id, findTask_dropGroup s d.uid k.id, rfl⟩
    rw [exec_dieGroupDone_eq hd htask hk hstage, hlaunch]
  case launched =>
    intro u l hlaunch hl
    refine ⟨modLaunch (dropGroup s d.uid k.id) u fun l => l.report d (reportedFailure s d k), l.report d (reportedFailure s d k), ?_,
      findGroup_dropGroup s d.uid k.id, findTask_dropGroup s d.uid k.id, ?_, ?_, rfl, ?_, ?_, ?_, ?_, ?_⟩
    · rw [exec_dieGroupDone_eq hd htask hk hstage, hlaunch]
    · exact findLaunch_modLaunch (s := dropGroup s d.uid k.id) (fun l => l.report d (reportedFailure s d k)) (fun _ => rfl) hl
    · simp [Launch.report]
    · intro f hf hnone
      simp [Launch.report, reportedFailure, hf, hnone, addFailure]
    · intro hf hfault hfits
      simp [Launch.report, reportedFailure, hf, hfault, hfits]
    · intro v hf hfault hnone
      exact ⟨groupFailure s d stHomeLost, by simp [Launch.report, reportedFailure, hf, hfault, hnone, addFailure, cTimeout], rfl⟩
    · intro v hf hfault hnone
      exact ⟨groupFailure s d stTimeout, by simp [Launch.report, reportedFailure, hf, hfault, hnone, addFailure, cTimeout], rfl⟩
    · intro hf hfault hlarge hnone
      exact ⟨groupFailure s d stTooLarge, by simp [Launch.report, reportedFailure, hf, hfault, hlarge, hnone, addFailure], rfl⟩

end Sys2Proof

/-!
SPAWN, MBXRD and MBXFWD (R223-R226), with what a begun instruction leaves at its end.
-/
namespace Sys2Proof.Machine

/-! ## Lists of units that are listed once they are touched -/

/-- The unit with a key; one that is not listed is as its default. -/
def lookupOr {α κ : Type} [DecidableEq κ] (key : α → κ) (dflt : κ → α) (l : List α) (k : κ) : α :=
  (l.find? fun x => decide (key x = k)).getD (dflt k)

/-- Update the unit with a key, listing it if it was not. -/
def updateOr {α κ : Type} [DecidableEq κ] (key : α → κ) (dflt : κ → α) (l : List α) (k : κ) (f : α → α) : List α :=
  if l.any fun x => decide (key x = k) then l.map fun x => if key x = k then f x else x else l ++ [f (dflt k)]

theorem lookupOr_updateOr {α κ : Type} [DecidableEq κ] {key : α → κ} {dflt : κ → α} (hdflt : ∀ k, key (dflt k) = k) (l : List α) (k k' : κ)
    {f : α → α} (hf : ∀ x, key (f x) = key x) :
    lookupOr key dflt (updateOr key dflt l k f) k' = if k' = k then f (lookupOr key dflt l k) else lookupOr key dflt l k' := by
  unfold lookupOr updateOr
  split
  case isTrue hany =>
    rw [find?_map_update key l k k' f fun x hx => (hf x).trans hx]
    split
    · have hsome : (l.find? fun x => decide (key x = k)).isSome = true := List.find?_isSome.mpr (List.any_eq_true.mp hany)
      obtain ⟨y, hy⟩ := Option.isSome_iff_exists.mp hsome
      rw [hy]
      rfl
    · rfl
  case isFalse hany =>
    have hnone : (l.find? fun x => decide (key x = k)) = none := by
      rw [List.find?_eq_none]
      intro x hx hk
      exact hany (List.any_eq_true.mpr ⟨x, hx, hk⟩)
    have hnew : key (f (dflt k)) = k := (hf _).trans (hdflt k)
    rw [List.find?_append]
    split
    case isTrue h => subst h; simp [hnone, hnew]
    case isFalse h =>
      have hne : ¬ k = k' := fun e => h e.symm
      simp [hnew, hne]

/-! ### Cores -/

def coreKey (c : CoreSt) : Nat × Nat := (c.die, c.core)

theorem getCore_eq_lookupOr (s : State) (die core : Nat) :
    getCore s die core = lookupOr coreKey (fun k => CoreSt.empty k.1 k.2) s.cores (die, core) := by
  unfold getCore lookupOr
  simp only [coreKey, Prod.mk.injEq, Bool.decide_and]
  generalize List.find? _ _ = found
  cases found <;> rfl

theorem modCore_cores (s : State) (die core : Nat) (f : CoreSt → CoreSt) :
    (modCore s die core f).cores = updateOr coreKey (fun k => CoreSt.empty k.1 k.2) s.cores (die, core) f := by
  unfold modCore updateOr
  simp only [coreKey, Prod.mk.injEq, Bool.decide_and]
  split <;> rfl

theorem getCore_modCore (s : State) (die core die' core' : Nat) {f : CoreSt → CoreSt} (hf : ∀ c, coreKey (f c) = coreKey c) :
    getCore (modCore s die core f) die' core' = if (die', core') = (die, core) then f (getCore s die core) else getCore s die' core' := by
  simp only [getCore_eq_lookupOr, modCore_cores]
  exact lookupOr_updateOr (fun _ => rfl) _ _ _ hf

/-! ### Mailboxes -/

def mailKey (m : Mailbox) : Nat × Nat := (m.die, m.ctx)

theorem getMailbox_eq_lookupOr (s : State) (die ctx : Nat) :
    getMailbox s die ctx = lookupOr mailKey (fun k => Mailbox.empty k.1 k.2) s.mailboxes (die, ctx) := by
  unfold getMailbox lookupOr
  simp only [mailKey, Prod.mk.injEq, Bool.decide_and]
  generalize List.find? _ _ = found
  cases found <;> rfl

theorem modMailbox_mailboxes (s : State) (die ctx : Nat) (f : Mailbox → Mailbox) :
    (modMailbox s die ctx f).mailboxes = updateOr mailKey (fun k => Mailbox.empty k.1 k.2) s.mailboxes (die, ctx) f := by
  unfold modMailbox updateOr
  simp only [mailKey, Prod.mk.injEq, Bool.decide_and]
  split <;> rfl

theorem getMailbox_congr {s t : State} (h : t.mailboxes = s.mailboxes) (die ctx : Nat) : getMailbox t die ctx = getMailbox s die ctx := by
  simp only [getMailbox_eq_lookupOr, h]

/-- An updated mailbox is read back. -/
theorem getMailbox_modMailbox (s : State) (die ctx : Nat) {f : Mailbox → Mailbox} (hf : ∀ m, mailKey (f m) = mailKey m) :
    getMailbox (modMailbox s die ctx f) die ctx = f (getMailbox s die ctx) := by
  simp only [getMailbox_eq_lookupOr, modMailbox_mailboxes]
  rw [lookupOr_updateOr (fun _ => rfl) _ _ _ hf, if_pos rfl]

@[simp] theorem modMailbox_gangs (s : State) (die ctx : Nat) (f : Mailbox → Mailbox) : (modMailbox s die ctx f).gangs = s.gangs := by
  unfold modMailbox; split <;> rfl
@[simp] theorem modMailbox_mem (s : State) (die ctx : Nat) (f : Mailbox → Mailbox) : (modMailbox s die ctx f).mem = s.mem := by
  unfold modMailbox; split <;> rfl
@[simp] theorem modMailbox_cores (s : State) (die ctx : Nat) (f : Mailbox → Mailbox) : (modMailbox s die ctx f).cores = s.cores := by
  unfold modMailbox; split <;> rfl

/-! ## Bytes of a scratchpad -/

theorem getCore_scratchWrite (s : State) (die core pos die' core' : Nat) (bytes : List Byte) :
    (getCore (scratchWrite s die core pos bytes) die' core').scratch
      = if (die', core') = (die, core) then cellsWrite (getCore s die core).scratch pos bytes else (getCore s die' core').scratch := by
  rw [scratchWrite, getCore_modCore]
  · split <;> rfl
  · exact fun _ => rfl

/-- A word of `n` bytes is below their bound. -/
theorem toNat_lt_bytes {n : Nat} (x : BitVec (8 * n)) : x.toNat < 256 ^ n := x.isLt.trans_eq (Nat.pow_mul 2 8 n)

/-- A number that has been written to a scratchpad reads back. -/
theorem scratchNat_scratchWrite {s : State} {die core : Nat} (hwf : Memory.wf (getCore s die core).scratch = true) (pos n x : Nat) :
    scratchNat (scratchWrite s die core pos (bytesOfNat n x)) die core pos n = x % 256 ^ n := by
  rw [scratchNat, getCore_scratchWrite, if_pos rfl, natOfBytes_cellsWrite hwf]

/-! ## Gangs -/

theorem findGang_congr {s t : State} (h : t.gangs = s.gangs) (id : GangId) : findGang t id = findGang s id := by
  rw [findGang, h]; rfl

theorem findGang_modGang (s : State) (id id' : GangId) {f : Gang → Gang} (hf : ∀ g, (f g).id = g.id) :
    findGang (modGang s id f) id' = if id' = id then (findGang s id).map f else findGang s id' :=
  find?_map_update (fun g : Gang => g.id) s.gangs id id' f fun g hg => (hf g).trans hg

/-- The gang of an instruction that enters, but for the handler's gate and a resumption, which its issue ends (R410, R416). -/
theorem entering_gang {s : State} {guard : Guard} {c : Ctx} (h : entering s guard = some c) :
    ∃ g r, findGang s c.g.id = some g ∧ c.g = { g with arch := { g.arch with trapGate := false, resume := r } } := by
  unfold entering at h
  split at h
  · cases h
  · rename_i g hg
    split at h
    · have hid : g.id = s.cur.g := by simpa using List.find?_some hg
      cases h
      exact ⟨g, _, by rw [← hid] at hg; exact hg, rfl⟩
    · cases h

/-! ## The end of a begun instruction (R91-R97) -/

@[simp] theorem wakeSlot_pc (sl : Slot) : (wakeSlot sl).pc = sl.pc := by unfold wakeSlot; split <;> rfl
@[simp] theorem wakeSlot_mask (sl : Slot) : (wakeSlot sl).mask = sl.mask := by unfold wakeSlot; split <;> rfl

theorem wakeSlot_of_none {sl : Slot} (h : sl.wait = .none) : wakeSlot sl = sl := by simp [wakeSlot, h]

/-- The registers with both slots woken. -/
def wokenArch (a : Arch) : Arch := { a with slotA := wakeSlot a.slotA, slotB := wakeSlot a.slotB }

@[simp] theorem wokenArch_slot (a : Arch) (x : PcSlot) : (wokenArch a).slot x = wakeSlot (a.slot x) := by cases x <;> rfl

/-- An access that is dropped wakes its gang's slots and leaves the gang's registers otherwise as they were. -/
theorem findGang_dropPend {s : State} {p : Pend} {g : Gang} (h : findGang s p.gang = some g) :
    ∃ g', findGang (dropPend s p) p.gang = some g' ∧ g'.arch = wokenArch g.arch := by
  have h' : findGang { s with pend := s.pend.filter fun q => decide (q.op ≠ p.op) } p.gang = some g := h
  rw [dropPend, wakeOrder, findGang_modGang, if_pos rfl, recount, findGang_modGang, if_pos rfl, h']
  · exact ⟨_, rfl, rfl⟩
  all_goals exact fun _ => rfl

theorem findPend_dropPend (s : State) (p : Pend) : findPend (dropPend s p) p.op = none := by
  simp [findPend, dropPend, wakeOrder, recount]

/-- The registers once a begun instruction of a slot is over. -/
def endedArch (budget : Nat) (a : Arch) (x : PcSlot) (kills : List Opnd) (d : Opnd) (v : DWord) : Arch :=
  settleAccounts budget (((writeScalar (killRegs a (single kills)) d v).setWait x .none).advance x)

/-- Marks do not look at the handler's gate or at a resumption. -/
theorem killRegs_gate (a : Arch) (l : Reads) (b : Bool) (r : Option (PcSlot × BitVec 32 × BitVec 5)) :
    killRegs { a with trapGate := b, resume := r } l = { killRegs a l with trapGate := b, resume := r } := by
  induction l generalizing a with
  | nil => rfl
  | cons x rest ih =>
    obtain ⟨o, n⟩ := x
    cases o with
    | v m =>
      have hfold : ∀ (ks : List Nat) (a : Arch), ks.foldl (fun x k => x.setV (groupReg m k) none) { a with trapGate := b, resume := r }
          = { ks.foldl (fun x k => x.setV (groupReg m k) none) a with trapGate := b, resume := r } := by
        intro ks
        induction ks with
        | nil => exact fun _ => rfl
        | cons k ks ihk => exact fun a => ihk (a.setV (groupReg m k) none)
      simp only [killRegs]
      rw [hfold]
      exact ih _
    | s m => exact ih (a.setS m none)
    | _ => exact ih a

theorem endedArch_slot (budget : Nat) (a : Arch) (x : PcSlot) (kills : List Opnd) (d : Opnd) (v : DWord) :
    (endedArch budget a x kills d v).slot x = { a.slot x with pc := (a.slot x).pc + 12#32, wait := .none } := by
  simp [endedArch, Arch.advance, Arch.setWait, writeScalar_killRegs_slot]

theorem endedArch_other (budget : Nat) (a : Arch) (x : PcSlot) (kills : List Opnd) (d : Opnd) (v : DWord) :
    (endedArch budget a x kills d v).slot (otherSlot x) = a.slot (otherSlot x) := by
  simp [endedArch, Arch.advance, Arch.setWait, writeScalar_killRegs_slot]

/-- Nothing but vector and scalar registers, the slot and the accounts has changed. -/
theorem endedArch_frame (budget : Nat) (a : Arch) (x : PcSlot) (kills : List Opnd) (d : Opnd) (v : DWord) :
    (endedArch budget a x kills d v).v = (killRegs a (single kills)).v
      ∧ (endedArch budget a x kills d v).s = (writeScalar (killRegs a (single kills)) d v).s
      ∧ (endedArch budget a x kills d v).p = a.p ∧ (endedArch budget a x kills d v).flags = a.flags
      ∧ (endedArch budget a x kills d v).mode = a.mode := by
  have hv : (writeScalar (killRegs a (single kills)) d v).v = (killRegs a (single kills)).v := by cases d <;> rfl
  have hrest : (writeScalar (killRegs a (single kills)) d v).p = a.p ∧ (writeScalar (killRegs a (single kills)) d v).flags = a.flags
      ∧ (writeScalar (killRegs a (single kills)) d v).mode = a.mode := by
    rw [killRegs_frame]
    cases d <;> exact ⟨rfl, rfl, rfl⟩
  simpa [endedArch, hv] using hrest

/-- The machine once the result of an access is committed: its gang `g`, and `f` in what younger accesses would give back. -/
def committed (s : State) (p : Pend) (g : Gang) (f : Arch → Arch) : State := dropPend (patchYounger (putGang s g) p.gang p.op f) p

theorem committed_frame (s : State) (p : Pend) (g : Gang) (f : Arch → Arch) :
    (committed s p g f).mem = s.mem ∧ (committed s p g f).mailboxes = s.mailboxes ∧ (committed s p g f).groups = s.groups
      ∧ (committed s p g f).cores = s.cores := by
  simp [committed, dropPend, wakeOrder, recount, patchYounger]

theorem findGang_committed {s : State} {p : Pend} {g : Gang} (hg : findGang s p.gang = some g) (a : Arch) (f : Arch → Arch) :
    ∃ g', findGang (committed s p { g with arch := a } f) p.gang = some g' ∧ g'.arch = wokenArch a := by
  have hid : g.id = p.gang := by simpa using List.find?_some hg
  have hput : findGang (patchYounger (putGang s { g with arch := a }) p.gang p.op f) p.gang = some { g with arch := a } := by
    refine (findGang_putGang s g { g with arch := a } ?_ p.gang).trans (if_pos hid.symm)
    rw [← hid] at hg
    exact hg
  exact findGang_dropPend hput

/-- A result whose registers take no more slots than its gang holds is committed. -/
theorem commitPend_of_fits {s : State} {p : Pend} {g : Gang} {f : Arch → Arch → Arch} (hg : findGang s p.gang = some g)
    (hfits : heldSlots (f g.arch (killRegs g.arch (single p.kills))) ≤ heldSlots g.arch) :
    commitPend s p f = committed s p { g with arch := settleAccounts g.budget (f g.arch (killRegs g.arch (single p.kills))) }
      fun a => settleAccounts g.budget (f a (killRegs a (single p.kills))) := by
  have hnone : slotExcess s g (f g.arch (killRegs g.arch (single p.kills))) = none := by
    unfold slotExcess
    rw [if_neg fun h => absurd h.1 (Nat.not_lt.mpr hfits)]
  simp only [commitPend, hg, hnone]
  rfl

/-- The context in which an instruction goes on once the release that it waited for is over. -/
def Ctx.resumed (c : Ctx) (id : Nat) : Ctx := { c with s := dropTask c.s id, g := { c.g with arch := c.a.setWait c.x .none } }

/-! ## Spawn requests and forwarded packets (R223, R225) -/

theorem spawnEffect_frame (s : State) (g : Gang) (q : SpawnReq) :
    (spawnEffect s g q).1.gangs = s.gangs ∧ (spawnEffect s g q).1.mem = s.mem := by
  unfold spawnEffect
  split
  · exact ⟨rfl, rfl⟩
  · split
    · exact ⟨rfl, rfl⟩
    · dsimp only
      split <;> exact ⟨modMailbox_gangs _ _ _ _, modMailbox_mem _ _ _ _⟩

theorem postPacket_frame (s : State) (die ctx : Nat) (p : BitVec 512) (launch : Option Nat) :
    (postPacket s die ctx p launch).gangs = s.gangs ∧ (postPacket s die ctx p launch).mem = s.mem := by
  unfold postPacket
  dsimp only
  split <;> exact ⟨modMailbox_gangs _ _ _ _, modMailbox_mem _ _ _ _⟩

theorem forwardEffect_frame (s : State) (g : Gang) (die : Nat) (p : BitVec 512) :
    (forwardEffect s g die p).1.gangs = s.gangs ∧ (forwardEffect s g die p).1.mem = s.mem := by
  unfold forwardEffect
  split
  · exact ⟨rfl, rfl⟩
  · split
    · exact ⟨rfl, rfl⟩
    · split
      · exact ⟨rfl, rfl⟩
      · split
        · exact ⟨rfl, rfl⟩
        · exact postPacket_frame _ _ _ _ _

/-- A request that is malformed or names a kernel that is not LOADED changes nothing. -/
theorem spawnEffect_malformed {s : State} {g : Gang} {q : SpawnReq}
    (h : q.count = 0#32 ∨ q.grid.toNat < q.first.toNat + q.count.toNat ∨ loadedKernel s g.ctx q.kdesc = false) :
    spawnEffect s g q = (s, 2#64) := by
  rw [spawnEffect, if_pos (by simpa using h)]

section
variable {s : State} {g : Gang} {q : SpawnReq} (hcount : q.count ≠ 0#32) (hrange : q.first.toNat + q.count.toNat ≤ q.grid.toNat)
  (hkernel : loadedKernel s g.ctx q.kdesc = true)
include hcount hrange hkernel

theorem spawnEffect_full (h : 256 ≤ (getMailbox s g.id.die g.ctx).spawnq.length) : spawnEffect s g q = (s, 1#64) := by
  have hform : ¬ (q.count = 0#32 ∨ q.first.toNat + q.count.toNat > q.grid.toNat ∨ !loadedKernel s g.ctx q.kdesc) := by
    simp [hcount, hkernel, hrange]
  rw [spawnEffect, if_neg hform, if_pos h]

theorem spawnEffect_queued (h : (getMailbox s g.id.die g.ctx).spawnq.length < 256) :
    (spawnEffect s g q).2 = 0#64
      ∧ (getMailbox (spawnEffect s g q).1 g.id.die g.ctx).spawnq = (getMailbox s g.id.die g.ctx).spawnq ++ [q] := by
  have hform : ¬ (q.count = 0#32 ∨ q.first.toNat + q.count.toNat > q.grid.toNat ∨ !loadedKernel s g.ctx q.kdesc) := by
    simp [hcount, hkernel, hrange]
  have hmail := getMailbox_modMailbox s g.id.die g.ctx (f := fun m => { m with spawnq := m.spawnq ++ [q] }) fun _ => rfl
  rw [spawnEffect, if_neg hform, if_neg (Nat.not_le.mpr h)]
  dsimp only
  split <;> exact ⟨rfl, congrArg Mailbox.spawnq hmail⟩

end

end Sys2Proof.Machine

namespace Sys2Proof
open Machine

section
variable {s : State} {guard : Guard} {c : Ctx} {b : Pend} (hres : Resumes s guard c b)
include hres

theorem Resumes.state_eq : c.s = s := by
  obtain ⟨-, -, -, hs, -⟩ := entering_spec hres.here
  exact hs

theorem Resumes.issue_eq (k : Ctx → Res) : issue s guard k = k c := by
  simp [issue, hres.here, hres.begun]

theorem Resumes.gang_eq : b.gang = c.g.id := by
  have h := List.find?_some hres.begun
  simp only [Bool.and_eq_true, decide_eq_true_eq] at h
  exact h.1.1

/-- A begun instruction that ends in a machine with its gangs as they were: it is over, and nothing but its gang and the issued
instructions has changed. -/
theorem Resumes.ended {u : State} (hgangs : u.gangs = s.gangs) (d : Opnd) (v : DWord) :
    ∃ t, commitPend u b (fun _ a => ((writeScalar a d v).setWait c.x .none).advance c.x) = t ∧ Ended c b d v t
      ∧ t.mem = u.mem ∧ t.mailboxes = u.mailboxes ∧ t.groups = u.groups ∧ t.cores = u.cores := by
  obtain ⟨g, r, hg, harch⟩ := entering_gang hres.here
  have hca : c.a = { g.arch with trapGate := false, resume := r } := congrArg Gang.arch harch
  have hslots : ∀ y, c.a.slot y = g.arch.slot y := by intro y; rw [hca]; cases y <;> rfl
  have hslot : c.slot = g.arch.slot c.x := hslots c.x
  have hid : g.id = b.gang := by rw [hres.gang_eq, harch]
  have hu : findGang u b.gang = some g := by rw [hres.gang_eq, findGang_congr hgangs, hg]
  rw [commitPend_of_fits hu (by simpa using heldSlots_killRegs g.arch (single b.kills))]
  obtain ⟨hmem, hmail, hgroups, hcores⟩ := committed_frame u b { g with arch := endedArch g.budget g.arch c.x b.kills d v }
    fun a => endedArch g.budget a c.x b.kills d v
  refine ⟨_, rfl, ⟨findPend_dropPend _ _, ?gang⟩, hmem, hmail, hgroups, hcores⟩
  case gang =>
    obtain ⟨g', hg', hwoken⟩ := findGang_committed hu (endedArch g.budget g.arch c.x b.kills d v)
      fun a => endedArch g.budget a c.x b.kills d v
    obtain ⟨hv, hs, hp, hflags, hmode⟩ := endedArch_frame g.budget g.arch c.x b.kills d v
    have hkill : killRegs c.a (single b.kills) = { killRegs g.arch (single b.kills) with trapGate := false, resume := r } := by
      rw [hca, killRegs_gate]
    rw [hres.gang_eq] at hg'
    have hsame : (endedArch g.budget g.arch c.x b.kills d v).slot c.x = { c.slot with pc := c.pc + 12#32, wait := .none } := by
      rw [endedArch_slot, Ctx.pc, hslot]
    refine ⟨g', hg', ?_⟩
    simp only [hwoken, wokenArch_slot, endedArch_other, hsame, hslots, wakeSlot_of_none, true_and]
    refine ⟨?_, ?_, hp.trans ?_, hflags.trans ?_, hmode.trans ?_⟩
    · rw [hkill]; exact hv
    · rw [hkill]; refine hs.trans ?_; cases d <;> rfl
    all_goals rw [hca]

end

/-! ## SPAWN, MBXRD and MBXFWD as they start -/

section
variable {s : State} {h : Head} {c : Ctx} {d a : Opnd} {off : BitVec 32} {size : Nat} {only : Bool} {k : Access} {die core pos : Nat}

theorem scratchOp_of_starts (hstarts : Starts s h (single [a]) [a, d] c) (hword : wordCheck c.a [a] = none)
    (honly : (only && !c.g.dispatcher) = false) (hspan : ScratchSpan c a off size k die core pos) (f : Ctx → Reads → Nat → Nat → Nat → Res) :
    scratchOp h d a off size only k s f = f c (headKills h a .zero .zero) die core pos := by
  rw [scratchOp, issue_eq hstarts.enter.here hstarts.enter.clean]
  simp only [hstarts.enter.fresh, hstarts.live, hstarts.active, if_false, honly, hstarts.priv, hword, firstHalt]
  rw [show (spaceTarget c.s c.g .scratch (scalarAddr c .scratch a off size) size k).2 = .inr (.scratch die core pos) from hspan]
  rfl

theorem scratchOp_of_notDispatcher (hstarts : Starts s h (single [a]) [a, d] c) (hdispatcher : c.g.dispatcher = false)
    (hclear : c.clear = true) (f : Ctx → Reads → Nat → Nat → Nat → Res) :
    scratchOp h d a off size true k s f = .next (takeTrap s c.g c.x 0x16#8 (freeNow s) (c.pc.setWidth 64) 0#5) := by
  rw [scratchOp, issue_eq hstarts.enter.here hstarts.enter.clean]
  simp only [hstarts.enter.fresh, hstarts.live, hstarts.active, if_false, hdispatcher]
  rw [← hstarts.enter.state_eq]
  exact trap_of_clear hclear _ _

theorem withTask_of_fresh (hfresh : c.begun = none) (i : Instr) (mk : Machine.Task) (d : Opnd) (kills : Reads) (vals : List DWord) (risk : Bool)
    (finish : Ctx → Option (BitVec 8 × BitVec 64) → Res) :
    c.withTask i mk d kills vals risk finish = .next (addTask (c.begin i (.task mk.id) d kills vals risk) mk) := by
  simp [Ctx.withTask, hfresh]

end

/-! ## A begun instruction goes on -/

section
variable {s : State} {h : Head} {c : Ctx} {b : Pend} (hres : Resumes s h.guard c b)
include hres

theorem Resumes.scratchOp_eq (d a : Opnd) (off : BitVec 32) (size : Nat) (only : Bool) (k : Access) (f : Ctx → Reads → Nat → Nat → Nat → Res) :
    scratchOp h d a off size only k s f = f c [] c.g.id.die c.g.id.core (b.vals.headD 0#64).toNat := by
  rw [scratchOp, hres.issue_eq]
  simp only [hres.begun]

theorem Resumes.withTask_eq {id : Nat} (hwait : c.slot.wait = .task id) (i : Instr) (mk : Machine.Task) (d : Opnd) (kills : Reads) (vals : List DWord)
    (risk : Bool) (finish : Ctx → Option (BitVec 8 × BitVec 64) → Res) :
    c.withTask i mk d kills vals risk finish = finish (c.resumed id) ((findTask c.s id).bind fun t => t.fault) := by
  simp only [Ctx.withTask, hres.begun, hwait]
  rfl

/-- What a resumed instruction does at its end, once no older instruction may trap. -/
theorem Resumes.finish_eq {u : State} (hclear : c.clear = true) (id : Nat) (d : Opnd) (kills : Reads) (v : DWord) :
    (c.resumed id).afterRisk ((c.resumed id).finish d kills v fun _ => u)
      = .next (commitPend u b fun _ a => ((writeScalar a d v).setWait c.x .none).advance c.x) := by
  have hclear' : (c.resumed id).clear = true := hclear
  have hbegun' : (c.resumed id).begun = some b := hres.begun
  simp only [Ctx.afterRisk, hclear', if_true, Ctx.finish, hbegun']
  rfl

end

/-- Bytes that are written to a scratchpad change no other byte. -/
theorem onlySpan_scratchWrite {s u : State} {die core pos n : Nat} {bytes : List Byte} (hmem : u.mem = s.mem) (hcores : u.cores = s.cores)
    (hwf : Memory.wf (getCore s die core).scratch = true) (hn : bytes.length = n) :
    OnlySpan s (scratchWrite u die core pos bytes) die core pos n := by
  have hcore : ∀ d k, getCore u d k = getCore s d k := fun d k => by simp only [getCore_eq_lookupOr, hcores]
  refine ⟨?_, fun d k q hout => ?_⟩
  · rw [scratchWrite, modCore_mem, hmem]
  · rw [getCore_scratchWrite, hcore, hcore]
    split
    case isTrue heq =>
      obtain ⟨rfl, rfl⟩ := Prod.mk.inj heq
      exact cellGet_cellsWrite_outside hwf _ _ _ (hn ▸ hout.resolve_left (fun h => h rfl))
    case isFalse => rfl

/-- The oldest packet of a gang's mailbox has been taken into a scratchpad. -/
def takenMail (s : State) (g : Gang) (rest : List (BitVec 32 × BitVec 512)) (die core pos : Nat) (p : BitVec 512) : State :=
  scratchWrite (modMailbox s g.id.die g.ctx fun m => { m with packets := rest }) die core pos (bytesOfNat 64 p.toNat)

theorem takenMail_gangs (s : State) (g : Gang) (rest : List (BitVec 32 × BitVec 512)) (die core pos : Nat) (p : BitVec 512) :
    (takenMail s g rest die core pos p).gangs = s.gangs := by
  rw [takenMail, scratchWrite, modCore_gangs, modMailbox_gangs]

/-- Its 64 bytes stand in the scratchpad, the mailbox holds the other packets, and no other byte has changed. -/
theorem takenMail_spec {s u : State} {die core : Nat} (hmem : u.mem = s.mem) (hcores : u.cores = s.cores)
    (hwf : Memory.wf (getCore s die core).scratch = true) (g : Gang) (rest : List (BitVec 32 × BitVec 512)) (pos : Nat) (p : BitVec 512) :
    OnlySpan s (takenMail u g rest die core pos p) die core pos 64
      ∧ scratchNat (takenMail u g rest die core pos p) die core pos 64 = p.toNat
      ∧ (getMailbox (takenMail u g rest die core pos p) g.id.die g.ctx).packets = rest := by
  have hcore : getCore (modMailbox u g.id.die g.ctx fun m => { m with packets := rest }) die core = getCore s die core := by
    simp only [getCore_eq_lookupOr, modMailbox_cores, hcores]
  refine ⟨?span, ?value, ?mail⟩
  case span =>
    exact onlySpan_scratchWrite ((modMailbox_mem _ _ _ _).trans hmem) ((modMailbox_cores _ _ _ _).trans hcores) hwf (length_bytesOfNat _ _)
  case value =>
    rw [takenMail, scratchNat_scratchWrite (by rw [hcore]; exact hwf)]
    exact Nat.mod_eq_of_lt (toNat_lt_bytes (n := 64) p)
  case mail =>
    have hmail := getMailbox_modMailbox u g.id.die g.ctx (f := fun m => { m with packets := rest }) fun _ => rfl
    rw [takenMail, getMailbox_congr (s := modMailbox u g.id.die g.ctx fun m => { m with packets := rest }), hmail]
    rw [scratchWrite, modCore_mailboxes]

/-- Settles O40: SPAWN, MBXFWD and a waiting MBXRD begin, and at their end commit their answer beside their effect outside the
registers; a spawn request is queued exactly when it is well formed and there is room. -/
theorem dispatcherInstructions : Obligations.DispatcherInstructions := by
  refine ⟨⟨fun h d a off dst s c die core pos hstarts hword => ⟨fun hspan => ?spawns, fun hdisp hspan => ?forwards,
      fun hdisp hspan hempty => ⟨fun hmay => ?empty, ?waits⟩, fun q p rest wait hdisp hspan hpackets hbytes hwf => ?reads,
      fun hdisp hclear => ⟨freeNow s, fun wait => ⟨?privRead, ?privForward⟩⟩⟩,
    fun h d a off dst s c b pos hres hclear hpos => ⟨fun k e hwait hk => ⟨fun hclean he => ?spawned, fun hclean hopen he => ?forwarded⟩,
      fun q p rest hpackets hheld hwf => ?received⟩⟩, fun s g q => ⟨spawnEffect_malformed, fun hcount hrange hkernel =>
      ⟨spawnEffect_full hcount hrange hkernel, spawnEffect_queued hcount hrange hkernel⟩⟩⟩
  case spawns =>
    change execSpawn h d a off s = _
    rw [execSpawn, scratchOp_of_starts hstarts hword rfl hspan, withTask_of_fresh hstarts.enter.fresh, hstarts.enter.state_eq]
    rfl
  case forwards =>
    change execMbxfwd h d a off dst s = _
    rw [execMbxfwd, scratchOp_of_starts hstarts hword (by simp [hdisp]) hspan, withTask_of_fresh hstarts.enter.fresh, hstarts.enter.state_eq]
    rfl
  case empty =>
    change execMbxrd h d a off false s = _
    rw [execMbxrd, scratchOp_of_starts hstarts hword (by simp [hdisp]) hspan, hstarts.enter.state_eq]
    simp only [hempty]
    exact commit_of_le (by simpa [MayCommit] using hmay) (by simpa using heldSlots_killRegs _ _)
  case waits =>
    change execMbxrd h d a off true s = _
    rw [execMbxrd, scratchOp_of_starts hstarts hword (by simp [hdisp]) hspan, hstarts.enter.state_eq]
    simp only [hempty, hstarts.enter.fresh]
    rfl
  case reads =>
    have hop : c.op = s.nextOp := by rw [op_eq hstarts.enter.fresh, hstarts.enter.state_eq]
    have hclear : c.clear = true := by rw [clear_eq hstarts.enter.fresh, hbytes.risk]; rfl
    have hheld : heldBytes s c.g.id c.op [(.scratch die core pos, 64)] = false := by
      rw [hop, ← hstarts.enter.state_eq]; exact hbytes.held
    have hput : (c.put (settleAccounts c.g.budget ((writeScalar (killRegs c.a (headKills h a .zero .zero)) d
        (((q.setWidth 64 : BitVec 64) <<< (32 : Nat)) ||| 1#64)).advance c.x))).cores = s.cores := by
      rw [Ctx.put_cores, hstarts.enter.state_eq]
    have hexec : exec (.mbxrd h d a off wait) s = .next (takenMail
        (c.put (settleAccounts c.g.budget ((writeScalar (killRegs c.a (headKills h a .zero .zero)) d
          (((q.setWidth 64 : BitVec 64) <<< (32 : Nat)) ||| 1#64)).advance c.x))) c.g rest die core pos p) := by
      change execMbxrd h d a off wait s = _
      rw [execMbxrd, scratchOp_of_starts hstarts hword (by simp [hdisp]) hspan, hstarts.enter.state_eq]
      simp only [hpackets, hheld, Ctx.afterRisk, hclear, if_true, Ctx.finish, hstarts.enter.fresh, Bool.false_eq_true, if_false]
      exact commitWith_of_le (.inr hclear) (by simpa using heldSlots_killRegs c.a (headKills h a .zero .zero)) _
    obtain ⟨hspan', hvalue, hrest⟩ := takenMail_spec (s := s) (by rw [Ctx.put_mem, hstarts.enter.state_eq]) hput hwf c.g rest pos p
    refine ⟨_, hexec, hspan', hvalue, hrest, ?_, fun id hid => ?_⟩
    · rw [findGang_congr (takenMail_gangs _ _ _ _ _ _ _), findGang_put hstarts.enter.here, if_pos rfl]
    · rw [findGang_congr (takenMail_gangs _ _ _ _ _ _ _), findGang_put hstarts.enter.here, if_neg hid]
  case privRead =>
    change execMbxrd h d a off wait s = _
    exact scratchOp_of_notDispatcher hstarts hdisp hclear _
  case privForward =>
    change execMbxfwd h d a off dst s = _
    exact scratchOp_of_notDispatcher hstarts hdisp hclear _
  case spawned =>
    have hclean' : scratchPoisoned (c.resumed k.id).s c.g.id.die c.g.id.core pos 32 = false := by
      rw [← hres.state_eq] at hclean; exact hclean
    have he' : spawnEffect (c.resumed k.id).s (c.resumed k.id).g (spawnRequest (c.resumed k.id).s (c.resumed k.id).g (BitVec.ofNat 256
        (scratchNat (c.resumed k.id).s c.g.id.die c.g.id.core pos 32))) = e := by
      rw [he, ← hres.state_eq]; rfl
    obtain ⟨hgangs, hmem⟩ := spawnEffect_frame (dropTask s k.id) c.g (spawnRequest s c.g (BitVec.ofNat 256
      (scratchNat s c.g.id.die c.g.id.core pos 32)))
    rw [← he] at hgangs hmem
    obtain ⟨t, ht, hended, htmem, hmail, hgroups, -⟩ := hres.ended hgangs d e.2
    refine ⟨t, ?_, hended, htmem.trans hmem, hmail, hgroups⟩
    change execSpawn h d a off s = _
    rw [execSpawn, hres.scratchOp_eq, hres.withTask_eq hwait, hpos]
    simp only [hclean', he']
    rw [← ht]
    exact hres.finish_eq hclear k.id d [] e.2
  case forwarded =>
    have hclean' : scratchPoisoned (c.resumed k.id).s c.g.id.die c.g.id.core pos 64 = false := by
      rw [← hres.state_eq] at hclean; exact hclean
    have hopen' : postOpen (c.resumed k.id).s (c.resumed k.id).g dst.toNat = true := by
      rw [← hres.state_eq] at hopen; exact hopen
    have he' : forwardEffect (c.resumed k.id).s (c.resumed k.id).g dst.toNat (BitVec.ofNat 512
        (scratchNat (c.resumed k.id).s c.g.id.die c.g.id.core pos 64)) = e := by
      rw [he, ← hres.state_eq]; rfl
    obtain ⟨hgangs, hmem⟩ := forwardEffect_frame (dropTask s k.id) c.g dst.toNat (BitVec.ofNat 512
      (scratchNat s c.g.id.die c.g.id.core pos 64))
    rw [← he] at hgangs hmem
    obtain ⟨t, ht, hended, htmem, hmail, hgroups, -⟩ := hres.ended hgangs d e.2
    refine ⟨t, ?_, hended, htmem.trans hmem, hmail, hgroups⟩
    change execMbxfwd h d a off dst s = _
    rw [execMbxfwd, hres.scratchOp_eq, hres.withTask_eq hwait, hpos]
    simp only [hclean', hopen', he']
    rw [← ht]
    exact hres.finish_eq hclear k.id d [] e.2
  case received =>
    have hop : c.op = b.op := by simp [Ctx.op, hres.begun]
    have hgangs : (takenMail s c.g rest c.g.id.die c.g.id.core pos p).gangs = s.gangs := takenMail_gangs _ _ _ _ _ _ _
    obtain ⟨hspan, hvalue, hrest⟩ := takenMail_spec (s := s) rfl rfl hwf c.g rest pos p
    obtain ⟨t, ht, hended, htmem, hmail, -, hcores⟩ := hres.ended hgangs d (((q.setWidth 64 : BitVec 64) <<< (32 : Nat)) ||| 1#64)
    have hcore : ∀ k j, getCore t k j = getCore (takenMail s c.g rest c.g.id.die c.g.id.core pos p) k j :=
      fun k j => by simp only [getCore_eq_lookupOr, hcores]
    refine ⟨t, ?_, hended, ⟨htmem.trans hspan.1, fun k j n hout => ?_⟩, ?_, ?_⟩
    · change execMbxrd h d a off true s = _
      rw [execMbxrd, hres.scratchOp_eq, hpos, hres.state_eq]
      simp only [hpackets, hop, hheld, Ctx.afterRisk, hclear, if_true, Ctx.finish, hres.begun, hres.state_eq]
      rw [← ht]
      rfl
    · rw [hcore]; exact hspan.2 k j n hout
    · rw [scratchNat, hcore]; exact hvalue
    · rw [getMailbox_congr hmail]; exact hrest
end Sys2Proof

/-!
Spawn requests that take records, and what a placement opportunity places (R196, R199, R202-R205).
-/
namespace Sys2Proof.Machine

/-! ## Dies and their records -/

@[simp] theorem getDie_modDie (s : State) (d : Nat) (f : Die → Die) : getDie (modDie s d f) d = f (getDie s d) := by
  simp [getDie, modDie, Vector.get_eq_getElem]

/-- The record at an index. -/
def bindAt (l : List (Nat × BindRec)) (i : Nat) : Option (Nat × BindRec) := l.find? fun b => decide (b.1 = i)

theorem bindAt_some {l : List (Nat × BindRec)} {i : Nat} {b : Nat × BindRec} (h : bindAt l i = some b) : b ∈ l ∧ b.1 = i := by
  unfold bindAt at h
  exact ⟨List.mem_of_find?_eq_some h, by simpa using List.find?_some h⟩

theorem bindAt_append (l m : List (Nat × BindRec)) (i : Nat) : bindAt (l ++ m) i = (bindAt l i).or (bindAt m i) := List.find?_append

/-- Records with one put at its index. -/
def bindsPut (l : List (Nat × BindRec)) (i : Nat) (r : BindRec) : List (Nat × BindRec) :=
  (l.filter fun b => decide (b.1 < i)) ++ (if decide (r.left = 0) && !r.standing then [] else [(i, r)]) ++ l.filter fun b => decide (i < b.1)

theorem putBind_binds (s : State) (die i : Nat) (r : BindRec) :
    (getDie (putBind s die i r) die).binds = bindsPut (getDie s die).binds i r := by
  rw [putBind, getDie_modDie]
  rfl

theorem bindAt_filter (l : List (Nat × BindRec)) (p : Nat → Bool) (j : Nat) :
    bindAt (l.filter fun b => p b.1) j = if p j then bindAt l j else none := by
  unfold bindAt
  rw [List.find?_filter]
  split
  case isTrue h => exact congrArg (l.find? ·) (funext fun b => by by_cases hb : b.1 = j <;> simp [hb, h])
  case isFalse h =>
    rw [List.find?_eq_none]
    intro b _ hb
    simp only [Bool.decide_and, Bool.decide_eq_true, Bool.and_eq_true, decide_eq_true_eq] at hb
    exact h (hb.2 ▸ hb.1)

/-- A non-standing record whose LEFT is 0 is free; every other record stands at its index, and the other indices keep theirs (R202). -/
theorem bindAt_bindsPut (l : List (Nat × BindRec)) (i j : Nat) (r : BindRec) :
    bindAt (bindsPut l i r) j = if j = i then (if decide (r.left = 0) && !r.standing then none else some (i, r)) else bindAt l j := by
  have hlow := bindAt_filter l (fun k => decide (k < i)) j
  have hhigh := bindAt_filter l (fun k => decide (i < k)) j
  have hmid (c : Bool) : bindAt (if c then [] else [(i, r)]) j = if j = i then (if c then none else some (i, r)) else none := by
    by_cases hji : j = i
    · cases c <;> simp [bindAt, hji]
    · cases c <;> simp [bindAt, hji, Ne.symm hji]
  rw [bindsPut, bindAt_append, bindAt_append, hlow, hhigh, hmid]
  rcases Nat.lt_trichotomy j i with hji | rfl | hji
  · simp [hji, Nat.ne_of_lt hji, Nat.lt_asymm hji]
  · simp
  · simp [hji, Nat.ne_of_gt hji, Nat.lt_asymm hji]

theorem bindAt_putBind (s : State) (die i j : Nat) (r : BindRec) :
    bindAt (getDie (putBind s die i r) die).binds j
      = if j = i then (if decide (r.left = 0) && !r.standing then none else some (i, r)) else bindAt (getDie s die).binds j := by
  rw [putBind_binds, bindAt_bindsPut]

theorem mem_putBind_binds (s : State) (die i : Nat) (r : BindRec) (h : r.left ≠ 0) : (i, r) ∈ (getDie (putBind s die i r) die).binds := by
  rw [putBind_binds, bindsPut]
  simp [h]

end Sys2Proof.Machine

/-!
Placing blocks: what a group, a record and a cooperative record place, and that none of it looks at a die's records (R199, R203, R204).
-/
namespace Sys2Proof.Machine

/-! ## What a fit gives (R94, R203) -/

/-- Gang places that lie on a core. -/
def PlacesOn (die core : Nat) (ids : List GangId) : Prop := ∀ id ∈ ids, id.die = die ∧ id.core = core

theorem giveOne_on {taken : List GangId} {l : List (GangId × Nat)} {die core budget : Nat} {g : GangId}
    (h : giveOne taken l die core budget = some g) : g.die = die ∧ g.core = core := by
  rw [giveOne] at h
  refine List.foldlRecOn (motive := fun m => ∀ x, m = some x → x.die = die ∧ x.core = core) _ _ (by simp) ?_ g h
  intro m hm sched _ x hx
  split at hx
  case h_1 => exact hm x hx
  case h_2 =>
    split at hx
    case h_1 =>
      split at hx
      case isTrue =>
        cases hx
        exact ⟨rfl, rfl⟩
      case isFalse => cases hx
    case h_2 => cases hx

theorem giveGangs_on {die core budget : Nat} : ∀ {n : Nat} {taken : List GangId} {l : List (GangId × Nat)} {ids : List GangId},
    giveGangs n taken l die core budget = some ids → ids.length = n ∧ PlacesOn die core ids
  | 0, _, _, _, h => by
    cases h
    exact ⟨rfl, fun _ h => by cases h⟩
  | n + 1, taken, l, ids, h => by
    rw [giveGangs] at h
    split at h
    case h_1 => cases h
    case h_2 g hg =>
      obtain ⟨rest, hrest, rfl⟩ := Option.map_eq_some_iff.mp h
      obtain ⟨hlen, hon⟩ := giveGangs_on hrest
      exact ⟨by simp [hlen], List.forall_mem_cons.mpr ⟨giveOne_on hg, hon⟩⟩

/-- A core that a record may use, with the places of one block's gangs on it. -/
def FitsOn (die : Nat) (r : BindRec) (x : Nat × Nat × List GangId) : Prop :=
  r.cores.getLsbD x.1 = true ∧ x.2.2.length = r.gangsM1 + 1 ∧ PlacesOn die x.1 x.2.2

theorem fitCore_on {s : State} {die core : Nat} {r : BindRec} {f : Nat × List GangId} (h : fitCore s die core r = some f) :
    FitsOn die r (core, f) := by
  rw [fitCore] at h
  split at h
  case isTrue => cases h
  case isFalse hcore =>
    split at h
    case h_1 => cases h
    case h_2 base hbase =>
      obtain ⟨ids, hids, rfl⟩ := Option.map_eq_some_iff.mp h
      obtain ⟨hlen, hon⟩ := giveGangs_on hids
      exact ⟨by simp at hcore; exact hcore.1, hlen, hon⟩

theorem clusterFit_on {s : State} {die cl k : Nat} {r : BindRec} {l : List (Nat × Nat × List GangId)} (h : clusterFit s die cl k r = some l) :
    l.length = k ∧ ∀ x ∈ l, FitsOn die r x := by
  rw [clusterFit] at h
  split at h
  case isTrue => cases h
  case isFalse hk =>
    cases h
    refine ⟨List.length_take_of_le (Nat.not_lt.mp hk), ?_⟩
    intro x hx
    obtain ⟨j, _, hj⟩ := List.mem_filterMap.mp (List.mem_of_mem_take hx)
    obtain ⟨f, hf, rfl⟩ := Option.map_eq_some_iff.mp hj
    exact fitCore_on hf

theorem groupPlace_on {s : State} {die k cl : Nat} {r : BindRec} {l : List (Nat × Nat × List GangId)} :
    ∀ {order : List Nat}, groupPlace s die r k order = some (cl, l) → l.length = k ∧ ∀ x ∈ l, FitsOn die r x
  | [], h => by cases h
  | c :: rest, h => by
    rw [groupPlace] at h
    split at h
    case h_1 hc =>
      cases h
      exact clusterFit_on hc
    case h_2 => exact groupPlace_on h

/-! ## Placed blocks (R196, R199) -/

theorem findKernel_congr {s t : State} (h : t.kernels = s.kernels) (ctx : Nat) (kdesc : BitVec 64) :
    findKernel t ctx kdesc = findKernel s ctx kdesc := by rw [findKernel, findKernel, h]

/-- A block as it is placed: RESIDENT on its die with no failure and closed channels, its gangs' places on its core. -/
structure FreshBlock (die : Nat) (b : Block) : Prop where
  onDie : b.die = die
  state : b.state = .resident
  fail : b.fail = none
  chans : b.chans = Vector.replicate 8 .closed
  places : PlacesOn die b.core b.places

/-- A gang as it starts for a block: at the entry of the block's kernel, with its counters 0. -/
structure StartsFor (s : State) (b : Block) (g : Gang) : Prop where
  block : b.uid = g.block
  arch : ∃ entry stamp, g.arch = startArch entry stamp ∧ ∀ k, findKernel s b.ctx b.kdesc = some k → entry = k.entry
  ld : g.ld = 0
  st : g.st = 0
  cp : g.cp = 0
  tl : g.tl = 0

/-- A state with new blocks and their gangs beside those of another, and nothing else of memory, kernels and dies changed. -/
structure Placed (die : Nat) (s t : State) (new : List Block) (gs : List Gang) : Prop where
  mem : t.mem = s.mem
  kernels : t.kernels = s.kernels
  blocks : t.blocks = s.blocks ++ new
  gangs : t.gangs = s.gangs ++ gs
  uids_le : s.nextUid ≤ t.nextUid
  uids : ∀ b ∈ new, s.nextUid ≤ b.uid ∧ b.uid < t.nextUid
  distinct : ∀ b ∈ new, ∀ b' ∈ new, b.uid = b'.uid → b = b'
  fresh : ∀ b ∈ new, FreshBlock die b
  owners : gs.map (fun g => (g.block, g.id)) = new.flatMap fun b => b.places.map fun id => (b.uid, id)
  started : ∀ g ∈ gs, ∃ b ∈ new, StartsFor s b g

theorem Placed.of_eq {die : Nat} {s t : State} (hmem : t.mem = s.mem) (hkernels : t.kernels = s.kernels) (hblocks : t.blocks = s.blocks)
    (hgangs : t.gangs = s.gangs) (huid : s.nextUid ≤ t.nextUid) : Placed die s t [] [] where
  mem := hmem
  kernels := hkernels
  blocks := by simp [hblocks]
  gangs := by simp [hgangs]
  uids_le := huid
  uids := by simp
  distinct := by simp
  fresh := by simp
  owners := rfl
  started := by simp

theorem StartsFor.congr {s t : State} {b : Block} {g : Gang} (h : StartsFor t b g) (hk : t.kernels = s.kernels) : StartsFor s b g where
  block := h.block
  arch := by simpa only [findKernel_congr hk] using h.arch
  ld := h.ld
  st := h.st
  cp := h.cp
  tl := h.tl

theorem Placed.trans {die : Nat} {s t u : State} {new new' : List Block} {gs gs' : List Gang} (h : Placed die s t new gs)
    (h' : Placed die t u new' gs') : Placed die s u (new ++ new') (gs ++ gs') where
  mem := h'.mem.trans h.mem
  kernels := h'.kernels.trans h.kernels
  blocks := by rw [h'.blocks, h.blocks, List.append_assoc]
  gangs := by rw [h'.gangs, h.gangs, List.append_assoc]
  uids_le := h.uids_le.trans h'.uids_le
  uids b hb := by
    have hle := h.uids_le
    have hle' := h'.uids_le
    rcases List.mem_append.mp hb with hb | hb
    · have := h.uids b hb
      omega
    · have := h'.uids b hb
      omega
  distinct b hb b' hb' huid := by
    rcases List.mem_append.mp hb with hb | hb <;> rcases List.mem_append.mp hb' with hb' | hb'
    · exact h.distinct b hb b' hb' huid
    · have := h.uids b hb
      have := h'.uids b' hb'
      omega
    · have := h'.uids b hb
      have := h.uids b' hb'
      omega
    · exact h'.distinct b hb b' hb' huid
  fresh b hb := (List.mem_append.mp hb).elim (h.fresh b) (h'.fresh b)
  owners := by rw [List.map_append, List.flatMap_append, h.owners, h'.owners]
  started g hg := by
    rcases List.mem_append.mp hg with hg | hg
    · obtain ⟨b, hb, hstart⟩ := h.started g hg
      exact ⟨b, List.mem_append_left _ hb, hstart⟩
    · obtain ⟨b, hb, hstart⟩ := h'.started g hg
      exact ⟨b, List.mem_append_right _ hb, hstart.congr h.kernels⟩

/-- A block carries what its record says of all its blocks. -/
structure Carries (r : BindRec) (b : Block) : Prop where
  ctx : b.ctx = r.ctx
  kdesc : b.kdesc = r.kdesc
  args : b.args = r.args
  grid : b.grid = r.grid
  dgroup : b.dgroup = r.dgroup
  places : b.places.length = r.gangsM1 + 1
  core : r.cores.getLsbD b.core = true

/-- Blocks of a record placed with given indices, the dies as they were. -/
structure PlacedOf (die : Nat) (r : BindRec) (s t : State) (indices : List (BitVec 32)) (new : List Block) (gs : List Gang) : Prop where
  placed : Placed die s t new gs
  dies : t.dies = s.dies
  index : new.map (fun b => b.index) = indices
  carries : ∀ b ∈ new, Carries r b

theorem PlacedOf.of_eq {die : Nat} {r : BindRec} {s t : State} (h : Placed die s t [] []) (hd : t.dies = s.dies) :
    PlacedOf die r s t [] [] [] := ⟨h, hd, rfl, by simp⟩

theorem PlacedOf.trans {die : Nat} {r : BindRec} {s t u : State} {is is' : List (BitVec 32)} {new new' : List Block} {gs gs' : List Gang}
    (h : PlacedOf die r s t is new gs) (h' : PlacedOf die r t u is' new' gs') : PlacedOf die r s u (is ++ is') (new ++ new') (gs ++ gs') where
  placed := h.placed.trans h'.placed
  dies := h'.dies.trans h.dies
  index := by rw [List.map_append, h.index, h'.index]
  carries b hb := (List.mem_append.mp hb).elim (h.carries b) (h'.carries b)

@[simp] theorem zeroScratch_dies (s : State) (die core base size : Nat) : (zeroScratch s die core base size).dies = s.dies := by
  rw [zeroScratch, modCore_dies]

/-- The block that a record places on a core. -/
def placedBlock (s : State) (die core : Nat) (r : BindRec) (index : BitVec 32) (cg rank base : Nat) (ids : List GangId) : Block :=
  { uid := s.nextUid, ctx := r.ctx, die := die, core := core, cgroup := cg, rank := rank, dgroup := r.dgroup, index := index,
    grid := r.grid, base := if allocSize r.scratch = 0 then 0 else base, size := allocSize r.scratch, kdesc := r.kdesc, args := r.args,
    argLen := r.argLen, state := .resident, fail := none, chans := Vector.replicate 8 .closed, dispatcher := false, places := ids }

/-- Its gangs. -/
def placedGangs (s : State) (r : BindRec) (ids : List GangId) (entry : BitVec 32) : List Gang :=
  (ids.zip (List.range ids.length)).map fun x => newGang x.1 r.ctx s.nextUid x.2 false r.budget r.noborrow entry s.tick

theorem placeBlock_frame (s : State) (die core : Nat) (r : BindRec) (index : BitVec 32) (cg rank base : Nat) (ids : List GangId)
    (entry : BitVec 32) (t : State) (ht : t = placeBlock s die core r index cg rank base ids false entry) :
    t.mem = s.mem ∧ t.kernels = s.kernels ∧ t.dies = s.dies ∧ t.nextUid = s.nextUid + 1
      ∧ t.blocks = s.blocks ++ [placedBlock s die core r index cg rank base ids] ∧ t.gangs = s.gangs ++ placedGangs s r ids entry := by
  subst ht
  simp [placeBlock, zeroScratch, placedBlock, placedGangs]

theorem placedGangs_owners (s : State) (r : BindRec) (ids : List GangId) (entry : BitVec 32) :
    (placedGangs s r ids entry).map (fun g => (g.block, g.id)) = ids.map fun id => (s.nextUid, id) := by
  have hids : (ids.zip (List.range ids.length)).map Prod.fst = ids := List.map_fst_zip (by simp)
  conv_rhs => rw [← hids]
  simp [placedGangs, newGang]

theorem placedGangs_startsFor {s : State} {r : BindRec} {ids : List GangId} {entry : BitVec 32} {b : Block} {g : Gang} (huid : b.uid = s.nextUid)
    (he : ∀ k, findKernel s b.ctx b.kdesc = some k → entry = k.entry) (hg : g ∈ placedGangs s r ids entry) : StartsFor s b g := by
  obtain ⟨x, _, rfl⟩ := List.mem_map.mp hg
  exact ⟨huid, ⟨entry, s.tick, rfl, he⟩, rfl, rfl, rfl, rfl⟩

theorem placeBlock_placedOf {s : State} {die : Nat} {r : BindRec} {x : Nat × Nat × List GangId} {entry : BitVec 32} (hx : FitsOn die r x)
    (he : ∀ k, findKernel s r.ctx r.kdesc = some k → entry = k.entry) (index : BitVec 32) (cg rank base : Nat) :
    PlacedOf die r s (placeBlock s die x.1 r index cg rank base x.2.2 false entry) [index]
      [placedBlock s die x.1 r index cg rank base x.2.2] (placedGangs s r x.2.2 entry) := by
  obtain ⟨hcore, hlen, hon⟩ := hx
  obtain ⟨hmem, hkernels, hdies, huid, hblocks, hgangs⟩ := placeBlock_frame s die x.1 r index cg rank base x.2.2 entry _ rfl
  refine ⟨⟨hmem, hkernels, hblocks, hgangs, by omega, ?uids, ?distinct, ?fresh, ?owners, ?started⟩, hdies, rfl, ?carries⟩
  case uids => simp [placedBlock, huid]
  case distinct => simp
  case fresh =>
    rw [List.forall_mem_singleton]
    exact ⟨rfl, rfl, rfl, rfl, hon⟩
  case owners =>
    rw [placedGangs_owners]
    simp [placedBlock]
  case started => exact fun g hg => ⟨_, List.mem_singleton_self _, placedGangs_startsFor rfl he hg⟩
  case carries =>
    rw [List.forall_mem_singleton]
    exact ⟨rfl, rfl, rfl, rfl, rfl, hlen, hcore⟩

/-! ## Groups and records (R199, R203, R204) -/

/-- Blocks placed one after another on the cores of a cluster. -/
def placeBlocks (s : State) (die : Nat) (r : BindRec) (cg : Nat) (l : List ((Nat × Nat × List GangId) × Nat)) : State :=
  l.foldl (fun s x => placeBlock s die x.1.1 r (r.next + BitVec.ofNat 32 x.2) cg x.2 x.1.2.1 x.1.2.2 false (recEntry s r)) s

theorem recEntry_of_findKernel {s : State} {r : BindRec} {k : Kernel} (h : findKernel s r.ctx r.kdesc = some k) : recEntry s r = k.entry := by
  rw [recEntry, h]

theorem placeBlocks_placedOf {die : Nat} {r : BindRec} {cg : Nat} :
    ∀ {l : List ((Nat × Nat × List GangId) × Nat)} {s : State}, (∀ x ∈ l, FitsOn die r x.1) →
      ∃ new gs, PlacedOf die r s (placeBlocks s die r cg l) (l.map fun x => r.next + BitVec.ofNat 32 x.2) new gs
  | [], s, _ => ⟨[], [], .of_eq (.of_eq rfl rfl rfl rfl le_rfl) rfl⟩
  | x :: l, s, hfit => by
    obtain ⟨hx, hl⟩ := List.forall_mem_cons.mp hfit
    obtain ⟨new, gs, hrest⟩ := placeBlocks_placedOf (cg := cg) hl
    exact ⟨_, _, (placeBlock_placedOf hx (fun k hk => recEntry_of_findKernel hk) _ cg x.2 x.1.2.1).trans hrest⟩

/-- A record from which `n` blocks have been placed. -/
def BindRec.moved (r : BindRec) (n cl : Nat) : BindRec := { r with next := r.next + BitVec.ofNat 32 n, left := r.left - n, lastcl := cl }

/-- The indices of the next `n` blocks of a record. -/
def nextIndices (r : BindRec) (n : Nat) : List (BitVec 32) := (List.range n).map fun j => r.next + BitVec.ofNat 32 j

theorem nextIndices_add (r : BindRec) (k n cl : Nat) : nextIndices r (k + n) = nextIndices r k ++ nextIndices (r.moved k cl) n := by
  simp [nextIndices, List.range_add, BindRec.moved, BitVec.ofNat_add, BitVec.add_assoc]

theorem moved_moved (r : BindRec) (k n cl cl' : Nat) : (r.moved k cl).moved n cl' = r.moved (k + n) cl' := by
  simp [BindRec.moved, BitVec.ofNat_add, BitVec.add_assoc, Nat.sub_sub]

theorem zip_indices {α : Type} (r : BindRec) {l : List α} {k : Nat} (h : l.length = k) :
    (l.zip (List.range k)).map (fun x => r.next + BitVec.ofNat 32 x.2) = nextIndices r k := by
  have hsnd : (l.zip (List.range k)).map Prod.snd = List.range k := List.map_snd_zip (by simp [h])
  calc (l.zip (List.range k)).map (fun x => r.next + BitVec.ofNat 32 x.2)
      = ((l.zip (List.range k)).map Prod.snd).map fun j => r.next + BitVec.ofNat 32 j := by rw [List.map_map]; rfl
    _ = nextIndices r k := by rw [hsnd, nextIndices]

/-- A die group of which blocks have been placed is RUNNING. -/
def DieGroup.begun (d : DieGroup) : DieGroup :=
  { d with state := match d.state with
    | .posted | .bound => .running
    | x => x }

/-- Blocks of the next group of a record, and their number. -/
def groupSize (r : BindRec) : Nat := min (r.clustM1 + 1) r.left

/-- The state and the record once the next group stands on the cores `l` of cluster `cl`. -/
def groupPlaced (s : State) (die : Nat) (r : BindRec) (cl : Nat) (l : List (Nat × Nat × List GangId)) : State × BindRec :=
  (modGroup (placeBlocks { s with nextUid := s.nextUid + 1 } die r s.nextUid (l.zip (List.range (groupSize r)))) r.dgroup DieGroup.begun,
    r.moved (groupSize r) (if r.spread then cl else r.lastcl))

theorem placeGroup_eq (s : State) (die : Nat) (r : BindRec) :
    placeGroup s die r = if r.left = 0 then none
      else (groupPlace s die r (groupSize r) (searchOrder r)).map fun x => groupPlaced s die r x.1 x.2 := by
  unfold placeGroup
  split
  case isTrue => rfl
  case isFalse =>
    rw [groupSize]
    dsimp only
    cases groupPlace s die r (min (r.clustM1 + 1) r.left) (searchOrder r) <;> rfl

theorem groupPlaced_placedOf {s : State} {die cl : Nat} {r : BindRec} {l : List (Nat × Nat × List GangId)} (hlen : l.length = groupSize r)
    (hfit : ∀ x ∈ l, FitsOn die r x) : ∃ new gs, PlacedOf die r s (groupPlaced s die r cl l).1 (nextIndices r (groupSize r)) new gs := by
  have hnumber : PlacedOf die r s { s with nextUid := s.nextUid + 1 } [] [] [] := .of_eq (.of_eq rfl rfl rfl rfl (Nat.le_succ _)) rfl
  have hgroup (u : State) : PlacedOf die r u (modGroup u r.dgroup DieGroup.begun) [] [] [] := .of_eq (.of_eq rfl rfl rfl rfl le_rfl) rfl
  obtain ⟨new, gs, hblocks⟩ := placeBlocks_placedOf (s := { s with nextUid := s.nextUid + 1 }) (cg := s.nextUid)
    (l := l.zip (List.range (groupSize r))) fun x hx => hfit x.1 (List.of_mem_zip hx).1
  rw [zip_indices r hlen] at hblocks
  exact ⟨new, gs, by simpa only [groupPlaced, List.nil_append, List.append_nil] using (hnumber.trans hblocks).trans (hgroup _)⟩

/-- A group is of the record's whole size, or of the blocks that are left (R199). -/
theorem placeGroup_placedOf {s t : State} {die : Nat} {r r' : BindRec} (h : placeGroup s die r = some (t, r')) :
    ∃ k cl new gs, 0 < k ∧ k ≤ r.left ∧ (k = r.clustM1 + 1 ∨ k = r.left) ∧ r' = r.moved k cl
      ∧ PlacedOf die r s t (nextIndices r k) new gs := by
  rw [placeGroup_eq] at h
  split at h
  case isTrue => cases h
  case isFalse hleft =>
    obtain ⟨⟨cl, l⟩, hplace, heq⟩ := Option.map_eq_some_iff.mp h
    obtain ⟨hlen, hfit⟩ := groupPlace_on hplace
    obtain ⟨new, gs, hplaced⟩ := groupPlaced_placedOf (s := s) (cl := cl) hlen hfit
    rw [heq] at hplaced
    have hsize : 0 < groupSize r ∧ groupSize r ≤ r.left ∧ (groupSize r = r.clustM1 + 1 ∨ groupSize r = r.left) := by
      unfold groupSize
      omega
    exact ⟨groupSize r, _, new, gs, hsize.1, hsize.2.1, hsize.2.2, (congrArg Prod.snd heq).symm, hplaced⟩

theorem Carries.of_moved {r : BindRec} {k cl : Nat} {b : Block} (h : Carries (r.moved k cl) b) : Carries r b :=
  ⟨h.ctx, h.kdesc, h.args, h.grid, h.dgroup, h.places, h.core⟩

theorem PlacedOf.of_moved {die k cl : Nat} {r : BindRec} {s t : State} {is : List (BitVec 32)} {new : List Block} {gs : List Gang}
    (h : PlacedOf die (r.moved k cl) s t is new gs) : PlacedOf die r s t is new gs :=
  ⟨h.placed, h.dies, h.index, fun b hb => (h.carries b hb).of_moved⟩

/-- `n` blocks of a record placed, which are whole groups of it or all that were left, and the record moved by them. -/
structure Served (die : Nat) (r : BindRec) (s : State) (p : State × BindRec) (n : Nat) (new : List Block) (gs : List Gang) : Prop where
  placed : PlacedOf die r s p.1 (nextIndices r n) new gs
  le : n ≤ r.left
  whole : n % (r.clustM1 + 1) = 0 ∨ n = r.left
  moved : ∃ cl, p.2 = r.moved n cl

theorem Served.nothing (die : Nat) (r : BindRec) (s : State) : Served die r s (s, r) 0 [] [] :=
  ⟨.of_eq (.of_eq rfl rfl rfl rfl le_rfl) rfl, Nat.zero_le _, .inl (Nat.zero_mod _), r.lastcl, by simp [BindRec.moved]⟩

theorem Served.left {die n : Nat} {r : BindRec} {s : State} {p : State × BindRec} {new : List Block} {gs : List Gang}
    (h : Served die r s p n new gs) : p.2.left = r.left - n := by
  obtain ⟨cl, hcl⟩ := h.moved
  rw [hcl]
  rfl

theorem placeRecord_served (die : Nat) : ∀ (fuel : Nat) (s : State) (r : BindRec), ∃ n new gs, Served die r s (placeRecord fuel s die r) n new gs
  | 0, s, r => ⟨0, [], [], .nothing die r s⟩
  | fuel + 1, s, r => by
    rw [placeRecord]
    split
    case h_1 => exact ⟨0, [], [], .nothing die r s⟩
    case h_2 s' r' hgroup =>
      obtain ⟨k, cl, new, gs, hpos, hle, hwhole, rfl, hplaced⟩ := placeGroup_placedOf hgroup
      obtain ⟨n, new', gs', hrest⟩ := placeRecord_served die fuel s' (r.moved k cl)
      have hle' : n ≤ r.left - k := hrest.le
      refine ⟨k + n, new ++ new', gs ++ gs', ?_, by omega, ?_, ?_⟩
      · rw [nextIndices_add r k n cl]
        exact hplaced.trans hrest.placed.of_moved
      · have hwhole' : n % (r.clustM1 + 1) = 0 ∨ n = r.left - k := hrest.whole
        rcases hwhole with rfl | rfl
        · rcases hwhole' with h | h
          · exact .inl (by rw [Nat.add_mod_left, h])
          · exact .inr (by omega)
        · exact .inr (by omega)
      · obtain ⟨cl', hcl'⟩ := hrest.moved
        exact ⟨cl', by rw [hcl', moved_moved]⟩

theorem placeRec_served (s : State) (die : Nat) (r : BindRec) :
    ∃ n new gs, Served die r s (placeRec s die r) n new gs ∧ (r.coop = true → n = 0 ∨ n = r.left) := by
  rw [placeRec]
  split
  case isTrue => exact ⟨0, [], [], .nothing die r s, fun _ => .inl rfl⟩
  case isFalse hall =>
    obtain ⟨n, new, gs, hserved⟩ := placeRecord_served die (r.left + 1) s r
    refine ⟨n, new, gs, hserved, fun hcoop => .inr ?_⟩
    have hzero : r.left - n = 0 := by
      rw [← hserved.left]
      simpa [hcoop] using hall
    have := hserved.le
    omega

theorem placeRecord_of_left {fuel : Nat} {s : State} {die : Nat} {r : BindRec} (h : (placeRecord (fuel + 1) s die r).2.left = r.left) :
    placeRecord (fuel + 1) s die r = (s, r) := by
  cases hgroup : placeGroup s die r with
  | none => rw [placeRecord, hgroup]
  | some p =>
    exfalso
    obtain ⟨k, cl, new, gs, hpos, hle, _, hmoved, _⟩ := placeGroup_placedOf (t := p.1) (r' := p.2) hgroup
    obtain ⟨n, new', gs', hrest⟩ := placeRecord_served die fuel p.1 p.2
    have hleft : p.2.left - n = r.left := by
      rw [← hrest.left, ← h, placeRecord, hgroup]
    rw [hmoved] at hleft
    have hleft : r.left - k - n = r.left := hleft
    omega

/-- A record whose LEFT stays has placed nothing. -/
theorem placeRec_of_left {s : State} {die : Nat} {r : BindRec} (h : (placeRec s die r).2.left = r.left) : placeRec s die r = (s, r) := by
  rw [placeRec] at h ⊢
  by_cases hcoop : (r.coop && decide ((placeRecord (r.left + 1) s die r).2.left ≠ 0)) = true
  · rw [if_pos hcoop]
  · rw [if_neg hcoop] at h ⊢
    exact placeRecord_of_left h

/-! ## Placing does not look at a die's records -/

/-- A state with other dies. -/
def withDies (s : State) (D : Vector Die 8) : State := { s with dies := D }

theorem modCore_withDies (s : State) (D : Vector Die 8) (die core : Nat) (f : CoreSt → CoreSt) :
    modCore (withDies s D) die core f = withDies (modCore s die core f) D := by
  unfold modCore
  by_cases h : (s.cores.any fun c => decide (c.die = die) && decide (c.core = core)) = true
  · rw [if_pos h, if_pos (by exact h)]
    rfl
  · rw [if_neg h, if_neg (by exact h)]
    rfl

theorem placeBlock_withDies (s : State) (D : Vector Die 8) (die core : Nat) (r : BindRec) (index : BitVec 32) (cg rank base : Nat)
    (ids : List GangId) (entry : BitVec 32) :
    placeBlock (withDies s D) die core r index cg rank base ids false entry
      = withDies (placeBlock s die core r index cg rank base ids false entry) D := by
  unfold placeBlock zeroScratch
  dsimp only
  rw [modCore_withDies]
  rfl

/-- The failed cores of a die are the same with other dies. -/
def SameFailed (s : State) (D : Vector Die 8) (die : Nat) : Prop := (getDie (withDies s D) die).failedCores = (getDie s die).failedCores

theorem fitCore_withDies {s : State} {D : Vector Die 8} {die : Nat} (h : SameFailed s D die) (core : Nat) (r : BindRec) :
    fitCore (withDies s D) die core r = fitCore s die core r := by
  unfold fitCore
  rw [h]
  rfl

theorem groupPlace_withDies {s : State} {D : Vector Die 8} {die : Nat} (h : SameFailed s D die) (r : BindRec) (k : Nat) (order : List Nat) :
    groupPlace (withDies s D) die r k order = groupPlace s die r k order := by
  induction order with
  | nil => rfl
  | cons c rest ih => simp only [groupPlace, clusterFit, fitCore_withDies h, ih]

theorem placeBlocks_withDies (s : State) (D : Vector Die 8) (die : Nat) (r : BindRec) (cg : Nat) (l : List ((Nat × Nat × List GangId) × Nat)) :
    placeBlocks (withDies s D) die r cg l = withDies (placeBlocks s die r cg l) D :=
  List.foldl_hom (fun s => withDies s D) fun s x => placeBlock_withDies s D die x.1.1 r _ cg x.2 x.1.2.1 x.1.2.2 (recEntry s r)

theorem groupPlaced_withDies (s : State) (D : Vector Die 8) (die cl : Nat) (r : BindRec) (l : List (Nat × Nat × List GangId)) :
    groupPlaced (withDies s D) die r cl l = (withDies (groupPlaced s die r cl l).1 D, (groupPlaced s die r cl l).2) := by
  have hblocks := placeBlocks_withDies { s with nextUid := s.nextUid + 1 } D die r s.nextUid (l.zip (List.range (groupSize r)))
  exact congrArg (fun u => (modGroup u r.dgroup DieGroup.begun, r.moved (groupSize r) (if r.spread then cl else r.lastcl))) hblocks

theorem placeGroup_withDies {s : State} {D : Vector Die 8} {die : Nat} (h : SameFailed s D die) (r : BindRec) :
    placeGroup (withDies s D) die r = (placeGroup s die r).map fun p => (withDies p.1 D, p.2) := by
  rw [placeGroup_eq, placeGroup_eq, groupPlace_withDies h]
  split
  case isTrue => rfl
  case isFalse =>
    rw [Option.map_map]
    exact congrArg (Option.map · _) (funext fun x => groupPlaced_withDies s D die x.1 r x.2)

theorem placeRecord_withDies {D : Vector Die 8} {die : Nat} : ∀ (fuel : Nat) {s : State} (r : BindRec), SameFailed s D die →
    placeRecord fuel (withDies s D) die r = (withDies (placeRecord fuel s die r).1 D, (placeRecord fuel s die r).2)
  | 0, _, _, _ => rfl
  | fuel + 1, s, r, h => by
    rw [placeRecord, placeRecord, placeGroup_withDies h]
    cases hgroup : placeGroup s die r with
    | none => rfl
    | some p =>
      obtain ⟨_, _, _, _, _, _, _, _, hplaced⟩ := placeGroup_placedOf (t := p.1) (r' := p.2) hgroup
      have h' : SameFailed p.1 D die := by
        unfold SameFailed getDie
        rw [hplaced.dies]
        exact h
      exact placeRecord_withDies fuel p.2 h'

theorem placeRec_withDies {s : State} {D : Vector Die 8} {die : Nat} (h : SameFailed s D die) (r : BindRec) :
    placeRec (withDies s D) die r = (withDies (placeRec s die r).1 D, (placeRec s die r).2) := by
  unfold placeRec
  dsimp only
  rw [placeRecord_withDies (r.left + 1) r h]
  split <;> rfl

end Sys2Proof.Machine

/-!
A placement opportunity serves the records of its die in ascending index (R203).
-/
namespace Sys2Proof.Machine

/-- Serve the record at an index (R203). -/
def serveAt (die : Nat) (s : State) (i : Nat) : State :=
  match bindAt (getDie s die).binds i with
  | none => s
  | some (_, r) =>
    if r.valid && ctxActive s r.ctx && !dieLost s die then putBind (placeRec s die r).1 die i (placeRec s die r).2 else s

theorem placeAll_eq (s : State) (die : Nat) : placeAll s die = ((getDie s die).binds.map fun b => b.1).foldl (serveAt die) s := rfl

theorem serveAt_of_none {die i : Nat} {s : State} (h : bindAt (getDie s die).binds i = none) : serveAt die s i = s := by
  rw [serveAt, h]

theorem serveAt_of_some {die i j : Nat} {s : State} {r : BindRec} (h : bindAt (getDie s die).binds i = some (j, r)) :
    serveAt die s i = if r.valid && ctxActive s r.ctx && !dieLost s die then putBind (placeRec s die r).1 die i (placeRec s die r).2
      else s := by
  rw [serveAt, h]

theorem getDie_congr {s t : State} (h : t.dies = s.dies) (die : Nat) : getDie t die = getDie s die := by rw [getDie, getDie, h]

theorem placed_putBind (s : State) (die i : Nat) (r : BindRec) : Placed die s (putBind s die i r) [] [] := .of_eq rfl rfl rfl rfl le_rfl

/-- Serving a record places blocks on its die and leaves the other records as they are. -/
theorem serveAt_placed (die i j : Nat) (s : State) :
    ∃ new gs, Placed die s (serveAt die s j) new gs
      ∧ (i ≠ j → bindAt (getDie (serveAt die s j) die).binds i = bindAt (getDie s die).binds i) := by
  cases h : bindAt (getDie s die).binds j with
  | none => exact ⟨[], [], by rw [serveAt_of_none h]; exact ⟨.of_eq rfl rfl rfl rfl le_rfl, fun _ => rfl⟩⟩
  | some b =>
    rw [serveAt_of_some (j := b.1) (r := b.2) h]
    split
    case isFalse => exact ⟨[], [], .of_eq rfl rfl rfl rfl le_rfl, fun _ => rfl⟩
    case isTrue =>
      obtain ⟨n, new, gs, hserved, _⟩ := placeRec_served s die b.2
      refine ⟨new, gs, ?_, fun hne => ?_⟩
      · simpa only [List.append_nil] using hserved.placed.placed.trans (placed_putBind _ die j _)
      · rw [bindAt_putBind, if_neg hne, getDie_congr hserved.placed.dies]

theorem serveAll_placed (die i : Nat) : ∀ (js : List Nat) (s : State), i ∉ js →
    ∃ new gs, Placed die s (js.foldl (serveAt die) s) new gs
      ∧ bindAt (getDie (js.foldl (serveAt die) s) die).binds i = bindAt (getDie s die).binds i
  | [], _, _ => ⟨[], [], .of_eq rfl rfl rfl rfl le_rfl, rfl⟩
  | j :: js, s, h => by
    obtain ⟨hij, hi⟩ := not_or.mp (List.mem_cons.not.mp h)
    obtain ⟨new, gs, hone, hkeep⟩ := serveAt_placed die i j s
    obtain ⟨new', gs', hrest, hkeep'⟩ := serveAll_placed die i js (serveAt die s j) hi
    exact ⟨_, _, hone.trans hrest, hkeep'.trans (hkeep hij)⟩

theorem putBind_failedCores (s : State) (die i : Nat) (r : BindRec) :
    (getDie (putBind s die i r) die).failedCores = (getDie s die).failedCores := by
  rw [putBind, getDie_modDie]

/-- No group of the record can be placed. -/
def Blocked (s : State) (die : Nat) (r : BindRec) : Prop := r.valid = true → ctxActive s r.ctx = true → (placeRec s die r).2.left = r.left

/-- The records of a die among others. -/
def bindsIn (s : State) (D : Vector Die 8) (die : Nat) : List (Nat × BindRec) := (getDie (withDies s D) die).binds

/-- Serving a record that cannot be placed changes nothing but the die's records, of which it takes away at most its own. -/
theorem serveAt_blocked {s : State} {D : Vector Die 8} {die j : Nat} (hfailed : SameFailed s D die)
    (hblocked : ∀ r, bindAt (bindsIn s D die) j = some (j, r) → Blocked s die r) :
    ∃ D', serveAt die (withDies s D) j = withDies s D' ∧ SameFailed s D' die
      ∧ (∀ k b, bindAt (bindsIn s D' die) k = some b → bindAt (bindsIn s D die) k = some b)
      ∧ ∀ k, k ≠ j → bindAt (bindsIn s D' die) k = bindAt (bindsIn s D die) k := by
  cases h : bindAt (bindsIn s D die) j with
  | none => exact ⟨D, serveAt_of_none h, hfailed, fun _ _ h => h, fun _ _ => rfl⟩
  | some b =>
    obtain ⟨j', r⟩ := b
    obtain rfl : j' = j := (bindAt_some h).2
    rw [serveAt_of_some h]
    split
    case isFalse => exact ⟨D, rfl, hfailed, fun _ _ h => h, fun _ _ => rfl⟩
    case isTrue hserve =>
      simp only [Bool.and_eq_true] at hserve
      obtain ⟨⟨hvalid, hactive⟩, _⟩ := hserve
      have hnothing : placeRec (withDies s D) die r = (withDies s D, r) := by
        rw [placeRec_withDies hfailed, placeRec_of_left (hblocked r h hvalid hactive)]
      rw [hnothing]
      have hput (k : Nat) := bindAt_putBind (withDies s D) die j' k r
      refine ⟨(putBind (withDies s D) die j' r).dies, rfl, ?_, fun k b hb => ?_, fun k hk => ?_⟩
      · exact (putBind_failedCores (withDies s D) die j' r).trans hfailed
      · have hb := (hput k).symm.trans hb
        by_cases hk : k = j'
        · subst hk
          rw [if_pos rfl] at hb
          split at hb
          · cases hb
          · rw [← hb]
            exact h
        · rwa [if_neg hk] at hb
      · exact (hput k).trans (if_neg hk)

theorem serveAll_blocked {s : State} {die i : Nat} : ∀ {js : List Nat} {D : Vector Die 8}, SameFailed s D die → i ∉ js →
    (∀ j ∈ js, ∀ r, bindAt (bindsIn s D die) j = some (j, r) → Blocked s die r) →
    ∃ D', js.foldl (serveAt die) (withDies s D) = withDies s D' ∧ SameFailed s D' die
      ∧ bindAt (bindsIn s D' die) i = bindAt (bindsIn s D die) i
  | [], D, hfailed, _, _ => ⟨D, rfl, hfailed, rfl⟩
  | j :: js, D, hfailed, hi, hblocked => by
    obtain ⟨hij, hi⟩ := not_or.mp (List.mem_cons.not.mp hi)
    obtain ⟨hj, hjs⟩ := List.forall_mem_cons.mp hblocked
    obtain ⟨D1, hone, hfailed1, hold, hkeep⟩ := serveAt_blocked hfailed hj
    obtain ⟨D2, hrest, hfailed2, hkeep2⟩ := serveAll_blocked hfailed1 hi fun k hk r hr => hjs k hk r (hold k _ hr)
    exact ⟨D2, by rw [List.foldl_cons, hone, hrest], hfailed2, hkeep2.trans (hkeep i hij)⟩

/-- What the opportunity leaves at the index of a record that has been served. -/
def leftAt (i : Nat) (r : BindRec) : Option (Nat × BindRec) := if decide (r.left = 0) && !r.standing then none else some (i, r)

theorem bindAt_none {l : List (Nat × BindRec)} {i : Nat} : bindAt l i = none ↔ ∀ b ∈ l, b.1 ≠ i := by
  simp [bindAt]

theorem bindAt_of_mem_map {l : List (Nat × BindRec)} {j : Nat} (h : j ∈ l.map fun b => b.1) : ∃ b ∈ l, bindAt l j = some b := by
  obtain ⟨b, hb, rfl⟩ := List.mem_map.mp h
  cases hc : bindAt l b.1 with
  | none => exact absurd rfl (bindAt_none.mp hc b hb)
  | some c => exact ⟨c, (bindAt_some hc).1, rfl⟩

/-- The records before the first that can be placed place nothing, it is served from the state as it was, and those after it follow. -/
theorem placementOpportunity_served {s : State} {die i : Nat} {r : BindRec} {pre post : List (Nat × BindRec)}
    (hchance : (getDie s die).chance = true) (hlost : dieLost s die = false) (hbinds : (getDie s die).binds = pre ++ (i, r) :: post)
    (hdistinct : ∀ b ∈ pre ++ post, b.1 ≠ i) (hblocked : ∀ b ∈ pre, Blocked s die b.2) (hvalid : r.valid = true)
    (hactive : ctxActive s r.ctx = true) :
    ∃ t n new gs new' gs', exec (.placementOpportunity die) s = .next t ∧ Served die r s (placeRec s die r) n new gs
      ∧ (r.coop = true → n = 0 ∨ n = r.left) ∧ Placed die s t (new ++ new') (gs ++ gs')
      ∧ bindAt (getDie t die).binds i = leftAt i (placeRec s die r).2 := by
  have hpre : ∀ b ∈ pre, b.1 ≠ i := fun b hb => hdistinct b (List.mem_append_left _ hb)
  have hpost : ∀ b ∈ post, b.1 ≠ i := fun b hb => hdistinct b (List.mem_append_right _ hb)
  have hD0 : modDie s die (fun d => { d with chance := false }) = withDies s (modDie s die fun d => { d with chance := false }).dies := rfl
  generalize (modDie s die fun d => { d with chance := false }).dies = D0 at hD0
  have hdie : getDie (withDies s D0) die = { getDie s die with chance := false } := by rw [← hD0, getDie_modDie]
  have hbinds0 : bindsIn s D0 die = pre ++ (i, r) :: post := by rw [bindsIn, hdie, ← hbinds]
  have hfailed : SameFailed s D0 die := by rw [SameFailed, hdie]
  have hat : bindAt (bindsIn s D0 die) i = some (i, r) := by
    rw [hbinds0, bindAt_append, bindAt_none.mpr hpre]
    simp [bindAt]
  obtain ⟨D1, hfold, hfailed1, hat1⟩ := serveAll_blocked (js := pre.map fun b => b.1) (i := i) hfailed (by simpa using fun r hr => hpre _ hr rfl) (by
    intro j hj r' hr'
    obtain ⟨b, hb, hbat⟩ := bindAt_of_mem_map hj
    rw [hbinds0, bindAt_append, hbat] at hr'
    obtain rfl : b = (j, r') := by simpa using hr'
    exact hblocked _ hb)
  obtain ⟨n, new, gs, hserved, hcoop⟩ := placeRec_served s die r
  have hserve : serveAt die (withDies s D1) i = putBind (withDies (placeRec s die r).1 D1) die i (placeRec s die r).2 := by
    rw [serveAt_of_some (hat1.trans hat), placeRec_withDies hfailed1]
    exact if_pos (by simp only [hvalid, Bool.true_and]; exact Bool.and_eq_true_iff.mpr ⟨hactive, by rw [← Bool.not_false, ← hlost]; rfl⟩)
  have hplaced : Placed die s (serveAt die (withDies s D1) i) new gs := by
    rw [hserve]
    have hdies : Placed die (placeRec s die r).1 (putBind (withDies (placeRec s die r).1 D1) die i (placeRec s die r).2) [] [] :=
      .of_eq rfl rfl rfl rfl le_rfl
    simpa only [List.append_nil] using hserved.placed.placed.trans hdies
  have hleft : bindAt (getDie (serveAt die (withDies s D1) i) die).binds i = leftAt i (placeRec s die r).2 := by
    rw [hserve, bindAt_putBind, if_pos rfl, leftAt]
  obtain ⟨new', gs', hrest, hkeep⟩ := serveAll_placed die i (post.map fun b => b.1) (serveAt die (withDies s D1) i)
    (by simpa using fun r hr => hpost _ hr rfl)
  refine ⟨_, n, new, gs, new', gs', ?_, hserved, hcoop, hplaced.trans hrest, hkeep.trans hleft⟩
  change execPlacementOpportunity die s = _
  have hall : placeAll (withDies s D0) die = (post.map fun b => b.1).foldl (serveAt die) (serveAt die (withDies s D1) i) := by
    have hlist : (getDie (withDies s D0) die).binds = pre ++ (i, r) :: post := hbinds0
    rw [placeAll_eq, hlist, List.map_append, List.map_cons, List.foldl_append, hfold, List.foldl_cons]
  rw [execPlacementOpportunity, if_pos hchance, hD0, hall]

end Sys2Proof.Machine

/-!
The head of a spawn queue becomes a record, or its group completes LAUNCH_TOO_LARGE (R204, R205).
-/
namespace Sys2Proof.Machine

/-- A state whose spawn queue of a context on a die has lost its head. -/
def queueLeft (s : State) (die ctx : Nat) (rest : List SpawnReq) : State := modMailbox s die ctx fun m => { m with spawnq := rest }

theorem queueLeft_spawnq (s : State) (die ctx : Nat) (rest : List SpawnReq) : (getMailbox (queueLeft s die ctx rest) die ctx).spawnq = rest := by
  rw [queueLeft, getMailbox_modMailbox]
  exact fun _ => rfl

theorem queueLeft_frame (s : State) (die ctx : Nat) (rest : List SpawnReq) :
    (queueLeft s die ctx rest).mem = s.mem ∧ (queueLeft s die ctx rest).dies = s.dies := by
  refine ⟨modMailbox_mem _ _ _ _, ?_⟩
  unfold queueLeft modMailbox
  split <;> rfl

theorem groupFor_frame (s : State) (die ctx : Nat) (q : SpawnReq) :
    (groupFor s die ctx q).1.mem = s.mem ∧ (groupFor s die ctx q).1.mailboxes = s.mailboxes ∧ (groupFor s die ctx q).1.dies = s.dies := by
  unfold groupFor
  split
  · exact ⟨rfl, rfl, rfl⟩
  · split <;> exact ⟨rfl, rfl, rfl⟩

/-- The state in which a request's group has been found, the request taken from its queue. -/
def grouped (s : State) (die ctx : Nat) (q : SpawnReq) (rest : List SpawnReq) : State × Nat := groupFor (queueLeft s die ctx rest) die ctx q

theorem grouped_frame (s : State) (die ctx : Nat) (q : SpawnReq) (rest : List SpawnReq) :
    (grouped s die ctx q rest).1.mem = s.mem ∧ (grouped s die ctx q rest).1.dies = s.dies
      ∧ (getMailbox (grouped s die ctx q rest).1 die ctx).spawnq = rest := by
  obtain ⟨hmem, hdies⟩ := queueLeft_frame s die ctx rest
  obtain ⟨hmem', hmail, hdies'⟩ := groupFor_frame (queueLeft s die ctx rest) die ctx q
  refine ⟨hmem'.trans hmem, hdies'.trans hdies, ?_⟩
  rw [grouped, getMailbox_congr hmail, queueLeft_spawnq]

section Taken
variable {s : State} {die ctx : Nat} {q : SpawnReq} {rest : List SpawnReq} {c : Context}

theorem takeSpawn_standing {i : Nat} {r : BindRec} (hq : (getMailbox s die ctx).spawnq = q :: rest) (hc : findContext s ctx = some c)
    (hstand : standingFor (getDie s die) ctx q = some (i, r)) (hleft : r.left = 0) :
    takeSpawn s die ctx
      = some (putBind (bindBlocks (grouped s die ctx q rest).1 (grouped s die ctx q rest).2 q.count.toNat) die i
          { r with next := q.first, left := q.count.toNat, args := q.args, grid := q.grid, token := q.token, argLen := q.argLen,
                   dgroup := (grouped s die ctx q rest).2 }) := by
  rw [takeSpawn, hq, hc]
  dsimp only
  rw [hstand]
  dsimp only
  rw [if_neg (not_not.mpr hleft)]
  rfl

theorem takeSpawn_free {i : Nat} {k : Kernel} (hq : (getMailbox s die ctx).spawnq = q :: rest) (hc : findContext s ctx = some c)
    (hstand : standingFor (getDie s die) ctx q = none) (hk : findKernel s ctx q.kdesc = some k) (hi : freeBind (getDie s die) = some i) :
    takeSpawn s die ctx
      = if couldFit (grouped s die ctx q rest).1 die (recordFor c k die q (grouped s die ctx q rest).2)
        then some (putBind (bindBlocks (grouped s die ctx q rest).1 (grouped s die ctx q rest).2 q.count.toNat) die i
          (recordFor c k die q (grouped s die ctx q rest).2))
        else some (refuseBlocks (grouped s die ctx q rest).1 (grouped s die ctx q rest).2 q.count.toNat) := by
  rw [takeSpawn, hq, hc]
  dsimp only
  rw [hstand, hk, hi]
  rfl

theorem exec_slotRecordWrite {u : State} (hactive : ctxActive s ctx = true) (hlost : dieLost s die = false)
    (h : takeSpawn s die ctx = some u) : exec (.slotRecordWrite die ctx) s = .next (giveChance u die) := by
  change execSlotRecordWrite die ctx s = _
  rw [execSlotRecordWrite, hactive, hlost, h]
  rfl

theorem giveChance_putBind {u : State} {i n g : Nat} {r : BindRec} (hleft : r.left ≠ 0) :
    (i, r) ∈ (getDie (giveChance (putBind (bindBlocks u g n) die i r) die) die).binds
      ∧ (getDie (giveChance (putBind (bindBlocks u g n) die i r) die) die).chance = true
      ∧ (giveChance (putBind (bindBlocks u g n) die i r) die).mem = u.mem
      ∧ getMailbox (giveChance (putBind (bindBlocks u g n) die i r) die) die ctx = getMailbox u die ctx := by
  rw [giveChance, getDie_modDie]
  exact ⟨mem_putBind_binds _ die i r hleft, rfl, rfl, rfl⟩

theorem giveChance_refuseBlocks {u : State} {n g : Nat} :
    (getDie (giveChance (refuseBlocks u g n) die) die).binds = (getDie u die).binds
      ∧ (∀ d ∈ (giveChance (refuseBlocks u g n) die).groups, d.uid = g → d.tooLarge = true)
      ∧ (giveChance (refuseBlocks u g n) die).mem = u.mem
      ∧ getMailbox (giveChance (refuseBlocks u g n) die) die ctx = getMailbox u die ctx := by
  rw [giveChance, getDie_modDie]
  refine ⟨rfl, fun d hd huid => ?_, rfl, rfl⟩
  obtain ⟨x, _, rfl⟩ := List.mem_map.mp hd
  by_cases hx : x.uid = g
  · rw [if_pos hx]
  · rw [if_neg hx] at huid
    exact absurd huid hx

theorem slotRecordWrite_standing {i : Nat} {r : BindRec} (hactive : ctxActive s ctx = true) (hlost : dieLost s die = false)
    (hq : (getMailbox s die ctx).spawnq = q :: rest) (hc : findContext s ctx = some c) (hcount : q.count.toNat ≠ 0)
    (hstand : standingFor (getDie s die) ctx q = some (i, r)) (hleft : r.left = 0) :
    ∃ t r', exec (.slotRecordWrite die ctx) s = .next t ∧ (getMailbox t die ctx).spawnq = rest ∧ (i, r') ∈ (getDie t die).binds
      ∧ (getDie t die).chance = true
      ∧ r'.next = q.first ∧ r'.left = q.count.toNat ∧ r'.args = q.args ∧ r'.grid = q.grid ∧ r'.token = q.token
      ∧ r'.kdesc = r.kdesc ∧ r'.cores = r.cores ∧ t.mem = s.mem := by
  obtain ⟨hmem, _, hspawnq⟩ := grouped_frame s die ctx q rest
  obtain ⟨hbind, hchance, hmem', hmail⟩ := giveChance_putBind (die := die) (ctx := ctx) (u := (grouped s die ctx q rest).1) (i := i)
    (n := q.count.toNat) (g := (grouped s die ctx q rest).2)
    (r := { r with next := q.first, left := q.count.toNat, args := q.args, grid := q.grid, token := q.token, argLen := q.argLen,
                   dgroup := (grouped s die ctx q rest).2 }) hcount
  exact ⟨_, _, exec_slotRecordWrite hactive hlost (takeSpawn_standing hq hc hstand hleft), by rw [hmail, hspawnq], hbind, hchance,
    rfl, rfl, rfl, rfl, rfl, rfl, rfl, hmem'.trans hmem⟩

theorem slotRecordWrite_fits {i : Nat} {k : Kernel} (hactive : ctxActive s ctx = true) (hlost : dieLost s die = false)
    (hcount : q.count.toNat ≠ 0)
    (htake : takeSpawn s die ctx = some (putBind (bindBlocks (grouped s die ctx q rest).1 (grouped s die ctx q rest).2 q.count.toNat) die i
      (recordFor c k die q (grouped s die ctx q rest).2))) :
    ∃ t, exec (.slotRecordWrite die ctx) s = .next t ∧ (getMailbox t die ctx).spawnq = rest
      ∧ (i, recordFor c k die q (grouped s die ctx q rest).2) ∈ (getDie t die).binds ∧ (getDie t die).chance = true ∧ t.mem = s.mem := by
  obtain ⟨hmem, _, hspawnq⟩ := grouped_frame s die ctx q rest
  obtain ⟨hbind, hchance, hmem', hmail⟩ := giveChance_putBind (die := die) (ctx := ctx) (u := (grouped s die ctx q rest).1) (i := i)
    (n := q.count.toNat) (g := (grouped s die ctx q rest).2) (r := recordFor c k die q (grouped s die ctx q rest).2) hcount
  exact ⟨_, exec_slotRecordWrite hactive hlost htake, by rw [hmail, hspawnq], hbind, hchance, hmem'.trans hmem⟩

theorem slotRecordWrite_refused (hactive : ctxActive s ctx = true) (hlost : dieLost s die = false)
    (htake : takeSpawn s die ctx = some (refuseBlocks (grouped s die ctx q rest).1 (grouped s die ctx q rest).2 q.count.toNat)) :
    ∃ t, exec (.slotRecordWrite die ctx) s = .next t ∧ (getMailbox t die ctx).spawnq = rest
      ∧ (getDie t die).binds = (getDie s die).binds ∧ (∀ d ∈ t.groups, d.uid = (grouped s die ctx q rest).2 → d.tooLarge = true)
      ∧ t.mem = s.mem := by
  obtain ⟨hmem, hdies, hspawnq⟩ := grouped_frame s die ctx q rest
  obtain ⟨hbinds, htoo, hmem', hmail⟩ := giveChance_refuseBlocks (die := die) (ctx := ctx) (u := (grouped s die ctx q rest).1)
    (n := q.count.toNat) (g := (grouped s die ctx q rest).2)
  exact ⟨_, exec_slotRecordWrite hactive hlost htake, by rw [hmail, hspawnq], hbinds.trans (by rw [getDie_congr hdies]), htoo,
    hmem'.trans hmem⟩

end Taken

/-! ## What has been placed (R84, R196, R199) -/

theorem Served.length {die n : Nat} {r : BindRec} {s : State} {p : State × BindRec} {new : List Block} {gs : List Gang}
    (h : Served die r s p n new gs) : new.length = n := by
  have hlen := congrArg List.length h.placed.index
  simpa [nextIndices] using hlen

/-- The `j`-th of the blocks has the record's next index moved by `j`. -/
theorem Served.block {die n j : Nat} {r : BindRec} {s : State} {p : State × BindRec} {new : List Block} {gs : List Gang}
    (h : Served die r s p n new gs) (hj : j < n) : ∃ b, new[j]? = some b ∧ b.index = r.next + BitVec.ofNat 32 j ∧ Carries r b := by
  have hb : j < new.length := h.length ▸ hj
  refine ⟨new[j], List.getElem?_eq_getElem hb, ?_, h.placed.carries _ (List.getElem_mem hb)⟩
  have hindex : (new.map fun b => b.index)[j]? = (nextIndices r n)[j]? := by rw [h.placed.index]
  simpa [nextIndices, hb, hj] using hindex

theorem startArch_fresh (entry : BitVec 32) (stamp : Nat) :
    (startArch entry stamp).mode = .running ∧ ((startArch entry stamp).slot .a).live = true ∧ ((startArch entry stamp).slot .b).live = false
      ∧ ((startArch entry stamp).slot .a).pc = entry ∧ (∀ n, (startArch entry stamp).vreg n = none)
      ∧ (∀ n, (startArch entry stamp).sreg n = none) :=
  ⟨rfl, rfl, rfl, rfl, fun n => by simp [Arch.vreg, startArch, Vector.get_eq_getElem],
    fun n => by simp [Arch.sreg, startArch, Vector.get_eq_getElem]⟩

/-- A served record with no block left is free unless it stands. -/
theorem leftAt_moved {i n cl : Nat} {r : BindRec} (hle : n ≤ r.left) :
    leftAt i (r.moved n cl) = if n = r.left ∧ r.standing = false then none else some (i, r.moved n cl) := by
  have hzero : r.left - n = 0 ↔ n = r.left := by omega
  simp [leftAt, BindRec.moved, hzero]

end Sys2Proof.Machine

namespace Sys2Proof
open Machine

/-- Settles O41: the head of a spawn queue goes where its standing or its free record is; the record that an opportunity can serve is
served from the state as it stands, since those before it place nothing, and each of its blocks starts its gangs. -/
theorem placementSteps : Obligations.PlacementSteps := by
  unfold Obligations.PlacementSteps
  constructor
  · intro s die ctx q rest c hactive hlost hq hc hcount
    have hpos : q.count.toNat ≠ 0 := fun h => hcount (BitVec.eq_of_toNat_eq h)
    refine ⟨fun i r hstand hleft => slotRecordWrite_standing hactive hlost hq hc hpos hstand hleft, ?_⟩
    intro k i g r hstand hk hi hg hr
    obtain rfl : g = grouped s die ctx q rest := hg
    subst hr
    have htake := takeSpawn_free hq hc hstand hk hi
    exact ⟨fun hfit => slotRecordWrite_fits hactive hlost hpos (htake.trans (if_pos hfit)),
      fun hfit => slotRecordWrite_refused hactive hlost (htake.trans (if_neg (by simp [hfit])))⟩
  · intro s die i r pre post hchance hlost hbinds hdistinct hblocked hvalid hactive hless
    obtain ⟨t, n, new, gs, new', gs', hexec, hserved, hcoop, hplaced, hat⟩ :=
      placementOpportunity_served hchance hlost hbinds hdistinct hblocked hvalid hactive
    have hle := hserved.le
    have hpos : 0 < n := by
      rw [hserved.left] at hless
      omega
    obtain ⟨cl, hmoved⟩ := hserved.moved
    rw [hmoved, leftAt_moved hle] at hat
    refine ⟨t, n, new ++ new', gs ++ gs', hexec, hplaced.mem, hpos, hle, hserved.whole, ?_, ?_, ?_, hplaced.blocks, ?_, ?_,
      hplaced.gangs, hplaced.owners, ?_⟩
    · intro h
      exact (hcoop h).resolve_left (Nat.ne_of_gt hpos)
    · intro hall hstanding
      rw [if_pos ⟨hall, hstanding⟩] at hat
      exact bindAt_none.mp hat
    · intro hmore
      have hstays : ¬(n = r.left ∧ r.standing = false) := by
        rintro ⟨hall, hstanding⟩
        rcases hmore with h | h
        · exact absurd hall (Nat.ne_of_lt h)
        · exact Bool.false_ne_true (hstanding.symm.trans h)
      rw [if_neg hstays] at hat
      exact ⟨cl, (bindAt_some hat).1⟩
    · intro j hj
      obtain ⟨b, hb, hindex, hcarries⟩ := hserved.block hj
      refine ⟨b, ?_, hindex, hcarries.ctx, hcarries.kdesc, hcarries.args, hcarries.grid, hcarries.dgroup, hcarries.places, hcarries.core⟩
      rw [List.getElem?_append_left (by rw [hserved.length]; exact hj), hb]
    · intro b hb
      have hfresh := hplaced.fresh b hb
      exact ⟨hfresh.onDie, hfresh.state, hfresh.fail, hfresh.chans, hfresh.places⟩
    · intro g hg
      obtain ⟨b, hb, hstart⟩ := hplaced.started g hg
      obtain ⟨entry, stamp, harch, hentry⟩ := hstart.arch
      obtain ⟨hmode, ha, hb', hpc, hv, hs⟩ := startArch_fresh entry stamp
      rw [harch]
      refine ⟨hmode, ha, hb', ?_, hv, hs, rfl, rfl, rfl, rfl, hstart.ld, hstart.st, hstart.cp, hstart.tl⟩
      rintro k hk ⟨b', hmem, huid, hctx, hkdesc⟩
      obtain rfl : b' = b := hplaced.distinct b' hmem b hb (huid.trans hstart.block.symm)
      rw [← hctx, ← hkdesc] at hk
      rw [hpc, hentry k hk]

end Sys2Proof

/-!
Barrier words of a scratchpad: their events, their completion test, and the instructions BARI, BARX and BARW that act on one at once
(R227-R239).
-/
namespace Sys2Proof.Machine

/-! ## Events on a barrier word (R230, R231) -/

theorem barTest_of_complete {b : BarWord} (harrived : b.arrived = b.expect) (hpending : b.pending = 0#36) :
    barTest b = { b with arrived := 0#16, phase := !b.phase } := if_pos ⟨harrived, hpending⟩

theorem barTest_of_open {b : BarWord} (h : b.arrived ≠ b.expect ∨ b.pending ≠ 0#36) : barTest b = b :=
  if_neg fun hcomplete => h.elim (absurd hcomplete.1) (absurd hcomplete.2)

theorem bariOnce_of_zero {b : BarWord} (n : BitVec 8) (h : b.expect = 0#16) : bariOnce n b = { b with expect := n.setWidth 16 } := if_pos h

theorem bariOnce_of_same {b : BarWord} {n : BitVec 8} (hset : b.expect ≠ 0#16) (h : b.expect = n.setWidth 16) : bariOnce n b = b := by
  rw [bariOnce, if_neg hset, if_pos h]

theorem bariOnce_of_other {b : BarWord} {n : BitVec 8} (hset : b.expect ≠ 0#16) (h : b.expect ≠ n.setWidth 16) :
    bariOnce n b = { b with err := true } := by
  rw [bariOnce, if_neg hset, if_neg h]

theorem barArrive_of_lt {b : BarWord} (h : b.arrived.toNat < b.expect.toNat) : barArrive b = barTest { b with arrived := b.arrived + 1#16 } :=
  if_pos h

theorem barArrive_of_le {b : BarWord} (h : b.expect.toNat ≤ b.arrived.toNat) : barArrive b = { b with err := true } :=
  if_neg (Nat.not_lt.mpr h)

theorem barOwe_of_outside {b : BarWord} {n : Int} (h : b.pending.toInt + n < -(2 ^ 35) ∨ 2 ^ 35 ≤ b.pending.toInt + n) : barOwe b n = none :=
  if_neg (by omega)

/-- A PENDING in range is held as it is, so that the word is tested with it. -/
theorem barOwe_of_inside {b : BarWord} {n : Int} (hlo : -(2 ^ 35) ≤ b.pending.toInt + n) (hhi : b.pending.toInt + n < 2 ^ 35) :
    ∃ p : BitVec 36, p.toInt = b.pending.toInt + n ∧ barOwe b n = some (barTest { b with pending := p }) :=
  ⟨BitVec.ofInt 36 (b.pending.toInt + n), BitVec.toInt_ofInt_eq_self (by decide) hlo hhi, if_pos (by omega)⟩

theorem barSignal_of_outside {b : BarWord} {n : Nat} (h : b.pending.toInt - n < -(2 ^ 35)) : barSignal b n = { b with err := true } := by
  rw [barSignal, barOwe_of_outside (.inl (by omega))]

/-- Bytes that come leave PENDING below its upper bound, so that only the lower one can be passed. -/
theorem barSignal_of_inside {b : BarWord} {n : Nat} (h : -(2 ^ 35) ≤ b.pending.toInt - n) :
    ∃ p : BitVec 36, p.toInt = b.pending.toInt - n ∧ barSignal b n = barTest { b with pending := p } := by
  have hpending : b.pending.toInt < 2 ^ 35 := BitVec.toInt_lt
  obtain ⟨p, hp, howe⟩ := barOwe_of_inside (b := b) (n := -(n : Int)) (by omega) (by omega)
  exact ⟨p, by omega, by rw [barSignal, howe]⟩

/-! ## A barrier word in its 16 bytes (R227) -/

/-- The bits of a barrier word, with the widths of its fields kept apart. -/
theorem extractLsb'_barBits (b : BarWord) (start len : Nat) :
    (barBits b).extractLsb' start len = BitVec.extractLsb' (n := 58 + (1 + (1 + (36 + (16 + 16))))) start len
      (b.rest ++ (bit1 b.err ++ (bit1 b.phase ++ (b.pending ++ (b.arrived ++ b.expect))))) := rfl

theorem getLsbD_barBits (b : BarWord) (i : Nat) :
    (barBits b).getLsbD i = BitVec.getLsbD (w := 58 + (1 + (1 + (36 + (16 + 16)))))
      (b.rest ++ (bit1 b.err ++ (bit1 b.phase ++ (b.pending ++ (b.arrived ++ b.expect))))) i := rfl

/-- The fields lie side by side: each is read back from the bits that it was written to. -/
@[simp] theorem barOfBits_barBits (b : BarWord) : barOfBits (barBits b) = b := by
  simp (disch := decide) only [barOfBits, extractLsb'_barBits, getLsbD_barBits, BitVec.extractLsb'_append_eq_of_le,
    BitVec.extractLsb'_append_eq_of_add_le, BitVec.getLsbD_append, bit1, -Nat.reduceAdd]
  simp

/-! ## A barrier word in a scratchpad -/

theorem getCore_congr {s t : State} (h : t.cores = s.cores) (die core : Nat) : getCore t die core = getCore s die core := by
  simp only [getCore_eq_lookupOr, h]

theorem readBar_congr {s t : State} (h : t.cores = s.cores) (die core pos : Nat) : readBar t die core pos = readBar s die core pos := by
  rw [readBar, scratchNat, getCore_congr h]; rfl

theorem readBar_writeBar {s : State} {die core : Nat} (hwf : Memory.wf (getCore s die core).scratch = true) (pos : Nat) (b : BarWord) :
    readBar (writeBar s die core pos b) die core pos = b := by
  rw [readBar, writeBar, scratchNat_scratchWrite hwf, Nat.mod_eq_of_lt (toNat_lt_bytes (n := 16) (barBits b)), BitVec.ofNat_toNat,
    BitVec.setWidth_eq, barOfBits_barBits]

@[simp] theorem writeBar_gangs (s : State) (die core pos : Nat) (b : BarWord) : (writeBar s die core pos b).gangs = s.gangs :=
  modCore_gangs _ _ _ _

end Sys2Proof.Machine

namespace Sys2Proof
open Machine

theorem onlySpan_congr {s t u : State} {die core pos n : Nat} (hmem : t.mem = u.mem) (hcores : t.cores = u.cores)
    (h : OnlySpan s u die core pos n) : OnlySpan s t die core pos n := by
  refine ⟨hmem.trans h.1, fun d k q hout => ?_⟩
  rw [getCore_congr hcores]
  exact h.2 d k q hout

/-- A barrier word written in a machine that holds the bytes of `s`: no byte outside it has changed, and it reads back. -/
theorem writeBar_spec {s u : State} {die core : Nat} (hmem : u.mem = s.mem) (hcores : u.cores = s.cores)
    (hwf : Memory.wf (getCore s die core).scratch = true) (pos : Nat) (b : BarWord) :
    OnlySpan s (writeBar u die core pos b) die core pos 16 ∧ readBar (writeBar u die core pos b) die core pos = b :=
  ⟨onlySpan_scratchWrite hmem hcores hwf (length_bytesOfNat _ _), readBar_writeBar (by rw [getCore_congr hcores]; exact hwf) pos b⟩

/-- Settles O32: each event is its branch of the model's definition, and a word's fields lie side by side in its bits. -/
theorem barrierArithmetic : Obligations.BarrierArithmetic := by
  refine ⟨fun b => ⟨barTest_of_complete, barTest_of_open, fun n => ⟨bariOnce_of_zero n, bariOnce_of_same, bariOnce_of_other, rfl⟩,
    barArrive_of_lt, barArrive_of_le, fun n => barOwe_of_outside, fun n => barOwe_of_inside, fun n =>
      ⟨barSignal_of_outside, barSignal_of_inside⟩⟩, barOfBits_barBits⟩

/-! ## Effects outside the registers -/

/-- Marks and a scalar result commit at once where the instruction may commit its marks. -/
theorem commit_scalar_of_mayCommit {kills : Reads} (hmay : MayCommit c (killRegs c.a kills)) (d : Opnd) (v : DWord) :
    c.commit (writeScalar (killRegs c.a kills) d v) = .next (afterCommit c ((writeScalar (killRegs c.a kills) d v).advance c.x)) :=
  commit_of_le (by simpa [MayCommit] using hmay) (by simpa using heldSlots_killRegs c.a kills)

section
variable {s : State} {guard : Guard} {c : Ctx} (henters : Enters s guard c)
include henters

theorem Enters.gangHolds_of_gangs {a : Arch} {t : State} (h : t.gangs = (c.put (settleAccounts c.g.budget a)).gangs) : GangHolds c a t := by
  refine ⟨?_, fun id hid => ?_⟩
  · rw [findGang_congr h, findGang_put henters.here, if_pos rfl]
  · rw [findGang_congr h, findGang_put henters.here, if_neg hid]

theorem Enters.clear_of_risk (h : olderRisk c.s c.g.id c.s.nextOp = false) : c.clear = true := by
  rw [clear_eq henters.fresh, h]; rfl

end

/-! ## Instructions that name a barrier word (R234) -/

section
variable {s : State} {h : Head} {c : Ctx} {a b : Opnd} {srcs : List Opnd} {off : BitVec 32} {die core pos : Nat}

theorem barOp_of_starts (hstarts : Starts s h (single srcs) [a] c) (hword : wordCheck c.a srcs = none)
    (hspan : ScratchSpan c a off 16 .rmw die core pos) (f : Ctx → Nat → Nat → Nat → Res) : barOp h srcs a off s f = f c die core pos := by
  rw [barOp, issue_eq hstarts.enter.here hstarts.enter.clean]
  simp only [hstarts.live, hstarts.active, if_false, hstarts.priv, hword, firstHalt]
  rw [show (spaceTarget c.s c.g .scratch (scalarAddr c .scratch a off 16) 16 .rmw).2 = .inr (.scratch die core pos) from hspan]

theorem barNow_of_clear (hclear : c.clear = true) (hheld : heldBytes c.s c.g.id c.s.nextOp [(.scratch die core pos, 16)] = false)
    (hpoison : scratchPoisoned c.s die core pos 16 = false) (reads : Bool) (k : Res) : barNow c die core pos reads k = k := by
  simp [barNow, hheld, hpoison, Ctx.afterRisk, hclear]

/-- Marks commit beside a barrier word that does not depend on them: the word is written, and no other byte. -/
theorem Enters.commitWith_writeBar {guard : Guard} (henters : Enters s guard c) (hclear : c.clear = true)
    (hwf : Memory.wf (getCore s die core).scratch = true) (kills : Reads) (pos : Nat) (f : State → BarWord)
    (hf : ∀ u : State, u.cores = s.cores → f u = f s) :
    ∃ t, c.commitWith ((killRegs c.a kills).advance c.x) (fun u => writeBar u die core pos (f u)) = .next t
      ∧ GangHolds c ((killRegs c.a kills).advance c.x) t ∧ OnlySpan s t die core pos 16 ∧ readBar t die core pos = f s := by
  obtain rfl := henters.state_eq
  obtain ⟨hspan, hread⟩ := writeBar_spec (u := c.put (settleAccounts c.g.budget ((killRegs c.a kills).advance c.x)))
    (Ctx.put_mem _ _) (Ctx.put_cores _ _) hwf pos (f (c.put (settleAccounts c.g.budget ((killRegs c.a kills).advance c.x))))
  exact ⟨_, commitWith_of_le (.inr hclear) (by simpa using heldSlots_killRegs c.a kills) _,
    henters.gangHolds_of_gangs (writeBar_gangs _ _ _ _ _), hspan, hread.trans (hf _ (Ctx.put_cores _ _))⟩

/-! ## BARI, BARX and BARW (R236, R238, R239) -/

section
variable (hspan : ScratchSpan c a off 16 .rmw die core pos) (hbytes : Clear c [(.scratch die core pos, 16)])
  (hpoison : scratchPoisoned s die core pos 16 = false)
include hspan hbytes hpoison

theorem exec_bari (hstarts : Starts s h (single [a]) [a] c) (hword : wordCheck c.a [a] = none)
    (hwf : Memory.wf (getCore s die core).scratch = true) (n : BitVec 8) (force : Bool) :
    ∃ t, exec (.bari h a off n force) s = .next t ∧ GangHolds c ((killRegs c.a (headKills h a .zero .zero)).advance c.x) t
      ∧ OnlySpan s t die core pos 16
      ∧ readBar t die core pos = (if force then bariForce n else bariOnce n (readBar s die core pos)) := by
  have hclear := hstarts.enter.clear_of_risk hbytes.risk
  have hexec : exec (.bari h a off n force) s = c.commitWith ((killRegs c.a (headKills h a .zero .zero)).advance c.x)
      fun u => writeBar u die core pos (if force then bariForce n else bariOnce n (readBar u die core pos)) := by
    obtain rfl := hstarts.enter.state_eq
    change execBari h a off n force c.s = _
    rw [execBari, barOp_of_starts hstarts hword hspan, barNow_of_clear hclear hbytes.held hpoison]
  rw [hexec]
  exact hstarts.enter.commitWith_writeBar hclear hwf _ pos
    (fun u => if force then bariForce n else bariOnce n (readBar u die core pos)) fun u hu => by simp only [readBar_congr hu]

variable (hstarts : Starts s h (single [a, b]) [a] c) (hword : wordCheck c.a [a, b] = none)
include hstarts hword

theorem exec_barx_of_owed {w : BarWord} (hwf : Memory.wf (getCore s die core).scratch = true)
    (howe : barOwe (readBar s die core pos) (scalarOf c b).toInt = some w) :
    ∃ t, exec (.barx h a b off) s = .next t ∧ GangHolds c ((killRegs c.a (headKills h a b .zero)).advance c.x) t
      ∧ OnlySpan s t die core pos 16 ∧ readBar t die core pos = w := by
  have hclear := hstarts.enter.clear_of_risk hbytes.risk
  have hexec : exec (.barx h a b off) s
      = c.commitWith ((killRegs c.a (headKills h a b .zero)).advance c.x) fun u => writeBar u die core pos w := by
    obtain rfl := hstarts.enter.state_eq
    change execBarx h a b off c.s = _
    rw [execBarx, barOp_of_starts hstarts hword hspan, barNow_of_clear hclear hbytes.held hpoison, howe]
  rw [hexec]
  exact hstarts.enter.commitWith_writeBar hclear hwf _ pos (fun _ => w) fun _ _ => rfl

theorem exec_barx_of_range (howe : barOwe (readBar s die core pos) (scalarOf c b).toInt = none) :
    exec (.barx h a b off) s = .next (takeTrap s c.g c.x 0x0F#8 (scalarOf c b) (c.pc.setWidth 64) 0#5) := by
  obtain rfl := hstarts.enter.state_eq
  have hclear := hstarts.enter.clear_of_risk hbytes.risk
  change execBarx h a b off c.s = _
  rw [execBarx, barOp_of_starts hstarts hword hspan, barNow_of_clear hclear hbytes.held hpoison, howe]
  exact trap_of_clear hclear _ _

omit hbytes hpoison in
theorem exec_barw_of_noWait (d : Opnd) (hclear : c.clear = true)
    (hnone : abandoned s c.g = true ∨ (scalarOf c b).getLsbD 1 = false) :
    exec (.barw h d a b off) s
      = .next (afterCommit c ((writeScalar (killRegs c.a (headKills h a b .zero)) d 1#64).advance c.x)) := by
  obtain rfl := hstarts.enter.state_eq
  change execBarw h d a b off c.s = _
  rw [execBarw, barOp_of_starts hstarts hword hspan]
  rw [if_pos (by simpa using hnone)]
  exact commit_scalar_of_mayCommit (.inr hclear) d 1#64

section
variable (d : Opnd) (hlive : abandoned s c.g = false) (htoken : (scalarOf c b).getLsbD 1 = true)
include hlive htoken

theorem exec_barw_of_over {v : DWord} (hresult : barwResult s c.g die core pos ((scalarOf c b).getLsbD 0) = some v) :
    exec (.barw h d a b off) s = .next (afterCommit c ((writeScalar (killRegs c.a (headKills h a b .zero)) d v).advance c.x)) := by
  obtain rfl := hstarts.enter.state_eq
  change execBarw h d a b off c.s = _
  rw [execBarw, barOp_of_starts hstarts hword hspan]
  simp only [hlive, htoken, hbytes.held, hpoison, hresult, Bool.not_true, Bool.or_self, Bool.false_eq_true, if_false]
  exact commit_scalar_of_mayCommit (.inr (hstarts.enter.clear_of_risk hbytes.risk)) d v

theorem exec_barw_of_wait (hresult : barwResult s c.g die core pos ((scalarOf c b).getLsbD 0) = none) :
    exec (.barw h d a b off) s = .next (c.put (c.a.setWait c.x
      (.barw die core pos ((scalarOf c b).getLsbD 0) (retireOf d (headKills h a b .zero))))) := by
  obtain rfl := hstarts.enter.state_eq
  change execBarw h d a b off c.s = _
  rw [execBarw, barOp_of_starts hstarts hword hspan]
  simp only [hlive, htoken, hbytes.held, hpoison, hresult, Bool.not_true, Bool.or_self, Bool.false_eq_true, if_false]

end

end

end

theorem barwResult_of_err {s : State} {g : Gang} {die core pos : Nat} (phase : Bool) (hlive : abandoned s g = false)
    (herr : (readBar s die core pos).err = true) : barwResult s g die core pos phase = some 2#64 := by
  simp [barwResult, hlive, herr]

theorem barwResult_of_clean {s : State} {g : Gang} {die core pos : Nat} (phase : Bool) (hlive : abandoned s g = false)
    (herr : (readBar s die core pos).err = false) :
    barwResult s g die core pos phase = if (readBar s die core pos).phase ≠ phase then some 0#64 else none := by
  simp [barwResult, hlive, herr]

/-- Settles O31: each instruction acts on the word as its lemma says; a BARW reads it only in a block that goes on and with a token. -/
theorem barrierWords : Obligations.BarrierWords := by
  intro h a off s c die core pos hspan hbytes hwf hpoison
  refine ⟨fun n force hstarts hword => exec_bari hspan hbytes hpoison hstarts hword hwf n force,
    fun b w hstarts hword => exec_barx_of_owed hspan hbytes hpoison hstarts hword hwf,
    fun b hstarts hword => exec_barx_of_range hspan hbytes hpoison hstarts hword, fun d b v hstarts hword hends => ?ends,
    fun d b hstarts hword hlive htoken herr hphase => ?waits⟩
  case ends =>
    obtain ⟨hnone, rfl⟩ | ⟨hlive, htoken, hresult⟩ := hends
    · exact exec_barw_of_noWait hspan hstarts hword d (hstarts.enter.clear_of_risk hbytes.risk) hnone
    · refine exec_barw_of_over hspan hbytes hpoison hstarts hword d hlive htoken ?_
      obtain ⟨herr, rfl⟩ | ⟨herr, hphase, rfl⟩ := hresult
      · exact barwResult_of_err _ hlive herr
      · rw [barwResult_of_clean _ hlive herr, if_pos hphase]
  case waits =>
    refine exec_barw_of_wait hspan hbytes hpoison hstarts hword d hlive htoken ?_
    rw [barwResult_of_clean _ hlive herr, if_neg (not_not.mpr hphase)]

end Sys2Proof

/-!
Arrivals at a barrier word and at a grid barrier (R230-R242, R251-R253), with what an issued access leaves (R247).
-/
namespace Sys2Proof.Machine

/-! ## The end of an access with a scalar result -/

theorem sreg_wokenArch_settleAccounts (budget : Nat) (a : Arch) (n : Fin 64) : (wokenArch (settleAccounts budget a)).sreg n = a.sreg n := by
  rw [settleAccounts_eq]; rfl

/-- A scalar result commits: the access is over, the register holds the result, and no byte has changed. -/
theorem commitPend_writeScalar {s : State} {p : Pend} {g : Gang} (hg : findGang s p.gang = some g) (n : Fin 64) (v : DWord) :
    ∃ t g', commitPend s p (fun _ a => writeScalar a (.s n) v) = t ∧ findPend t p.op = none ∧ findGang t p.gang = some g'
      ∧ g'.arch.sreg n = some v ∧ t.cores = s.cores ∧ t.mem = s.mem := by
  rw [commitPend_of_fits hg (by simpa using heldSlots_killRegs g.arch (single p.kills))]
  obtain ⟨g', hg', hwoken⟩ := findGang_committed hg (settleAccounts g.budget (writeScalar (killRegs g.arch (single p.kills)) (.s n) v))
    fun a => settleAccounts g.budget (writeScalar (killRegs a (single p.kills)) (.s n) v)
  obtain ⟨hmem, -, -, hcores⟩ := committed_frame s p
    { g with arch := settleAccounts g.budget (writeScalar (killRegs g.arch (single p.kills)) (.s n) v) }
    fun a => settleAccounts g.budget (writeScalar (killRegs a (single p.kills)) (.s n) v)
  refine ⟨_, g', rfl, findPend_dropPend _ _, hg', ?_, hcores, hmem⟩
  rw [hwoken, sreg_wokenArch_settleAccounts, writeScalar, Arch.setS_sreg, if_pos rfl]

theorem op_of_findPend {s : State} {op : Nat} {p : Pend} (h : findPend s op = some p) : p.op = op := by
  simpa using List.find?_some h

theorem cause_of_postedTimeout {g : Gang} {op : Nat} {f : Posted} (h : postedTimeout g op = some f) : f.cause = 0x12#8 := by
  have hfound := List.find?_some h
  simp only [Bool.and_eq_true, decide_eq_true_eq] at hfound
  exact hfound.1.1

/-! ## BARV_ARRIVAL (R237, R251) -/

section
variable {s : State} {p : Pend} {g : Gang} {op : Nat} {n : Fin 64} {die core pos : Nat} {wait : List Nat}
  (hp : findPend s op = some p) (hkind : p.kind = .barv (.s n) die core pos wait) (hg : findGang s p.gang = some g)
  (hrisk : olderRisk s p.gang p.op = false)
include hp hkind hg hrisk

theorem exec_barvArrival_of_abandoned (hab : abandoned s g = true) :
    exec (.barvArrival op) s = .next (commitPend s p fun _ a => writeScalar a (.s n) 1#64) := by
  change execBarvArrival op s = _
  simp only [execBarvArrival, hp, hkind, hg, hrisk, hab, Bool.false_eq_true, if_false, if_true]

/-- The token names the phase that the word was in when the arrival was counted. -/
theorem exec_barvArrival_of_over (hlive : abandoned s g = false) (hover : wait.any (opPending s) = false) (hheld : pendHeld s p = false)
    (hpoison : scratchPoisoned s die core pos 16 = false) (htimeout : postedTimeout g p.op = none) :
    exec (.barvArrival op) s = .next (commitPend (writeBar s die core pos (barArrive (readBar s die core pos))) p fun _ a =>
      writeScalar a (.s n) (if (readBar s die core pos).phase then 3#64 else 2#64)) := by
  change execBarvArrival op s = _
  simp only [execBarvArrival, hp, hkind, hg, hrisk, hlive, hover, hheld, hpoison, htimeout, Bool.or_self, Bool.false_eq_true, if_false]

end

end Sys2Proof.Machine

namespace Sys2Proof
open Machine

/-! ## Issued accesses (R247) -/

theorem findGang_recount (s : State) (id id' : GangId) :
    findGang (recount s id) id' = if id' = id then (findGang s id).map fun g =>
      { g with ld := countOf s id PendKind.countsLd, st := countOf s id PendKind.countsSt, tl := countOf s id PendKind.countsTl }
    else findGang s id' :=
  findGang_modGang s id id' fun _ => rfl

/-- An access added beside the registers `a` is the machine's youngest, and its gang's counters count it. -/
theorem Enters.issued_addPend {s : State} {guard : Guard} {c : Ctx} (henters : Enters s guard c) (a : Arch) (kind : PendKind)
    (kills dsts : List Opnd) : Issued c a kind kills dsts (addPend (c.put a) c kills dsts kind) where
  pend := rfl
  nextOp := rfl
  gang := by
    rw [addPend, findGang_recount, if_pos rfl]
    exact congrArg (Option.map _) ((findGang_put henters.here a c.g.id).trans (if_pos rfl))
  other id hid := by
    rw [addPend, findGang_recount, if_neg hid]
    exact (findGang_put henters.here a id).trans (if_neg hid)
  rest := rfl

/-! ## BARV (R237) -/

section
variable {s : State} {h : Head} {c : Ctx} {d a : Opnd} {off : BitVec 32} {die core pos : Nat}
  (hstarts : Starts s h (single [a]) [a] c) (hword : wordCheck c.a [a] = none) (hspan : ScratchSpan c a off 16 .rmw die core pos)
include hstarts hword hspan

theorem exec_barv_of_abandoned (hab : abandoned s c.g = true) (hmay : MayCommit c (killRegs c.a (headKills h a .zero .zero))) :
    exec (.barv h d a off) s = .next (afterCommit c ((writeScalar (killRegs c.a (headKills h a .zero .zero)) d 1#64).advance c.x)) := by
  obtain rfl := hstarts.enter.state_eq
  change execBarv h d a off c.s = _
  rw [execBarv, barOp_of_starts hstarts hword hspan]
  simp only [hab, if_true]
  exact commit_scalar_of_mayCommit hmay d 1#64

theorem exec_barv_issues (hlive : abandoned s c.g = false) (hnone : postedTimeout c.g s.nextOp = none) :
    ∃ t, exec (.barv h d a off) s = .next t ∧ Issued c (c.a.advance c.x) (.barv d die core pos (arrivalOps s c.g.id))
      (spreadReads (headKills h a .zero .zero)) (groupOpnds d 1) t := by
  obtain rfl := hstarts.enter.state_eq
  refine ⟨_, ?_, hstarts.enter.issued_addPend _ _ _ _⟩
  change execBarv h d a off c.s = _
  rw [execBarv, barOp_of_starts hstarts hword hspan]
  simp only [hlive, hnone, Bool.false_eq_true, if_false]
  rfl

theorem exec_barv_of_timeout {f : Posted} (hlive : abandoned s c.g = false) (hsome : postedTimeout c.g s.nextOp = some f)
    (hclear : c.clear = true) :
    exec (.barv h d a off) s
      = .next (takeTrap s { c.g with posted := c.g.posted.erase f } c.x 0x12#8 f.tval (c.pc.setWidth 64) 0#5) := by
  obtain rfl := hstarts.enter.state_eq
  change execBarv h d a off c.s = _
  rw [execBarv, barOp_of_starts hstarts hword hspan, ← cause_of_postedTimeout hsome]
  simp only [hlive, hsome, Bool.false_eq_true, if_false]
  exact trap_of_clear (c := { c with g := { c.g with posted := c.g.posted.erase f } }) hclear _ _

end

/-! ## GBAR (R241, R242, R253) -/

/-- The release that a GBAR waits for: the gang's loads and stores at package scope (R253). -/
def gbarTask (s : State) (g : Gang) : Machine.Task := { baseTask s g .pkg with ops := opsIn s g.id 3#6, writes := true, inbox := true }

/-- The registers of a GBAR that waits: its arrival is counted, and its slot waits for the release. -/
def gbarArch (c : Ctx) (d : Opnd) : Arch :=
  ({ c.a with gbars := c.a.gbars + 1 } : Arch).setWait c.x (.gbarRelease c.s.nextUid c.a.gbars (retireOf d []))

theorem gbarArch_gbars (c : Ctx) (d : Opnd) : (gbarArch c d).gbars = c.a.gbars + 1 := by simp [gbarArch]

theorem gbarArch_slot (c : Ctx) (d : Opnd) :
    (gbarArch c d).slot c.x = { c.slot with wait := .gbarRelease c.s.nextUid c.a.gbars (retireOf d []) } := by
  simp only [gbarArch, Arch.setWait, Ctx.slot]
  cases c.x <;> rfl

theorem Enters.findGang_addTask_put {s : State} {guard : Guard} {c : Ctx} (henters : Enters s guard c) (a : Arch) (k : Machine.Task) :
    findGang (addTask (c.put a) k) c.g.id = some { c.g with arch := a } :=
  (findGang_put henters.here a c.g.id).trans (if_pos rfl)

section
variable {s : State} {h : Head} {c : Ctx} (d : Opnd) (henters : Enters s h.guard c) (hact : c.act ≠ 0#32)
include henters hact

theorem exec_gbar_of_noncoop (hlaunch : ∀ l, gangLaunch s c.g = some l → l.coop = false) (hclear : c.clear = true) :
    exec (.gbar h d) s = .next (takeTrap s c.g c.x 0x10#8 (freeNow s) (c.pc.setWidth 64) 0#5) := by
  obtain rfl := henters.state_eq
  have htrap : c.trap cGbarNoncoop (freeNow c.s)
      = .next (takeTrap c.s c.g c.x 0x10#8 (freeNow c.s) (c.pc.setWidth 64) 0#5) := trap_of_clear hclear _ _
  change execGbar h d c.s = _
  rw [execGbar, issue_eq henters.here henters.clean, if_neg hact, ← htrap]
  cases hl : gangLaunch c.s c.g with
  | none => rfl
  | some l => simp [hlaunch l hl]

variable {l : Launch} (hlaunch : gangLaunch s c.g = some l) (hcoop : l.coop = true)
include hlaunch hcoop

theorem exec_gbar_of_broken (hbroken : launchBroken s l = true) :
    exec (.gbar h d) s = .next (afterCommit c ((writeScalar { c.a with gbars := c.a.gbars + 1 } d 1#64).advance c.x)) := by
  obtain rfl := henters.state_eq
  change execGbar h d c.s = _
  rw [execGbar, issue_eq henters.here henters.clean, if_neg hact]
  simp only [hlaunch, hcoop, hbroken, Bool.not_true, Bool.false_eq_true, if_false, if_true]
  exact commit_afterCommit (heldSlots_writeScalar _ _ _)

theorem exec_gbar_waits (hwhole : launchBroken s l = false) (hclear : c.clear = true) :
    exec (.gbar h d) s = .next (addTask (c.put (gbarArch c d)) (gbarTask s c.g)) := by
  obtain rfl := henters.state_eq
  change execGbar h d c.s = _
  rw [execGbar, issue_eq henters.here henters.clean, if_neg hact]
  simp only [hlaunch, hcoop, hwhole, Bool.not_true, Bool.false_eq_true, if_false, Ctx.afterRisk, hclear, if_true]
  rfl

end

/-- Settles O33: BARV answers, traps or issues its arrival; a due arrival commits its token beside the counted word; a GBAR of a
cooperative launch counts its arrival and waits with its release. -/
theorem arrivals : Obligations.Arrivals := by
  refine ⟨⟨fun h d a off s c die core pos hstarts hword hspan => ⟨exec_barv_of_abandoned hstarts hword hspan,
      exec_barv_issues hstarts hword hspan, fun f hlive hsome hclear =>
        ⟨cause_of_postedTimeout hsome, exec_barv_of_timeout hstarts hword hspan hlive hsome hclear⟩⟩,
    fun s p g op n die core pos wait hp hkind hg hrisk => ⟨fun hab => ?abandoned, fun hlive hover hheld hpoison htimeout hwf => ?counted⟩⟩,
    fun h d s c henters hact => ⟨fun hnone => exec_gbar_of_noncoop d henters hact (by simp [hnone]), fun l hl =>
      ⟨fun hcoop => exec_gbar_of_noncoop d henters hact (by simp [hl, hcoop]), exec_gbar_of_broken d henters hact hl,
        fun hcoop hwhole hclear => ?waits⟩⟩⟩
  case abandoned =>
    obtain ⟨t, g', ht, hgone, hg', hreg, hcores, hmem⟩ := commitPend_writeScalar hg n 1#64
    exact ⟨t, g', by rw [exec_barvArrival_of_abandoned hp hkind hg hrisk hab, ht], op_of_findPend hp ▸ hgone, hg', hreg, hcores, hmem⟩
  case counted =>
    have hg'' : findGang (writeBar s die core pos (barArrive (readBar s die core pos))) p.gang = some g := by
      rw [findGang_congr (writeBar_gangs _ _ _ _ _), hg]
    obtain ⟨hspan, hread⟩ := writeBar_spec rfl rfl hwf pos (barArrive (readBar s die core pos))
    obtain ⟨t, g', ht, hgone, hg', hreg, hcores, hmem⟩ :=
      commitPend_writeScalar hg'' n (if (readBar s die core pos).phase then 3#64 else 2#64)
    exact ⟨t, g', by rw [exec_barvArrival_of_over hp hkind hg hrisk hlive hover hheld hpoison htimeout, ht], op_of_findPend hp ▸ hgone,
      hg', hreg, (readBar_congr hcores die core pos).trans hread, onlySpan_congr hmem hcores hspan⟩
  case waits =>
    obtain rfl := henters.state_eq
    have hwait := congrArg Slot.wait (gbarArch_slot c d)
    have hpc := congrArg Slot.pc (gbarArch_slot c d)
    exact ⟨_, _, gbarTask c.s c.g, exec_gbar_waits d henters hact hl hcoop hwhole hclear, henters.findGang_addTask_put _ _,
      gbarArch_gbars c d, hwait, hpc, rfl, rfl, rfl, rfl, rfl, rfl, rfl⟩

end Sys2Proof

/-!
WAIT on the gang's counters, and TAGW, TAGF and TAGC on the tags of its core (R243-R248).
-/
namespace Sys2Proof.Machine

theorem limitsMet_iff {g : Gang} {tl cp st ld : Nat} :
    limitsMet g tl cp st ld = true ↔ g.tl ≤ tl ∧ g.cp ≤ cp ∧ g.st ≤ st ∧ g.ld ≤ ld := by
  simp [limitsMet, and_assoc]

/-! ## Tags of a core (R243-R246) -/

/-- A TAGW's wait is over: all tags of its operand are set, or one of them, or it names none. -/
theorem tagwResult_of_met {all : Bool} {m tags : DWord}
    (h : all = true ∧ tags &&& m = m ∨ all = false ∧ (tags &&& m ≠ 0#64 ∨ m = 0#64)) : tagwResult all m tags = some (tags &&& m) := by
  obtain ⟨rfl, hall⟩ | ⟨rfl, hany⟩ := h
  · simp [tagwResult, hall]
  · by_cases hm : m = 0#64
    · simp [tagwResult, hm]
    · simp [tagwResult, hm, hany.resolve_right hm]

theorem tagwResult_of_unmet {all : Bool} {m tags : DWord}
    (h : all = true ∧ tags &&& m ≠ m ∨ all = false ∧ tags &&& m = 0#64 ∧ m ≠ 0#64) : tagwResult all m tags = none := by
  obtain ⟨rfl, hall⟩ | ⟨rfl, hnone, hm⟩ := h
  · simp [tagwResult, hall]
  · simp [tagwResult, hm, hnone]

theorem coreTags_congr {s t : State} (h : t.cores = s.cores) (id : GangId) : coreTags t id = coreTags s id := by
  rw [coreTags, getCore_congr h]; rfl

theorem coreTags_clearTags (s : State) (id : GangId) (m : DWord) : coreTags (clearTags s id m) id = coreTags s id &&& ~~~m := by
  have hcore := getCore_modCore s id.die id.core id.die id.core (f := fun k => { k with tags := k.tags &&& ~~~m }) fun _ => rfl
  rw [if_pos rfl] at hcore
  exact congrArg CoreSt.tags hcore

@[simp] theorem clearTags_gangs (s : State) (id : GangId) (m : DWord) : (clearTags s id m).gangs = s.gangs := modCore_gangs _ _ _ _
@[simp] theorem clearTags_mem (s : State) (id : GangId) (m : DWord) : (clearTags s id m).mem = s.mem := modCore_mem _ _ _ _

/-- Registers that may commit now are put with their accounts settled. -/
theorem putSettled_eq {c : Ctx} {a : Arch} (h : heldSlots a = heldSlots c.a ∨ c.clear = true) :
    c.putSettled a = c.put (settleAccounts c.g.budget a) := by
  simp [Ctx.putSettled, owed_eq h]

end Sys2Proof.Machine

namespace Sys2Proof
open Machine

section
variable {s : State} {h : Head} {c : Ctx} (henters : Enters s h.guard c) (hact : c.act ≠ 0#32)
include henters hact

/-! ## WAIT (R248) -/

section
variable {tl cp st ld : BitVec 6}

omit hact in
theorem exec_wait_of_met (hmet : c.g.tl ≤ tl.toNat ∧ c.g.cp ≤ cp.toNat ∧ c.g.st ≤ st.toNat ∧ c.g.ld ≤ ld.toNat) :
    exec (.wait h tl cp st ld) s = .next (afterCommit c (c.a.advance c.x)) := by
  change execWait h tl cp st ld s = _
  rw [execWait, issue_eq henters.here henters.clean, if_pos (.inr (limitsMet_iff.mpr hmet))]
  exact commit_afterCommit rfl

theorem exec_wait_of_unmet (hunmet : ¬(c.g.tl ≤ tl.toNat ∧ c.g.cp ≤ cp.toNat ∧ c.g.st ≤ st.toNat ∧ c.g.ld ≤ ld.toNat)) :
    exec (.wait h tl cp st ld) s
      = .next (c.put (c.a.setWait c.x (.limits tl.toNat cp.toNat st.toNat ld.toNat (retireOf .zero [])))) := by
  change execWait h tl cp st ld s = _
  rw [execWait, issue_eq henters.here henters.clean, if_neg (not_or.mpr ⟨hact, fun hmet => hunmet (limitsMet_iff.mp hmet)⟩)]

end

/-! ## TAGW, TAGF and TAGC (R244-R246) -/

section
variable {a : Opnd} (hlive : deadCheck c.a (single [a]) = none) (hword : wordCheck c.a [a] = none)
include hlive hword

theorem tagOp_of_enters (f : Ctx → Reads → DWord → Res) : tagOp h a s f = f c (headKills h a .zero .zero) (scalarOf c a) := by
  rw [tagOp, issue_eq henters.here henters.clean]
  simp only [hlive, hact, if_false, hword]

theorem exec_tagw_of_met (d : Opnd) {all : Bool} (hdue : tagcDue s c.g.id = false)
    (hmet : all = true ∧ coreTags s c.g.id &&& scalarOf c a = scalarOf c a
      ∨ all = false ∧ (coreTags s c.g.id &&& scalarOf c a ≠ 0#64 ∨ scalarOf c a = 0#64))
    (hmay : MayCommit c (killRegs c.a (headKills h a .zero .zero))) :
    exec (.tagw h d a all) s = .next (afterCommit c
      ((writeScalar (killRegs c.a (headKills h a .zero .zero)) d (coreTags s c.g.id &&& scalarOf c a)).advance c.x)) := by
  obtain rfl := henters.state_eq
  change execTagw h d a all c.s = _
  rw [execTagw, tagOp_of_enters henters hact hlive hword]
  simp only [hdue, Bool.false_eq_true, if_false, tagwResult_of_met hmet]
  exact commit_scalar_of_mayCommit hmay d _

theorem exec_tagw_of_unmet (d : Opnd) {all : Bool} (hdue : tagcDue s c.g.id = false)
    (hunmet : all = true ∧ coreTags s c.g.id &&& scalarOf c a ≠ scalarOf c a
      ∨ all = false ∧ coreTags s c.g.id &&& scalarOf c a = 0#64 ∧ scalarOf c a ≠ 0#64) :
    exec (.tagw h d a all) s
      = .next (c.put (c.a.setWait c.x (.tagw all (scalarOf c a) (retireOf d (headKills h a .zero .zero))))) := by
  obtain rfl := henters.state_eq
  change execTagw h d a all c.s = _
  rw [execTagw, tagOp_of_enters henters hact hlive hword]
  simp only [hdue, Bool.false_eq_true, if_false, tagwResult_of_unmet hunmet]

/-- Behind an instruction that may still trap the slot goes on, and the tags are left to be cleared. -/
theorem exec_tagc_of_risk (hrisk : c.clear = false) (hmay : MayCommit c (killRegs c.a (headKills h a .zero .zero))) :
    ∃ t, exec (.tagc h a) s = .next t ∧ Issued c (settleAccounts c.g.budget ((killRegs c.a (headKills h a .zero .zero)).advance c.x))
      (.late (.tagc (scalarOf c a))) [] [] t := by
  refine ⟨_, ?_, henters.issued_addPend _ _ _ _⟩
  change execTagc h a s = _
  rw [execTagc, tagOp_of_enters henters hact hlive hword, hrisk, if_neg Bool.false_ne_true, Ctx.post,
    putSettled_eq (by simpa [MayCommit] using hmay)]

section
variable (hclear : c.clear = true)
include hclear

theorem exec_tagf_of_none (d : Opnd) (clr : Bool) (hnone : coreTags s c.g.id &&& scalarOf c a = 0#64) :
    exec (.tagf h d a clr) s
      = .next (afterCommit c ((writeScalar (killRegs c.a (headKills h a .zero .zero)) d (-1#64)).advance c.x)) := by
  obtain rfl := henters.state_eq
  have hlowest : lowestBit (coreTags c.s c.g.id &&& scalarOf c a) = none := by simp [hnone, lowestBit]
  change execTagf h d a clr c.s = _
  rw [execTagf, tagOp_of_enters henters hact hlive hword]
  simp only [Ctx.afterRisk, hclear, if_true, hlowest]
  exact commit_scalar_of_mayCommit (.inr hclear) d _

theorem exec_tagf_of_some (d : Opnd) (clr : Bool) {i : Nat} (hlowest : lowestBit (coreTags s c.g.id &&& scalarOf c a) = some i) :
    ∃ t, exec (.tagf h d a clr) s = .next t
      ∧ GangHolds c ((writeScalar (killRegs c.a (headKills h a .zero .zero)) d (BitVec.ofNat 64 i)).advance c.x) t
      ∧ coreTags t c.g.id = (if clr then coreTags s c.g.id &&& ~~~(1#64 <<< i) else coreTags s c.g.id) ∧ t.mem = s.mem := by
  obtain rfl := henters.state_eq
  have hexec : exec (.tagf h d a clr) c.s = .next (if clr
      then clearTags (afterCommit c ((writeScalar (killRegs c.a (headKills h a .zero .zero)) d (BitVec.ofNat 64 i)).advance c.x)) c.g.id (1#64 <<< i)
      else afterCommit c ((writeScalar (killRegs c.a (headKills h a .zero .zero)) d (BitVec.ofNat 64 i)).advance c.x)) := by
    change execTagf h d a clr c.s = _
    rw [execTagf, tagOp_of_enters henters hact hlive hword]
    simp only [Ctx.afterRisk, hclear, if_true, hlowest]
    exact commitWith_of_le (.inr hclear) (by simpa using heldSlots_killRegs c.a (headKills h a .zero .zero)) _
  refine ⟨_, hexec, ?_⟩
  cases clr with
  | false => exact ⟨henters.gangHolds_of_gangs rfl, coreTags_congr rfl _, rfl⟩
  | true => exact ⟨henters.gangHolds_of_gangs (clearTags_gangs _ _ _), coreTags_clearTags _ _ _, clearTags_mem _ _ _⟩

theorem exec_tagc_of_clear :
    ∃ t, exec (.tagc h a) s = .next t ∧ GangHolds c ((killRegs c.a (headKills h a .zero .zero)).advance c.x) t
      ∧ coreTags t c.g.id = coreTags s c.g.id &&& ~~~(scalarOf c a) ∧ t.mem = s.mem := by
  obtain rfl := henters.state_eq
  refine ⟨clearTags (afterCommit c ((killRegs c.a (headKills h a .zero .zero)).advance c.x)) c.g.id (scalarOf c a), ?_,
    henters.gangHolds_of_gangs (clearTags_gangs _ _ _), coreTags_clearTags _ _ _, clearTags_mem _ _ _⟩
  change execTagc h a c.s = _
  rw [execTagc, tagOp_of_enters henters hact hlive hword, if_pos hclear]
  exact commitWith_of_le (.inr hclear) (by simpa using heldSlots_killRegs c.a (headKills h a .zero .zero)) _

end

end

end

/-- Settles O34: each clause is the lemma of its instruction and of the branch that it takes. -/
theorem countersAndTags : Obligations.CountersAndTags := by
  refine ⟨fun h tl cp st ld s c henters hact => ⟨exec_wait_of_met henters, exec_wait_of_unmet henters hact⟩,
    fun h a s c henters hact hlive hword => ⟨?tagw, exec_tagc_of_risk henters hact hlive hword, fun hclear =>
      ⟨exec_tagf_of_none henters hact hlive hword hclear, fun d clr i => exec_tagf_of_some henters hact hlive hword hclear d clr,
        exec_tagc_of_clear henters hact hlive hword hclear⟩⟩⟩
  case tagw =>
    rintro d all v rfl hdue
    exact ⟨exec_tagw_of_met henters hact hlive hword d hdue, exec_tagw_of_unmet henters hact hlive hword d hdue⟩

end Sys2Proof

/-!
ATOMIC_VALUE_RETURN without a route (R309, R424).
-/
namespace Sys2Proof
open Machine

/-- Sheet 0, CLEAN and held whole. -/
def wholeSheet : Sheet := { newSheet 0 with held := 3#2 }

/-- The machine after package reset, every link DOWN, with this sheet on die 0 and a value for its first word on its way from memory
die 8. -/
def valueOnItsWay : State :=
  { modDie State.reset 0 (fun d => { d with sheets := [wholeSheet] }) with msgs := [.atomicValue 8 0 0 0 4 7#64 0] }

theorem homeReach_valueOnItsWay : homeReach valueOnItsWay 0 8 = false := by decide +kernel

/-- The value waits for a route (R424): ATOMIC_VALUE_RETURN changes nothing. -/
theorem exec_atomicValueReturn_valueOnItsWay : exec (.atomicValueReturn 0 8) valueOnItsWay = .next valueOnItsWay := by
  change execAtomicValueReturn 0 8 valueOnItsWay = _
  rw [execAtomicValueReturn, show takeValue 8 0 valueOnItsWay.msgs = some ((0, 0, 4, 7#64, 0), []) from rfl]
  simp only [homeReach_valueOnItsWay, Bool.and_false, Bool.false_eq_true, if_false]
  rfl

/-- Refutes O27, in its last clause, which asks that a value arrive though no route from its home to the die stands: in the machine after
reset every link is DOWN, so the value that memory die 8 has sent die 0 stays on its way (R424), while the clause takes it from the
messages. -/
theorem not_atomicEffects : ¬ Obligations.AtomicEffects := by
  rintro ⟨-, -, -, hreturn⟩
  obtain ⟨t, y, hexec, hmsgs, -⟩ := hreturn valueOnItsWay 0 8 0 0 4 0 7#64 [] wholeSheet rfl (by decide +kernel) (by decide +kernel)
    (by decide) (.inl rfl) rfl
  rw [exec_atomicValueReturn_valueOnItsWay] at hexec
  obtain rfl : valueOnItsWay = t := by simpa using hexec
  exact absurd hmsgs (by decide +kernel)

end Sys2Proof

/-!
What the caches of the dies hold, and all else: what a read or a write at a unit of a die leaves as it is (R259-R264, R298, R299).
-/
namespace Sys2Proof.Machine

/-! ## Everything beside the caches -/

/-- The machine without what its caches hold: the dies' sheets and translations, the clusters' and the cores' lines, the stores and notes on
their way between them, and the homes' sharers. -/
def outsideCaches (s : State) : State :=
  { s with homePages := [], msgs := [], fwds := [], dies := State.reset.dies, cores := [], clusters := [], through := [], wrote := [] }

section
variable {s t : State} (h : outsideCaches t = outsideCaches s)
include h

theorem mem_of_outsideCaches : t.mem = s.mem := by have := congrArg State.mem h; exact this
theorem gangs_of_outsideCaches : t.gangs = s.gangs := by have := congrArg State.gangs h; exact this
theorem pend_of_outsideCaches : t.pend = s.pend := by have := congrArg State.pend h; exact this
theorem nextOp_of_outsideCaches : t.nextOp = s.nextOp := by have := congrArg State.nextOp h; exact this

theorem issued_of_outsideCaches : issuedOf t = issuedOf s :=
  Prod.ext (pend_of_outsideCaches h) (nextOp_of_outsideCaches h)

end

/-! ## Units of a die -/

@[simp] theorem modDie_outside (s : State) (d : Nat) (f : Die → Die) : outsideCaches (modDie s d f) = outsideCaches s := rfl

@[simp] theorem modCore_outside (s : State) (d k : Nat) (f : CoreSt → CoreSt) : outsideCaches (modCore s d k f) = outsideCaches s := by
  unfold modCore; split <;> rfl

@[simp] theorem modCluster_outside (s : State) (d k : Nat) (f : ClusterSt → ClusterSt) :
    outsideCaches (modCluster s d k f) = outsideCaches s := by
  unfold modCluster; split <;> rfl

@[simp] theorem putSheet_outside (s : State) (die : Nat) (x : Sheet) : outsideCaches (putSheet s die x) = outsideCaches s := rfl
@[simp] theorem noteL1Lease_outside (s : State) (die line end_ : Nat) : outsideCaches (noteL1Lease s die line end_) = outsideCaches s := rfl
@[simp] theorem askEarly_outside (s : State) (die : Nat) (l : List Nat) : outsideCaches (askEarly s die l) = outsideCaches s := rfl

@[simp] theorem setSharer_outside (s : State) (pa die : Nat) : outsideCaches (setSharer s pa die) = outsideCaches s := by
  unfold setSharer modHomePage
  split <;> rfl

@[simp] theorem askRoom_outside (s : State) (die : Nat) : outsideCaches (askRoom s die) = outsideCaches s := by
  unfold askRoom
  split <;> rfl

/-- The state that a CLEAN sheet's lines have left, before any drop notice (R298). -/
def withoutLines (s : State) (die : Nat) (x : Sheet) : State :=
  if x.grants.1 ≤ s.tick ∧ x.grants.2 ≤ s.tick then
    modDie s die fun d => { d with sheets := d.sheets.filter fun y => decide (y.sheet ≠ x.sheet) }
  else putSheet s die { newSheet x.sheet with grants := x.grants }

theorem replaceSheet_eq (s : State) (die : Nat) (x : Sheet) :
    replaceSheet s die x = { withoutLines s die x with msgs := (withoutLines s die x).msgs ++
      if (getDie (withoutLines s die x) die).sheets.any fun y => decide (y.sheet / 256 = x.sheet / 256) && decide (y.held ≠ 0#2) then []
      else [.drop die (homeOf (256 * x.sheet)) (x.sheet / 256)] } := by
  unfold replaceSheet
  rw [← withoutLines]
  dsimp only
  split
  · simp
  · rfl

@[simp] theorem withoutLines_msgs (s : State) (die : Nat) (x : Sheet) : (withoutLines s die x).msgs = s.msgs := by
  unfold withoutLines; split <;> rfl

@[simp] theorem withoutLines_outside (s : State) (die : Nat) (x : Sheet) : outsideCaches (withoutLines s die x) = outsideCaches s := by
  unfold withoutLines; split <;> rfl

@[simp] theorem replaceSheet_outside (s : State) (die : Nat) (x : Sheet) : outsideCaches (replaceSheet s die x) = outsideCaches s := by
  rw [replaceSheet_eq]
  exact withoutLines_outside s die x

@[simp] theorem makeRoom_outside (s : State) (die sh : Nat) : outsideCaches (makeRoom s die sh) = outsideCaches s := by
  unfold makeRoom
  split
  · rfl
  · split <;> simp

@[simp] theorem supplyLine_outside (s : State) (die line : Nat) : outsideCaches (supplyLine s die line) = outsideCaches s := by
  unfold supplyLine
  split <;> simp

@[simp] theorem rdcWrite_outside (s : State) (die sh : Nat) (m : BitVec 256) (data : BitVec 2048) (psn : BitVec 64) :
    outsideCaches (rdcWrite s die sh m data psn) = outsideCaches s := by
  simp [rdcWrite]

@[simp] theorem flushLine_outside (s : State) (die cl : Nat) (x : LeasedLine) : outsideCaches (flushLine s die cl x) = outsideCaches s := by
  unfold flushLine
  split <;> simp

@[simp] theorem evictLine_outside (s : State) (die cl line : Nat) : outsideCaches (evictLine s die cl line) = outsideCaches s := by
  unfold evictLine
  dsimp only
  split <;> simp

@[simp] theorem fitCluster_outside (s : State) (die cl line : Nat) : outsideCaches (fitCluster s die cl line) = outsideCaches s := by
  unfold fitCluster
  dsimp only
  split
  · rfl
  · split <;> simp

@[simp] theorem clusterFill_outside (s : State) (die cl line len : Nat) (pol : Policy) :
    outsideCaches (clusterFill s die cl line len pol) = outsideCaches s := by
  unfold clusterFill
  dsimp only
  split
  · split <;> simp
  · simp [rdcServe, rdcRead]

@[simp] theorem clusterServe_outside (s : State) (die cl line len : Nat) (pol : Policy) :
    outsideCaches (clusterServe s die cl line len pol).1 = outsideCaches s := by
  simp [clusterServe, clusterRead]

@[simp] theorem clusterWrite_outside (s : State) (die cl line : Nat) (m : BitVec 128) (data : BitVec 1024) (pol : Policy) :
    outsideCaches (clusterWrite s die cl line m data pol) = outsideCaches s := by
  simp [clusterWrite]

@[simp] theorem fitL1_outside (s : State) (die core line : Nat) : outsideCaches (fitL1 s die core line) = outsideCaches s := by
  unfold fitL1
  dsimp only
  split <;> simp

@[simp] theorem l1Read_fetch_outside (s : State) (die core line len : Nat) (pol : Policy) :
    outsideCaches (l1Read.fetch s die core line len pol).1 = outsideCaches s := by
  simp [l1Read.fetch]

@[simp] theorem l1Read_outside (s : State) (die core line len : Nat) (pol : Policy) :
    outsideCaches (l1Read s die core line len pol).1 = outsideCaches s := by
  unfold l1Read
  split
  · split
    · dsimp only; split <;> simp
    · simp
  · simp

@[simp] theorem dropCopies_outside (s : State) (die core line : Nat) : outsideCaches (dropCopies s die core line) = outsideCaches s := by
  simp [dropCopies]

/-- A fold of steps that leave all but the caches as it is leaves it. -/
theorem foldl_outside {α : Type} {f : State → α → State} (hf : ∀ s x, outsideCaches (f s x) = outsideCaches s) (l : List α) (s : State) :
    outsideCaches (l.foldl f s) = outsideCaches s := by
  induction l generalizing s with
  | nil => rfl
  | cons x rest ih => rw [List.foldl_cons, ih, hf]

@[simp] theorem drainThrough_outside (s : State) (sel : Through → Bool) : outsideCaches (drainThrough s sel) = outsideCaches s :=
  foldl_outside (fun _ _ => clusterWrite_outside _ _ _ _ _ _ _) _ _

@[simp] theorem drainLines_outside (s : State) (die core : Nat) (sel : Nat → Bool) :
    outsideCaches (drainLines s die core sel) = outsideCaches s := drainThrough_outside _ _

@[simp] theorem flushCluster_outside (s : State) (die cl : Nat) (sel : Nat → Bool) :
    outsideCaches (flushCluster s die cl sel) = outsideCaches s :=
  foldl_outside (fun s x => by split <;> simp) _ _

@[simp] theorem flushFor_outside (s : State) (id : GangId) (l : List LaneAcc) : outsideCaches (flushFor s id l) = outsideCaches s := by
  simp [flushFor]

/-! ## Accesses -/

@[simp] theorem readTarget_outside (s : State) (id : GangId) (ctx : Nat) (pol : Policy) (t : Target) (n : Nat) :
    outsideCaches (readTarget s id ctx pol t n).1 = outsideCaches s := by
  unfold readTarget
  split
  · rfl
  · split <;> simp [loadNt, loadL1, rdcRead]
  · rfl
  · rfl
  · split <;> rfl
  · rfl

@[simp] theorem readLanes_outside (s : State) (g : Gang) (pol : Policy) (n : Nat) (l : List LaneAcc) :
    outsideCaches (readLanes s g pol n l).1 = outsideCaches s := by
  induction l generalizing s with
  | nil => rfl
  | cons x rest ih => simp [readLanes, ih]

@[simp] theorem prefetch_outside (s : State) (g : Gang) (pol : Policy) (l : List (Nat × BitVec 64 × Target)) :
    outsideCaches (prefetch s g pol l) = outsideCaches s := by
  fun_induction prefetch s g pol l with
  | case1 => rfl
  | case2 s i va pa rest ih =>
    rw [ih]
    split
    · rfl
    · split <;> simp
  | case3 s x rest _ ih => exact ih

@[simp] theorem noteWrote_outside (s : State) (id : GangId) (op pa n : Nat) : outsideCaches (noteWrote s id op pa n) = outsideCaches s := by
  unfold noteWrote
  dsimp only
  split <;> rfl

@[simp] theorem unitRead_outside (s : State) (id : GangId) (ctx : Nat) (scope : Scope) (t : Target) (n : Nat) :
    outsideCaches (unitRead s id ctx scope t n).1 = outsideCaches s := by
  unfold unitRead
  split
  · rfl
  · split <;> simp
  all_goals rfl

@[simp] theorem unitWrite_outside (s : State) (id : GangId) (op : Nat) (scope : Scope) (t : Target) (n x : Nat) (psn : Bool) :
    outsideCaches (unitWrite s id op scope t n x psn) = outsideCaches s := by
  unfold unitWrite
  split
  · simp
  · dsimp only
    split <;> simp
  · rfl

@[simp] theorem unitPerform_outside (s : State) (id : GangId) (op ctx : Nat) (h : HomeOp) (w64 : Bool) (scope : Scope) (x : LaneAcc) :
    outsideCaches (unitPerform s id op ctx h w64 scope x).1 = outsideCaches s := by
  unfold unitPerform
  dsimp only
  split <;> simp

@[simp] theorem unitPerformAll_outside (s : State) (id : GangId) (op ctx : Nat) (h : HomeOp) (w64 : Bool) (scope : Scope)
    (l : List LaneAcc) : outsideCaches (unitPerformAll s id op ctx h w64 scope l).1 = outsideCaches s := by
  induction l generalizing s with
  | nil => rfl
  | cons x rest ih => simp [unitPerformAll, ih]

/-! ## Checked addresses (R258, R296) -/

/-- A translation changes nothing but what its die has cached. -/
theorem translate_dies (s : State) (die ctx : Nat) (va : BitVec 64) (n : Nat) (k : Access) :
    (translate s die ctx va n k).1 = { s with dies := (translate s die ctx va n k).1.dies } := by
  have hleaf : ∀ reach, (leafBy s reach die ctx va).1 = { s with dies := (leafBy s reach die ctx va).1.dies } := by
    intro reach
    unfold leafBy
    split
    · rfl
    · split <;> rfl
  unfold translate translateBy
  split
  · rfl
  · split
    · rfl
    · dsimp only
      split
      · exact hleaf _
      · exact hleaf _
      · split
        · exact hleaf _
        · split
          · exact hleaf _
          · split
            · exact hleaf _
            · split <;> exact hleaf _

theorem spaceTarget_dies (s : State) (g : Gang) (sp : Space) (va : BitVec 64) (n : Nat) (k : Access) :
    (spaceTarget s g sp va n k).1 = { s with dies := (spaceTarget s g sp va n k).1.dies } := by
  unfold spaceTarget
  split
  · rfl
  · cases sp <;> dsimp only
    · exact translate_dies _ _ _ _ _ _
    · split <;> rfl
    · split
      · rfl
      · split <;> rfl
    · split
      · rfl
      · split
        · exact translate_dies _ _ _ _ _ _
        · rfl
    · split
      · exact translate_dies _ _ _ _ _ _
      · rfl

/-- The checks of an instruction's addresses change nothing but what its die has cached. -/
theorem checkLanes_dies (s : State) (g : Gang) (sp : Space) (size : Nat) (k : Access) (l : List (Nat × BitVec 64)) :
    (checkLanes s g sp size k l).1 = { s with dies := (checkLanes s g sp size k l).1.dies } := by
  induction l generalizing s with
  | nil => rfl
  | cons x rest ih =>
    simp only [checkLanes]
    generalize hr : spaceTarget s g sp x.2 size k = r
    have hdies := spaceTarget_dies s g sp x.2 size k
    rw [hr] at hdies
    rw [ih r.1, hdies]

end Sys2Proof.Machine

/-!
Loads (R277-R280): LD, SLD and RFILL as they issue, what LOAD_RETURN commits, and PREF.
-/
namespace Sys2Proof.Machine

/-! ## Groups of registers that a result writes -/

/-- A group of at most 64 registers names each once. -/
theorem groupReg_inj {r : Fin 64} {j k : Nat} (hj : j < 64) (hk : k < 64) (h : groupReg r j = groupReg r k) : j = k := by
  have := congrArg Fin.val h
  simp only [groupReg, Fin.ofNat] at this
  omega

/-- Register k of a group that is written register by register holds its own runs. -/
theorem foldl_setV_vreg {r : Fin 64} (f : Nat → List Run) {n : Nat} (hn : n ≤ 64) {k : Nat} (hk : k < n) (a : Arch) :
    ((List.range n).foldl (fun x k => x.setV (groupReg r k) (some (f k))) a).vreg (groupReg r k) = some (f k) := by
  induction n with
  | zero => omega
  | succ n ih =>
    rw [List.range_succ, List.foldl_append, List.foldl_cons, List.foldl_nil, Arch.setV_vreg]
    by_cases h : k = n
    · rw [h, if_pos rfl]
    · rw [if_neg fun he => h (groupReg_inj (by omega) (by omega) he), ih (by omega) (by omega)]

/-- A group of `n` registers takes at most 32 run slots a register. -/
theorem heldSlots_foldl_setV_le {r : Fin 64} {f : Nat → List Run} (hf : ∀ k, (f k).length ≤ 32) (n : Nat) (a : Arch) :
    heldSlots ((List.range n).foldl (fun x k => x.setV (groupReg r k) (some (f k))) a) ≤ heldSlots a + 32 * n := by
  induction n with
  | zero => simp
  | succ n ih =>
    rw [List.range_succ, List.foldl_append, List.foldl_cons, List.foldl_nil]
    have hset := heldSlots_setV_le ((List.range n).foldl (fun x k => x.setV (groupReg r k) (some (f k))) a) (groupReg r n) (some (f n))
    have hlen : vregSlots (some (f n)) ≤ 32 := hf n
    omega

theorem length_writeMaxPoison_le (old : VReg) (act : Mask) (val : Nat → Word) (psn : Nat → Bool) :
    (writeMaxPoison old act val psn).length ≤ 32 := by
  unfold writeMaxPoison
  simpa using length_packRuns_le ((List.range 32).map _)

theorem vregVal_writeMaxPoison (old : VReg) (act : Mask) (val : Nat → Word) (psn : Nat → Bool) {i : Nat} (h : i < 32) :
    vregVal (some (writeMaxPoison old act val psn)) i = if inMask act i then val i else vregVal old i := by
  rw [writeMaxPoison, vregVal_packRuns _ i h]; split <;> rfl

/-! ## What a load writes (R277, R279) -/

section
variable {n : Nat} (signed : Bool) (act : Mask) (l : List (Nat × Nat × Bool)) (old a : Arch)

theorem heldSlots_loadWrite_le (d : Opnd) : heldSlots (loadWrite d n signed act l old a) ≤ heldSlots a + 32 * max 1 (n / 4) := by
  cases d with
  | v r => exact heldSlots_foldl_setV_le (fun k => length_writeMaxPoison_le _ _ _ _) _ a
  | _ => simp [loadWrite]

theorem vregVal_loadWrite (hn : n ≤ 16) (v : Fin 64) {k i : Nat} (hk : k < max 1 (n / 4)) (hi : i < 32) :
    vregVal ((loadWrite (.v v) n signed act l old a).vreg (groupReg v k)) i
      = if inMask act i then (extendNat signed n (laneResult l i).1).extractLsb' (32 * k) 32 else vregVal (old.vreg (groupReg v k)) i := by
  have hsize : max 1 (n / 4) ≤ 64 := by omega
  rw [loadWrite, foldl_setV_vreg (fun k => writeMaxPoison (old.vreg (groupReg v k)) act
    (fun i => (extendNat signed n (laneResult l i).1).extractLsb' (32 * k) 32) fun i => (laneResult l i).2) hsize hk,
    vregVal_writeMaxPoison _ _ _ _ hi]

theorem sreg_loadWrite (x : Fin 64) :
    (loadWrite (.s x) n signed act l old a).sreg x = some ((extendNat signed n (laneResult l 0).1).setWidth 64) := by
  rw [loadWrite, Arch.setS_sreg, if_pos rfl]

end

theorem loadDue_of_clean (d : Opnd) (n : Nat) (signed : Bool) (act : Mask) {l : List (Nat × Nat × Bool)} (h : ∀ x ∈ l, x.2.2 = false) :
    loadDue d n signed act l = .lanes n signed act l := by
  have hany : l.any (fun x => x.2.2) = false := by simpa using h
  cases d <;> simp [loadDue, hany]

/-! ## Results that fit -/

/-- A result within its gang's limit is committed (R95). -/
theorem commitPend_of_room {s : State} {p : Pend} {g : Gang} {f : Arch → Arch → Arch} (hg : findGang s p.gang = some g)
    (hroom : heldSlots (f g.arch (killRegs g.arch (single p.kills))) ≤ slotLimit s g) :
    commitPend s p f = committed s p { g with arch := settleAccounts g.budget (f g.arch (killRegs g.arch (single p.kills))) }
      fun a => settleAccounts g.budget (f a (killRegs a (single p.kills))) := by
  have hnone : slotExcess s g (f g.arch (killRegs g.arch (single p.kills))) = none := by
    unfold slotExcess
    rw [if_neg fun h => absurd h.2 (Nat.not_lt.mpr hroom)]
  simp only [commitPend, hg, hnone]
  rfl

@[simp] theorem settleAccounts_vreg (budget : Nat) (a : Arch) (n : Fin 64) : (settleAccounts budget a).vreg n = a.vreg n := by
  rw [settleAccounts_eq]; rfl
@[simp] theorem settleAccounts_sreg (budget : Nat) (a : Arch) (n : Fin 64) : (settleAccounts budget a).sreg n = a.sreg n := by
  rw [settleAccounts_eq]; rfl

theorem slotLimit_congr {s t : State} (h : t.gangs = s.gangs) (g : Gang) : slotLimit t g = slotLimit s g := by
  simp only [slotLimit, poolFree, h]

theorem olderRisk_congr {s t : State} (h : t.pend = s.pend) (id : GangId) (op : Nat) : olderRisk t id op = olderRisk s id op := by
  rw [olderRisk, h]; rfl

end Sys2Proof.Machine

namespace Sys2Proof
open Machine

/-! ## Instructions whose state the checks of their addresses have replaced -/

section
variable {s : State} {guard : Guard} {c : Ctx} (henters : Enters s guard c)
include henters

theorem Enters.found : ∃ g r, findGang c.s c.g.id = some g ∧ c.g = { g with arch := { g.arch with trapGate := false, resume := r } } := by
  rw [henters.state_eq]
  exact entering_gang henters.here

/-- In a state with the same gangs the issuing gang is found with what is put into it, and every other is as it was. -/
theorem Enters.findGang_put_at {u : State} (hu : u.gangs = c.s.gangs) (a : Arch) (id : GangId) :
    findGang (({ c with s := u } : Ctx).put a) id = if id = c.g.id then some { c.g with arch := a } else findGang u id := by
  obtain ⟨g, r, hg, -⟩ := henters.found
  exact findGang_putGang u g { c.g with arch := a } ((findGang_congr hu c.g.id).trans hg) id

/-- An access that is added in a state with the same gangs is issued there. -/
theorem Enters.issued_addPend_at {u : State} (hu : u.gangs = c.s.gangs) (a : Arch) (kind : PendKind) (kills dsts : List Opnd) :
    Issued { c with s := u } a kind kills dsts (addPend (({ c with s := u } : Ctx).put a) { c with s := u } kills dsts kind) where
  pend := rfl
  nextOp := rfl
  gang := by
    rw [addPend, findGang_recount, if_pos rfl]
    exact congrArg (Option.map _) ((henters.findGang_put_at hu a c.g.id).trans (if_pos rfl))
  other id hid := by
    rw [addPend, findGang_recount, if_neg hid]
    exact (henters.findGang_put_at hu a id).trans (if_neg hid)
  rest := rfl

end

theorem checkLanes_gangs (s : State) (g : Gang) (sp : Space) (size : Nat) (k : Access) (l : List (Nat × BitVec 64)) :
    (checkLanes s g sp size k l).1.gangs = s.gangs := by rw [checkLanes_dies]

/-! ## LD, SLD and RFILL (R277, R279, R109) -/

/-- Below 63 accesses a counter of a gang is not full (R247). -/
theorem not_full {n : Nat} (h : n < 63) : ¬ n ≥ counterMax := Nat.not_le.mpr h

section
variable {h : Head} {off : BitVec 32} {s : State} {c : Ctx} (hroom : c.g.ld < 63)
include hroom

theorem exec_ld_issues {d a b : Opnd} {m : MemMod} {r : State × List Checked} (hstarts : Starts s h (single [a, b]) [a] c)
    (hread : readCheck c.a c.act (single [a, b]) = none) (hmerge : groupMerge c.a c.act d m.width.regs = none)
    (hr : r = checkLanes c.s c.g m.space (widthBytes m.width) .read
      ((lanesIn c.act).map fun i => (i, laneAddr c m.space a b off (widthBytes m.width) i)))
    (hpass : firstFail r.2 = none) :
    ∃ t, exec (.ld h d a b off m) s = .next t
      ∧ Issued { c with s := r.1 } (c.a.advance c.x)
          (.load d (widthBytes m.width) (widthSigned m.width) c.act (accsOf (passing r.2) fun _ => 0#128) m.policy)
          (spreadReads (headKills h a b .zero)) (groupOpnds d m.width.regs) t := by
  subst hr
  refine ⟨_, ?_, hstarts.enter.issued_addPend_at (checkLanes_gangs _ _ _ _ _ _) _ _ _ _⟩
  change execLd h d a b off m s = _
  rw [execLd, issue_eq hstarts.enter.here hstarts.enter.clean, if_neg (not_full hroom)]
  simp only [hstarts.live, hstarts.active, hstarts.priv, hread, hmerge, firstHalt, hpass, if_false]
  rfl

theorem exec_sld_issues {d a : Opnd} {m : MemMod} {r : State × List Checked} (hstarts : Starts s h (single [a]) [a] c)
    (hpoison : wordPoison c.a a = false)
    (hr : r = checkLanes c.s c.g m.space (widthBytes m.width) .read [(0, scalarAddr c m.space a off (widthBytes m.width))])
    (hpass : firstFail r.2 = none) :
    ∃ t, exec (.sld h d a off m) s = .next t
      ∧ Issued { c with s := r.1 } (c.a.advance c.x)
          (.load d (widthBytes m.width) (widthSigned m.width) 1#32 (accsOf (passing r.2) fun _ => 0#128) m.policy)
          (spreadReads (headKills h a .zero .zero)) (groupOpnds d 1) t := by
  subst hr
  have hword : wordCheck c.a [a] = none := by simp [wordCheck, hpoison]
  refine ⟨_, ?_, hstarts.enter.issued_addPend_at (checkLanes_gangs _ _ _ _ _ _) _ _ _ _⟩
  change execSld h d a off m s = _
  rw [execSld, issue_eq hstarts.enter.here hstarts.enter.clean, if_neg (not_full hroom)]
  simp only [hstarts.live, hstarts.active, hstarts.priv, hword, firstHalt, hpass, if_false]
  rfl

theorem exec_rfill_issues {d a : Opnd} {die core pos : Nat} (hstarts : Starts s h (single [a]) [a] c) (hpoison : wordPoison c.a a = false)
    (hspan : ScratchSpan c a off 8 .read die core pos) :
    ∃ t, exec (.rfill h d a off) s = .next t
      ∧ Issued c (c.a.advance c.x) (.rfill d die core pos) (spreadReads (headKills h a .zero .zero)) (groupOpnds d 1) t := by
  have hword : wordCheck c.a [a] = none := by simp [wordCheck, hpoison]
  refine ⟨_, ?_, hstarts.enter.issued_addPend _ _ _ _⟩
  change execRfill h d a off s = _
  rw [execRfill, issue_eq hstarts.enter.here hstarts.enter.clean, if_neg (not_full hroom)]
  simp only [hstarts.live, hstarts.active, hstarts.priv, hword, firstHalt, if_false, show (spaceTarget _ _ _ _ _ _).2 = _ from hspan]
  rfl

end

/-! ## LOAD_RETURN (R277, R279) -/

section
variable {s : State} {p : Pend} {g : Gang} {op : Nat} {d : Opnd} {n : Nat} {sg : Bool} {act : Mask} {accs : List LaneAcc} {pol : Policy}
  {r : State × List (Nat × Nat × Bool)} (hp : findPend s op = some p) (hkind : p.kind = .load d n sg act accs pol)
  (hheld : pendHeld s p = false) (hrisk : olderRisk s p.gang op = false) (hlate : lateReply s p = false) (hg : findGang s p.gang = some g)
  (hreach : ∀ x ∈ accs, loadReach s g.id pol x.tgt = true) (hr : r = readLanes s g pol n accs) (hclean : ∀ x ∈ r.2, x.2.2 = false)
include hp hkind hheld hrisk hlate hg hreach hr hclean

/-- A load whose bytes are in and clean commits what its lanes have read. -/
theorem exec_loadReturn_commits : exec (.loadReturn op) s = .next (commitPend r.1 p (loadWrite d n sg act r.2)) := by
  have hall : accs.all (fun x => loadReach s g.id pol x.tgt) = true := List.all_eq_true.mpr hreach
  have hout : outsideCaches r.1 = outsideCaches s := by rw [hr, readLanes_outside]
  have hnone : olderRisk r.1 p.gang p.op = false := by
    rw [olderRisk_congr (pend_of_outsideCaches hout), op_of_findPend hp]; exact hrisk
  change execLoadReturn op s = _
  simp only [execLoadReturn, hp, hg, hkind, hheld, hall, hlate, ← hr, Bool.not_true, Bool.or_self, Bool.false_eq_true, if_false]
  rw [loadDue_of_clean d n sg act hclean, settleDue, hnone, if_neg Bool.false_ne_true, commitDue]

theorem exec_loadReturn_completes (hn : n ≤ 16) (hroom : heldSlots g.arch + 32 * max 1 (n / 4) ≤ slotLimit s g) :
    ∃ t g', exec (.loadReturn op) s = .next t ∧ findGang t p.gang = some g' ∧ findPend t op = none ∧ t.mem = s.mem
      ∧ (∀ v, d = .v v → ∀ k < max 1 (n / 4), ∀ i < 32,
          vregVal (g'.arch.vreg (groupReg v k)) i
            = if inMask act i then (extendNat sg n (laneResult r.2 i).1).extractLsb' (32 * k) 32
              else vregVal (g.arch.vreg (groupReg v k)) i)
      ∧ (∀ x, d = .s x → g'.arch.sreg x = some ((extendNat sg n (laneResult r.2 0).1).setWidth 64)) := by
  have hout : outsideCaches r.1 = outsideCaches s := by rw [hr, readLanes_outside]
  have hgangs := gangs_of_outsideCaches hout
  have hfits : heldSlots (loadWrite d n sg act r.2 g.arch (killRegs g.arch (single p.kills))) ≤ slotLimit r.1 g := by
    rw [slotLimit_congr hgangs]
    have hwrite := heldSlots_loadWrite_le (n := n) sg act r.2 g.arch (killRegs g.arch (single p.kills)) d
    have hkills := heldSlots_killRegs g.arch (single p.kills)
    omega
  have hg' : findGang r.1 p.gang = some g := (findGang_congr hgangs p.gang).trans hg
  obtain ⟨g', hfound, harch⟩ := findGang_committed hg'
    (settleAccounts g.budget (loadWrite d n sg act r.2 g.arch (killRegs g.arch (single p.kills))))
    fun a => settleAccounts g.budget (loadWrite d n sg act r.2 a (killRegs a (single p.kills)))
  refine ⟨_, g', (exec_loadReturn_commits hp hkind hheld hrisk hlate hg hreach hr hclean).trans
    (congrArg _ (commitPend_of_room hg' hfits)), hfound, ?_, ?_, ?_, ?_⟩
  · exact op_of_findPend hp ▸ findPend_dropPend _ _
  · exact (committed_frame _ _ _ _).1.trans (mem_of_outsideCaches hout)
  · rintro v rfl k hk i hi
    rw [harch, ← vregVal_loadWrite sg act r.2 g.arch (killRegs g.arch (single p.kills)) hn v hk hi]
    exact congrArg (vregVal · i) (settleAccounts_vreg g.budget _ _)
  · rintro x rfl
    rw [harch, ← sreg_loadWrite (n := n) sg act r.2 g.arch (killRegs g.arch (single p.kills)) x]
    exact settleAccounts_sreg g.budget _ _

end

/-! ## PREF (R280) -/

section
variable {h : Head} {a b : Opnd} {off : BitVec 32} {m : MemMod} {s : State} {c : Ctx}

/-- Registers that keep the slot count, or that no older instruction can stop, commit in a state that differs in its caches alone. -/
theorem Enters.commit_at {guard : Guard} (henters : Enters s guard c) {u : State} (hu : outsideCaches u = outsideCaches c.s) {kills : Reads}
    (hmay : MayCommit c (killRegs c.a kills)) :
    ∃ t, ({ c with s := u } : Ctx).commit (killRegs c.a kills) = .next t ∧ GangHolds c ((killRegs c.a kills).advance c.x) t
      ∧ t.mem = s.mem ∧ t.pend = s.pend := by
  have hclear : ({ c with s := u } : Ctx).clear = c.clear := clear_withState (issued_of_outsideCaches hu)
  have hgangs := gangs_of_outsideCaches hu
  have hput := henters.findGang_put_at hgangs (settleAccounts c.g.budget ((killRegs c.a kills).advance c.x))
  refine ⟨_, commit_of_le (c := { c with s := u }) ?_ (heldSlots_killRegs c.a kills), ⟨(hput _).trans (if_pos rfl), fun id hid => ?_⟩, ?_, ?_⟩
  · rw [hclear]; exact hmay
  · exact (hput id).trans ((if_neg hid).trans (findGang_congr hgangs id))
  · exact (mem_of_outsideCaches hu).trans (by rw [henters.state_eq])
  · exact (pend_of_outsideCaches hu).trans (by rw [henters.state_eq])

theorem exec_pref_completes (henters : Enters s h.guard c) (hact : c.act ≠ 0#32) (hlive : deadCheck c.a (single [a, b]) = none)
    (hmay : MayCommit c (killRegs c.a (headKills h a b .zero))) :
    ∃ t, exec (.pref h a b off m) s = .next t ∧ GangHolds c ((killRegs c.a (headKills h a b .zero)).advance c.x) t
      ∧ t.mem = s.mem ∧ t.pend = s.pend := by
  change ∃ t, execPref h a b off m s = _ ∧ _
  rw [execPref, issue_eq henters.here henters.clean]
  simp only [hlive, hact, if_false]
  split
  · refine henters.commit_at ?_ hmay
    rw [prefetch_outside, checkLanes_dies]
    rfl
  · exact henters.commit_at rfl hmay

end

/-- Settles O23: LD, SLD and RFILL send their access, LOAD_RETURN commits what its lanes have read, and PREF commits its marks in a
state that differs in its caches alone. -/
theorem loadsComplete : Obligations.LoadsComplete :=
  ⟨fun _ _ _ _ hroom =>
      ⟨fun _ _ _ _ _ hstarts hread hmerge hr hpass => exec_ld_issues hroom hstarts hread hmerge hr hpass,
        fun _ _ _ _ hstarts hpoison hr hpass => exec_sld_issues hroom hstarts hpoison hr hpass,
        fun _ _ _ _ _ hstarts hpoison hspan => exec_rfill_issues hroom hstarts hpoison hspan⟩,
    fun _ _ _ _ _ _ _ _ _ _ _ hp hkind hheld hrisk hlate hg hreach hn hr hclean hroom =>
      exec_loadReturn_completes hp hkind hheld hrisk hlate hg hreach hr hclean hn hroom,
    fun _ _ _ _ _ _ _ henters hact hlive hmay => exec_pref_completes henters hact hlive hmay⟩

end Sys2Proof

/-!
Stores as they issue (R258, R278, R279, R108): ST, SST and RSPILL with their data, and the trap of a store of which a lane fails.
-/
namespace Sys2Proof.Machine

/-! ## Operands do not depend on the dies -/

/-- The context with other dies: what caching a translation leaves of it. -/
def Ctx.onDies (c : Ctx) (l : Vector Die 8) : Ctx := { c with s := { c.s with dies := l } }

@[simp] theorem srVal_onDies (c : Ctx) (l : Vector Die 8) (r : SReg) : srVal (c.onDies l).s c.g c.x r = srVal c.s c.g c.x r := by
  cases r <;> rfl

@[simp] theorem scalarOf_onDies (c : Ctx) (l : Vector Die 8) (o : Opnd) : scalarOf (c.onDies l) o = scalarOf c o := by
  cases o with
  | sr r => exact srVal_onDies c l r
  | _ => rfl

@[simp] theorem laneOf_onDies (c : Ctx) (l : Vector Die 8) (o : Opnd) (i : Nat) : laneOf (c.onDies l) o i = laneOf c o i := by
  cases o with
  | sr r => cases r <;> rfl
  | _ => rfl

@[simp] theorem storeData_onDies (c : Ctx) (l : Vector Die 8) (e : Opnd) (n i : Nat) : storeData (c.onDies l) e n i = storeData c e n i := by
  cases e with
  | v r => rfl
  | imm x => rfl
  | _ => exact congrArg (BitVec.setWidth 128) (scalarOf_onDies c l _)

/-- Checking addresses changes the context's dies alone. -/
theorem checked_onDies (c : Ctx) (sp : Space) (size : Nat) (k : Access) (l : List (Nat × BitVec 64)) :
    ({ c with s := (checkLanes c.s c.g sp size k l).1 } : Ctx) = c.onDies (checkLanes c.s c.g sp size k l).1.dies :=
  congrArg (fun u => ({ c with s := u } : Ctx)) (checkLanes_dies c.s c.g sp size k l)

@[simp] theorem clear_onDies (c : Ctx) (l : Vector Die 8) : (c.onDies l).clear = c.clear := clear_withState rfl

/-! ## Registers that take last-read marks alone -/

theorem putSettled_of_mayCommit {c : Ctx} {a : Arch} (h : MayCommit c a) :
    c.putSettled (a.advance c.x) = c.put (settleAccounts c.g.budget (a.advance c.x)) :=
  putSettled_eq (by simpa [MayCommit] using h)

/-! ## The handler's entry -/

/-- Where a gang's handler is depends on its block, its context and the kernels and contexts of the machine. -/
theorem trapEntry_congr {s t : State} {g g' : Gang} (hblocks : t.blocks = s.blocks) (hkernels : t.kernels = s.kernels)
    (hcontexts : t.contexts = s.contexts) (hblock : g'.block = g.block) (hctx : g'.ctx = g.ctx) : trapEntry t g' = trapEntry s g := by
  simp only [trapEntry, ownKernel, findBlock, findKernel, findContext, hblocks, hkernels, hcontexts, hblock, hctx]

end Sys2Proof.Machine

namespace Sys2Proof
open Machine

/-! ## A store whose lanes all pass (R278, R279, R108) -/

section
variable {s : State} {guard : Guard} {c : Ctx} (henters : Enters s guard c)
include henters

/-- A store that passes in a state with other dies commits its marks and adds its access there. -/
theorem Enters.issued_postStore {l : Vector Die 8} {lanes : List Checked} {kills : Reads} (hpass : firstFail lanes = none)
    (hmay : MayCommit c (killRegs c.a kills)) (kind : List (Nat × BitVec 64 × Target) → PendKind) :
    ∃ t, postStore (c.onDies l) kills lanes kind = .next t
      ∧ Issued (c.onDies l) (settleAccounts c.g.budget ((killRegs c.a kills).advance c.x)) (kind (passing lanes)) [] [] t
      ∧ t.mem = s.mem := by
  have hmay' : MayCommit (c.onDies l) (killRegs c.a kills) := hmay.imp_right (clear_onDies c l).trans
  refine ⟨_, ?_, henters.issued_addPend_at (u := (c.onDies l).s) rfl _ _ _ _, ?_⟩
  · rw [postStore, hpass]
    exact congrArg (fun u => Host.Outcome.next (addPend u (c.onDies l) [] [] (kind (passing lanes)))) (putSettled_of_mayCommit hmay')
  · rw [← henters.state_eq]; rfl

end

section
variable {h : Head} {off : BitVec 32} {s : State} {c : Ctx} (hroom : c.g.st < 63)
include hroom

theorem exec_st_issues {a b e : Opnd} {m : MemMod} {r : State × List Checked} {l : List Checked}
    (hstarts : Starts s h [(a, 1), (b, 1), (e, m.width.regs)] [a] c)
    (hread : readCheck c.a c.act [(a, 1), (b, 1), (e, m.width.regs)] = none)
    (hmay : MayCommit c (killRegs c.a (killsOf h (a, 1) (b, 1) (e, m.width.regs))))
    (hr : r = checkLanes c.s c.g m.space (widthBytes m.width) .write
      ((lanesIn c.act).map fun i => (i, laneAddr c m.space a b (storeOff e off) (widthBytes m.width) i)))
    (hl : l = r.2.map (bellSize (widthBytes m.width))) (hpass : firstFail l = none) :
    ∃ t, exec (.st h a b e off m) s = .next t
      ∧ Issued { c with s := r.1 } (settleAccounts c.g.budget ((killRegs c.a (killsOf h (a, 1) (b, 1) (e, m.width.regs))).advance c.x))
          (storeKind (widthBytes m.width) m.policy c.act (accsOf (passing l) (storeData c e (widthBytes m.width)))) [] [] t
      ∧ t.mem = s.mem := by
  subst hr hl
  change ∃ t, execSt h a b e off m s = _ ∧ _
  rw [execSt, issue_eq hstarts.enter.here hstarts.enter.clean, if_neg (not_full hroom)]
  simp only [hstarts.live, hstarts.active, hstarts.priv, hread, firstHalt, if_false, checked_onDies]
  simpa only [funext (storeData_onDies c _ e _)] using hstarts.enter.issued_postStore hpass hmay
    fun l => storeKind (widthBytes m.width) m.policy c.act (accsOf l (storeData c e (widthBytes m.width)))

theorem exec_sst_issues {a e : Opnd} {m : MemMod} {r : State × List Checked} {l : List Checked} (hstarts : Starts s h (single [a, e]) [a] c)
    (hword : wordCheck c.a [a, e] = none) (hmay : MayCommit c (killRegs c.a (headKills h a .zero e)))
    (hr : r = checkLanes c.s c.g m.space (widthBytes m.width) .write [(0, scalarAddr c m.space a (storeOff e off) (widthBytes m.width))])
    (hl : l = r.2.map (bellSize (widthBytes m.width))) (hpass : firstFail l = none) :
    ∃ t, exec (.sst h a e off m) s = .next t
      ∧ Issued { c with s := r.1 } (settleAccounts c.g.budget ((killRegs c.a (headKills h a .zero e)).advance c.x))
          (storeKind (widthBytes m.width) m.policy 1#32 (accsOf (passing l) fun _ => (scalarOf c e).setWidth 128)) [] [] t
      ∧ t.mem = s.mem := by
  subst hr hl
  change ∃ t, execSst h a e off m s = _ ∧ _
  rw [execSst, issue_eq hstarts.enter.here hstarts.enter.clean, if_neg (not_full hroom)]
  simp only [hstarts.live, hstarts.active, hstarts.priv, hword, firstHalt, if_false, checked_onDies, scalarOf_onDies]
  exact hstarts.enter.issued_postStore hpass hmay
    fun l => storeKind (widthBytes m.width) m.policy 1#32 (accsOf l fun _ => (scalarOf c e).setWidth 128)

theorem exec_rspill_issues {a : Opnd} {n : Fin 64} {l : List Run} {free : Bool} {die core pos : Nat}
    (hstarts : Starts s h (single [a, .v n]) [a] c) (hpoison : wordPoison c.a a = false) (hruns : c.a.vreg n = some l)
    (hlength : lengthOf l = 32) (hmay : MayCommit c (killRegs c.a (headKills h a .zero (.v n) ++ (if free then [(.v n, 1)] else []))))
    (hspan : (spaceTarget c.s c.g .scratch (scalarAddr c .scratch a off 8) (imageBytes l).length .write).2 = .inr (.scratch die core pos)) :
    ∃ t, exec (.rspill h a (.v n) off free) s = .next t
      ∧ Issued c (settleAccounts c.g.budget
          ((killRegs c.a (headKills h a .zero (.v n) ++ (if free then [(.v n, 1)] else []))).advance c.x))
          (.image false die core pos (imageBytes l) []) [] [] t ∧ t.mem = s.mem := by
  have hword : wordCheck c.a [a] = none := by simp [wordCheck, hpoison]
  have hlist : runList c (.v n) = l := by simp [runList, hruns]
  refine ⟨_, ?_, hstarts.enter.issued_addPend _ _ _ _, ?_⟩
  · change execRspill h a (.v n) off free s = _
    rw [execRspill, issue_eq hstarts.enter.here hstarts.enter.clean, if_neg (not_full hroom)]
    simp only [hstarts.live, hstarts.active, hstarts.priv, hword, firstOpen_of_length hruns hlength, Option.map_none, firstHalt, if_false,
      hlist, hspan, Ctx.post, putSettled_of_mayCommit hmay]
  · rw [← hstarts.enter.state_eq]; rfl

end

/-! ## A store of which a lane fails (R258) -/

/-- The gang of `c` has entered its handler with this cause, address and lane, and keeps its vector and scalar registers; memory and the
accesses are those of `u`. -/
structure Entered (c : Ctx) (cause : BitVec 8) (va : BitVec 64) (lane : BitVec 5) (u t : State) : Prop where
  gang : ∃ g, findGang t c.g.id = some g ∧ g.arch.mode = .trap ∧ g.arch.tcause = cause ∧ g.arch.tval = va ∧ g.arch.tlane = lane
    ∧ g.arch.tpc = c.pc.setWidth 64 ∧ g.arch.v = c.a.v ∧ g.arch.s = c.a.s
  mem : t.mem = u.mem
  pend : t.pend = u.pend

/-- A running gang whose handler stands enters it (R409). -/
theorem entered_takeTrap {u : State} {c : Ctx} {g₀ g : Gang} {cause : BitVec 8} {va : BitVec 64} {lane : BitVec 5}
    (hfound : findGang u g.id = some g₀) (hid : g.id = c.g.id) (harch : g.arch = c.a) (hmode : c.a.mode = .running)
    (hentry : ∃ e, trapEntry u g = some e) : Entered c cause va lane u (takeTrap u g c.x cause va (c.pc.setWidth 64) lane) := by
  obtain ⟨⟨entry, tvec⟩, hentry⟩ := hentry
  rw [takeTrap_running (harch ▸ hmode) hentry]
  have hput := findGang_putGang u g₀
    { g with fetch := [], arch := trapArch g.budget g.arch c.x cause va (c.pc.setWidth 64) lane entry tvec } hfound c.g.id
  refine ⟨⟨_, hput.trans (if_pos hid.symm), rfl, rfl, rfl, rfl, rfl, ?_, ?_⟩, rfl, rfl⟩
  · simp [trapArch, harch]
  · simp [trapArch, harch]

/-- A gang is found with its counters after an access is added (R247). -/
theorem findGang_addPend {u : State} {c : Ctx} {g : Gang} (hg : findGang u c.g.id = some g) (kind : PendKind) :
    ∃ g', findGang (addPend u c [] [] kind) c.g.id = some g' ∧ g'.id = g.id ∧ g'.block = g.block ∧ g'.ctx = g.ctx :=
  ⟨_, (findGang_recount _ _ _).trans ((if_pos rfl).trans (congrArg (Option.map _) hg)), rfl, rfl, rfl⟩

section
variable {s : State} {guard : Guard} {c : Ctx} (henters : Enters s guard c) (hclear : c.clear = true) (hmode : c.a.mode = .running)
include henters hclear hmode

/-- What a failing store leaves: the lanes below the one that fails are an access, if there are any, and the gang is in its handler. -/
theorem Enters.entered_postStore {l : Vector Die 8} {lanes : List Checked} {kills : Reads} {cause : BitVec 8} {va : BitVec 64}
    {lane : BitVec 5} (hfail : firstFail lanes = some (.trap cause va lane)) (hentry : ∃ x, trapEntry (c.onDies l).s c.g = some x)
    (kind : List (Nat × BitVec 64 × Target) → PendKind) :
    ∃ t, postStore (c.onDies l) kills lanes kind = .next t
      ∧ Entered c cause va lane
          (if passing lanes = [] then (c.onDies l).s else addPend (c.onDies l).s (c.onDies l) [] [] (kind (passing lanes))) t := by
  obtain ⟨g, r, hg, hcg⟩ := henters.found
  obtain ⟨x, hx⟩ := hentry
  simp only [postStore, hfail, Ctx.afterRisk, clear_onDies, hclear, if_true]
  refine ⟨_, rfl, ?_⟩
  by_cases hnone : passing lanes = []
  case pos =>
    rw [if_pos hnone, show findGang (c.onDies l).s (c.onDies l).g.id = some g from hg]
    refine entered_takeTrap (g₀ := g) ?_ (by rw [hcg]) rfl hmode ⟨x, (trapEntry_congr rfl rfl rfl (by rw [hcg]) (by rw [hcg])).trans hx⟩
    exact (show g.id = c.g.id by rw [hcg]) ▸ hg
  case neg =>
    obtain ⟨g', hg', hid, hblock, hctx⟩ := findGang_addPend (u := (c.onDies l).s) (c := c.onDies l) hg (kind (passing lanes))
    rw [if_neg hnone, show findGang _ (c.onDies l).g.id = some g' from hg']
    refine entered_takeTrap (g₀ := g') ?_ (by rw [hid, hcg]) rfl hmode
      ⟨x, (trapEntry_congr rfl rfl rfl (by rw [hblock, hcg]) (by rw [hctx, hcg])).trans hx⟩
    exact (show g'.id = c.g.id by rw [hid, hcg]) ▸ hg'

end

theorem exec_st_traps {h : Head} {off : BitVec 32} {s : State} {c : Ctx} {a b e : Opnd} {m : MemMod} {r : State × List Checked}
    {l : List Checked} {cause : BitVec 8} {va : BitVec 64} {lane : BitVec 5} (hroom : c.g.st < 63)
    (hstarts : Starts s h [(a, 1), (b, 1), (e, m.width.regs)] [a] c)
    (hread : readCheck c.a c.act [(a, 1), (b, 1), (e, m.width.regs)] = none) (hclear : c.clear = true)
    (hr : r = checkLanes c.s c.g m.space (widthBytes m.width) .write
      ((lanesIn c.act).map fun i => (i, laneAddr c m.space a b (storeOff e off) (widthBytes m.width) i)))
    (hl : l = r.2.map (bellSize (widthBytes m.width))) (hfail : firstFail l = some (.trap cause va lane)) (hmode : c.a.mode = .running)
    (hentry : ∃ x, trapEntry r.1 c.g = some x) :
    ∃ t, exec (.st h a b e off m) s = .next t
      ∧ Entered c cause va lane (if passing l = [] then r.1 else addPend r.1 { c with s := r.1 } [] []
          (storeKind (widthBytes m.width) m.policy c.act (accsOf (passing l) (storeData c e (widthBytes m.width))))) t := by
  obtain ⟨dies, hdies⟩ : ∃ dies, r.1 = (c.onDies dies).s := ⟨_, hr ▸ checkLanes_dies _ _ _ _ _ _⟩
  change ∃ t, execSt h a b e off m s = _ ∧ _
  rw [execSt, issue_eq hstarts.enter.here hstarts.enter.clean, if_neg (not_full hroom)]
  simp only [hstarts.live, hstarts.active, hstarts.priv, hread, firstHalt, if_false, ← hr, ← hl]
  rw [hdies] at hentry ⊢
  have hpost := hstarts.enter.entered_postStore (kills := killsOf h (a, 1) (b, 1) (e, m.width.regs)) hclear hmode hfail hentry
    fun l => storeKind (widthBytes m.width) m.policy c.act (accsOf l (storeData (c.onDies dies) e (widthBytes m.width)))
  obtain ⟨t, hexec, hentered⟩ := hpost
  rw [funext (storeData_onDies c dies e _)] at hentered
  exact ⟨t, hexec, hentered⟩

/-- Settles O24: a store that passes commits its marks and sends its access in a state that differs in the dies alone; one that fails
sends the lanes below and enters the handler. -/
theorem storesIssue : Obligations.StoresIssue := by
  refine ⟨fun h off s c hroom => ⟨fun a b e m r l hstarts hread hmay hr hl hpass => exec_st_issues hroom hstarts hread hmay hr hl hpass,
      fun a e m r l hstarts hword hmay hr hl hpass => exec_sst_issues hroom hstarts hword hmay hr hl hpass,
      fun a n l free die core pos hstarts hpoison hruns hlength hmay hspan =>
        exec_rspill_issues hroom hstarts hpoison hruns hlength hmay hspan⟩, ?_⟩
  intro h off s c a b e m r l cause va lane hroom hstarts hread hclear hr hl hfail hmode hentry
  obtain ⟨t, hexec, ⟨g, hg, hm, hcause, hval, hlane, hpc, hv, hs⟩, hmem, hpend⟩ :=
    exec_st_traps hroom hstarts hread hclear hr hl hfail hmode hentry
  have hstate : c.s = s := hstarts.enter.state_eq
  have hdies : r.1 = { c.s with dies := r.1.dies } := by rw [hr]; exact checkLanes_dies _ _ _ _ _ _
  have hmem₀ : r.1.mem = s.mem := by rw [hdies, hstate]
  have hpend₀ : r.1.pend = s.pend := by rw [hdies, hstate]
  refine ⟨t, g, hexec, hg, hm, hcause, hval, hlane, hpc, hv, hs, hmem.trans ?_, fun hsome => ?_, fun hnone => ?_⟩
  · split
    · exact hmem₀
    · exact hmem₀
  · rw [if_neg hsome] at hpend
    exact ⟨_, hpend.trans (congrArg (· ++ _) hpend₀), rfl⟩
  · rw [if_pos hnone] at hpend
    exact hpend.trans hpend₀

end Sys2Proof

/-!
The atomic family as it issues (R270, R272, R281, R282): to a home, or performed at a unit of its die.
-/
namespace Sys2Proof.Machine

/-! ## Data and boundaries do not depend on the dies -/

@[simp] theorem atomData_onDies (c : Ctx) (l : Vector Die 8) (e : Opnd) (w64 : Bool) (i : Nat) :
    atomData (c.onDies l) e w64 i = atomData c e w64 i := by
  cases e with
  | v r => rfl
  | _ => exact congrArg (cutWord w64) (scalarOf_onDies c l _)

@[simp] theorem atomCuts_onDies (c : Ctx) (l : Vector Die 8) (a b e : Opnd) (w64 : Bool) :
    atomCuts (c.onDies l) a b e w64 = atomCuts c a b e w64 := rfl

/-! ## The parts of the family (R281, R282) -/

/-- ATOM, RED, CAS, ALD and AST share one shape. -/
theorem exec_atomForm {i : Instr} {f : AtomForm} (h : atomForm i = some f) (s : State) :
    exec i s = atomOp f.head f.op f.d f.a f.b f.e f.reads f.kills f.m s f.addrs := by
  unfold atomForm at h
  split at h
  case h_5 hd d a b off m hvector =>
    cases h
    cases d with
    | s n => exact absurd rfl (hvector n)
    | _ => rfl
  case h_7 => cases h
  all_goals cases h; rfl

/-- An atomic whose checks pass is sent to its homes or performed at its units. -/
theorem atomOp_of_passes {f : AtomForm} {s : State} {c : Ctx} {r : State × List Checked} (h : f.Passes s c r) :
    atomOp f.head f.op f.d f.a f.b f.e f.reads f.kills f.m s f.addrs
      = if f.goesHome c r then
          atomSend { c with s := r.1 } (f.op c) f.d f.m c.act (atomCuts c f.a f.b f.e f.m.w64) f.kills (f.accs c r.2)
        else atomNow { c with s := r.1 } (f.op c) f.d f.m c.act (atomCuts c f.a f.b f.e f.m.w64) f.kills (f.accs c r.2) := by
  obtain ⟨⟨henters, hactive, hlive, hpriv⟩, hclean, hmerge, hchecked, hpass, hthere⟩ := h
  obtain ⟨dies, hdies⟩ : ∃ dies, r.1 = (c.onDies dies).s := ⟨_, hchecked ▸ checkLanes_dies _ _ _ _ _ _⟩
  have hmerged : (if (f.op c).returns then groupMerge c.a c.act f.d (if f.m.w64 then 2 else 1) else none) = none := by
    split
    · exact hmerge ‹_›
    · rfl
  have hdata : atomData { c with s := r.1 } f.e f.m.w64 = atomData c f.e f.m.w64 := by
    rw [hdies]; exact funext (atomData_onDies c dies f.e f.m.w64)
  rw [AtomForm.space] at hchecked
  rw [atomOp, issue_eq henters.here henters.clean]
  simp only [hlive, hactive, if_false, hpriv, hclean, hmerged, firstHalt, ← hchecked, hpass, hthere, hdata]
  rfl

/-! ## Results fit the gang's limit (R272, R95) -/

/-- The old values of an atomic take at most the runs of a register pair. -/
theorem heldSlots_atomWrite_le (d : Opnd) (w64 : Bool) (act cuts : Mask) (l : List (Nat × Nat × Bool)) (before a : Arch) :
    heldSlots (atomWrite d w64 act cuts l before a) ≤ heldSlots a + 64 := by
  cases d with
  | v r =>
    refine (heldSlots_foldl_setV_le (fun k => ?_) (if w64 then 2 else 1) a).trans ?_
    · simpa using length_packRuns_le ((List.range 32).map _)
    · split <;> omega
  | s r => exact Nat.le_add_right _ _
  | _ => exact Nat.le_add_right _ _

end Sys2Proof.Machine

namespace Sys2Proof
open Machine

/-! ## Accesses that commit marks as they issue -/

theorem Issued.mem_eq {c : Ctx} {a : Arch} {kind : PendKind} {kills dsts : List Opnd} {t : State} (h : Issued c a kind kills dsts t) :
    t.mem = c.s.mem := by
  have hmem := congrArg State.mem h.rest
  exact hmem

/-- An access that commits its marks does so in a state with the same gangs. -/
theorem Enters.issued_post_at {s : State} {guard : Guard} {c : Ctx} (henters : Enters s guard c) {u : State} (hu : u.gangs = c.s.gangs)
    {a : Arch} (hmay : MayCommit { c with s := u } a) (kind : PendKind) :
    ∃ t, ({ c with s := u } : Ctx).post a kind = .next t
      ∧ Issued { c with s := u } (settleAccounts c.g.budget (a.advance c.x)) kind [] [] t :=
  ⟨_, congrArg (fun v => Host.Outcome.next (addPend v { c with s := u } [] [] kind)) (putSettled_of_mayCommit hmay),
    henters.issued_addPend_at hu _ _ _ _⟩

/-! ## What an atomic issues, and what it performs -/

section
variable {f : AtomForm} {s : State} {c : Ctx} {r : State × List Checked} (h : f.Passes s c r)
include h

theorem AtomForm.Passes.onDies : ∃ dies, r.1 = (c.onDies dies).s := ⟨_, h.checked ▸ checkLanes_dies _ _ _ _ _ _⟩

/-- An atomic with a result waits for its old values; one without commits its last-read marks. -/
theorem AtomForm.Passes.issued_atomSend (hmay : (f.op c).returns = false → MayCommit c (killRegs c.a f.kills)) (cuts : Mask)
    (accs : List LaneAcc) :
    ∃ t, atomSend { c with s := r.1 } (f.op c) f.d f.m c.act cuts f.kills accs = .next t
      ∧ ((f.op c).returns = true → Issued { c with s := r.1 } (c.a.advance c.x)
          (.home (f.op c) f.d f.m.w64 f.m.scope c.act accs cuts false) (spreadReads f.kills) (groupOpnds f.d (if f.m.w64 then 2 else 1)) t)
      ∧ ((f.op c).returns = false → Issued { c with s := r.1 } (settleAccounts c.g.budget ((killRegs c.a f.kills).advance c.x))
          (.home (f.op c) f.d f.m.w64 f.m.scope c.act accs cuts false) [] [] t) := by
  obtain ⟨dies, hdies⟩ := h.onDies
  have hgangs : r.1.gangs = c.s.gangs := by rw [hdies]; rfl
  rw [atomSend]
  cases hreturns : (f.op c).returns with
  | true => exact ⟨_, rfl, fun _ => h.starts.enter.issued_addPend_at hgangs _ _ _ _, fun hno => nomatch hno⟩
  | false =>
    have hmay' : MayCommit { c with s := r.1 } (killRegs c.a f.kills) := by
      rw [hdies]; exact (hmay hreturns).imp_right (clear_onDies c dies).trans
    obtain ⟨t, hpost, hissued⟩ := h.starts.enter.issued_post_at hgangs hmay'
      (.home (f.op c) f.d f.m.w64 f.m.scope c.act accs cuts false)
    exact ⟨t, hpost, fun hno => (nomatch hno), fun _ => hissued⟩

/-- An atomic whose units have performed it clean commits its old values: no poison stops it, and they fit. -/
theorem AtomForm.Passes.atomNow_eq {accs : List LaneAcc} {q : State × List (Nat × Nat × Bool)} (cuts : Mask)
    (hclear : ({ c with s := r.1 } : Ctx).clear = true) (htwins : f.m.scope = .die → twinsFit r.1 c.g.id.die accs = true)
    (hq : q = unitPerformAll (if f.m.scope = .die then flushFor r.1 c.g.id accs else r.1) c.g.id s.nextOp c.g.ctx (f.op c)
      f.m.w64 f.m.scope accs)
    (hclean : ∀ x ∈ q.2, x.2.2 = false) (hroom : heldSlots c.a + 64 ≤ slotLimit s c.g) :
    atomNow { c with s := r.1 } (f.op c) f.d f.m c.act cuts f.kills accs = .next (afterCommit { c with s := q.1 }
      ((if (f.op c).returns then atomWrite f.d f.m.w64 c.act cuts q.2 c.a (killRegs c.a f.kills) else killRegs c.a f.kills).advance c.x)) := by
  obtain ⟨dies, hdies⟩ := h.onDies
  have hs : c.s = s := h.starts.enter.state_eq
  have hnext : r.1.nextOp = s.nextOp := by rw [hdies, ← hs]; rfl
  have hgangs : r.1.gangs = s.gangs := by rw [hdies, ← hs]; rfl
  have hout : outsideCaches q.1 = outsideCaches r.1 := by rw [hq]; split <;> simp
  have hany : q.2.any (fun x => x.2.2) = false := by simpa using hclean
  have hfits : heldSlots (if (f.op c).returns then atomWrite f.d f.m.w64 c.act cuts q.2 c.a (killRegs c.a f.kills) else killRegs c.a f.kills)
      ≤ slotLimit s c.g := by
    have hkills := heldSlots_killRegs c.a f.kills
    have hwrite := heldSlots_atomWrite_le f.d f.m.w64 c.act cuts q.2 c.a (killRegs c.a f.kills)
    split <;> omega
  have hnone : slotExcess r.1 c.g (if (f.op c).returns then atomWrite f.d f.m.w64 c.act cuts q.2 c.a (killRegs c.a f.kills)
      else killRegs c.a f.kills) = none := by
    rw [slotExcess, if_neg fun hover => absurd hover.2 (Nat.not_lt.mpr ((slotLimit_congr hgangs c.g).symm ▸ hfits))]
  have htwins' : (decide (f.m.scope = .die) && !twinsFit r.1 c.g.id.die accs) = false := by
    by_cases hdie : f.m.scope = .die
    · simp [htwins hdie]
    · simp [hdie]
  unfold atomNow
  dsimp only
  rw [htwins', if_neg Bool.false_ne_true, hnext, ← hq, hany, Bool.and_false, if_neg Bool.false_ne_true]
  have hcommit := commit_of_limit (c := { c with s := q.1 }) ((clear_withState (c := { c with s := r.1 }) (issued_of_outsideCaches hout)).trans
    hclear) ((slotLimit_congr ((gangs_of_outsideCaches hout).trans hgangs) c.g).symm ▸ hfits)
  simp only [Ctx.a] at hnone ⊢
  rw [hnone]
  exact hcommit

end

/-- Settles O28: an atomic whose checks pass is sent, or its units perform it and its old values fit. -/
theorem atomicsComplete : Obligations.AtomicsComplete := by
  refine ⟨fun i f s c r hform hpasses hhome hmay => ?_, fun i f s c r q hform hpasses hhome hclear htwins hq hclean hroom => ?_⟩
  · rw [exec_atomForm hform, atomOp_of_passes hpasses, if_pos hhome]
    obtain ⟨dies, hdies⟩ := hpasses.onDies
    have hmem : r.1.mem = s.mem := by rw [hdies, ← hpasses.starts.enter.state_eq]; rfl
    obtain ⟨t, hexec, hwaits, hcommits⟩ := hpasses.issued_atomSend hmay (atomCuts c f.a f.b f.e f.m.w64) (f.accs c r.2)
    refine ⟨t, hexec, ?_, hwaits, hcommits⟩
    cases hreturns : (f.op c).returns with
    | true => exact (hwaits hreturns).mem_eq.trans hmem
    | false => exact (hcommits hreturns).mem_eq.trans hmem
  · rw [exec_atomForm hform, atomOp_of_passes hpasses, if_neg (by simp [hhome])]
    have hnow : ({ c with s := r.1 } : Ctx).clear = true := by
      simp only [AtomForm.goesHome, Bool.or_eq_false_iff, Bool.not_eq_false'] at hhome
      exact hhome.1.2
    exact hpasses.atomNow_eq _ hnow htwins hq hclean hroom

end Sys2Proof

/-!
FENCE and DRAIN (R266, R267, R276, R284, R285): their releases, and the faults that they raise.
-/
namespace Sys2Proof.Machine

/-! ## Faults that a waiting instruction raises (R276) -/

/-- The context with these posted faults left to its gang, and none of a background release. -/
def Ctx.withFaults (c : Ctx) (l : List Posted) : Ctx :=
  { c with s := putGang c.s { c.g with posted := l, fenceFault := none }, g := { c.g with posted := l, fenceFault := none } }

theorem worstFault_single (f : BitVec 8 × BitVec 64) : worstFault [f] = some f := by
  by_cases h : f.1 = cTimeout <;> simp [worstFault, List.find?, h]

section
variable {c : Ctx} {due : PostClass → Bool}

theorem posted_notDue (hold : ∀ x ∈ c.g.posted, due x.cls = true → c.op ≤ x.op) :
    c.g.posted.filter (fun x => due x.cls && decide (x.op < c.op)) = [] := by
  simpa using hold

variable (hfence : c.g.fenceFault = none)
include hfence

/-- With no fault behind it the instruction goes on. -/
theorem raisePosted_of_none (hold : ∀ x ∈ c.g.posted, due x.cls = true → c.op ≤ x.op) (k : Ctx → Res) :
    c.raisePosted due none k = k c := by
  simp [Ctx.raisePosted, posted_notDue hold, hfence, worstFault]

/-- The release's fault is the instruction's; the gang's posted faults stay. -/
theorem raisePosted_of_fault (hold : ∀ x ∈ c.g.posted, due x.cls = true → c.op ≤ x.op) (f : BitVec 8 × BitVec 64) (k : Ctx → Res) :
    c.raisePosted due (some f) k = c.afterRisk ((c.withFaults c.g.posted).fail f.1 f.2) := by
  simp [Ctx.raisePosted, posted_notDue hold, hfence, worstFault_single, Ctx.withFaults]

/-- The fault of a posted write that the instruction waits for is its trap, and is posted no more. -/
theorem raisePosted_of_posted {x : Posted} (hposted : c.g.posted = [x]) (hdue : due x.cls = true) (holder : x.op < c.op) (k : Ctx → Res) :
    c.raisePosted due none k = c.afterRisk ((c.withFaults []).fail x.cause x.tval) := by
  simp [Ctx.raisePosted, hposted, hdue, holder, hfence, worstFault_single, earlierFault, Ctx.withFaults]

end

/-! ## The precise trap of a begun instruction (R97, R409) -/

/-- The machine without what the gang of an access has issued since it, and without the access. -/
def withoutYounger (u : State) (p : Pend) : State :=
  recount { u with pend := u.pend.filter fun q => !(decide (q.gang = p.gang) && decide (p.op ≤ q.op)) } p.gang

section
variable {u : State} {p : Pend} {g : Gang} (hg : findGang u p.gang = some g)
include hg

theorem preciseTrap_eq (cause : BitVec 8) (tval : BitVec 64) (lane : BitVec 5) :
    preciseTrap u p cause tval lane
      = takeTrap (withoutYounger u p) { g with arch := p.ckpt } p.slot cause tval (p.pc.setWidth 64) lane := by
  rw [preciseTrap, hg]
  rfl

/-- The gang stands at its issue but for the handler's entry, what it had issued since is cancelled, and its posted faults stay. -/
theorem preciseTrap_running (cause : BitVec 8) (tval : BitVec 64) (lane : BitVec 5) (hmode : p.ckpt.mode = .running)
    (hentry : ∃ x, trapEntry u { g with arch := p.ckpt } = some x) :
    (∀ q ∈ (preciseTrap u p cause tval lane).pend, q.gang = p.gang → q.op < p.op)
      ∧ ∃ g', findGang (preciseTrap u p cause tval lane) p.gang = some g' ∧ g'.posted = g.posted ∧ g'.arch.mode = .trap
        ∧ g'.arch.tcause = cause ∧ g'.arch.tval = tval ∧ g'.arch.tpc = p.pc.setWidth 64 ∧ g'.arch.tslot = p.slot ∧ g'.arch.v = p.ckpt.v
        ∧ g'.arch.s = p.ckpt.s ∧ g'.arch.p = p.ckpt.p := by
  obtain ⟨⟨entry, tvec⟩, hentry⟩ := hentry
  have hid : g.id = p.gang := by simpa using List.find?_some hg
  have hentry' : trapEntry (withoutYounger u p) { g with arch := p.ckpt } = some (entry, tvec) :=
    (trapEntry_congr rfl rfl rfl rfl rfl).trans hentry
  obtain ⟨g₀, hg₀⟩ : ∃ g₀, findGang (withoutYounger u p) p.gang = some g₀ :=
    ⟨_, (findGang_recount _ _ _).trans ((if_pos rfl).trans (congrArg (Option.map _) hg))⟩
  have hput := findGang_putGang (withoutYounger u p) g₀
    { g with fetch := [], arch := trapArch g.budget p.ckpt p.slot cause tval (p.pc.setWidth 64) lane entry tvec } (hid.symm ▸ hg₀) p.gang
  rw [preciseTrap_eq hg, takeTrap_running hmode hentry']
  refine ⟨?_, _, hput.trans (if_pos hid.symm), rfl, rfl, rfl, rfl, rfl, rfl, ?_, ?_, ?_⟩
  · intro q hq hgang
    have hq' : q ∈ u.pend.filter fun q => !(decide (q.gang = p.gang) && decide (p.op ≤ q.op)) := hq
    simpa [hgang] using (List.mem_filter.mp hq').2
  all_goals simp [trapArch]

end

/-! ## Posted faults stay where a result commits -/

theorem posted_dropPend {u : State} {p : Pend} {g : Gang} (h : findGang u p.gang = some g) :
    (findGang (dropPend u p) p.gang).map (fun x => x.posted) = some g.posted := by
  have h' : findGang { u with pend := u.pend.filter fun q => decide (q.op ≠ p.op) } p.gang = some g := h
  rw [dropPend, wakeOrder, findGang_modGang, if_pos rfl, recount, findGang_modGang, if_pos rfl, h']
  · rfl
  all_goals exact fun _ => rfl

/-- A result that is committed leaves its gang's posted faults. -/
theorem posted_commitPend {u : State} {p : Pend} {g : Gang} {f : Arch → Arch → Arch} (hg : findGang u p.gang = some g)
    (hfits : heldSlots (f g.arch (killRegs g.arch (single p.kills))) ≤ heldSlots g.arch) :
    (findGang (commitPend u p f) p.gang).map (fun x => x.posted) = some g.posted := by
  have hid : g.id = p.gang := by simpa using List.find?_some hg
  have hput := (findGang_putGang u g { g with arch := settleAccounts g.budget (f g.arch (killRegs g.arch (single p.kills))) }
    (hid.symm ▸ hg) p.gang).trans (if_pos hid.symm)
  have hdrop := posted_dropPend (u := patchYounger (putGang u { g with arch := _ }) p.gang p.op
    fun a => settleAccounts g.budget (f a (killRegs a (single p.kills)))) hput
  rw [commitPend_of_fits hg hfits]
  exact hdrop

end Sys2Proof.Machine

namespace Sys2Proof
open Machine

/-! ## FENCE and DRAIN as they begin (R284, R285) -/

theorem fenceTask_inbox (c : Ctx) (scope : Scope) (dir : Bool) (die : BitVec 5) (succ pred : BitVec 6) :
    (fenceTask c scope dir die succ pred).inbox = (succ.getLsbD 0 && decide (3 ≤ scopeRank scope)) := rfl

/-- A FENCE that waits for accesses or for the inbox is not one that only moves on. -/
theorem fence_waits {c : Ctx} {scope : Scope} {dir : Bool} {die : BitVec 5} {succ pred : BitVec 6}
    (hwaits : pred ≠ 0#6 ∨ succ.getLsbD 0 = true ∧ 3 ≤ scopeRank scope) :
    ¬ (pred = 0#6 ∧ (!(fenceTask c scope dir die succ pred).inbox) = true) := by
  rintro ⟨hpred, hinbox⟩
  obtain ⟨hbit, hrank⟩ := hwaits.resolve_left (absurd hpred)
  rw [fenceTask_inbox, hbit, decide_eq_true hrank] at hinbox
  exact nomatch hinbox

section
variable {h : Head} {s : State} {c : Ctx} (henters : Enters s h.guard c) (hact : c.act ≠ 0#32)
include henters hact

section
variable (scope : Scope) (dir : Bool) (die : BitVec 5) {succ pred : BitVec 6}

/-- A FENCE with nothing to wait for only moves on. -/
theorem exec_fence_idle (hidle : (succ = 0#6 ∧ pred = 0#6) ∨ (pred = 0#6 ∧ (succ.getLsbD 0 = false ∨ scopeRank scope < 3))) :
    exec (.fence h scope dir die succ pred) s = .next (afterCommit c (c.a.advance c.x)) := by
  have hcommit : c.commit c.a = .next (afterCommit c (c.a.advance c.x)) := commit_of_le (.inl rfl) le_rfl
  change execFence h scope dir die succ pred s = _
  rw [execFence, issue_eq henters.here henters.clean, if_neg hact]
  obtain ⟨rfl, rfl⟩ | ⟨rfl, hinbox⟩ := hidle
  · simpa using hcommit
  · have hnone : (fenceTask c scope dir die succ 0#6).inbox = false := by
      rw [fenceTask_inbox, Bool.and_eq_false_iff, decide_eq_false_iff_not, Nat.not_le]
      exact hinbox
    simpa [hnone] using hcommit

/-- A FENCE with an empty successor set starts a background release and moves on. -/
theorem exec_fence_background (hsucc : succ = 0#6) (hpred : pred ≠ 0#6) :
    exec (.fence h scope dir die succ pred) s
      = .next (addTask (afterCommit c (c.a.advance c.x)) (fenceTask c scope dir die succ pred)) := by
  change execFence h scope dir die succ pred s = _
  rw [execFence, issue_eq henters.here henters.clean, if_neg hact, if_pos hsucc, if_neg hpred]
  exact commitWith_of_le (.inl (by simp)) (by simp) _

/-- Any other FENCE begins with its release. -/
theorem exec_fence_begins (hsucc : succ ≠ 0#6) (hwaits : pred ≠ 0#6 ∨ succ.getLsbD 0 = true ∧ 3 ≤ scopeRank scope) :
    exec (.fence h scope dir die succ pred) s = .next (addTask
      (c.begin (.fence h scope dir die succ pred) (.task s.nextUid) .zero [] [] true) (fenceTask c scope dir die succ pred)) := by
  change execFence h scope dir die succ pred s = _
  rw [execFence, issue_eq henters.here henters.clean, if_neg hact]
  dsimp only
  rw [if_neg hsucc, if_neg (fence_waits hwaits), withTask_of_fresh henters.fresh, ← henters.state_eq]
  rfl

end

theorem exec_drain_begins (scope : Scope) :
    ∃ t, exec (.drain h scope) s = .next (addTask (c.begin (.drain h scope) (.task s.nextUid) .zero [] [] true) t)
      ∧ t.ops = postedOps s c.g.id ∧ t.folded = true ∧ t.scope = scope ∧ t.stage = 0 := by
  obtain rfl := henters.state_eq
  refine ⟨{ baseTask c.s c.g scope with ops := postedOps c.s c.g.id, folded := true, notBefore := c.s.tick }, ?_, rfl, rfl, rfl, rfl⟩
  change execDrain h scope c.s = _
  rw [execDrain, issue_eq henters.here henters.clean, if_neg hact]
  exact withTask_of_fresh henters.fresh _ _ _ _ _ _ _

end

/-! ## Their end -/

/-- What a FENCE and a DRAIN do when their release is over: a fault, or the slot goes on. -/
def waitEnd (due : PostClass → Bool) (c : Ctx) (fault : Option (BitVec 8 × BitVec 64)) : Res :=
  c.raisePosted due fault fun c => c.finish .zero [] 0#64 id

section
variable {h : Head} {s : State} {c : Ctx} {p : Pend} (hres : Resumes s h.guard c p)
include hres

/-- A begun FENCE or DRAIN whose release is over. -/
theorem exec_wait_resumed {i : Instr} {due : PostClass → Bool} {k : Machine.Task}
    (hi : (∃ scope dir die succ pred, i = .fence h scope dir die succ pred ∧ due = fenceWaits pred
        ∧ succ ≠ 0#6 ∧ (pred ≠ 0#6 ∨ succ.getLsbD 0 = true ∧ 3 ≤ scopeRank scope))
      ∨ (∃ scope, i = .drain h scope ∧ due = drainWaits))
    (hact : c.act ≠ 0#32) (hwait : c.slot.wait = .task k.id) (hk : findTask s k.id = some k) :
    exec i s = waitEnd due (c.resumed k.id) k.fault := by
  have hfault : (findTask c.s k.id).bind (fun t => t.fault) = k.fault := by rw [hres.state_eq, hk]; rfl
  obtain ⟨scope, dir, die, succ, pred, rfl, rfl, hsucc, hwaits⟩ | ⟨scope, rfl, rfl⟩ := hi
  case inl =>
    change execFence h scope dir die succ pred s = _
    rw [execFence, hres.issue_eq, if_neg hact]
    dsimp only
    rw [if_neg hsucc, if_neg (fence_waits hwaits), hres.withTask_eq hwait, hfault]
    rfl
  case inr =>
    change execDrain h scope s = _
    rw [execDrain, hres.issue_eq, if_neg hact]
    dsimp only
    rw [hres.withTask_eq hwait, hfault]
    rfl

/-- With nothing met the slot goes on, and the gang's posted faults stay. -/
theorem Resumes.ended_wait (id : Nat) : ∃ t, (c.resumed id).finish .zero [] 0#64 (fun u => u) = .next t ∧ Ended c p .zero 0#64 t
    ∧ t.mem = s.mem ∧ (findGang t c.g.id).map (fun g => g.posted) = some c.g.posted := by
  obtain rfl := hres.state_eq
  have hbegun : (c.resumed id).begun = some p := hres.begun
  obtain ⟨t, hcommit, hended, hmem, -⟩ := hres.ended (u := dropTask c.s id) rfl .zero 0#64
  refine ⟨t, ?_, hended, hmem, ?_⟩
  · rw [← hcommit]
    simp only [Ctx.finish, hbegun]
    rfl
  · obtain ⟨g, r, hg, harch⟩ := entering_gang hres.here
    have hu : findGang (dropTask c.s id) p.gang = some g := by
      rw [hres.gang_eq]; exact hg
    have hposted := posted_commitPend (f := fun _ a => ((writeScalar a .zero 0#64).setWait c.x .none).advance c.x) hu
      (by simpa using heldSlots_killRegs g.arch (single p.kills))
    rw [hcommit, hres.gang_eq] at hposted
    rw [hposted, harch]

/-- A fault is the instruction's precise trap, and leaves the gang the posted faults that it is given. -/
theorem Resumes.trapped_wait (hmay : MayTrap s c p) (id : Nat) (l : List Posted) (cause : BitVec 8) (tval : BitVec 64) :
    ∃ t, (c.resumed id).afterRisk (((c.resumed id).withFaults l).fail cause tval) = .next t ∧ Trapped c p cause tval t
      ∧ (findGang t c.g.id).map (fun g => g.posted) = some l := by
  obtain rfl := hres.state_eq
  obtain ⟨hclear, hmode, x, hentry⟩ := hmay
  obtain ⟨g, r, hg, harch⟩ := entering_gang hres.here
  have hid : g.id = c.g.id := by rw [harch]
  have hclear' : (c.resumed id).clear = true := hclear
  have hclear₂ : ((c.resumed id).withFaults l).clear = true := hclear
  have hbegun : ((c.resumed id).withFaults l).begun = some p := hres.begun
  have hfound : findGang ((c.resumed id).withFaults l).s p.gang = some ((c.resumed id).withFaults l).g := by
    have hgangs : findGang (c.resumed id).s c.g.id = some g := hg
    rw [hres.gang_eq]
    exact (findGang_putGang (c.resumed id).s g { (c.resumed id).g with posted := l, fenceFault := none } hgangs c.g.id).trans (if_pos rfl)
  obtain ⟨hyounger, g', hg', hposted, hm, hcause, hval, hpc, hslot, hv, hs, hp⟩ := preciseTrap_running hfound cause tval 0#5 hmode
    ⟨x, (trapEntry_congr rfl rfl rfl rfl rfl).trans hentry⟩
  rw [hres.gang_eq] at hg'
  refine ⟨_, ?_, ⟨hyounger, g', hg', hm, hcause, hval, hpc, hslot, hv, hs, hp⟩, ?_⟩
  · simp only [Ctx.afterRisk, hclear', if_true, Ctx.fail, hbegun, hclear₂]
  · rw [hg']; exact congrArg some hposted

end

/-- Settles O30: a FENCE or a DRAIN moves on or begins with its release; at its end a fault is its precise trap, or its slot goes on. -/
theorem fencesWaitForReleases : Obligations.FencesWaitForReleases := by
  refine ⟨fun h scope dir die succ pred s c henters hact => ⟨exec_fence_idle henters hact scope dir die,
    exec_fence_background henters hact scope dir die, exec_fence_begins henters hact scope dir die⟩,
    fun h scope s c henters hact => exec_drain_begins henters hact scope, ?_⟩
  intro i h due s c p k hi hres hact hwait hk hfence
  have hop : (c.resumed k.id).op = p.op := by
    have hbegun : (c.resumed k.id).begun = some p := hres.begun
    simp [Ctx.op, hbegun]
  rw [exec_wait_resumed hres hi hact hwait hk]
  refine ⟨fun hold => ⟨fun hnone => ?_, fun f hf hmay => ?_⟩, fun x hposted hdue holder hnone hmay => ?_⟩
  · rw [hnone, waitEnd, raisePosted_of_none (c := c.resumed k.id) hfence (by rw [hop]; exact hold)]
    exact hres.ended_wait k.id
  · rw [hf, waitEnd, raisePosted_of_fault (c := c.resumed k.id) hfence (by rw [hop]; exact hold)]
    exact hres.trapped_wait hmay k.id c.g.posted f.1 f.2
  · rw [hnone, waitEnd, raisePosted_of_posted (c := c.resumed k.id) hfence hposted hdue (by rw [hop]; exact holder)]
    exact hres.trapped_wait hmay k.id [] x.cause x.tval

end Sys2Proof

/-!
Leases that end, walks, lines fetched and replaced, and drop notices (R260, R296, R298, R301, R307).
-/
namespace Sys2Proof.Machine

/-! ## Clusters, homes' pages and sheets by their keys -/

def clusterKey (c : ClusterSt) : Nat × Nat := (c.die, c.cluster)

theorem getCluster_eq_lookupOr (s : State) (die cl : Nat) :
    getCluster s die cl = lookupOr clusterKey (fun k => ClusterSt.empty k.1 k.2) s.clusters (die, cl) := by
  unfold getCluster lookupOr
  simp only [clusterKey, Prod.mk.injEq, Bool.decide_and]
  generalize List.find? _ _ = found
  cases found <;> rfl

theorem modCluster_clusters (s : State) (die cl : Nat) (f : ClusterSt → ClusterSt) :
    (modCluster s die cl f).clusters = updateOr clusterKey (fun k => ClusterSt.empty k.1 k.2) s.clusters (die, cl) f := by
  unfold modCluster updateOr
  simp only [clusterKey, Prod.mk.injEq, Bool.decide_and]
  split <;> rfl

theorem getCluster_modCluster (s : State) (die cl die' cl' : Nat) {f : ClusterSt → ClusterSt} (hf : ∀ c, clusterKey (f c) = clusterKey c) :
    getCluster (modCluster s die cl f) die' cl' = if (die', cl') = (die, cl) then f (getCluster s die cl) else getCluster s die' cl' := by
  simp only [getCluster_eq_lookupOr, modCluster_clusters]
  exact lookupOr_updateOr (fun _ => rfl) _ _ _ hf

theorem findHomePage_eq_lookupOr (s : State) (g : Nat) :
    findHomePage s g = lookupOr HomePage.page (fun k => { page := k, sharers := 0#8, state := .normal }) s.homePages g := by
  unfold findHomePage lookupOr
  generalize List.find? _ _ = found
  cases found <;> rfl

theorem modHomePage_homePages (s : State) (g : Nat) (f : HomePage → HomePage) :
    (modHomePage s g f).homePages
      = updateOr HomePage.page (fun k => { page := k, sharers := 0#8, state := .normal }) s.homePages g f := by
  unfold modHomePage updateOr
  split <;> rfl

theorem findHomePage_modHomePage (s : State) (g : Nat) {f : HomePage → HomePage} (hf : ∀ h, (f h).page = h.page) :
    findHomePage (modHomePage s g f) g = f (findHomePage s g) := by
  rw [findHomePage_eq_lookupOr, modHomePage_homePages, lookupOr_updateOr (fun _ => rfl) _ _ _ hf, if_pos rfl, ← findHomePage_eq_lookupOr]

@[simp] theorem modHomePage_dies (s : State) (g : Nat) (f : HomePage → HomePage) : (modHomePage s g f).dies = s.dies := by
  unfold modHomePage; split <;> rfl
@[simp] theorem modHomePage_mem (s : State) (g : Nat) (f : HomePage → HomePage) : (modHomePage s g f).mem = s.mem := by
  unfold modHomePage; split <;> rfl
@[simp] theorem modHomePage_msgs (s : State) (g : Nat) (f : HomePage → HomePage) : (modHomePage s g f).msgs = s.msgs := by
  unfold modHomePage; split <;> rfl

@[simp] theorem getDie_setSharer (s : State) (pa die d : Nat) : getDie (setSharer s pa die) d = getDie s d := by
  simp [setSharer, getDie]

theorem sheets_putSheet (s : State) (die : Nat) (x : Sheet) :
    (getDie (putSheet s die x) die).sheets = if (getDie s die).sheets.any fun y => decide (y.sheet = x.sheet) then
      (getDie s die).sheets.map fun y => if y.sheet = x.sheet then x else y else (getDie s die).sheets ++ [x] := by
  rw [putSheet, getDie_modDie]
  split <;> rfl

/-- A sheet that is put is found, and every other is as it was. -/
theorem findSheet_putSheet (s : State) (die sh : Nat) (x : Sheet) :
    findSheet (getDie (putSheet s die x) die) sh = if sh = x.sheet then some x else findSheet (getDie s die) sh := by
  rw [findSheet, sheets_putSheet]
  split
  case isTrue hany =>
    refine (find?_map_update Sheet.sheet (getDie s die).sheets x.sheet sh (fun _ => x) fun _ _ => rfl).trans ?_
    split
    · obtain ⟨y, hy⟩ := Option.isSome_iff_exists.mp (List.find?_isSome.mpr (List.any_eq_true.mp hany))
      exact congrArg (Option.map _) hy
    · rfl
  case isFalse hany =>
    have hnone : findSheet (getDie s die) x.sheet = none := by
      rw [findSheet, List.find?_eq_none]
      exact fun y hy hkey => hany (List.any_eq_true.mpr ⟨y, hy, hkey⟩)
    rw [List.find?_append]
    split
    case isTrue h => rw [h, ← findSheet, hnone]; simp
    case isFalse h =>
      have hne : ¬ x.sheet = sh := fun e => h e.symm
      simp [hne, findSheet]

theorem sheet_of_findSheet {d : Die} {sh : Nat} {x : Sheet} (h : findSheet d sh = some x) : x.sheet = sh := by
  simpa using List.find?_some h

theorem sheetOr_of_find {s : State} {die sh : Nat} {x : Sheet} (h : findSheet (getDie s die) sh = some x) : sheetOr s die sh = x := by
  simp [sheetOr, h]

@[simp] theorem sheetOr_sheet (s : State) (die sh : Nat) : (sheetOr s die sh).sheet = sh := by
  unfold sheetOr
  split
  case h_1 x hx => exact sheet_of_findSheet hx
  case h_2 => rfl

theorem sheetOr_putSheet (s : State) (die sh : Nat) (x : Sheet) :
    sheetOr (putSheet s die x) die sh = if sh = x.sheet then x else sheetOr s die sh := by
  unfold sheetOr
  rw [findSheet_putSheet]
  by_cases h : sh = x.sheet
  · rw [if_pos h, if_pos h]
  · rw [if_neg h, if_neg h]

/-! ## A line that is held (R298, R307) -/

@[simp] theorem fillHalf_sheet (s : State) (x : Sheet) (h : Nat) : (fillHalf s x h).sheet = x.sheet := by
  unfold fillHalf; split <;> rfl

theorem fillHalf_held (s : State) (x : Sheet) {h : Nat} (hh : h < 2) : (fillHalf s x h).held.getLsbD h = true := by
  unfold fillHalf
  split
  · assumption
  · simp [hh]

/-- A die that is supplied with a line holds it, and is a sharer of its page if it did not hold it. -/
theorem supplyLine_holds (s : State) {die line : Nat} (hdie : die < 8) :
    (∃ x, findSheet (getDie (supplyLine s die line) die) (line / 2) = some x ∧ x.held.getLsbD (line % 2) = true)
      ∧ ((sheetOr s die (line / 2)).held.getLsbD (line % 2) = false →
          (findHomePage (supplyLine s die line) (granule (128 * line))).sharers.getLsbD die = true) := by
  have hhalf : line % 2 < 2 := Nat.mod_lt _ (by decide)
  unfold supplyLine
  split
  case isTrue hheld =>
    refine ⟨?_, fun hno => by rw [hno] at hheld; exact nomatch hheld⟩
    unfold sheetOr at hheld
    split at hheld
    case h_1 x hx => exact ⟨x, hx, hheld⟩
    case h_2 => simp [newSheet] at hheld
  case isFalse =>
    refine ⟨⟨_, ?_, fillHalf_held (makeRoom s die (line / 2)) (sheetOr (makeRoom s die (line / 2)) die (line / 2)) hhalf⟩, fun _ => ?_⟩
    · rw [getDie_setSharer, findSheet_putSheet, if_pos (by simp)]
    · rw [setSharer, findHomePage_modHomePage]
      · simp [hdie]
      · exact fun _ => rfl

/-! ## Walks (R295, R296) -/

/-- A walk goes on with the entry of a level: it faults, ends at a leaf, or goes down to the next table. -/
def walkOn (s : State) (reach : Nat → Bool) (die ctx : Nat) (va : BitVec 64) (fuel lv : Nat) (entry : BitVec 64) : List TlbEntry × WalkEnd :=
  if !pteV entry || pteMalformed lv entry then ([], .fault)
  else if pteLeaf entry then
    ([{ ctx := ctx, base := va.toNat / pageSize entry * pageSize entry, size := pageSize entry, entry := entry }], .leaf entry)
  else
    ({ ctx := ctx, base := va.toNat / entrySpan lv * entrySpan lv, size := entrySpan lv, entry := entry }
      :: (walkFrom s reach die ctx va fuel (lv + 1) (pteAddr entry)).1, (walkFrom s reach die ctx va fuel (lv + 1) (pteAddr entry)).2)

theorem walkFrom_succ (s : State) (reach : Nat → Bool) (die ctx : Nat) (va : BitVec 64) (fuel lv table : Nat) :
    walkFrom s reach die ctx va (fuel + 1) lv table
      = if (cachedEntry (getDie s die) ctx va (entrySpan lv) false).isNone && !reach (homeOf table) then ([], .away (homeOf table))
        else walkOn s reach die ctx va fuel lv ((cachedEntry (getDie s die) ctx va (entrySpan lv) false).getD
          (BitVec.ofNat 64 (homeNat s (table + 8 * tableIndex lv va) 8))) := by
  rw [walkFrom]
  cases cachedEntry (getDie s die) ctx va (entrySpan lv) false <;> rfl

/-- A walk that ends at a leaf has walked table entries to it, and the leaf's entry is the last. -/
theorem walkFrom_leaf {s : State} {reach : Nat → Bool} {die ctx : Nat} {va e : BitVec 64} {fuel lv table : Nat}
    (h : (walkFrom s reach die ctx va fuel lv table).2 = .leaf e) :
    pteLeaf e = true ∧ ∃ tables, (walkFrom s reach die ctx va fuel lv table).1
        = tables ++ [{ ctx := ctx, base := va.toNat / pageSize e * pageSize e, size := pageSize e, entry := e }]
      ∧ ∀ x ∈ tables, pteLeaf x.entry = false := by
  induction fuel generalizing lv table with
  | zero => exact nomatch h
  | succ fuel ih =>
    rw [walkFrom_succ] at h ⊢
    split at h
    case isTrue => exact nomatch h
    case isFalse haway =>
      rw [if_neg haway]
      generalize (cachedEntry (getDie s die) ctx va (entrySpan lv) false).getD _ = entry at h ⊢
      rw [walkOn] at h ⊢
      split at h
      case isTrue => exact nomatch h
      case isFalse hfault =>
        rw [if_neg hfault]
        split at h
        case isTrue hleaf =>
          obtain rfl : entry = e := by simpa using h
          exact ⟨hleaf, [], by rw [if_pos hleaf]; rfl, by simp⟩
        case isFalse htable =>
          obtain ⟨hleaf, tables, hwalked, hnot⟩ := ih h
          rw [if_neg htable]
          exact ⟨hleaf, _ :: tables, congrArg (_ :: ·) hwalked, List.forall_mem_cons.mpr ⟨by simpa using htable, hnot⟩⟩

/-- The leaf of a walk is cached: where no cached entry covers the address as a leaf, none but one of the leaf's own size can keep it out. -/
theorem cachedEntry_walked {s : State} {die ctx : Nat} {va e : BitVec 64} {tables : List TlbEntry}
    (hnone : cachedEntry (getDie s die) ctx va 0 true = none) (hleaf : pteLeaf e = true) (hnot : ∀ x ∈ tables, pteLeaf x.entry = false)
    (hsize : ∀ x ∈ (getDie s die).tlb, pteLeaf x.entry = true ∨ x.size ≠ pageSize e) :
    cachedEntry (getDie (cacheEntries s die (tables
      ++ [{ ctx := ctx, base := va.toNat / pageSize e * pageSize e, size := pageSize e, entry := e }])) die) ctx va 0 true = some e := by
  have hcached : ∀ u ∈ (getDie s die).tlb, ¬ (u.ctx = ctx ∧ u.base = va.toNat / u.size * u.size ∧ pteLeaf u.entry = true) := by
    simpa [cachedEntry, and_assoc] using hnone
  have hnew : ((getDie s die).tlb.any fun u => decide (u.ctx = ctx) && decide (u.base = va.toNat / pageSize e * pageSize e)
      && decide (u.size = pageSize e)) = false := by
    rw [List.any_eq_false]
    intro u hu hsame
    simp only [Bool.and_eq_true, decide_eq_true_eq] at hsame
    obtain ⟨⟨hctx, hbase⟩, hpage⟩ := hsame
    exact hcached u hu ⟨hctx, by rw [hbase, hpage], (hsize u hu).resolve_right (fun h => h hpage)⟩
  have hold : (getDie s die).tlb.find? (fun t => decide (t.ctx = ctx) && decide (t.base = va.toNat / t.size * t.size) && pteLeaf t.entry) = none := by
    simpa [cachedEntry] using hnone
  have htables : (tables.filter fun t => !(getDie s die).tlb.any fun u =>
      decide (u.ctx = t.ctx) && decide (u.base = t.base) && decide (u.size = t.size)).find?
        (fun t => decide (t.ctx = ctx) && decide (t.base = va.toNat / t.size * t.size) && pteLeaf t.entry) = none := by
    rw [List.find?_eq_none]
    intro x hx
    simp [hnot x (List.mem_filter.mp hx).1]
  rw [cacheEntries, getDie_modDie]
  simp only [cachedEntry, if_true, List.find?_append, List.filter_append, hold, htables, Option.none_or]
  simp [hnew, hleaf]

/-- After a walk the die finds the leaf that it ended at without another. -/
theorem cachedEntry_leafOf {s : State} {die ctx : Nat} {va e : BitVec 64} (h : (leafOf s die ctx va).2 = .leaf e)
    (hsize : ∀ x ∈ (getDie s die).tlb, pteLeaf x.entry = true ∨ x.size ≠ pageSize e) :
    cachedEntry (getDie (leafOf s die ctx va).1 die) ctx va 0 true = some e := by
  rw [leafOf, leafBy] at h ⊢
  cases hcached : cachedEntry (getDie s die) ctx va 0 true with
  | some e' =>
    rw [hcached] at h
    obtain rfl : e' = e := by simpa using h
    exact hcached
  | none =>
    rw [hcached] at h
    cases hctx : findContext s ctx with
    | none => rw [hctx] at h; exact nomatch h
    | some c =>
      rw [hctx] at h
      obtain ⟨hleaf, tables, hwalked, hnot⟩ := walkFrom_leaf h
      dsimp only
      rw [hwalked]
      exact cachedEntry_walked hcached hleaf hnot hsize

theorem leafOf_mem (s : State) (die ctx : Nat) (va : BitVec 64) : (leafOf s die ctx va).1.mem = s.mem := by
  unfold leafOf leafBy
  split
  · rfl
  · split <;> rfl

/-! ## Lines that leave an RDC (R298, R307) -/

/-- A sheet without its lines holds none. -/
theorem findSheet_withoutLines {s : State} {die : Nat} {x y : Sheet} (h : findSheet (getDie (withoutLines s die x) die) x.sheet = some y) :
    y.held = 0#2 := by
  unfold withoutLines at h
  split at h
  · rw [getDie_modDie, findSheet, List.find?_filter] at h
    exact absurd (List.find?_some h) (by simp)
  · have hput := (findSheet_putSheet s die x.sheet { newSheet x.sheet with grants := x.grants }).trans (if_pos rfl)
    obtain rfl := Option.some.inj (hput.symm.trans h)
    rfl

end Sys2Proof.Machine

namespace Sys2Proof
open Machine

/-! ## The events -/

theorem exec_leaseExpiry_l1 {s : State} {die core line : Nat} {x : LeasedLine} (hx : x ∈ (getCore s die core).l1) (hline : x.line = line)
    (hend : x.leaseEnd ≤ s.tick) :
    ∃ t, exec (.leaseExpiry (.l1 die core) line) s = .next t ∧ t.mem = s.mem
      ∧ ∀ y ∈ (getCore t die core).l1, ¬(y.line = line ∧ y.leaseEnd ≤ s.tick) := by
  have hany : ((getCore s die core).l1.any fun x => decide (x.line = line) && decide (x.leaseEnd ≤ s.tick)) = true :=
    List.any_eq_true.mpr ⟨x, hx, by simp [hline, hend]⟩
  refine ⟨_, if_pos hany, modCore_mem _ _ _ _, fun y hy => ?_⟩
  rw [getCore_modCore, if_pos rfl] at hy
  · rintro ⟨hsame, hended⟩
    simpa [hsame, hended] using (List.mem_filter.mp hy).2
  · exact fun _ => rfl

theorem exec_leaseExpiry_cluster {s : State} {die cl line : Nat} {x : LeasedLine} (hx : x ∈ (getCluster s die cl).lines)
    (hline : x.line = line) (hdelayed : x.seenAt ≠ 0) (hend : x.seenAt ≤ s.tick) :
    ∃ t, exec (.leaseExpiry (.cluster die cl) line) s = .next t ∧ t.mem = s.mem
      ∧ (getCluster t die cl).lines
        = (getCluster s die cl).lines.map fun y => if y.line = line ∧ y.seenAt ≤ s.tick then { y with seenAt := 0 } else y := by
  have hchanges : refreshLine s.tick x ≠ x := by
    intro h
    have hseen : expired s.tick x.seenAt = x.seenAt := congrArg LeasedLine.seenAt h
    rw [expired, if_pos hend] at hseen
    exact hdelayed hseen.symm
  have hany : ((getCluster s die cl).lines.any fun x => decide (x.line = line) && decide (refreshLine s.tick x ≠ x)) = true :=
    List.any_eq_true.mpr ⟨x, hx, by simp [hline, hchanges]⟩
  refine ⟨_, if_pos hany, modCluster_mem _ _ _ _, ?_⟩
  rw [getCluster_modCluster, if_pos rfl]
  · refine List.map_congr_left fun y _ => ?_
    by_cases hy : y.line = line
    · subst hy
      by_cases hseen : y.seenAt ≤ s.tick
      · simp [refreshLine, expired, hseen]
      · simp [refreshLine, expired, hseen]
    · simp [hy]
  · exact fun _ => rfl

theorem exec_leaseExpiry_rdc {s : State} {die line : Nat} {x : Sheet} (hx : findSheet (getDie s die) (line / 2) = some x)
    (hend : x.seen.1 ≠ 0 ∧ x.seen.1 ≤ s.tick ∨ x.seen.2 ≠ 0 ∧ x.seen.2 ≤ s.tick) :
    ∃ t, exec (.leaseExpiry (.rdc die) line) s = .next t ∧ t.mem = s.mem ∧ findSheet (getDie t die) (line / 2)
      = some { x with seen := (if x.seen.1 ≤ s.tick then 0 else x.seen.1, if x.seen.2 ≤ s.tick then 0 else x.seen.2) } := by
  have hchanges : refreshSheet s.tick x ≠ x := by
    intro h
    have hseen : (expired s.tick x.seen.1, expired s.tick x.seen.2) = x.seen := congrArg Sheet.seen h
    obtain ⟨hfirst, hsecond⟩ := Prod.mk.inj hseen
    rw [expired] at hfirst hsecond
    obtain ⟨hne, hle⟩ | ⟨hne, hle⟩ := hend
    · rw [if_pos hle] at hfirst; exact hne hfirst.symm
    · rw [if_pos hle] at hsecond; exact hne hsecond.symm
  refine ⟨putSheet s die (refreshSheet s.tick x), ?_, rfl, ?_⟩
  · change execLeaseExpiry (.rdc die) line s = _
    simp only [execLeaseExpiry, hx]
    exact if_pos hchanges
  · exact (findSheet_putSheet s die (line / 2) (refreshSheet s.tick x)).trans (if_pos (sheet_of_findSheet hx).symm)

theorem exec_rdcLineReplace_clean {s : State} {die sheet : Nat} {x : Sheet} (hx : findSheet (getDie s die) sheet = some x)
    (hclean : x.state = .clean) (hheld : x.held ≠ 0#2) :
    ∃ t, exec (.rdcLineReplace die sheet) s = .next t ∧ t.mem = s.mem
      ∧ (∀ y, findSheet (getDie t die) sheet = some y → y.held = 0#2)
      ∧ ((∀ y ∈ (getDie t die).sheets, y.sheet / 256 = sheet / 256 → y.held = 0#2) →
          t.msgs = s.msgs ++ [.drop die (homeOf (256 * sheet)) (sheet / 256)]) := by
  obtain rfl := sheet_of_findSheet hx
  refine ⟨replaceSheet s die x, ?_, mem_of_outsideCaches (replaceSheet_outside s die x), ?_⟩
  · change execRdcLineReplace die x.sheet s = _
    simp only [execRdcLineReplace, hx, hclean, ne_eq, not_true_eq_false, if_false, hheld]
  · rw [replaceSheet_eq]
    refine ⟨fun y hy => findSheet_withoutLines hy, fun hlast => ?_⟩
    have hnone : ((getDie (withoutLines s die x) die).sheets.any fun y =>
        decide (y.sheet / 256 = x.sheet / 256) && decide (y.held ≠ 0#2)) = false := by
      rw [List.any_eq_false]
      intro y hy hheld
      simp only [Bool.and_eq_true, decide_eq_true_eq] at hheld
      exact hheld.2 (hlast y hy hheld.1)
    dsimp only
    rw [hnone, withoutLines_msgs]
    rfl

theorem exec_rdcLineReplace_written {s : State} {die sheet : Nat} {x : Sheet} (hx : findSheet (getDie s die) sheet = some x)
    (hwritten : x.state ≠ .clean) :
    ∃ t, exec (.rdcLineReplace die sheet) s = .next t ∧ t.mem = s.mem ∧ sheet ∈ (getDie t die).early
      ∧ (getDie t die).sheets = (getDie s die).sheets := by
  refine ⟨askEarly s die [sheet], ?_, rfl, ?_, ?_⟩
  · change execRdcLineReplace die sheet s = _
    simp only [execRdcLineReplace, hx]
    exact if_pos hwritten
  · rw [askEarly, getDie_modDie]
    by_cases h : sheet ∈ (getDie s die).early <;> simp [h]
  · rw [askEarly, getDie_modDie]

theorem exec_dropNotice_clears {s : State} {home die g : Nat} {rest : List Msg} (hmsgs : s.msgs = .drop die home g :: rest) (hdie : die < 8)
    (hreach : homeReach s die home = true) :
    ∃ t, exec (.dropNotice home die) s = .next t ∧ t.msgs = rest ∧ t.mem = s.mem
      ∧ (findHomePage t g).sharers.getLsbD die = false := by
  refine ⟨clearSharer { s with msgs := rest } g die, ?_, modHomePage_msgs _ _ _, modHomePage_mem _ _ _, ?_⟩
  · change execDropNotice home die s = _
    simp [execDropNotice, hreach, hmsgs, takeMsg]
  · rw [clearSharer, findHomePage_modHomePage]
    · simp [hdie]
    · exact fun _ => rfl

/-- Settles O35: each clause is the lemma of its event and of what the event leaves in the lists of lines, sheets, entries and sharers. -/
theorem storageEvents : Obligations.StorageEvents := by
  refine ⟨fun s die core line x => exec_leaseExpiry_l1, fun s die cl line x => exec_leaseExpiry_cluster,
    fun s die line x => exec_leaseExpiry_rdc, fun s die ctx va hva => ?walk, fun s die line hdie hexists hreach => ?fetch,
    fun s die sheet x hx => ⟨exec_rdcLineReplace_clean hx, exec_rdcLineReplace_written hx⟩,
    fun s home die g rest => exec_dropNotice_clears⟩
  case walk =>
    refine ⟨_, if_pos hva, rfl, ?_, fun e hleaf hsize => cachedEntry_leafOf hleaf hsize⟩
    exact leafOf_mem s die ctx _
  case fetch =>
    obtain ⟨⟨x, hx, hheld⟩, hsharer⟩ := supplyLine_holds s (line := line) hdie
    exact ⟨_, x, if_pos ⟨hdie, hexists, hreach⟩, mem_of_outsideCaches (supplyLine_outside s die line), hx, hheld, hsharer⟩

end Sys2Proof

/-!
Bytes of lines and sheets, what a line gives back of what has been laid over it, and memory at a home (R260-R262, R322).
-/
namespace Sys2Proof.Machine

/-! ## Bits of masks, of numbers in lines and of lines laid over others -/

theorem getLsbD_spread_range (W : Nat) {w : Nat} (m : BitVec w) (k i : Nat) :
    ((List.range k).foldl (fun x j => if m.getLsbD j then x ||| (BitVec.ofNat W 255 <<< (8 * j)) else x) 0#W).getLsbD i
      = (decide (i < W) && decide (i / 8 < k) && m.getLsbD (i / 8)) := by
  induction k with
  | zero => simp
  | succ k ih =>
    have hbyte : (BitVec.ofNat W 255 <<< (8 * k)).getLsbD i = (decide (i < W) && decide (i / 8 = k)) := by
      rw [BitVec.getLsbD_shiftLeft, BitVec.getLsbD_ofNat, show (255 : Nat) = 2 ^ 8 - 1 from rfl, Nat.testBit_two_pow_sub_one,
        Bool.eq_iff_iff]
      simp only [Bool.and_eq_true, Bool.not_eq_true', decide_eq_true_eq, decide_eq_false_iff_not]
      omega
    rw [List.range_succ, List.foldl_append, List.foldl_cons, List.foldl_nil]
    by_cases hk : i / 8 = k
    · subst hk
      split
      case isTrue hm => simp [ih, hbyte, hm]
      case isFalse hm => simp [ih, hm]
    · have hlt : decide (i / 8 < k + 1) = decide (i / 8 < k) := by
        rw [decide_eq_decide]; omega
      rw [hlt]
      split
      · rw [BitVec.getLsbD_or, ih, hbyte]; simp [hk]
      · exact ih

theorem getLsbD_spread (W : Nat) {w : Nat} (m : BitVec w) (i : Nat) : (spread W m).getLsbD i = (decide (i < W) && m.getLsbD (i / 8)) := by
  rw [spread, getLsbD_spread_range]
  by_cases hw : i / 8 < w
  · simp [hw]
  · simp [BitVec.getLsbD_of_ge m (i / 8) (Nat.not_lt.mp hw)]

/-- A bit of a line over another comes from the new line in the bytes of the mask. -/
theorem getLsbD_overlay {W w : Nat} (m : BitVec w) (new old : BitVec W) (i : Nat) :
    (overlay m new old).getLsbD i = if m.getLsbD (i / 8) then new.getLsbD i else old.getLsbD i := by
  by_cases hW : i < W
  · rw [overlay, BitVec.getLsbD_or, BitVec.getLsbD_and, BitVec.getLsbD_and, BitVec.getLsbD_not, getLsbD_spread]
    cases m.getLsbD (i / 8) <;> simp [hW]
  · have hge := Nat.not_lt.mp hW
    simp [BitVec.getLsbD_of_ge _ i hge]

theorem getLsbD_byteSpan (w off n j : Nat) : (byteSpan w off n).getLsbD j = (decide (j < w) && decide (off ≤ j ∧ j < off + n)) := by
  rw [byteSpan, BitVec.getLsbD_shiftLeft, BitVec.getLsbD_ofNat, Nat.testBit_two_pow_sub_one, Bool.eq_iff_iff]
  simp only [Bool.and_eq_true, Bool.not_eq_true', decide_eq_true_eq, decide_eq_false_iff_not]
  omega

theorem getLsbD_lineOf (W off x i : Nat) : (lineOf W off x).getLsbD i = (decide (i < W) && decide (8 * off ≤ i) && x.testBit (i - 8 * off)) := by
  rw [lineOf, BitVec.getLsbD_shiftLeft, BitVec.getLsbD_ofNat]
  by_cases hW : i < W
  · by_cases hoff : 8 * off ≤ i
    · have hsub : i - 8 * off < W := by omega
      simp [hW, hoff, hsub]
    · simp [hW, hoff]
  · simp [hW]

theorem testBit_lineNat {W : Nat} (x : BitVec W) (off n k : Nat) :
    (lineNat x off n).testBit k = (decide (k < 8 * n) && x.getLsbD (8 * off + k)) := by
  have hpow : 256 ^ n = 2 ^ (8 * n) := by rw [Nat.pow_mul]
  rw [lineNat, hpow, Nat.testBit_mod_two_pow, ← BitVec.getLsbD, BitVec.getLsbD_ushiftRight]

/-! ## Numbers in lines that are laid over others -/

section
variable {W w : Nat} {m : BitVec w} (new old : BitVec W) {b n : Nat}

/-- Bytes that the mask covers are the new line's. -/
theorem lineNat_overlay_of_covered (h : ∀ k < n, m.getLsbD (b + k) = true) : lineNat (overlay m new old) b n = lineNat new b n := by
  refine Nat.eq_of_testBit_eq fun k => ?_
  rw [testBit_lineNat, testBit_lineNat, getLsbD_overlay]
  by_cases hk : k < 8 * n
  · have hbyte := h (k / 8) (by omega)
    rw [show b + k / 8 = (8 * b + k) / 8 by omega] at hbyte
    simp [hk, hbyte]
  · simp [hk]

/-- Bytes outside the mask are the old line's. -/
theorem lineNat_overlay_of_clear (h : ∀ k < n, m.getLsbD (b + k) = false) : lineNat (overlay m new old) b n = lineNat old b n := by
  refine Nat.eq_of_testBit_eq fun k => ?_
  rw [testBit_lineNat, testBit_lineNat, getLsbD_overlay]
  by_cases hk : k < 8 * n
  · have hbyte := h (k / 8) (by omega)
    rw [show b + k / 8 = (8 * b + k) / 8 by omega] at hbyte
    simp [hk, hbyte]
  · simp [hk]

end

/-- A number placed in a line reads back, cut to the bytes that are read. -/
theorem lineNat_lineOf {W off n : Nat} (x : Nat) (h : 8 * (off + n) ≤ W) : lineNat (lineOf W off x) off n = x % 256 ^ n := by
  refine Nat.eq_of_testBit_eq fun k => ?_
  have hpow : 256 ^ n = 2 ^ (8 * n) := by rw [Nat.pow_mul]
  rw [testBit_lineNat, getLsbD_lineOf, hpow, Nat.testBit_mod_two_pow]
  by_cases hk : k < 8 * n
  · have hW : 8 * off + k < W := by omega
    simp [hk, hW]
  · simp [hk]

/-- A number laid over a line reads back there. -/
theorem lineNat_overlay_lineOf {W w off n : Nat} (x : Nat) (old : BitVec W) (hw : off + n ≤ w) (hW : 8 * (off + n) ≤ W) :
    lineNat (overlay (byteSpan w off n) (lineOf W off x) old) off n = x % 256 ^ n := by
  rw [lineNat_overlay_of_covered, lineNat_lineOf x hW]
  intro k hk
  rw [getLsbD_byteSpan]
  simp
  omega

/-! ## A core reads what it has stored (R260-R262) -/

section
variable (s : State) (id : GangId) (op line : Nat) (m : BitVec 128) (data : BitVec 1024) (pol : Policy)

/-- A line of an L1 with a store laid over it. -/
def laidOver (m : BitVec 128) (data : BitVec 1024) (pol : Policy) (x : LeasedLine) : LeasedLine :=
  { x with data := overlay m data x.data, poison := x.poison &&& ~~~(wordsWhole 32 m), policy := pol }

/-- A line of an L1 after a store to `line`. -/
def storedLine (line : Nat) (m : BitVec 128) (data : BitVec 1024) (pol : Policy) (x : LeasedLine) : LeasedLine :=
  if x.line = line then laidOver m data pol x else x

theorem getCore_l1Write : (getCore (l1Write s id op line m data pol) id.die id.core).l1
    = (getCore s id.die id.core).l1.map (storedLine line m data pol) := by
  have hmod := getCore_modCore s id.die id.core id.die id.core
    (f := fun c => { c with l1 := c.l1.map (storedLine line m data pol) }) fun _ => rfl
  exact congrArg CoreSt.l1 (hmod.trans (if_pos rfl))

theorem through_l1Write : (l1Write s id op line m data pol).through
    = s.through ++ [{ gang := id, op := op, line := line, mask := m, data := data, policy := pol }] :=
  congrArg (· ++ _) (modCore_through s id.die id.core _)

theorem throughOn_l1Write : throughOn (l1Write s id op line m data pol) id.die id.core line
    = throughOn s id.die id.core line ++ [{ gang := id, op := op, line := line, mask := m, data := data, policy := pol }] := by
  simp [throughOn, through_l1Write]

/-- A line that the core reads after a store to it has the store laid over it, whether it is served or fetched. -/
theorem l1Read_l1Write (len : Nat) (pol' : Policy) :
    ∃ old, (l1Read (l1Write s id op line m data pol) id.die id.core line len pol').2.1 = overlay m data old := by
  have hfetch : ∃ old, (l1Read.fetch (l1Write s id op line m data pol) id.die id.core line len pol').2.1 = overlay m data old := by
    rw [l1Read.fetch, throughOn_l1Write, overThrough, List.foldl_append]
    exact ⟨_, rfl⟩
  have hfind : ((getCore s id.die id.core).l1.map (storedLine line m data pol)).find? (fun x => decide (x.line = line))
      = ((getCore s id.die id.core).l1.find? fun x => decide (x.line = line)).map (laidOver m data pol) :=
    (find?_map_update LeasedLine.line (getCore s id.die id.core).l1 line line (laidOver m data pol) fun _ h => h).trans (if_pos rfl)
  rw [l1Read, getCore_l1Write, hfind]
  cases (getCore s id.die id.core).l1.find? fun x => decide (x.line = line) with
  | none => exact hfetch
  | some x =>
    dsimp only [Option.map_some]
    split
    · exact ⟨x.data, rfl⟩
    · exact hfetch

end

theorem loadL1_storeL1 (s : State) (id : GangId) (op pa n len x : Nat) (pol pol' : Policy) (h : pa % 128 + n ≤ 128) :
    (loadL1 (storeL1 s id op pa n x pol) id.die id.core pa n len pol').2.1 = x % 256 ^ n := by
  obtain ⟨old, hold⟩ := l1Read_l1Write s id op (pa / 128) (byteSpan 128 (pa % 128) n) (lineOf 1024 (pa % 128) x) pol len pol'
  rw [loadL1, storeL1, hold]
  exact lineNat_overlay_lineOf x old h (by omega)

/-! ## Memory at a home (R322) -/

theorem standsAt_of_still {s : State} (h : s.migrations = []) (pa : Nat) : standsAt s pa = pa := by simp [standsAt, h]

theorem homeWrite_of_lost {s : State} {pa : Nat} (h : s.migrations = []) (hlost : homeLost s (homeOf pa) = true) (l : List Byte) :
    homeWrite s pa l = s := by
  simp [homeWrite, standsAt_of_still h, hlost]

theorem homeWrite_mem {s : State} {pa : Nat} (h : s.migrations = []) (hlost : homeLost s (homeOf pa) = false) (l : List Byte) :
    (homeWrite s pa l).mem = cellsWrite s.mem pa l := by
  simp [homeWrite, standsAt_of_still h, hlost]

end Sys2Proof.Machine

namespace Sys2Proof
open Machine

/-- Settles O26: the line that is read has the store laid over it; at a home the cells of Laws/Memory read back. -/
theorem memoryReadsBack : Obligations.MemoryReadsBack := by
  refine ⟨fun s id op pa n len x pol pol' _ _ hline => loadL1_storeL1 s id op pa n len x pol pol' hline, fun s pa l hwf hstill => ?_⟩
  cases hlost : homeLost s (homeOf pa) with
  | true =>
    rw [homeWrite_of_lost hstill hlost]
    exact ⟨hwf, fun h => (nomatch h), fun _ _ => rfl, fun _ => rfl⟩
  | false =>
    have hmem := homeWrite_mem hstill hlost l
    refine ⟨?_, fun _ => ?_, fun a ha => ?_, fun h => (nomatch h)⟩
    · rw [MemoryCanonical, hmem]; exact Memory.wf_cellsWrite hwf pa l
    · rw [hmem]; exact cellsRead_cellsWrite hwf pa l
    · rw [hmem]; exact cellGet_cellsWrite_outside hwf pa a l ha

end Sys2Proof

/-!
STORE_PERFORMED (R247, R259, R262, R263, R278): in scratchpads, in a core's L1, at a home, and whole images.
-/
namespace Sys2Proof.Machine

/-! ## Bytes of a lane's datum -/

/-- Byte j of the `n` bytes of a datum, as a scratchpad and a home take them. -/
theorem getD_bytesOfNat {W : Nat} (x : BitVec W) {n j : Nat} (hj : j < n) (d : Byte) :
    (bytesOfNat n (x.toNat % 256 ^ n)).getD j d = x.extractLsb' (8 * j) 8 := by
  have hget : (bytesOfNat n (x.toNat % 256 ^ n)).getD j d = BitVec.ofNat 8 (x.toNat % 256 ^ n / 256 ^ j) := by
    simp [bytesOfNat, hj]
  have hpow : ∀ k, 256 ^ k = 2 ^ (8 * k) := fun k => by rw [Nat.pow_mul]
  rw [hget]
  refine BitVec.eq_of_getLsbD_eq fun i hi => ?_
  have hin : i + 8 * j < 8 * n := by omega
  rw [BitVec.getLsbD_ofNat, hpow, hpow, Nat.testBit_div_two_pow, Nat.testBit_mod_two_pow, BitVec.getLsbD_extractLsb', Nat.add_comm]
  simp [hi, BitVec.getLsbD, Nat.add_comm, hin]

/-- Byte b of a line that holds the `n` bytes of a datum at `off`. -/
theorem lineNat_lineOf_byte {W off n b : Nat} (x : BitVec W) (hb : off ≤ b ∧ b < off + n) (hline : b < 128) :
    lineNat (lineOf 1024 off (x.toNat % 256 ^ n)) b 1 = (x.extractLsb' (8 * (b - off)) 8).toNat := by
  have hpow : 256 ^ n = 2 ^ (8 * n) := by rw [Nat.pow_mul]
  refine Nat.eq_of_testBit_eq fun k => ?_
  rw [testBit_lineNat, getLsbD_lineOf, hpow, Nat.testBit_mod_two_pow, BitVec.testBit_toNat, BitVec.testBit_toNat,
    BitVec.getLsbD_extractLsb']
  by_cases hk : k < 8
  · have hbit : 8 * b + k - 8 * off = 8 * (b - off) + k := by omega
    have hin : 8 * (b - off) + k < 8 * n := by omega
    have hline' : 8 * b + k < 1024 := by omega
    have hoff : 8 * off ≤ 8 * b + k := by omega
    simp [hk, hbit, hin, hline', hoff]
  · simp [hk]

/-! ## Stores in scratchpads (R263) -/

theorem getCore_dropPend (s : State) (p : Pend) (die core : Nat) : getCore (dropPend s p) die core = getCore s die core :=
  getCore_congr (by simp [dropPend, wakeOrder, recount]) die core

theorem dropPend_mem (s : State) (p : Pend) : (dropPend s p).mem = s.mem := rfl
theorem dropPend_migrations (s : State) (p : Pend) : (dropPend s p).migrations = s.migrations := rfl

theorem scratchWrite_mem (s : State) (die core pos : Nat) (l : List Byte) : (scratchWrite s die core pos l).mem = s.mem := modCore_mem _ _ _ _

theorem wf_scratchWrite {s : State} (hwf : ∀ d k, Memory.wf (getCore s d k).scratch = true) (die core pos : Nat) (l : List Byte) (d k : Nat) :
    Memory.wf (getCore (scratchWrite s die core pos l) d k).scratch = true := by
  rw [getCore_scratchWrite]
  split
  · exact Memory.wf_cellsWrite (hwf die core) pos l
  · exact hwf d k

/-- A lane of a store gives its bytes in its scratchpad its datum, and no other byte anything. -/
theorem cellGet_scratchWrite {s : State} (hwf : ∀ d k, Memory.wf (getCore s d k).scratch = true) (x : BitVec 128) (n die core pos d k a : Nat) :
    cellGet (getCore (scratchWrite s die core pos (bytesOfNat n (x.toNat % 256 ^ n))) d k).scratch a
      = ((scratchPos d k (.scratch die core pos)).bind fun q =>
          if q ≤ a ∧ a < q + n then some (x.extractLsb' (8 * (a - q)) 8) else none).getD (cellGet (getCore s d k).scratch a) := by
  rw [getCore_scratchWrite, scratchPos]
  by_cases hunit : die = d ∧ core = k
  · obtain ⟨rfl, rfl⟩ := hunit
    rw [if_pos rfl, cellGet_cellsWrite (hwf die core), length_bytesOfNat]
    by_cases hin : pos ≤ a ∧ a < pos + n
    · simp only [if_pos hin, and_self, if_true, Option.bind_some, Option.getD_some]
      exact getD_bytesOfNat x (by omega) _
    · simp [hin]
  · rw [if_neg fun h => hunit ⟨(congrArg Prod.fst h).symm, (congrArg Prod.snd h).symm⟩]
    simp [hunit]

/-- A store's lanes in scratchpads: each byte has the highest lane's datum that covers it. -/
theorem cellGet_writeAll_scratch {accs : List LaneAcc} (hscratch : ∀ x ∈ accs, ∃ d k q, x.tgt = .scratch d k q) {s : State} (p : Pend)
    (pol : Policy) (n : Nat) (hwf : ∀ d k, Memory.wf (getCore s d k).scratch = true) :
    (writeAll s p pol n accs).mem = s.mem ∧ ∀ d k a, cellGet (getCore (writeAll s p pol n accs) d k).scratch a
      = (storedByte n (scratchPos d k) accs a).getD (cellGet (getCore s d k).scratch a) := by
  induction accs generalizing s with
  | nil => exact ⟨rfl, fun _ _ _ => rfl⟩
  | cons x rest ih =>
    obtain ⟨die, core, pos, hx⟩ := hscratch x (List.mem_cons_self ..)
    have hwrite : writeTarget s p pol x.tgt n (x.data.toNat % 256 ^ n) = scratchWrite s die core pos (bytesOfNat n (x.data.toNat % 256 ^ n)) := by
      rw [hx]; rfl
    obtain ⟨hmem, hcells⟩ := ih (fun y hy => hscratch y (List.mem_cons_of_mem _ hy)) (wf_scratchWrite hwf die core pos _)
    rw [writeAll, hwrite]
    refine ⟨hmem.trans (scratchWrite_mem _ _ _ _ _), fun d k a => ?_⟩
    rw [hcells, storedByte, cellGet_scratchWrite hwf, hx]
    cases storedByte n (scratchPos d k) rest a <;> rfl

/-! ## Stores on normal pages (R259, R261, R263) -/

theorem noteWrote_cores (s : State) (id : GangId) (op pa n : Nat) : (noteWrote s id op pa n).cores = s.cores := by
  unfold noteWrote; dsimp only; split <;> rfl
theorem noteWrote_through (s : State) (id : GangId) (op pa n : Nat) : (noteWrote s id op pa n).through = s.through := by
  unfold noteWrote; dsimp only; split <;> rfl
theorem noteWrote_clusters (s : State) (id : GangId) (op pa n : Nat) : (noteWrote s id op pa n).clusters = s.clusters := by
  unfold noteWrote; dsimp only; split <;> rfl
theorem noteWrote_mem (s : State) (id : GangId) (op pa n : Nat) : (noteWrote s id op pa n).mem = s.mem := by
  unfold noteWrote; dsimp only; split <;> rfl

/-- A byte of an L1's line after a lane's store: the lane's datum where the lane covers it, else as it was. -/
theorem lineNat_storedLine (x : BitVec 128) {pa n : Nat} (hline : pa % 128 + n ≤ 128) (pol : Policy) (y : LeasedLine) {b : Nat} (hb : b < 128) :
    lineNat (storedLine (pa / 128) (byteSpan 128 (pa % 128) n) (lineOf 1024 (pa % 128) (x.toNat % 256 ^ n)) pol y).data b 1
      = (((normalPos (.mem pa false)).bind fun q => if q ≤ 128 * y.line + b ∧ 128 * y.line + b < q + n
          then some (x.extractLsb' (8 * (128 * y.line + b - q)) 8) else none).map BitVec.toNat).getD (lineNat y.data b 1) := by
  rw [storedLine, normalPos, Option.bind_some]
  by_cases hy : y.line = pa / 128
  · rw [if_pos hy, laidOver]
    by_cases hin : pa % 128 ≤ b ∧ b < pa % 128 + n
    · have hcovers : pa ≤ 128 * y.line + b ∧ 128 * y.line + b < pa + n := by omega
      rw [lineNat_overlay_of_covered, lineNat_lineOf_byte x hin hb, if_pos hcovers, show 128 * y.line + b - pa = b - pa % 128 by omega]
      · rfl
      · intro k hk
        rw [getLsbD_byteSpan]
        simp
        omega
    · have hcovers : ¬ (pa ≤ 128 * y.line + b ∧ 128 * y.line + b < pa + n) := by omega
      rw [lineNat_overlay_of_clear, if_neg hcovers]
      · rfl
      · intro k hk
        rw [getLsbD_byteSpan]
        simp
        omega
  · have hcovers : ¬ (pa ≤ 128 * y.line + b ∧ 128 * y.line + b < pa + n) := by omega
    rw [if_neg hy, if_neg hcovers]
    rfl

@[simp] theorem storedLine_line (line : Nat) (m : BitVec 128) (data : BitVec 1024) (pol : Policy) (y : LeasedLine) :
    (storedLine line m data pol y).line = y.line := by unfold storedLine; split <;> rfl
@[simp] theorem storedLine_leaseEnd (line : Nat) (m : BitVec 128) (data : BitVec 1024) (pol : Policy) (y : LeasedLine) :
    (storedLine line m data pol y).leaseEnd = y.leaseEnd := by unfold storedLine; split <;> rfl

/-- The stores of normal pages that go on to the cluster cache. -/
def throughOf (p : Pend) (n : Nat) (pol : Policy) (accs : List LaneAcc) : List Through :=
  accs.filterMap fun x => (normalPos x.tgt).map fun pa =>
    { gang := p.gang, op := p.op, line := pa / 128, mask := byteSpan 128 (pa % 128) n,
      data := lineOf 1024 (pa % 128) (x.data.toNat % 256 ^ n), policy := pol }

/-- A line of the L1 of an access's core is there afterwards under its lease, with the bytes that the lanes give it. -/
def LinesStored (s t : State) (p : Pend) (n : Nat) (accs : List LaneAcc) : Prop :=
  ∀ y ∈ (getCore s p.gang.die p.gang.core).l1, ∃ z ∈ (getCore t p.gang.die p.gang.core).l1,
    z.line = y.line ∧ z.leaseEnd = y.leaseEnd ∧ ∀ b < 128, lineNat z.data b 1
      = ((storedByte n normalPos accs (128 * y.line + b)).map BitVec.toNat).getD (lineNat y.data b 1)

theorem writeAll_normal {accs : List LaneAcc} {n : Nat} (hnormal : ∀ x ∈ accs, ∃ pa, x.tgt = .mem pa false ∧ pa % 128 + n ≤ 128) (s : State)
    (p : Pend) (pol : Policy) :
    (writeAll s p pol n accs).mem = s.mem ∧ (writeAll s p pol n accs).clusters = s.clusters
      ∧ (writeAll s p pol n accs).through = s.through ++ throughOf p n pol accs ∧ LinesStored s (writeAll s p pol n accs) p n accs := by
  induction accs generalizing s with
  | nil => exact ⟨rfl, rfl, (List.append_nil _).symm, fun y hy => ⟨y, hy, rfl, rfl, fun _ _ => rfl⟩⟩
  | cons x rest ih =>
    obtain ⟨pa, hx, hline⟩ := hnormal x (List.mem_cons_self ..)
    obtain ⟨hmem, hclusters, hthrough, hlines⟩ := ih (fun y hy => hnormal y (List.mem_cons_of_mem _ hy))
      (noteWrote (storeL1 s p.gang p.op pa n (x.data.toNat % 256 ^ n) pol) p.gang p.op pa n)
    have hwrite : writeTarget s p pol x.tgt n (x.data.toNat % 256 ^ n)
        = noteWrote (storeL1 s p.gang p.op pa n (x.data.toNat % 256 ^ n) pol) p.gang p.op pa n := by
      rw [hx]; rfl
    rw [writeAll, hwrite]
    refine ⟨?mem, ?clusters, ?through, fun y hy => ?line⟩
    case mem => rw [hmem, noteWrote_mem]; exact modCore_mem _ _ _ _
    case clusters => rw [hclusters, noteWrote_clusters]; exact modCore_clusters _ _ _ _
    case through =>
      rw [hthrough, noteWrote_through, storeL1, through_l1Write, List.append_assoc]
      simp [throughOf, hx, normalPos]
    case line =>
      have hl1 := getCore_l1Write s p.gang p.op (pa / 128) (byteSpan 128 (pa % 128) n) (lineOf 1024 (pa % 128) (x.data.toNat % 256 ^ n)) pol
      rw [← getCore_congr (noteWrote_cores _ p.gang p.op pa n)] at hl1
      obtain ⟨z, hz, hzline, hzend, hzdata⟩ := hlines _ (hl1 ▸ List.mem_map_of_mem hy)
      rw [storedLine_line] at hzline hzdata
      rw [storedLine_leaseEnd] at hzend
      refine ⟨z, hz, hzline, hzend, fun b hb => ?_⟩
      rw [hzdata b hb, storedByte, lineNat_storedLine x.data hline pol y hb, hx]
      cases storedByte n normalPos rest (128 * y.line + b) <;> rfl

/-! ## A lane at its home (R316) -/

theorem noteUnfolded_frame (s : State) (home n : Nat) (ops : List Nat) (pa : Nat) :
    (noteUnfolded s home n ops pa).mem = s.mem ∧ (noteUnfolded s home n ops pa).migrations = s.migrations := by
  unfold noteUnfolded; split <;> exact ⟨rfl, rfl⟩

theorem homeWrite_migrations (s : State) (pa : Nat) (l : List Byte) : (homeWrite s pa l).migrations = s.migrations := by
  unfold homeWrite; dsimp only; split <;> rfl

section
variable {s : State} (hstill : s.migrations = [])
include hstill

theorem performHome_eq (pa : Nat) (l : List Byte) (ops : List Nat) :
    performHome s pa l ops = noteUnfolded (homeWrite s pa l) (homeOf pa) l.length ops pa := by
  simp [performHome, aliasesOf, homeWrite_migrations, hstill]

theorem performHome_migrations (pa : Nat) (l : List Byte) (ops : List Nat) : (performHome s pa l ops).migrations = [] := by
  rw [performHome_eq hstill, (noteUnfolded_frame _ _ _ _ _).2, homeWrite_migrations, hstill]

theorem performHome_mem {pa : Nat} (hlost : homeLost s (homeOf pa) = false) (l : List Byte) (ops : List Nat) :
    (performHome s pa l ops).mem = cellsWrite s.mem pa l := by
  rw [performHome_eq hstill, (noteUnfolded_frame _ _ _ _ _).1, homeWrite_mem hstill hlost]

end

/-! ## Images (R107, R363) -/

theorem length_tileHeader (role sparse crcv scalesv : Bool) (fmt cb : Nat) (crc : BitVec 32) :
    (tileHeader role sparse crcv scalesv fmt cb crc).length = 64 := by
  simp only [tileHeader, List.length_cons, List.length_append, length_bytesOfNat, List.length_replicate]

theorem length_tileUpdate (old l : List Byte) : (tileUpdate old l).length = 2560 := by
  simp only [tileUpdate, List.length_append, length_tileHeader, List.length_map, List.length_range, List.length_replicate]

/-- A claim on the bytes of the scratchpads rests on their bytes and on memory. -/
theorem onlySpan_of_scratch {s s' t t' : State} {die core pos n : Nat} (hs : s'.mem = s.mem) (ht : t'.mem = t.mem)
    (hs' : ∀ d k, (getCore s' d k).scratch = (getCore s d k).scratch) (ht' : ∀ d k, (getCore t' d k).scratch = (getCore t d k).scratch)
    (h : OnlySpan s t die core pos n) : OnlySpan s' t' die core pos n := by
  refine ⟨by rw [ht, hs]; exact h.1, fun d k q hout => ?_⟩
  rw [ht', hs']
  exact h.2 d k q hout

/-- An update of a core that leaves its scratchpad leaves every scratchpad. -/
theorem scratch_modCore (s : State) (die core : Nat) {f : CoreSt → CoreSt} (hkey : ∀ c, coreKey (f c) = coreKey c)
    (hf : ∀ c, (f c).scratch = c.scratch) (d k : Nat) : (getCore (modCore s die core f) d k).scratch = (getCore s d k).scratch := by
  rw [getCore_modCore _ _ _ _ _ hkey]
  split
  case isTrue h =>
    obtain ⟨rfl, rfl⟩ := Prod.mk.inj h
    exact hf _
  case isFalse => rfl

theorem scratch_poisonScratch (s : State) (die core pos : Nat) (offs : List Nat) (d k : Nat) :
    (getCore (poisonScratch s die core pos offs) d k).scratch = (getCore s d k).scratch :=
  scratch_modCore s die core (f := fun c => { c with scratchPoison := c.scratchPoison ++ offs.map fun o => (pos + o) / 4 }) (fun _ => rfl)
    (fun _ => rfl) d k

theorem scratchBytes_congr {s t : State} {die core : Nat} (h : (getCore t die core).scratch = (getCore s die core).scratch) (pos n : Nat) :
    scratchBytes t die core pos n = scratchBytes s die core pos n := by
  rw [scratchBytes, h]; rfl

theorem scratchBytes_scratchWrite {s : State} {die core : Nat} (hwf : Memory.wf (getCore s die core).scratch = true) (pos : Nat)
    (l : List Byte) : scratchBytes (scratchWrite s die core pos l) die core pos l.length = l := by
  rw [scratchBytes, getCore_scratchWrite, if_pos rfl]
  exact cellsRead_cellsWrite hwf pos l

end Sys2Proof.Machine

namespace Sys2Proof
open Machine

/-! ## The store that is performed -/

theorem gone_dropPend {s : State} {p : Pend} {op : Nat} (hp : findPend s op = some p) (u : State) : findPend (dropPend u p) op = none := op_of_findPend hp ▸ findPend_dropPend u p

/-- No lane of a store of scratchpads or of normal pages leaves the core: its reply is not late. -/
theorem lateReply_of_here {s : State} {p : Pend} {n : Nat} {accs : List LaneAcc} {pol : Policy} (hkind : p.kind = .store n accs pol)
    (hhere : ∀ x ∈ accs, storeLeaves x.tgt = false) : lateReply s p = false := by
  have hout : requestOut s p = false := by simpa [requestOut, hkind] using hhere
  unfold lateReply
  split
  · rw [hout, Bool.and_false]
  · rfl

section
variable {s : State} {p : Pend} {op n : Nat} (hp : findPend s op = some p) (hrisk : olderRisk s p.gang op = false)
  (hheld : pendHeld s p = false)
include hp hrisk hheld

/-- A store whose targets are reached and whose request is in time is performed, and its access is over. -/
theorem exec_storePerformed_store {accs : List LaneAcc} {pol : Policy} (hkind : p.kind = .store n accs pol)
    (hstored : accsStored s p.gang.die accs = true) (hlate : lateReply s p = false) :
    exec (.storePerformed op) s = .next (dropPend (writeAll s p pol n accs) p) := by
  have hop := op_of_findPend hp
  change execStorePerformed op s = _
  simp only [execStorePerformed, hp, hop, hrisk, hheld, hkind, hstored, hlate, Bool.or_self, Bool.false_eq_true, if_false, Bool.not_false,
    Bool.and_self, if_true]

theorem exec_storePerformed_scratch {accs : List LaneAcc} {pol : Policy} (hkind : p.kind = .store n accs pol)
    (hscratch : ∀ x ∈ accs, ∃ d k q, x.tgt = .scratch d k q) (hwf : ∀ d k, Memory.wf (getCore s d k).scratch = true) :
    ∃ t, exec (.storePerformed op) s = .next t ∧ findPend t op = none ∧ t.mem = s.mem
      ∧ ∀ d k a, cellGet (getCore t d k).scratch a = (storedByte n (scratchPos d k) accs a).getD (cellGet (getCore s d k).scratch a) := by
  have hstored : accsStored s p.gang.die accs = true := by
    refine List.all_eq_true.mpr fun x hx => ?_
    obtain ⟨d, k, q, htgt⟩ := hscratch x hx
    rw [htgt]; rfl
  have hhere : ∀ x ∈ accs, storeLeaves x.tgt = false := fun x hx => by
    obtain ⟨d, k, q, htgt⟩ := hscratch x hx
    rw [htgt]; rfl
  obtain ⟨hmem, hcells⟩ := cellGet_writeAll_scratch hscratch p pol n hwf
  refine ⟨_, exec_storePerformed_store hp hrisk hheld hkind hstored (lateReply_of_here hkind hhere),
    gone_dropPend hp _, hmem, fun d k a => ?_⟩
  rw [getCore_dropPend]
  exact hcells d k a

theorem exec_storePerformed_normal {accs : List LaneAcc} {pol : Policy} (hkind : p.kind = .store n accs pol)
    (hnormal : ∀ x ∈ accs, ∃ pa, x.tgt = .mem pa false ∧ pa % 128 + n ≤ 128) :
    ∃ t, exec (.storePerformed op) s = .next t ∧ findPend t op = none ∧ t.mem = s.mem ∧ t.clusters = s.clusters
      ∧ t.through = s.through ++ throughOf p n pol accs ∧ LinesStored s t p n accs := by
  have hstored : accsStored s p.gang.die accs = true := by
    refine List.all_eq_true.mpr fun x hx => ?_
    obtain ⟨pa, htgt, -⟩ := hnormal x hx
    rw [htgt]
  have hhere : ∀ x ∈ accs, storeLeaves x.tgt = false := fun x hx => by
    obtain ⟨pa, htgt, -⟩ := hnormal x hx
    rw [htgt]; rfl
  obtain ⟨hmem, hclusters, hthrough, hlines⟩ := writeAll_normal hnormal s p pol
  refine ⟨_, exec_storePerformed_store hp hrisk hheld hkind hstored (lateReply_of_here hkind hhere),
    gone_dropPend hp _, hmem, hclusters, hthrough, ?_⟩
  rw [LinesStored, getCore_dropPend]
  exact hlines

theorem exec_storePerformed_home {accs : List LaneAcc} {pol : Policy} (hkind : p.kind = .store n accs pol) {x : LaneAcc} {pa : Nat}
    (haccs : accs = [x]) (htgt : x.tgt = .mem pa true) (hreach : homeReach s p.gang.die (homeOf pa) = true)
    (hlost : homeLost s (homeOf pa) = false) (hlate : lateReply s p = false) (hwf : MemoryCanonical s) (hstill : s.migrations = []) :
    ∃ t, exec (.storePerformed op) s = .next t ∧ findPend t op = none ∧ homeNat t pa n = x.data.toNat % 256 ^ n
      ∧ ∀ a, a < pa ∨ pa + n ≤ a → cellGet t.mem a = cellGet s.mem a := by
  subst haccs
  have hstored : accsStored s p.gang.die [x] = true := by simp [accsStored, htgt, targetReach, hreach]
  have hwrite : writeAll s p pol n [x] = performHome s pa (bytesOfNat n (x.data.toNat % 256 ^ n)) [] := by
    rw [writeAll, writeAll, htgt]; rfl
  have hexec := exec_storePerformed_store hp hrisk hheld hkind hstored hlate
  rw [hwrite] at hexec
  have hmem := performHome_mem hstill hlost (bytesOfNat n (x.data.toNat % 256 ^ n)) []
  refine ⟨_, hexec, gone_dropPend hp _, ?_, fun a ha => ?_⟩
  · have hstill' : (dropPend (performHome s pa (bytesOfNat n (x.data.toNat % 256 ^ n)) []) p).migrations = [] :=
      (dropPend_migrations _ _).trans (performHome_migrations hstill _ _ _)
    rw [homeNat, standsAt_of_still hstill', dropPend_mem, hmem, natOfBytes_cellsWrite hwf, Nat.mod_mod]
  · rw [dropPend_mem, hmem]
    exact cellGet_cellsWrite_outside hwf _ _ _ (by rwa [length_bytesOfNat])

/-! ## Images -/

section
variable {die core pos : Nat} {l : List Byte} {psn : List Nat} (hwf : Memory.wf (getCore s die core).scratch = true)
include hwf

theorem exec_storePerformed_image (hkind : p.kind = .image false die core pos l psn) :
    ∃ t, exec (.storePerformed op) s = .next t ∧ findPend t op = none ∧ scratchBytes t die core pos l.length = l
      ∧ OnlySpan s t die core pos l.length := by
  have hscratch : ∀ d k, (getCore (dropPend (poisonScratch (scratchWrite s die core pos l) die core pos psn) p) d k).scratch
      = (getCore (scratchWrite s die core pos l) d k).scratch := fun d k => by
    rw [getCore_dropPend]
    exact scratch_poisonScratch _ _ _ _ _ d k
  refine ⟨dropPend (poisonScratch (scratchWrite s die core pos l) die core pos psn) p, ?_, gone_dropPend hp _, ?_, ?_⟩
  · have hop := op_of_findPend hp
    change execStorePerformed op s = _
    simp only [execStorePerformed, hp, hop, hrisk, hheld, hkind, Bool.or_self, Bool.false_eq_true, if_false]
  · rw [scratchBytes_congr (hscratch die core), scratchBytes_scratchWrite hwf]
  · exact onlySpan_of_scratch rfl (modCore_mem _ _ _ _) (fun _ _ => rfl) hscratch (onlySpan_scratchWrite rfl rfl hwf rfl)

theorem exec_storePerformed_tile (hkind : p.kind = .image true die core pos l psn) (hleave : leaveAsked s p.gang.die (isPendLeave op) = false)
    (hclean : tilePoisoned s die core pos l = false) :
    ∃ t, exec (.storePerformed op) s = .next t ∧ findPend t op = none
      ∧ scratchBytes t die core pos 2560 = tileUpdate (scratchBytes s die core pos 2560) l ∧ OnlySpan s t die core pos 2560 := by
  have hscratch := scratch_modCore s p.gang.die p.gang.core (f := fun c => { c with matIdle := s.tick }) (fun _ => rfl) fun _ => rfl
  have hbytes := scratchBytes_congr (hscratch die core) pos 2560
  have hwf' : Memory.wf (getCore (modCore s p.gang.die p.gang.core fun c => { c with matIdle := s.tick }) die core).scratch = true := by
    rw [hscratch]; exact hwf
  have hlength := length_tileUpdate (scratchBytes s die core pos 2560) l
  refine ⟨dropPend (scratchWrite (modCore s p.gang.die p.gang.core fun c => { c with matIdle := s.tick }) die core pos
    (tileUpdate (scratchBytes s die core pos 2560) l)) p, ?_, gone_dropPend hp _, ?_, ?_⟩
  · have hop := op_of_findPend hp
    change execStorePerformed op s = _
    simp only [execStorePerformed, hp, hop, hrisk, hheld, hkind, hleave, hclean, hbytes, Bool.or_self, Bool.false_eq_true, if_false]
  · have hwritten := scratchBytes_scratchWrite hwf' pos (tileUpdate (scratchBytes s die core pos 2560) l)
    rw [hlength] at hwritten
    rw [scratchBytes_congr (congrArg CoreSt.scratch (getCore_dropPend _ p die core)), hwritten]
  · exact onlySpan_of_scratch (modCore_mem _ _ _ _).symm rfl (fun d k => (hscratch d k).symm)
      (fun d k => congrArg CoreSt.scratch (getCore_dropPend _ p d k)) (onlySpan_scratchWrite rfl rfl hwf' hlength)

end

end

/-- Until it may be performed a store waits. -/
theorem exec_storePerformed_waits {s : State} {p : Pend} {op : Nat} (hp : findPend s op = some p)
    (hwaits : olderRisk s p.gang op = true ∨ pendHeld s p = true) : exec (.storePerformed op) s = .next s := by
  have hop := op_of_findPend hp
  have hor : (olderRisk s p.gang op || pendHeld s p) = true := by simpa using hwaits
  change execStorePerformed op s = _
  simp only [execStorePerformed, hp, hop, hor, if_true]
  rfl

/-- Settles O25: lane by lane in scratchpads and in L1, at the home, and whole for an image. -/
theorem storesPerformed : Obligations.StoresPerformed := by
  refine ⟨fun s p op n hp hrisk hheld => ⟨fun accs pol hkind => ⟨exec_storePerformed_scratch hp hrisk hheld hkind, fun hnormal => ?_,
      fun x pa => exec_storePerformed_home hp hrisk hheld hkind⟩,
      fun die core pos l psn hwf => ⟨exec_storePerformed_image hp hrisk hheld hwf, exec_storePerformed_tile hp hrisk hheld hwf⟩⟩,
    fun s p op hp hwaits => exec_storePerformed_waits hp hwaits⟩
  obtain ⟨t, hexec, hgone, hmem, hclusters, hthrough, hlines⟩ := exec_storePerformed_normal hp hrisk hheld hkind hnormal
  refine ⟨t, hexec, hgone, hmem, hclusters, ?_, hlines⟩
  rw [hthrough, throughOf, op_of_findPend hp]

end Sys2Proof

/-!
A written sheet stands in its RDC (R298, R299): what no line that is fetched or replaced for another sheet takes away.
-/
namespace Sys2Proof.Machine

/-! ## Sheets that a replacement leaves -/

theorem findSheet_withoutLines_ne {s : State} {die sh : Nat} {x : Sheet} (h : sh ≠ x.sheet) :
    findSheet (getDie (withoutLines s die x) die) sh = findSheet (getDie s die) sh := by
  unfold withoutLines
  split
  · rw [getDie_modDie, findSheet, findSheet, List.find?_filter]
    congr 1
    funext y
    by_cases hy : y.sheet = sh
    · simp [hy, h]
    · simp [hy]
  · exact (findSheet_putSheet s die sh { newSheet x.sheet with grants := x.grants }).trans (if_neg h)

theorem getDie_replaceSheet (s : State) (die d : Nat) (x : Sheet) : getDie (replaceSheet s die x) d = getDie (withoutLines s die x) d := by
  rw [replaceSheet_eq]; rfl

/-- Making room for a sheet leaves that sheet. -/
theorem findSheet_makeRoom_self (s : State) (die sh : Nat) : findSheet (getDie (makeRoom s die sh) die) sh = findSheet (getDie s die) sh := by
  unfold makeRoom
  split
  · rfl
  · split
    case h_1 x hx =>
      have hne : x.sheet ≠ sh := by
        have hfound := List.find?_some hx
        simp only [Bool.and_eq_true, decide_eq_true_eq] at hfound
        exact hfound.2
      rw [getDie_replaceSheet, findSheet_withoutLines_ne hne.symm]
    case h_2 => rfl

theorem sheetOr_congr {s t : State} {die sh : Nat} (h : findSheet (getDie t die) sh = findSheet (getDie s die) sh) :
    sheetOr t die sh = sheetOr s die sh := by
  unfold sheetOr; rw [h]

theorem sheetOr_makeRoom_self (s : State) (die sh : Nat) : sheetOr (makeRoom s die sh) die sh = sheetOr s die sh :=
  sheetOr_congr (findSheet_makeRoom_self s die sh)

/-- The sheet of a line that is supplied: as it was when the line was held, else with the line filled. -/
theorem sheetOr_supplyLine (s : State) (die line : Nat) :
    sheetOr (supplyLine s die line) die (line / 2)
      = if (sheetOr s die (line / 2)).held.getLsbD (line % 2) then sheetOr s die (line / 2)
        else fillHalf (makeRoom s die (line / 2)) (sheetOr s die (line / 2)) (line % 2) := by
  unfold supplyLine
  split
  · rfl
  · rw [sheetOr_congr (congrArg (findSheet · (line / 2)) (getDie_setSharer _ _ _ _)), sheetOr_putSheet, if_pos (by simp),
      sheetOr_makeRoom_self]

theorem held_fillHalf {s : State} {x : Sheet} {h j : Nat} (hheld : x.held.getLsbD j = true) : (fillHalf s x h).held.getLsbD j = true := by
  unfold fillHalf
  split
  · exact hheld
  · simp only [BitVec.getLsbD_or, hheld, Bool.true_or]

theorem held_supplyLine (s : State) (die line : Nat) :
    (sheetOr (supplyLine s die line) die (line / 2)).held.getLsbD (line % 2) = true := by
  rw [sheetOr_supplyLine]
  split
  · assumption
  · exact fillHalf_held _ _ (Nat.mod_lt _ (by decide))

theorem held_supplyLine_of_held {s : State} {die line j : Nat} (h : (sheetOr s die (line / 2)).held.getLsbD j = true) :
    (sheetOr (supplyLine s die line) die (line / 2)).held.getLsbD j = true := by
  rw [sheetOr_supplyLine]
  split
  · exact h
  · exact held_fillHalf h

/-- A sheet whose lines have both been supplied is whole. -/
theorem held_supplied (s : State) (die sh : Nat) {j : Nat} (hj : j < 2) :
    (sheetOr (supplyLine (supplyLine s die (2 * sh)) die (2 * sh + 1)) die sh).held.getLsbD j = true := by
  have heven := held_supplyLine s die (2 * sh)
  have hodd := held_supplyLine (supplyLine s die (2 * sh)) die (2 * sh + 1)
  rw [show 2 * sh / 2 = sh by omega, show 2 * sh % 2 = 0 by omega] at heven
  have hkept := held_supplyLine_of_held (s := supplyLine s die (2 * sh)) (die := die) (line := 2 * sh + 1) (j := 0)
    (by rw [show (2 * sh + 1) / 2 = sh by omega]; exact heven)
  rw [show (2 * sh + 1) / 2 = sh by omega] at hodd hkept
  rw [show (2 * sh + 1) % 2 = 1 by omega] at hodd
  obtain rfl | rfl : j = 0 ∨ j = 1 := by omega
  · exact hkept
  · exact hodd

/-! ## A written sheet that the RDC holds whole -/

/-- The die holds the sheet `x` whole, written, and no other copy of it. -/
structure Stands (s : State) (die : Nat) (x : Sheet) : Prop where
  found : findSheet (getDie s die) x.sheet = some x
  only : ∀ y ∈ (getDie s die).sheets, y.sheet = x.sheet → y = x
  written : x.state ≠ .clean
  whole : ∀ j < 2, x.held.getLsbD j = true

theorem stands_putSheet {x : Sheet} (hwritten : x.state ≠ .clean) (hwhole : ∀ j < 2, x.held.getLsbD j = true) (s : State) (die : Nat) :
    Stands (putSheet s die x) die x where
  found := (findSheet_putSheet s die x.sheet x).trans (if_pos rfl)
  only y hy hsame := by
    rw [sheets_putSheet] at hy
    split at hy
    case isTrue =>
      obtain ⟨z, -, hz⟩ := List.mem_map.mp hy
      split at hz
      · exact hz.symm
      case isFalse hne => exact absurd (hz ▸ hsame) hne
    case isFalse hany =>
      obtain hold | hnew := List.mem_append.mp hy
      · exact absurd (List.any_eq_true.mpr ⟨y, hold, by simpa using hsame⟩) hany
      · simpa using hnew
  written := hwritten
  whole := hwhole

section
variable {s : State} {die : Nat} {x : Sheet} (h : Stands s die x)
include h

theorem Stands.congr {t : State} (hdies : getDie t die = getDie s die) : Stands t die x :=
  ⟨hdies ▸ h.found, hdies ▸ h.only, h.written, h.whole⟩

theorem Stands.sheetOr : sheetOr s die x.sheet = x := sheetOr_of_find h.found

theorem Stands.putSheet {y : Sheet} (hne : y.sheet ≠ x.sheet) : Stands (putSheet s die y) die x where
  found := by rw [findSheet_putSheet, if_neg hne.symm]; exact h.found
  only z hz hsame := by
    rw [sheets_putSheet] at hz
    split at hz
    case isTrue =>
      obtain ⟨w, hw, hzw⟩ := List.mem_map.mp hz
      split at hzw
      case isTrue => exact absurd (hzw ▸ hsame) hne
      case isFalse => exact h.only z (hzw ▸ hw) hsame
    case isFalse =>
      obtain hold | hnew := List.mem_append.mp hz
      · exact h.only z hold hsame
      · obtain rfl : z = y := by simpa using hnew
        exact absurd hsame hne
  written := h.written
  whole := h.whole

theorem Stands.withoutLines {y : Sheet} (hne : y.sheet ≠ x.sheet) : Stands (withoutLines s die y) die x where
  found := (findSheet_withoutLines_ne hne.symm).trans h.found
  only z hz hsame := by
    unfold Machine.withoutLines at hz
    split at hz
    · rw [getDie_modDie] at hz
      exact h.only z (List.mem_filter.mp hz).1 hsame
    · exact (h.putSheet (y := { newSheet y.sheet with grants := y.grants }) hne).only z hz hsame
  written := h.written
  whole := h.whole

/-- Making room takes a CLEAN sheet, and so another. -/
theorem Stands.makeRoom (sh : Nat) : Stands (makeRoom s die sh) die x := by
  unfold Machine.makeRoom
  split
  · exact h
  · split
    case h_1 y hy =>
      have hclean : y.state = .clean := by
        have hfound := List.find?_some hy
        simp only [Bool.and_eq_true, decide_eq_true_eq] at hfound
        exact hfound.1.1
      have hne : y.sheet ≠ x.sheet := fun hsame => h.written (h.only y (List.mem_of_find?_eq_some hy) hsame ▸ hclean)
      exact (h.withoutLines hne).congr (getDie_replaceSheet s die die y)
    case h_2 => exact h

/-- A line of the sheet is not fetched again, and one of another leaves the sheet. -/
theorem Stands.supplyLine (line : Nat) : Stands (supplyLine s die line) die x := by
  unfold Machine.supplyLine
  split
  · exact h
  case isFalse hheld =>
    have hne : line / 2 ≠ x.sheet := by
      intro hsame
      rw [hsame, h.sheetOr] at hheld
      exact hheld (h.whole _ (Nat.mod_lt _ (by decide)))
    refine Stands.congr (Stands.putSheet (h.makeRoom (line / 2)) ?_) (getDie_setSharer _ _ _ _)
    simpa using hne

theorem Stands.supplyLine_eq {line : Nat} (hline : line / 2 = x.sheet) : Machine.supplyLine s die line = s := by
  unfold Machine.supplyLine
  rw [hline, h.sheetOr, if_pos (h.whole _ (Nat.mod_lt _ (by decide)))]

end

/-! ## Writes at the RDC (R298) -/

/-- The sheet that a write at the RDC leaves, from the one that it finds. -/
def writtenSheet (tick : Nat) (m : BitVec 256) (data : BitVec 2048) (psn : BitVec 64) (x : Sheet) : Sheet :=
  let y := if x.state = .clean then { x with state := .twinned, twin := x.work, twinTick := tick } else x
  ({ y with work := overlay m data y.work,
            poison := (y.poison &&& ~~~(wordsWhole 64 m)) ||| (psn &&& wordsTouched 64 m) }).delay tick m

section
variable (tick : Nat) (m : BitVec 256) (data : BitVec 2048) (psn : BitVec 64) (x : Sheet)

theorem writtenSheet_work : (writtenSheet tick m data psn x).work = overlay m data x.work := by
  unfold writtenSheet; dsimp only [Sheet.delay]; split <;> rfl
theorem writtenSheet_sheet : (writtenSheet tick m data psn x).sheet = x.sheet := by
  unfold writtenSheet; dsimp only [Sheet.delay]; split <;> rfl
theorem writtenSheet_held : (writtenSheet tick m data psn x).held = x.held := by
  unfold writtenSheet; dsimp only [Sheet.delay]; split <;> rfl
theorem writtenSheet_written : (writtenSheet tick m data psn x).state ≠ .clean := by
  unfold writtenSheet
  dsimp only [Sheet.delay]
  split
  · simp
  · assumption

end

theorem rdcWrite_eq (s : State) (die sh : Nat) (m : BitVec 256) (data : BitVec 2048) (psn : BitVec 64) :
    rdcWrite s die sh m data psn
      = putSheet (makeRoom (supplyLine (supplyLine s die (2 * sh)) die (2 * sh + 1)) die sh) die
          (writtenSheet (makeRoom (supplyLine (supplyLine s die (2 * sh)) die (2 * sh + 1)) die sh).tick m data psn
            (sheetOr (makeRoom (supplyLine (supplyLine s die (2 * sh)) die (2 * sh + 1)) die sh) die sh)) := rfl

/-- A write at the RDC leaves its sheet standing, with its bytes laid over what the sheet held. -/
theorem rdcWrite_stands (s : State) (die sh : Nat) (m : BitVec 256) (data : BitVec 2048) (psn : BitVec 64) :
    ∃ x old, x.sheet = sh ∧ x.work = overlay m data old ∧ Stands (rdcWrite s die sh m data psn) die x
      ∧ ∀ y, Stands s die y → y.sheet = sh → old = y.work := by
  rw [rdcWrite_eq]
  refine ⟨_, _, ?_, writtenSheet_work _ _ _ _ _, stands_putSheet (writtenSheet_written _ _ _ _ _) ?_ _ _, ?_⟩
  · rw [writtenSheet_sheet, sheetOr_sheet]
  · intro j hj
    rw [writtenSheet_held, sheetOr_makeRoom_self]
    exact held_supplied s die sh hj
  · rintro y hy rfl
    rw [sheetOr_makeRoom_self, ((hy.supplyLine (2 * y.sheet)).supplyLine (2 * y.sheet + 1)).sheetOr]

/-- A write to another sheet leaves one that stands. -/
theorem Stands.rdcWrite {s : State} {die : Nat} {x : Sheet} (h : Stands s die x) {sh : Nat} (hne : sh ≠ x.sheet) (m : BitVec 256)
    (data : BitVec 2048) (psn : BitVec 64) : Stands (rdcWrite s die sh m data psn) die x := by
  rw [rdcWrite_eq]
  refine Stands.putSheet (((h.supplyLine _).supplyLine _).makeRoom sh) ?_
  rw [writtenSheet_sheet, sheetOr_sheet]
  exact hne

/-! ## Words at the RDC (R270) -/

theorem getDie_noteWrote (s : State) (id : GangId) (op pa n d : Nat) : getDie (noteWrote s id op pa n) d = getDie s d := by
  have hdies : (noteWrote s id op pa n).dies = s.dies := by unfold noteWrote; dsimp only; split <;> rfl
  rw [getDie, hdies]; rfl

theorem getDie_dropCopies (s : State) (die core line d : Nat) : getDie (dropCopies s die core line) d = getDie s d := by
  have hdies : (dropCopies s die core line).dies = s.dies := by
    rw [dropCopies]; exact (modCluster_dies _ _ _ _).trans (modCore_dies _ _ _ _)
  rw [getDie, hdies]; rfl

section
variable (s : State) (id : GangId) (op pa n v : Nat)

theorem unitWrite_die : unitWrite s id op .die (.mem pa false) n v false
    = dropCopies (rdcWrite (noteWrote s id op pa n) id.die (pa / 256) (byteSpan 256 (pa % 256) n) (lineOf 2048 (pa % 256) v) 0#64)
        id.die id.core (pa / 128) := rfl

/-- A word that is written at the RDC stands in a sheet there. -/
theorem unitWrite_stands : ∃ x old, x.sheet = pa / 256
    ∧ x.work = overlay (byteSpan 256 (pa % 256) n) (lineOf 2048 (pa % 256) v) old
    ∧ Stands (unitWrite s id op .die (.mem pa false) n v false) id.die x ∧ ∀ y, Stands s id.die y → y.sheet = pa / 256 → old = y.work := by
  obtain ⟨x, old, hsheet, hwork, hstands, hbefore⟩ := rdcWrite_stands (noteWrote s id op pa n) id.die (pa / 256)
    (byteSpan 256 (pa % 256) n) (lineOf 2048 (pa % 256) v) 0#64
  rw [unitWrite_die]
  exact ⟨x, old, hsheet, hwork, hstands.congr (getDie_dropCopies _ _ _ _ _), fun y hy => hbefore y (hy.congr (getDie_noteWrote _ _ _ _ _ _))⟩

/-- A word of another sheet leaves one that stands. -/
theorem Stands.unitWrite {x : Sheet} (h : Stands s id.die x) (hne : pa / 256 ≠ x.sheet) :
    Stands (unitWrite s id op .die (.mem pa false) n v false) id.die x := by
  rw [unitWrite_die]
  exact ((h.congr (getDie_noteWrote _ _ _ _ _ _)).rdcWrite hne _ _ _).congr (getDie_dropCopies _ _ _ _ _)

/-- A word of a sheet that stands is read there. -/
theorem Stands.unitRead {x : Sheet} (h : Stands s id.die x) (hsheet : x.sheet = pa / 256) (ctx : Nat) :
    (unitRead s id ctx .die (.mem pa false) n).2.1 = lineNat x.work (pa % 256) n := by
  have hline : pa / 128 / 2 = x.sheet := by omega
  have hsame : Machine.sheetOr s id.die (pa / 256) = x := by rw [← hsheet]; exact h.sheetOr
  simp only [Machine.unitRead, reduceCtorEq, if_false, h.supplyLine_eq hline, hsame]

end

/-- Two words that do not overlap, written one after the other at the RDC, are both read there (R273). -/
theorem unitRead_unitWrite_unitWrite (s : State) (id : GangId) (op ctx px py n vx vy : Nat) (hx : px % 256 + n ≤ 256) (hy : py % 256 + n ≤ 256)
    (hapart : px + n ≤ py ∨ py + n ≤ px) {t : State}
    (ht : getDie t id.die = getDie (unitWrite (unitWrite s id op .die (.mem px false) n vx false) id op .die (.mem py false) n vy false) id.die) :
    (unitRead t id ctx .die (.mem px false) n).2.1 = vx % 256 ^ n ∧ (unitRead t id ctx .die (.mem py false) n).2.1 = vy % 256 ^ n := by
  obtain ⟨x, oldx, hxsheet, hxwork, hxstands, -⟩ := unitWrite_stands s id op px n vx
  obtain ⟨y, oldy, hysheet, hywork, hystands, hbefore⟩ := unitWrite_stands (unitWrite s id op .die (.mem px false) n vx false) id op py n vy
  have hyread : (unitRead t id ctx .die (.mem py false) n).2.1 = vy % 256 ^ n := by
    rw [(hystands.congr ht).unitRead _ _ _ _ hysheet, hywork, lineNat_overlay_lineOf vy oldy hy (by omega)]
  refine ⟨?_, hyread⟩
  by_cases hsame : py / 256 = px / 256
  case pos =>
    obtain rfl := hbefore x hxstands (hxsheet.trans hsame.symm)
    rw [(hystands.congr ht).unitRead _ _ _ _ (hysheet.trans hsame), hywork, hxwork, lineNat_overlay_of_clear,
      lineNat_overlay_lineOf vx oldx hx (by omega)]
    intro k hk
    rw [getLsbD_byteSpan]
    simp
    omega
  case neg =>
    rw [((hxstands.unitWrite _ _ _ _ _ _ (hxsheet ▸ hsame)).congr ht).unitRead _ _ _ _ hxsheet, hxwork,
      lineNat_overlay_lineOf vx oldx hx (by omega)]

end Sys2Proof.Machine

/-!
DCAS and AMOVE (R273, R283): the descriptor's words, what is sent, and the two words replaced at the RDC or at their homes.
-/
namespace Sys2Proof.Machine

/-! ## Words and answers -/

theorem cutWord_lt (w64 : Bool) (v : DWord) : (cutWord w64 v).toNat < 256 ^ wordSize w64 := by
  cases w64 with
  | true => exact v.isLt
  | false =>
    rw [cutWord, if_neg Bool.false_ne_true, BitVec.toNat_setWidth_of_le (by decide)]
    exact (v.setWidth 32).isLt

theorem cutWord_of_lt {w64 : Bool} {v : DWord} (h : v.toNat < 256 ^ wordSize w64) : cutWord w64 v = v := by
  cases w64 with
  | true => rfl
  | false =>
    refine BitVec.eq_of_toNat_eq ?_
    have h32 : v.toNat < 2 ^ 32 := h
    simp only [cutWord, Bool.false_eq_true, if_false, BitVec.toNat_setWidth]
    omega

/-- The new values of two words are words. -/
theorem pairResult_lt (x : PairOp) {ox oy : DWord} (hx : ox.toNat < 256 ^ wordSize x.w64) (hy : oy.toNat < 256 ^ wordSize x.w64) :
    (pairResult x ox oy).1.toNat < 256 ^ wordSize x.w64 ∧ (pairResult x ox oy).2.1.toNat < 256 ^ wordSize x.w64 := by
  have hzero : (0#64).toNat < 256 ^ wordSize x.w64 := Nat.pow_pos (by decide)
  unfold pairResult
  split
  · split
    · exact ⟨cutWord_lt _ _, cutWord_lt _ _⟩
    · exact ⟨hx, hy⟩
  · split
    · exact ⟨hzero, hx⟩
    · exact ⟨hx, hx⟩

theorem toNat_ofNat_lt {n m : Nat} (h : m < n) : (BitVec.ofNat 64 m).toNat < n :=
  lt_of_le_of_lt (by rw [BitVec.toNat_ofNat]; exact Nat.mod_le _ _) h

theorem natOfBytes_lt (l : List Byte) : natOfBytes l < 256 ^ l.length := by
  induction l with
  | nil => exact Nat.one_pos
  | cons b rest ih =>
    have hb : b.toNat < 256 := b.isLt
    rw [natOfBytes, List.length_cons, Nat.pow_succ]
    omega

theorem homeNat_lt (s : State) (pa n : Nat) : homeNat s pa n < 256 ^ n := by
  simpa [homeNat, cellsRead] using natOfBytes_lt (cellsRead s.mem (standsAt s pa) n)

theorem unitRead_lt (s : State) (id : GangId) (ctx pa n : Nat) : (unitRead s id ctx .die (.mem pa false) n).2.1 < 256 ^ n :=
  Nat.mod_lt _ (Nat.pow_pos (by decide))

/-! ## A word at its home (R270, R271, R313) -/

theorem homeLost_congr {s t : State} (hlost : t.lost = s.lost) (hlinks : t.links = s.links) (home : Nat) : homeLost t home = homeLost s home := by
  simp only [homeLost, dieLost, linkBroken, findLink, hlost, hlinks]

/-- The machine `t` is `s` with bytes written at a home, but for what the home and the die note of the write. -/
structure WrittenHome (s t : State) (pa : Nat) (l : List Byte) : Prop where
  mem : t.mem = cellsWrite s.mem pa l
  migrations : t.migrations = []
  gangs : t.gangs = s.gangs
  pend : t.pend = s.pend
  lost : t.lost = s.lost
  links : t.links = s.links

theorem writtenHome_performHome {s : State} (hstill : s.migrations = []) {pa : Nat} (hlost : homeLost s (homeOf pa) = false) (l : List Byte)
    (ops : List Nat) : WrittenHome s (performHome s pa l ops) pa l := by
  have hwrite : homeWrite s pa l = { s with
      mem := cellsWrite s.mem pa l,
      poison := s.poison.filter fun k => !(decide (pa ≤ 128 * k) && decide (128 * k + 128 ≤ pa + l.length)) } := by
    simp [homeWrite, standsAt_of_still hstill, hlost]
  refine ⟨performHome_mem hstill hlost l ops, performHome_migrations hstill pa l ops, ?_, ?_, ?_, ?_⟩
  all_goals
    rw [performHome_eq hstill, hwrite, noteUnfolded]
    split <;> rfl

section
variable {s : State} (p : Pend) (w64 : Bool) (t : Target) (pa : Nat)

theorem homePerform_ald (v : BitVec 128) :
    homePerform s p .ald w64 { lane := 0, va := 0#64, tgt := t, data := v } pa = (s, homeNat s pa (wordSize w64), homePoisoned s pa) := rfl

/-- EXCH puts its word at the home. -/
theorem writtenHome_exch (hstill : s.migrations = []) (hlost : homeLost s (homeOf pa) = false) {v : DWord}
    (hv : v.toNat < 256 ^ wordSize w64) :
    WrittenHome s (homePerform s p (.atom .exch) w64 { lane := 0, va := 0#64, tgt := t, data := v.setWidth 128 } pa).1 pa
      (bytesOfNat (wordSize w64) v.toNat) := by
  have hdata : (v.setWidth 128 : BitVec 128).toNat % 256 ^ wordSize w64 = v.toNat := by
    rw [BitVec.toNat_setWidth_of_le (by decide), Nat.mod_eq_of_lt hv]
  have hnew : (homeOpNew (.atom .exch) w64 0 (BitVec.ofNat 64 (homeNat s pa (wordSize w64))) v).map BitVec.toNat = some v.toNat :=
    congrArg (fun k : DWord => some k.toNat) (cutWord_of_lt hv)
  obtain ⟨hmem, hmigrations, hgangs, hpend, hlosts, hlinks⟩ := writtenHome_performHome (s := touchHome s p.gang (homeOf pa)) hstill
    (pa := pa) hlost (bytesOfNat (wordSize w64) v.toNat) [p.op]
  unfold homePerform
  simp only [HomeOp.size, hdata, BitVec.ofNat_toNat, BitVec.setWidth_eq, hnew, reduceCtorEq, if_false]
  split
  · exact ⟨hmem, hmigrations, hgangs, hpend, hlosts, hlinks⟩
  · exact ⟨hmem, hmigrations, hgangs, hpend, hlosts, hlinks⟩

theorem sentLane_home {sc : Scope} (hscope : scopeAtHome sc = true) (h : HomeOp) (hb : Bool) (v : BitVec 128) :
    sentLane s p h w64 sc { lane := 0, va := 0#64, tgt := .mem pa hb, data := v }
      = homePerform s p h w64 { lane := 0, va := 0#64, tgt := .mem pa hb, data := v } pa := by
  simp [sentLane, hscope]

end

/-- Bytes apart from those written are read as before. -/
theorem cellsRead_cellsWrite_apart {m : List Host.Cell} (w : Memory.wf m = true) (a : Nat) (l : List Byte) {b n : Nat}
    (h : b + n ≤ a ∨ a + l.length ≤ b) : cellsRead (cellsWrite m a l) b n = cellsRead m b n := by
  unfold cellsRead
  refine List.map_congr_left fun k hk => cellGet_cellsWrite_outside w a (b + k) l ?_
  have := List.mem_range.mp hk
  omega

/-! ## What a die does first for lanes at its RDC: nothing, for a pair that is performed at homes -/

theorem flushFor_nil (s : State) (id : GangId) : flushFor s id [] = s := by
  have hdrain : drainLines s id.die id.core (fun _ => false) = s := by
    simp [drainLines, drainThrough]
  have hflush : ∀ (l : List LeasedLine) (u : State), l.foldl (fun v x => if false = true then flushLine v id.die (clusterOf id.core) x else v) u = u := by
    intro l
    induction l with
    | nil => exact fun _ => rfl
    | cons x rest ih => exact fun u => ih u
  simp only [flushFor, List.filterMap_nil, List.contains_nil, hdrain, flushCluster]
  exact hflush _ s

theorem withRdcLanes_home {s : State} {id : GangId} {sc : Scope} (h : scopeAtHome sc = true) (l : List LaneAcc) (k : State → Res) :
    withRdcLanes s id sc l k = k s := by
  have hnone : rdcLanes sc l = [] := by
    unfold rdcLanes
    rw [if_neg]
    rintro rfl
    exact nomatch h
  rw [withRdcLanes, hnone, flushFor_nil]
  rfl

end Sys2Proof.Machine

namespace Sys2Proof
open Machine

/-! ## The descriptor and its words (R283) -/

/-- A 64-bit field of the descriptor at a place of a scratchpad. -/
def pairField (s : State) (die core pos k : Nat) : DWord := BitVec.ofNat 64 (scratchNat s die core (pos + k) 8)

theorem descField_eq (s : State) (x : PairOp) (k : Nat) : descField s x k = pairField s x.die x.core x.pos k := rfl

/-- A pair with its words and the fields of its descriptor. -/
def pairOf (s : State) (d : Opnd) (m : AtomMod) (die core pos : Nat) (tx ty : Target) (move : Option Bool) : PairOp :=
  { d := d, w64 := m.w64, scope := m.scope, move := move, x := tx, y := ty, ex := pairField s die core pos 16, ey := pairField s die core pos 24,
    nx := pairField s die core pos 32, ny := pairField s die core pos 40, die := die, core := core, pos := pos }

section
variable {h : Head} {d a : Opnd} {off : BitVec 32} {m : AtomMod} {c : Ctx} {die core pos : Nat} {move : Option Bool}
  (hstarts : Starts c.s h (single [a]) [a] c) (hpoison : wordPoison c.a a = false) (hroom : c.g.st < 63)
  (hspan : ScratchSpan c a off 64 .rmw die core pos) (hheld : heldBytes c.s c.g.id c.s.nextOp [(.scratch die core pos, 64)] = false)
  (hclean : descPoison c.s move m.w64 die core pos = false)
include hstarts hpoison hroom hspan hheld hclean

/-- Words at one address are answered with 2, and nothing is touched. -/
theorem pairOp_of_same (hmay : MayCommit c (killRegs c.a (headKills h a .zero .zero)))
    (hsame : alignTo (pairField c.s die core pos 0) (wordSize m.w64) = alignTo (pairField c.s die core pos 8) (wordSize m.w64)) :
    pairOp h d a off m move c.s
      = .next (afterCommit c ((writeScalar (killRegs c.a (headKills h a .zero .zero)) d 2#64).advance c.x)) := by
  have hword : wordCheck c.a [a] = none := by simp [wordCheck, hpoison]
  rw [pairOp, issue_eq hstarts.enter.here hstarts.enter.clean, if_neg (not_full hroom)]
  simp only [hstarts.live, hstarts.active, hstarts.priv, hword, firstHalt, if_false, show (spaceTarget _ _ _ _ _ _).2 = _ from hspan, hheld, hclean,
    Bool.false_eq_true, descField_eq]
  refine (if_pos hsame).trans ?_
  exact commit_of_le (by simpa [MayCommit] using hmay) (by simpa using heldSlots_killRegs c.a (headKills h a .zero .zero))

/-- Words that pass their checks make the pair. -/
theorem pairOp_of_words {r : State × List Checked} {tx ty : Nat × BitVec 64 × Target}
    (hr : r = checkLanes c.s c.g .global (wordSize m.w64) .rmw
      [(0, alignTo (pairField c.s die core pos 0) (wordSize m.w64)), (0, alignTo (pairField c.s die core pos 8) (wordSize m.w64))])
    (hne : alignTo (pairField c.s die core pos 0) (wordSize m.w64) ≠ alignTo (pairField c.s die core pos 8) (wordSize m.w64))
    (hpass : firstFail (r.2.map (bellAtomic (.atom .exch))) = none) (hwords : passing (r.2.map (bellAtomic (.atom .exch))) = [tx, ty]) :
    pairOp h d a off m move c.s
      = pairGo { c with s := r.1 } (pairOf c.s d m die core pos tx.2.2 ty.2.2 move) m (headKills h a .zero .zero) := by
  have hword : wordCheck c.a [a] = none := by simp [wordCheck, hpoison]
  rw [pairOp, issue_eq hstarts.enter.here hstarts.enter.clean, if_neg (not_full hroom)]
  simp only [hstarts.live, hstarts.active, hstarts.priv, hword, firstHalt, if_false, show (spaceTarget _ _ _ _ _ _).2 = _ from hspan, hheld, hclean,
    Bool.false_eq_true, descField_eq]
  refine (if_neg hne).trans ?_
  simp only [← hr, hpass, hwords]
  rfl

end

end Sys2Proof

/-!
DCAS and AMOVE once their words are translated (R273, R283), and as their homes perform them.
-/
namespace Sys2Proof
open Machine

section
variable {s : State} {guard : Guard} {c : Ctx} {u : State} (henters : Enters s guard c) (hgangs : u.gangs = c.s.gangs)
  {x : PairOp} {m : AtomMod} {kills : Reads}

/-! ## Words that overlap, and words that are sent -/

/-- Words that overlap are answered with 2. -/
theorem pairGo_of_touching (hissued : issuedOf u = issuedOf c.s) (hmay : MayCommit c (killRegs c.a kills))
    (htouch : touches x.x x.y (wordSize x.w64) (wordSize x.w64) = true) :
    pairGo { c with s := u } x m kills
      = .next (afterCommit { c with s := u } ((writeScalar (killRegs c.a kills) x.d 2#64).advance c.x)) := by
  have hmay' : MayCommit { c with s := u } (writeScalar (killRegs c.a kills) x.d 2#64) :=
    hmay.imp (heldSlots_writeScalar _ _ _).trans (clear_withState hissued).trans
  exact (if_pos htouch).trans (commit_of_le hmay' ((heldSlots_writeScalar _ _ _).trans_le (heldSlots_killRegs c.a kills)))

/-- Words that no home performs and nothing holds back are replaced now. -/
theorem pairGo_near (htouch : touches x.x x.y (wordSize x.w64) (wordSize x.w64) = false) (hlost : pairLost u x = false)
    (hnear : (scopeAtHome m.scope || targetAtHome x.x || targetAtHome x.y || !targetReach u c.g.id.die x.x || !targetReach u c.g.id.die x.y
      || !({ c with s := u } : Ctx).clear || heldBytes u c.g.id u.nextOp [(x.x, wordSize x.w64), (x.y, wordSize x.w64)]) = false) :
    pairGo { c with s := u } x m kills = pairNow { c with s := u } x kills := by
  simp only [pairGo, htouch, hlost, Bool.false_eq_true, if_false]
  exact if_neg (by rw [hnear]; exact Bool.false_ne_true)

include henters hgangs

/-- Words that a home performs, or that must wait, are sent. -/
theorem pairGo_sent (htouch : touches x.x x.y (wordSize x.w64) (wordSize x.w64) = false) (hlost : pairLost u x = false)
    (haway : (scopeAtHome m.scope || targetAtHome x.x || targetAtHome x.y || !targetReach u c.g.id.die x.x || !targetReach u c.g.id.die x.y
      || !({ c with s := u } : Ctx).clear || heldBytes u c.g.id u.nextOp [(x.x, wordSize x.w64), (x.y, wordSize x.w64)]) = true) :
    ∃ t, pairGo { c with s := u } x m kills = .next t
      ∧ Issued { c with s := u } (c.a.advance c.x) (.dcas x) (spreadReads kills) (groupOpnds x.d 1) t := by
  refine ⟨_, ?_, henters.issued_addPend_at hgangs _ _ _ _⟩
  simp only [pairGo, htouch, hlost, Bool.false_eq_true, if_false]
  exact if_pos haway

end

/-! ## Words at the RDC, now (R273) -/

section
variable {s : State} {guard : Guard} {c : Ctx} {u : State} (henters : Enters s guard c) (hout : outsideCaches u = outsideCaches c.s)
  {x : PairOp} {kills : Reads} {px py : Nat} (hx : x.x = .mem px false) (hy : x.y = .mem py false)
include henters hout hx hy

/-- The pair's two words are replaced one after the other; the write-back of the old ones is the gang's youngest access. -/
theorem pairNow_replaces {accs : List LaneAcc} {vx vy : State × Nat × Bool} {ox oy : DWord}
    (hclear : ({ c with s := u } : Ctx).clear = true)
    (haccs : accs = [x.x, x.y].map fun t => { lane := 0, va := 0#64, tgt := t, data := 0#128 })
    (htwins : twinsFit u c.g.id.die accs = true)
    (hvx : vx = unitRead (flushFor u c.g.id accs) c.g.id c.g.ctx .die x.x (wordSize x.w64))
    (hvy : vy = unitRead vx.1 c.g.id c.g.ctx .die x.y (wordSize x.w64)) (hcleanx : vx.2.2 = false) (hcleany : vy.2.2 = false)
    (hox : ox = BitVec.ofNat 64 vx.2.1) (hoy : oy = BitVec.ofNat 64 vy.2.1) :
    ∃ t w, pairNow { c with s := u } x kills = .next t
      ∧ w = unitWrite (unitWrite vy.1 c.g.id u.nextOp .die (.mem px false) (wordSize x.w64) (pairResult x ox oy).1.toNat false) c.g.id u.nextOp
          .die (.mem py false) (wordSize x.w64) (pairResult x ox oy).2.1.toNat false
      ∧ outsideCaches w = outsideCaches c.s
      ∧ Issued { c with s := w } (settleAccounts c.g.budget ((writeScalar (killRegs c.a kills) x.d (pairResult x ox oy).2.2).advance c.x))
          (writeBack x ox oy) [] [] t := by
  generalize hw : unitWrite (unitWrite vy.1 c.g.id u.nextOp .die (.mem px false) (wordSize x.w64) (pairResult x ox oy).1.toNat false) c.g.id
    u.nextOp .die (.mem py false) (wordSize x.w64) (pairResult x ox oy).2.1.toNat false = w
  have hwout : outsideCaches w = outsideCaches c.s := by
    rw [← hw, hvy, hvx, unitWrite_outside, unitWrite_outside, unitRead_outside, unitRead_outside, flushFor_outside, hout]
  have hclear' : ({ c with s := w } : Ctx).clear = true :=
    (clear_withState (c := { c with s := u }) (issued_of_outsideCaches (hwout.trans hout.symm))).trans hclear
  obtain ⟨t, hpost, hissued⟩ := henters.issued_post_at (gangs_of_outsideCaches hwout)
    (a := writeScalar (killRegs c.a kills) x.d (pairResult x ox oy).2.2) (.inr hclear') (writeBack x ox oy)
  refine ⟨t, w, ?_, rfl, hwout, hissued⟩
  unfold pairNow
  simp only [← haccs, htwins, ← hvx, ← hvy, hcleanx, hcleany, ← hox, ← hoy, Bool.not_true, Bool.or_self, Bool.false_eq_true, if_false]
  rw [hx, hy, hw]
  exact hpost

end

theorem Arch.sreg_advance (a : Arch) (x : PcSlot) (k : Fin 64) : (a.advance x).sreg k = a.sreg k := by cases x <;> rfl

/-- A word lies in one sheet. -/
theorem word_in_sheet {w64 : Bool} {pa : Nat} (h : pa % wordSize w64 = 0) : pa % 256 + wordSize w64 ≤ 256 := by
  cases w64 with
  | true =>
    have h8 : pa % 8 = 0 := h
    change pa % 256 + 8 ≤ 256
    omega
  | false =>
    have h4 : pa % 4 = 0 := h
    change pa % 256 + 4 ≤ 256
    omega

/-- What a pair that is performed now leaves: D has its answer, both words read as replaced, and the old ones are written back. -/
theorem pairNow_reads {s : State} {guard : Guard} {c : Ctx} {u : State} (henters : Enters s guard c) (hout : outsideCaches u = outsideCaches c.s)
    {x : PairOp} {kills : Reads} {px py : Nat} (hx : x.x = .mem px false) (hy : x.y = .mem py false)
    {accs : List LaneAcc} {vx vy : State × Nat × Bool} {ox oy : DWord}
    (hclear : ({ c with s := u } : Ctx).clear = true)
    (haccs : accs = [x.x, x.y].map fun t => { lane := 0, va := 0#64, tgt := t, data := 0#128 })
    (htwins : twinsFit u c.g.id.die accs = true)
    (hvx : vx = unitRead (flushFor u c.g.id accs) c.g.id c.g.ctx .die x.x (wordSize x.w64))
    (hvy : vy = unitRead vx.1 c.g.id c.g.ctx .die x.y (wordSize x.w64)) (hcleanx : vx.2.2 = false) (hcleany : vy.2.2 = false)
    (hox : ox = BitVec.ofNat 64 vx.2.1) (hoy : oy = BitVec.ofNat 64 vy.2.1)
    (hpx : px % wordSize x.w64 = 0) (hpy : py % wordSize x.w64 = 0) (happart : px + wordSize x.w64 ≤ py ∨ py + wordSize x.w64 ≤ px) :
    ∃ t g', pairNow { c with s := u } x kills = .next t ∧ findGang t c.g.id = some g' ∧ t.mem = s.mem
      ∧ (∀ k, x.d = .s k → g'.arch.sreg k = some (pairResult x ox oy).2.2)
      ∧ (unitRead t c.g.id c.g.ctx .die (.mem px false) (wordSize x.w64)).2.1 = (pairResult x ox oy).1.toNat
      ∧ (unitRead t c.g.id c.g.ctx .die (.mem py false) (wordSize x.w64)).2.1 = (pairResult x ox oy).2.1.toNat
      ∧ ∃ q ∈ t.pend, q.op = s.nextOp ∧ q.kind = writeBack x ox oy := by
  obtain ⟨t, w, hexec, hw, hwout, hissued⟩ := pairNow_replaces (kills := kills) henters hout hx hy hclear haccs htwins hvx hvy hcleanx hcleany hox hoy
  have hlow : ox.toNat < 256 ^ wordSize x.w64 ∧ oy.toNat < 256 ^ wordSize x.w64 := by
    rw [hox, hoy, hvy, hvx, hx, hy]
    exact ⟨toNat_ofNat_lt (unitRead_lt _ _ _ _ _), toNat_ofNat_lt (unitRead_lt _ _ _ _ _)⟩
  obtain ⟨hlowx, hlowy⟩ := pairResult_lt x hlow.1 hlow.2
  have hdies : t.dies = w.dies := by have hrest := congrArg State.dies hissued.rest; exact hrest
  have hdie : getDie t c.g.id.die = getDie w c.g.id.die := by rw [getDie, hdies]; rfl
  obtain ⟨hreadx, hready⟩ := unitRead_unitWrite_unitWrite vy.1 c.g.id u.nextOp c.g.ctx px py (wordSize x.w64) (pairResult x ox oy).1.toNat
    (pairResult x ox oy).2.1.toNat (word_in_sheet hpx) (word_in_sheet hpy) happart (hdie.trans (by rw [hw]))
  refine ⟨t, _, hexec, hissued.gang, ?_, ?_, ?_, ?_, ?_⟩
  · rw [hissued.mem_eq, mem_of_outsideCaches hwout, henters.state_eq]
  · intro k hk
    refine (settleAccounts_sreg _ _ k).trans ?_
    rw [Arch.sreg_advance, hk, writeScalar, Arch.setS_sreg, if_pos rfl]
  · rw [hreadx, Nat.mod_eq_of_lt hlowx]
  · rw [hready, Nat.mod_eq_of_lt hlowy]
  · rw [hissued.pend]
    exact ⟨_, List.mem_append_right _ (List.mem_singleton_self _),
      (nextOp_of_outsideCaches hwout).trans (congrArg State.nextOp henters.state_eq), rfl⟩

/-! ## Words at their homes (R273) -/

/-- The machine with both words of a pair replaced at their homes, one after the other. -/
def pairHome (s : State) (p : Pend) (x : PairOp) (px py : Nat) (vx vy : DWord) : State :=
  (homePerform (homePerform s p (.atom .exch) x.w64 { lane := 0, va := 0#64, tgt := x.x, data := vx.setWidth 128 } px).1 p (.atom .exch) x.w64
    { lane := 0, va := 0#64, tgt := x.y, data := vy.setWidth 128 } py).1

section
variable {s : State} {p : Pend} {x : PairOp} (hscope : scopeAtHome x.scope = true)
include hscope

/-- A pair whose words are at clean homes: both are replaced there, and the answer is committed beside the write-back. -/
theorem pairPerform_home {g : Gang} {px py : Nat} {ox oy : DWord} (hx : x.x = .mem px false) (hy : x.y = .mem py false)
    (hcleanx : homePoisoned s px = false) (hcleany : homePoisoned s py = false)
    (hox : ox = BitVec.ofNat 64 (homeNat s px (wordSize x.w64))) (hoy : oy = BitVec.ofNat 64 (homeNat s py (wordSize x.w64)))
    (hg : findGang (pairHome s p x px py (pairResult x ox oy).1 (pairResult x ox oy).2.1) p.gang = some g) :
    pairPerform s p x = recount { commitPend (pairHome s p x px py (pairResult x ox oy).1 (pairResult x ox oy).2.1) p
        (fun _ a => writeScalar a x.d (pairResult x ox oy).2.2) with
      pend := (commitPend (pairHome s p x px py (pairResult x ox oy).1 (pairResult x ox oy).2.1) p
        fun _ a => writeScalar a x.d (pairResult x ox oy).2.2).pend ++ [{ p with kills := [], dsts := [], kind := writeBack x ox oy }] } p.gang := by
  rw [pairHome] at hg ⊢
  unfold pairPerform
  simp only [hx, hy] at hg ⊢
  simp only [sentLane_home p x.w64 _ hscope, homePerform_ald, hcleanx, hcleany, ← hox, ← hoy, Bool.or_self, Bool.false_eq_true, if_false, hg]

/-- A pair that is performed at its homes now. -/
theorem exec_homePerformedWrite_pair {op : Nat} (hp : findPend s op = some p) (hkind : p.kind = .dcas x)
    (hnow : AtHomeNow s p (.atom .exch) x.w64 x.scope x.accs) : exec (.homePerformedWrite op) s = .next (pairPerform s p x) := by
  obtain ⟨-, hrisk, hheld, hintime, hreach, hreleased, hthere, -, -⟩ := hnow
  have hany : (x.accs.any fun a => lostTarget s a.tgt) = false := by simpa using hthere
  have hsent : sentReach s p.gang.die x.scope x.accs = true := by rw [sentReach, if_pos hscope]; exact hreach
  change execHomePerformedWrite op s = _
  simp only [execHomePerformedWrite, hp, hrisk, hheld, hkind, hsent, hintime, hany, hreleased, Bool.not_true, Bool.or_self, Bool.false_eq_true, if_false]
  exact withRdcLanes_home hscope _ _

end

/-- Both words stand at their homes as replaced, and nothing else has changed there. -/
theorem pairHome_frame {s : State} {p : Pend} {x : PairOp} {px py : Nat} (hstill : s.migrations = []) {vx vy : DWord} (hvx : vx.toNat < 256 ^ wordSize x.w64)
    (hvy : vy.toNat < 256 ^ wordSize x.w64) (hlostx : homeLost s (homeOf px) = false) (hlosty : homeLost s (homeOf py) = false) :
    (pairHome s p x px py vx vy).mem
        = cellsWrite (cellsWrite s.mem px (bytesOfNat (wordSize x.w64) vx.toNat)) py (bytesOfNat (wordSize x.w64) vy.toNat)
      ∧ (pairHome s p x px py vx vy).migrations = [] ∧ (pairHome s p x px py vx vy).gangs = s.gangs := by
  have hfirst := writtenHome_exch p x.w64 x.x px hstill hlostx hvx
  have hsecond := writtenHome_exch p x.w64 x.y py hfirst.migrations ((homeLost_congr hfirst.lost hfirst.links _).trans hlosty) hvy
  exact ⟨hsecond.mem.trans (congrArg (cellsWrite · py _) hfirst.mem), hsecond.migrations, hsecond.gangs.trans hfirst.gangs⟩

section
variable {m : List Host.Cell} (hwf : Memory.wf m = true) {px py n : Nat} (happart : px + n ≤ py ∨ py + n ≤ px) (vx vy : Nat)
include hwf happart

/-- Two words that do not overlap read back, and no other byte has changed. -/
theorem cellsWrite_apart :
    natOfBytes (cellsRead (cellsWrite (cellsWrite m px (bytesOfNat n vx)) py (bytesOfNat n vy)) px n) = vx % 256 ^ n
      ∧ natOfBytes (cellsRead (cellsWrite (cellsWrite m px (bytesOfNat n vx)) py (bytesOfNat n vy)) py n) = vy % 256 ^ n
      ∧ ∀ a, (a < px ∨ px + n ≤ a) → (a < py ∨ py + n ≤ a) →
          cellGet (cellsWrite (cellsWrite m px (bytesOfNat n vx)) py (bytesOfNat n vy)) a = cellGet m a := by
  have hwf' := Memory.wf_cellsWrite hwf px (bytesOfNat n vx)
  refine ⟨?_, natOfBytes_cellsWrite hwf' py n vy, fun a hax hay => ?_⟩
  · rw [cellsRead_cellsWrite_apart hwf' py _ (by rw [length_bytesOfNat]; exact happart), natOfBytes_cellsWrite hwf]
  · rw [cellGet_cellsWrite_outside hwf' _ _ _ (by rw [length_bytesOfNat]; exact hay),
      cellGet_cellsWrite_outside hwf _ _ _ (by rw [length_bytesOfNat]; exact hax)]

end

theorem committed_migrations (s : State) (p : Pend) (g : Gang) (f : Arch → Arch) : (committed s p g f).migrations = s.migrations := rfl

/-- An access added for a gang is there, its gang is found with its registers, and memory stays. -/
theorem recount_added (w : State) (p q : Pend) {g : Gang} (hg : findGang w p.gang = some g) :
    ∃ t g', t = recount { w with pend := w.pend ++ [q] } p.gang ∧ findGang t p.gang = some g' ∧ g'.arch = g.arch ∧ t.mem = w.mem
      ∧ t.migrations = w.migrations ∧ q ∈ t.pend :=
  ⟨_, _, rfl, (findGang_recount _ _ _).trans ((if_pos rfl).trans (congrArg (Option.map _) hg)), rfl, rfl, rfl,
    List.mem_append_right _ (List.mem_singleton_self _)⟩

/-- What a pair performed at its homes leaves. -/
theorem pairPerform_leaves {s : State} {p : Pend} {g : Gang} {op px py : Nat} {x : PairOp} {ox oy : DWord} (hp : findPend s op = some p)
    (hkind : p.kind = .dcas x) (hg : findGang s p.gang = some g) (hnow : AtHomeNow s p (.atom .exch) x.w64 x.scope x.accs)
    (hx : x.x = .mem px false) (hy : x.y = .mem py false) (happart : px + wordSize x.w64 ≤ py ∨ py + wordSize x.w64 ≤ px)
    (hcleanx : homePoisoned s px = false) (hcleany : homePoisoned s py = false)
    (hox : ox = BitVec.ofNat 64 (homeNat s px (wordSize x.w64))) (hoy : oy = BitVec.ofNat 64 (homeNat s py (wordSize x.w64))) :
    ∃ t g', exec (.homePerformedWrite op) s = .next t ∧ findGang t p.gang = some g'
      ∧ homeNat t px (wordSize x.w64) = (pairResult x ox oy).1.toNat ∧ homeNat t py (wordSize x.w64) = (pairResult x ox oy).2.1.toNat
      ∧ (∀ k, x.d = .s k → g'.arch.sreg k = some (pairResult x ox oy).2.2)
      ∧ (∃ q ∈ t.pend, q.op = op ∧ q.kind = writeBack x ox oy)
      ∧ ∀ a, (a < px ∨ px + wordSize x.w64 ≤ a) → (a < py ∨ py + wordSize x.w64 ≤ a) → cellGet t.mem a = cellGet s.mem a := by
  have hlostx : homeLost s (homeOf px) = false := hnow.there { lane := 0, va := 0#64, tgt := .mem px false, data := 0#128 } (by simp [PairOp.accs, hx])
  have hlosty : homeLost s (homeOf py) = false := hnow.there { lane := 0, va := 0#64, tgt := .mem py false, data := 0#128 } (by simp [PairOp.accs, hy])
  obtain ⟨hlowx, hlowy⟩ := pairResult_lt x (ox := ox) (oy := oy) (by rw [hox]; exact toNat_ofNat_lt (homeNat_lt _ _ _))
    (by rw [hoy]; exact toNat_ofNat_lt (homeNat_lt _ _ _))
  obtain ⟨hmem, hmigrations, hgangs⟩ := pairHome_frame (p := p) hnow.still hlowx hlowy hlostx hlosty
  generalize hu : pairHome s p x px py (pairResult x ox oy).1 (pairResult x ox oy).2.1 = u at hmem hmigrations hgangs
  have hgu : findGang u p.gang = some g := (findGang_congr hgangs p.gang).trans hg
  have hexec := (exec_homePerformedWrite_pair hnow.scope hp hkind hnow).trans
    (congrArg Host.Outcome.next (pairPerform_home (p := p) hnow.scope hx hy hcleanx hcleany hox hoy (hu.symm ▸ hgu)))
  rw [hu, commitPend_of_fits hgu (by simpa using heldSlots_killRegs g.arch (single p.kills))] at hexec
  obtain ⟨g', hg', hwoken⟩ := findGang_committed hgu (settleAccounts g.budget (writeScalar (killRegs g.arch (single p.kills)) x.d (pairResult x ox oy).2.2))
    fun a => settleAccounts g.budget (writeScalar (killRegs a (single p.kills)) x.d (pairResult x ox oy).2.2)
  have hcommitted := (committed_frame u p
    { g with arch := settleAccounts g.budget (writeScalar (killRegs g.arch (single p.kills)) x.d (pairResult x ox oy).2.2) }
    fun a => settleAccounts g.budget (writeScalar (killRegs a (single p.kills)) x.d (pairResult x ox oy).2.2)).1.trans hmem
  have hstill := (committed_migrations u p
    { g with arch := settleAccounts g.budget (writeScalar (killRegs g.arch (single p.kills)) x.d (pairResult x ox oy).2.2) }
    fun a => settleAccounts g.budget (writeScalar (killRegs a (single p.kills)) x.d (pairResult x ox oy).2.2)).trans hmigrations
  generalize committed u p _ _ = w at hexec hg' hcommitted hstill
  obtain ⟨hreadx, hready, hother⟩ := cellsWrite_apart hnow.canonical happart (pairResult x ox oy).1.toNat (pairResult x ox oy).2.1.toNat
  rw [← hcommitted] at hreadx hready hother
  obtain ⟨t, gt, ht, hgang, harch, htmem, htstill, htpend⟩ := recount_added w p { p with kills := [], dsts := [], kind := writeBack x ox oy } hg'
  rw [← ht] at hexec
  refine ⟨t, gt, hexec, hgang, ?_, ?_, fun k hk => ?_, ⟨_, htpend, (show p.op = op from op_of_findPend hp), rfl⟩, by rw [htmem]; exact hother⟩
  · rw [homeNat, standsAt_of_still (htstill.trans hstill), htmem]
    exact hreadx.trans (Nat.mod_eq_of_lt hlowx)
  · rw [homeNat, standsAt_of_still (htstill.trans hstill), htmem]
    exact hready.trans (Nat.mod_eq_of_lt hlowy)
  · rw [harch, hwoken, sreg_wokenArch_settleAccounts, hk, writeScalar, Arch.setS_sreg, if_pos rfl]

/-- Settles O29: the descriptor's words overlap, are sent, are replaced at the RDC at once, or by their homes. -/
theorem pairAtomics : Obligations.PairAtomics := by
  refine ⟨fun h d a off m s c die core pos hstarts hpoison hroom hspan hheld hmay => ?issue, ?home, ?answers⟩
  case home =>
    rintro s p g op px py n x ox oy hp hkind hg hnow hx hy rfl happart hcleanx hcleany hox hoy
    exact pairPerform_leaves hp hkind hg hnow hx hy happart hcleanx hcleany hox hoy
  case answers =>
    intro x ox oy
    refine ⟨fun hmove hequalx hequaly => ?_, fun hmove hdiffer => ?_, fun hmove => ?_, fun hmove => ?_⟩
    · simp [pairResult, hmove, hequalx, hequaly]
    · simp only [pairResult, hmove, if_neg hdiffer]
    · simp [pairResult, hmove]
    · simp [pairResult, hmove]
  case issue =>
    obtain rfl := hstarts.enter.state_eq
    refine ⟨fun hsame => ⟨fun hclean => pairOp_of_same hstarts hpoison hroom hspan hheld hclean hmay hsame,
      fun hclean => pairOp_of_same hstarts hpoison hroom hspan hheld hclean hmay hsame⟩, ?_⟩
    intro r tx ty f b hf hb hr hne hpass hwords
    obtain rfl : f = pairField c.s die core pos := funext hf
    obtain rfl : b = pairOf c.s d m die core pos tx.2.2 ty.2.2 := funext hb
    have hgo : ∀ {i move}, i = .dcas h d a off m ∧ move = none ∨ i = .amove h d a off m ∧ move = some (decide (m.op ≠ .add)) →
        descPoison c.s move m.w64 die core pos = false →
        exec i c.s = pairGo { c with s := r.1 } (pairOf c.s d m die core pos tx.2.2 ty.2.2 move) m (headKills h a .zero .zero) := by
      rintro i move (⟨rfl, rfl⟩ | ⟨rfl, rfl⟩) hclean
      · exact pairOp_of_words hstarts hpoison hroom hspan hheld hclean hr hne hpass hwords
      · exact pairOp_of_words hstarts hpoison hroom hspan hheld hclean hr hne hpass hwords
    have hdies : r.1 = { c.s with dies := r.1.dies } := hr ▸ checkLanes_dies _ _ _ _ _ _
    have hissued : issuedOf r.1 = issuedOf c.s := by rw [hr]; exact checkLanes_issued _ _ _ _ _ _
    have hgangs : r.1.gangs = c.s.gangs := by rw [hr]; exact checkLanes_gangs _ _ _ _ _ _
    have hout : outsideCaches r.1 = outsideCaches c.s := by rw [hdies]; rfl
    refine ⟨fun htouch => ⟨fun hclean => ?_, fun hclean => ?_⟩, fun hapart haway => ⟨fun hlost hclean => ?_, fun hlost hclean => ?_⟩, ?now⟩
    · exact (hgo (.inl ⟨rfl, rfl⟩) hclean).trans (pairGo_of_touching hissued hmay htouch)
    · exact (hgo (.inr ⟨rfl, rfl⟩) hclean).trans (pairGo_of_touching hissued hmay htouch)
    · rw [hgo (.inl ⟨rfl, rfl⟩) hclean]
      exact pairGo_sent hstarts.enter hgangs hapart hlost haway
    · rw [hgo (.inr ⟨rfl, rfl⟩) hclean]
      exact pairGo_sent hstarts.enter hgangs hapart hlost haway
    case now =>
      intro hapart hscope px py accs vx vy ox oy hx hy hpx hpy hclear hreachx hreachy haccs hfree htwins hvx hvy hcleanx hcleany hox hoy i move hi
        hlost hclean
      have hfree' : heldBytes r.1 c.g.id r.1.nextOp [(tx.2.2, wordSize m.w64), (ty.2.2, wordSize m.w64)] = false := by
        rw [haccs] at hfree; exact hfree
      have hnear : (scopeAtHome m.scope || targetAtHome tx.2.2 || targetAtHome ty.2.2 || !targetReach r.1 c.g.id.die tx.2.2
          || !targetReach r.1 c.g.id.die ty.2.2 || !({ c with s := r.1 } : Ctx).clear
          || heldBytes r.1 c.g.id r.1.nextOp [(tx.2.2, wordSize m.w64), (ty.2.2, wordSize m.w64)]) = false := by
        rw [hscope, hreachx, hreachy, hclear, hfree', hx, hy]; rfl
      have hwords : px + wordSize m.w64 ≤ py ∨ py + wordSize m.w64 ≤ px := by
        rw [hx, hy] at hapart
        simp only [touches, Bool.and_eq_false_iff, decide_eq_false_iff_not] at hapart
        omega
      rw [hgo hi hclean, pairGo_near hapart hlost hnear]
      exact pairNow_reads hstarts.enter hout hx hy hclear haccs htwins hvx hvy hcleanx hcleany hox hoy hpx hpy hwords

end Sys2Proof

/-!
The end of a release round (11_page R302, R310, R322).
-/
namespace Sys2Proof.Machine

/-! ## Rounds that end -/

/-- The launches of a round's releases fail in their die groups alone. -/
theorem lostLaunches_groups (s : State) (r : Round) : lostLaunches s r = { s with groups := (lostLaunches s r).groups } := by
  unfold lostLaunches
  split
  · rfl
  · refine List.foldlRecOn r.tasks _ (motive := fun t : State => t = { s with groups := t.groups }) rfl fun t ht id _ => ?_
    split
    · exact ht
    · split
      · exact ht
      · rw [ht]; rfl

@[simp] theorem endSheet_sheet (x : Sheet) : (endSheet x).sheet = x.sheet := by unfold endSheet; split <;> [split; skip] <;> rfl
@[simp] theorem endSheet_held (x : Sheet) : (endSheet x).held = x.held := by unfold endSheet; split <;> [split; skip] <;> rfl
@[simp] theorem endSheet_work (x : Sheet) : (endSheet x).work = x.work := by unfold endSheet; split <;> [split; skip] <;> rfl

theorem endSheet_of_same {x : Sheet} (hstate : x.state = .releasing) (h : x.work = x.twin) : (endSheet x).state = .clean := by
  simp [endSheet, hstate, h]

theorem endSheet_of_changed {x : Sheet} (hstate : x.state = .releasing) (h : x.work ≠ x.twin) :
    (endSheet x).state = .twinned ∧ (endSheet x).twin = x.twin := by
  simp [endSheet, hstate, h]

theorem endSheet_of_other {x : Sheet} (h : x.state ≠ .releasing) : endSheet x = x := if_neg h

/-- A sheet of a die as a round of it has ended. -/
def sheetAfter (r : Round) (x : Sheet) : Sheet := if r.sheets.contains x.sheet then endSheet x else x

/-- A release as a round has ended. -/
def taskAfter (s : State) (r : Round) (t : Task) : Task :=
  if r.tasks.contains t.id ∧ t.stage = 4 then
    { t with stage := 5, fault := match t.fault with
      | none => roundFault s r
      | some f => some f }
  else t

theorem getDie_lostLaunches (s : State) (r : Round) (die : Nat) : getDie (lostLaunches s r) die = getDie s die := by
  rw [lostLaunches_groups]; rfl

theorem lostLaunches_mem (s : State) (r : Round) : (lostLaunches s r).mem = s.mem := by rw [lostLaunches_groups]

theorem lostLaunches_tasks (s : State) (r : Round) : (lostLaunches s r).tasks = s.tasks := by rw [lostLaunches_groups]

theorem endRound_mem (s : State) (die : Nat) (r : Round) : (endRound s die r).mem = s.mem := lostLaunches_mem s r

theorem getDie_endRound (s : State) (die : Nat) (r : Round) :
    getDie (endRound s die r) die = { getDie s die with round := none, sheets := (getDie s die).sheets.map (sheetAfter r) } := by
  rw [← getDie_lostLaunches s r]
  exact getDie_modDie (lostLaunches s r) die fun d => { d with round := none, sheets := d.sheets.map (sheetAfter r) }

/-- The fault of a round's releases is read off a state of its own: a TIMEOUT carries a free value (log 28). -/
theorem endRound_tasks (s : State) (die : Nat) (r : Round) : ∃ u, (endRound s die r).tasks = s.tasks.map (taskAfter u r) :=
  ⟨modDie (lostLaunches s r) die fun d =>
      { d with round := none, sheets := d.sheets.map fun x => if r.sheets.contains x.sheet then endSheet x else x },
    congrArg (List.map _) (lostLaunches_tasks s r)⟩

theorem taskAfter_of_waiting (u : State) {r : Round} {k : Task} (hk : k.id ∈ r.tasks) (hstage : k.stage = 4) :
    taskAfter u r k = { k with stage := 5, fault := k.fault.or (roundFault u r) } := by
  rw [taskAfter, if_pos ⟨List.contains_iff_mem.mpr hk, hstage⟩]
  cases k.fault <;> rfl

theorem roundFault_of_timeout (s : State) {r : Round} (h : r.timedOut = true) : roundFault s r = some (cTimeout, freeNow s) := if_pos h

theorem roundFault_of_lost (s : State) {r : Round} (h : r.timedOut = false) :
    roundFault s r = r.lostSpan.map fun sp => (cHomeLost, BitVec.ofNat 64 (4096 * sp)) := if_neg (by simp [h])

end Sys2Proof.Machine

namespace Sys2Proof
open Machine

/-- ROUND_COMPLETE ends the round once its conditions hold (R274, R302, R310). -/
theorem exec_roundComplete {s : State} {die : Nat} {r : Round} (hround : (getDie s die).round = some r) (hhomes : r.homes = [])
    (hspans : ∀ x ∈ r.spans, x.2.isSome = true) (hstart : r.start + 8 ≤ s.tick) (hcoming : earlierComing s die r = false) :
    exec (.roundComplete die) s = .next (endRound s die r) := by
  have hgo : r.homes = [] ∧ r.spans.all (fun x => x.2.isSome) ∧ r.start + 8 ≤ s.tick ∧ !earlierComing s die r :=
    ⟨hhomes, List.all_eq_true.mpr hspans, hstart, by rw [hcoming]; rfl⟩
  show execRoundComplete die s = _
  unfold execRoundComplete
  rw [hround]
  exact if_pos hgo

/-- Settles O39: the die keeps its sheets but for those of the round, and its releases but for those that waited. -/
theorem roundEnds : Obligations.RoundEnds := by
  intro s die r hround hhomes hspans hstart hcoming
  obtain ⟨u, htasks⟩ := endRound_tasks s die r
  have hsheets : (getDie (endRound s die r) die).sheets = (getDie s die).sheets.map (sheetAfter r) := by rw [getDie_endRound]
  refine ⟨_, exec_roundComplete hround hhomes hspans hstart hcoming, by rw [getDie_endRound], endRound_mem s die r, ?carried, ?others,
    ?releases⟩
  case carried =>
    intro x hx hstate hcarried
    have hafter : sheetAfter r x = endSheet x := if_pos (List.contains_iff_mem.mpr hcarried)
    refine ⟨endSheet x, hsheets ▸ hafter ▸ List.mem_map_of_mem hx, endSheet_sheet x, endSheet_held x, endSheet_work x,
      ⟨fun hclean => ?_, endSheet_of_same hstate⟩, endSheet_of_changed hstate⟩
    by_contra hne
    have htwinned := (endSheet_of_changed hstate hne).1
    rw [hclean] at htwinned
    exact nomatch htwinned
  case others =>
    intro x hx hnot
    have hafter : sheetAfter r x = x := by
      unfold sheetAfter
      split
      · exact endSheet_of_other (hnot.resolve_right (fun h => h (List.contains_iff_mem.mp ‹_›)))
      · rfl
    exact hsheets ▸ hafter ▸ List.mem_map_of_mem hx
  case releases =>
    intro k hk hwaits hstage
    have hpast := List.mem_map_of_mem (f := taskAfter u r) hk
    rw [taskAfter_of_waiting u hwaits hstage, ← htasks] at hpast
    refine ⟨_, hpast, rfl, rfl, fun hnone hlate => ⟨freeNow u, ?_⟩, fun sp hnone htime hlost => ?_, fun hnone htime hlost => ?_⟩
    · simp [hnone, roundFault_of_timeout u hlate, cTimeout]
    · simp [hnone, roundFault_of_lost u htime, hlost, cHomeLost]
    · simp [hnone, roundFault_of_lost u htime, hlost]

end Sys2Proof

/-!
The words of a sheet, and the start of a release round: what it encodes, and the blocks and markers that it sends (11_page R298-R303).
-/
namespace Sys2Proof.Machine

/-! ## Words of a sheet -/

theorem getLsbD_sheetWord (x : BitVec 2048) (w i : Nat) : (sheetWord x w).getLsbD i = (decide (i < 32) && x.getLsbD (32 * w + i)) := by
  rw [sheetWord, BitVec.getLsbD_extractLsb']

/-- A sheet is its 64 words. -/
theorem sheet_ext {a b : BitVec 2048} (h : ∀ w < 64, sheetWord a w = sheetWord b w) : a = b := by
  refine BitVec.eq_of_getLsbD_eq fun i hi => ?_
  have hword := congrArg (fun v : Word => v.getLsbD (i % 32)) (h (i / 32) (by omega))
  simp only [getLsbD_sheetWord, Nat.mod_lt i (by decide : 32 > 0), decide_true, Bool.true_and, Nat.div_add_mod] at hword
  exact hword

theorem getLsbD_foldl_bits (n : Nat) (p : Nat → Prop) [DecidablePred p] (k i : Nat) :
    ((List.range k).foldl (fun m w => if p w then m ||| (1#n <<< w) else m) 0#n).getLsbD i
      = (decide (i < n) && decide (i < k) && decide (p i)) := by
  induction k with
  | zero => simp
  | succ k ih =>
    have hbit : (1#n <<< k).getLsbD i = (decide (i < n) && decide (i = k)) := by
      by_cases hi : i < n <;> by_cases hk : i = k <;> simp [hi, hk] <;> omega
    rw [List.range_succ, List.foldl_append]
    by_cases hk : i = k
    · subst hk
      by_cases hp : p i <;> simp [hp, ih, hbit]
    · have hlt : (i < k + 1) = (i < k) := by simp; omega
      by_cases hp : p k <;> simp [hp, ih, hbit, hk, hlt]

theorem getLsbD_changedWords (x : Sheet) (w : Nat) :
    (changedWords x).getLsbD w = (decide (w < 64) && decide (sheetWord x.work w ≠ sheetWord x.twin w)) := by
  rw [changedWords, getLsbD_foldl_bits, Bool.and_self]

theorem changedWords_eq_zero {x : Sheet} : changedWords x = 0#64 ↔ x.work = x.twin := by
  constructor
  · intro h
    refine sheet_ext fun w hw => ?_
    have hbit := getLsbD_changedWords x w
    rw [h] at hbit
    simpa [hw] using hbit
  · intro h
    refine BitVec.eq_of_getLsbD_eq fun w _ => ?_
    rw [getLsbD_changedWords]
    simp [h]

theorem mem_changedList {x : Sheet} {w : Nat} (hw : w < 64) (h : sheetWord x.work w ≠ sheetWord x.twin w) :
    (x.sheet % 16 * 64 + w, sheetWord x.work w) ∈ changedList x (changedWords x) := by
  refine List.mem_filterMap.mpr ⟨w, List.mem_range.mpr hw, if_pos ?_⟩
  rw [getLsbD_changedWords]
  simp [hw, h]

/-! ## Blocks of a round (R303) -/

/-- A block of a die for a span holds these words. -/
def InBlock (l : List Diff) (die span : Nat) (words : List (Nat × Word)) : Prop :=
  ∃ b ∈ l, b.span = span ∧ b.source = die ∧ words ⊆ b.words

theorem source_addToBlock {die : Nat} {l : List Diff} (h : ∀ b ∈ l, b.source = die) (x : Sheet) (words : List (Nat × Word)) :
    ∀ b ∈ addToBlock die l x words, b.source = die := by
  intro b hb
  simp only [addToBlock] at hb
  split at hb
  · obtain ⟨c, hc, rfl⟩ := List.mem_map.mp hb
    split <;> exact h c hc
  · rcases List.mem_append.mp hb with hb | hb
    · exact h b hb
    · rw [List.mem_singleton.mp hb]

theorem InBlock.addToBlock {l : List Diff} {die span : Nat} {words : List (Nat × Word)} (h : InBlock l die span words) (x : Sheet)
    (more : List (Nat × Word)) : InBlock (addToBlock die l x more) die span words := by
  obtain ⟨b, hb, hspan, hsource, hwords⟩ := h
  simp only [Machine.addToBlock]
  split
  · refine ⟨_, List.mem_map_of_mem hb, ?_⟩
    split
    · exact ⟨hspan, hsource, fun w hw => List.mem_append_left _ (hwords hw)⟩
    · exact ⟨hspan, hsource, hwords⟩
  · exact ⟨b, List.mem_append_left _ hb, hspan, hsource, hwords⟩

theorem inBlock_addToBlock {die : Nat} {l : List Diff} (h : ∀ b ∈ l, b.source = die) (x : Sheet) (words : List (Nat × Word)) :
    InBlock (addToBlock die l x words) die (x.sheet / 16) words := by
  simp only [addToBlock]
  split
  · rename_i hany
    obtain ⟨b, hb, hspan⟩ := List.any_eq_true.mp hany
    have hspan := of_decide_eq_true hspan
    refine ⟨_, List.mem_map_of_mem hb, ?_⟩
    rw [if_pos hspan]
    exact ⟨hspan, h b hb, List.subset_append_right _ _⟩
  · exact ⟨_, List.mem_append_right _ (List.mem_singleton_self _), rfl, rfl, List.Subset.refl _⟩

theorem blocksOf_append (die : Nat) (l : List Sheet) (x : Sheet) : blocksOf die (l ++ [x])
    = if changedWords x = 0#64 then blocksOf die l else addToBlock die (blocksOf die l) x (changedList x (changedWords x)) := by
  simp [blocksOf]

theorem source_blocksOf (die : Nat) (l : List Sheet) : ∀ b ∈ blocksOf die l, b.source = die := by
  induction l using List.reverseRecOn with
  | nil => exact nofun
  | append_singleton l x ih =>
    rw [blocksOf_append]
    split
    · exact ih
    · exact source_addToBlock ih x _

/-- The blocks of a round hold the changed words of every sheet that it carries (R302). -/
theorem inBlock_blocksOf (die : Nat) {l : List Sheet} {x : Sheet} (hx : x ∈ l) (hchanged : changedWords x ≠ 0#64) :
    InBlock (blocksOf die l) die (x.sheet / 16) (changedList x (changedWords x)) := by
  induction l using List.reverseRecOn with
  | nil => exact nomatch hx
  | append_singleton l y ih =>
    rw [blocksOf_append]
    rcases List.mem_append.mp hx with hx | hx
    · split
      · exact ih hx
      · exact (ih hx).addToBlock y _
    · rw [List.mem_singleton.mp hx] at hchanged ⊢
      rw [if_neg hchanged]
      exact inBlock_addToBlock (source_blocksOf die l) y _

/-- A span lies whole at one home (R287, R288). -/
theorem homeOf_inSpan (span : Nat) {off : Nat} (hoff : off < 4096) : homeOf (4096 * span + off) = homeOf (4096 * span) := by
  unfold homeOf paRegion
  have h44 : (4096 * span + off) / 2 ^ 44 = 4096 * span / 2 ^ 44 := by omega
  have h40 : (4096 * span + off) / 2 ^ 40 = 4096 * span / 2 ^ 40 := by omega
  have h41 : (4096 * span + off) / 2 ^ 41 = 4096 * span / 2 ^ 41 := by omega
  rw [h44, h40, h41]

/-- A sheet and its span have one home. -/
theorem homeOf_span (sheet : Nat) : homeOf (4096 * (sheet / 16)) = homeOf (256 * sheet) := by
  rw [← homeOf_inSpan (sheet / 16) (off := 256 * (sheet % 16)) (by omega)]
  congr 1
  omega

/-! ## Encoded sheets (R302) -/

@[simp] theorem encodeSheet_sheet (s : State) (x : Sheet) : (encodeSheet s x).sheet = x.sheet := by
  simp only [encodeSheet]; split <;> rfl
@[simp] theorem encodeSheet_work (s : State) (x : Sheet) : (encodeSheet s x).work = x.work := by
  simp only [encodeSheet]; split <;> rfl

theorem encodeSheet_of_same (s : State) {x : Sheet} (h : x.work = x.twin) : (encodeSheet s x).state = .clean := by
  simp only [encodeSheet]; rw [if_pos (.inl (changedWords_eq_zero.mpr h))]

theorem encodeSheet_of_changed {s : State} {x : Sheet} (h : x.work ≠ x.twin) (hlost : homeLost s (homeOf (256 * x.sheet)) = false) :
    (encodeSheet s x).state = .releasing ∧ (encodeSheet s x).twin = x.work := by
  simp only [encodeSheet]
  rw [if_neg (by rw [changedWords_eq_zero]; simp [h, hlost])]
  exact ⟨rfl, rfl⟩

/-! ## Distinct elements -/

theorem distinct_append (l : List Nat) (y : Nat) :
    distinct (l ++ [y]) = if (distinct l).contains y then distinct l else distinct l ++ [y] := by simp [distinct]

theorem mem_distinct {l : List Nat} {x : Nat} : x ∈ distinct l ↔ x ∈ l := by
  induction l using List.reverseRecOn with
  | nil => rfl
  | append_singleton l y ih =>
    rw [distinct_append]
    split
    · rename_i hy
      have hy : y ∈ distinct l := List.contains_iff_mem.mp hy
      rw [List.mem_append, List.mem_singleton, ih]
      exact ⟨.inl, fun h => h.elim id fun hxy => ih.mp (hxy ▸ hy)⟩
    · rw [List.mem_append, List.mem_append, ih]

/-! ## The round that starts -/

/-- The sheets that a round of a die carries. -/
def carriedSheets (s : State) (die : Nat) (sel : Nat → Bool) : List Sheet :=
  (getDie s die).sheets.filter fun x => decide (x.state = .twinned) && sel x.sheet

/-- The blocks of a round that go to a home. -/
def liveBlocks (s : State) (die : Nat) (sel : Nat → Bool) : List Diff :=
  (blocksOf die (carriedSheets s die sel)).filter fun b => !homeLost s (homeOf (4096 * b.span))

/-- A sheet of a die as a round of it has started. -/
def sheetInRound (s : State) (sel : Nat → Bool) (x : Sheet) : Sheet :=
  if x.state = .twinned ∧ sel x.sheet then encodeSheet s x else x

section
variable (s : State) (die : Nat) (full : Bool) (sel : Nat → Bool) (tasks : List Nat)

/-- What a started round is: its sheets, its homes with a block or a marker on its way to each, and the die as it goes on. -/
structure Started (t : State) (r : Round) : Prop where
  round : (getDie t die).round = some r
  sheets : (getDie t die).sheets = (getDie s die).sheets.map (sheetInRound s sel)
  early : (getDie t die).early = (getDie s die).early.filter fun x => !sel x
  touched : (getDie t die).touched = if full then [] else (getDie s die).touched
  waiting : (getDie t die).waiting = (getDie s die).waiting.filter fun k => !tasks.contains k
  mem : t.mem = s.mem
  kind : r.full = full
  releases : r.tasks = tasks
  start : r.start = s.tick
  carried : r.sheets = (carriedSheets s die sel).map fun x => x.sheet
  blocks : ∀ b ∈ liveBlocks s die sel, .block die (homeOf (4096 * b.span)) b.wire ∈ t.msgs
  homes : ∀ home ∈ r.homes, (∃ wire, .block die home wire ∈ t.msgs) ∨ .marker die home ∈ t.msgs

end

/-- A die whose record has been put reads as that record. -/
theorem getDie_of_set {s t : State} {die : Nat} {x : Die} (h : t.dies = s.dies.set (Fin.ofNat 8 die) x) : getDie t die = x := by
  rw [getDie, h]
  exact Vector.getElem_set_self _

/-- A round that starts sends its blocks and markers and encodes its sheets (R301, R302). -/
theorem started_startRound (s : State) (die : Nat) (full : Bool) (sel : Nat → Bool) (tasks : List Nat) :
    ∃ r, Started s die full sel tasks (startRound s die full sel tasks) r := by
  have hdie := getDie_of_set (t := startRound s die full sel tasks) (s := s) (die := die) rfl
  refine ⟨_, ⟨congrArg Die.round hdie, congrArg Die.sheets hdie, congrArg Die.early hdie, congrArg Die.touched hdie,
    congrArg Die.waiting hdie, rfl, rfl, rfl, rfl, rfl, fun b hb => ?blocks, fun home hhome => ?homes⟩⟩
  case blocks => exact List.mem_append_left _ (List.mem_append_right _ (List.mem_map_of_mem hb))
  case homes =>
    rcases List.mem_append.mp hhome with hhome | hhome
    · obtain ⟨b, hb, rfl⟩ := List.mem_map.mp (mem_distinct.mp hhome)
      exact .inl ⟨b.wire, List.mem_append_left _ (List.mem_append_right _ (List.mem_map_of_mem hb))⟩
    · exact .inr (List.mem_append_right _ (List.mem_map_of_mem hhome))

section
variable {s t : State} {die : Nat} {full : Bool} {sel : Nat → Bool} {tasks : List Nat} {r : Round} (h : Started s die full sel tasks t r)
include h

/-- A TWINNED sheet that the round carries joins it. -/
theorem Started.joins {x : Sheet} (hx : x ∈ (getDie s die).sheets) (hstate : x.state = .twinned) (hsel : sel x.sheet = true)
    (hlost : homeLost s (homeOf (256 * x.sheet)) = false) : JoinsRound t die r x := by
  have hcarried : x ∈ carriedSheets s die sel := List.mem_filter.mpr ⟨hx, by simp [hstate, hsel]⟩
  have hin : encodeSheet s x ∈ (getDie t die).sheets := by
    rw [h.sheets]
    exact List.mem_map.mpr ⟨x, hx, if_pos ⟨hstate, hsel⟩⟩
  refine ⟨encodeSheet s x, hin, encodeSheet_sheet s x, encodeSheet_work s x, encodeSheet_of_same s, fun hne => ?_⟩
  obtain ⟨hreleasing, htwin⟩ := encodeSheet_of_changed hne hlost
  obtain ⟨b, hb, hspan, hsource, hwords⟩ := inBlock_blocksOf die hcarried (mt changedWords_eq_zero.mp hne)
  have hhome : homeOf (4096 * b.span) = homeOf (256 * x.sheet) := by rw [hspan, homeOf_span]
  have hlive : b ∈ liveBlocks s die sel := List.mem_filter.mpr ⟨hb, by rw [hhome, hlost]; rfl⟩
  exact ⟨hreleasing, htwin, h.carried ▸ List.mem_map_of_mem hcarried, b, hhome ▸ h.blocks b hlive, hspan, hsource,
    fun w hw hword => hwords (mem_changedList hw hword)⟩

/-- A sheet that the round does not carry stays as it is. -/
theorem Started.keeps {x : Sheet} (hx : x ∈ (getDie s die).sheets) (hnot : x.state ≠ .twinned ∨ sel x.sheet = false) :
    x ∈ (getDie t die).sheets := by
  rw [h.sheets]
  refine List.mem_map.mpr ⟨x, hx, if_neg fun hsel => ?_⟩
  exact hnot.elim (· hsel.1) fun hno => by simp [hno] at hsel

end

end Sys2Proof.Machine

namespace Sys2Proof
open Machine

/-! ## The events -/

theorem exec_releaseRoundStart (s : State) (die : Nat) : exec (.releaseRoundStart die) s
    = if (getDie s die).round.isNone ∧ (getDie s die).waiting.any (wantsFull s) then
        .next (startRound s die true (fun _ => true) (getDie s die).waiting)
      else .next s := rfl

theorem exec_earlyRound (s : State) (die : Nat) (sheets : List Nat) : exec (.earlyRound die sheets) s
    = if (getDie s die).round.isNone ∧ sheets ≠ [] ∧ sheets.all (fun x => (getDie s die).early.contains x) then
        .next (startRound s die false (fun x => sheets.contains x) ((getDie s die).waiting.filter (servedBy s (getDie s die) sheets)))
      else .next s := rfl

/-- Settles O36: both events start a round by `startRound`, for every sheet and for the named ones, and only where none runs. -/
theorem roundsStart : Obligations.RoundsStart := by
  refine ⟨fun s die hnone _ => ⟨fun hwants => ?full, fun sheets hne hall => ?early⟩, fun s die hround => ?runs⟩
  case full =>
    obtain ⟨r, h⟩ := started_startRound s die true (fun _ => true) (getDie s die).waiting
    refine ⟨_, r, (exec_releaseRoundStart s die).trans (if_pos ⟨by rw [hnone]; rfl, hwants⟩), h.round, h.kind, h.releases, h.start, h.mem,
      h.waiting.trans ?_, h.touched, h.homes, fun x hx hstate hlost => h.joins hx hstate rfl hlost, fun x hx hstate => h.keeps hx (.inl hstate)⟩
    simp
  case early =>
    obtain ⟨r, h⟩ := started_startRound s die false (fun x => sheets.contains x)
      ((getDie s die).waiting.filter (servedBy s (getDie s die) sheets))
    refine ⟨_, r, (exec_earlyRound s die sheets).trans (if_pos ⟨by rw [hnone]; rfl, hne, hall⟩), h.round, h.kind, h.mem, fun x hx hin => ?_,
      fun x hx hstate hin hlost => h.joins hx hstate (List.contains_iff_mem.mpr hin) hlost,
      fun x hx hnot => h.keeps hx (hnot.imp_right fun hno => by simp [hno])⟩
    rw [h.early] at hx
    simp [hin] at hx
  case runs =>
    have hsome : ¬ (getDie s die).round.isNone = true := by rwa [Option.isNone_iff_eq_none]
    exact ⟨(exec_releaseRoundStart s die).trans (if_neg fun h => hsome h.1),
      fun sheets => (exec_earlyRound s die sheets).trans (if_neg fun h => hsome h.1)⟩

end Sys2Proof

/-!
Errors of storage (19_reliability R457-R462; 11_page R320, R321): the health log, poisoned registers, and sectors that are put back.
-/
namespace Sys2Proof.Machine

/-! ## The health log (R462) -/

section
variable (s : State) (die kind unit count addr : Nat)

theorem logHealth_eq : logHealth s die kind unit count addr = { s with
    health := (logHealth s die kind unit count addr).health, healthLoss := (logHealth s die kind unit count addr).healthLoss } := by
  simp only [logHealth]
  split <;> rfl

@[simp] theorem logHealth_mem : (logHealth s die kind unit count addr).mem = s.mem := by rw [logHealth_eq]
@[simp] theorem logHealth_gangs : (logHealth s die kind unit count addr).gangs = s.gangs := by rw [logHealth_eq]
@[simp] theorem logHealth_tick : (logHealth s die kind unit count addr).tick = s.tick := by rw [logHealth_eq]
@[simp] theorem logHealth_poison : (logHealth s die kind unit count addr).poison = s.poison := by rw [logHealth_eq]

/-- The log drops its oldest entry only, so what it has taken last stays. -/
theorem logHealth_appends {pre new : List HealthEntry} (h : s.health = pre ++ new) (hlen : new.length < 4096) :
    ∃ pre', (logHealth s die kind unit count addr).health
      = pre' ++ (new ++ [{ tick := s.tick, die := die, kind := kind, unit := unit, count := count, addr := addr }]) := by
  simp only [logHealth, h, List.append_assoc]
  split
  · rename_i hfull
    cases pre with
    | nil => simp at hfull; omega
    | cons e pre => exact ⟨pre, rfl⟩
  · exact ⟨pre, rfl⟩

theorem mem_logHealth : { tick := s.tick, die := die, kind := kind, unit := unit, count := count, addr := addr : HealthEntry }
    ∈ (logHealth s die kind unit count addr).health := by
  obtain ⟨pre, h⟩ := logHealth_appends s die kind unit count addr (List.append_nil s.health).symm (by decide)
  rw [h]
  simp

end

/-- What a stack's count is logged as (R461). -/
def stackEntry (s : State) (counts : List Nat) (k : Nat) : HealthEntry :=
  { tick := s.tick, die := 8 + k, kind := 8, unit := 0, count := counts.getD k 0, addr := 0 }

/-- The log with the counts of the first stacks. -/
def logStacks (s : State) (counts : List Nat) (n : Nat) : State :=
  (List.range n).foldl (fun s k => logHealth s (8 + k) 8 0 (counts.getD k 0) 0) s

theorem logStacks_spec (s : State) (counts : List Nat) {n : Nat} (hn : n ≤ 4096) :
    (logStacks s counts n).mem = s.mem ∧ (logStacks s counts n).gangs = s.gangs ∧ (logStacks s counts n).tick = s.tick
      ∧ ∃ pre, (logStacks s counts n).health = pre ++ (List.range n).map (stackEntry s counts) := by
  induction n with
  | zero => exact ⟨rfl, rfl, rfl, s.health, by simp [logStacks]⟩
  | succ n ih =>
    obtain ⟨hmem, hgangs, htick, pre, hhealth⟩ := ih (by omega)
    have hstep : logStacks s counts (n + 1) = logHealth (logStacks s counts n) (8 + n) 8 0 (counts.getD n 0) 0 := by
      simp [logStacks, List.range_succ]
    obtain ⟨pre', hlog⟩ := logHealth_appends _ (8 + n) 8 0 (counts.getD n 0) 0 hhealth (by simp; omega)
    rw [hstep]
    refine ⟨by simp [hmem], by simp [hgangs], by simp [htick], pre', ?_⟩
    rw [hlog, htick, List.range_succ, List.map_append]
    rfl

/-! ## Poisoned registers (R460) -/

theorem runAt_poisonRun {l : List Run} {lane : Nat} (h : lane < lengthOf l) : (runAt (poisonRun l lane) lane).poison = true := by
  induction l generalizing lane with
  | nil => exact absurd h (Nat.not_lt_zero _)
  | cons r rest ih =>
    rw [poisonRun]
    split
    · rename_i hlane
      rw [runAt, if_pos hlane]
    · rename_i hlane
      rw [runAt, if_neg hlane]
      exact ih (by rw [lengthOf] at h; omega)

theorem value_poisonRun (l : List Run) (lane i : Nat) : (runAt (poisonRun l lane) i).value = (runAt l i).value := by
  induction l generalizing lane i with
  | nil => rfl
  | cons r rest ih =>
    rw [poisonRun]
    split
    · rw [runAt, runAt]
      split <;> rfl
    · rw [runAt, runAt]
      split
      · rfl
      · exact ih _ _

/-! ## Bytes that are written as they stand -/

theorem bytesOfNat_natOfBytes (l : List Byte) : bytesOfNat l.length (natOfBytes l) = l := by
  induction l with
  | nil => rfl
  | cons b l ih =>
    rw [List.length_cons, bytesOfNat_succ, natOfBytes]
    have hb := b.isLt
    rw [show (b.toNat + 256 * natOfBytes l) / 256 = natOfBytes l by omega, ih]
    congr 1
    exact BitVec.eq_of_toNat_eq (by simp [BitVec.toNat_ofNat]; omega)

/-- Putting back what has been read changes no byte. -/
theorem cellGet_cellsWrite_cellsRead {m : List Host.Cell} (w : Memory.wf m = true) (a n k : Nat) :
    cellGet (cellsWrite m a (cellsRead m a n)) k = cellGet m k := by
  rw [cellGet_cellsWrite w]
  split
  · rename_i h
    have hlen : (cellsRead m a n).length = n := by simp [cellsRead]
    rw [hlen] at h
    rw [List.getD_eq_getElem _ _ (by omega)]
    simp [cellsRead, Nat.add_sub_cancel' h.1]
  · rfl

/-- A sector that is put back unchanged leaves every byte (R321). -/
theorem cellGet_homeWrite_sector {s : State} (hwf : Memory.wf s.mem = true) (hstill : s.migrations = []) (sector a : Nat) :
    cellGet (homeWrite s (32 * sector) (bytesOfNat 32 (sectorNow s sector).toNat)).mem a = cellGet s.mem a := by
  by_cases hlost : homeLost s (homeOf (32 * sector)) = true
  · rw [homeWrite_of_lost hstill hlost]
  · have hread : (cellsRead s.mem (32 * sector) 32).length = 32 := by simp [cellsRead]
    have hbytes : bytesOfNat 32 (sectorNow s sector).toNat = cellsRead s.mem (32 * sector) 32 := by
      have hlt := natOfBytes_lt (cellsRead s.mem (32 * sector) 32)
      have hsector : (sectorNow s sector).toNat = natOfBytes (cellsRead s.mem (32 * sector) 32) := by
        rw [sectorNow, BitVec.toNat_ofNat, homeNat, standsAt_of_still hstill]
        exact Nat.mod_eq_of_lt (by rw [hread] at hlt; exact hlt.trans_eq (by norm_num))
      have hback := bytesOfNat_natOfBytes (cellsRead s.mem (32 * sector) 32)
      rwa [hread, ← hsector] at hback
    rw [homeWrite_mem hstill (by simpa using hlost), hbytes, cellGet_cellsWrite_cellsRead hwf]

/-- A sector that a scrub has read is put back if it stands as it was read. -/
def sectorBack (s : State) (sector : Nat) (v : BitVec 256) : State :=
  if v = sectorNow s sector then homeWrite s (32 * sector) (bytesOfNat 32 v.toNat) else s

theorem cellGet_sectorBack {s : State} (hwf : Memory.wf s.mem = true) (hstill : s.migrations = []) (sector : Nat) (v : BitVec 256) (a : Nat) :
    cellGet (sectorBack s sector v).mem a = cellGet s.mem a := by
  unfold sectorBack
  split
  · rename_i hsame
    exact hsame ▸ cellGet_homeWrite_sector hwf hstill sector a
  · rfl

theorem homeWrite_eq (s : State) (pa : Nat) (l : List Byte) :
    homeWrite s pa l = { s with mem := (homeWrite s pa l).mem, poison := (homeWrite s pa l).poison } := by
  simp only [homeWrite]
  split <;> rfl

theorem sectorBack_gangs (s : State) (sector : Nat) (v : BitVec 256) : (sectorBack s sector v).gangs = s.gangs := by
  unfold sectorBack
  split
  · rw [homeWrite_eq]
  · rfl

end Sys2Proof.Machine

namespace Sys2Proof
open Machine

/-! ## UNCORRECTABLE_ERROR (R320, R457, R460) -/

theorem exec_uncorrectableError {s : State} {site : ErrSite} (h : siteThere s site = true) :
    exec (.uncorrectableError site) s = .next (poisonSite s site) := if_pos h

/-- A home line that an error reaches is marked and reported. -/
theorem poisonLine_spec (s : State) (line : Nat) : line ∈ (poisonLine s line).poison ∧ (poisonLine s line).mem = s.mem
    ∧ (poisonLine s line).gangs = s.gangs
    ∧ ∃ h ∈ (poisonLine s line).health, h.kind = 2 ∧ h.tick = s.tick ∧ h.die = homeOf (128 * line) := by
  unfold poisonLine
  refine ⟨?_, logHealth_mem .., logHealth_gangs .., _, mem_logHealth _ (homeOf (128 * line)) 2 0 1 (128 * line), rfl, rfl, rfl⟩
  rw [logHealth_poison]
  show line ∈ ite _ _ _
  split
  · exact List.contains_iff_mem.mp ‹_›
  · simp

theorem poisonSite_vreg (s : State) (id : GangId) (n : Fin 64) (lane : Nat) : poisonSite s (.register id n.val lane)
    = modGang s id fun g => { g with arch := g.arch.setV n ((g.arch.vreg n).map fun l => poisonRun l lane) } := by
  simp [poisonSite, n.isLt]

theorem poisonSite_sreg (s : State) (id : GangId) (n : Fin 64) (lane : Nat) : poisonSite s (.register id (64 + n.val) lane)
    = modGang s id fun g => { g with arch := { g.arch with sPoison := g.arch.sPoison ||| (1#64 <<< n.val) } } := by
  have hhi : 64 + n.val < 128 := by omega
  simp [poisonSite, hhi]

theorem poisonSite_preg (s : State) (id : GangId) (n lane : Nat) : poisonSite s (.register id (128 + n) lane)
    = modGang s id fun g => { g with arch := { g.arch with pPoison := g.arch.pPoison ||| (1#8 <<< n) } } := by
  have hlo : ¬128 + n < 64 := by omega
  simp [poisonSite, hlo]

section
variable {s : State} {g : Gang} (hg : findGang s g.id = some g) (lane : Nat)
include hg

theorem vregError {n : Fin 64} {l : List Run} (hl : g.arch.vreg n = some l) (hlane : lane < lengthOf l) :
    ∃ t g', exec (.uncorrectableError (.register g.id n.val lane)) s = .next t ∧ findGang t g.id = some g' ∧ t.mem = s.mem
      ∧ vregPoison (g'.arch.vreg n) lane = true ∧ (∀ i, vregVal (g'.arch.vreg n) i = vregVal (g.arch.vreg n) i)
      ∧ ∀ m, m ≠ n → g'.arch.vreg m = g.arch.vreg m := by
  have hthere : siteThere s (.register g.id n.val lane) = true := by simp [siteThere, hg, n.isLt, hl]
  refine ⟨_, { g with arch := g.arch.setV n (some (poisonRun l lane)) }, exec_uncorrectableError hthere, ?_, rfl, ?_, fun i => ?_,
    fun m hm => (Arch.setV_vreg ..).trans (if_neg hm)⟩
  · rw [poisonSite_vreg, findGang_modGang, if_pos rfl, hg, Option.map_some, hl, Option.map_some]
    exact fun _ => rfl
  · rw [Arch.setV_vreg, if_pos rfl]
    exact runAt_poisonRun hlane
  · rw [Arch.setV_vreg, if_pos rfl, hl]
    exact value_poisonRun l lane i

theorem sregError {n : Fin 64} (hlive : (g.arch.sreg n).isSome = true) :
    ∃ t, exec (.uncorrectableError (.register g.id (64 + n.val) lane)) s = .next t
      ∧ findGang t g.id = some { g with arch := { g.arch with sPoison := g.arch.sPoison ||| (1#64 <<< n.val) } }
      ∧ { t with gangs := s.gangs } = s := by
  have hhi : 64 + n.val < 128 := by omega
  have hthere : siteThere s (.register g.id (64 + n.val) lane) = true := by simp [siteThere, hg, hhi, hlive]
  refine ⟨_, exec_uncorrectableError hthere, ?_, by rw [poisonSite_sreg]; rfl⟩
  rw [poisonSite_sreg, findGang_modGang, if_pos rfl, hg, Option.map_some]
  exact fun _ => rfl

theorem pregError {n : Nat} (hn : n < 7) :
    ∃ t, exec (.uncorrectableError (.register g.id (128 + n) lane)) s = .next t
      ∧ findGang t g.id = some { g with arch := { g.arch with pPoison := g.arch.pPoison ||| (1#8 <<< n) } }
      ∧ { t with gangs := s.gangs } = s := by
  have hlo : ¬128 + n < 64 := by omega
  have hthere : siteThere s (.register g.id (128 + n) lane) = true := by simp [siteThere, hg, hlo]; omega
  refine ⟨_, exec_uncorrectableError hthere, ?_, by rw [poisonSite_preg]; rfl⟩
  rw [poisonSite_preg, findGang_modGang, if_pos rfl, hg, Option.map_some]
  exact fun _ => rfl

end

theorem findContext_modContext (s : State) (n : Nat) {f : Context → Context} (hf : ∀ c, (f c).num = c.num) :
    findContext (modContext s n f) n = (findContext s n).map f :=
  (find?_map_update Context.num s.contexts n n f fun c h => (hf c).trans h).trans (if_pos rfl)

theorem cacheErrors (s : State) (die cl core addr ctx : Nat) :
    (die < 8 → (sheetOr s die (addr / 256)).held.getLsbD (addr / 128 % 2) = true →
      ∃ t, exec (.uncorrectableError (.rdc die addr)) s = .next t ∧ t.mem = s.mem ∧ t.gangs = s.gangs
        ∧ sheetOr t die (addr / 256) = { sheetOr s die (addr / 256) with
            poison := (sheetOr s die (addr / 256)).poison ||| (1#64 <<< (addr % 256 / 4)) })
    ∧ (((getCluster s die cl).lines.any fun x => decide (x.line = addr / 128)) = true →
      ∃ t, exec (.uncorrectableError (.cluster die cl addr)) s = .next t ∧ t.mem = s.mem ∧ t.gangs = s.gangs
        ∧ (getCluster t die cl).lines = poisonLeased (getCluster s die cl).lines addr)
    ∧ (((getCore s die core).l1.any fun x => decide (x.line = addr / 128)) = true →
      ∃ t, exec (.uncorrectableError (.l1 die core addr)) s = .next t ∧ t.mem = s.mem ∧ t.gangs = s.gangs
        ∧ (getCore t die core).l1 = poisonLeased (getCore s die core).l1 addr)
    ∧ ((s.saved.any fun v => decide (v.ctx = ctx)) = true → ∀ x, findContext s ctx = some x →
      ∃ t, exec (.uncorrectableError (.shadow ctx)) s = .next t ∧ findContext t ctx = some { x with shadowErr := true }
        ∧ t.mem = s.mem ∧ t.gangs = s.gangs) := by
  refine ⟨fun hdie hheld => ⟨_, exec_uncorrectableError (by simp [siteThere, hdie, hheld]), rfl, rfl, ?_⟩,
    fun hline => ⟨_, exec_uncorrectableError hline, modCluster_mem .., modCluster_gangs .., ?_⟩,
    fun hline => ⟨_, exec_uncorrectableError hline, modCore_mem .., modCore_gangs .., ?_⟩,
    fun hsaved x hx => ⟨_, exec_uncorrectableError hsaved, ?_, rfl, rfl⟩⟩
  · exact (sheetOr_putSheet _ _ _ _).trans (if_pos (sheetOr_sheet s die (addr / 256)).symm)
  · rw [poisonSite, getCluster_modCluster, if_pos rfl]
    exact fun _ => rfl
  · rw [poisonSite, getCore_modCore, if_pos rfl]
    exact fun _ => rfl
  · rw [poisonSite, findContext_modContext, hx, Option.map_some]
    exact fun _ => rfl

theorem scratchError {s : State} {die core pos : Nat} (hdie : die < 8) (hcore : core < 128) (hpos : pos < 524288) :
    ∃ t, exec (.uncorrectableError (.scratch die core pos)) s = .next t ∧ scratchPoisoned t die core pos 1 = true
      ∧ t.mem = s.mem ∧ t.gangs = s.gangs ∧ ∀ d k, (getCore t d k).scratch = (getCore s d k).scratch := by
  refine ⟨_, exec_uncorrectableError (by simp [siteThere, hdie, hcore, hpos]), ?_, modCore_mem .., modCore_gangs ..,
    fun d k => scratch_poisonScratch ..⟩
  rw [poisonSite, poisonScratch, scratchPoisoned, getCore_modCore, if_pos rfl]
  · simp
    omega
  · exact fun _ => rfl

/-! ## Corrected errors, scrubs and counts (R321, R461, R462) -/

theorem logCorrected_spec (s : State) (die unit : Nat) : (logCorrected s die unit).mem = s.mem ∧ (logCorrected s die unit).gangs = s.gangs
    ∧ ∀ same, same = (fun h : HealthEntry => decide (h.die = die) && decide (h.kind = 1) && decide (h.unit = unit)
        && decide (s.tick < h.tick + 1000000000)) →
      (s.health.any same = true →
        (logCorrected s die unit).health = s.health.map fun h => if same h then { h with count := h.count + 1 } else h)
      ∧ (s.health.any same = false → ∃ h ∈ (logCorrected s die unit).health,
          h.kind = 1 ∧ h.die = die ∧ h.unit = unit ∧ h.tick = s.tick ∧ h.count = 1) := by
  simp only [logCorrected]
  split
  · rename_i hany
    exact ⟨rfl, rfl, fun same hsame => ⟨fun _ => by rw [hsame], fun hnone => absurd (hsame ▸ hany) (by simp [hnone])⟩⟩
  · rename_i hnone
    exact ⟨logHealth_mem .., logHealth_gangs .., fun same hsame => ⟨fun hany => absurd (hsame ▸ hany) hnone,
      fun _ => ⟨_, mem_logHealth s die 1 unit 1 0, rfl, rfl, rfl, rfl, rfl⟩⟩⟩

theorem scrubRead {s : State} {sector : Nat} (hexists : paExists (32 * sector) = true) :
    ∃ t, exec (.patrolScrub sector .read) s = .next t ∧ t.mem = s.mem ∧ t.gangs = s.gangs
      ∧ (t.scrub.find? fun x => decide (x.1 = sector)) = some (sector, sectorNow s sector) := by
  have hkept : ∀ v : BitVec 256, ((s.scrub.filter fun x => decide (x.1 ≠ sector)) ++ [(sector, v)]).find? (fun x => decide (x.1 = sector))
      = some (sector, v) := by
    intro v
    rw [List.find?_append, List.find?_eq_none.mpr fun x hx => by simpa using (List.mem_filter.mp hx).2]
    simp
  refine ⟨_, if_neg (by rw [hexists]; simp), ?_⟩
  split
  · refine ⟨logHealth_mem .., logHealth_gangs .., (hkept _).trans ?_⟩
    rw [logHealth_eq]
    rfl
  · exact ⟨rfl, rfl, hkept _⟩

theorem exec_scrubWriteBack {s : State} {sector : Nat} {x : Nat × BitVec 256}
    (hx : (s.scrub.find? fun x => decide (x.1 = sector)) = some x) :
    exec (.patrolScrub sector .writeBack) s = .next { sectorBack s sector x.2 with
      scrub := if sectorPoisoned (sectorBack s sector x.2) sector then (sectorBack s sector x.2).scrub
        else s.scrub.filter fun x => decide (x.1 ≠ sector) } := by
  show execPatrolScrub sector .writeBack s = _
  unfold execPatrolScrub
  rw [hx]
  rfl

/-- Settles O50: each clause is the lemma of its site or event. -/
theorem storageErrors : Obligations.StorageErrors := by
  refine ⟨fun s line h => ⟨_, exec_uncorrectableError h, poisonLine_spec s line⟩, fun s g n l lane hg hl hlane => vregError hg lane hl hlane,
    fun s g lane hg => ⟨fun n hlive => sregError hg lane hlive, fun n hn => pregError hg lane hn⟩, cacheErrors,
    fun s die core pos hdie hcore hpos => scratchError hdie hcore hpos,
    fun s die unit hdie => ⟨_, if_pos hdie, logCorrected_spec s die unit⟩,
    fun s sector hwf hstill => ⟨scrubRead, fun x hx =>
      ⟨_, exec_scrubWriteBack hx, sectorBack_gangs s sector x.2, cellGet_sectorBack hwf hstill sector x.2⟩⟩,
    fun s counts hlen hdue => ?counted⟩
  case counted =>
    obtain ⟨hmem, hgangs, -, pre, hhealth⟩ := logStacks_spec s counts (n := 16) (by decide)
    refine ⟨logStacks s counts 16, if_neg (by rw [hlen]; omega), hmem, hgangs, fun k hk => ⟨stackEntry s counts k, ?_, rfl, rfl, rfl, rfl⟩⟩
    rw [hhealth]
    exact List.mem_append_right _ (List.mem_map_of_mem (List.mem_range.mpr hk))

end Sys2Proof

/-!
Forwarded blocks at a sharer (11_page R309-R311, R314): one word of a block, a block word by word, and the stages of a block.
-/
namespace Sys2Proof.Machine

/-! ## One word of a sheet (R309, R310) -/

theorem sheetWord_putWord (x : BitVec 2048) {w : Nat} (hw : w < 64) (v : Word) (k : Nat) :
    sheetWord (putWord x w v) k = if k = w then v else sheetWord x k := by
  refine BitVec.eq_of_getLsbD_eq fun i hi => ?_
  rw [getLsbD_sheetWord, putWord, getLsbD_overlay, getLsbD_byteSpan, getLsbD_lineOf]
  by_cases hk : k = w
  · subst hk
    have hspan : (32 * k + i) / 8 < 256 ∧ 4 * k ≤ (32 * k + i) / 8 ∧ (32 * k + i) / 8 < 4 * k + 4 := by omega
    have hbit : 32 * k + i < 2048 ∧ 8 * (4 * k) ≤ 32 * k + i ∧ 32 * k + i - 8 * (4 * k) = i := by omega
    simp only [hi, hspan, hbit, decide_true, Bool.true_and, and_self, if_true, BitVec.testBit_toNat]
  · have hspan : ¬(4 * w ≤ (32 * k + i) / 8 ∧ (32 * k + i) / 8 < 4 * w + 4) := by omega
    simp only [hspan, hk, decide_false, Bool.and_false, if_false, getLsbD_sheetWord, hi, decide_true, Bool.true_and, Bool.false_eq_true]

section
variable (x : Sheet) (own : Option (BitVec 32)) (stamp : BitVec 32) (w : Nat) (v : Word)

/-- A word of a block leaves a sheet alone: it does not hold the word, or its own block in flight carries it with a later stamp. -/
def Passes : Prop :=
  x.held.getLsbD (w / 32) = false
    ∨ x.state = .releasing ∧ x.sent.getLsbD w = true ∧ ∃ o, own = some o ∧ stampBefore stamp o = true

theorem applyWord_of_passes (h : Passes x own stamp w) : applyWord x own stamp w v = x := by
  rcases h with h | ⟨hstate, hsent, o, rfl, hlate⟩
  · exact if_pos (by rw [h]; rfl)
  · unfold applyWord
    split
    · rfl
    · exact if_pos (by simp [hstate, hsent, hlate])

theorem applyWord_of_takes (h : ¬Passes x own stamp w) : applyWord x own stamp w v
    = if x.state = .clean then { x with work := putWord x.work w v, poison := x.poison &&& ~~~(1#64 <<< w) }
      else { x with
        twin := putWord x.twin w v,
        work := if sheetWord x.work w = sheetWord x.twin w then putWord x.work w v else x.work,
        poison := if sheetWord x.work w = sheetWord x.twin w then x.poison &&& ~~~(1#64 <<< w) else x.poison } := by
  unfold applyWord
  rw [if_neg fun hheld => h (.inl (by simpa using hheld)), if_neg fun hlate => h (.inr ?_)]
  · simp only [decide_eq_true_eq]
  · simp only [Bool.and_eq_true, decide_eq_true_eq] at hlate
    obtain ⟨⟨hstate, hsent⟩, hstamp⟩ := hlate
    cases own with
    | none => exact nomatch hstamp
    | some o => exact ⟨hstate, hsent, o, rfl, hstamp⟩

/-- A block's word changes the words of a sheet and their poison alone. -/
theorem applyWord_frame : (applyWord x own stamp w v).sheet = x.sheet ∧ (applyWord x own stamp w v).state = x.state
    ∧ (applyWord x own stamp w v).held = x.held ∧ (applyWord x own stamp w v).sent = x.sent := by
  by_cases h : Passes x own stamp w
  · rw [applyWord_of_passes x own stamp w v h]
    exact ⟨rfl, rfl, rfl, rfl⟩
  · rw [applyWord_of_takes x own stamp w v h]
    split <;> exact ⟨rfl, rfl, rfl, rfl⟩

variable {w} (hw : w < 64)
include hw

open scoped Classical in
theorem work_applyWord (k : Nat) : sheetWord (applyWord x own stamp w v).work k
    = if k = w ∧ ¬Passes x own stamp w ∧ (x.state = .clean ∨ sheetWord x.work w = sheetWord x.twin w) then v else sheetWord x.work k := by
  by_cases h : Passes x own stamp w
  · simp [applyWord_of_passes x own stamp w v h, h]
  · rw [applyWord_of_takes x own stamp w v h]
    by_cases hclean : x.state = .clean
    · simp [hclean, h, sheetWord_putWord x.work hw]
    · by_cases hsame : sheetWord x.work w = sheetWord x.twin w <;> simp [hclean, hsame, h, sheetWord_putWord x.work hw]

open scoped Classical in
theorem twin_applyWord (k : Nat) : sheetWord (applyWord x own stamp w v).twin k
    = if k = w ∧ ¬Passes x own stamp w ∧ x.state ≠ .clean then v else sheetWord x.twin k := by
  by_cases h : Passes x own stamp w
  · simp [applyWord_of_passes x own stamp w v h, h]
  · rw [applyWord_of_takes x own stamp w v h]
    by_cases hclean : x.state = .clean <;> simp [hclean, h, sheetWord_putWord x.twin hw]

end

/-! ## A block word by word (R309) -/

/-- Two sheets agree in a word and in all that decides how a block's word meets it. -/
structure Agrees (k : Nat) (x y : Sheet) : Prop where
  state : y.state = x.state
  held : y.held = x.held
  sent : y.sent = x.sent
  work : sheetWord y.work k = sheetWord x.work k
  twin : sheetWord y.twin k = sheetWord x.twin k

theorem Agrees.refl (k : Nat) (x : Sheet) : Agrees k x x := ⟨rfl, rfl, rfl, rfl, rfl⟩

theorem Agrees.trans {k : Nat} {x y z : Sheet} (h : Agrees k x y) (h' : Agrees k y z) : Agrees k x z :=
  ⟨h'.state.trans h.state, h'.held.trans h.held, h'.sent.trans h.sent, h'.work.trans h.work, h'.twin.trans h.twin⟩

section
variable (own : Option (BitVec 32)) (stamp : BitVec 32)

/-- Another word of a block leaves a word as it is. -/
theorem agrees_applyWord (x : Sheet) {w : Nat} (hw : w < 64) (v : Word) {k : Nat} (hk : k ≠ w) : Agrees k x (applyWord x own stamp w v) := by
  obtain ⟨-, hstate, hheld, hsent⟩ := applyWord_frame x own stamp w v
  exact ⟨hstate, hheld, hsent, (work_applyWord x own stamp v hw k).trans (if_neg fun h => hk h.1),
    (twin_applyWord x own stamp v hw k).trans (if_neg fun h => hk h.1)⟩

/-- What a block's word makes of a word depends on that word alone. -/
theorem Agrees.applyWord {x y : Sheet} {w : Nat} (h : Agrees w x y) (hw : w < 64) (v : Word) :
    Agrees w (applyWord x own stamp w v) (applyWord y own stamp w v) := by
  obtain ⟨-, hstate, hheld, hsent⟩ := applyWord_frame x own stamp w v
  obtain ⟨-, hstate', hheld', hsent'⟩ := applyWord_frame y own stamp w v
  have hpasses : Passes y own stamp w = Passes x own stamp w := by rw [Passes, Passes, h.state, h.held, h.sent]
  refine ⟨hstate'.trans (h.state.trans hstate.symm), hheld'.trans (h.held.trans hheld.symm), hsent'.trans (h.sent.trans hsent.symm), ?_, ?_⟩
  · rw [work_applyWord x own stamp v hw, work_applyWord y own stamp v hw, hpasses, h.state, h.work, h.twin]
  · rw [twin_applyWord x own stamp v hw, twin_applyWord y own stamp v hw, hpasses, h.state, h.twin]

/-- A sheet that has met a block's word (R260, R309). -/
def metSheet (tick : Nat) (w : Nat × Word) (x : Sheet) : Sheet :=
  let y := Machine.applyWord x own stamp (w.1 % 64) w.2
  if y.work = x.work then y else y.delay tick (byteSpan 256 (4 * (w.1 % 64)) 4)

theorem metSheet_sheet (tick : Nat) (w : Nat × Word) (x : Sheet) : (metSheet own stamp tick w x).sheet = x.sheet := by
  obtain ⟨hsheet, -⟩ := applyWord_frame x own stamp (w.1 % 64) w.2
  simp only [metSheet]
  split <;> exact hsheet

theorem agrees_metSheet (tick : Nat) (w : Nat × Word) (x : Sheet) (k : Nat) :
    Agrees k (applyWord x own stamp (w.1 % 64) w.2) (metSheet own stamp tick w x) := by
  simp only [metSheet]
  split <;> exact ⟨rfl, rfl, rfl, rfl, rfl⟩

/-- One word of a block at a die. -/
def wordAt (die span : Nat) (s : State) (w : Nat × Word) : State :=
  match findSheet (getDie s die) (16 * span + w.1 / 64) with
  | none => s
  | some x => putSheet s die (metSheet own stamp s.tick w x)

variable (die span : Nat)

/-- A block's word leaves every sheet but its own. -/
theorem findSheet_wordAt_ne (s : State) (w : Nat × Word) {sh : Nat} (h : 16 * span + w.1 / 64 ≠ sh) :
    findSheet (getDie (wordAt own stamp die span s w) die) sh = findSheet (getDie s die) sh := by
  unfold wordAt
  split
  · rfl
  · rename_i x hx
    rw [findSheet_putSheet, metSheet_sheet, sheet_of_findSheet hx, if_neg h.symm]

theorem findSheet_wordAt (s : State) (w : Nat × Word) {x : Sheet} (h : findSheet (getDie s die) (16 * span + w.1 / 64) = some x) :
    findSheet (getDie (wordAt own stamp die span s w) die) (16 * span + w.1 / 64) = some (metSheet own stamp s.tick w x) := by
  unfold wordAt
  rw [h]
  exact (findSheet_putSheet s die _ _).trans (if_pos (by rw [metSheet_sheet, sheet_of_findSheet h]))

/-- A word that a block does not carry stays as it is. -/
theorem foldl_wordAt_away {key : Nat} {words : List (Nat × Word)} (haway : key ∉ words.map fun w => w.1) {s : State} {x : Sheet}
    (hx : findSheet (getDie s die) (16 * span + key / 64) = some x) :
    ∃ y, findSheet (getDie (words.foldl (wordAt own stamp die span) s) die) (16 * span + key / 64) = some y ∧ Agrees (key % 64) x y := by
  induction words generalizing s x with
  | nil => exact ⟨x, hx, .refl _ x⟩
  | cons w words ih =>
    rw [List.map_cons, List.mem_cons, not_or] at haway
    by_cases hsheet : 16 * span + w.1 / 64 = 16 * span + key / 64
    · obtain ⟨z, hz, hrest⟩ := ih haway.2 (hsheet ▸ findSheet_wordAt own stamp die span s w (hsheet ▸ hx))
      have hother : key % 64 ≠ w.1 % 64 := fun h => haway.1 (by omega)
      exact ⟨z, hz, (agrees_applyWord own stamp x (Nat.mod_lt _ (by decide)) w.2 hother).trans
        ((agrees_metSheet own stamp s.tick w x _).trans hrest)⟩
    · exact ih haway.2 ((findSheet_wordAt_ne own stamp die span s w hsheet).trans hx)

/-- Each word of a block stands in its sheet as the rule of one word gives it. -/
theorem foldl_wordAt_carried {words : List (Nat × Word)} (hnodup : (words.map fun w => w.1).Nodup) {w : Nat × Word} (hw : w ∈ words)
    {s : State} {x : Sheet} (hx : findSheet (getDie s die) (16 * span + w.1 / 64) = some x) :
    ∃ y, findSheet (getDie (words.foldl (wordAt own stamp die span) s) die) (16 * span + w.1 / 64) = some y
      ∧ Agrees (w.1 % 64) (applyWord x own stamp (w.1 % 64) w.2) y := by
  obtain ⟨before, after, rfl⟩ := List.append_of_mem hw
  rw [List.map_append, List.map_cons, List.nodup_append, List.nodup_cons] at hnodup
  obtain ⟨-, ⟨hafter, -⟩, hbefore⟩ := hnodup
  obtain ⟨y, hy, hxy⟩ := foldl_wordAt_away own stamp die span (fun h => hbefore w.1 h w.1 (List.mem_cons_self ..) rfl) hx
  obtain ⟨z, hz, hyz⟩ := foldl_wordAt_away own stamp die span hafter (findSheet_wordAt own stamp die span _ w hy)
  rw [List.foldl_append, List.foldl_cons]
  exact ⟨z, hz, (hxy.applyWord own stamp (Nat.mod_lt _ (by decide)) w.2).trans ((agrees_metSheet own stamp _ w y _).trans hyz)⟩

/-- A block changes nothing of the state but its die. -/
theorem wordAt_eq (s : State) (w : Nat × Word) : wordAt own stamp die span s w = { s with dies := (wordAt own stamp die span s w).dies } := by
  unfold wordAt
  split <;> rfl

theorem round_wordAt (s : State) (w : Nat × Word) : (getDie (wordAt own stamp die span s w) die).round = (getDie s die).round := by
  unfold wordAt
  split
  · rfl
  · rw [putSheet, getDie_modDie]
    split <;> rfl

end

theorem applyDiff_eq (s : State) (die : Nat) (b : Diff) :
    applyDiff s die b = b.words.foldl (wordAt (flightStamp (getDie s die) b.span).join b.stamp die b.span) s := by
  unfold applyDiff
  cases flightStamp (getDie s die) b.span <;> rfl

/-- A block that a die applies changes nothing of the state but the die. -/
theorem applyDiff_dies (s : State) (die : Nat) (b : Diff) : applyDiff s die b = { s with dies := (applyDiff s die b).dies } := by
  rw [applyDiff_eq]
  refine List.foldlRecOn b.words _ (motive := fun t : State => t = { s with dies := t.dies }) rfl fun t ht w _ => ?_
  rw [wordAt_eq, ht]

theorem round_applyDiff (s : State) (die : Nat) (b : Diff) : (getDie (applyDiff s die b) die).round = (getDie s die).round := by
  rw [applyDiff_eq]
  exact List.foldlRecOn b.words _ (motive := fun t => (getDie t die).round = (getDie s die).round) rfl
    fun t ht w _ => (round_wordAt _ _ die _ t w).trans ht

/-! ## The leases that an acknowledgement waits for (R311) -/

theorem le_foldl_max {α : Type} (f : α → Nat) (l : List α) (n : Nat) : n ≤ l.foldl (fun n x => max n (f x)) n :=
  List.foldlRecOn l _ (motive := fun m => n ≤ m) (Nat.le_refl n) fun _ h _ _ => h.trans (Nat.le_max_left ..)

theorem leasesOn_le (s : State) (die : Nat) (b : Diff) : s.tick ≤ (leasesOn s die b).1 ∧ (leasesOn s die b).1 ≤ (leasesOn s die b).2 := by
  refine ⟨le_foldl_max .., List.foldlRecOn s.clusters _ (motive := fun m => (leasesOn s die b).1 ≤ m) (Nat.le_refl _) fun n h c _ => ?_⟩
  split
  · refine List.foldlRecOn c.lines _ (motive := fun m => (leasesOn s die b).1 ≤ m) h fun n h x _ => ?_
    split
    · exact h.trans (Nat.le_max_left ..)
    · exact h
  · exact h

/-! ## Held blocks (R310) -/

theorem releaseHeld_eq (s : State) (die home span : Nat) : ∃ dies, releaseHeld s die home span = { s with
    dies := dies, fwds := s.fwds.map fun f => if fwdTo home die .held f && decide (f.d.span = span) then arrived s f else f } := by
  unfold releaseHeld
  refine List.foldlRecOn _ _ (motive := fun t : State => ∃ dies, t = { s with
    dies := dies, fwds := s.fwds.map fun f => if fwdTo home die .held f && decide (f.d.span = span) then arrived s f else f })
    ⟨s.dies, rfl⟩ fun t ht f _ => ?_
  obtain ⟨dies, rfl⟩ := ht
  exact ⟨_, applyDiff_dies _ die f.d⟩

theorem round_releaseHeld (s : State) (die home span : Nat) : (getDie (releaseHeld s die home span) die).round = (getDie s die).round := by
  unfold releaseHeld
  exact List.foldlRecOn _ _ (motive := fun t => (getDie t die).round = (getDie s die).round) rfl
    fun t ht f _ => (round_applyDiff t die f.d).trans ht

theorem fwdTo_iff {home die : Nat} {st : FwdStage} {f : Fwd} : fwdTo home die st f = true ↔ f.home = home ∧ f.die = die ∧ f.stage = st := by
  simp [fwdTo, and_assoc]

/-- No block of the span is held once the held ones have been applied. -/
theorem not_held_releaseHeld (s : State) (die home span : Nat) :
    ∀ f ∈ (releaseHeld s die home span).fwds, ¬(f.home = home ∧ f.die = die ∧ f.stage = .held ∧ f.d.span = span) := by
  obtain ⟨dies, h⟩ := releaseHeld_eq s die home span
  rw [h]
  intro f hf ⟨hhome, hdie, hstage, hspan⟩
  obtain ⟨f, -, rfl⟩ := List.mem_map.mp hf
  split at hstage
  · exact nomatch hstage
  · rename_i hnot
    rw [if_neg hnot] at hhome hdie hspan
    exact hnot (by rw [fwdTo_iff.mpr ⟨hhome, hdie, hstage⟩]; simpa using hspan)

end Sys2Proof.Machine

namespace Sys2Proof
open Machine

/-! ## SHARER_APPLY, STAMP_NOTICE and SHARER_ACK -/

section
variable {s : State} {die home : Nat} {f : Fwd} {rest : List Fwd} (hfwds : s.fwds = f :: rest) (hhome : f.home = home) (hdie : f.die = die)
include hfwds hhome hdie

theorem modFwd_first (hsent : f.stage = .sent) (g : Fwd → Fwd) : modFwd (fwdTo home die .sent) g s.fwds = g f :: rest := by
  rw [hfwds, modFwd, if_pos (fwdTo_iff.mpr ⟨hhome, hdie, hsent⟩)]

theorem exec_sharerApply (hsent : f.stage = .sent) (hvalue : valueBefore s home die f.seq = false) (hreach : homeReach s die home = true) :
    exec (.sharerApply die home) s = .next (if flightStamp (getDie s die) f.d.span = some none then
        { s with fwds := { f with stage := .held } :: rest }
      else applyDiff { s with fwds := arrived s f :: rest } die f.d) := by
  have hfirst : s.fwds.find? (fwdTo home die .sent) = some f := by
    rw [hfwds, List.find?_cons_of_pos (fwdTo_iff.mpr ⟨hhome, hdie, hsent⟩)]
  show execSharerApply die home s = _
  unfold execSharerApply
  rw [hfirst]
  simp only [hvalue, hreach, modFwd_first hfwds hhome hdie hsent, Bool.not_true, Bool.or_false, Bool.false_eq_true, if_false]
  split <;> rfl

/-- A block that is not held is applied (R309, R311). -/
theorem sharerApply_applied (hsent : f.stage = .sent) (hvalue : valueBefore s home die f.seq = false) (hreach : homeReach s die home = true)
    (hknown : flightStamp (getDie s die) f.d.span ≠ some none) :
    ∃ t n k, exec (.sharerApply die home) s = .next t ∧ t.fwds = { f with stage := .applied, until_ := n, ackAt := k } :: rest
      ∧ s.tick ≤ n ∧ n ≤ k ∧ t.mem = s.mem
      ∧ ((f.d.words.map fun w => w.1).Nodup → ∀ w ∈ f.d.words, w.1 < 1024 →
        ∀ x, findSheet (getDie s die) (16 * f.d.span + w.1 / 64) = some x →
          ∃ y, findSheet (getDie t die) (16 * f.d.span + w.1 / 64) = some y ∧ y.state = x.state ∧ y.held = x.held
            ∧ sheetWord y.work (w.1 % 64)
              = sheetWord (applyWord x (flightStamp (getDie s die) f.d.span).join f.d.stamp (w.1 % 64) w.2).work (w.1 % 64)
            ∧ sheetWord y.twin (w.1 % 64)
              = sheetWord (applyWord x (flightStamp (getDie s die) f.d.span).join f.d.stamp (w.1 % 64) w.2).twin (w.1 % 64)) := by
  obtain ⟨hticks, hleases⟩ := leasesOn_le s f.die f.d
  refine ⟨_, (leasesOn s f.die f.d).1, (leasesOn s f.die f.d).2,
    (exec_sharerApply hfwds hhome hdie hsent hvalue hreach).trans (congrArg _ (if_neg hknown)), ?_, hticks, hleases, ?_, ?_⟩
  · rw [applyDiff_dies]
    rfl
  · rw [applyDiff_dies]
  · intro hnodup w hw _ x hx
    rw [applyDiff_eq]
    obtain ⟨y, hy, hagrees⟩ := foldl_wordAt_carried (flightStamp (getDie s die) f.d.span).join f.d.stamp die f.d.span hnodup hw
      (s := { s with fwds := arrived s f :: rest }) hx
    obtain ⟨-, hstate, hheld, -⟩ := applyWord_frame x (flightStamp (getDie s die) f.d.span).join f.d.stamp (w.1 % 64) w.2
    exact ⟨y, hy, hagrees.state.trans hstate, hagrees.held.trans hheld, hagrees.work, hagrees.twin⟩

theorem exec_sharerAck (happlied : f.stage = .applied) (hleases : f.ackAt ≤ s.tick) (hreach : homeReach s die home = true) :
    exec (.sharerAck die home) s = .next { s with fwds := rest } := by
  have hready : (fwdTo home die .applied f && decide (f.ackAt ≤ s.tick)) = true := by
    rw [fwdTo_iff.mpr ⟨hhome, hdie, happlied⟩]
    simpa using hleases
  have hall : (s.fwds.any (fun f => fwdTo home die .applied f && decide (f.ackAt ≤ s.tick)) && homeReach s die home) = true := by
    rw [hfwds, List.any_cons, hready, hreach]
    rfl
  show execSharerAck die home s = _
  unfold execSharerAck
  rw [if_pos hall, hfwds, execSharerAck.removeFirst, if_pos hready]

end

/-- A round that learns the stamp of its block of a span (R310). -/
def Machine.Round.learn (r : Round) (span : Nat) (st : BitVec 32) : Round :=
  { r with spans := r.spans.map fun x => if x.1 = span then (x.1, some st) else x }

/-- A die whose round learns a stamp. -/
def learned (s : State) (die span : Nat) (st : BitVec 32) : State :=
  modDie s die fun d => { d with round := d.round.map fun r => r.learn span st }

/-- A notice of a stamp ends the wait of its span (R310). -/
theorem stampNotice_spec {s : State} {die home span : Nat} {st : BitVec 32} {rest : List Msg} {r : Round}
    (hmsgs : s.msgs = .stampNotice home die span st :: rest) (hround : (getDie s die).round = some r) (hreach : homeReach s die home = true) :
    ∃ t r', exec (.stampNotice die home) s = .next t ∧ t.msgs = rest ∧ (getDie t die).round = some r'
      ∧ r'.spans = (r.spans.map fun x => if x.1 = span then (x.1, some st) else x)
      ∧ ∀ f ∈ t.fwds, ¬(f.home = home ∧ f.die = die ∧ f.stage = .held ∧ f.d.span = span) := by
  have hexec : exec (.stampNotice die home) s = .next (releaseHeld (learned { s with msgs := rest } die span st) die home span) := by
    show execStampNotice die home s = _
    unfold execStampNotice
    rw [if_neg (by rw [hreach]; simp), hmsgs]
    simp only [takeMsg, and_self, if_true]
    rfl
  refine ⟨_, r.learn span st, hexec, ?_, ?_, rfl, not_held_releaseHeld _ die home span⟩
  · obtain ⟨dies, h⟩ := releaseHeld_eq (learned { s with msgs := rest } die span st) die home span
    rw [h]
    rfl
  · rw [round_releaseHeld, learned, getDie_modDie]
    exact congrArg (Option.map _) hround

/-! ## One word (R309, R310) -/

theorem applyWord_spec (x : Sheet) (own : Option (BitVec 32)) (stamp : BitVec 32) {w : Nat} (v : Word) (hw : w < 64)
    (hheld : x.held.getLsbD (w / 32) = true) :
    (x.state = .clean → sheetWord (applyWord x own stamp w v).work w = v)
    ∧ (x.state = .twinned → sheetWord (applyWord x own stamp w v).twin w = v
        ∧ sheetWord (applyWord x own stamp w v).work w = if sheetWord x.work w = sheetWord x.twin w then v else sheetWord x.work w)
    ∧ (∀ o, x.state = .releasing → x.sent.getLsbD w = true → own = some o → stampBefore stamp o = true →
        applyWord x own stamp w v = x)
    ∧ ∀ k < 64, k ≠ w → sheetWord (applyWord x own stamp w v).work k = sheetWord x.work k
        ∧ sheetWord (applyWord x own stamp w v).twin k = sheetWord x.twin k := by
  have htakes : x.state ≠ .releasing → ¬Passes x own stamp w := fun hstate h =>
    h.elim (fun h => by simp [hheld] at h) fun h => hstate h.1
  refine ⟨fun hclean => ?_, fun htwinned => ⟨?_, ?_⟩, fun o hstate hsent hown hlate => ?_, fun k _ hk => ?_⟩
  · exact (work_applyWord x own stamp v hw w).trans (if_pos ⟨rfl, htakes (by simp [hclean]), .inl hclean⟩)
  · exact (twin_applyWord x own stamp v hw w).trans (if_pos ⟨rfl, htakes (by simp [htwinned]), by simp [htwinned]⟩)
  · rw [work_applyWord x own stamp v hw w]
    simp [htwinned, htakes]
  · exact applyWord_of_passes x own stamp w v (.inr ⟨hstate, hsent, o, hown, hlate⟩)
  · have hagrees := agrees_applyWord own stamp x hw v hk
    exact ⟨hagrees.work, hagrees.twin⟩

/-- Settles O38: a block meets its sheets word by word, and the two word lemmas say what one word does. -/
theorem sharersApply : Obligations.SharersApply := by
  refine ⟨⟨fun s die home f rest hfwds hhome hdie hsent hvalue hreach => ⟨fun hwaits => ?_, fun hknown => ?_⟩,
    fun s die home span st rest r hmsgs hround hreach => stampNotice_spec hmsgs hround hreach,
    fun s die home f rest hfwds hhome hdie happlied hleases hreach => exec_sharerAck hfwds hhome hdie happlied hleases hreach⟩,
    fun x own stamp w v hw hheld => applyWord_spec x own stamp v hw hheld⟩
  · exact (exec_sharerApply hfwds hhome hdie hsent hvalue hreach).trans (congrArg _ (if_pos hwaits))
  · exact sharerApply_applied hfwds hhome hdie hsent hvalue hreach hknown

end Sys2Proof

/-!
What a home does in a release round (11_page R302-R306, R313): the words of a block, and the writes that it folds into the sharers.
-/
namespace Sys2Proof.Machine

/-! ## Lists -/

/-- What one step of a fold establishes and no other step breaks stands at its end. -/
theorem foldl_establishes {α σ : Type} {f : σ → α → σ} {P Q : σ → Prop} {l : List α} {x : α} (hx : x ∈ l) (hnodup : l.Nodup)
    (hP : ∀ s, ∀ y ∈ l, P s → P (f s y)) (hstep : ∀ s, P s → Q (f s x))
    (hkeep : ∀ s, ∀ y ∈ l, y ≠ x → P s → Q s → Q (f s y)) {s : σ} (hs : P s) : Q (l.foldl f s) := by
  obtain ⟨before, after, rfl⟩ := List.append_of_mem hx
  have hapart : x ∉ after := (List.nodup_cons.mp (List.nodup_append.mp hnodup).2.1).1
  have hmem : ∀ y ∈ after, y ∈ before ++ x :: after := fun y hy => List.mem_append_right _ (List.mem_cons_of_mem _ hy)
  have hbefore : P (before.foldl f s) :=
    List.foldlRecOn before f hs fun s h y hy => hP s y (List.mem_append_left _ hy) h
  rw [List.foldl_append, List.foldl_cons]
  refine (List.foldlRecOn after f (motive := fun s => P s ∧ Q s) ⟨hP _ x hx hbefore, hstep _ hbefore⟩ fun s h y hy => ?_).2
  exact ⟨hP s y (hmem y hy) h.1, hkeep s y (hmem y hy) (fun hyx => hapart (hyx ▸ hy)) h.1 h.2⟩

theorem isSome_of_length_filterMap {α β : Type} {f : α → Option β} {l : List α} (h : (l.filterMap f).length = l.length) :
    ∀ a ∈ l, (f a).isSome = true := by
  induction l with
  | nil => exact nofun
  | cons a l ih =>
    have hle := List.length_filterMap_le f l
    cases ha : f a with
    | none =>
      rw [List.filterMap_cons_none ha, List.length_cons] at h
      omega
    | some b =>
      rw [List.filterMap_cons_some ha, List.length_cons, List.length_cons] at h
      exact List.forall_mem_cons.mpr ⟨by rw [ha]; rfl, ih (Nat.succ_inj.mp h)⟩

/-- The j-th part of a list of parts of one length. -/
theorem take_drop_flatMap {α β : Type} {f : α → List β} {n : Nat} (hf : ∀ a, (f a).length = n) {l : List α} {j : Nat} (hj : j < l.length) :
    ((l.flatMap f).drop (n * j)).take n = f l[j] := by
  induction l generalizing j with
  | nil => exact absurd hj (Nat.not_lt_zero _)
  | cons a l ih =>
    rw [List.flatMap_cons]
    cases j with
    | zero => rw [Nat.mul_zero, List.drop_zero, List.take_append_of_le_length (hf a).ge, List.take_of_length_le (hf a).le]; rfl
    | succ j =>
      rw [show n * (j + 1) = (f a).length + n * j by rw [hf, Nat.mul_succ, Nat.add_comm], List.drop_length_add_append]
      exact ih (Nat.lt_of_succ_lt_succ hj)

theorem length_flatMap_same {α β : Type} {f : α → List β} {n : Nat} (hf : ∀ a, (f a).length = n) (l : List α) :
    (l.flatMap f).length = n * l.length := by
  induction l with
  | nil => rfl
  | cons a l ih => rw [List.flatMap_cons, List.length_append, hf, ih, List.length_cons, Nat.mul_succ, Nat.add_comm]

/-! ## Words of a span at its home (R305) -/

/-- A part of what has been written reads back. -/
theorem cellsRead_cellsWrite_part {m : List Host.Cell} (w : Memory.wf m = true) (a : Nat) {l : List Byte} {i n : Nat} (h : i + n ≤ l.length) :
    cellsRead (cellsWrite m a l) (a + i) n = (l.drop i).take n := by
  apply List.ext_getElem
  · simp [cellsRead]
    omega
  · intro j hj _
    have hj : j < n := by simpa [cellsRead] using hj
    simp only [cellsRead, List.getElem_map, List.getElem_range, List.getElem_take, List.getElem_drop]
    rw [cellGet_cellsWrite w, if_pos (by omega), show a + i + j - a = i + j by omega, List.getD_eq_getElem _ _ (by omega)]

/-- The home of a span can be written (R322), and its bytes stand where their addresses say (R317). -/
structure Writable (s : State) (span : Nat) : Prop where
  still : s.migrations = []
  canonical : Memory.wf s.mem = true
  alive : homeLost s (homeOf (4096 * span)) = false

section
variable {s : State} {span : Nat} (h : Writable s span)
include h

theorem Writable.mem_homeWrite {off : Nat} (hoff : off < 4096) (l : List Byte) :
    (homeWrite s (4096 * span + off) l).mem = cellsWrite s.mem (4096 * span + off) l :=
  homeWrite_mem h.still (by rw [homeOf_inSpan span hoff]; exact h.alive) l

theorem Writable.homeWrite {off : Nat} (hoff : off < 4096) (l : List Byte) : Writable (homeWrite s (4096 * span + off) l) span where
  still := by rw [homeWrite_eq]; exact h.still
  canonical := by rw [h.mem_homeWrite hoff]; exact Memory.wf_cellsWrite h.canonical _ _
  alive := by rw [homeWrite_eq]; exact h.alive

end

/-- A word of a span stands at its home. -/
def WordStands (span : Nat) (w : Nat × Word) (s : State) : Prop :=
  natOfBytes (cellsRead s.mem (4096 * span + 4 * w.1) 4) = w.2.toNat

theorem natOfBytes_word (v : Word) : natOfBytes (bytesOfNat 4 v.toNat) = v.toNat := by
  rw [natOfBytes_bytesOfNat]
  exact Nat.mod_eq_of_lt v.isLt

/-- One word of a block is written. -/
def wordStep (span : Nat) (s : State) (w : Nat × Word) : State := homeWrite s (4096 * span + 4 * w.1) (bytesOfNat 4 w.2.toNat)

/-- The words of one line of a block are written. -/
def lineStep (span : Nat) (words : List (Nat × Word)) (s : State) (k : Nat) : State :=
  match wholeLine words k with
  | some b => homeWrite s (4096 * span + 128 * k) b
  | none => (words.filter fun w => decide (w.1 / 32 = k)).foldl (wordStep span) s

theorem writeWords_eq (s : State) (span : Nat) (words : List (Nat × Word)) :
    writeWords s span words = (List.range 32).foldl (lineStep span words) s := rfl

theorem find?_word {words : List (Nat × Word)} (hnodup : (words.map fun w => w.1).Nodup) {w : Nat × Word} (hw : w ∈ words) {key : Nat}
    (hkey : w.1 = key) : (words.find? fun x => decide (x.1 = key)) = some w := by
  cases hfind : words.find? fun x => decide (x.1 = key) with
  | none => exact absurd (List.find?_eq_none.mp hfind w hw) (by simp [hkey])
  | some x =>
    have hx : x.1 = key := by simpa using List.find?_some hfind
    rw [List.inj_on_of_nodup_map hnodup (List.mem_of_find?_eq_some hfind) hw (hx.trans hkey.symm)]

section
variable {span : Nat} {words : List (Nat × Word)}

/-- The bytes of a line that a block carries whole. -/
theorem wholeLine_spec {k : Nat} {b : List Byte} (hb : wholeLine words k = some b) : b.length = 128
    ∧ ((words.map fun w => w.1).Nodup → ∀ w ∈ words, w.1 / 32 = k → (b.drop (4 * (w.1 % 32))).take 4 = bytesOfNat 4 w.2.toNat) := by
  simp only [wholeLine] at hb
  split at hb
  case isFalse => exact nomatch hb
  case isTrue hlen =>
  rw [← Option.some.inj hb]
  have hbytes : ∀ w : Nat × Word, (bytesOfNat 4 w.2.toNat).length = 4 := fun w => length_bytesOfNat ..
  refine ⟨by rw [length_flatMap_same hbytes, hlen], fun hnodup w hw hk => ?_⟩
  have hsome := isSome_of_length_filterMap (hlen.trans (List.length_range ..).symm)
  have hj : w.1 % 32 < 32 := Nat.mod_lt _ (by decide)
  have hmap : ((List.range 32).filterMap fun j => words.find? fun w => decide (w.1 = 32 * k + j))
      = (List.range 32).map fun j => (words.find? fun w => decide (w.1 = 32 * k + j)).getD w :=
    List.filterMap_eq_map_iff_forall_eq_some.mpr fun j hj => by
      obtain ⟨x, hx⟩ := Option.isSome_iff_exists.mp (hsome j hj)
      rw [hx]
      rfl
  rw [take_drop_flatMap hbytes (hj.trans_eq hlen.symm)]
  simp only [hmap, List.getElem_map, List.getElem_range, find?_word hnodup hw (show w.1 = 32 * k + w.1 % 32 by omega), Option.getD_some]

/-- A line's step keeps its span writable and every byte outside the line. -/
theorem lineStep_writable {s : State} (h : Writable s span) {k : Nat} (hk : k < 32) : Writable (lineStep span words s k) span
    ∧ ∀ a, a < 4096 * span + 128 * k ∨ 4096 * span + 128 * k + 128 ≤ a → cellGet (lineStep span words s k).mem a = cellGet s.mem a := by
  unfold lineStep
  split
  · rename_i b hb
    obtain ⟨hlen, -⟩ := wholeLine_spec hb
    refine ⟨h.homeWrite (by omega) b, fun a ha => ?_⟩
    rw [h.mem_homeWrite (by omega), cellGet_cellsWrite_outside h.canonical _ _ _ (by rw [hlen]; exact ha)]
  · refine List.foldlRecOn _ _ (motive := fun t : State => Writable t span ∧ ∀ a, a < 4096 * span + 128 * k
      ∨ 4096 * span + 128 * k + 128 ≤ a → cellGet t.mem a = cellGet s.mem a) ⟨h, fun _ _ => rfl⟩ fun t ht w hw => ?_
    obtain ⟨hwritable, hoff⟩ := ht
    have hline : w.1 / 32 = k := by simpa using (List.mem_filter.mp hw).2
    have hin : 4 * w.1 < 4096 := by omega
    refine ⟨hwritable.homeWrite hin _, fun a ha => ?_⟩
    rw [wordStep, hwritable.mem_homeWrite hin, cellGet_cellsWrite_outside hwritable.canonical _ _ _ (by rw [length_bytesOfNat]; omega)]
    exact hoff a ha

variable (hnodup : (words.map fun w => w.1).Nodup)
include hnodup

/-- The words of a line stand at the home after the line's step. -/
theorem wordStands_lineStep {s : State} (h : Writable s span) {w : Nat × Word} (hw : w ∈ words) (hlt : w.1 < 1024) :
    WordStands span w (lineStep span words s (w.1 / 32)) := by
  unfold lineStep
  split
  · rename_i b hb
    obtain ⟨hlen, hbytes⟩ := wholeLine_spec hb
    have haddr : 4096 * span + 4 * w.1 = 4096 * span + 128 * (w.1 / 32) + 4 * (w.1 % 32) := by omega
    rw [WordStands, h.mem_homeWrite (by omega), haddr, cellsRead_cellsWrite_part h.canonical _ (by omega), hbytes hnodup w hw rfl]
    exact natOfBytes_word w.2
  · have hin : w ∈ words.filter fun x => decide (x.1 / 32 = w.1 / 32) := List.mem_filter.mpr ⟨hw, by simp⟩
    have hlow : ∀ x ∈ words.filter fun x => decide (x.1 / 32 = w.1 / 32), 4 * x.1 < 4096 := fun x hx => by
      have := (List.mem_filter.mp hx).2
      simp only [decide_eq_true_eq] at this
      omega
    refine foldl_establishes (P := fun t => Writable t span) hin (hnodup.of_map.filter _) (fun t x hx ht => ht.homeWrite (hlow x hx) _)
      (fun t ht => ?_) (fun t x hx hne ht hstands => ?_) h
    · show WordStands span w (homeWrite _ _ _)
      rw [WordStands, ht.mem_homeWrite (hlow w hin), natOfBytes_cellsWrite ht.canonical]
      exact Nat.mod_eq_of_lt w.2.isLt
    · have hkey : x.1 ≠ w.1 := fun heq => hne (List.inj_on_of_nodup_map hnodup (List.mem_of_mem_filter hx) hw heq)
      show WordStands span w (homeWrite _ _ _)
      rw [WordStands, ht.mem_homeWrite (hlow x hx),
        cellsRead_cellsWrite_apart ht.canonical _ _ (by rw [length_bytesOfNat]; omega)]
      exact hstands

/-- The words of a block stand at the home once they are written (R305). -/
theorem wordStands_writeWords {s : State} (h : Writable s span) {w : Nat × Word} (hw : w ∈ words) (hlt : w.1 < 1024) :
    WordStands span w (writeWords s span words) := by
  rw [writeWords_eq]
  refine foldl_establishes (P := fun t => Writable t span) (x := w.1 / 32) (List.mem_range.mpr (by omega)) List.nodup_range
    (fun t k hk ht => (lineStep_writable ht (List.mem_range.mp hk)).1) (fun t ht => wordStands_lineStep hnodup ht hw hlt)
    (fun t k hk hne ht hstands => ?_) h
  obtain ⟨-, hout⟩ := lineStep_writable (words := words) ht (List.mem_range.mp hk)
  have hread : cellsRead (lineStep span words t k).mem (4096 * span + 4 * w.1) 4 = cellsRead t.mem (4096 * span + 4 * w.1) 4 :=
    List.map_congr_left fun i hi => hout _ (by have := List.mem_range.mp hi; omega)
  rw [WordStands, hread]
  exact hstands

end

/-- A block that is written changes memory and its marks alone. -/
theorem writeWords_mem (s : State) (span : Nat) (words : List (Nat × Word)) :
    ∃ mem poison, writeWords s span words = { s with mem := mem, poison := poison } := by
  have hword : ∀ (t : State) (a : Nat) (b : List Byte), (∃ mem poison, t = { s with mem := mem, poison := poison }) →
      ∃ mem poison, homeWrite t a b = { s with mem := mem, poison := poison } := by
    rintro _ a b ⟨mem, poison, rfl⟩
    exact ⟨_, _, homeWrite_eq _ a b⟩
  rw [writeWords_eq]
  refine List.foldlRecOn _ _ (motive := fun t : State => ∃ mem poison, t = { s with mem := mem, poison := poison }) ⟨s.mem, s.poison, rfl⟩
    fun t ht k _ => ?_
  unfold lineStep
  split
  · exact hword t _ _ ht
  · exact List.foldlRecOn _ _ (motive := fun t : State => ∃ mem poison, t = { s with mem := mem, poison := poison }) ht
      fun u hu w _ => hword u _ _ hu

/-! ## Fold-ins (R304, R313) -/

/-- What a fold-in carries for a write that the home has performed: `FoldedIn` for one write and one sharer. -/
def FoldsIn (s : State) (home : Nat) (rounds : List Nat) (u : Unfolded) (j : Nat) (f : Fwd) : Prop :=
  ∃ b : Diff, f.home = home ∧ f.die = j ∧ f.stage = .sent ∧ f.wire = b.wire ∧ b.span = spanOf u.addr ∧ b.foldIn = true
    ∧ (∀ o ∈ u.ops, o ∈ f.ops) ∧ (∀ d ∈ rounds, d ∈ f.round)
    ∧ ∀ w < 1024, u.addr < 4096 * b.span + 4 * w + 4 → 4096 * b.span + 4 * w < u.addr + u.size →
        (w, BitVec.ofNat 32 (homeNat s (4096 * b.span + 4 * w) 4)) ∈ b.words

/-- Dies that share the page of a write. -/
def Shares (s : State) (u : Unfolded) (j : Nat) : Prop :=
  j < 8 ∧ (findHomePage s (granule (4096 * spanOf u.addr))).sharers.getLsbD j = true

/-- A state in which the home has folded in the writes of some spans: of the rest of the state its stamps and numbers alone have moved,
and fold-ins are on their way. -/
structure Folds (s t : State) (home : Nat) (spans : List Nat) (rounds : List Nat) (new : List Fwd) : Prop where
  frame : ∃ stamps uid, t = { s with
    unfolded := s.unfolded.filter fun u => !(decide (u.home = home) && decide (spanOf u.addr ∈ spans)),
    fwds := s.fwds ++ new, stamps := stamps, nextUid := uid }
  sent : ∀ u ∈ s.unfolded, u.home = home → spanOf u.addr ∈ spans → ∀ j, Shares s u j → ∃ f ∈ new, FoldsIn s home rounds u j f

theorem mem_unfoldedWords {l : List Unfolded} {u : Unfolded} (hu : u ∈ l) {span w : Nat} (hw : w < 1024) (hlo : u.addr < 4096 * span + 4 * w + 4)
    (hhi : 4096 * span + 4 * w < u.addr + u.size) : w ∈ unfoldedWords l span :=
  List.mem_filter.mpr ⟨List.mem_range.mpr hw, List.any_eq_true.mpr ⟨u, hu, by simp [hlo, hhi]⟩⟩

theorem mem_sharersOf {m : BitVec 8} {j : Nat} (hj : j < 8) (h : m.getLsbD j = true) : j ∈ sharersOf m :=
  List.mem_filter.mpr ⟨List.mem_range.mpr hj, h⟩

/-- The writes of a span that its home has not folded in. -/
def unfoldedOf (s : State) (home span : Nat) : List Unfolded :=
  s.unfolded.filter fun u => decide (u.home = home) && decide (spanOf u.addr = span)

/-- A word of a span with the home's value. -/
def foldInWord (s : State) (span w : Nat) : Nat × Word := (w, BitVec.ofNat 32 (homeNat s (4096 * span + 4 * w) 4))

/-- The fold-in of a span (R304). -/
def foldInBlock (s : State) (home span : Nat) : Diff :=
  { span := span, source := home, foldIn := true, stamp := stampOf s home + 1#32,
    words := (unfoldedWords (unfoldedOf s home span) span).map (foldInWord s span) }

/-- The fold-in of a span on its way to a sharer. -/
def foldInTo (s : State) (home span : Nat) (rounds : List Nat) (j : Nat) : Fwd :=
  { home := home, die := j, wire := (foldInBlock s home span).wire, round := rounds,
    ops := distinct ((unfoldedOf s home span).flatMap fun u => u.ops), stage := .sent, seq := s.nextUid, until_ := 0, ackAt := 0 }

@[simp] theorem foldInBlock_span (s : State) (home span : Nat) : (foldInBlock s home span).span = span := rfl

theorem foldInBlock_words (s : State) (home span : Nat) :
    (foldInBlock s home span).words = (unfoldedWords (unfoldedOf s home span) span).map (foldInWord s span) := by rw [foldInBlock]

theorem mem_unfoldedOf {s : State} {home span : Nat} {u : Unfolded} :
    u ∈ unfoldedOf s home span ↔ u ∈ s.unfolded ∧ u.home = home ∧ spanOf u.addr = span := by
  simp [unfoldedOf, List.mem_filter]

theorem foldsIn_foldInTo {s : State} {home : Nat} {u : Unfolded} (hu : u ∈ s.unfolded) (hhome : u.home = home) (rounds : List Nat) (j : Nat) :
    FoldsIn s home rounds u j (foldInTo s home (spanOf u.addr) rounds j) := by
  have hin : u ∈ unfoldedOf s home (spanOf u.addr) := mem_unfoldedOf.mpr ⟨hu, hhome, rfl⟩
  refine ⟨foldInBlock s home (spanOf u.addr), rfl, rfl, rfl, rfl, rfl, rfl, fun o ho => ?_, fun d hd => hd, fun w hw hlo hhi => ?_⟩
  · exact mem_distinct.mpr (List.mem_flatMap.mpr ⟨u, hin, ho⟩)
  · rw [foldInBlock_span] at hlo hhi ⊢
    have hword := List.mem_map_of_mem (f := foldInWord s (spanOf u.addr)) (mem_unfoldedWords (span := spanOf u.addr) hin hw hlo hhi)
    rw [foldInBlock_words]
    exact hword

theorem foldSpan_eq (s : State) (home span : Nat) (rounds : List Nat) : foldSpan s home span rounds
    = if unfoldedOf s home span = [] then s
      else if sharersOf (findHomePage s (granule (4096 * span))).sharers = [] then
        { s with unfolded := s.unfolded.filter fun u => !(decide (u.home = home) && decide (spanOf u.addr = span)) }
      else
        { s with
          unfolded := s.unfolded.filter fun u => !(decide (u.home = home) && decide (spanOf u.addr = span)),
          fwds := s.fwds ++ (sharersOf (findHomePage s (granule (4096 * span))).sharers).map (foldInTo s home span rounds),
          stamps := (nextStamp s home).1.stamps, nextUid := s.nextUid + 1 } := rfl

/-- FOLD_IN of one span (R304, R313). -/
theorem folds_foldSpan (s : State) (home span : Nat) (rounds : List Nat) : ∃ new, Folds s (foldSpan s home span rounds) home [span] rounds new := by
  have hsel : (fun u : Unfolded => !(decide (u.home = home) && decide (spanOf u.addr ∈ [span])))
      = fun u => !(decide (u.home = home) && decide (spanOf u.addr = span)) := by simp
  rw [foldSpan_eq]
  split
  case isTrue hnone =>
    have hnot : ∀ u ∈ s.unfolded, ¬(u.home = home ∧ spanOf u.addr = span) := fun u hu hin =>
      absurd (mem_unfoldedOf.mpr ⟨hu, hin⟩) (by rw [hnone]; exact List.not_mem_nil)
    have hkept : (s.unfolded.filter fun u => !(decide (u.home = home) && decide (spanOf u.addr = span))) = s.unfolded :=
      List.filter_eq_self.mpr fun u hu => by simpa using not_and_or.mp (hnot u hu)
    refine ⟨[], ⟨⟨s.stamps, s.nextUid, ?_⟩, fun u hu hhome hspan => absurd ⟨hhome, List.mem_singleton.mp hspan⟩ (hnot u hu)⟩⟩
    rw [hsel, hkept, List.append_nil]
  case isFalse =>
    split
    case isTrue hdies =>
      refine ⟨[], ⟨⟨s.stamps, s.nextUid, by rw [hsel, List.append_nil]⟩, fun u _ _ hspan j ⟨hj, hshares⟩ => ?_⟩⟩
      rw [List.mem_singleton.mp hspan] at hshares
      exact absurd (mem_sharersOf hj hshares) (by rw [hdies]; exact List.not_mem_nil)
    case isFalse =>
      refine ⟨_, ⟨⟨_, _, by rw [hsel]⟩, fun u hu hhome hspan j ⟨hj, hshares⟩ => ?_⟩⟩
      obtain rfl := List.mem_singleton.mp hspan
      exact ⟨_, List.mem_map_of_mem (mem_sharersOf hj hshares), foldsIn_foldInTo hu hhome rounds j⟩

/-- Spans that are folded in one after the other. -/
theorem Folds.cons {s t u : State} {home span : Nat} {spans rounds : List Nat} {new more : List Fwd} (h : Folds s t home [span] rounds new)
    (h' : Folds t u home spans rounds more) : Folds s u home (span :: spans) rounds (new ++ more) := by
  obtain ⟨stamps, uid, rfl⟩ := h.frame
  obtain ⟨stamps', uid', rfl⟩ := h'.frame
  refine ⟨⟨stamps', uid', ?_⟩, fun v hv hhome hspan j hj => ?_⟩
  · have hrest : ((s.unfolded.filter fun u => !(decide (u.home = home) && decide (spanOf u.addr ∈ [span]))).filter
        fun u => !(decide (u.home = home) && decide (spanOf u.addr ∈ spans)))
        = s.unfolded.filter fun u => !(decide (u.home = home) && decide (spanOf u.addr ∈ span :: spans)) := by
      rw [List.filter_filter]
      refine List.filter_congr fun u _ => ?_
      by_cases hhome : u.home = home <;> by_cases hspan : spanOf u.addr = span <;> simp [hhome, hspan]
    rw [hrest, List.append_assoc]
  · by_cases hfirst : spanOf v.addr = span
    · obtain ⟨f, hf, hin⟩ := h.sent v hv hhome (by simpa using hfirst) j hj
      exact ⟨f, List.mem_append_left _ hf, hin⟩
    · obtain ⟨f, hf, hin⟩ := h'.sent v (List.mem_filter.mpr ⟨hv, by simp [hfirst]⟩) hhome (List.mem_of_ne_of_mem hfirst hspan) j hj
      exact ⟨f, List.mem_append_right _ hf, hin⟩

theorem folds_foldl (s : State) (home : Nat) (spans rounds : List Nat) :
    ∃ new, Folds s (spans.foldl (fun s sp => foldSpan s home sp rounds) s) home spans rounds new := by
  induction spans generalizing s with
  | nil => exact ⟨[], ⟨⟨s.stamps, s.nextUid, by simp⟩, fun u _ _ hspan => absurd hspan List.not_mem_nil⟩⟩
  | cons span spans ih =>
    obtain ⟨new, h⟩ := folds_foldSpan s home span rounds
    obtain ⟨more, h'⟩ := ih (foldSpan s home span rounds)
    exact ⟨new ++ more, h.cons h'⟩

/-- A fold-in of the home on its way for which the round of a die waits too (R302). -/
def awaited (home die : Nat) (f : Fwd) : Fwd :=
  if f.home = home ∧ f.d.foldIn ∧ !f.round.contains die then { f with round := f.round ++ [die] } else f

theorem awaited_keeps (home die : Nat) (f : Fwd) : (awaited home die f).home = f.home ∧ (awaited home die f).die = f.die
    ∧ (awaited home die f).wire = f.wire ∧ ∀ d ∈ f.round, d ∈ (awaited home die f).round := by
  unfold awaited
  split
  · exact ⟨rfl, rfl, rfl, fun d hd => List.mem_append_left _ hd⟩
  · exact ⟨rfl, rfl, rfl, fun d hd => hd⟩

/-- Spans in which the home has performed writes that it has not folded in. -/
def openSpans (s : State) (home : Nat) : List Nat :=
  distinct ((s.unfolded.filter fun u => decide (u.home = home)).map fun u => spanOf u.addr)

theorem mem_openSpans {s : State} {home : Nat} {u : Unfolded} (hu : u ∈ s.unfolded) (hhome : u.home = home) : spanOf u.addr ∈ openSpans s home :=
  mem_distinct.mpr (List.mem_map.mpr ⟨u, List.mem_filter.mpr ⟨hu, by simpa using hhome⟩, rfl⟩)

/-- Before it acknowledges a round the home folds in all that it has performed (R302). -/
theorem folds_foldAll (s : State) (home die : Nat) :
    ∃ new, Folds { s with fwds := s.fwds.map (awaited home die) } (foldAll s home die) home (openSpans s home) [die] new :=
  folds_foldl _ home (openSpans s home) [die]

section
variable {s t : State} {home : Nat} {spans rounds : List Nat} {new : List Fwd} (h : Folds s t home spans rounds new)
include h

theorem Folds.mem : t.mem = s.mem := by
  obtain ⟨_, _, rfl⟩ := h.frame
  rfl

theorem Folds.owed : t.owed = s.owed := by
  obtain ⟨_, _, rfl⟩ := h.frame
  rfl

theorem Folds.msgs : t.msgs = s.msgs := by
  obtain ⟨_, _, rfl⟩ := h.frame
  rfl

theorem Folds.fwds : t.fwds = s.fwds ++ new := by
  obtain ⟨_, _, rfl⟩ := h.frame
  rfl

theorem Folds.unfolded {u : Unfolded} (hu : u ∈ t.unfolded) : u ∈ s.unfolded ∧ ¬(u.home = home ∧ spanOf u.addr ∈ spans) := by
  obtain ⟨_, _, rfl⟩ := h.frame
  obtain ⟨hmem, hnot⟩ := List.mem_filter.mp hu
  exact ⟨hmem, not_and_or.mpr (by simpa using hnot)⟩

theorem Folds.foldedIn {sel : Nat → Prop} (hsel : ∀ u ∈ s.unfolded, u.home = home → sel (spanOf u.addr) → spanOf u.addr ∈ spans) :
    FoldedIn s t home sel rounds := by
  intro u hu hhome hspan j hj hshares
  obtain ⟨f, hf, hin⟩ := h.sent u hu hhome (hsel u hu hhome hspan) j ⟨hj, hshares⟩
  exact ⟨f, h.fwds ▸ List.mem_append_right _ hf, hin⟩

end

/-- What a home has folded in before it acknowledges. -/
structure FoldedAll (s t : State) (home die : Nat) : Prop where
  mem : t.mem = s.mem
  owed : t.owed = s.owed
  msgs : t.msgs = s.msgs
  unfolded : ∀ u ∈ t.unfolded, u.home ≠ home
  foldedIn : FoldedIn s t home (fun _ => True) [die]
  fwds : ∀ f ∈ s.fwds, awaited home die f ∈ t.fwds

theorem foldedAll_foldAll (s : State) (home die : Nat) : FoldedAll s (foldAll s home die) home die := by
  obtain ⟨new, h⟩ := folds_foldAll s home die
  refine ⟨h.mem, h.owed, h.msgs, fun u hu hhome => ?_,
    h.foldedIn (sel := fun _ => True) fun u hu hhome _ => mem_openSpans hu hhome, fun f hf => ?_⟩
  · obtain ⟨hmem, hnot⟩ := h.unfolded hu
    exact hnot ⟨hhome, mem_openSpans hmem hhome⟩
  · rw [h.fwds]
    exact List.mem_append_left _ (List.mem_map_of_mem hf)

/-! ## What the home owes, and whom it sends a block (R302, R306) -/

theorem oweAck_eq (s : State) (home die : Nat) : oweAck s home die = { s with owed := (oweAck s home die).owed } := by
  unfold oweAck
  split <;> rfl

theorem mem_owed_oweAck (s : State) (home die : Nat) : ({ home := home, die := die } : OwedAck) ∈ (oweAck s home die).owed := by
  unfold oweAck
  split
  · exact List.contains_iff_mem.mp ‹_›
  · exact List.mem_append_right _ (List.mem_singleton_self _)

theorem forwardBlock_of_still {s : State} (h : s.migrations = []) (home src : Nat) (d : Diff) : forwardBlock s home src d
    = forward s home d ((sharersOf (findHomePage s (granule (4096 * d.span))).sharers).filter fun j => decide (j ≠ src)) [src] [] := by
  simp [forwardBlock, aliasesOf, h]

theorem forwardBlock_frame {s : State} (h : s.migrations = []) (home src : Nat) (d : Diff) :
    (forwardBlock s home src d).mem = s.mem ∧ (forwardBlock s home src d).msgs = s.msgs := by
  rw [forwardBlock_of_still h]
  exact ⟨rfl, rfl⟩

/-- The block on its way to a sharer. -/
def forwarded (s : State) (home src : Nat) (d : Diff) (j : Nat) : Fwd :=
  { home := home, die := j, wire := d.wire, round := [src], ops := [], stage := .sent, seq := s.nextUid, until_ := 0, ackAt := 0 }

theorem mem_fwds_forwardBlock {s : State} (h : s.migrations = []) (home src : Nat) (d : Diff) {j : Nat} (hj : j < 8) (hne : j ≠ src)
    (hshares : (findHomePage s (granule (4096 * d.span))).sharers.getLsbD j = true) :
    forwarded s home src d j ∈ (forwardBlock s home src d).fwds := by
  rw [forwardBlock_of_still h]
  exact List.mem_append_right _ (List.mem_map_of_mem (f := forwarded s home src d)
    (List.mem_filter.mpr ⟨mem_sharersOf hj hshares, by simpa using hne⟩))

end Sys2Proof.Machine

namespace Sys2Proof
open Machine

/-! ## HOME_APPLY_BLOCK (R305, R306) -/

/-- A home that has written a block and told the releasing die its stamp. -/
def appliedAt (s : State) (home src : Nat) (b : Diff) : State :=
  { writeWords (nextStamp s home).1 b.span b.words with
    msgs := (writeWords (nextStamp s home).1 b.span b.words).msgs ++ [.stampNotice home src b.span (stampOf s home + 1#32)] }

theorem appliedAt_migrations (s : State) (home src : Nat) (b : Diff) : (appliedAt s home src b).migrations = s.migrations := by
  obtain ⟨mem, poison, hwrite⟩ := writeWords_mem (nextStamp s home).1 b.span b.words
  rw [appliedAt, hwrite]
  rfl

theorem appliedAt_homePages (s : State) (home src : Nat) (b : Diff) : (appliedAt s home src b).homePages = s.homePages := by
  obtain ⟨mem, poison, hwrite⟩ := writeWords_mem (nextStamp s home).1 b.span b.words
  rw [appliedAt, hwrite]
  rfl

theorem findHomePage_congr {s t : State} (h : t.homePages = s.homePages) (g : Nat) : findHomePage t g = findHomePage s g := by
  rw [findHomePage, findHomePage, h]

theorem exec_homeApplyBlock {s : State} {home src : Nat} {wire : List Byte} {rest : List Msg} (hmsgs : s.msgs = .block src home wire :: rest)
    (hreach : homeReach s src home = true) : exec (.homeApplyBlock home src) s
      = .next (oweAck (foldAll (forwardBlock (appliedAt { s with msgs := rest } home src (diffOf wire)) home src
          { diffOf wire with stamp := stampOf s home + 1#32 }) home src) home src) := by
  show execHomeApplyBlock home src s = _
  unfold execHomeApplyBlock
  rw [if_neg (by rw [hreach]; simp), hmsgs]
  simp only [takeMsg, and_self, if_true]
  rfl

theorem homeApplyBlock_spec {s : State} {home src : Nat} {wire : List Byte} {b : Diff} {rest : List Msg}
    (hmsgs : s.msgs = .block src home wire :: rest) (hb : b = diffOf wire) (hreach : homeReach s src home = true)
    (hlost : homeLost s (homeOf (4096 * b.span)) = false) (hwf : MemoryCanonical s) (hstill : s.migrations = [])
    (hnodup : (b.words.map fun w => w.1).Nodup) (hlow : ∀ w ∈ b.words, w.1 < 1024) :
    ∃ t, exec (.homeApplyBlock home src) s = .next t
      ∧ .stampNotice home src b.span (stampOf s home + 1#32) ∈ t.msgs ∧ ({ home := home, die := src } : OwedAck) ∈ t.owed
      ∧ (∀ w ∈ b.words, natOfBytes (cellsRead t.mem (4096 * b.span + 4 * w.1) 4) = w.2.toNat)
      ∧ ∀ j < 8, j ≠ src → (findHomePage s (granule (4096 * b.span))).sharers.getLsbD j = true →
          ∃ f ∈ t.fwds, f.home = home ∧ f.die = j ∧ src ∈ f.round ∧ f.wire = { b with stamp := stampOf s home + 1#32 }.wire := by
  obtain ⟨u, hu⟩ : ∃ u, u = appliedAt { s with msgs := rest } home src b := ⟨_, rfl⟩
  obtain ⟨d, hd⟩ : ∃ d, d = { b with stamp := stampOf s home + 1#32 } := ⟨_, rfl⟩
  have hexec := exec_homeApplyBlock hmsgs hreach
  rw [← hb, ← hu, ← hd] at hexec
  have hustill : u.migrations = [] := by rw [hu, appliedAt_migrations]; exact hstill
  have hpages : u.homePages = s.homePages := by rw [hu, appliedAt_homePages]
  obtain ⟨hmem, hmsg⟩ := forwardBlock_frame hustill home src d
  have hall := foldedAll_foldAll (forwardBlock u home src d) home src
  have hwritable : Writable (nextStamp { s with msgs := rest } home).1 b.span := ⟨hstill, hwf, hlost⟩
  refine ⟨_, hexec, ?_, mem_owed_oweAck _ home src, fun w hw => ?_, fun j hj hne hshares => ?_⟩
  · rw [oweAck_eq]
    show _ ∈ (foldAll (forwardBlock u home src d) home src).msgs
    rw [hall.msgs, hmsg, hu]
    exact List.mem_append_right _ (List.mem_singleton_self _)
  · rw [oweAck_eq]
    show natOfBytes (cellsRead (foldAll (forwardBlock u home src d) home src).mem _ 4) = _
    rw [hall.mem, hmem, hu]
    exact wordStands_writeWords hnodup hwritable hw (hlow w hw)
  · have hspan : d.span = b.span := by rw [hd]
    have hsent := mem_fwds_forwardBlock hustill home src d hj hne (by rw [findHomePage_congr hpages, hspan]; exact hshares)
    obtain ⟨hhome, hdie, hwire, hround⟩ := awaited_keeps home src (forwarded u home src d j)
    refine ⟨_, ?_, hhome, hdie, hround src (List.mem_singleton_self _), hwire.trans (congrArg Diff.wire hd)⟩
    rw [oweAck_eq]
    exact hall.fwds _ hsent

/-! ## MARKER_ARRIVAL, FOLD_IN and HOME_ROUND_ACK (R302, R313) -/

theorem exec_markerArrival {s : State} {home src : Nat} {rest : List Msg} (hmsgs : s.msgs = .marker src home :: rest)
    (hreach : homeReach s src home = true) :
    exec (.markerArrival home src) s = .next (oweAck (foldAll { s with msgs := rest } home src) home src) := by
  show execMarkerArrival home src s = _
  unfold execMarkerArrival
  rw [if_neg (by rw [hreach]; simp), hmsgs]
  simp [takeMsg]

theorem markerArrival_spec {s : State} {home src : Nat} {rest : List Msg} (hmsgs : s.msgs = .marker src home :: rest)
    (hreach : homeReach s src home = true) :
    ∃ t, exec (.markerArrival home src) s = .next t ∧ ({ home := home, die := src } : OwedAck) ∈ t.owed ∧ t.mem = s.mem
      ∧ (∀ u ∈ t.unfolded, u.home ≠ home) ∧ FoldedIn s t home (fun _ => True) [src] := by
  have hall := foldedAll_foldAll { s with msgs := rest } home src
  refine ⟨_, exec_markerArrival hmsgs hreach, mem_owed_oweAck _ home src, ?_⟩
  rw [oweAck_eq]
  exact ⟨hall.mem, hall.unfolded, hall.foldedIn⟩

theorem foldIn_spec {s : State} {home span : Nat} {u : Unfolded} (hu : u ∈ s.unfolded) (hhome : u.home = home) (hspan : spanOf u.addr = span) :
    ∃ t, exec (.foldIn home span) s = .next t ∧ t.mem = s.mem
      ∧ (∀ v ∈ t.unfolded, ¬(v.home = home ∧ spanOf v.addr = span)) ∧ FoldedIn s t home (fun x => x = span) [] := by
  obtain ⟨new, h⟩ := folds_foldSpan s home span []
  have hany : s.unfolded.any (fun u => decide (u.home = home) && decide (spanOf u.addr = span)) = true :=
    List.any_eq_true.mpr ⟨u, hu, by simp [hhome, hspan]⟩
  refine ⟨_, if_pos hany, h.mem, fun v hv hin => (h.unfolded hv).2 ⟨hin.1, by simpa using hin.2⟩,
    h.foldedIn (sel := fun x => x = span) fun _ _ _ hsel => by simpa using hsel⟩

section
variable {s : State} {home die : Nat} (howed : ({ home := home, die := die } : OwedAck) ∈ s.owed)
  (hcoming : ∀ b, .block die home b ∉ s.msgs) (hreach : homeReach s die home = true)
include howed hcoming hreach

/-- A home that owes an acknowledgement, with no block of the round on its way, folds in what is left or acknowledges. -/
theorem exec_homeRoundAck : exec (.homeRoundAck home die) s
    = if s.unfolded.any (fun u => decide (u.home = home)) then .next (foldAll s home die)
      else if s.fwds.all (fun f => !(decide (f.home = home) && f.round.contains die)) then
        .next (modDie { s with owed := s.owed.filter fun o => decide (o ≠ { home := home, die := die }) } die fun d =>
          { d with round := d.round.map fun r => { r with homes := r.homes.filter fun h => decide (h ≠ home) } })
      else .next s := by
  have hnone : (s.msgs.any fun m => match m with
      | .block d h _ => decide (d = die) && decide (h = home)
      | _ => false) = false := by
    refine List.any_eq_false.mpr fun m hm hmatch => ?_
    cases m with
    | block d h b =>
      simp only [Bool.and_eq_true, decide_eq_true_eq] at hmatch
      exact hcoming b (hmatch.1 ▸ hmatch.2 ▸ hm)
    | _ => exact nomatch hmatch
  have hgo : ¬(!s.owed.contains { home := home, die := die } || (s.msgs.any fun m => match m with
      | .block d h _ => decide (d = die) && decide (h = home)
      | _ => false) || !homeReach s die home) = true := by
    rw [hnone, List.contains_iff_mem.mpr howed, hreach]
    simp
  exact if_neg hgo

theorem homeRoundAck_folds (hleft : ∃ u ∈ s.unfolded, u.home = home) :
    ∃ t, exec (.homeRoundAck home die) s = .next t ∧ t.mem = s.mem ∧ t.owed = s.owed
      ∧ (∀ u ∈ t.unfolded, u.home ≠ home) ∧ FoldedIn s t home (fun _ => True) [die] := by
  obtain ⟨u, hu, hhome⟩ := hleft
  have hany : s.unfolded.any (fun u => decide (u.home = home)) = true := List.any_eq_true.mpr ⟨u, hu, by simpa using hhome⟩
  have hall := foldedAll_foldAll s home die
  exact ⟨_, (exec_homeRoundAck howed hcoming hreach).trans (if_pos hany), hall.mem, hall.owed, hall.unfolded, hall.foldedIn⟩

theorem homeRoundAck_acks {r : Round} (hround : (getDie s die).round = some r) (hdone : ∀ u ∈ s.unfolded, u.home ≠ home)
    (hacked : ∀ f ∈ s.fwds, f.home = home → die ∉ f.round) :
    ∃ t r', exec (.homeRoundAck home die) s = .next t ∧ ({ home := home, die := die } : OwedAck) ∉ t.owed
      ∧ (getDie t die).round = some r' ∧ home ∉ r'.homes ∧ t.mem = s.mem := by
  have hnone : ¬ s.unfolded.any (fun u => decide (u.home = home)) = true := by simpa using hdone
  have hfwds : s.fwds.all (fun f => !(decide (f.home = home) && f.round.contains die)) = true := by
    simpa [← imp_iff_not_or] using hacked
  refine ⟨_, { r with homes := r.homes.filter fun h => decide (h ≠ home) },
    (exec_homeRoundAck howed hcoming hreach).trans ((if_neg hnone).trans (if_pos hfwds)), ?_, ?_, ?_, rfl⟩
  · simp
  · rw [getDie_modDie]
    exact congrArg (Option.map _) hround
  · simp

end

/-- Settles O37: each event applies, forwards or folds in by the home's own operations, whose lemmas stand above. -/
theorem homesApply : Obligations.HomesApply :=
  ⟨fun _ _ _ _ _ _ hmsgs hb hreach hlost hwf hstill hnodup hlow => homeApplyBlock_spec hmsgs hb hreach hlost hwf hstill hnodup hlow,
    fun _ _ _ _ hmsgs hreach => markerArrival_spec hmsgs hreach, fun _ _ _ _ hu hhome hspan => foldIn_spec hu hhome hspan,
    fun _ _ _ _ howed hround hcoming hreach =>
      ⟨homeRoundAck_folds howed hcoming hreach, homeRoundAck_acks howed hcoming hreach hround⟩⟩

end Sys2Proof

/-!
A compute die whose time base has stopped (17_link R427): its reference counter stands, and what was due by then stays due.
-/
namespace Sys2Proof
open Machine

/-- On a die whose counter stands at `t` exactly those requests have timed out that had done so at `t`. -/
theorem timedOut_of_frozen {s : State} {die t : Nat} (h : (getDie s die).frozen = some t) (since : Nat) :
    timedOut s die since = decide (since + requestLimit ≤ t) := by rw [timedOut, dieTick_frozen h]

/-- The machine after reset, as long after it as a request may take. -/
def lateReset : State := { State.reset with tick := requestLimit }

/-- The same machine as the time base of die 1 stops reaching it. -/
def lateFrozen : State := modDie lateReset 1 fun d => { d with frozen := some lateReset.tick }

theorem lateFrozen_frozen : (getDie lateFrozen 1).frozen = some requestLimit := congrArg Die.frozen (getDie_modDie lateReset 1 _)

/-- A request of die 1 that was sent at tick 0 has timed out when the time base stops, and has still timed out afterwards. -/
theorem timedOut_lateFrozen : timedOut lateFrozen 1 0 = true :=
  (timedOut_of_frozen lateFrozen_frozen 0).trans (decide_eq_true (Nat.zero_add requestLimit).le)

/-- Refutes O60, in its clause that a compute die whose time base has stopped times nothing out, which it asks of requests of any age.
R427 says so of every request while the die is frozen, but the model only stops the counter that a request's age is taken from: one
that was sent 65,536 ticks or more before the stop had timed out by then (R426) and stays so. Here it is a request of die 1, sent at
tick 0, with the time base gone at tick 65,536. -/
theorem not_lossesAndPower : ¬ Obligations.LossesAndPower := by
  intro h
  obtain ⟨⟨_, hcompute⟩, _⟩ := h
  obtain ⟨_, hfreeze, _⟩ := hcompute lateReset 1 (by decide) (by decide)
  obtain ⟨_, hcounts⟩ := hfreeze (by decide)
  obtain ⟨_, hnever⟩ := hcounts requestLimit
  exact absurd timedOut_lateFrozen (by rw [show timedOut lateFrozen 1 0 = false from hnever 0]; decide)

end Sys2Proof

/-!
The walk of a copy chain (R324-R326, R341, R342, R344): what leaves chains and jobs as they are, updates of a chain, the marks in its
entries, its turn, its end, and the events of its entries.
-/
namespace Sys2Proof.Machine

/-! ## What the copy engines hold -/

/-- The chains that are walked, the jobs that have not ended, and the number that the next job takes. -/
def enginePart (s : State) : List Chain × List Job × Nat := (s.chains, s.jobs, s.nextUid)

section
variable {s t : State} (h : enginePart t = enginePart s)
include h

theorem chains_of_enginePart : t.chains = s.chains := congrArg Prod.fst h
theorem jobs_of_enginePart : t.jobs = s.jobs := congrArg (fun x => x.2.1) h
theorem nextUid_of_enginePart : t.nextUid = s.nextUid := congrArg (fun x => x.2.2) h

end

/-- Caches hold neither chains nor jobs. -/
theorem enginePart_of_outsideCaches {s t : State} (h : outsideCaches t = outsideCaches s) : enginePart t = enginePart s :=
  show enginePart (outsideCaches t) = enginePart (outsideCaches s) by rw [h]

@[simp] theorem modCore_engine (s : State) (d k : Nat) (f : CoreSt → CoreSt) : enginePart (modCore s d k f) = enginePart s := by
  unfold modCore; split <;> rfl

@[simp] theorem modCluster_engine (s : State) (d k : Nat) (f : ClusterSt → ClusterSt) : enginePart (modCluster s d k f) = enginePart s := by
  unfold modCluster; split <;> rfl

@[simp] theorem scratchWrite_engine (s : State) (die core pos : Nat) (l : List Byte) :
    enginePart (scratchWrite s die core pos l) = enginePart s := modCore_engine _ _ _ _

@[simp] theorem homeWrite_engine (s : State) (pa : Nat) (l : List Byte) : enginePart (homeWrite s pa l) = enginePart s := by
  rw [homeWrite_eq]; rfl

@[simp] theorem noteUnfolded_engine (s : State) (home n : Nat) (ops : List Nat) (pa : Nat) :
    enginePart (noteUnfolded s home n ops pa) = enginePart s := by
  unfold noteUnfolded; split <;> rfl

/-- A fold of steps that leave the engines' part as it is leaves it. -/
theorem foldl_engine {α : Type} {f : State → α → State} (hf : ∀ s x, enginePart (f s x) = enginePart s) (l : List α) (s : State) :
    enginePart (l.foldl f s) = enginePart s := by
  induction l generalizing s with
  | nil => rfl
  | cons x rest ih => rw [List.foldl_cons, ih, hf]

@[simp] theorem performHome_engine (s : State) (pa : Nat) (l : List Byte) (ops : List Nat) :
    enginePart (performHome s pa l ops) = enginePart s := by
  rw [performHome, foldl_engine (fun _ _ => noteUnfolded_engine _ _ _ _ _), homeWrite_engine]

/-! ## Translations and accesses of the engines and of the device -/

/-- The walk for a leaf, over any routes, caches entries at its die. -/
theorem leafBy_engine (s : State) (reach : Nat → Bool) (die ctx : Nat) (va : BitVec 64) :
    enginePart (leafBy s reach die ctx va).1 = enginePart s := by
  unfold leafBy
  split
  · rfl
  · split <;> rfl

@[simp] theorem translateBy_engine (s : State) (reach : Nat → Bool) (die ctx : Nat) (va : BitVec 64) (n : Nat) (k : Access) :
    enginePart (translateBy s reach die ctx va n k).1 = enginePart s := by
  unfold translateBy
  split
  · rfl
  · dsimp only
    repeat' split
    all_goals exact leafBy_engine _ _ _ _ _

@[simp] theorem translate_engine (s : State) (die ctx : Nat) (va : BitVec 64) (n : Nat) (k : Access) :
    enginePart (translate s die ctx va n k).1 = enginePart s := by
  unfold translate
  split
  · rfl
  · exact translateBy_engine _ _ _ _ _ _ _

@[simp] theorem engineTarget_engine (s : State) (c : Chain) (sp : Nat) (va : BitVec 64) (n : Nat) (k : Access) :
    enginePart (engineTarget s c sp va n k).1 = enginePart s := by
  unfold engineTarget
  split
  · dsimp only
    split <;> exact translate_engine _ _ _ _ _ _
  · split
    · rfl
    · dsimp only
      split <;> rfl
  · split
    · rfl
    · split
      · rfl
      · split <;> rfl

@[simp] theorem engineGet_engine (s : State) (c : Chain) (t : Target) (n : Nat) : enginePart (engineGet s c t n).1 = enginePart s := by
  unfold engineGet
  split
  · rfl
  · exact enginePart_of_outsideCaches (clusterFill_outside _ _ _ _ _ _)
  · rfl
  · split <;> rfl
  all_goals rfl

@[simp] theorem enginePut_engine (s : State) (c : Chain) (t : Target) (l : List Byte) : enginePart (enginePut s c t l) = enginePart s := by
  unfold enginePut
  split
  · exact performHome_engine _ _ _ _
  · exact enginePart_of_outsideCaches (clusterWrite_outside _ _ _ _ _ _ _)
  · exact scratchWrite_engine _ _ _ _ _
  · split
    · exact performHome_engine _ _ _ _
    · rfl
  all_goals rfl

@[simp] theorem entryTarget_engine (s : State) (c : Chain) (a n : Nat) (k : Access) :
    enginePart (entryTarget s c a n k).1 = enginePart s := by
  unfold entryTarget
  split
  · rfl
  · exact engineTarget_engine _ _ _ _ _ _

@[simp] theorem entryWrite_engine (s : State) (c : Chain) (a : Nat) (l : List Byte) : enginePart (entryWrite s c a l) = enginePart s := by
  unfold entryWrite
  dsimp only
  split <;> simp

@[simp] theorem entryRead_engine (s : State) (c : Chain) (a : Nat) : enginePart (entryRead s c a).1 = enginePart s := by
  unfold entryRead
  dsimp only
  split <;> simp

@[simp] theorem entryMixed_engine (s : State) (c : Chain) : enginePart (entryMixed s c).1 = enginePart s := by
  unfold entryMixed entryNow
  dsimp only
  split
  · simp
  · split <;> simp

@[simp] theorem deviceAddr_engine (s : State) (die ctx : Nat) (va : BitVec 64) (n : Nat) (k : Access) :
    enginePart (deviceAddr s die ctx va n k).1 = enginePart s := translateBy_engine _ _ _ _ _ _ _

theorem deviceWrite_engine {s t : State} {die ctx : Nat} {va : BitVec 64} {l : List Byte} (h : deviceWrite s die ctx va l = some t) :
    enginePart t = enginePart s := by
  obtain ⟨pa, -, rfl⟩ := Option.map_eq_some_iff.mp h
  simp

/-! ## Queues of packets -/

theorem putQueue_engine (s : State) (q : Queue) : enginePart (putQueue s q) = enginePart s := rfl

theorem tryQueue_engine {s t : State} {q : Queue} (h : tryQueue s q = some t) : enginePart t = enginePart s := by
  unfold tryQueue at h
  split at h
  · rw [deviceWrite_engine h, putQueue_engine]
  · cases h
    exact putQueue_engine _ _

theorem getD_tryQueue_engine (s : State) (q : Queue) : enginePart ((tryQueue s q).getD (putQueue s q)) = enginePart s := by
  cases h : tryQueue s q with
  | none => exact putQueue_engine _ _
  | some t => exact tryQueue_engine h

@[simp] theorem cancelHead_engine (s : State) (q : Queue) (code : Nat) : enginePart (cancelHead s q code) = enginePart s := by
  unfold cancelHead
  dsimp only
  split
  · exact getD_tryQueue_engine _ _
  · rw [getD_tryQueue_engine]
    exact deviceAddr_engine _ _ _ _ _ _

@[simp] theorem setQueue_engine (s : State) (q : Queue) : enginePart (setQueue s q) = enginePart s := by
  unfold setQueue
  split
  case h_1 h => exact tryQueue_engine h
  case h_2 =>
    split
    · exact putQueue_engine _ _
    · exact cancelHead_engine _ _ _

@[simp] theorem completePacket_engine (s : State) (qn : Nat) (r : Record) : enginePart (completePacket s qn r) = enginePart s := by
  unfold completePacket
  split
  · rfl
  · exact setQueue_engine _ _

/-! ## Updates of a chain -/

theorem findChain_congr {s t : State} (h : t.chains = s.chains) (id : ChainId) : findChain t id = findChain s id := by
  rw [findChain, h]; rfl

theorem findChain_modChain (s : State) (id id' : ChainId) {f : Chain → Chain} (hf : ∀ c, (f c).id = c.id) :
    findChain (modChain s id f) id' = if id' = id then (findChain s id).map f else findChain s id' :=
  find?_map_update Chain.id s.chains id id' f fun c hc => (hf c).trans hc

/-- A chain that is found, after an update of it that keeps its name. -/
theorem findChain_updated {s : State} {id : ChainId} {x : Chain} (h : findChain s id = some x) {f : Chain → Chain} (hf : ∀ c, (f c).id = c.id) :
    findChain (modChain s id f) id = some (f x) := by
  rw [findChain_modChain s id id hf, if_pos rfl, h, Option.map_some]

@[simp] theorem noteWalk_engine (s : State) (id : ChainId) : enginePart (noteWalk s id) = enginePart s := modCluster_engine _ _ _ _

/-- The walk moves on: where it has come from is its last entry. -/
theorem findChain_walkTo {s : State} {c : Chain} (h : findChain s c.id = some c) (a : Int) :
    findChain (walkTo s c a) c.id = some (walkedTo c (a % 2 ^ 64).toNat) := findChain_updated h fun _ => rfl

theorem keepEntry_findChain {s : State} {c : Chain} (h : findChain s c.id = some c) (x : Option EntryRead) :
    findChain (keepEntry s c x) c.id = some { c with seen := x } := findChain_updated h fun _ => rfl

/-- A chain that has failed once more: the first failure's status stays (R198, R329). -/
def failedOnce (status : Nat) (x : Chain) : Chain :=
  { x with faults := x.faults + 1, fail := match x.fail with
      | none => some status
      | some y => some y }

theorem failedOnce_eq (status : Nat) (x : Chain) :
    failedOnce status x = { x with faults := x.faults + 1, fail := some (x.fail.getD status) } := by
  cases h : x.fail <;> simp [failedOnce, h]

/-- A failure of a chain changes the chain and the die group of its block. -/
theorem chainFails_eq (s : State) (c : Chain) (status seq : Nat) :
    chainFails s c status seq = { modChain s c.id (failedOnce status) with groups := (chainFails s c status seq).groups } := by
  unfold chainFails
  dsimp only
  split
  · rfl
  · split <;> rfl

theorem chainFails_frame (s : State) (c : Chain) (status seq : Nat) : (chainFails s c status seq).jobs = s.jobs
    ∧ (chainFails s c status seq).mem = s.mem ∧ (chainFails s c status seq).cores = s.cores := by
  rw [chainFails_eq]; exact ⟨rfl, rfl, rfl⟩

theorem findChain_chainFails {s : State} {c x : Chain} (h : findChain s c.id = some x) (status seq : Nat) :
    findChain (chainFails s c status seq) c.id = some (failedOnce status x) := by
  rw [chainFails_eq]
  exact findChain_updated h fun _ => rfl

end Sys2Proof.Machine

namespace Sys2Proof.Machine

/-! ## Marks in the entries of a block's chain (R326, R329) -/

theorem inAlloc_part {b : Block} {pos n pos' n' : Nat} (h : inAlloc b pos n = true) (hlo : pos ≤ pos') (hhi : pos' + n' ≤ pos + n) :
    inAlloc b pos' n' = true := by
  simp only [inAlloc, Bool.and_eq_true, decide_eq_true_eq] at h ⊢
  omega

/-- The entries of a block's chain lie in the block's allocation: a mark there is a write to its core's scratchpad. -/
theorem entryWrite_of_block {s : State} {c : Chain} {b : Block} {g : GangId} (horigin : c.origin = .block b.uid g) {a : Nat} {l : List Byte}
    (hb : findBlock s b.uid = some b) (hin : inAlloc b a l.length = true) : entryWrite s c a l = scratchWrite s b.die b.core a l := by
  simp only [entryWrite, entryTarget, chainBlock, horigin, hb, hin, if_true, enginePut]

section
variable {s : State} {c : Chain} {u : Nat} {g : GangId} (horigin : c.origin = .block u g)
include horigin

/-- Reading an entry of a block's chain changes nothing. -/
theorem entryRead_of_block (a : Nat) : (entryRead s c a).1 = s := by
  simp only [entryRead, entryTarget, horigin]
  cases chainBlock s c with
  | none => rfl
  | some b =>
    dsimp only
    split
    case h_1 h =>
      obtain ⟨-, h⟩ := Option.ite_none_right_eq_some.mp h
      cases h
      rfl
    case h_2 => rfl

theorem entryMixed_of_block : (entryMixed s c).1 = s := by
  unfold entryMixed entryNow
  dsimp only
  split
  · exact entryRead_of_block horigin _
  · split <;> simp only [entryRead_of_block horigin]

end

/-- A number that fits its bytes reads back whole. -/
theorem scratchNat_scratchWrite_of_lt {s : State} {die core : Nat} (hwf : Memory.wf (getCore s die core).scratch = true) (pos : Nat)
    {n x : Nat} (hx : x < 256 ^ n) : scratchNat (scratchWrite s die core pos (bytesOfNat n x)) die core pos n = x := by
  rw [scratchNat_scratchWrite hwf, Nat.mod_eq_of_lt hx]

theorem scratchNat_congr {s t : State} (h : t.cores = s.cores) (die core pos n : Nat) :
    scratchNat t die core pos n = scratchNat s die core pos n := by
  rw [scratchNat, getCore_congr h]; rfl

end Sys2Proof.Machine

namespace Sys2Proof
open Machine

/-- A mark of `n` bytes in an entry of a block's chain reads back, and no other byte of a scratchpad or of memory has changed. -/
theorem entryWrite_marks {s : State} {c : Chain} {b : Block} {g : GangId} (horigin : c.origin = .block b.uid g)
    (hb : findBlock s b.uid = some b) (hwf : Memory.wf (getCore s b.die b.core).scratch = true) {a n x : Nat}
    (hin : inAlloc b a n = true) (hx : x < 256 ^ n) :
    scratchNat (entryWrite s c a (bytesOfNat n x)) b.die b.core a n = x
      ∧ OnlySpan s (entryWrite s c a (bytesOfNat n x)) b.die b.core a n := by
  rw [entryWrite_of_block horigin hb (by rw [length_bytesOfNat]; exact hin)]
  exact ⟨scratchNat_scratchWrite_of_lt hwf a hx, onlySpan_scratchWrite rfl rfl hwf (length_bytesOfNat _ _)⟩

/-- A mark stays in what follows it without touching a scratchpad or memory. -/
theorem marks_congr {s t u : State} {die core a n x : Nat} (hmem : t.mem = u.mem) (hcores : t.cores = u.cores)
    (h : scratchNat u die core a n = x ∧ OnlySpan s u die core a n) : scratchNat t die core a n = x ∧ OnlySpan s t die core a n :=
  ⟨(scratchNat_congr hcores _ _ _ _).trans h.1, onlySpan_congr hmem hcores h.2⟩

/-! ## A turn of a chain (R326, R342) -/

section
variable {s q : State} {c : Chain} {x : Option EntryRead} {sh : Shape} (hwalks : WalksOn s c q x sh)
include hwalks

theorem WalksOn.halted : c.halted = false := by
  have h := hwalks.can
  simp only [canWalk, Bool.and_eq_true, Bool.not_eq_true'] at h
  exact h.1.1.2

theorem WalksOn.engine : enginePart q = enginePart s := by
  have h := congrArg Prod.fst hwalks.read
  dsimp only at h
  rw [h]
  split
  · rfl
  · exact entryMixed_engine s c

/-- The entry has been read without a change to the chain. -/
theorem WalksOn.find : findChain q c.id = some c := by
  rw [findChain_congr (chains_of_enginePart hwalks.engine), hwalks.here]

/-- A block's chain reads its entry without any change. -/
theorem WalksOn.state_of_block {u : Nat} {g : GangId} (horigin : c.origin = .block u g) : q = s := by
  have h := congrArg Prod.fst hwalks.read
  dsimp only at h
  rw [h]
  split
  · rfl
  · exact entryMixed_of_block horigin

/-- The turn ends in the state that the event makes of what was read. -/
theorem WalksOn.next {f : State → Chain → Option EntryRead → Shape → Option State} {u : State} (hf : f q c x sh = some u) :
    chainStep c.id s f = .next (noteWalk u c.id) := by
  have hread := hwalks.read
  have hopen : (!canWalk s c || !walkTurn s c) = false := by simp [hwalks.can, hwalks.turn]
  cases hseen : c.seen with
  | some e =>
    obtain ⟨rfl, rfl⟩ : q = s ∧ x = some e := by simpa [hseen] using hread
    simp only [chainStep, hwalks.here, hopen, Bool.false_eq_true, if_false, hseen, ← hwalks.shape, hf]
  | none =>
    have hmixed : entryMixed s c = (q, x) := by simpa [hseen] using hread.symm
    simp only [chainStep, hwalks.here, hopen, Bool.false_eq_true, if_false, hseen, hmixed, ← hwalks.shape, hf]

end

end Sys2Proof

namespace Sys2Proof.Machine

/-! ## Where a turn is noted, and where the walk goes -/

@[simp] theorem findChain_noteWalk (s : State) (id id' : ChainId) : findChain (noteWalk s id) id' = findChain s id' :=
  findChain_congr (chains_of_enginePart (noteWalk_engine s id)) id'

@[simp] theorem noteWalk_jobs (s : State) (id : ChainId) : (noteWalk s id).jobs = s.jobs := modCluster_jobs _ _ _ _
@[simp] theorem noteWalk_mem (s : State) (id : ChainId) : (noteWalk s id).mem = s.mem := modCluster_mem _ _ _ _
@[simp] theorem noteWalk_cores (s : State) (id : ChainId) : (noteWalk s id).cores = s.cores := modCluster_cores _ _ _ _
@[simp] theorem noteWalk_gangs (s : State) (id : ChainId) : (noteWalk s id).gangs = s.gangs := modCluster_gangs _ _ _ _
@[simp] theorem noteWalk_tasks (s : State) (id : ChainId) : (noteWalk s id).tasks = s.tasks := modCluster_tasks _ _ _ _

/-- The walk moves on by `k` bytes. -/
theorem findChain_walkTo_add {s : State} {c : Chain} (h : findChain s c.id = some c) (k : Nat) :
    findChain (walkTo s c ((c.at_ : Int) + k)) c.id = some (walkedTo c ((c.at_ + k) % 2 ^ 64)) := findChain_walkTo h _

/-! ## Waiting for what the jobs have written (R240, R247, R402) -/

/-- The tick is noted at which all that stands at the chain's cluster is visible. -/
def awaitQuiet (s : State) (c : Chain) (n : Nat) : State := modChain s c.id fun x => { x with quietAt := some n }

theorem whenQuiet_of_quiet {s : State} {c : Chain} (h : c.quietAt ≠ none ∨ engineSeen s c.id.die c.id.cluster ≤ s.tick) (k : Option State)
    (wait : State → State) : whenQuiet s c k wait = k := by
  unfold whenQuiet
  split
  case h_1 => rfl
  case h_2 hnone => exact if_pos (h.resolve_left fun hsome => hsome hnone)

theorem whenQuiet_of_unseen {s : State} {c : Chain} (hnone : c.quietAt = none) (h : s.tick < engineSeen s c.id.die c.id.cluster)
    (k : Option State) (wait : State → State) :
    whenQuiet s c k wait = some (awaitQuiet (wait s) c (engineSeen s c.id.die c.id.cluster)) := by
  simp only [whenQuiet, hnone, Nat.not_le.mpr h, if_false]
  rfl

/-- A release at system scope begins for the end of a packet's chain. -/
def startRelease (s u : State) (c : Chain) : State :=
  modChain (addTask u (unitTask s c.id.die [c.id.cluster] .sys)) c.id fun x => { x with task := some s.nextUid }

theorem whenReleased_of_block {s : State} {c : Chain} (h : isPacket c = false) (k : Option State) (wait : State → State) :
    whenReleased s c k wait = whenQuiet s c k wait := by simp [whenReleased, h]

theorem whenReleased_of_task {s : State} {c : Chain} (h : isPacket c = true) (htask : c.task ≠ none) (k : Option State)
    (wait : State → State) : whenReleased s c k wait = k := by
  obtain ⟨t, ht⟩ := Option.ne_none_iff_exists'.mp htask
  simp [whenReleased, h, ht]

theorem whenReleased_of_noTask {s : State} {c : Chain} (h : isPacket c = true) (htask : c.task = none) (k : Option State)
    (wait : State → State) : whenReleased s c k wait = some (startRelease s (wait s) c) := by
  simp only [whenReleased, h, htask]
  rfl

theorem findChain_startRelease {s u : State} {c y : Chain} (h : findChain u c.id = some y) :
    findChain (startRelease s u c) c.id = some { y with task := some s.nextUid } :=
  findChain_updated (s := addTask u _) h fun _ => rfl

/-! ## The end of a chain (R247, R326, R396) -/

theorem foldl_gangs {α : Type} {f : State → α → State} (hf : ∀ s x, f s x = { s with gangs := (f s x).gangs }) (l : List α) (s : State) :
    l.foldl f s = { s with gangs := (l.foldl f s).gangs } := by
  induction l generalizing s with
  | nil => rfl
  | cons x rest ih => rw [List.foldl_cons, ih, hf]

/-- As many chains counted, and the same vector and scalar registers: what waking a gang's slots leaves. -/
def SameHolding (y z : Gang) : Prop := z.cp = y.cp ∧ z.arch.v = y.arch.v ∧ z.arch.s = y.arch.s

/-- A gang that is found, after an update of it that keeps its name. -/
theorem findGang_updated {s : State} {id : GangId} {y : Gang} (h : findGang s id = some y) {f : Gang → Gang} (hf : ∀ g, (f g).id = g.id) :
    findGang (modGang s id f) id = some (f y) := by
  rw [findGang_modGang s id id hf, if_pos rfl, h, Option.map_some]

theorem findGang_wakeOrder {s : State} {g : GangId} {y : Gang} (h : findGang s g = some y) (id : GangId) :
    ∃ z, findGang (wakeOrder s id) g = some z ∧ SameHolding y z := by
  by_cases heq : g = id
  · subst heq
    exact ⟨_, findGang_updated h fun _ => rfl, rfl, rfl, rfl⟩
  · refine ⟨y, ?_, rfl, rfl, rfl⟩
    rw [wakeOrder, findGang_modGang, if_neg heq, h]
    exact fun _ => rfl

/-- Waking the gangs of a cluster changes gangs alone. -/
theorem wakeEngine_eq (s : State) (id : ChainId) : wakeEngine s id = { s with gangs := (wakeEngine s id).gangs } :=
  foldl_gangs (fun _ _ => by split <;> rfl) _ _

@[simp] theorem wakeEngine_engine (s : State) (id : ChainId) : enginePart (wakeEngine s id) = enginePart s := by
  rw [wakeEngine_eq]; rfl

theorem findGang_wakeEngine {s : State} {g : GangId} {y : Gang} (h : findGang s g = some y) (id : ChainId) :
    ∃ z, findGang (wakeEngine s id) g = some z ∧ SameHolding y z := by
  unfold wakeEngine
  generalize s.gangs = l
  induction l generalizing s y with
  | nil => exact ⟨y, h, rfl, rfl, rfl⟩
  | cons x rest ih =>
    rw [List.foldl_cons]
    split
    case isTrue =>
      obtain ⟨z, hz, hcp, hv, hs⟩ := findGang_wakeOrder h x.id
      obtain ⟨z', hz', hcp', hv', hs'⟩ := ih hz
      exact ⟨z', hz', hcp'.trans hcp, hv'.trans hv, hs'.trans hs⟩
    case isFalse => exact ih h

/-- A chain that ends leaves the walked ones; no job and no number has changed. -/
theorem endChain_engine (s : State) (c : Chain) :
    enginePart (endChain s c) = (s.chains.filter fun x => decide (x.id ≠ c.id), s.jobs, s.nextUid) := by
  unfold endChain
  dsimp only
  split
  · rw [wakeEngine_engine]; rfl
  · split
    · rw [wakeEngine_engine]; rfl
    · rw [completePacket_engine, wakeEngine_engine]; rfl

theorem findChain_endChain (s : State) (c : Chain) : findChain (endChain s c) c.id = none := by
  have hchains : (endChain s c).chains = s.chains.filter fun x => decide (x.id ≠ c.id) := congrArg Prod.fst (endChain_engine s c)
  simp [findChain, hchains]

theorem endChain_jobs (s : State) (c : Chain) : (endChain s c).jobs = s.jobs := congrArg (fun x => x.2.1) (endChain_engine s c)

theorem endChain_mem_of_block {s : State} {c : Chain} (h : isPacket c = false) : (endChain s c).mem = s.mem := by
  unfold endChain
  dsimp only
  split
  · rw [wakeEngine_eq]; rfl
  · rename_i horigin
    simp [isPacket, horigin] at h

/-- The end of a block's chain lowers its gang's cp by one and leaves its registers. -/
theorem findGang_endChain {s : State} {c : Chain} {u : Nat} {g : GangId} (horigin : c.origin = .block u g) {y : Gang}
    (hy : findGang s g = some y) :
    ∃ z, findGang (endChain s c) g = some z ∧ z.cp = y.cp - 1 ∧ z.arch.v = y.arch.v ∧ z.arch.s = y.arch.s := by
  unfold endChain
  simp only [horigin]
  refine findGang_wakeEngine (y := { y with cp := y.cp - 1 }) ?_ c.id
  exact findGang_updated hy fun _ => rfl

/-! ## Tags -/

theorem tags_setTag (s : State) (die core n : Nat) :
    (getCore (setTag s die core n) die core).tags = (getCore s die core).tags ||| (1#64 <<< (n % 64)) := by
  have hcore := getCore_modCore s die core die core (f := fun c => { c with tags := c.tags ||| (1#64 <<< (n % 64)) }) fun _ => rfl
  rw [if_pos rfl] at hcore
  exact congrArg CoreSt.tags hcore

@[simp] theorem setTag_engine (s : State) (die core n : Nat) : enginePart (setTag s die core n) = enginePart s := modCore_engine _ _ _ _

@[simp] theorem writeBar_engine (s : State) (die core pos : Nat) (b : BarWord) : enginePart (writeBar s die core pos b) = enginePart s :=
  scratchWrite_engine _ _ _ _ _

end Sys2Proof.Machine

namespace Sys2Proof
open Machine

section
variable {s q : State} {c : Chain} {x : Option EntryRead}

theorem WalksOn.find_of_engine {sh : Shape} (hwalks : WalksOn s c q x sh) {u : State} (h : enginePart u = enginePart q) :
    findChain u c.id = some c := (findChain_congr (chains_of_enginePart h) _).trans hwalks.find

/-! ## JOB (R326) -/

/-- A JOB has been accepted: its entry is marked, and the walk has passed it. -/
def acceptedEntry (q : State) (c : Chain) (e : BitVec 1024) : State :=
  let w := entryWrite q c (c.at_ + 4) (bytesOfNat 2 0xFFFF)
  walkTo { w with jobs := w.jobs ++ [newJob w c e], nextUid := w.nextUid + 1 } c ((c.at_ : Int) + 128)

/-- A JOB of a draining chain has been marked CANCELLED, and the walk has passed it. -/
def cancelledEntry (q : State) (c : Chain) : State :=
  walkTo (entryWrite q c (c.at_ + 4) (bytesOfNat 2 stCancelled)) c ((c.at_ : Int) + 128)

section
variable {e : BitVec 1024} (hwalks : WalksOn s c q x (.job e))
include hwalks

theorem WalksOn.exec_jobEntry :
    exec (.jobEntry c.id) s = .next (noteWalk (if c.drain then cancelledEntry q c else acceptedEntry q c e) c.id) := by
  change execJobEntry c.id s = _
  refine hwalks.next ?_
  cases c.drain <;> rfl

theorem WalksOn.jobEntry_accepts (hdrain : c.drain = false) :
    ∃ t j, exec (.jobEntry c.id) s = .next t ∧ t.jobs = q.jobs ++ [j] ∧ j.id = q.nextUid ∧ j.chain = c.id
      ∧ j.card = e ∧ j.state = .accepted ∧ j.entry = c.at_
      ∧ j.src = e.extractLsb' 64 64 + loopShift (enclosing c c.at_) LoopPass.sstep
      ∧ j.dst = e.extractLsb' 128 64 + loopShift (enclosing c c.at_) LoopPass.dstep
      ∧ findChain t c.id = some (walkedTo c ((c.at_ + 128) % 2 ^ 64)) := by
  have hexec := hwalks.exec_jobEntry
  rw [hdrain, if_neg Bool.false_ne_true, acceptedEntry] at hexec
  have hmark := entryWrite_engine q c (c.at_ + 4) (bytesOfNat 2 0xFFFF)
  generalize entryWrite q c (c.at_ + 4) (bytesOfNat 2 0xFFFF) = w at hexec hmark
  have hfind : findChain w c.id = some c := hwalks.find_of_engine hmark
  refine ⟨_, newJob w c e, hexec, ?_, nextUid_of_enginePart hmark, rfl, rfl, rfl, rfl, rfl, rfl, ?_⟩
  · rw [noteWalk_jobs, ← jobs_of_enginePart hmark]
    rfl
  · rw [findChain_noteWalk]
    exact findChain_walkTo_add hfind 128

theorem WalksOn.jobEntry_cancels (hdrain : c.drain = true) :
    ∃ t, exec (.jobEntry c.id) s = .next t ∧ t.jobs = q.jobs ∧ findChain t c.id = some (walkedTo c ((c.at_ + 128) % 2 ^ 64)) := by
  have hmark := entryWrite_engine q c (c.at_ + 4) (bytesOfNat 2 stCancelled)
  refine ⟨_, hwalks.exec_jobEntry, ?_, ?_⟩
  · rw [hdrain, noteWalk_jobs, ← jobs_of_enginePart hmark]
    rfl
  · rw [hdrain, findChain_noteWalk]
    exact findChain_walkTo_add (hwalks.find_of_engine hmark) 128

/-- The STATUS of an accepted or cancelled JOB stands in its entry. -/
theorem WalksOn.jobEntry_marks {b : Block} {g : GangId} (horigin : c.origin = .block b.uid g) (hb : findBlock s b.uid = some b)
    (hin : inAlloc b c.at_ 64 = true) (hwf : Memory.wf (getCore s b.die b.core).scratch = true) {t : State}
    (ht : exec (.jobEntry c.id) s = .next t) :
    scratchNat t b.die b.core (c.at_ + 4) 2 = (if c.drain then 10 else 0xFFFF) ∧ OnlySpan s t b.die b.core (c.at_ + 4) 2 := by
  obtain rfl := hwalks.state_of_block horigin
  have hmark : ∀ n < 256 ^ 2, scratchNat (entryWrite q c (c.at_ + 4) (bytesOfNat 2 n)) b.die b.core (c.at_ + 4) 2 = n
      ∧ OnlySpan q (entryWrite q c (c.at_ + 4) (bytesOfNat 2 n)) b.die b.core (c.at_ + 4) 2 :=
    fun n => entryWrite_marks horigin hb hwf (inAlloc_part hin (by omega) (by omega))
  rw [hwalks.exec_jobEntry] at ht
  cases ht
  cases c.drain with
  | true => exact marks_congr (noteWalk_mem _ _) (noteWalk_cores _ _) (hmark 10 (by decide))
  | false => exact marks_congr (noteWalk_mem _ _) (noteWalk_cores _ _) (hmark 0xFFFF (by decide))

end

/-! ## LOOP (R326) -/

/-- The passes that the walk has made through the body of the LOOP that it has come to. -/
def passesMade (c : Chain) : Nat :=
  match c.loops.find? fun l => decide (l.entry = c.at_) with
  | some l => l.passes
  | none => 0

/-- The other LOOPs in progress. -/
def otherLoops (c : Chain) : List LoopPass := c.loops.filter fun l => decide (l.entry ≠ c.at_)

/-- The LOOP in progress once one more pass begins. -/
def nextPass (c : Chain) (e : BitVec 1024) : LoopPass :=
  { entry := c.at_, target := (chainTarget c (entryInt e 8)).toNat, passes := passesMade c + 1, sstep := e.extractLsb' 128 64,
    dstep := e.extractLsb' 192 64 }

/-- The walk goes to another entry with these LOOPs in progress. -/
def walkInLoops (q : State) (c : Chain) (a : Int) (l : List LoopPass) : State := modChain (walkTo q c a) c.id fun x => { x with loops := l }

theorem findChain_walkInLoops (h : findChain q c.id = some c) (a : Int) (l : List LoopPass) :
    findChain (walkInLoops q c a l) c.id = some { walkedTo c (a % 2 ^ 64).toNat with loops := l } :=
  findChain_updated (findChain_walkTo h a) fun _ => rfl

section
variable {e : BitVec 1024} (hwalks : WalksOn s c q x (.loop e))
include hwalks

theorem WalksOn.exec_loopEntry :
    exec (.loopEntry c.id) s = .next (noteWalk (if c.drain = false ∧ passesMade c < entryBits e 12 0 32
      then walkInLoops q c (chainTarget c (entryInt e 8)) (otherLoops c ++ [nextPass c e])
      else walkInLoops q c ((c.at_ : Int) + 64) (otherLoops c)) c.id) := by
  change execLoopEntry c.id s = _
  refine hwalks.next ?_
  have hgoes : (!c.drain && decide (passesMade c < entryBits e 12 0 32)) = true
      ↔ c.drain = false ∧ passesMade c < entryBits e 12 0 32 := by simp
  by_cases h : c.drain = false ∧ passesMade c < entryBits e 12 0 32
  · exact (if_pos (hgoes.mpr h)).trans (congrArg some (if_pos h).symm)
  · exact (if_neg (mt hgoes.mp h)).trans (congrArg some (if_neg h).symm)

/-- A LOOP changes its chain alone: it goes back while the chain does not drain and passes are left, and on otherwise. -/
theorem WalksOn.loopEntry_walks :
    ∃ t, exec (.loopEntry c.id) s = .next t ∧ t.jobs = q.jobs ∧ t.mem = q.mem
      ∧ (c.drain = false ∧ passesMade c < entryBits e 12 0 32 → findChain t c.id = some
          { walkedTo c (chainTarget c (entryInt e 8) % 2 ^ 64).toNat with loops := otherLoops c ++ [nextPass c e] })
      ∧ (c.drain = true ∨ entryBits e 12 0 32 ≤ passesMade c → findChain t c.id = some
          { walkedTo c ((c.at_ + 64) % 2 ^ 64) with loops := otherLoops c }) := by
  refine ⟨_, hwalks.exec_loopEntry, ?_, ?_, fun hback => ?_, fun hon => ?_⟩
  · rw [noteWalk_jobs]; split <;> rfl
  · rw [noteWalk_mem]; split <;> rfl
  · rw [findChain_noteWalk, if_pos hback]
    exact findChain_walkInLoops hwalks.find _ _
  · have hnot : ¬ (c.drain = false ∧ passesMade c < entryBits e 12 0 32) := by
      rintro ⟨hdrain, hless⟩
      exact hon.elim (fun h => Bool.false_ne_true (hdrain.symm.trans h)) (Nat.not_le.mpr hless)
    rw [findChain_noteWalk, if_neg hnot]
    exact findChain_walkInLoops hwalks.find _ _

end

/-! ## COND (R325, R326) -/

/-- Where a COND goes on: by its branch, or past it. -/
def condTo (c : Chain) (e : BitVec 1024) (w : Nat) : Int :=
  if c.drain = false ∧ (BitVec.ofNat 32 w &&& e.extractLsb' 96 32 = e.extractLsb' 128 32 ↔ e.getLsbD 192 = false)
    then chainTarget c (entryInt e 20) else (c.at_ : Int) + 64

/-- Its test as the walk makes it: on equality, or on inequality where its sense bit is set. -/
theorem condTo_eq (c : Chain) (e : BitVec 1024) (w : Nat) {same : Bool}
    (hsame : same = decide (BitVec.ofNat 32 w &&& e.extractLsb' 96 32 = e.extractLsb' 128 32)) :
    condTo c e w = if (!c.drain && (if e.getLsbD 192 then !same else same)) = true then chainTarget c (entryInt e 20) else (c.at_ : Int) + 64 := by
  subst hsame
  unfold condTo
  congr 1
  cases c.drain <;> cases e.getLsbD 192 <;> simp

section
variable {e : BitVec 1024} (hwalks : WalksOn s c q x (.cond e))
include hwalks

theorem WalksOn.condEntry_waits (hjobs : chainJobs q c.id ≠ []) :
    ∃ t, exec (.condEntry c.id) s = .next t ∧ t.mem = q.mem ∧ findChain t c.id = some { c with seen := x } := by
  refine ⟨noteWalk (keepEntry q c x) c.id, ?_, noteWalk_mem _ _, (findChain_noteWalk _ _ _).trans (keepEntry_findChain hwalks.find x)⟩
  change execCondEntry c.id s = _
  exact hwalks.next (if_pos hjobs)

theorem WalksOn.condEntry_branches {w : Nat} (hjobs : chainJobs q c.id = []) (hword : condWord q c e = some w) :
    ∃ t, exec (.condEntry c.id) s = .next t ∧ t.mem = q.mem
      ∧ findChain t c.id = some (walkedTo c (condTo c e w % 2 ^ 64).toNat) := by
  refine ⟨noteWalk (walkTo q c (condTo c e w)) c.id, ?_, noteWalk_mem _ _,
    (findChain_noteWalk _ _ _).trans (findChain_walkTo hwalks.find _)⟩
  change execCondEntry c.id s = _
  refine hwalks.next ?_
  simp only [hjobs, ne_eq, not_true, if_false, hword, condTo_eq c e w rfl]

end

/-! ## SIGNAL (R240, R341) -/

/-- What a SIGNAL has done to its tag or its barrier word. -/
def signalled (q : State) (c : Chain) : Shape → Option State
  | .tagSignal core n => some (setTag q c.id.die core n)
  | .barSignal die core pos n => some (writeBar q die core pos (Machine.barSignal (readBar q die core pos) n))
  | _ => none

section
variable {sh : Shape} (hwalks : WalksOn s c q x sh) {u : State} (hsignal : signalled q c sh = some u)
include hwalks hsignal

/-- A SIGNAL waits for its chain's jobs, and then until what they have written is visible. -/
theorem WalksOn.exec_signalEntry {v : State}
    (hv : (if chainJobs q c.id ≠ [] then some (keepEntry q c x)
      else whenQuiet q c (some (walkTo u c ((c.at_ : Int) + 64))) fun s => keepEntry s c x) = some v) :
    exec (.signalEntry c.id) s = .next (noteWalk v c.id) := by
  change execSignalEntry c.id s = _
  refine hwalks.next ?_
  cases sh <;> cases hsignal <;> exact hv

theorem WalksOn.exec_signalEntry_over (hjobs : chainJobs q c.id = [])
    (hquiet : c.quietAt ≠ none ∨ engineSeen q c.id.die c.id.cluster ≤ q.tick) :
    exec (.signalEntry c.id) s = .next (noteWalk (walkTo u c ((c.at_ : Int) + 64)) c.id) :=
  hwalks.exec_signalEntry hsignal ((if_neg (not_not.mpr hjobs)).trans (whenQuiet_of_quiet hquiet _ _))

end

theorem findChain_awaitQuiet {y : Chain} (h : findChain q c.id = some y) (n : Nat) :
    findChain (awaitQuiet q c n) c.id = some { y with quietAt := some n } := findChain_updated h fun _ => rfl

/-- The chain while its SIGNAL or END waits: for its jobs, or until what they have written is visible. -/
theorem turn_waits (hfind : findChain q c.id = some c) (hnone : c.quietAt = none) {n : Nat} (hn : n = engineSeen q c.id.die c.id.cluster)
    (hwaits : chainJobs q c.id ≠ [] ∨ q.tick < n) (k : Option State) :
    ∃ v, (if chainJobs q c.id ≠ [] then some (keepEntry q c x) else whenQuiet q c k fun s => keepEntry s c x) = some v ∧ v.mem = q.mem
      ∧ findChain v c.id = some (if chainJobs q c.id ≠ [] then { c with seen := x } else { c with seen := x, quietAt := some n }) := by
  subst hn
  have hkept := keepEntry_findChain hfind x
  by_cases hjobs : chainJobs q c.id ≠ []
  · exact ⟨keepEntry q c x, if_pos hjobs, rfl, hkept.trans (congrArg some (if_pos hjobs).symm)⟩
  · refine ⟨awaitQuiet (keepEntry q c x) c (engineSeen q c.id.die c.id.cluster), ?_, rfl, ?_⟩
    · rw [if_neg hjobs, whenQuiet_of_unseen hnone (hwaits.resolve_left hjobs)]
    · rw [if_neg hjobs]
      exact findChain_awaitQuiet hkept _

/-! ## END (R247, R326, R402) -/

section
variable (hwalks : WalksOn s c q x .fin)
include hwalks

/-- The END of a chain waits for its jobs, and then for what they have written. -/
theorem WalksOn.exec_endEntry {v : State}
    (hv : (if chainJobs q c.id ≠ [] then some (keepEntry q c x)
      else whenReleased q c (some (endChain q c)) fun s => keepEntry s c x) = some v) :
    exec (.endEntry c.id) s = .next (noteWalk v c.id) := by
  change execEndEntry c.id s = _
  rw [execEndEntry, hwalks.here]
  dsimp only
  rw [hwalks.halted, if_neg Bool.false_ne_true]
  exact hwalks.next ((if_neg (not_not.mpr rfl)).trans hv)

theorem WalksOn.endEntry_ends (hjobs : chainJobs q c.id = [])
    (hover : whenReleased q c (some (endChain q c)) (fun s => keepEntry s c x) = some (endChain q c)) :
    exec (.endEntry c.id) s = .next (noteWalk (endChain q c) c.id) ∧ findChain (noteWalk (endChain q c) c.id) c.id = none
      ∧ (noteWalk (endChain q c) c.id).jobs = q.jobs :=
  ⟨hwalks.exec_endEntry ((if_neg (not_not.mpr hjobs)).trans hover), (findChain_noteWalk _ _ _).trans (findChain_endChain q c),
    (noteWalk_jobs _ _).trans (endChain_jobs q c)⟩

theorem WalksOn.endEntry_releases (hjobs : chainJobs q c.id = []) (hpacket : isPacket c = true) (htask : c.task = none) :
    ∃ t, exec (.endEntry c.id) s = .next t ∧ t.mem = q.mem ∧ t.jobs = q.jobs ∧ t.tasks = q.tasks ++ [unitTask q c.id.die [c.id.cluster] .sys]
      ∧ findChain t c.id = some { c with seen := x, task := some q.nextUid } := by
  refine ⟨noteWalk (startRelease q (keepEntry q c x) c) c.id,
    hwalks.exec_endEntry ((if_neg (not_not.mpr hjobs)).trans (whenReleased_of_noTask hpacket htask _ _)), noteWalk_mem _ _,
    noteWalk_jobs _ _, noteWalk_tasks _ _, ?_⟩
  rw [findChain_noteWalk]
  exact findChain_startRelease (keepEntry_findChain hwalks.find x)

end

/-! ## Malformed entries (R326, R329) -/

/-- STATUS 8 and FAULT 4 as one word of the entry. -/
theorem malformed_word : bytesOfNat 2 8 ++ bytesOfNat 2 4 = bytesOfNat 4 0x00040008 := by decide

theorem markMalformed_frame (q : State) (c : Chain) (a : Nat) :
    (markMalformed q c a).mem = (entryWrite q c (a + 4) (bytesOfNat 4 0x00040008)).mem
      ∧ (markMalformed q c a).cores = (entryWrite q c (a + 4) (bytesOfNat 4 0x00040008)).cores := by
  rw [markMalformed, malformed_word]
  exact (chainFails_frame _ _ _ _).2

theorem markMalformed_jobs (c : Chain) (a : Nat) : (markMalformed q c a).jobs = q.jobs := by
  rw [markMalformed, (chainFails_frame _ _ _ _).1, jobs_of_enginePart (entryWrite_engine _ _ _ _)]

theorem findChain_markMalformed (h : findChain q c.id = some c) (a : Nat) :
    findChain (markMalformed q c a) c.id = some { c with faults := c.faults + 1, fail := some (c.fail.getD 8) } :=
  (findChain_chainFails ((findChain_congr (chains_of_enginePart (entryWrite_engine _ _ _ _)) _).trans h) _ _).trans
    (congrArg some (failedOnce_eq _ _))

/-- A malformed entry has been passed: it is marked and counted, and its chain drains. -/
def passedMalformed (q : State) (c : Chain) (job : Bool) : State :=
  walkTo (drainChain (markMalformed q c c.at_) c.id) c ((c.at_ : Int) + (if job then 128 else 64))

/-- The walk has halted past the last entry, which `l` names where there is one. -/
def haltedWalk (q : State) (c : Chain) (l : Option Nat) : State :=
  modChain (match l with
    | some a => markMalformed q c a
    | none => q) c.id fun x => { x with halted := true }

theorem WalksOn.malformedEntry_passes {job : Bool} (hwalks : WalksOn s c q x (.bad job)) :
    ∃ t, exec (.malformedEntry c.id) s = .next t ∧ t.jobs = q.jobs
      ∧ findChain t c.id = some { walkedTo c ((c.at_ + (if job then 128 else 64)) % 2 ^ 64) with
          drain := true, faults := c.faults + 1, fail := some (c.fail.getD 8) }
      ∧ ∀ b g, c.origin = .block b.uid g → findBlock s b.uid = some b → inAlloc b c.at_ 64 = true →
        Memory.wf (getCore s b.die b.core).scratch = true →
          scratchNat t b.die b.core (c.at_ + 4) 4 = 0x00040008 ∧ OnlySpan s t b.die b.core (c.at_ + 4) 4 := by
  refine ⟨noteWalk (passedMalformed q c job) c.id, ?_, ?_, ?_, fun b g horigin hb hin hwf => ?_⟩
  · change execMalformedEntry c.id s = _
    exact hwalks.next rfl
  · rw [noteWalk_jobs]
    exact markMalformed_jobs c c.at_
  · rw [findChain_noteWalk]
    have hdrained : findChain (drainChain (markMalformed q c c.at_) c.id) c.id = some _ :=
      findChain_updated (findChain_markMalformed hwalks.find c.at_) fun _ => rfl
    have hwalked := findChain_updated hdrained (f := fun x => { x with
      at_ := (((c.at_ : Int) + (if job then 128 else 64)) % 2 ^ 64).toNat, last := some c.at_, begun := none, seen := none, quietAt := none })
      fun _ => rfl
    refine hwalked.trans ?_
    cases job <;> rfl
  · obtain rfl := hwalks.state_of_block horigin
    obtain ⟨hmem, hcores⟩ := markMalformed_frame q c c.at_
    exact marks_congr ((noteWalk_mem _ _).trans hmem) ((noteWalk_cores _ _).trans hcores)
      (entryWrite_marks horigin hb hwf (inAlloc_part hin (by omega) (by omega)) (by decide))

theorem WalksOn.malformedEntry_halts (hwalks : WalksOn s c q x .off) :
    ∃ t, exec (.malformedEntry c.id) s = .next t ∧ t.jobs = q.jobs
      ∧ (c.last = none → findChain t c.id = some { c with halted := true })
      ∧ ∀ a, c.last = some a → findChain t c.id = some
          { c with halted := true, faults := c.faults + 1, fail := some (c.fail.getD 8) } := by
  refine ⟨noteWalk (haltedWalk q c c.last) c.id, ?_, ?_, fun hlast => ?_, fun a hlast => ?_⟩
  · change execMalformedEntry c.id s = _
    exact hwalks.next rfl
  · rw [noteWalk_jobs]
    cases c.last with
    | none => rfl
    | some a => exact markMalformed_jobs c a
  · rw [findChain_noteWalk, show haltedWalk q c c.last = haltedWalk q c none by rw [hlast]]
    exact findChain_updated hwalks.find (f := fun x => { x with halted := true }) fun _ => rfl
  · rw [findChain_noteWalk, show haltedWalk q c c.last = haltedWalk q c (some a) by rw [hlast]]
    exact findChain_updated (findChain_markMalformed hwalks.find a) (f := fun x => { x with halted := true }) fun _ => rfl

end

/-! ## The end of a chain whose walk has halted (R326) -/

section
variable {s : State} {c : Chain} (hfind : findChain s c.id = some c) (hhalted : c.halted = true) (hruns : ctxRuns s c.ctx = true)
  (hjobs : chainJobs s c.id = []) (hquiet : c.quietAt.getD 0 ≤ s.tick) (hreleased : chainReleasing s c = false)
include hfind hhalted hruns hjobs hquiet hreleased

theorem exec_endEntry_of_halted {u : State} (hu : whenReleased s c (some (endChain s c)) (fun s => s) = some u) :
    exec (.endEntry c.id) s = .next u := by
  have hgoes : (!ctxRuns s c.ctx || decide (chainJobs s c.id ≠ []) || decide (s.tick < c.quietAt.getD 0) || chainReleasing s c) = false := by
    simp [hruns, hjobs, hquiet, hreleased]
  change execEndEntry c.id s = _
  simp only [execEndEntry, hfind, hhalted, hgoes, hu, if_true, Bool.false_eq_true, if_false]

theorem endEntry_halted_ends
    (hover : isPacket c = false ∧ (c.quietAt ≠ none ∨ engineSeen s c.id.die c.id.cluster ≤ s.tick) ∨ isPacket c = true ∧ c.task ≠ none) :
    ∃ t, exec (.endEntry c.id) s = .next t ∧ findChain t c.id = none := by
  refine ⟨endChain s c, exec_endEntry_of_halted hfind hhalted hruns hjobs hquiet hreleased ?_, findChain_endChain s c⟩
  obtain ⟨hblock, hseen⟩ | ⟨hpacket, htask⟩ := hover
  · rw [whenReleased_of_block hblock, whenQuiet_of_quiet hseen]
  · rw [whenReleased_of_task hpacket htask]

theorem endEntry_halted_releases (hpacket : isPacket c = true) (htask : c.task = none) :
    ∃ t, exec (.endEntry c.id) s = .next t
      ∧ t.tasks = s.tasks ++ [unitTask s c.id.die [c.id.cluster] .sys] ∧ findChain t c.id = some { c with task := some s.nextUid } :=
  ⟨startRelease s s c, exec_endEntry_of_halted hfind hhalted hruns hjobs hquiet hreleased (whenReleased_of_noTask hpacket htask _ _), rfl,
    findChain_startRelease hfind⟩

end

end Sys2Proof

namespace Sys2Proof
open Machine

/-- Settles O46: each event of the walk makes of what its turn has read the state that its lemma above names, and waits for the chain's
jobs and for what these have written as `whenQuiet` and `whenReleased` do. -/
theorem chainEntries : Obligations.ChainEntries := by
  refine ⟨fun s q c x sh hwalks => ⟨?jobs, ?loops, ?conds, ?waits, ?packets, fun hjobs hquiet => ⟨?tags, ?bars, ?ends⟩, ?malformed, ?halts⟩,
    fun s c hfind hhalted hruns hjobs hquiet hreleased =>
      ⟨endEntry_halted_ends hfind hhalted hruns hjobs hquiet hreleased, endEntry_halted_releases hfind hhalted hruns hjobs hquiet hreleased⟩⟩
  case jobs =>
    rintro e rfl
    exact ⟨hwalks.jobEntry_accepts, hwalks.jobEntry_cancels, fun b g horigin hb hin hwf t => hwalks.jobEntry_marks horigin hb hin hwf⟩
  case loops =>
    rintro e n rest rfl rfl rfl
    exact hwalks.loopEntry_walks
  case conds =>
    rintro e rfl
    refine ⟨hwalks.condEntry_waits, fun w hjobs hword => ?_⟩
    obtain ⟨t, ht, hmem, hchain⟩ := hwalks.condEntry_branches hjobs hword
    refine ⟨t, ht, hmem, hchain.trans (congrArg (fun a => some (walkedTo c a)) ?_)⟩
    rw [condTo]
    split <;> rfl
  case waits =>
    rintro n hnone hn hwaits d rfl
    refine ⟨fun hsignal => ?_, fun hfin hover => ?_⟩
    · obtain ⟨u, hu⟩ : ∃ u, signalled q c sh = some u := by
        obtain ⟨core, k, rfl⟩ | ⟨die, core, pos, k, rfl⟩ := hsignal <;> exact ⟨_, rfl⟩
      obtain ⟨v, hv, hmem, hchain⟩ := turn_waits hwalks.find hnone hn hwaits (some (walkTo u c ((c.at_ : Int) + 64)))
      exact ⟨_, hwalks.exec_signalEntry hu hv, (noteWalk_mem _ _).trans hmem, (findChain_noteWalk _ _ _).trans hchain⟩
    · subst hfin
      obtain ⟨v, hv, hmem, hchain⟩ := turn_waits hwalks.find hnone hn hwaits (some (endChain q c))
      refine ⟨_, hwalks.exec_endEntry (v := v) ?_, (noteWalk_mem _ _).trans hmem, (findChain_noteWalk _ _ _).trans hchain⟩
      rw [← hv]
      split
      · rfl
      · rw [whenReleased_of_block (hover.resolve_left ‹_›)]
  case packets =>
    rintro rfl hjobs hpacket
    refine ⟨hwalks.endEntry_releases hjobs hpacket, fun k htask => ⟨_, hwalks.endEntry_ends hjobs ?_⟩⟩
    exact whenReleased_of_task hpacket (by simp [htask]) _ _
  case tags =>
    rintro core n rfl
    refine ⟨_, hwalks.exec_signalEntry_over rfl hjobs hquiet, ?_, ?_, ?_⟩
    · rw [noteWalk_mem]
      exact modCore_mem _ _ _ _
    · rw [getCore_congr (noteWalk_cores _ _)]
      exact tags_setTag _ _ _ _
    · rw [findChain_noteWalk]
      exact findChain_walkTo_add (hwalks.find_of_engine (setTag_engine _ _ _ _)) 64
  case bars =>
    rintro die core pos n rfl hwf
    obtain ⟨hspan, hread⟩ := writeBar_spec (s := q) rfl rfl hwf pos (Machine.barSignal (readBar q die core pos) n)
    refine ⟨_, hwalks.exec_signalEntry_over rfl hjobs hquiet, ?_, onlySpan_congr (noteWalk_mem _ _) (noteWalk_cores _ _) hspan, ?_⟩
    · rw [readBar_congr (noteWalk_cores _ _)]
      exact hread
    · rw [findChain_noteWalk]
      exact findChain_walkTo_add (hwalks.find_of_engine (writeBar_engine _ _ _ _ _)) 64
  case ends =>
    rintro rfl hblock
    obtain ⟨ht, hgone, hjobs'⟩ := hwalks.endEntry_ends hjobs (by rw [whenReleased_of_block hblock, whenQuiet_of_quiet hquiet])
    refine ⟨_, ht, hgone, hjobs', (noteWalk_mem _ _).trans (endChain_mem_of_block hblock), fun u g y horigin hy => ?_⟩
    rw [findGang_congr (noteWalk_gangs _ _)]
    exact findGang_endChain horigin hy
  case malformed =>
    rintro job rfl
    exact hwalks.malformedEntry_passes
  case halts =>
    rintro rfl
    exact hwalks.malformedEntry_halts

end Sys2Proof

/-!
CPY and CPYK, and the life of a copy job from its start to its end (R328, R329, R331, R342, R344, R345, R424).
-/
namespace Sys2Proof.Machine

/-! ## A result that is committed leaves the engines and the gang's count of chains -/

theorem cp_dropPend {u : State} {p : Pend} {g : Gang} (h : findGang u p.gang = some g) :
    (findGang (dropPend u p) p.gang).map (fun x => x.cp) = some g.cp := by
  have h' : findGang { u with pend := u.pend.filter fun q => decide (q.op ≠ p.op) } p.gang = some g := h
  rw [dropPend, wakeOrder, findGang_modGang, if_pos rfl, recount, findGang_modGang, if_pos rfl, h']
  · rfl
  all_goals exact fun _ => rfl

theorem cp_committed {s : State} {p : Pend} {g : Gang} (hg : findGang s p.gang = some g) (a : Arch) (f : Arch → Arch) :
    (findGang (committed s p { g with arch := a } f) p.gang).map (fun x => x.cp) = some g.cp := by
  have hid : g.id = p.gang := by simpa using List.find?_some hg
  have hput := (findGang_putGang s g { g with arch := a } (hid.symm ▸ hg) p.gang).trans (if_pos hid.symm)
  have hdrop := cp_dropPend (u := patchYounger (putGang s { g with arch := a }) p.gang p.op f) hput
  exact hdrop

theorem committed_engine (s : State) (p : Pend) (g : Gang) (f : Arch → Arch) :
    (committed s p g f).tasks = s.tasks ∧ (committed s p g f).chains = s.chains ∧ (committed s p g f).clusters = s.clusters := by
  simp [committed, dropPend, wakeOrder, recount, patchYounger]

/-! ## Chains that an engine starts (R344) -/

/-- The next chain of a cluster's engine, at its first entry. -/
def firstWalk (s : State) (die cl ctx : Nat) (origin : ChainOrigin) (head : Nat) : Chain :=
  { id := { die := die, cluster := cl, num := (getCluster s die cl).nextChain.toNat }, ctx := ctx, origin := origin, at_ := head,
    drain := false, last := none, loops := [], faults := 0, fail := none, cut := false, halted := false, begun := none, seen := none,
    quietAt := none, task := none }

theorem startChain_chains (s : State) (die cl ctx : Nat) (origin : ChainOrigin) (head : Nat) :
    (startChain s die cl ctx origin head).chains = s.chains ++ [firstWalk s die cl ctx origin head] := by
  simp only [startChain, modCluster_chains]
  rfl

theorem startChain_frame (s : State) (die cl ctx : Nat) (origin : ChainOrigin) (head : Nat) :
    (startChain s die cl ctx origin head).mem = s.mem ∧ (startChain s die cl ctx origin head).tasks = s.tasks
      ∧ (startChain s die cl ctx origin head).gangs = s.gangs := by
  simp [startChain]

/-- The engine's next chain takes the next number. -/
theorem nextChain_startChain (s : State) (die cl ctx : Nat) (origin : ChainOrigin) (head : Nat) :
    (getCluster (startChain s die cl ctx origin head) die cl).nextChain = (getCluster s die cl).nextChain + 1#32 := by
  have hcluster := getCluster_modCluster s die cl die cl
    (f := fun c => { c with nextChain := (getCluster s die cl).nextChain + 1#32 }) fun _ => rfl
  rw [if_pos rfl] at hcluster
  exact congrArg ClusterSt.nextChain hcluster

theorem getCluster_congr {s t : State} (h : t.clusters = s.clusters) (die cl : Nat) : getCluster t die cl = getCluster s die cl := by
  simp only [getCluster_eq_lookupOr, h]

theorem findTask_dropTask (s : State) (id : Nat) : findTask (dropTask s id) id = none := by
  simp [findTask, dropTask]

theorem findTask_congr {s t : State} (h : t.tasks = s.tasks) (id : Nat) : findTask t id = findTask s id := by
  rw [findTask, h]; rfl

/-! ## What CPYK does (R345) -/

/-- The chain that a token names at the engine of a gang's cluster. -/
def tokenChain (g : Gang) (token : DWord) : ChainId :=
  { die := g.id.die, cluster := clusterOf g.id.core, num := token.toNat % 2 ^ 32 }

/-- The chain drains and its running jobs are cut short. -/
def cutChain (s : State) (id : ChainId) : State :=
  { modChain s id fun x => { x with drain := true, cut := true } with
      jobs := s.jobs.map fun j => if j.chain = id ∧ j.state = .started then { j with cut := true } else j }

theorem cpykEffect_own {s : State} {g : Gang} {token : DWord} {x : Chain} {y : GangId} (hfind : findChain s (tokenChain g token) = some x)
    (horigin : x.origin = .block g.block y) : cpykEffect s g token = (cutChain s (tokenChain g token), 1#64) := by
  have hfind' : findChain s { die := g.id.die, cluster := clusterOf g.id.core, num := token.toNat % 2 ^ 32 } = some x := hfind
  simp only [cpykEffect, hfind', horigin, decide_true, Bool.not_true, Bool.false_eq_true, if_false]
  rfl

theorem cpykEffect_other {s : State} {g : Gang} {token : DWord}
    (h : ∀ x y, findChain s (tokenChain g token) = some x → x.origin ≠ .block g.block y) : cpykEffect s g token = (s, 0#64) := by
  unfold cpykEffect
  dsimp only
  rw [if_pos]
  cases hfind : findChain s { die := g.id.die, cluster := clusterOf g.id.core, num := token.toNat % 2 ^ 32 } with
  | none => rfl
  | some x =>
    cases horigin : x.origin with
    | packet qn w => simp [horigin]
    | block u y =>
      have hne : u ≠ g.block := fun hu => h x y hfind (hu ▸ horigin)
      simp [horigin, hne]

theorem findChain_cutChain {s : State} {id : ChainId} {x : Chain} (h : findChain s id = some x) :
    findChain (cutChain s id) id = some { x with drain := true, cut := true } :=
  findChain_updated h (f := fun x => { x with drain := true, cut := true }) fun _ => rfl

/-! ## Jobs -/

/-- An ALLREDUCE that has not met a missing route ends with what it has performed (R331). -/
theorem reduceEnd_of_step {s : State} {c : Chain} {j : Job} (hfault : j.fault = none) (hleft : redLeft s j ≠ [])
    (hclean : (reduceStep s c j (redLeft s j)).2.fault = none) :
    reduceEnd s c j = endReduce (modJob (reduceStep s c j (redLeft s j)).1 j.id fun _ =>
        { (reduceStep s c j (redLeft s j)).2 with unit := cardCount j.card }) c
      { (reduceStep s c j (redLeft s j)).2 with unit := cardCount j.card } := by
  simp only [reduceEnd, hfault, hleft, hclean, noRoute, Option.isSome_none, Bool.false_or, decide_false, Bool.false_eq_true, if_false]

/-- One that has met a fault or has nothing left to send ends. -/
theorem reduceEnd_of_done {s : State} {c : Chain} {j : Job} (h : j.fault.isSome = true ∨ redLeft s j = []) :
    reduceEnd s c j = endReduce s c j := by
  simp only [reduceEnd]
  exact if_pos (by simpa using h)

section
variable {s : State} {c : Chain} {j : Job} (hreds : j.reds.any (inRound s) = false)
include hreds

theorem endReduce_of_fault {f : JobFault} (hfault : j.fault = some f) : endReduce s c j = finishJob s c j (faultStatus f.1) (some f) := by
  simp only [endReduce, hreds, hfault, Bool.false_eq_true, if_false, endJob]

theorem endReduce_whole (hfault : j.fault = none) (hcut : j.cut = false) : endReduce s c j = finishJob s c j 0 none := by
  simp only [endReduce, hreds, hfault, hcut, Bool.false_eq_true, if_false, endJob]
  rfl

theorem endReduce_cut (hfault : j.fault = none) (hcut : j.cut = true) : endReduce s c j = finishJob s c j 10 (some (10, noAddress s)) := by
  simp only [endReduce, hreds, hfault, hcut, Bool.false_eq_true, if_false, if_true, endJob]
  rfl

end

/-! ## Numbers that lie side by side in a scratchpad -/

theorem bytesOfNat_append_read {m : List Host.Cell} (w : Memory.wf m = true) (a n k x y : Nat) :
    natOfBytes (cellsRead (cellsWrite m a (bytesOfNat n x ++ bytesOfNat k y)) a n) = x % 256 ^ n
      ∧ natOfBytes (cellsRead (cellsWrite m a (bytesOfNat n x ++ bytesOfNat k y)) (a + n) k) = y % 256 ^ k := by
  have hlen : (bytesOfNat n x ++ bytesOfNat k y).length = n + k := by simp [length_bytesOfNat]
  constructor
  · have h := cellsRead_cellsWrite_part w a (l := bytesOfNat n x ++ bytesOfNat k y) (i := 0) (n := n) (by omega)
    rw [show a + 0 = a from rfl, List.drop_zero, List.take_left' (length_bytesOfNat n x)] at h
    rw [h, natOfBytes_bytesOfNat]
  · have h := cellsRead_cellsWrite_part w a (l := bytesOfNat n x ++ bytesOfNat k y) (i := n) (n := k) (by omega)
    rw [List.drop_left' (length_bytesOfNat n x), List.take_of_length_le (by rw [length_bytesOfNat])] at h
    rw [h, natOfBytes_bytesOfNat]

end Sys2Proof.Machine

namespace Sys2Proof.Machine

/-! ## The end of a job in its entry (R329) -/

/-- The job is gone, and its entry holds its STATUS, its FAULT and, with a fault, its FADDR. -/
def markedJob (s : State) (c : Chain) (j : Job) (status : Nat) (f : Option JobFault) : State :=
  let code := match f with
    | some x => x.1
    | none => 0
  let w := entryWrite { s with jobs := s.jobs.filter fun x => decide (x.id ≠ j.id) } c (j.entry + 4) (bytesOfNat 2 status ++ bytesOfNat 2 code)
  match f with
  | some x => entryWrite w c (j.entry + 56) (bytesOfNat 8 x.2.toNat)
  | none => w

/-- After its marks, a job that has not ended OK turns its chain to drain mode, and one that was not cancelled is a failure of it. -/
theorem finishJob_eq (s : State) (c : Chain) (j : Job) (status : Nat) (f : Option JobFault) :
    finishJob s c j status f = if status = 0 then markedJob s c j status f
      else if status = 10 then drainChain (markedJob s c j status f) c.id
      else chainFails (drainChain (markedJob s c j status f) c.id) c status j.id := by
  cases f <;> rfl

theorem finishJob_frame (s : State) (c : Chain) (j : Job) (status : Nat) (f : Option JobFault) :
    (finishJob s c j status f).jobs = (markedJob s c j status f).jobs ∧ (finishJob s c j status f).mem = (markedJob s c j status f).mem
      ∧ (finishJob s c j status f).cores = (markedJob s c j status f).cores := by
  rw [finishJob_eq]
  split
  · exact ⟨rfl, rfl, rfl⟩
  · split
    · exact ⟨rfl, rfl, rfl⟩
    · exact chainFails_frame _ _ _ _

theorem markedJob_engine (s : State) (c : Chain) (j : Job) (status : Nat) (f : Option JobFault) :
    enginePart (markedJob s c j status f) = (s.chains, s.jobs.filter fun x => decide (x.id ≠ j.id), s.nextUid) := by
  cases f with
  | none => exact entryWrite_engine _ _ _ _
  | some x => exact (entryWrite_engine _ _ _ _).trans (entryWrite_engine _ _ _ _)

theorem findJob_finishJob (s : State) (c : Chain) (j : Job) (status : Nat) (f : Option JobFault) :
    findJob (finishJob s c j status f) j.id = none := by
  have hjobs : (finishJob s c j status f).jobs = s.jobs.filter fun x => decide (x.id ≠ j.id) :=
    (finishJob_frame s c j status f).1.trans (congrArg (fun x => x.2.1) (markedJob_engine s c j status f))
  simp [findJob, hjobs]

section
variable {s : State} {c : Chain} (hfind : findChain s c.id = some c)
include hfind

theorem findChain_markedJob (j : Job) (status : Nat) (f : Option JobFault) : findChain (markedJob s c j status f) c.id = some c :=
  (findChain_congr (s := s) (congrArg Prod.fst (markedJob_engine s c j status f)) _).trans hfind

theorem findChain_finishJob_ok (j : Job) (f : Option JobFault) : findChain (finishJob s c j 0 f) c.id = some c := by
  rw [finishJob_eq, if_pos rfl, findChain_markedJob hfind]

theorem findChain_finishJob_failed (j : Job) {status : Nat} (hstatus : status ≠ 0) (f : Option JobFault) :
    ∃ d, findChain (finishJob s c j status f) c.id = some d ∧ d.drain = true ∧ d.at_ = c.at_
      ∧ d.faults = if status = 10 then c.faults else c.faults + 1 := by
  have hdrained : findChain (drainChain (markedJob s c j status f) c.id) c.id = some { c with drain := true } :=
    findChain_updated (findChain_markedJob hfind j status f) (f := fun x => { x with drain := true }) fun _ => rfl
  rw [finishJob_eq, if_neg hstatus]
  split
  · exact ⟨_, hdrained, rfl, rfl, rfl⟩
  · exact ⟨_, findChain_chainFails hdrained status j.id, rfl, rfl, rfl⟩

end

/-- The bytes of an entry's scratchpad with a job's marks. -/
def jobMarks (m : List Host.Cell) (entry status : Nat) : Option JobFault → List Host.Cell
  | some x => cellsWrite (cellsWrite m (entry + 4) (bytesOfNat 2 status ++ bytesOfNat 2 x.1)) (entry + 56) (bytesOfNat 8 x.2.toNat)
  | none => cellsWrite m (entry + 4) (bytesOfNat 2 status ++ bytesOfNat 2 0)

section
variable {m : List Host.Cell} (w : Memory.wf m = true)
include w

theorem jobMarks_none (entry status : Nat) : natOfBytes (cellsRead (jobMarks m entry status none) (entry + 4) 2) = status % 256 ^ 2
    ∧ natOfBytes (cellsRead (jobMarks m entry status none) (entry + 6) 2) = 0 := bytesOfNat_append_read w (entry + 4) 2 2 status 0

/-- FADDR lies apart from STATUS and FAULT. -/
theorem jobMarks_some (entry status : Nat) (x : JobFault) :
    natOfBytes (cellsRead (jobMarks m entry status (some x)) (entry + 4) 2) = status % 256 ^ 2
      ∧ natOfBytes (cellsRead (jobMarks m entry status (some x)) (entry + 6) 2) = x.1 % 256 ^ 2
      ∧ natOfBytes (cellsRead (jobMarks m entry status (some x)) (entry + 56) 8) = x.2.toNat := by
  have w' := Memory.wf_cellsWrite w (entry + 4) (bytesOfNat 2 status ++ bytesOfNat 2 x.1)
  obtain ⟨hstatus, hcode⟩ := bytesOfNat_append_read w (entry + 4) 2 2 status x.1
  unfold jobMarks
  rw [cellsRead_cellsWrite_apart w' _ _ (by omega), cellsRead_cellsWrite_apart w' _ _ (by omega), natOfBytes_cellsWrite w']
  exact ⟨hstatus, hcode, Nat.mod_eq_of_lt (toNat_lt_bytes (n := 8) x.2)⟩

end

section
variable {s : State} {c : Chain} {b : Block} {g : GangId} (horigin : c.origin = .block b.uid g) (hb : findBlock s b.uid = some b)
include horigin hb

/-- The marks of a job of a block's chain stand in the scratchpad of the block's core, and memory has not changed. -/
theorem markedJob_scratch {j : Job} (hin : inAlloc b j.entry 64 = true) (status : Nat) (f : Option JobFault) :
    (getCore (markedJob s c j status f) b.die b.core).scratch = jobMarks (getCore s b.die b.core).scratch j.entry status f
      ∧ (markedJob s c j status f).mem = s.mem := by
  have hwrite : ∀ (u : State) (o : Nat) (l : List Byte), u.blocks = s.blocks → o + l.length ≤ 64 →
      entryWrite u c (j.entry + o) l = scratchWrite u b.die b.core (j.entry + o) l := fun u o l hblocks hlen =>
    entryWrite_of_block horigin (by rw [findBlock, hblocks]; exact hb) (inAlloc_part hin (by omega) (by omega))
  have hfirst := fun code => hwrite { s with jobs := s.jobs.filter fun x => decide (x.id ≠ j.id) } 4
    (bytesOfNat 2 status ++ bytesOfNat 2 code) rfl (by simp [length_bytesOfNat])
  cases f with
  | none =>
    simp only [markedJob, hfirst, getCore_scratchWrite, if_true]
    exact ⟨rfl, modCore_mem _ _ _ _⟩
  | some x =>
    simp only [markedJob, hfirst]
    rw [hwrite]
    · simp only [getCore_scratchWrite, if_true]
      exact ⟨rfl, (modCore_mem _ _ _ _).trans (modCore_mem _ _ _ _)⟩
    · exact modCore_blocks _ _ _ _
    · simp [length_bytesOfNat]

/-- STATUS and FAULT of a job that has ended, and with a fault FADDR, read back from its entry. -/
theorem finishJob_marks {j : Job} (hin : inAlloc b j.entry 64 = true) (hwf : Memory.wf (getCore s b.die b.core).scratch = true) {status : Nat}
    (hstatus : status < 65536) (f : Option JobFault) :
    (finishJob s c j status f).mem = s.mem ∧ scratchNat (finishJob s c j status f) b.die b.core (j.entry + 4) 2 = status
      ∧ (f = none → scratchNat (finishJob s c j status f) b.die b.core (j.entry + 6) 2 = 0)
      ∧ ∀ x, f = some x → x.1 < 65536 → scratchNat (finishJob s c j status f) b.die b.core (j.entry + 6) 2 = x.1
        ∧ scratchNat (finishJob s c j status f) b.die b.core (j.entry + 56) 8 = x.2.toNat := by
  obtain ⟨hscratch, hmem⟩ := markedJob_scratch horigin hb hin status f
  obtain ⟨-, hfmem, hcores⟩ := finishJob_frame s c j status f
  have hread : ∀ pos n, scratchNat (finishJob s c j status f) b.die b.core pos n
      = natOfBytes (cellsRead (jobMarks (getCore s b.die b.core).scratch j.entry status f) pos n) := fun pos n => by
    rw [scratchNat_congr hcores, scratchNat, hscratch]
  simp only [hread]
  refine ⟨hfmem.trans hmem, ?_⟩
  cases f with
  | none =>
    obtain ⟨h4, h6⟩ := jobMarks_none hwf j.entry status
    exact ⟨h4.trans (Nat.mod_eq_of_lt hstatus), fun _ => h6, fun x hx => nomatch hx⟩
  | some y =>
    obtain ⟨h4, h6, h56⟩ := jobMarks_some hwf j.entry status y
    refine ⟨h4.trans (Nat.mod_eq_of_lt hstatus), (fun h => nomatch h), ?_⟩
    rintro x ⟨⟩ hx
    exact ⟨h6.trans (Nat.mod_eq_of_lt hx), h56⟩

end

end Sys2Proof.Machine

namespace Sys2Proof
open Machine

/-! ## JOB_START and JOB_END (R328, R331, R342, R424) -/

section
variable {s : State} {j : Job} {c : Chain} (hjob : findJob s j.id = some j) (hchain : findChain s j.chain = some c)
  (hruns : ctxRuns s c.ctx = true)
include hjob hchain hruns

theorem exec_jobStart (hstate : j.state = .accepted) (hdrain : c.drain = false) (hblocked : jobBlocked s c j = false)
    (hasked : leaveAsked s c.id.die (isJobLeave j.id) = false) :
    exec (.jobStart j.id) s = if needsLeave j ∧ !j.leave
      then .next (askLeave (modJob s j.id fun x => { x with leave := true }) c.id.die (.job j.id s.tick))
      else .next (askJob (modJob s j.id fun x => { x with state := .started, tick := s.tick }) j.id) := by
  change execJobStart j.id s = _
  simp only [execJobStart, hjob, hchain]
  rw [if_neg (by simp [hstate, hdrain, hruns, hblocked, hasked])]

theorem exec_jobEnd : exec (.jobEnd j.id) s = if j.state = .accepted then (if c.drain then .next (finishJob s c j 10 none) else .next s)
    else if jobLate s j then .next s
    else if cardKind j.card = 3 then .next (reduceEnd s c j)
    else if noRoute (performJob s c j).2 then .next s else .next (endJob (performJob s c j).1 c j (performJob s c j).2) := by
  change execJobEnd j.id s = _
  simp only [execJobEnd, hjob, hchain, hruns, Bool.not_true, Bool.false_and, Bool.false_eq_true, if_false]
  rfl

theorem exec_jobEnd_of_started (hstate : j.state = .started) (hlate : jobLate s j = false) :
    exec (.jobEnd j.id) s = if cardKind j.card = 3 then .next (reduceEnd s c j)
      else if noRoute (performJob s c j).2 then .next s else .next (endJob (performJob s c j).1 c j (performJob s c j).2) := by
  rw [exec_jobEnd hjob hchain hruns, if_neg (by simp [hstate]), if_neg (by simp [hlate])]

theorem exec_jobEnd_of_fault (hstate : j.state = .started) (hlate : jobLate s j = false) (hkind : cardKind j.card ≠ 3) {f : JobFault}
    (hfault : (performJob s c j).2 = some f) :
    exec (.jobEnd j.id) s = .next (if f.1 = 7 then s else finishJob (performJob s c j).1 c j (faultStatus f.1) (some f)) := by
  rw [exec_jobEnd_of_started hjob hchain hruns hstate hlate, if_neg hkind, hfault]
  by_cases h : f.1 = 7
  · rw [if_pos (by simp [noRoute, h]), if_pos h]
  · rw [if_neg (by simp [noRoute, h]), if_neg h, endJob]

end

/-! ## CPY (R344) -/

theorem exec_cpy_of_starts {s : State} {h : Head} {c : Ctx} {d a : Opnd} {off : BitVec 32} {die core pos : Nat}
    (hstarts : Starts s h (single [a]) [a] c) (hword : wordCheck c.a [a] = none) (hspan : ScratchSpan c a off 64 .read die core pos) :
    exec (.cpy h d a off) s = .next (addTask
      (c.begin (.cpy h d a off) (.task s.nextUid) d (headKills h a .zero .zero) [BitVec.ofNat 64 pos] false)
      { baseTask s c.g .clu with ops := opsIn s c.g.id 2#6, writes := true }) := by
  obtain rfl := hstarts.enter.state_eq
  have htarget : (spaceTarget c.s c.g .scratch (scalarAddr c .scratch a off 64) 64 .read).2 = .inr (.scratch die core pos) := hspan
  change execCpy h d a off c.s = _
  rw [execCpy, issue_eq hstarts.enter.here hstarts.enter.clean]
  simp only [hstarts.enter.fresh, hstarts.live, hstarts.active, if_false, hstarts.priv, hword, firstHalt, htarget]
  exact withTask_of_fresh hstarts.enter.fresh _ _ _ _ _ _ _

section
variable {s : State} {guard : Guard} {c : Ctx} {b : Pend} (hres : Resumes s guard c b)
include hres

/-- A begun instruction that ends where its gang has the registers that it had, whatever its counts: it is over, the counts stay, and
memory, releases, chains and engines are as they were. -/
theorem Resumes.ended_of_gang {g y : Gang} {u : State} (hg : findGang s c.g.id = some g) (hy : findGang u c.g.id = some y)
    (harch : y.arch = g.arch) (hbudget : y.budget = g.budget) (d : Opnd) (v : DWord) :
    ∃ t, commitPend u b (fun _ a => ((writeScalar a d v).setWait c.x .none).advance c.x) = t ∧ Ended c b d v t
      ∧ (findGang t c.g.id).map (fun x => x.cp) = some y.cp ∧ t.mem = u.mem ∧ t.tasks = u.tasks ∧ t.chains = u.chains
      ∧ t.clusters = u.clusters := by
  have hfits : ∀ x : Arch, heldSlots (((writeScalar (killRegs x (single b.kills)) d v).setWait c.x .none).advance c.x) ≤ heldSlots x :=
    fun x => by simpa using heldSlots_killRegs x (single b.kills)
  have hg' : findGang { u with gangs := s.gangs } b.gang = some g := by rw [hres.gang_eq]; exact hg
  have hy' : findGang u b.gang = some y := by rw [hres.gang_eq]; exact hy
  obtain ⟨t₀, ht₀, ⟨-, g₀, hg₀, hregs⟩, -⟩ := hres.ended (u := { u with gangs := s.gangs }) rfl d v
  rw [commitPend_of_fits hg' (f := fun _ a => ((writeScalar a d v).setWait c.x .none).advance c.x) (hfits g.arch)] at ht₀
  subst ht₀
  obtain ⟨g₁, hg₁, hwoken⟩ := findGang_committed hg' (endedArch g.budget g.arch c.x b.kills d v) fun a => endedArch g.budget a c.x b.kills d v
  obtain ⟨y₁, hy₁, hwoken'⟩ := findGang_committed hy' (endedArch y.budget y.arch c.x b.kills d v) fun a => endedArch y.budget a c.x b.kills d v
  have hcp := cp_committed hy' (endedArch y.budget y.arch c.x b.kills d v) fun a => endedArch y.budget a c.x b.kills d v
  rw [hres.gang_eq] at hg₁ hy₁ hcp
  have hsame : y₁.arch = g₀.arch := by
    rw [hwoken', harch, hbudget, ← hwoken]
    exact congrArg Gang.arch (Option.some.inj (hg₁.symm.trans hg₀))
  obtain ⟨htasks, hchains, hclusters⟩ := committed_engine u b { y with arch := endedArch y.budget y.arch c.x b.kills d v }
    fun a => endedArch y.budget a c.x b.kills d v
  rw [commitPend_of_fits hy' (f := fun _ a => ((writeScalar a d v).setWait c.x .none).advance c.x) (hfits y.arch)]
  exact ⟨_, rfl, ⟨findPend_dropPend _ _, y₁, hy₁, hsame ▸ hregs⟩, hcp, (committed_frame _ _ _ _).1, htasks, hchains, hclusters⟩

end

/-- The machine with the chain of a CPY counted and started, its release over. -/
def chainStarted (s : State) (c : Ctx) (id head : Nat) : State :=
  modGang (startChain (dropTask s id) c.g.id.die (clusterOf c.g.id.core) c.g.ctx (.block c.g.block c.g.id) head) c.g.id fun g =>
    { g with cp := g.cp + 1 }

section
variable {s : State} {h : Head} {c : Ctx} {b : Pend} (hres : Resumes s h.guard c b) (hclear : c.clear = true) {id : Nat}
  (hwait : c.slot.wait = .task id) (hcp : c.g.cp < 63) (hroom : (engineChains s c.g.id.die (clusterOf c.g.id.core)).length < 64)
include hres hclear hwait hcp hroom

theorem exec_cpy_of_over (d a : Opnd) (off : BitVec 32) :
    exec (.cpy h d a off) s = .next (commitPend (chainStarted s c id (b.vals.headD 0#64).toNat) b fun _ x =>
      ((writeScalar x d ((getCluster s c.g.id.die (clusterOf c.g.id.core)).nextChain.setWidth 64)).setWait c.x .none).advance c.x) := by
  obtain rfl := hres.state_eq
  have hfree : ¬ ((engineChains (c.resumed id).s (c.resumed id).g.id.die (clusterOf (c.resumed id).g.id.core)).length ≥ 64
      ∨ (c.resumed id).g.cp ≥ counterMax) := by
    rintro (hfull | hmax)
    · exact absurd hfull (Nat.not_le.mpr hroom)
    · exact absurd hmax (Nat.not_le.mpr hcp)
  have hclear' : (c.resumed id).clear = true := hclear
  have hbegun' : (c.resumed id).begun = some b := hres.begun
  change execCpy h d a off c.s = _
  rw [execCpy, hres.issue_eq]
  simp only [hres.begun]
  rw [hres.withTask_eq hwait, cpyGo, if_neg hfree]
  simp only [Ctx.afterRisk, hclear', if_true, Ctx.finish, hbegun']
  rfl

theorem cpy_starts_chain (d a : Opnd) (off : BitVec 32) :
    ∃ t, exec (.cpy h d a off) s = .next t
      ∧ Ended c b d ((getCluster s c.g.id.die (clusterOf c.g.id.core)).nextChain.setWidth 64) t ∧ t.mem = s.mem
      ∧ (findGang t c.g.id).map (fun g => g.cp) = some (c.g.cp + 1) ∧ findTask t id = none
      ∧ t.chains = s.chains ++ [firstWalk s c.g.id.die (clusterOf c.g.id.core) c.g.ctx (.block c.g.block c.g.id) (b.vals.headD 0#64).toNat]
      ∧ (getCluster t c.g.id.die (clusterOf c.g.id.core)).nextChain
        = (getCluster s c.g.id.die (clusterOf c.g.id.core)).nextChain + 1#32 := by
  obtain ⟨g, r, hg, hcg⟩ := entering_gang hres.here
  have hcount : g.cp = c.g.cp := by rw [hcg]
  obtain ⟨hmem, htasks, hgangs⟩ := startChain_frame (dropTask s id) c.g.id.die (clusterOf c.g.id.core) c.g.ctx
    (.block c.g.block c.g.id) (b.vals.headD 0#64).toNat
  have hcounted : findGang (chainStarted s c id (b.vals.headD 0#64).toNat) c.g.id = some { g with cp := g.cp + 1 } :=
    findGang_updated ((findGang_congr hgangs _).trans hg) (f := fun g => { g with cp := g.cp + 1 }) fun _ => rfl
  obtain ⟨t, ht, hended, htcp, htmem, httasks, htchains, htclusters⟩ := hres.ended_of_gang hg hcounted rfl rfl d
    ((getCluster s c.g.id.die (clusterOf c.g.id.core)).nextChain.setWidth 64)
  refine ⟨t, (exec_cpy_of_over hres hclear hwait hcp hroom d a off).trans (congrArg _ ht), hended, htmem.trans hmem, ?_, ?_, ?_, ?_⟩
  · rw [htcp, hcount]
  · rw [findTask_congr (httasks.trans htasks), findTask_dropTask]
  · exact htchains.trans (startChain_chains _ _ _ _ _ _)
  · rw [getCluster_congr htclusters]
    exact nextChain_startChain (dropTask s id) c.g.id.die (clusterOf c.g.id.core) c.g.ctx (.block c.g.block c.g.id) (b.vals.headD 0#64).toNat

end

/-! ## CPYK (R345) -/

section
variable {s : State} {h : Head} {c : Ctx} {a : Opnd} (hstarts : Starts s h (single [a]) [] c) (hword : wordCheck c.a [a] = none)
include hstarts hword

theorem exec_cpyk_of_starts (d : Opnd) : exec (.cpyk h d a) s = if c.clear
    then c.commitWith ((writeScalar (killRegs c.a (headKills h a .zero .zero)) d (cpykEffect c.s c.g (scalarOf c a)).2).advance c.x)
      fun s => (cpykEffect s c.g (scalarOf c a)).1
    else c.send (groupOpnds d 1) (headKills h a .zero .zero) (.late (.cpyk d (scalarOf c a))) := by
  change execCpyk h d a s = _
  rw [execCpyk, issue_eq hstarts.enter.here hstarts.enter.clean]
  simp only [hstarts.live, hstarts.active, if_false, hword]

/-- Behind an instruction that may still trap it is issued, and its slot goes on (R97). -/
theorem exec_cpyk_of_risk (d : Opnd) (hrisk : c.clear = false) :
    ∃ t, exec (.cpyk h d a) s = .next t
      ∧ Issued c (c.a.advance c.x) (.late (.cpyk d (scalarOf c a))) (spreadReads (headKills h a .zero .zero)) (groupOpnds d 1) t := by
  refine ⟨_, ?_, hstarts.enter.issued_addPend _ _ _ _⟩
  rw [exec_cpyk_of_starts hstarts hword, hrisk, if_neg Bool.false_ne_true]
  rfl

variable (hclear : c.clear = true)
include hclear

theorem exec_cpyk_of_clear (d : Opnd) : exec (.cpyk h d a) s = .next (cpykEffect (afterCommit c
    ((writeScalar (killRegs c.a (headKills h a .zero .zero)) d (cpykEffect c.s c.g (scalarOf c a)).2).advance c.x)) c.g (scalarOf c a)).1 := by
  rw [exec_cpyk_of_starts hstarts hword, if_pos hclear]
  exact commitWith_of_le (.inr hclear) (by simpa using heldSlots_killRegs c.a (headKills h a .zero .zero)) _

theorem exec_cpyk_own (d : Opnd) {x : Chain} {g : GangId} (hfind : findChain s (tokenChain c.g (scalarOf c a)) = some x)
    (horigin : x.origin = .block c.g.block g) :
    ∃ t, exec (.cpyk h d a) s = .next t
      ∧ GangHolds c ((writeScalar (killRegs c.a (headKills h a .zero .zero)) d 1#64).advance c.x) t ∧ t.mem = s.mem
      ∧ findChain t (tokenChain c.g (scalarOf c a)) = some { x with drain := true, cut := true }
      ∧ t.jobs = s.jobs.map fun j => if j.chain = tokenChain c.g (scalarOf c a) ∧ j.state = .started then { j with cut := true } else j := by
  obtain rfl := hstarts.enter.state_eq
  have hput : ∀ y, findChain (afterCommit c y) (tokenChain c.g (scalarOf c a)) = some x := fun _ => hfind
  refine ⟨cutChain (afterCommit c ((writeScalar (killRegs c.a (headKills h a .zero .zero)) d 1#64).advance c.x)) (tokenChain c.g (scalarOf c a)),
    (exec_cpyk_of_clear hstarts hword hclear d).trans ?_, hstarts.enter.gangHolds_of_gangs rfl, rfl, findChain_cutChain (hput _), rfl⟩
  rw [cpykEffect_own hfind horigin, cpykEffect_own (hput _) horigin]

theorem exec_cpyk_other (d : Opnd)
    (hother : ∀ x g, findChain s (tokenChain c.g (scalarOf c a)) = some x → x.origin ≠ .block c.g.block g) :
    exec (.cpyk h d a) s
      = .next (afterCommit c ((writeScalar (killRegs c.a (headKills h a .zero .zero)) d 0#64).advance c.x)) := by
  obtain rfl := hstarts.enter.state_eq
  have hput : ∀ y x g, findChain (afterCommit c y) (tokenChain c.g (scalarOf c a)) = some x → x.origin ≠ .block c.g.block g := fun _ => hother
  rw [exec_cpyk_of_clear hstarts hword hclear, cpykEffect_other hother, cpykEffect_other (hput _)]

end

/-- Settles O45: CPY begins with its release and at its end starts a chain, CPYK cuts one of its block, and a job starts, ends and marks its
entry as the lemmas above say. -/
theorem engineInstructions : Obligations.EngineInstructions := by
  refine ⟨⟨fun h d a off s c die core pos hstarts hword hspan => exec_cpy_of_starts hstarts hword hspan,
      ?begun, fun h d a s c id hstarts hword => ⟨exec_cpyk_of_risk hstarts hword d, ?cuts⟩⟩,
    fun s j c hjob hchain hstate hdrain hruns hblocked hasked => ⟨?asks, ?starts⟩,
    fun s j c hjob hchain hruns => ⟨?cancels, ?late, ?performs, fun hstate hlate hkind => ⟨fun hreds => ⟨?faulted, ?whole, ?short⟩, ?reduces⟩⟩,
    ?finish⟩
  case begun =>
    rintro h d a off s c b k n hres hclear hwait - hcp hroom rfl
    exact cpy_starts_chain hres hclear hwait hcp hroom d a off
  case cuts =>
    rintro hclear rfl
    exact ⟨fun x g hfind horigin => exec_cpyk_own hstarts hword hclear d hfind horigin, exec_cpyk_other hstarts hword hclear d⟩
  case asks =>
    intro hneeds hleave
    rw [exec_jobStart hjob hchain hruns hstate hdrain hblocked hasked, if_pos (by simp [hneeds, hleave])]
  case starts =>
    intro hready
    rw [exec_jobStart hjob hchain hruns hstate hdrain hblocked hasked, if_neg]
    rintro ⟨hneeds, hleave⟩
    rcases hready with h | h <;> simp [h] at hneeds hleave
  case cancels =>
    intro hstate hdrain
    rw [exec_jobEnd hjob hchain hruns, if_pos hstate, if_pos hdrain]
  case late =>
    intro hstate hlate
    rw [exec_jobEnd hjob hchain hruns, if_neg (by simp [hstate]), if_pos hlate]
  case performs =>
    rintro hstate hlate hkind r rfl
    refine ⟨fun hok => ?_, fun f => exec_jobEnd_of_fault hjob hchain hruns hstate hlate hkind⟩
    rw [exec_jobEnd_of_started hjob hchain hruns hstate hlate, if_neg hkind, hok]
    rfl
  case faulted =>
    intro f hfault
    rw [exec_jobEnd_of_started hjob hchain hruns hstate hlate, if_pos hkind, reduceEnd_of_done (.inl (by simp [hfault])),
      endReduce_of_fault hreds hfault]
  case whole =>
    intro hfault hleft hcut
    rw [exec_jobEnd_of_started hjob hchain hruns hstate hlate, if_pos hkind, reduceEnd_of_done (.inr hleft), endReduce_whole hreds hfault hcut]
  case short =>
    intro hfault hleft hcut
    rw [exec_jobEnd_of_started hjob hchain hruns hstate hlate, if_pos hkind, reduceEnd_of_done (.inr hleft), endReduce_cut hreds hfault hcut]
  case reduces =>
    rintro r k hfault hleft rfl hclean rfl hreds hcut
    rw [exec_jobEnd_of_started hjob hchain hruns hstate hlate, if_pos hkind, reduceEnd_of_step hfault hleft hclean]
    exact congrArg Host.Outcome.next (endReduce_whole hreds hclean hcut)
  case finish =>
    rintro s j c b g status f hfind horigin hb hwf hstatus hin
    obtain ⟨hmem, h4, h6, hfault⟩ := finishJob_marks horigin hb hin hwf hstatus f
    refine ⟨findJob_finishJob s c j status f, hmem, h4, h6, hfault, ?_, fun hne => findChain_finishJob_failed hfind j hne f⟩
    rintro rfl
    exact findChain_finishJob_ok hfind j f

end Sys2Proof

/-!
CFLUSH, ICINV and FETCHB, and the fill of an instruction cache's line (R379, R381-R384).
-/
namespace Sys2Proof.Machine

/-! ## The walk of a range (R381) -/

/-- A walk for a leaf changes nothing but what its die has cached. -/
@[simp] theorem leafOf_outside (s : State) (die ctx : Nat) (va : BitVec 64) : outsideCaches (leafOf s die ctx va).1 = outsideCaches s := by
  unfold leafOf leafBy
  split
  · rfl
  · split <;> rfl

@[simp] theorem piecesFrom_outside (die ctx stop fuel : Nat) (s : State) (va : Nat) :
    outsideCaches (piecesFrom die ctx stop fuel s va).1 = outsideCaches s := by
  induction fuel generalizing s va with
  | zero => rfl
  | succ fuel ih =>
    have hleaf : outsideCaches (if canonical (BitVec.ofNat 64 va) then leafOf s die ctx (BitVec.ofNat 64 va) else (s, .fault)).1
        = outsideCaches s := by split <;> simp
    rw [piecesFrom]
    split
    · rfl
    · dsimp only
      split
      · exact hleaf
      · exact (ih _ _).trans hleaf

theorem outsideCaches_of_pieces {die ctx stop fuel va : Nat} {s q : State} {x : Nat ⊕ List (Nat × Nat)}
    (h : piecesFrom die ctx stop fuel s va = (q, x)) : outsideCaches q = outsideCaches s := by
  rw [← piecesFrom_outside die ctx stop fuel s va, h]

/-- What a slot has begun depends on the issued instructions alone. -/
theorem begun_withState {c : Ctx} {t : State} (h : issuedOf t = issuedOf c.s) : ({ c with s := t } : Ctx).begun = c.begun := by
  obtain ⟨hpend, -⟩ := Prod.mk.inj h
  simp only [Ctx.begun, begunIn, hpend]

/-! ## Code lines that an ICINV drops (R383) -/

/-- A core without the lines of a context's range, in its instruction cache and under way to it. -/
def CoreSt.dropRange (c : CoreSt) (ctx a stop : Nat) : CoreSt :=
  let keep := fun (l : ILine) => !(decide (l.ctx = ctx) && decide (a < 128 * l.line + 128) && decide (128 * l.line < stop))
  { c with icache := c.icache.filter keep, fills := c.fills.filter keep }

theorem CoreSt.mem_dropRange (c : CoreSt) (ctx a stop : Nat) (l : ILine) : l ∈ (c.dropRange ctx a stop).icache ↔
    l ∈ c.icache ∧ ¬ (l.ctx = ctx ∧ a < 128 * l.line + 128 ∧ 128 * l.line < stop) := by
  simp only [CoreSt.dropRange, List.mem_filter, Bool.not_eq_true', ← Bool.not_eq_true, Bool.and_eq_true, decide_eq_true_eq, and_assoc]

theorem getCore_dropCode (s : State) (cores : Nat → Nat → Bool) (ctx a stop die core : Nat) :
    getCore (dropCode s cores ctx a stop) die core
      = if cores die core then (getCore s die core).dropRange ctx a stop else getCore s die core := by
  have hcores : (dropCode s cores ctx a stop).cores
      = s.cores.map fun c => if cores c.die c.core then c.dropRange ctx a stop else c := rfl
  have hkey : (fun c : CoreSt => decide (c.die = die) && decide (c.core = core))
      ∘ (fun c : CoreSt => if cores c.die c.core then c.dropRange ctx a stop else c)
      = fun c => decide (c.die = die) && decide (c.core = core) := by
    funext c
    by_cases hc : cores c.die c.core <;> simp [hc, CoreSt.dropRange]
  unfold getCore
  rw [hcores, List.find?_map, hkey]
  cases hfind : s.cores.find? fun c => decide (c.die = die) && decide (c.core = core) with
  | none => exact (ite_self _).symm
  | some c =>
    obtain ⟨rfl, rfl⟩ : c.die = die ∧ c.core = core := by simpa using List.find?_some hfind
    rfl

/-! ## A line of code that is read and installed (R379) -/

@[simp] theorem codeLine_outside (s : State) (g : Gang) (t : Target) : outsideCaches (codeLine s g t).1 = outsideCaches s := by
  unfold codeLine
  split
  · simp [clusterRead]
  · rfl
  · split <;> rfl
  · rfl

theorem translate_outside (s : State) (die ctx : Nat) (va : BitVec 64) (n : Nat) (k : Access) :
    outsideCaches (translate s die ctx va n k).1 = outsideCaches s := by
  rw [translate_dies]
  rfl

/-- An installed line is the one that its core finds. -/
theorem findILine_installLine (c : CoreSt) (l : ILine) : findILine (installLine c l) l.ctx l.line = some l := by
  have hgone : ∀ x ∈ c.icache.filter (fun x => !(decide (x.ctx = l.ctx) && decide (x.line = l.line))),
      ¬ (decide (x.ctx = l.ctx) && decide (x.line = l.line)) = true := by
    intro x hx
    simpa only [Bool.not_eq_true', Bool.not_eq_true] using (List.mem_filter.mp hx).2
  rw [findILine, installLine, List.find?_append, List.find?_eq_none.mpr]
  · simp
  · intro x hx
    refine hgone x ?_
    split at hx
    · exact List.mem_of_mem_drop hx
    · exact hx

theorem fillData_of_none {s : State} {g : Gang} {va : Nat} (h : findFill s g va = none) (now : BitVec 1024) :
    fillData s g va now = now := by
  simp [fillData, h]

section
variable {s q : State} {g : Gang} {va : Nat} {tgt : Target} (hg : findGang s g.id = some g)
  (htranslate : translate s g.id.die g.ctx (BitVec.ofNat 64 (va / 128 * 128)) 1 .fetch = (q, .inr tgt))
  (hreach : codeReach q g tgt = true) (hclean : (codeLine q g tgt).2.2 = 0#32)
include htranslate hreach hclean

theorem fillRead_of_clean (k : State → BitVec 1024 → State) :
    fillRead s g va k = .next (k (codeLine q g tgt).1 (codeLine q g tgt).2.1) := by
  simp [fillRead, htranslate, hreach, hclean]

include hg

theorem exec_instructionFetchFill (hfill : findFill s g va = none) :
    ∃ t, exec (.instructionFetchFill g.id va) s = .next t ∧ t.gangs = s.gangs ∧ t.mem = s.mem
      ∧ findILine (getCore t g.id.die g.id.core) g.ctx (va / 128)
        = some { ctx := g.ctx, line := va / 128, data := (codeLine q g tgt).2.1 } := by
  have hread : outsideCaches (codeLine q g tgt).1 = outsideCaches s := by
    rw [codeLine_outside, ← translate_outside s g.id.die g.ctx (BitVec.ofNat 64 (va / 128 * 128)) 1 .fetch, htranslate]
  refine ⟨modCore (codeLine q g tgt).1 g.id.die g.id.core fun c => installLine (dropFill c g.ctx (va / 128))
    { ctx := g.ctx, line := va / 128, data := (codeLine q g tgt).2.1 }, ?_, ?_, ?_, ?_⟩
  · change execInstructionFetchFill g.id va s = _
    simp only [execInstructionFetchFill, hg, fillRead_of_clean htranslate hreach hclean, fillData_of_none hfill]
  · rw [modCore_gangs, gangs_of_outsideCaches hread]
  · rw [modCore_mem, mem_of_outsideCaches hread]
  · rw [getCore_modCore, if_pos rfl]
    · exact findILine_installLine _ { ctx := g.ctx, line := va / 128, data := (codeLine q g tgt).2.1 }
    · exact fun _ => rfl

end

end Sys2Proof.Machine

namespace Sys2Proof
open Machine

/-! ## CFLUSH and ICINV as they start (R381-R383) -/

section
variable {h : Head} {a b : Opnd} {off : BitVec 32} {s : State} {c : Ctx} {va : BitVec 64} {n : Nat}
  (hstarts : Starts s h (single [a, b]) [a, b] c) (hword : wordCheck c.a [a, b] = none)
  (hva : va = scalarOf c a + off.signExtend 64) (hn : n = (scalarOf c b).toNat % 2 ^ 32)
include hstarts hword hva hn

theorem codeOp_of_bad {x : BitVec 64} (hbad : rangeBad va n = some x) (hclear : c.clear = true) (f : Ctx → Reads → BitVec 64 → Nat → Res) :
    codeOp h a b off s f = .next (takeTrap s c.g c.x 0x08#8 x (c.pc.setWidth 64) 0#5) := by
  obtain rfl := hstarts.enter.state_eq
  subst hva hn
  rw [codeOp, issue_eq hstarts.enter.here hstarts.enter.clean]
  simp only [hstarts.enter.fresh, hstarts.live, hstarts.active, if_false, hstarts.priv, hword, firstHalt, hbad]
  exact trap_of_clear hclear _ _

theorem codeOp_of_good (hgood : rangeBad va n = none) (f : Ctx → Reads → BitVec 64 → Nat → Res) :
    codeOp h a b off s f = f c (headKills h a b .zero) va n := by
  subst hva hn
  rw [codeOp, issue_eq hstarts.enter.here hstarts.enter.clean]
  simp only [hstarts.enter.fresh, hstarts.live, hstarts.active, if_false, hstarts.priv, hword, firstHalt, hgood]

/-- A range with an end that is not canonical stops both instructions (R381). -/
theorem exec_codeRange_traps {x : BitVec 64} (hbad : rangeBad va n = some x) (hclear : c.clear = true) (scope : Scope) :
    exec (.cflush h a b off scope) s = .next (takeTrap s c.g c.x 0x08#8 x (c.pc.setWidth 64) 0#5)
      ∧ exec (.icinv h a b off scope) s = .next (takeTrap s c.g c.x 0x08#8 x (c.pc.setWidth 64) 0#5) := by
  refine ⟨?flush, ?inv⟩
  case flush =>
    change execCflush h a b off scope s = _
    exact codeOp_of_bad hstarts hword hva hn hbad hclear _
  case inv =>
    change execIcinv h a b off scope s = _
    exact codeOp_of_bad hstarts hword hva hn hbad hclear _

section
variable (hgood : rangeBad va n = none) (scope : Scope) {q : State}
include hgood

/-- CFLUSH begins with the release of its range's lines (R382). -/
theorem exec_cflush_begins {l : List (Nat × Nat)}
    (hpieces : piecesFrom c.g.id.die c.g.ctx (lineRange va.toNat n).2 (n / 65536 + 3) s (lineRange va.toNat n).1 = (q, .inr l)) :
    exec (.cflush h a b off scope) s = .next (addTask
      (({ c with s := q } : Ctx).begin (.cflush h a b off scope) (.task q.nextUid) .zero (headKills h a b .zero) [] true)
      (cflushTask q c.g scope l)) := by
  obtain rfl := hstarts.enter.state_eq
  have hfresh : ({ c with s := q } : Ctx).begun = none :=
    (begun_withState (issued_of_outsideCaches (outsideCaches_of_pieces hpieces))).trans hstarts.enter.fresh
  change execCflush h a b off scope c.s = _
  rw [execCflush, codeOp_of_good hstarts hword hva hn hgood]
  simp only [hpieces, hstarts.enter.fresh]
  exact withTask_of_fresh hfresh _ _ _ _ _ _ _

/-- A walk of the range that does not reach a home makes the slot wait for it (R382, R424). -/
theorem exec_cflush_walks {home : Nat}
    (hpieces : piecesFrom c.g.id.die c.g.ctx (lineRange va.toNat n).2 (n / 65536 + 3) s (lineRange va.toNat n).1 = (q, .inl home)) :
    exec (.cflush h a b off scope) s = .next (({ c with s := q } : Ctx).begin (.cflush h a b off scope) (.walk s.tick home) .zero
      (headKills h a b .zero) [va, BitVec.ofNat 64 n] true) := by
  obtain rfl := hstarts.enter.state_eq
  change execCflush h a b off scope c.s = _
  rw [execCflush, codeOp_of_good hstarts hword hva hn hgood]
  simp only [hpieces, hstarts.enter.fresh]

theorem exec_icinv_drops (haway : icinvAway s c.g scope = none) (hclear : c.clear = true) :
    exec (.icinv h a b off scope) s = .next (dropCode (afterCommit c ((killRegs c.a (headKills h a b .zero)).advance c.x))
      (icinvCores s c.g scope) c.g.ctx (lineRange va.toNat n).1 (lineRange va.toNat n).2) := by
  obtain rfl := hstarts.enter.state_eq
  change execIcinv h a b off scope c.s = _
  rw [execIcinv, codeOp_of_good hstarts hword hva hn hgood]
  simp only [haway, Ctx.afterRisk, hclear, if_true]
  exact commitWith_of_le (.inr hclear) (by simpa using heldSlots_killRegs c.a (headKills h a b .zero)) _

/-- The lines of the range of the gang's context leave the instruction caches of the scope, and no other line leaves any (R383). -/
theorem exec_icinv_caches (haway : icinvAway s c.g scope = none) (hclear : c.clear = true) :
    ∃ t, exec (.icinv h a b off scope) s = .next t ∧ GangHolds c ((killRegs c.a (headKills h a b .zero)).advance c.x) t ∧ t.mem = s.mem
      ∧ (∀ die core, icinvCores s c.g scope die core = false → (getCore t die core).icache = (getCore s die core).icache)
      ∧ ∀ die core, icinvCores s c.g scope die core = true → ∀ l, l ∈ (getCore t die core).icache ↔
          l ∈ (getCore s die core).icache
            ∧ ¬ (l.ctx = c.g.ctx ∧ (lineRange va.toNat n).1 < 128 * l.line + 128 ∧ 128 * l.line < (lineRange va.toNat n).2) := by
  have hexec := exec_icinv_drops hstarts hword hva hn hgood scope haway hclear
  obtain rfl := hstarts.enter.state_eq
  have hcore : ∀ die core, getCore (afterCommit c ((killRegs c.a (headKills h a b .zero)).advance c.x)) die core = getCore c.s die core :=
    getCore_congr rfl
  refine ⟨_, hexec, hstarts.enter.gangHolds_of_gangs rfl, rfl, fun die core hout => ?_, fun die core hin l => ?_⟩
  · rw [getCore_dropCode, hout, if_neg Bool.false_ne_true, hcore]
  · rw [getCore_dropCode, hin, if_pos rfl, hcore]
    exact CoreSt.mem_dropRange _ _ _ _ _

end

end

/-! ## A begun CFLUSH (R382) -/

/-- The machine in which a CFLUSH that has waited for its walk waits for the release of the pieces `l`. -/
def cflushReleasing (q : State) (c : Ctx) (p : Pend) (i : Instr) (scope : Scope) (l : List (Nat × Nat)) : State :=
  modGang (modPend (addTask q (cflushTask q c.g scope l)) p.op fun x => { x with kind := .begun i [] x.active true }) c.g.id fun g =>
    { g with arch := g.arch.setWait c.x (.task q.nextUid) }

section
variable {h : Head} {s : State} {c : Ctx} {p : Pend} (hres : Resumes s h.guard c p)
include hres

theorem Resumes.codeOp_eq (a b : Opnd) (off : BitVec 32) (f : Ctx → Reads → BitVec 64 → Nat → Res) :
    codeOp h a b off s f = f c [] (p.vals.headD 0#64) (p.vals.getD 1 0#64).toNat := by
  rw [codeOp, hres.issue_eq]
  simp only [hres.begun]

/-- The fault of a release is the precise trap of the instruction that has waited for it (R97, R409). -/
theorem Resumes.trapped_of_fault (hmay : MayTrap s c p) (id : Nat) (cause : BitVec 8) (tval : BitVec 64) :
    ∃ t, (c.resumed id).fail cause tval = .next t ∧ Trapped c p cause tval t := by
  obtain rfl := hres.state_eq
  obtain ⟨hclear, hmode, x, hentry⟩ := hmay
  obtain ⟨g, r, hg, harch⟩ := entering_gang hres.here
  have hclear' : (c.resumed id).clear = true := hclear
  have hbegun : (c.resumed id).begun = some p := hres.begun
  have hfound : findGang (dropTask c.s id) p.gang = some g := by rw [hres.gang_eq]; exact hg
  have hentry' : trapEntry (dropTask c.s id) { g with arch := p.ckpt } = some x :=
    (trapEntry_congr rfl rfl rfl (by rw [harch]) (by rw [harch])).trans hentry
  obtain ⟨hyounger, g', hg', -, hregs⟩ := preciseTrap_running hfound cause tval 0#5 hmode ⟨x, hentry'⟩
  rw [hres.gang_eq] at hg'
  refine ⟨preciseTrap (dropTask c.s id) p cause tval 0#5, ?_, hyounger, g', hg', hregs⟩
  simp only [Ctx.fail, hbegun, Ctx.afterRisk, hclear', if_true]
  rfl

variable (a b : Opnd) (off : BitVec 32) (scope : Scope)

/-- A CFLUSH that has begun its release ends as that has. -/
theorem exec_cflush_over {k : Machine.Task} (hvals : p.vals = []) (hwait : c.slot.wait = .task k.id) (hk : findTask s k.id = some k) :
    exec (.cflush h a b off scope) s = cflushEnd (c.resumed k.id) [] k.fault := by
  have hfault : (findTask c.s k.id).bind (fun t => t.fault) = k.fault := by rw [hres.state_eq, hk]; rfl
  change execCflush h a b off scope s = _
  rw [execCflush, hres.codeOp_eq]
  simp only [hres.begun, hvals, if_true]
  rw [hres.withTask_eq hwait, hfault]

theorem exec_cflush_ends {k : Machine.Task} (hvals : p.vals = []) (hwait : c.slot.wait = .task k.id) (hk : findTask s k.id = some k)
    (hnone : k.fault = none) : ∃ t, exec (.cflush h a b off scope) s = .next t ∧ Ended c p .zero 0#64 t ∧ t.mem = s.mem := by
  obtain ⟨t, ht, hended, hmem, -⟩ := hres.ended_wait k.id
  refine ⟨t, ?_, hended, hmem⟩
  rw [exec_cflush_over hres a b off scope hvals hwait hk, hnone, ← ht]
  simp only [cflushEnd, Ctx.finish, show (c.resumed k.id).begun = some p from hres.begun]
  rfl

theorem exec_cflush_traps {k : Machine.Task} (hvals : p.vals = []) (hwait : c.slot.wait = .task k.id) (hk : findTask s k.id = some k)
    {f : BitVec 8 × BitVec 64} (hfault : k.fault = some f) (hmay : MayTrap s c p) :
    ∃ t, exec (.cflush h a b off scope) s = .next t ∧ Trapped c p f.1 f.2 t := by
  rw [exec_cflush_over hres a b off scope hvals hwait hk, hfault]
  exact hres.trapped_of_fault hmay k.id f.1 f.2

/-- Once the walk reaches its homes the release of the range begins, and the slot waits for it where it stands. -/
theorem exec_cflush_walked {va : BitVec 64} {n : Nat} {q : State} {l : List (Nat × Nat)} (hn : n < 2 ^ 32)
    (hvals : p.vals = [va, BitVec.ofNat 64 n])
    (hpieces : piecesFrom c.g.id.die c.g.ctx (lineRange va.toNat n).2 (n / 65536 + 3) s (lineRange va.toNat n).1 = (q, .inr l)) :
    ∃ t g, exec (.cflush h a b off scope) s = .next t ∧ t.tasks = q.tasks ++ [cflushTask q c.g scope l] ∧ findGang t c.g.id = some g
      ∧ (g.arch.slot c.x).wait = .task q.nextUid ∧ (g.arch.slot c.x).pc = c.pc := by
  obtain rfl := hres.state_eq
  obtain ⟨g, r, hg, harch⟩ := entering_gang hres.here
  have hlen : (BitVec.ofNat 64 n).toNat = n := (BitVec.toNat_ofNat n 64).trans (Nat.mod_eq_of_lt (hn.trans (by decide)))
  have hpc : (g.arch.slot c.x).pc = c.pc := by
    rw [Ctx.pc, Ctx.slot, harch]
    cases c.x <;> rfl
  have hslot : (g.arch.setWait c.x (.task q.nextUid)).slot c.x = { g.arch.slot c.x with wait := .task q.nextUid } := by
    cases c.x <;> rfl
  have hgang : findGang q c.g.id = some g := (findGang_congr (gangs_of_outsideCaches (outsideCaches_of_pieces hpieces)) c.g.id).trans hg
  refine ⟨cflushReleasing q c p (.cflush h a b off scope) scope l, { g with arch := g.arch.setWait c.x (.task q.nextUid) }, ?_, rfl,
    findGang_updated (f := fun g => { g with arch := g.arch.setWait c.x (.task q.nextUid) }) hgang fun _ => rfl, ?_, ?_⟩
  · change execCflush h a b off scope c.s = _
    rw [execCflush, hres.codeOp_eq]
    simp only [hres.begun, hvals, List.headD_cons, List.getD_cons_succ, List.getD_cons_zero, hlen, hpieces, reduceCtorEq, if_false]
    rfl
  · exact congrArg Slot.wait hslot
  · exact (congrArg Slot.pc hslot).trans hpc

end

/-! ## FETCHB (R384) -/

theorem exec_fetchb {h : Head} {s : State} {c : Ctx} (henters : Enters s h.guard c) (hact : c.act ≠ 0#32) :
    exec (.fetchb h) s = .next (putGang s { c.g with fetch := [], arch := settleAccounts c.g.budget (c.a.advance c.x) }) := by
  obtain rfl := henters.state_eq
  change execFetchb h c.s = _
  rw [execFetchb, issue_eq henters.here henters.clean, if_neg hact]
  exact commit_of_le (c := { c with g := { c.g with fetch := [] } }) (.inl rfl) le_rfl

/-- Settles O43: CFLUSH and ICINV trap on a range that leaves the canonical addresses; CFLUSH walks its range and begins its release, at
whose end it goes on or traps; ICINV, FETCHB and the fill change what their lemmas above name. -/
theorem codeMaintenance : Obligations.CodeMaintenance := by
  refine ⟨fun h a b off scope s c va n hstarts hword hva hn =>
      ⟨fun x hbad hclear => exec_codeRange_traps hstarts hword hva hn hbad hclear scope, fun hgood =>
        ⟨fun q l => exec_cflush_begins hstarts hword hva hn hgood scope, fun q home => exec_cflush_walks hstarts hword hva hn hgood scope,
          exec_icinv_caches hstarts hword hva hn hgood scope⟩⟩,
    fun h a b off scope s c p hres =>
      ⟨fun k hvals hwait hk => ⟨exec_cflush_ends hres a b off scope hvals hwait hk, fun f =>
          exec_cflush_traps hres a b off scope hvals hwait hk⟩,
        fun va n q l => exec_cflush_walked hres a b off scope⟩,
    fun h s c => exec_fetchb, ?fill⟩
  case fill =>
    rintro s q g va tgt l hg htranslate hreach hfill rfl hclean
    exact exec_instructionFetchFill hg htranslate hreach hclean hfill

end Sys2Proof

/-!
What an access of the device's own leaves as it is (R16, R390, R395, R399), and queues as their owner keeps them (R389-R391).
-/
namespace Sys2Proof.Machine

/-! ## Everything beside the translations that dies have cached -/

/-- A die without the translations that it has cached. -/
def Die.untranslated (d : Die) : Die := { d with tlb := [] }

/-- The machine without the translations that its dies have cached. -/
def outsideTlbs (s : State) : State := { s with dies := s.dies.map Die.untranslated }

theorem getDie_outsideTlbs (s : State) (d : Nat) : getDie (outsideTlbs s) d = (getDie s d).untranslated := by
  simp [getDie, outsideTlbs, Vector.get_eq_getElem]

theorem modDie_outsideTlbs (s : State) (d : Nat) {f : Die → Die} (hf : ∀ x, (f x).untranslated = x.untranslated) :
    outsideTlbs (modDie s d f) = outsideTlbs s := by
  have hdies : (modDie s d f).dies.map Die.untranslated = s.dies.map Die.untranslated := by
    rw [modDie, getDie, Vector.map_set, hf, Vector.get_eq_getElem, ← Vector.getElem_map Die.untranslated, Vector.set_getElem_self]
  rw [outsideTlbs, hdies]
  rfl

theorem mem_of_outsideTlbs {s t : State} (h : outsideTlbs t = outsideTlbs s) : t.mem = s.mem := by
  have := congrArg State.mem h; exact this

theorem homeLost_of_outsideTlbs {s t : State} (h : outsideTlbs t = outsideTlbs s) (home : Nat) : homeLost t home = homeLost s home := by
  have hlost := congrArg State.lost h
  have hlinks := congrArg State.links h
  exact homeLost_congr hlost hlinks home

theorem leafBy_outsideTlbs (s : State) (reach : Nat → Bool) (die ctx : Nat) (va : BitVec 64) :
    outsideTlbs (leafBy s reach die ctx va).1 = outsideTlbs s := by
  unfold leafBy
  split
  · rfl
  · split
    · rfl
    · exact modDie_outsideTlbs _ _ fun _ => rfl

@[simp] theorem translateAny_outsideTlbs (s : State) (die ctx : Nat) (va : BitVec 64) (n : Nat) (k : Access) :
    outsideTlbs (translateAny s die ctx va n k).1 = outsideTlbs s := by
  unfold translateAny translateBy
  split
  · rfl
  · dsimp only
    repeat' split
    all_goals exact leafBy_outsideTlbs _ _ _ _ _

@[simp] theorem packetAt_outsideTlbs (s : State) (q : Queue) (w : BitVec 32) : outsideTlbs (packetAt s q w).1 = outsideTlbs s :=
  translateAny_outsideTlbs _ _ _ _ _ _

@[simp] theorem readRidx_outsideTlbs (s : State) (c : Context) : outsideTlbs (readRidx s c).1 = outsideTlbs s :=
  translateAny_outsideTlbs _ _ _ _ _ _

/-! ## Everything beside the package's memory, too -/

/-- The machine without its memory, what homes owe of writes in it, and the translations that its dies have cached. -/
def outsideMemory (s : State) : State := { outsideTlbs s with mem := [], poison := [], unfolded := [] }

theorem outsideMemory_of_outsideTlbs {s t : State} (h : outsideTlbs t = outsideTlbs s) : outsideMemory t = outsideMemory s := by
  rw [outsideMemory, h]; rfl

@[simp] theorem noteUnfolded_outsideMemory (s : State) (home n : Nat) (ops : List Nat) (pa : Nat) :
    outsideMemory (noteUnfolded s home n ops pa) = outsideMemory s := by
  unfold noteUnfolded; split <;> rfl

@[simp] theorem performHome_outsideMemory (s : State) (pa : Nat) (l : List Byte) (ops : List Nat) :
    outsideMemory (performHome s pa l ops) = outsideMemory s := by
  have hwrite : outsideMemory (homeWrite s pa l) = outsideMemory s := by rw [homeWrite_eq]; rfl
  exact List.foldlRecOn (motive := fun t => outsideMemory t = outsideMemory s) _ _ hwrite fun t h a _ =>
    (noteUnfolded_outsideMemory t _ _ _ a).trans h

theorem deviceWrite_outsideMemory {s t : State} {die ctx : Nat} {va : BitVec 64} {l : List Byte} (h : deviceWrite s die ctx va l = some t) :
    outsideMemory t = outsideMemory s := by
  obtain ⟨pa, -, rfl⟩ := Option.map_eq_some_iff.mp h
  rw [performHome_outsideMemory]
  exact outsideMemory_of_outsideTlbs (translateAny_outsideTlbs _ _ _ _ _ _)

section
variable {s t : State} (h : outsideMemory t = outsideMemory s)
include h

theorem queues_of_outsideMemory : t.queues = s.queues := by have := congrArg State.queues h; exact this
theorem contexts_of_outsideMemory : t.contexts = s.contexts := by have := congrArg State.contexts h; exact this
theorem gangs_of_outsideMemory : t.gangs = s.gangs := by have := congrArg State.gangs h; exact this
theorem tick_of_outsideMemory : t.tick = s.tick := by have := congrArg State.tick h; exact this
theorem interrupts_of_outsideMemory : t.interrupts = s.interrupts := by have := congrArg State.interrupts h; exact this

theorem findQueue_of_outsideMemory (n : Nat) : findQueue t n = findQueue s n := by
  rw [findQueue, queues_of_outsideMemory h]; rfl

theorem findContext_of_outsideMemory (n : Nat) : findContext t n = findContext s n := by
  rw [findContext, contexts_of_outsideMemory h]; rfl

end

/-! ## Everything beside queues and contexts, too -/

/-- The machine without its queues and contexts, its memory, and the translations that its dies have cached. -/
def outsideQueues (s : State) : State := { outsideMemory s with queues := [], contexts := [] }

theorem outsideQueues_of_outsideMemory {s t : State} (h : outsideMemory t = outsideMemory s) : outsideQueues t = outsideQueues s := by
  rw [outsideQueues, h]; rfl

section
variable {s t : State} (h : outsideQueues t = outsideQueues s)
include h

theorem gangs_of_outsideQueues : t.gangs = s.gangs := by have := congrArg State.gangs h; exact this
theorem launches_of_outsideQueues : t.launches = s.launches := by have := congrArg State.launches h; exact this

theorem lottery_of_outsideQueues (d : Nat) : (getDie t d).lottery = (getDie s d).lottery := by
  have hdie (u : State) : (getDie u d).lottery = (getDie (outsideQueues u) d).lottery := (congrArg Die.lottery (getDie_outsideTlbs u d)).symm
  rw [hdie t, h, ← hdie s]

end

/-! ## Queues -/

theorem findQueue_putQueue {s : State} {q y : Queue} (h : findQueue s q.num = some y) : findQueue (putQueue s q) q.num = some q := by
  have hfound := (find?_map_update Queue.num s.queues q.num q.num (fun _ => q) fun _ _ => rfl).trans (if_pos rfl)
  exact hfound.trans (congrArg (Option.map fun _ => q) h)

theorem putQueue_outsideQueues (s : State) (q : Queue) : outsideQueues (putQueue s q) = outsideQueues s := rfl
theorem dueRecord_outsideQueues (s : State) (ctx : Nat) (r : Record) : outsideQueues (dueRecord s ctx r) = outsideQueues s := rfl

theorem tryQueue_outsideQueues {s t : State} {q : Queue} (h : tryQueue s q = some t) : outsideQueues t = outsideQueues s := by
  unfold tryQueue at h
  split at h
  · rw [outsideQueues_of_outsideMemory (deviceWrite_outsideMemory h), putQueue_outsideQueues]
  · cases h
    exact putQueue_outsideQueues _ _

/-- The record stands as it was put, but for the note that its status block is still to be written (R390). -/
theorem findQueue_tryQueue {s t : State} {q y : Queue} (h : tryQueue s q = some t) (hy : findQueue s q.num = some y) :
    ∃ b, findQueue t q.num = some { q with stale := b } := by
  unfold tryQueue at h
  split at h
  · refine ⟨false, ?_⟩
    rw [findQueue_of_outsideMemory (deviceWrite_outsideMemory h)]
    exact findQueue_putQueue (q := { q with stale := false }) hy
  · cases h
    exact ⟨true, findQueue_putQueue (q := { q with stale := true }) hy⟩

theorem getD_tryQueue_outsideQueues (s : State) (q : Queue) : outsideQueues ((tryQueue s q).getD (putQueue s q)) = outsideQueues s := by
  cases h : tryQueue s q with
  | none => exact putQueue_outsideQueues _ _
  | some t => exact tryQueue_outsideQueues h

theorem findQueue_getD_tryQueue {s : State} {q y : Queue} (hy : findQueue s q.num = some y) :
    ∃ b, findQueue ((tryQueue s q).getD (putQueue s q)) q.num = some { q with stale := b } := by
  cases h : tryQueue s q with
  | none => exact ⟨q.stale, findQueue_putQueue hy⟩
  | some t => exact findQueue_tryQueue h hy

@[simp] theorem cancelHead_outsideQueues (s : State) (q : Queue) (code : Nat) : outsideQueues (cancelHead s q code) = outsideQueues s := by
  unfold cancelHead
  dsimp only
  split
  · exact getD_tryQueue_outsideQueues _ _
  · rw [getD_tryQueue_outsideQueues, dueRecord_outsideQueues]
    exact outsideQueues_of_outsideMemory (outsideMemory_of_outsideTlbs (packetAt_outsideTlbs s q q.ridx))

theorem findQueue_packetAt (s : State) (q : Queue) (w : BitVec 32) (n : Nat) : findQueue (packetAt s q w).1 n = findQueue s n :=
  findQueue_of_outsideMemory (outsideMemory_of_outsideTlbs (packetAt_outsideTlbs s q w)) n

/-- A queue that has entered ERROR: its head, if it has one, is passed, and BELL keeps its value (R389-R391). -/
theorem findQueue_cancelHead {s : State} {q y : Queue} (code : Nat) (hy : findQueue s q.num = some y) :
    ∃ q', findQueue (cancelHead s q code) q.num = some q' ∧ q'.state = .error ∧ q'.err = code ∧ q'.bell = q.bell
      ∧ q'.ridx = if q.ridx = q.bell then q.ridx else q.ridx + 1#32 := by
  unfold cancelHead
  dsimp only
  split
  case isTrue =>
    obtain ⟨b, hb⟩ := findQueue_getD_tryQueue (q := { q with state := .error, err := code }) hy
    exact ⟨_, hb, rfl, rfl, rfl, rfl⟩
  case isFalse =>
    obtain ⟨b, hb⟩ := findQueue_getD_tryQueue (s := dueRecord (packetAt s q q.ridx).1 q.ctx _)
      (q := ({ q with state := .error, err := code, ridx := q.ridx + 1#32 } : Queue).passed q.ridx)
      ((findQueue_packetAt s q q.ridx q.num).trans hy)
    exact ⟨_, hb, rfl, rfl, rfl, rfl⟩

/-- A queue whose status block cannot be written fails with ERRCODE 4, unless it is in ERROR already (R390, R391). -/
theorem setQueue_of_unwritable {s : State} {q : Queue} (h : tryQueue s q = none) (hstate : q.state ≠ .error) :
    setQueue s q = cancelHead s q 4 := by
  rw [setQueue, h]
  exact if_neg hstate

theorem setQueue_of_written {s t : State} {q : Queue} (h : tryQueue s q = some t) : setQueue s q = t := by rw [setQueue, h]

@[simp] theorem setQueue_outsideQueues (s : State) (q : Queue) : outsideQueues (setQueue s q) = outsideQueues s := by
  unfold setQueue
  split
  case h_1 h => exact tryQueue_outsideQueues h
  case h_2 =>
    split
    · exact putQueue_outsideQueues _ _
    · exact cancelHead_outsideQueues _ _ _

@[simp] theorem completePacket_outsideQueues (s : State) (qn : Nat) (r : Record) :
    outsideQueues (completePacket s qn r) = outsideQueues s := by
  unfold completePacket
  split
  · rfl
  · rw [setQueue_outsideQueues, dueRecord_outsideQueues]

/-! ## BELL_WRITE (R389) -/

section
variable {s : State} {q : Queue} (hq : findQueue s q.num = some q) (hopen : hostOpen s = true) {w : BitVec 32}
include hq hopen

theorem exec_bellWrite_inRange (hrange : idxDiff w q.ridx ≤ 2 ^ q.log2) :
    exec (.bellWrite q.num w) s = .next (modQueue s q.num fun _ => { q with bell := w }) := by
  change execBellWrite q.num w s = _
  simp only [execBellWrite, hopen, if_true, ringBell, hq, Nat.not_lt.mpr hrange, if_false]
  rfl

theorem exec_bellWrite_past (hrange : 2 ^ q.log2 < idxDiff w q.ridx) :
    exec (.bellWrite q.num w) s = .next (if q.state = .error then s else cancelHead s q 2) := by
  change execBellWrite q.num w s = _
  simp only [execBellWrite, hopen, if_true, ringBell, hq, hrange]

end

/-! ## READY queues and the winner (R397) -/

theorem mem_insertQueue {q x : Queue} {l : List Queue} : x ∈ insertQueue q l ↔ x = q ∨ x ∈ l := by
  induction l with
  | nil => simp [insertQueue]
  | cons y rest ih =>
    rw [insertQueue]
    split
    · rw [List.mem_cons]
    · rw [List.mem_cons, ih, List.mem_cons]
      exact or_left_comm

theorem mem_foldl_insertQueue {x : Queue} {l sorted : List Queue} :
    x ∈ l.foldl (fun l q => insertQueue q l) sorted ↔ x ∈ l ∨ x ∈ sorted := by
  induction l generalizing sorted with
  | nil => simp
  | cons y rest ih =>
    rw [List.foldl_cons, ih, mem_insertQueue, List.mem_cons]
    exact or_left_comm.trans or_assoc.symm

theorem not_error_of_queueNow_ready {s : State} {q : Queue} (h : (queueNow s q).2 = .ready) : q.state ≠ .error := by
  intro herror
  rw [queueNow, if_pos herror] at h
  exact nomatch h

theorem not_error_of_mem_readyQueues {s : State} {die : Nat} {q : Queue} (h : q ∈ readyQueues s die) : q.state ≠ .error := by
  have hmem := (mem_foldl_insertQueue.mp h).resolve_right (List.not_mem_nil)
  have hready := (List.mem_filter.mp hmem).2
  rw [Bool.and_eq_true, decide_eq_true_eq] at hready
  exact not_error_of_queueNow_ready hready.1

theorem mem_of_lotteryPick {t n : Nat} {l : List Queue} {q : Queue} (h : lotteryPick t n l = some q) : q ∈ l := by
  induction l generalizing n with
  | nil => exact nomatch h
  | cons x rest ih =>
    rw [lotteryPick] at h
    split at h
    · cases h
      exact List.mem_cons_self
    · exact List.mem_cons_of_mem _ (ih h)

/-! ## LOTTERY_DRAW (R391, R397) -/

/-- The machine once a die's lottery has stepped. -/
def drawn (s : State) (die : Nat) : State := modDie s die fun d => { d with lottery := lotteryNext d.lottery }

/-- A queue once its head packet `p` is taken at a tick (R391). -/
def Queue.taking (q : Queue) (p : BitVec 512) (tick : Nat) : Queue :=
  { q with ridx := q.ridx + 1#32, taken := q.taken ++ [{ pindex := q.ridx, packet := p, start := tick, begun := false }] }

theorem exec_lotteryDraw {s : State} {die : Nat} {q : Queue} (hlost : dieLost s die = false) (hready : readyQueues s die ≠ [])
    (hwinner : lotteryWinner (lotteryNext (getDie s die).lottery) (readyQueues s die) = some q) :
    exec (.lotteryDraw die) s = .next (takeHead (drawn s die) q) := by
  change execLotteryDraw die s = _
  simp only [execLotteryDraw, hlost, hready, Bool.false_eq_true, or_self, if_false, hwinner]
  rfl

section
variable {s : State} {q : Queue}

theorem takeHead_of_ok {p : BitVec 512} (hp : (packetAt s q q.ridx).2 = some p) (hok : packetOk q q.ridx p = true) :
    takeHead s q = setQueue (packetAt s q q.ridx).1 (q.taking p s.tick) := by
  simp only [takeHead, hp, hok, Bool.not_true, Bool.false_eq_true, if_false]
  rfl

theorem takeHead_of_malformed (hbad : ∀ p, (packetAt s q q.ridx).2 = some p → packetOk q q.ridx p = false) :
    takeHead s q = cancelHead (packetAt s q q.ridx).1 q 1 := by
  cases hp : (packetAt s q q.ridx).2 with
  | none => simp only [takeHead, hp]
  | some p => simp only [takeHead, hp, hbad p hp, Bool.not_false, if_true]

/-- The record of a queue that has just been put: as put, or failed with ERRCODE 4 when its status block cannot be written (R390, R391). -/
theorem findQueue_setQueue {x y : Queue} (hy : findQueue s x.num = some y) (hstate : x.state ≠ .error) :
    ∃ x', findQueue (setQueue s x) x.num = some x' ∧ ((tryQueue s x).isSome = true → x' = { x with stale := x'.stale })
      ∧ ((tryQueue s x).isSome = false → x'.state = .error ∧ x'.err = 4) := by
  cases htry : tryQueue s x with
  | some t =>
    obtain ⟨b, hb⟩ := findQueue_tryQueue htry hy
    rw [setQueue_of_written htry]
    exact ⟨_, hb, fun _ => rfl, fun h => (nomatch h)⟩
  | none =>
    obtain ⟨x', hx', herror, herr, -⟩ := findQueue_cancelHead 4 hy
    rw [setQueue_of_unwritable htry hstate]
    exact ⟨x', hx', fun h => (nomatch h), fun _ => ⟨herror, herr⟩⟩

theorem takeHead_outsideQueues : outsideQueues (takeHead s q) = outsideQueues s := by
  have hread := outsideQueues_of_outsideMemory (outsideMemory_of_outsideTlbs (packetAt_outsideTlbs s q q.ridx))
  unfold takeHead
  dsimp only
  split
  · rw [cancelHead_outsideQueues, hread]
  · split
    · rw [cancelHead_outsideQueues, hread]
    · rw [setQueue_outsideQueues, hread]

end

end Sys2Proof.Machine

/-!
Packets that have been taken: a LAUNCH and its shares (R393, R398), and DEPEND, SIGNAL and CHAIN (R394-R396).
-/
namespace Sys2Proof.Machine

/-! ## The shares of a LAUNCH (R398) -/

/-- Each die of a split has one share. -/
theorem nodup_launchShares (s : State) (mask : BitVec 8) (grid : Nat) : ((launchShares s mask grid).map fun x => x.1).Nodup := by
  have hdies : (liveDies s mask).Nodup := List.nodup_range.filter _
  refine List.Nodup.sublist (List.filter_sublist.map _) ?_
  rw [List.map_map]
  exact (List.map_fst_zip (List.length_range.ge)).symm ▸ hdies

/-! ## Posted shares (R206, R393) -/

/-- A mailbox with a packet appended under the next sequence number. -/
def Mailbox.post (m : Mailbox) (p : BitVec 512) : Mailbox := { m with packets := m.packets ++ [(m.seq, p)], seq := m.seq + 1#32 }

theorem postPacket_mailboxes (s : State) (die ctx : Nat) (p : BitVec 512) (launch : Option Nat) :
    (postPacket s die ctx p launch).mailboxes = (modMailbox s die ctx fun m => { m with
      packets := m.packets ++ [((getMailbox s die ctx).seq, p)], seq := m.seq + 1#32 }).mailboxes := by
  unfold postPacket
  split <;> rfl

theorem getMailbox_postPacket (s : State) (die ctx : Nat) (p : BitVec 512) (launch : Option Nat) :
    getMailbox (postPacket s die ctx p launch) die ctx = (getMailbox s die ctx).post p := by
  exact (getMailbox_congr (postPacket_mailboxes s die ctx p launch) die ctx).trans (getMailbox_modMailbox s die ctx fun _ => rfl)

theorem getMailbox_postPacket_ne (s : State) {die die' : Nat} (h : die' ≠ die) (ctx : Nat) (p : BitVec 512) (launch : Option Nat) :
    getMailbox (postPacket s die ctx p launch) die' ctx = getMailbox s die' ctx := by
  have hkeys : (die', ctx) ≠ (die, ctx) := fun hkeys => h (Prod.mk.inj hkeys).1
  have hother := lookupOr_updateOr (key := mailKey) (dflt := fun k => Mailbox.empty k.1 k.2) (fun _ => rfl) s.mailboxes (die, ctx) (die', ctx)
    (f := fun m => { m with packets := m.packets ++ [((getMailbox s die ctx).seq, p)], seq := m.seq + 1#32 }) fun _ => rfl
  rw [if_neg hkeys, ← modMailbox_mailboxes, ← postPacket_mailboxes (launch := launch)] at hother
  exact (getMailbox_eq_lookupOr _ _ _).trans (hother.trans (getMailbox_eq_lookupOr _ _ _).symm)

theorem postPacket_launches (s : State) (die ctx : Nat) (p : BitVec 512) (launch : Option Nat) :
    (postPacket s die ctx p launch).launches = s.launches := by
  unfold postPacket modMailbox
  split <;> split <;> rfl

section
variable (ctx uid : Nat) (p : BitVec 512) (l : List (Nat × Nat × Nat))

theorem postShares_frame (s : State) : (postShares s ctx uid p l).gangs = s.gangs ∧ (postShares s ctx uid p l).mem = s.mem
    ∧ (postShares s ctx uid p l).launches = s.launches := by
  induction l generalizing s with
  | nil => exact ⟨rfl, rfl, rfl⟩
  | cons x rest ih =>
    obtain ⟨hgangs, hmem, hlaunches⟩ := ih (postPacket s x.1 ctx (sharePacket p x.2.1 x.2.2) (some uid))
    obtain ⟨hpost, hpost'⟩ := postPacket_frame s x.1 ctx (sharePacket p x.2.1 x.2.2) (some uid)
    exact ⟨hgangs.trans hpost, hmem.trans hpost', hlaunches.trans (postPacket_launches _ _ _ _ _)⟩

theorem getMailbox_postShares_ne {die : Nat} (h : die ∉ l.map fun x => x.1) (s : State) :
    getMailbox (postShares s ctx uid p l) die ctx = getMailbox s die ctx := by
  induction l generalizing s with
  | nil => rfl
  | cons x rest ih =>
    obtain ⟨hne, hrest⟩ := List.ne_and_not_mem_of_not_mem_cons h
    exact (ih hrest _).trans (getMailbox_postPacket_ne s hne ctx _ _)

/-- Each die's mailbox gets its own share. -/
theorem getMailbox_postShares (hnodup : (l.map fun x => x.1).Nodup) {x : Nat × Nat × Nat} (hx : x ∈ l) (s : State) :
    getMailbox (postShares s ctx uid p l) x.1 ctx = (getMailbox s x.1 ctx).post (sharePacket p x.2.1 x.2.2) := by
  induction l generalizing s with
  | nil => exact nomatch hx
  | cons y rest ih =>
    obtain ⟨hfirst, hrest⟩ := List.nodup_cons.mp hnodup
    rcases List.mem_cons.mp hx with rfl | hmem
    · exact (getMailbox_postShares_ne ctx uid p rest hfirst _).trans (getMailbox_postPacket s x.1 ctx _ _)
    · have hne : x.1 ≠ y.1 := fun heq => hfirst (List.mem_map.mpr ⟨x, hmem, heq⟩)
      exact (ih hrest hmem _).trans (congrArg (Mailbox.post · _) (getMailbox_postPacket_ne s hne ctx _ _))

end

/-! ## Taken packets (R393-R396) -/

/-- The machine once a LAUNCH has begun and its shares are posted (R393, R398). -/
def launched (s : State) (q : Queue) (k : Taken) (l : List (Nat × Nat × Nat)) : State :=
  postShares (beginTaken { s with launches := s.launches ++ [newLaunch s q k l], nextUid := s.nextUid + 1 } q k) q.ctx s.nextUid k.packet l

section
variable {s : State} {n w : Nat} {q : Queue} {k : Taken}

theorem exec_launchPacket_refused (h : takenOf s n w 1 = some (q, k)) {status : Nat} (hrefused : launchRefused s q k.packet = some status) :
    exec (.launchPacket n w) s = .next (finishTaken s q k status 0) := by
  change execLaunchPacket n w s = _
  simp only [execLaunchPacket, h, hrefused]

theorem exec_launchPacket (h : takenOf s n w 1 = some (q, k)) (hruns : launchRefused s q k.packet = none)
    (hfit : sharesFit s q.ctx (launchShares s q.mask (launchGrid k.packet).toNat) = true)
    (hreach : sharesReach s q (launchShares s q.mask (launchGrid k.packet).toNat) = true) :
    exec (.launchPacket n w) s = .next (launched s q k (launchShares s q.mask (launchGrid k.packet).toNat)) := by
  change execLaunchPacket n w s = _
  simp only [execLaunchPacket, h, hruns, hfit, hreach, Bool.not_true, Bool.or_self, Bool.false_eq_true, if_false]
  rfl

theorem launched_frame (s : State) (q : Queue) (k : Taken) (l : List (Nat × Nat × Nat)) :
    (launched s q k l).gangs = s.gangs ∧ (launched s q k l).mem = s.mem ∧ (launched s q k l).launches = s.launches ++ [newLaunch s q k l] :=
  postShares_frame q.ctx s.nextUid k.packet l _

theorem launched_shares (s : State) (q : Queue) (k : Taken) {l : List (Nat × Nat × Nat)} (hnodup : (l.map fun x => x.1).Nodup)
    {x : Nat × Nat × Nat} (hx : x ∈ l) :
    (getMailbox (launched s q k l) x.1 q.ctx).packets
      = (getMailbox s x.1 q.ctx).packets ++ [((getMailbox s x.1 q.ctx).seq, sharePacket k.packet x.2.1 x.2.2)] :=
  congrArg Mailbox.packets (getMailbox_postShares q.ctx s.nextUid k.packet l hnodup hx _)

theorem exec_dependPacket (h : takenOf s n w 2 = some (q, k)) (hdone : refsDone s q k.packet = true) :
    exec (.dependPacket n w) s = .next (finishTaken s q k 0 0) := by
  change execDependPacket n w s = _
  simp only [execDependPacket, h, hdone, if_true]
  rfl

section
variable (h : takenOf s n w 3 = some (q, k)) (hturn : q.done = k.pindex)
  (hreach : deviceReach s (queueDie s q) q.ctx (k.packet.extractLsb' 64 64) 8 .write = true)
include h hturn hreach

theorem exec_signalPacket_fails (hwrite : signalWrite s q k.packet = none) :
    exec (.signalPacket n w) s = .next (finishTaken s q k 8 1) := by
  change execSignalPacket n w s = _
  simp only [execSignalPacket, h, hturn, hreach, ne_eq, not_true_eq_false, Bool.not_true, Bool.false_eq_true, or_self, if_false, hwrite]
  rfl

theorem exec_signalPacket {t : State} {y : Queue} (hwrite : signalWrite s q k.packet = some t) (hy : findQueue t n = some y) :
    exec (.signalPacket n w) s = .next (finishTaken t y k 0 0) := by
  change execSignalPacket n w s = _
  simp only [execSignalPacket, h, hturn, hreach, ne_eq, not_true_eq_false, Bool.not_true, Bool.false_eq_true, or_self, if_false, hwrite, hy]
  rfl

end

section
variable (h : takenOf s n w 4 = some (q, k))
include h

theorem exec_chainPacket_lost (hlost : dieLost s (packetBits k.packet 2 0 3) = true) :
    exec (.chainPacket n w) s = .next (finishTaken s q k 6 0) := by
  change execChainPacket n w s = _
  simp only [execChainPacket, h, hlost, if_true]
  rfl

theorem exec_chainPacket (hlost : dieLost s (packetBits k.packet 2 0 3) = false)
    (hroom : (engineChains s (packetBits k.packet 2 0 3) (packetBits k.packet 2 4 4)).length < 64)
    (hreach : dieReach s (queueDie s q) (packetBits k.packet 2 0 3) = true) :
    exec (.chainPacket n w) s = .next (startChain (beginTaken s q k) (packetBits k.packet 2 0 3) (packetBits k.packet 2 4 4) q.ctx
      (.packet n k.pindex) (packetBits k.packet 8 0 64)) := by
  change execChainPacket n w s = _
  simp only [execChainPacket, h, hlost, hreach, Nat.not_le.mpr hroom, Bool.not_true, Bool.false_eq_true, or_self, if_false]

end

end

/-! ## The word of a SIGNAL (R395) -/

/-- The word that a SIGNAL leaves at a home address: its operand, or with ADD the sum of both (R395). -/
def packetSignal (t : State) (p : BitVec 512) (pa : Nat) : DWord :=
  if packetBits p 2 0 8 = 1 then BitVec.ofNat 64 (homeNat t pa 8) + p.extractLsb' 128 64 else p.extractLsb' 128 64

theorem signalWrite_eq {s t : State} {q : Queue} {p : BitVec 512} {pa : Nat} {hb : Bool}
    (h : translateAny s (queueDie s q) q.ctx (p.extractLsb' 64 64) 8 .write = (t, .inr (.mem pa hb)))
    (hlost : homeLost t (homeOf pa) = false) :
    signalWrite s q p = some (performHome t pa (bytesOfNat 8 (packetSignal t p pa).toNat) []) := by
  have htlbs := translateAny_outsideTlbs s (queueDie s q) q.ctx (p.extractLsb' 64 64) 8 .write
  rw [h] at htlbs
  have hlost' : homeLost s (homeOf pa) = false := (homeLost_of_outsideTlbs htlbs _).symm.trans hlost
  simp only [signalWrite, h, hlost', Bool.false_eq_true, if_false, packetSignal, decide_eq_true_eq, apply_ite BitVec.toNat]

/-- The word stands at its home, and no other byte has changed. -/
theorem homeNat_performHome {t : State} (hwf : Memory.wf t.mem = true) (hstill : t.migrations = []) {pa : Nat}
    (hlost : homeLost t (homeOf pa) = false) (x : DWord) :
    homeNat (performHome t pa (bytesOfNat 8 x.toNat) []) pa 8 = x.toNat
      ∧ ∀ a, a < pa ∨ pa + 8 ≤ a → cellGet (performHome t pa (bytesOfNat 8 x.toNat) []).mem a = cellGet t.mem a := by
  rw [homeNat, standsAt_of_still (performHome_migrations hstill _ _ _), performHome_mem hstill hlost]
  refine ⟨?_, fun a ha => ?_⟩
  · rw [natOfBytes_cellsWrite hwf]
    exact Nat.mod_eq_of_lt (toNat_lt_bytes (n := 8) x)
  · exact cellGet_cellsWrite_outside hwf pa a _ (by rwa [length_bytesOfNat])

end Sys2Proof.Machine

namespace Sys2Proof
open Machine

/-- Settles O53: a queue that its bell or its draw fails is the cancelled one, a taken head is put as it stands, and a taken packet does what
its kind's rule says. -/
theorem queuesRun : Obligations.QueuesRun := by
  refine ⟨⟨fun s q w hq hopen => ⟨exec_bellWrite_inRange hq hopen, fun hrange herror => ?past, fun hrange hstate => ?fails⟩,
    fun s t die q hdie hlost hready hwinner hq ht => ?draw⟩,
    fun s w q k => ⟨fun h => ⟨fun status => exec_launchPacket_refused h, fun hruns hfit hreach => ?launch⟩, exec_dependPacket,
      fun h hturn hreach => ⟨exec_signalPacket_fails h hturn hreach, fun t y => exec_signalPacket h hturn hreach⟩,
      fun h => ⟨exec_chainPacket_lost h, fun hlost hroom hreach => ?chain⟩,
      fun t pa hb htranslate hlost hwf hstill => ⟨_, signalWrite_eq htranslate hlost, homeNat_performHome hwf hstill hlost _⟩⟩⟩
  case past => rw [exec_bellWrite_past hq hopen hrange, if_pos herror]
  case fails =>
    obtain ⟨q', hcancelled⟩ := findQueue_cancelHead 2 hq
    exact ⟨_, q', by rw [exec_bellWrite_past hq hopen hrange, if_neg hstate], hcancelled⟩
  case draw =>
    obtain rfl : t = drawn s die := ht
    have hstate : q.state ≠ .error := not_error_of_mem_readyQueues (mem_of_lotteryPick hwinner)
    have hexec := exec_lotteryDraw hlost hready hwinner
    have hread : findQueue (packetAt (drawn s die) q q.ridx).1 q.num = some q := (findQueue_packetAt _ _ _ _).trans hq
    have hframe := takeHead_outsideQueues (s := drawn s die) (q := q)
    refine ⟨fun p x hp hok hx => ?_, fun hbad hhead => ?_⟩
    · subst hx
      obtain ⟨q', hfind, hwritten, hunwritten⟩ := findQueue_setQueue (x := q.taking p s.tick) hread hstate
      refine ⟨_, q', hexec, (lottery_of_outsideQueues hframe die).trans (congrArg Die.lottery (getDie_modDie s die _)), ?_,
        (gangs_of_outsideQueues hframe).trans (modDie_gangs s die _), hwritten, hunwritten⟩
      exact (takeHead_of_ok hp hok).symm ▸ hfind
    · obtain ⟨q', hfind, herror, herr, -, hridx⟩ := findQueue_cancelHead 1 hread
      exact ⟨_, q', hexec, (takeHead_of_malformed hbad).symm ▸ hfind, herror, herr, hridx.trans (if_neg hhead)⟩
  case launch =>
    obtain ⟨hgangs, hmem, hlaunches⟩ := launched_frame s q k (launchShares s q.mask (launchGrid k.packet).toNat)
    exact ⟨_, exec_launchPacket h hruns hfit hreach, hmem, hgangs, hlaunches, fun x => launched_shares s q k (nodup_launchShares _ _ _)⟩
  case chain =>
    obtain ⟨hmem, -, hgangs⟩ := startChain_frame (beginTaken s q k) (packetBits k.packet 2 0 3) (packetBits k.packet 2 4 4) q.ctx
      (.packet q.num k.pindex) (packetBits k.packet 8 0 64)
    exact ⟨_, _, exec_chainPacket h hlost hroom hreach, startChain_chains _ _ _ _ _ _, hmem, hgangs, rfl, rfl, rfl, rfl, rfl, rfl⟩

end Sys2Proof

/-!
Completion records and the interrupts that announce them (R399, R400), and the new attempt of a replayed launch (R401).
-/
namespace Sys2Proof.Machine

/-! ## A context that has been replaced -/

theorem findContext_replaced {s : State} {n : Nat} {c d : Context} (h : findContext s n = some c) (hd : d.num = n) :
    findContext (modContext s n fun _ => d) n = some d :=
  (find?_map_update Context.num s.contexts n n (fun _ => d) fun _ _ => hd).trans ((if_pos rfl).trans (congrArg (Option.map fun _ => d) h))

theorem findContext_updated {s : State} {n : Nat} {c : Context} (h : findContext s n = some c) {f : Context → Context}
    (hf : ∀ c, (f c).num = c.num) : findContext (modContext s n f) n = some (f c) := by
  rw [findContext_modContext s n hf, h]; rfl

/-! ## Interrupts of an event ring (R399) -/

theorem findContext_announce {s : State} {c d : Context} (h : findContext s c.num = some d) :
    findContext (announce s c) c.num = some { d with unannounced := [], nowPending := false } :=
  findContext_updated h fun _ => rfl

theorem exec_eventRingTimer {s : State} {c : Context} {k : Nat} {rest : List Nat} (hc : findContext s c.num = some c)
    (hold : c.unannounced = k :: rest) (htimer : c.evu ≠ 0) (hdue : k + 1000 * c.evu ≤ s.tick) :
    exec (.eventRingTimer c.num) s = .next (announce s c) := by
  change execEventRingTimer c.num s = _
  simp only [execEventRingTimer, hc, hold, htimer, hdue, ne_eq, not_false_eq_true, and_self, if_true]

/-! ## A record that is written (R399, R400) -/

theorem writeRecord_outsideMemory {s t : State} {c : Context} {r : Record} (h : writeRecord s c r = some t) :
    outsideMemory t = outsideMemory s := by
  unfold writeRecord at h
  split at h
  case h_1 => exact nomatch h
  case h_2 u hu => exact (deviceWrite_outsideMemory h).trans (deviceWrite_outsideMemory hu)

/-- The context once a record has been written at a tick: it is not due any more, and not announced yet. -/
def Context.recorded (c : Context) (r : Record) (rest : List Record) (tick : Nat) : Context :=
  { c with widx := c.widx + 1#32, due := rest, unannounced := c.unannounced ++ [tick], nowPending := c.nowPending || r.now }

theorem announceDue_recorded (c : Context) (r : Record) (rest : List Record) (tick : Nat) :
    announceDue (c.recorded r rest tick) = true ↔ c.unannounced.length + 1 ≥ c.evc ∨ c.nowPending = true ∨ r.now = true := by
  simp [announceDue, Context.recorded]

section
variable {s t : State} {c : Context} {r : Record} {rest : List Record}

theorem putRecord_of_lost (h : writeRecord s c r = none) : putRecord s c r rest = loseRecord s c rest := by
  simp only [putRecord, h]

theorem putRecord_of_written (h : writeRecord s c r = some t) :
    putRecord s c r rest = if announceDue (c.recorded r rest s.tick) then
        announce (modContext t c.num fun _ => c.recorded r rest s.tick) (c.recorded r rest s.tick)
      else modContext t c.num fun _ => c.recorded r rest s.tick := by
  simp only [putRecord, h]
  rfl

/-- The record is written and WIDX moves; the interrupt announces all records at once, or none. -/
theorem putRecord_written (hc : findContext s c.num = some c) (h : writeRecord s c r = some t) :
    ∃ d, findContext (putRecord s c r rest) c.num = some d ∧ d.widx = c.widx + 1#32 ∧ d.due = rest ∧ d.ridx = c.ridx
      ∧ (putRecord s c r rest).mem = t.mem ∧ (putRecord s c r rest).gangs = s.gangs
      ∧ ((c.unannounced.length + 1 ≥ c.evc ∨ c.nowPending = true ∨ r.now = true) →
          (putRecord s c r rest).interrupts = s.interrupts ++ [ringVector c.num] ∧ d.unannounced = [])
      ∧ (c.unannounced.length + 1 < c.evc → c.nowPending = false → r.now = false →
          (putRecord s c r rest).interrupts = s.interrupts ∧ d.unannounced = c.unannounced ++ [s.tick]) := by
  have hmemory := writeRecord_outsideMemory h
  have hgangs := gangs_of_outsideMemory hmemory
  have hinterrupts := interrupts_of_outsideMemory hmemory
  have hfind : findContext (modContext t c.num fun _ => c.recorded r rest s.tick) c.num = some (c.recorded r rest s.tick) :=
    findContext_replaced ((findContext_of_outsideMemory hmemory _).trans hc) rfl
  have hdue := announceDue_recorded c r rest s.tick
  rw [putRecord_of_written h]
  by_cases hannounce : announceDue (c.recorded r rest s.tick) = true
  · rw [if_pos hannounce]
    refine ⟨_, findContext_announce (c := c.recorded r rest s.tick) hfind, rfl, rfl, rfl, rfl, hgangs, fun _ => ⟨?_, rfl⟩,
      fun hfew hnow hrec => ?_⟩
    · exact congrArg (· ++ [ringVector c.num]) hinterrupts
    · have hdue := hdue.mp hannounce
      simp only [hnow, hrec, Bool.false_eq_true, or_false] at hdue
      exact absurd hdue (Nat.not_le.mpr hfew)
  · rw [if_neg hannounce]
    exact ⟨_, hfind, rfl, rfl, rfl, rfl, hgangs, fun h => absurd (hdue.mpr h) hannounce, fun _ _ _ => ⟨hinterrupts, rfl⟩⟩

end

/-! ## RIDX as it is read (R399) -/

theorem readRidx_frame {s t : State} {c : Context} {x : Option (BitVec 32)} (h : readRidx s c = (t, x)) : outsideTlbs t = outsideTlbs s := by
  have := readRidx_outsideTlbs s c
  rwa [h] at this

/-- The machine `t` with RIDX noted in a context as it was read at a tick. -/
def rereads (t : State) (c : Context) (x : BitVec 32) (tick : Nat) : State := modContext t c.num fun _ => c.readAt x tick

section
variable {s t : State} {c : Context} {x : BitVec 32} (hc : findContext s c.num = some c) (hread : readRidx s c = (t, some x))
include hc hread

theorem findContext_read : findContext t c.num = some c :=
  (findContext_of_outsideMemory (outsideMemory_of_outsideTlbs (readRidx_frame hread)) _).trans hc

theorem findContext_rereads (tick : Nat) : findContext (rereads t c x tick) c.num = some (c.readAt x tick) :=
  findContext_replaced (findContext_read hc hread) rfl

theorem exec_ridxPoll (hfull : ringFull c = true) (hreach : ringReach s c false = true) :
    exec (.ridxPoll c.num) s = .next (modContext t c.num fun c => c.readAt x s.tick) := by
  change execRidxPoll c.num s = _
  simp only [execRidxPoll, hc, hfull, hreach, hread, Bool.not_true, Bool.or_self, Bool.false_eq_true, if_false]

theorem exec_completionRecord_rereads {r : Record} {rest : List Record} (hdue : c.due = r :: rest) (hreach : ringReach s c true = true)
    (hfull : ringFull c = true) :
    exec (.completionRecord c.num) s = .next (if ringFull (c.readAt x s.tick) then rereads t c x s.tick
      else putRecord (rereads t c x s.tick) (c.readAt x s.tick) r rest) := by
  change execCompletionRecord c.num s = _
  simp only [execCompletionRecord, hc, hdue, hreach, hfull, hread, Bool.not_true, Bool.false_eq_true, if_false, if_true, rereads]
  split <;> rfl

end

theorem exec_completionRecord_room {s : State} {c : Context} {r : Record} {rest : List Record} (hc : findContext s c.num = some c)
    (hdue : c.due = r :: rest) (hreach : ringReach s c true = true) (hroom : ringFull c = false) :
    exec (.completionRecord c.num) s = .next (putRecord s c r rest) := by
  change execCompletionRecord c.num s = _
  simp only [execCompletionRecord, hc, hdue, hreach, hroom, Bool.not_true, Bool.false_eq_true, if_false]

/-! ## COMPLETION_RECORD (R399) -/

/-- The ring has room for a record: in `s` as it was last read, or in `q`, where RIDX has just been read (R399). -/
def RingHasRoom (s q : State) (c e : Context) : Prop :=
  ringFull c = false ∧ q = s ∧ e = c ∨ ringFull c = true ∧ ringFull e = false ∧
    ∃ p x, readRidx s c = (p, some x) ∧ e = c.readAt x s.tick ∧ q = modContext p c.num fun _ => e

/-- A reading of RIDX changes nothing else of the context, and neither gangs nor interrupts. -/
theorem RingHasRoom.frame {s q : State} {c e : Context} (hroom : RingHasRoom s q c e) :
    (∃ x tick, e = c.readAt x tick) ∧ q.gangs = s.gangs ∧ q.interrupts = s.interrupts ∧ q.tick = s.tick := by
  rcases hroom with ⟨-, rfl, rfl⟩ | ⟨-, -, p, x, hread, rfl, rfl⟩
  · exact ⟨⟨e.ridx, e.polled, rfl⟩, rfl, rfl, rfl⟩
  · have hmemory := outsideMemory_of_outsideTlbs (readRidx_frame hread)
    have hgangs := gangs_of_outsideMemory hmemory
    have hinterrupts := interrupts_of_outsideMemory hmemory
    have htick := tick_of_outsideMemory hmemory
    exact ⟨⟨x, s.tick, rfl⟩, hgangs, hinterrupts, htick⟩

section
variable {s q : State} {c e : Context} (hc : findContext s c.num = some c) (hroom : RingHasRoom s q c e)
include hc hroom

/-- The record goes into the ring as it has been read last. -/
theorem RingHasRoom.exec_completionRecord {r : Record} {rest : List Record} (hdue : c.due = r :: rest) (hreach : ringReach s c true = true) :
    exec (.completionRecord c.num) s = .next (putRecord q e r rest) := by
  rcases hroom with ⟨hfull, rfl, rfl⟩ | ⟨hfull, hroom, p, x, hread, rfl, rfl⟩
  · exact exec_completionRecord_room hc hdue hreach hfull
  · rw [exec_completionRecord_rereads hc hread hdue hreach hfull, if_neg (by simp [hroom])]
    rfl

theorem RingHasRoom.findContext : findContext q c.num = some e := by
  rcases hroom with ⟨-, rfl, rfl⟩ | ⟨-, -, p, x, hread, rfl, rfl⟩
  · exact hc
  · exact findContext_rereads hc hread _

end

/-! ## REPLAY_RERUN (R401) -/

/-- A launch at its next attempt, over the dies of a new split. -/
def Launch.again (l : Launch) (shares : List (Nat × Nat × Nat)) : Launch :=
  { l with rerun := false, replays := l.replays + 1, fail := none, broken := false, dies := shares.map fun y => y.1 }

/-- The machine without a launch. -/
def dropLaunch (s : State) (u : Nat) : State := { s with launches := s.launches.filter fun x => decide (x.uid ≠ u) }

theorem findLaunch_dropLaunch (s : State) (u : Nat) : findLaunch (dropLaunch s u) u = none := by
  simp [findLaunch, dropLaunch]

section
variable {s : State} {l : Launch} {q : Queue} (hl : findLaunch s l.uid = some l) (hq : findQueue s l.queue = some q) (hrerun : l.rerun = true)
  (hactive : ctxActive s l.ctx = true)
include hl hq hrerun hactive

theorem exec_replayRerun {shares : List (Nat × Nat × Nat)} (hshares : launchShares s q.mask l.grid = shares)
    (hruns : launchRefused s q l.packet = none) (hfit : sharesFit s l.ctx shares = true) (hreach : sharesReach s q shares = true) :
    exec (.replayRerun l.uid) s
      = .next (postShares (modLaunch s l.uid fun x => x.again shares) l.ctx l.uid l.packet shares) := by
  subst hshares
  change execReplayRerun l.uid s = _
  simp only [execReplayRerun, hl, hq, hrerun, hactive, hruns, hfit, hreach, Bool.not_true, Bool.or_self, Bool.false_eq_true, if_false]
  rfl

theorem exec_replayRerun_refused {status : Nat} (hrefused : launchRefused s q l.packet = some status) :
    exec (.replayRerun l.uid) s = .next (completePacket (dropLaunch s l.uid) l.queue
      { launchRecord s l with status := status, pc := 0#32, cause := 0#8 }) := by
  change execReplayRerun l.uid s = _
  simp only [execReplayRerun, hl, hq, hrerun, hactive, hrefused, Bool.not_true, Bool.or_self, Bool.false_eq_true, if_false]
  rfl

end

theorem findLaunch_congr {s t : State} (h : t.launches = s.launches) (u : Nat) : findLaunch t u = findLaunch s u := by
  rw [findLaunch, h]; rfl

end Sys2Proof.Machine

namespace Sys2Proof
open Machine

/-- Settles O54: a record goes into the ring as RIDX has been read last, and what is written, polled, announced or posted again stands as the
lemmas on putRecord, readRidx, announce and postShares say. -/
theorem eventRing : Obligations.EventRing := by
  refine ⟨fun s c hc => ⟨fun q e r rest hdue hreach hroom => ?record, fun t x hfull hread => ?read, fun k rest hold htimer hdue => ?timer⟩,
    fun s l q hl hq hrerun hactive => ⟨fun hruns hfit hreach => ?rerun, fun status hrefused => ?refused⟩⟩
  case record =>
    have hroom : RingHasRoom s q c e := hroom
    have hexec := hroom.exec_completionRecord hc hdue hreach
    obtain ⟨⟨x, tick, rfl⟩, hgangs, hinterrupts, htick⟩ := hroom.frame
    have hfound := hroom.findContext hc
    refine ⟨fun hlost => by rw [hexec, putRecord_of_lost hlost], fun t hwrite => ?_⟩
    obtain ⟨d, hfind, hwidx, hrest, hridx, hmem, hsame, hannounced, hquiet⟩ :=
      putRecord_written (c := c.readAt x tick) (rest := rest) hfound hwrite
    rw [hinterrupts] at hannounced hquiet
    rw [htick] at hquiet
    exact ⟨_, d, hexec, hfind, hwidx, hrest, hridx, hmem, hsame.trans hgangs, hannounced, hquiet⟩
  case read =>
    have htlbs := readRidx_frame hread
    have hmem := mem_of_outsideTlbs htlbs
    have hgangs := gangs_of_outsideMemory (outsideMemory_of_outsideTlbs htlbs)
    have hinterrupts := interrupts_of_outsideMemory (outsideMemory_of_outsideTlbs htlbs)
    refine ⟨fun hreach => ⟨_, exec_ridxPoll hc hread hfull hreach, findContext_updated (findContext_read hc hread) fun _ => rfl, hmem,
      hgangs⟩, fun hwaits hreach hstill => ?_⟩
    obtain ⟨r, rest, hdue⟩ := List.exists_cons_of_ne_nil hwaits
    exact ⟨_, by rw [exec_completionRecord_rereads hc hread hdue hreach hfull, if_pos hstill], findContext_rereads hc hread _, hmem,
      hinterrupts⟩
  case timer =>
    exact ⟨_, exec_eventRingTimer hc hold htimer hdue, rfl, rfl, findContext_announce hc⟩
  case rerun =>
    obtain ⟨hgangs, hmem, hlaunches⟩ := postShares_frame l.ctx l.uid l.packet (launchShares s q.mask l.grid)
      (modLaunch s l.uid fun x => x.again (launchShares s q.mask l.grid))
    exact ⟨_, l.again (launchShares s q.mask l.grid), exec_replayRerun hl hq hrerun hactive rfl hruns hfit hreach,
      (findLaunch_congr hlaunches _).trans (findLaunch_modLaunch _ (fun _ => rfl) hl), hmem, hgangs, rfl, rfl, rfl, rfl,
      fun x hx => congrArg Mailbox.packets (getMailbox_postShares l.ctx l.uid l.packet _ (nodup_launchShares _ _ _) hx _)⟩
  case refused =>
    have hframe := completePacket_outsideQueues (dropLaunch s l.uid) l.queue
      { launchRecord s l with status := status, pc := 0#32, cause := 0#8 }
    have hgangs := gangs_of_outsideQueues hframe
    exact ⟨_, exec_replayRerun_refused hl hq hrerun hactive hrefused,
      (findLaunch_congr (launches_of_outsideQueues hframe) _).trans (findLaunch_dropLaunch s l.uid), hgangs⟩

end Sys2Proof

/-!
Encoding and decoding (O2, O3). A word other than a pair is its fields (R50). For the fields of each row of the opcode table, passing the
field and operand stages of R78 is the same as: the instruction read from them is well formed, and its fields are these again
(`Raw.Faithful`). Together with the read-back of the fields that the encoder writes (`instrOfRaw_rawOf`) and the slots of a pair word,
both directions follow.
-/
namespace Sys2Proof

/-! ## Words and their fields (R50) -/

theorem append_inj {v w : Nat} {x x' : BitVec v} {y y' : BitVec w} (h : x ++ y = x' ++ y') : x = x' ∧ y = y' := by
  constructor
  · rw [← BitVec.extractLsb'_append_eq_left (a := x) (b := y), h, BitVec.extractLsb'_append_eq_left]
  · rw [← BitVec.extractLsb'_append_eq_right (a := x) (b := y), h, BitVec.extractLsb'_append_eq_right]

theorem wordOfRaw_rawOfWord (w : IWord) : wordOfRaw (rawOfWord w) = w := by
  simp only [rawOfWord, wordOfRaw]
  iterate 13 rw [BitVec.extractLsb'_append_extractLsb'_eq_extractLsb' (by rfl)]
  exact BitVec.extractLsb'_eq_self

theorem wordOfRaw_injective {r r' : Raw} (h : wordOfRaw r = wordOfRaw r') : r = r' := by
  obtain ⟨opc, guard, d, a, b, c, mod, imm, la, lb, lc, yld, stall, rsv⟩ := r
  obtain ⟨rfl, h⟩ := append_inj h
  iterate 11 obtain ⟨rfl, h⟩ := append_inj h
  obtain ⟨rfl, rfl⟩ := append_inj h
  rfl

theorem rawOfWord_wordOfRaw (r : Raw) : rawOfWord (wordOfRaw r) = r :=
  wordOfRaw_injective (wordOfRaw_rawOfWord _)

/-! ## Operand codes (R55) -/

theorem sregOfNat_sregNum (r : SReg) : sregOfNat (sregNum r) = r := by cases r <;> rfl

theorem sregNum_sregOfNat {n : Nat} (h : n < 24) : sregNum (sregOfNat n) = n := by
  revert n; decide

theorem sregNum_lt (r : SReg) : sregNum r < 24 := by cases r <;> decide

/-- An operand whose immediate, if it is one, is the word's IMM. -/
def Opnd.Takes (o : Opnd) (imm : BitVec 32) : Prop := ∀ x, o = .imm x → x = imm

theorem toNat_opndCode_v (n : Fin 64) : (opndCode (.v n)).toNat = n.val := Nat.mod_eq_of_lt (by omega)
theorem toNat_opndCode_s (n : Fin 64) : (opndCode (.s n)).toNat = 0x40 + n.val := Nat.mod_eq_of_lt (by omega)
theorem toNat_opndCode_p (n : Fin 8) : (opndCode (.p n)).toNat = 0x80 + n.val := Nat.mod_eq_of_lt (by omega)
theorem toNat_opndCode_sr (r : SReg) : (opndCode (.sr r)).toNat = 0xA0 + sregNum r :=
  Nat.mod_eq_of_lt (by have := sregNum_lt r; omega)

theorem kindOfCode_opndCode (o : Opnd) : kindOfCode (opndCode o) = some o.kind := by
  unfold kindOfCode
  cases o with
  | v n => simp only [toNat_opndCode_v]; exact if_pos n.isLt
  | s n => simp only [toNat_opndCode_s]; rw [if_neg (by omega), if_pos (by omega)]; rfl
  | p n => simp only [toNat_opndCode_p]; rw [if_neg (by omega), if_neg (by omega), if_pos (by omega)]; rfl
  | sr r => cases r <;> rfl
  | zero => rfl
  | imm x => rfl

theorem opndOfCode_opndCode {o : Opnd} {imm : BitVec 32} (h : o.Takes imm) : opndOfCode imm (opndCode o) = o := by
  unfold opndOfCode
  cases o with
  | v n => simp only [toNat_opndCode_v]; rw [if_pos n.isLt, Fin.ofNat_val_eq_self]
  | s n =>
    simp only [toNat_opndCode_s]
    rw [if_neg (by omega), if_pos (by omega)]
    exact congrArg Opnd.s (Fin.ext ((Nat.add_mod_left 64 n.val).trans (Nat.mod_eq_of_lt n.isLt)))
  | p n =>
    simp only [toNat_opndCode_p]
    rw [if_neg (by omega), if_neg (by omega), if_pos (by omega)]
    exact congrArg Opnd.p (Fin.ext (show (0x80 + n.val) % 8 = n.val by omega))
  | sr r =>
    have hlt := sregNum_lt r
    simp only [toNat_opndCode_sr]
    rw [if_neg (by omega), if_neg (by omega), if_neg (by omega), if_neg (by omega), if_pos (by omega), Nat.add_sub_cancel_left,
      sregOfNat_sregNum]
  | zero => rfl
  | imm x => rw [h x rfl]; rfl

/-- A code that R55 assigns is the code of an operand of its kind. -/
theorem exists_opnd_of_kindOfCode {c : BitVec 8} {k : Kind} (imm : BitVec 32) (h : kindOfCode c = some k) :
    ∃ o : Opnd, opndCode o = c ∧ o.kind = k ∧ o.Takes imm := by
  have of_toNat {o : Opnd} (ho : (opndCode o).toNat = c.toNat) (hk : o.kind = k) (ht : o.Takes imm) :
      ∃ o : Opnd, opndCode o = c ∧ o.kind = k ∧ o.Takes imm := ⟨o, BitVec.eq_of_toNat_eq ho, hk, ht⟩
  revert h
  simp only [kindOfCode]
  split_ifs with hv hs hp hx hz hi <;> rintro ⟨⟩
  · exact of_toNat (toNat_opndCode_v ⟨c.toNat, hv⟩) rfl nofun
  · exact of_toNat ((toNat_opndCode_s ⟨c.toNat - 0x40, by omega⟩).trans (Nat.add_sub_cancel' (by omega))) rfl nofun
  · exact of_toNat ((toNat_opndCode_p ⟨c.toNat - 0x80, by omega⟩).trans (Nat.add_sub_cancel' (by omega))) rfl nofun
  · refine of_toNat ((toNat_opndCode_sr (sregOfNat (c.toNat - 0xA0))).trans ?_) rfl nofun
    rw [sregNum_sregOfNat (by omega), Nat.add_sub_cancel' hx.1]
  · exact of_toNat (o := .zero) hz.symm rfl nofun
  · exact of_toNat (o := .imm imm) hi.symm rfl (by rintro x ⟨⟩; rfl)

/-- A code that is the one of the operand it is read as. -/
def Canon (imm : BitVec 32) (c : BitVec 8) : Prop := opndCode (opndOfCode imm c) = c

theorem Canon.kind {imm : BitVec 32} {c : BitVec 8} (h : Canon imm c) : kindOfCode c = some (opndOfCode imm c).kind := by
  rw [← kindOfCode_opndCode, h]

theorem canon_of_kindOfCode {imm : BitVec 32} {c : BitVec 8} {k : Kind} (h : kindOfCode c = some k) : Canon imm c := by
  obtain ⟨o, rfl, -, ho⟩ := exists_opnd_of_kindOfCode imm h
  rw [Canon, opndOfCode_opndCode ho]

/-! ## Fields by their uses (R58, R59, R65, R144, R272, R351) -/

/-- An operand of the kinds `k` that a row of group `group` takes (R56, R272, R351). -/
def opndFits (k : List Kind) (lane : Bool) (group : Nat) (o : Opnd) : Bool :=
  k.contains o.kind && (lane || !o.isLane) && (!(decide (o.kind = .V)) || (if group = 32 then o.isAcc else o.groupFits group))

/-- The code of what a field of the use is read as. -/
def Use.code (u : Use) (imm : BitVec 32) (c : BitVec 8) : BitVec 8 :=
  match u with
  | .none => 0xE0#8
  | .own => c
  | .src _ => BitVec.ofNat 8 (fmtOfNat c.toNat).code
  | .ops _ _ _ => opndCode (opndOfCode imm c)

/-- The use allows what its field is read as. -/
def Use.allows (u : Use) (imm : BitVec 32) (c : BitVec 8) : Bool :=
  match u with
  | .none | .own => true
  | .src l => l.contains c.toNat
  | .ops k lane group => opndFits k lane group (opndOfCode imm c)

/-- The operand that a last-read bit may mark. -/
def Use.opnd (u : Use) (imm : BitVec 32) (c : BitVec 8) : Option Opnd :=
  match u with
  | .ops _ _ _ => some (opndOfCode imm c)
  | _ => Option.none

/-- A source field accepts codes of formats only (R70). -/
def Use.known : Use → Bool
  | .src l => l.all fun n => decide (n < 14)
  | _ => true

theorem isLane_iff (o : Opnd) : opndCode o = 0xA0#8 ↔ o.isLane = true := by
  cases o with
  | sr r => cases r <;> decide
  | v n => simp [Opnd.isLane, ← BitVec.toNat_inj, toNat_opndCode_v]; omega
  | s n => simp [Opnd.isLane, ← BitVec.toNat_inj, toNat_opndCode_s]; omega
  | p n => simp [Opnd.isLane, ← BitVec.toNat_inj, toNat_opndCode_p]; omega
  | zero => decide
  | imm x => simp [Opnd.isLane, opndCode]

theorem isReg_iff (o : Opnd) : (opndCode o).toNat < 0x88 ↔ o.isReg = true := by
  cases o with
  | v n => simp [Opnd.isReg, toNat_opndCode_v]; omega
  | s n => simp [Opnd.isReg, toNat_opndCode_s]; omega
  | p n => simp [Opnd.isReg, toNat_opndCode_p]; omega
  | sr r => simp [Opnd.isReg, toNat_opndCode_sr]; omega
  | zero => decide
  | imm x => simp [Opnd.isReg, opndCode]

theorem group_iff (o : Opnd) (hv : o.kind = .V) (group : Nat) :
    (if group = 32 then decide (opndCode o = 0#8) || decide (opndCode o = 0x20#8) else decide ((opndCode o).toNat + group ≤ 64))
      = if group = 32 then o.isAcc else o.groupFits group := by
  cases o <;> cases hv
  next n =>
    have hzero : opndCode (.v n) = 0#8 ↔ n.val = 0 := by rw [← BitVec.toNat_inj, toNat_opndCode_v]; rfl
    have hacc : opndCode (.v n) = 0x20#8 ↔ n.val = 32 := by rw [← BitVec.toNat_inj, toNat_opndCode_v]; rfl
    simp only [hzero, hacc, toNat_opndCode_v, Opnd.isAcc, Opnd.groupFits]

theorem operandOk_opndCode (k : List Kind) (lane : Bool) (group : Nat) (o : Opnd) :
    (Use.ops k lane group).operandOk (opndCode o) = opndFits k lane group o := by
  simp only [Use.operandOk, kindOfCode_opndCode, opndFits, isLane_iff, Bool.decide_eq_true]
  by_cases hv : o.kind = .V
  · rw [← group_iff o hv]
  · simp [hv]

theorem fmtCode_fmtOfNat {n : Nat} (h : n < 14) : (fmtOfNat n).code = n := by revert n; decide

theorem fieldOk_and_operandOk_iff {u : Use} (hu : u.known = true) (imm : BitVec 32) (c : BitVec 8) :
    (u.fieldOk c = true ∧ u.operandOk c = true) ↔ u.code imm c = c ∧ u.allows imm c = true := by
  cases u with
  | none => simp [Use.fieldOk, Use.operandOk, Use.code, Use.allows, eq_comm]
  | own => simp [Use.fieldOk, Use.operandOk, Use.code, Use.allows]
  | src l =>
    have hcode (h : c.toNat ∈ l) : BitVec.ofNat 8 (fmtOfNat c.toNat).code = c := by
      rw [fmtCode_fmtOfNat (of_decide_eq_true (List.all_eq_true.mp hu _ h)), BitVec.ofNat_toNat, BitVec.setWidth_eq]
    simpa [Use.fieldOk, Use.operandOk, Use.code, Use.allows] using hcode
  | ops k lane group =>
    have hcanon (h : (Use.ops k lane group).operandOk c = true) : Canon imm c := by
      revert h
      cases hk : kindOfCode c with
      | none => simp [Use.operandOk, hk]
      | some kind => exact fun _ => canon_of_kindOfCode hk
    constructor
    · rintro ⟨-, h⟩
      refine ⟨hcanon h, ?_⟩
      rwa [Use.allows, ← operandOk_opndCode, hcanon h]
    · rintro ⟨hc, h⟩
      rw [Use.allows, ← operandOk_opndCode, show opndCode _ = c from hc] at h
      exact ⟨rfl, h⟩

theorem lastOk_iff {u : Use} {imm : BitVec 32} {c : BitVec 8} (hc : u.code imm c = c) (bit : BitVec 1) :
    lastOk bit u c = true ↔ (!decide (bit = 1#1) || (u.opnd imm c).any Opnd.isReg) = true := by
  have hbit : bit = 0#1 ∨ bit = 1#1 := by revert bit; decide
  cases u with
  | none | own | src l => rcases hbit with rfl | rfl <;> simp [lastOk, Use.isOps, Use.opnd]
  | ops k lane group =>
    have hreg := isReg_iff (opndOfCode imm c)
    rw [show opndCode (opndOfCode imm c) = c from hc] at hreg
    rcases hbit with rfl | rfl <;> simp [lastOk, Use.isOps, Use.opnd, hreg]

/-! ## The checks of a word (R78) -/

theorem firstBad_eq_none (l : List (Nat × Bool)) : firstBad l = none ↔ ∀ x ∈ l, x.2 = true := by
  induction l with
  | nil => simp [firstBad]
  | cons x rest ih => cases h : x.2 <;> simp [firstBad, h, ih]

/-- The fields pass the field and the operand stage (R78). -/
def Raw.Checks (r : Raw) : Prop := fieldStage r = none ∧ operandStage r = none

theorem checks_iff (r : Raw) : r.Checks ↔
    (((usesOf r).d.fieldOk r.d = true ∧ (usesOf r).d.operandOk r.d = true) ∧ ((usesOf r).a.fieldOk r.a = true ∧ (usesOf r).a.operandOk r.a = true)
      ∧ ((usesOf r).b.fieldOk r.b = true ∧ (usesOf r).b.operandOk r.b = true)
      ∧ ((usesOf r).c.fieldOk r.c = true ∧ (usesOf r).c.operandOk r.c = true))
    ∧ (lastOk r.la (usesOf r).a r.a = true ∧ lastOk r.lb (usesOf r).b r.b = true ∧ lastOk r.lc (usesOf r).c r.c = true)
    ∧ modOk r = true ∧ immOk r (usesOf r) = true ∧ r.guard ≠ 0xF#4 ∧ r.rsv = 0#4
    ∧ (r.opc = 0x04#8 → r.guard = 7#4) ∧ (r.opc = 0x8A#8 → swrOk r.d = true) ∧ (r.opc = 0x4B#8 → r.lc ≠ 1#1) := by
  simp only [Raw.Checks, fieldStage, operandStage, firstBad_eq_none, List.mem_cons, List.not_mem_nil, or_false, forall_eq_or_imp, forall_eq,
    Bool.and_eq_true, Bool.or_eq_true, Bool.not_eq_true', decide_eq_true_eq, decide_eq_false_iff_not, Bool.and_eq_false_iff]
  tauto

theorem headOf_wf_iff (r : Raw) : (headOf r).guard.wf = true ↔ r.guard ≠ 0xF#4 := by
  have h : ∀ g : BitVec 4, (!(bitAt g 3 && decide (Fin.ofNat 8 (bitsNat g 0 3) = 7))) = true ↔ g ≠ 0xF#4 := by decide
  exact h r.guard

/-- The source fields of a row accept codes of formats only. -/
def Uses.known (u : Uses) : Bool := u.d.known && u.a.known && u.b.known && u.c.known

/-- The fields of a word are the codes of what they are read as. -/
def Uses.Coded (u : Uses) (r : Raw) : Prop :=
  u.d.code r.imm r.d = r.d ∧ u.a.code r.imm r.a = r.a ∧ u.b.code r.imm r.b = r.b ∧ u.c.code r.imm r.c = r.c

/-- The uses of a row allow what the fields of a word are read as, and its last-read bits mark registers. -/
def Uses.Allow (u : Uses) (r : Raw) : Prop :=
  (headOf r).wf (u.a.opnd r.imm r.a) (u.b.opnd r.imm r.b) (u.c.opnd r.imm r.c) = true
    ∧ u.d.allows r.imm r.d = true ∧ u.a.allows r.imm r.a = true ∧ u.b.allows r.imm r.b = true ∧ u.c.allows r.imm r.c = true

/-- What is left of the checks of a word beside its operand fields: MOD, IMM, and the conditions of JOIN, SWR and MXQ (R136, R176, R214). -/
def Raw.RestOk (r : Raw) (u : Uses) : Prop :=
  modOk r = true ∧ immOk r u = true
    ∧ (r.opc = 0x04#8 → r.guard = 7#4) ∧ (r.opc = 0x8A#8 → swrOk r.d = true) ∧ (r.opc = 0x4B#8 → r.lc ≠ 1#1)

theorem checks_iff_allow {r : Raw} {u : Uses} (hu : usesOf r = u) (hk : u.known = true) :
    r.Checks ↔ (u.Allow r ∧ u.Coded r) ∧ r.RestOk u ∧ r.rsv = 0#4 := by
  subst hu
  simp only [Uses.known, Bool.and_eq_true] at hk
  obtain ⟨⟨⟨hd, ha⟩, hb⟩, hc⟩ := hk
  rw [checks_iff, fieldOk_and_operandOk_iff hd r.imm, fieldOk_and_operandOk_iff ha r.imm, fieldOk_and_operandOk_iff hb r.imm,
    fieldOk_and_operandOk_iff hc r.imm]
  simp only [Uses.Allow, Uses.Coded, Raw.RestOk, Head.wf, Bool.and_eq_true, headOf_wf_iff]
  constructor
  · rintro ⟨⟨⟨cd, ad⟩, ⟨ca, aa⟩, ⟨cb, ab⟩, ⟨cc, ac⟩⟩, ⟨la, lb, lc⟩, hmod, himm, hguard, hrsv, hrow⟩
    exact ⟨⟨⟨⟨⟨⟨hguard, (lastOk_iff ca _).mp la⟩, (lastOk_iff cb _).mp lb⟩, (lastOk_iff cc _).mp lc⟩, ad, aa, ab, ac⟩, cd, ca, cb, cc⟩,
      ⟨hmod, himm, hrow⟩, hrsv⟩
  · rintro ⟨⟨⟨⟨⟨⟨hguard, la⟩, lb⟩, lc⟩, ad, aa, ab, ac⟩, cd, ca, cb, cc⟩, ⟨hmod, himm, hrow⟩, hrsv⟩
    exact ⟨⟨⟨cd, ad⟩, ⟨ca, aa⟩, ⟨cb, ab⟩, ⟨cc, ac⟩⟩, ⟨(lastOk_iff ca _).mpr la, (lastOk_iff cb _).mpr lb, (lastOk_iff cc _).mpr lc⟩,
      hmod, himm, hguard, hrsv, hrow⟩

/-- The word of the fields of a row. -/
def fullRaw (h : Head) (opc : BitVec 8) (d a b c mod : BitVec 8) (imm : BitVec 32) : Raw :=
  { headRaw h opc with d := d, a := a, b := b, c := c, mod := mod, imm := imm }

/-- The word of what the fields of a word are read as. -/
def Raw.again (r : Raw) (u : Uses) (mod : BitVec 8) (imm : BitVec 32) : Raw :=
  fullRaw (headOf r) r.opc (u.d.code r.imm r.d) (u.a.code r.imm r.a) (u.b.code r.imm r.b) (u.c.code r.imm r.c) mod imm

theorem bit1_one (x : BitVec 1) : bit1 (decide (x = 1#1)) = x := by revert x; decide

theorem headRaw_headOf (r : Raw) : headRaw (headOf r) r.opc
    = { r with d := 0xE0#8, a := 0xE0#8, b := 0xE0#8, c := 0xE0#8, mod := 0#8, imm := 0#32, rsv := 0#4 } := by
  have hguard : ∀ g : BitVec 4, bit1 (bitAt g 3) ++ BitVec.ofNat 3 (Fin.ofNat 8 (bitsNat g 0 3)).val = g := by decide
  simp only [headRaw, headOf, bit1_one, hguard]

theorem again_eq_iff (r : Raw) (u : Uses) (mod : BitVec 8) (imm : BitVec 32) :
    r.again u mod imm = r ↔ u.Coded r ∧ mod = r.mod ∧ imm = r.imm ∧ r.rsv = 0#4 := by
  rw [Raw.again, fullRaw, headRaw_headOf, Uses.Coded]
  obtain ⟨opc, guard, d, a, b, c, mod', imm', la, lb, lc, yld, stall, rsv⟩ := r
  simp only [Raw.mk.injEq, true_and]
  tauto

/-- A word passes its checks exactly when its instruction is well formed and has the word as its encoding (R78). -/
def Raw.Faithful (r : Raw) : Prop := r.Checks ↔ WellFormed (instrOfRaw r) ∧ rawOf (instrOfRaw r) = some r

theorem faithful_of_row {r : Raw} {u : Uses} {mod : BitVec 8} {imm : BitVec 32} {P : Prop} (hu : usesOf r = u) (hk : u.known = true)
    (hraw : rawOf (instrOfRaw r) = some (r.again u mod imm)) (hwf : u.Coded r → (WellFormed (instrOfRaw r) ↔ u.Allow r ∧ P))
    (hrest : u.Allow r → u.Coded r → (r.RestOk u ↔ (mod = r.mod ∧ imm = r.imm) ∧ P)) : r.Faithful := by
  rw [Raw.Faithful, checks_iff_allow hu hk, hraw, Option.some_inj, again_eq_iff]
  constructor
  · rintro ⟨⟨hallow, hcoded⟩, hok, hrsv⟩
    obtain ⟨⟨hmod, himm⟩, hP⟩ := (hrest hallow hcoded).mp hok
    exact ⟨(hwf hcoded).mpr ⟨hallow, hP⟩, hcoded, hmod, himm, hrsv⟩
  · rintro ⟨hw, hcoded, hmod, himm, hrsv⟩
    obtain ⟨hallow, hP⟩ := (hwf hcoded).mp hw
    exact ⟨⟨hallow, hcoded⟩, (hrest hallow hcoded).mpr ⟨⟨hmod, himm⟩, hP⟩, hrsv⟩

/-- The row puts no conditions of its own on a field. -/
def ordinary (opc : BitVec 8) : Bool := decide (opc ≠ 0x04#8) && decide (opc ≠ 0x8A#8) && decide (opc ≠ 0x4B#8)

theorem restOk_iff {r : Raw} {u : Uses} {mod : BitVec 8} {imm : BitVec 32} {P Q : Prop} (ho : ordinary r.opc = true)
    (hmod : modOk r = true ↔ mod = r.mod ∧ P) (himm : immOk r u = true ↔ imm = r.imm ∧ Q) :
    r.RestOk u ↔ (mod = r.mod ∧ imm = r.imm) ∧ P ∧ Q := by
  simp only [ordinary, Bool.and_eq_true, decide_eq_true_eq] at ho
  obtain ⟨⟨h4, h8⟩, h4B⟩ := ho
  simp only [Raw.RestOk, h4, h8, h4B, false_implies, and_true, hmod, himm]
  tauto

/-! ## IMM where operand fields hold it (R55, R58) -/

theorem opndOfCode_eq_imm_iff {imm x : BitVec 32} {c : BitVec 8} : opndOfCode imm c = .imm x ↔ c = 0xE1#8 ∧ x = imm := by
  have himm : c = 0xE1#8 ↔ c.toNat = 0xE1 := BitVec.toNat_inj.symm
  rw [himm]
  simp only [opndOfCode]
  split_ifs with hv hs hp hi hx
  · simp only [false_iff]; omega
  · simp only [false_iff]; omega
  · simp only [false_iff]; omega
  · simp [hi, eq_comm]
  · simp [hi]
  · simp [hi]

theorem immAgree_opndOfCode (imm : BitVec 32) (x y : BitVec 8) : immAgree (opndOfCode imm x) (opndOfCode imm y) = true := by
  unfold immAgree
  split
  next hx hy => exact decide_eq_true (((opndOfCode_eq_imm_iff.mp hx).2).trans (opndOfCode_eq_imm_iff.mp hy).2.symm)
  next => rfl

theorem immOf_cons (imm : BitVec 32) (c : BitVec 8) (l : List Opnd) :
    immOf (opndOfCode imm c :: l) = if c = 0xE1#8 then imm else immOf l := by
  by_cases hc : c = 0xE1#8
  · subst hc; rfl
  · rw [if_neg hc]
    cases h : opndOfCode imm c with
    | imm x => exact absurd (opndOfCode_eq_imm_iff.mp h).1 hc
    | v | s | p | sr | zero => rfl

/-- The rule of R58 for a row that says nothing of IMM: it is zero, or an operand field holds it. -/
def immDefault (r : Raw) (u : Uses) : Bool :=
  decide (r.imm = 0#32) || (u.d.isOps && decide (r.d = 0xE1#8)) || (u.a.isOps && decide (r.a = 0xE1#8))
    || (u.b.isOps && decide (r.b = 0xE1#8)) || (u.c.isOps && decide (r.c = 0xE1#8))

/-- IMM where the first operand field that holds 0xE1 gives it (R55). -/
def Uses.imm (u : Uses) (r : Raw) : BitVec 32 :=
  immOf ((u.a.opnd r.imm r.a).toList ++ ((u.b.opnd r.imm r.b).toList ++ (u.c.opnd r.imm r.c).toList))

/-- D holds no immediate. -/
def Use.noImm : Use → Bool
  | .ops k _ _ => !k.contains .I
  | .none => true
  | _ => false

theorem ne_immCode_of_noImm {u : Use} (h : u.noImm = true) {imm : BitVec 32} {c : BitVec 8} (hc : u.code imm c = c)
    (ht : u.allows imm c = true) : c ≠ 0xE1#8 := by
  rintro rfl
  cases u with
  | own | src l => cases h
  | none => cases hc
  | ops k lane group =>
    simp only [Use.noImm, Bool.not_eq_true'] at h
    simp only [Use.allows, opndFits, show opndOfCode imm 0xE1#8 = .imm imm from rfl, Opnd.kind, h, Bool.false_and, reduceCtorEq] at ht

theorem immOf_opnd (u : Use) (imm : BitVec 32) (c : BitVec 8) (l : List Opnd) :
    immOf ((u.opnd imm c).toList ++ l) = if (u.isOps && decide (c = 0xE1#8)) = true then imm else immOf l := by
  cases u with
  | none | own | src l => rfl
  | ops k lane group => simp [Use.opnd, Use.isOps, immOf_cons]

theorem immDefault_iff {r : Raw} {u : Uses} (hd : u.d.noImm = true) (hallow : u.Allow r) (hcoded : u.Coded r) :
    immDefault r u = true ↔ u.imm r = r.imm := by
  have hne := ne_immCode_of_noImm hd hcoded.1 hallow.2.1
  have hc := immOf_opnd u.c r.imm r.c []
  rw [List.append_nil] at hc
  rw [Uses.imm, immOf_opnd, immOf_opnd, hc, immDefault, decide_eq_false hne, Bool.and_false, Bool.or_false]
  have hzero : decide (r.imm = 0#32) = true ↔ immOf [] = r.imm := decide_eq_true_iff.trans eq_comm
  split_ifs with ha hb hc
  · simp only [ha, Bool.or_true, Bool.true_or]
  · simp only [hb, Bool.or_true, Bool.true_or]
  · simp only [hc, Bool.or_true]
  · simp only [ha, hb, hc, Bool.or_false, hzero]

/-- A row whose IMM is what its operand fields hold. -/
theorem faithful_of_default {r : Raw} {u : Uses} {mod : BitVec 8} {P : Prop} (hu : usesOf r = u) (hk : u.known = true)
    (ho : ordinary r.opc = true) (hd : u.d.noImm = true) (himm : immOk r u = immDefault r u)
    (hraw : rawOf (instrOfRaw r) = some (r.again u mod (u.imm r))) (hwf : WellFormed (instrOfRaw r) ↔ u.Allow r ∧ P)
    (hmod : modOk r = true ↔ mod = r.mod ∧ P) : r.Faithful :=
  faithful_of_row hu hk hraw (fun _ => hwf) fun hallow hcoded => by
    have himm : immOk r u = true ↔ u.imm r = r.imm ∧ True := by rw [himm, and_true, immDefault_iff hd hallow hcoded]
    rw [restOk_iff ho hmod himm, and_true]

/-! ## Rows by the shape of their operands -/

theorem opndFits_v (k : List Kind) (o : Opnd) : opndFits k true 1 o = o.isIn k := by
  cases o <;> simp [opndFits, Opnd.isIn, Opnd.kind, Opnd.groupFits, Opnd.isLane]

theorem opndFits_s (k : List Kind) (o : Opnd) : opndFits k false 1 o = o.isScalarIn k := by
  cases o <;> simp [opndFits, Opnd.isScalarIn, Opnd.kind, Opnd.groupFits]

theorem opndFits_g {n : Nat} (hn : n ≠ 32) (k : List Kind) (o : Opnd) : opndFits k true n o = (o.isIn k && o.groupFits n) := by
  cases o <;> simp [opndFits, Opnd.isIn, Opnd.kind, Opnd.groupFits, hn]

theorem allow_nothing (r : Raw) : Uses.nothing.Allow r ↔ (headOf r).wf none none none = true := by
  simp [Uses.Allow, Uses.nothing, Use.allows, Use.opnd]

theorem allow_uses1 (r : Raw) (kd ka : List Kind) : (uses1 kd ka).Allow r ↔ wf1 (headOf r) r.dO r.aO kd ka = true := by
  simp [Uses.Allow, uses1, Use.v, Use.allows, Use.opnd, opndFits_v, wf1, Raw.dO, Raw.aO]
  tauto

theorem allow_uses2 (r : Raw) (kd ka kb : List Kind) : (uses2 kd ka kb).Allow r ↔ wf2 (headOf r) r.dO r.aO r.bO kd ka kb = true := by
  simp [Uses.Allow, uses2, Use.v, Use.allows, Use.opnd, opndFits_v, wf2, Raw.dO, Raw.aO, Raw.bO, immAgree_opndOfCode]
  tauto

theorem allow_uses3 (r : Raw) (kd ka kb kc : List Kind) :
    (uses3 kd ka kb kc).Allow r ↔ wf3 (headOf r) r.dO r.aO r.bO r.cO kd ka kb kc = true := by
  simp [Uses.Allow, uses3, Use.v, Use.allows, Use.opnd, opndFits_v, wf3, Raw.dO, Raw.aO, Raw.bO, Raw.cO, immAgree_opndOfCode]
  tauto

theorem isScalarIn_eq_isIn {k : List Kind} (h : k.contains .X = false) (o : Opnd) : o.isScalarIn k = o.isIn k := by
  cases o with
  | sr r => simp only [Opnd.isScalarIn, Opnd.isIn, Opnd.kind, h, Bool.false_and]
  | v | s | p | zero | imm => simp [Opnd.isScalarIn, Opnd.isIn, Opnd.isLane]

theorem allow_usesA (r : Raw) (k : List Kind) :
    ({ Uses.nothing with a := .v k } : Uses).Allow r ↔ ((headOf r).wf (some r.aO) none none && r.aO.isIn k) = true := by
  simp [Uses.Allow, Uses.nothing, Use.v, Use.allows, Use.opnd, opndFits_v, Raw.aO]

theorem allow_usesD (r : Raw) (k : List Kind) :
    ({ Uses.nothing with d := .v k } : Uses).Allow r ↔ ((headOf r).wf none none none && r.dO.isIn k) = true := by
  simp [Uses.Allow, Uses.nothing, Use.v, Use.allows, Use.opnd, opndFits_v, Raw.dO]

theorem allow_usesS1 {kd : List Kind} (h : kd.contains .X = false) (r : Raw) (ka : List Kind) :
    (usesS1 kd ka).Allow r ↔ wfS1 (headOf r) r.dO r.aO kd ka = true := by
  simp [Uses.Allow, usesS1, Use.s, Use.allows, Use.opnd, opndFits_s, wfS1, Raw.dO, Raw.aO, isScalarIn_eq_isIn h]
  tauto

theorem allow_usesS2 {kd : List Kind} (h : kd.contains .X = false) (r : Raw) (ka kb : List Kind) :
    (usesS2 kd ka kb).Allow r ↔ wfS2 (headOf r) r.dO r.aO r.bO kd ka kb = true := by
  simp [Uses.Allow, usesS2, Use.s, Use.allows, Use.opnd, opndFits_s, wfS2, Raw.dO, Raw.aO, Raw.bO, isScalarIn_eq_isIn h, immAgree_opndOfCode]
  tauto

theorem allow_usesS3 {kd : List Kind} (h : kd.contains .X = false) (r : Raw) (ka kb kc : List Kind) :
    (usesS3 kd ka kb kc).Allow r ↔ wfS3 (headOf r) r.dO r.aO r.bO r.cO kd ka kb kc = true := by
  simp [Uses.Allow, usesS3, Use.s, Use.allows, Use.opnd, opndFits_s, wfS3, Raw.dO, Raw.aO, Raw.bO, Raw.cO, isScalarIn_eq_isIn h,
    immAgree_opndOfCode]
  tauto

theorem wf_alone {A : Prop} {x : Bool} (h : A ↔ x = true) : x = true ↔ A ∧ true = true := by rw [h, eq_self, and_true]
theorem wf_and {A : Prop} {x y : Bool} (h : A ↔ x = true) : (x && y) = true ↔ A ∧ y = true := by rw [h, Bool.and_eq_true]

/-! ## MOD by its layouts (R61-R69) -/

/-- The values of MOD that the mask and the limits of a row allow are those that are codes of modifiers that are well formed. -/
abbrev ModRow (mask : BitVec 8) (ok : BitVec 8 → Bool) (code : BitVec 8 → BitVec 8) (wf : BitVec 8 → Bool) : Prop :=
  ∀ m, (decide (m &&& ~~~mask = 0#8) && ok m) = true ↔ code m = m ∧ wf m = true

theorem modRows_plain :
    ModRow 0x00#8 (fun _ => true) (fun _ => 0#8) (fun _ => true)
    ∧ ModRow 0xFF#8 (fun _ => true) (fun m => m) (fun _ => true)
    ∧ ModRow 0x03#8 (fun _ => true) (fun m => 0#6 ++ m.extractLsb' 0 2) (fun _ => true)
    ∧ ModRow 0x07#8 (fun _ => true) (fun m => mod3 (m.extractLsb' 0 3)) (fun _ => true)
    ∧ ModRow 0x0F#8 (fun _ => true) (fun m => 0#4 ++ m.extractLsb' 0 4) (fun _ => true)
    ∧ ModRow 0x01#8 (fun _ => true) (fun m => 0#7 ++ bit1 (bitAt m 0)) (fun _ => true)
    ∧ ModRow 0x03#8 (fun _ => true) (fun m => 0#6 ++ (bit1 (bitAt m 1) ++ bit1 (bitAt m 0))) (fun _ => true)
    ∧ ModRow 0x0F#8 (fun _ => true) (fun m => 0#4 ++ (bit1 (bitAt m 3) ++ m.extractLsb' 0 3)) (fun _ => true)
    ∧ ModRow 0x3F#8 (fun m => decide (m = 3#8)) (fun _ => 3#8) (fun _ => true) := by
  decide +kernel

theorem modRows_int :
    ModRow 0x03#8 (fun _ => true) (fun m => intModCode (intModOf m)) (fun _ => true)
    ∧ ModRow 0x02#8 (fun _ => true) (fun m => intModCode { signed := false, sat := bitAt m 1 }) (fun _ => true) := by
  decide +kernel

theorem modRows_fp :
    ModRow 0xBF#8 rmOk (fun m => fpModCode (fpModOf m)) (fun m => (fpModOf m).wf true true false)
    ∧ ModRow 0xFF#8 rmOk (fun m => fpModCode (fpModOf m)) (fun m => (fpModOf m).wf true true true)
    ∧ ModRow 0xB8#8 (fun _ => true) (fun m => fpModCode (fpModOf m)) (fun m => (fpModOf m).wf false true false)
    ∧ ModRow 0x98#8 (fun _ => true) (fun m => fpModCode (fpModOf m)) (fun m => (fpModOf m).wf false false false)
    ∧ ModRow 0x9F#8 rmOk (fun m => fpModCode (fpModOf m)) (fun m => (fpModOf m).wf true false false) := by
  decide +kernel

theorem modRows_half :
    ModRow 0xBF#8 rmOk (fun m => halfModCode (halfModOf m)) (fun m => (halfModOf m).wf true false)
    ∧ ModRow 0xFF#8 rmOk (fun m => halfModCode (halfModOf m)) (fun m => (halfModOf m).wf true true)
    ∧ ModRow 0xB8#8 (fun _ => true) (fun m => halfModCode (halfModOf m)) (fun m => (halfModOf m).wf false false) := by
  decide +kernel

theorem modRows_compare :
    ModRow 0x39#8 (fun m => decide (bitsNat m 3 3 < 6)) (fun m => scalarModCode { signed := bitAt m 0, sat := false, w64 := false } (BitVec.ofNat 3 (condNum (condOfNat (bitsNat m 3 3)))))
      (fun _ => true)
    ∧ ModRow 0x3F#8 (fun m => decide (bitsNat m 0 4 < 14)) (fun m => 0#2 ++ (bit1 (bitAt m 5) ++ (bit1 (bitAt m 4) ++ BitVec.ofNat 4 (fcondNum (fcondOfNat (bitsNat m 0 4))))))
      (fun _ => true) := by
  decide +kernel

theorem modRows_cross :
    ModRow 0x03#8 (fun _ => true) (fun m => BitVec.ofNat 8 (shflNum (shflOfNat (bitsNat m 0 2)))) (fun _ => true)
    ∧ ModRow 0x03#8 (fun _ => true) (fun m => BitVec.ofNat 8 (voteNum (voteOfNat (bitsNat m 0 2)))) (fun _ => true)
    ∧ ModRow 0x0F#8 (fun m => decide (bitsNat m 0 4 < 11)) (fun m => BitVec.ofNat 8 (redNum (redOfNat (bitsNat m 0 4)))) (fun _ => true)
    ∧ ModRow 0x1F#8 (fun m => decide (bitsNat m 0 4 < 11)) (fun m => 0#3 ++ (bit1 (bitAt m 4) ++ BitVec.ofNat 4 (redNum (redOfNat (bitsNat m 0 4)))))
      (fun _ => true)
    ∧ ModRow 0x07#8 (fun m => decide (1 ≤ bitsNat m 0 3) && decide (bitsNat m 0 3 ≤ 5)) (fun m => mod3 (m.extractLsb' 0 3))
      (fun m => decide (1 ≤ (m.extractLsb' 0 3).toNat) && decide ((m.extractLsb' 0 3).toNat ≤ 5)) := by
  decide +kernel

theorem modRows_scalar :
    ModRow 0x07#8 (fun _ => true) (fun m => scalarModCode (scalarModOf m) 0#3) (fun m => (scalarModOf m).wf true)
    ∧ ModRow 0x05#8 (fun _ => true) (fun m => scalarModCode (scalarModOf m) 0#3) (fun m => (scalarModOf m).wf false)
    ∧ ModRow 0x3D#8 (fun m => decide (bitsNat m 3 3 < 6)) (fun m => scalarModCode (scalarModOf m) (BitVec.ofNat 3 (condNum (condOfNat (bitsNat m 3 3)))))
      (fun m => (scalarModOf m).wf false) := by
  decide +kernel

theorem modRows_memory :
    ModRow 0xFF#8 (fun m => memModOk m Width.vector (fun _ => true)) (fun m => memModCode (memModOf m))
      (fun m => (memModOf m).width.vector && (memModOf m).policyFits)
    ∧ ModRow 0xFF#8 (fun m => memModOk m Width.vector Space.stores) (fun m => memModCode (memModOf m))
      (fun m => (memModOf m).width.vector && (memModOf m).space.stores && (memModOf m).policyFits)
    ∧ ModRow 0xFF#8 (fun m => memModOk m Width.scalar (fun _ => true)) (fun m => memModCode (memModOf m))
      (fun m => (memModOf m).width.scalar && (memModOf m).policyFits)
    ∧ ModRow 0xFF#8 (fun m => memModOk m Width.scalar Space.stores) (fun m => memModCode (memModOf m))
      (fun m => (memModOf m).width.scalar && (memModOf m).space.stores && (memModOf m).policyFits)
    ∧ ModRow 0xFF#8 (fun m => memModOk m (fun w => decide (w = .n8)) (fun s => decide (s = .global) || decide (s = .const) || decide (s = .args))) (fun m => memModCode (memModOf m))
      (fun m => decide ((memModOf m).width = .n8) && (memModOf m).policyFits && (decide ((memModOf m).space = .global) || decide ((memModOf m).space = .const) || decide ((memModOf m).space = .args))) := by
  decide +kernel

theorem modRows_scope :
    ModRow 0x07#8 (fun m => decide (1 ≤ bitsNat m 0 3) && decide (bitsNat m 0 3 ≤ 3)) (fun m => modScope (scopeOfNat (bitsNat m 0 3)))
      (fun m => decide (scopeOfNat (bitsNat m 0 3) = .clu) || decide (scopeOfNat (bitsNat m 0 3) = .die) || decide (scopeOfNat (bitsNat m 0 3) = .pkg))
    ∧ ModRow 0x07#8 (fun m => decide (bitsNat m 0 3 ≤ 3)) (fun m => modScope (scopeOfNat (bitsNat m 0 3)))
      (fun m => decide (scopeOfNat (bitsNat m 0 3) = .blk) || decide (scopeOfNat (bitsNat m 0 3) = .clu) || decide (scopeOfNat (bitsNat m 0 3) = .die) || decide (scopeOfNat (bitsNat m 0 3) = .pkg))
    ∧ ModRow 0x07#8 (fun m => decide (3 ≤ bitsNat m 0 3) && decide (bitsNat m 0 3 ≤ 5)) (fun m => modScope (scopeOfNat (bitsNat m 0 3)))
      (fun m => decide (scopeOfNat (bitsNat m 0 3) = .pkg) || decide (scopeOfNat (bitsNat m 0 3) = .dom) || decide (scopeOfNat (bitsNat m 0 3) = .sys)) := by
  decide +kernel

theorem modRows_atomic :
    ModRow 0xFF#8 (fun m => atomModOk m (fun _ => true) (fun _ => true)) (fun m => atomModCode (atomModOf m))
      (fun m => (atomModOf m).wf)
    ∧ ModRow 0xFF#8 (fun m => atomModOk m (fun o => decide (o = 0)) (fun _ => true)) (fun m => atomModCode (atomModOf m))
      (fun m => decide ((atomModOf m).op = .add))
    ∧ ModRow 0xFF#8 (fun m => atomModOk m (fun o => decide (o = 0)) (fun s => decide (s = 2) || decide (s = 3))) (fun m => atomModCode (atomModOf m))
      (fun m => decide ((atomModOf m).op = .add) && (atomModOf m).scope.dieOrPkg)
    ∧ ModRow 0xFF#8 (fun m => atomModOk m (fun o => decide (o ≤ 1)) (fun s => decide (s = 2) || decide (s = 3))) (fun m => atomModCode (atomModOf m))
      (fun m => (decide ((atomModOf m).op = .add) || decide ((atomModOf m).op = .minn)) && (atomModOf m).scope.dieOrPkg) := by
  decide +kernel

theorem modRows_matrix :
    ModRow 0x3F#8 (fun m => decide (bitsNat m 0 4 < 14) && (matModOf m).wfDense) (fun m => matModCode (matModOf m))
      (fun m => (matModOf m).wfDense)
    ∧ ModRow 0x3F#8 (fun m => decide (bitsNat m 0 4 < 14) && (matModOf m).fmt.mx && !(matModOf m).i32) (fun m => matModCode (matModOf m))
      (fun m => (matModOf m).fmt.mx && !(matModOf m).i32)
    ∧ ModRow 0x3F#8 (fun m => decide (bitsNat m 0 4 = 13) && !(matModOf m).i32) (fun m => matModCode (matModOf m))
      (fun m => decide ((matModOf m).fmt = .cb4) && !(matModOf m).i32)
    ∧ ModRow 0x3F#8 (fun m => decide (bitsNat m 0 4 < 14) && (matModOf m).wfStore) (fun m => matModCode (matModOf m))
      (fun m => (matModOf m).wfStore) := by
  decide +kernel

theorem wf_and2 {A : Prop} {x y z : Bool} (h : A ↔ x = true) : (x && y && z) = true ↔ A ∧ (y && z) = true := by
  rw [h, Bool.and_assoc, Bool.and_eq_true]

theorem wf_and3 {A : Prop} {x y z w : Bool} (h : A ↔ x = true) : (x && y && z && w) = true ↔ A ∧ (y && z && w) = true := by
  rw [h, Bool.and_assoc, Bool.and_assoc, Bool.and_eq_true, Bool.and_assoc]

theorem wf_alone2 {A : Prop} {x : Bool} (h : A ↔ x = true) : x = true ↔ A ∧ true = true ∧ true = true := by
  rw [h, eq_self, and_true, and_true]

theorem kind_opndOfCode_iff {k : Kind} (hk : k ≠ .Z) (imm : BitVec 32) (c : BitVec 8) : (opndOfCode imm c).kind = k ↔ kindOfCode c = some k := by
  cases h : kindOfCode c with
  | some k' => rw [← Option.some_inj, ← kindOfCode_opndCode, canon_of_kindOfCode h, h]
  | none =>
    have hzero : opndOfCode imm c = .zero := by
      revert h
      simp only [kindOfCode, opndOfCode]
      split_ifs <;> simp
    simpa [hzero, Opnd.kind] using hk.symm


/-! ## Rows of which IMM is zero or an operand (R58, R145) -/

theorem faithful_bare {r : Raw} (h : r.opc ∈ [0x00#8, 0x07#8, 0x09#8, 0x0A#8, 0xE3#8, 0x67#8, 0xB1#8, 0xBD#8]) : r.Faithful := by
  obtain ⟨hnone, -, -, hlow3, -⟩ := modRows_plain
  obtain ⟨-, -, hdrain⟩ := modRows_scope
  obtain ⟨-, -, -, -, hpart⟩ := modRows_cross
  obtain ⟨opc, guard, d, a, b, c, mod, imm, la, lb, lc, yld, stall, rsv⟩ := r
  simp only [List.mem_cons, List.not_mem_nil, or_false] at h
  rcases h with rfl | rfl | rfl | rfl | rfl | rfl | rfl | rfl
  iterate 5 exact faithful_of_default (u := .nothing) rfl rfl rfl rfl rfl rfl (wf_alone (allow_nothing _)) (hnone _)
  · exact faithful_of_default (u := .nothing) rfl rfl rfl rfl rfl rfl (wf_and2 (allow_nothing _)) (hpart _)
  · exact faithful_of_default (u := .nothing) rfl rfl rfl rfl rfl rfl (wf_and (allow_nothing _)) (hdrain _)
  · exact faithful_of_default (u := .nothing) rfl rfl rfl rfl rfl rfl (wf_alone (allow_nothing _)) (hlow3 _)

theorem faithful_oneOperand {r : Raw} (h : r.opc ∈ [0x08#8, 0x0B#8, 0x4E#8, 0xBA#8, 0xBB#8, 0x74#8, 0xB6#8, 0xBE#8]) : r.Faithful := by
  obtain ⟨hnone, -, -, hlow3, -⟩ := modRows_plain
  obtain ⟨opc, guard, d, a, b, c, mod, imm, la, lb, lc, yld, stall, rsv⟩ := r
  simp only [List.mem_cons, List.not_mem_nil, or_false] at h
  rcases h with rfl | rfl | rfl | rfl | rfl | rfl | rfl | rfl
  iterate 4 exact faithful_of_default (u := { Uses.nothing with a := .v [.S, .I, .Z] }) rfl rfl rfl rfl rfl rfl (wf_alone (allow_usesA _ _)) (hnone _)
  · exact faithful_of_default (u := { Uses.nothing with a := .v [.S, .I] }) rfl rfl rfl rfl rfl rfl (wf_alone (allow_usesA _ _)) (hlow3 _)
  · exact faithful_of_default (u := { Uses.nothing with d := .v [.S] }) rfl rfl rfl rfl rfl rfl (wf_alone (allow_usesD _ _)) (hnone _)
  iterate 2 exact faithful_of_default (u := { Uses.nothing with d := .v sz }) rfl rfl rfl rfl rfl rfl (wf_alone (allow_usesD _ _)) (hnone _)

theorem faithful_oneSource {r : Raw}
    (h : r.opc ∈ [0x19#8, 0x1A#8, 0x23#8, 0x29#8, 0x2A#8, 0x2B#8, 0x3F#8, 0x55#8, 0x63#8, 0x64#8, 0x70#8, 0x71#8, 0xC2#8, 0xC3#8]) :
    r.Faithful := by
  obtain ⟨hnone, -, hlow2, -, -, hbit0, -⟩ := modRows_plain
  obtain ⟨-, hsat⟩ := modRows_int
  obtain ⟨-, -, hreduce, hscan, -⟩ := modRows_cross
  obtain ⟨opc, guard, d, a, b, c, mod, imm, la, lb, lc, yld, stall, rsv⟩ := r
  simp only [List.mem_cons, List.not_mem_nil, or_false] at h
  rcases h with rfl | rfl | rfl | rfl | rfl | rfl | rfl | rfl | rfl | rfl | rfl | rfl | rfl | rfl
  iterate 2 exact faithful_of_default (u := uses1 vz anyKind) rfl rfl rfl rfl rfl rfl (wf_alone (allow_uses1 _ _ _)) (hsat _)
  iterate 6 exact faithful_of_default (u := uses1 vz anyKind) rfl rfl rfl rfl rfl rfl (wf_alone (allow_uses1 _ _ _)) (hnone _)
  · exact faithful_of_default (u := uses1 vz anyKind) rfl rfl rfl rfl rfl rfl (wf_alone (allow_uses1 _ _ _)) (hreduce _)
  · exact faithful_of_default (u := uses1 vz anyKind) rfl rfl rfl rfl rfl rfl (wf_alone (allow_uses1 _ _ _)) (hscan _)
  · exact faithful_of_default (u := uses1 [.V] [.V]) rfl rfl rfl rfl rfl rfl (wf_alone (allow_uses1 _ _ _)) (hnone _)
  · exact faithful_of_default (u := uses1 [.S] [.V]) rfl rfl rfl rfl rfl rfl (wf_alone (allow_uses1 _ _ _)) (hbit0 _)
  iterate 2 exact faithful_of_default (u := uses1 vz [.V]) rfl rfl rfl rfl rfl rfl (wf_alone (allow_uses1 _ _ _)) (hlow2 _)

theorem faithful_intAndBit {r : Raw} (h : r.opc ∈ [0x10#8, 0x11#8, 0x12#8, 0x13#8, 0x15#8, 0x16#8, 0x17#8, 0x18#8, 0x20#8, 0x21#8, 0x22#8,
    0x24#8, 0x26#8, 0x25#8, 0x27#8, 0x14#8, 0x1B#8, 0x28#8, 0x2C#8, 0x2D#8]) : r.Faithful := by
  obtain ⟨hint, -⟩ := modRows_int
  obtain ⟨hnone, hwhole, -, -, hlow4, hbit0, -⟩ := modRows_plain
  obtain ⟨opc, guard, d, a, b, c, mod, imm, la, lb, lc, yld, stall, rsv⟩ := r
  simp only [List.mem_cons, List.not_mem_nil, or_false] at h
  rcases h with rfl | rfl | rfl | rfl | rfl | rfl | rfl | rfl | rfl | rfl | rfl | rfl | rfl | rfl | rfl | rfl | rfl | rfl | rfl | rfl
  iterate 8 exact faithful_of_default (u := uses2 vz anyKind anyKind) rfl rfl rfl rfl rfl rfl (wf_alone (allow_uses2 _ _ _ _)) (hint _)
  iterate 5 exact faithful_of_default (u := uses2 vz anyKind anyKind) rfl rfl rfl rfl rfl rfl (wf_alone (allow_uses2 _ _ _ _)) (hnone _)
  iterate 2 exact faithful_of_default (u := uses2 vz anyKind anyKind) rfl rfl rfl rfl rfl rfl (wf_alone (allow_uses2 _ _ _ _)) (hbit0 _)
  iterate 2 exact faithful_of_default (u := uses3 vz anyKind anyKind anyKind) rfl rfl rfl rfl rfl rfl (wf_alone (allow_uses3 _ _ _ _ _)) (hint _)
  · exact faithful_of_default (u := uses3 vz anyKind anyKind anyKind) rfl rfl rfl rfl rfl rfl (wf_alone (allow_uses3 _ _ _ _ _)) (hnone _)
  · exact faithful_of_default (u := uses3 vz anyKind anyKind anyKind) rfl rfl rfl rfl rfl rfl (wf_alone (allow_uses3 _ _ _ _ _)) (hwhole _)
  · exact faithful_of_default (u := uses3 vz anyKind anyKind anyKind) rfl rfl rfl rfl rfl rfl (wf_alone (allow_uses3 _ _ _ _ _)) (hlow4 _)

theorem faithful_float {r : Raw} (h : r.opc ∈ [0x30#8, 0x31#8, 0x32#8, 0x39#8, 0x34#8, 0x35#8, 0x33#8, 0x38#8, 0x36#8, 0x37#8, 0x3A#8, 0x3B#8,
    0x3C#8, 0x3D#8, 0x3E#8, 0x40#8, 0x41#8, 0x43#8, 0x44#8, 0x42#8, 0x45#8]) : r.Faithful := by
  obtain ⟨hround, hfma, hminmax, happrox, hsqrt⟩ := modRows_fp
  obtain ⟨hhround, hhfma, hhminmax⟩ := modRows_half
  obtain ⟨opc, guard, d, a, b, c, mod, imm, la, lb, lc, yld, stall, rsv⟩ := r
  simp only [List.mem_cons, List.not_mem_nil, or_false] at h
  rcases h with rfl | rfl | rfl | rfl | rfl | rfl | rfl | rfl | rfl | rfl | rfl | rfl | rfl | rfl | rfl | rfl | rfl | rfl | rfl | rfl | rfl
  iterate 4 exact faithful_of_default (u := uses2 vz anyKind anyKind) rfl rfl rfl rfl rfl rfl (wf_and (allow_uses2 _ _ _ _)) (hround _)
  iterate 2 exact faithful_of_default (u := uses2 vz anyKind anyKind) rfl rfl rfl rfl rfl rfl (wf_and (allow_uses2 _ _ _ _)) (hminmax _)
  · exact faithful_of_default (u := uses3 vz anyKind anyKind anyKind) rfl rfl rfl rfl rfl rfl (wf_and (allow_uses3 _ _ _ _ _)) (hfma _)
  · exact faithful_of_default (u := uses1 vz anyKind) rfl rfl rfl rfl rfl rfl (wf_and (allow_uses1 _ _ _)) (hsqrt _)
  iterate 7 exact faithful_of_default (u := uses1 vz anyKind) rfl rfl rfl rfl rfl rfl (wf_and (allow_uses1 _ _ _)) (happrox _)
  iterate 2 exact faithful_of_default (u := uses2 vz anyKind anyKind) rfl rfl rfl rfl rfl rfl (wf_and (allow_uses2 _ _ _ _)) (hhround _)
  iterate 2 exact faithful_of_default (u := uses2 vz anyKind anyKind) rfl rfl rfl rfl rfl rfl (wf_and (allow_uses2 _ _ _ _)) (hhminmax _)
  iterate 2 exact faithful_of_default (u := uses3 vz anyKind anyKind anyKind) rfl rfl rfl rfl rfl rfl (wf_and (allow_uses3 _ _ _ _ _)) (hhfma _)

/-- PMOV, VOTE and MATCH: the kinds of D or A depend on D or MOD (R170, R181). -/
theorem faithful_oneSourceByKind {r : Raw} (h : r.opc ∈ [0x54#8, 0x62#8, 0x65#8]) : r.Faithful := by
  obtain ⟨hnone, -, -, -, -, hbit0, -⟩ := modRows_plain
  obtain ⟨-, hvote, -⟩ := modRows_cross
  obtain ⟨opc, guard, d, a, b, c, mod, imm, la, lb, lc, yld, stall, rsv⟩ := r
  simp only [List.mem_cons, List.not_mem_nil, or_false] at h
  rcases h with rfl | rfl | rfl
  · refine faithful_of_default (u := uses1 [.P, .S, .V] (if kindOfCode d = some .P then [.P, .S, .I, .Z] else [.P])) rfl rfl rfl rfl rfl rfl
      (wf_alone ((allow_uses1 _ _ _).trans (Iff.of_eq (congrArg (· = true) ?_)))) (hnone _)
    have hkind : (opndOfCode imm d).isIn [.P] = true ↔ kindOfCode d = some .P := by
      rw [← kind_opndOfCode_iff (by decide) imm d]
      simp [Opnd.isIn]
    change _ = (_ && (if (opndOfCode imm d).isIn [.P] = true then (opndOfCode imm a).isIn _ else (opndOfCode imm a).isIn _))
    simp only [wf1, hkind, Raw.dO, Raw.aO, apply_ite (Opnd.isIn _)]
  · refine faithful_of_default (u := uses1 (if bitsNat mod 0 2 = 3 then [.V, .S, .Z] else [.P, .Z]) [.P]) rfl rfl rfl (by split_ifs <;> rfl) rfl rfl
      (wf_alone ((allow_uses1 _ _ _).trans (Iff.of_eq (congrArg (· = true) ?_)))) (hvote _)
    have hballot : voteOfNat (bitsNat mod 0 2) = .ballot ↔ bitsNat mod 0 2 = 3 := by revert mod; decide +kernel
    change _ = (_ && (if voteOfNat (bitsNat mod 0 2) = .ballot then (opndOfCode imm d).isIn _ else (opndOfCode imm d).isIn _) && _)
    simp only [wf1, hballot, Raw.dO, Raw.aO, apply_ite (Opnd.isIn _)]
  · exact faithful_of_default (u := uses1 (if bitAt mod 0 then [.P, .Z] else vz) anyKind) rfl rfl rfl (by split_ifs <;> rfl) rfl rfl
      (wf_alone (allow_uses1 _ _ _)) (hbit0 _)

/-- SEL: C is a predicate (R170). -/
theorem faithful_sel {r : Raw} (h : r.opc = 0x52#8) : r.Faithful := by
  obtain ⟨hnone, -⟩ := modRows_plain
  obtain ⟨opc, guard, d, a, b, c, mod, imm, la, lb, lc, yld, stall, rsv⟩ := r
  subst h
  refine faithful_of_default (u := uses3 vz anyKind anyKind [.P]) rfl rfl rfl rfl rfl rfl (wf_alone ((allow_uses3 _ _ _ _ _).trans ?_)) (hnone _)
  simp only [wf3, Raw.aO, Raw.bO, Raw.cO, immAgree_opndOfCode, Bool.and_true]
  change _ ↔ (_ && immAgree (opndOfCode imm a) (opndOfCode imm b)) = true
  rw [immAgree_opndOfCode, Bool.and_true]
  rfl

theorem faithful_twoSources {r : Raw} (h : r.opc ∈ [0x50#8, 0x51#8, 0x60#8, 0x61#8, 0x66#8, 0x72#8, 0x73#8, 0x53#8]) : r.Faithful := by
  obtain ⟨hnone, hwhole, -, -, -, hbit0, hrunapp, -⟩ := modRows_plain
  obtain ⟨hshfl, -⟩ := modRows_cross
  obtain ⟨hisetp, hfsetp⟩ := modRows_compare
  obtain ⟨opc, guard, d, a, b, c, mod, imm, la, lb, lc, yld, stall, rsv⟩ := r
  simp only [List.mem_cons, List.not_mem_nil, or_false] at h
  rcases h with rfl | rfl | rfl | rfl | rfl | rfl | rfl | rfl
  · exact faithful_of_default (u := uses2 [.P, .Z] anyKind anyKind) rfl rfl rfl rfl rfl rfl (wf_alone (allow_uses2 _ _ _ _)) (hisetp _)
  · exact faithful_of_default (u := uses2 [.P, .Z] anyKind anyKind) rfl rfl rfl rfl rfl rfl (wf_alone (allow_uses2 _ _ _ _)) (hfsetp _)
  · exact faithful_of_default (u := uses2 vz [.V] [.V, .S, .I, .Z]) rfl rfl rfl rfl rfl rfl (wf_alone (allow_uses2 _ _ _ _)) (hshfl _)
  · exact faithful_of_default (u := uses2 vz [.V] [.S, .I, .Z]) rfl rfl rfl rfl rfl rfl (wf_alone (allow_uses2 _ _ _ _)) (hbit0 _)
  · exact faithful_of_default (u := uses2 vz [.V] [.S, .I, .Z]) rfl rfl rfl rfl rfl rfl (wf_alone (allow_uses2 _ _ _ _)) (hnone _)
  · exact faithful_of_default (u := uses2 [.S] [.V] [.S, .I]) rfl rfl rfl rfl rfl rfl (wf_alone (allow_uses2 _ _ _ _)) (hnone _)
  · exact faithful_of_default (u := uses2 [.V] [.S, .I, .Z] [.S, .I]) rfl rfl rfl rfl rfl rfl (wf_alone (allow_uses2 _ _ _ _)) (hrunapp _)
  · exact faithful_of_default (u := uses3 [.P, .Z] [.P, .Z] [.P, .Z] [.P, .Z]) rfl rfl rfl rfl rfl rfl (wf_alone (allow_uses3 _ _ _ _ _)) (hwhole _)

theorem faithful_scalar {r : Raw} (h : r.opc ∈ [0x80#8, 0x81#8, 0x82#8, 0x83#8, 0x85#8, 0x8F#8, 0x86#8, 0x88#8, 0x8B#8, 0x8C#8, 0x84#8,
    0x8D#8, 0x87#8, 0x89#8, 0xC1#8, 0xB8#8, 0xB9#8]) : r.Faithful := by
  obtain ⟨hnone, hwhole, -, -, -, hbit0, -⟩ := modRows_plain
  obtain ⟨hscalar, hnosat, hscmp⟩ := modRows_scalar
  obtain ⟨hround, hfma, -⟩ := modRows_fp
  obtain ⟨opc, guard, d, a, b, c, mod, imm, la, lb, lc, yld, stall, rsv⟩ := r
  simp only [List.mem_cons, List.not_mem_nil, or_false] at h
  rcases h with rfl | rfl | rfl | rfl | rfl | rfl | rfl | rfl | rfl | rfl | rfl | rfl | rfl | rfl | rfl | rfl | rfl
  iterate 3 exact faithful_of_default (u := usesS2 sz anyScalar anyScalar) rfl rfl rfl rfl rfl rfl (wf_and (allow_usesS2 rfl _ _ _)) (hscalar _)
  iterate 3 exact faithful_of_default (u := usesS2 sz anyScalar anyScalar) rfl rfl rfl rfl rfl rfl (wf_and (allow_usesS2 rfl _ _ _)) (hnosat _)
  · exact faithful_of_default (u := usesS2 [.S, .P, .Z] anyScalar anyScalar) rfl rfl rfl rfl rfl rfl (wf_and (allow_usesS2 rfl _ _ _)) (hscmp _)
  · exact faithful_of_default (u := usesS2 sz sz [.I]) rfl rfl rfl rfl rfl rfl (wf_alone (allow_usesS2 rfl _ _ _)) (hnone _)
  iterate 2 exact faithful_of_default (u := usesS2 sz [.S, .I, .Z] [.S, .I, .Z]) rfl rfl rfl rfl rfl rfl (wf_and (allow_usesS2 rfl _ _ _)) (hround _)
  · exact faithful_of_default (u := usesS3 sz anyScalar anyScalar anyScalar) rfl rfl rfl rfl rfl rfl (wf_alone (allow_usesS3 rfl _ _ _ _)) (hwhole _)
  · exact faithful_of_default (u := usesS3 sz [.S, .I, .Z] [.S, .I, .Z] [.S, .I, .Z]) rfl rfl rfl rfl rfl rfl (wf_and (allow_usesS3 rfl _ _ _ _)) (hfma _)
  · exact faithful_of_default (u := usesS1 sz anyScalar) rfl rfl rfl rfl rfl rfl (wf_alone (allow_usesS1 rfl _ _)) (hnone _)
  · exact faithful_of_default (u := usesS1 sz [.X]) rfl rfl rfl rfl rfl rfl (wf_alone (allow_usesS1 rfl _ _)) (hnone _)
  · exact faithful_of_default (u := usesS1 sz [.S, .I]) rfl rfl rfl rfl rfl rfl (wf_alone (allow_usesS1 rfl _ _)) (hnone _)
  iterate 2 exact faithful_of_default (u := usesS1 sz [.S, .I, .Z]) rfl rfl rfl rfl rfl rfl (wf_alone (allow_usesS1 rfl _ _)) (hbit0 _)

theorem faithful_of_free {r : Raw} {u : Uses} {mod : BitVec 8} {imm : BitVec 32} {P : Prop} (hu : usesOf r = u) (hk : u.known = true)
    (ho : ordinary r.opc = true) (hfree : immOk r u = true) (himm : imm = r.imm) (hraw : rawOf (instrOfRaw r) = some (r.again u mod imm))
    (hwf : WellFormed (instrOfRaw r) ↔ u.Allow r ∧ P) (hmod : modOk r = true ↔ mod = r.mod ∧ P) : r.Faithful :=
  faithful_of_row hu hk hraw (fun _ => hwf) fun _ _ => by
    rw [restOk_iff (Q := True) (imm := imm) ho hmod (by simp [hfree, himm]), and_true]

theorem faithful_offset {r : Raw} (h : r.opc ∈ [0x76#8, 0xB3#8, 0xC0#8, 0xE0#8, 0xC4#8, 0xE1#8, 0xE2#8, 0x92#8, 0xA3#8, 0xA4#8, 0xB4#8]) :
    r.Faithful := by
  obtain ⟨hnone, -, -, hlow3, hlow4, hbit0, -⟩ := modRows_plain
  obtain ⟨-, -, hsld, -⟩ := modRows_memory
  obtain ⟨-, -, hdcas, hamove⟩ := modRows_atomic
  obtain ⟨opc, guard, d, a, b, c, mod, imm, la, lb, lc, yld, stall, rsv⟩ := r
  simp only [List.mem_cons, List.not_mem_nil, or_false] at h
  rcases h with rfl | rfl | rfl | rfl | rfl | rfl | rfl | rfl | rfl | rfl | rfl
  · exact faithful_of_free (u := usesS1 [.V] baseS) rfl rfl rfl rfl rfl rfl (wf_alone (allow_usesS1 rfl _ _)) (hnone _)
  iterate 3 exact faithful_of_free (u := usesS1 sz baseS) rfl rfl rfl rfl rfl rfl (wf_alone (allow_usesS1 rfl _ _)) (hnone _)
  · exact faithful_of_free (u := usesS1 sz baseS) rfl rfl rfl rfl rfl rfl (wf_alone (allow_usesS1 rfl _ _)) (hlow4 _)
  · exact faithful_of_free (u := usesS1 sz baseS) rfl rfl rfl rfl rfl rfl (wf_alone (allow_usesS1 rfl _ _)) (hbit0 _)
  · exact faithful_of_free (u := usesS1 sz baseS) rfl rfl rfl rfl rfl rfl (wf_alone (allow_usesS1 rfl _ _)) (hlow3 _)
  · exact faithful_of_free (u := usesS1 sz baseV) rfl rfl rfl rfl rfl rfl (wf_and2 (allow_usesS1 rfl _ _)) (hsld _)
  · exact faithful_of_free (u := usesS1 sz baseS) rfl rfl rfl rfl rfl rfl (wf_and2 (allow_usesS1 rfl _ _)) (hdcas _)
  · exact faithful_of_free (u := usesS1 sz baseS) rfl rfl rfl rfl rfl rfl (wf_and2 (allow_usesS1 rfl _ _)) (hamove _)
  · exact faithful_of_free (u := usesS2 sz baseS [.S]) rfl rfl rfl rfl rfl rfl (wf_alone (allow_usesS2 rfl _ _ _)) (hnone _)

/-! ### Accesses with bases and data (R275) -/

theorem regs_ne (m : BitVec 8) : groupOfWidth m ≠ 32 := by revert m; decide +kernel
theorem groupOfW64_ne (w : Bool) : groupOfW64 w ≠ 32 := by cases w <;> decide

theorem storeImm_eq (r : Raw) : (match r.cO with | .imm x => x | _ => r.off) = r.imm := by
  by_cases hc : r.c = 0xE1#8
  · simp only [Raw.cO, opndOfCode_eq_imm_iff.mpr ⟨hc, rfl⟩]
  · rw [Raw.off, if_neg hc]
    cases h : r.cO with
    | imm x => exact absurd (opndOfCode_eq_imm_iff.mp h).1 hc
    | v | s | p | sr | zero => rfl

theorem offFits_off (r : Raw) : offFits r.cO r.off = true := by
  unfold offFits
  split
  next x hx => exact decide_eq_true (if_pos (opndOfCode_eq_imm_iff.mp hx).1)
  next => rfl

theorem allow_store {n : Nat} (hn : n ≠ 32) (r : Raw) :
    ({ d := .none, a := .v baseV, b := .v vz, c := .g dataKinds n } : Uses).Allow r ↔ wfStoreV (headOf r) r.aO r.bO r.cO r.off n = true := by
  simp only [Uses.Allow, Use.v, Use.g, Use.allows, Use.opnd, opndFits_v, opndFits_g hn, wfStoreV, offFits_off, Bool.and_eq_true, true_and, and_assoc, dataKinds]
  rfl

theorem allow_storeResult {n : Nat} (hn : n ≠ 32) (k : List Kind) (r : Raw) :
    ({ d := .g k n, a := .v baseV, b := .v vz, c := .g dataKinds n } : Uses).Allow r
      ↔ (wfStoreV (headOf r) r.aO r.bO r.cO r.off n && r.dO.isIn k && r.dO.groupFits n) = true := by
  have hoff := offFits_off r
  simp only [Uses.Allow, Use.v, Use.g, Use.allows, Use.opnd, opndFits_v, opndFits_g hn, wfStoreV, Bool.and_eq_true, dataKinds,
    Raw.dO, Raw.aO, Raw.bO, Raw.cO] at hoff ⊢
  tauto

theorem faithful_store {r : Raw} (h : r.opc ∈ [0xA1#8, 0xA6#8, 0xBC#8, 0xA0#8, 0xA2#8]) : r.Faithful := by
  obtain ⟨-, -, -, -, -, -, -, hchst, -⟩ := modRows_plain
  obtain ⟨hatom, hcas, -⟩ := modRows_atomic
  obtain ⟨opc, guard, d, a, b, c, mod, imm, la, lb, lc, yld, stall, rsv⟩ := r
  simp only [List.mem_cons, List.not_mem_nil, or_false] at h
  have hreg := groupOfW64_ne (bitAt mod 4)
  rcases h with rfl | rfl | rfl | rfl | rfl
  · exact faithful_of_free (u := { d := .none, a := .v baseV, b := .v vz, c := .g dataKinds (groupOfW64 (bitAt mod 4)) }) rfl rfl rfl rfl (storeImm_eq _) rfl
      (wf_and (allow_store hreg _)) (hatom _)
  · exact faithful_of_free (u := { d := .none, a := .v baseV, b := .v vz, c := .g dataKinds (groupOfW64 (bitAt mod 4)) }) rfl rfl rfl rfl (storeImm_eq _) rfl
      (wf_and (allow_store hreg _)) (hcas _)
  · exact faithful_of_free (u := { d := .none, a := .v baseV, b := .v vz, c := .g dataKinds (groupOfW64 (bitAt mod 3)) }) rfl rfl rfl rfl (storeImm_eq _) rfl
      (wf_alone (allow_store (groupOfW64_ne _) _)) (hchst _)
  · exact faithful_of_free (u := { d := .g vz (groupOfW64 (bitAt mod 4)), a := .v baseV, b := .v vz, c := .g dataKinds (groupOfW64 (bitAt mod 4)) }) rfl rfl rfl rfl (storeImm_eq _) rfl
      (wf_and (allow_storeResult hreg _ _)) (hatom _)
  · exact faithful_of_free (u := { d := .g [.V] (groupOfW64 (bitAt mod 4)), a := .v baseV, b := .v vz, c := .g dataKinds (groupOfW64 (bitAt mod 4)) }) rfl rfl rfl rfl (storeImm_eq _) rfl
      (wf_and (allow_storeResult hreg _ _)) (hcas _)

/-- Data of several registers are a group or an immediate (R275). -/
theorem isIn_groupData (n : Nat) (o : Opnd) :
    o.isIn (if n = 1 then dataKinds else [.V, .I]) = (o.isIn dataKinds && (decide (n = 1) || o.isIn [.V, .I])) := by
  by_cases hn : n = 1
  · simp [hn]
  · cases o <;> simp [hn, Opnd.isIn, Opnd.kind, dataKinds]

theorem allow_base {n : Nat} (hn : n ≠ 32) (k : List Kind) (r : Raw) :
    (Uses.mk (.g k n) (.v baseV) (.v vz) .none).Allow r
      ↔ (wf2 (headOf r) r.dO r.aO r.bO k baseV vz && r.dO.groupFits n) = true := by
  simp only [Uses.Allow, Use.v, Use.g, Use.allows, Use.opnd, opndFits_v, opndFits_g hn, wf2, immAgree_opndOfCode, Bool.and_eq_true,
    Raw.dO, Raw.aO, Raw.bO, and_true]
  tauto

theorem allow_storeGroup {n : Nat} (hn : n ≠ 32) (r : Raw) :
    (Uses.mk .none (.v baseV) (.v vz) (.g (if n = 1 then dataKinds else [.V, .I]) n)).Allow r
      ↔ (wfStoreV (headOf r) r.aO r.bO r.cO r.off n && (decide (n = 1) || r.cO.isIn [.V, .I])) = true := by
  rw [Bool.and_eq_true, ← allow_store hn]
  simp only [Uses.Allow, Use.g, Use.v, Use.allows, Use.opnd, opndFits_g hn, isIn_groupData, Bool.and_eq_true, Raw.cO]
  tauto

theorem wf_around2 {A : Prop} {x y z w : Bool} (h : A ↔ (x && w) = true) : (x && y && z && w) = true ↔ A ∧ (y && z) = true := by
  rw [h]; cases x <;> cases y <;> cases z <;> cases w <;> decide

theorem wf_around3 {A : Prop} {x y z w v : Bool} (h : A ↔ (x && v) = true) : (x && y && z && w && v) = true ↔ A ∧ (y && z && w) = true := by
  rw [h]; cases x <;> cases y <;> cases z <;> cases w <;> cases v <;> decide

theorem faithful_access {r : Raw} (h : r.opc ∈ [0x90#8, 0x91#8, 0x93#8, 0x94#8]) : r.Faithful := by
  obtain ⟨hld, hst, -, hsst, hpref⟩ := modRows_memory
  obtain ⟨opc, guard, d, a, b, c, mod, imm, la, lb, lc, yld, stall, rsv⟩ := r
  simp only [List.mem_cons, List.not_mem_nil, or_false] at h
  have hregs := regs_ne mod
  rcases h with rfl | rfl | rfl | rfl
  · exact faithful_of_free (u := Uses.mk (.g vz (groupOfWidth mod)) (.v baseV) (.v vz) .none) rfl rfl rfl rfl rfl rfl
      (wf_around2 (allow_base hregs _ _)) (hld _)
  · refine faithful_of_free (u := Uses.mk .none (.v baseV) (.v vz)
      (.g (if groupOfWidth mod = 1 then dataKinds else [.V, .I]) (groupOfWidth mod))) rfl rfl rfl rfl (storeImm_eq _) rfl (wf_around3 ?_) (hst _)
    exact allow_storeGroup hregs _
  · refine faithful_of_free (u := Uses.mk .none (.s baseV) .none (.s [.S, .I, .Z])) rfl rfl rfl rfl (storeImm_eq _) rfl (wf_and3 ?_) (hsst _)
    rw [offFits_off, Bool.and_true]
    simp only [Uses.Allow, Use.s, Use.allows, Use.opnd, opndFits_s, isScalarIn_eq_isIn (k := [.S, .I, .Z]) rfl, Raw.aO, Raw.cO, Bool.and_eq_true]
    tauto
  · refine faithful_of_free (u := Uses.mk .none (.v baseV) (.v vz) .none) rfl rfl rfl rfl rfl rfl (wf_and3 ?_) (hpref _)
    simp only [Uses.Allow, Use.v, Use.allows, Use.opnd, opndFits_v, Raw.aO, Raw.bO, Bool.and_eq_true]
    tauto

theorem faithful_range {r : Raw} (h : r.opc ∈ [0x95#8, 0x96#8, 0xB5#8, 0x75#8, 0xB2#8]) : r.Faithful := by
  obtain ⟨hcflush, hicinv, -⟩ := modRows_scope
  obtain ⟨hnone, -, -, -, -, hbit0, -⟩ := modRows_plain
  obtain ⟨opc, guard, d, a, b, c, mod, imm, la, lb, lc, yld, stall, rsv⟩ := r
  simp only [List.mem_cons, List.not_mem_nil, or_false] at h
  have hallow (r : Raw) : (Uses.mk .none (.s baseS) (.v [.S]) .none).Allow r
      ↔ ((headOf r).wf (some r.aO) (some r.bO) none && r.aO.isScalarIn baseS && r.bO.isIn [.S]) = true := by
    simp only [Uses.Allow, Use.s, Use.v, Use.allows, Use.opnd, opndFits_s, opndFits_v, Raw.aO, Raw.bO, Bool.and_eq_true]
    tauto
  have hspill (r : Raw) : (Uses.mk .none (.s baseS) .none (.v [.V])).Allow r
      ↔ ((headOf r).wf (some r.aO) none (some r.cO) && r.aO.isScalarIn baseS && r.cO.isIn [.V]) = true := by
    simp only [Uses.Allow, Use.s, Use.v, Use.allows, Use.opnd, opndFits_s, opndFits_v, Raw.aO, Raw.cO, Bool.and_eq_true]
    tauto
  have hown (r : Raw) : (Uses.mk .none (.s baseS) .none .own).Allow r
      ↔ ((headOf r).wf (some r.aO) none none && r.aO.isScalarIn baseS) = true := by
    simp only [Uses.Allow, Use.s, Use.allows, Use.opnd, opndFits_s, Raw.aO, Bool.and_eq_true]
    tauto
  rcases h with rfl | rfl | rfl | rfl | rfl
  · exact faithful_of_free (u := Uses.mk .none (.s baseS) (.v [.S]) .none) rfl rfl rfl rfl rfl rfl (wf_and (hallow _)) (hcflush _)
  · exact faithful_of_free (u := Uses.mk .none (.s baseS) (.v [.S]) .none) rfl rfl rfl rfl rfl rfl (wf_and (hallow _)) (hicinv _)
  · exact faithful_of_free (u := Uses.mk .none (.s baseS) (.v [.S]) .none) rfl rfl rfl rfl rfl rfl (wf_alone (hallow _)) (hnone _)
  · exact faithful_of_free (u := Uses.mk .none (.s baseS) .none (.v [.V])) rfl rfl rfl rfl rfl rfl (wf_alone (hspill _)) (hbit0 _)
  · exact faithful_of_free (u := Uses.mk .none (.s baseS) .none .own) rfl rfl rfl rfl rfl rfl (wf_alone (hown _)) (hbit0 _)

/-! ### IMM in parts (R58) -/

theorem within_iff (x m : BitVec 32) : within x m = true ↔ x &&& m = x := by
  rw [within, decide_eq_true_eq]
  constructor
  · intro h
    calc x &&& m = (x &&& m) ||| (x &&& ~~~m) := by rw [h, BitVec.or_zero]
      _ = x := by ext i hi; simp only [BitVec.getElem_or, BitVec.getElem_and, BitVec.getElem_not]; cases x[i] <;> cases m[i] <;> rfl
  · intro h
    rw [← h, BitVec.and_assoc, BitVec.and_not_self]
    exact BitVec.and_zero

theorem pack_halves (x : BitVec 32) : x.extractLsb' 16 16 ++ x.extractLsb' 0 16 = x := by
  rw [BitVec.extractLsb'_append_extractLsb'_eq_extractLsb' (by rfl)]
  exact BitVec.extractLsb'_eq_self

theorem pack_low16 (x : BitVec 32) : 0#16 ++ x.extractLsb' 0 16 = x &&& 0xFFFF#32 := by
  apply BitVec.eq_of_getLsbD_eq
  intro i hi
  rw [BitVec.getLsbD_append]
  interval_cases i <;> simp

theorem pack_high16 (x : BitVec 32) : x.extractLsb' 16 16 ++ 0#16 = x &&& 0xFFFF0000#32 := by
  apply BitVec.eq_of_getLsbD_eq
  intro i hi
  rw [BitVec.getLsbD_append]
  interval_cases i <;> simp

theorem pack_low3 (x : BitVec 32) : 0#29 ++ x.extractLsb' 0 3 = x &&& 7#32 := by
  apply BitVec.eq_of_getLsbD_eq
  intro i hi
  rw [BitVec.getLsbD_append]
  interval_cases i <;> simp

theorem pack_bit0 (x : BitVec 32) : 0#31 ++ bit1 (bitAt x 0) = x &&& 1#32 := by
  apply BitVec.eq_of_getLsbD_eq
  intro i hi
  rw [BitVec.getLsbD_append]
  interval_cases i <;> simp [bit1, bitAt]

theorem pack_twoDigits (x : BitVec 32) : 0#25 ++ (x.extractLsb' 4 3 ++ (0#1 ++ x.extractLsb' 0 3)) = x &&& 0x77#32 := by
  apply BitVec.eq_of_getLsbD_eq
  intro i hi
  rw [BitVec.getLsbD_append, BitVec.getLsbD_append, BitVec.getLsbD_append]
  interval_cases i <;> simp

theorem pack_wait (x : BitVec 32) :
    0#8 ++ (x.extractLsb' 18 6 ++ (x.extractLsb' 12 6 ++ (x.extractLsb' 6 6 ++ x.extractLsb' 0 6))) = x &&& 0x00FFFFFF#32 := by
  apply BitVec.eq_of_getLsbD_eq
  intro i hi
  rw [BitVec.getLsbD_append, BitVec.getLsbD_append, BitVec.getLsbD_append, BitVec.getLsbD_append]
  interval_cases i <;> simp

/-- IMM of a FENCE from its parts (R284). -/
def fenceImm (x : BitVec 32) : BitVec 32 := 0#11 ++ (x.extractLsb' 16 5 ++ (0#2 ++ (x.extractLsb' 8 6 ++ (0#2 ++ x.extractLsb' 0 6))))

theorem fenceImm_eq (x : BitVec 32) : fenceImm x = x &&& 0x1F3F3F#32 := by
  apply BitVec.eq_of_getLsbD_eq
  intro i hi
  rw [fenceImm, BitVec.getLsbD_append, BitVec.getLsbD_append, BitVec.getLsbD_append, BitVec.getLsbD_append, BitVec.getLsbD_append]
  interval_cases i <;> simp

theorem faithful_of_imm {r : Raw} {u : Uses} {mod : BitVec 8} {imm : BitVec 32} {P Q : Prop} (hu : usesOf r = u) (hk : u.known = true)
    (ho : ordinary r.opc = true) (hraw : rawOf (instrOfRaw r) = some (r.again u mod imm))
    (hwf : u.Coded r → (WellFormed (instrOfRaw r) ↔ u.Allow r ∧ P ∧ Q)) (hmod : modOk r = true ↔ mod = r.mod ∧ P)
    (himm : u.Allow r → u.Coded r → (immOk r u = true ↔ imm = r.imm ∧ Q)) : r.Faithful :=
  faithful_of_row hu hk hraw hwf fun hallow hcoded => restOk_iff ho hmod (himm hallow hcoded)

theorem packed_iff {x y m : BitVec 32} (h : y = x &&& m) : within x m = true ↔ y = x ∧ true = true := by
  rw [within_iff, h, eq_self, and_true]

theorem packed_and_iff {x y m : BitVec 32} {q : Bool} (h : y = x &&& m) : (within x m && q) = true ↔ y = x ∧ q = true := by
  rw [Bool.and_eq_true, within_iff, h]

theorem faithful_parts {r : Raw} (h : r.opc ∈ [0x01#8, 0x0C#8, 0xB7#8, 0xD4#8, 0x03#8]) : r.Faithful := by
  obtain ⟨hnone, -, -, -, -, -, -, -, hmcbld⟩ := modRows_plain
  obtain ⟨opc, guard, d, a, b, c, mod, imm, la, lb, lc, yld, stall, rsv⟩ := r
  simp only [List.mem_cons, List.not_mem_nil, or_false] at h
  rcases h with rfl | rfl | rfl | rfl | rfl
  · exact faithful_of_free (u := .nothing) rfl rfl rfl rfl (pack_halves _) rfl (wf_alone (allow_nothing _)) (hnone _)
  · exact faithful_of_imm (u := .nothing) rfl rfl rfl rfl (fun _ => wf_alone2 (allow_nothing _)) (hnone _) fun _ _ => packed_iff (pack_low16 _)
  · exact faithful_of_imm (u := .nothing) rfl rfl rfl rfl (fun _ => wf_alone2 (allow_nothing _)) (hnone _) fun _ _ => packed_iff (pack_wait _)
  · exact faithful_of_imm (u := { Uses.nothing with a := .v [.S] }) rfl rfl rfl rfl (fun _ => wf_alone2 (allow_usesA _ _)) (hmcbld _)
      fun _ _ => packed_iff (pack_low3 _)
  · refine faithful_of_imm (u := Uses.mk .none (.v [.V]) (.v [.S]) .own) rfl rfl rfl rfl (fun _ => wf_alone2 ?_) (hnone _)
      fun _ _ => packed_iff (pack_high16 _)
    simp only [Uses.Allow, Use.v, Use.allows, Use.opnd, opndFits_v]
    change _ ↔ (_ && (opndOfCode imm a).isIn [.V] && (opndOfCode imm b).isIn [.S]) = true
    simp only [Bool.and_eq_true]
    tauto

/-- A field that is read as no operand, or as none of kind I. -/
def Use.immFree (u : Use) : Bool := !u.isOps || u.noImm

theorem isOps_and_eq_false {u : Use} (h : u.immFree = true) {imm : BitVec 32} {c : BitVec 8} (hc : u.code imm c = c)
    (ha : u.allows imm c = true) : (u.isOps && decide (c = 0xE1#8)) = false := by
  rcases Bool.or_eq_true_iff.mp h with hops | hno
  · rw [Bool.not_eq_true'] at hops
    rw [hops, Bool.false_and]
  · rw [decide_eq_false (ne_immCode_of_noImm hno hc ha), Bool.and_false]

theorem imm_of_immFree {u : Uses} {r : Raw} (ha : u.a.immFree = true) (hb : u.b.immFree = true) (hc : u.c.immFree = true)
    (hallow : u.Allow r) (hcoded : u.Coded r) : u.imm r = 0#32 := by
  obtain ⟨-, -, aa, ab, ac⟩ := hallow
  obtain ⟨-, ca, cb, cc⟩ := hcoded
  have h := immOf_opnd u.c r.imm r.c []
  rw [List.append_nil] at h
  rw [Uses.imm, immOf_opnd, immOf_opnd, h, isOps_and_eq_false ha ca aa, isOps_and_eq_false hb cb ab, isOps_and_eq_false hc cc ac]
  rfl

theorem faithful_ret {r : Raw} (h : r.opc = 0x06#8) : r.Faithful := by
  obtain ⟨hnone, -⟩ := modRows_plain
  obtain ⟨opc, guard, d, a, b, c, mod, imm, la, lb, lc, yld, stall, rsv⟩ := r
  subst h
  refine faithful_of_imm (u := { Uses.nothing with a := .v [.S] }) rfl rfl rfl rfl (fun _ => wf_alone2 (allow_usesA _ _)) (hnone _)
    fun hallow hcoded => (immDefault_iff rfl hallow hcoded).trans ?_
  rw [imm_of_immFree rfl rfl rfl hallow hcoded]
  exact (and_iff_left rfl).symm

theorem ne_zero_of_code {imm : BitVec 32} {c : BitVec 8} (hc : Canon imm c) (hne : c ≠ 0xE0#8) : opndOfCode imm c ≠ .zero := by
  intro h
  rw [← hc, h] at hne
  exact hne rfl

theorem isIn_sz_of_ne_zero {o : Opnd} (h : o ≠ .zero) : o.isIn sz = o.isIn [.S] := by
  cases o with
  | zero => exact absurd rfl h
  | v | s | p | sr | imm => rfl

theorem instrOfRaw_jmpScalar {r : Raw} (h : r.opc = 0x02#8) (ha : r.a ≠ 0xE0#8) : instrOfRaw r = .jmpScalar (headOf r) r.aO := by
  obtain ⟨opc, guard, d, a, b, c, mod, imm, la, lb, lc, yld, stall, rsv⟩ := r
  subst h
  exact if_neg ha

theorem instrOfRaw_callScalar {r : Raw} (h : r.opc = 0x05#8) (ha : r.a ≠ 0xE0#8) : instrOfRaw r = .callScalar (headOf r) r.dO r.aO := by
  obtain ⟨opc, guard, d, a, b, c, mod, imm, la, lb, lc, yld, stall, rsv⟩ := r
  subst h
  exact if_neg ha

theorem faithful_jump {r : Raw} (h : r.opc ∈ [0x02#8, 0x05#8]) : r.Faithful := by
  obtain ⟨hnone, -⟩ := modRows_plain
  obtain ⟨opc, guard, d, a, b, c, mod, imm, la, lb, lc, yld, stall, rsv⟩ := r
  simp only [List.mem_cons, List.not_mem_nil, or_false] at h
  by_cases ha : a = 0xE0#8
  · subst ha
    rcases h with rfl | rfl
    · refine faithful_of_imm (u := { Uses.nothing with a := .v sz }) rfl rfl rfl rfl (fun _ => wf_alone2 ?_) (hnone _)
        fun _ _ => packed_iff (pack_low16 _)
      exact (allow_usesA _ _).trans (by rw [show Opnd.isIn _ sz = true from rfl, Bool.and_true]; rfl)
    · refine faithful_of_imm (u := uses1 sz sz) rfl rfl rfl rfl (fun _ => wf_alone2 ?_) (hnone _)
        fun _ _ => packed_iff (pack_low16 _)
      exact (allow_uses1 _ _ _).trans (by rw [wf1, show Opnd.isIn (Raw.aO _) sz = true from rfl, Bool.and_true]; rfl)
  · rcases h with rfl | rfl
    · have hinstr := instrOfRaw_jmpScalar (r := ⟨0x02#8, guard, d, a, b, c, mod, imm, la, lb, lc, yld, stall, rsv⟩) rfl ha
      refine faithful_of_imm (u := { Uses.nothing with a := .v sz }) (imm := 0#32) (Q := true = true) rfl rfl rfl (congrArg rawOf hinstr) (fun hcoded => ?_) (hnone _)
        fun _ _ => ?_
      · rw [WellFormed, hinstr]
        refine wf_alone2 ((allow_usesA _ _).trans ?_)
        rw [isIn_sz_of_ne_zero (o := Raw.aO _) (ne_zero_of_code hcoded.2.1 ha)]
        rfl
      · change (if a = 0xE0#8 then _ else decide (imm = 0#32)) = true ↔ _
        rw [if_neg ha, decide_eq_true_eq, eq_comm]
        exact (and_iff_left rfl).symm
    · have hinstr := instrOfRaw_callScalar (r := ⟨0x05#8, guard, d, a, b, c, mod, imm, la, lb, lc, yld, stall, rsv⟩) rfl ha
      refine faithful_of_imm (u := uses1 sz sz) (imm := 0#32) (Q := true = true) rfl rfl rfl (congrArg rawOf hinstr) (fun hcoded => ?_) (hnone _)
        fun _ _ => ?_
      · rw [WellFormed, hinstr]
        refine wf_alone2 ((allow_uses1 _ _ _).trans ?_)
        rw [wf1, isIn_sz_of_ne_zero (o := Raw.aO _) (ne_zero_of_code hcoded.2.1 ha)]
        rfl
      · change (if a = 0xE0#8 then _ else decide (imm = 0#32)) = true ↔ _
        rw [if_neg ha, decide_eq_true_eq, eq_comm]
        exact (and_iff_left rfl).symm

/-! ### JOIN and SWR -/

theorem faithful_join {r : Raw} (h : r.opc = 0x04#8) : r.Faithful := by
  obtain ⟨hnone, -⟩ := modRows_plain
  obtain ⟨opc, guard, d, a, b, c, mod, imm, la, lb, lc, yld, stall, rsv⟩ := r
  subst h
  have hguard : ∀ g : BitVec 4, decide ((⟨bitAt g 3, Fin.ofNat 8 (bitsNat g 0 3)⟩ : Guard) = ⟨false, 7⟩) = true ↔ g = 7#4 := by decide
  refine faithful_of_row (u := .nothing) (mod := 0#8) (imm := 0#32) (P := guard = 7#4) rfl rfl rfl (fun _ => ?_) fun hallow hcoded => ?_
  · rw [← hguard, allow_nothing, ← Bool.and_eq_true]
    rfl
  · have hmod := hnone mod
    have himm := immDefault_iff rfl hallow hcoded
    simp only [Raw.RestOk, true_implies, show (0x04#8 = 0x8A#8) = False by decide, show (0x04#8 = 0x4B#8) = False by decide, false_implies, and_true]
    exact ⟨fun ⟨m, i, g⟩ => ⟨⟨(hmod.mp m).1, himm.mp i⟩, g⟩, fun ⟨⟨m, i⟩, g⟩ => ⟨hmod.mpr ⟨m, rfl⟩, himm.mpr i, g⟩⟩

theorem swr_wf_iff (h : Head) (d a : Opnd) : (Instr.swr h d a).wf = true
    ↔ (h.wf (some a) none none && a.isIn [.S, .I, .Z]) = true ∧ d.isScalarIn [.X] = true ∧ swrOk (opndCode d) = true := by
  change (_ && _ && _) = true ↔ _
  rw [Bool.and_eq_true]
  refine and_congr_right fun _ => ?_
  cases d with
  | sr r => cases r <;> decide
  | v | s | p | zero | imm => simp [Opnd.isScalarIn, Opnd.kind]

theorem faithful_swr {r : Raw} (h : r.opc = 0x8A#8) : r.Faithful := by
  obtain ⟨hnone, -⟩ := modRows_plain
  obtain ⟨opc, guard, d, a, b, c, mod, imm, la, lb, lc, yld, stall, rsv⟩ := r
  subst h
  refine faithful_of_row (u := Uses.mk (.s [.X]) (.v [.S, .I, .Z]) .none .none) (mod := 0#8) (imm := immOf [opndOfCode imm a])
    (P := swrOk d = true) rfl rfl rfl (fun hcoded => ?_) fun hallow hcoded => ?_
  · have hd : opndCode (opndOfCode imm d) = d := hcoded.1
    refine (swr_wf_iff _ (opndOfCode imm d) (opndOfCode imm a)).trans ?_
    rw [hd]
    simp only [Uses.Allow, Use.s, Use.v, Use.allows, Use.opnd, opndFits_s, opndFits_v, Bool.and_eq_true]
    tauto
  · have hmod := hnone mod
    have himm := immDefault_iff rfl hallow hcoded
    simp only [Raw.RestOk, true_implies, show (0x8A#8 = 0x04#8) = False by decide, show (0x8A#8 = 0x4B#8) = False by decide, false_implies, and_true, true_and]
    exact ⟨fun ⟨m, i, g⟩ => ⟨⟨(hmod.mp m).1, himm.mp i⟩, g⟩, fun ⟨⟨m, i⟩, g⟩ => ⟨hmod.mpr ⟨m, rfl⟩, himm.mpr i, g⟩⟩

/-! ### ALD: an operand to a scalar executes once (R275) -/

theorem faithful_aldScalar {r : Raw} (h : r.opc = 0xA5#8) (hd : kindOfCode r.d = some .S) : r.Faithful := by
  obtain ⟨-, hcas, -⟩ := modRows_atomic
  have huses : usesOf r = Uses.mk (.v [.V, .S, .Z]) (.s baseV) .none .none := by
    cases r; subst h; exact if_pos hd
  have hinstr : instrOfRaw r = .ald (headOf r) r.dO r.aO r.bO r.imm (atomModOf r.mod) := by cases r; subst h; rfl
  have hraw : rawOf (instrOfRaw r)
      = some (r.again (Uses.mk (.v [.V, .S, .Z]) (.v baseV) (.v vz) .none) (atomModCode (atomModOf r.mod)) r.imm) := by
    cases r; subst h; rfl
  have hmod : modOk r = true ↔ atomModCode (atomModOf r.mod) = r.mod ∧ decide ((atomModOf r.mod).op = .add) = true := by cases r; subst h; exact hcas _
  have hfree : immOk r (Uses.mk (.v [.V, .S, .Z]) (.s baseV) .none .none) = true := by cases r; subst h; rfl
  have hscalar : r.dO.kind = .S := (kind_opndOfCode_iff (by decide) _ _).mpr hd
  have hfits (n : Nat) : r.dO.groupFits n = true := by
    cases hdO : r.dO with
    | s => rfl
    | v | p | sr | zero | imm => simp [hdO, Opnd.kind] at hscalar
  have hisS : r.dO.isIn [.S] = true := by simp [Opnd.isIn, hscalar]
  rw [Raw.Faithful, checks_iff_allow huses rfl, hraw, Option.some_inj, again_eq_iff,
    restOk_iff (Q := True) (imm := r.imm) (by rw [h]; rfl) hmod (by simp [hfree]), WellFormed, hinstr]
  have hzero : (0xE0#8 = r.b) ↔ r.bO = .zero ∧ opndCode r.bO = r.b :=
    ⟨fun hb => by rw [Raw.bO, ← hb]; exact ⟨rfl, rfl⟩, fun ⟨ho, hc⟩ => by rw [← hc, ho]; rfl⟩
  have hagree : immAgree r.aO r.bO = true := immAgree_opndOfCode _ _ _
  simp only [Instr.wf, wf2, hagree, Uses.Allow, Uses.Coded, Use.v, Use.s, Use.allows, Use.opnd, Use.code, opndFits_v,
    opndFits_s, ← Raw.dO.eq_1, ← Raw.aO.eq_1, ← Raw.bO.eq_1, hzero, hfits, hisS, Opnd.isScalarIn, ← Opnd.isIn.eq_1, Bool.and_eq_true,
    Bool.not_true, Bool.false_or, decide_eq_true_eq]
  constructor
  · rintro ⟨⟨⟨hhead, hdk, ⟨hak, hlane⟩, -⟩, hdc, hac, ⟨hbz, hbc⟩, hcc⟩, ⟨⟨hm, -⟩, hop, -⟩, hrsv⟩
    exact ⟨⟨⟨⟨⟨⟨⟨⟨hbz ▸ hhead, hdk⟩, hak⟩, hbz ▸ rfl⟩, trivial⟩, trivial⟩, hop⟩, hbz, hlane⟩, ⟨hdc, hac, hbc, hcc⟩, hm, trivial, hrsv⟩
  · rintro ⟨⟨⟨⟨⟨⟨⟨⟨hhead, hdk⟩, hak⟩, -⟩, -⟩, -⟩, hop⟩, hbz, hlane⟩, ⟨hdc, hac, hbc, hcc⟩, hm, -, hrsv⟩
    rw [hbz] at hhead
    exact ⟨⟨⟨hhead, hdk, ⟨hak, hlane⟩, trivial, trivial⟩, hdc, hac, ⟨hbz, hbc⟩, hcc⟩, ⟨⟨hm, trivial⟩, hop, trivial⟩, hrsv⟩

theorem faithful_ald {r : Raw} (h : r.opc = 0xA5#8) : r.Faithful := by
  by_cases hd : kindOfCode r.d = some .S
  · exact faithful_aldScalar h hd
  obtain ⟨-, hcas, -⟩ := modRows_atomic
  obtain ⟨opc, guard, d, a, b, c, mod, imm, la, lb, lc, yld, stall, rsv⟩ := r
  subst h
  have hnotS : ¬ (opndOfCode imm d).isIn [.S] = true := by
    rw [Opnd.isIn, List.contains_cons, Bool.or_eq_true, beq_iff_eq, kind_opndOfCode_iff (by decide)]
    simpa using hd
  refine faithful_of_free (u := Uses.mk (.g [.V, .S, .Z] (groupOfW64 (bitAt mod 4))) (.v baseV) (.v vz) .none) (if_neg hd) rfl rfl rfl rfl rfl
    ?_ (hcas _)
  change ((wf2 _ _ _ _ _ _ _ && _) && _ && (!(opndOfCode imm d).isIn [.S] || _)) = true ↔ _
  rw [Bool.eq_false_of_not_eq_true hnotS, Bool.not_false, Bool.true_or, Bool.and_true]
  exact wf_and (allow_base (groupOfW64_ne _) _ _)

/-! ### FENCE: MOD and IMM together (R286) -/

theorem faithful_fence {r : Raw} (h : r.opc = 0xB0#8) : r.Faithful := by
  obtain ⟨opc, guard, d, a, b, c, mod, imm, la, lb, lc, yld, stall, rsv⟩ := r
  subst h
  have hmod : ∀ m : BitVec 8, (decide (m &&& ~~~0x1F#8 = 0#8)
      && (decide (bitsNat m 0 3 < 6) && decide (bitsNat m 3 2 < 2) && (decide (bitsNat m 3 2 = 0) || decide (bitsNat m 0 3 = 3)))) = true
      ↔ 0#4 ++ (bit1 (bitAt m 3) ++ BitVec.ofNat 3 (scopeNum (scopeOfNat (bitsNat m 0 3)))) = m
        ∧ (bitAt m 3 = true → scopeOfNat (bitsNat m 0 3) = .pkg) := by decide +kernel
  have hdir : ∀ m : BitVec 8, 0#4 ++ (bit1 (bitAt m 3) ++ BitVec.ofNat 3 (scopeNum (scopeOfNat (bitsNat m 0 3)))) = m →
     (bitsNat m 3 2 = 0 ↔ bitAt m 3 = false) := by decide +kernel
  refine faithful_of_row (u := .nothing) (mod := 0#4 ++ (bit1 (bitAt mod 3) ++ BitVec.ofNat 3 (scopeNum (scopeOfNat (bitsNat mod 0 3)))))
    (imm := fenceImm imm)
    (P := if bitAt mod 3 then scopeOfNat (bitsNat mod 0 3) = .pkg ∧ (imm.extractLsb' 16 5).toNat < 24 else imm.extractLsb' 16 5 = 0#5)
    rfl rfl rfl (fun _ => ?_) fun _ _ => ?_
  · change (_ && (if bitAt mod 3 = true then _ else _)) = true ↔ _
    rw [Bool.and_eq_true, allow_nothing]
    refine and_congr_right fun _ => ?_
    cases bitAt mod 3 <;> simp
  · refine (restOk_iff (r := ⟨0xB0#8, guard, d, a, b, c, mod, imm, la, lb, lc, yld, stall, rsv⟩)
      (imm := fenceImm imm) (Q := if bitsNat mod 3 2 = 0 then bitsNat imm 16 5 = 0 else bitsNat imm 16 5 < 24) rfl (hmod mod) ?_).trans ?_
    · change (within imm _ && (if bitsNat mod 3 2 = 0 then _ else _)) = true ↔ _
      rw [Bool.and_eq_true, within_iff, ← fenceImm_eq]
      refine and_congr_right fun _ => ?_
      split_ifs <;> exact decide_eq_true_iff
    · refine and_congr_right fun ⟨hm, _⟩ => ?_
      have hdie : imm.extractLsb' 16 5 = 0#5 ↔ bitsNat imm 16 5 = 0 := by rw [← BitVec.toNat_inj]; rfl
      simp only [hdir mod hm, hdie]
      cases bitAt mod 3 <;> simp [bitsNat]

/-! ### The matrix unit (R350-R353) -/

theorem opndFits_acc (o : Opnd) : opndFits [.V] true 32 o = o.isAcc := by
  cases o <;> simp [opndFits, Opnd.kind, Opnd.isAcc, Opnd.isLane]

theorem opndFits_accOrZero (o : Opnd) : opndFits [.V, .Z] true 32 o = (o.isAcc || decide (o = .zero)) := by
  cases o <;> simp [opndFits, Opnd.kind, Opnd.isAcc, Opnd.isLane]

/-- The operands of a dense product (R351). -/
def productUses : Uses := Uses.mk (.g [.V] 32) (.v [.S]) (.v [.S]) (.g [.V, .Z] 32)

theorem allow_product (r : Raw) : productUses.Allow r ↔ ((headOf r).wf (some r.aO) (some r.bO) (some r.cO) && r.dO.isAcc && r.aO.isIn [.S]
    && r.bO.isIn [.S] && (r.cO.isAcc || decide (r.cO = .zero))) = true := by
  simp only [Uses.Allow, productUses, Use.g, Use.v, Use.allows, Use.opnd, opndFits_acc, opndFits_accOrZero, opndFits_v, ← Raw.dO.eq_1,
    ← Raw.aO.eq_1, ← Raw.bO.eq_1, ← Raw.cO.eq_1, Bool.and_eq_true]
  tauto

theorem immZero_iff {u : Uses} {r : Raw} (ha : u.a.immFree = true) (hb : u.b.immFree = true) (hc : u.c.immFree = true) (hallow : u.Allow r)
    (hcoded : u.Coded r) : decide (r.imm = 0#32) = true ↔ u.imm r = r.imm ∧ true = true := by
  rw [imm_of_immFree ha hb hc hallow hcoded, decide_eq_true_eq, eq_comm, eq_self, and_true]

theorem wf_alone_right {A : Prop} {x y : Bool} (h : A ↔ x = true) : (x && y) = true ↔ A ∧ y = true ∧ true = true := by
  rw [h, Bool.and_eq_true, eq_self, and_true]

theorem wf_alone_right2 {A : Prop} {x y z : Bool} (h : A ↔ x = true) : (x && y && z) = true ↔ A ∧ (y && z) = true ∧ true = true := by
  rw [h, Bool.and_assoc, Bool.and_eq_true, eq_self, and_true]

theorem wf_and_and {A : Prop} {x y z : Bool} (h : A ↔ x = true) : (x && y && z) = true ↔ A ∧ y = true ∧ z = true := by
  rw [h, Bool.and_eq_true, Bool.and_eq_true, and_assoc]

theorem wf_and_and2 {A : Prop} {x y z w : Bool} (h : A ↔ x = true) : (x && y && z && w) = true ↔ A ∧ y = true ∧ (z && w) = true := by
  rw [h, Bool.and_assoc (x && y), Bool.and_eq_true, Bool.and_eq_true, and_assoc]

theorem packed_role_iff (x : BitVec 32) (q : Bool) : (within x 0x17#32 && q) = true
    ↔ 0#25 ++ (x.extractLsb' 4 3 ++ (0#1 ++ x.extractLsb' 0 3)) = x ∧ (q && decide ((x.extractLsb' 4 3).toNat < 2)) = true := by
  have hrole : (x.extractLsb' 4 3).toNat < 2 ↔ x &&& 0x60#32 = 0#32 := by
    have hlow : ∀ y : BitVec 3, y.toNat < 2 ↔ y.getLsbD 1 = false ∧ y.getLsbD 2 = false := by decide
    rw [hlow]
    constructor
    · rintro ⟨h1, h2⟩
      apply BitVec.eq_of_getLsbD_eq
      intro i hi
      simp only [BitVec.getLsbD_extractLsb'] at h1 h2
      interval_cases i <;> simp_all
    · intro h
      have h5 := congrArg (BitVec.getLsbD · 5) h
      have h6 := congrArg (BitVec.getLsbD · 6) h
      simp only [BitVec.getLsbD_and, BitVec.getLsbD_extractLsb'] at h5 h6 ⊢
      exact ⟨by simpa using h5, by simpa using h6⟩
  have hwithin : x &&& 0x17#32 = x ↔ x &&& 0x77#32 = x ∧ x &&& 0x60#32 = 0#32 := by
    constructor
    · intro h
      refine ⟨?_, ?_⟩
      · rw [← h, BitVec.and_assoc]; rfl
      · rw [← h, BitVec.and_assoc]; exact BitVec.and_zero
    · rintro ⟨h, h0⟩
      calc x &&& 0x17#32 = (x &&& 0x17#32) ||| (x &&& 0x60#32) := by rw [h0, BitVec.or_zero]
        _ = x &&& (0x17#32 ||| 0x60#32) := BitVec.and_or_distrib_left.symm
        _ = x := h
  rw [Bool.and_eq_true, Bool.and_eq_true, within_iff, pack_twoDigits, hwithin, decide_eq_true_eq, hrole]
  tauto

theorem faithful_matrix {r : Raw} (h : r.opc ∈ [0xD0#8, 0xD2#8, 0xD3#8, 0xD1#8, 0xD5#8]) : r.Faithful := by
  obtain ⟨hdense, hmmax, hmmacb, hmstt⟩ := modRows_matrix
  have hsparse (r : Raw) : (Uses.mk (.g [.V] 32) (.v [.S]) (.v [.S]) (.g [.V] 2)).Allow r
      ↔ ((headOf r).wf (some r.aO) (some r.bO) (some r.cO) && r.dO.isAcc && r.aO.isIn [.S] && r.bO.isIn [.S] && r.cO.isIn [.V]
        && r.cO.groupFits 2) = true := by
    simp only [Uses.Allow, Use.g, Use.v, Use.allows, Use.opnd, opndFits_acc, opndFits_g (n := 2) (by decide), opndFits_v, ← Raw.dO.eq_1,
      ← Raw.aO.eq_1, ← Raw.bO.eq_1, ← Raw.cO.eq_1, Bool.and_eq_true]
    tauto
  have hstore (r : Raw) : (Uses.mk .none (.v [.S]) .none (.g [.V] 32)).Allow r
      ↔ ((headOf r).wf (some r.aO) none (some r.cO) && r.aO.isIn [.S] && r.cO.isAcc) = true := by
    simp only [Uses.Allow, Use.g, Use.v, Use.allows, Use.opnd, opndFits_acc, opndFits_v, ← Raw.aO.eq_1, ← Raw.cO.eq_1, Bool.and_eq_true]
    tauto
  obtain ⟨opc, guard, d, a, b, c, mod, imm, la, lb, lc, yld, stall, rsv⟩ := r
  simp only [List.mem_cons, List.not_mem_nil, or_false] at h
  rcases h with rfl | rfl | rfl | rfl | rfl
  · exact faithful_of_imm (u := productUses) rfl rfl rfl rfl (fun _ => wf_alone_right (allow_product _)) (hdense _)
      (immZero_iff (u := productUses) rfl rfl rfl)
  · exact faithful_of_imm (u := productUses) rfl rfl rfl rfl (fun _ => wf_alone_right2 (allow_product _)) (hmmax _)
      (immZero_iff (u := productUses) rfl rfl rfl)
  · exact faithful_of_imm (u := productUses) rfl rfl rfl rfl (fun _ => wf_alone_right2 (allow_product _)) (hmmacb _)
      fun _ _ => packed_iff (pack_twoDigits _)
  · exact faithful_of_imm (u := Uses.mk (.g [.V] 32) (.v [.S]) (.v [.S]) (.g [.V] 2)) rfl rfl rfl rfl (fun _ => wf_and_and (hsparse _))
      (hdense _) fun _ _ => packed_and_iff (pack_low3 _)
  · exact faithful_of_imm (u := Uses.mk .none (.v [.S]) .none (.g [.V] 32)) rfl rfl rfl rfl (fun _ => wf_and_and2 (hstore _))
      (hmstt _) fun _ _ => packed_role_iff _ _

/-! ### Conversions (R65, R70, R129, R135, R136) -/

/-- The code of the modifier of a conversion that MOD holds. -/
def cvtCode (m : BitVec 8) : BitVec 8 :=
  BitVec.ofNat 4 (fmtOfNat (bitsNat m 4 4)).code ++ (bit1 (bitAt m 3) ++ BitVec.ofNat 3 (rmNum (rmOfNat (bitsNat m 0 3))))

theorem modRows_convert :
    ModRow 0xFF#8 (fun m => decide (bitsNat m 4 4 < 14) && decide (bitsNat m 0 3 ≠ 7)) cvtCode (fun _ => true)
    ∧ ModRow 0xFF#8 (fun m => decide (bitsNat m 4 4 < 14) && decide (bitsNat m 0 3 ≠ 7) && !(fmtOfNat (bitsNat m 4 4)).wide) cvtCode
        (fun m => !(fmtOfNat (bitsNat m 4 4)).wide)
    ∧ ModRow 0xFF#8 (fun m => decide (bitsNat m 0 3 ≠ 7) && decide (bitsNat m 4 4 < 3)) cvtCode (fun m => (fmtOfNat (bitsNat m 4 4)).wide)
    ∧ ModRow 0xFF#8
        (fun m => decide (bitsNat m 4 4 < 14) && (fmtOfNat (bitsNat m 4 4)).mx && (decide (bitsNat m 0 3 = 0) || decide (bitsNat m 0 3 = 5)))
        cvtCode (fun m => (fmtOfNat (bitsNat m 4 4)).mx && (decide (rmOfNat (bitsNat m 0 3) = .rne) || decide (rmOfNat (bitsNat m 0 3) = .sr)))
    ∧ ModRow 0xFF#8 (fun m => decide (bitsNat m 4 4 = 2) && decide (bitsNat m 0 3 = 0)) cvtCode
        (fun m => decide (fmtOfNat (bitsNat m 4 4) = .f32) && decide (rmOfNat (bitsNat m 0 3) = .rne))
    ∧ ModRow 0xFF#8 (fun m => (decide (bitsNat m 4 4 = 2) || decide (bitsNat m 4 4 = 3)) && decide (bitsNat m 0 4 = 0)) cvtCode
        (fun m => (decide (fmtOfNat (bitsNat m 4 4) = .f32) || decide (fmtOfNat (bitsNat m 4 4) = .bf16)) && !bitAt m 3
          && decide (rmOfNat (bitsNat m 0 3) = .rne))
    ∧ ModRow 0xFF#8 (fun m => decide (bitsNat m 4 4 < 14) && rmOk m) cvtCode (fun m => !decide (rmOfNat (bitsNat m 0 3) = .sr)) := by
  decide +kernel

/-- The lists of source format codes of the rows, as formats (R65). -/
theorem sourceCodes : ∀ b : BitVec 8, BitVec.ofNat 8 (fmtOfNat b.toNat).code = b →
    [0, 1, 2, 3, 4, 5, 6, 7, 8, 9, 10, 11, 12].contains b.toNat = !decide (fmtOfNat b.toNat = .cb4)
    ∧ [0, 1, 2].contains b.toNat = (fmtOfNat b.toNat).wide
    ∧ [3, 4, 5, 6, 7, 8, 9, 10, 11, 12].contains b.toNat = (!(fmtOfNat b.toNat).wide && !decide (fmtOfNat b.toNat = .cb4))
    ∧ [2].contains b.toNat = decide (fmtOfNat b.toNat = .f32)
    ∧ [5, 6, 7, 8, 9, 11].contains b.toNat = (fmtOfNat b.toNat).mx
    ∧ [13].contains b.toNat = decide (fmtOfNat b.toNat = .cb4) := by
  decide +kernel

theorem convPair_ne_cb4 {d s : Fmt} (h : convPair d s = true) : s ≠ .cb4 := by
  rintro rfl
  cases d <;> exact absurd h (by decide)

theorem dcvtPair_wide {d s : Fmt} (h : dcvtPair d s = true) : s.wide = true := by
  revert h
  cases d <;> cases s <;> decide

/-- The uses of a conversion. -/
def convertUses (ka : List Kind) (l : List Nat) (c : Use) : Uses := Uses.mk (.v [.V]) (.v ka) (.src l) c

theorem allow_convert (r : Raw) (ka : List Kind) (l : List Nat) : (convertUses ka l .none).Allow r
    ↔ wf1 (headOf r) r.dO r.aO [.V] ka = true ∧ l.contains r.b.toNat = true := by
  simp only [Uses.Allow, convertUses, Use.v, Use.allows, Use.opnd, opndFits_v, wf1, ← Raw.dO.eq_1, ← Raw.aO.eq_1, Bool.and_eq_true]
  tauto

theorem allow_convertC (r : Raw) (ka kc : List Kind) (l : List Nat) : (convertUses ka l (.v kc)).Allow r
    ↔ ((headOf r).wf (some r.aO) none (some r.cO) && r.dO.isIn [.V] && r.aO.isIn ka && r.cO.isIn kc) = true ∧ l.contains r.b.toNat = true := by
  simp only [Uses.Allow, convertUses, Use.v, Use.allows, Use.opnd, opndFits_v, ← Raw.dO.eq_1, ← Raw.aO.eq_1, ← Raw.cO.eq_1, Bool.and_eq_true]
  tauto

theorem modOk_and_iff {x y z w : Bool} {A : Prop} (h : (x && y) = true ↔ A ∧ w = true) : (x && (y && z)) = true ↔ A ∧ (w && z) = true := by
  rw [← Bool.and_assoc, Bool.and_eq_true, h, Bool.and_eq_true, and_assoc]

theorem faithful_cvt {r : Raw} (h : r.opc = 0x48#8) : r.Faithful := by
  obtain ⟨hcvt, -⟩ := modRows_convert
  obtain ⟨opc, guard, d, a, b, c, mod, imm, la, lb, lc, yld, stall, rsv⟩ := r
  subst h
  refine faithful_of_imm (u := convertUses [.V, .S, .I, .Z] [0, 1, 2, 3, 4, 5, 6, 7, 8, 9, 10, 11, 12] .none) (Q := True) rfl rfl rfl rfl
    (fun hcoded => ?_) (modOk_and_iff (hcvt mod)) fun hallow hcoded => (immDefault_iff rfl hallow hcoded).trans (and_iff_left trivial).symm
  obtain ⟨hsrc, -⟩ := sourceCodes b hcoded.2.2.1
  rw [allow_convert, show Raw.b _ = b from rfl, hsrc, and_true, Bool.true_and]
  change (_ && convPair (fmtOfNat (bitsNat mod 4 4)) (fmtOfNat b.toNat)) = true ↔ _
  rw [Bool.and_eq_true, and_assoc]
  exact and_congr_right fun _ => ⟨fun hp => ⟨by simpa using convPair_ne_cb4 hp, hp⟩, And.right⟩

theorem faithful_cvtpk {r : Raw} (h : r.opc = 0x49#8) : r.Faithful := by
  obtain ⟨-, hpack, -⟩ := modRows_convert
  obtain ⟨opc, guard, d, a, b, c, mod, imm, la, lb, lc, yld, stall, rsv⟩ := r
  subst h
  refine faithful_of_imm (u := convertUses [.V, .S, .Z] [0, 1, 2] (.v vz)) rfl rfl rfl rfl
    (fun hcoded => ?_) (modOk_and_iff (hpack mod)) fun _ _ => packed_and_iff (pack_low3 _)
  obtain ⟨-, hsrc, -⟩ := sourceCodes b hcoded.2.2.1
  rw [allow_convertC, show Raw.b _ = b from rfl, hsrc]
  change (_ && (fmtOfNat b.toNat).wide && !(fmtOfNat (bitsNat mod 4 4)).wide && convPair (fmtOfNat (bitsNat mod 4 4)) (fmtOfNat b.toNat)
    && _) = true ↔ _
  simp only [Bool.and_eq_true]
  tauto

theorem faithful_cvtup {r : Raw} (h : r.opc = 0x4A#8) : r.Faithful := by
  obtain ⟨-, -, hup, -⟩ := modRows_convert
  obtain ⟨opc, guard, d, a, b, c, mod, imm, la, lb, lc, yld, stall, rsv⟩ := r
  subst h
  refine faithful_of_imm (u := convertUses [.V, .S] [3, 4, 5, 6, 7, 8, 9, 10, 11, 12] .none) rfl rfl rfl rfl
    (fun hcoded => ?_) (modOk_and_iff (hup mod)) fun _ _ => packed_and_iff (pack_low3 _)
  obtain ⟨-, -, hsrc, -⟩ := sourceCodes b hcoded.2.2.1
  rw [allow_convert, show Raw.b _ = b from rfl, hsrc]
  change (_ && (fmtOfNat (bitsNat mod 4 4)).wide && !(fmtOfNat b.toNat).wide && convPair (fmtOfNat (bitsNat mod 4 4)) (fmtOfNat b.toNat)
    && _) = true ↔ _
  have hcb4 : convPair (fmtOfNat (bitsNat mod 4 4)) (fmtOfNat b.toNat) = true → (!decide (fmtOfNat b.toNat = .cb4)) = true :=
    fun hp => by simpa using convPair_ne_cb4 hp
  simp only [Bool.and_eq_true]
  tauto

theorem faithful_mxdq {r : Raw} (h : r.opc = 0x4C#8) : r.Faithful := by
  obtain ⟨-, -, -, -, hmxdq, -⟩ := modRows_convert
  obtain ⟨opc, guard, d, a, b, c, mod, imm, la, lb, lc, yld, stall, rsv⟩ := r
  subst h
  refine faithful_of_imm (u := convertUses [.V] [5, 6, 7, 8, 9, 11] (.v [.S, .I])) (Q := True) rfl rfl rfl rfl
    (fun hcoded => ?_) (hmxdq mod) fun hallow hcoded => (immDefault_iff rfl hallow hcoded).trans ?_
  · obtain ⟨-, -, -, -, hsrc, -⟩ := sourceCodes b hcoded.2.2.1
    rw [allow_convertC, show Raw.b _ = b from rfl, hsrc]
    change (_ && (fmtOfNat b.toNat).mx && _ && _) = true ↔ _
    simp only [Bool.and_eq_true]
    tauto
  · have ha : a ≠ 0xE1#8 := ne_immCode_of_noImm (u := .v [.V]) rfl hcoded.2.1 hallow.2.2.1
    rw [and_true]
    change immOf (opndOfCode imm a :: _) = imm ↔ _
    rw [immOf_cons, if_neg ha]
    rfl

theorem faithful_cblu {r : Raw} (h : r.opc = 0x4D#8) : r.Faithful := by
  obtain ⟨-, -, -, -, -, hcblu, -⟩ := modRows_convert
  obtain ⟨opc, guard, d, a, b, c, mod, imm, la, lb, lc, yld, stall, rsv⟩ := r
  subst h
  refine faithful_of_imm (u := convertUses [.V, .S] [13] .none) rfl rfl rfl rfl
    (fun hcoded => ?_) (hcblu mod) fun _ _ => packed_iff (pack_twoDigits _)
  obtain ⟨-, -, -, -, -, hsrc⟩ := sourceCodes b hcoded.2.2.1
  rw [allow_convert, show Raw.b _ = b from rfl, hsrc]
  change (_ && decide (fmtOfNat b.toNat = .cb4) && _ && _ && _) = true ↔ _
  simp only [Bool.and_eq_true]
  tauto

theorem Head.wf_none_iff (h : Head) (a b : Option Opnd) (o : Opnd) : h.wf a b none = true ↔ h.wf a b (some o) = true ∧ h.lc = false := by
  cases hlc : h.lc <;> simp [Head.wf, hlc]

/-- MXQ: C takes no last-read bit (R136). -/
theorem faithful_mxq {r : Raw} (h : r.opc = 0x4B#8) : r.Faithful := by
  obtain ⟨-, -, -, hmxq, -⟩ := modRows_convert
  obtain ⟨opc, guard, d, a, b, c, mod, imm, la, lb, lc, yld, stall, rsv⟩ := r
  subst h
  refine faithful_of_row (u := convertUses [.V] [2] (.v sz)) (mod := cvtCode mod) (imm := 0#32) rfl rfl rfl
    (P := ((fmtOfNat (bitsNat mod 4 4)).mx && (decide (rmOfNat (bitsNat mod 0 3) = .rne) || decide (rmOfNat (bitsNat mod 0 3) = .sr))) = true
      ∧ decide (lc = 1#1) = false) (fun hcoded => ?_) fun hallow hcoded => ?_
  · obtain ⟨-, -, -, hsrc, -⟩ := sourceCodes b hcoded.2.2.1
    rw [allow_convertC, show Raw.b _ = b from rfl, hsrc]
    change ((headOf _).wf _ none none && _ && _ && (opndOfCode imm c).isIn sz && decide (fmtOfNat b.toNat = .f32) && _ && _) = true ↔ _
    simp only [Bool.and_eq_true, Head.wf_none_iff _ _ _ (opndOfCode imm c)]
    change ((((((_ ∧ decide (lc = 1#1) = false) ∧ _) ∧ _) ∧ _) ∧ _) ∧ _) ∧ _ ↔ _
    tauto
  · have himm := (immDefault_iff rfl hallow hcoded).trans (Iff.of_eq (congrArg (· = imm) (imm_of_immFree rfl rfl rfl hallow hcoded)))
    simp only [Raw.RestOk, true_implies, show (0x4B#8 = 0x04#8) = False by decide, show (0x4B#8 = 0x8A#8) = False by decide, false_implies,
      true_and, decide_eq_false_iff_not]
    exact ⟨fun ⟨m, i, g⟩ => ⟨⟨((hmxq mod).mp m).1, himm.mp i⟩, ((hmxq mod).mp m).2, g⟩,
      fun ⟨⟨m, i⟩, w, g⟩ => ⟨(hmxq mod).mpr ⟨m, w⟩, himm.mpr i, g⟩⟩

theorem packed_widen_iff (x : BitVec 32) (q : Bool) : (within x 1#32 && (decide (x = 0#32) || q)) = true
    ↔ 0#31 ++ bit1 (bitAt x 0) = x ∧ (!bitAt x 0 || q) = true := by
  rw [Bool.and_eq_true, within_iff, ← pack_bit0]
  refine and_congr_right fun hpack => ?_
  have hzero : x = 0#32 ↔ bitAt x 0 = false := by
    constructor
    · rintro rfl; rfl
    · intro hb
      rw [← hpack, hb]
      rfl
  rw [Bool.or_eq_true, Bool.or_eq_true, decide_eq_true_eq, hzero, Bool.not_eq_true']

theorem faithful_dcvt {r : Raw} (h : r.opc = 0x8E#8) : r.Faithful := by
  obtain ⟨-, -, -, -, -, -, hdcvt⟩ := modRows_convert
  obtain ⟨opc, guard, d, a, b, c, mod, imm, la, lb, lc, yld, stall, rsv⟩ := r
  subst h
  have hallow (r : Raw) : (Uses.mk (.s sz) (.s sz) (.src [0, 1, 2]) .none).Allow r
      ↔ wfS1 (headOf r) r.dO r.aO sz sz = true ∧ [0, 1, 2].contains r.b.toNat = true := by
    simp only [Uses.Allow, Use.s, Use.allows, Use.opnd, opndFits_s, wfS1, isScalarIn_eq_isIn (k := sz) rfl, ← Raw.dO.eq_1, ← Raw.aO.eq_1,
      Bool.and_eq_true]
    tauto
  refine faithful_of_imm (u := Uses.mk (.s sz) (.s sz) (.src [0, 1, 2]) .none)
    (Q := (!bitAt imm 0 || (decide (fmtOfNat (bitsNat mod 4 4) = .f32) && decide (fmtOfNat b.toNat = .f32))) = true) rfl rfl rfl rfl
    (fun hcoded => ?_) (modOk_and_iff (hdcvt mod)) fun _ _ => packed_widen_iff imm _
  obtain ⟨-, hsrc, -⟩ := sourceCodes b hcoded.2.2.1
  rw [hallow, show Raw.b _ = b from rfl, hsrc]
  change (_ && dcvtPair (fmtOfNat (bitsNat mod 4 4)) (fmtOfNat b.toNat) && !decide (rmOfNat (bitsNat mod 0 3) = .sr) && _) = true ↔ _
  have hwide : dcvtPair (fmtOfNat (bitsNat mod 4 4)) (fmtOfNat b.toNat) = true → (fmtOfNat b.toNat).wide = true := dcvtPair_wide
  simp only [Bool.and_eq_true]
  tauto

/-! ## Reading an instruction's fields back -/

theorem intModOf_intModCode (m : IntMod) : intModOf (intModCode m) = m := by
  rcases m with ⟨s, t⟩; cases s <;> cases t <;> rfl

theorem scalarModOf_scalarModCode (m : ScalarMod) (cond : BitVec 3) : scalarModOf (scalarModCode m cond) = m := by
  rcases m with ⟨s, t, w⟩
  revert s t w cond
  decide

theorem cond_scalarModCode (m : ScalarMod) (c : Cond) : condOfNat (bitsNat (scalarModCode m (BitVec.ofNat 3 (condNum c))) 3 3) = c := by
  rcases m with ⟨s, t, w⟩
  cases c <;> (revert s t w; decide)

theorem fpModOf_fpModCode (m : FpMod) : fpModOf (fpModCode m) = m := by
  rcases m with ⟨rm, sat, na, nb, nc, ftz⟩
  cases rm <;> (revert sat na nb nc ftz; decide)

theorem halfModOf_halfModCode (m : HalfMod) : halfModOf (halfModCode m) = m := by
  rcases m with ⟨rm, sat, na, nb, nc, f16⟩
  cases rm <;> (revert sat na nb nc f16; decide)

theorem memModOf_memModCode (m : MemMod) : memModOf (memModCode m) = m := by
  rcases m with ⟨w, s, p⟩
  cases w <;> cases s <;> cases p <;> rfl

theorem atomModOf_atomModCode (m : AtomMod) : atomModOf (atomModCode m) = m := by
  rcases m with ⟨op, w, s⟩
  cases op <;> cases s <;> cases w <;> rfl

theorem matModOf_matModCode (m : MatMod) : matModOf (matModCode m) = m := by
  rcases m with ⟨f, nz, i⟩
  cases f <;> (revert nz i; decide)

theorem scopeOfNat_modScope (s : Scope) : scopeOfNat (bitsNat (modScope s) 0 3) = s := by cases s <;> rfl

theorem bit0_code (b : Bool) : bitAt (0#7 ++ bit1 b : BitVec 8) 0 = b := by cases b <;> rfl

/-- The fields of a word are read as these operands, MOD and IMM. -/
structure Raw.ReadsAs (r : Raw) (h : Head) (d a b c : Opnd) (mod : BitVec 8) (imm : BitVec 32) : Prop where
  head : headOf r = h
  d : r.dO = d
  a : r.aO = a
  b : r.bO = b
  c : r.cO = c
  mod : r.mod = mod
  imm : r.imm = imm

theorem headOf_headRaw (h : Head) (opc d a b c mod : BitVec 8) (imm : BitVec 32) : headOf (fullRaw h opc d a b c mod imm) = h := by
  obtain ⟨⟨neg, p⟩, la, lb, lc, yld, stall⟩ := h
  have hguard : ∀ (n : Bool) (p : Fin 8), bitAt (bit1 n ++ BitVec.ofNat 3 p.val : BitVec 4) 3 = n
      ∧ Fin.ofNat 8 (bitsNat (bit1 n ++ BitVec.ofNat 3 p.val : BitVec 4) 0 3) = p := by decide
  have hbit : ∀ b : Bool, decide (bit1 b = 1#1) = b := by decide
  simp only [headOf, fullRaw, headRaw, hguard, Head.mk.injEq, true_and, and_true]
  exact ⟨hbit la, hbit lb, hbit lc, hbit yld⟩

theorem readsAs_fullRaw {imm : BitVec 32} {d a b c : Opnd} (hd : d.Takes imm) (ha : a.Takes imm) (hb : b.Takes imm) (hc : c.Takes imm)
    (h : Head) (opc mod : BitVec 8) :
    (fullRaw h opc (opndCode d) (opndCode a) (opndCode b) (opndCode c) mod imm).ReadsAs h d a b c mod imm where
  head := headOf_headRaw ..
  d := opndOfCode_opndCode hd
  a := opndOfCode_opndCode ha
  b := opndOfCode_opndCode hb
  c := opndOfCode_opndCode hc
  mod := rfl
  imm := rfl

theorem takes_zero (imm : BitVec 32) : Opnd.zero.Takes imm := nofun

theorem takes_of_isIn {k : List Kind} (hk : k.contains .I = false) {o : Opnd} (h : o.isIn k = true) (imm : BitVec 32) : o.Takes imm := by
  rintro x rfl
  rw [Opnd.isIn, Opnd.kind, hk] at h
  cases h

theorem isIn_of_isScalarIn {k : List Kind} {o : Opnd} (h : o.isScalarIn k = true) : o.isIn k = true := (Bool.and_eq_true_iff.mp h).1

theorem takes_immOf (o : Opnd) (l : List Opnd) : o.Takes (immOf (o :: l)) := by
  rintro x rfl
  rfl

theorem takes_immOf_cons {a o : Opnd} (h : immAgree a o = true) {l : List Opnd} (hl : o.Takes (immOf l)) : o.Takes (immOf (a :: l)) := by
  rintro x rfl
  cases a with
  | imm y => exact (of_decide_eq_true h).symm
  | v | s | p | sr | zero => exact hl x rfl

theorem readsAs_raw1 {h : Head} {d a : Opnd} {kd ka : List Kind} (hwf : wf1 h d a kd ka = true) (hkd : kd.contains .I = false)
    (opc mod : BitVec 8) : (raw1 h opc d a mod).ReadsAs h d a .zero .zero mod (immOf [a]) := by
  simp only [wf1, Bool.and_eq_true] at hwf
  exact readsAs_fullRaw (takes_of_isIn hkd hwf.1.2 _) (takes_immOf _ _) (takes_zero _) (takes_zero _) h opc mod

theorem readsAs_raw2 {h : Head} {d a b : Opnd} {kd ka kb : List Kind} (hwf : wf2 h d a b kd ka kb = true) (hkd : kd.contains .I = false)
    (opc mod : BitVec 8) : (raw2 h opc d a b mod).ReadsAs h d a b .zero mod (immOf [a, b]) := by
  simp only [wf2, Bool.and_eq_true] at hwf
  obtain ⟨⟨⟨⟨-, hd⟩, -⟩, -⟩, hab⟩ := hwf
  exact readsAs_fullRaw (takes_of_isIn hkd hd _) (takes_immOf _ _) (takes_immOf_cons hab (takes_immOf _ _)) (takes_zero _) h opc mod

theorem readsAs_raw3 {h : Head} {d a b c : Opnd} {kd ka kb kc : List Kind} (hwf : wf3 h d a b c kd ka kb kc = true)
    (hkd : kd.contains .I = false) (opc mod : BitVec 8) : (raw3 h opc d a b c mod).ReadsAs h d a b c mod (immOf [a, b, c]) := by
  simp only [wf3, Bool.and_eq_true] at hwf
  obtain ⟨⟨⟨⟨⟨⟨⟨-, hd⟩, -⟩, -⟩, -⟩, hab⟩, hac⟩, hbc⟩ := hwf
  exact readsAs_fullRaw (takes_of_isIn hkd hd _) (takes_immOf _ _) (takes_immOf_cons hab (takes_immOf _ _))
    (takes_immOf_cons hac (takes_immOf_cons hbc (takes_immOf _ _))) h opc mod

theorem wf1_of_wfS1 {h : Head} {d a : Opnd} {kd ka : List Kind} (hwf : wfS1 h d a kd ka = true) : wf1 h d a kd ka = true := by
  simp only [wfS1, wf1, Bool.and_eq_true] at hwf ⊢
  exact ⟨hwf.1, isIn_of_isScalarIn hwf.2⟩

theorem wf2_of_wfS2 {h : Head} {d a b : Opnd} {kd ka kb : List Kind} (hwf : wfS2 h d a b kd ka kb = true) : wf2 h d a b kd ka kb = true := by
  simp only [wfS2, wf2, Bool.and_eq_true] at hwf ⊢
  obtain ⟨⟨⟨hhead, ha⟩, hb⟩, hab⟩ := hwf
  exact ⟨⟨⟨hhead, isIn_of_isScalarIn ha⟩, isIn_of_isScalarIn hb⟩, hab⟩

theorem wf3_of_wfS3 {h : Head} {d a b c : Opnd} {kd ka kb kc : List Kind} (hwf : wfS3 h d a b c kd ka kb kc = true) :
    wf3 h d a b c kd ka kb kc = true := by
  simp only [wfS3, wf3, Bool.and_eq_true] at hwf ⊢
  obtain ⟨⟨⟨⟨⟨⟨hhead, ha⟩, hb⟩, hc⟩, hab⟩, hac⟩, hbc⟩ := hwf
  exact ⟨⟨⟨⟨⟨⟨hhead, isIn_of_isScalarIn ha⟩, isIn_of_isScalarIn hb⟩, isIn_of_isScalarIn hc⟩, hab⟩, hac⟩, hbc⟩

theorem left_of_and {x y : Bool} (h : (x && y) = true) : x = true := (Bool.and_eq_true_iff.mp h).1

theorem readsAs_rawOff {h : Head} {d a : Opnd} {kd ka : List Kind} (hwf : wfS1 h d a kd ka = true) (hkd : kd.contains .I = false)
    (hka : ka.contains .I = false) (opc : BitVec 8) (off : BitVec 32) (mod : BitVec 8) :
    (rawOff h opc d a off mod).ReadsAs h d a .zero .zero mod off := by
  simp only [wfS1, Bool.and_eq_true] at hwf
  exact readsAs_fullRaw (takes_of_isIn hkd hwf.1.2 _) (takes_of_isIn hka (isIn_of_isScalarIn hwf.2) _) (takes_zero _) (takes_zero _) h opc mod

theorem readsAs_rawA {h : Head} {a : Opnd} (opc mod : BitVec 8) : (rawA h opc a mod).ReadsAs h .zero a .zero .zero mod (immOf [a]) :=
  readsAs_fullRaw (takes_zero _) (takes_immOf _ _) (takes_zero _) (takes_zero _) h opc mod

theorem Raw.ReadsAs.eq {r : Raw} {h : Head} {d a b c : Opnd} {m : BitVec 8} {x : BitVec 32} (hr : r.ReadsAs h d a b c m x)
    (F : Head → Opnd → Opnd → Opnd → Opnd → BitVec 8 → BitVec 32 → Instr) :
    F (headOf r) r.dO r.aO r.bO r.cO r.mod r.imm = F h d a b c m x := by
  rw [hr.head, hr.d, hr.a, hr.b, hr.c, hr.mod, hr.imm]

theorem takes_storeImm (c : Opnd) (h : Head) (opc mod : BitVec 8) (d a b : Opnd) (off : BitVec 32) :
    c.Takes (rawStore h opc d a b c off mod).imm := by
  rintro x rfl
  rfl

theorem off_rawStore {c : Opnd} {off : BitVec 32} (hoff : offFits c off = true) (h : Head) (opc mod : BitVec 8) (d a b : Opnd) :
    (rawStore h opc d a b c off mod).off = off := by
  have hcode : opndCode c = 0xE1#8 ↔ c.kind = .I := by
    have hk := kindOfCode_opndCode c
    constructor
    · intro hc
      rw [hc] at hk
      exact (Option.some.inj hk).symm
    · intro hc
      cases c with
      | imm => rfl
      | v | s | p | sr | zero => cases hc
  change (if opndCode c = 0xE1#8 then 0#32 else (rawStore h opc d a b c off mod).imm) = off
  cases c with
  | imm x => exact (of_decide_eq_true hoff).symm
  | v | s | p | sr | zero => exact if_neg fun hc => nomatch hcode.mp hc

theorem readsAs_rawStore {d a b c : Opnd} {off : BitVec 32} {kd ka kb : List Kind} (hd : d.isIn kd = true) (hkd : kd.contains .I = false)
    (ha : a.isIn ka = true) (hka : ka.contains .I = false) (hb : b.isIn kb = true) (hkb : kb.contains .I = false) (h : Head) (opc mod : BitVec 8) :
    (rawStore h opc d a b c off mod).ReadsAs h d a b c mod (rawStore h opc d a b c off mod).imm :=
  readsAs_fullRaw (takes_of_isIn hkd hd _) (takes_of_isIn hka ha _) (takes_of_isIn hkb hb _) (takes_storeImm c h opc mod d a b off) h opc mod

theorem readsAs_rawStoreV {h : Head} {a b c : Opnd} {off : BitVec 32} {n : Nat} (hwf : wfStoreV h a b c off n = true) {d : Opnd} {kd : List Kind}
    (hd : d.isIn kd = true) (hkd : kd.contains .I = false) (opc mod : BitVec 8) :
    (rawStore h opc d a b c off mod).ReadsAs h d a b c mod (rawStore h opc d a b c off mod).imm
      ∧ (rawStore h opc d a b c off mod).off = off := by
  simp only [wfStoreV, Bool.and_eq_true] at hwf
  obtain ⟨⟨⟨⟨⟨-, ha⟩, hb⟩, -⟩, hoff⟩, -⟩ := hwf
  exact ⟨readsAs_rawStore hd hkd ha rfl hb rfl h opc mod, off_rawStore hoff h opc mod d a b⟩

theorem readsAs_base {h : Head} {d a b : Opnd} {kd ka kb : List Kind} (hwf : wf2 h d a b kd ka kb = true) (hkd : kd.contains .I = false)
    (hka : ka.contains .I = false) (hkb : kb.contains .I = false) (opc mod : BitVec 8) (off : BitVec 32) :
    { rawOff h opc d a off mod with b := opndCode b }.ReadsAs h d a b .zero mod off := by
  simp only [wf2, Bool.and_eq_true] at hwf
  obtain ⟨⟨⟨⟨-, hd⟩, ha⟩, hb⟩, -⟩ := hwf
  exact readsAs_fullRaw (takes_of_isIn hkd hd _) (takes_of_isIn hka ha _) (takes_of_isIn hkb hb _) (takes_zero _) h opc mod

theorem readsAs_raw1_of {h : Head} {d a : Opnd} {k : List Kind} (hd : d.isIn k = true) (hk : k.contains .I = false) (opc mod : BitVec 8) :
    (raw1 h opc d a mod).ReadsAs h d a .zero .zero mod (immOf [a]) :=
  readsAs_fullRaw (takes_of_isIn hk hd _) (takes_immOf _ _) (takes_zero _) (takes_zero _) h opc mod

theorem digit_lo {n : Nat} (z : BitVec n) (y x : BitVec 3) : (z ++ (y ++ (0#1 ++ x))).extractLsb' 0 3 = x := by
  iterate 3 rw [BitVec.extractLsb'_append_eq_of_add_le (by decide)]
  exact BitVec.extractLsb'_eq_self

theorem digit_hi {n : Nat} (z : BitVec n) (y x : BitVec 3) : (z ++ (y ++ (0#1 ++ x))).extractLsb' 4 3 = y := by
  rw [BitVec.extractLsb'_append_eq_of_add_le (by decide)]
  exact BitVec.extractLsb'_append_eq_left

theorem extract_bottom {m n : Nat} (y : BitVec m) (x : BitVec n) : (y ++ x).extractLsb' 0 n = x := BitVec.extractLsb'_append_eq_right

theorem extract_top {m n : Nat} (y : BitVec m) (x : BitVec n) : (y ++ x).extractLsb' n m = y := BitVec.extractLsb'_append_eq_left

theorem wait_fields (tl cp st ld : BitVec 6) {x : BitVec 32} (hx : x = 0#8 ++ (tl ++ (cp ++ (st ++ ld)))) :
    x.extractLsb' 18 6 = tl ∧ x.extractLsb' 12 6 = cp ∧ x.extractLsb' 6 6 = st ∧ x.extractLsb' 0 6 = ld := by
  subst hx
  refine ⟨?_, ?_, ?_, ?_⟩
  · rw [BitVec.extractLsb'_append_eq_of_add_le (by decide)]
    exact extract_top _ _
  · iterate 2 rw [BitVec.extractLsb'_append_eq_of_add_le (by decide)]
    exact extract_top _ _
  · iterate 3 rw [BitVec.extractLsb'_append_eq_of_add_le (by decide)]
    exact extract_top _ _
  · iterate 3 rw [BitVec.extractLsb'_append_eq_of_add_le (by decide)]
    exact extract_bottom _ _

theorem fence_fields (die : BitVec 5) (succ pred : BitVec 6) {x : BitVec 32} (hx : x = 0#11 ++ (die ++ (0#2 ++ (succ ++ (0#2 ++ pred))))) :
    x.extractLsb' 16 5 = die ∧ x.extractLsb' 8 6 = succ ∧ x.extractLsb' 0 6 = pred := by
  subst hx
  refine ⟨?_, ?_, ?_⟩
  · rw [BitVec.extractLsb'_append_eq_of_add_le (by decide)]
    exact extract_top _ _
  · iterate 3 rw [BitVec.extractLsb'_append_eq_of_add_le (by decide)]
    exact extract_top _ _
  · iterate 4 rw [BitVec.extractLsb'_append_eq_of_add_le (by decide)]
    exact extract_bottom _ _

/-- MOD codes of one field, and the fields read from them. -/
theorem modFields : (∀ c, condOfNat (bitsNat (scalarModCode ⟨false, false, false⟩ (BitVec.ofNat 3 (condNum c))) 3 3) = c)
    ∧ (∀ m, shflOfNat (bitsNat (BitVec.ofNat 8 (shflNum m)) 0 2) = m) ∧ (∀ m, voteOfNat (bitsNat (BitVec.ofNat 8 (voteNum m)) 0 2) = m)
    ∧ ∀ op, redOfNat (bitsNat (BitVec.ofNat 8 (redNum op)) 0 4) = op := by
  refine ⟨?_, ?_, ?_, ?_⟩ <;> intro x <;> cases x <;> rfl

theorem isetpMod_fields (s : Bool) (c : Cond) : bitAt (scalarModCode ⟨s, false, false⟩ (BitVec.ofNat 3 (condNum c))) 0 = s
    ∧ condOfNat (bitsNat (scalarModCode ⟨s, false, false⟩ (BitVec.ofNat 3 (condNum c))) 3 3) = c := by
  cases s <;> cases c <;> exact ⟨rfl, rfl⟩

theorem fsetpMod_fields (na nb : Bool) (c : FCond) {m : BitVec 8} (hm : m = 0#2 ++ (bit1 nb ++ (bit1 na ++ BitVec.ofNat 4 (fcondNum c)))) :
    bitAt m 4 = na ∧ bitAt m 5 = nb ∧ fcondOfNat (bitsNat m 0 4) = c := by
  subst hm
  cases na <;> cases nb <;> cases c <;> exact ⟨rfl, rfl, rfl⟩

theorem runappMod_fields (first last : Bool) : bitAt (0#6 ++ (bit1 last ++ bit1 first) : BitVec 8) 0 = first
    ∧ bitAt (0#6 ++ (bit1 last ++ bit1 first) : BitVec 8) 1 = last := by
  cases first <;> cases last <;> exact ⟨rfl, rfl⟩

theorem scanMod_fields (op : RedOp) (x : Bool) : redOfNat (bitsNat (0#3 ++ (bit1 x ++ BitVec.ofNat 4 (redNum op)) : BitVec 8) 0 4) = op
    ∧ bitAt (0#3 ++ (bit1 x ++ BitVec.ofNat 4 (redNum op)) : BitVec 8) 4 = x := by
  cases x <;> cases op <;> exact ⟨rfl, rfl⟩

theorem fenceMod_fields (s : Scope) (dir : Bool) : scopeOfNat (bitsNat (0#4 ++ (bit1 dir ++ BitVec.ofNat 3 (scopeNum s)) : BitVec 8) 0 3) = s
    ∧ bitAt (0#4 ++ (bit1 dir ++ BitVec.ofNat 3 (scopeNum s)) : BitVec 8) 3 = dir := by
  cases dir <;> cases s <;> exact ⟨rfl, rfl⟩

theorem satMod_field (sat : Bool) : bitAt (intModCode ⟨false, sat⟩) 1 = sat := by cases sat <;> rfl

theorem chstMod_fields (ch : BitVec 3) (w : Bool) : (0#4 ++ (bit1 w ++ ch) : BitVec 8).extractLsb' 0 3 = ch
    ∧ bitAt (0#4 ++ (bit1 w ++ ch) : BitVec 8) 3 = w := by
  revert ch w; decide

theorem cvtModOf_rawCvt (h : Head) (opc : BitVec 8) (d a c : Opnd) (m : CvtMod) (imm : BitVec 32) : cvtModOf (rawCvt h opc d a c m imm) = m := by
  obtain ⟨df, sf, sat, rm⟩ := m
  have hmod : ∀ (df : Fin 14) (sat : Bool) (rm : Fin 7), let x : BitVec 8 := BitVec.ofNat 4 df.val ++ (bit1 sat ++ BitVec.ofNat 3 rm.val)
      bitsNat x 4 4 = df.val ∧ bitAt x 3 = sat ∧ bitsNat x 0 3 = rm.val := by decide
  have hdf : df.code < 14 ∧ fmtOfNat df.code = df := by cases df <;> exact ⟨by decide, rfl⟩
  have hr : rmNum rm < 7 ∧ rmOfNat (rmNum rm) = rm := by cases rm <;> exact ⟨by decide, rfl⟩
  obtain ⟨hd, hsat, hrm⟩ := hmod ⟨df.code, hdf.1⟩ sat ⟨rmNum rm, hr.1⟩
  have hs : fmtOfNat (BitVec.ofNat 8 sf.code).toNat = sf := by cases sf <;> rfl
  simp only [cvtModOf, rawCvt, cvtModCode, hd, hsat, hrm, hs, hdf.2, hr.2]

theorem readsAs_rawCvt {d a c : Opnd} {imm : BitVec 32} {k : List Kind} (hd : d.isIn k = true) (hk : k.contains .I = false) (ha : a.Takes imm)
    (hc : c.Takes imm) (h : Head) (opc : BitVec 8) (m : CvtMod) :
    headOf (rawCvt h opc d a c m imm) = h ∧ (rawCvt h opc d a c m imm).dO = d ∧ (rawCvt h opc d a c m imm).aO = a
      ∧ (rawCvt h opc d a c m imm).cO = c :=
  ⟨headOf_headRaw .., opndOfCode_opndCode (takes_of_isIn hk hd _), opndOfCode_opndCode ha, opndOfCode_opndCode hc⟩

theorem readsAs_headRaw (h : Head) (opc mod : BitVec 8) (imm : BitVec 32) :
    { headRaw h opc with mod := mod, imm := imm }.ReadsAs h .zero .zero .zero .zero mod imm :=
  readsAs_fullRaw (takes_zero _) (takes_zero _) (takes_zero _) (takes_zero _) h opc mod

/-- A C field of the instruction's own content leaves the other fields as they are read (R58). -/
theorem readsAs_ownC {imm : BitVec 32} {d a b : Opnd} (hd : d.Takes imm) (ha : a.Takes imm) (hb : b.Takes imm) (h : Head) (opc n mod : BitVec 8) :
    (fullRaw h opc (opndCode d) (opndCode a) (opndCode b) n mod imm).ReadsAs h d a b (opndOfCode imm n) mod imm where
  head := headOf_headRaw ..
  d := opndOfCode_opndCode hd
  a := opndOfCode_opndCode ha
  b := opndOfCode_opndCode hb
  c := rfl
  mod := rfl
  imm := rfl

theorem wf3_of_sel {h : Head} {d a b c : Opnd} (hwf : (Instr.sel h d a b c).wf = true) : wf3 h d a b c vz anyKind anyKind [.P] = true := by
  simp only [Instr.wf, wf3, Bool.and_eq_true] at hwf ⊢
  obtain ⟨⟨⟨⟨⟨hh, hd⟩, ha⟩, hb⟩, hc⟩, hab⟩ := hwf
  have hagree (x : Opnd) : immAgree x c = true := by
    cases c with
    | imm y => cases hc
    | v | s | p | sr | zero => cases x <;> rfl
  exact ⟨⟨⟨⟨⟨⟨⟨hh, hd⟩, ha⟩, hb⟩, hc⟩, hab⟩, hagree a⟩, hagree b⟩

theorem vote_isIn {h : Head} {d a : Opnd} {m : VoteMode} (hwf : (Instr.vote h d a m).wf = true) : d.isIn [.V, .S, .P, .Z] = true := by
  simp only [Instr.wf, Bool.and_eq_true] at hwf
  obtain ⟨⟨-, hd⟩, -⟩ := hwf
  cases d with
  | v | s | p | zero => rfl
  | sr | imm => cases m <;> cases hd

theorem swr_isIn {d : Opnd} (h : (match d with
    | .sr .flags | .sr .fpmode | .sr .nanc | .sr .tpc | .sr .tlane => true
    | _ => false) = true) : d.isIn [.X] = true := by
  cases d with
  | sr => rfl
  | v | s | p | zero | imm => cases h

theorem headOf_plain (h : Head) (opc : BitVec 8) : headOf (headRaw h opc) = h := headOf_headRaw h opc ..

theorem opndCode_ne_zero {o : Opnd} (h : o.isIn [.S] = true) : opndCode o ≠ 0xE0#8 := by
  intro hc
  have hk := kindOfCode_opndCode o
  rw [hc] at hk
  rw [Opnd.isIn, ← Option.some.inj hk] at h
  cases h

theorem mod3_bottom (x : BitVec 3) : (mod3 x).extractLsb' 0 3 = x := extract_bottom _ _

theorem imm_rawCvt (h : Head) (opc : BitVec 8) (d a c : Opnd) (m : CvtMod) (imm : BitVec 32) : (rawCvt h opc d a c m imm).imm = imm := rfl

theorem immBit0_code (b : Bool) : bitAt (0#31 ++ bit1 b : BitVec 32) 0 = b := by cases b <;> rfl

theorem zero_isIn_z : Opnd.zero.isIn [.Z] = true := rfl

theorem offFits_of_wfStoreV {h : Head} {a b c : Opnd} {off : BitVec 32} {n : Nat} (hwf : wfStoreV h a b c off n = true) :
    offFits c off = true := by
  simp only [wfStoreV, Bool.and_eq_true] at hwf
  exact hwf.1.2

theorem takes_of_isAcc {o : Opnd} (h : o.isAcc = true) (imm : BitVec 32) : o.Takes imm := by
  rintro x rfl
  cases h

theorem takes_of_accOrZero {o : Opnd} (h : (o.isAcc || decide (o = .zero)) = true) (imm : BitVec 32) : o.Takes imm := by
  rintro x rfl
  cases h

/-- The instruction of the fields of a well-formed instruction is the instruction itself. -/
theorem instrOfRaw_rawOf {i : Instr} (hwf : WellFormed i) {r : Raw} (hr : rawOf i = some r) (hudf : i ≠ .udf) (hill : ∀ o, i ≠ .illegalOpcode o) :
    instrOfRaw r = i := by
  cases i
  case iadd h d a b m | isub h d a b m | imul h d a b m | imulh h d a b m | idiv h d a b m | irem h d a b m | imin h d a b m | imax h d a b m =>
    obtain rfl := Option.some.inj hr
    have hr := readsAs_raw2 hwf rfl
    conv_lhs => whnf
    simp only [(hr _ _).head, (hr _ _).d, (hr _ _).a, (hr _ _).b, (hr _ _).mod, intModOf_intModCode]
  case andB h d a b | orB h d a b | xorB h d a b | shl h d a b | rot h d a b | bcast h d a b | runget h d a b =>
    obtain rfl := Option.some.inj hr
    have hr := readsAs_raw2 hwf rfl
    conv_lhs => whnf
    simp only [(hr _ _).head, (hr _ _).d, (hr _ _).a, (hr _ _).b]
  case shr h d a b x | bfe h d a b x | nbr h d a b x =>
    obtain rfl := Option.some.inj hr
    have hr := readsAs_raw2 hwf rfl
    conv_lhs => whnf
    simp only [(hr _ _).head, (hr _ _).d, (hr _ _).a, (hr _ _).b, (hr _ _).mod, bit0_code]
  case fadd h d a b m | fsub h d a b m | fmul h d a b m | fdiv h d a b m | fmin h d a b m | fmax h d a b m =>
    obtain rfl := Option.some.inj hr
    have hr := readsAs_raw2 (left_of_and hwf) rfl
    conv_lhs => whnf
    simp only [(hr _ _).head, (hr _ _).d, (hr _ _).a, (hr _ _).b, (hr _ _).mod, fpModOf_fpModCode]
  case hadd2 h d a b m | hmul2 h d a b m | hmin2 h d a b m | hmax2 h d a b m =>
    obtain rfl := Option.some.inj hr
    have hr := readsAs_raw2 (left_of_and hwf) rfl
    conv_lhs => whnf
    simp only [(hr _ _).head, (hr _ _).d, (hr _ _).a, (hr _ _).b, (hr _ _).mod, halfModOf_halfModCode]
  case imad h d a b c m | idot4 h d a b c m =>
    obtain rfl := Option.some.inj hr
    have hr := readsAs_raw3 hwf rfl
    conv_lhs => whnf
    simp only [(hr _ _).head, (hr _ _).d, (hr _ _).a, (hr _ _).b, (hr _ _).c, (hr _ _).mod, intModOf_intModCode]
  case bfi h d a b c =>
    obtain rfl := Option.some.inj hr
    have hr := readsAs_raw3 hwf rfl
    conv_lhs => whnf
    simp only [(hr _ _).head, (hr _ _).d, (hr _ _).a, (hr _ _).b, (hr _ _).c]
  case bmix h d a b c t | pmix h d a b c t =>
    obtain rfl := Option.some.inj hr
    have hr := readsAs_raw3 hwf rfl
    conv_lhs => whnf
    simp only [(hr _ _).head, (hr _ _).d, (hr _ _).a, (hr _ _).b, (hr _ _).c, (hr _ _).mod]
  case ffma h d a b c m =>
    obtain rfl := Option.some.inj hr
    have hr := readsAs_raw3 (left_of_and hwf) rfl
    conv_lhs => whnf
    simp only [(hr _ _).head, (hr _ _).d, (hr _ _).a, (hr _ _).b, (hr _ _).c, (hr _ _).mod, fpModOf_fpModCode]
  case hfma2 h d a b c m | hdot2 h d a b c m =>
    obtain rfl := Option.some.inj hr
    have hr := readsAs_raw3 (left_of_and hwf) rfl
    conv_lhs => whnf
    simp only [(hr _ _).head, (hr _ _).d, (hr _ _).a, (hr _ _).b, (hr _ _).c, (hr _ _).mod, halfModOf_halfModCode]
  case notB h d a | popc h d a | clz h d a | brev h d a | fclass h d a | mov h d a | coalesce h d a =>
    obtain rfl := Option.some.inj hr
    have hr := readsAs_raw1 hwf rfl
    conv_lhs => whnf
    simp only [(hr _ _).head, (hr _ _).d, (hr _ _).a]
  case smov h d a | srd h d a | cpyk h d a =>
    obtain rfl := Option.some.inj hr
    have hr := readsAs_raw1 (wf1_of_wfS1 hwf) rfl
    conv_lhs => whnf
    simp only [(hr _ _).head, (hr _ _).d, (hr _ _).a]
  case fsqrt h d a m | frcp h d a m | frsq h d a m | fexp2 h d a m | flog2 h d a m | fsin h d a m | fcos h d a m | ftanh h d a m =>
    obtain rfl := Option.some.inj hr
    have hr := readsAs_raw1 (left_of_and hwf) rfl
    conv_lhs => whnf
    simp only [(hr _ _).head, (hr _ _).d, (hr _ _).a, (hr _ _).mod, fpModOf_fpModCode]
  case runs h d a x =>
    obtain rfl := Option.some.inj hr
    have hr := readsAs_raw1 hwf rfl
    conv_lhs => whnf
    simp only [(hr _ _).head, (hr _ _).d, (hr _ _).a, (hr _ _).mod, bit0_code]
  case tagw h d a x | tagf h d a x =>
    obtain rfl := Option.some.inj hr
    have hr := readsAs_raw1 (wf1_of_wfS1 hwf) rfl
    conv_lhs => whnf
    simp only [(hr _ _).head, (hr _ _).d, (hr _ _).a, (hr _ _).mod, bit0_code]
  case sadd h d a b m | ssub h d a b m | smul h d a b m | smulh h d a b m | sshf h d a b m | sdiv h d a b m =>
    obtain rfl := Option.some.inj hr
    have hr := readsAs_raw2 (wf2_of_wfS2 (left_of_and hwf)) rfl
    conv_lhs => whnf
    simp only [(hr _ _).head, (hr _ _).d, (hr _ _).a, (hr _ _).b, (hr _ _).mod, scalarModOf_scalarModCode]
  case scmp h d a b m x =>
    obtain rfl := Option.some.inj hr
    have hr := readsAs_raw2 (wf2_of_wfS2 (left_of_and hwf)) rfl
    conv_lhs => whnf
    simp only [(hr _ _).head, (hr _ _).d, (hr _ _).a, (hr _ _).b, (hr _ _).mod, scalarModOf_scalarModCode, cond_scalarModCode]
  case dadd h d a b m | dmul h d a b m =>
    obtain rfl := Option.some.inj hr
    have hr := readsAs_raw2 (wf2_of_wfS2 (left_of_and hwf)) rfl
    conv_lhs => whnf
    simp only [(hr _ _).head, (hr _ _).d, (hr _ _).a, (hr _ _).b, (hr _ _).mod, fpModOf_fpModCode]
  case smovh h d a b =>
    obtain rfl := Option.some.inj hr
    have hr := readsAs_raw2 (wf2_of_wfS2 hwf) rfl
    conv_lhs => whnf
    simp only [(hr _ _).head, (hr _ _).d, (hr _ _).a, (hr _ _).b]
  case smix h d a b c t =>
    obtain rfl := Option.some.inj hr
    have hr := readsAs_raw3 (wf3_of_wfS3 hwf) rfl
    conv_lhs => whnf
    simp only [(hr _ _).head, (hr _ _).d, (hr _ _).a, (hr _ _).b, (hr _ _).c, (hr _ _).mod]
  case dfma h d a b c m =>
    obtain rfl := Option.some.inj hr
    have hr := readsAs_raw3 (wf3_of_wfS3 (left_of_and hwf)) rfl
    conv_lhs => whnf
    simp only [(hr _ _).head, (hr _ _).d, (hr _ _).a, (hr _ _).b, (hr _ _).c, (hr _ _).mod, fpModOf_fpModCode]
  case trap h a | sleep h a | srseed h a | tagc h a =>
    obtain rfl := Option.some.inj hr
    have hr opc mod := readsAs_rawA (h := h) (a := a) opc mod
    conv_lhs => whnf
    simp only [(hr _ _).head, (hr _ _).a]
  case rfill h d a off | barv h d a off | cpy h d a off | spawn h d a off =>
    obtain rfl := Option.some.inj hr
    have hr := readsAs_rawOff hwf rfl rfl
    conv_lhs => whnf
    simp only [(hr _ _ _).head, (hr _ _ _).d, (hr _ _ _).a, (hr _ _ _).imm]
  case iabs h d a sat | ineg h d a sat =>
    obtain rfl := Option.some.inj hr
    have hr := readsAs_raw1 hwf rfl
    conv_lhs => whnf
    simp only [(hr _ _).head, (hr _ _).d, (hr _ _).a, (hr _ _).mod, satMod_field]
  case isetp h d a b s m =>
    obtain rfl := Option.some.inj hr
    have hr := readsAs_raw2 hwf rfl
    conv_lhs => whnf
    simp only [(hr _ _).head, (hr _ _).d, (hr _ _).a, (hr _ _).b, (hr _ _).mod, (isetpMod_fields _ _).1, (isetpMod_fields _ _).2]
  case fsetp h d a b na nb m =>
    obtain rfl := Option.some.inj hr
    have hr := readsAs_raw2 hwf rfl
    conv_lhs => whnf
    simp only [(hr _ _).head, (hr _ _).d, (hr _ _).a, (hr _ _).b, (hr _ _).mod, fsetpMod_fields na nb m rfl]
  case shfl h d a b m =>
    obtain rfl := Option.some.inj hr
    have hr := readsAs_raw2 hwf rfl
    conv_lhs => whnf
    simp only [(hr _ _).head, (hr _ _).d, (hr _ _).a, (hr _ _).b, (hr _ _).mod, modFields.2.1]
  case runapp h d a b first last =>
    obtain rfl := Option.some.inj hr
    have hr := readsAs_raw2 hwf rfl
    conv_lhs => whnf
    simp only [(hr _ _).head, (hr _ _).d, (hr _ _).a, (hr _ _).b, (hr _ _).mod, runappMod_fields]
  case bpick h d a b c f =>
    obtain rfl := Option.some.inj hr
    have hr := readsAs_raw3 hwf rfl
    conv_lhs => whnf
    simp only [(hr _ _).head, (hr _ _).d, (hr _ _).a, (hr _ _).b, (hr _ _).c, (hr _ _).mod, extract_bottom]
  case sel h d a b c =>
    obtain rfl := Option.some.inj hr
    have hr := readsAs_raw3 (wf3_of_sel hwf) rfl
    conv_lhs => whnf
    simp only [(hr _ _).head, (hr _ _).d, (hr _ _).a, (hr _ _).b, (hr _ _).c]
  case pmov h d a =>
    obtain rfl := Option.some.inj hr
    simp only [WellFormed, Instr.wf, Bool.and_eq_true] at hwf
    obtain ⟨⟨-, hd⟩, -⟩ := hwf
    have hr := readsAs_raw1_of (h := h) (a := a) hd rfl
    conv_lhs => whnf
    simp only [(hr _ _).head, (hr _ _).d, (hr _ _).a]
  case vote h d a m =>
    obtain rfl := Option.some.inj hr
    have hr := readsAs_raw1_of (h := h) (a := a) (vote_isIn hwf) rfl
    conv_lhs => whnf
    simp only [(hr _ _).head, (hr _ _).d, (hr _ _).a, (hr _ _).mod, modFields.2.2.1]
  case reduce h d a op =>
    obtain rfl := Option.some.inj hr
    have hr := readsAs_raw1 hwf rfl
    conv_lhs => whnf
    simp only [(hr _ _).head, (hr _ _).d, (hr _ _).a, (hr _ _).mod, modFields.2.2.2]
  case scan h d a op x =>
    obtain rfl := Option.some.inj hr
    have hr := readsAs_raw1 hwf rfl
    conv_lhs => whnf
    simp only [(hr _ _).head, (hr _ _).d, (hr _ _).a, (hr _ _).mod, scanMod_fields]
  case matchLanes h d a all =>
    obtain rfl := Option.some.inj hr
    have hr := readsAs_raw1 hwf (by cases all <;> rfl)
    conv_lhs => whnf
    simp only [(hr _ _).head, (hr _ _).d, (hr _ _).a, (hr _ _).mod, bit0_code]
  case xenc h d a r | xdec h d a r =>
    obtain rfl := Option.some.inj hr
    have hr := readsAs_raw1 hwf rfl
    conv_lhs => whnf
    simp only [(hr _ _).head, (hr _ _).d, (hr _ _).a, (hr _ _).mod, extract_bottom]
  case swr h d a =>
    obtain rfl := Option.some.inj hr
    simp only [WellFormed, Instr.wf, Bool.and_eq_true] at hwf
    obtain ⟨-, hsr⟩ := hwf
    have hr := readsAs_raw1_of (h := h) (a := a) (swr_isIn hsr) rfl
    conv_lhs => whnf
    simp only [(hr _ _).head, (hr _ _).d, (hr _ _).a]
  case nop h | join h | exit h | eret h | yield h | fetchb h =>
    obtain rfl := Option.some.inj hr
    conv_lhs => whnf
    simp only [headOf_plain]
  case bra h t j =>
    obtain rfl := Option.some.inj hr
    have hr := readsAs_fullRaw (imm := (j ++ t)) (takes_zero _) (takes_zero _) (takes_zero _) (takes_zero _) h 0x01#8 0#8
    change instrOfRaw (fullRaw h 0x01#8 (opndCode .zero) (opndCode .zero) (opndCode .zero) (opndCode .zero) 0#8 (j ++ t)) = _
    conv_lhs => whnf
    simp only [hr.head, hr.imm, extract_top, extract_bottom]
  case brk h code =>
    obtain rfl := Option.some.inj hr
    have hr := readsAs_fullRaw (imm := (0#16 ++ code)) (takes_zero _) (takes_zero _) (takes_zero _) (takes_zero _) h 0x0C#8 0#8
    change instrOfRaw (fullRaw h 0x0C#8 (opndCode .zero) (opndCode .zero) (opndCode .zero) (opndCode .zero) 0#8 (0#16 ++ code)) = _
    conv_lhs => whnf
    simp only [hr.head, hr.imm, extract_bottom]
  case jmpOffset h t =>
    obtain rfl := Option.some.inj hr
    have hr := readsAs_fullRaw (imm := (0#16 ++ t)) (takes_zero _) (takes_zero _) (takes_zero _) (takes_zero _) h 0x02#8 0#8
    change instrOfRaw (fullRaw h 0x02#8 (opndCode .zero) (opndCode .zero) (opndCode .zero) (opndCode .zero) 0#8 (0#16 ++ t)) = _
    conv_lhs => whnf
    simp only [hr.head, hr.imm, extract_bottom]
  case callOffset h d t =>
    obtain rfl := Option.some.inj hr
    simp only [WellFormed, Instr.wf, Bool.and_eq_true] at hwf
    obtain ⟨-, hd⟩ := hwf
    have hr := readsAs_fullRaw (imm := (0#16 ++ t)) (takes_of_isIn rfl hd _) (takes_zero _) (takes_zero _) (takes_zero _) h 0x05#8 0#8
    change instrOfRaw (fullRaw h 0x05#8 (opndCode d) (opndCode .zero) (opndCode .zero) (opndCode .zero) 0#8 (0#16 ++ t)) = _
    conv_lhs => whnf
    simp only [hr.head, hr.d, hr.imm, extract_bottom]
  case jmpScalar h a =>
    obtain rfl := Option.some.inj hr
    simp only [WellFormed, Instr.wf, Bool.and_eq_true] at hwf
    obtain ⟨-, ha⟩ := hwf
    have hr := readsAs_fullRaw (imm := 0#32) (takes_zero _) (takes_of_isIn rfl ha _) (takes_zero _) (takes_zero _) h 0x02#8 0#8
    change instrOfRaw (fullRaw h 0x02#8 (opndCode .zero) (opndCode a) (opndCode .zero) (opndCode .zero) 0#8 0#32) = _
    rw [instrOfRaw_jmpScalar rfl (opndCode_ne_zero ha), hr.head, hr.a]
  case callScalar h d a =>
    obtain rfl := Option.some.inj hr
    simp only [WellFormed, Instr.wf, Bool.and_eq_true] at hwf
    obtain ⟨⟨-, hd⟩, ha⟩ := hwf
    have hr := readsAs_fullRaw (imm := 0#32) (takes_of_isIn rfl hd _) (takes_of_isIn rfl ha _) (takes_zero _) (takes_zero _) h 0x05#8 0#8
    change instrOfRaw (fullRaw h 0x05#8 (opndCode d) (opndCode a) (opndCode .zero) (opndCode .zero) 0#8 0#32) = _
    rw [instrOfRaw_callScalar rfl (opndCode_ne_zero ha), hr.head, hr.d, hr.a]
  case jmpi h a b n j =>
    obtain rfl := Option.some.inj hr
    simp only [WellFormed, Instr.wf, Bool.and_eq_true] at hwf
    obtain ⟨⟨-, ha⟩, hb⟩ := hwf
    have hr := readsAs_ownC (imm := j ++ 0#16) (takes_zero _) (takes_of_isIn rfl ha _) (takes_of_isIn rfl hb _) h 0x03#8 n 0#8
    change instrOfRaw (fullRaw h 0x03#8 (opndCode .zero) (opndCode a) (opndCode b) n 0#8 (j ++ 0#16)) = _
    conv_lhs => whnf
    simp only [hr.head, hr.a, hr.b, hr.imm, extract_top]
    rfl
  case ret h a =>
    obtain rfl := Option.some.inj hr
    simp only [WellFormed, Instr.wf, Bool.and_eq_true] at hwf
    obtain ⟨-, ha⟩ := hwf
    have hr := readsAs_fullRaw (imm := 0#32) (takes_zero _) (takes_of_isIn rfl ha _) (takes_zero _) (takes_zero _) h 0x06#8 0#8
    change instrOfRaw (fullRaw h 0x06#8 (opndCode .zero) (opndCode a) (opndCode .zero) (opndCode .zero) 0#8 0#32) = _
    conv_lhs => whnf
    simp only [hr.head, hr.a]
  case part h n =>
    obtain rfl := Option.some.inj hr
    have hr := readsAs_fullRaw (imm := 0#32) (takes_zero _) (takes_zero _) (takes_zero _) (takes_zero _) h 0x67#8 (mod3 n)
    change instrOfRaw (fullRaw h 0x67#8 (opndCode .zero) (opndCode .zero) (opndCode .zero) (opndCode .zero) (mod3 n) 0#32) = _
    conv_lhs => whnf
    simp only [hr.head, hr.mod, mod3_bottom]
  case chclose h n =>
    obtain rfl := Option.some.inj hr
    have hr := readsAs_fullRaw (imm := 0#32) (takes_zero _) (takes_zero _) (takes_zero _) (takes_zero _) h 0xBD#8 (mod3 n)
    change instrOfRaw (fullRaw h 0xBD#8 (opndCode .zero) (opndCode .zero) (opndCode .zero) (opndCode .zero) (mod3 n) 0#32) = _
    conv_lhs => whnf
    simp only [hr.head, hr.mod, mod3_bottom]
  case drain h s =>
    obtain rfl := Option.some.inj hr
    have hr := readsAs_fullRaw (imm := 0#32) (takes_zero _) (takes_zero _) (takes_zero _) (takes_zero _) h 0xB1#8 (modScope s)
    change instrOfRaw (fullRaw h 0xB1#8 (opndCode .zero) (opndCode .zero) (opndCode .zero) (opndCode .zero) (modScope s) 0#32) = _
    conv_lhs => whnf
    simp only [hr.head, hr.mod, scopeOfNat_modScope]
  case wait h tl cp st ld =>
    obtain rfl := Option.some.inj hr
    have hr := readsAs_fullRaw (imm := (0#8 ++ (tl ++ (cp ++ (st ++ ld))))) (takes_zero _) (takes_zero _) (takes_zero _) (takes_zero _) h 0xB7#8 0#8
    change instrOfRaw (fullRaw h 0xB7#8 (opndCode .zero) (opndCode .zero) (opndCode .zero) (opndCode .zero) 0#8 (0#8 ++ (tl ++ (cp ++ (st ++ ld))))) = _
    conv_lhs => whnf
    simp only [hr.head, hr.imm, wait_fields tl cp st ld rfl]
  case fence h s dir die succ pred =>
    obtain rfl := Option.some.inj hr
    have hr := readsAs_fullRaw (imm := (0#11 ++ (die ++ (0#2 ++ (succ ++ (0#2 ++ pred)))))) (takes_zero _) (takes_zero _) (takes_zero _) (takes_zero _) h 0xB0#8 (0#4 ++ (bit1 dir ++ BitVec.ofNat 3 (scopeNum s)))
    change instrOfRaw (fullRaw h 0xB0#8 (opndCode .zero) (opndCode .zero) (opndCode .zero) (opndCode .zero) (0#4 ++ (bit1 dir ++ BitVec.ofNat 3 (scopeNum s))) (0#11 ++ (die ++ (0#2 ++ (succ ++ (0#2 ++ pred)))))) = _
    conv_lhs => whnf
    simp only [hr.head, hr.mod, hr.imm, fenceMod_fields, fence_fields die succ pred rfl]
  case rbudget h d =>
    obtain rfl := Option.some.inj hr
    simp only [WellFormed, Instr.wf, Bool.and_eq_true] at hwf
    obtain ⟨-, hd⟩ := hwf
    have hr := readsAs_fullRaw (imm := 0#32) (takes_of_isIn rfl hd _) (takes_zero _) (takes_zero _) (takes_zero _) h 0x74#8 0#8
    change instrOfRaw (fullRaw h 0x74#8 (opndCode d) (opndCode .zero) (opndCode .zero) (opndCode .zero) 0#8 0#32) = _
    conv_lhs => whnf
    simp only [hr.head, hr.d]
  case gbar h d =>
    obtain rfl := Option.some.inj hr
    simp only [WellFormed, Instr.wf, Bool.and_eq_true] at hwf
    obtain ⟨-, hd⟩ := hwf
    have hr := readsAs_fullRaw (imm := 0#32) (takes_of_isIn rfl hd _) (takes_zero _) (takes_zero _) (takes_zero _) h 0xB6#8 0#8
    change instrOfRaw (fullRaw h 0xB6#8 (opndCode d) (opndCode .zero) (opndCode .zero) (opndCode .zero) 0#8 0#32) = _
    conv_lhs => whnf
    simp only [hr.head, hr.d]
  case time h d =>
    obtain rfl := Option.some.inj hr
    simp only [WellFormed, Instr.wf, Bool.and_eq_true] at hwf
    obtain ⟨-, hd⟩ := hwf
    have hr := readsAs_fullRaw (imm := 0#32) (takes_of_isIn rfl hd _) (takes_zero _) (takes_zero _) (takes_zero _) h 0xBE#8 0#8
    change instrOfRaw (fullRaw h 0xBE#8 (opndCode d) (opndCode .zero) (opndCode .zero) (opndCode .zero) 0#8 0#32) = _
    conv_lhs => whnf
    simp only [hr.head, hr.d]
  case rspill h a c off free =>
    obtain rfl := Option.some.inj hr
    simp only [WellFormed, Instr.wf, Bool.and_eq_true] at hwf
    obtain ⟨⟨-, ha⟩, hc⟩ := hwf
    have hr := readsAs_fullRaw (imm := off) (takes_zero _) (takes_of_isIn rfl (isIn_of_isScalarIn ha) _) (takes_zero _) (takes_of_isIn rfl hc _) h 0x75#8 (0#7 ++ bit1 free)
    change instrOfRaw (fullRaw h 0x75#8 (opndCode .zero) (opndCode a) (opndCode .zero) (opndCode c) (0#7 ++ bit1 free) off) = _
    conv_lhs => whnf
    simp only [hr.head, hr.a, hr.c, hr.mod, hr.imm, bit0_code]
  case chopen h a ch =>
    obtain rfl := Option.some.inj hr
    have hr := readsAs_fullRaw (imm := (immOf [a])) (takes_zero _) (takes_immOf _ _) (takes_zero _) (takes_zero _) h 0xBB#8 (mod3 ch)
    change instrOfRaw (fullRaw h 0xBB#8 (opndCode .zero) (opndCode a) (opndCode .zero) (opndCode .zero) (mod3 ch) (immOf [a])) = _
    conv_lhs => whnf
    simp only [hr.head, hr.a, hr.mod, mod3_bottom]
  case cvt h d a m =>
    obtain rfl := Option.some.inj hr
    simp only [WellFormed, Instr.wf, wf1, Bool.and_eq_true] at hwf
    obtain ⟨⟨⟨-, hd⟩, ha⟩, -⟩ := hwf
    obtain ⟨hhead, hd, ha, hc⟩ := readsAs_rawCvt (imm := immOf [a]) hd rfl (takes_immOf _ _) (takes_zero _) h 0x48#8 m
    conv_lhs => whnf
    simp only [hhead, hd, ha, cvtModOf_rawCvt]
  case cvtpk h d a c m el =>
    obtain rfl := Option.some.inj hr
    simp only [WellFormed, Instr.wf, Bool.and_eq_true] at hwf
    obtain ⟨⟨⟨⟨⟨⟨⟨-, hd⟩, ha⟩, hc⟩, -⟩, -⟩, -⟩, -⟩ := hwf
    obtain ⟨hhead, hd, ha, hc⟩ := readsAs_rawCvt (imm := 0#29 ++ el) hd rfl (takes_of_isIn rfl ha _) (takes_of_isIn rfl hc _) h 0x49#8 m
    conv_lhs => whnf
    simp only [hhead, hd, ha, hc, cvtModOf_rawCvt, imm_rawCvt, extract_bottom]
  case cvtup h d a m el =>
    obtain rfl := Option.some.inj hr
    simp only [WellFormed, Instr.wf, wf1, Bool.and_eq_true] at hwf
    obtain ⟨⟨⟨⟨⟨⟨-, hd⟩, ha⟩, -⟩, -⟩, -⟩, -⟩ := hwf
    obtain ⟨hhead, hd, ha, hc⟩ := readsAs_rawCvt (imm := 0#29 ++ el) hd rfl (takes_of_isIn rfl ha _) (takes_zero _) h 0x4A#8 m
    conv_lhs => whnf
    simp only [hhead, hd, ha, cvtModOf_rawCvt, imm_rawCvt, extract_bottom]
  case mxq h d a c m =>
    obtain rfl := Option.some.inj hr
    simp only [WellFormed, Instr.wf, Bool.and_eq_true] at hwf
    obtain ⟨⟨⟨⟨⟨⟨-, hd⟩, ha⟩, hc⟩, -⟩, -⟩, -⟩ := hwf
    obtain ⟨hhead, hd, ha, hc⟩ := readsAs_rawCvt (imm := 0#32) hd rfl (takes_of_isIn rfl ha _) (takes_of_isIn rfl hc _) h 0x4B#8 m
    conv_lhs => whnf
    simp only [hhead, hd, ha, hc, cvtModOf_rawCvt]
  case mxdq h d a c m =>
    obtain rfl := Option.some.inj hr
    simp only [WellFormed, Instr.wf, Bool.and_eq_true] at hwf
    obtain ⟨⟨⟨⟨⟨⟨-, hd⟩, ha⟩, hc⟩, -⟩, -⟩, -⟩ := hwf
    obtain ⟨hhead, hd, ha, hc⟩ := readsAs_rawCvt (imm := immOf [c]) hd rfl (takes_of_isIn rfl ha _) (takes_immOf _ _) h 0x4C#8 m
    conv_lhs => whnf
    simp only [hhead, hd, ha, hc, cvtModOf_rawCvt]
  case cblu h d a m el sl =>
    obtain rfl := Option.some.inj hr
    simp only [WellFormed, Instr.wf, wf1, Bool.and_eq_true] at hwf
    obtain ⟨⟨⟨⟨⟨⟨-, hd⟩, ha⟩, -⟩, -⟩, -⟩, -⟩ := hwf
    obtain ⟨hhead, hd, ha, hc⟩ := readsAs_rawCvt (imm := 0#25 ++ (sl ++ (0#1 ++ el))) hd rfl (takes_of_isIn rfl ha _) (takes_zero _) h 0x4D#8 m
    conv_lhs => whnf
    simp only [hhead, hd, ha, cvtModOf_rawCvt, imm_rawCvt, digit_lo, digit_hi]
  case dcvt h d a m w =>
    obtain rfl := Option.some.inj hr
    simp only [WellFormed, Instr.wf, wfS1, Bool.and_eq_true] at hwf
    obtain ⟨⟨⟨⟨⟨-, hd⟩, ha⟩, -⟩, -⟩, -⟩ := hwf
    obtain ⟨hhead, hd, ha, hc⟩ := readsAs_rawCvt (imm := 0#31 ++ bit1 w) hd rfl (takes_of_isIn rfl (isIn_of_isScalarIn ha) _) (takes_zero _) h 0x8E#8 m
    conv_lhs => whnf
    simp only [hhead, hd, ha, cvtModOf_rawCvt, imm_rawCvt, immBit0_code]
  case ld h d a b off m =>
    obtain rfl := Option.some.inj hr
    simp only [WellFormed, Instr.wf, wf2, Bool.and_eq_true] at hwf
    obtain ⟨⟨⟨⟨⟨⟨⟨-, hd⟩, ha⟩, hb⟩, -⟩, -⟩, -⟩, -⟩ := hwf
    have hr := readsAs_fullRaw (imm := off) (takes_of_isIn rfl hd _) (takes_of_isIn rfl ha _) (takes_of_isIn rfl hb _) (takes_zero _) h 0x90#8 (memModCode m)
    change instrOfRaw (fullRaw h 0x90#8 (opndCode d) (opndCode a) (opndCode b) (opndCode .zero) (memModCode m) off) = _
    conv_lhs => whnf
    simp only [hr.head, hr.d, hr.a, hr.b, hr.mod, memModOf_memModCode, hr.imm]
  case ald h d a b off m =>
    obtain rfl := Option.some.inj hr
    simp only [WellFormed, Instr.wf, wf2, Bool.and_eq_true] at hwf
    obtain ⟨⟨⟨⟨⟨⟨⟨-, hd⟩, ha⟩, hb⟩, -⟩, -⟩, -⟩, -⟩ := hwf
    have hr := readsAs_fullRaw (imm := off) (takes_of_isIn rfl hd _) (takes_of_isIn rfl ha _) (takes_of_isIn rfl hb _) (takes_zero _) h 0xA5#8 (atomModCode m)
    change instrOfRaw (fullRaw h 0xA5#8 (opndCode d) (opndCode a) (opndCode b) (opndCode .zero) (atomModCode m) off) = _
    conv_lhs => whnf
    simp only [hr.head, hr.d, hr.a, hr.b, hr.mod, atomModOf_atomModCode, hr.imm]
  case barw h d a b off =>
    obtain rfl := Option.some.inj hr
    simp only [WellFormed, Instr.wf, wfS2, Bool.and_eq_true] at hwf
    obtain ⟨⟨⟨⟨-, hd⟩, ha⟩, hb⟩, -⟩ := hwf
    have hr := readsAs_fullRaw (imm := off) (takes_of_isIn rfl hd _) (takes_of_isIn rfl (isIn_of_isScalarIn ha) _) (takes_of_isIn rfl (isIn_of_isScalarIn hb) _) (takes_zero _) h 0xB4#8 0#8
    change instrOfRaw (fullRaw h 0xB4#8 (opndCode d) (opndCode a) (opndCode b) (opndCode .zero) 0#8 off) = _
    conv_lhs => whnf
    simp only [hr.head, hr.d, hr.a, hr.b, hr.imm]
  case sld h d a off m =>
    obtain rfl := Option.some.inj hr
    have hr := readsAs_rawOff (left_of_and (left_of_and hwf)) rfl rfl
    conv_lhs => whnf
    simp only [(hr _ _ _).head, (hr _ _ _).d, (hr _ _ _).a, (hr _ _ _).mod, (hr _ _ _).imm, memModOf_memModCode]
  case dcas h d a off m | amove h d a off m =>
    obtain rfl := Option.some.inj hr
    have hr := readsAs_rawOff (left_of_and (left_of_and hwf)) rfl rfl
    conv_lhs => whnf
    simp only [(hr _ _ _).head, (hr _ _ _).d, (hr _ _ _).a, (hr _ _ _).mod, (hr _ _ _).imm, atomModOf_atomModCode]
  case gsub h d a off sq =>
    obtain rfl := Option.some.inj hr
    have hr := readsAs_rawOff hwf rfl rfl
    conv_lhs => whnf
    simp only [(hr _ _ _).head, (hr _ _ _).d, (hr _ _ _).a, (hr _ _ _).mod, (hr _ _ _).imm, extract_bottom]
  case mbxrd h d a off w =>
    obtain rfl := Option.some.inj hr
    have hr := readsAs_rawOff hwf rfl rfl
    conv_lhs => whnf
    simp only [(hr _ _ _).head, (hr _ _ _).d, (hr _ _ _).a, (hr _ _ _).mod, (hr _ _ _).imm, bit0_code]
  case mbxfwd h d a off die =>
    obtain rfl := Option.some.inj hr
    have hr := readsAs_rawOff hwf rfl rfl
    conv_lhs => whnf
    simp only [(hr _ _ _).head, (hr _ _ _).d, (hr _ _ _).a, (hr _ _ _).mod, (hr _ _ _).imm, mod3_bottom]
  case pref h a b off m =>
    obtain rfl := Option.some.inj hr
    simp only [WellFormed, Instr.wf, Bool.and_eq_true] at hwf
    obtain ⟨⟨⟨⟨⟨-, ha⟩, hb⟩, -⟩, -⟩, -⟩ := hwf
    have hr := readsAs_fullRaw (imm := off) (takes_zero _) (takes_of_isIn rfl ha _) (takes_of_isIn rfl hb _) (takes_zero _) h 0x94#8 (memModCode m)
    change instrOfRaw (fullRaw h 0x94#8 (opndCode .zero) (opndCode a) (opndCode b) (opndCode .zero) (memModCode m) off) = _
    conv_lhs => whnf
    simp only [hr.head, hr.a, hr.b, hr.mod, memModOf_memModCode, hr.imm]
  case cflush h a b off s =>
    obtain rfl := Option.some.inj hr
    simp only [WellFormed, Instr.wf, Bool.and_eq_true] at hwf
    obtain ⟨⟨⟨-, ha⟩, hb⟩, -⟩ := hwf
    have hr := readsAs_fullRaw (imm := off) (takes_zero _) (takes_of_isIn rfl (isIn_of_isScalarIn ha) _) (takes_of_isIn rfl hb _) (takes_zero _) h 0x95#8 (modScope s)
    change instrOfRaw (fullRaw h 0x95#8 (opndCode .zero) (opndCode a) (opndCode b) (opndCode .zero) (modScope s) off) = _
    conv_lhs => whnf
    simp only [hr.head, hr.a, hr.b, hr.mod, scopeOfNat_modScope, hr.imm]
  case icinv h a b off s =>
    obtain rfl := Option.some.inj hr
    simp only [WellFormed, Instr.wf, Bool.and_eq_true] at hwf
    obtain ⟨⟨⟨-, ha⟩, hb⟩, -⟩ := hwf
    have hr := readsAs_fullRaw (imm := off) (takes_zero _) (takes_of_isIn rfl (isIn_of_isScalarIn ha) _) (takes_of_isIn rfl hb _) (takes_zero _) h 0x96#8 (modScope s)
    change instrOfRaw (fullRaw h 0x96#8 (opndCode .zero) (opndCode a) (opndCode b) (opndCode .zero) (modScope s) off) = _
    conv_lhs => whnf
    simp only [hr.head, hr.a, hr.b, hr.mod, scopeOfNat_modScope, hr.imm]
  case barx h a b off =>
    obtain rfl := Option.some.inj hr
    simp only [WellFormed, Instr.wf, Bool.and_eq_true] at hwf
    obtain ⟨⟨-, ha⟩, hb⟩ := hwf
    have hr := readsAs_fullRaw (imm := off) (takes_zero _) (takes_of_isIn rfl (isIn_of_isScalarIn ha) _) (takes_of_isIn rfl hb _) (takes_zero _) h 0xB5#8 0#8
    change instrOfRaw (fullRaw h 0xB5#8 (opndCode .zero) (opndCode a) (opndCode b) (opndCode .zero) 0#8 off) = _
    conv_lhs => whnf
    simp only [hr.head, hr.a, hr.b, hr.imm]
  case bari h a off n f =>
    obtain rfl := Option.some.inj hr
    simp only [WellFormed, Instr.wf, Bool.and_eq_true] at hwf
    obtain ⟨-, ha⟩ := hwf
    have hr := readsAs_ownC (imm := off) (takes_zero _) (takes_of_isIn rfl (isIn_of_isScalarIn ha) _) (takes_zero _) h 0xB2#8 n (0#7 ++ bit1 f)
    change instrOfRaw (fullRaw h 0xB2#8 (opndCode .zero) (opndCode a) (opndCode .zero) n (0#7 ++ bit1 f) off) = _
    conv_lhs => whnf
    simp only [hr.head, hr.a, hr.mod, hr.imm, bit0_code]
    rfl
  case st h a b c off m =>
    obtain rfl := Option.some.inj hr
    have hwf := left_of_and (left_of_and (left_of_and (left_of_and hwf)))
    have hr opc mod := (readsAs_rawStoreV hwf (zero_isIn_z) rfl opc mod).1
    have hoff opc mod := off_rawStore (offFits_of_wfStoreV hwf) h opc mod .zero a b
    conv_lhs => whnf
    simp only [(hr _ _).head, (hr _ _).a, (hr _ _).b, (hr _ _).c, (hr _ _).mod, hoff, memModOf_memModCode]
  case red h a b c off m | ast h a b c off m =>
    obtain rfl := Option.some.inj hr
    have hwf := left_of_and hwf
    have hr opc mod := (readsAs_rawStoreV hwf (zero_isIn_z) rfl opc mod).1
    have hoff opc mod := off_rawStore (offFits_of_wfStoreV hwf) h opc mod .zero a b
    conv_lhs => whnf
    simp only [(hr _ _).head, (hr _ _).a, (hr _ _).b, (hr _ _).c, (hr _ _).mod, hoff, atomModOf_atomModCode]
  case chst h a b c off ch w =>
    obtain rfl := Option.some.inj hr
    have hr opc mod := (readsAs_rawStoreV hwf (zero_isIn_z) rfl opc mod).1
    have hoff opc mod := off_rawStore (offFits_of_wfStoreV hwf) h opc mod .zero a b
    conv_lhs => whnf
    simp only [(hr _ _).head, (hr _ _).a, (hr _ _).b, (hr _ _).c, (hr _ _).mod, hoff, chstMod_fields]
  case atom h d a b c off m | cas h d a b c off m =>
    obtain rfl := Option.some.inj hr
    simp only [WellFormed, Instr.wf, Bool.and_eq_true] at hwf
    obtain ⟨⟨⟨hwf, hd⟩, -⟩, -⟩ := hwf
    have hr opc mod := (readsAs_rawStoreV hwf hd rfl opc mod).1
    have hoff opc mod := off_rawStore (offFits_of_wfStoreV hwf) h opc mod d a b
    conv_lhs => whnf
    simp only [(hr _ _).head, (hr _ _).d, (hr _ _).a, (hr _ _).b, (hr _ _).c, (hr _ _).mod, hoff, atomModOf_atomModCode]
  case sst h a c off m =>
    obtain rfl := Option.some.inj hr
    simp only [WellFormed, Instr.wf, Bool.and_eq_true] at hwf
    obtain ⟨⟨⟨⟨⟨⟨-, ha⟩, -⟩, hoff⟩, -⟩, -⟩, -⟩ := hwf
    have hr opc mod := readsAs_rawStore (c := c) (off := off) zero_isIn_z rfl (isIn_of_isScalarIn ha) rfl zero_isIn_z rfl h opc mod
    have hoff opc mod := off_rawStore hoff h opc mod .zero a .zero
    conv_lhs => whnf
    simp only [(hr _ _).head, (hr _ _).a, (hr _ _).c, (hr _ _).mod, hoff, memModOf_memModCode]
  case mma h d a b c m =>
    obtain rfl := Option.some.inj hr
    simp only [WellFormed, Instr.wf, Bool.and_eq_true] at hwf
    obtain ⟨⟨⟨⟨⟨-, hd⟩, ha⟩, hb⟩, hc⟩, -⟩ := hwf
    have hr := readsAs_fullRaw (imm := (immOf [a, b, c])) (takes_of_isAcc hd _) (takes_of_isIn rfl ha _) (takes_of_isIn rfl hb _) (takes_of_accOrZero hc _) h 0xD0#8 (matModCode m)
    change instrOfRaw (fullRaw h 0xD0#8 (opndCode d) (opndCode a) (opndCode b) (opndCode c) (matModCode m) (immOf [a, b, c])) = _
    conv_lhs => whnf
    simp only [hr.head, hr.d, hr.a, hr.b, hr.c, hr.mod, matModOf_matModCode]
  case mmax h d a b c m =>
    obtain rfl := Option.some.inj hr
    simp only [WellFormed, Instr.wf, Bool.and_eq_true] at hwf
    obtain ⟨⟨⟨⟨⟨⟨-, hd⟩, ha⟩, hb⟩, hc⟩, -⟩, -⟩ := hwf
    have hr := readsAs_fullRaw (imm := (immOf [a, b, c])) (takes_of_isAcc hd _) (takes_of_isIn rfl ha _) (takes_of_isIn rfl hb _) (takes_of_accOrZero hc _) h 0xD2#8 (matModCode m)
    change instrOfRaw (fullRaw h 0xD2#8 (opndCode d) (opndCode a) (opndCode b) (opndCode c) (matModCode m) (immOf [a, b, c])) = _
    conv_lhs => whnf
    simp only [hr.head, hr.d, hr.a, hr.b, hr.c, hr.mod, matModOf_matModCode]
  case mmasp h d a b c m sl =>
    obtain rfl := Option.some.inj hr
    simp only [WellFormed, Instr.wf, Bool.and_eq_true] at hwf
    obtain ⟨⟨⟨⟨⟨⟨⟨-, hd⟩, ha⟩, hb⟩, hc⟩, -⟩, -⟩, -⟩ := hwf
    have hr := readsAs_fullRaw (imm := (0#29 ++ sl)) (takes_of_isAcc hd _) (takes_of_isIn rfl ha _) (takes_of_isIn rfl hb _) (takes_of_isIn rfl hc _) h 0xD1#8 (matModCode m)
    change instrOfRaw (fullRaw h 0xD1#8 (opndCode d) (opndCode a) (opndCode b) (opndCode c) (matModCode m) (0#29 ++ sl)) = _
    conv_lhs => whnf
    simp only [hr.head, hr.d, hr.a, hr.b, hr.c, hr.mod, hr.imm, matModOf_matModCode, extract_bottom]
  case mmacb h d a b c m sa sb =>
    obtain rfl := Option.some.inj hr
    simp only [WellFormed, Instr.wf, Bool.and_eq_true] at hwf
    obtain ⟨⟨⟨⟨⟨⟨-, hd⟩, ha⟩, hb⟩, hc⟩, -⟩, -⟩ := hwf
    have hr := readsAs_fullRaw (imm := (0#25 ++ (sb ++ (0#1 ++ sa)))) (takes_of_isAcc hd _) (takes_of_isIn rfl ha _) (takes_of_isIn rfl hb _) (takes_of_accOrZero hc _) h 0xD3#8 (matModCode m)
    change instrOfRaw (fullRaw h 0xD3#8 (opndCode d) (opndCode a) (opndCode b) (opndCode c) (matModCode m) (0#25 ++ (sb ++ (0#1 ++ sa)))) = _
    conv_lhs => whnf
    simp only [hr.head, hr.d, hr.a, hr.b, hr.c, hr.mod, hr.imm, matModOf_matModCode, digit_lo, digit_hi]
  case mcbld h a sl =>
    obtain rfl := Option.some.inj hr
    simp only [WellFormed, Instr.wf, Bool.and_eq_true] at hwf
    obtain ⟨-, ha⟩ := hwf
    have hr := readsAs_fullRaw (imm := (0#29 ++ sl)) (takes_zero _) (takes_of_isIn rfl ha _) (takes_zero _) (takes_zero _) h 0xD4#8 3#8
    change instrOfRaw (fullRaw h 0xD4#8 (opndCode .zero) (opndCode a) (opndCode .zero) (opndCode .zero) 3#8 (0#29 ++ sl)) = _
    conv_lhs => whnf
    simp only [hr.head, hr.a, hr.imm, extract_bottom]
  case mstt h a c m ch role =>
    obtain rfl := Option.some.inj hr
    simp only [WellFormed, Instr.wf, Bool.and_eq_true] at hwf
    obtain ⟨⟨⟨⟨⟨-, ha⟩, hc⟩, -⟩, -⟩, -⟩ := hwf
    have hr := readsAs_fullRaw (imm := (0#25 ++ (role ++ (0#1 ++ ch)))) (takes_zero _) (takes_of_isIn rfl ha _) (takes_zero _) (takes_of_isAcc hc _) h 0xD5#8 (matModCode m)
    change instrOfRaw (fullRaw h 0xD5#8 (opndCode .zero) (opndCode a) (opndCode .zero) (opndCode c) (matModCode m) (0#25 ++ (role ++ (0#1 ++ ch)))) = _
    conv_lhs => whnf
    simp only [hr.head, hr.a, hr.c, hr.mod, hr.imm, matModOf_matModCode, digit_lo, digit_hi]
  case udf => exact absurd rfl hudf
  case illegalOpcode o => exact absurd rfl (hill o)
  all_goals exact (Option.some_ne_none r hr.symm).elim

/-! ## Every row of the opcode table -/

/-- An assigned opcode other than those of UDF and of the pair word. -/
def rowOpc (o : BitVec 8) : Bool := assignedOpc o.toNat && decide (o ≠ 0x0D#8) && decide (o ≠ 0xFF#8)

theorem rowOpc_cases : ∀ o, rowOpc o = true →
    o ∈ [0x00#8, 0x07#8, 0x09#8, 0x0A#8, 0xE3#8, 0x67#8, 0xB1#8, 0xBD#8]
    ∨ o ∈ [0x08#8, 0x0B#8, 0x4E#8, 0xBA#8, 0xBB#8, 0x74#8, 0xB6#8, 0xBE#8]
    ∨ o ∈ [0x19#8, 0x1A#8, 0x23#8, 0x29#8, 0x2A#8, 0x2B#8, 0x3F#8, 0x55#8, 0x63#8, 0x64#8, 0x70#8, 0x71#8, 0xC2#8, 0xC3#8]
    ∨ o ∈ [0x10#8, 0x11#8, 0x12#8, 0x13#8, 0x15#8, 0x16#8, 0x17#8, 0x18#8, 0x20#8, 0x21#8, 0x22#8, 0x24#8, 0x26#8, 0x25#8, 0x27#8, 0x14#8,
      0x1B#8, 0x28#8, 0x2C#8, 0x2D#8]
    ∨ o ∈ [0x30#8, 0x31#8, 0x32#8, 0x39#8, 0x34#8, 0x35#8, 0x33#8, 0x38#8, 0x36#8, 0x37#8, 0x3A#8, 0x3B#8, 0x3C#8, 0x3D#8, 0x3E#8, 0x40#8,
      0x41#8, 0x43#8, 0x44#8, 0x42#8, 0x45#8]
    ∨ o ∈ [0x54#8, 0x62#8, 0x65#8]
    ∨ o ∈ [0x50#8, 0x51#8, 0x60#8, 0x61#8, 0x66#8, 0x72#8, 0x73#8, 0x53#8]
    ∨ o ∈ [0x80#8, 0x81#8, 0x82#8, 0x83#8, 0x85#8, 0x8F#8, 0x86#8, 0x88#8, 0x8B#8, 0x8C#8, 0x84#8, 0x8D#8, 0x87#8, 0x89#8, 0xC1#8, 0xB8#8,
      0xB9#8]
    ∨ o ∈ [0x76#8, 0xB3#8, 0xC0#8, 0xE0#8, 0xC4#8, 0xE1#8, 0xE2#8, 0x92#8, 0xA3#8, 0xA4#8, 0xB4#8]
    ∨ o ∈ [0xA1#8, 0xA6#8, 0xBC#8, 0xA0#8, 0xA2#8]
    ∨ o ∈ [0x90#8, 0x91#8, 0x93#8, 0x94#8]
    ∨ o ∈ [0x95#8, 0x96#8, 0xB5#8, 0x75#8, 0xB2#8]
    ∨ o ∈ [0x01#8, 0x0C#8, 0xB7#8, 0xD4#8, 0x03#8]
    ∨ o ∈ [0x02#8, 0x05#8]
    ∨ o ∈ [0xD0#8, 0xD2#8, 0xD3#8, 0xD1#8, 0xD5#8]
    ∨ o ∈ [0x04#8, 0x06#8, 0x48#8, 0x49#8, 0x4A#8, 0x4B#8, 0x4C#8, 0x4D#8, 0x52#8, 0x8A#8, 0x8E#8, 0xA5#8, 0xB0#8] := by
  decide +kernel

/-- The rows with an argument of their own. -/
theorem faithful_alone {r : Raw} (h : r.opc ∈ [0x04#8, 0x06#8, 0x48#8, 0x49#8, 0x4A#8, 0x4B#8, 0x4C#8, 0x4D#8, 0x52#8, 0x8A#8, 0x8E#8,
    0xA5#8, 0xB0#8]) : r.Faithful := by
  simp only [List.mem_cons, List.not_mem_nil, or_false] at h
  rcases h with h | h | h | h | h | h | h | h | h | h | h | h | h
  exacts [faithful_join h, faithful_ret h, faithful_cvt h, faithful_cvtpk h, faithful_cvtup h, faithful_mxq h, faithful_mxdq h,
    faithful_cblu h, faithful_sel h, faithful_swr h, faithful_dcvt h, faithful_ald h, faithful_fence h]

theorem faithful_of_rowOpc {r : Raw} (h : rowOpc r.opc = true) : r.Faithful := by
  rcases rowOpc_cases _ h with h | h | h | h | h | h | h | h | h | h | h | h | h | h | h | h
  exacts [faithful_bare h, faithful_oneOperand h, faithful_oneSource h, faithful_intAndBit h, faithful_float h, faithful_oneSourceByKind h,
    faithful_twoSources h, faithful_scalar h, faithful_offset h, faithful_store h, faithful_access h, faithful_range h, faithful_parts h,
    faithful_jump h, faithful_matrix h, faithful_alone h]

theorem rowOpc_rawOf {i : Instr} (hudf : i ≠ .udf) (hill : ∀ o, i ≠ .illegalOpcode o) : (rawOf i).all (fun r => rowOpc r.opc) = true := by
  cases i
  case udf => exact absurd rfl hudf
  case illegalOpcode o => exact absurd rfl (hill o)
  all_goals rfl

theorem rowOpc_iff (o : BitVec 8) : rowOpc o = true ↔ assignedOpc o.toNat = true ∧ o ≠ 0x0D#8 ∧ o ≠ 0xFF#8 := by
  simp only [rowOpc, Bool.and_eq_true, decide_eq_true_eq, and_assoc]

theorem decode_rawOf {i : Instr} (hwf : WellFormed i) {r : Raw} (hr : rawOf i = some r) (hudf : i ≠ .udf) (hill : ∀ o, i ≠ .illegalOpcode o) :
    decode (wordOfRaw r) = .ok i := by
  have hopc : rowOpc r.opc = true := by simpa [hr] using rowOpc_rawOf hudf hill
  have hread := instrOfRaw_rawOf hwf hr hudf hill
  have hchecks : r.Checks := (faithful_of_rowOpc hopc).mpr (by rw [hread]; exact ⟨hwf, hr⟩)
  have hpasses : (rawOfWord (wordOfRaw r)).Passes := by
    rw [rawOfWord_wordOfRaw]
    exact ⟨(rowOpc_iff _).mp hopc, hchecks⟩
  rw [decode_of_passes hpasses, rawOfWord_wordOfRaw, hread]

/-! ## Slots of a pair word (R74-R76) -/

theorem slotSrcOf_slotSrcCode (x : SlotSrc) : slotSrcOf (slotSrcCode x) = x := by
  cases x <;> (rename_i n; revert n; decide)

theorem slotSrcCode_slotSrcOf (x : BitVec 7) : slotSrcCode (slotSrcOf x) = x := by revert x; decide

/-- What `slotModOk` asks of a slot's opcode and MOD. -/
def slotModFits (o : Nat) (m : BitVec 8) : Bool :=
  if o = 0x52 then decide (m &&& 0xF8#8 = 0#8)
  else decide (m &&& ~~~(modMask o) = 0#8) && (!(decide (0x30 ≤ o) && decide (o ≤ 0x44)) || rmOk m)

theorem slotModOk_eq (x : Slot44) : slotModOk x = slotModFits (slotOpc x) (slotMod x) := rfl

/-- The slot opcodes (R75). -/
def slotOpcs : List Nat :=
  [0x10, 0x11, 0x12, 0x13, 0x14, 0x15, 0x16, 0x17, 0x18, 0x20, 0x21, 0x22, 0x23, 0x24, 0x25, 0x30, 0x31, 0x32, 0x33, 0x34, 0x35, 0x40, 0x41,
    0x42, 0x43, 0x44, 0x52, 0x55]

theorem mem_slotOpcs {o : Nat} {m : BitVec 8} {op : SlotOp} (h : slotOpOf o m = some op) : o ∈ slotOpcs := by
  by_contra hno
  simp only [slotOpcs, List.mem_cons, List.not_mem_nil, or_false, not_or] at hno
  unfold slotOpOf at h
  split at h <;> simp_all

/-- A MOD fits a slot's row when the operation read from it is well formed and has that MOD. -/
def slotRowOk (o : Nat) (m : BitVec 8) : Bool :=
  (slotOpOf o m).all fun op => decide (slotModFits o m = (op.wf && decide (slotOpCode op = (BitVec.ofNat 8 o, m))))

theorem slotRowOk_all : ∀ o ∈ slotOpcs, ∀ m, slotRowOk o m = true := by decide +kernel

theorem slotModFits_iff {o : Nat} {m : BitVec 8} {op : SlotOp} (h : slotOpOf o m = some op) :
    slotModFits o m = true ↔ op.wf = true ∧ slotOpCode op = (BitVec.ofNat 8 o, m) := by
  have hrow := slotRowOk_all o (mem_slotOpcs h) m
  rw [slotRowOk, h, Option.all_some, decide_eq_true_eq] at hrow
  rw [hrow, Bool.and_eq_true, decide_eq_true_eq]

theorem slotOpOf_slotOpCode (op : SlotOp) : slotOpOf (slotOpCode op).1.toNat (slotOpCode op).2 = some op := by
  cases op with
  | iadd m | isub m | imul m | imulh m | imad m | idiv m | irem m | imin m | imax m =>
    conv_lhs => whnf
    simp only [slotOpCode, intModOf_intModCode]
  | fadd m | fsub m | fmul m | ffma m | fmin m | fmax m =>
    conv_lhs => whnf
    simp only [slotOpCode, fpModOf_fpModCode]
  | hadd2 m | hmul2 m | hfma2 m | hmin2 m | hmax2 m =>
    conv_lhs => whnf
    simp only [slotOpCode, halfModOf_halfModCode]
  | shr s => cases s <;> rfl
  | sel c => revert c; decide
  | and | or | xor | not | shl | mov => rfl


/-- The parts of a slot value (R74). -/
def slotOfParts (rsv : BitVec 3) (lb la : BitVec 1) (m : BitVec 8) (b a : BitVec 7) (d : BitVec 6) (guard : BitVec 3) (opc : BitVec 8) : Slot44 :=
  rsv ++ (lb ++ (la ++ (m ++ (b ++ (a ++ (d ++ (guard ++ opc)))))))

theorem slotOfParts_extract (x : Slot44) : slotOfParts (x.extractLsb' 41 3) (x.extractLsb' 40 1) (x.extractLsb' 39 1) (x.extractLsb' 31 8)
    (x.extractLsb' 24 7) (x.extractLsb' 17 7) (x.extractLsb' 11 6) (x.extractLsb' 8 3) (x.extractLsb' 0 8) = x := by
  simp only [slotOfParts]
  iterate 8 rw [BitVec.extractLsb'_append_extractLsb'_eq_extractLsb' (by rfl)]
  exact BitVec.extractLsb'_eq_self

/-- The parts of a slot value are where R74 places them. -/
theorem extract_slotOfParts {x : Slot44} {rsv : BitVec 3} {lb la : BitVec 1} {m : BitVec 8} {b a : BitVec 7} {d : BitVec 6} {guard : BitVec 3}
    {opc : BitVec 8} (h : x = slotOfParts rsv lb la m b a d guard opc) :
    x.extractLsb' 41 3 = rsv ∧ x.extractLsb' 40 1 = lb ∧ x.extractLsb' 39 1 = la ∧ x.extractLsb' 31 8 = m ∧ x.extractLsb' 24 7 = b
      ∧ x.extractLsb' 17 7 = a ∧ x.extractLsb' 11 6 = d ∧ x.extractLsb' 8 3 = guard ∧ x.extractLsb' 0 8 = opc := by
  have h := (slotOfParts_extract x).trans h
  obtain ⟨hrsv, h⟩ := append_inj h
  obtain ⟨hlb, h⟩ := append_inj h
  obtain ⟨hla, h⟩ := append_inj h
  obtain ⟨hm, h⟩ := append_inj h
  obtain ⟨hb, h⟩ := append_inj h
  obtain ⟨ha, h⟩ := append_inj h
  obtain ⟨hd, h⟩ := append_inj h
  obtain ⟨hguard, hopc⟩ := append_inj h
  exact ⟨hrsv, hlb, hla, hm, hb, ha, hd, hguard, hopc⟩

theorem bitAt_eq_decide {w : Nat} (x : BitVec w) (i : Nat) : bitAt x i = decide (x.extractLsb' i 1 = 1#1) := by
  have hbit (y : BitVec 1) : decide (y = 1#1) = y.getLsbD 0 := by revert y; decide
  rw [hbit, BitVec.getLsbD_extractLsb', Nat.add_zero]
  rfl

theorem fieldStage_iff {base : Nat} {x : Slot44} {op : SlotOp} (hop : slotOpOf (slotOpc x) (slotMod x) = some op) :
    slotFieldStage base x = none ↔ (op.oneSource = true → bitsNat x 24 7 = 0 ∧ bitAt x 40 = false)
      ∧ (op.wf = true ∧ slotOpCode op = (BitVec.ofNat 8 (slotOpc x), slotMod x)) ∧ bitsNat x 41 3 = 0 := by
  simp only [slotFieldStage, hop, firstBad_eq_none, List.forall_mem_cons, slotModOk_eq, slotModFits_iff hop, decide_eq_true_eq,
    Bool.or_eq_true, Bool.not_eq_true']
  cases op.oneSource <;> simp
  tauto

theorem slotInstr_wf_iff (x : SlotInstr) : x.wf = true ↔ x.op.wf = true ∧ (x.op.oneSource = true → x.b = .v 0 ∧ x.lb = false) := by
  cases h : x.op.oneSource <;> simp [SlotInstr.wf, h]

theorem slotSrcOf_eq_zero_iff (x : BitVec 7) : slotSrcOf x = .v 0 ↔ x.toNat = 0 := by revert x; decide

/-- A slot value that passes the field stage is the one value of a well-formed slot. -/
theorem slotWord_slotInstrOf {base : Nat} {x : Slot44} {op : SlotOp} (hop : slotOpOf (slotOpc x) (slotMod x) = some op)
    (hfields : slotFieldStage base x = none) : (slotInstrOf op x).wf = true ∧ slotWord (slotInstrOf op x) = x := by
  obtain ⟨hone, ⟨hwf, hcode⟩, hrsv⟩ := (fieldStage_iff hop).mp hfields
  constructor
  · refine (slotInstr_wf_iff _).mpr ⟨hwf, fun h => ?_⟩
    obtain ⟨hb, hlb⟩ := hone h
    exact ⟨(slotSrcOf_eq_zero_iff _).mpr hb, hlb⟩
  · have hguard (y : BitVec 3) : BitVec.ofNat 3 (Fin.ofNat 8 y.toNat).val = y := by revert y; decide
    have hd (y : BitVec 6) : BitVec.ofNat 6 (Fin.ofNat 64 y.toNat).val = y := by revert y; decide
    have hrsv : x.extractLsb' 41 3 = 0#3 := BitVec.eq_of_toNat_eq hrsv
    have hopc : BitVec.ofNat 8 (slotOpc x) = x.extractLsb' 0 8 := BitVec.ofNat_toNat _ _
    refine Eq.trans ?_ (slotOfParts_extract x)
    simp only [slotWord, slotInstrOf, hcode, hopc, bitAt_eq_decide, bit1_one, slotSrcCode_slotSrcOf, bitsNat, hguard, hd, slotOfParts, hrsv,
      slotMod]

theorem slotWord_eq_parts (s : SlotInstr) : slotWord s = slotOfParts 0#3 (bit1 s.lb) (bit1 s.la) (slotOpCode s.op).2 (slotSrcCode s.b)
    (slotSrcCode s.a) (BitVec.ofNat 6 s.d.val) (BitVec.ofNat 3 s.guard.val) (slotOpCode s.op).1 := rfl

theorem slotOp_fields {x : Slot44} {s : SlotInstr} (hx : x = slotWord s) :
    BitVec.ofNat 8 (slotOpc x) = (slotOpCode s.op).1 ∧ slotMod x = (slotOpCode s.op).2 ∧ slotOpOf (slotOpc x) (slotMod x) = some s.op := by
  obtain ⟨-, -, -, hm, -, -, -, -, hopc⟩ := extract_slotOfParts (hx.trans (slotWord_eq_parts s))
  have hopc' : slotOpc x = (slotOpCode s.op).1.toNat := congrArg BitVec.toNat hopc
  refine ⟨(BitVec.ofNat_toNat _ _).trans hopc, hm, ?_⟩
  rw [hopc', show slotMod x = _ from hm, slotOpOf_slotOpCode]

theorem slotInstrOf_slotWord {x : Slot44} {s : SlotInstr} (hx : x = slotWord s) : slotInstrOf s.op x = s := by
  obtain ⟨-, hlb, hla, -, hb, ha, hd, hguard, -⟩ := extract_slotOfParts (hx.trans (slotWord_eq_parts s))
  have hbit (y : Bool) : decide (bit1 y = 1#1) = y := by cases y <;> rfl
  have hg (n : Fin 8) : Fin.ofNat 8 (BitVec.ofNat 3 n.val).toNat = n := by revert n; decide
  have hn (n : Fin 64) : Fin.ofNat 64 (BitVec.ofNat 6 n.val).toNat = n := by revert n; decide
  simp only [slotInstrOf, bitAt_eq_decide, hlb, hla, ha, hb, bitsNat, hd, hguard, hbit, hg, hn, slotSrcOf_slotSrcCode]

/-- The value of a well-formed slot passes the field stage and is read as the slot. -/
theorem holdsSlot_of_slotWord {base : Nat} {w : IWord} {s : SlotInstr} (hw : w.extractLsb' base 44 = slotWord s) (hwf : s.wf = true) :
    HoldsSlot w base s := by
  obtain ⟨hopc, hmod, hop⟩ := slotOp_fields hw
  obtain ⟨hwfop, hone⟩ := (slotInstr_wf_iff s).mp hwf
  obtain ⟨hrsv, -⟩ := extract_slotOfParts (hw.trans (slotWord_eq_parts s))
  have hread := slotInstrOf_slotWord hw
  refine ⟨(fieldStage_iff hop).mpr ⟨fun h => ?_, ⟨hwfop, by rw [hopc, hmod]⟩, congrArg BitVec.toNat hrsv⟩, hop, hread⟩
  obtain ⟨hb, hlb⟩ := hone h
  exact ⟨(slotSrcOf_eq_zero_iff _).mp ((congrArg SlotInstr.b hread).trans hb), (congrArg SlotInstr.lb hread).trans hlb⟩

/-! ## Words (R78) -/

theorem word_of_pair (w : IWord) : w.extractLsb' 52 44 ++ (w.extractLsb' 8 44 ++ w.extractLsb' 0 8) = w := by
  iterate 2 rw [BitVec.extractLsb'_append_extractLsb'_eq_extractLsb' (by rfl)]
  exact BitVec.extractLsb'_eq_self

theorem parts_of_pairWord {w : IWord} {x y : Slot44} {o : BitVec 8} (h : w = y ++ (x ++ o)) :
    w.extractLsb' 52 44 = y ∧ w.extractLsb' 8 44 = x ∧ w.extractLsb' 0 8 = o := by
  obtain ⟨hy, hrest⟩ := append_inj ((word_of_pair w).trans h)
  exact ⟨hy, append_inj hrest⟩

theorem decode_encodePair {x y : SlotInstr} (hwf : WellFormed (.pair x y)) {w : IWord} (hw : encode (.pair x y) = some w) :
    decode w = .ok (.pair x y) := by
  simp only [WellFormed, Instr.wf, Bool.and_eq_true, Option.isNone_iff_eq_none] at hwf
  obtain ⟨⟨hx, hy⟩, hpair⟩ := hwf
  obtain ⟨hwy, hwx, hopc⟩ := parts_of_pairWord (Option.some.inj hw).symm
  exact (decode_pairWord hopc).trans (decodePair_of_slots (holdsSlot_of_slotWord hwx hx) (holdsSlot_of_slotWord hwy hy) hpair)

theorem encode_eq_rawOf {i : Instr} (h : ∀ x y, i ≠ .pair x y) : encode i = (rawOf i).map wordOfRaw := by
  unfold encode
  split
  · exact absurd rfl (h _ _)
  · rfl

theorem decode_encode_illegalOpcode {o : BitVec 8} (hwf : WellFormed (.illegalOpcode o)) {w : IWord} (hw : encode (.illegalOpcode o) = some w) :
    decode w = .ok (.illegalOpcode o) := by
  have hfree : assignedOpc o.toNat = false := by simpa [WellFormed, Instr.wf] using hwf
  have hudf : o ≠ 0x0D#8 := by
    rintro rfl
    cases hfree
  obtain rfl := Option.some.inj hw
  simp [decode, rawOfWord_wordOfRaw, headRaw, hudf, hfree]

/-- Settles O2: UDF and an unassigned opcode are decoded by their opcode, a pair slot by slot, and every other word by its row. -/
theorem decodeOfEncode : Obligations.DecodeOfEncode := by
  intro i w hwf hw
  by_cases hpair : ∀ x y, i ≠ .pair x y
  · by_cases hill : ∀ o, i ≠ .illegalOpcode o
    · by_cases hudf : i = .udf
      · subst hudf
        obtain rfl := Option.some.inj hw
        simp [decode, rawOfWord_wordOfRaw, headRaw]
      · rw [encode_eq_rawOf hpair] at hw
        obtain ⟨r, hr, rfl⟩ := Option.map_eq_some_iff.mp hw
        exact decode_rawOf hwf hr hudf hill
    · obtain ⟨o, rfl⟩ := not_forall_not.mp hill
      exact decode_encode_illegalOpcode hwf hw
  · simp only [not_forall, not_not] at hpair
    obtain ⟨x, y, rfl⟩ := hpair
    exact decode_encodePair hwf hw

theorem encode_decodePair {w : IWord} {i : Instr} (hopc : (rawOfWord w).opc = 0xFF#8) (h : decodePair w = .ok i) :
    WellFormed i ∧ encode i = some w := by
  unfold decodePair at h
  simp only at h
  split at h
  · cases h
  next hx =>
  split at h
  · cases h
  next hy =>
  split at h
  next ox oy hox hoy =>
    split at h
    · cases h
    next hbreaks =>
    obtain rfl := Except.ok.inj h
    obtain ⟨hwx, hcx⟩ := slotWord_slotInstrOf hox hx
    obtain ⟨hwy, hcy⟩ := slotWord_slotInstrOf hoy hy
    refine ⟨by simp only [WellFormed, Instr.wf, hwx, hwy, hbreaks, Option.isNone_none, Bool.and_self], ?_⟩
    rw [encode, hcx, hcy, ← hopc]
    exact congrArg some (word_of_pair w)
  · cases h

/-- Settles O3: a word other than a pair passes the stages of R78 just when its instruction is well formed and has these fields. -/
theorem encodeOfDecode : Obligations.EncodeOfDecode := by
  intro w i h hudf hill
  by_cases hpair : (rawOfWord w).opc = 0xFF#8
  · rw [decode_pairWord hpair] at h
    exact encode_decodePair hpair h
  simp only [decode] at h
  split at h
  · exact absurd (Except.ok.inj h).symm hudf
  next hopc =>
  split at h
  · exact absurd (Except.ok.inj h).symm (hill _)
  next hassigned =>
  split at h
  · cases h
  next hfield =>
  split at h
  · cases h
  next hoperand =>
  obtain rfl := Except.ok.inj h
  have hrow : rowOpc (rawOfWord w).opc = true := (rowOpc_iff _).mpr ⟨by simpa using hassigned, hopc, hpair⟩
  obtain ⟨hwf, hraw⟩ := (faithful_of_rowOpc hrow).mp ⟨hfield, hoperand⟩
  refine ⟨hwf, ?_⟩
  have hnotPair (x y : SlotInstr) : instrOfRaw (rawOfWord w) ≠ .pair x y := by
    intro hi
    rw [hi] at hraw
    cases hraw
  rw [encode_eq_rawOf hnotPair, hraw, Option.map_some, wordOfRaw_rawOfWord]

end Sys2Proof

/-!
One step, and what reset leaves.
-/
namespace Sys2Proof.Machine

theorem step_done {s t : State} (h : nextMove s = .done t) : step s = .next (settle t) := by simp [step, h]

theorem step_run {s t : State} {i : Instr} (h : nextMove s = .run i t) : step s = settled (exec i t) := by simp [step, h]

/-- The pair `(g, x)` is offered for issue in `t`: the agenda names it and its turn has come, or the default order chooses it (R209). -/
def Offered (s t : State) (g : Gang) (x : PcSlot) : Prop :=
  (∃ id rest, s.agenda = .issue id x :: rest ∧ findGang s id = some g ∧ issueTurn s g x = true ∧ t = { s with agenda := rest })
    ∨ (s.agenda = [] ∧ defaultIssue t = some (g, x) ∧ (s.turn = true ∨ defaultEvent s = none)
        ∧ t = { s with turn := !s.turn, tick := s.tick + 1 })

theorem defaultMove_issue {s t : State} {g : Gang} {x : PcSlot} (ht : t = { s with turn := !s.turn, tick := s.tick + 1 })
    (hissue : defaultIssue t = some (g, x)) (hturn : s.turn = true ∨ defaultEvent s = none) : defaultMove s = issueMove t g x := by
  subst ht
  unfold defaultMove
  simp only [hissue]
  rcases hturn with hturn | hevent
  · simp only [hturn]
  · cases hturn : s.turn <;> simp only [hevent]

theorem nextMove_of_offered {s t : State} {g : Gang} {x : PcSlot} (h : Offered s t g x) (hlost : s.deviceLost = false) :
    nextMove s = issueMove t g x := by
  rcases h with ⟨id, rest, hagenda, hg, hturn, rfl⟩ | ⟨hagenda, hissue, hturn, ht⟩
  · simp [nextMove, hagenda, hlost, hg, hturn]
  · simp only [nextMove, hagenda, hlost, Bool.false_eq_true, if_false]
    exact defaultMove_issue ht hissue hturn

theorem issueMove_begun {s : State} {g : Gang} {x : PcSlot} {p : Pend} (hready : pairReady s g x = true) (hp : begunIn s g.id x = some p) :
    issueMove s g x = .run p.instr { s with cur := { g := g.id, slot := x } } := by
  simp [issueMove, hready, hp]

/-- What an issue opportunity does with the word it finds, of a pair that holds no instruction it has begun. -/
theorem issueMove_fresh {s : State} {g : Gang} {x : PcSlot} (hready : pairReady s g x = true) (hfresh : begunIn s g.id x = none) :
    issueMove s g x = match fetchLook s g (g.arch.slot x).pc with
      | .miss va => .run (.instructionFetchFill g.id va.toNat) s
      | .trap cause tval => wordTrap s g x cause tval (g.arch.slot x).pc
      | .word w =>
        match decode w with
        | .error e => wordTrap (beginIssue s g x w) (match findGang (beginIssue s g x w) g.id with
            | some g => g
            | none => g) x e.cause e.tval (g.arch.slot x).pc
        | .ok i => if interlocked s g x w i then .done s else .run i (beginIssue s g x w) := by
  simp only [issueMove, hready, hfresh, Bool.not_true, Bool.false_eq_true, if_false] <;> rfl

theorem wordTrap_clear {s : State} {g : Gang} (hclear : olderRisk s g.id s.nextOp = false) (x : PcSlot) (cause : BitVec 8) (tval : BitVec 64)
    (pc : BitVec 32) : wordTrap s g x cause tval pc
      = .done (takeTrap s { g with arch := { g.arch with trapGate := false } } x cause tval (pc.setWidth 64) 0#5) := by
  simp [wordTrap, hclear]

end Sys2Proof.Machine

namespace Sys2Proof
open Machine

/-- Settles O4: the move is the issue opportunity of the pair that is offered, and runs what is fetched and decoded for it. -/
theorem stepRunsDecoded : Obligations.StepRunsDecoded := by
  refine ⟨fun s t g x hoffer hlost hready => ?_, ?_, ?_⟩
  · have hmove := nextMove_of_offered hoffer hlost
    refine ⟨fun p hp => step_run (hmove.trans (issueMove_begun hready hp)), fun hfresh => ?_⟩
    rw [issueMove_fresh hready hfresh] at hmove
    refine ⟨fun w hw => ⟨fun i hi hfree => ?_, fun e g' he hg' hclear => ?_⟩, fun va hva => ?_, fun cause tval htrap hclear => ?_⟩
    · exact step_run (by simpa only [hw, hi, hfree, Bool.false_eq_true, if_false] using hmove)
    · have hid : g'.id = g.id := by simpa using List.find?_some hg'
      simp only [hw, he, hg'] at hmove
      exact step_done (hmove.trans (wordTrap_clear (hid.symm ▸ hclear) ..))
    · exact step_run (by simpa only [hva] using hmove)
    · simp only [htrap] at hmove
      exact step_done (hmove.trans (wordTrap_clear hclear ..))
  · rintro s t i rest hagenda rfl hlost htakes
    exact step_run (by simp [nextMove, hagenda, hlost, htakes])
  · intro s hagenda hlost
    exact step_done (by simp [nextMove, hagenda, hlost])

/-- Settles O5: memory, the lists of units and the registers of the page are written out in the reset state. -/
theorem resetLeaves : Obligations.ResetLeaves := by
  unfold Obligations.ResetLeaves
  refine ⟨?a, ?b, ?_⟩
  case a => decide +kernel
  case b => exact fun g hg => nomatch hg
  exact ⟨rfl, rfl, rfl, rfl, rfl, rfl, rfl, rfl, rfl, rfl, rfl, rfl, rfl, rfl, rfl, rfl⟩

end Sys2Proof

/-!
Register instructions that execute (O7 to O11): beside what an instruction writes, how many run slots its writes take at most.
-/
namespace Sys2Proof
open Machine

/-- The vector registers that an operation writes. -/
def RegOp.vdests (op : RegOp) (c : Ctx) : List Written := (op.written c).filter fun w => w.vdest.isSome

/-- The writes `w` take at most 32 run slots for each vector register that the row names (R88, R95). -/
def TakesRuns (op : RegOp) (w : Ctx → Arch → Arch) : Prop :=
  ∀ c x, heldSlots (w c x) ≤ heldSlots x + 32 * (op.vdests c).length

/-- The instruction is executed as its row says, with writes of at most 32 run slots each. -/
def Executes (op : RegOp) (i : Instr) : Prop := ∃ w, Computes op w i ∧ TakesRuns op w

theorem heldSlots_writeLanes_le (old x : Arch) (act : Mask) (d : Opnd) (cut : Nat → Bool) (val : Nat → Word) (f : Ctx → Nat → Word) :
    heldSlots (writeLanes old x act d cut val) ≤ heldSlots x + 32 * ([Written.lanes d f].filter fun w => w.vdest.isSome).length := by
  cases d with
  | v n =>
    have hset := heldSlots_setV_le x n (some (writeRuns (old.vreg n) act cut val))
    have hlength : vregSlots (some (writeRuns (old.vreg n) act cut val)) ≤ 32 := length_writeRuns_le _ _ _ _
    exact hset.trans (Nat.add_le_add_left hlength _)
  | s | p | sr | zero | imm => exact Nat.le_add_right _ _

theorem heldSlots_writeLanesMax_le (old x : Arch) (act : Mask) (d : Opnd) (val : Nat → Word) (f : Ctx → Nat → Word) :
    heldSlots (writeLanesMax old x act d val) ≤ heldSlots x + 32 * ([Written.lanes d f].filter fun w => w.vdest.isSome).length := by
  cases d with
  | v n =>
    have hset := heldSlots_setV_le x n (some (writeMax (old.vreg n) act val))
    have hlength : vregSlots (some (writeMax (old.vreg n) act val)) ≤ 32 := length_writeMax_le _ _ _
    exact hset.trans (Nat.add_le_add_left hlength _)
  | s | p | sr | zero | imm => exact Nat.le_add_right _ _

theorem heldSlots_advanceGens_if (p : Prop) [Decidable p] (act : Mask) (x : Arch) :
    heldSlots (if p then advanceGens act x else x) = heldSlots x := by
  split
  · simp only [heldSlots, advanceGens]
  · rfl

/-! ## Rows -/

theorem executes_laneRow {i : Instr} {h : Head} {d : Opnd} {srcs : List Opnd} {marks : Reads} {f : Ctx → Nat → Word × BitVec 8}
    (hexec : ∀ s, exec i s = issue s h.guard fun c => laneArith c d srcs marks (f c)) : Executes (laneRow h d srcs marks f) i :=
  ⟨fun c x => writeLanes c.a x c.act d (cutsOf c srcs) fun k => (f c k).1,
    ⟨hexec, fun _ _ _ hgen => wrote_writeLanes hgen d _ fun c k => (f c k).1⟩, fun _ _ => heldSlots_writeLanes_le _ _ _ _ _ _ _⟩

theorem executes_bitRow {i : Instr} {h : Head} {d : Opnd} {srcs : List Opnd} {marks : Reads} {f : Ctx → Nat → Bool × BitVec 8}
    (hexec : ∀ s, exec i s = issue s h.guard fun c => predArith c d srcs marks (f c)) : Executes (bitRow h d srcs marks f) i :=
  ⟨fun c x => writePred x c.act d (maskOf fun k => (f c k).1),
    ⟨hexec, fun _ _ hp hgen => wrote_writePred hgen hp d fun k hk => inMask_maskOf _ k hk⟩,
    fun _ _ => (heldSlots_writePred _ _ _ _).le.trans (Nat.le_add_right _ _)⟩

theorem executes_scalarRow {i : Instr} {h : Head} {d : Opnd} {srcs : List Opnd} {marks : Reads} {f : Ctx → DWord × BitVec 8}
    (hexec : ∀ s, exec i s = issue s h.guard fun c => scalarArith c d srcs marks (f c)) : Executes (scalarRow h d srcs marks f) i :=
  ⟨fun c x => writeScalar x d (f c).1, ⟨hexec, fun _ _ _ hgen => wrote_writeScalar hgen d fun c => (f c).1⟩,
    fun _ _ => (heldSlots_writeScalar _ _ _).le.trans (Nat.le_add_right _ _)⟩

/-- A conversion whose row takes each lane's draw from the registers as they entered (R121). -/
theorem executes_convRow {i : Instr} {h : Head} {d : Opnd} {srcs : List Opnd} {marks : Reads} {rm : Rm}
    {f : Ctx → Rm → Nat → Word × BitVec 8} {g : Ctx → Nat → Nat → Word × BitVec 8}
    (hexec : ∀ s, exec i s = issue s h.guard fun c => convArith c d srcs marks (effRmConv c.a.fpmode rm) (g c))
    (hdraw : ∀ c k, g c k (drawAt c.a k) = f c (effRmConv c.a.fpmode rm) k) : Executes (convRow h d srcs marks rm f) i := by
  refine ⟨fun c x =>
    let y := writeLanes c.a x c.act d (cutsOf c srcs) fun k => (f c (effRmConv c.a.fpmode rm) k).1
    if effRmConv c.a.fpmode rm = .sr then advanceGens c.act y else y, ⟨fun s => ?_, fun c x _ hgen => ?_⟩, fun c x => ?_⟩
  · rw [hexec s]
    simp only [convArith, hdraw]
    rfl
  · exact (wrote_writeLanes hgen d (cutsOf c srcs) fun c k => (f c (effRmConv c.a.fpmode rm) k).1).advanceGens_if (sdest_lanes d _) _
  · dsimp only
    rw [heldSlots_advanceGens_if]
    exact heldSlots_writeLanes_le _ _ _ _ _ _ _

/-- A cross-lane instruction (R183). -/
theorem executes_crossRow {i : Instr} {h : Head} {d a : Opnd} {others : List Opnd} {marks : Reads} {ra : Ctx → Mask}
    {flags : Ctx → BitVec 8} {written : Written} {w : Ctx → Arch → Arch}
    (hwrote : ∀ c x, x.p = c.a.p → x.gen = c.a.gen → Wrote [written] c.a.gen c x (w c x))
    (hslots : ∀ c x, heldSlots (w c x) ≤ heldSlots x + 32 * ([written].filter fun w => w.vdest.isSome).length)
    (hexec : ∀ s, exec i s = issue s h.guard fun c => crossArith c d a (ra c) others marks (flags c) (w c)) :
    Executes (crossRow h d a others marks ra flags written) i :=
  ⟨w, ⟨hexec, hwrote⟩, hslots⟩

theorem executes_mxq (h : Head) (d a e : Opnd) (m : CvtMod) {op : RegOp} (hop : regConvert (.mxq h d a e m) = some op) :
    Executes op (.mxq h d a e m) := by
  cases hop
  refine ⟨fun c x =>
    let y := writeLanes c.a x c.act d (cutsOf c [a]) fun k => (mxqLane c a m k).1
    writeScalar (if m.rm = .sr then advanceGens c.act y else y) e (mxqCode c a m), ⟨fun _ => rfl, fun c _ _ hgen => ?_⟩, fun c x => ?_⟩
  · exact ((wrote_writeLanes hgen d (cutsOf c [a]) fun c k => (mxqLane c a m k).1).advanceGens_if (sdest_lanes d _) _).writeScalar
      (sdest_lanes d _) e fun c => mxqCode c a m
  · dsimp only
    rw [heldSlots_writeScalar, heldSlots_advanceGens_if]
    exact (heldSlots_writeLanes_le _ _ _ _ _ _ fun c k => (mxqLane c a m k).1).trans
      (Nat.add_le_add_left (Nat.mul_le_mul_left _ (((List.sublist_append_left _ _).filter _).length_le)) _)

theorem executes_srseed (h : Head) (a : Opnd) {op : RegOp} (hop : regConvert (.srseed h a) = some op) : Executes op (.srseed h a) := by
  cases hop
  refine ⟨fun c x =>
    { x with
        gen := Vector.ofFn fun i => if inMask c.act i.val then genSeed ((scalarOf c a).setWidth 32) i.val else x.gen.get i },
    computes_of_noFlags (d := .zero) rfl rfl rfl (fun _ => rfl) fun c x _ hgen => ?_, fun c x => ?_⟩
  · dsimp only
    rw [hgen]
    exact (Wrote.discarded (w := .lanes .zero fun _ _ => 0#32) (x := x) rfl trivial).withGens _ (sdest_lanes .zero _)
  · simp only [heldSlots]
    exact Nat.le_add_right _ _

theorem executes_pmov_lanes {h : Head} {d a : Opnd} (hp : ∀ n, d ≠ .p n) (hs : ∀ n, d ≠ .s n) :
    Executes (laneRow h d [a] (headKills h a .zero .zero) fun c k => noFlag (laneOf c a k)) (.pmov h d a) := by
  cases d with
  | p n => exact absurd rfl (hp n)
  | s n => exact absurd rfl (hs n)
  | v | sr | zero | imm => exact executes_laneRow fun _ => rfl

/-- MOV is lane-wise or a normalising write (R90, R170). -/
theorem executes_mov (h : Head) (d a : Opnd) :
    Executes (laneRow h d [a] (headKills h a .zero .zero) fun c k => noFlag (laneOf c a k)) (.mov h d a) := by
  cases hmov : movLaneWise a with
  | true =>
    exact executes_laneRow fun s => by
      change execMov h d a s = _
      simp only [execMov, hmov, if_true]
  | false =>
    refine ⟨fun c x => writeLanesMax c.a x c.act d fun k => laneOf c a k, computes_of_noFlags (d := d) rfl rfl rfl (fun s => ?_)
      fun c _ _ hgen => wrote_writeLanesMax hgen d fun c k => laneOf c a k, fun _ _ => heldSlots_writeLanesMax_le _ _ _ _ _ _⟩
    change execMov h d a s = _
    simp only [execMov, hmov]
    rfl

theorem executes_vote_bits {h : Head} {d a : Opnd} {mode : VoteMode} (hv : ∀ n, d ≠ .v n) (hs : ∀ n, d ≠ .s n) :
    Executes (crossRow h d a [] (headKills h a .zero .zero) (fun c => c.act) (fun _ => 0#8)
      (.bits d fun c k => voteBit mode (tileActive c.act (tileSize c.a) k) (maskOfOpnd c a))) (.vote h d a mode) := by
  cases d with
  | v n => exact absurd rfl (hv n)
  | s n => exact absurd rfl (hs n)
  | p | sr | zero | imm =>
    exact executes_crossRow (fun _ _ hp hgen => wrote_writePred hgen hp _ fun k hk => inMask_maskOf _ k hk)
      (fun _ _ => (heldSlots_writePred _ _ _ _).le.trans (Nat.le_add_right _ _)) fun _ => rfl

/-! ## Tables -/

theorem regInt_executes {i : Instr} {op : RegOp} (h : regInt i = some op) : Executes op i := by
  unfold regInt at h
  split at h <;> cases h <;> exact executes_laneRow fun _ => rfl

theorem regFp_executes {i : Instr} {op : RegOp} (h : regFp i = some op) : Executes op i := by
  unfold regFp at h
  split at h <;> cases h <;> exact executes_laneRow fun _ => rfl

theorem regConvert_executes {i : Instr} {op : RegOp} (h : regConvert i = some op) : Executes op i := by
  have hop := h
  unfold regConvert at h
  split at h <;> cases h
  case h_1 | h_2 | h_3 => exact executes_convRow (fun _ => rfl) fun _ _ => rfl
  case h_4 => exact executes_mxq _ _ _ _ _ hop
  case h_5 | h_6 => exact executes_laneRow fun _ => rfl
  case h_7 => exact executes_srseed _ _ hop
  case h_8 => exact executes_scalarRow fun _ => rfl

theorem regSelect_executes {i : Instr} {op : RegOp} (h : regSelect i = some op) : Executes op i := by
  unfold regSelect at h
  split at h <;> cases h
  case h_1 | h_2 | h_4 | h_5 => exact executes_bitRow fun _ => rfl
  case h_3 => exact executes_laneRow fun _ => rfl
  case h_6 => exact executes_scalarRow fun _ => rfl
  case h_7 hp hs => exact executes_pmov_lanes hp hs
  case h_8 => exact executes_mov _ _ _

theorem regCross_executes {i : Instr} {op : RegOp} (h : regCross i = some op) : Executes op i := by
  unfold regCross at h
  split at h <;> cases h
  case h_1 | h_2 =>
    exact executes_crossRow (fun _ _ _ hgen => wrote_writeLanesMax hgen _ _) (fun _ _ => heldSlots_writeLanesMax_le _ _ _ _ _ _) fun _ => rfl
  case h_5 =>
    exact executes_crossRow (fun _ _ _ hgen => wrote_writeScalar hgen _ _)
      (fun _ _ => (heldSlots_writeScalar _ _ _).le.trans (Nat.le_add_right _ _)) fun _ => rfl
  case h_6 hv hs => exact executes_vote_bits hv hs
  case h_8 =>
    exact executes_crossRow (fun _ _ hp hgen => wrote_writePred hgen hp _ fun k hk => inMask_maskOf _ k hk)
      (fun _ _ => (heldSlots_writePred _ _ _ _).le.trans (Nat.le_add_right _ _)) fun _ => rfl
  all_goals
    exact executes_crossRow (fun _ _ _ hgen => wrote_writeLanes hgen _ _ _) (fun _ _ => heldSlots_writeLanes_le _ _ _ _ _ _ _) fun _ => rfl

/-- An instruction that runs commits: its writes fit, and where an older instruction may still trap it holds as many run slots as before. -/
theorem Executes.completes {op : RegOp} {i : Instr} {s : State} {c : Ctx} (h : Executes op i) (henters : Enters s op.head.guard c)
    (hruns : op.Runs c) : ∃ t a, exec i s = .next t ∧ op.Done c a ∧ ∃ b, OnlyRegisters c b t ∧ b = { a with borrowed := b.borrowed, kept := b.kept } := by
  obtain ⟨w, hop, hslots⟩ := h
  obtain ⟨horder, hact, hlive, hcheck, hexc, hroom⟩ := hruns
  have hframe := killRegs_frame c.a op.marks
  have hdone := RegOp.done_of_wrote (hop.wrote c (killRegs c.a op.marks) (by rw [hframe]) (by rw [hframe]))
  have hmay : MayCommit c ((raiseFlags (w c (killRegs c.a op.marks)) (op.flags c)).advance c.x) :=
    horder.symm.imp_left fun ⟨hdest, hmarks⟩ => hdone.heldSlots_eq hmarks hdest
  have hfits : heldSlots ((raiseFlags (w c (killRegs c.a op.marks)) (op.flags c)).advance c.x) ≤ slotLimit c.s c.g := by
    rw [heldSlots_advance, heldSlots_raiseFlags]
    calc heldSlots (w c (killRegs c.a op.marks)) ≤ heldSlots (killRegs c.a op.marks) + 32 * (op.vdests c).length := hslots _ _
      _ ≤ heldSlots c.a + 32 * (op.vdests c).length := Nat.add_le_add_right (heldSlots_killRegs _ _) _
      _ ≤ slotLimit c.s c.g := hroom
  obtain ⟨t, b, hcommit, honly, hb⟩ := henters.commit_onlyRegisters hmay (.inr hfits)
  exact ⟨t, _, (hop.exec_of_noException henters hact hlive hcheck hexc).trans hcommit, hdone, b, honly, hb⟩

theorem completes_of_executes {table : Instr → Option RegOp} (h : ∀ {i op}, table i = some op → Executes op i) : Completes table :=
  fun _ _ _ _ hop henters hruns => (h hop).completes henters hruns

/-- Settles O7: every row of the table is executed lane by lane. -/
theorem vectorIntegerResults : Obligations.VectorIntegerResults := completes_of_executes regInt_executes

/-- Settles O8: every row of the table is executed lane by lane. -/
theorem vectorFloatResults : Obligations.VectorFloatResults := completes_of_executes regFp_executes

/-- Settles O9: every row of the table is executed lane by lane, or as a scalar, and advances the generators that it names. -/
theorem conversionResults : Obligations.ConversionResults := completes_of_executes regConvert_executes

/-- Settles O10: every row of both tables is executed with its one write. -/
theorem selectAndCrossLaneResults : Obligations.SelectAndCrossLaneResults :=
  ⟨completes_of_executes regSelect_executes, completes_of_executes regCross_executes⟩

theorem runs_scmpIntoVector {op : RegOp} (hop : regScalar scmpIntoVector = some op) : op.Runs openDestCtx := by
  cases hop
  refine ⟨.inl (by decide +kernel), by decide, by decide +kernel, by decide +kernel, by decide +kernel, by decide +kernel⟩

/-- Refutes O11, in its first clause, which asks it of terms that are not well formed too: an SCMP that names an open vector register
as its destination raises RUN_LENGTH (`exec_scmpIntoVector`), where its row of `regScalar` checks no old destination. No such word
decodes (R174). -/
theorem not_scalarAndPairResults : ¬ Obligations.ScalarAndPairResults := by
  rintro ⟨hscalar, -⟩
  obtain ⟨t, a, hexec, hdone, b, ⟨hgang, -, -⟩, hb⟩ := hscalar scmpIntoVector _ openDestState openDestCtx rfl enters_openDest
    (runs_scmpIntoVector rfl)
  have hrunning : gangModeAfter (exec scmpIntoVector openDestState) openDestGang.id = some b.mode := by
    rw [hexec]
    exact congrArg (Option.map fun g => g.arch.mode) hgang
  have hmode : b.mode = .running := by
    obtain ⟨-, -, hmode, -⟩ := hdone.control
    rw [hb]
    exact hmode
  rw [gangModeAfter_scmpIntoVector, hmode] at hrunning
  cases hrunning

end Sys2Proof

/-!
Traps that an instruction raises, the entry to a handler and the return from it (O20 to O22).
-/
namespace Sys2Proof
open Machine

section
variable {s : State} {guard : Guard} {c : Ctx} (henters : Enters s guard c)
include henters

/-- A trap at lane 0 is taken once no older instruction of the gang may still trap (R97). -/
theorem Enters.trap_of_clear (hclear : c.clear = true) (cause : BitVec 8) (tval : BitVec 64) :
    c.trap cause tval = .next (takeTrap s c.g c.x cause tval (c.pc.setWidth 64) 0#5) := by
  rw [Ctx.trap, halt_trap_of_clear hclear, henters.state_eq]

theorem Enters.issue_trap (cause : BitVec 8) (tval : BitVec 64) :
    (c.clear = true → issue s guard (fun c => c.trap cause tval) = .next (takeTrap s c.g c.x cause tval (c.pc.setWidth 64) 0#5))
      ∧ (c.clear = false → issue s guard (fun c => c.trap cause tval) = c.hold .order) := by
  rw [issue_eq henters.here henters.clean]
  exact ⟨fun hclear => henters.trap_of_clear hclear _ _, fun hclear => halt_of_not_clear hclear _⟩
end

theorem exec_trap_of_lane {h : Head} {a : Opnd} {s : State} {c : Ctx} (henters : Enters s h.guard c)
    (hlive : deadCheck c.a (single [a]) = none) (hact : c.act ≠ 0#32) (hpoison : wordPoison c.a a = false) (hclear : c.clear = true) :
    exec (.trap h a) s = .next (takeTrap s c.g c.x cSoftware (scalarOf c a) (c.pc.setWidth 64 + 12#64) 0#5) := by
  change execTrap h a s = _
  rw [execTrap, wholeOp, issue_eq henters.here henters.clean, ← henters.state_eq]
  simp [hlive, hact, hpoison, Ctx.afterRisk, hclear]

theorem exec_trap_of_noLane {h : Head} {a : Opnd} {s : State} {c : Ctx} (henters : Enters s h.guard c)
    (hlive : deadCheck c.a (single [a]) = none) (hact : c.act = 0#32) (hmay : MayCommit c (killRegs c.a (headKills h a .zero .zero))) :
    exec (.trap h a) s = .next (afterCommit c ((killRegs c.a (headKills h a .zero .zero)).advance c.x)) := by
  change execTrap h a s = _
  rw [execTrap, wholeOp, issue_eq henters.here henters.clean]
  simp only [hlive, hact, if_true]
  exact commit_of_le hmay (heldSlots_killRegs _ _)

theorem decode_of_udf {w : IWord} (h : w.extractLsb' 0 8 = 0x0D#8) : decode w = .ok .udf := by
  have hopc : (rawOfWord w).opc = 0x0D#8 := h
  simp [decode, hopc]

theorem decode_of_unassigned {w : IWord} (hudf : w.extractLsb' 0 8 ≠ 0x0D#8) (h : assignedOpc (w.extractLsb' 0 8).toNat = false) :
    decode w = .ok (.illegalOpcode (w.extractLsb' 0 8)) := by
  have hopc : (rawOfWord w).opc = w.extractLsb' 0 8 := rfl
  simp only [decode, hopc, hudf, h, if_false, Bool.not_false, if_true]

/-- Of a trap's entry: what it leaves of the registers and the slots. -/
theorem trapArch_slot_same (budget : Nat) (a : Arch) (x : PcSlot) (cause : BitVec 8) (tval tpc : BitVec 64) (lane : BitVec 5) (entry : BitVec 32)
    (inTvec : Bool) : (trapArch budget a x cause tval tpc lane entry inTvec).slot x = { a.slot x with pc := entry, wait := .none } := by
  cases x <;> rfl

theorem trapArch_slot_other (budget : Nat) (a : Arch) (x : PcSlot) (cause : BitVec 8) (tval tpc : BitVec 64) (lane : BitVec 5) (entry : BitVec 32)
    (inTvec : Bool) : (trapArch budget a x cause tval tpc lane entry inTvec).slot (otherSlot x) = a.slot (otherSlot x) := by
  cases x <;> rfl

/-- A trap's entry changes no register that the program names, and no stack entry (R409). -/
theorem trapArch_registers (budget : Nat) (a : Arch) (x : PcSlot) (cause : BitVec 8) (tval tpc : BitVec 64) (lane : BitVec 5) (entry : BitVec 32)
    (inTvec : Bool) : let b := trapArch budget a x cause tval tpc lane entry inTvec
    b.v = a.v ∧ b.s = a.s ∧ b.p = a.p ∧ b.flags = a.flags ∧ b.fpmode = a.fpmode ∧ b.nanc = a.nanc ∧ b.part = a.part ∧ b.gen = a.gen
      ∧ b.stack = a.stack ∧ b.sp = a.sp := by
  cases x <;> exact ⟨rfl, rfl, rfl, rfl, rfl, rfl, rfl, rfl, rfl, rfl⟩

/-- ERET changes no register that the program names, and no stack entry (R415). -/
theorem eretArch_registers (budget : Nat) (a : Arch) : let b := eretArch budget a
    b.v = a.v ∧ b.s = a.s ∧ b.p = a.p ∧ b.flags = a.flags ∧ b.stack = a.stack := by
  simp only [eretArch, Arch.setSlot_v, Arch.setSlot_s, Arch.setSlot_p, Arch.setSlot_flags, Arch.setSlot_stack, and_self]

theorem eretArch_slot_same (budget : Nat) (a : Arch) : (eretArch budget a).slot a.tslot
    = { a.slot a.tslot with pc := a.tpc.setWidth 32, mask := a.frame.mask, join := a.frame.join, wait := .none } := by
  unfold eretArch
  cases a.tslot <;> rfl

theorem eretArch_slot_other (budget : Nat) (a : Arch) : (eretArch budget a).slot (otherSlot a.tslot) = a.slot (otherSlot a.tslot) := by
  unfold eretArch
  cases a.tslot <;> rfl

/-- A return to the trapping instruction resumes at sr.tlane (R416). -/
theorem issueMask_eretArch {budget : Nat} {a : Arch} (hpc : a.tpc = a.frame.pc.setWidth 64) (hlane : a.tlane ≠ 0#5) :
    (eretArch budget a).resume = some (a.tslot, a.tpc.setWidth 32, a.tlane)
      ∧ issueMask (eretArch budget a) a.tslot = a.frame.mask &&& ~~~((1#32 <<< a.tlane.toNat) - 1#32) := by
  have hresume : (eretArch budget a).resume = some (a.tslot, a.tpc.setWidth 32, a.tlane) := if_pos ⟨hpc, hlane⟩
  refine ⟨hresume, ?_⟩
  rw [issueMask, hresume, eretArch_slot_same]
  simp

section
variable {h : Head} {s : State} {c : Ctx} (henters : Enters s h.guard c) (hact : c.act ≠ 0#32) (hmode : c.a.mode = .trap)
  (hsp : c.a.sp = c.a.frame.sp) (htarget : targetOk c.a.tpc (ownLength c) = true)
include henters hact hmode hsp htarget

/-- ERET whose checks pass. -/
theorem exec_eret : exec (.eret h) s = c.afterRisk (.next (putGang c.s { c.g with fetch := [], arch := eretArch c.g.budget c.a })) := by
  change execEret h s = _
  rw [execEret, issue_eq henters.here henters.clean]
  simp [hact, hmode, hsp, htarget]

end

theorem Enters.findGang_putGang {s : State} {guard : Guard} {c : Ctx} (henters : Enters s guard c) {g : Gang} (hg : g.id = c.g.id) (id : GangId) :
    findGang (putGang c.s g) id = if id = c.g.id then some g else findGang s id := by
  obtain ⟨g', hg', -, hs, -, hid, -⟩ := entering_spec henters.here
  rw [Machine.findGang_putGang c.s g' g (by rw [hs, hg, hid]; exact hg'), hg, hs]

/-- Settles O20: each is an issue whose answer is its trap, and the decoder gives UDF and the unassigned opcodes their instructions. -/
theorem trapInstructions : Obligations.TrapInstructions := by
  refine ⟨fun h a s c henters hlive => ⟨fun hact hpoison hclear => exec_trap_of_lane henters hlive hact hpoison hclear,
    fun hact hmay => exec_trap_of_noLane henters hlive hact hmay⟩, fun s c henters => ⟨fun hclear => ?_, fun hclear => ?_⟩,
    fun w => ⟨decode_of_udf, decode_of_unassigned⟩⟩
  · exact ⟨fun _ _ => (henters.issue_trap _ _).1 hclear, (henters.issue_trap _ _).1 hclear, fun _ => (henters.issue_trap _ _).1 hclear⟩
  · exact ⟨fun _ _ => (henters.issue_trap _ _).2 hclear, (henters.issue_trap _ _).2 hclear, fun _ => (henters.issue_trap _ _).2 hclear⟩

/-- Settles O21: outside trap mode the gang is put with the registers of the entry, and in trap mode it is removed and its block fails. -/
theorem trapEntry : Obligations.TrapEntry := by
  constructor
  · intro s g x cause tval tpc lane entry tvec hg hmode hentry
    have htake := takeTrap_running (x := x) (cause := cause) (tval := tval) (tpc := tpc) (lane := lane) hmode hentry
    have hfind := findGang_putGang s g { g with fetch := [], arch := trapArch g.budget g.arch x cause tval tpc lane entry tvec } hg
    rw [htake]
    refine ⟨_, (hfind g.id).trans (if_pos rfl), rfl, rfl, rfl, rfl, rfl, rfl, rfl, ?_, ?_, ?_, trapArch_slot_other .., ?_⟩
    · rw [trapArch_slot_same]
    · rw [trapArch_slot_same]
    · rw [trapArch_slot_same]
    · obtain ⟨hv, hs, hp, hflags, hfpmode, hnanc, hpart, hgen, hstack, hsp⟩ :=
        trapArch_registers g.budget g.arch x cause tval tpc lane entry tvec
      exact ⟨hv, hs, hp, hflags, hfpmode, hnanc, hpart, hgen, hstack, hsp, fun id hid => (hfind id).trans (if_neg hid), rfl⟩
  · intro s g b x cause tval tpc lane hg hmode hb
    rw [takeTrap_trap hmode]
    exact ⟨(findGang_failGang ..).trans (if_pos rfl), _, findBlock_failGang _ _ _ hb, rfl⟩

/-- Settles O22: the gang is put with the registers that ERET gives, whose resumption takes the lower lanes out once. -/
theorem eretReturns : Obligations.EretReturns := by
  intro h s c henters hact hmode hsp htarget
  have hexec := exec_eret henters hact hmode hsp htarget
  refine ⟨fun hclear => hexec.trans (by simp [Ctx.afterRisk, hclear]), fun hclear => ?_⟩
  have hfind := henters.findGang_putGang (g := { c.g with fetch := [], arch := eretArch c.g.budget c.a }) rfl
  refine ⟨_, _, hexec.trans (by rw [Ctx.afterRisk, hclear]; rfl), (hfind _).trans (if_pos rfl), rfl, ?_, ?_, ?_, eretArch_slot_other .., ?_⟩
  · rw [eretArch_slot_same]
  · rw [eretArch_slot_same]
  · rw [eretArch_slot_same]
  · obtain ⟨hv, hs, hp, hflags, hstack⟩ := eretArch_registers c.g.budget c.a
    exact ⟨hv, hs, hp, hflags, hstack, issueMask_eretArch, fun id hid => (hfind id).trans (if_neg hid)⟩

end Sys2Proof

/-!
Ordered channels (O44): CHOPEN, CHST, CHCLOSE and the stores of a channel at their home (R435-R440).
-/
namespace Sys2Proof
open Machine

/-! ## A block whose record changes -/

theorem findBlock_modBlock_if (s : State) (uid u : Nat) {f : Block → Block} (hf : ∀ b, (f b).uid = b.uid) :
    findBlock (modBlock s uid f) u = (findBlock s u).map fun b => if u = uid then f b else b := by
  have h := find?_map_update (fun b : Block => b.uid) s.blocks uid u f fun b hb => (hf b).trans hb
  refine h.trans ?_
  by_cases hu : u = uid
  · subst hu
    simp only [if_true]
    rfl
  · simp only [hu, if_false, Option.map_id_fun']
    rfl

section
variable {h : Head} {s : State} {c : Ctx}

/-- A commit that sets a channel of the gang's block. -/
theorem Enters.commitWith_setChan {guard : Guard} (henters : Enters s guard c) (hclear : c.clear = true) {a : Arch}
    (hslots : heldSlots a ≤ heldSlots c.a) (ch : Nat) (x : Chan) :
    ∃ t, c.commitWith a (fun s => setChan s c.g.block ch x) = .next t ∧ GangHolds c a t ∧ t.mem = s.mem
      ∧ ∀ u, findBlock t u = (findBlock s u).map fun b => if u = c.g.block then { b with chans := b.chans.set (Fin.ofNat 8 ch) x } else b := by
  refine ⟨_, commitWith_of_le (.inr hclear) hslots _, henters.gangHolds_of_gangs rfl, ?_, fun u => ?_⟩
  · rw [← henters.state_eq]
    rfl
  · rw [← henters.state_eq]
    exact findBlock_modBlock_if (c.put (settleAccounts c.g.budget a)) c.g.block u
      (f := fun b => { b with chans := b.chans.set (Fin.ofNat 8 ch) x }) fun _ => rfl

section
variable {a : Opnd} (ch : BitVec 3) (hstarts : Starts s h (single [a]) [a] c) (hword : wordCheck c.a [a] = none) (hclear : c.clear = true)
include hstarts hword hclear

theorem exec_chopen_of_starts : exec (.chopen h a ch) s =
    if chanOf c ch ≠ .closed then c.trap cChannel (ch.setWidth 64)
    else if (scalarOf c a).toNat % 2 ^ 32 < 8 ∨ (scalarOf c a).toNat % 2 ^ 32 > 23 then
      c.trap cChannel (BitVec.ofNat 64 ((scalarOf c a).toNat % 2 ^ 32))
    else c.commitWith ((killRegs c.a (headKills h a .zero .zero)).advance c.x)
      fun s => setChan s c.g.block ch.toNat (.opened ((scalarOf c a).toNat % 2 ^ 32)) := by
  change execChopen h a ch s = _
  rw [execChopen, issue_eq hstarts.enter.here hstarts.enter.clean]
  simp only [hstarts.live, hstarts.active, if_false, hstarts.priv, hword, firstHalt, Ctx.afterRisk, hclear, if_true]

end

section
variable (ch : BitVec 3) (henters : Enters s h.guard c) (hact : c.act ≠ 0#32) (hclear : c.clear = true)
include henters hact hclear

theorem exec_chclose_of_opened {die : Nat} (hch : chanOf c ch = .opened die) (hnone : (s.pend.any fun p => p.ofChannel c.g.block ch.toNat) = false)
    (hfolded : chanFolded s c.g.block ch.toNat = true) :
    exec (.chclose h ch) s = c.commitWith (c.a.advance c.x) fun s => setChan s c.g.block ch.toNat .closed := by
  change execChclose h ch s = _
  rw [execChclose, issue_eq henters.here henters.clean]
  simp only [hact, if_false, hch, henters.state_eq, hnone, hfolded, Bool.not_true, Bool.or_self, Bool.false_eq_true, Ctx.afterRisk, hclear, if_true]

end

theorem exec_chclose_of_closed (ch : BitVec 3) (henters : Enters s h.guard c) (hact : c.act ≠ 0#32) (hch : chanOf c ch = .closed) :
    exec (.chclose h ch) s = c.trap cChannel (ch.setWidth 64) := by
  change execChclose h ch s = _
  rw [execChclose, issue_eq henters.here henters.clean]
  simp only [hact, if_false, hch]

/-! ## CHST (R438) -/

/-- CHST makes one store: its datum is no vector register and it names no index. -/
def loneStore (b e : Opnd) : Bool :=
  (match e with
    | .v _ => false
    | _ => true) && decide (b = .zero)

theorem loneStore_of_scalar {b e : Opnd} (he : ∀ n, e ≠ .v n) (hb : b = .zero) : loneStore b e = true := by
  subst hb
  cases e with
  | v n => exact absurd rfl (he n)
  | s | p | sr | zero | imm => rfl

theorem loneStore_of_lanes {b e : Opnd} (h : (∃ n, e = .v n) ∨ b ≠ .zero) : loneStore b e = false := by
  rcases h with ⟨n, rfl⟩ | hb
  · rfl
  · simp [loneStore, hb]

/-- The lanes of a CHST with their addresses. -/
def chstLanes (c : Ctx) (a b e : Opnd) (off : BitVec 32) (w64 : Bool) : List (Nat × BitVec 64) :=
  if loneStore b e then [(0, scalarAddr c .global a (storeOff e off) (wordSize w64))]
  else (lanesIn c.act).map fun i => (i, laneAddr c .global a b (storeOff e off) (wordSize w64) i)

section
variable {a b e : Opnd} {off : BitVec 32} {ch : BitVec 3} {w64 : Bool} (hroom : c.g.st < 63)
  (hstarts : Starts s h [(a, 1), (b, 1), (e, if w64 then 2 else 1)] [a] c)
  (hread : readCheck c.a c.act [(a, 1), (b, 1), (e, if w64 then 2 else 1)] = none)
include hroom hstarts hread

/-- CHST once its operands are read. -/
theorem exec_chst_of_starts : exec (.chst h a b e off ch w64) s =
    match chanOf c ch with
    | .closed => c.trap cChannel (ch.setWidth 64)
    | .broken _ => c.trap cHomeLost (freeNow c.s)
    | .opened die =>
      if homeLost c.s die then c.trap cHomeLost (freeNow c.s)
      else
        let r := checkLanes c.s c.g .global (wordSize w64) .write (chstLanes c a b e off w64)
        match firstFail (r.2.map (chanLane die)) with
        | some x => ({ c with s := r.1 } : Ctx).halt x
        | none =>
          if chanLoad r.1 c.g.block ch.toNat + (chstLanes c a b e off w64).length > 64 then ({ c with s := r.1 } : Ctx).hold .full
          else ({ c with s := r.1 } : Ctx).post (killRegs c.a (killsOf h (a, 1) (b, 1) (e, if w64 then 2 else 1)))
            (.home (.channel c.g.block ch.toNat) .zero w64 .pkg (if loneStore b e then 1#32 else c.act)
              (accsOf (passing (r.2.map (chanLane die))) fun i => (atomData { c with s := r.1 } e w64 i).setWidth 128) 0#32 true) := by
  change execChst h a b e off ch w64 s = _
  unfold execChst
  rw [issue_eq hstarts.enter.here hstarts.enter.clean, if_neg (not_full hroom)]
  simp only [hstarts.live, hstarts.active, hstarts.priv, hread, firstHalt, if_false] <;> rfl

theorem exec_chst_issues {die : Nat} {r : State × List Checked} (hch : chanOf c ch = .opened die) (hlost : homeLost s die = false)
    (hr : r = checkLanes s c.g .global (wordSize w64) .write (chstLanes c a b e off w64)) (hpass : firstFail (r.2.map (chanLane die)) = none)
    (hload : chanLoad r.1 c.g.block ch.toNat + (chstLanes c a b e off w64).length ≤ 64)
    (hmay : MayCommit c (killRegs c.a (killsOf h (a, 1) (b, 1) (e, if w64 then 2 else 1)))) :
    ∃ t, exec (.chst h a b e off ch w64) s = .next t
      ∧ Issued { c with s := r.1 }
          (settleAccounts c.g.budget ((killRegs c.a (killsOf h (a, 1) (b, 1) (e, if w64 then 2 else 1))).advance c.x))
          (.home (.channel c.g.block ch.toNat) .zero w64 .pkg (if loneStore b e then 1#32 else c.act)
            (accsOf (passing (r.2.map (chanLane die))) fun i => (atomData c e w64 i).setWidth 128) 0#32 true) [] [] t := by
  have hs : c.s = s := hstarts.enter.state_eq
  rw [← hs] at hr hlost
  obtain ⟨dies, hdies⟩ : ∃ dies, r.1 = (c.onDies dies).s := ⟨_, hr ▸ checkLanes_dies _ _ _ _ _ _⟩
  have hgangs : r.1.gangs = c.s.gangs := by rw [hdies]; rfl
  have hmay' : MayCommit { c with s := r.1 } (killRegs c.a (killsOf h (a, 1) (b, 1) (e, if w64 then 2 else 1))) := by
    rw [hdies]
    exact hmay.imp_right (clear_onDies c dies).trans
  have hdata : atomData { c with s := r.1 } e w64 = atomData c e w64 := by
    rw [hdies]
    exact funext (atomData_onDies c dies e w64)
  rw [exec_chst_of_starts hroom hstarts hread, hch]
  simp only [hlost, Bool.false_eq_true, if_false, ← hr, hpass, Nat.not_lt.mpr hload, hdata]
  exact hstarts.enter.issued_post_at hgangs hmay' _

end

/-! ## CHANNEL_STORE_PERFORM (R439) -/

/-- A channel's store puts its word at the home. -/
theorem writtenHome_channel {p : Pend} {block ch pa : Nat} {w64 : Bool} (hstill : s.migrations = []) (hlost : homeLost s (homeOf pa) = false)
    (x : LaneAcc) : WrittenHome s (homePerform s p (.channel block ch) w64 x pa).1 pa
      (bytesOfNat (wordSize w64) (x.data.toNat % 256 ^ wordSize w64)) := by
  obtain ⟨hmem, hmigrations, hgangs, hpend, hlosts, hlinks⟩ := writtenHome_performHome (s := touchHome s p.gang (homeOf pa)) hstill
    (pa := pa) hlost (bytesOfNat (wordSize w64) (x.data.toNat % 256 ^ wordSize w64)) [p.op]
  unfold homePerform
  simp only [HomeOp.size, reduceCtorEq, if_false]
  split
  · exact ⟨hmem, hmigrations, hgangs, hpend, hlosts, hlinks⟩
  · exact ⟨hmem, hmigrations, hgangs, hpend, hlosts, hlinks⟩

theorem exec_channelStorePerform {p : Pend} {block ch pa : Nat} {d : Opnd} {w64 : Bool} {act cuts : Mask} {x : LaneAcc} {rest : List LaneAcc}
    (hp : (s.pend.find? fun p => p.ofChannel block ch) = some p)
    (hkind : p.kind = .home (.channel block ch) d w64 .pkg act (x :: rest) cuts false) (htgt : x.tgt = .mem pa false)
    (hfold : opUnfolded s p.op = false) (hfolded : chanFolded s block ch = true) (hheld : pendHeld s p = false)
    (hreach : accsHome s p.gang.die [x] = true) (hreleased : homeHeld s p (.channel block ch) w64 .pkg [x] = false) :
    exec (.channelStorePerform block ch) s = .next (modPend (homePerform s p (.channel block ch) w64 x pa).1 p.op fun q =>
      { q with sent := none, kind := .home (.channel block ch) d w64 .pkg act rest cuts false }) := by
  have hturn : chanTurn s p = true := by simp [chanTurn, hkind, hfold, hfolded, hp]
  have hlane : sentLane s p (.channel block ch) w64 .pkg x = homePerform s p (.channel block ch) w64 x pa := by
    simp [sentLane, htgt, scopeAtHome]
  change execChannelStorePerform block ch s = _
  simp only [execChannelStorePerform, hp, hkind, hturn, hheld, hreach, hreleased, chanPerform, hlane, Bool.not_true, Bool.false_eq_true, or_self,
    if_false]

end

/-- Settles O44: each clause is the instruction's own case for the state of its channel, and the home performs the channel's next store as it
stands. -/
theorem channelsKeepOrder : Obligations.ChannelsKeepOrder := by
  refine ⟨fun h a ch s c d hstarts hword hclear hd => ?_, fun h a b e off ch w64 s c hroom hstarts hread => ⟨fun hch hclear => ?_,
    fun die hch hclear => ?_, fun die lanes act r l hch hlost hform hr hl hpass hload hmay => ?_⟩,
    fun h ch s c henters hact hclear => ⟨fun die hch hnone hfolded => ?_, fun hch => ?_⟩,
    fun s p block ch pa d w64 act cuts x rest hp hkind htgt hfold hfolded hheld hreach hreleased hlost hwf hstill => ?_⟩
  · subst hd
    rw [exec_chopen_of_starts ch hstarts hword hclear]
    refine ⟨fun hch hlow hhigh => ?_, fun hch => ?_, fun hch hrange => ?_⟩
    · rw [if_neg (not_not.mpr hch), if_neg (by omega)]
      exact hstarts.enter.commitWith_setChan hclear (by simpa using heldSlots_killRegs c.a _) ch.toNat _
    · rw [if_pos hch]
      exact hstarts.enter.trap_of_clear hclear _ _
    · rw [if_neg (not_not.mpr hch), if_pos (by omega)]
      exact hstarts.enter.trap_of_clear hclear _ _
  · rw [exec_chst_of_starts hroom hstarts hread, hch]
    exact hstarts.enter.trap_of_clear hclear _ _
  · rw [exec_chst_of_starts hroom hstarts hread, ← hstarts.enter.state_eq]
    rcases hch with hch | ⟨hch, hlost⟩
    · simp only [hch, hstarts.enter.trap_of_clear hclear, hstarts.enter.state_eq]
      rfl
    · simp only [hch, hstarts.enter.trap_of_clear hclear, hstarts.enter.state_eq, hlost, if_true]
      rfl
  · subst hl
    rcases hform with ⟨he, hb, rfl, rfl⟩ | ⟨hform, rfl, rfl⟩
    · have hlone := loneStore_of_scalar he hb
      have hlanes : chstLanes c a b e off w64 = [(0, scalarAddr c .global a (storeOff e off) (wordSize w64))] := if_pos hlone
      have hissues := exec_chst_issues (off := off) hroom hstarts hread hch hlost (by rw [hlanes]; exact hr) hpass (by rw [hlanes]; exact hload) hmay
      simpa only [hlone, if_true] using hissues
    · have hlone := loneStore_of_lanes hform
      have hlanes : chstLanes c a b e off w64 = (lanesIn c.act).map fun i => (i, laneAddr c .global a b (storeOff e off) (wordSize w64) i) :=
        if_neg (by simp [hlone])
      have hissues := exec_chst_issues (off := off) hroom hstarts hread hch hlost (by rw [hlanes]; exact hr) hpass (by rw [hlanes]; exact hload) hmay
      simpa only [hlone, Bool.false_eq_true, if_false] using hissues
  · rw [exec_chclose_of_opened ch henters hact hclear hch hnone hfolded]
    exact henters.commitWith_setChan hclear (by simp) ch.toNat _
  · rw [exec_chclose_of_closed ch henters hact hch]
    exact henters.trap_of_clear hclear _ _
  · have hwritten := writtenHome_channel (p := p) (block := block) (ch := ch) (w64 := w64) hstill hlost x
    refine ⟨_, exec_channelStorePerform hp hkind htgt hfold hfolded hheld hreach hreleased, ?_, fun a ha => ?_⟩
    · change natOfBytes (cellsRead (homePerform s p (.channel block ch) w64 x pa).1.mem
        (standsAt (homePerform s p (.channel block ch) w64 x pa).1 pa) (wordSize w64)) = _
      rw [standsAt_of_still hwritten.migrations, hwritten.mem, natOfBytes_cellsWrite hwf, Nat.mod_mod]
    · change cellGet (homePerform s p (.channel block ch) w64 x pa).1.mem a = _
      rw [hwritten.mem]
      exact cellGet_cellsWrite_outside hwf pa a _ (by rwa [length_bytesOfNat])

end Sys2Proof

/-!
The coder (O47) and the matrix array (O48): their issue, the leave that an idle unit asks for, and what their results write
(R346, R347, R351-R363, R467).
-/
namespace Sys2Proof.Machine

/-! ## Marks of one register each -/

theorem not_marksV_single {l : List Opnd} {n : Fin 64} (h : .v n ∉ l) : ¬ MarksV (single l) n := by
  rintro ⟨x, hmem, r, hr, j, hj, hn⟩
  obtain ⟨o, ho, rfl⟩ := List.mem_map.mp hmem
  obtain rfl : j = 0 := Nat.lt_one_iff.mp hj
  obtain rfl : o = .v r := hr
  refine h (hn ▸ ?_)
  simpa [groupReg] using ho

theorem killRegs_vreg_single {a : Arch} {l : List Opnd} {n : Fin 64} (h : .v n ∉ l) : (killRegs a (single l)).vreg n = a.vreg n := by
  classical
  rw [killRegs_vreg, if_neg (not_marksV_single h)]

theorem findGang_modGang_self {s : State} {id : GangId} {g : Gang} {f : Gang → Gang} (hf : ∀ g, (f g).id = g.id)
    (hg : findGang s id = some g) : findGang (modGang s id f) id = some (f g) := by
  rw [findGang_modGang s id id hf, if_pos rfl, hg]
  rfl

/-! ## Leave of the power governor (R467) -/

theorem exec_leaveGrant {s : State} {die : Nat} {r : LeaveReq} {rest : List LeaveReq} (h : (getDie s die).leaves = r :: rest) :
    exec (.leaveGrant die) s = .next (grantLeave s die r rest) := by
  change execLeaveGrant die s = _
  rw [execLeaveGrant, h]

theorem grantLeave_frame (s : State) (die : Nat) (r : LeaveReq) (rest : List LeaveReq) :
    (getDie (grantLeave s die r rest) die).leaves = rest ∧ (grantLeave s die r rest).mem = s.mem
      ∧ (grantLeave s die r rest).pend = s.pend := by
  have hleaves : (getDie (modDie s die fun d => { d with leaves := rest }) die).leaves = rest := by rw [getDie_modDie]
  unfold grantLeave
  cases r with
  | job id tick => exact ⟨hleaves, rfl, rfl⟩
  | pend op tick => dsimp only; split <;> exact ⟨hleaves, rfl, rfl⟩

theorem findGang_grantLeave {s : State} {die op tick : Nat} {rest : List LeaveReq} {p : Pend} {g : Gang} (hp : findPend s op = some p)
    (hg : findGang s p.gang = some g) : findGang (grantLeave s die (.pend op tick) rest) p.gang
      = some { g with leave := addLeave g.leave (cyclesOf s die (min (s.tick - tick) leaveLimit)) } := by
  simp only [grantLeave, hp]
  exact findGang_modGang_self (fun _ => rfl) hg

end Sys2Proof.Machine

namespace Sys2Proof
open Machine

/-! ## The transform pipe (R346, R347) -/

/-- The pipe asks for leave when it has been idle and holds no transform. -/
def xformAsk (s : State) (c : Ctx) : Bool :=
  idleUnit s c.g.id.die (getCore s c.g.id.die c.g.id.core).xfIdle && !s.pend.any (isXform c.g.id.die c.g.id.core)

theorem xformOp_issues {h : Head} {d a : Opnd} {n : Nat} {f : Arch → Nat → Word} {s : State} {c : Ctx} (hstarts : Starts s h (single [a]) [] c)
    (hmerge : mergeCheck c.a c.act d = none) (hread : readCheck c.a (blockLanes c.act n) (single [a]) = none) :
    ∃ t, Issued c (c.a.advance c.x) (.xform d c.act ((List.range 32).map (f c.a)) (xformAsk s c))
        (spreadReads (headKills h a .zero .zero)) (groupOpnds d 1) t
      ∧ xformOp h d a n f s = .next (if xformAsk s c then askLeave t c.g.id.die (.pend s.nextOp s.tick) else t) := by
  obtain rfl := hstarts.enter.state_eq
  refine ⟨_, hstarts.enter.issued_addPend _ _ _ _, ?_⟩
  rw [xformOp, issue_eq hstarts.enter.here hstarts.enter.clean]
  simp only [hstarts.live, hstarts.active, if_false, hread, hmerge, firstHalt]
  rfl

section
variable {s : State} {p : Pend} {g : Gang} {op : Nat} {n : Fin 64} {act : Mask} {lanes : List Word} {leave : Bool}

/-- What a transform writes when its result commits. -/
def xformWrite (n : Fin 64) (act : Mask) (lanes : List Word) (old a : Arch) : Arch :=
  writeLanesMax old a act (.v n) fun i => lanes.getD i 0#32

theorem heldSlots_xformWrite_le (n : Fin 64) (act : Mask) (lanes : List Word) (old a : Arch) :
    heldSlots (xformWrite n act lanes old a) ≤ heldSlots a + 32 := by
  have hset := heldSlots_setV_le a n (some (writeMax (old.vreg n) act fun i => lanes.getD i 0#32))
  have hlen : vregSlots (some (writeMax (old.vreg n) act fun i => lanes.getD i 0#32)) ≤ 32 := length_writeMax_le _ _ _
  exact hset.trans (Nat.add_le_add_left hlen _)

theorem exec_transformReply (hp : findPend s op = some p) (hkind : p.kind = .xform (.v n) act lanes leave)
    (hleave : leaveAsked s p.gang.die (isPendLeave op) = false)
    (hfirst : (s.pend.any fun q => isXform p.gang.die p.gang.core q && decide (q.op < op)) = false) (hrisk : olderRisk s p.gang op = false) :
    exec (.transformReply op) s = .next (commitPend (modCore s p.gang.die p.gang.core fun c => { c with xfIdle := s.tick }) p
      (xformWrite n act lanes)) := by
  change execTransformReply op s = _
  simp only [execTransformReply, hp, hkind, hleave, hfirst, hrisk, Bool.or_self, Bool.false_eq_true, if_false]
  rfl

/-- A transform's result fits, so its lanes are written and every other register but a marked one stays. -/
theorem exec_transformReply_completes (hp : findPend s op = some p) (hkind : p.kind = .xform (.v n) act lanes leave)
    (hleave : leaveAsked s p.gang.die (isPendLeave op) = false)
    (hfirst : (s.pend.any fun q => isXform p.gang.die p.gang.core q && decide (q.op < op)) = false) (hrisk : olderRisk s p.gang op = false)
    (hg : findGang s p.gang = some g) (hroom : heldSlots g.arch + 32 ≤ slotLimit s g) :
    ∃ t g', exec (.transformReply op) s = .next t ∧ findPend t op = none ∧ findGang t p.gang = some g' ∧ t.mem = s.mem
      ∧ (∀ i < 32, vregVal (g'.arch.vreg n) i = if inMask act i then lanes.getD i 0#32 else vregVal (g.arch.vreg n) i)
      ∧ (∀ m, m ≠ n → .v m ∉ p.kills → g'.arch.vreg m = g.arch.vreg m) := by
  have hgangs : (modCore s p.gang.die p.gang.core fun c => { c with xfIdle := s.tick }).gangs = s.gangs := modCore_gangs _ _ _ _
  have hg' : findGang (modCore s p.gang.die p.gang.core fun c => { c with xfIdle := s.tick }) p.gang = some g :=
    (findGang_congr hgangs _).trans hg
  have hfits : heldSlots (xformWrite n act lanes g.arch (killRegs g.arch (single p.kills)))
      ≤ slotLimit (modCore s p.gang.die p.gang.core fun c => { c with xfIdle := s.tick }) g := by
    rw [slotLimit_congr hgangs]
    have hwrite := heldSlots_xformWrite_le n act lanes g.arch (killRegs g.arch (single p.kills))
    have hkills := heldSlots_killRegs g.arch (single p.kills)
    omega
  obtain ⟨g', hfound, harch⟩ := findGang_committed hg'
    (settleAccounts g.budget (xformWrite n act lanes g.arch (killRegs g.arch (single p.kills))))
    fun a => settleAccounts g.budget (xformWrite n act lanes a (killRegs a (single p.kills)))
  have hvreg : ∀ m, g'.arch.vreg m = (xformWrite n act lanes g.arch (killRegs g.arch (single p.kills))).vreg m :=
    fun m => harch ▸ settleAccounts_vreg g.budget _ m
  refine ⟨_, g', (exec_transformReply hp hkind hleave hfirst hrisk).trans (congrArg _ (commitPend_of_room hg' hfits)),
    op_of_findPend hp ▸ findPend_dropPend _ _, hfound, (committed_frame _ _ _ _).1.trans (modCore_mem _ _ _ _), fun i hi => ?_, fun m hm hk => ?_⟩
  · rw [hvreg, xformWrite, writeLanesMax, Arch.setV_vreg, if_pos rfl, vregVal_writeMax _ _ _ _ hi]
  · rw [hvreg, xformWrite, writeLanesMax, Arch.setV_vreg, if_neg hm, killRegs_vreg_single hk]

end

/-- Settles O47: a transform issues as an access of its pipe, its reply commits what the lanes name, and a grant takes the oldest
request. -/
theorem coderResults : Obligations.CoderResults := by
  refine ⟨fun h d a rate s c ask hstarts hmerge hask => ⟨fun hread => ?_, fun hread => ?_⟩,
    fun s p g op n act lanes leave hp hkind hleave hfirst hg hrisk hroom =>
      exec_transformReply_completes hp hkind hleave hfirst hrisk hg hroom,
    fun s die r rest h => ?_⟩
  · subst hask
    exact xformOp_issues (f := fun x i => xencLane x a (rateBits rate.toNat) i) hstarts hmerge hread
  · subst hask
    exact xformOp_issues (f := fun x i => xdecLane x a (rateBits rate.toNat) i) hstarts hmerge hread
  · obtain ⟨hleaves, hmem, hpend⟩ := grantLeave_frame s die r rest
    refine ⟨_, exec_leaveGrant h, hleaves, hmem, hpend, ?_, ?_⟩
    · rintro id tick rfl
      rfl
    · rintro op tick p g rfl hp hg
      exact findGang_grantLeave hp hg

/-! ## The matrix array: issue (R351, R359, R361) -/

section
variable {s : State} {h : Head} {c : Ctx}

/-- A matrix operation issues with registers that its gang may hold. -/
theorem Enters.matSend_issued {guard : Guard} (henters : Enters s guard c) {a : Arch} (ho : MayCommit c a)
    (hfits : slotExcess c.s c.g a = none) (dsts : List Opnd) (kind : PendKind) :
    ∃ t, Issued c (settleAccounts c.g.budget (a.advance c.x)) kind [] dsts t
      ∧ matSend c a dsts kind = .next (if matAsk c then askLeave t c.g.id.die (.pend s.nextOp s.tick) else t) := by
  obtain rfl := henters.state_eq
  have hfits' : slotExcess c.s c.g (a.advance c.x) = none := by simpa [slotExcess] using hfits
  have howed : c.owed (a.advance c.x) = false := owed_eq (by simpa [MayCommit] using ho)
  refine ⟨_, henters.issued_addPend (settleAccounts c.g.budget (a.advance c.x)) kind [] dsts, ?_⟩
  simp only [matSend, Ctx.commitWith, howed, hfits', Bool.false_eq_true, if_false]
  rfl

theorem slotExcess_of_le {g : Gang} {a : Arch} (hle : heldSlots a ≤ heldSlots g.arch) : slotExcess s g a = none :=
  if_neg fun hh => absurd hh.1 (Nat.not_lt.mpr hle)

/-- A product form issues with its 1,024 slots reserved. -/
theorem productOp_issues {i : Instr} {d a b e : Opnd} {reads : Reads} {eN : Nat} {cols : Arch → List (List Word)} {ta tb : Target} {k : Arch}
    (hstarts : Starts s h reads [] c) (hread : readCheck c.a fullMask reads = none) (hk : k = killRegs c.a (killsOf h (a, 1) (b, 1) (e, eN)))
    (hfits : slotExcess s c.g { k with reserved := k.reserved + (1024 - groupSlots k d 32) } = none)
    (hta : tileTarget c a 64 2560 = some ta) (htb : tileTarget c b 64 2560 = some tb) (hclear : c.clear = true) :
    ∃ t, Issued c (settleAccounts c.g.budget ({ k with reserved := k.reserved + (1024 - groupSlots k d 32) }.advance c.x))
        (.mat i false [ta, tb] (cols c.a)) [] (groupOpnds d 32) t
      ∧ productOp h i d a b e reads eN cols s = .next (if matAsk c then askLeave t c.g.id.die (.pend s.nextOp s.tick) else t) := by
  subst hk
  rw [← hstarts.enter.state_eq] at hfits
  obtain ⟨t, hissued, hsend⟩ := hstarts.enter.matSend_issued (.inr hclear) hfits (groupOpnds d 32) (.mat i false [ta, tb] (cols c.a))
  refine ⟨t, hissued, Eq.trans ?_ hsend⟩
  rw [productOp, issue_eq hstarts.enter.here hstarts.enter.clean]
  simp only [hstarts.live, hstarts.active, if_false, hread, hfits, hta, htb]

section
variable {a : Opnd} {slot : BitVec 3} (hstarts : Starts s h (single [a]) [] c) (hword : wordCheck c.a [a] = none)
include hstarts hword

theorem exec_mcbld_issues {tgt : Target} (htgt : tileTarget c a 32 32 = some tgt) (hmay : MayCommit c (killRegs c.a (headKills h a .zero .zero))) :
    ∃ t, Issued c (settleAccounts c.g.budget ((killRegs c.a (headKills h a .zero .zero)).advance c.x))
        (.mat (.mcbld h a slot) false [tgt] []) [] [] t
      ∧ exec (.mcbld h a slot) s = .next (if matAsk c then askLeave t c.g.id.die (.pend s.nextOp s.tick) else t) := by
  obtain ⟨t, hissued, hsend⟩ := hstarts.enter.matSend_issued hmay (slotExcess_of_le (heldSlots_killRegs c.a _)) [] (.mat (.mcbld h a slot) false [tgt] [])
  refine ⟨t, hissued, Eq.trans ?_ hsend⟩
  change execMcbld h a slot s = _
  rw [execMcbld, issue_eq hstarts.enter.here hstarts.enter.clean]
  simp only [hstarts.live, hstarts.active, if_false, hword, htgt]

theorem exec_mcbld_of_outside (hnone : tileTarget c a 32 32 = none) : exec (.mcbld h a slot) s = c.trap cProtection (scalarOf c a) := by
  change execMcbld h a slot s = _
  rw [execMcbld, issue_eq hstarts.enter.here hstarts.enter.clean]
  simp only [hstarts.live, hstarts.active, if_false, hword, hnone]

end

/-- The flags that MSTT's conversions raise. -/
def msttFlags (c : Ctx) (e : Opnd) (m : MatMod) : BitVec 8 :=
  ((groupWords c.a e 32).flatMap fun l => l.map fun x => (msttElem m x).2).foldl (· ||| ·) 0#8

theorem exec_mstt_issues {a e : Opnd} {m : MatMod} {ch role : BitVec 3} {die core pos : Nat} (hroom : c.g.st < 63)
    (hstarts : Starts s h [(a, 1), (e, 32)] [] c) (hread : readCheck c.a fullMask [(a, 1), (e, 32)] = none)
    (htgt : tileTarget c a 64 2560 = some (.scratch die core pos)) (hexc : excCheck c.a.fpmode (msttFlags c e m) = none)
    (hmay : MayCommit c (raiseFlags (killRegs c.a (killsOf h (a, 1) (.zero, 1) (e, 32))) (msttFlags c e m))) :
    ∃ t, Issued c (settleAccounts c.g.budget ((raiseFlags (killRegs c.a (killsOf h (a, 1) (.zero, 1) (e, 32))) (msttFlags c e m)).advance c.x))
        (.image true die core pos (msttBytes m ch.toNat role.toNat (groupWords c.a e 32)) []) [] [] t
      ∧ exec (.mstt h a e m ch role) s = .next (if matAsk c then askLeave t c.g.id.die (.pend s.nextOp s.tick) else t) := by
  have hle : heldSlots (raiseFlags (killRegs c.a (killsOf h (a, 1) (.zero, 1) (e, 32))) (msttFlags c e m)) ≤ heldSlots c.g.arch :=
    heldSlots_killRegs c.a _
  obtain ⟨t, hissued, hsend⟩ := hstarts.enter.matSend_issued hmay (slotExcess_of_le hle) []
    (.image true die core pos (msttBytes m ch.toNat role.toNat (groupWords c.a e 32)) [])
  refine ⟨t, hissued, Eq.trans ?_ hsend⟩
  change execMstt h a e m ch role s = _
  unfold execMstt
  rw [issue_eq hstarts.enter.here hstarts.enter.clean, if_neg (not_full hroom)]
  simp only [hstarts.live, hstarts.active, if_false, hread, htgt]
  rw [show excCheck c.a.fpmode (List.foldl (· ||| ·) 0#8 _) = _ from hexc]
  rfl

end

/-! ## MATRIX_OPERAND_FETCH (R354, R356, R362) -/

theorem findPend_patchYounger (s : State) (id : GangId) {op : Nat} (f : Arch → Arch) : findPend (patchYounger s id op f) op = findPend s op := by
  have hsame : ((fun p : Pend => decide (p.op = op)) ∘ fun p => if p.gang = id ∧ p.op > op then { p with ckpt := f p.ckpt } else p)
      = fun p : Pend => decide (p.op = op) := by
    funext p
    simp only [Function.comp_apply]
    split <;> rfl
  rw [findPend, patchYounger, List.find?_map, hsame]
  change (findPend s op).map _ = _
  cases h : findPend s op with
  | none => rfl
  | some p => simp [op_of_findPend h]

theorem findPend_modPend_self {s : State} {op : Nat} {p : Pend} {f : Pend → Pend} (hf : ∀ q, (f q).op = q.op) (h : findPend s op = some p) :
    findPend (modPend s op f) op = some (f p) := by
  rw [findPend, modPend, find?_map_update (fun p : Pend => p.op) _ _ _ _ fun p hp => (hf p).trans hp, if_pos rfl]
  exact congrArg (Option.map f) h

/-- The machine once the array has read the operands of a product: its result columns are formed, the gang's NaN count has grown. -/
def operandsRead (s : State) (p : Pend) (op : Nat) (kind : PendKind) (nans : Nat) : State :=
  wakeOrder (recount (modPend (patchYounger (modGang (dropSamples s op) p.gang fun g =>
      { g with arch := { g.arch with nanc := addNanc g.arch.nanc nans } }) p.gang op fun a => { a with nanc := addNanc a.nanc nans })
    op fun q => { q with kind := kind }) p.gang) p.gang

theorem operandsRead_frame (s : State) (p : Pend) (op : Nat) (kind : PendKind) (nans : Nat) :
    (operandsRead s p op kind nans).mem = s.mem ∧ (operandsRead s p op kind nans).cores = s.cores := by
  simp [operandsRead, wakeOrder, recount, modPend, patchYounger, modGang, dropSamples]

theorem findPend_operandsRead {s : State} {p : Pend} {op : Nat} (hp : findPend s op = some p) (kind : PendKind) (nans : Nat) :
    findPend (operandsRead s p op kind nans) op = some { p with kind := kind } := by
  have hpatched : findPend (patchYounger (modGang (dropSamples s op) p.gang fun g =>
      { g with arch := { g.arch with nanc := addNanc g.arch.nanc nans } }) p.gang op fun a => { a with nanc := addNanc a.nanc nans }) op
      = some p := (findPend_patchYounger _ _ _).trans hp
  exact findPend_modPend_self (f := fun q => { q with kind := kind }) (fun _ => rfl) hpatched

theorem findGang_operandsRead {s : State} {p : Pend} {op : Nat} {g : Gang} (hg : findGang s p.gang = some g) (kind : PendKind) (nans : Nat) :
    ∃ g', findGang (operandsRead s p op kind nans) p.gang = some g' ∧ g'.arch.v = g.arch.v ∧ g'.arch.s = g.arch.s
      ∧ g'.arch.nanc = addNanc g.arch.nanc nans := by
  have hmod : findGang (modGang (dropSamples s op) p.gang fun g => { g with arch := { g.arch with nanc := addNanc g.arch.nanc nans } }) p.gang
      = some { g with arch := { g.arch with nanc := addNanc g.arch.nanc nans } } :=
    findGang_modGang_self (fun _ => rfl) hg
  exact ⟨_, findGang_modGang_self (fun _ => rfl) (findGang_modGang_self (fun _ => rfl) hmod), rfl, rfl, rfl⟩

section
variable {s : State} {p : Pend} {op : Nat} (hp : findPend s op = some p) (hheld : fetchHeld s p = false)
include hp hheld

section
variable {i : Instr} {ta tb : Target} {cols : List (List Word)} (hkind : p.kind = .mat i false [ta, tb] cols)
  (hx : (operandBytes s op 0 ta).2 = false) (hy : (operandBytes s op 1 tb).2 = false)
  {r : BitVec 64 × Nat × List (List Word)}
  (hr : r = productFetch (fun n => (getCore s p.gang.die p.gang.core).codebooks.get (Fin.ofNat 8 n)) i (operandBytes s op 0 ta).1
    (operandBytes s op 1 tb).1 cols)
include hkind hx hy hr

theorem exec_matrixOperandFetch_forms (hchecks : r.1 = 0#64) :
    exec (.matrixOperandFetch op) s = .next (operandsRead s p op (.mat i true [ta, tb] r.2.2) r.2.1) := by
  change execMatrixOperandFetch op s = _
  simp only [execMatrixOperandFetch, hp, hheld, hkind, hx, hy, Bool.or_self, Bool.false_eq_true, if_false, ← hr, hchecks, ne_eq,
    not_true_eq_false]
  rfl

theorem exec_matrixOperandFetch_checked (hchecks : r.1 ≠ 0#64) (hrisk : olderRisk s p.gang op = false) :
    exec (.matrixOperandFetch op) s = .next (preciseTrap (dropSamples s op) p 0x14#8 r.1 0#5) := by
  change execMatrixOperandFetch op s = _
  simp only [execMatrixOperandFetch, hp, hheld, hkind, hx, hy, Bool.or_self, Bool.false_eq_true, if_false, ← hr, ne_eq, hchecks,
    not_false_eq_true, if_true, hrisk]
  rfl

end

/-- MCBLD's fetch writes its codebook slot. -/
theorem exec_matrixOperandFetch_codebook {h : Head} {a : Opnd} {slot : BitVec 3} {tgt : Target} {cols : List (List Word)}
    (hkind : p.kind = .mat (.mcbld h a slot) false [tgt] cols) (hrisk : olderRisk s p.gang op = false)
    (hclean : (tileBytes s 32 tgt).2 = false) :
    ∃ t, exec (.matrixOperandFetch op) s = .next t ∧ findPend t op = none ∧ t.mem = s.mem
      ∧ (getCore t p.gang.die p.gang.core).codebooks = (getCore s p.gang.die p.gang.core).codebooks.set slot.toNat
          (BitVec.ofNat 256 (natOfBytes (tileBytes s 32 tgt).1)) slot.isLt := by
  refine ⟨dropPend (modCore s p.gang.die p.gang.core fun c =>
    { c with codebooks := c.codebooks.set (slot.toNat % 8) (BitVec.ofNat 256 (natOfBytes (tileBytes s 32 tgt).1)) (Nat.mod_lt _ (by decide)),
             matIdle := s.tick }) p, ?_, op_of_findPend hp ▸ findPend_dropPend _ _, modCore_mem _ _ _ _, ?_⟩
  · change execMatrixOperandFetch op s = _
    simp only [execMatrixOperandFetch, hp, hheld, hkind, hrisk, hclean, Bool.false_eq_true, if_false]
  · change (getCore (modCore s p.gang.die p.gang.core _) p.gang.die p.gang.core).codebooks = _
    rw [getCore_modCore, if_pos rfl]
    · simp only [Nat.mod_eq_of_lt slot.isLt]
    · exact fun _ => rfl

end

/-! ## MATRIX_RESULT (R357, R359) -/

/-- The slots that a product gives back as its result is written. -/
def unreserved (a : Arch) (n : Fin 64) : Arch := { a with reserved := a.reserved - (1024 - groupSlots a (.v n) 32) }

theorem wokenArch_s (a : Arch) : (wokenArch a).s = a.s := rfl

theorem writeCols_eq (n : Fin 64) (cols : List (List Word)) (a : Arch) : writeCols (.v n) cols a = (List.range 32).foldl
    (fun x k => x.setV (groupReg n k) (some (writeMax none fullMask fun i => (cols.getD k []).getD i 0#32))) (unreserved a n) := rfl

theorem foldl_setV_frame (n : Fin 64) (f : Nat → List Run) (ks : List Nat) (a : Arch) :
    (ks.foldl (fun x k => x.setV (groupReg n k) (some (f k))) a).s = a.s
      ∧ ∀ m, (∀ k ∈ ks, groupReg n k ≠ m) → (ks.foldl (fun x k => x.setV (groupReg n k) (some (f k))) a).vreg m = a.vreg m := by
  induction ks generalizing a with
  | nil => exact ⟨rfl, fun _ _ => rfl⟩
  | cons k rest ih =>
    obtain ⟨hs, hv⟩ := ih (a.setV (groupReg n k) (some (f k)))
    refine ⟨hs, fun m hm => ?_⟩
    rw [List.foldl_cons, hv m fun j hj => hm j (.tail _ hj), Arch.setV_vreg, if_neg (hm k (.head _)).symm]

theorem vregVal_writeCols (n : Fin 64) (cols : List (List Word)) (a : Arch) {k l : Nat} (hk : k < 32) (hl : l < 32) :
    vregVal ((writeCols (.v n) cols a).vreg (groupReg n k)) l = (cols.getD k []).getD l 0#32 := by
  rw [writeCols_eq, foldl_setV_vreg (fun k => writeMax none fullMask fun i => (cols.getD k []).getD i 0#32) (by omega) hk,
    vregVal_writeMax _ _ _ _ hl, inMask_fullMask hl, if_pos rfl]

theorem writeCols_frame (n : Fin 64) (cols : List (List Word)) (a : Arch) : (writeCols (.v n) cols a).s = a.s
    ∧ ∀ m, (∀ k < 32, groupReg n k ≠ m) → (writeCols (.v n) cols a).vreg m = a.vreg m := by
  obtain ⟨hs, hv⟩ := foldl_setV_frame n (fun k => writeMax none fullMask fun i => (cols.getD k []).getD i 0#32) (List.range 32) (unreserved a n)
  exact ⟨hs, fun m hm => hv m fun k hk => hm k (List.mem_range.mp hk)⟩

section
variable {s : State} {p : Pend} {g : Gang} {op : Nat} {i : Instr} {tiles : List Target} {cols : List (List Word)} {n : Fin 64}

theorem exec_matrixResult (hp : findPend s op = some p) (hkind : p.kind = .mat i true tiles cols) (hdst : productDst i = .v n)
    (hg : findGang s p.gang = some g) (hrisk : olderRisk s p.gang op = false)
    (hfirst : (s.pend.any fun q => isMatrix p.gang.die p.gang.core q && decide (q.op < op) && (match q.kind with
      | .mat _ _ _ _ => true
      | _ => false)) = false) :
    exec (.matrixResult op) s = .next (committed (modCore s p.gang.die p.gang.core fun c => { c with matIdle := s.tick }) p
      { g with arch := settleAccounts g.budget (writeCols (.v n) cols g.arch) } fun a => settleAccounts g.budget (writeCols (.v n) cols a)) := by
  have hg' : findGang (modCore s p.gang.die p.gang.core fun c => { c with matIdle := s.tick }) p.gang = some g :=
    (findGang_congr (modCore_gangs _ _ _ _) _).trans hg
  change execMatrixResult op s = _
  unfold execMatrixResult
  simp only [hp, hkind, hrisk, hg', hdst, Bool.false_or]
  rw [if_neg (by rw [Bool.not_eq_true]; exact hfirst), committed, op_of_findPend hp]

theorem exec_matrixResult_writes (hp : findPend s op = some p) (hkind : p.kind = .mat i true tiles cols) (hdst : productDst i = .v n)
    (hg : findGang s p.gang = some g) (hrisk : olderRisk s p.gang op = false)
    (hfirst : (s.pend.any fun q => isMatrix p.gang.die p.gang.core q && decide (q.op < op) && (match q.kind with
      | .mat _ _ _ _ => true
      | _ => false)) = false) :
    ∃ t g', exec (.matrixResult op) s = .next t ∧ findPend t op = none ∧ findGang t p.gang = some g' ∧ t.mem = s.mem
      ∧ (∀ k < 32, ∀ l < 32, vregVal (g'.arch.vreg (groupReg n k)) l = (cols.getD k []).getD l 0#32)
      ∧ (∀ m, (∀ k < 32, groupReg n k ≠ m) → g'.arch.vreg m = g.arch.vreg m) ∧ g'.arch.s = g.arch.s := by
  have hg' : findGang (modCore s p.gang.die p.gang.core fun c => { c with matIdle := s.tick }) p.gang = some g :=
    (findGang_congr (modCore_gangs _ _ _ _) _).trans hg
  obtain ⟨g', hfound, harch⟩ := findGang_committed hg' (settleAccounts g.budget (writeCols (.v n) cols g.arch))
    fun a => settleAccounts g.budget (writeCols (.v n) cols a)
  obtain ⟨hs, hv⟩ := writeCols_frame n cols g.arch
  have hvreg : ∀ m, g'.arch.vreg m = (writeCols (.v n) cols g.arch).vreg m := fun m => harch ▸ settleAccounts_vreg g.budget _ m
  refine ⟨_, g', exec_matrixResult hp hkind hdst hg hrisk hfirst, op_of_findPend hp ▸ findPend_dropPend _ _, hfound,
    (committed_frame _ _ _ _).1.trans (modCore_mem _ _ _ _), fun k hk l hl => ?_, fun m hm => ?_, ?_⟩
  · rw [hvreg, vregVal_writeCols n cols g.arch hk hl]
  · rw [hvreg, hv m hm]
  · rw [harch, wokenArch_s, settleAccounts_s, hs]

end

/-- Settles O48: each form issues through the array's one way of issuing, its operand fetch forms the result or raises MMA_CHECK, and
MATRIX_RESULT writes the 32 registers of the group. -/
theorem matrixOperations : Obligations.MatrixOperations := by
  refine ⟨fun i f s c ta tb k hform hstarts hread hk hfits hta htb hclear => ?_, fun h a slot s c tgt hstarts hword => ⟨fun htgt hmay => ?_,
    fun hnone hclear => ?_⟩, fun h a e m ch role s c die core pos fl hroom hstarts hread htgt hfl hexc hmay => ?_,
    fun s p op hp hheld => ⟨fun i ta tb cols x y r hkind hx hy hxp hyp hr => ?_, fun h a slot tgt cols hkind hrisk hclean => ?_⟩,
    fun s p g op i tiles cols n hp hkind hdst hg hrisk hfirst => exec_matrixResult_writes hp hkind hdst hg hrisk hfirst⟩
  · cases i with
    | mma | mmax | mmacb | mmasp =>
      obtain rfl := Option.some.inj hform
      exact productOp_issues hstarts hread hk hfits hta htb hclear
    | _ => cases hform
  · exact exec_mcbld_issues hstarts hword htgt hmay
  · rw [exec_mcbld_of_outside hstarts hword hnone]
    exact hstarts.enter.trap_of_clear hclear _ _
  · subst hfl
    exact exec_mstt_issues hroom hstarts hread htgt hexc hmay
  · subst hx hy
    obtain ⟨hmem, hcores⟩ := operandsRead_frame s p op (.mat i true [ta, tb] r.2.2) r.2.1
    exact ⟨fun hchecks => ⟨_, exec_matrixOperandFetch_forms hp hheld hkind hxp hyp hr hchecks, hmem, hcores, findPend_operandsRead hp _ _,
      fun g hg => findGang_operandsRead hg _ _⟩, exec_matrixOperandFetch_checked hp hheld hkind hxp hyp hr⟩
  · exact exec_matrixOperandFetch_codebook hp hheld hkind hrisk hclean

end Sys2Proof

/-!
Links (O51): training, the host's disabling, retries and flits (R423-R425), and what a lost proxy home leaves behind (R322, R424).
-/
namespace Sys2Proof.Machine

/-- A fold of steps that keep a part of the machine keeps it. -/
theorem foldl_keeps {α β : Type} (part : State → β) {f : State → α → State} (hf : ∀ s x, part (f s x) = part s) (l : List α) (s : State) :
    part (l.foldl f s) = part s := by
  induction l generalizing s with
  | nil => rfl
  | cons x rest ih => exact (ih (f s x)).trans (hf s x)

/-! ## Lost homes (R322, R424) -/

/-- The links and the dies of a machine. -/
def linksDies (s : State) : List Link × Vector Die 8 := (s.links, s.dies)

theorem breakChannels_linksDies (s : State) (die : Nat) : linksDies (breakChannels s die) = linksDies s :=
  foldl_keeps linksDies (f := fun s (p : Pend) => recount s p.gang) (fun _ _ => rfl) _ _

theorem modHomePage_linksDies (s : State) (g : Nat) (f : HomePage → HomePage) : linksDies (modHomePage s g f) = linksDies s := by
  unfold modHomePage
  split <;> rfl

theorem setPage_linksDies (s : State) (base size : Nat) (st : PageState) : linksDies (setPage s base size st) = linksDies s :=
  foldl_keeps linksDies (fun _ _ => modHomePage_linksDies _ _ _) _ _

theorem adminDone_linksDies (s : State) (e : BitVec 512) (code detail : Nat) (result : BitVec 64) :
    linksDies (adminDone s e code detail result) = linksDies s := by
  unfold adminDone
  dsimp only
  split <;> rfl

theorem dropMigrations_linksDies (s : State) (home : Nat) : linksDies (dropMigrations s home) = linksDies s := by
  have hpages : ∀ l : List Migration, linksDies (l.foldl (fun s m => setPage s m.old m.size .normal) s) = linksDies s :=
    fun l => foldl_keeps linksDies (fun _ _ => setPage_linksDies _ _ _ _) l s
  unfold dropMigrations
  dsimp only
  split
  · rfl
  · split
    · split
      · exact (adminDone_linksDies _ _ _ _ _).trans (hpages _)
      · exact hpages _
    · exact hpages _

theorem loseHome_linksDies (s : State) (home : Nat) : linksDies (loseHome s home) = linksDies (dropHome s home) := dropMigrations_linksDies _ _

theorem loseHome_links (s : State) (home : Nat) : (loseHome s home).links = s.links :=
  (congrArg Prod.fst (loseHome_linksDies s home)).trans (congrArg Prod.fst (breakChannels_linksDies _ _))

/-- Every sheet of a lost home is poisoned throughout. -/
theorem poison_of_loseHome {s : State} {home : Nat} {d : Die} (hd : d ∈ (loseHome s home).dies) {x : Sheet} (hx : x ∈ d.sheets)
    (hhome : homeOf (256 * x.sheet) = home) : x.poison = -1#64 := by
  rw [show (loseHome s home).dies = (dropHome s home).dies from congrArg Prod.snd (loseHome_linksDies s home), dropHome,
    show (breakChannels _ home).dies = _ from congrArg Prod.snd (breakChannels_linksDies _ home)] at hd
  obtain ⟨d', -, rfl⟩ := Vector.mem_map.mp hd
  obtain ⟨y, -, rfl⟩ := List.mem_map.mp hx
  by_cases hy : homeOf (256 * y.sheet) = home
  · rw [if_pos hy]
  · rw [if_neg hy] at hhome
    exact absurd hhome hy

/-! ## Links (R423) -/

/-- A link whose units have trained. -/
def Link.trainedAt (l : Link) (units tick : Nat) : Link :=
  { l with trained := units, state := if units = l.units then .active else .degraded, since := tick, retries := 0,
           resend := l.unacked.map fun x => x.1 }

/-- A link as it trains again. -/
def Link.retrained (l : Link) (tick : Nat) (recent : List Nat) : Link :=
  { l with state := .retraining, since := tick, retries := 0, asked := [], retrainings := recent ++ [tick] }

/-- A link as an acknowledgement in a flit leaves it. -/
def Link.acknowledged (l : Link) (ack : BitVec 12) (credits : BitVec 32) : Link :=
  { l with unacked := l.unacked.filter (fun x => decide ((x.1 - ack - 1#12).toNat < 2048)),
           retries := if (l.retrySeq - ack - 1#12).toNat < 2048 then l.retries else 0,
           resend := l.resend.filter (fun x => decide ((x - ack - 1#12).toNat < 2048)), credits := l.credits + credits }

theorem findLink_congr {s t : State} (h : t.links = s.links) (id : LinkId) : findLink t id = findLink s id := by rw [findLink, h]; rfl

theorem linkBroken_congr {s t : State} (h : t.links = s.links) (id : LinkId) : linkBroken t id = linkBroken s id := by
  rw [linkBroken, findLink_congr h]; rfl

theorem findLink_modLink_self {s : State} {id : LinkId} {l : Link} {f : Link → Link} (hf : ∀ l, (f l).id = l.id) (h : findLink s id = some l) :
    findLink (modLink s id f) id = some (f l) := by
  rw [findLink, modLink, find?_map_update (fun l : Link => l.id) _ _ _ _ fun l hl => (hf l).trans hl, if_pos rfl]
  exact congrArg (Option.map f) h

theorem portGone_links (s : State) (id : LinkId) : (portGone s id).links = s.links := by
  cases id with
  | cxl d => exact loseHome_links s d
  | _ => rfl

theorem portGone_of_ne {id : LinkId} (h : ∀ d, id ≠ .cxl d) (s : State) : portGone s id = s := by
  cases id with
  | cxl d => exact absurd rfl (h d)
  | _ => rfl

@[simp] theorem logHealth_links (s : State) (die kind unit count addr : Nat) : (logHealth s die kind unit count addr).links = s.links := by
  rw [logHealth_eq]

theorem findLink_failLink {s : State} {id : LinkId} {l : Link} (h : findLink s id = some l) :
    findLink (failLink s id) id = some { l with state := .failed, since := s.tick } := by
  refine (findLink_congr ((portGone_links _ _).trans (logHealth_links _ _ _ _ _ _)) id).trans ?_
  exact findLink_modLink_self (f := fun l => { l with state := .failed, since := s.tick }) (fun _ => rfl) h

theorem failLink_frame {id : LinkId} (hid : ∀ d, id ≠ .cxl d) (s : State) : (failLink s id).mem = s.mem ∧ (failLink s id).gangs = s.gangs := by
  rw [failLink, portGone_of_ne hid]
  exact ⟨logHealth_mem _ _ _ _ _ _, logHealth_gangs _ _ _ _ _ _⟩

/-! ## Isolation of the guest (R455) -/

theorem guestFails_links (s : State) (j : GuestJob) (status : Nat) : (guestFails s j status).links = s.links := by
  unfold guestFails
  split <;> rfl

theorem endGuestJob_links (s : State) (j : GuestJob) (word : List Byte) : (endGuestJob s j word).links = s.links := by
  unfold endGuestJob
  dsimp only
  split
  · rfl
  · exact (modCore_links _ _ _ _).trans (modCore_links _ _ _ _)

theorem isolate_links (s : State) (cause : Nat) :
    (isolate s cause).links = (modLink s .guest fun l => { l with state := .disabled, since := s.tick }).links := by
  have hjobs := foldl_keeps State.links (f := fun s j => endGuestJob (guestFails s j stGuestAbort) j (abortBytes s j))
    (fun _ _ => (endGuestJob_links _ _ _).trans (guestFails_links _ _ _)) s.guest.jobs
    (modLink s .guest fun l => { l with state := .disabled, since := s.tick })
  exact (logHealth_links _ _ _ _ _ _).trans hjobs

/-! ## Retries (R423) -/

theorem retrainLink_of_frequent {s : State} {id : LinkId} {l : Link}
    (h : (l.retrainings.filter fun t => decide (s.tick < t + 1000000000)).length ≥ 2) : retrainLink s id l = failLink s id := if_pos h

theorem retrainLink_of_rare {s : State} {id : LinkId} {l : Link}
    (h : ¬ (l.retrainings.filter fun t => decide (s.tick < t + 1000000000)).length ≥ 2) :
    retrainLink s id l = modLink s id fun x => x.retrained s.tick (l.retrainings.filter fun t => decide (s.tick < t + 1000000000)) := if_neg h

theorem retrainLink_frame {id : LinkId} (hid : ∀ d, id ≠ .cxl d) (s : State) (l : Link) :
    (retrainLink s id l).mem = s.mem ∧ (retrainLink s id l).gangs = s.gangs := by
  by_cases h : (l.retrainings.filter fun t => decide (s.tick < t + 1000000000)).length ≥ 2
  · rw [retrainLink_of_frequent h]
    exact failLink_frame hid s
  · rw [retrainLink_of_rare h]
    exact ⟨rfl, rfl⟩

theorem retryLink_frame {id : LinkId} (hid : ∀ d, id ≠ .cxl d) (s : State) (seq : BitVec 12) :
    (retryLink s id seq).mem = s.mem ∧ (retryLink s id seq).gangs = s.gangs := by
  unfold retryLink
  split
  case h_1 => exact ⟨rfl, rfl⟩
  case h_2 l _ =>
    generalize (if l.retrySeq = seq then l.retries + 1 else 1) = n
    by_cases hn : n ≥ 16
    · simp only [hn, if_true]
      exact retrainLink_frame hid s l
    · simp only [hn, if_false]
      exact ⟨rfl, rfl⟩

end Sys2Proof.Machine

namespace Sys2Proof
open Machine

theorem proxyGone_loseHome {s : State} {d : Nat} (h : linkBroken s (.cxl d) = true) : ProxyGone (loseHome s d) d := by
  refine ⟨fun hd => ?_, fun die hdie x hx hhome => poison_of_loseHome hdie hx hhome⟩
  rw [homeLost, linkBroken_congr (loseHome_links s d), h]
  simp [hd]

theorem linkBroken_of_found {s : State} {id : LinkId} {l : Link} (h : findLink s id = some l) (hstate : l.state = .failed ∨ l.state = .disabled) :
    linkBroken s id = true := by
  simpa [linkBroken, h] using hstate

theorem proxyGone_portGone {s : State} {id : LinkId} {l : Link} (h : findLink s id = some l) (hstate : l.state = .failed ∨ l.state = .disabled)
    (d : Nat) (hid : id = .cxl d) : ProxyGone (portGone s id) d := by
  subst hid
  exact proxyGone_loseHome (linkBroken_of_found h hstate)

section
variable {s : State} {id : LinkId} {l : Link} (hl : findLink s id = some l)
include hl

theorem retrains_retrainLink : Retrains s (retrainLink s id l) id l := by
  refine ⟨?_, fun hid => retrainLink_frame hid s l⟩
  by_cases h : (l.retrainings.filter fun t => decide (s.tick < t + 1000000000)).length ≥ 2
  · rw [retrainLink_of_frequent h, if_pos h]
    exact ⟨_, findLink_failLink hl, rfl, rfl⟩
  · rw [retrainLink_of_rare h, if_neg h]
    exact ⟨_, findLink_modLink_self (fun _ => rfl) hl, rfl, rfl⟩

/-! ## Training (R423) -/

theorem exec_linkTrained {units : Nat} (htraining : training l = true) (hpos : 0 < units) (hle : units ≤ l.units)
    (hsoon : s.tick < l.since + 10000000) : ∃ t, exec (.linkTrained id units) s = .next t
      ∧ findLink t id = some (l.trainedAt units s.tick) ∧ t.mem = s.mem ∧ t.gangs = s.gangs := by
  have hopen : (!training l || decide (units = 0) || decide (l.units < units) || decide (l.since + trainLimit ≤ s.tick)) = false := by
    simp [htraining, hpos.ne', hle, trainLimit, Nat.not_le.mpr hsoon]
  have hfound : findLink (modLink s id fun l => l.trainedAt units s.tick) id = some (l.trainedAt units s.tick) :=
    findLink_modLink_self (fun _ => rfl) hl
  change ∃ t, execLinkTrained id units s = .next t ∧ _
  simp only [execLinkTrained, hl, hopen, Bool.false_eq_true, if_false]
  split_ifs
  · exact ⟨_, rfl, (findLink_congr (logHealth_links _ _ _ _ _ _) id).trans hfound, logHealth_mem _ _ _ _ _ _, logHealth_gangs _ _ _ _ _ _⟩
  · exact ⟨_, rfl, hfound, rfl, rfl⟩
  · exact ⟨_, rfl, (findLink_congr (logHealth_links _ _ _ _ _ _) id).trans hfound, logHealth_mem _ _ _ _ _ _, logHealth_gangs _ _ _ _ _ _⟩
  · exact ⟨_, rfl, hfound, rfl, rfl⟩

theorem exec_linkTrained_late (hlate : l.since + 10000000 ≤ s.tick) (units : Nat) : exec (.linkTrained id units) s = .next s := by
  have hclosed : (!training l || decide (units = 0) || decide (l.units < units) || decide (l.since + trainLimit ≤ s.tick)) = true := by
    simp [trainLimit, hlate]
  change execLinkTrained id units s = _
  simp only [execLinkTrained, hl, hclosed, if_true, idle]

theorem exec_linkTrainTimeout (htraining : training l = true) (hlate : l.since + 10000000 ≤ s.tick) :
    exec (.linkTrainTimeout id) s = .next (failLink s id) := by
  have hdue : (training l && decide (l.since + trainLimit ≤ s.tick)) = true := by simp [htraining, trainLimit, hlate]
  change execLinkTrainTimeout id s = _
  simp only [execLinkTrainTimeout, hl, hdue, if_true]

theorem proxyGone_failLink (d : Nat) (hid : id = .cxl d) : ProxyGone (failLink s id) d := by
  refine proxyGone_portGone (l := { l with state := .failed, since := s.tick }) ?_ (.inl rfl) d hid
  exact (findLink_congr (logHealth_links _ _ _ _ _ _) id).trans (findLink_modLink_self (fun _ => rfl) hl)

/-! ## The host disables a link (R424) -/

theorem exec_linkDisabled (hopen : hostOpen s = true) (hstate : l.state ≠ .disabled) : exec (.linkDisabled id) s = .next (disableLink s id) := by
  change execLinkDisabled id s = _
  simp [execLinkDisabled, hl, hopen, hstate]

theorem findLink_disableLink : findLink (disableLink s id) id = some { l with state := .disabled, since := s.tick } := by
  unfold disableLink
  split
  case isTrue hid =>
    rw [findLink_congr (isolate_links s 0), ← hid]
    exact findLink_modLink_self (fun _ => rfl) hl
  case isFalse =>
    rw [findLink_congr (portGone_links _ id)]
    exact findLink_modLink_self (fun _ => rfl) hl

theorem proxyGone_disableLink (d : Nat) (hid : id = .cxl d) : ProxyGone (disableLink s id) d := by
  rw [disableLink, if_neg (by simp [hid])]
  exact proxyGone_portGone (findLink_modLink_self (f := fun l => { l with state := .disabled, since := s.tick }) (fun _ => rfl) hl) (.inr rfl) d hid

omit hl in
theorem disableLink_frame (hid : ∀ d, id ≠ .cxl d) (hguest : id ≠ .guest) : (disableLink s id).mem = s.mem ∧ (disableLink s id).gangs = s.gangs := by
  rw [disableLink, if_neg hguest, portGone_of_ne hid]
  exact ⟨rfl, rfl⟩

/-! ## Retry requests (R423) -/

section
variable (hup : linkUp s id = true) {seq : BitVec 12} {n : Nat} (hn : n = if l.retrySeq = seq then l.retries + 1 else 1)
include hup hn

theorem exec_retryRequest_resends (hlt : n < 16) : exec (.retryRequest id seq) s
    = .next (modLink s id fun l => { l with retries := n, retrySeq := seq, resend := resendFrom l.unacked seq }) := by
  change execRetryRequest id seq s = _
  simp only [execRetryRequest, hup, if_true, retryLink, hl, ← hn]
  rw [if_neg (Nat.not_le.mpr hlt)]

theorem exec_retryRequest_retrains (hge : 16 ≤ n) : exec (.retryRequest id seq) s = .next (retrainLink s id l) := by
  change execRetryRequest id seq s = _
  simp only [execRetryRequest, hup, if_true, retryLink, hl, ← hn]
  rw [if_pos hge]

end

/-! ## Flits (R425) -/

/-- What a receiver sees first of a flit: a CRC that does not match, or a payload flit out of order. -/
def flitBad (l : Link) (flit : BitVec 2048) : Prop :=
  crc32c (bytesOfNat 248 flit.toNat) ≠ flit.extractLsb' 1984 32 ∨ flit.extractLsb' 0 4 = 1#4 ∧ flit.extractLsb' 4 12 ≠ l.expect

/-- The machine once a flit's acknowledgement and credits are taken. -/
def flitTaken (s : State) (id : LinkId) (flit : BitVec 2048) : State :=
  guestCredits (modLink s id fun l => l.acknowledged (flit.extractLsb' 16 12) (flit.extractLsb' 32 32)) id (flit.extractLsb' 32 32).toNat

section
variable (hup : linkUp s id = true) {flit : BitVec 2048}
include hup

theorem exec_flitReceive_bad (hbad : flitBad l flit) : exec (.flitReceive id flit) s = .next (askRetry s id) := by
  change execFlitReceive id flit s = _
  simp only [execFlitReceive, hl, hup, Bool.not_true, Bool.false_eq_true, if_false]
  by_cases hcrc : crc32c (bytesOfNat 248 flit.toNat) = flit.extractLsb' 1984 32
  · obtain ⟨htype, hseq⟩ := hbad.resolve_left (not_not.mpr hcrc)
    rw [if_neg (not_not.mpr hcrc), htype, if_neg (by decide), if_pos ⟨rfl, hseq⟩]
  · rw [if_pos hcrc]

section
variable (hcrc : crc32c (bytesOfNat 248 flit.toNat) = flit.extractLsb' 1984 32)
include hcrc

theorem exec_flitReceive_unknown (htype : 3 < (flit.extractLsb' 0 4).toNat) : exec (.flitReceive id flit) s = .next s := by
  change execFlitReceive id flit s = _
  simp only [execFlitReceive, hl, hup, Bool.not_true, Bool.false_eq_true, if_false, hcrc, ne_eq, not_true_eq_false]
  rw [if_pos htype]

theorem exec_flitReceive_taken (htype : (flit.extractLsb' 0 4).toNat ≤ 3) (hseq : flit.extractLsb' 0 4 = 1#4 → flit.extractLsb' 4 12 = l.expect) :
    exec (.flitReceive id flit) s = .next (
      if flit.extractLsb' 0 4 = 1#4 then takePayload (modLink (flitTaken s id flit) id fun l =>
        { l with expect := l.expect + 1#12, acked := flit.extractLsb' 4 12, asked := [] }) id (flit.extractLsb' 64 1920)
      else if flit.extractLsb' 0 4 = 3#4 then retryLink (flitTaken s id flit) id (flit.extractLsb' 4 12)
      else flitTaken s id flit) := by
  have horder : ¬ ((flit.extractLsb' 0 4).toNat = 1 ∧ flit.extractLsb' 4 12 ≠ l.expect) :=
    fun h => h.2 (hseq (BitVec.eq_of_toNat_eq h.1))
  change execFlitReceive id flit s = _
  simp only [execFlitReceive, hl, hup, Bool.not_true, Bool.false_eq_true, if_false, hcrc, ne_eq, not_true_eq_false]
  rw [if_neg (Nat.not_lt.mpr htype), if_neg horder]
  generalize flit.extractLsb' 0 4 = ftype at htype ⊢
  obtain rfl | rfl | rfl | rfl : ftype = 0#4 ∨ ftype = 1#4 ∨ ftype = 2#4 ∨ ftype = 3#4 := by bv_omega
  · rw [if_neg (by decide), if_neg (by decide)]
    rfl
  · rw [if_pos rfl]
    rfl
  · rw [if_neg (by decide), if_neg (by decide)]
    rfl
  · rw [if_neg (by decide), if_pos rfl]
    rfl

end

end

theorem askRetry_asks (h : (l.asked.takeWhile fun x => decide (x = l.expect)).length < 15) :
    askRetry s id = modLink s id fun l => { l with asked := l.expect :: l.asked } := by
  simp only [askRetry, hl]
  rw [if_neg (Nat.not_le.mpr h)]

theorem askRetry_retrains (h : 15 ≤ (l.asked.takeWhile fun x => decide (x = l.expect)).length) : askRetry s id = retrainLink s id l := by
  simp only [askRetry, hl]
  rw [if_pos h]

theorem findLink_flitTaken (hguest : id ≠ .guest) (flit : BitVec 2048) :
    findLink (flitTaken s id flit) id = some (l.acknowledged (flit.extractLsb' 16 12) (flit.extractLsb' 32 32)) := by
  rw [flitTaken, guestCredits, if_neg hguest]
  exact findLink_modLink_self (fun _ => rfl) hl

omit hl in
theorem flitTaken_frame (hguest : id ≠ .guest) (flit : BitVec 2048) : (flitTaken s id flit).mem = s.mem ∧ (flitTaken s id flit).gangs = s.gangs := by
  rw [flitTaken, guestCredits, if_neg hguest]
  exact ⟨rfl, rfl⟩

omit hl in
theorem mem_acknowledged {ack : BitVec 12} {credits : BitVec 32} {x : BitVec 12 × BitVec 1920} (hx : x ∈ (l.acknowledged ack credits).unacked) :
    x ∈ l.unacked ∧ (x.1 - ack - 1#12).toNat < 2048 := by
  simpa [Link.acknowledged] using hx

end

/-- Settles O51: each step of a link is its own case, and a link that carries nothing any more takes its proxy home with it. -/
theorem linkStates : Obligations.LinkStates := by
  refine fun s id l hl => ⟨fun units htraining hpos hle hsoon => ?_, fun htraining hlate => ?_, fun hopen hstate => ?_, fun hup =>
    ⟨fun seq n hn => ⟨fun hlt => ?_, fun hge => ?_⟩, fun flit => ⟨fun hbad => ⟨fun hfew => ?_, fun hmany => ?_⟩,
      fun hcrc htype => exec_flitReceive_unknown hl hup hcrc htype, fun hcrc htype hseq => ?_⟩⟩⟩
  · obtain ⟨t, hexec, hfound, hmem, hgangs⟩ := exec_linkTrained hl htraining hpos hle hsoon
    exact ⟨t, _, hexec, hfound, hmem, hgangs, rfl, rfl, rfl, rfl⟩
  · exact ⟨exec_linkTrained_late hl hlate, _, exec_linkTrainTimeout hl htraining hlate, findLink_failLink hl,
      fun hid => failLink_frame hid s, proxyGone_failLink hl⟩
  · exact ⟨_, _, exec_linkDisabled hl hopen hstate, findLink_disableLink hl, rfl, disableLink_frame, proxyGone_disableLink hl⟩
  · refine ⟨_, exec_retryRequest_resends hl hup hn hlt, rfl, rfl, ?_⟩
    exact findLink_modLink_self (f := fun l => { l with retries := n, retrySeq := seq, resend := resendFrom l.unacked seq }) (fun _ => rfl) hl
  · exact ⟨_, exec_retryRequest_retrains hl hup hn hge, retrains_retrainLink hl⟩
  · rw [exec_flitReceive_bad hl hup hbad, askRetry_asks hl hfew]
  · rw [exec_flitReceive_bad hl hup hbad, askRetry_retrains hl hmany]
    exact ⟨_, rfl, retrains_retrainLink hl⟩
  · refine ⟨_, exec_flitReceive_taken hl hup hcrc htype hseq, fun l' hguest hfound => ?_⟩
    have htaken := findLink_flitTaken hl hguest flit
    have hframe := flitTaken_frame (s := s) hguest flit
    have hpayload : ∀ u, takePayload u id (flit.extractLsb' 64 1920) = u := fun u => if_neg hguest
    by_cases h1 : flit.extractLsb' 0 4 = 1#4
    · rw [if_pos h1, hpayload] at hfound ⊢
      obtain rfl := Option.some.inj (hfound.symm.trans (findLink_modLink_self (fun _ => rfl) htaken))
      exact ⟨fun _ => hframe, fun _ => ⟨rfl, fun x hx => mem_acknowledged (credits := flit.extractLsb' 32 32) hx⟩, fun _ => ⟨rfl, hseq h1, rfl⟩⟩
    · rw [if_neg h1] at hfound ⊢
      by_cases h3 : flit.extractLsb' 0 4 = 3#4
      · rw [if_pos h3] at hfound ⊢
        obtain ⟨hmem, hgangs⟩ := hframe
        refine ⟨fun hid => ?_, fun hne => absurd h3 hne, fun h => absurd h h1⟩
        obtain ⟨hmem', hgangs'⟩ := retryLink_frame hid (flitTaken s id flit) (flit.extractLsb' 4 12)
        exact ⟨hmem'.trans hmem, hgangs'.trans hgangs⟩
      · rw [if_neg h3] at hfound ⊢
        obtain rfl := Option.some.inj (htaken.symm.trans hfound)
        exact ⟨fun _ => hframe, fun _ => ⟨rfl, fun x hx => mem_acknowledged hx⟩, fun h => absurd h h1⟩

end Sys2Proof

/-!
Accesses from outside (R315, R428-R430, R434), migrations and bias changes (R317, R318) and shootdowns (R319): O49.
-/
namespace Sys2Proof.Machine

/-! ## What stands at a home, by the parts of the machine that it depends on -/

/-- What the bytes at homes, the page tables and a home's writes depend on: the migrations that move bytes among them. -/
def homeView (s : State) : List Host.Cell × List Context × BitVec 32 × List Link × List Migration :=
  (s.mem, s.contexts, s.lost, s.links, s.migrations.filter fun m => m.bias.isNone)

theorem standsAt_eq_filter (s : State) (pa : Nat) : standsAt s pa =
    match (s.migrations.filter fun m => m.bias.isNone).find? fun m => decide (m.old ≤ pa) && decide (pa < m.old + m.size) with
    | some m => if pa - m.old < m.boundary then m.new + (pa - m.old) else pa
    | none => pa := by
  rw [List.find?_filter]
  unfold standsAt
  simp only [Bool.and_assoc, Bool.and_eq_true, decide_eq_true_eq, Bool.decide_and, Bool.decide_eq_true] <;> rfl

section
variable {s u : State} (h : homeView s = homeView u)
include h

theorem standsAt_of_homeView (pa : Nat) : standsAt s pa = standsAt u pa := by
  have hmigrations : (s.migrations.filter fun m => m.bias.isNone) = u.migrations.filter fun m => m.bias.isNone :=
    congrArg (fun x => x.2.2.2.2) h
  rw [standsAt_eq_filter, standsAt_eq_filter, hmigrations]

theorem mem_of_homeView : s.mem = u.mem := congrArg Prod.fst h

theorem homeNat_of_homeView (pa n : Nat) : homeNat s pa n = homeNat u pa n := by
  rw [homeNat, homeNat, standsAt_of_homeView h, mem_of_homeView h]

theorem homeLost_of_homeView (home : Nat) : homeLost s home = homeLost u home :=
  homeLost_congr (congrArg (fun x => x.2.2.1) h) (congrArg (fun x => x.2.2.2.1) h) home

theorem leafPlace_of_homeView (va : BitVec 64) (fuel lv table : Nat) : leafPlace s va fuel lv table = leafPlace u va fuel lv table := by
  induction fuel generalizing lv table with
  | zero => rfl
  | succ fuel ih => simp only [leafPlace, homeNat_of_homeView h, ih]

theorem contextLeaf_of_homeView (ctx : Nat) (va : BitVec 64) : contextLeaf s ctx va = contextLeaf u ctx va := by
  have hcontexts : s.contexts = u.contexts := congrArg (fun x => x.2.1) h
  simp only [contextLeaf, findContext, hcontexts, leafPlace_of_homeView h]

theorem homeWrite_homeView (pa : Nat) (l : List Byte) : homeView (homeWrite s pa l) = homeView (homeWrite u pa l) := by
  simp only [homeWrite, standsAt_of_homeView h, homeLost_of_homeView h]
  split
  · exact h
  · simp only [homeView, Prod.mk.injEq] at h ⊢
    obtain ⟨hmem, hrest⟩ := h
    exact ⟨by rw [hmem], hrest⟩

end

theorem performHome_homeView (s : State) (pa : Nat) (l : List Byte) (ops : List Nat) :
    homeView (performHome s pa l ops) = homeView (homeWrite s pa l) := by
  refine foldl_keeps homeView (f := fun s a => noteUnfolded s (homeOf pa) l.length ops a) (fun s a => ?_) _ _
  unfold noteUnfolded
  split <;> rfl

theorem standsAt_congr {s t : State} (h : t.migrations = s.migrations) (pa : Nat) : standsAt t pa = standsAt s pa := by
  rw [standsAt, h]; rfl

/-! ## Entries that are switched (R317, R318) -/

/-- One entry of a page is switched. -/
def switchEntry (m : Migration) (s : State) (k : Nat) : State :=
  match contextLeaf s m.ctx (BitVec.ofNat 64 (m.va + m.size / pageEntries m.size * k)) with
  | some (a, e) => if pteRemote e || decide (pteAddr e ≠ m.old) then s else performHome s a (bytesOfNat 8 (movedEntry m e).toNat) []
  | none => s

theorem switchEntries_eq (s : State) (m : Migration) : switchEntries s m = (List.range (pageEntries m.size)).foldl (switchEntry m) s := rfl

theorem switchEntry_homeView {s u : State} (h : homeView s = homeView u) (m : Migration) (k : Nat) :
    homeView (switchEntry m s k) = homeView (switchEntry m u k) := by
  unfold switchEntry
  rw [contextLeaf_of_homeView h]
  split
  · split
    · exact h
    · rw [performHome_homeView, performHome_homeView, homeWrite_homeView h]
  · exact h

theorem switchEntries_homeView {s u : State} (h : homeView s = homeView u) (m : Migration) :
    homeView (switchEntries s m) = homeView (switchEntries u m) := by
  rw [switchEntries_eq, switchEntries_eq]
  generalize List.range (pageEntries m.size) = l
  induction l generalizing s u with
  | nil => exact h
  | cons k rest ih => exact ih (switchEntry_homeView h m k)

theorem switchEntry_outsideMemory (m : Migration) (s : State) (k : Nat) : outsideMemory (switchEntry m s k) = outsideMemory s := by
  unfold switchEntry
  split
  · split
    · rfl
    · exact performHome_outsideMemory _ _ _ _
  · rfl

theorem switchEntries_outsideMemory (s : State) (m : Migration) : outsideMemory (switchEntries s m) = outsideMemory s :=
  foldl_keeps outsideMemory (switchEntry_outsideMemory m) _ _

/-- A migrated page's sharers change nothing but what homes keep of pages. -/
theorem moveSharers_eq (s : State) (m : Migration) : moveSharers s m = { s with homePages := (moveSharers s m).homePages } := by
  have hmod : ∀ (s : State) (g : Nat) (f : HomePage → HomePage), modHomePage s g f = { s with homePages := (modHomePage s g f).homePages } := by
    intro s g f
    unfold modHomePage
    split <;> rfl
  have hkeeps : ({ moveSharers s m with homePages := [] } : State) = { s with homePages := [] } := by
    unfold moveSharers
    split
    · rfl
    · refine foldl_keeps (fun s : State => { s with homePages := [] }) (fun s k => ?_) _ s
      dsimp only
      split
      · rfl
      · rw [hmod]
  have hback : moveSharers s m = { ({ moveSharers s m with homePages := [] } : State) with homePages := (moveSharers s m).homePages } := rfl
  rw [hkeeps] at hback
  exact hback

/-! ## Shootdowns (R319) -/

/-- What a shootdown's beginning leaves as it is. -/
def shootPart (s : State) : List Host.Cell × List Migration := (s.mem, s.migrations)

theorem getDie_modDie_cases (s : State) (d j : Nat) (f : Die → Die) :
    getDie (modDie s d f) j = f (getDie s j) ∨ getDie (modDie s d f) j = getDie s j := by
  by_cases h : Fin.ofNat 8 j = Fin.ofNat 8 d
  · left
    simp only [getDie, modDie, h, Vector.get_eq_getElem, Vector.getElem_set_self]
  · right
    have hne : (Fin.ofNat 8 d).val ≠ (Fin.ofNat 8 j).val := fun e => h (Fin.ext e.symm)
    simp only [getDie, modDie, Vector.get_eq_getElem, Vector.getElem_set_ne _ _ hne]

theorem length_cellsRead (m : List Host.Cell) (a n : Nat) : (cellsRead m a n).length = n := by simp [cellsRead]

theorem cellsRead_cellsWrite_same {m : List Host.Cell} (w : Memory.wf m = true) {a n : Nat} {l : List Byte} (h : l.length = n) :
    cellsRead (cellsWrite m a l) a n = l := h ▸ cellsRead_cellsWrite w a l

theorem modMigration_poison (s : State) (page : Nat) (f : Migration → Migration) : (modMigration s page f).poison = s.poison := rfl

theorem modMigration_mem (s : State) (page : Nat) (f : Migration → Migration) : (modMigration s page f).mem = s.mem := rfl

/-- A die holds no entry of the range. -/
def NoEntry (ctx first len : Nat) (s : State) (j : Nat) : Prop := ∀ x ∈ (getDie s j).tlb, x.meets ctx first len = false

theorem noEntry_forgetRange (ctx first len : Nat) (s : State) (j : Nat) : NoEntry ctx first len (forgetRange ctx first len s j) j := by
  intro x hx
  rw [forgetRange, getDie_modDie] at hx
  simpa using (List.mem_filter.mp hx).2

theorem NoEntry.forget {ctx first len : Nat} {s : State} {j : Nat} (h : NoEntry ctx first len s j) (d : Nat) :
    NoEntry ctx first len (forgetRange ctx first len s d) j := by
  intro x hx
  obtain hcase | hcase := getDie_modDie_cases s d j fun d => { d with tlb := d.tlb.filter fun x => !x.meets ctx first len }
  · rw [forgetRange, hcase] at hx
    exact h x (List.mem_filter.mp hx).1
  · rw [forgetRange, hcase] at hx
    exact h x hx

theorem noEntry_foldl (ctx first len : Nat) {l : List Nat} {j : Nat} (hj : j ∈ l) (s : State) :
    NoEntry ctx first len (l.foldl (forgetRange ctx first len) s) j := by
  have hkeeps : ∀ (l : List Nat) (s : State), NoEntry ctx first len s j → NoEntry ctx first len (l.foldl (forgetRange ctx first len) s) j := by
    intro l
    induction l with
    | nil => exact fun _ h => h
    | cons d rest ih => exact fun s h => ih _ (h.forget d)
  induction l generalizing s with
  | nil => cases hj
  | cons d rest ih =>
    rcases List.mem_cons.mp hj with rfl | hj
    · exact hkeeps rest _ (noEntry_forgetRange ctx first len s j)
    · exact ih hj _

theorem shootDies_keeps (ctx first len : Nat) (l : List Nat) (s : State) :
    shootPart (shootDies ctx first len l s).1 = shootPart s ∧ (shootDies ctx first len l s).2.map (fun k => k.1) = l := by
  induction l generalizing s with
  | nil => exact ⟨rfl, rfl⟩
  | cons d rest ih =>
    obtain ⟨hpart, htasks⟩ := ih (shootDie ctx first len s d).1
    exact ⟨hpart, congrArg (d :: ·) htasks⟩

/-- The machine without its links and its guest. -/
def outsideGuest (s : State) : State := { s with links := [], guest := Guest.reset }

theorem modGuest_outsideGuest (s : State) (f : Guest → Guest) : outsideGuest (modGuest s f) = outsideGuest s := rfl

theorem sendFlits_outsideGuest (s : State) (id : LinkId) (fuel : Nat) (l : List Byte) : outsideGuest (sendFlits s id fuel l) = outsideGuest s := by
  induction fuel generalizing s l with
  | zero => rfl
  | succ fuel ih =>
    unfold sendFlits
    split
    · rfl
    · exact ih _ _

theorem sendGuest_outsideGuest (s : State) (mtype : Nat) (rtag : BitVec 16) (sq : BitVec 4) (seq : BitVec 16) (psn : Bool) (body : List Byte) :
    outsideGuest (sendGuest s mtype rtag sq seq psn body) = outsideGuest s := by
  unfold sendGuest
  dsimp only
  rw [modGuest_outsideGuest, sendFlits_outsideGuest]

theorem sendInval_outsideGuest (s : State) (shoot ctx va len : Nat) : outsideGuest (sendInval s shoot ctx va len) = outsideGuest s := by
  unfold sendInval
  dsimp only
  rw [modGuest_outsideGuest, sendGuest_outsideGuest]

theorem dies_sendInval (s : State) (shoot ctx va len : Nat) : (sendInval s shoot ctx va len).dies = s.dies := by
  have hpart := congrArg State.dies (sendInval_outsideGuest s shoot ctx va len)
  exact hpart

theorem shootPart_of_outsideGuest {s t : State} (h : outsideGuest t = outsideGuest s) : shootPart t = shootPart s := by
  have hpart := congrArg shootPart h
  exact hpart

/-- The machine once every die has dropped its entries of the range, before the guest is told. -/
def shotDies (s : State) (ctx first len : Nat) : State :=
  (List.range 8).foldl (forgetRange ctx first len) (shootDies ctx first len (contextDies s ctx) { s with nextUid := s.nextUid + 1 }).1

/-- The machine once the guest is told, too. -/
def shotGuest (s : State) (ctx first len : Nat) : State :=
  if guestHolds s ctx then sendInval (shotDies s ctx first len) s.nextUid ctx first len else shotDies s ctx first len

/-- The record of a shootdown that begins. -/
def newShoot (s : State) (ctx first len : Nat) (admin : Bool) : Shoot :=
  { id := s.nextUid, ctx := ctx, first := first, len := len,
    tasks := (shootDies ctx first len (contextDies s ctx) { s with nextUid := s.nextUid + 1 }).2,
    guest := if guestHolds s ctx then some ctx else none, admin := admin }

theorem startShoot_eq (s : State) (ctx first len : Nat) (admin : Bool) : startShoot s ctx first len admin
    = ({ shotGuest s ctx first len with shoots := (shotGuest s ctx first len).shoots ++ [newShoot s ctx first len admin] }, s.nextUid) := rfl

theorem newShoot_tasks (s : State) (ctx first len : Nat) (admin : Bool) :
    (newShoot s ctx first len admin).tasks.map (fun k => k.1) = contextDies s ctx := (shootDies_keeps _ _ _ _ _).2

theorem shotGuest_part (s : State) (ctx first len : Nat) : shootPart (shotGuest s ctx first len) = shootPart s := by
  have hdies : shootPart (shotDies s ctx first len) = shootPart s :=
    (foldl_keeps shootPart (f := forgetRange ctx first len) (fun _ _ => rfl) _ _).trans (shootDies_keeps _ _ _ _ _).1
  unfold shotGuest
  split
  · exact (shootPart_of_outsideGuest (sendInval_outsideGuest _ _ _ _ _)).trans hdies
  · exact hdies

theorem noEntry_shotGuest (s : State) (ctx first len : Nat) {j : Nat} (hj : j < 8) : NoEntry ctx first len (shotGuest s ctx first len) j := by
  have hdies : NoEntry ctx first len (shotDies s ctx first len) j := noEntry_foldl ctx first len (List.mem_range.mpr hj) _
  unfold shotGuest
  split
  · rw [NoEntry, getDie, dies_sendInval]
    exact hdies
  · exact hdies

/-! ## The closing shootdown of a page (R317, R318) -/

theorem findMigration_modMigration {s : State} {page : Nat} {m : Migration} {f : Migration → Migration} (hf : ∀ m, (f m).old = m.old)
    (h : findMigration s page = some m) : findMigration (modMigration s page f) page = some (f m) := by
  rw [findMigration, modMigration, find?_map_update (fun m : Migration => m.old) _ _ _ _ fun x hx => (hf x).trans hx, if_pos rfl]
  exact congrArg (Option.map f) h

theorem findMigration_congr {s t : State} (h : t.migrations = s.migrations) (page : Nat) : findMigration t page = findMigration s page := by
  rw [findMigration, h]; rfl

theorem contextDies_congr {s t : State} (hcontexts : t.contexts = s.contexts) (hlost : t.lost = s.lost) (ctx : Nat) :
    contextDies t ctx = contextDies s ctx := by
  simp only [contextDies, findContext, dieLost, hcontexts, hlost]

/-- The machine whose entries of a moved page are switched. -/
def switched (s : State) (m : Migration) : State := switchEntries (moveSharers s m) m

theorem switched_frame (s : State) (m : Migration) : (switched s m).migrations = s.migrations ∧ (switched s m).contexts = s.contexts
    ∧ (switched s m).lost = s.lost := by
  have houtside := switchEntries_outsideMemory (moveSharers s m) m
  have hmoved := moveSharers_eq s m
  have hmigrations := congrArg State.migrations houtside
  have hcontexts := congrArg State.contexts houtside
  have hlost := congrArg State.lost houtside
  rw [hmoved] at hmigrations hcontexts hlost
  rw [switched, hmoved]
  exact ⟨hmigrations, hcontexts, hlost⟩

section
variable {s : State} {m : Migration}

theorem closeMove_eq : closeMove s m = modMigration (startShoot (switched s m) m.ctx m.va m.size false).1 m.old
    fun x => { x with shoot := some (switched s m).nextUid } := rfl

theorem startShoot_part (s : State) (ctx first len : Nat) (admin : Bool) : shootPart (startShoot s ctx first len admin).1 = shootPart s := by
  rw [startShoot_eq]
  exact shotGuest_part s ctx first len

theorem closeMove_mem : (closeMove s m).mem = (switched s m).mem := by
  rw [closeMove_eq]
  exact congrArg Prod.fst (startShoot_part (switched s m) m.ctx m.va m.size false)

theorem findMigration_closeMove {x : Migration} (h : findMigration s m.old = some x) :
    findMigration (closeMove s m) m.old = some { x with shoot := some (switched s m).nextUid } := by
  have hmigrations : (startShoot (switched s m) m.ctx m.va m.size false).1.migrations = s.migrations :=
    (congrArg Prod.snd (startShoot_part (switched s m) m.ctx m.va m.size false)).trans (switched_frame s m).1
  rw [closeMove_eq]
  exact findMigration_modMigration (f := fun x => { x with shoot := some (switched s m).nextUid }) (fun _ => rfl)
    ((findMigration_congr hmigrations m.old).trans h)

theorem closeMove_shoots : newShoot (switched s m) m.ctx m.va m.size false ∈ (closeMove s m).shoots := by
  rw [closeMove_eq, startShoot_eq]
  exact List.mem_append_right _ (List.mem_singleton_self _)

theorem closeMove_noEntry {j : Nat} (hj : j < 8) : NoEntry m.ctx m.va m.size (closeMove s m) j := by
  rw [closeMove_eq, startShoot_eq]
  exact noEntry_shotGuest _ _ _ _ hj

theorem closeMove_tasks : (newShoot (switched s m) m.ctx m.va m.size false).tasks.map (fun k => k.1) = contextDies s m.ctx := by
  obtain ⟨-, hcontexts, hlost⟩ := switched_frame s m
  rw [newShoot_tasks, contextDies_congr hcontexts hlost]

end

/-! ## Steps of migrations, bias changes and shootdowns -/

section
variable {s : State} {page : Nat} {m : Migration} (hm : findMigration s page = some m)
include hm

theorem old_of_findMigration : m.old = page := by simpa using List.find?_some hm

/-- The machine whose line at a boundary has been copied. -/
def lineCopied (s : State) (src dst : Nat) : State :=
  { s with
      mem := cellsWrite s.mem dst (cellsRead s.mem src 128),
      poison := if s.poison.contains (src / 128) then (s.poison.filter fun l => decide (l ≠ dst / 128)) ++ [dst / 128]
        else s.poison.filter fun l => decide (l ≠ dst / 128) }

omit hm in
theorem lineCopied_migrations (s : State) (src dst : Nat) : (lineCopied s src dst).migrations = s.migrations := by
  simp only [lineCopied]

omit hm in
theorem lineCopied_mem (s : State) (src dst : Nat) : (lineCopied s src dst).mem = cellsWrite s.mem dst (cellsRead s.mem src 128) := by
  simp only [lineCopied]

omit hm in
theorem mem_lineCopied_poison_self (s : State) (src dst : Nat) : dst / 128 ∈ (lineCopied s src dst).poison ↔ src / 128 ∈ s.poison := by
  by_cases hsrc : src / 128 ∈ s.poison <;> simp [lineCopied, hsrc]

omit hm in
theorem mem_lineCopied_poison_of_ne (s : State) (src dst : Nat) {l : Nat} (hl : l ≠ dst / 128) :
    l ∈ (lineCopied s src dst).poison ↔ l ∈ s.poison := by
  by_cases hsrc : src / 128 ∈ s.poison <;> simp [lineCopied, hsrc, hl]

theorem exec_migrationLineCopy (hbias : m.bias = none) (hopen : m.boundary < m.size) : exec (.migrationLineCopy page) s
    = .next (modMigration (lineCopied s (m.old + m.boundary) (m.new + m.boundary)) page fun m => { m with boundary := m.boundary + 128 }) := by
  change execMigrationLineCopy page s = _
  simp only [execMigrationLineCopy, hm, hbias, Option.isSome_none, Bool.false_eq_true, false_or]
  rw [if_neg (Nat.not_le.mpr hopen)]
  rfl

theorem exec_migrationDone (hbias : m.bias = none) (hend : m.size ≤ m.boundary) (hshoot : m.shoot = none) :
    exec (.migrationDone page) s = .next (closeMove s m) := by
  change execMigrationDone page s = _
  simp only [execMigrationDone, hm, hbias, hshoot, Option.isNone_none, ge_iff_le, hend, and_self, if_true]

/-- The machine whose boundary of a bias change has moved past a line. -/
def boundaryMoved (s : State) (page : Nat) (m : Migration) : State := modMigration s page fun _ => { m with boundary := m.boundary + 128 }

theorem exec_biasLineStep (hbias : m.bias ≠ none) (hshoot : m.shoot = none) : exec (.biasLineStep page) s
    = .next (if m.boundary + 128 ≥ m.size then closeMove (boundaryMoved s page m) { m with boundary := m.boundary + 128 }
      else boundaryMoved s page m) := by
  have hnone : m.bias.isNone = false := by simpa [Option.isSome_iff_ne_none] using hbias
  change execBiasLineStep page s = _
  simp only [execBiasLineStep, hm, hnone, hshoot, Option.isSome_none, Bool.false_eq_true, or_self, if_false, boundaryMoved]

theorem findMigration_boundaryMoved : findMigration (boundaryMoved s page m) page = some { m with boundary := m.boundary + 128 } := by
  have hold := old_of_findMigration hm
  have hupdated := find?_map_update (fun m : Migration => m.old) s.migrations page page (fun _ => { m with boundary := m.boundary + 128 })
    fun _ _ => hold
  exact hupdated.trans ((if_pos rfl).trans (congrArg (Option.map _) hm))

omit hm in
/-- A bias change moves no byte, so its boundary does not change where bytes stand. -/
theorem boundaryMoved_homeView (hbias : m.bias ≠ none) (huniq : ∀ x ∈ s.migrations, x.old = page → x = m) :
    homeView (boundaryMoved s page m) = homeView s := by
  have hnone : m.bias.isNone = false := by simpa [Option.isSome_iff_ne_none] using hbias
  have hfilter : (boundaryMoved s page m).migrations.filter (fun m => m.bias.isNone) = s.migrations.filter fun m => m.bias.isNone := by
    simp only [boundaryMoved, modMigration]
    generalize s.migrations = l at huniq
    induction l with
    | nil => rfl
    | cons x rest ih =>
      have hrest := ih fun y hy => huniq y (.tail _ hy)
      by_cases hx : x.old = page
      · obtain rfl := huniq x (.head _) hx
        rw [List.map_cons, if_pos hx, List.filter_cons_of_neg (by simp [hnone]), List.filter_cons_of_neg (by simp [hnone])]
        exact hrest
      · simp only [List.map_cons, hx, if_false, List.filter_cons, hrest]
  exact congrArg (fun l => (s.mem, s.contexts, s.lost, s.links, l)) hfilter

end

/-- An entry of a page with one entry is switched where it stands (R317, R318). -/
theorem switchEntries_single {s : State} {m : Migration} {a : Nat} {e : BitVec 64} (hone : pageEntries m.size = 1)
    (hleaf : contextLeaf s m.ctx (BitVec.ofNat 64 m.va) = some (a, e)) (hremote : pteRemote e = false) (haddr : pteAddr e = m.old) :
    switchEntries s m = performHome s a (bytesOfNat 8 (movedEntry m e).toNat) [] := by
  rw [switchEntries_eq, hone]
  change switchEntry m s 0 = _
  simp only [switchEntry, Nat.mul_zero, Nat.add_zero, hleaf, hremote, haddr, ne_eq, not_true_eq_false, decide_false, Bool.or_self,
    Bool.false_eq_true, if_false]

/-- The bytes of an address that no migration covers stand there. -/
theorem standsAt_of_outside {s : State} {a n : Nat} (hn : 0 < n) (h : s.migrations.all (fun x => !inPage x.old x.size a n) = true) :
    standsAt s a = a := by
  have hnone : (s.migrations.find? fun m => m.bias.isNone && decide (m.old ≤ a) && decide (a < m.old + m.size)) = none := by
    rw [List.find?_eq_none]
    intro x hx
    have hout := List.all_eq_true.mp h x hx
    simp only [inPage, Bool.not_eq_true', Bool.and_eq_false_iff, decide_eq_false_iff_not, Bool.and_eq_true, decide_eq_true_eq] at hout ⊢
    omega
  simp only [standsAt, hnone]

theorem performHome_frame (s : State) (pa : Nat) (l : List Byte) (ops : List Nat) :
    (performHome s pa l ops).migrations = s.migrations ∧ (performHome s pa l ops).gangs = s.gangs := by
  have houtside := performHome_outsideMemory s pa l ops
  have hmigrations := congrArg State.migrations houtside
  exact ⟨hmigrations, gangs_of_outsideMemory houtside⟩

/-- A home write of a number whose bytes stand where their address says reads back there, and no other byte changes. -/
theorem homeNat_performHome_at {s : State} (hwf : Memory.wf s.mem = true) {pa : Nat} (hstands : standsAt s pa = pa)
    (hlost : homeLost s (homeOf pa) = false) (n x : Nat) :
    homeNat (performHome s pa (bytesOfNat n x) []) pa n = x % 256 ^ n
      ∧ ∀ a, a < pa ∨ pa + n ≤ a → cellGet (performHome s pa (bytesOfNat n x) []).mem a = cellGet s.mem a := by
  have hmem : (performHome s pa (bytesOfNat n x) []).mem = cellsWrite s.mem pa (bytesOfNat n x) := by
    rw [mem_of_homeView (performHome_homeView _ _ _ _), homeWrite, hstands, hlost]
    rfl
  rw [homeNat, standsAt_congr (performHome_frame _ _ _ _).1, hstands, hmem]
  exact ⟨natOfBytes_cellsWrite hwf _ _ _, fun a ha => cellGet_cellsWrite_outside hwf pa a _ (by rwa [length_bytesOfNat])⟩

/-! ## Accesses from outside (R315, R428-R430) -/

section
variable {s : State} {addr : Nat} {data : List Byte} (hopen : hostOpen s = true) (hheld : hostHeld s = false)
  (hspan : hostSpan addr data.length = true)
include hopen hheld hspan

theorem exec_hostRead : exec (.hostCxlMemAccess addr data false) s = .next
    { s with cxlReads := (addr, bytesOfNat data.length (homeNat s addr data.length), homePoisoned s addr) :: s.cxlReads } := by
  change execHostCxlMemAccess addr data false s = _
  simp [execHostCxlMemAccess, hopen, hheld, hspan]

theorem exec_hostWrite : exec (.hostCxlMemAccess addr data true) s = .next (performHome s addr data []) := by
  change execHostCxlMemAccess addr data true s = _
  simp [execHostCxlMemAccess, hopen, hheld, hspan]

end

section
variable {s : State} {addr : Nat} {acc : RemoteOp} {data : BitVec 128} (hsize : [1, 2, 4, 8, 16].contains (remoteSize acc) = true)
  (haligned : addr % remoteSize acc = 0) (hthere : s.deviceLost = false)
include hsize haligned hthere

theorem exec_remoteAccess : exec (.remoteAccess addr acc data) s =
    match remoteJoins s addr acc data with
    | some s' => .next s'
    | none => if addr / 2 ^ 44 = s.admin.devid.toNat ∧ paExists (addr % 2 ^ 44) then .next (remotePerform s (addr % 2 ^ 44) acc data)
      else .next s := by
  change execRemoteAccess addr acc data s = _
  simp only [execRemoteAccess, hsize, haligned, hthere, Bool.not_true, ne_eq, not_true_eq_false, decide_false, Bool.or_self, Bool.false_eq_true,
    if_false] <;> rfl

end

/-! ## SHOOTDOWN_DIE_ACK (R319) -/

theorem exec_shootdownDieAck {s : State} {id die : Nat} {x : Shoot} {k : Nat × Nat} (hx : (s.shoots.find? fun x => decide (x.id = id)) = some x)
    (hk : (x.tasks.find? fun t => decide (t.1 = die)) = some k) (hover : ∀ t, findTask s k.2 = some t → t.stage = 6) :
    exec (.shootdownDieAck id die) s = .next { dropTask s k.2 with shoots := s.shoots.map fun y =>
      if y.id = id then { y with tasks := y.tasks.filter fun k => decide (k.1 ≠ die) } else y } := by
  change execShootdownDieAck id die s = _
  simp only [execShootdownDieAck, hx, hk]
  cases htask : findTask s k.2 with
  | none => rfl
  | some t => simp only [hover t htask, decide_true, if_true]

end Sys2Proof.Machine

namespace Sys2Proof
open Machine

section
variable {s : State} {page : Nat} {m : Migration} (hm : findMigration s page = some m)
include hm

/-- The line at the boundary is copied with its poison, and the boundary moves past it. -/
theorem migrationLineCopy_copies (hbias : m.bias = none) (hopen : m.boundary < m.size) (hwf : Memory.wf s.mem = true) :
    ∃ t, exec (.migrationLineCopy page) s = .next t ∧ findMigration t page = some { m with boundary := m.boundary + 128 }
      ∧ cellsRead t.mem (m.new + m.boundary) 128 = cellsRead s.mem (m.old + m.boundary) 128
      ∧ (∀ a, a < m.new + m.boundary ∨ m.new + m.boundary + 128 ≤ a → cellGet t.mem a = cellGet s.mem a)
      ∧ ((m.new + m.boundary) / 128 ∈ t.poison ↔ (m.old + m.boundary) / 128 ∈ s.poison)
      ∧ ∀ l, l ≠ (m.new + m.boundary) / 128 → (l ∈ t.poison ↔ l ∈ s.poison) := by
  have hfound : findMigration (lineCopied s (m.old + m.boundary) (m.new + m.boundary)) page = some m :=
    (findMigration_congr (lineCopied_migrations s _ _) page).trans hm
  refine ⟨_, exec_migrationLineCopy hm hbias hopen, findMigration_modMigration (fun _ => rfl) hfound, ?_, fun a ha => ?_, ?_, fun l hl => ?_⟩
  · rw [modMigration_mem, lineCopied_mem, cellsRead_cellsWrite_same hwf (length_cellsRead _ _ _)]
  · rw [modMigration_mem, lineCopied_mem, cellGet_cellsWrite_outside hwf _ _ _ (by rwa [length_cellsRead])]
  · rw [modMigration_poison]
    exact mem_lineCopied_poison_self s _ _
  · rw [modMigration_poison]
    exact mem_lineCopied_poison_of_ne s _ _ hl

/-- At the end of the page the entries are switched and the closing shootdown begins. -/
theorem migrationDone_closes (hbias : m.bias = none) (hend : m.size ≤ m.boundary) (hshoot : m.shoot = none) :
    ∃ t n, exec (.migrationDone page) s = .next t ∧ t.mem = (switchEntries (moveSharers s m) m).mem
      ∧ findMigration t page = some { m with shoot := some n }
      ∧ (∃ x ∈ t.shoots, x.id = n ∧ x.ctx = m.ctx ∧ x.first = m.va ∧ x.len = m.size ∧ x.admin = false
          ∧ x.tasks.map (fun k => k.1) = contextDies s m.ctx)
      ∧ ∀ j < 8, NoEntry m.ctx m.va m.size t j := by
  obtain rfl := old_of_findMigration hm
  exact ⟨closeMove s m, (switched s m).nextUid, exec_migrationDone hm hbias hend hshoot, closeMove_mem, findMigration_closeMove hm,
    ⟨newShoot (switched s m) m.ctx m.va m.size false, closeMove_shoots, rfl, rfl, rfl, rfl, rfl, closeMove_tasks⟩,
    fun j hj => closeMove_noEntry hj⟩

/-- Past the last line the closing shootdown begins; before it only the boundary moves. -/
theorem biasLineStep_moves (hbias : m.bias ≠ none) (hshoot : m.shoot = none) (huniq : ∀ x ∈ s.migrations, x.old = page → x = m) :
    ∃ t n, exec (.biasLineStep page) s = .next t ∧ findMigration t page = some n ∧ n.boundary = m.boundary + 128
      ∧ (n.shoot = none ↔ m.boundary + 128 < m.size) ∧ n.bias = m.bias ∧ n.old = m.old ∧ n.size = m.size
      ∧ (m.boundary + 128 < m.size → t.mem = s.mem)
      ∧ (m.size ≤ m.boundary + 128 → t.mem = (switchEntries s m).mem ∧ ∀ j < 8, NoEntry m.ctx m.va m.size t j) := by
  obtain rfl := old_of_findMigration hm
  have hmoved := findMigration_boundaryMoved hm
  rw [exec_biasLineStep hm hbias hshoot]
  by_cases hend : m.boundary + 128 ≥ m.size
  · rw [if_pos hend]
    have hsharers : moveSharers (boundaryMoved s m.old m) { m with boundary := m.boundary + 128 } = boundaryMoved s m.old m :=
      if_pos (Option.isSome_iff_ne_none.mpr hbias)
    have hmem : (closeMove (boundaryMoved s m.old m) { m with boundary := m.boundary + 128 }).mem = (switchEntries s m).mem := by
      rw [closeMove_mem, switched, hsharers]
      exact mem_of_homeView (switchEntries_homeView (boundaryMoved_homeView hbias huniq) m)
    have hfound := findMigration_closeMove (m := { m with boundary := m.boundary + 128 }) hmoved
    have hclean : ∀ j < 8, NoEntry m.ctx m.va m.size (closeMove (boundaryMoved s m.old m) { m with boundary := m.boundary + 128 }) j :=
      fun j hj => closeMove_noEntry (m := { m with boundary := m.boundary + 128 }) hj
    exact ⟨_, _, rfl, hfound, rfl, by simpa using hend, rfl, rfl, rfl, fun hlt => absurd hlt (Nat.not_lt.mpr hend), fun _ => ⟨hmem, hclean⟩⟩
  · rw [if_neg hend]
    exact ⟨_, _, rfl, hmoved, rfl, by simpa [hshoot] using hend, rfl, rfl, rfl, fun _ => rfl, fun hle => absurd hle hend⟩

end

/-- Settles O49: accesses from outside are home reads and writes, a page's closing shootdown is the one that any begins, and a die's
acknowledgement takes its part away. -/
theorem outsideAndPages : Obligations.OutsideAndPages := by
  refine ⟨⟨fun s addr data hopen hheld hspan => ⟨exec_hostRead hopen hheld hspan, fun hwf hstill hlost => ?_⟩,
    fun s addr pa acc data hsize haligned hthere hpa => ⟨fun x hx => ?_, fun hnone hdev hpaex => ⟨fun hread => ?_, fun n x hnew hwf hstill hlost => ?_⟩⟩⟩,
    fun s page m hm hbias hopen hwf => ?_, fun s page m hm hbias hend hshoot => ?_, fun s page m hm hbias hshoot huniq => ?_,
    fun s m a e hone hleaf hremote haddr hwf hout hlost => ?_, fun s id die x k hx hk hover => ?_⟩
  · refine ⟨_, exec_hostWrite hopen hheld hspan, ?_, (performHome_frame _ _ _ _).2, fun a ha => ?_⟩
    · rw [performHome_mem hstill hlost, cellsRead_cellsWrite hwf]
    · rw [performHome_mem hstill hlost, cellGet_cellsWrite_outside hwf addr a data ha]
  · rw [exec_remoteAccess hsize haligned hthere, hx]
  · subst hpa
    rw [exec_remoteAccess hsize haligned hthere, hnone]
    simp only [hdev, hpaex, and_self, if_true, remotePerform, hread]
  · subst hpa
    refine ⟨performHome s (addr % 2 ^ 44) (bytesOfNat n x) [], ?_, ?_⟩
    · rw [exec_remoteAccess hsize haligned hthere, hnone]
      simp only [hdev, hpaex, and_self, if_true, remotePerform, hnew]
    · obtain ⟨hword, hframe⟩ := homeNat_performHome_at hwf (standsAt_of_still hstill _) hlost n x
      exact ⟨hword, (performHome_frame _ _ _ _).2, hframe⟩
  · exact migrationLineCopy_copies hm hbias hopen hwf
  · exact migrationDone_closes hm hbias hend hshoot
  · exact biasLineStep_moves hm hbias hshoot huniq
  · rw [switchEntries_single hone hleaf hremote haddr]
    obtain ⟨hword, hframe⟩ := homeNat_performHome_at hwf (standsAt_of_outside (by decide) hout) hlost 8 (movedEntry m e).toNat
    exact ⟨hword.trans (Nat.mod_eq_of_lt (movedEntry m e).isLt), hframe⟩
  · refine ⟨_, exec_shootdownDieAck hx hk hover, findTask_dropTask s k.2, rfl, rfl, ?_⟩
    have hupdated := find?_map_update (fun y : Shoot => y.id) s.shoots id id
      (fun y => { y with tasks := y.tasks.filter fun k => decide (k.1 ≠ die) }) fun _ h => h
    exact hupdated.trans ((if_pos rfl).trans (congrArg (Option.map _) hx))

end Sys2Proof

/-!
Request time-outs and reduction rounds (O52): R276, R329, R426, R430.
-/
namespace Sys2Proof.Machine

/-! ## Writes leave the gangs as they are -/

theorem ringBell_gangs (s : State) (qn : Nat) (w : BitVec 32) : (ringBell s qn w).gangs = s.gangs := by
  unfold ringBell
  split
  · rfl
  · split
    · split
      · rfl
      · exact gangs_of_outsideQueues (cancelHead_outsideQueues _ _ _)
    · rfl

theorem bellStore_gangs (s : State) (ctx off n x : Nat) : (bellStore s ctx off n x).gangs = s.gangs := by
  unfold bellStore
  split
  · rfl
  · split
    · split
      · exact ringBell_gangs _ _ _
      · rfl
    · rfl

theorem storeL1_gangs (s : State) (id : GangId) (op pa n x : Nat) (pol : Policy) : (storeL1 s id op pa n x pol).gangs = s.gangs :=
  modCore_gangs _ _ _ _

theorem noteWrote_gangs (s : State) (id : GangId) (op pa n : Nat) : (noteWrote s id op pa n).gangs = s.gangs :=
  gangs_of_outsideCaches (noteWrote_outside _ _ _ _ _)

theorem performHome_gangs (s : State) (pa : Nat) (l : List Byte) (ops : List Nat) : (performHome s pa l ops).gangs = s.gangs :=
  gangs_of_outsideMemory (performHome_outsideMemory _ _ _ _)

theorem writeTarget_gangs (s : State) (p : Pend) (pol : Policy) (t : Target) (n x : Nat) : (writeTarget s p pol t n x).gangs = s.gangs := by
  cases t with
  | mem pa hb =>
    cases hb with
    | true => exact performHome_gangs _ _ _ _
    | false => exact (noteWrote_gangs _ _ _ _ _).trans (storeL1_gangs _ _ _ _ _ _ _)
  | scratch d c pos => exact modCore_gangs _ _ _ _
  | bell off => exact bellStore_gangs _ _ _ _ _
  | remote d a =>
    unfold writeTarget
    dsimp only
    split
    · exact performHome_gangs _ _ _ _
    · rfl
  | away home => rfl

theorem writeAll_gangs (s : State) (p : Pend) (pol : Policy) (n : Nat) (l : List LaneAcc) : (writeAll s p pol n l).gangs = s.gangs := by
  induction l generalizing s with
  | nil => rfl
  | cons x rest ih => exact (ih _).trans (writeTarget_gangs _ _ _ _ _ _)

theorem homePerform_gangs (s : State) (p : Pend) (h : HomeOp) (w64 : Bool) (x : LaneAcc) (pa : Nat) :
    (homePerform s p h w64 x pa).1.gangs = s.gangs := by
  unfold homePerform
  dsimp only
  generalize hu : (if h = .ald then s else touchHome s p.gang (homeOf pa)) = u
  have hgangs : u.gangs = s.gangs := by rw [← hu]; split <;> rfl
  split
  case h_1 => exact hgangs
  case h_2 v _ =>
    have hwritten := (performHome_gangs u pa (bytesOfNat (h.size w64) v) [p.op]).trans hgangs
    generalize performHome u pa (bytesOfNat (h.size w64) v) [p.op] = w at hwritten ⊢
    by_cases hnote : (w.unfolded.any fun u => u.ops.contains p.op) = true
    · simp only [hnote, if_true]
      split <;> exact hwritten
    · simp only [hnote]
      split <;> exact hwritten

theorem sentLane_gangs (s : State) (p : Pend) (h : HomeOp) (w64 : Bool) (sc : Scope) (x : LaneAcc) :
    (sentLane s p h w64 sc x).1.gangs = s.gangs := by
  unfold sentLane
  split
  · split
    · exact homePerform_gangs _ _ _ _ _ _
    · exact gangs_of_outsideCaches (unitPerform_outside _ _ _ _ _ _ _ _)
  · dsimp only
    split
    · exact bellStore_gangs _ _ _ _ _
    · exact bellStore_gangs _ _ _ _ _
    · rfl
  · split
    · exact homePerform_gangs _ _ _ _ _ _
    · rfl
  · rfl
  · exact gangs_of_outsideCaches (unitPerform_outside _ _ _ _ _ _ _ _)

theorem joinRound_gangs {s t : State} {win : RedWin} {a : Nat} {op : AOp} {w64 : Bool} {v : DWord} {src : Option (GangId × Nat)}
    (h : joinRound s win a op w64 v src = some t) : t.gangs = s.gangs := by
  unfold joinRound at h
  split_ifs at h
  split at h
  · split_ifs at h
    obtain rfl := Option.some.inj h
    rfl
  · obtain rfl := Option.some.inj h
    rfl

theorem redWindow_gangs {s t : State} {p : Pend} {h : HomeOp} {w64 : Bool} {sc : Scope} {x : LaneAcc} (ht : redWindow s p h w64 sc x = some t) :
    t.gangs = s.gangs := by
  unfold redWindow at ht
  split at ht
  · split_ifs at ht
    split at ht
    · cases ht
    · split at ht
      · cases ht
      · exact joinRound_gangs ht
  · cases ht

theorem roundOrSent_gangs (s : State) (p : Pend) (h : HomeOp) (w64 : Bool) (sc : Scope) (x : LaneAcc) :
    (roundOrSent s p h w64 sc x).gangs = s.gangs := by
  unfold roundOrSent
  split
  case h_1 t ht => exact redWindow_gangs ht
  case h_2 => exact sentLane_gangs _ _ _ _ _ _

theorem chanPerform_gangs (s : State) (p : Pend) : (chanPerform s p).gangs = s.gangs := by
  unfold chanPerform
  split
  · exact sentLane_gangs _ _ _ _ _ _
  · rfl

/-! ## Time-outs of accesses (R276, R426) -/

/-- What a posted access may have performed though no reply came leaves the gangs as they are. -/
theorem performAnyway_gangs {s : State} {p : Pend} (hposts : p.kind.posts = true) : (performAnyway s p).gangs = s.gangs := by
  unfold performAnyway
  split
  · split
    · exact chanPerform_gangs _ _
    · rfl
  · exact foldl_keeps State.gangs (fun _ _ => roundOrSent_gangs _ _ _ _ _ _) _ _
  · exact writeAll_gangs _ _ _ _ _
  · rename_i x hkind
    rw [hkind] at hposts
    cases hposts
  · rfl

theorem performNear_gangs (s : State) (p : Pend) : (performNear s p).gangs = s.gangs := by
  unfold performNear
  split
  · exact writeAll_gangs _ _ _ _ _
  · rfl

theorem performNear_of_ne {p : Pend} (h : ∀ n accs pol, p.kind ≠ .store n accs pol) (s : State) : performNear s p = s := by
  unfold performNear
  split
  case h_1 n accs pol hkind => exact absurd hkind (h n accs pol)
  case h_2 => rfl

/-- The machine whose access has done what it may have done. -/
def timedState (s : State) (p : Pend) (performed : Bool) : State := performNear (if performed then performAnyway s p else s) p

theorem timedState_gangs {s : State} {p : Pend} (hposts : p.kind.posts = true) (performed : Bool) :
    (timedState s p performed).gangs = s.gangs := by
  refine (performNear_gangs _ _).trans ?_
  split
  · exact performAnyway_gangs hposts
  · rfl

theorem exec_requestTimeout_access {s : State} {p : Pend} (performed : Bool) (hp : findPend s p.op = some p) (hlate : lateReply s p = true)
    (hrisk : olderRisk s p.gang p.op = false) : exec (.requestTimeout (4 * p.op) performed) s = .next (timeoutPend s p performed) := by
  change execRequestTimeout (4 * p.op) performed s = _
  have hmod : 4 * p.op % 4 = 0 := by omega
  have hdiv : 4 * p.op / 4 = p.op := by omega
  simp only [execRequestTimeout, hmod, hdiv, hp, hlate, hrisk, Bool.not_false, Bool.and_self, if_true]

/-- The machine with an access among its issued ones, as a precise trap at it needs it. -/
def withPend (t : State) (p : Pend) : State := { t with pend := if t.pend.any (fun q => decide (q.op = p.op)) then t.pend else t.pend ++ [p] }

theorem withPend_of_found {s : State} {p : Pend} (hp : findPend s p.op = some p) : withPend s p = s := by
  have hany : s.pend.any (fun q => decide (q.op = p.op)) = true := List.any_eq_true.mpr ⟨p, List.mem_of_find?_eq_some hp, by simp⟩
  rw [withPend, if_pos hany]

/-- A gang of which an access is dropped keeps its posted faults. -/
theorem findGang_dropPend_posted {s : State} {p : Pend} {g : Gang} (h : findGang s p.gang = some g) :
    ∃ g', findGang (dropPend s p) p.gang = some g' ∧ g'.posted = g.posted := by
  have h' : findGang { s with pend := s.pend.filter fun q => decide (q.op ≠ p.op) } p.gang = some g := h
  exact ⟨_, findGang_modGang_self (fun _ => rfl) (findGang_modGang_self (fun _ => rfl) h'), rfl⟩

section
variable {s : State} {p : Pend} {g : Gang} (hg : findGang s p.gang = some g)
include hg

theorem timeoutPend_of_waited (hposts : p.kind.posts = false) (performed : Bool) :
    ∃ q, timeoutPend s p performed = preciseTrap q p 0x12#8 (freeNow s) 0#5 ∧ (findPend s p.op = some p → performed = false → q = s) := by
  have hsome : (findGang s p.gang).isNone = false := by rw [hg]; rfl
  refine ⟨withPend (timedState s p performed) p, ?_, ?_⟩
  · simp only [timeoutPend, hsome, hposts, Bool.false_eq_true, if_false]
    rfl
  · rintro hp rfl
    have hnear : timedState s p false = s := performNear_of_ne (by rintro n accs pol hkind; rw [hkind] at hposts; cases hposts) s
    rw [hnear, withPend_of_found hp]

theorem timeoutPend_of_posted (hposts : p.kind.posts = true) (performed : Bool) :
    timeoutPend s p performed = dropPend (postFault (timedState s p performed) p 0x12#8 (freeNow s)) p := by
  have hsome : (findGang s p.gang).isNone = false := by rw [hg]; rfl
  simp only [timeoutPend, hsome, hposts, Bool.false_eq_true, if_false, if_true]
  rfl

theorem findGang_timeoutPend (hposts : p.kind.posts = true) (performed : Bool) :
    ∃ g', findGang (timeoutPend s p performed) p.gang = some g'
      ∧ g'.posted = g.posted ++ [{ op := p.op, cls := p.kind.postClass, cause := 0x12#8, tval := freeNow s }] := by
  have hg' : findGang (timedState s p performed) p.gang = some g := (findGang_congr (timedState_gangs hposts performed) _).trans hg
  rw [timeoutPend_of_posted hg hposts]
  exact findGang_dropPend_posted (findGang_modGang_self (f := fun g =>
    { g with posted := g.posted ++ [{ op := p.op, cls := p.kind.postClass, cause := 0x12#8, tval := freeNow s }] }) (fun _ => rfl) hg')

end

/-! ## Time-outs of jobs, rounds and walks (R276, R329, R426) -/

theorem exec_requestTimeout_job {s : State} {j : Job} {c : Chain} (performed : Bool) (hj : findJob s j.id = some j)
    (hc : findChain s j.chain = some c) (hstate : j.state = .started) (hlate : jobLate s j = true) :
    exec (.requestTimeout (4 * j.id + 1) performed) s = .next (timeoutJob s c j performed) := by
  have hmod : (4 * j.id + 1) % 4 = 1 := by omega
  have hdiv : (4 * j.id + 1) / 4 = j.id := by omega
  change execRequestTimeout (4 * j.id + 1) performed s = _
  simp only [execRequestTimeout, hmod, hdiv, hj, hc, hstate, hlate, and_self, if_true]

theorem exec_requestTimeout_round {s : State} {die : Nat} {r : Round} (performed : Bool) (hdie : die < 8) (hr : (getDie s die).round = some r)
    (hhomes : r.homes ≠ []) (htimed : timedOut s die r.start = true) :
    exec (.requestTimeout (4 * die + 2) performed) s = .next (timeoutRound s die performed) := by
  have hmod : (4 * die + 2) % 4 = 2 := by omega
  have hdiv : (4 * die + 2) / 4 = die := by omega
  change execRequestTimeout (4 * die + 2) performed s = _
  simp only [execRequestTimeout, hmod, hdiv, hr, hdie, ne_eq, hhomes, not_false_eq_true, htimed, and_self, if_true]

theorem round_timeoutRound {s : State} {die : Nat} {r : Round} (hr : (getDie s die).round = some r) (performed : Bool) :
    (getDie (timeoutRound s die performed) die).round
      = some { r with homes := [], spans := r.spans.filter (fun x => x.2.isSome), timedOut := true } := by
  unfold timeoutRound
  dsimp only
  rw [getDie_modDie]
  cases performed <;> exact congrArg (Option.map _) hr

theorem timeoutRound_mem (s : State) (die : Nat) (performed : Bool) : (timeoutRound s die performed).mem = s.mem := by
  cases performed <;> rfl

theorem exec_requestTimeout_walk {s : State} {g : Gang} {x : PcSlot} {op since : Nat} (performed : Bool) (hw : findWalk s op = some (g, x, since))
    (htimed : timedOut s g.id.die since = true) (hrun : g.halted = false) (hrisk : olderRisk s g.id op = false) :
    exec (.requestTimeout (4 * op + 3) performed) s = .next (timeoutWalk s g x) := by
  have hmod : (4 * op + 3) % 4 = 3 := by omega
  have hdiv : (4 * op + 3) / 4 = op := by omega
  change execRequestTimeout (4 * op + 3) performed s = _
  simp only [execRequestTimeout, hmod, hdiv, hw, htimed, hrun, hrisk, Bool.not_false, Bool.and_self, if_true]

/-! ## Reduction rounds (R430) -/

/-- What is asked of the machine after a round. -/
def roundView (s : State) : List Host.Cell × List Migration × List RedRound × Vector (BitVec 192) 8 :=
  (s.mem, s.migrations, s.redRounds, s.rwins)

theorem noteRound_roundView (s : State) (pa n : Nat) (src : GangId × Nat) : roundView (noteRound s pa n src) = roundView s := by
  unfold noteRound
  dsimp only
  split <;> rfl

/-- The machine without a round. -/
def withoutRound (s : State) (r : RedRound) : State := { s with redRounds := s.redRounds.filter fun x => decide (x.id ≠ r.id) }

theorem not_mem_withoutRound (s : State) (r : RedRound) : r ∉ (withoutRound s r).redRounds := by simp [withoutRound]

/-- The word that a round makes, at this device. -/
def roundWord (s : State) (r : RedRound) (pa : Nat) : Nat :=
  (roundNew r.op r.w64 (BitVec.ofNat 64 (homeNat s pa (wordSize r.w64))) (r.parts.map fun x => x.1)).toNat

theorem deliverRound_away {s : State} {r : RedRound} (h : r.addr / 2 ^ 44 ≠ s.admin.devid.toNat) : deliverRound s r = withoutRound s r :=
  if_neg h

theorem deliverRound_here {s : State} {r : RedRound} {pa : Nat} (hpa : pa = r.addr % 2 ^ 44) (h : r.addr / 2 ^ 44 = s.admin.devid.toNat) :
    roundView (deliverRound s r) = roundView (performHome (withoutRound s r) pa (bytesOfNat (wordSize r.w64) (roundWord s r pa)) []) := by
  subst hpa
  have hops : ∀ ops, roundView (performHome (withoutRound s r) (r.addr % 2 ^ 44) (bytesOfNat (wordSize r.w64) (roundWord s r (r.addr % 2 ^ 44))) ops)
      = roundView (performHome (withoutRound s r) (r.addr % 2 ^ 44) (bytesOfNat (wordSize r.w64) (roundWord s r (r.addr % 2 ^ 44))) []) := by
    intro ops
    have hperform : ∀ ops, roundView (performHome (withoutRound s r) (r.addr % 2 ^ 44)
        (bytesOfNat (wordSize r.w64) (roundWord s r (r.addr % 2 ^ 44))) ops)
        = roundView (homeWrite (withoutRound s r) (r.addr % 2 ^ 44) (bytesOfNat (wordSize r.w64) (roundWord s r (r.addr % 2 ^ 44)))) := by
      intro ops
      refine foldl_keeps roundView (fun s a => ?_) _ _
      unfold noteUnfolded
      split <;> rfl
    rw [hperform ops, hperform []]
  refine Eq.trans ?_ (hops ((r.parts.filterMap fun x => x.2).map fun x => x.2))
  unfold deliverRound
  dsimp only
  rw [if_pos h]
  exact foldl_keeps roundView (fun _ _ => noteRound_roundView _ _ _ _) _ _

theorem deliverRound_rwins (s : State) (r : RedRound) : (deliverRound s r).rwins = s.rwins := by
  by_cases h : r.addr / 2 ^ 44 = s.admin.devid.toNat
  · have hview := congrArg (fun x => x.2.2.2) (deliverRound_here rfl h)
    have hperform := congrArg State.rwins (performHome_outsideMemory (withoutRound s r) (r.addr % 2 ^ 44)
      (bytesOfNat (wordSize r.w64) (roundWord s r (r.addr % 2 ^ 44))) [])
    exact hview.trans hperform
  · rw [deliverRound_away h]
    rfl

theorem setPartial_rwins_of_own {s : State} {r : RedRound} (h : (r.parts.any fun x => x.2.isSome) = true) :
    ((setPartial s r).rwins.get (Fin.ofNat 8 r.win.index)).getLsbD 184 = true := by
  rw [setPartial, if_pos h]
  simp only [Vector.get_eq_getElem, Vector.getElem_set_self, BitVec.getLsbD_or]
  rw [show (1#192 <<< 184 : BitVec 192).getLsbD 184 = true by decide, Bool.or_true]

theorem setPartial_eq (s : State) (r : RedRound) : setPartial s r = { s with rwins := (setPartial s r).rwins } := by
  unfold setPartial
  split <;> rfl

theorem setPartial_of_others {s : State} {r : RedRound} (h : (r.parts.any fun x => x.2.isSome) = false) : setPartial s r = s := by
  rw [setPartial, h]
  rfl

end Sys2Proof.Machine

namespace Sys2Proof
open Machine

section
variable {s : State} {r : RedRound} {pa : Nat}

/-- A round that is delivered has gone, and its word is performed where this device is its home (R430). -/
theorem roundDelivered_deliverRound (hpa : pa = r.addr % 2 ^ 44) (hwf : MemoryCanonical s) (hstill : s.migrations = [])
    (hlost : homeLost s (homeOf pa) = false) : RoundDelivered s (deliverRound s r) r pa := by
  by_cases h : r.addr / 2 ^ 44 = s.admin.devid.toNat
  · have hview := deliverRound_here hpa h
    have hmem : (deliverRound s r).mem = _ := congrArg Prod.fst hview
    have hmigrations : (deliverRound s r).migrations = _ := congrArg (fun x => x.2.1) hview
    have hrounds : (deliverRound s r).redRounds = _ := congrArg (fun x => x.2.2.1) hview
    obtain ⟨hword, hframe⟩ := homeNat_performHome_at (s := withoutRound s r) hwf (standsAt_of_still hstill pa) hlost (wordSize r.w64) (roundWord s r pa)
    have houtside := congrArg State.redRounds (performHome_outsideMemory (withoutRound s r) pa (bytesOfNat (wordSize r.w64) (roundWord s r pa)) [])
    refine ⟨?_, fun hne => absurd h hne, fun _ => ⟨?_, fun a ha => ?_⟩⟩
    · have hgone : (performHome (withoutRound s r) pa (bytesOfNat (wordSize r.w64) (roundWord s r pa)) []).redRounds
          = (withoutRound s r).redRounds := houtside
      rw [hrounds, roundView, hgone]
      exact not_mem_withoutRound s r
    · rw [homeNat, standsAt_congr (hmigrations.trans rfl), hmem]
      exact hword
    · rw [hmem]
      exact hframe a ha
  · rw [deliverRound_away h]
    exact ⟨not_mem_withoutRound s r, fun _ => rfl, fun heq => absurd heq h⟩

theorem exec_reductionRoundDeliver {word : Nat}
    (h : (s.redRounds.find? fun r => decide (r.addr = word) && decide (r.parts.length ≥ r.win.count)) = some r) :
    exec (.reductionRoundDeliver word) s = .next (deliverRound s r) := by
  change execReductionRoundDeliver word s = _
  rw [execReductionRoundDeliver, h]

theorem exec_reductionPartialTimeout {word : Nat}
    (h : (s.redRounds.find? fun r => decide (r.addr = word) && decide (r.parts.length < r.win.count)
      && decide (r.first + requestLimit ≤ s.tick)) = some r) :
    exec (.reductionPartialTimeout word) s = .next (deliverRound (setPartial s r) r) := by
  change execReductionPartialTimeout word s = _
  rw [execReductionPartialTimeout, h]

/-- Marking PARTIAL does not change what a round's delivery does. -/
theorem roundDelivered_setPartial (hpa : pa = r.addr % 2 ^ 44) (hwf : MemoryCanonical s) (hstill : s.migrations = [])
    (hlost : homeLost s (homeOf pa) = false) : RoundDelivered s (deliverRound (setPartial s r) r) r pa := by
  rw [setPartial_eq]
  exact roundDelivered_deliverRound (s := { s with rwins := (setPartial s r).rwins }) hpa hwf hstill hlost

end

/-- Settles O52: a time-out is the trap, the kept fault or the failed job of what waited, and a round's delivery is one home write. -/
theorem timeoutsAndReductions : Obligations.TimeoutsAndReductions := by
  refine ⟨fun s p g performed hp hg hlate hrisk => ⟨fun hposts => ?_, fun hposts => ?_⟩, fun s j c hj hc hstate hlate => ?_,
    fun s die r performed hdie hr hhomes htimed => ?_, fun s g x op since performed hw htimed hrun hrisk => ?_,
    fun s word pa r hpa hwf hstill hlost => ⟨fun hfull => ?_, fun hpart => ?_⟩⟩
  · obtain ⟨q, hq, hsame⟩ := timeoutPend_of_waited hg hposts performed
    exact ⟨q, freeNow s, (exec_requestTimeout_access performed hp hlate hrisk).trans (congrArg _ hq), hsame hp⟩
  · obtain ⟨g', hg', hposted⟩ := findGang_timeoutPend hg hposts performed
    refine ⟨_, g', freeNow s, exec_requestTimeout_access performed hp hlate hrisk, ?_, hg', ?_⟩
    · rw [timeoutPend_of_posted hg hposts]
      exact findPend_dropPend _ _
    · rintro rfl
      refine ⟨hposted, fun hstore => ?_⟩
      rw [timeoutPend_of_posted hg hposts, timedState, performNear_of_ne hstore]
      rfl
  · refine ⟨noAddress s, exec_requestTimeout_job false hj hc hstate hlate, (exec_requestTimeout_job true hj hc hstate hlate).trans ?_⟩
    unfold timeoutJob
    by_cases hkind : cardKind j.card = 3 <;> simp [hkind] <;> rfl
  · exact ⟨_, _, exec_requestTimeout_round performed hdie hr hhomes htimed, round_timeoutRound hr performed, rfl, rfl, rfl, rfl,
      timeoutRound_mem s die performed⟩
  · refine ⟨freeNow s, fun hnone => ?_, fun p hp => ?_⟩
    · rw [exec_requestTimeout_walk performed hw htimed hrun hrisk, timeoutWalk, hnone]
      rfl
    · rw [exec_requestTimeout_walk performed hw htimed hrun hrisk, timeoutWalk, hp]
      rfl
  · exact ⟨_, exec_reductionRoundDeliver hfull, roundDelivered_deliverRound hpa hwf hstill hlost, deliverRound_rwins s r⟩
  · refine ⟨_, exec_reductionPartialTimeout hpart, roundDelivered_setPartial hpa hwf hstill hlost, fun hown => ?_, fun hothers => ?_⟩
    · rw [deliverRound_rwins]
      exact setPartial_rwins_of_own hown
    · rw [deliverRound_rwins, setPartial_of_others hothers]

end Sys2Proof

/-!
The ends of a context's changes (O58): R407, R417, R420.
-/
namespace Sys2Proof.Machine

/-! ## What the steps of a context's changes leave as it is -/

/-- The parts of the machine that a context's changes are stated about. -/
def contextParts (s : State) : List Gang × List Block × List Saved × List Context × List Host.Cell × Nat × List HealthEntry :=
  (s.gangs, s.blocks, s.saved, s.contexts, s.mem, s.tick, s.health)

section
variable {s t : State} (h : contextParts t = contextParts s)
include h

theorem gangs_of_contextParts : t.gangs = s.gangs := congrArg (fun x => x.1) h
theorem blocks_of_contextParts : t.blocks = s.blocks := congrArg (fun x => x.2.1) h
theorem saved_of_contextParts : t.saved = s.saved := congrArg (fun x => x.2.2.1) h
theorem contexts_of_contextParts : t.contexts = s.contexts := congrArg (fun x => x.2.2.2.1) h
theorem mem_of_contextParts : t.mem = s.mem := congrArg (fun x => x.2.2.2.2.1) h
theorem tick_of_contextParts : t.tick = s.tick := congrArg (fun x => x.2.2.2.2.2.1) h
theorem health_of_contextParts : t.health = s.health := congrArg (fun x => x.2.2.2.2.2.2) h

end

theorem contextParts_of_outsideCaches {s t : State} (h : outsideCaches t = outsideCaches s) : contextParts t = contextParts s := by
  have := congrArg contextParts h
  exact this

theorem findContext_congr {s t : State} (h : t.contexts = s.contexts) (n : Nat) : findContext t n = findContext s n := by
  rw [findContext, h]; rfl

theorem adminDone_contextParts (s : State) (e : BitVec 512) (code detail : Nat) (result : BitVec 64) :
    contextParts (adminDone s e code detail result) = contextParts s := by
  unfold adminDone
  dsimp only
  split <;> rfl

theorem endHeld_contextParts (s : State) (op n : Nat) : contextParts (endHeld s op n) = contextParts s := by
  unfold endHeld
  split
  · exact adminDone_contextParts _ _ _ _ _
  · rfl

theorem failHeld_contextParts (s : State) (n : Nat) : contextParts (failHeld s n) = contextParts s := by
  have hfirst : contextParts (match heldFor s 0x03 n with
      | some e => adminFail s e 2
      | none => s) = contextParts s := by
    split
    · exact adminDone_contextParts _ _ _ _ _
    · rfl
  unfold failHeld
  dsimp only
  split
  · exact (adminDone_contextParts _ _ _ _ _).trans hfirst
  · exact hfirst

theorem findContext_modContext_self {s : State} {n : Nat} {c : Context} {f : Context → Context} (hf : ∀ c, (f c).num = c.num)
    (h : findContext s n = some c) : findContext (modContext s n f) n = some (f c) := by
  rw [findContext, modContext, find?_map_update (fun c : Context => c.num) _ _ _ _ fun x hx => (hf x).trans hx, if_pos rfl]
  exact congrArg (Option.map f) h

theorem num_of_findContext {s : State} {n : Nat} {c : Context} (h : findContext s n = some c) : c.num = n := by
  simpa using List.find?_some h

/-! ## PREEMPT_HALT_TIMEOUT (R417) -/

theorem exec_preemptHaltTimeout {s : State} {g : Gang} {c : Context} (hg : findGang s g.id = some g) (hc : findContext s g.ctx = some c)
    (hstate : c.state = .preempting) (hphase : c.phase = 0) (hrun : g.halted = false) (hmode : g.arch.mode = .trap)
    (hlate : c.haltTick + 20000 ≤ s.tick) : exec (.preemptHaltTimeout g.id) s = .next (failGang s g 1 0#8 0#32) := by
  change execPreemptHaltTimeout g.id s = _
  simp only [execPreemptHaltTimeout, hg, hc, hstate, hphase, hrun, hmode, hlate, Bool.not_false, and_self, if_true, stFailedKilled]

/-! ## CONTEXT_SAVED (R417) -/

theorem writeImage_outsideMemory {c : Context} {l : List (BitVec 64 × List Byte)} {s t : State} (h : writeImage c l s = some t) :
    outsideMemory t = outsideMemory s := by
  induction l generalizing s with
  | nil =>
    obtain rfl := Option.some.inj h
    rfl
  | cons p rest ih =>
    unfold writeImage at h
    split at h
    · cases h
    · rename_i u hu
      exact (ih h).trans (deviceWrite_outsideMemory hu)

/-- The machine once a context's state is in the shadow store. -/
def savedContext (t : State) (n : Nat) (v : Saved) : State :=
  modContext (unloadContext { t with saved := t.saved ++ [v] } n) n fun x => { x with state := .saved, phase := 0 }

theorem exec_contextSaved {s t : State} {c : Context} (hc : findContext s c.num = some c) (hstate : c.state = .preempting) (hphase : c.phase = 2)
    (herr : c.shadowErr = false) (hguest : ∀ x ∈ s.guest.preempts, x.1 ≠ c.num) (himage : writeImage c (pendingPieces s c) s = some t) :
    exec (.contextSaved c.num) s = .next (endHeld (savedContext t c.num (savedOf s c)) 0x03 c.num) := by
  have hmet : (s.guest.preempts.any fun x => decide (x.1 = c.num)) = false := by simpa using hguest
  change execContextSaved c.num s = _
  simp only [execContextSaved, hc, hstate, hphase, herr, hmet, himage, ne_eq, not_true_eq_false, Bool.false_eq_true, or_self, if_false]
  rfl

/-! ## CONTEXT_RESUMED (R420) -/

theorem flushPart_contextParts (s : State) (c : Context) : contextParts (flushPart s c) = contextParts s := by
  have hclusters : ∀ (s : State) (die : Nat), outsideCaches ((partClusters c die).foldl (fun s cl => flushCluster s die cl fun _ => true) s)
      = outsideCaches s := fun s die => foldl_keeps outsideCaches (fun _ _ => flushCluster_outside _ _ _ _) _ _
  refine contextParts_of_outsideCaches ?_
  exact (foldl_keeps outsideCaches hclusters _ _).trans (drainThrough_outside _ _)

theorem chancePart_contextParts (s : State) (c : Context) : contextParts (chancePart s c) = contextParts s :=
  foldl_keeps contextParts (f := fun s die => if c.diemask.getLsbD die then giveChance s die else s) (fun s die => by split <;> rfl) _ _

theorem modCore_contextParts (s : State) (die core : Nat) (f : CoreSt → CoreSt) : contextParts (modCore s die core f) = contextParts s := by
  unfold modCore
  split <;> rfl

/-- A core takes what an image keeps of it. -/
def loadCore (s : State) (k : CoreSt) : State := modCore s k.die k.core fun x =>
  { x with tags := k.tags, codebooks := k.codebooks, scratch := k.scratch, scratchPoison := k.scratchPoison, l1 := [], icache := [], fills := [] }

/-- A die takes a bind record of an image. -/
def loadBind (s : State) (b : Nat × Nat × BindRec) : State := modDie s b.1 fun d =>
  { d with binds := (d.binds.filter fun x => decide (x.1 < b.2.1)) ++ [(b.2.1, b.2.2)] ++ d.binds.filter fun x => decide (b.2.1 < x.1) }

/-- The machine once the cores of an image are back. -/
def coresLoaded (s : State) (c : Context) (v : Saved) : State := v.cores.foldl loadCore (clearCores s c)

theorem coresLoaded_contextParts (s : State) (c : Context) (v : Saved) : contextParts (coresLoaded s c v) = contextParts s :=
  foldl_keeps contextParts (fun _ _ => modCore_contextParts _ _ _ _) _ _

theorem loadContext_eq (s : State) (c : Context) (v : Saved) (l : List Gang) : loadContext s c v l = v.binds.foldl loadBind
    { coresLoaded s c v with
        gangs := (coresLoaded s c v).gangs ++ l, blocks := (coresLoaded s c v).blocks ++ v.blocks, chains := (coresLoaded s c v).chains ++ v.chains,
        jobs := (coresLoaded s c v).jobs ++ v.jobs, mailboxes := (coresLoaded s c v).mailboxes ++ v.mailboxes,
        saved := (coresLoaded s c v).saved.filter fun x => decide (x.ctx ≠ v.ctx) } := rfl

/-- An image is back in the machine: its gangs and blocks are added and the shadow store holds it no more. -/
theorem loadContext_contextParts (s : State) (c : Context) (v : Saved) (l : List Gang) : contextParts (loadContext s c v l) = contextParts
    { s with gangs := s.gangs ++ l, blocks := s.blocks ++ v.blocks, saved := s.saved.filter fun x => decide (x.ctx ≠ v.ctx) } := by
  have hcores := coresLoaded_contextParts s c v
  rw [loadContext_eq]
  refine (foldl_keeps contextParts (f := loadBind) (fun _ _ => rfl) _ _).trans ?_
  simp only [contextParts, gangs_of_contextParts hcores, blocks_of_contextParts hcores, saved_of_contextParts hcores,
    contexts_of_contextParts hcores, mem_of_contextParts hcores, tick_of_contextParts hcores, health_of_contextParts hcores]

/-- The machine with a context's image back in it. -/
def restored (s : State) (c : Context) (v : Saved) (l : List Gang) : State :=
  chancePart (loadContext (emptyCaches (flushPart s c) c) c v (l.map fun g => { g with halted := false })) c

theorem restored_contextParts (s : State) (c : Context) (v : Saved) (l : List Gang) : contextParts (restored s c v l) = contextParts
    { s with gangs := s.gangs ++ l.map (fun g => { g with halted := false }), blocks := s.blocks ++ v.blocks,
             saved := s.saved.filter fun x => decide (x.ctx ≠ v.ctx) } := by
  have hflush : contextParts (emptyCaches (flushPart s c) c) = contextParts s := flushPart_contextParts s c
  refine (chancePart_contextParts _ _).trans ((loadContext_contextParts _ _ _ _).trans ?_)
  simp only [contextParts, gangs_of_contextParts hflush, blocks_of_contextParts hflush, saved_of_contextParts hflush,
    contexts_of_contextParts hflush, mem_of_contextParts hflush, tick_of_contextParts hflush, health_of_contextParts hflush]

theorem exec_contextResumed {s : State} {c : Context} {v : Saved} {l : List Gang} (hc : findContext s c.num = some c)
    (hstate : c.state = .resuming) (herr : c.shadowErr = false) (hv : findSaved s c.num = some v)
    (hpieces : badPiece s c .rmw (savePieces 0 c v.gangs v.blocks) = none) (hstacks : restoreStacks s c v.gangs = some l) :
    exec (.contextResumed c.num) s = .next (endHeld (modContext (restored s c v l) c.num fun x => { x with state := .active }) 0x02 c.num) := by
  change execContextResumed c.num s = _
  simp only [execContextResumed, hc, hv, hstate, herr, hpieces, hstacks, ne_eq, not_true_eq_false, Bool.false_eq_true, Option.isSome_none, or_self,
    if_false]
  rfl

/-! ## CONTEXT_FAULTED (R407) -/

theorem failBlock_frame (s : State) (uid : Nat) (f : Failure) : (failBlock s uid f).contexts = s.contexts ∧ (failBlock s uid f).tick = s.tick := by
  unfold failBlock
  split
  · exact ⟨rfl, rfl⟩
  · dsimp only
    split
    · split <;> exact ⟨rfl, rfl⟩
    · exact ⟨rfl, rfl⟩

theorem failGang_frame (s : State) (g : Gang) (status : Nat) (cause : BitVec 8) (pc : BitVec 32) :
    ((failGang s g status cause pc).contexts, (failGang s g status cause pc).tick) = (s.contexts, s.tick) := by
  obtain ⟨hcontexts, htick⟩ := failBlock_frame s g.block (gangFailure s g status cause pc)
  exact Prod.ext hcontexts htick

theorem mem_failGang {s : State} {g x : Gang} {status : Nat} {cause : BitVec 8} {pc : BitVec 32} :
    x ∈ (failGang s g status cause pc).gangs ↔ x ∈ s.gangs ∧ x.id ≠ g.id := by
  change x ∈ (failBlock s g.block (gangFailure s g status cause pc)).gangs.filter _ ↔ _
  rw [failBlock_gangs, List.mem_filter]
  simp

/-- Gangs that are killed one after the other are gone. -/
theorem mem_foldl_failGang {l : List Gang} {s : State} {x : Gang} :
    x ∈ (l.foldl (fun s g => failGang s g stFailedKilled 0#8 0#32) s).gangs ↔ x ∈ s.gangs ∧ ∀ g ∈ l, x.id ≠ g.id := by
  induction l generalizing s with
  | nil => simp
  | cons g rest ih =>
    rw [List.foldl_cons, ih, mem_failGang]
    simp [and_assoc]

theorem killGangs_gone {s : State} {n : Nat} {x : Gang} (hx : x ∈ (killGangs s n).gangs) : x.ctx ≠ n := by
  obtain ⟨hmem, hids⟩ := mem_foldl_failGang.mp hx
  intro hctx
  exact hids x (List.mem_filter.mpr ⟨hmem, by simpa using hctx⟩) rfl

theorem killGangs_frame (s : State) (n : Nat) : ((killGangs s n).contexts, (killGangs s n).tick) = (s.contexts, s.tick) :=
  foldl_keeps (fun s => (s.contexts, s.tick)) (fun _ _ => failGang_frame _ _ _ _ _) _ _

/-- The machine whose context that faults has its image back, if it was being resumed. -/
def faultLoaded (s : State) (c : Context) : State :=
  match c.state, findSaved s c.num with
  | .resuming, some v => loadContext s c v v.gangs
  | _, _ => s

theorem faultLoaded_frame (s : State) (c : Context) : (faultLoaded s c).contexts = s.contexts ∧ (faultLoaded s c).tick = s.tick := by
  unfold faultLoaded
  split
  · rename_i v _ _
    have hparts := loadContext_contextParts s c v v.gangs
    have hcontexts := contexts_of_contextParts hparts
    have htick := tick_of_contextParts hparts
    exact ⟨hcontexts, htick⟩
  · exact ⟨rfl, rfl⟩

/-- The machine once the context's gangs and work are gone and it is FAULTED. -/
def faultedContext (s : State) (c : Context) : State :=
  let t := dropWork (killGangs (faultLoaded s c) c.num) c.num
  modContext { t with tasks := t.tasks.filter fun t => !c.task.contains t.id } c.num fun x => { x with state := .faulted, phase := 0, task := [] }

theorem faultContext_eq (s : State) (c : Context) (va : Nat) : faultContext s c va
    = failHeld (logHealth (faultedContext s c) (contextDie (faultedContext s c) c) 11 (c.num % 65536) 1 va) c.num := rfl

/-- The entry of the health log that a context's fault makes. -/
def faultEntry (s : State) (c : Context) (va : Nat) : HealthEntry :=
  { tick := (faultedContext s c).tick, die := contextDie (faultedContext s c) c, kind := 11, unit := c.num % 65536, count := 1, addr := va }

theorem exec_contextFaulted {s : State} {c : Context} {va : Nat} (hc : findContext s c.num = some c) (hfault : contextFault s c = some va) :
    exec (.contextFaulted c.num va) s = .next (faultContext s c va) := by
  change execContextFaulted c.num va s = _
  simp only [execContextFaulted, hc, hfault, if_true]

theorem faultedContext_gone {s : State} {c : Context} {x : Gang} (hx : x ∈ (faultedContext s c).gangs) : x.ctx ≠ c.num := killGangs_gone hx

theorem faultedContext_tick (s : State) (c : Context) : (faultedContext s c).tick = s.tick :=
  (congrArg Prod.snd (killGangs_frame (faultLoaded s c) c.num)).trans (faultLoaded_frame s c).2

theorem findContext_faultedContext {s : State} {c : Context} (hc : findContext s c.num = some c) :
    findContext (faultedContext s c) c.num = some { c with state := .faulted, phase := 0, task := [] } := by
  refine findContext_modContext_self (f := fun x => { x with state := .faulted, phase := 0, task := [] }) (fun _ => rfl) ?_
  have hcontexts : (killGangs (faultLoaded s c) c.num).contexts = s.contexts :=
    (congrArg Prod.fst (killGangs_frame (faultLoaded s c) c.num)).trans (faultLoaded_frame s c).1
  exact (findContext_congr hcontexts c.num).trans hc

end Sys2Proof.Machine

namespace Sys2Proof
open Machine

/-- Settles O58: each end of a change is the step's own case, with what its folds over gangs, cores and dies leave as it is. -/
theorem contextChanges : Obligations.ContextChanges := by
  refine ⟨fun s g c hg hc hstate hphase hrun hmode hlate => exec_preemptHaltTimeout hg hc hstate hphase hrun hmode hlate,
    fun s c hc => ⟨fun t hstate hphase herr hguest himage => ?_, fun v l hstate herr hv hpieces hstacks => ?_, fun va hfault => ?_⟩⟩
  · have hparts := endHeld_contextParts (savedContext t c.num (savedOf s c)) 0x03 c.num
    have hmem := mem_of_contextParts hparts
    refine ⟨_, exec_contextSaved hc hstate hphase herr hguest himage, hmem, ?_, ?_, fun g hg => ?_, fun b hb => ?_⟩
    · rw [saved_of_contextParts hparts]
      exact List.mem_append_right _ (List.mem_singleton_self _)
    · rw [findContext_congr (contexts_of_contextParts hparts)]
      refine findContext_modContext_self (f := fun x => { x with state := .saved, phase := 0 }) (fun _ => rfl) ?_
      exact (findContext_of_outsideMemory (writeImage_outsideMemory himage) c.num).trans hc
    · rw [gangs_of_contextParts hparts] at hg
      simpa using (List.mem_filter.mp hg).2
    · rw [blocks_of_contextParts hparts] at hb
      simpa using (List.mem_filter.mp hb).2
  · have hparts := endHeld_contextParts (modContext (restored s c v l) c.num fun x => { x with state := .active }) 0x02 c.num
    have hrestored := restored_contextParts s c v l
    refine ⟨_, exec_contextResumed hc hstate herr hv hpieces hstacks, ?_, (gangs_of_contextParts hparts).trans (gangs_of_contextParts hrestored),
      (blocks_of_contextParts hparts).trans (blocks_of_contextParts hrestored), ?_⟩
    · rw [findContext_congr (contexts_of_contextParts hparts)]
      refine findContext_modContext_self (f := fun x => { x with state := .active }) (fun _ => rfl) ?_
      have hcontexts := contexts_of_contextParts hrestored
      exact (findContext_congr hcontexts c.num).trans hc
    · have hsaved := saved_of_contextParts hrestored
      rw [findSaved, saved_of_contextParts hparts,
        show (modContext (restored s c v l) c.num fun x => { x with state := .active }).saved = (restored s c v l).saved from rfl, hsaved]
      simp
  · have hparts := failHeld_contextParts
      (logHealth (faultedContext s c) (contextDie (faultedContext s c) c) 11 (c.num % 65536) 1 va) c.num
    refine ⟨_, exec_contextFaulted hc hfault, fun g hg => ?_, ⟨{ c with state := .faulted, phase := 0, task := [] }, ?_, rfl⟩, ⟨faultEntry s c va, ?_, rfl, rfl, faultedContext_tick s c⟩⟩
    · rw [faultContext_eq, gangs_of_contextParts hparts, logHealth_gangs] at hg
      exact faultedContext_gone hg
    · rw [faultContext_eq, findContext_congr (contexts_of_contextParts hparts),
        findContext_congr (show (logHealth _ _ _ _ _ _).contexts = (faultedContext s c).contexts by rw [logHealth_eq])]
      exact findContext_faultedContext hc
    · rw [faultContext_eq, health_of_contextParts hparts]
      exact mem_logHealth _ _ _ _ _ _

end Sys2Proof


/-!
# The admin queue and the register page (19_reliability R471-R473, R475)

Every command of R474 is `adminRun` of its row with an effect of its own; the checks of every command are then lemmas about
`adminRun`. The register page is read and written word by word.
-/
namespace Sys2Proof.Machine

variable {e : BitVec 512} {op : Nat} {names : Bool} {fields : List (Nat × Nat × Nat)} {s t : State} {k : State → State}

/-! ## The checks of every command -/

/-- A row of R474 is executed as `adminRun` says, with some effect. -/
theorem exec_adminForm {i : Instr} {f : AdminForm} (h : adminForm i = some f) :
    ∃ k, ∀ s, exec i s = adminRun f.entry f.op f.names f.fields s k := by
  unfold adminForm at h
  split at h <;> cases h
  all_goals
    apply Exists.intro
    intro s
    delta exec
    dsimp only
    exact rfl

theorem adminRun_of_not_next (h : adminEntry s ≠ some e) : adminRun e op names fields s k = .next s := by
  rw [adminRun, if_pos (Or.inl h)]
  rfl

theorem adminRun_of_next (hnext : adminEntry s = some e) (hop : entryOpcode e = BitVec.ofNat 8 op) :
    adminRun e op names fields s k =
      if s.admin.bootst = 2 ∧ !recoveryAllows op then .next (adminFail (takeCommand s) e 2)
      else if e &&& ~~~(usedBits names fields) ≠ 0#512 then .next (adminFail (takeCommand s) e 1)
      else if names ∧ (findContext s (entryCtx e)).isNone then .next (adminFail (takeCommand s) e 2)
      else .next (k (takeCommand s)) := by
  rw [adminRun, if_neg (by simp [hnext, hop])]
  rfl

theorem recoveryAllows_eq_false (h₁ : op ≠ 0x10) (h₂ : op ≠ 0x18) : recoveryAllows op = false := by
  simp [recoveryAllows, h₁, h₂]

/-- A command that acts has its effect on the machine that has taken it. -/
theorem exec_of_adminActs {i : Instr} (h : AdminActs i e s t) (hform : adminForm i = some ⟨e, op, names, fields⟩)
    (hexec : exec i s = adminRun e op names fields s k) : exec i s = .next (k t) := by
  obtain ⟨f, hf, -, hop, hboot, hbits, hctx⟩ := h.accepted
  obtain rfl : (⟨e, op, names, fields⟩ : AdminForm) = f := Option.some.inj (hform.symm.trans hf)
  have hrecovery : ¬ (s.admin.bootst = 2 ∧ !recoveryAllows op) := fun hr => by simp [hboot hr.1] at hr
  have hfound : ¬ (names ∧ (findContext s (entryCtx e)).isNone) := fun hn => by
    have hsome := hctx hn.1
    rw [Option.isNone_iff_eq_none.mp hn.2] at hsome
    simp at hsome
  rw [hexec, adminRun_of_next h.next hop, if_neg hrecovery, if_neg (not_not.mpr hbits), if_neg hfound, h.taken]

/-! ## The completion -/

/-- The completion stands at ACTAIL. -/
theorem adminDone_hostMem {code detail : Nat} {result : BitVec 64} (henable : s.admin.enable = true) :
    (adminDone s e code detail result).hostMem
      = cellsWrite s.hostMem (s.admin.acbase.toNat + 16 * (s.admin.actail.toNat % 2 ^ s.admin.log2))
          (completionBytes e code detail result) := by
  simp [adminDone, henable, adminSize]

theorem adminDone_enabled {code detail : Nat} {result : BitVec 64} (henable : s.admin.enable = true) :
    (adminDone s e code detail result).admin = { s.admin with actail := s.admin.actail + 1#32, busy := none }
      ∧ (adminDone s e code detail result).interrupts = s.interrupts ++ [0] := by
  simp [adminDone, henable]

theorem adminDone_frame (code detail : Nat) (result : BitVec 64) :
    (adminDone s e code detail result).mem = s.mem ∧ (adminDone s e code detail result).gangs = s.gangs := by
  cases h : s.admin.enable <;> simp [adminDone, h]

/-- CODE and DETAIL are the first bytes of a completion's second word. -/
theorem bytesOfNat_codeDetail {code detail : Nat} (hcode : code < 256) :
    (bytesOfNat 4 (code + 256 * detail)).take 2 = [BitVec.ofNat 8 code, BitVec.ofNat 8 detail] := by
  rw [bytesOfNat_succ, bytesOfNat_succ, show (code + 256 * detail) / 256 = detail by omega]
  have hbyte : BitVec.ofNat 8 (code + 256 * detail) = BitVec.ofNat 8 code := by
    apply BitVec.eq_of_toNat_eq
    simp
  rw [hbyte]
  rfl

theorem completionBytes_length (code detail : Nat) (result : BitVec 64) : (completionBytes e code detail result).length = 16 := by
  simp [completionBytes, length_bytesOfNat]

/-! ## The register page -/

theorem devidWord_parts (s : State) : (devidWord s).extractLsb' 0 20 = s.admin.devid
    ∧ (devidWord s).extractLsb' 32 2 = BitVec.ofNat 2 s.form := by
  constructor <;> apply BitVec.eq_of_toNat_eq <;>
    simp only [devidWord, BitVec.extractLsb'_toNat, BitVec.toNat_ofNat, Nat.shiftRight_eq_div_pow] <;>
    have := s.admin.devid.isLt <;> omega

theorem bootWord_parts (s : State) : (bootWord s).extractLsb' 0 2 = BitVec.ofNat 2 s.admin.bootst
    ∧ (bootWord s).extractLsb' 8 8 = BitVec.ofNat 8 ((List.range 24).filter fun j => s.lost.getLsbD j).length := by
  have hlen : ((List.range 24).filter fun j => s.lost.getLsbD j).length ≤ 24 := by
    simpa using List.length_filter_le (fun j => s.lost.getLsbD j) (List.range 24)
  have hword : bootWord s = BitVec.ofNat 64 (s.admin.bootst % 4 + 256 * ((List.range 24).filter fun j => s.lost.getLsbD j).length) := rfl
  rw [hword]
  generalize ((List.range 24).filter fun j => s.lost.getLsbD j).length = n at hlen
  constructor <;> apply BitVec.eq_of_toNat_eq <;>
    simp only [BitVec.extractLsb'_toNat, BitVec.toNat_ofNat, Nat.shiftRight_eq_div_pow] <;> omega

/-- Words of the eight windows stand from 0x1000 on, three of each. -/
theorem pageValue_window (s : State) (k : Fin 8) {j : Nat} (hj : j < 3) :
    pageValue s (0x1000 + 24 * k.val + 8 * j) 8 = (s.rwins.get k).extractLsb' (64 * j) 64 := by
  have hk := k.isLt
  have hword : pageWord s (0x1000 + 24 * k.val + 8 * j) = rwinWord s (24 * k.val + 8 * j) := by
    unfold pageWord
    split <;> try omega
    rw [if_pos (by omega), show 0x1000 + 24 * k.val + 8 * j - 0x1000 = 24 * k.val + 8 * j by omega]
  have hfin : Fin.ofNat 8 ((24 * k.val + 8 * j) / 24) = k := Fin.ext (by simp [Fin.ofNat]; omega)
  rw [pageValue, if_pos ⟨rfl, by omega⟩, hword, rwinWord, hfin, show 64 * ((24 * k.val + 8 * j) % 24 / 8) = 64 * j by omega]

theorem pageValue_of_unaligned (s : State) {off size : Nat} (h : (size ≠ 4 ∧ size ≠ 8) ∨ off % size ≠ 0) : pageValue s off size = 0#64 := by
  have h8 : ¬ (size = 8 ∧ off % 8 = 0) := by rintro ⟨rfl, ha⟩; omega
  have h4 : ¬ (size = 4 ∧ off % 4 = 0) := by rintro ⟨rfl, ha⟩; omega
  rw [pageValue, if_neg h8, if_neg h4]

/-- A 4-byte read gives its half of the word. -/
theorem pageValue_half {off : Nat} (s : State) (h : off % 4 = 0) :
    pageValue s off 4 = ((pageWord s (off / 8 * 8)).extractLsb' (8 * (off % 8)) 32).setWidth 64 := by
  rw [pageValue, if_neg (by simp), if_pos ⟨rfl, h⟩]

theorem low_of_append (x y : BitVec 32) : (x ++ y : BitVec 64).extractLsb' 0 32 = y := by
  apply BitVec.eq_of_getLsbD_eq
  intro i hi
  rw [BitVec.getLsbD_extractLsb', BitVec.getLsbD_append]
  simp [hi]

theorem high_of_append (x y : BitVec 32) : (x ++ y : BitVec 64).extractLsb' 32 32 = x := by
  apply BitVec.eq_of_getLsbD_eq
  intro i hi
  rw [BitVec.getLsbD_extractLsb', BitVec.getLsbD_append]
  simp [hi]

/-! ## Writes of the register page -/

/-- A write of the page changes nothing of the device's identity, its boot or its security version. -/
theorem pageWrite_identity (a : Admin) (off : Nat) (wide : Bool) (v : BitVec 64) :
    (pageWrite a off wide v).devid = a.devid ∧ (pageWrite a off wide v).bootst = a.bootst ∧ (pageWrite a off wide v).secver = a.secver := by
  have hctl : ∀ x, (writeCtl a x).devid = a.devid ∧ (writeCtl a x).bootst = a.bootst ∧ (writeCtl a x).secver = a.secver := fun x => by
    unfold writeCtl
    split
    · split <;> exact ⟨rfl, rfl, rfl⟩
    · exact ⟨rfl, rfl, rfl⟩
  have htail : ∀ x, (writeTail a x).devid = a.devid ∧ (writeTail a x).bootst = a.bootst ∧ (writeTail a x).secver = a.secver := fun x => by
    unfold writeTail
    split <;> exact ⟨rfl, rfl, rfl⟩
  unfold pageWrite
  by_cases hoff : off % (if wide then 8 else 4) ≠ 0
  · simp only [if_pos hoff, and_self]
  · simp only [if_neg hoff]
    split <;> simp [hctl, htail]

/-- A write of a base register acts only while the queue is disabled. -/
theorem writeBase_wide (a : Admin) (old v : BitVec 64) (high : Bool) :
    writeBase a old v true high = if a.enable then old else v &&& 0xFFFFFFFFFFFFFFC0#64 := rfl

/-- A run of ones at a place of a window register. -/
theorem ones_getLsbD (n k : Nat) {i : Nat} (hi : i < 192) :
    (BitVec.ofNat 192 (2 ^ n - 1) <<< k).getLsbD i = decide (k ≤ i ∧ i < k + n) := by
  rw [BitVec.getLsbD_shiftLeft, BitVec.getLsbD_ofNat, Nat.testBit_two_pow_sub_one]
  by_cases h : k ≤ i ∧ i < k + n <;> simp [hi, h] <;> omega

/-- The bits of a window register that are written, by number. -/
theorem winBits_getLsbD {i : Nat} (hi : i < 192) :
    winBits.getLsbD i = (decide (7 ≤ i ∧ i < 64) || decide (71 ≤ i ∧ i < 128) || decide (128 ≤ i ∧ i < 152) || decide (160 ≤ i ∧ i < 161)) := by
  rw [winBits, BitVec.getLsbD_or, BitVec.getLsbD_or, BitVec.getLsbD_or, ones_getLsbD _ _ hi, ones_getLsbD _ _ hi, ones_getLsbD _ _ hi]
  exact congrArg _ (ones_getLsbD 1 160 hi)

/-- What a write of the first word leaves of a window that no ACTIVE context holds, bit by bit. -/
theorem winWrite_first_getLsbD (x : BitVec 192) (v : BitVec 64) {i : Nat} (hi : i < 192) :
    (winWrite x 0 8 v true).getLsbD i = if 7 ≤ i ∧ i < 64 then v.getLsbD i else x.getLsbD i := by
  have hpartial : ((v.setWidth 192 <<< (8 * 0)) &&& (BitVec.ofNat 192 (2 ^ (8 * 8) - 1) <<< (8 * 0))).getLsbD 184 = false := by
    rw [BitVec.getLsbD_and, ones_getLsbD _ _ (by omega)]
    simp
  simp only [winWrite, hpartial, Bool.false_eq_true, if_false, if_true, BitVec.getLsbD_or, BitVec.getLsbD_and, BitVec.getLsbD_not,
    ones_getLsbD _ _ hi, winBits_getLsbD hi, BitVec.getLsbD_shiftLeft, BitVec.getLsbD_setWidth]
  by_cases hin : 7 ≤ i ∧ i < 64
  · simp [hin, hi]
  · by_cases hlow : i < 64 
    · have : ¬ 7 ≤ i := by omega
      simp [hi, this, show ¬ 71 ≤ i by omega, show ¬ 128 ≤ i by omega, show ¬ 160 ≤ i by omega]
    · simp [hlow, hi]

theorem winWrite_base (x : BitVec 192) (v : BitVec 64) :
    winBase (winWrite x 0 8 v true) / 128 = v.toNat / 128 ∧ winLimit (winWrite x 0 8 v true) = winLimit x
      ∧ winCount (winWrite x 0 8 v true) = winCount x := by
  refine ⟨?_, congrArg BitVec.toNat (BitVec.eq_of_getLsbD_eq fun i hi => ?_), congrArg BitVec.toNat (BitVec.eq_of_getLsbD_eq fun i hi => ?_)⟩
  · have hhigh : (winWrite x 0 8 v true).extractLsb' 0 64 >>> 7 = v >>> 7 := BitVec.eq_of_getLsbD_eq fun i hi => by
      rw [BitVec.getLsbD_ushiftRight, BitVec.getLsbD_ushiftRight, BitVec.getLsbD_extractLsb']
      by_cases h : 7 + i < 64
      · rw [Nat.zero_add, winWrite_first_getLsbD x v (by omega), if_pos (by omega)]
        simp [h]
      · simp [h, BitVec.getLsbD_of_ge v (7 + i) (by omega)]
    have hnat := congrArg BitVec.toNat hhigh
    simpa [BitVec.toNat_ushiftRight, Nat.shiftRight_eq_div_pow, winBase] using hnat
  · rw [BitVec.getLsbD_extractLsb', BitVec.getLsbD_extractLsb', winWrite_first_getLsbD x v (by omega), if_neg (by omega)]
  · rw [BitVec.getLsbD_extractLsb', BitVec.getLsbD_extractLsb', winWrite_first_getLsbD x v (by omega), if_neg (by omega)]

/-- While a context is ACTIVE a write of the last word clears PARTIAL, or does nothing. -/
theorem winWrite_closed (x : BitVec 192) (v : BitVec 64) :
    winWrite x 16 8 v false = if v.getLsbD 56 then x &&& ~~~(1#192 <<< 184) else x := by
  have hpartial : ((v.setWidth 192 <<< (8 * 16)) &&& (BitVec.ofNat 192 (2 ^ (8 * 8) - 1) <<< (8 * 16))).getLsbD 184 = v.getLsbD 56 := by
    rw [BitVec.getLsbD_and, ones_getLsbD _ _ (by omega), BitVec.getLsbD_shiftLeft, BitVec.getLsbD_setWidth]
    simp
  simp only [winWrite, hpartial, Bool.false_eq_true, if_false]

theorem get_set_self (l : Vector (BitVec 192) 8) (k : Fin 8) (x : BitVec 192) : (l.set k.val x).get k = x := by
  rw [Vector.get_eq_getElem, Vector.getElem_set_self]

theorem exec_rwinWrite {k : Fin 8} {j : Nat} (hj : j < 3) (v : BitVec 64) (hopen : hostOpen s = true) :
    exec (.rwinWrite (0x1000 + 24 * k.val + 8 * j) true v) s = .next { s with rwins := s.rwins.set k.val (winWrite (s.rwins.get k) (8 * j) 8 v
      (s.contexts.all fun c => decide (c.state ≠ .active))) } := by
  have hk := k.isLt
  have hfin : Fin.ofNat 8 ((24 * k.val + 8 * j) / 24) = k := Fin.ext (by simp [Fin.ofNat]; omega)
  change execRwinWrite _ _ _ s = _
  have hguard : (!hostOpen s || decide (0x1000 + 24 * k.val + 8 * j < 0x1000) || decide (0x10C0 < 0x1000 + 24 * k.val + 8 * j + 8)
      || decide ((0x1000 + 24 * k.val + 8 * j) % 8 ≠ 0)) = false := by
    simp [hopen]; omega
  simp only [execRwinWrite, if_true, hguard, Bool.false_eq_true, if_false, show 0x1000 + 24 * k.val + 8 * j - 0x1000 = 24 * k.val + 8 * j by omega,
    hfin, show (24 * k.val + 8 * j) % 24 = 8 * j by omega]

end Sys2Proof.Machine

namespace Sys2Proof
open Machine

theorem adminQueue_checks {i : Instr} {f : AdminForm} {s : State} (h : adminForm i = some f) :
    (adminEntry s ≠ some f.entry → exec i s = .next s)
     ∧ (adminEntry s = some f.entry → entryOpcode f.entry = BitVec.ofNat 8 f.op →
       (s.admin.bootst = 2 → f.op ≠ 0x10 → f.op ≠ 0x18 → exec i s = .next (adminFail (takeCommand s) f.entry 2))
       ∧ (s.admin.bootst ≠ 2 → f.entry &&& ~~~(usedBits f.names f.fields) ≠ 0#512 →
         exec i s = .next (adminFail (takeCommand s) f.entry 1))
       ∧ (s.admin.bootst ≠ 2 → f.entry &&& ~~~(usedBits f.names f.fields) = 0#512 → f.names = true →
         findContext s (entryCtx f.entry) = none → exec i s = .next (adminFail (takeCommand s) f.entry 2))) := by
  obtain ⟨k, hk⟩ := exec_adminForm h
  refine ⟨fun hn => (hk s).trans (adminRun_of_not_next hn), fun hn hop => ⟨fun hb h₁ h₂ => ?_, fun hb hbits => ?_, fun hb hbits hnames hnone => ?_⟩⟩
  · rw [hk, adminRun_of_next hn hop, if_pos ⟨hb, by simp [recoveryAllows_eq_false h₁ h₂]⟩]
  · rw [hk, adminRun_of_next hn hop, if_neg (fun hr => hb hr.1), if_pos hbits]
  · rw [hk, adminRun_of_next hn hop, if_neg (fun hr => hb hr.1), if_neg (not_not.mpr hbits), if_pos ⟨hnames, by simp [hnone]⟩]

theorem adminQueue_unknown {s : State} {e : BitVec 512} (hnext : adminEntry s = some e) (hdecode : decodeAdmin e = .adminUnknownOpcode e)
    (hboot : s.admin.bootst ≠ 2) : exec (.adminUnknownOpcode e) s = .next (adminFail (takeCommand s) e 1) := by
  change execAdminUnknownOpcode e s = _
  simp [execAdminUnknownOpcode, hdecode, hnext, hboot]

theorem adminQueue_completion (s : State) (e : BitVec 512) (code detail : Nat) (result : BitVec 64) (at_ : Nat) (henable : s.admin.enable = true)
    (hwf : Memory.wf s.hostMem = true) (hcode : code < 256) (hat : at_ = s.admin.acbase.toNat + 16 * (s.admin.actail.toNat % 2 ^ s.admin.log2)) :
    cellsRead (adminDone s e code detail result).hostMem at_ 4 = bytesOfNat 4 (e.extractLsb' 32 32).toNat
      ∧ cellsRead (adminDone s e code detail result).hostMem (at_ + 4) 2 = [BitVec.ofNat 8 code, BitVec.ofNat 8 detail]
      ∧ (code = 0 → cellsRead (adminDone s e code detail result).hostMem (at_ + 8) 8 = bytesOfNat 8 result.toNat) := by
  have hlen := completionBytes_length (e := e) code detail result
  rw [adminDone_hostMem henable, ← hat]
  refine ⟨?_, ?_, fun hz => ?_⟩
  · refine (cellsRead_cellsWrite_part hwf at_ (i := 0) (by omega)).trans ?_
    simp [completionBytes, entryTag, length_bytesOfNat]
  · rw [cellsRead_cellsWrite_part hwf at_ (by omega), ← bytesOfNat_codeDetail hcode]
    simp [completionBytes, length_bytesOfNat]
  · rw [cellsRead_cellsWrite_part hwf at_ (by omega), completionBytes, List.drop_left' (by simp [length_bytesOfNat]), if_pos hz,
      List.take_of_length_le (by simp [length_bytesOfNat])]

theorem adminQueue_reads (s : State) :
    (pageValue s 0x000 8).extractLsb' 0 20 = s.admin.devid ∧ (pageValue s 0x000 8).extractLsb' 32 2 = BitVec.ofNat 2 s.form
       ∧ (pageValue s 0x008 8).extractLsb' 0 2 = BitVec.ofNat 2 s.admin.bootst
       ∧ (pageValue s 0x008 8).extractLsb' 8 8 = BitVec.ofNat 8 ((List.range 24).filter fun j => s.lost.getLsbD j).length
       ∧ pageValue s 0x010 8 = s.admin.secver ∧ pageValue s 0x100 8 = s.admin.aqbase ∧ pageValue s 0x118 8 = s.admin.acbase
       ∧ pageValue s 0x110 4 = 0#64 ∧ pageValue s 0x114 4 = s.admin.aqhead.setWidth 64 ∧ pageValue s 0x120 4 = s.admin.achead.setWidth 64
       ∧ pageValue s 0x124 4 = s.admin.actail.setWidth 64 := by
  refine ⟨(devidWord_parts s).1, (devidWord_parts s).2, (bootWord_parts s).1, (bootWord_parts s).2, rfl, rfl, rfl, ?_, ?_, ?_, ?_⟩ <;>
    rw [pageValue_half s rfl]
  · exact congrArg (BitVec.setWidth 64) (low_of_append s.admin.aqhead 0#32)
  · exact congrArg (BitVec.setWidth 64) (high_of_append s.admin.aqhead 0#32)
  · exact congrArg (BitVec.setWidth 64) (low_of_append s.admin.actail s.admin.achead)
  · exact congrArg (BitVec.setWidth 64) (high_of_append s.admin.actail s.admin.achead)

/-- The indices and the control register (R472). -/
theorem adminQueue_indexWrites {s : State} (hopen : hostOpen s = true) :
    (∀ v : BitVec 32,
         (idxDiff v s.admin.aqhead ≤ 2 ^ s.admin.log2 → exec (.aqtailWrite v) s = .next { s with admin := { s.admin with aqtail := v } })
         ∧ (2 ^ s.admin.log2 < idxDiff v s.admin.aqhead → exec (.aqtailWrite v) s = .next s))
       ∧ (∀ v : BitVec 64,
         (v.getLsbD 8 = true → s.admin.enable = false → exec (.aqctlWrite v) s = .next { s with admin := { s.admin with
             log2 := (v.extractLsb' 0 4).toNat, enable := true, aqhead := 0#32, aqtail := 0#32, achead := 0#32, actail := 0#32 } })
         ∧ (v.getLsbD 8 = true → s.admin.enable = true → exec (.aqctlWrite v) s = .next s)
         ∧ (v.getLsbD 8 = false →
           exec (.aqctlWrite v) s = .next { s with admin := { s.admin with log2 := (v.extractLsb' 0 4).toNat, enable := false } }))
       ∧ (∀ v : BitVec 32, exec (.acheadWrite v) s = .next { s with admin := { s.admin with achead := v } }) := by
  refine ⟨fun v => ⟨fun hle => ?_, fun hgt => ?_⟩, fun v => ⟨fun h8 hoff => ?_, fun h8 hon => ?_, fun h8 => ?_⟩, fun v => ?_⟩
  · change execAqtailWrite v s = _
    rw [execAqtailWrite, if_pos hopen, writeTail, adminSize, if_neg (by omega)]
  · change execAqtailWrite v s = _
    rw [execAqtailWrite, if_pos hopen, writeTail, adminSize, if_pos (by omega)]
  · change execAqctlWrite v s = _
    rw [execAqctlWrite, if_pos hopen, writeCtl, if_pos h8, if_neg (by simp [hoff])]
  · change execAqctlWrite v s = _
    rw [execAqctlWrite, if_pos hopen, writeCtl, if_pos h8, if_pos hon]
  · change execAqctlWrite v s = _
    rw [execAqctlWrite, if_pos hopen, writeCtl, h8, if_neg (by simp)]
  · change execAcheadWrite v s = _
    rw [execAcheadWrite, if_pos hopen]

theorem exec_registerWrite {s : State} (hopen : hostOpen s = true) (off : Nat) (wide : Bool) (v : BitVec 64) :
    exec (.registerWrite off wide v) s = .next { s with admin := pageWrite s.admin off wide v } := by
  change execRegisterWrite off wide v s = _
  rw [execRegisterWrite, if_pos hopen]

/-- The base registers (R472). -/
theorem adminQueue_baseWrites {s : State} (hopen : hostOpen s = true) (v : BitVec 64) :
    (s.admin.enable = false → exec (.registerWrite 0x100 true v) s
             = .next { s with admin := { s.admin with aqbase := v &&& 0xFFFFFFFFFFFFFFC0#64 } }
           ∧ exec (.registerWrite 0x118 true v) s
             = .next { s with admin := { s.admin with acbase := v &&& 0xFFFFFFFFFFFFFFC0#64 } })
         ∧ (s.admin.enable = true → exec (.registerWrite 0x100 true v) s = .next s ∧ exec (.registerWrite 0x118 true v) s = .next s) := by
  have hq : pageWrite s.admin 0x100 true v = { s.admin with aqbase := writeBase s.admin s.admin.aqbase v true false } := rfl
  have hc : pageWrite s.admin 0x118 true v = { s.admin with acbase := writeBase s.admin s.admin.acbase v true false } := rfl
  rw [exec_registerWrite hopen, exec_registerWrite hopen, hq, hc, writeBase_wide, writeBase_wide]
  exact ⟨fun hoff => by simp [hoff], fun hon => by rw [if_pos hon, if_pos hon]; exact ⟨rfl, rfl⟩⟩

/-- Settles O55: the checks of `adminRun`, the bytes of a completion, and the words of the register page. -/
theorem adminQueue : Obligations.AdminQueue := by
  refine ⟨⟨fun i f s h => adminQueue_checks h, fun s e hn hd hb => adminQueue_unknown hn hd hb,
    fun s e code detail result at_ henable hwf hcode _ hat => ?_⟩, fun s => ?_, fun s hopen => ?_⟩
  · obtain ⟨htag, hcd, hres⟩ := adminQueue_completion s e code detail result at_ henable hwf hcode hat
    obtain ⟨hadmin, hint⟩ := adminDone_enabled (e := e) (code := code) (detail := detail) (result := result) henable
    obtain ⟨hmem, hgangs⟩ := adminDone_frame (s := s) (e := e) code detail result
    exact ⟨htag, hcd, hres, hadmin, hint, hmem, hgangs⟩
  · obtain ⟨h₁, h₂, h₃, h₄, h₅, h₆, h₇, h₈, h₉, h₁₀, h₁₁⟩ := adminQueue_reads s
    exact ⟨h₁, h₂, h₃, h₄, h₅, h₆, h₇, h₈, h₉, h₁₀, h₁₁, fun k j hj => pageValue_window s k hj, fun off size h => pageValue_of_unaligned s h⟩
  · obtain ⟨htail, hctl, hhead⟩ := adminQueue_indexWrites hopen
    refine ⟨htail, hctl, hhead, fun v => ?_, fun k v x hx => ⟨fun hquiet => ?_, fun c hc hactive => ?_⟩⟩
    · obtain ⟨hoff, hon⟩ := adminQueue_baseWrites hopen v
      exact ⟨hoff, hon, fun off wide => ⟨_, exec_registerWrite hopen off wide v, rfl, pageWrite_identity s.admin off wide v⟩⟩
    · have hall : (s.contexts.all fun c => decide (c.state ≠ .active)) = true := by simpa using hquiet
      refine ⟨_, exec_rwinWrite (k := k) (j := 0) (by omega) v hopen, rfl, ?_⟩
      rw [hall, hx, get_set_self]
      exact winWrite_base (s.rwins.get k) v
    · have hall : (s.contexts.all fun c => decide (c.state ≠ .active)) = false := by
        rw [List.all_eq_false]
        exact ⟨c, hc, by simp [hactive]⟩
      refine ⟨_, exec_rwinWrite (k := k) (j := 2) (by omega) v hopen, rfl, ?_⟩
      rw [hall, hx, ← winWrite_closed, get_set_self]

end Sys2Proof


/-!
# The admin commands on contexts, kernels and queues (O56)

What the checks of CREATE and LOAD, the reset of a queue and DESTROY leave as it is, then each command's effect.
-/
namespace Sys2Proof.Machine

/-! ## The checks of CREATE and LOAD read and do not write (R371, R404) -/

theorem deviceRead_outsideTlbs (s : State) (die ctx : Nat) (va : BitVec 64) (n : Nat) : outsideTlbs (deviceRead s die ctx va n).1 = outsideTlbs s :=
  translateAny_outsideTlbs _ _ _ _ _ _

theorem regionOk_outsideTlbs (die ctx stop : Nat) (kinds : List Access) (fuel : Nat) (s : State) (va : Nat) :
    outsideTlbs (regionOk die ctx stop kinds fuel s va).1 = outsideTlbs s := by
  induction fuel generalizing s va with
  | zero => rfl
  | succ n ih =>
    have hkinds : outsideTlbs (kinds.foldl (fun (r : State × Bool) k =>
        let t := translateAny r.1 die ctx (BitVec.ofNat 64 va) 1 k
        (t.1, r.2 && t.2.isRight)) (s, true)).1 = outsideTlbs s :=
      List.foldlRecOn (motive := fun r : State × Bool => outsideTlbs r.1 = outsideTlbs s) _ _ rfl
        fun r h k _ => (translateAny_outsideTlbs r.1 _ _ _ _ _).trans h
    unfold regionOk
    dsimp only
    split
    · rfl
    · split
      · exact (ih _ _).trans hkinds
      · exact hkinds

theorem regionMapped_outsideTlbs (s : State) (die ctx a n : Nat) (kinds : List Access) :
    outsideTlbs (regionMapped s die ctx a n kinds).1 = outsideTlbs s := regionOk_outsideTlbs _ _ _ _ _ _ _

theorem extentsMapped_outsideTlbs (s : State) (c : Context) : outsideTlbs (extentsMapped s c).1 = outsideTlbs s := by
  unfold extentsMapped
  dsimp only
  split
  · exact regionMapped_outsideTlbs _ _ _ _ _ _
  · split
    · rw [regionMapped_outsideTlbs, regionMapped_outsideTlbs]
    · rw [regionMapped_outsideTlbs, regionMapped_outsideTlbs, regionMapped_outsideTlbs]

theorem liveEntries_outsideTlbs (die ctx ninstr : Nat) (table : BitVec 64) (n : Nat) (s : State) (i : Nat) (last : Option Nat) :
    outsideTlbs (liveEntries die ctx ninstr table n s i last).1 = outsideTlbs s := by
  induction n generalizing s i last with
  | zero => rfl
  | succ n ih =>
    unfold liveEntries
    dsimp only
    repeat' split
    all_goals simp only [ih, deviceRead_outsideTlbs]

theorem liveTable_outsideTlbs (s : State) (die ctx : Nat) (d : BitVec 512) : outsideTlbs (liveTable s die ctx d).1 = outsideTlbs s := by
  unfold liveTable
  dsimp only
  split
  · rfl
  · split
    · exact deviceRead_outsideTlbs _ _ _ _ _
    · split
      · exact deviceRead_outsideTlbs _ _ _ _ _
      · exact (liveEntries_outsideTlbs _ _ _ _ _ _ _ _).trans (deviceRead_outsideTlbs _ _ _ _ _)

theorem loadChecks_outsideTlbs (s : State) (c : Context) (kdesc : BitVec 64) : outsideTlbs (loadChecks s c kdesc).1 = outsideTlbs s := by
  unfold loadChecks
  dsimp only
  repeat' split
  all_goals simp only [regionMapped_outsideTlbs, liveTable_outsideTlbs, deviceRead_outsideTlbs]

theorem kernels_of_outsideTlbs {s t : State} (h : outsideTlbs t = outsideTlbs s) : t.kernels = s.kernels := by
  have hkernels := congrArg State.kernels h
  exact hkernels

theorem contexts_of_outsideTlbs {s t : State} (h : outsideTlbs t = outsideTlbs s) : t.contexts = s.contexts := by
  have hcontexts := congrArg State.contexts h
  exact hcontexts

/-! ## A queue that is reset (R391) -/

theorem num_of_findQueue {s : State} {n : Nat} {q : Queue} (h : findQueue s n = some q) : q.num = n := by
  simpa using List.find?_some h

/-- A record that is put keeps its BELL, whether its status block can be written or not. -/
theorem setQueue_bell {s : State} {x y : Queue} (hy : findQueue s x.num = some y) :
    ∃ x', findQueue (setQueue s x) x.num = some x' ∧ x'.bell = x.bell := by
  cases htry : tryQueue s x with
  | some t =>
    obtain ⟨b, hb⟩ := findQueue_tryQueue htry hy
    rw [setQueue_of_written htry]
    exact ⟨_, hb, rfl⟩
  | none =>
    by_cases hstate : x.state = .error
    · rw [setQueue, htry, if_pos hstate]
      exact ⟨x, findQueue_putQueue hy, rfl⟩
    · obtain ⟨x', hx', -, -, hbell, -⟩ := findQueue_cancelHead 4 hy
      rw [setQueue_of_unwritable htry hstate]
      exact ⟨x', hx', hbell⟩

theorem completePacket_bell {s : State} {n : Nat} {q : Queue} (h : findQueue s n = some q) (r : Record) :
    ∃ q', findQueue (completePacket s n r) n = some q' ∧ q'.bell = q.bell := by
  obtain rfl := num_of_findQueue h
  rw [completePacket, h]
  exact setQueue_bell (s := dueRecord s q.ctx r) (x := q.passed r.pindex) h

theorem cancelPublished_bell (k : Nat) {s : State} {n : Nat} {q : Queue} (h : findQueue s n = some q) :
    ∃ q', findQueue (cancelPublished k s n) n = some q' ∧ q'.bell = q.bell := by
  induction k generalizing s q with
  | zero => exact ⟨q, h, rfl⟩
  | succ k ih =>
    unfold cancelPublished
    rw [h]
    dsimp only
    split
    · exact ⟨q, h, rfl⟩
    · have hnum := num_of_findQueue h
      have hread := (findQueue_packetAt s q q.ridx n).trans h
      have hput : findQueue (putQueue (packetAt s q q.ridx).1 { q with ridx := q.ridx + 1#32 }) n = some { q with ridx := q.ridx + 1#32 } := by
        rw [← hnum]
        exact findQueue_putQueue (q := { q with ridx := q.ridx + 1#32 }) (by rw [hnum]; exact hread)
      obtain ⟨q₁, hq₁, hbell₁⟩ := completePacket_bell hput (cancelRecord (packetAt s q q.ridx).1 q (packetAt s q q.ridx).2)
      obtain ⟨q₂, hq₂, hbell₂⟩ := ih hq₁
      exact ⟨q₂, hq₂, hbell₂.trans hbell₁⟩

theorem cancelPublished_outsideQueues (k : Nat) (s : State) (n : Nat) : outsideQueues (cancelPublished k s n) = outsideQueues s := by
  induction k generalizing s with
  | zero => rfl
  | succ k ih =>
    unfold cancelPublished
    split
    · rfl
    · split
      · rfl
      · rw [ih, completePacket_outsideQueues, putQueue_outsideQueues]
        exact outsideQueues_of_outsideMemory (outsideMemory_of_outsideTlbs (packetAt_outsideTlbs _ _ _))

/-- A reset keeps BELL. -/
theorem resetQueue_bell {s : State} {q : Queue} (h : findQueue s q.num = some q) :
    ∃ q', findQueue (resetQueue s q) q.num = some q' ∧ q'.bell = q.bell := by
  obtain ⟨q₁, hq₁, hbell₁⟩ := cancelPublished_bell (2 ^ q.log2) h
  have hnum := num_of_findQueue hq₁
  have hset := setQueue_bell (x := { q₁ with state := .empty, err := 0 }) (by rw [hnum]; exact hq₁)
  obtain ⟨q₂, hq₂, hbell₂⟩ := hset
  refine ⟨q₂, ?_, hbell₂.trans hbell₁⟩
  rw [resetQueue, hq₁]
  exact (congrArg _ hnum.symm).trans hq₂

theorem resetQueue_outsideQueues (s : State) (q : Queue) : outsideQueues (resetQueue s q) = outsideQueues s := by
  unfold resetQueue
  dsimp only
  split
  · rw [setQueue_outsideQueues, cancelPublished_outsideQueues]
  · exact cancelPublished_outsideQueues _ _ _

theorem findQueue_of_namedQueue {s : State} {e : BitVec 512} {q : Queue} (h : namedQueue s e = some q) : findQueue s q.num = some q := by
  unfold namedQueue at h
  split at h
  case h_1 x hx =>
    split at h
    · cases h
      exact (congrArg (findQueue s) (num_of_findQueue hx)).trans hx
    · cases h
  case h_2 => cases h

theorem findQueue_modQueue_self {s : State} {n : Nat} {q : Queue} {f : Queue → Queue} (hf : ∀ q, (f q).num = q.num)
    (h : findQueue s n = some q) : findQueue (modQueue s n f) n = some (f q) := by
  have hfound := (find?_map_update Queue.num s.queues n n f fun x hx => (hf x).trans hx).trans (if_pos rfl)
  exact hfound.trans (congrArg (Option.map f) h)

/-- A queue with no packet that is put keeps its registers, whether its status block can be written or not. -/
theorem findQueue_setQueue_of_idle {s : State} {x y : Queue} (hy : findQueue s x.num = some y) (hidle : x.ridx = x.bell) :
    ∃ (state : QState) (err : Nat) (stale : Bool),
      findQueue (setQueue s x) x.num = some { x with state := state, err := err, stale := stale } := by
  cases htry : tryQueue s x with
  | some t =>
    obtain ⟨b, hb⟩ := findQueue_tryQueue htry hy
    rw [setQueue_of_written htry]
    exact ⟨x.state, x.err, b, hb⟩
  | none =>
    by_cases hstate : x.state = .error
    · rw [setQueue, htry, if_pos hstate]
      exact ⟨x.state, x.err, x.stale, findQueue_putQueue hy⟩
    · obtain ⟨b, hb⟩ := findQueue_getD_tryQueue (q := { x with state := .error, err := 4 }) hy
      rw [setQueue_of_unwritable htry hstate, cancelHead, if_pos hidle]
      exact ⟨.error, 4, b, hb⟩

/-- A free number names no queue. -/
theorem findQueue_of_freeQueue {s : State} {n : Nat} (h : freeQueue s = some n) : findQueue s n = none := by
  simpa using List.find?_some h

/-- The queue that QCREATE makes. -/
def madeQueue (n : Nat) (c : Context) (d : BitVec 512) : Queue :=
  if c.state = .active then { newQueue n c.num d with state := .empty } else newQueue n c.num d

theorem madeQueue_frame (n : Nat) (c : Context) (d : BitVec 512) :
    madeQueue n c d = { newQueue n c.num d with state := (madeQueue n c d).state } := by
  unfold madeQueue
  split <;> rfl

/-- The machine with a queue that QCREATE makes. -/
def withQueue (s : State) (n : Nat) (q : Queue) : State := { s with queues := s.queues ++ [q], nextQueue := (n + 1) % 4096 }

theorem findQueue_withQueue {s : State} {n : Nat} {q : Queue} (hq : q.num = n) (h : findQueue s n = none) :
    findQueue (withQueue s n q) n = some q := by
  have hfind : s.queues.find? (fun x => decide (x.num = n)) = none := h
  simp [findQueue, withQueue, List.find?_append, hfind, hq]

/-! ## DESTROY (R405, R407) -/

theorem finishTaken_gangs (s : State) (q : Queue) (t : Taken) (status faults : Nat) : (finishTaken s q t status faults).gangs = s.gangs :=
  gangs_of_outsideQueues (completePacket_outsideQueues _ _ _)

theorem cancelTaken_gangs (before s : State) (q : Queue) : (cancelTaken before s q).gangs = s.gangs := by
  unfold cancelTaken
  dsimp only
  split
  · exact foldl_keeps State.gangs (fun _ _ => gangs_of_outsideQueues (completePacket_outsideQueues _ _ _)) _ _
  · exact (foldl_keeps State.gangs (fun _ _ => finishTaken_gangs _ _ _ _ _) _ _).trans
      (foldl_keeps State.gangs (fun _ _ => gangs_of_outsideQueues (completePacket_outsideQueues _ _ _)) _ _)

theorem cancelQueues_gangs (before s : State) (n : Nat) : (cancelQueues before s n).gangs = s.gangs := by
  unfold cancelQueues
  dsimp only
  exact (foldl_keeps State.gangs (f := fun s (q : Queue) => cancelPublished (2 ^ q.log2) s q.num)
    (fun _ _ => gangs_of_outsideQueues (cancelPublished_outsideQueues _ _ _)) _ _).trans
    (foldl_keeps State.gangs (cancelTaken_gangs before) _ _)

theorem destroyContext_gone {s : State} {n : Nat} {g : Gang} (hg : g ∈ (destroyContext s n).gangs) : g.ctx ≠ n := by
  have hgangs : (destroyContext s n).gangs = (dropWork (killGangs (cutJobs s n) n) n).gangs := by
    unfold destroyContext
    dsimp only [modContext]
    exact cancelQueues_gangs _ _ _
  rw [hgangs] at hg
  exact killGangs_gone (s := cutJobs s n) hg

theorem destroyContext_queues {s : State} {n : Nat} {q : Queue} (hq : q ∈ (destroyContext s n).queues) : q.ctx ≠ n := by
  unfold destroyContext cancelQueues at hq
  dsimp only [modContext] at hq
  simpa using (List.mem_filter.mp hq).2

theorem destroyContext_kernels {s : State} {n : Nat} {k : Kernel} (hk : k ∈ (destroyContext s n).kernels) : k.ctx ≠ n := by
  unfold destroyContext at hk
  dsimp only [modContext] at hk
  simpa using (List.mem_filter.mp hk).2

/-- A context that a step has put into a state is found in it. -/
theorem state_of_findContext_modContext {s : State} {n : Nat} {d : Context} {x : CState}
    (h : findContext (modContext s n fun c => { c with state := x }) n = some d) : d.state = x := by
  have hmem := List.mem_of_find?_eq_some h
  have hnum := num_of_findContext h
  obtain ⟨c, -, hc⟩ := List.mem_map.mp hmem
  split at hc
  · rw [← hc]
  · exact absurd (hc ▸ hnum) ‹_›

/-! ## UNLOAD (R377) -/

theorem clearStanding_frame (s : State) (die : Nat) (k : Kernel) :
    ((clearStanding s die k).mem, (clearStanding s die k).gangs, (clearStanding s die k).kernels) = (s.mem, s.gangs, s.kernels) := by
  refine foldl_keeps (fun s => (s.mem, s.gangs, s.kernels)) (fun t b => ?_) _ s
  split <;> rfl

/-- The kernel as UNLOAD leaves it. -/
def retired (s : State) (k : Kernel) : State :=
  { s with kernels := s.kernels.map fun x => if x.ctx = k.ctx ∧ x.kdesc = k.kdesc then { x with state := .retiring } else x }

theorem named_of_findKernel {s : State} {ctx : Nat} {kdesc : BitVec 64} {k : Kernel} (h : findKernel s ctx kdesc = some k) :
    k.ctx = ctx ∧ k.kdesc = kdesc := by
  simpa using List.find?_some h

theorem findKernel_retired {s : State} {ctx : Nat} {kdesc : BitVec 64} {k : Kernel} (h : findKernel s ctx kdesc = some k) :
    findKernel (retired s k) ctx kdesc = some { k with state := .retiring } := by
  obtain ⟨rfl, rfl⟩ := named_of_findKernel h
  have hpred : (fun x : Kernel => decide (x.ctx = k.ctx) && decide (x.kdesc = k.kdesc)) ∘
      (fun x => if x.ctx = k.ctx ∧ x.kdesc = k.kdesc then { x with state := .retiring } else x)
      = fun x => decide (x.ctx = k.ctx) && decide (x.kdesc = k.kdesc) := by
    funext x
    by_cases hx : x.ctx = k.ctx ∧ x.kdesc = k.kdesc <;> simp [hx]
  rw [findKernel] at h
  rw [findKernel, retired, List.find?_map, hpred, h]
  simp

end Sys2Proof.Machine

namespace Sys2Proof
open Machine

section
variable {e : BitVec 512} {s t : State} {c : Context}

theorem contextCommands_create {l : List Byte} {d : BitVec 512} {n : Nat} {m u : State} (h : AdminActs (.create e) e s t)
    (hread : hostRead t (entryWord e 8).toNat 64 = some l) (hd : d = BitVec.ofNat 512 (natOfBytes l)) (hbad : cdBad d = false)
    (hdies : ∀ j < 8, (BitVec.ofNat 8 (kdField d 48 0 8)).getLsbD j = true → dieLost t j = false) (hn : freeContext t = some n)
    (hroom : shadowRoom t (newContext n d) = true)
    (hmapped : extentsMapped { t with contexts := t.contexts ++ [newContext n d], nextCtx := (n + 1) % 65535 } (newContext n d) = (m, true))
    (hwrite : deviceWrite m (contextDie t (newContext n d)) n (controlAddr (newContext n d)) (bytesOfNat 64 0) = some u) :
    exec (.create e) s = .next (adminOk u e (BitVec.ofNat 64 n)) ∧ u.contexts = s.contexts ++ [newContext n d] := by
  subst hd
  have hpresent : ((List.range 8).any fun j =>
      (BitVec.ofNat 8 (kdField (BitVec.ofNat 512 (natOfBytes l)) 48 0 8)).getLsbD j && dieLost t j) = false := by
    refine List.any_eq_false.mpr fun j hj => ?_
    intro hboth
    obtain ⟨hbit, hlost⟩ := Bool.and_eq_true_iff.mp hboth
    simp [hdies j (List.mem_range.mp hj) hbit] at hlost
  refine ⟨(exec_of_adminActs h rfl (show execCreate e s = _ from rfl)).trans ?_, ?_⟩
  · simp only [hread, hbad, hpresent, hn, hroom, hmapped, hwrite, Bool.false_eq_true, if_false, Bool.not_true]
  · have hm := extentsMapped_outsideTlbs { t with contexts := t.contexts ++ [newContext n (BitVec.ofNat 512 (natOfBytes l))], nextCtx := (n + 1) % 65535 }
      (newContext n (BitVec.ofNat 512 (natOfBytes l)))
    rw [hmapped] at hm
    rw [contexts_of_outsideMemory (deviceWrite_outsideMemory hwrite), contexts_of_outsideTlbs hm, h.taken]
    rfl

theorem contextCommands_activate (hc : findContext t (entryCtx e) = some c) (h : AdminActs (.activate e) e s t) :
    (partHeld t c = false →
      (c.state = .created → (c.dispatch = 0#64 ∨ loadedKernel t c.num c.dispatch = true) →
        exec (.activate e) s = .next (adminOk (activateNew t c) e 0#64))
      ∧ (c.state = .saved →
        exec (.activate e) s = .next (adminHold (modContext t c.num fun x => { x with state := .resuming }) e)))
    ∧ (partHeld t c = true → exec (.activate e) s = .next (adminFail t e 2)) := by
  have hexec := exec_of_adminActs h rfl (show execActivate e s = _ from rfl)
  refine ⟨fun hfree => ⟨fun hcreated hkernel => hexec.trans ?_, fun hsaved => hexec.trans ?_⟩, fun hheld => hexec.trans ?_⟩
  · have hruns : ¬ (c.dispatch ≠ 0#64 ∧ (!loadedKernel t c.num c.dispatch) = true) := by
      rintro ⟨hne, hunloaded⟩
      rcases hkernel with h0 | hloaded
      · exact hne h0
      · simp [hloaded] at hunloaded
    simp only [hc, hfree, hcreated, if_neg hruns, Bool.false_eq_true, if_false]
  · simp only [hc, hfree, hsaved, Bool.false_eq_true, if_false]
  · simp only [hc, hheld, if_true]

theorem contextCommands_preempt (hc : findContext t (entryCtx e) = some c) (h : AdminActs (.preempt e) e s t) :
    (c.state = .active → exec (.preempt e) s = .next (adminHold (beginPreempt t c.num) e))
    ∧ (c.state ≠ .active → exec (.preempt e) s = .next (adminFail t e 2)) := by
  have hexec := exec_of_adminActs h rfl (show execPreempt e s = _ from rfl)
  refine ⟨fun hactive => hexec.trans ?_, fun hother => hexec.trans ?_⟩
  · simp only [hc, hactive, ne_eq, not_true, if_false]
  · simp only [hc, if_pos hother]

theorem contextCommands_destroy (hc : findContext t (entryCtx e) = some c) (h : AdminActs (.destroy e) e s t) (hstate : c.state ≠ .destroying) :
    ∃ u, exec (.destroy e) s = .next u ∧ u.admin.busy = some e ∧ (∀ g ∈ u.gangs, g.ctx ≠ c.num)
      ∧ (∀ q ∈ u.queues, q.ctx ≠ c.num) ∧ (∀ k ∈ u.kernels, k.ctx ≠ c.num)
      ∧ ∀ d, findContext u c.num = some d → d.state = .destroying := by
  refine ⟨adminHold (destroyContext t c.num) e, (exec_of_adminActs h rfl (show execDestroy e s = _ from rfl)).trans ?_, rfl,
    fun g hg => destroyContext_gone hg, fun q hq => destroyContext_queues hq, fun k hk => destroyContext_kernels hk,
    fun d hd => state_of_findContext_modContext hd⟩
  simp only [hc, if_neg hstate]

theorem contextCommands_load (hc : findContext t (entryCtx e) = some c) (h : AdminActs (.load e) e s t)
    (hnew : findKernel t c.num (entryWord e 8) = none) :
    (∀ n u, loadChecks t c (entryWord e 8) = (u, .inl n) → exec (.load e) s = .next (adminDone u e 4 n 0#64))
    ∧ (∀ k u, loadChecks t c (entryWord e 8) = (u, .inr k) →
      ∃ v, exec (.load e) s = .next (adminOk v e 0#64) ∧ v.kernels = s.kernels ++ [k] ∧ v.mem = s.mem) := by
  have hexec := exec_of_adminActs h rfl (show execLoad e s = _ from rfl)
  have hframe := loadChecks_outsideTlbs t c (entryWord e 8)
  refine ⟨fun n u hu => hexec.trans ?_, fun k u hu => ⟨dropKernelCode { u with kernels := u.kernels ++ [k] } k, hexec.trans ?_, ?_, ?_⟩⟩
  · simp [hc, hnew, hu]
  · simp [hc, hnew, hu]
  · rw [hu] at hframe
    have hkernels := kernels_of_outsideTlbs hframe
    exact congrArg (· ++ [k]) (hkernels.trans (by rw [h.taken]; rfl))
  · rw [hu] at hframe
    exact (mem_of_outsideTlbs hframe).trans (by rw [h.taken]; rfl)

theorem contextCommands_unload (hc : findContext t (entryCtx e) = some c) {k : Kernel} (h : AdminActs (.unload e) e s t)
    (hk : findKernel t c.num (entryWord e 8) = some k) (hloaded : k.state = .loaded) (hunused : c.dispatch ≠ k.kdesc ∨ c.state ≠ .active) :
    ∃ u, exec (.unload e) s = .next (adminOk u e 0#64) ∧ u.mem = s.mem ∧ u.gangs = s.gangs
      ∧ findKernel u c.num (entryWord e 8) = some { k with state := .retiring } := by
  have hallowed : ¬ (k.state = .retiring ∨ (c.dispatch = k.kdesc ∧ c.dispatch ≠ 0#64 ∧ c.state = .active)) := by
    rintro (hr | ⟨hd, -, ha⟩)
    · simp [hloaded] at hr
    · rcases hunused with hne | hne
      · exact hne hd
      · exact hne ha
  have hframe : ∀ x : State, (((List.range 8).foldl (fun s j => clearStanding s j k) x).mem,
      ((List.range 8).foldl (fun s j => clearStanding s j k) x).gangs, ((List.range 8).foldl (fun s j => clearStanding s j k) x).kernels)
      = (x.mem, x.gangs, x.kernels) :=
    fun x => foldl_keeps (fun s => (s.mem, s.gangs, s.kernels)) (f := fun s j => clearStanding s j k) (fun s j => clearStanding_frame s j k) _ x
  obtain ⟨hmem, hgangs, hkernels⟩ : _ ∧ _ ∧ _ := by simpa only [Prod.mk.injEq] using hframe (retired t k)
  refine ⟨(List.range 8).foldl (fun s j => clearStanding s j k) (retired t k),
    (exec_of_adminActs h rfl (show execUnload e s = _ from rfl)).trans ?_, hmem.trans ?_, hgangs.trans ?_, ?_⟩
  · simp only [hc, hk, if_neg hallowed]
    rfl
  · rw [h.taken]; rfl
  · rw [h.taken]; rfl
  · exact (findKernel_congr hkernels _ _).trans (findKernel_retired hk)

theorem contextCommands_qcreate (hc : findContext t (entryCtx e) = some c) {l : List Byte} {d : BitVec 512} {n : Nat}
    (h : AdminActs (.qcreate e) e s t) (hread : hostRead t (entryWord e 8).toNat 64 = some l) (hd : d = BitVec.ofNat 512 (natOfBytes l))
    (hbad : qdBad d = false) (hmask : BitVec.ofNat 8 (kdField d 16 0 8) &&& ~~~c.diemask = 0#8) (hn : freeQueue t = some n) :
    ∃ u q, exec (.qcreate e) s = .next (adminOk u e (BitVec.ofNat 64 n)) ∧ findQueue u n = some q ∧ q.ctx = c.num
      ∧ q.ring = kdAddr d 0 ∧ q.log2 = kdField d 8 0 5 ∧ q.tickets = kdField d 12 0 16 ∧ q.ridx = 0#32 ∧ q.bell = 0#32 := by
  subst hd
  have hframe := madeQueue_frame n c (BitVec.ofNat 512 (natOfBytes l))
  generalize hq : madeQueue n c (BitVec.ofNat 512 (natOfBytes l)) = q at hframe
  have hnum : q.num = n := by rw [hframe]; rfl
  have hidle : q.ridx = q.bell := by rw [hframe]; rfl
  have hadded := findQueue_withQueue hnum (findQueue_of_freeQueue hn)
  obtain ⟨state, err, stale, hset⟩ := findQueue_setQueue_of_idle (x := q) (hnum ▸ hadded) hidle
  rw [hnum] at hset
  refine ⟨setQueue (withQueue t n q) q, _, (exec_of_adminActs h rfl (show execQcreate e s = _ from rfl)).trans ?_, hset, ?_⟩
  · subst hq
    simp only [hc, hread, hbad, hmask, hn, ne_eq, not_true, if_false, Bool.false_eq_true]
    rfl
  · rw [hframe]
    exact ⟨rfl, rfl, rfl, rfl, rfl, rfl⟩

theorem contextCommands_queues {q : Queue} (hq : namedQueue t e = some q) :
    (AdminActs (.qreset e) e s t →
        (q.state ≠ .error → exec (.qreset e) s = .next (adminFail t e 2))
        ∧ (q.state = .error → ∃ u q', exec (.qreset e) s = .next (adminOk u e 0#64) ∧ findQueue u q.num = some q' ∧ q'.bell = q.bell
            ∧ u.gangs = s.gangs))
      ∧ (AdminActs (.qdestroy e) e s t → ∃ u q', exec (.qdestroy e) s = .next (adminHold u e) ∧ findQueue u q.num = some q'
          ∧ q'.destroying = true ∧ u.gangs = s.gangs) := by
  have hfound := findQueue_of_namedQueue hq
  obtain ⟨q', hq', hbell⟩ := resetQueue_bell hfound
  have hgangs : (resetQueue t q).gangs = t.gangs := gangs_of_outsideQueues (resetQueue_outsideQueues t q)
  refine ⟨fun h => ?_, fun h => ?_⟩
  · have hexec := exec_of_adminActs h rfl (show execQreset e s = _ from rfl)
    refine ⟨fun hstate => hexec.trans ?_, fun hstate => ⟨resetQueue t q, q', hexec.trans ?_, hq', hbell, hgangs.trans ?_⟩⟩
    · simp only [hq, if_pos hstate]
    · simp only [hq, hstate, ne_eq, not_true, if_false]
    · rw [h.taken]; rfl
  · refine ⟨modQueue (resetQueue t q) q.num fun x => { x with destroying := true }, { q' with destroying := true },
      (exec_of_adminActs h rfl (show execQdestroy e s = _ from rfl)).trans ?_,
      findQueue_modQueue_self (f := fun x => { x with destroying := true }) (fun _ => rfl) hq', rfl, hgangs.trans ?_⟩
    · simp only [hq]
    · rw [h.taken]; rfl

theorem contextCommands_seed (h : AdminActs (.seed e) e s t) : ∃ u, exec (.seed e) s = .next (adminOk u e 0#64) ∧ u.mem = s.mem ∧ u.gangs = s.gangs
    ∧ (getDie u (entryField e 8 0 3)).lottery = if entryWord e 16 = 0#64 then 0x9E3779B97F4A7C15#64 else entryWord e 16 := by
  refine ⟨_, exec_of_adminActs h rfl (show execSeed e s = _ from rfl), ?_, ?_, ?_⟩
  · rw [h.taken]; rfl
  · rw [h.taken]; rfl
  · rw [getDie_modDie]

end

/-- Settles O56: each command's effect is its row's own branch, with what the reset, the checks and DESTROY leave as it is. -/
theorem contextCommands : Obligations.ContextCommands := by
  intro e s t c
  refine ⟨fun l d n m u => contextCommands_create, fun hc => ⟨fun h hfree => (contextCommands_activate hc h).1 hfree,
    fun h hheld => (contextCommands_activate hc h).2 hheld, fun h hactive => (contextCommands_preempt hc h).1 hactive,
    fun h hother => (contextCommands_preempt hc h).2 hother, fun h hstate => contextCommands_destroy hc h hstate,
    fun h hnew => contextCommands_load hc h hnew, fun k h hk hloaded hunused => contextCommands_unload hc h hk hloaded hunused,
    fun l d n h hread hd hbad hmask hn => contextCommands_qcreate hc h hread hd hbad hmask hn⟩,
    fun q hq => contextCommands_queues hq, contextCommands_seed⟩

end Sys2Proof


/-!
# The admin commands on the device and its pages (O57)

The frame of a shootdown's beginning, the frame that MIGRATE moves a page to, and each
command's own branch.
-/
namespace Sys2Proof.Machine

/-! ## SHOOTDOWN (R319) -/

/-- The machine without what a shootdown's beginning changes beside its own record: the dies' entries, their tasks, and what the
guest is sent. -/
def outsideShoot (s : State) : State := { outsideGuest s with dies := State.reset.dies, tasks := [], nextUid := 0 }

theorem outsideShoot_of_outsideGuest {s t : State} (h : outsideGuest t = outsideGuest s) : outsideShoot t = outsideShoot s := by
  rw [outsideShoot, h]; rfl

theorem shootDies_outsideShoot (ctx first len : Nat) (l : List Nat) (s : State) :
    outsideShoot (shootDies ctx first len l s).1 = outsideShoot s := by
  induction l generalizing s with
  | nil => rfl
  | cons d rest ih => exact ih (shootDie ctx first len s d).1

theorem shotGuest_outsideShoot (s : State) (ctx first len : Nat) : outsideShoot (shotGuest s ctx first len) = outsideShoot s := by
  have hdies : outsideShoot (shotDies s ctx first len) = outsideShoot s :=
    (foldl_keeps outsideShoot (f := forgetRange ctx first len) (fun _ _ => rfl) _ _).trans (shootDies_outsideShoot _ _ _ _ _)
  unfold shotGuest
  split
  · exact (outsideShoot_of_outsideGuest (sendInval_outsideGuest _ _ _ _ _)).trans hdies
  · exact hdies

theorem shotGuest_frame (s : State) (ctx first len : Nat) : (shotGuest s ctx first len).shoots = s.shoots
    ∧ (shotGuest s ctx first len).admin = s.admin ∧ (shotGuest s ctx first len).mem = s.mem := by
  have h := shotGuest_outsideShoot s ctx first len
  have hshoots := congrArg State.shoots h
  have hadmin := congrArg State.admin h
  have hmem := congrArg State.mem h
  exact ⟨hshoots, hadmin, hmem⟩

/-! ## MIGRATE and BIAS (R317, R318) -/

/-- A page is far smaller than a stack. -/
theorem pageSize_pos_le (e : BitVec 64) : 0 < pageSize e ∧ pageSize e ≤ 2 ^ 30 := by
  unfold pageSize
  split <;> omega

/-- The free frame of a memory die lies in its stack. -/
theorem homeOf_freeFrame (s : State) {die : Nat} (hlow : 8 ≤ die) (hhigh : die ≤ 23) (leaf : BitVec 64) :
    homeOf (freeFrame s die (pageSize leaf)) = die := by
  obtain ⟨hpos, hle⟩ := pageSize_pos_le leaf
  have hframes : 0 < stackLimit / pageSize leaf := Nat.div_pos (hle.trans (by decide)) hpos
  have hin : (Config.freeValue s.freeCtr 2 0).toNat % (stackLimit / pageSize leaf) * pageSize leaf < 2 ^ 40 := by
    calc _ ≤ stackLimit / pageSize leaf * pageSize leaf := Nat.mul_le_mul_right _ (Nat.mod_lt _ hframes).le
      _ ≤ stackLimit := Nat.div_mul_le_self _ _
      _ < 2 ^ 40 := by decide
  unfold freeFrame
  generalize (Config.freeValue s.freeCtr 2 0).toNat % (stackLimit / pageSize leaf) * pageSize leaf = off at hin
  have hregion : paRegion ((die - 8) * 2 ^ 40 + off) = 0 := by
    unfold paRegion
    omega
  rw [homeOf, if_pos hregion]
  omega

theorem modHomePage_frame (s : State) (g : Nat) (f : HomePage → HomePage) :
    (modHomePage s g f).mem = s.mem ∧ (modHomePage s g f).gangs = s.gangs ∧ (modHomePage s g f).migrations = s.migrations := by
  unfold modHomePage
  split <;> exact ⟨rfl, rfl, rfl⟩

theorem setPage_frame (s : State) (base size : Nat) (st : PageState) :
    ((setPage s base size st).mem, (setPage s base size st).gangs, (setPage s base size st).migrations) = (s.mem, s.gangs, s.migrations) := by
  refine foldl_keeps (fun s => (s.mem, s.gangs, s.migrations)) (fun s k => ?_) _ s
  obtain ⟨hmem, hgangs, hmigrations⟩ := modHomePage_frame s (granule base + k) fun h => { h with state := st }
  rw [hmem, hgangs, hmigrations]

/-- The record of a migration or bias change that begins. -/
def newMove (ctx : Nat) (va leaf : BitVec 64) (new : Nat) (bias : Option Bool) : Migration :=
  { ctx := ctx, va := va.toNat / pageSize leaf * pageSize leaf, size := pageSize leaf, old := pteAddr leaf, new := new, bias := bias,
    boundary := 0, shoot := none }

/-- The machine with a migration or bias change that begins. -/
def moved (s : State) (m : Migration) : State := moveSharers (setPage { s with migrations := s.migrations ++ [m] } m.old m.size .migrating) m

theorem startMove_eq (s : State) (e : BitVec 512) (ctx : Nat) (va leaf : BitVec 64) (new : Nat) (bias : Option Bool) :
    startMove s e ctx va leaf new bias = adminHold (moved s (newMove ctx va leaf new bias)) e := rfl

theorem moved_frame (s : State) (m : Migration) : (moved s m).migrations = s.migrations ++ [m] ∧ (moved s m).mem = s.mem
    ∧ (moved s m).gangs = s.gangs := by
  have hpage := setPage_frame { s with migrations := s.migrations ++ [m] } m.old m.size .migrating
  simp only [Prod.mk.injEq] at hpage
  obtain ⟨hmem, hgangs, hmigrations⟩ := hpage
  rw [moved, moveSharers_eq]
  exact ⟨hmigrations, hmem, hgangs⟩

/-! ## KEYBIND (R340, R474) -/

theorem findKey_putKey_none (s : State) (die slot : Nat) : findKey (getDie (putKey s die slot none) die) slot = none := by
  rw [putKey, getDie_modDie]
  simp [findKey]

theorem findKey_putKey_some (s : State) (die : Nat) {slot : Nat} {k : KeySlot} (hk : k.slot = slot) :
    findKey (getDie (putKey s die slot (some k)) die) slot = some k := by
  rw [putKey, getDie_modDie]
  have hgone : ((getDie s die).keys.filter fun x => decide (x.slot ≠ slot)).find? (fun x => decide (x.slot = slot)) = none := by
    simp
  simp only [findKey, List.find?_append, hgone, Option.toList_some, List.find?_singleton, hk, decide_true, if_true, Option.none_or]

theorem slot_of_findKey {d : Die} {slot : Nat} {k : KeySlot} (h : findKey d slot = some k) : k.slot = slot := by
  simpa using List.find?_some h

/-! ## Host memory (R475) -/

theorem adminWrite_of_answers {s : State} {e : BitVec 512} {a : Nat} {bytes : List Byte} {result : BitVec 64}
    (h : hostAnswers s a bytes.length = true) :
    adminWrite s e a bytes result = adminOk { s with hostMem := cellsWrite s.hostMem a bytes } e result := by
  rw [adminWrite, hostWrite, if_pos h]

end Sys2Proof.Machine

namespace Sys2Proof
open Machine

section
variable {e : BitVec 512} {s t : State}

theorem deviceCommands_move {leaf : BitVec 64} (hleaf : movable t (entryCtx e) (entryWord e 8) = some leaf)
    (hbusy : pageBusy t (pteAddr leaf) (pageSize leaf) = false) (hpoison : pagePoisoned t (pteAddr leaf) (pageSize leaf) = false) :
    (pteBias leaf = false → pageHostBiased t (pteAddr leaf) (pageSize leaf) = false →
        AdminActs (.migrate e) e s t → 8 ≤ entryField e 16 0 8 → entryField e 16 0 8 ≤ 23 → homeLost t (entryField e 16 0 8) = false →
        ∃ u m, exec (.migrate e) s = .next (adminHold u e) ∧ u.migrations = s.migrations ++ [m] ∧ m.old = pteAddr leaf
          ∧ m.size = pageSize leaf ∧ m.bias = none ∧ m.boundary = 0 ∧ homeOf m.new = entryField e 16 0 8 ∧ u.mem = s.mem
          ∧ u.gangs = s.gangs)
      ∧ (AdminActs (.bias e) e s t →
        entryField e 16 0 1 = 0 ∨ pteBias leaf = false ∧ pageHostBiased t (pteAddr leaf) (pageSize leaf) = false →
        ∃ u m, exec (.bias e) s = .next (adminHold u e) ∧ u.migrations = s.migrations ++ [m] ∧ m.old = pteAddr leaf
          ∧ m.size = pageSize leaf ∧ m.bias = some (decide (entryField e 16 0 1 = 1)) ∧ m.boundary = 0 ∧ u.mem = s.mem
          ∧ u.gangs = s.gangs) := by
  refine ⟨fun hbias hhost h hlow hhigh hhome => ?_, fun h hallowed => ?_⟩
  · obtain ⟨hmigrations, hmem, hgangs⟩ := moved_frame t
      (newMove (entryCtx e) (entryWord e 8) leaf (freeFrame t (entryField e 16 0 8) (pageSize leaf)) none)
    have hdie : ¬ (entryField e 16 0 8 < 8 ∨ entryField e 16 0 8 > 23) := by omega
    refine ⟨_, newMove (entryCtx e) (entryWord e 8) leaf (freeFrame t (entryField e 16 0 8) (pageSize leaf)) none,
      (exec_of_adminActs h rfl (show execMigrate e s = _ from rfl)).trans ?_, hmigrations.trans ?_, rfl, rfl, rfl, rfl,
      homeOf_freeFrame t hlow hhigh leaf, hmem.trans ?_, hgangs.trans ?_⟩
    · simp only [if_neg hdie, hhome, hleaf, hbusy, hhost, hbias, hpoison, Bool.or_self, Bool.false_eq_true, if_false, startMove_eq]
    all_goals rw [h.taken]; rfl
  · obtain ⟨hmigrations, hmem, hgangs⟩ := moved_frame t
      (newMove (entryCtx e) (entryWord e 8) leaf (pteAddr leaf) (some (decide (entryField e 16 0 1 = 1))))
    have hquiet : (decide (entryField e 16 0 1 = 1) && (pteBias leaf || pageHostBiased t (pteAddr leaf) (pageSize leaf))) = false := by
      rcases hallowed with h0 | ⟨hbias, hhost⟩
      · simp [h0]
      · simp [hbias, hhost]
    refine ⟨_, newMove (entryCtx e) (entryWord e 8) leaf (pteAddr leaf) (some (decide (entryField e 16 0 1 = 1))),
      (exec_of_adminActs h rfl (show execBias e s = _ from rfl)).trans ?_, hmigrations.trans ?_, rfl, rfl, rfl, rfl,
      hmem.trans ?_, hgangs.trans ?_⟩
    · simp only [hleaf, hbusy, hquiet, hpoison, Bool.or_self, Bool.false_eq_true, if_false, startMove_eq]
    all_goals rw [h.taken]; rfl

theorem deviceCommands_shootdown (h : AdminActs (.shootdown e) e s t) :
    ∃ u x, exec (.shootdown e) s = .next u ∧ u.shoots = s.shoots ++ [x] ∧ x.ctx = entryCtx e
        ∧ x.first = (entryWord e 8).toNat ∧ x.len = (entryWord e 16).toNat ∧ x.admin = true
        ∧ x.tasks.map (fun k => k.1) = contextDies s (entryCtx e) ∧ u.admin.busy = some e ∧ u.mem = s.mem := by
  obtain ⟨hshoots, hadmin, hmem⟩ := shotGuest_frame (adminHold t e) (entryCtx e) (entryWord e 8).toNat (entryWord e 16).toNat
  refine ⟨_, newShoot (adminHold t e) (entryCtx e) (entryWord e 8).toNat (entryWord e 16).toNat true,
    exec_of_adminActs h rfl (show execShootdown e s = _ from rfl), ?_, rfl, rfl, rfl, rfl, ?_, ?_, ?_⟩
  · rw [startShoot_eq]
    refine congrArg (· ++ [_]) (hshoots.trans ?_)
    rw [h.taken]; rfl
  · rw [newShoot_tasks]
    refine contextDies_congr ?_ ?_ _ <;> rw [h.taken] <;> rfl
  · rw [startShoot_eq]
    exact congrArg Admin.busy hadmin
  · rw [startShoot_eq]
    refine hmem.trans ?_
    rw [h.taken]; rfl

theorem deviceCommands_devset (h : AdminActs (.devset e) e s t) :
    (s.contexts = [] → exec (.devset e) s = .next (adminOk { t with admin := { t.admin with devid := e.extractLsb' 64 20 } } e 0#64))
      ∧ (s.contexts ≠ [] → exec (.devset e) s = .next (adminFail t e 2)) := by
  have hexec := exec_of_adminActs h rfl (show execDevset e s = _ from rfl)
  have hcontexts : t.contexts = s.contexts := by rw [h.taken]; rfl
  refine ⟨fun hnone => hexec.trans ?_, fun hsome => hexec.trans ?_⟩
  · simp only [hcontexts, hnone, ne_eq, not_true, if_false]
  · simp only [hcontexts, if_pos hsome]

theorem deviceCommands_powercap (h : AdminActs (.powercap e) e s t) :
    (1200 ≤ entryField e 8 0 16 ∧ entryField e 8 0 16 ≤ 3200 → exec (.powercap e) s
        = .next (adminOk { t with powerCap := entryField e 8 0 16 } e (BitVec.ofNat 64 (entryField e 8 0 16))))
      ∧ (entryField e 8 0 16 < 1200 ∨ 3200 < entryField e 8 0 16 → exec (.powercap e) s = .next (adminFail t e 1)) := by
  have hexec := exec_of_adminActs h rfl (show execPowercap e s = _ from rfl)
  refine ⟨fun hin => hexec.trans ?_, fun hout => hexec.trans ?_⟩
  · dsimp only
    rw [if_neg (by omega)]
  · dsimp only
    rw [if_pos (by omega)]

theorem deviceCommands_healthrd {l : List HealthEntry} (h : AdminActs (.healthrd e) e s t)
    (hl : l = (s.health.drop (entryField e 16 32 16)).take (entryField e 16 0 16))
    (hanswers : hostAnswers t (entryWord e 8).toNat (l.flatMap healthBytes).length = true) :
    exec (.healthrd e) s = .next (adminOk { t with hostMem := cellsWrite t.hostMem (entryWord e 8).toNat (l.flatMap healthBytes) } e
        (BitVec.ofNat 64 (l.length + 2 ^ 32 * s.healthLoss.toNat))) := by
  have hhealth : s.health = t.health := by rw [h.taken]; rfl
  have hloss : s.healthLoss = t.healthLoss := by rw [h.taken]; rfl
  rw [hhealth] at hl
  refine (exec_of_adminActs h rfl (show execHealthrd e s = _ from rfl)).trans ?_
  dsimp only
  rw [hloss, ← hl, adminWrite_of_answers hanswers]

theorem deviceCommands_faultsum {l : List (List Byte)} (h : AdminActs (.faultsum e) e s t) (hl : l = faultSummary t) :
    (entryField e 16 0 16 < l.length → exec (.faultsum e) s = .next (adminFail t e 3))
      ∧ (l.length ≤ entryField e 16 0 16 → hostAnswers t (entryWord e 8).toNat l.flatten.length = true →
        exec (.faultsum e) s = .next (adminOk { t with hostMem := cellsWrite t.hostMem (entryWord e 8).toNat l.flatten } e
          (BitVec.ofNat 64 l.length))) := by
  have hexec := exec_of_adminActs h rfl (show execFaultsum e s = _ from rfl)
  refine ⟨fun hmore => hexec.trans ?_, fun hfits hanswers => hexec.trans ?_⟩
  · dsimp only
    rw [← hl, if_pos hmore]
  · dsimp only
    rw [← hl, if_neg (by omega), adminWrite_of_answers hanswers]

theorem deviceCommands_safetier (h : AdminActs (.safetier e) e s t) (halign : entryField e 16 0 41 % 64 = 0)
    (hlen : 108125000000 ≤ (entryWord e 24).toNat) (hend : entryField e 16 0 41 + (entryWord e 24).toNat ≤ 2 ^ 41) :
    ∃ u, exec (.safetier e) s = .next (adminOk u e 0#64) ∧ u.mem = s.mem ∧ u.gangs = s.gangs
        ∧ (getDie u (entryField e 8 0 3)).safeTier = some (entryField e 16 0 41, (entryWord e 24).toNat) := by
  refine ⟨modDie t (entryField e 8 0 3) fun d => { d with safeTier := some (entryField e 16 0 41, (entryWord e 24).toNat) },
    (exec_of_adminActs h rfl (show execSafetier e s = _ from rfl)).trans ?_, ?_, ?_, ?_⟩
  · dsimp only
    rw [if_neg (by omega)]
  · rw [h.taken]; rfl
  · rw [h.taken]; rfl
  · rw [getDie_modDie]

theorem deviceCommands_tier :
    (AdminActs (.checkpoint e) e s t →
      (tierReady t = true → exec (.checkpoint e) s = .next (beginTier (clearFlag t) e))
      ∧ (tierReady t = false → exec (.checkpoint e) s = .next (adminFail t e 2)))
    ∧ (AdminActs (.restore e) e s t →
      (tierReady t = true → exec (.restore e) s = .next (beginTier t e))
      ∧ (tierReady t = false → exec (.restore e) s = .next (adminFail t e 2))) := by
  refine ⟨fun h => ?_, fun h => ?_⟩
  · have hexec := exec_of_adminActs h rfl (show execCheckpoint e s = _ from rfl)
    exact ⟨fun hready => hexec.trans (by simp only [hready, if_true]), fun hready => hexec.trans (by simp [hready])⟩
  · have hexec := exec_of_adminActs h rfl (show execRestore e s = _ from rfl)
    exact ⟨fun hready => hexec.trans (by simp only [hready, if_true]), fun hready => hexec.trans (by simp [hready])⟩

theorem deviceCommands_attest {nonce r l : List Byte} (h : AdminActs (.attest e) e s t)
    (hnonce : hostRead t (entryWord e 8).toNat 64 = some nonce) (hr : r = reportBytes t nonce)
    (hl : l = r ++ (List.range 4627).map (Config.signature r)) (hroom : 5419 ≤ (entryWord e 24).toNat)
    (hanswers : hostAnswers t (entryWord e 16).toNat l.length = true) :
    exec (.attest e) s = .next (adminOk { t with hostMem := cellsWrite t.hostMem (entryWord e 16).toNat l } e 5419#64) := by
  refine (exec_of_adminActs h rfl (show execAttest e s = _ from rfl)).trans ?_
  simp only [hnonce]
  rw [if_neg (by omega), ← hr, ← hl, adminWrite_of_answers hanswers]

theorem deviceCommands_keybind {die slot : Nat} (h : AdminActs (.keybind e) e s t) (hdie : die = entryField e 8 0 3)
    (hslot : slot = entryField e 16 0 6) (hne : slot ≠ 63) (hthere : dieLost t die = false) :
    (entryField e 24 1 1 = 1 → ∃ u, exec (.keybind e) s = .next (adminOk u e 0#64) ∧ findKey (getDie u die) slot = none)
      ∧ (entryField e 24 1 1 = 0 → entryField e 24 0 1 = 1 →
        ∃ u k, exec (.keybind e) s = .next (adminOk u e (k.salt.setWidth 64)) ∧ findKey (getDie u die) slot = some k
          ∧ k.ctx = some (entryCtx e))
      ∧ (∀ k, entryField e 24 1 1 = 0 → entryField e 24 0 1 = 0 → findKey (getDie t die) slot = some k →
        ∃ u, exec (.keybind e) s = .next (adminOk u e (k.salt.setWidth 64))
          ∧ findKey (getDie u die) slot = some { k with ctx := some (entryCtx e) })
      ∧ (entryField e 24 1 1 = 0 → entryField e 24 0 1 = 0 → findKey (getDie t die) slot = none →
        exec (.keybind e) s = .next (adminFail t e 2)) := by
  have hexec := exec_of_adminActs h rfl (show execKeybind e s = _ from rfl)
  dsimp only at hexec
  rw [← hdie, ← hslot, if_neg hne, hthere, if_neg (by simp)] at hexec
  refine ⟨fun herase => ⟨_, hexec.trans (by rw [if_pos herase]), findKey_putKey_none _ _ _⟩, fun hkeep hdraw => ?_,
    fun k hkeep hbind hk => ?_, fun hkeep hbind hk => ?_⟩
  · rw [hkeep, if_neg (by decide), if_pos hdraw] at hexec
    exact ⟨_, _, hexec, findKey_putKey_some _ _ rfl, rfl⟩
  · rw [hkeep, if_neg (by decide), hbind, if_neg (by decide), hk] at hexec
    have hnum : ({ k with ctx := some (entryCtx e) } : KeySlot).slot = slot := slot_of_findKey (k := k) hk
    exact ⟨_, hexec, findKey_putKey_some _ _ hnum⟩
  · rw [hkeep, if_neg (by decide), hbind, if_neg (by decide), hk] at hexec
    exact hexec

theorem deviceCommands_fwupdate {l : List Byte} (h : AdminActs (.fwupdate e) e s t)
    (hread : hostRead t (entryWord e 8).toNat (entryWord e 16).toNat = some l) :
    (imageOk t (digestOf l) = true →
        exec (.fwupdate e) s = .next (adminOk { t with firmware := t.firmware.set 0 (digestOf l) } e 0#64))
      ∧ (imageOk t (digestOf l) = false → exec (.fwupdate e) s = .next (adminFail t e 4)) := by
  have hexec := exec_of_adminActs h rfl (show execFwupdate e s = _ from rfl)
  exact ⟨fun hok => hexec.trans (by simp only [hread, hok, if_true]), fun hbad => hexec.trans (by simp [hread, hbad])⟩

end

/-- Settles O57: each command's effect is its row's own branch, on the machine that has taken it. -/
theorem deviceCommands : Obligations.DeviceCommands := by
  intro e s t
  obtain ⟨hcheckpoint, hrestore⟩ := deviceCommands_tier (e := e) (s := s) (t := t)
  exact ⟨fun leaf hleaf hbusy hpoison => deviceCommands_move hleaf hbusy hpoison, deviceCommands_shootdown, deviceCommands_devset,
    deviceCommands_powercap, fun l => deviceCommands_healthrd, fun l => deviceCommands_faultsum, deviceCommands_safetier, hcheckpoint, hrestore,
    fun nonce r l => deviceCommands_attest, fun die slot => deviceCommands_keybind, fun l => deviceCommands_fwupdate⟩

end Sys2Proof


/-!
# GSUB where a block does not stand on its gang's core (O59)

A GSUB checks the poison of its packet image on its gang's own core (R448, R460), while the span of its address lies on the core of the
gang's block. Placement puts a block on the core of its gangs, but O59 asks its clauses of every machine, and reads the poison at the
span.
-/
namespace Sys2Proof
open Machine

/-- A gang whose scalar registers hold 0. -/
def strayGang : Gang :=
  { loneGang 0 State.reset.cur.g with arch := { startArch 0#32 0 with s := Vector.replicate 64 (some 0#64) } }

/-- The gang alone, its block on core 1, the guest's attachment up with room for a job, and word 0 of the scratchpad of core 0, the
gang's, poisoned. -/
def strayBlockState : State :=
  { State.reset with
      gangs := [strayGang], blocks := [{ loneBlock 0 State.reset.cur.g with core := 1 }],
      cores := [{ CoreSt.empty 0 0 with scratchPoison := [0] }],
      links := State.reset.links.map fun l => { l with state := .active }, guest := { Guest.reset with depths := [1] } }

def strayBlockCtx : Ctx := { s := strayBlockState, g := strayGang, x := .a, act := (strayGang.arch.slot .a).mask }

def strayHead : Head := { guard := alwaysGuard, la := false, lb := false, lc := false, yld := false, stall := 0#4 }

/-- A GSUB to queue 0 whose image stands at s1, its answer in s3. -/
def strayGsub : Instr := .gsub strayHead (.s 3) (.s 1) 0#32 0#4

theorem starts_strayBlock : Starts strayBlockState strayHead (single [.s 1]) [.s 1, .s 3] strayBlockCtx :=
  ⟨⟨by rfl, by decide +kernel, by decide +kernel⟩, by decide +kernel, by decide +kernel, by decide +kernel⟩

/-- The span lies on core 1, where no word is poisoned. -/
theorem span_strayBlock : ScratchSpan strayBlockCtx (.s 1) 0#32 64 .read 0 1 0 ∧ scratchPoisoned strayBlockState 0 1 0 64 = false := by
  decide +kernel

theorem guest_strayBlock : guestUp strayBlockState = true ∧ guestFull strayBlockState 0 = false := by decide +kernel

/-- The releases that an answer leaves under way. -/
def tasksAfter : Res → Nat
  | .next t => t.tasks.length
  | _ => 0

/-- The GSUB consumes the poison on core 0, and begins no release. -/
theorem tasksAfter_strayBlock : tasksAfter (exec strayGsub strayBlockState) = 0 := by decide +kernel

/-- Refutes O59, in GSUB's first clause, which reads the poison of the packet image at the core of the gang's block: in
`strayBlockState` that is not the gang's own core, whose poison the GSUB consumes instead of beginning its release. -/
theorem not_guestProtocol : ¬ Obligations.GuestProtocol := by
  rintro ⟨⟨hgsub, -⟩, -⟩
  obtain ⟨hspan, hclean⟩ := span_strayBlock
  obtain ⟨hup, hroom⟩ := guest_strayBlock
  obtain ⟨-, hbegins⟩ := hgsub strayHead (.s 3) (.s 1) 0#32 0#4 strayBlockState strayBlockCtx 0 1 0 starts_strayBlock (by decide +kernel) hspan
  have hexec : exec strayGsub strayBlockState = _ := (hbegins hup hclean).2 hroom
  have hnone := tasksAfter_strayBlock
  rw [hexec] at hnone
  simp [tasksAfter, addTask] at hnone

end Sys2Proof
